-- ==== Sys2Proof/Word.lean ====
section
/-! DEFINITION. The word types of the machine and their plainest arithmetic (00 R3: bit 0 is the least significant). -/

namespace Sys2Proof

abbrev Byte := BitVec 8
abbrev W32 := BitVec 32
abbrev W64 := BitVec 64

/-- A register, predicate, mask or lane number. -/
abbrev SReg := Fin 32
abbrev PReg := Fin 8
abbrev MReg := Fin 16
abbrev Lane := Fin 32
abbrev TileNo := Fin 32

/-- The low 32 bits of a 64-bit value. -/
def low32 (x : W64) : W32 := x.setWidth 32

/-- Sign and zero extension of 32 bits to 64 (07 R177, sext and zext). -/
def sext32 (x : W32) : W64 := x.signExtend 64
def zext32 (x : W32) : W64 := x.setWidth 64

/-- The 64-bit value with the given halves (02 R43: the even register is the low half). -/
def join64 (lo hi : W32) : W64 := hi ++ lo

def high32 (x : W64) : W32 := x.extractLsb' 32 32

end Sys2Proof
end

