-- ==== Sys2Proof/Config.lean ====
section
/-! DEFINITION. What the spec leaves open (free values: constants without a body) and the fixed figures of the device. -/

namespace Sys2Proof.Config

/-- Free choice number `n` of the model: which of several ready agents moves next (04 R86, R91; log 4). -/
opaque pick : Nat → Nat
/-- Where the kernel has the scheduler write a cocoon (17 R328, R332 give no address; log 134). -/
opaque cocoonAddress : Nat → Nat
/-- Whether a watch has kept its line until SMWAIT looks (03 R82 lets the line be evicted at any time; log 27). -/
opaque watchKept : Nat → Bool
/-- How many cycles pass in one step (00 R1; 01 R8 lets several words issue in one cycle; log 5). -/
opaque elapsed : Nat → Nat
/-- How many steps at most stand in one cycle (log 5). -/
opaque stepsPerCycle : Nat
/-- Whether a load without `.f` finds an older line still in L1 (03 R74 sets no bound on a line's age; log 6). -/
opaque l1Keep : Nat → Bool
/-- A byte that a load receives from a remote window (19 R357 states no load; log 7). -/
opaque remoteByte : Nat → Nat → Byte
/-- The upper half that a 64-bit operand reads from a latch, which holds 32 bits a lane (02 R45; log 8). -/
opaque latchUpper : W32 → W32
/-- Which of two values a racing read of a tile or scale gives (04 R108, 12 R290; log 9). -/
opaque raceOld : Nat → Bool
/-- The result where two-sided bounds do not settle one rounding (08 R217; log 10). -/
opaque roundOpen : Nat → Nat → Nat
/-- The channel, modulo four, that the copy path takes of a pixel of a format with these bits (09 R248 names none; log 30). -/
opaque pixelLane : Nat → Nat → Nat
/-- Which command of a queue reads its next chunk ahead at a moment, counted from one; 0 for none (09 R251, 12 R291; log 137). -/
opaque readAhead : Nat → Nat
/-- The position of a stored element that a sparsity mask with too few bits does not give (09 R255; log 31). -/
opaque sparsePos : Nat → Nat → Nat
/-- The texel index that an infinite coordinate wraps to (08 R232 states none; log 36). -/
opaque wrapInf : Nat → Nat
/-- SHAKE256 with 64 bytes of output (19 R361; a standard outside the spec; log 11). -/
opaque shake256 : List Byte → Vector Byte 64
/-- Ed448: whether a signature over a message verifies under a key (19 R361; log 11). -/
opaque ed448Verify : List Byte → List Byte → List Byte → Bool
/-- Ed448: the device's signature over a message (19 R361, R365; log 11). -/
opaque ed448Sign : List Byte → Vector Byte 114
/-- The ROM, which measures itself (19 R361). -/
opaque romImage : List Byte
/-- The bytes that a bundle's one signature covers, from its version, its minimum and its images (19 R362; log 140). -/
opaque bundleBytes : Nat → Nat → List Byte → List Byte → List Byte → List Byte
/-- The fused hash of the Malrad key, and the device's identity (19 R361, R363; log 13). -/
opaque fusedKeyHash : Vector Byte 64
opaque deviceIdentity : List Byte
/-- The key of bundles that a first stage holds (19 R361 gives no place in the image; log 50). -/
opaque bundleKey : List Byte → List Byte
/-- Whether a token opens the debug lock of a device: its signature and its binding (19 R363 names no key; log 50). -/
opaque tokenOpens : List Byte → List Byte → List Byte → Bool
/-- The digest of the fuses and of the partition map that registers 5 and 6 hold (19 R361 gives no encoding; log 51). -/
opaque fuseDigest : Nat → Vector Byte 64
opaque partsDigest : List (List (Fin 4)) → Vector Byte 64
/-- The check value of a reissued key (19 R356: it changes on every reissue; log 12). -/
opaque keyCheck : Nat → W32
/-- How many spares of a kind a die has beyond one (19 R368 names the kinds and not the numbers; log 108). -/
opaque spareMore : Fin 4 → Nat → Nat
/-- The 64 KiB pages of a die's memory that lie in one row of its stacks (19 R368; log 108). -/
opaque rowPages : Fin 4 → Nat → List Nat

/-- 00 R2. -/
def dies : Nat := 4
def coresPerDie : Nat := 48
def granulesPerCore : Nat := 48
def granuleBytes : Nat := 65536
/-- 01 R9, 09 R242, 17 R320, 04 R115, 01 R26, 01 R38, 01 R25. -/
def laneQueueEntries : Nat := 8
def engineQueueEntries : Nat := 64
def launchQueueEntries : Nat := 256
def storeBufferEntries : Nat := 16
def spillEntries : Nat := 32
def returnQueueEntries : Nat := 16
def poolEntries : Nat := 16
/-- 00 R1: cycles of the 940 MHz clock in one microsecond. -/
def cyclesPerMicro : Nat := 940

end Sys2Proof.Config
end

