-- ==== Sys2Proof/Machine/Data.lean ====
section
/-! DEFINITION. Plain data the state is made of: association lists in key order of insertion, sparse byte memories in
one canonical form, and little-endian bytes (00 R3). -/

namespace Sys2Proof.Machine

open Sys2Proof

/-! ## Association lists -/

abbrev Assoc (κ α : Type) := List (κ × α)

namespace Assoc

variable {κ α : Type} [DecidableEq κ]

/-- The value at a key: the first pair that has it. -/
def get? (l : Assoc κ α) (k : κ) : Option α :=
  match l with
  | [] => none
  | (k', v) :: t => if k' = k then some v else get? t k

/-- Writes a key, in its place or at the end. -/
def set (l : Assoc κ α) (k : κ) (v : α) : Assoc κ α :=
  match l with
  | [] => [(k, v)]
  | (k', v') :: t => if k' = k then (k, v) :: t else (k', v') :: set t k v

/-- Removes a key. -/
def erase (l : Assoc κ α) (k : κ) : Assoc κ α := l.filter fun p => decide (p.1 ≠ k)

/-- Changes the value at a key, where it has one. -/
def modify (l : Assoc κ α) (k : κ) (f : α → α) : Assoc κ α :=
  match l with
  | [] => []
  | (k', v) :: t => if k' = k then (k', f v) :: t else (k', v) :: modify t k f

def getD (l : Assoc κ α) (k : κ) (d : α) : α := (get? l k).getD d

end Assoc

/-! ## Sparse byte memories -/

/-- Bytes by address. Canonical: addresses strictly rise and no entry holds what an unlisted address reads as. -/
abbrev Mem := List Host.Cell

/-- What an unlisted address reads as. DESIGN CHOICE for stacked memory (log 1), 03 R72 for scratchpad, 02 R45 for tiles. -/
def Mem.fill : Byte := 0

def Mem.get (m : Mem) (a : Nat) : Byte :=
  match m with
  | [] => Mem.fill
  | (a', b) :: t => if a' = a then b else if a < a' then Mem.fill else Mem.get t a

/-- Writes one byte and keeps the canonical form. -/
def Mem.set (m : Mem) (a : Nat) (b : Byte) : Mem :=
  match m with
  | [] => if b = Mem.fill then [] else [(a, b)]
  | (a', b') :: t =>
    if a' = a then (if b = Mem.fill then t else (a, b) :: t)
    else if a < a' then (if b = Mem.fill then (a', b') :: t else (a, b) :: (a', b') :: t)
    else (a', b') :: Mem.set t a b

/-- Every address of the list is above `lo`, rising, and no byte is the fill. -/
def Mem.wfFrom (lo : Option Nat) : Mem → Bool
  | [] => true
  | (a, b) :: t => (match lo with | none => true | some l => decide (l < a)) && decide (b ≠ Mem.fill) && Mem.wfFrom (some a) t

def Mem.wf (m : Mem) : Bool := Mem.wfFrom none m

/-- `n` bytes from `a` upward. -/
def Mem.read (m : Mem) (a : Nat) : Nat → List Byte
  | 0 => []
  | n + 1 => m.get a :: Mem.read m (a + 1) n

/-- Writes bytes from `a` upward. -/
def Mem.write (m : Mem) (a : Nat) : List Byte → Mem
  | [] => m
  | b :: t => Mem.write (m.set a b) (a + 1) t

/-- Writes cells in order. -/
def Mem.writeCells (m : Mem) (cs : List Host.Cell) : Mem := cs.foldl (fun m c => m.set c.1 c.2) m

/-! ## Little-endian bytes -/

/-- The value of bytes, the lowest address first (00 R3). -/
def leNat : List Byte → Nat
  | [] => 0
  | b :: t => b.toNat + 256 * leNat t

/-- `n` bytes of a value, the lowest address first. -/
def natLE (n v : Nat) : List Byte :=
  match n with
  | 0 => []
  | k + 1 => BitVec.ofNat 8 v :: natLE k (v / 256)

def Mem.readNat (m : Mem) (a n : Nat) : Nat := leNat (m.read a n)
def Mem.writeNat (m : Mem) (a n v : Nat) : Mem := m.write a (natLE n v)

/-- The cells of bytes laid from `a` upward. -/
def cellsAt (a : Nat) : List Byte → List Host.Cell
  | [] => []
  | b :: t => (a, b) :: cellsAt (a + 1) t

/-- Pads with zeros, or cuts, to `n` bytes. -/
def padTo (n : Nat) (l : List Byte) : List Byte := (l ++ List.replicate (n - l.length) 0).take n

/-- Bytes `o` to `o + n - 1` of a list as a value. -/
def fieldNat (l : List Byte) (o n : Nat) : Nat := leNat ((l.drop o).take n)

/-- Bits `[lo + n - 1 : lo]` of a value. -/
def bitsOf (v lo n : Nat) : Nat := v / 2 ^ lo % 2 ^ n

def bitOf (v i : Nat) : Bool := v / 2 ^ i % 2 = 1

/-- The value of `n` bits read as two's complement. -/
def signedOf (n v : Nat) : Int := if 2 ^ (n - 1) ≤ v % 2 ^ n then (v % 2 ^ n : Nat) - (2 ^ n : Nat) else (v % 2 ^ n : Nat)

/-- A function on each element. -/
def vmap {α β : Type} {n : Nat} (f : α → β) (v : Vector α n) : Vector β n := Vector.ofFn fun i => f v[i]

/-- Numbers in rising order. -/
def insertUp (x : Nat) : List Nat → List Nat
  | [] => [x]
  | y :: t => if x ≤ y then x :: y :: t else y :: insertUp x t

def rising (l : List Nat) : List Nat := l.foldl (fun acc x => insertUp x acc) []

/-- One value for each lane. -/
def lanes {α : Type} (f : Lane → α) : Vector α 32 := Vector.ofFn f

/-- A lane mask from a test. -/
def maskOf (f : Lane → Bool) : W32 := BitVec.ofNat 32 ((List.finRange 32).foldl (fun n l => if f l then n + 2 ^ l.val else n) 0)

def laneBit (m : W32) (l : Lane) : Bool := m.getLsbD l.val

/-- Updates the first element that meets a test. -/
def updFirst {α : Type} (p : α → Bool) (f : α → α) : List α → List α
  | [] => []
  | x :: t => if p x then f x :: t else x :: updFirst p f t

/-- Removes the first element that meets a test. -/
def dropFirst {α : Type} (p : α → Bool) : List α → List α
  | [] => []
  | x :: t => if p x then t else x :: dropFirst p t

/-- The element at an index, replaced. -/
def setAt {α : Type} (l : List α) (i : Nat) (x : α) : List α := l.set i x

end Sys2Proof.Machine
end

