-- ==== Sys2Proof/Syntax.lean ====
section
/-! DEFINITION. The instruction set: operand types, the payloads of events, and Instr, one constructor per row of the opcode table. -/

namespace Sys2Proof

/-! ## Fields of scalar words -/

/-- 06 R154: the word executes when predicate `pred` differs from `neg`. -/
structure Guard where
  neg : Bool
  pred : PReg
  deriving DecidableEq, Repr

/-- 04 R88, codes 0 to 5. -/
inductive Scope | st | wg | cl | die | dev | sys
  deriving DecidableEq, Repr

/-- 06 R155: access sizes of SM and SMA. -/
inductive Size | b1 | b2 | b4 | b8
  deriving DecidableEq, Repr

/-- 06 R161. -/
inductive Cond | eq | ne | lt | le | gt | ge | lo | ls | hi | hs | feq | fne | flt | fle | fgt | fge | fun
  deriving DecidableEq, Repr

/-- 06 R159, SSETP: width of the comparison. -/
inductive CmpWidth | i64 | i32 | f32
  deriving DecidableEq, Repr

/-- 01 R13. -/
inductive Role | vector | copy | matrix
  deriving DecidableEq, Repr

/-- 07 R191 and 08 R233. -/
inductive AtomOp | add | and | or | xor | min | max | swap | cas
  deriving DecidableEq, Repr

/-- 09 R246. -/
inductive Transform | copy | transpose | convert | convertScale | rowScale | expand | compress | gatherRows
  deriving DecidableEq, Repr

/-- 06 R170, codes 0 to 7. -/
inductive PairType | e4e4 | e4e5 | e5e4 | e5e5 | i8i8 | bf16bf16 | f16f16 | bf16nq4
  deriving DecidableEq, Repr

/-- 06 R169. -/
inductive Sparsity | dense | s8 | s16
  deriving DecidableEq, Repr

/-- The SX fields of a matrix word (06 R169, R171): `m` and `n` are the codes of [4:3] and [2:1]. -/
structure MatFields where
  tile : TileNo
  fa : Fin 4
  fb : Fin 2
  m : Fin 4
  n : Fin 4
  eighth : Bool
  pair : PairType
  acc : Bool
  sparsity : Sparsity
  deriving DecidableEq, Repr

/-- 09 R260. -/
inductive CollKind | allReduce | reduceScatter | allGather | broadcast
  deriving DecidableEq, Repr
inductive CollOp | add | min | max
  deriving DecidableEq, Repr

/-- 01 R15: the levels of work. -/
inductive Level | unit | launch | run | phase | job
  deriving DecidableEq, Repr

/-- 07 R206. -/
inductive CountItem | completed | cancelled | state | errors
  deriving DecidableEq, Repr

/-- 09 R265. -/
inductive StatItem | sub | late | dup | early | expired | malformed | mstate | mnum | cut | mframe
  deriving DecidableEq, Repr

/-! ## The vector word -/

/-- 06 R165. -/
inductive Ty | i32 | w32 | i64 | w64 | i16 | w16 | i8 | w8 | f32 | f16 | bf16 | e4m3 | e5m2 | nq4
  deriving DecidableEq, Repr

/-- 06 R163. -/
inductive Operand
  | reg (i : Fin 128)
  | latch (i : Fin 128)
  | special (i : Fin 128)
  | imm
  deriving DecidableEq, Repr

/-- A vector word less its opcode (06 R162). The modifier keeps its bits; R166 names them by group. -/
structure VWord where
  neg : Bool
  gm : MReg
  chain : Bool
  nowb : Bool
  ty : Ty
  dst : Fin 128
  a : Operand
  b : Operand
  c : Operand
  mod : BitVec 11
  imm : W32
  deriving DecidableEq, Repr

/-! ## Names of the machine's parts, as events use them -/

/-- A resident workgroup has a number of its own; a strand is that and its STRAND number. -/
structure StrandId where
  wg : Nat
  strand : Fin 32
  deriving DecidableEq, Repr

/-- An instance of a level of work (01 R15). -/
structure InstId where
  level : Level
  id : Nat
  deriving DecidableEq, Repr

structure CoreId where
  die : Fin 4
  core : Fin 48
  deriving DecidableEq, Repr

/-- Every queue with a timeline (04 R105, 09 R242, 17 R320, 05 R136). -/
inductive QueueKey
  | launch (world num : Nat)
  | copy (core : CoreId) (q : Fin 4)
  | matrix (wg : Nat)
  | coll (die : Fin 4)
  | raster (ctx node : Nat)
  deriving DecidableEq, Repr

/-- A hardware barrier (07 R198). -/
inductive BarKey
  | wg (wg num : Nat)
  | cluster (launch idx num : Nat)
  | launch (launch num : Nat)
  deriving DecidableEq, Repr

/-! ## Payloads of events -/

/-- 05 R117. -/
structure NodeDesc where
  kind : Nat
  trigger : Nat
  reserved0 : Nat
  deadline : Nat
  launch : Nat
  state : Nat
  size : Nat
  reserved1 : Nat
  deriving DecidableEq, Repr

/-- 05 R118. -/
structure EdgeDesc where
  ring : Nat
  producer : Nat
  consumer : Nat
  frames : Nat
  units : Nat
  slots : Nat
  batch : Nat
  layout : Nat
  depth : Nat
  reserved0 : Nat
  budget : Nat
  rate : Nat
  reserved1 : Nat
  deriving DecidableEq, Repr

/-- 05 R120: one entry of a field layout. -/
structure FieldEntry where
  offset : Nat
  format : Nat
  count : Nat
  rule : Nat
  deriving DecidableEq, Repr

/-- 05 R137: one cut configuration; `ports` gives the Ethernet port of each remote edge. -/
structure CutConfig where
  owner : W64
  ports : List (Nat × Fin 4)
  peer : Nat
  deriving DecidableEq, Repr

/-- What a timeline handle names (02 R45, 09 R242, 17 R320): a queue of the world, or the issuing strand's own
copy, matrix or collective queue, or a raster node's queue. -/
inductive HandleTarget
  | launchQueue (num : Nat)
  | copyQueue
  | matrixQueue
  | collQueue
  | rasterQueue (node : Nat)
  deriving DecidableEq, Repr

/-- 09 R260: the group table's entry: G members, and this member's rank. -/
structure GroupEntry where
  members : Nat
  rank : Nat
  deriving DecidableEq, Repr

/-- The tables a runtime writes when it creates a graph context (05 R116, R121; 16 R312). -/
structure ContextImage where
  world : Nat
  paired : Bool
  far : Bool
  peerContext : Nat
  period : Nat
  epoch : Nat
  nodes : List NodeDesc
  edges : List EdgeDesc
  layouts : List (List FieldEntry)
  cuts : List CutConfig
  cut : Nat
  barriers : List (BitVec 8)
  handles : List (Option HandleTarget)
  records : List (List Byte)
  groups : List (Nat × GroupEntry)
  deriving DecidableEq, Repr

/-- A graph datagram as it stands on the wire after its cipher (05 R140). -/
structure Datagram where
  kind : Nat
  context : Nat
  edge : Nat
  group : Nat
  records : Nat
  frame : Nat
  sequence : Nat
  first : Nat
  length : Nat
  payload : List Byte
  deriving DecidableEq, Repr

/-- A datagram's arrival: its port, and the world and the peer of the flow it came on (05 R137, R139). -/
structure Arrival where
  port : Fin 4
  world : Nat
  dg : Datagram
  peer : Nat := 0
  deriving DecidableEq, Repr

/-- The header of another member's collective, as the first exchange compares it (09 R261). -/
structure CollHeader where
  kind : CollKind
  op : CollOp
  ty : Nat
  count : Nat
  deriving DecidableEq, Repr

/-- 19 R356: a region entry. -/
structure Region where
  base : Nat
  length : Nat
  check : W32
  world : Nat
  read : Bool
  write : Bool
  atomic : Bool
  state : Nat
  deriving DecidableEq, Repr

/-- What an RMA message does at its target (19 R356, R357). -/
inductive RmaOp | write | atomicAdd | read
  deriving DecidableEq, Repr

/-- 19 R357: one packet of a message as it arrives. -/
structure RmaPacket where
  port : Nat
  peer : Nat
  handle : Nat
  check : W32
  message : Nat
  sender : Nat
  index : Nat
  packets : Nat
  op : RmaOp
  offset : Nat
  payload : List Byte
  counter : Option Nat
  deriving DecidableEq, Repr

/-- 19 R357, R359: what a peer returns for a message of this device, at a port (1 fabric, 2 to 5 Ethernet): the packets it has, or
the target offset of the packet that it has refused. -/
structure RmaAck where
  port : Nat
  peer : Nat
  message : Nat
  got : List Nat
  refused : Option Nat
  deriving DecidableEq, Repr

/-- 19 R358. -/
structure Triggered where
  world : Nat
  counter : Nat
  threshold : Nat
  request : RmaPacket
  deriving DecidableEq, Repr

/-- 19 R354. -/
structure FirewallWindow where
  base : Nat
  length : Nat
  world : Nat
  read : Bool
  write : Bool
  deriving DecidableEq, Repr

/-- A window entry of 19 R357. -/
structure RemoteWindow where
  port : Nat
  peer : Nat
  handle : Nat
  check : W32
  offset : Nat
  deriving DecidableEq, Repr

/-- 19 R354: an inbound request at a port (6 ports: 0 host, 1 fabric, 2 to 5 Ethernet), for a partition. `hdm`: a CXL.mem
request of the host, whose address counts from the start of the host-managed window (19 R353). -/
structure Inbound where
  part : Fin 4
  port : Fin 6
  addr : Nat
  length : Nat
  write : Bool
  data : List Byte
  hdm : Bool := false
  deriving DecidableEq, Repr

/-- 19 R361: an image with its signature. -/
structure SignedImage where
  bytes : List Byte
  signature : List Byte
  deriving DecidableEq, Repr

/-- 19 R362: one signed bundle of three images. -/
structure Bundle where
  version : Nat
  minimum : Nat
  kernel : List Byte
  monitor : List Byte
  firmware : List Byte
  signature : List Byte
  deriving DecidableEq, Repr

/-- What a boot finds: the Malrad key, the first stage, and the base and length of the memory that the host manages through
CXL.mem, where the host port runs CXL (19 R353). -/
structure BootImages where
  malradKey : List Byte
  firstStage : SignedImage
  hdm : Option (Nat × Nat)
  deriving DecidableEq, Repr

/-- 19 R368: a unit of a die that a spare replaces. -/
inductive SpareUnit
  | core (c : CoreId)
  | rows (c : CoreId)
  | l2Way (die : Fin 4) (slice : Fin 64)
  | lane (die other : Fin 4)
  | stackRow (die : Fin 4) (row : Nat)
  | page (die : Fin 4) (page : Nat)
  deriving DecidableEq, Repr

/-! ## Inputs: what the outside hands the machine, first come first -/

/-- One input of the machine, as it stands in State.inbox: a datagram at a port, a message, a request to the hub, the
security block or the management core, or an operation of a world's runtime. -/
inductive Input
  | datagram (a : Arrival) (cipherOk : Bool)
  | rmaPacket (p : RmaPacket) (cipherOk : Bool)
  | rmaAck (a : RmaAck) (cipherOk : Bool)
  | trigger (t : Triggered)
  | region (handle : Nat) (r : Region)
  | firewall (port : Fin 6) (part : Fin 4) (idx : Fin 256) (w : Option FirewallWindow)
  | window (idx : Fin 4096) (w : Option RemoteWindow)
  | inbound (r : Inbound) (cipherOk : Bool)
  | bootImages (img : BootImages)
  | nonce (bytes : List Byte)
  | bundle (b : Bundle)
  | token (t : SignedImage)
  | partition (parts : List (List (Fin 4)))
  | tolerance (micros : Nat)
  | submit (world ctx desc : Nat)
  | createQueue (world num priority ctx : Nat)
  | createContext (id : Nat) (img : ContextImage)
  | closeJob (world : Nat)
  | destroyContext (ctx : Nat)
  | destroyQueue (world num : Nat)
  | createWorld (protect : Bool) (image : SignedImage) (key : List Byte) (register : Fin 16) (id : Nat)
  | doorbell
  deriving DecidableEq, Repr

/-! ## The instructions and events: one constructor per row of spec/opcode_table.json -/

inductive Instr
  -- scalar stream
  | snop (g : Guard) | sbrk (g : Guard) | syield (g : Guard) | sexit (g : Guard)
  | sfence (g : Guard) (sc : Scope)
  | sadd (g : Guard) (d a b : SReg) | ssub (g : Guard) (d a b : SReg) | smul (g : Guard) (d a b : SReg)
  | smulh (g : Guard) (d a b : SReg) | smulhw (g : Guard) (d a b : SReg) | sdivw (g : Guard) (d a b : SReg)
  | sremw (g : Guard) (d a b : SReg) | sand (g : Guard) (d a b : SReg) | sor (g : Guard) (d a b : SReg)
  | sxor (g : Guard) (d a b : SReg) | sshl (g : Guard) (d a b : SReg) | sshr (g : Guard) (d a b : SReg)
  | ssra (g : Guard) (d a b : SReg) | smin (g : Guard) (d a b : SReg) | smax (g : Guard) (d a b : SReg)
  | sminw (g : Guard) (d a b : SReg) | smaxw (g : Guard) (d a b : SReg) | ssel (g : Guard) (d a b : SReg)
  | sclz (g : Guard) (d a : SReg) | spopc (g : Guard) (d a : SReg)
  | saddi (g : Guard) (d a : SReg) (imm : BitVec 12) | sandi (g : Guard) (d a : SReg) (imm : BitVec 12)
  | sori (g : Guard) (d a : SReg) (imm : BitVec 12) | sxori (g : Guard) (d a : SReg) (imm : BitVec 12)
  | sshli (g : Guard) (d a : SReg) (sh : Fin 64) | sshri (g : Guard) (d a : SReg) (sh : Fin 64)
  | ssrai (g : Guard) (d a : SReg) (sh : Fin 64)
  | sli (g : Guard) (d : SReg) (lit : W32) | slih (g : Guard) (d : SReg) (lit : W32)
  | ssetp (g : Guard) (d : PReg) (a b : SReg) (c : Cond) (w : CmpWidth)
  | spand (g : Guard) (d a b : PReg) | spor (g : Guard) (d a b : PReg) | spxor (g : Guard) (d a b : PReg)
  | spnot (g : Guard) (d a : PReg) | spmov (g : Guard) (d a : PReg)
  | sld (g : Guard) (d a : SReg) (fresh : Bool) (z : Size) (off : BitVec 9)
  | sldx (g : Guard) (d a : SReg) (fresh : Bool) (z : Size) (off : BitVec 9)
  | sst (g : Guard) (d a : SReg) (z : Size) (off : BitVec 9)
  | slda (g : Guard) (d a : SReg) (sc : Scope) (z : Size) (off : BitVec 7)
  | sstl (g : Guard) (d a : SReg) (sc : Scope) (z : Size) (off : BitVec 7)
  | satom (g : Guard) (d a b : SReg) (op : AtomOp) (wide : Bool) (sc : Scope)
  | sbr (g : Guard) (off : BitVec 22) | scall (g : Guard) (off : BitVec 22)
  | sjr (g : Guard) (a : SReg) | sjalr (g : Guard) (d a : SReg) | sret (g : Guard)
  | slq (g : Guard) (index : BitVec 22) (first : SReg) (count : Fin 9)
  | slwait (g : Guard) (k : Fin 8) | sgetr (g : Guard) (d : SReg) (q : Fin 8)
  | sbar (g : Guard) (h : Fin 64) | sbara (g : Guard) (h : Fin 64)
  | slinit (g : Guard) (a : SReg) | slexp (g : Guard) (a b : SReg) | slwt (g : Guard) (a b : SReg)
  | slgen (g : Guard) (d a : SReg)
  | smon (g : Guard) (a : SReg) | smwait (g : Guard) (d a : SReg) | smdis (g : Guard)
  | stlwait (g : Guard) (h : Fin 16) (b : SReg) | stlthr (g : Guard) (h : Fin 16) (b : SReg)
  | stlrd (g : Guard) (d : SReg) (h : Fin 16)
  | slaunch (g : Guard) (d a : SReg) (nb : Bool)
  | scancel (g : Guard) (d a : SReg) (l : Level) | scnt (g : Guard) (d : SReg) (v : CountItem) (l : Level)
  | cpy (g : Guard) (a b c : SReg) (t : Transform) (fifo : Bool)
  | cpyThen (g : Guard) (a b c : SReg) (t : Transform) (fifo : Bool) (follow : W32)
  | cpyset (g : Guard) (a : SReg)
  | mma (g : Guard) (m : MatFields) | mmap (g : Guard) (m : MatFields)
  | mzero (g : Guard) (t : TileNo) | mguide (g : Guard) (d a b : TileNo) (w : SReg)
  | ccol (g : Guard) (a b c : SReg) (k : CollKind) (op : CollOp)
  | gemit (g : Guard) (d a b r : SReg) | gclose (g : Guard) (d a b : SReg) | gcut (g : Guard) (d a b : SReg)
  | gstat (g : Guard) (d a : SReg) (i : StatItem)
  | sgate (g : Guard) (d a b : SReg) (len : BitVec 7) | sgatew (g : Guard) (d a b : SReg)
  | strap (g : Guard) (code : BitVec 12) | srds (g : Guard) (d : SReg) (i : Fin 128)
  | swrs (g : Guard) (a : SReg) (idx : BitVec 12)
  | fdtb (g : Guard) (a : SReg) | fdtsync (g : Guard) (a : SReg) | gatereg (g : Guard) (a : SReg)
  | gateclose (g : Guard) (a : SReg) | gatereply (g : Guard) (a : SReg) | debugen (g : Guard) (a : SReg)
  | picins (g : Guard) (d a b : SReg) (last : Fin 32)
  -- vector stream
  | vnop (w : VWord) | vadd (w : VWord) | vsub (w : VWord) | vmul (w : VWord) | vmulh (w : VWord) | vmad (w : VWord)
  | vmin (w : VWord) | vmax (w : VWord) | vabs (w : VWord) | vand (w : VWord) | vor (w : VWord) | vxor (w : VWord)
  | vnot (w : VWord) | vshl (w : VWord) | vshr (w : VWord) | vsra (w : VWord) | vclz (w : VWord) | vpopc (w : VWord)
  | vbfe (w : VWord) | vbfi (w : VWord) | vmov (w : VWord) | vsel (w : VWord) | vidx (w : VWord)
  | vfadd (w : VWord) | vfsub (w : VWord) | vfmul (w : VWord) | vfma (w : VWord) | vfmin (w : VWord) | vfmax (w : VWord)
  | vfrcp (w : VWord) | vfrsq (w : VWord) | vfsqrt (w : VWord) | vfexp2 (w : VWord) | vflog2 (w : VWord)
  | vfsin (w : VWord) | vfcos (w : VWord) | vfdiv (w : VWord)
  | vcvt (w : VWord) | vpack (w : VWord) | vunpk (w : VWord) | vqnq4 (w : VWord) | vdq (w : VWord)
  | vsetm (w : VWord) | vmand (w : VWord) | vmor (w : VWord) | vmxor (w : VWord) | vmnot (w : VWord)
  | vballot (w : VWord) | vany (w : VWord) | vall (w : VWord)
  | vshfl (w : VWord) | vbcast (w : VWord) | vredx (w : VWord) | vscan (w : VWord) | vqswap (w : VWord)
  | vld (w : VWord) | vst (w : VWord) | vlds (w : VWord) | vsts (w : VWord) | vldf (w : VWord) | vatom (w : VWord)
  | vred (w : VWord) | vpicot (w : VWord) | vlda (w : VWord) | vstl (w : VWord) | vsample (w : VWord)
  | vaccrd (w : VWord) | vaccwr (w : VWord) | vaccscl (w : VWord)
  | vbr (w : VWord) | vjoin (w : VWord) | vend (w : VWord) | vexit (w : VWord) | vyield (w : VWord) | vtag (w : VWord)
  | vinterp (w : VWord) | vderiv (w : VWord) | vfragout (w : VWord) | vdiscard (w : VWord) | vrec (w : VWord)
  | vemit (w : VWord)
  -- events of the strands and cores
  | picotInvocation (sid : StrandId)
  | blockComplete (sid : StrandId) | laneQueueEnqueue (sid : StrandId) | slwaitReturn (sid : StrandId)
  | barrierPhaseComplete (k : BarKey) | slwtReturn (sid : StrandId) | smwaitWake (sid : StrandId)
  | smwaitTimeout (sid : StrandId) | stlwaitReturn (sid : StrandId) | stlthrReturn (sid : StrandId)
  | slaunchReturn (sid : StrandId) | sgatewReturn (sid : StrandId) | strandPromotion (sid : StrandId)
  | splitRotation (sid : StrandId) (slot : Bool) | memoryReturn (sid : StrandId) (k : Nat) (slotFree : Bool)
  | storePerformed (sid : StrandId) (k : Nat) | integrityCheckFail (sid : StrandId) (k : Nat)
  | writeApply (die : Fin 4) (k : Nat) | reductionCopyCombine (die : Fin 4) (line : Nat)
  | engineWordAccept (sid : StrandId)
  -- engines
  | copyChunk (core : CoreId) (q : Fin 4) | mmapDecision (core : CoreId) (id : Nat)
  | matrixWordStart (core : CoreId) (id : Nat) | matrixRowPop (core : CoreId) (id : Nat)
  | matrixWordComplete (core : CoreId) (id : Nat) | matrixWordEnded (core : CoreId) (id : Nat)
  | collectiveExchange (die : Fin 4) (others : List CollHeader)
  | collectiveComplete (die : Fin 4) (sources : List (List W32))
  -- instances, placement, launches
  | instanceComplete (i : InstId) | instanceSettle (i : InstId)
  | granuleZeroingDone (core : CoreId) (g : Fin 48)
  | workgroupPlacement (launch : Nat) (cores : List CoreId)
  | watchdog (launch : Nat)
  | drain (world : Nat) (cores : List CoreId) (timeout area : Nat) | drainTimeout (world : Nat)
  | forcedSave (wg : Nat) (addr : Nat) | cocoonRestore (k : Nat) (core : CoreId)
  -- translation and faults
  | pageWalk (die : Fin 4) | inval (world va log2 : Nat) | invalall (world : Nat)
  | qrestart (world : Nat) (q : QueueKey)
  | resolveResume (world seq : Nat) | resolveEnd (world seq : Nat) | resolveNext (world seq : Nat)
  | resolveAck (world seq : Nat)
  | worldPartitionWrite (core : CoreId) (idx : Fin 8) (val : W64)
  | worldTranslationRecord (world : Nat) (root : W64) (queueBase : W64) (depth : Nat)
  | worldReleaseScrub (world : Nat) (bad : List Nat)
  -- stage graphs
  | frameStart (ctx : Nat) | nodeFrameDeadline (ctx node frame : Nat) | edgeDeadline (ctx edge : Nat)
  | datagramSend (port : Fin 4) | datagramExpired (port : Fin 4)
  | controlResend (ctx k : Nat) | failed (ctx k : Nat) | fragmentMerge (ctx node k : Nat)
  -- links, trust, power
  | rmaResend (message : Nat)
  | keyRevocation (handle : Nat)
  | fabricRekey (link : Fin 18)
  | crashDump (buffer : Nat)
  | spareBringIn (unit : SpareUnit)
  | unassignedMajor (w : W32) | unassignedVectorOpcode (w : BitVec 96)
  | drainResumption (world : Nat) | ptpSync (ctx : Nat) (offset : Int)
  | picinsComplete (sid : StrandId) | fdtsyncComplete (sid : StrandId)
  -- events whose operands stand at the head of State.inbox, or that have none
  | invalComplete
  | data | parity | malformedDatagram | cutPropose | cutAck | cutCommit | commitAck | cutAbort | abortAck
  | handover | handoverAck
  | rmaPacketArrival | rmaAcknowledgement | triggeredRequestPost | regionEntryWrite | firewallWindowWrite | inboundRequest
  | boot | getMeasurements | bundleUpdate | bundleWatchdog | remoteAttestation | debugLockOpen
  | powerStateEntry | powerStateExit | powerExitComplete | hardPartitionChange
  | launchSubmission | queueCreate | contextCreate | jobClose | contextDestroy | queueDestroy | worldCreate
  deriving DecidableEq, Repr

end Sys2Proof
end

