-- ==== Sys2Proof/Decode.lean ====
section
/-! DEFINITION. The decoder of scalar, vector and picot-free words (06 R154 to R172), total on any bytes and rejecting
by name, and the encoder. Role, allocation and handle checks need the strand: they are made at execution (06 R158, 3 and 4). -/

namespace Sys2Proof

/-- Why a word is refused. Each raises ILLEGAL_INSTR (06 R158, checks 1 and 2). -/
inductive DecodeErr
  | short | reservedGuard | functionCode | unusedField | scope | combination | reservedType | operand | modifier
  deriving DecidableEq, Repr

/-! ## Codes -/

/-- `n` bits of `w` from bit `lo`. -/
def fld (w lo n : Nat) : Nat := w / 2 ^ lo % 2 ^ n

def reg (w lo : Nat) : Fin 32 := Fin.ofNat 32 (w / 2 ^ lo)

def bit (w i : Nat) : Bool := w / 2 ^ i % 2 == 1

def scopeOf : Nat → Option Scope
  | 0 => some .st | 1 => some .wg | 2 => some .cl | 3 => some .die | 4 => some .dev | 5 => some .sys
  | _ => none

def Scope.code : Scope → Nat
  | .st => 0 | .wg => 1 | .cl => 2 | .die => 3 | .dev => 4 | .sys => 5

def sizeOf' : Nat → Size
  | 0 => .b1 | 1 => .b2 | 2 => .b4 | _ => .b8

def Size.code : Size → Nat
  | .b1 => 0 | .b2 => 1 | .b4 => 2 | .b8 => 3

def Size.bytes : Size → Nat
  | .b1 => 1 | .b2 => 2 | .b4 => 4 | .b8 => 8

/-- 06 R161. -/
def condOf : Nat → Option Cond
  | 0 => some .eq | 1 => some .ne | 2 => some .lt | 3 => some .le | 4 => some .gt | 5 => some .ge
  | 6 => some .lo | 7 => some .ls | 8 => some .hi | 9 => some .hs
  | 16 => some .feq | 17 => some .fne | 18 => some .flt | 19 => some .fle | 20 => some .fgt | 21 => some .fge
  | 22 => some .fun
  | _ => none

def Cond.code : Cond → Nat
  | .eq => 0 | .ne => 1 | .lt => 2 | .le => 3 | .gt => 4 | .ge => 5 | .lo => 6 | .ls => 7 | .hi => 8 | .hs => 9
  | .feq => 16 | .fne => 17 | .flt => 18 | .fle => 19 | .fgt => 20 | .fge => 21 | .fun => 22

def Cond.isFloat (c : Cond) : Bool := 16 ≤ c.code

def widthOf : Nat → Option CmpWidth
  | 0 => some .i64 | 1 => some .i32 | 2 => some .f32 | _ => none

def CmpWidth.code : CmpWidth → Nat
  | .i64 => 0 | .i32 => 1 | .f32 => 2

/-- 07 R191: the operations of SATOM. -/
def atomOf : Nat → AtomOp
  | 0 => .add | 1 => .and | 2 => .or | 3 => .xor | 4 => .min | 5 => .max | 6 => .swap | _ => .cas

def AtomOp.code : AtomOp → Nat
  | .add => 0 | .and => 1 | .or => 2 | .xor => 3 | .min => 4 | .max => 5 | .swap => 6 | .cas => 7

def transformOf : Nat → Option Transform
  | 0 => some .copy | 1 => some .transpose | 2 => some .convert | 3 => some .convertScale | 4 => some .rowScale
  | 5 => some .expand | 6 => some .compress | 7 => some .gatherRows
  | _ => none

def Transform.code : Transform → Nat
  | .copy => 0 | .transpose => 1 | .convert => 2 | .convertScale => 3 | .rowScale => 4 | .expand => 5
  | .compress => 6 | .gatherRows => 7

def pairTypeOf : Nat → Option PairType
  | 0 => some .e4e4 | 1 => some .e4e5 | 2 => some .e5e4 | 3 => some .e5e5 | 4 => some .i8i8 | 5 => some .bf16bf16
  | 6 => some .f16f16 | 7 => some .bf16nq4
  | _ => none

def PairType.code : PairType → Nat
  | .e4e4 => 0 | .e4e5 => 1 | .e5e4 => 2 | .e5e5 => 3 | .i8i8 => 4 | .bf16bf16 => 5 | .f16f16 => 6 | .bf16nq4 => 7

def sparsityOf : Nat → Option Sparsity
  | 0 => some .dense | 1 => some .s8 | 2 => some .s16 | _ => none

def Sparsity.code : Sparsity → Nat
  | .dense => 0 | .s8 => 1 | .s16 => 2

def levelOf : Nat → Option Level
  | 0 => some .unit | 1 => some .launch | 2 => some .run | 3 => some .phase | 4 => some .job | _ => none

def Level.code : Level → Nat
  | .unit => 0 | .launch => 1 | .run => 2 | .phase => 3 | .job => 4

def countOf : Nat → CountItem
  | 0 => .completed | 1 => .cancelled | 2 => .state | _ => .errors

def CountItem.code : CountItem → Nat
  | .completed => 0 | .cancelled => 1 | .state => 2 | .errors => 3

def collKindOf : Nat → CollKind
  | 0 => .allReduce | 1 => .reduceScatter | 2 => .allGather | _ => .broadcast

def CollKind.code : CollKind → Nat
  | .allReduce => 0 | .reduceScatter => 1 | .allGather => 2 | .broadcast => 3

def collOpOf : Nat → Option CollOp
  | 0 => some .add | 1 => some .min | 2 => some .max | _ => none

def CollOp.code : CollOp → Nat
  | .add => 0 | .min => 1 | .max => 2

def statOf : Nat → Option StatItem
  | 0 => some .sub | 1 => some .late | 2 => some .dup | 3 => some .early | 4 => some .expired | 5 => some .malformed
  | 6 => some .mstate | 7 => some .mnum | 8 => some .cut | 9 => some .mframe
  | _ => none

def StatItem.code : StatItem → Nat
  | .sub => 0 | .late => 1 | .dup => 2 | .early => 3 | .expired => 4 | .malformed => 5 | .mstate => 6 | .mnum => 7
  | .cut => 8 | .mframe => 9

/-- 06 R165. -/
def tyOf : Nat → Option Ty
  | 0 => some .i32 | 1 => some .w32 | 2 => some .i64 | 3 => some .w64 | 4 => some .i16 | 5 => some .w16
  | 6 => some .i8 | 7 => some .w8 | 8 => some .f32 | 9 => some .f16 | 10 => some .bf16 | 11 => some .e4m3
  | 12 => some .e5m2 | 13 => some .nq4
  | _ => none

def Ty.code : Ty → Nat
  | .i32 => 0 | .w32 => 1 | .i64 => 2 | .w64 => 3 | .i16 => 4 | .w16 => 5 | .i8 => 6 | .w8 => 7 | .f32 => 8
  | .f16 => 9 | .bf16 => 10 | .e4m3 => 11 | .e5m2 => 12 | .nq4 => 13

/-- Width in bits of a value of the type. -/
def Ty.bits : Ty → Nat
  | .i32 | .w32 | .f32 => 32
  | .i64 | .w64 => 64
  | .i16 | .w16 | .f16 | .bf16 => 16
  | .i8 | .w8 | .e4m3 | .e5m2 => 8
  | .nq4 => 4

/-- Bytes of a memory access of the type (08 R229); `nq4` has none. -/
def Ty.bytes (t : Ty) : Nat := t.bits / 8

def Ty.wide (t : Ty) : Bool := t.bits == 64

def Ty.isFloat : Ty → Bool
  | .f32 | .f16 | .bf16 => true
  | _ => false

/-- A signed integer type. -/
def Ty.signed : Ty → Bool
  | .i32 | .i64 | .i16 | .i8 => true
  | _ => false

/-! ## Guard -/

def guardOf (w : Nat) : Guard := ⟨bit w 31, Fin.ofNat 8 (w / 2 ^ 28)⟩

/-- 06 R154: 0b1000 is reserved. -/
def Guard.legal (g : Guard) : Bool := !(g.neg && decide (g.pred = 0))

def Guard.bits (g : Guard) : Nat := (if g.neg then 2 ^ 31 else 0) + g.pred.val * 2 ^ 28

/-! ## Matrix words (06 R169 to R172) -/

def PairType.is8 (p : PairType) : Bool := p.code ≤ 4

/-- M, N and K of a shape (06 R170, R171). -/
def MatFields.dims (m : MatFields) : Nat × Nat × Nat :=
  (16 * 2 ^ m.m.val,
   (if m.pair.is8 then [16, 32, 128, 256] else [16, 32, 64, 128]).getD m.n.val 16,
   (if m.pair.is8 then 512 else 256) / (if m.eighth then 8 else 1))

/-- A word that writes tiles j and j + 1 (06 R172). -/
def MatFields.wide (m : MatFields) : Bool := m.dims.2.1 == 256

def matFieldsOf (w : Nat) : Option MatFields :=
  match pairTypeOf (fld w 5 4), sparsityOf (fld w 2 2) with
  | some p, some sp =>
    some { tile := reg w 17, fa := Fin.ofNat 4 (w / 2 ^ 15), fb := Fin.ofNat 2 (w / 2 ^ 14), m := Fin.ofNat 4 (w / 2 ^ 12),
           n := Fin.ofNat 4 (w / 2 ^ 10), eighth := bit w 9, pair := p, acc := bit w 4, sparsity := sp }
  | _, _ => none

/-- 06 R172: N = 256 with tile 31. -/
def MatFields.legal (m : MatFields) : Bool := !(m.wide && decide (m.tile = 31))

def b2n (b : Bool) : Nat := if b then 1 else 0

def MatFields.word (m : MatFields) (mode : Nat) : Nat :=
  m.tile.val * 2 ^ 17 + m.fa.val * 2 ^ 15 + m.fb.val * 2 ^ 14 + m.m.val * 2 ^ 12 + m.n.val * 2 ^ 10
    + b2n m.eighth * 2 ^ 9 + m.pair.code * 2 ^ 5 + b2n m.acc * 2 ^ 4 + m.sparsity.code * 2 ^ 2 + mode

/-! ## The scalar decoder -/

/-- Majors whose word takes a second one (06 R157). -/
def twoWords (w : Nat) : Bool :=
  match fld w 22 6 with
  | 0x09 | 0x0A | 0x16 => true
  | 0x20 => bit w 1
  | _ => false

def illegal {α : Type} (e : DecodeErr) : Except DecodeErr α := .error e

/-- The word, where the fields it does not name are zero. -/
def need (b : Bool) (e : DecodeErr) (i : Instr) : Except DecodeErr Instr := if b then .ok i else .error e

/-- Major 0x01 (07 R182). -/
def alu (g : Guard) (f : Nat) (d a b : SReg) : Except DecodeErr Instr :=
  match f with
  | 0 => .ok (.sadd g d a b) | 1 => .ok (.ssub g d a b) | 2 => .ok (.smul g d a b) | 3 => .ok (.smulh g d a b)
  | 4 => .ok (.smulhw g d a b) | 5 => .ok (.sdivw g d a b) | 6 => .ok (.sremw g d a b) | 7 => .ok (.sand g d a b)
  | 8 => .ok (.sor g d a b) | 9 => .ok (.sxor g d a b) | 10 => .ok (.sshl g d a b) | 11 => .ok (.sshr g d a b)
  | 12 => .ok (.ssra g d a b) | 13 => .ok (.smin g d a b) | 14 => .ok (.smax g d a b) | 15 => .ok (.sminw g d a b)
  | 16 => .ok (.smaxw g d a b) | 17 => .ok (.ssel g d a b)
  | 18 => need (b == 0) .unusedField (.sclz g d a)
  | 19 => need (b == 0) .unusedField (.spopc g d a)
  | _ => illegal .functionCode

/-- The assigned majors, with the second word `w2` of the two-word forms. `none`: the major is unassigned (06 R160). -/
def decodeMajor (g : Guard) (w w2 : Nat) : Option (Except DecodeErr Instr) :=
  let d := reg w 17; let a := reg w 12; let b := reg w 7; let f := fld w 0 7
  let i12 := BitVec.ofNat 12 w
  let z (l : List (Fin 32)) : Bool := l.all (· == 0)
  match fld w 22 6 with
  | 0x00 => some <| match f with
    | 0 => need (z [d, a, b]) .unusedField (.snop g)
    | 1 => need (z [d, a, b]) .unusedField (.sbrk g)
    | 2 => need (z [d, a, b]) .unusedField (.syield g)
    | 3 => need (z [d, a, b]) .unusedField (.sexit g)
    | 4 => match scopeOf (fld w 7 3) with
      | some sc => need (z [d, a] && fld w 10 2 == 0) .unusedField (.sfence g sc)
      | none => illegal .scope
    | _ => illegal .functionCode
  | 0x01 => some (alu g f d a b)
  | 0x02 => some (.ok (.saddi g d a i12))
  | 0x03 => some (.ok (.sandi g d a i12))
  | 0x04 => some (.ok (.sori g d a i12))
  | 0x05 => some (.ok (.sxori g d a i12))
  | 0x06 => some (need (fld w 6 6 == 0) .unusedField (.sshli g d a (Fin.ofNat 64 w)))
  | 0x07 => some (need (fld w 6 6 == 0) .unusedField (.sshri g d a (Fin.ofNat 64 w)))
  | 0x08 => some (need (fld w 6 6 == 0) .unusedField (.ssrai g d a (Fin.ofNat 64 w)))
  | 0x09 => some (need (fld w 0 17 == 0) .unusedField (.sli g d (BitVec.ofNat 32 w2)))
  | 0x0A => some (need (fld w 0 17 == 0) .unusedField (.slih g d (BitVec.ofNat 32 w2)))
  | 0x0B => some <| match condOf (fld w 2 5), widthOf (fld w 0 2) with
    | some c, some k =>
      if fld w 20 2 = 0 then
        need (c.isFloat == decide (k = .f32)) .combination (.ssetp g (Fin.ofNat 8 (w / 2 ^ 17)) a b c k)
      else illegal .unusedField
    | _, _ => illegal .functionCode
  | 0x0C =>
    let pd : PReg := Fin.ofNat 8 (w / 2 ^ 17); let pa : PReg := Fin.ofNat 8 (w / 2 ^ 12); let pb : PReg := Fin.ofNat 8 (w / 2 ^ 7)
    let hi := fld w 20 2 == 0 && fld w 15 2 == 0 && fld w 10 2 == 0
    some <| match f with
    | 0 => need hi .unusedField (.spand g pd pa pb)
    | 1 => need hi .unusedField (.spor g pd pa pb)
    | 2 => need hi .unusedField (.spxor g pd pa pb)
    | 3 => need (hi && pb == 0) .unusedField (.spnot g pd pa)
    | 4 => need (hi && pb == 0) .unusedField (.spmov g pd pa)
    | _ => illegal .functionCode
  | 0x0D => some (.ok (.sld g d a (bit w 11) (sizeOf' (fld w 9 2)) (BitVec.ofNat 9 w)))
  | 0x0E => some (need (fld w 9 2 != 3) .combination (.sldx g d a (bit w 11) (sizeOf' (fld w 9 2)) (BitVec.ofNat 9 w)))
  | 0x0F => some (need (!bit w 11) .unusedField (.sst g d a (sizeOf' (fld w 9 2)) (BitVec.ofNat 9 w)))
  | 0x10 => some <| match scopeOf (fld w 9 3) with
    | some sc => .ok (.slda g d a sc (sizeOf' (fld w 7 2)) (BitVec.ofNat 7 w))
    | none => illegal .scope
  | 0x11 => some <| match scopeOf (fld w 9 3) with
    | some sc => .ok (.sstl g d a sc (sizeOf' (fld w 7 2)) (BitVec.ofNat 7 w))
    | none => illegal .scope
  | 0x12 => some <| match scopeOf (fld w 0 3) with
    | some sc => .ok (.satom g d a b (atomOf (fld w 3 3)) (bit w 6) sc)
    | none => illegal .scope
  | 0x13 => some (.ok (.sbr g (BitVec.ofNat 22 w)))
  | 0x14 => some (.ok (.scall g (BitVec.ofNat 22 w)))
  | 0x15 => some <| match f with
    | 0 => need (z [d, b]) .unusedField (.sjr g a)
    | 1 => need (z [b]) .unusedField (.sjalr g d a)
    | 2 => need (z [d, a, b]) .unusedField (.sret g)
    | _ => illegal .functionCode
  | 0x16 =>
    let first := reg w2 27; let c := fld w2 23 4
    some (if fld w2 0 23 = 0 then
        (if h : c < 9 then need (decide (first.val + c ≤ 32)) .combination (.slq g (BitVec.ofNat 22 w) first ⟨c, h⟩)
         else illegal .combination)
      else illegal .unusedField)
  | 0x17 => some (need (z [d, a] && fld w 3 9 == 0) .unusedField (.slwait g (Fin.ofNat 8 w)))
  | 0x18 => some (need (f == 0 && z [b] && fld w 15 2 == 0) .unusedField (.sgetr g d (Fin.ofNat 8 (w / 2 ^ 12))))
  | 0x19 => some (need (z [d, a, b]) .unusedField
      (if bit w 6 then .sbara g (Fin.ofNat 64 w) else .sbar g (Fin.ofNat 64 w)))
  | 0x1A => some <| match f with
    | 0 => need (z [d, b]) .unusedField (.slinit g a)
    | 1 => need (z [d]) .unusedField (.slexp g a b)
    | 2 => need (z [d]) .unusedField (.slwt g a b)
    | 3 => need (z [b]) .unusedField (.slgen g d a)
    | _ => illegal .functionCode
  | 0x1B => some <| match f with
    | 0 => need (z [d, b]) .unusedField (.smon g a)
    | 1 => need (z [b]) .unusedField (.smwait g d a)
    | 2 => need (z [d, a, b]) .unusedField (.smdis g)
    | _ => illegal .functionCode
  | 0x1C =>
    let h : Fin 16 := Fin.ofNat 16 (w / 2 ^ 12)
    some <| match f with
    | 0 => need (!bit w 16 && z [d]) .unusedField (.stlwait g h b)
    | 1 => need (!bit w 16 && z [d]) .unusedField (.stlthr g h b)
    | 2 => need (!bit w 16 && z [b]) .unusedField (.stlrd g d h)
    | _ => illegal .functionCode
  | 0x1D => some (need (z [b] && fld w 1 6 == 0) .unusedField (.slaunch g d a (bit w 0)))
  | 0x1E => some <| match levelOf (fld w 0 3) with
    | some l => if fld w 3 9 = 0 then need (a == 0 || decide (l ≠ .unit)) .combination (.scancel g d a l)
        else illegal .unusedField
    | none => illegal .functionCode
  | 0x1F => some <| match levelOf (fld w 0 3) with
    | some l => if fld w 5 2 = 0 ∧ z [a, b] then
          need (decide (countOf (fld w 3 2) = .errors → l = .launch)) .combination (.scnt g d (countOf (fld w 3 2)) l)
        else illegal .unusedField
    | none => illegal .functionCode
  | 0x20 => some <| match transformOf (fld w 3 4) with
    | some t =>
      if bit w 0 then illegal .unusedField
      else if bit w 1 then need (w2 / 2 ^ 22 % 2 ^ 10 == 0x22) .combination (.cpyThen g d a b t (bit w 2) (BitVec.ofNat 32 w2))
      else .ok (.cpy g d a b t (bit w 2))
    | none => illegal .functionCode
  | 0x21 => some (need (z [d, b] && f == 0) .unusedField (.cpyset g a))
  | 0x22 => some <| match matFieldsOf w with
    | some m => need (fld w 0 2 == 0 && m.legal) .combination (.mma g m)
    | none => illegal .functionCode
  | 0x23 => some <| match matFieldsOf w with
    | some m => need (fld w 0 2 == 1 && m.legal) .combination (.mmap g m)
    | none => illegal .functionCode
  | 0x24 => some (need (fld w 0 17 == 0) .unusedField (.mzero g d))
  | 0x25 => some (need (fld w 0 2 == 0) .unusedField (.mguide g d a b (reg w 2)))
  | 0x28 => some <| match collOpOf (fld w 2 3) with
    | some op => if fld w 0 2 = 0 then
          need (decide (collKindOf (fld w 5 2) = .broadcast → op = .add)) .combination (.ccol g d a b (collKindOf (fld w 5 2)) op)
        else illegal .unusedField
    | none => illegal .functionCode
  | 0x29 => some (need (fld w 0 2 == 0) .unusedField (.gemit g d a b (reg w 2)))
  | 0x2A => some (need (f == 0) .unusedField (.gclose g d a b))
  | 0x2B => some (need (f == 0) .unusedField (.gcut g d a b))
  | 0x2C => some <| match statOf f with
    | some i => need (z [b] && (decide (f < 6) || a == 0)) .unusedField (.gstat g d a i)
    | none => illegal .functionCode
  | 0x2D => some (.ok (.sgate g d a b (BitVec.ofNat 7 w)))
  | 0x2E => some (need (f == 0) .unusedField (.sgatew g d a b))
  | 0x2F => some (need (z [d, a]) .unusedField (.strap g i12))
  | 0x30 => some (need (z [a] && fld w 7 5 == 0) .unusedField (.srds g d (Fin.ofNat 128 w)))
  | 0x31 => some <| if d = 0 then (match fld w 0 12 with
      | 0 => .ok (.fdtb g a) | 1 => .ok (.fdtsync g a) | 2 => .ok (.gatereg g a) | 3 => .ok (.gateclose g a)
      | 4 => .ok (.gatereply g a) | 5 => .ok (.debugen g a)
      | _ => .ok (.swrs g a i12)) else illegal .unusedField
  | 0x33 => some (need (fld w 5 2 == 0) .unusedField (.picins g d a b (reg w 0)))
  | _ => none

/-- A scalar word with the word after it (used by the two-word forms only). -/
def decodeScalar (w w2 : Nat) : Except DecodeErr Instr :=
  match decodeMajor (guardOf w) w w2 with
  | none => .ok (.unassignedMajor (BitVec.ofNat 32 w))
  | some (.error e) => .error e
  | some (.ok i) => if (guardOf w).legal then .ok i else .error .reservedGuard

/-! ## The vector decoder -/

/-- What an operand field may hold (06 R163, R167). -/
inductive OpKind | no | val | mask | sysImm | vreg
  deriving DecidableEq, Repr

/-- What the destination field holds. -/
inductive DstKind | v | zero | mask | slotOrV
  deriving DecidableEq, Repr

/-- One row of the vector opcode map (06 R166, R167). `tys = []` means untyped. -/
structure VForm where
  tys : List Ty
  dst : DstKind
  a : OpKind
  b : OpKind
  c : OpKind
  mods : Nat
  deriving DecidableEq, Repr

def Ty.ints : List Ty := [.i32, .w32, .i64, .w64]
def Ty.ints32 : List Ty := [.i32, .w32]
def Ty.floats : List Ty := [.f32, .f16, .bf16]
def Ty.allButNq4 : List Ty := [.i32, .w32, .i64, .w64, .i16, .w16, .i8, .w8, .f32, .f16, .bf16, .e4m3, .e5m2]

/-- The vector opcode map (06 R166, R167; the pairings of 08 R219 to R221 come after it). -/
def vForm (op : Nat) : Option VForm :=
  match op with
  | 0x00 => some ⟨[], .zero, .no, .no, .no, 0⟩
  | 0x01 | 0x02 => some ⟨Ty.ints, .v, .val, .val, .no, 0x004⟩
  | 0x03 => some ⟨Ty.ints32, .v, .val, .val, .no, 0x004⟩
  | 0x04 => some ⟨Ty.ints32, .v, .val, .val, .no, 0⟩
  | 0x05 => some ⟨Ty.ints32, .v, .val, .val, .val, 0⟩
  | 0x06 | 0x07 => some ⟨Ty.ints, .v, .val, .val, .no, 0⟩
  | 0x08 => some ⟨Ty.ints, .v, .val, .no, .no, 0⟩
  | 0x09 | 0x0A | 0x0B => some ⟨Ty.ints, .v, .val, .val, .no, 0⟩
  | 0x0C => some ⟨Ty.ints, .v, .val, .no, .no, 0⟩
  | 0x0D | 0x0E | 0x0F => some ⟨Ty.ints, .v, .val, .val, .no, 0⟩
  | 0x10 | 0x11 => some ⟨Ty.ints32, .v, .val, .no, .no, 0⟩
  | 0x12 | 0x13 => some ⟨Ty.ints32, .v, .val, .val, .val, 0⟩
  | 0x14 => some ⟨Ty.allButNq4, .v, .val, .no, .no, 0⟩
  | 0x15 => some ⟨Ty.allButNq4, .v, .val, .val, .no, 0x1E0⟩
  | 0x16 => some ⟨Ty.ints32, .v, .sysImm, .sysImm, .no, 0⟩
  | 0x20 | 0x21 | 0x22 => some ⟨Ty.floats, .v, .val, .val, .no, 0x11F⟩
  | 0x23 => some ⟨Ty.floats, .v, .val, .val, .val, 0x31F⟩
  | 0x24 | 0x25 => some ⟨Ty.floats, .v, .val, .val, .no, 0x11F⟩
  | 0x26 | 0x27 | 0x28 | 0x29 | 0x2A | 0x2B | 0x2C => some ⟨[.f32], .v, .val, .no, .no, 0x01F⟩
  | 0x2D => some ⟨[.f32], .v, .val, .val, .no, 0x11F⟩
  | 0x30 => some ⟨Ty.allButNq4, .v, .val, .no, .no, 0x1E7⟩
  | 0x31 => some ⟨[.i16, .w16, .f16, .bf16, .i8, .w8, .e4m3, .e5m2, .nq4], .v, .val, .val, .val, 0x1E7⟩
  | 0x32 => some ⟨[.i32, .w32, .f32, .i16, .w16, .f16, .bf16], .v, .val, .val, .no, 0x1E7⟩
  | 0x33 => some ⟨[.nq4], .v, .val, .val, .val, 0x1E0⟩
  | 0x34 => some ⟨Ty.floats, .v, .val, .val, .val, 0x1E3⟩
  | 0x40 => some ⟨Ty.ints ++ Ty.floats, .mask, .val, .val, .no, 0x1F0⟩
  | 0x41 | 0x42 | 0x43 => some ⟨[], .mask, .mask, .mask, .no, 0⟩
  | 0x44 => some ⟨[], .mask, .mask, .no, .no, 0⟩
  | 0x45 | 0x46 | 0x47 => some ⟨[], .slotOrV, .mask, .no, .no, 0x400⟩
  | 0x50 => some ⟨[.i32, .w32, .f32], .v, .val, .val, .no, 0x063⟩
  | 0x51 => some ⟨[.i32, .w32, .f32], .v, .val, .val, .no, 0x003⟩
  | 0x52 => some ⟨Ty.ints32 ++ Ty.floats, .slotOrV, .val, .no, .no, 0x5E3⟩
  | 0x53 => some ⟨Ty.ints32 ++ Ty.floats, .v, .val, .no, .no, 0x3E3⟩
  | 0x54 => some ⟨[.i32, .w32, .f32], .v, .val, .no, .no, 0x063⟩
  | 0x60 => some ⟨Ty.allButNq4, .v, .val, .no, .no, 0x400⟩
  | 0x61 => some ⟨Ty.allButNq4, .zero, .val, .val, .no, 0⟩
  | 0x62 => some ⟨Ty.allButNq4, .v, .val, .no, .no, 0⟩
  | 0x63 => some ⟨Ty.allButNq4, .zero, .val, .val, .no, 0⟩
  | 0x64 => some ⟨Ty.floats, .v, .val, .val, .no, 0x400⟩
  | 0x65 => some ⟨Ty.ints ++ [.f32], .v, .val, .val, .val, 0x0FC⟩
  | 0x66 => some ⟨Ty.ints ++ [.f32], .zero, .val, .val, .no, 0x0FC⟩
  | 0x67 => some ⟨[], .v, .val, .val, .no, 0x0E0⟩
  | 0x68 => some ⟨Ty.allButNq4, .v, .val, .no, .no, 0x0E0⟩
  | 0x69 => some ⟨Ty.allButNq4, .zero, .val, .val, .no, 0x0E0⟩
  | 0x6A => some ⟨[.f32], .v, .val, .val, .val, 0x400⟩
  | 0x70 => some ⟨[.f32, .i32], .v, .val, .no, .no, 0⟩
  | 0x71 | 0x72 => some ⟨[.f32, .i32], .zero, .val, .val, .no, 0⟩
  | 0x80 => some ⟨[], .mask, .no, .no, .no, 0x008⟩
  | 0x81 | 0x82 | 0x83 | 0x84 => some ⟨[], .zero, .no, .no, .no, 0⟩
  | 0x85 => some ⟨[], .v, .vreg, .no, .no, 0⟩
  | 0x90 => some ⟨[.f32], .v, .val, .val, .val, 0x003⟩
  | 0x91 => some ⟨[.f32], .v, .val, .no, .no, 0x060⟩
  | 0x92 => some ⟨[.f32], .zero, .val, .val, .no, 0⟩
  | 0x93 => some ⟨[], .zero, .no, .no, .no, 0⟩
  | 0x94 => some ⟨[.w32], .zero, .val, .val, .val, 0⟩
  | 0x95 => some ⟨[.w32], .v, .val, .val, .val, 0⟩
  | _ => none

/-- Bits of the modifier. -/
def VWord.mbits (w : VWord) (lo n : Nat) : Nat := fld w.mod.toNat lo n

def VWord.mbit (w : VWord) (i : Nat) : Bool := w.mod.getLsbD i

/-- The source type of a conversion word (06 R166). -/
def VWord.srcTy (w : VWord) : Option Ty := tyOf (w.mbits 5 4)

/-- The opcodes that give imm32 a fixed meaning (06 R163). -/
def immFixed (op : Nat) : Bool := (decide (0x60 ≤ op) && decide (op ≤ 0x72)) || op == 0x80

/-- Which operands the word reads, after the forms of one opcode that differ (08 R220, R233). -/
def VWord.kinds (op : Nat) (w : VWord) (f : VForm) : OpKind × OpKind × OpKind :=
  match op with
  | 0x31 => (f.a, f.b, if w.ty.bits = 16 then .no else f.c)
  | 0x65 => (f.a, f.b, if w.mbits 2 3 = 7 then f.c else .no)
  | _ => (f.a, f.b, f.c)

/-- The type that governs an operand's immediate (06 R164): `none` reads all of imm32. -/
def VWord.immTy (op : Nat) (w : VWord) (which : Nat) : Option Ty :=
  if 0x30 ≤ op ∧ op ≤ 0x34 then
    (if (op = 0x30 ∨ op = 0x31) ∧ which = 0 then w.srcTy
     else if op = 0x31 ∧ which = 1 ∧ w.ty.bits = 16 then w.srcTy
     else none)
  else some w.ty

/-- An operand of the kind the map gives it, with the rule on narrow immediates (06 R163, R164). -/
def VWord.operandOk (op : Nat) (w : VWord) (which : Nat) (k : OpKind) (o : Operand) : Bool :=
  match k with
  | .no => decide (o = .reg 0)
  | .val => match o with
    | .imm => !immFixed op && (match w.immTy op which with
        | some t => decide (32 ≤ t.bits) || decide (w.imm.toNat < 2 ^ t.bits)
        | none => true)
    | _ => true
  | .mask | .vreg => match o with
    | .reg _ => true
    | _ => false
  | .sysImm => match o with
    | .special _ | .imm => true
    | _ => false

/-- The pairings of types in conversions (08 R219 to R221). -/
def VWord.convOk (op : Nat) (w : VWord) : Bool :=
  match op with
  | 0x30 => match w.srcTy with
    | some t => decide (t ≠ .nq4)
    | none => false
  | 0x31 => match w.srcTy with
    | some t => if w.ty = .nq4 then decide (t = .w32) else decide (t ≠ .nq4)
    | none => false
  | 0x32 => match w.srcTy with
    | some t => if t = .nq4 then decide (w.ty = .w32 ∨ w.ty = .f32) else decide (t.bits = 16 ∨ t.bits = 8)
    | none => false
  | 0x33 => decide (w.srcTy = some .f32)
  | 0x34 => decide (w.srcTy = some .nq4)
  | _ => true

/-- The rules of single opcodes on their modifier, immediate, guard and destination (06 R166, R167; 08). -/
def VWord.extraOk (op : Nat) (w : VWord) : Bool :=
  match op with
  | 0x00 => !w.chain && !w.nowb && decide (w.imm = 0)
  | 0x40 => match condOf (w.mbits 4 5) with
    | some c => c.isFloat == w.ty.isFloat
    | none => false
  | 0x52 | 0x53 =>
    if w.ty.isFloat then decide (w.mbits 5 4 < 3) else decide (w.mbits 5 4 < 6) && decide (w.mbits 0 2 = 0)
  | 0x50 | 0x51 => w.ty.isFloat || decide (w.mbits 0 2 = 0)
  | 0x54 => decide (w.mbits 5 2 ≠ 3) && (w.ty.isFloat || decide (w.mbits 0 2 = 0))
  | 0x65 => (if w.ty = .f32 then decide (w.mbits 2 3 < 3) else true) && (scopeOf (w.mbits 5 3)).isSome
  | 0x66 => decide (w.mbits 2 3 < if w.ty = .f32 then 3 else 6) && (scopeOf (w.mbits 5 3)).isSome
  | 0x67 => (scopeOf (w.mbits 5 3)).isSome && decide (w.imm.toNat < 2 ^ 16)
  | 0x68 | 0x69 => (scopeOf (w.mbits 5 3)).isSome
  | 0x70 | 0x71 | 0x72 => decide (w.imm.toNat < 2 ^ 7)
  | 0x81 | 0x82 | 0x84 => decide (w.imm = 0) && decide (w.gm = 0)
  | 0x83 => decide (w.imm = 0)
  | _ => true

def VWord.dstOk (w : VWord) (k : DstKind) : Bool :=
  match k with
  | .v => true
  | .zero => decide (w.dst = 0)
  | .mask => decide (w.dst.val < 16)
  | .slotOrV => !w.mbit 10 || decide (w.dst.val < 8)

/-- The immediate slot is zero where neither the opcode nor an operand names it (06 R158; DEDUCED, log 149). -/
def VWord.immOk (op : Nat) (w : VWord) : Bool :=
  immFixed op || decide (w.a = .imm) || decide (w.b = .imm) || decide (w.c = .imm) || decide (w.imm = 0)

/-- A chain bit is illegal on opcodes 0x80 to 0x85 (01 R33). -/
def VWord.chainOk (op : Nat) (w : VWord) : Bool := !w.chain || !(decide (0x80 ≤ op) && decide (op ≤ 0x85))

/-- Checks 1 and 2 of 06 R158 on a vector word. -/
def VWord.ok (op : Nat) (w : VWord) : Bool :=
  match vForm op with
  | none => false
  | some f =>
    let k := w.kinds op f
    !(w.neg && decide (w.gm = 0))
      && (match f.tys with | [] => decide (w.ty = .i32) | l => l.contains w.ty)
      && decide (w.mod.toNat &&& (2047 - f.mods) = 0)
      && w.dstOk f.dst
      && w.operandOk op 0 k.1 w.a && w.operandOk op 1 k.2.1 w.b && w.operandOk op 2 k.2.2 w.c
      && w.convOk op && w.chainOk op && w.extraOk op && w.immOk op

def operandOf (x : Nat) : Option Operand :=
  match fld x 7 2 with
  | 0 => some (.reg (Fin.ofNat 128 x))
  | 1 => some (.latch (Fin.ofNat 128 x))
  | 2 => some (.special (Fin.ofNat 128 x))
  | _ => if fld x 0 7 = 0 then some .imm else none

def Operand.code : Operand → Nat
  | .reg i => i.val
  | .latch i => 128 + i.val
  | .special i => 256 + i.val
  | .imm => 384

/-- The constructor of each assigned opcode (06 R167). -/
def vCtor (op : Nat) : Option (VWord → Instr) :=
  match op with
  | 0x00 => some .vnop | 0x01 => some .vadd | 0x02 => some .vsub | 0x03 => some .vmul | 0x04 => some .vmulh
  | 0x05 => some .vmad | 0x06 => some .vmin | 0x07 => some .vmax | 0x08 => some .vabs | 0x09 => some .vand
  | 0x0A => some .vor | 0x0B => some .vxor | 0x0C => some .vnot | 0x0D => some .vshl | 0x0E => some .vshr
  | 0x0F => some .vsra | 0x10 => some .vclz | 0x11 => some .vpopc | 0x12 => some .vbfe | 0x13 => some .vbfi
  | 0x14 => some .vmov | 0x15 => some .vsel | 0x16 => some .vidx
  | 0x20 => some .vfadd | 0x21 => some .vfsub | 0x22 => some .vfmul | 0x23 => some .vfma | 0x24 => some .vfmin
  | 0x25 => some .vfmax | 0x26 => some .vfrcp | 0x27 => some .vfrsq | 0x28 => some .vfsqrt | 0x29 => some .vfexp2
  | 0x2A => some .vflog2 | 0x2B => some .vfsin | 0x2C => some .vfcos | 0x2D => some .vfdiv
  | 0x30 => some .vcvt | 0x31 => some .vpack | 0x32 => some .vunpk | 0x33 => some .vqnq4 | 0x34 => some .vdq
  | 0x40 => some .vsetm | 0x41 => some .vmand | 0x42 => some .vmor | 0x43 => some .vmxor | 0x44 => some .vmnot
  | 0x45 => some .vballot | 0x46 => some .vany | 0x47 => some .vall
  | 0x50 => some .vshfl | 0x51 => some .vbcast | 0x52 => some .vredx | 0x53 => some .vscan | 0x54 => some .vqswap
  | 0x60 => some .vld | 0x61 => some .vst | 0x62 => some .vlds | 0x63 => some .vsts | 0x64 => some .vldf
  | 0x65 => some .vatom | 0x66 => some .vred | 0x67 => some .vpicot | 0x68 => some .vlda | 0x69 => some .vstl
  | 0x6A => some .vsample | 0x70 => some .vaccrd | 0x71 => some .vaccwr | 0x72 => some .vaccscl
  | 0x80 => some .vbr | 0x81 => some .vjoin | 0x82 => some .vend | 0x83 => some .vexit | 0x84 => some .vyield
  | 0x85 => some .vtag | 0x90 => some .vinterp | 0x91 => some .vderiv | 0x92 => some .vfragout
  | 0x93 => some .vdiscard | 0x94 => some .vrec | 0x95 => some .vemit
  | _ => none

/-- The fields of a vector word (06 R162). -/
def vFields (w : Nat) : Option VWord :=
  match tyOf (fld w 77 4), operandOf (fld w 61 9), operandOf (fld w 52 9), operandOf (fld w 43 9) with
  | some t, some a, some b, some c =>
    some { neg := bit w 87, gm := Fin.ofNat 16 (w / 2 ^ 83), chain := bit w 82, nowb := bit w 81, ty := t,
           dst := Fin.ofNat 128 (w / 2 ^ 70), a := a, b := b, c := c, mod := BitVec.ofNat 11 (w / 2 ^ 32),
           imm := BitVec.ofNat 32 w }
  | _, _, _, _ => none

def decodeVector (w : Nat) : Except DecodeErr Instr :=
  let op := fld w 88 8
  match vCtor op with
  | none => .ok (.unassignedVectorOpcode (BitVec.ofNat 96 w))
  | some mk => match vFields w with
    | none => .error .reservedType
    | some v => if v.ok op then .ok (mk v) else .error .modifier

/-! ## From bytes -/

/-- The scalar instruction at the head of a byte list, and the bytes after it. -/
def decodeScalarBytes (bs : List Byte) : Except DecodeErr (Instr × List Byte) :=
  if bs.length < 4 then .error .short else
  let w := Machine.fieldNat bs 0 4
  if twoWords w then
    (if bs.length < 8 then .error .short else
      match decodeScalar w (Machine.fieldNat bs 4 4) with
      | .ok i => .ok (i, bs.drop 8)
      | .error e => .error e)
  else match decodeScalar w 0 with
    | .ok i => .ok (i, bs.drop 4)
    | .error e => .error e

/-- The vector instruction at the head of a byte list (06 R162, 00 R3: parcel [31:0] first), and the bytes after it. -/
def decodeVectorBytes (bs : List Byte) : Except DecodeErr (Instr × List Byte) :=
  if bs.length < 12 then .error .short else
  match decodeVector (Machine.fieldNat bs 0 12) with
  | .ok i => .ok (i, bs.drop 12)
  | .error e => .error e

/-- The instruction read from a word numbered as spec/opcode_table.json numbers it; bits above `nbits` are zero. -/
def decodeTableWord (nbits w : Nat) : Option Instr :=
  let x := w % 2 ^ nbits
  if nbits ≤ 64 then
    match decodeScalarBytes (Machine.natLE 8 x) with
    | .ok p => some p.1
    | .error _ => none
  else
    match decodeVectorBytes (Machine.natLE 12 x) with
    | .ok p => some p.1
    | .error _ => none

/-! ## The encoder -/

/-- SR and SE words: three registers and the function code (06 R155). -/
def encSR (g : Guard) (major : Nat) (x y z : Fin 32) (f : Nat) : Nat :=
  g.bits + major * 2 ^ 22 + x.val * 2 ^ 17 + y.val * 2 ^ 12 + z.val * 2 ^ 7 + f

def encSI (g : Guard) (major : Nat) (d a : Fin 32) (imm : Nat) : Nat :=
  g.bits + major * 2 ^ 22 + d.val * 2 ^ 17 + a.val * 2 ^ 12 + imm

def encPR (g : Guard) (d a b : PReg) (f : Nat) : Nat :=
  g.bits + 0x0C * 2 ^ 22 + d.val * 2 ^ 17 + a.val * 2 ^ 12 + b.val * 2 ^ 7 + f

def encSM (g : Guard) (major : Nat) (d a : Fin 32) (fresh : Bool) (z : Size) (off : BitVec 9) : Nat :=
  g.bits + major * 2 ^ 22 + d.val * 2 ^ 17 + a.val * 2 ^ 12 + b2n fresh * 2 ^ 11 + z.code * 2 ^ 9 + off.toNat

def encSMA (g : Guard) (major : Nat) (d a : Fin 32) (sc : Scope) (z : Size) (off : BitVec 7) : Nat :=
  g.bits + major * 2 ^ 22 + d.val * 2 ^ 17 + a.val * 2 ^ 12 + sc.code * 2 ^ 9 + z.code * 2 ^ 7 + off.toNat

/-- A vector word with its opcode (06 R162). -/
def VWord.encode (op : Nat) (w : VWord) : Nat :=
  op * 2 ^ 88 + b2n w.neg * 2 ^ 87 + w.gm.val * 2 ^ 83 + b2n w.chain * 2 ^ 82 + b2n w.nowb * 2 ^ 81 + w.ty.code * 2 ^ 77
    + w.dst.val * 2 ^ 70 + w.a.code * 2 ^ 61 + w.b.code * 2 ^ 52 + w.c.code * 2 ^ 43 + w.mod.toNat * 2 ^ 32 + w.imm.toNat

/-- The opcode and fields of a vector instruction. -/
def Instr.vword : Instr → Option (Nat × VWord)
  | .vnop w => some (0x00, w) | .vadd w => some (0x01, w) | .vsub w => some (0x02, w) | .vmul w => some (0x03, w)
  | .vmulh w => some (0x04, w) | .vmad w => some (0x05, w) | .vmin w => some (0x06, w) | .vmax w => some (0x07, w)
  | .vabs w => some (0x08, w) | .vand w => some (0x09, w) | .vor w => some (0x0A, w) | .vxor w => some (0x0B, w)
  | .vnot w => some (0x0C, w) | .vshl w => some (0x0D, w) | .vshr w => some (0x0E, w) | .vsra w => some (0x0F, w)
  | .vclz w => some (0x10, w) | .vpopc w => some (0x11, w) | .vbfe w => some (0x12, w) | .vbfi w => some (0x13, w)
  | .vmov w => some (0x14, w) | .vsel w => some (0x15, w) | .vidx w => some (0x16, w)
  | .vfadd w => some (0x20, w) | .vfsub w => some (0x21, w) | .vfmul w => some (0x22, w) | .vfma w => some (0x23, w)
  | .vfmin w => some (0x24, w) | .vfmax w => some (0x25, w) | .vfrcp w => some (0x26, w) | .vfrsq w => some (0x27, w)
  | .vfsqrt w => some (0x28, w) | .vfexp2 w => some (0x29, w) | .vflog2 w => some (0x2A, w) | .vfsin w => some (0x2B, w)
  | .vfcos w => some (0x2C, w) | .vfdiv w => some (0x2D, w)
  | .vcvt w => some (0x30, w) | .vpack w => some (0x31, w) | .vunpk w => some (0x32, w) | .vqnq4 w => some (0x33, w)
  | .vdq w => some (0x34, w)
  | .vsetm w => some (0x40, w) | .vmand w => some (0x41, w) | .vmor w => some (0x42, w) | .vmxor w => some (0x43, w)
  | .vmnot w => some (0x44, w) | .vballot w => some (0x45, w) | .vany w => some (0x46, w) | .vall w => some (0x47, w)
  | .vshfl w => some (0x50, w) | .vbcast w => some (0x51, w) | .vredx w => some (0x52, w) | .vscan w => some (0x53, w)
  | .vqswap w => some (0x54, w)
  | .vld w => some (0x60, w) | .vst w => some (0x61, w) | .vlds w => some (0x62, w) | .vsts w => some (0x63, w)
  | .vldf w => some (0x64, w) | .vatom w => some (0x65, w) | .vred w => some (0x66, w) | .vpicot w => some (0x67, w)
  | .vlda w => some (0x68, w) | .vstl w => some (0x69, w) | .vsample w => some (0x6A, w)
  | .vaccrd w => some (0x70, w) | .vaccwr w => some (0x71, w) | .vaccscl w => some (0x72, w)
  | .vbr w => some (0x80, w) | .vjoin w => some (0x81, w) | .vend w => some (0x82, w) | .vexit w => some (0x83, w)
  | .vyield w => some (0x84, w) | .vtag w => some (0x85, w)
  | .vinterp w => some (0x90, w) | .vderiv w => some (0x91, w) | .vfragout w => some (0x92, w)
  | .vdiscard w => some (0x93, w) | .vrec w => some (0x94, w) | .vemit w => some (0x95, w)
  | _ => none

/-- The 32-bit words of a scalar instruction, the first word first. Events have none. -/
def Instr.scalarWords : Instr → List Nat
  | .snop g => [encSR g 0 0 0 0 0] | .sbrk g => [encSR g 0 0 0 0 1] | .syield g => [encSR g 0 0 0 0 2]
  | .sexit g => [encSR g 0 0 0 0 3]
  | .sfence g sc => [g.bits + sc.code * 2 ^ 7 + 4]
  | .sadd g d a b => [encSR g 1 d a b 0] | .ssub g d a b => [encSR g 1 d a b 1] | .smul g d a b => [encSR g 1 d a b 2]
  | .smulh g d a b => [encSR g 1 d a b 3] | .smulhw g d a b => [encSR g 1 d a b 4] | .sdivw g d a b => [encSR g 1 d a b 5]
  | .sremw g d a b => [encSR g 1 d a b 6] | .sand g d a b => [encSR g 1 d a b 7] | .sor g d a b => [encSR g 1 d a b 8]
  | .sxor g d a b => [encSR g 1 d a b 9] | .sshl g d a b => [encSR g 1 d a b 10] | .sshr g d a b => [encSR g 1 d a b 11]
  | .ssra g d a b => [encSR g 1 d a b 12] | .smin g d a b => [encSR g 1 d a b 13] | .smax g d a b => [encSR g 1 d a b 14]
  | .sminw g d a b => [encSR g 1 d a b 15] | .smaxw g d a b => [encSR g 1 d a b 16] | .ssel g d a b => [encSR g 1 d a b 17]
  | .sclz g d a => [encSR g 1 d a 0 18] | .spopc g d a => [encSR g 1 d a 0 19]
  | .saddi g d a i => [encSI g 2 d a i.toNat] | .sandi g d a i => [encSI g 3 d a i.toNat]
  | .sori g d a i => [encSI g 4 d a i.toNat] | .sxori g d a i => [encSI g 5 d a i.toNat]
  | .sshli g d a n => [encSI g 6 d a n.val] | .sshri g d a n => [encSI g 7 d a n.val] | .ssrai g d a n => [encSI g 8 d a n.val]
  | .sli g d x => [encSI g 9 d 0 0, x.toNat] | .slih g d x => [encSI g 0x0A d 0 0, x.toNat]
  | .ssetp g d a b c k => [g.bits + 0x0B * 2 ^ 22 + d.val * 2 ^ 17 + a.val * 2 ^ 12 + b.val * 2 ^ 7 + c.code * 2 ^ 2 + k.code]
  | .spand g d a b => [encPR g d a b 0] | .spor g d a b => [encPR g d a b 1] | .spxor g d a b => [encPR g d a b 2]
  | .spnot g d a => [encPR g d a 0 3] | .spmov g d a => [encPR g d a 0 4]
  | .sld g d a f z o => [encSM g 0x0D d a f z o] | .sldx g d a f z o => [encSM g 0x0E d a f z o]
  | .sst g d a z o => [encSM g 0x0F d a false z o]
  | .slda g d a sc z o => [encSMA g 0x10 d a sc z o] | .sstl g d a sc z o => [encSMA g 0x11 d a sc z o]
  | .satom g d a b op wide sc => [encSR g 0x12 d a b (b2n wide * 2 ^ 6 + op.code * 2 ^ 3 + sc.code)]
  | .sbr g o => [g.bits + 0x13 * 2 ^ 22 + o.toNat] | .scall g o => [g.bits + 0x14 * 2 ^ 22 + o.toNat]
  | .sjr g a => [encSR g 0x15 0 a 0 0] | .sjalr g d a => [encSR g 0x15 d a 0 1] | .sret g => [encSR g 0x15 0 0 0 2]
  | .slq g i f c => [g.bits + 0x16 * 2 ^ 22 + i.toNat, f.val * 2 ^ 27 + c.val * 2 ^ 23]
  | .slwait g k => [encSI g 0x17 0 0 k.val] | .sgetr g d q => [g.bits + 0x18 * 2 ^ 22 + d.val * 2 ^ 17 + q.val * 2 ^ 12]
  | .sbar g h => [g.bits + 0x19 * 2 ^ 22 + h.val] | .sbara g h => [g.bits + 0x19 * 2 ^ 22 + 2 ^ 6 + h.val]
  | .slinit g a => [encSR g 0x1A 0 a 0 0] | .slexp g a b => [encSR g 0x1A 0 a b 1] | .slwt g a b => [encSR g 0x1A 0 a b 2]
  | .slgen g d a => [encSR g 0x1A d a 0 3]
  | .smon g a => [encSR g 0x1B 0 a 0 0] | .smwait g d a => [encSR g 0x1B d a 0 1] | .smdis g => [encSR g 0x1B 0 0 0 2]
  | .stlwait g h b => [g.bits + 0x1C * 2 ^ 22 + h.val * 2 ^ 12 + b.val * 2 ^ 7]
  | .stlthr g h b => [g.bits + 0x1C * 2 ^ 22 + h.val * 2 ^ 12 + b.val * 2 ^ 7 + 1]
  | .stlrd g d h => [g.bits + 0x1C * 2 ^ 22 + d.val * 2 ^ 17 + h.val * 2 ^ 12 + 2]
  | .slaunch g d a nb => [encSR g 0x1D d a 0 (b2n nb)]
  | .scancel g d a l => [encSI g 0x1E d a l.code] | .scnt g d v l => [encSR g 0x1F d 0 0 (v.code * 2 ^ 3 + l.code)]
  | .cpy g a b c t f => [encSR g 0x20 a b c (t.code * 2 ^ 3 + b2n f * 2 ^ 2)]
  | .cpyThen g a b c t f fo => [encSR g 0x20 a b c (t.code * 2 ^ 3 + b2n f * 2 ^ 2 + 2), fo.toNat]
  | .cpyset g a => [encSR g 0x21 0 a 0 0]
  | .mma g m => [g.bits + 0x22 * 2 ^ 22 + m.word 0] | .mmap g m => [g.bits + 0x23 * 2 ^ 22 + m.word 1]
  | .mzero g t => [g.bits + 0x24 * 2 ^ 22 + t.val * 2 ^ 17]
  | .mguide g d a b w => [encSR g 0x25 d a b (w.val * 2 ^ 2)]
  | .ccol g a b c k op => [encSR g 0x28 a b c (k.code * 2 ^ 5 + op.code * 2 ^ 2)]
  | .gemit g d a b r => [encSR g 0x29 d a b (r.val * 2 ^ 2)]
  | .gclose g d a b => [encSR g 0x2A d a b 0] | .gcut g d a b => [encSR g 0x2B d a b 0]
  | .gstat g d a i => [encSR g 0x2C d a 0 i.code]
  | .sgate g d a b n => [encSR g 0x2D d a b n.toNat] | .sgatew g d a b => [encSR g 0x2E d a b 0]
  | .strap g c => [encSI g 0x2F 0 0 c.toNat] | .srds g d i => [encSI g 0x30 d 0 i.val]
  | .swrs g a i => [encSI g 0x31 0 a i.toNat]
  | .fdtb g a => [encSI g 0x31 0 a 0] | .fdtsync g a => [encSI g 0x31 0 a 1] | .gatereg g a => [encSI g 0x31 0 a 2]
  | .gateclose g a => [encSI g 0x31 0 a 3] | .gatereply g a => [encSI g 0x31 0 a 4] | .debugen g a => [encSI g 0x31 0 a 5]
  | .picins g d a b n => [encSR g 0x33 d a b n.val]
  | .unassignedMajor w => [w.toNat]
  | _ => []

/-- The words of an instruction: 32-bit words for the scalar stream, one 96-bit word for the vector stream. -/
def encode (i : Instr) : List Nat :=
  match i.vword with
  | some (op, w) => [w.encode op]
  | none => match i with
    | .unassignedVectorOpcode w => [w.toNat]
    | i => i.scalarWords

/-- Whether a word of the vector stream stands for the instruction. -/
def Instr.isVector : Instr → Bool
  | .unassignedVectorOpcode _ => true
  | i => i.vword.isSome

/-- Whether a word of the scalar stream stands for it. -/
def Instr.isScalar (i : Instr) : Bool := !i.isVector && !i.scalarWords.isEmpty

/-- The bytes of an instruction as they lie in memory: each word with its lowest byte first (00 R3). -/
def encodeBytes (i : Instr) : List Byte := ((encode i).map (Machine.natLE (if i.isVector then 12 else 4))).flatten

end Sys2Proof
end

