-- ==== Sys2Proof/Machine/Float.lean ====
section
/-! DEFINITION. Number formats, rounding and exact arithmetic (02 R54 to R60, R62, R64; 08 R217, R218; 13 R294; 03 R77).
A value is exact (a sign and a fraction of naturals) until it passes through `round`. -/

namespace Sys2Proof.Machine

open Sys2Proof

/-- 02 R54. -/
inductive FFmt | f32 | f16 | bf16 | e4m3 | e5m2
  deriving DecidableEq, Repr

/-- 02 R58. -/
inductive RMode | rn | rz | ru | rd
  deriving DecidableEq, Repr

def rmodeOf : Nat → RMode
  | 0 => .rn | 1 => .rz | 2 => .ru | _ => .rd

/-- An exact value: NaN, an infinity, or the sign and the magnitude `num / den`. -/
inductive FVal
  | nan
  | inf (neg : Bool)
  | fin (neg : Bool) (num den : Nat)
  deriving DecidableEq, Repr

namespace FFmt

def ebits : FFmt → Nat
  | .f32 | .bf16 => 8 | .f16 | .e5m2 => 5 | .e4m3 => 4

def fbits : FFmt → Nat
  | .f32 => 23 | .f16 => 10 | .bf16 => 7 | .e4m3 => 3 | .e5m2 => 2

def bias : FFmt → Nat
  | .f32 | .bf16 => 127 | .f16 | .e5m2 => 15 | .e4m3 => 7

def width (f : FFmt) : Nat := 1 + f.ebits + f.fbits

def canonicalNaN : FFmt → Nat
  | .f32 => 0x7FC00000 | .f16 => 0x7E00 | .bf16 => 0x7FC0 | .e4m3 => 0x7F | .e5m2 => 0x7E

/-- Bits of the largest finite magnitude. -/
def maxBits : FFmt → Nat
  | .f32 => 0x7F7FFFFF | .f16 => 0x7BFF | .bf16 => 0x7F7F | .e4m3 => 0x7E | .e5m2 => 0x7B

def signBit (f : FFmt) (neg : Bool) : Nat := if neg then 2 ^ (f.width - 1) else 0

end FFmt

/-- `2 ^ e` as a fraction. -/
def pow2 (e : Int) : Nat × Nat := if 0 ≤ e then (2 ^ e.toNat, 1) else (1, 2 ^ (-e).toNat)

/-- The value of a bit pattern; a BF16 input with exponent field zero is a zero (02 R54, R56). -/
def decodeF (f : FFmt) (w : Nat) : FVal :=
  let neg := bitOf w (f.width - 1)
  let e := bitsOf w f.fbits f.ebits
  let m := bitsOf w 0 f.fbits
  let top := 2 ^ f.ebits - 1
  if f = .e4m3 ∧ e = top ∧ m = 7 then .nan
  else if f ≠ .e4m3 ∧ e = top then (if m = 0 then .inf neg else .nan)
  else if e = 0 then
    (if f = .bf16 then .fin neg 0 1
     else let p := pow2 (1 - (f.bias : Int) - f.fbits); .fin neg (m * p.1) p.2)
  else let p := pow2 ((e : Int) - f.bias - f.fbits); .fin neg ((2 ^ f.fbits + m) * p.1) p.2

/-- The exponent of the leading bit of `num / den`, both positive. -/
def ilog2 (num den : Nat) : Int :=
  let e : Int := (Nat.log2 num : Int) - Nat.log2 den
  let p := pow2 e
  if num * p.2 < den * p.1 then e - 1 else e

/-- Rounds the quotient `num / den` to a natural by the mode, for a value of the given sign. -/
def roundNat (neg : Bool) (num den : Nat) (mode : RMode) : Nat :=
  let q := num / den
  let r := num % den
  let up : Bool := match mode with
    | .rn => if 2 * r = den then q % 2 == 1 else decide (den < 2 * r)
    | .rz => false
    | .ru => !neg && r != 0
    | .rd => neg && r != 0
  if up then q + 1 else q

/-- What an overflow gives (02 R59, R60). -/
def overflowBits (f : FFmt) (neg : Bool) (mode : RMode) (sat : Bool) : Nat :=
  if sat ∨ mode = .rz ∨ (mode = .ru ∧ neg = true) ∨ (mode = .rd ∧ neg = false) then f.maxBits + f.signBit neg
  else if f = .e4m3 then f.canonicalNaN + f.signBit neg
  else (2 ^ f.ebits - 1) * 2 ^ f.fbits + f.signBit neg

/-- 02 R59 into a floating format, with the saturating form of R60. -/
def roundF (f : FFmt) (x : FVal) (mode : RMode) (sat : Bool := false) : Nat :=
  match x with
  | .nan => f.canonicalNaN
  | .inf neg =>
    if sat then f.maxBits + f.signBit neg
    else if f = .e4m3 then f.canonicalNaN + f.signBit neg
    else (2 ^ f.ebits - 1) * 2 ^ f.fbits + f.signBit neg
  | .fin neg num den =>
    if num = 0 then f.signBit neg else
    let p := f.fbits + 1
    let emin : Int := 1 - f.bias
    let e := ilog2 num den
    let q : Int := (if f = .bf16 then e else max e emin) - (p - 1 : Nat)
    let s := pow2 q
    let m := roundNat neg (num * s.2) (den * s.1) mode
    if m = 0 then f.signBit neg else
    let m' := if m = 2 ^ p then 2 ^ (p - 1) else m
    let q' := if m = 2 ^ p then q + 1 else q
    if m' < 2 ^ (p - 1) then m' + f.signBit neg
    else
      let be := q' + (p - 1 : Nat) + f.bias
      if be < 1 then f.signBit neg
      else
        let bits := be.toNat * 2 ^ f.fbits + (m' - 2 ^ (p - 1))
        if f.maxBits < bits then overflowBits f neg mode sat else bits + f.signBit neg

/-- Rounds to an integer by the mode. -/
def roundInt (neg : Bool) (num den : Nat) (mode : RMode) : Int :=
  let n := roundNat neg num den mode
  if neg then -(n : Int) else n

def clampInt (lo hi x : Int) : Int := if x < lo then lo else if hi < x then hi else x

/-- The range of an integer type (02 R55). -/
def intRange (t : Ty) : Int × Int :=
  if t.signed then (-(2 ^ (t.bits - 1) : Nat), (2 ^ (t.bits - 1) : Nat) - 1) else (0, (2 ^ t.bits : Nat) - 1)

def clampTy (t : Ty) (x : Int) : Int := clampInt (intRange t).1 (intRange t).2 x

/-- Two's complement of `n` bits. -/
def wrapInt (n : Nat) (x : Int) : Nat := (x % (2 ^ n : Nat)).toNat

/-- 02 R59 and 08 R219 into an integer type: NaN gives 0, narrow types take the low bits of the clamped 32-bit value
unless saturating. -/
def roundToInt (t : Ty) (x : FVal) (mode : RMode) (sat : Bool) : Nat :=
  let via : Ty := if sat ∨ 32 ≤ t.bits then t else if t.signed then .i32 else .w32
  match x with
  | .nan => 0
  | .inf neg => wrapInt t.bits (if neg then (intRange via).1 else (intRange via).2)
  | .fin neg num den => wrapInt t.bits (clampTy via (roundInt neg num den mode))

/-! ## Exact arithmetic -/

def FVal.neg : FVal → FVal
  | .nan => .nan
  | .inf s => .inf (!s)
  | .fin s n d => .fin (!s) n d

def FVal.abs : FVal → FVal
  | .nan => .nan
  | .inf _ => .inf false
  | .fin _ n d => .fin false n d

def FVal.isNaN : FVal → Bool
  | .nan => true
  | _ => false

def FVal.isZero : FVal → Bool
  | .fin _ 0 _ => true
  | _ => false

def FVal.sign : FVal → Bool
  | .nan => false
  | .inf s => s
  | .fin s _ _ => s

/-- The exact value of an integer. -/
def FVal.ofInt (x : Int) : FVal := .fin (decide (x < 0)) x.natAbs 1

/-- Signed numerator. -/
def sgn (neg : Bool) (n : Nat) : Int := if neg then -(n : Int) else n

/-- Exact sum; a zero sum takes the sign of 13 R294. -/
def FVal.add (x y : FVal) (mode : RMode) : FVal :=
  match x, y with
  | .nan, _ | _, .nan => .nan
  | .inf a, .inf b => if a = b then .inf a else .nan
  | .inf a, _ => .inf a
  | _, .inf b => .inf b
  | .fin a n d, .fin b m e =>
    let s := sgn a n * e + sgn b m * d
    if s = 0 then .fin (if n = 0 ∧ m = 0 ∧ a = b then a else mode == .rd) 0 1
    else .fin (decide (s < 0)) s.natAbs (d * e)

def FVal.sub (x y : FVal) (mode : RMode) : FVal := x.add y.neg mode

def FVal.mul (x y : FVal) : FVal :=
  match x, y with
  | .nan, _ | _, .nan => .nan
  | .inf a, .inf b => .inf (a != b)
  | .inf a, .fin b n _ => if n = 0 then .nan else .inf (a != b)
  | .fin a n _, .inf b => if n = 0 then .nan else .inf (a != b)
  | .fin a n d, .fin b m e => .fin (a != b) (n * m) (d * e)

def FVal.fma (x y z : FVal) (mode : RMode) : FVal := (x.mul y).add z mode

def FVal.div (x y : FVal) : FVal :=
  match x, y with
  | .nan, _ | _, .nan => .nan
  | .inf _, .inf _ => .nan
  | .inf a, .fin b _ _ => .inf (a != b)
  | .fin a _ _, .inf b => .fin (a != b) 0 1
  | .fin a n d, .fin b m e =>
    if m = 0 then (if n = 0 then .nan else .inf (a != b)) else .fin (a != b) (n * e) (d * m)

/-- Order of two values that are not NaN; −0 equals +0. -/
def FVal.lt (x y : FVal) : Bool :=
  match x, y with
  | .nan, _ | _, .nan => false
  | .inf a, .inf b => a && !b
  | .inf a, .fin .. => a
  | .fin .., .inf b => !b
  | .fin a n d, .fin b m e => decide (sgn a n * e < sgn b m * d)

def FVal.eq (x y : FVal) : Bool := !x.isNaN && !y.isNaN && !x.lt y && !y.lt x

/-- 02 R57: the non-NaN operand where one is NaN; −0 below +0. -/
def FVal.min (x y : FVal) : FVal :=
  match x, y with
  | .nan, y => y
  | x, .nan => x
  | x, y => if x.lt y then x else if y.lt x then y else if x.sign then x else y

def FVal.max (x y : FVal) : FVal :=
  match x, y with
  | .nan, y => y
  | x, .nan => x
  | x, y => if x.lt y then y else if y.lt x then x else if x.sign then y else x

/-! ## Roots -/

/-- The largest `r` below `2 ^ bits` above `acc` with `r ^ k ≤ n`, one bit at a time. -/
def irootGo (k n : Nat) : Nat → Nat → Nat
  | 0, acc => acc
  | b + 1, acc => if (acc + 2 ^ b) ^ k ≤ n then irootGo k n b (acc + 2 ^ b) else irootGo k n b acc

/-- The whole part of the `k`th root. -/
def iroot (k n : Nat) : Nat := irootGo k n (Nat.log2 n / k + 1) 0

/-- Fraction bits that roots and series keep beyond any result's precision. -/
def guardBits : Nat := 400

/-- The `k`th root of `num / den` as a fraction that rounds as the exact root does: the root cut to many bits, with
half a unit more where it is not exact. -/
def rootFrac (k num den : Nat) : Nat × Nat :=
  let sh := guardBits * k
  let n := num * 2 ^ sh / den
  let r := iroot k n
  let exact := decide (r ^ k * den = num * 2 ^ sh)
  (2 * r + (if exact then 0 else 1), 2 ^ (guardBits + 1))

def FVal.sqrt : FVal → FVal
  | .nan => .nan
  | .inf s => if s then .nan else .inf false
  | .fin s n d => if n = 0 then .fin s 0 1 else if s then .nan else
    let r := rootFrac 2 n d; .fin false r.1 r.2

/-- 08 R218, VFRSQ. -/
def FVal.rsqrt : FVal → FVal
  | .nan => .nan
  | .inf s => if s then .nan else .fin false 0 1
  | .fin s n d => if n = 0 then .inf s else if s then .nan else
    let r := rootFrac 2 d n; .fin false r.1 r.2

/-! ## Exponential, logarithm and circular functions, by bounds in fixed point -/

/-- One in the fixed point of the series. -/
def fix1 : Nat := 2 ^ guardBits

/-- `sum of t^(2k+1) / (2k+1)` for `k` below the fuel, in fixed point, rounded down at each term. -/
def atanhGo (t2 : Nat) : Nat → Nat → Nat → Nat
  | 0, _, _ => 0
  | f + 1, p, k => p / k + atanhGo t2 f (p * t2 / fix1) (k + 2)

/-- atanh of `t` below one third, in fixed point; short of the exact value by less than `slack`. -/
def atanhFix (t : Nat) : Nat := atanhGo (t * t / fix1) 150 t 1

/-- More than every error the series below add up to, in units of the fixed point. -/
def slack : Nat := 2 ^ 12

/-- ln 2 = 2 atanh(1/3). -/
def ln2Fix : Nat := 2 * atanhFix (fix1 / 3)

/-- `sum of y^k / k!`, rounded down at each term. -/
def expGo (y : Nat) : Nat → Nat → Nat → Nat
  | 0, _, _ => 0
  | f + 1, p, k => p + expGo y f (p * y / fix1 / k) (k + 1)

/-- `1/a - 1/(3a^3) + ...`: arctan of `1/a` in fixed point, by its even and odd terms. -/
def atanGo (a2 : Nat) : Nat → Nat → Nat → Int
  | 0, _, _ => 0
  | f + 1, p, k => (p / k : Nat) - atanGo a2 f (p / a2) (k + 2)

def atanInv (a : Nat) : Int := atanGo (a * a) 180 (fix1 / a) 1

/-- Machin: pi = 16 atan(1/5) - 4 atan(1/239). -/
def piFix : Nat := (16 * atanInv 5 - 4 * atanInv 239).toNat

/-- `y - y^3/3! + ...` in fixed point. -/
def sinGo (y2 : Nat) : Nat → Nat → Nat → Int
  | 0, _, _ => 0
  | f + 1, p, k => (p : Int) - sinGo y2 f (p * y2 / fix1 / ((k + 1) * (k + 2))) (k + 2)

/-- Rounds a value known to lie between two bounds of one sign; `tag` names the free choice where they disagree (log 10). -/
def roundBetween (f : FFmt) (neg : Bool) (lo hi den : Nat) (mode : RMode) (tag : Nat) : Nat :=
  let a := roundF f (.fin neg lo den) mode
  let b := roundF f (.fin neg hi den) mode
  if a = b then a else if Config.roundOpen tag lo % 2 = 0 then a else b

/-- 2 ^ x, rounded once. -/
def exp2F (f : FFmt) (x : FVal) (mode : RMode) : Nat :=
  match x with
  | .nan => f.canonicalNaN
  | .inf s => roundF f (if s then .fin false 0 1 else .inf false) mode
  | .fin s n d =>
    let v := sgn s n
    let i := v.fdiv d
    let r := (v - i * d).toNat
    if 200 < i then roundF f (.fin false (2 ^ 300) 1) mode
    else if i < -200 then roundF f (.fin false 1 (2 ^ 300)) mode
    else
      let p := pow2 i
      if r = 0 then roundF f (.fin false p.1 p.2) mode
      else
        let y := r * ln2Fix / d / 1
        let e := expGo y 120 fix1 1
        roundBetween f false (e * p.1) ((e + slack) * p.1) (fix1 * p.2) mode 0

/-- log2 x, rounded once. -/
def log2F (f : FFmt) (x : FVal) (mode : RMode) : Nat :=
  match x with
  | .nan => f.canonicalNaN
  | .inf s => if s then f.canonicalNaN else roundF f (.inf false) mode
  | .fin s n d =>
    if n = 0 then roundF f (.inf true) mode
    else if s then f.canonicalNaN
    else
      let e := ilog2 n d
      let p := pow2 e
      let mn := n * p.2
      let md := d * p.1
      if mn = md then roundF f (FVal.ofInt e) mode
      else
        let t := (mn - md) * fix1 / (mn + md)
        let l := 2 * atanhFix t * fix1 / ln2Fix
        let lo : Int := e * (fix1 : Nat) + l - (slack : Nat)
        let hi : Int := e * (fix1 : Nat) + l + (slack : Nat)
        if 0 < lo then roundBetween f false lo.toNat hi.toNat fix1 mode 1
        else roundBetween f true (-hi).toNat (-lo).toNat fix1 mode 1

/-- sin(pi x) for the exact rational `v / d`, rounded once; `zneg` is the sign of a zero result. -/
def sinPi (f : FFmt) (v : Int) (d : Nat) (zneg : Bool) (mode : RMode) : Nat :=
  let r := (v.emod (2 * d)).toNat
  let neg := decide (d < r)
  let r1 := if d ≤ r then r - d else r
  if r1 = 0 then f.signBit zneg
  else
    let r2 := if d < 2 * r1 then d - r1 else r1
    if 2 * r2 = d then roundF f (.fin neg 1 1) mode
    else
      let y := r2 * piFix / d
      let v := (sinGo (y * y / fix1) 120 y 1).toNat
      roundBetween f neg (v - slack) (v + slack) fix1 mode 2

def sinPiF (f : FFmt) (x : FVal) (mode : RMode) : Nat :=
  match x with
  | .nan | .inf _ => f.canonicalNaN
  | .fin s n d => sinPi f (sgn s n) d s mode

/-- cos(pi x) = sin(pi (x + 1/2)); zero results are +0 (08 R218). -/
def cosPiF (f : FFmt) (x : FVal) (mode : RMode) : Nat :=
  match x with
  | .nan | .inf _ => f.canonicalNaN
  | .fin s n d => sinPi f (2 * sgn s n + d) (2 * d) false mode

/-! ## NQ4 (02 R62, R64) -/

/-- The codebook in units of 2^-14: every entry is exact in BF16. -/
def codebook : List Int :=
  [-16384, -11392, -8576, -6464, -4736, -3200, -1664, 0, 1280, 2624, 4032, 5504, 7168, 9216, 11968, 16384]

def codebookDen : Nat := 16384

def codebookVal (c : Nat) : FVal :=
  let v := codebook.getD c 0
  .fin (decide (v < 0)) v.natAbs 16384

/-- codebook[c] × q × S ÷ 255, exact. -/
def nq4Exact (c q : Nat) (s : FVal) : FVal :=
  (((codebookVal c).mul (.fin false q 1)).mul s).div (.fin false 255 1)

/-- 02 R64: the FP32 value of an element. -/
def nq4Element (c q : Nat) (s : W32) : Nat := roundF .f32 (nq4Exact c q (decodeF .f32 s.toNat)) .rn

/-! ## sRGB (IEC 61966-2-1) and UNORM -/

/-- The code of R221: the one whose value is nearest to `x`, the nearer zero of two; 7 where the scale or `x` is unfit. -/
def nq4Code (x : FVal) (q : Nat) (sc : FVal) : Nat :=
  match (FVal.fin false q 255).mul sc with
  | .fin fneg fn fd =>
    if fn = 0 then 7 else
    (match x with
      | .nan => 7
      | .inf neg => if neg = fneg then 15 else 0
      | .fin xneg xn xd =>
        let dist (k : Int) : Nat := (k * sgn fneg fn * xd - sgn xneg xn * codebookDen * fd).natAbs
        let val (c : Nat) : Int := codebook.getD c 0
        (List.range 16).foldl (fun best c =>
          if dist (val c) < dist (val best) ∨ (dist (val c) = dist (val best) ∧ (val c).natAbs < (val best).natAbs) then c
          else best) 0)
  | _ => 7

/-- The exact decoded value of an sRGB channel, as a fraction that rounds as the exact one does. -/
def srgbDecode (c : Nat) : FVal :=
  -- c / 255 at most 0.04045: divided by 12.92; else ((c / 255 + 0.055) / 1.055) ^ 2.4
  if c * 100000 ≤ 4045 * 255 then .fin false (c * 100) (255 * 1292)
  else
    let n := c * 1000 + 55 * 255
    let d := 1055 * 255
    let r := rootFrac 5 (n ^ 12) (d ^ 12)
    .fin false r.1 r.2

/-- The sRGB encoding function on a value from 0 to 1, rounded once to FP32. -/
def srgbEncode (num den : Nat) : Nat :=
  if num * 10000000 ≤ 31308 * den then roundF .f32 (.fin false (num * 1292) (den * 100)) .rn
  else
    let r := rootFrac 12 (num ^ 5) (den ^ 5)
    -- 1.055 r - 0.055 on both sides of the root
    let f (x : Nat) : Nat := 1055 * x - 55 * r.2
    roundBetween .f32 false (f (r.1 - 1)) (f (r.1 + 1)) (1000 * r.2) .rn 3

def fmtOfTy : Ty → FFmt
  | .f16 => .f16 | .bf16 => .bf16 | .e4m3 => .e4m3 | .e5m2 => .e5m2 | _ => .f32

/-- Whether the type is one of the floating formats (02 R54). -/
def Ty.isFp : Ty → Bool
  | .f32 | .f16 | .bf16 | .e4m3 | .e5m2 => true
  | _ => false

/-- The exact value of a lane's bits in a type. -/
def valueOf (t : Ty) (bits : Nat) : FVal :=
  if Ty.isFp t then decodeF (fmtOfTy t) bits
  else if t = .nq4 then codebookVal (bits % 16)
  else FVal.ofInt (if t.signed then signedOf t.bits bits else (bits % 2 ^ t.bits : Nat))

/-- 08 R219: conversion between types that are not NQ4. -/
def convert (src dst : Ty) (bits : Nat) (mode : RMode) (sat : Bool) : Nat :=
  if Ty.isFp dst then roundF (fmtOfTy dst) (valueOf src bits) mode sat
  else if Ty.isFp src then roundToInt dst (valueOf src bits) mode sat
  else
    let x : Int := if src.signed then signedOf src.bits bits else (bits % 2 ^ src.bits : Nat)
    wrapInt dst.bits (if sat then clampTy dst x else x)

/-- A channel of a pixel, decoded and rounded once to FP32 (03 R77). -/
def pixelChannel (f word ch : Nat) : Nat :=
  let unorm (c m : Nat) : FVal := .fin false c m
  let x : FVal := match f with
    | 0x10 => unorm (bitsOf word (8 * ch) 8) 255
    | 0x11 => if ch = 3 then unorm (bitsOf word 24 8) 255 else srgbDecode (bitsOf word (8 * ch) 8)
    | _ => if ch = 3 then unorm (bitsOf word 30 2) 3 else unorm (bitsOf word (10 * ch) 10) 1023
  roundF .f32 x .rn

end Sys2Proof.Machine
end

