-- ==== Sys2Proof/Machine/State.lean ====
section
/-! DEFINITION. The state of one Tlaquin as plain data: everything the spec gives the machine (INVENTORY.md, State),
and the machine right after reset. -/

namespace Sys2Proof.Machine

open Sys2Proof

/-! ## Faults of the machine (18 R346, R347) -/

/-- 18 R346, codes 0x01 to 0x0E. -/
inductive Code
  | illegalInstr | illegalOperand | align | page | access | world | poison | barrier | pair | land | fifo | graph
  | watchdog | trap
  deriving DecidableEq, Repr

/-- 18 R347, byte 2. -/
inductive AccessKind | none | read | write | rmw | fetch
  deriving DecidableEq, Repr

/-- Who a fault record speaks of (18 R347, byte 1). -/
inductive Agent
  | scalar (sid : StrandId)
  | vector (sid : StrandId)
  | copy (core : CoreId) (q : Fin 4) (num : Nat)
  | matrix (wg : Nat) (id : Nat)
  | coll (die : Fin 4) (num : Nat)
  | graphUnit (ctx node : Nat)
  | launch (id : Nat)
  deriving DecidableEq, Repr

/-- One record of a world's fault queue (18 R347). `pages`: every page at which its agent sleeps (18 R345); `part`: the lowest die
of the hard partition whose records it is among (19 R366). -/
structure FaultRec where
  code : Code
  agent : Agent
  access : AccessKind
  waiting : Bool
  ended : Bool
  detail : Nat
  seq : Nat
  launch : Nat
  wg : Nat
  strand : Nat
  die : Nat
  core : Nat
  lanes : W32
  pc : Nat
  address : Nat
  pages : List Nat
  timeline : Nat
  second : Nat
  part : Fin 4
  occupied : Bool
  deriving DecidableEq, Repr

/-- What a faulting word or command says of itself. -/
structure Flt where
  code : Code
  access : AccessKind := .none
  addr : Nat := 0
  detail : Nat := 0
  lanes : W32 := 0
  pages : List Nat := []
  second : Nat := 0
  deriving DecidableEq, Repr

/-- Why a stream of a strand stands still after a fault (18 R346, R348): a record of its own, or one not yet written. -/
inductive Stop
  | page (seq : Nat) (va : Nat)
  | trap (seq : Nat) (nextPC : Nat)
  | unwritten
  | debugHalt (nextPC : Nat)
  deriving DecidableEq, Repr

/-! ## Vector registers (02 R47) -/

inductive VReg
  | u (v : W32)
  | a (base stride : W32)
  | g (v : Vector W32 32)
  deriving DecidableEq, Repr

/-! ## Splits, chains and blocks (01 R24 to R35) -/

/-- 02 R47: the shapes U 0, A 1, G 2. -/
inductive Tag | u | a | g
  deriving DecidableEq, Repr

/-- A latch of a chain: its lane values, and the tag that the result it holds would carry (01 R34). -/
structure Latch where
  reg : VReg
  tag : Tag
  deriving DecidableEq, Repr

/-- The chain in progress: its first word, the word that would continue it, the latches written so far, its buffered
stores and the loads it waits for, and whether the fetch of that next word has faulted (01 R35). -/
structure Chain where
  first : Nat
  next : Nat
  latches : List Latch
  stores : List Nat
  loads : List Nat
  cut : Bool
  deriving DecidableEq, Repr

structure Split where
  lanes : W32
  exit : W32
  pos : Nat
  join : Nat
  age : Nat
  div : Option Nat
  run : Nat
  chain : Option Chain
  atEnd : Bool
  deriving DecidableEq, Repr

/-- What the strand keeps of a split on its spill stack besides the 16 bytes in private memory (01 R26, R27). -/
structure Spilled where
  age : Nat
  div : Option Nat
  deriving DecidableEq, Repr

/-- A division whose two sides have not merged (08 R238): the join and division the dividing split held. -/
structure JoinRecord where
  id : Nat
  savedJoin : Nat
  savedDiv : Option Nat
  age : Nat
  deriving DecidableEq, Repr

/-- A lane-queue entry (01 R9). -/
structure Block where
  entry : Nat
  ks : Vector W32 8
  deriving DecidableEq, Repr

/-! ## Strands -/

/-- One lane of a store-buffer entry: where it goes and its bytes. -/
structure SBLane where
  lane : Nat
  va : Nat
  pa : Nat
  data : List Byte
  deriving DecidableEq, Repr

/-- A store-buffer entry (04 R115, 17 R335). `restored`: it came back with a cocoon. -/
structure SBEntry where
  id : Nat
  restored : Bool
  vector : Bool
  size : Size
  scope : Option Scope
  lanes : List SBLane
  deriving DecidableEq, Repr

/-- The sectors at L2 that one lane of a load has read, whose check is still to end (04 R114), and the lane's address. -/
structure LaneCheck where
  lane : Nat
  va : Nat
  sectors : List Nat
  deriving DecidableEq, Repr

/-- The vector side of a strand before a load: what a replay of the load starts from (04 R113, 17 R330). -/
structure Checkpoint where
  v : List VReg
  badRegs : List (Nat × Nat)
  masks : Vector W32 16
  slots : Vector (Option Split) 2
  waiting : List Split
  joins : List JoinRecord
  serialised : Bool
  base : W32
  helpers : W32
  deriving DecidableEq, Repr

/-- What a vector load or accumulator read delivers to registers when it returns (01 R38): lane values and the lanes
they are for, with the lanes' checks, and the strand as it was before. -/
structure Return where
  id : Nat
  regs : List (Nat × Vector W32 32)
  mask : W32
  first : Nat
  checks : List LaneCheck
  queued : Bool
  before : Checkpoint
  deriving DecidableEq, Repr

/-- One invocation of a picot that a VPICOT word still owes (09 R268): the line, the lane and the operands. -/
structure Invocation where
  lane : Nat
  line : Nat
  ops : List W32
  deriving DecidableEq, Repr

structure Picot where
  words : List W32
  ni : Nat
  nr : Nat
  deriving DecidableEq, Repr

/-- A VPICOT word in progress: the routine it translated, the invocations to run and the results so far. -/
structure PicotWord where
  slot : Fin 2
  word : VWord
  routine : Picot
  todo : List Invocation
  results : List (Nat × List W32)
  active : W32
  deriving DecidableEq, Repr

/-- What a waiting scalar word waits for, with its operands (07 R179). `retry` executes the word again. -/
inductive Wait
  | slq (index : Nat) (first : SReg) (count : Nat)
  | slwait (k : Nat)
  | barrier (k : BarKey)
  | again (k : BarKey) (sync : Bool)
  | slwt (a b : SReg)
  | smwait (d : SReg) (deadline : Nat)
  | stlwait (h : Fin 16) (b : SReg)
  | stlthr (h : Fin 16) (b : SReg)
  | slaunch (d a : SReg)
  | sgatew (d a b : SReg)
  | engine (i : Instr)
  | picins (d : SReg)
  | fdtsync (index before : Nat)
  | retry
  deriving DecidableEq, Repr

/-- The watch of a strand (03 R82): the line, and the events seen since SMON. -/
structure Watch where
  line : Nat
  wrote : Bool
  invalidated : Bool
  deriving DecidableEq, Repr

/-- How a strand has come to its end. A strand that has executed SEXIT may still be ended by a fault or a cancel. -/
inductive End | no | exited | cancelled | faulted
  deriving DecidableEq, Repr

/-- The fragments a strand of a fragment launch carries (05 R133): the pixel, order and depth of each lane. -/
structure FragLanes where
  node : Nat
  frame : Nat
  merge : Nat
  order : Nat
  px : Vector Nat 32
  py : Vector Nat 32
  z : Vector W32 32
  covered : W32
  deriving DecidableEq, Repr

/-- A translation fault that a walk found for a waiting access (18 R350): the page and the code. -/
structure WalkFault where
  page : Nat
  access : AccessKind
  code : Code
  deriving DecidableEq, Repr

structure Strand where
  role : Role
  s : Vector W64 32
  p : Vector Bool 8
  pc : Nat
  ended : End
  sexit : Bool
  tileScale : W32
  laneQ : List Block
  started : Bool
  slots : Vector (Option Split) 2
  serialised : Bool
  spilled : List Spilled
  waiting : List Split
  joins : List JoinRecord
  base : W32
  helpers : W32
  masks : Vector W32 16
  v : List VReg
  badRegs : List (Nat × Nat)
  q : Vector W64 8
  stores : List SBEntry
  unackDev : W32
  unackSys : W32
  watch : Option Watch
  tickets : List Nat
  wait : Option Wait
  scalarStop : Option Stop
  vectorStop : Option Stop
  scalarWalkFaults : List WalkFault
  vectorWalkFaults : List WalkFault
  returns : List Return
  picot : Option PicotWord
  frag : Option FragLanes
  readySince : Nat
  promoted : Bool
  vecSince : Nat
  vecPromoted : Bool
  mmaps : Nat
  counted : Bool
  deriving DecidableEq, Repr

/-! ## Levels of work (01 R15 to R19) -/

inductive InstState | running | done | cancelled
  deriving DecidableEq, Repr

structure Inst where
  completed : W64
  cancelled : W64
  state : InstState
  settled : Bool
  parent : Option InstId
  ctx : Nat
  frame : Nat
  closed : Bool
  deriving DecidableEq, Repr

/-- 17 R322, as read at submission. -/
structure LaunchDesc where
  scalarBase : Nat
  vectorBase : Nat
  privateBase : Nat
  pword : W32
  grid : Nat × Nat × Nat
  strands : Nat
  regs : Nat
  cluster : Nat
  priv : Bool
  queue : Nat
  overlap : Bool
  fifos : Nat
  copyQueue : Fin 4
  roles : List Role
  pairs : Nat
  watchdog : Nat
  entries : List Nat
  barMasks : List W32
  stride : Nat
  deriving DecidableEq, Repr

/-- What a graph unit writes for a launch at scratchpad offset 0 (05 R124). -/
structure BatchRec where
  frame : Nat
  firstRecord : Nat
  firstSlot : Nat
  count : Nat
  edge : Nat
  depth : Nat
  deadline : Bool
  anySub : Bool
  phase : Nat
  deriving DecidableEq, Repr

/-- One strand's quads of a fragment launch (05 R133): triangle, its order, and the top-left pixels. -/
structure FragStrand where
  tri : Nat
  order : Nat
  quads : List (Nat × Nat)
  deriving DecidableEq, Repr

/-- 05 R130, as read at a frame's start. -/
structure RasterState where
  launch : Nat
  merge : Nat
  cull : Nat
  front : Nat
  attrs : Nat
  queue : Nat
  x0 : Nat
  y0 : Nat
  x1 : Nat
  y1 : Nat
  deriving DecidableEq, Repr

/-- The triangles of a fragment launch, vertex words as in 05 R131, with the strands they fill. -/
structure FragLaunch where
  raster : RasterState
  tris : List (List W32)
  strands : List FragStrand
  deriving DecidableEq, Repr

structure Launch where
  world : Nat
  ctx : Nat
  graphMade : Bool
  node : Nat
  run : Nat
  frame : Nat
  descAddr : Nat
  desc : LaunchDesc
  depth : Nat
  parent : Option Nat
  queue : Option (Nat × Nat)
  errors : W32
  batch : Option BatchRec
  frag : Option FragLaunch
  placed : Nat
  total : Nat
  firstPlaced : Option Nat
  pausedAt : Option Nat
  prevOfNode : Option Nat
  dropped : Bool
  issuer : Option StrandId
  reserved : Bool
  deriving DecidableEq, Repr

/-! ## Engines (09) -/

/-- A tensor layout record as a CPY captured it (09 R245). -/
structure LayoutRec where
  base : Nat
  size : List Nat
  stride : List Nat
  box : List Nat
  origin2 : Int
  origin3 : Int
  mem : Nat
  near : Nat
  transpose : Bool
  swizzle : Nat
  fill : Nat
  bytes : List Byte
  deriving DecidableEq, Repr

/-- How far an engine command has come (09 R242, R243). -/
inductive CmdState
  | ready
  | sleeping (seq : Nat) (va : Nat)
  | unwritten
  | abandoned
  deriving DecidableEq, Repr

/-- What a copy command has read ahead for a chunk (09 R251): a load's values or bytes; a store's places with the bits it leaves
there; or the fault that the read met, which is held for the chunk's turn (11 R286). -/
inductive AheadRead
  | load (vs : List Nat)
  | store (l : List (Nat × Nat × Nat))
  | fault (f : Flt)
  deriving DecidableEq, Repr

/-- A copy command. `snap` and `snapScale`: what the tile words and scales of a ROWSCALE have held since its issue, oldest first
(12 R290). `ahead`: what it has read ahead of its next chunks (09 R251); `msgs`: the messages it is filling (19 R357). -/
structure CopyCmd where
  num : Nat
  sid : StrandId
  pc : Nat
  world : Nat
  priv : Bool
  word : W32
  follow : Option (W32 × MatFields)
  followDone : Bool
  sa : W64
  sb : W64
  sc : W64
  transform : Transform
  fifo : Bool
  store : Bool
  layout : LayoutRec
  scale : W32
  land : Option Nat
  progress : Nat
  chunks : Nat
  snap : List (List W32)
  snapScale : List (List W32)
  state : CmdState
  walkFaults : List WalkFault
  ahead : List AheadRead
  msgs : List Nat
  deriving DecidableEq, Repr

structure CopyQueue where
  world : Option Nat
  next : Nat
  cmds : List CopyCmd
  halted : Bool
  deriving DecidableEq, Repr

inductive MatKind
  | mma (m : MatFields)
  | mmap (m : MatFields)
  | mzero (t : TileNo)
  | mguide (d a b : TileNo) (w : W32)
  deriving DecidableEq, Repr

/-- 09 R257: what the decision point made of an MMAP. -/
inductive PairState | undecided | solo | paired (partner : Nat)
  deriving DecidableEq, Repr

structure MatCmd where
  id : Nat
  num : Option Nat
  copy : Option (CoreId × Fin 4 × Nat)
  sid : StrandId
  pc : Nat
  word : W32
  world : Nat
  kind : MatKind
  index : Nat
  pair : PairState
  started : Bool
  aRows : List (List Byte)
  bRows : List (List Byte)
  state : CmdState
  deriving DecidableEq, Repr

/-- The matrix queue of a workgroup and the array's order over its words (09 R242, R295). -/
structure MatQueue where
  next : Nat
  cmds : List MatCmd
  halted : Bool
  deriving DecidableEq, Repr

/-- A collective command. `sent`: its destination is written but for the messages that await acknowledgement (09 R261). -/
structure CollCmd where
  num : Nat
  sid : StrandId
  pc : Nat
  world : Nat
  priv : Bool
  src : Nat
  dst : Nat
  count : Nat
  ty : Nat
  kind : CollKind
  op : CollOp
  root : Nat
  group : GroupEntry
  exchanged : Bool
  data : List W32
  sent : Option (List Nat)
  state : CmdState
  walkFaults : List WalkFault
  deriving DecidableEq, Repr

structure CollQueue where
  world : Option Nat
  next : Nat
  cmds : List CollCmd
  halted : Bool
  deriving DecidableEq, Repr

/-- An operand FIFO of a workgroup (03 R85): its tag, its bytes in push order, and the places of the
bytes, from its front, whose words fail their check. -/
structure Fifo where
  world : Nat
  bytes : List Byte
  bad : List Nat
  deriving DecidableEq, Repr

/-- What a strand of a cocoon held when it was saved, of what may change meanwhile: its scalar PC, its counts of stores not yet
acknowledged and its tickets. -/
structure SavedStrand where
  pc : Nat
  dev : W32
  sys : W32
  tickets : List Nat
  deriving DecidableEq, Repr

/-- A workgroup saved as a cocoon (17 R332, R337): where its bytes lie, how many, and whether CAPACITY was told. -/
structure Parked where
  addr : Nat
  size : Nat
  grouped : Bool
  told : Bool
  copies : List (Fin 4 × CopyCmd)
  saved : Assoc StrandId SavedStrand
  deriving DecidableEq, Repr

/-- `lastCopy` and `lastColl` name the newest copy and collective commands it issued, one for each queue (01 R15). -/
structure Workgroup where
  launch : Nat
  index : Nat
  core : CoreId
  released : Bool
  stopping : Bool
  parked : Option Parked
  granules : List (Fin 48)
  scratch : Mem
  tiles : Mem
  badScratch : List Nat
  badTiles : List Nat
  fifos : Assoc Nat Fifo
  matrix : MatQueue
  lastCopy : List (CoreId × Fin 4 × Nat)
  lastColl : List (Fin 4 × Nat)
  deriving DecidableEq, Repr

/-- A hardware barrier (07 R199). -/
structure Bar where
  phase : Nat
  arrived : List StrandId
  broken : Bool
  deriving DecidableEq, Repr

/-! ## Cores -/

/-- 16 R309. -/
structure PartEntry where
  valid : Bool
  world : Nat
  weight : Nat
  slots : Nat
  granules : Nat
  raw : W64
  deriving DecidableEq, Repr

/-- A granule of a core (16 R311): free and clear, held by a workgroup of a world, or being zeroed. -/
inductive Granule
  | free
  | held (wg world : Nat)
  | zeroing (world : Nat)
  deriving DecidableEq, Repr

/-! ## Global memory (03, 04) -/

/-- A line of a core's L1 (03 R74). -/
structure L1Line where
  core : CoreId
  world : Nat
  line : Nat
  bytes : List Byte
  deriving DecidableEq, Repr

/-- A write on its way to the other dies (04 R99). `red` marks the acceptance of a reduction (R101). -/
structure WriteMsg where
  die : Fin 4
  stamp : Vector Nat 4
  seq : Nat
  line : Nat
  cells : List Host.Cell
  red : Bool
  applied : List (Fin 4)
  deriving DecidableEq, Repr

/-- 08 R234. -/
inductive RedOp | add | min | max | and | or | xor
  deriving DecidableEq, Repr

/-- An update-only copy of a line (03 R83): partial results by byte offset. -/
structure RedCopy where
  die : Fin 4
  world : Nat
  line : Nat
  op : RedOp
  ty : Ty
  words : Assoc Nat W64
  deriving DecidableEq, Repr

/-- A line that a die's L2 holds, with the world that filled it (03 R75). -/
structure L2Line where
  die : Fin 4
  line : Nat
  world : Nat
  deriving DecidableEq, Repr

structure MemSys where
  home : Mem
  l2 : List L2Line
  views : Vector Mem 4
  clocks : Vector (Vector Nat 4) 4
  seq : Nat
  msgs : List WriteMsg
  copies : List RedCopy
  stale : List (Fin 4 × Nat)
  l1 : List L1Line
  bad : List Nat
  retired : List Nat
  corrected : Vector Nat 4
  deriving DecidableEq, Repr

/-! ## Translation (18) -/

/-- A format descriptor as it was read with a translation (03 R77, R78). -/
structure FormatDesc where
  format : Nat
  compressible : Bool
  geometry : Nat
  region : Nat
  scaleBase : Nat
  scaleStride : Nat
  valid : Bool
  deriving DecidableEq, Repr

/-- Where a translation is held (18, the TLBs). -/
inductive TlbSite
  | quadrant (core : CoreId) (q : Fin 4)
  | copyEngine (core : CoreId)
  | collEngine (die : Fin 4)
  | l2 (die : Fin 4)
  deriving DecidableEq, Repr

structure TlbEntry where
  site : TlbSite
  world : Nat
  page : Nat
  log2 : Nat
  pa : Nat
  u : Bool
  x : Bool
  w : Bool
  r : Bool
  index : Nat
  fmt : FormatDesc
  deriving DecidableEq, Repr

/-- A table entry in a die's page-walk cache. -/
structure PwcEntry where
  die : Fin 4
  world : Nat
  level : Nat
  tag : Nat
  entry : W64
  deriving DecidableEq, Repr

/-- Who waits for a walk. -/
inductive Asker
  | scalar (sid : StrandId)
  | vector (sid : StrandId)
  | copy (core : CoreId) (q : Fin 4) (num : Nat)
  | coll (die : Fin 4) (num : Nat)
  deriving DecidableEq, Repr

structure Walk where
  die : Fin 4
  site : TlbSite
  asker : Asker
  world : Nat
  priv : Bool
  va : Nat
  access : AccessKind
  deriving DecidableEq, Repr

structure Inval where
  world : Nat
  va : Nat
  log2 : Nat
  deriving DecidableEq, Repr

structure Xlat where
  tlb : List TlbEntry
  pwc : List PwcEntry
  walks : List Walk
  inval : Option Inval
  deriving DecidableEq, Repr

/-! ## Worlds (16) -/

/-- A gate a world serves (16 R315, R316): its occupied entries are the tickets not yet replied to. -/
structure Gate where
  client : Nat
  handle : Nat
  base : Nat
  depth : Nat
  posted : Nat
  pending : List Nat
  deriving DecidableEq, Repr

inductive TicketState
  | pending
  | replied (bytes : List Byte)
  | closed
  deriving DecidableEq, Repr

structure Ticket where
  server : Nat
  gate : Nat
  holder : StrandId
  state : TicketState
  deriving DecidableEq, Repr

/-- 17 R320. A launch queue: its priority (4 is the system class), its context and the launches not complete. -/
structure LaunchQueue where
  priority : Nat
  ctx : Nat
  next : Nat
  pending : List (Nat × Nat)
  deriving DecidableEq, Repr

/-- What a walk on behalf of the graph unit, or a command, tells the world's runtime or the kernel. -/
inductive Event
  | gate (gate status : Nat)
  | gateOpened (handle server : Nat)
  | cutDefer (ctx frame : Nat)
  | cutAbort (ctx : Nat) (conflict : Bool)
  | cutDone (ctx frame : Nat)
  | moveFailed (ctx : Nat)
  | early (ctx edge : Nat)
  | rmaFailed (sender message handle : Nat) (check : W32)
  | rmaViolation (handle : Nat) (check : W32) (offset : Nat)
  | preempted (launch addr : Nat)
  | capacity (launch n : Nat)
  | restoreRefused (launch : Nat) (code : Code)
  | firewall (port : Nat)
  | poisonedFrame (page : Nat)
  | invalDone (world : Nat)
  | faultSignal (world seq : Nat)
  | violation (r : FaultRec)
  | launchRefused (world desc : Nat)
  | launchAccepted (world num : Nat)
  | contextRefused (world ctx : Nat)
  | revoked (handle : Nat)
  deriving DecidableEq, Repr

structure World where
  protect : Bool
  alive : Bool
  valid : Bool
  root : Nat
  queueBase : Nat
  depth : Nat
  nextSeq : Nat
  records : List FaultRec
  unwritten : List FaultRec
  fdtb : Option Nat
  picots : Assoc Nat Picot
  handles : Assoc Nat (Nat × Nat)
  served : Assoc Nat Gate
  debugen : Bool
  queues : Assoc Nat LaunchQueue
  job : Option Nat
  register : Nat
  receipts : List (List Byte)
  deriving DecidableEq, Repr

/-! ## Graph contexts (05) -/

/-- One frame of an edge that is open or whose ring space is still in use (05 R122 to R129): the depth of each slot that
holds a real record, the slots already written to the ring, the delivered prefix, how much of it had been delivered at
the consumer's deadline, how much launches have taken, and the launches that took it. -/
structure EdgeFrame where
  frame : Nat
  slots : Assoc Nat Nat
  inRing : List Nat
  delivered : Nat
  cutAt : Option Nat
  taken : Nat
  closed : Bool
  users : List Nat
  parities : List (Nat × Nat × List Byte)
  members : Assoc Nat (Nat × List Byte)
  deriving DecidableEq, Repr

/-- The sending end of a remote edge (05 R138, R139): the open datagram's records by slot, the members of the open
parity group with their record counts, and when pacing lets the next datagram go. -/
structure Codec where
  last : W32
  openFrame : Nat
  openRecords : List (Nat × List Byte)
  groupFirst : Nat
  group : List (Nat × List Byte)
  nextSend : Nat
  deriving DecidableEq, Repr

structure EdgeState where
  sub : W32
  late : W32
  dup : W32
  early : W32
  expired : W32
  malformed : W32
  highest : W32
  base : Nat
  frames : List EdgeFrame
  hist : Assoc Nat (Assoc Nat (List Byte))
  codec : Codec
  deriving DecidableEq, Repr

/-- The stage of a node in a context: the launch made last, the frames whose once-a-frame launch is still to be made,
a raster node's state, the pages at which its unit goes on without the access, and whether the refusal of its next launch has been
told (18 R348). -/
structure NodeState where
  lastLaunch : Option Nat
  held : List Nat
  raster : Option RasterState
  given : List Nat
  told : Bool
  deriving DecidableEq, Repr

/-- 05 R145. -/
inductive MoveState | idle | proposed | acked | committed | aborting | failed
  deriving DecidableEq, Repr

/-- A control datagram that awaits its reply (05 R301). -/
structure Ctl where
  port : Fin 4
  peer : Nat
  dg : Datagram
  sentAt : Nat
  resends : Nat
  deriving DecidableEq, Repr

/-- A context's move (05 R144 to R151): `num` is the number of the current or last move, `top` the highest number this copy has
used or adopted; `doneStages` are the moving stages of this chip in the order in which they completed frame f - 1; `held` are
arrivals of the new cut's routes that came while the move was still ACKED. -/
structure Move where
  state : MoveState
  num : W32
  top : W32
  config : Nat
  frame : Nat
  deferrals : Nat
  initiator : Bool
  answered : List Datagram
  ctls : List Ctl
  stored : Assoc Nat (List Byte)
  written : List Nat
  total : Option Nat
  tableSent : Bool
  doneStages : List Nat
  sentStages : List Nat
  phaseDone : Bool
  held : List Datagram
  deriving DecidableEq, Repr

/-- A fragment on its way to its output-merge node (05 R135). -/
structure Frag where
  node : Nat
  merge : Nat
  frame : Nat
  order : Nat
  launch : Nat
  px : Nat
  py : Nat
  target : Nat
  z : W32
  s : List W32
  deriving DecidableEq, Repr

/-- 05 R136: the raster queue of a node: commands not complete, by number and frame. -/
structure RasterQueue where
  next : Nat
  cmds : List (Nat × Nat)
  deriving DecidableEq, Repr

structure Context where
  img : ContextImage
  world : Nat
  stopped : Bool
  cut : Nat
  phase : Nat
  past : List (Nat × Nat)
  first : Nat
  current : Option Nat
  offset : Int
  phases : Assoc Nat Nat
  runs : Assoc Nat Nat
  edges : Assoc Nat EdgeState
  nodes : Assoc Nat NodeState
  move : Move
  frags : List Frag
  raster : Assoc Nat RasterQueue
  deriving DecidableEq, Repr

/-! ## Ports, remote memory, trust and power (19) -/

/-- A datagram waiting at its port (05 R139). -/
structure OutDatagram where
  world : Nat
  ctx : Nat
  edge : Nat
  expires : Nat
  rate : Nat
  peer : Nat
  dg : Datagram
  deriving DecidableEq, Repr

/-- An Ethernet port: what waits, and what has left with the peer it goes to (05 R137). -/
structure EthPort where
  queue : List OutDatagram
  sent : List (Nat × Datagram)
  malformed : W32
  deriving DecidableEq, Repr

/-- A message this device sends (19 R357): its number of the device, its number from its strand to its peer, its packets
with their target offsets, the counter that it names at its target, and its bitmap. `filling`: a copy command still adds to it. -/
structure OutMessage where
  num : Nat
  seq : Nat
  world : Nat
  sender : Option StrandId
  window : RemoteWindow
  op : RmaOp
  parts : List (Nat × List Byte)
  counter : Option Nat
  filling : Bool
  acked : List Nat
  sendings : Nat
  sentAt : Nat
  wait : Nat
  deriving DecidableEq, Repr

/-- A message this device receives: the packets placed, and when its first one arrived. -/
structure InMessage where
  peer : Nat
  sender : Nat
  num : Nat
  handle : Nat
  packets : Nat
  got : List Nat
  counter : Option Nat
  since : Nat
  refused : Bool
  deriving DecidableEq, Repr

/-- What this device returns to a sender by a port: the packets of a message it has, or a refusal with the offset of the packet
refused (19 R357, R359). -/
structure RmaAnswer where
  port : Nat
  peer : Nat
  message : Nat
  got : List Nat
  refused : Option Nat
  data : List Byte
  deriving DecidableEq, Repr

/-- How a message ended for its sender (19 R357, R359). -/
inductive MsgStatus | complete | refused | failed
  deriving DecidableEq, Repr

structure Rma where
  regions : Assoc Nat Region
  windows : Assoc Nat RemoteWindow
  next : Nat
  numbers : Assoc (Option StrandId × Nat) Nat
  out : List OutMessage
  inn : List InMessage
  held : List RmaPacket
  counters : Assoc Nat W64
  triggered : List Triggered
  answers : List RmaAnswer
  statuses : Assoc Nat MsgStatus
  deriving DecidableEq, Repr

/-- The hub's own registers and buffers (19 R353, R354, R366). A window of the firewall is known by its partition's lowest
die and its number, `flits` count since a link's last rekeying, and `flows` are the packet counters of the peers of a port:
packets sent, and packets received. -/
structure HubRegs where
  firewall : Vector (Assoc (Fin 4 × Nat) FirewallWindow) 6
  violations : Vector W32 6
  cipherFails : Vector W32 6
  flits : Vector Nat 18
  rekeys : Vector Nat 18
  flows : Assoc (Fin 4 × Nat) (W64 × W64)
  hdm : Option (Nat × Nat)
  links : List (Fin 4 × Fin 4)
  dropped : Nat
  replies : List (Fin 6 × List Byte)
  deriving DecidableEq, Repr

/-- 19 R361, R362. `first`: the first stage runs, and neither bundle boots. -/
inductive BootStage | off | halted | first | running
  deriving DecidableEq, Repr

structure Slot where
  bundle : Option Bundle
  good : Bool
  deriving DecidableEq, Repr

structure Trust where
  stage : BootStage
  mr : Vector (List Byte) 24
  slots : Vector Slot 2
  active : Fin 2
  rollback : Nat
  trialUntil : Option Nat
  debugOpen : Bool
  answers : List (List Byte)
  deriving DecidableEq, Repr

/-- 19 R364: what the crash-dump engine has written to the host-visible buffer: the hub's registers, its Ethernet ports, its
remote memory access, its security block, the codecs and reorder buffers of the edges of each context, and the frames of worlds
that are not protected. -/
structure CrashDump where
  buffer : Nat
  regs : HubRegs
  ports : Vector EthPort 4
  rma : Rma
  trust : Trust
  edges : Assoc Nat (Assoc Nat EdgeState)
  frames : List (Nat × Nat × Mem)
  omitted : Nat
  deriving DecidableEq, Repr

structure Hub extends HubRegs where
  crash : Option CrashDump
  deriving DecidableEq, Repr

inductive PowerState | w0 | w1 | w2 | w3 | w4
  deriving DecidableEq, Repr

structure Power where
  state : PowerState
  exitAt : Option Nat
  tolerance : Nat
  parts : List (List (Fin 4))
  deriving DecidableEq, Repr

/-- A drain of a world on cores (17 R329): its end, and where the kernel has the next cocoon written. -/
structure DrainRec where
  world : Nat
  cores : List CoreId
  deadline : Nat
  area : Nat
  deriving DecidableEq, Repr

/-- The spares brought in, each with the unit it replaced (19 R368). -/
structure Spares where
  used : List SpareUnit
  deriving DecidableEq, Repr

/-! ## Turns -/

/-- What moves next: an event, or one word of a stream. -/
inductive Turn
  | event (i : Instr)
  | scalar (sid : StrandId)
  | vector (sid : StrandId) (slot : Fin 2)
  deriving DecidableEq, Repr

/-- The stream whose word is being executed. -/
inductive Actor
  | scalar (sid : StrandId)
  | vector (sid : StrandId) (slot : Fin 2)
  deriving DecidableEq, Repr

/-- What a world has issued on one port of a quadrant in the scheduler's present round, and which of its streams and splits
have had their turn (01 R22). -/
structure PortIssues where
  core : CoreId
  quadrant : Fin 4
  vector : Bool
  world : Nat
  count : Nat
  served : List (StrandId × Fin 2)
  deriving DecidableEq, Repr

/-! ## The state -/

/-- One Tlaquin. `agenda`, `inbox`, `cur` and `ticks` are the model's own fields (log 2, 3); every other field is the
spec's, but that `nextId` (log 113) and `events` (log 117) name and hold what the spec gives no place. -/
structure State where
  agenda : List Turn
  inbox : List Input
  cur : Option Actor
  ticks : Nat
  still : Nat
  cycle : Nat
  mem : MemSys
  xlat : Xlat
  strands : Assoc StrandId Strand
  wgs : Assoc Nat Workgroup
  launches : Assoc Nat Launch
  insts : Assoc InstId Inst
  bars : Assoc BarKey Bar
  copyQs : Assoc (CoreId × Fin 4) CopyQueue
  collQs : Vector CollQueue 4
  partRegs : Assoc CoreId (Vector PartEntry 8)
  granules : Assoc CoreId (Vector Granule 48)
  deficits : Assoc (Fin 4 × Nat) Int
  turns : Assoc (Fin 4 × Nat) Nat
  issues : List PortIssues
  drains : List DrainRec
  worlds : Assoc Nat World
  tickets : Assoc Nat Ticket
  contexts : Assoc Nat Context
  ports : Vector EthPort 4
  rma : Rma
  hub : Hub
  trust : Trust
  power : Power
  spares : Spares
  events : List (Nat × Event)
  nextId : Nat
  deriving DecidableEq, Repr

/-! ## Reasons to stop -/

/-- Reasons the model itself stops. `noActor`: `exec` was asked for a strand's word with no strand chosen, or with
one that does not exist; `step` never asks so. Safe: the hardware has no such state. -/
inductive Fault
  | noActor
  deriving DecidableEq, Repr

/-- `notModelled`: an arm of `exec` without a meaning yet, by its mnemonic. Safe. -/
inductive Refusal
  | notModelled (mnemonic : String)
  deriving DecidableEq, Repr

/-! ## Reset -/

def PartEntry.empty : PartEntry := ⟨false, 0, 0, 0, 0, 0⟩

def CollQueue.empty : CollQueue := ⟨none, 1, [], false⟩

def CopyQueue.empty : CopyQueue := ⟨none, 1, [], false⟩

def MatQueue.empty : MatQueue := ⟨1, [], false⟩

def World.empty : World :=
  { protect := false, alive := true, valid := false, root := 0, queueBase := 0, depth := 16, nextSeq := 1, records := [],
    unwritten := [], fdtb := none, picots := [], handles := [], served := [], debugen := false, queues := [], job := none,
    register := 0, receipts := [] }

def MemSys.reset : MemSys :=
  { home := [], l2 := [], views := Vector.replicate 4 [], clocks := Vector.replicate 4 (Vector.replicate 4 0), seq := 0, msgs := [],
    copies := [], stale := [], l1 := [], bad := [], retired := [], corrected := Vector.replicate 4 0 }

def Hub.reset : Hub :=
  { firewall := Vector.replicate 6 [], violations := Vector.replicate 6 0, cipherFails := Vector.replicate 6 0,
    flits := Vector.replicate 18 0, rekeys := Vector.replicate 18 0, flows := [], hdm := none, links := [], dropped := 0, replies := [],
    crash := none }

/-- 19 R361: measurement registers are zero at reset. The slots are the device's own: empty here (log 13). -/
def Trust.reset : Trust :=
  { stage := .off, mr := Vector.replicate 24 (List.replicate 64 0),
    slots := Vector.replicate 2 ⟨none, false⟩, active := 0, rollback := 0,
    trialUntil := none, debugOpen := false, answers := [] }

/-- The machine right after reset: nothing resident, world 0 alone, one partition of four dies, power state W0. -/
def State.reset : State :=
  { agenda := [], inbox := [], cur := none, ticks := 0, still := 0, cycle := 0, mem := MemSys.reset,
    xlat := { tlb := [], pwc := [], walks := [], inval := none },
    strands := [], wgs := [], launches := [], insts := [], bars := [], copyQs := [],
    collQs := Vector.replicate 4 CollQueue.empty, partRegs := [], granules := [], deficits := [], turns := [], issues := [], drains := [],
    worlds := [(0, World.empty)], tickets := [], contexts := [],
    ports := Vector.replicate 4 ⟨[], [], 0⟩,
    rma := ⟨[], [], 1, [], [], [], [], [], [], [], []⟩,
    hub := Hub.reset, trust := Trust.reset,
    power := { state := .w0, exitAt := none, tolerance := 0, parts := [[0, 1, 2, 3]] },
    spares := { used := [] }, events := [], nextId := 1 }

end Sys2Proof.Machine
end

