-- ==== Sys2Proof/Machine/Memory.lean ====
section
/-! DEFINITION. Named operations over global memory: home order, die views, vector clocks, reduction copies, L1 and
poisoned sectors (03 R74, R75, R83; 04 R87, R97, R99, R101; 18 R351). -/

namespace Sys2Proof.Machine

open Sys2Proof

def lineOf (pa : Nat) : Nat := pa / 128

def sectorOf (pa : Nat) : Nat := pa / 32

/-- The partition of whole dies that a die belongs to (19 R366). -/
def partOf (parts : List (List (Fin 4))) (d : Fin 4) : List (Fin 4) := (parts.find? fun p => p.contains d).getD [d]

/-- The home of a physical address as die `d`'s partition has it (03 R75, 19 R366). -/
def homeDie (parts : List (List (Fin 4))) (d : Fin 4) (pa : Nat) : Fin 4 :=
  let p := partOf parts d
  p.getD (pa / 4096 % 4 % p.length) d

/-- `a ⊕ b` on two words of a type, as bits (08 R233, R234): integers wrap, FP32 rounds to nearest even, MIN and MAX
are signed by the type or follow 02 R57. -/
def combineRed (op : RedOp) (t : Ty) (a b : Nat) : Nat :=
  let n := t.bits
  let iv (x : Nat) : Int := if t.signed then signedOf n x else (x % 2 ^ n : Nat)
  match op with
  | .add => if t = .f32 then roundF .f32 ((decodeF .f32 a).add (decodeF .f32 b) .rn) .rn else (a + b) % 2 ^ n
  | .min => if t = .f32 then roundF .f32 ((decodeF .f32 a).min (decodeF .f32 b)) .rn else if iv b < iv a then b else a
  | .max => if t = .f32 then roundF .f32 ((decodeF .f32 a).max (decodeF .f32 b)) .rn else if iv a < iv b then b else a
  | .and => a &&& b
  | .or => a ||| b
  | .xor => a ^^^ b

/-- Whether every die has applied a write. -/
def WriteMsg.everywhere (w : WriteMsg) : Bool := (List.finRange 4).all fun e => w.applied.contains e

/-- Whether a write is another or causally before it (04 R99). -/
def WriteMsg.upTo (x w : WriteMsg) : Bool := (List.finRange 4).all fun j => decide (x.stamp[j] ≤ w.stamp[j])

namespace MemSys

def view (m : MemSys) (d : Fin 4) : Mem := m.views[d]

def setView (m : MemSys) (d : Fin 4) (v : Mem) : MemSys := { m with views := m.views.set d v }

/-- Whether die `e` may apply a write (04 R99). -/
def canApply (m : MemSys) (e : Fin 4) (w : WriteMsg) : Bool :=
  decide (e ≠ w.die) && !w.applied.contains e &&
  (List.finRange 4).all fun j =>
    if j = w.die then decide (w.stamp[j] = m.clocks[e][j] + 1) else decide (w.stamp[j] ≤ m.clocks[e][j])

/-- The cells of a write that die `e` has no later write of the line for: the others' values it skips (04 R87, R99). -/
def freshCells (m : MemSys) (e : Fin 4) (w : WriteMsg) : List Host.Cell :=
  w.cells.filter fun c => !m.msgs.any fun x =>
    decide (x.line = w.line) && decide (w.seq < x.seq) && x.applied.contains e && x.cells.any fun y => y.1 == c.1

/-- A write that every die has applied needs no message any more once no earlier write of its line does. -/
def prune (m : MemSys) : MemSys :=
  { m with msgs := m.msgs.filter fun w => !w.everywhere
      || m.msgs.any fun x => decide (x.line = w.line) && decide (x.seq < w.seq) && !x.everywhere }

/-- Die `e` applies a write of another die (04 R99); a reduction makes its copy of the line unreadable (R101). -/
def applyMsg (m : MemSys) (e : Fin 4) (w : WriteMsg) : MemSys :=
  { m with
    views := m.views.set e ((m.view e).writeCells (m.freshCells e w))
    clocks := m.clocks.set e (m.clocks[e].set w.die w.stamp[w.die])
    msgs := m.msgs.map fun x => if x.seq = w.seq then { x with applied := e :: x.applied } else x
    stale := if w.red then (e, w.line) :: m.stale else m.stale }

/-- Die `e` applies every write up to a place in the order of performance, which respects their causal order. -/
def applyUpTo (m : MemSys) (e : Fin 4) (upTo : Nat) : MemSys :=
  ((m.msgs.filter fun w => decide (w.seq ≤ upTo) && !w.applied.contains e).foldl (fun m w => m.applyMsg e w) m).prune

/-- Die `e` applies a write, and before it what is causally before it. -/
def applyPast (m : MemSys) (e : Fin 4) (w : WriteMsg) : MemSys :=
  (m.msgs.filter fun x => x.upTo w && !x.applied.contains e).foldl (fun m x => m.applyMsg e x) m

/-- A value read at the home reaches die `e` only after `e` has applied the write that produced it (04 R99), and so every
earlier one of the line (R87). -/
def catchUp (m : MemSys) (e : Fin 4) (line : Nat) : MemSys :=
  ((m.msgs.filter fun w => w.line = line).foldl (fun m w => m.applyPast e w) m).prune

/-- Whether die `e` has a write of a line without an earlier one of that line (04 R87). -/
def behind (m : MemSys) (e : Fin 4) (line : Nat) : Bool :=
  m.msgs.any fun w => decide (w.line = line) && !w.applied.contains e
    && m.msgs.any fun x => decide (x.line = line) && decide (w.seq < x.seq) && x.applied.contains e

/-- The sectors that a store covers whole take fresh check bits (18 R351). -/
def clearBad (bad : List Nat) (cells : List Host.Cell) : List Nat :=
  bad.filter fun k => !(List.range 32).all fun i => cells.any fun c => c.1 == 32 * k + i

/-- A write is performed at die `d`: it takes its place in home order and in `d`'s view (04 R87, R97, R99). -/
def perform (m : MemSys) (d : Fin 4) (line : Nat) (cells : List Host.Cell) (red : Bool) : MemSys :=
  let n := m.seq + 1
  let clk := m.clocks[d].set d (m.clocks[d][d] + 1)
  { m with
    home := m.home.writeCells cells
    views := m.views.set d ((m.view d).writeCells cells)
    clocks := m.clocks.set d clk
    seq := n
    msgs := m.msgs ++ [{ die := d, stamp := clk, seq := n, line := line, cells := cells, red := red,
                         applied := [d] }]
    bad := if red then m.bad else clearBad m.bad cells
    stale := if red then (d, line) :: m.stale else m.stale }

/-- `a ⊕ b` on words of a reduction's type (08 R233, R234); the type is 4 or 8 bytes wide. -/
def redCells (c : RedCopy) (home : Mem) : List Host.Cell :=
  let n := c.ty.bits / 8
  (c.words.map fun p => cellsAt (128 * c.line + p.1)
    (natLE n (combineRed c.op c.ty (home.readNat (128 * c.line + p.1) n) p.2.toNat))).flatten

/-- One copy is combined into its home, as a write of the home die (03 R83, 04 R101). A poisoned sector stays so. -/
def combineCopy (m : MemSys) (parts : List (List (Fin 4))) (c : RedCopy) : MemSys :=
  let bad := m.bad
  let m := { m with copies := m.copies.filter fun x => x ≠ c }
  { m.perform (homeDie parts c.die (128 * c.line)) c.line (redCells c m.home) false with bad := bad }

/-- Every copy of a line is combined before a read or write at the home (03 R83, 04 R101). -/
def combineLine (m : MemSys) (parts : List (List (Fin 4))) (line : Nat) : MemSys :=
  (m.copies.filter fun c => c.line = line).foldl (fun m c => m.combineCopy parts c) m

/-- A read at the home by die `d`: copies combined, and `d` has applied what it is to see. -/
def atHome (m : MemSys) (parts : List (List (Fin 4))) (d : Fin 4) (line : Nat) : MemSys :=
  let m := (m.combineLine parts line).catchUp d line
  { m with stale := m.stale.filter fun p => p ≠ (d, line) }

/-- The slice of a line within a die's L2 (03 R75). -/
def sliceOf (line : Nat) : Nat := (bitsOf line 7 1 * 32 + bitsOf line 0 5) ^^^ bitsOf line 8 6

/-- Lines of one of a die's 64 slices of L2, which are 128 MiB together. -/
def sliceLines : Nat := 16384

/-- Whether die `d` holds a copy of a line that world `w` filled. -/
def holds (m : MemSys) (d : Fin 4) (w line : Nat) : Bool :=
  m.l2.any fun x => decide (x.die = d) && x.line == line && x.world == w

/-- A world's line takes its place in its slice; beyond the slice's size the oldest is evicted. -/
def l2Fill (m : MemSys) (d : Fin 4) (w line : Nat) : MemSys :=
  let mine (x : L2Line) : Bool := decide (x.die = d) && sliceOf x.line == sliceOf line
  let rest := m.l2.filter fun x => !(decide (x.die = d) && x.line == line)
  { m with l2 := ⟨d, line, w⟩ :: ((rest.filter mine).take (sliceLines - 1) ++ rest.filter fun x => !mine x) }

/-- A write by a world leaves no copy that another world filled. -/
def l2Own (m : MemSys) (d : Fin 4) (w line : Nat) : MemSys :=
  { m with l2 := m.l2.filter fun x => !(decide (x.die = d) && x.line == line && x.world != w) }

/-- What die `d` does before a world reads a line at its L2: at the home, or without a readable copy that the world
filled, the read goes to the home, else the die's own copy answers, never with a write of the line before an earlier
one (03 R75, R83; 04 R87, R101). -/
def readyLine (m : MemSys) (parts : List (List (Fin 4))) (d : Fin 4) (w line : Nat) : MemSys :=
  let here := decide (homeDie parts d (128 * line) = d)
  if !m.holds d w line || m.stale.contains (d, line) || (here && m.copies.any fun c => c.line == line) then
    (m.atHome parts d line).l2Fill d w line
  else if m.behind d line then m.catchUp d line
  else m

/-- The L1 line of a core, as a world sees it (03 R74). -/
def l1Find (m : MemSys) (core : CoreId) (world line : Nat) : Option L1Line :=
  m.l1.find? fun x => decide (x.core = core) && decide (x.world = world) && decide (x.line = line)

def l1Drop (m : MemSys) (core : CoreId) (line : Nat) : MemSys :=
  { m with l1 := m.l1.filter fun x => !(decide (x.core = core) && decide (x.line = line)) }

/-- Lines of a core's L1 of 384 KiB (03 R74). -/
def l1Lines : Nat := 3072

/-- A line is filled into a core's L1 from its die's L2; beyond the L1's size the oldest is evicted. -/
def l1Fill (m : MemSys) (core : CoreId) (world line : Nat) : MemSys :=
  let m := m.l1Drop core line
  let here (x : L1Line) : Bool := decide (x.core = core)
  { m with l1 := { core := core, world := world, line := line, bytes := (m.view core.die).read (128 * line) 128 }
      :: ((m.l1.filter here).take (l1Lines - 1) ++ m.l1.filter fun x => !here x) }

/-- Whether any byte lies in a sector whose check fails (18 R351). -/
def poisoned (m : MemSys) (pa n : Nat) : Bool := m.bad.any fun k => decide (32 * k < pa + n) && decide (pa < 32 * k + 32)

end MemSys

end Sys2Proof.Machine
end

