-- ==== Sys2Proof/Machine/Translate.lean ====
section
/-! DEFINITION. Translation (18 R338 to R343), format descriptors (03 R77) and accesses by physical address. -/

namespace Sys2Proof.Machine

open Sys2Proof

namespace State

def parts (s : State) : List (List (Fin 4)) := s.power.parts

/-- Where a partition's stacks stand in the model's one global memory: a hard partition has its own stacks, so one physical
address of two partitions is two places (19 R366). Zero while the four dies are one partition. -/
def memBase (s : State) (d : Fin 4) : Nat := ((partOf s.parts d).foldl (fun n e => min n e.val) d.val) * 2 ^ 52

/-- Bytes of a partition's stacks: three on each die, each of twelve dies of 24 Gb (00 R2; log 58). -/
def memSize (s : State) (d : Fin 4) : Nat := (partOf s.parts d).length * (3 * 12 * 24 * 2 ^ 30 / 8)

/-- The first die with a core whose partition registers name a world, else die 0: where the device itself accesses the world's
memory (DESIGN CHOICE, log 139). -/
def worldDie (s : State) (w : Nat) : Fin 4 :=
  ((List.finRange 4).find? fun d => s.partRegs.any fun p =>
    decide (p.1.die = d) && p.2.toList.any fun x => x.valid && x.world == w).getD 0

def modWorld (s : State) (w : Nat) (f : World → World) : State := { s with worlds := s.worlds.modify w f }

def modStrand (s : State) (sid : StrandId) (f : Strand → Strand) : State := { s with strands := s.strands.modify sid f }

/-- A strand's watch sees a write performed at the home of its line (03 R82). -/
def noteWrite (s : State) (line : Nat) : State :=
  { s with strands := s.strands.map fun p =>
      (p.1, match p.2.watch with
        | some w => if w.line = line then { p.2 with watch := some { w with wrote := true } } else p.2
        | none => p.2) }

/-- A change of the memory system about one line: where it combines copies of the line, a watch sees the write. -/
def onLine (s : State) (line : Nat) (f : MemSys → MemSys) : State :=
  let m := f s.mem
  if m.copies.length < s.mem.copies.length then { s with mem := m }.noteWrite line else { s with mem := m }

/-- A line is made ready to be read or written at its home on behalf of die `d`. -/
def homeLine (s : State) (d : Fin 4) (line : Nat) : State := s.onLine line fun m => m.atHome s.parts d line

/-- The bytes `[pa, pa + n)` split at line ends: (line, address, count). -/
def segments (fuel pa n : Nat) : List (Nat × Nat × Nat) :=
  match fuel with
  | 0 => []
  | f + 1 => if n = 0 then [] else
    let k := min n (128 - pa % 128)
    (lineOf pa, pa, k) :: segments f (pa + k) (n - k)

def segs (pa n : Nat) : List (Nat × Nat × Nat) := segments (n / 128 + 2) pa n

/-- A world's write of bytes at a physical address, performed at die `d`, one write for each line (04 R87, R97). Every copy of
the line is combined before the write takes its place in home order (04 R101). -/
def performAt (s : State) (d : Fin 4) (w pa : Nat) (bs : List Byte) : State :=
  (segs pa bs.length).foldl (fun s g =>
    let cells := cellsAt g.2.1 ((bs.drop (g.2.1 - pa)).take g.2.2)
    let s := s.onLine g.1 fun m => (m.combineLine s.parts g.1).l2Own d w g.1
    { s with mem := s.mem.perform d g.1 cells false }.noteWrite g.1) s

/-- Makes die `d` ready for a world to read the lines of `[pa, pa + n)` at its L2. -/
def readyAt (s : State) (d : Fin 4) (w pa n : Nat) : State :=
  (segs pa n).foldl (fun s g => s.onLine g.1 fun m => m.readyLine s.parts d w g.1) s

/-- Bytes at die `d`'s L2, as a world reads them. -/
def readL2 (s : State) (d : Fin 4) (w pa n : Nat) : State × List Byte :=
  let s := s.readyAt d w pa n
  (s, (s.mem.view d).read pa n)

/-- Eight bytes read at the home of their line, on behalf of die `d` (18 R341). -/
def readHome8 (s : State) (d : Fin 4) (pa : Nat) : State × Nat :=
  let s := s.homeLine d (lineOf pa)
  (s, s.mem.home.readNat pa 8)

end State

/-! ## Page walks -/

/-- The lowest virtual-address bit that a level indexes (18 R338). -/
def levelShift : Nat → Nat
  | 0 => 16 | n + 1 => 21 + 9 * n

/-- What a walk ends in. -/
inductive WalkEnd
  | ok (pa log2 : Nat) (u x w r : Bool) (index : Nat)
  | bad (c : Code)
  deriving DecidableEq, Repr

/-- The lowest die of a die's partition. -/
def leadOf (s : State) (d : Fin 4) : Fin 4 := (partOf s.parts d).foldl min d

/-- A local physical address with bit 51 set names a remote window (19 R357). -/
def isRemote (pa : Nat) : Bool := bitOf pa 51

/-- A translated address in the partition's stacks; one beyond them, in no remote window, raises ACCESS (log 58). -/
def WalkEnd.shift (base size : Nat) : WalkEnd → WalkEnd
  | .ok pa log2 u x w r index =>
    if !isRemote pa && decide (size < pa + 2 ^ log2) then .bad .access else .ok (base + pa) log2 u x w r index
  | e => e

/-- 18 R340, the rows on one entry: `none` for a table entry that the walk goes on from. -/
def entryCheck (level : Nat) (e : Nat) (access : AccessKind) (priv : Bool) : Option WalkEnd :=
  if !bitOf e 0 then some (.bad .page)
  else
    let leaf := bitOf e 1
    let reserved := bitsOf e 52 4 != 0 || bitsOf e 6 2 != 0
    if leaf then
      let sh := levelShift level
      if 2 < level || reserved || bitsOf e 8 (sh - 8) != 0 then some (.bad .access)
      else
        let r := bitOf e 2; let w := bitOf e 3; let x := bitOf e 4; let u := bitOf e 5
        let okPerm := match access with
          | .read => r | .write => w | .rmw => r && w | .fetch => x | .none => true
        if !okPerm || (!priv && !u) then some (.bad .access)
        else some (.ok (bitsOf e 8 44 * 256) sh u x w r (bitsOf e 56 8))
    else if level = 0 || reserved || bitsOf e 56 8 != 0
        || (level != 1 && bitsOf e 8 4 != 0) then some (.bad .access)
    else none

/-- The number of a free choice about an address in a step. -/
def choiceIx (s : State) (addr k : Nat) : Nat := s.ticks * 2 ^ 80 + addr * 16 + k

/-- One entry of a walk: a walk cache may hold a table entry read before (18 R342), else the home is read. -/
def walkRead (s : State) (d : Fin 4) (world level tag pa : Nat) : State × Nat :=
  match s.xlat.pwc.find? fun c => decide (c.die = d) && c.world == world && c.level == level && c.tag == tag with
  | some c => if Config.l1Keep (choiceIx s pa level) then (s, c.entry.toNat) else s.readHome8 d pa
  | none => s.readHome8 d pa

/-- Keeps a table entry in the die's walk cache. -/
def walkKeep (s : State) (d : Fin 4) (world level tag e : Nat) : State :=
  { s with xlat := { s.xlat with pwc :=
      { die := d, world := world, level := level, tag := tag, entry := BitVec.ofNat 64 e }
        :: (s.xlat.pwc.filter fun c => !(decide (c.die = d) && c.world == world && c.level == level && c.tag == tag)) } }

/-- Whether a table entry lies in the memory of the die's partition (00 R2; log 58). -/
def entryHeld (s : State) (base : Nat) (d : Fin 4) (pa : Nat) : Bool := decide (pa + 8 ≤ base + s.memSize d)

/-- The walk from a level down (18 R338 to R341). -/
def walkGo (base : Nat) (d : Fin 4) (world va : Nat) (access : AccessKind) (priv : Bool) : Nat → Nat → State → State × WalkEnd
  | 0, table, s =>
    if !entryHeld s base d (table + 8 * bitsOf va 16 5) then (s, .bad .access) else
    let r := walkRead s d world 0 (va / 2 ^ 16) (table + 8 * bitsOf va 16 5)
    (r.1, (entryCheck 0 r.2 access priv).getD (.bad .access))
  | level + 1, table, s =>
    let sh := levelShift (level + 1)
    if !entryHeld s base d (table + 8 * bitsOf va sh 9) then (s, .bad .access) else
    let r := walkRead s d world (level + 1) (va / 2 ^ sh) (table + 8 * bitsOf va sh 9)
    match entryCheck (level + 1) r.2 access priv with
    | some e => (r.1, e)
    | none => walkGo base d world va access priv level (base + bitsOf r.2 8 44 * 256) (walkKeep r.1 d world (level + 1) (va / 2 ^ sh) r.2)

/-- A whole walk of a world's tree. A world whose record is not valid maps nothing. -/
def walk (s : State) (d : Fin 4) (world va : Nat) (access : AccessKind) (priv : Bool) : State × WalkEnd :=
  match s.worlds.get? world with
  | some w =>
    if w.valid then
      let r := walkGo (s.memBase d) d world va access priv 4 (s.memBase d + w.root) s
      (r.1, r.2.shift (s.memBase d) (s.memSize d))
    else (s, .bad .page)
  | none => (s, .bad .page)

/-- A translation made outright, for the graph unit and the management core: no TLB holds it. -/
def translateNow (s : State) (d : Fin 4) (world va : Nat) (access : AccessKind) (priv : Bool) : State × Except Code Nat :=
  if 2 ^ 57 ≤ va then (s, .error .access) else
  match walk s d world va access priv with
  | (s, .ok pa log2 ..) => (s, .ok (pa + va % 2 ^ log2))
  | (s, .bad c) => (s, .error c)

/-- The bytes `[va, va + n)` split at 64 KiB pages: (address, count). -/
def pageSegs (fuel va n : Nat) : List (Nat × Nat) :=
  match fuel with
  | 0 => []
  | f + 1 => if n = 0 then [] else
    let k := min n (65536 - va % 65536)
    (va, k) :: pageSegs f (va + k) (n - k)

def pages (va n : Nat) : List (Nat × Nat) := pageSegs (n / 65536 + 2) va n

/-- Reads virtual bytes outright at die `d`'s L2, at privilege `priv`. -/
def readNow (s : State) (d : Fin 4) (world va n : Nat) (priv : Bool) : State × Except Code (List Byte) :=
  (pages va n).foldl (fun acc g =>
    match acc with
    | (s, .error c) => (s, .error c)
    | (s, .ok bs) => match translateNow s d world g.1 .read priv with
      | (s, .error c) => (s, .error c)
      | (s, .ok pa) => if s.mem.poisoned pa g.2 then (s, .error .poison) else
        let r := s.readL2 d world pa g.2
        (r.1, .ok (bs ++ r.2))) (s, .ok [])

/-- Writes virtual bytes outright, performed at die `d`; nothing is written where any page does not translate. -/
def writeNow (s : State) (d : Fin 4) (world va : Nat) (bs : List Byte) (priv : Bool) : State × Except Code Unit :=
  let checked := (pages va bs.length).foldl (fun (acc : State × Except Code (List (Nat × Nat × Nat))) g =>
    match acc with
    | (s, .error c) => (s, .error c)
    | (s, .ok l) => match translateNow s d world g.1 .write priv with
      | (s, .error c) => (s, .error c)
      | (s, .ok pa) => (s, .ok (l ++ [(pa, g.1 - va, g.2)]))) (s, .ok [])
  match checked with
  | (s, .error c) => (s, .error c)
  | (s, .ok l) => (l.foldl (fun s g => s.performAt d world g.1 ((bs.drop g.2.1).take g.2.2)) s, .ok ())

/-! ## Format descriptors (03 R77) -/

def FormatDesc.raw : FormatDesc := ⟨0, false, 0, 0, 0, 0, true⟩

/-- Element size of a format in half bytes; 0 for raw and reserved codes. -/
def fmtHalf : Nat → Nat
  | 0x01 | 0x08 | 0x10 | 0x11 | 0x12 => 8
  | 0x02 | 0x03 => 4
  | 0x04 | 0x05 | 0x06 | 0x07 => 2
  | 0x09 => 1
  | _ => 0

def fmtKnown (f : Nat) : Bool := f ≤ 0x09 || (0x10 ≤ f && f ≤ 0x12)

/-- A descriptor's fields. One that breaks any constraint of the table of 03 R77, not of the reserved fields and codes alone, is
invalid (log 20). -/
def parseDesc (bs : List Byte) : FormatDesc :=
  let v := leNat bs
  let f := bitsOf v 0 8
  { format := f, compressible := bitOf v 16, geometry := bitsOf v 8 8, region := bitsOf v 32 64, scaleBase := bitsOf v 96 64,
    scaleStride := bitsOf v 160 32,
    valid := fmtKnown f && bitsOf v 192 64 == 0 && bitsOf v 17 15 == 0 && bitsOf v 8 8 == (if f = 9 then 6 else 0)
      && bitsOf v 160 32 % 16 == 0 && (f != 9 || decide (272 ≤ bitsOf v 160 32)) && bitsOf v 96 64 % 16 == 0
      && bitsOf v 32 64 % 512 == 0 }

/-- The descriptor that a translation finds with it (03 R78, 16 R312); one that cannot be read is invalid (log 20). -/
def readDesc (s : State) (d : Fin 4) (world index : Nat) : State × FormatDesc :=
  match (s.worlds.get? world).bind World.fdtb with
  | none => (s, .raw)
  | some base => match readNow s d world (base + 32 * index) 32 true with
    | (s, .ok bs) => (s, parseDesc bs)
    | (s, .error _) => (s, { FormatDesc.raw with valid := false })

/-! ## TLBs -/

/-- Entries a TLB holds (18, before R342). -/
def tlbSize : TlbSite → Nat
  | .quadrant .. => 64 | .copyEngine _ | .collEngine _ => 128 | .l2 _ => 16384

def tlbFind (t : List TlbEntry) (site : TlbSite) (world va : Nat) : Option TlbEntry :=
  t.find? fun e => decide (e.site = site) && e.world == world && e.page == va / 2 ^ e.log2

/-- Inserts an entry at the head of its TLB; the oldest beyond the TLB's size is evicted. -/
def tlbInsert (t : List TlbEntry) (e : TlbEntry) : List TlbEntry :=
  let mine := e :: (t.filter fun x => decide (x.site = e.site) && !(x.world == e.world && x.page == e.page && x.log2 == e.log2))
  mine.take (tlbSize e.site) ++ t.filter fun x => decide (x.site ≠ e.site)

/-- What a translation through the TLBs answers. -/
inductive Tr
  | ok (pa : Nat) (fmt : FormatDesc)
  | bad (c : Code)
  | miss
  deriving DecidableEq, Repr

/-- Permission of an entry for an access (18 R340). -/
def TlbEntry.allows (e : TlbEntry) (access : AccessKind) (priv : Bool) : Bool :=
  (match access with
    | .read => e.r | .write => e.w | .rmw => e.r && e.w | .fetch => e.x | .none => true) && (priv || e.u)

/-- A lookup in a TLB and then in the die's L2 TLB (18). An access of a page whose walk found a fault gets it. -/
def lookup (s : State) (site : TlbSite) (d : Fin 4) (world : Nat) (priv : Bool) (faults : List WalkFault) (va : Nat)
    (access : AccessKind) : Tr :=
  match (tlbFind s.xlat.tlb site world va).orElse fun _ => tlbFind s.xlat.tlb (.l2 d) world va with
  | some e => if e.allows access priv then .ok (e.pa + va % 2 ^ e.log2) e.fmt else .bad .access
  | none => match faults.find? fun f => f.page == va / 65536 && decide (f.access = access) with
    | some f => .bad f.code
    | none => .miss

/-- Queues a walk, once for each asker, page and kind of access. -/
def State.ask (s : State) (w : Walk) : State :=
  if s.xlat.walks.any fun x => decide (x.asker = w.asker) && x.va / 65536 == w.va / 65536 && decide (x.access = w.access) then s
  else { s with xlat := { s.xlat with walks := s.xlat.walks ++ [w] } }

/-! ## The frames of a world (18 R338, R339) -/

/-- The valid leaves below a table: (physical address, log2 of the size), a partition's memory starting at `base`. -/
def framesBelow (m : Mem) (base : Nat) : Nat → Nat → List (Nat × Nat)
  | 0, table => (List.range 32).filterMap fun i =>
    let e := m.readNat (table + 8 * i) 8
    if bitOf e 0 && bitOf e 1 then some (base + bitsOf e 8 44 * 256, 16) else none
  | level + 1, table => ((List.range 512).map fun i =>
    let e := m.readNat (table + 8 * i) 8
    if !bitOf e 0 then []
    else if bitOf e 1 then (if level < 2 then [(base + bitsOf e 8 44 * 256, levelShift (level + 1))] else [])
    else framesBelow m base level (base + bitsOf e 8 44 * 256)).flatten

/-- The frames of a world in every partition's memory: local pages, not remote windows. -/
def framesOf (s : State) (w : World) : List (Nat × Nat) :=
  if !w.valid then [] else
  ((s.parts.map fun p => match p with
    | d :: _ => framesBelow s.mem.home (s.memBase d) 4 (s.memBase d + w.root)
    | [] => []).flatten).filter fun f => !isRemote f.1

def inFrames (l : List (Nat × Nat)) (a : Nat) : Bool := l.any fun f => decide (f.1 ≤ a) && decide (a < f.1 + 2 ^ f.2)

end Sys2Proof.Machine
end

