-- ==== Sys2Proof/Machine/Ops.lean ====
section
/-! DEFINITION. Named operations over strands, instances, queues and memory; taking a fault and returning from one, once
for every agent (18 R346 to R348); and what the words of the two streams end in. -/

namespace Sys2Proof.Machine

open Sys2Proof

/-! ## Looking up a strand with its workgroup and launch -/

/-- A strand with the records that hold it. -/
structure Env where
  sid : StrandId
  st : Strand
  wg : Workgroup
  l : Launch

namespace Env

def world (e : Env) : Nat := e.l.world
def core (e : Env) : CoreId := e.wg.core
def die (e : Env) : Fin 4 := e.wg.core.die
def priv (e : Env) : Bool := e.l.desc.priv
def quadrant (e : Env) : TlbSite := .quadrant e.wg.core (Fin.ofNat 4 e.sid.strand.val)
def scratchBytes (e : Env) : Nat := bitsOf e.l.desc.pword.toNat 12 6 * 65536
def accTiles (e : Env) : Nat := bitsOf e.l.desc.pword.toNat 18 6

end Env

namespace State

def env? (s : State) (sid : StrandId) : Option Env :=
  match s.strands.get? sid with
  | none => none
  | some st => match s.wgs.get? sid.wg with
    | none => none
    | some wg => match s.launches.get? wg.launch with
      | none => none
      | some l => some ⟨sid, st, wg, l⟩

def modWg (s : State) (w : Nat) (f : Workgroup → Workgroup) : State := { s with wgs := s.wgs.modify w f }
def modLaunch (s : State) (l : Nat) (f : Launch → Launch) : State := { s with launches := s.launches.modify l f }
def modInst (s : State) (i : InstId) (f : Inst → Inst) : State := { s with insts := s.insts.modify i f }
def modCtx (s : State) (c : Nat) (f : Context → Context) : State := { s with contexts := s.contexts.modify c f }
def tell (s : State) (world : Nat) (e : Event) : State := { s with events := s.events ++ [(world, e)] }
def partReg (s : State) (c : CoreId) : Vector PartEntry 8 := (s.partRegs.get? c).getD (Vector.replicate 8 .empty)
def granulesOf (s : State) (c : CoreId) : Vector Granule 48 := (s.granules.get? c).getD (Vector.replicate 48 .free)
def copyQ (s : State) (c : CoreId) (q : Fin 4) : CopyQueue := (s.copyQs.get? (c, q)).getD .empty
def setCopyQ (s : State) (c : CoreId) (q : Fin 4) (v : CopyQueue) : State := { s with copyQs := s.copyQs.set (c, q) v }
def setCollQ (s : State) (d : Fin 4) (v : CollQueue) : State := { s with collQs := s.collQs.set d v }

/-- Micro-seconds since reset (00 R1). -/
def micros (s : State) : Nat := s.cycle / Config.cyclesPerMicro

end State

/-! ## Scalar registers and predicates (02 R41) -/

namespace Strand

/-- `s0` reads as zero. -/
def rd (st : Strand) (i : SReg) : W64 := if i = 0 then 0 else st.s[i]

/-- A write to `s0` is discarded. -/
def wr (st : Strand) (i : SReg) (v : W64) : Strand := if i = 0 then st else { st with s := st.s.set i v }

/-- `p0` reads as true. -/
def rdP (st : Strand) (i : PReg) : Bool := if i = 0 then true else st.p[i]

/-- A write to `p0` is discarded. -/
def wrP (st : Strand) (i : PReg) (b : Bool) : Strand := if i = 0 then st else { st with p := st.p.set i b }

/-- Whether a guard lets the word execute (06 R154). -/
def holds (st : Strand) (g : Guard) : Bool := st.rdP g.pred != g.neg

/-- The scalar stream moves on: the word's wait is over, and its promotion age starts again (01 R22). -/
def next (st : Strand) (pc cycle : Nat) : Strand :=
  { st with pc := pc, wait := none, readySince := cycle, promoted := false }

end Strand

/-! ## A strand at launch (02 R41, R42, R44, R45; 01 R31) -/

/-- A strand as placement starts it: registers, predicates, masks, slots zero; vector registers uniform zero. -/
def Strand.start (role : Role) (pc regs cycle : Nat) (tileScale : W32 := 0x3F800000) : Strand :=
  { role := role, s := Vector.replicate 32 0, p := Vector.replicate 8 false, pc := pc, ended := .no, sexit := false, tileScale := tileScale,
    laneQ := [], started := false, slots := Vector.replicate 2 none, serialised := false, spilled := [], waiting := [],
    joins := [], base := BitVec.allOnes 32, helpers := 0, masks := Vector.replicate 16 0, v := List.replicate regs (.u 0), badRegs := [],
    q := Vector.replicate 8 0, stores := [], unackDev := 0, unackSys := 0, watch := none, tickets := [],
    wait := none, scalarStop := none, vectorStop := none, scalarWalkFaults := [], vectorWalkFaults := [], returns := [],
    picot := none, frag := none, readySince := cycle, promoted := false, vecSince := cycle, vecPromoted := false, mmaps := 0,
    counted := false }

/-- Bytes that a world's load reads at die `d`: a remote window answers free values (log 7). -/
def readDie (s : State) (d : Fin 4) (w pa n : Nat) : State × List Byte :=
  if isRemote pa then (s, (List.range n).map fun i => Config.remoteByte s.ticks (pa + i)) else s.readL2 d w pa n

/-! ## Instances (01 R15 to R19) -/

def State.inst? (s : State) (i : InstId) : Option Inst := s.insts.get? i

/-- Whether instance `i` is `j` or lies below it. -/
def underGo (s : State) (j : InstId) : Nat → InstId → Bool
  | 0, _ => false
  | n + 1, i => if i = j then true else match (s.inst? i).bind Inst.parent with
    | some p => underGo s j n p
    | none => false

def under (s : State) (j i : InstId) : Bool := underGo s j 6 i

def unitOf (wg : Nat) : InstId := ⟨.unit, wg⟩

/-- A child completes: its parent counts it (01 R17). -/
def countDone (s : State) (i : InstId) : State := s.modInst i fun x => { x with completed := x.completed + 1 }

def countCancelled (s : State) (i : InstId) : State := s.modInst i fun x => { x with cancelled := x.cancelled + 1 }

/-- A strand that has executed SEXIT counts once its blocks have completed and its stores are performed (07 R181). -/
def noteExit (s : State) (sid : StrandId) : State :=
  match s.strands.get? sid with
  | some st =>
    if st.ended = .exited ∧ st.laneQ = [] ∧ st.stores = [] ∧ st.counted = false then
      countDone (s.modStrand sid fun st => { st with counted := true }) (unitOf sid.wg)
    else s
  | none => s

/-! ## Blocks of a strand (01 R9, R10) -/

/-- The split that starts a block: every lane that has not exited, with no join but VEND (08 R237). -/
def Split.whole (lanes : W32) (age : Nat) : Split :=
  { lanes := lanes, exit := 0, pos := 0, join := 0xFFFF, age := age, div := none, run := 0, chain := none, atEnd := false }

/-- The oldest enqueued block starts; with every lane exited, blocks complete at once with no effect (01 R31). -/
def startBlockGo (sid : StrandId) : Nat → State → State
  | 0, s => s
  | n + 1, s => match s.strands.get? sid with
    | none => s
    | some st => match st.laneQ with
      | [] => s
      | _ :: rest =>
        if st.base = 0 then startBlockGo sid n (s.modStrand sid fun st => { st with laneQ := rest })
        else s.modStrand sid fun st =>
          { st with started := true, slots := #v[some (Split.whole st.base s.ticks), none], waiting := [], joins := [],
                    spilled := [], serialised := false, vecSince := s.cycle, vecPromoted := false }

def startBlock (s : State) (sid : StrandId) : State := startBlockGo sid 8 s

/-- The running block completes: its entry frees, its exited lanes leave the base mask, and the next block starts. -/
def finishBlock (s : State) (sid : StrandId) (exited : W32) : State :=
  let s := s.modStrand sid fun st =>
    { st with laneQ := st.laneQ.drop 1, started := false, slots := Vector.replicate 2 none, waiting := [], joins := [],
              spilled := [], serialised := false, base := st.base &&& ~~~exited }
  noteExit (startBlock s sid) sid

/-! ## Granule tags (16 R308) -/

def Env.regGranules (e : Env) : Nat := bitsOf e.l.desc.pword.toNat 6 6

/-- Whether the granule behind a logical granule of a workgroup carries a world's tag. -/
def wgGranuleOk (s : State) (g : Workgroup) (world k : Nat) : Bool :=
  match g.granules[k]? with
  | some x => (match (s.granulesOf g.core)[x] with
    | .held _ w => w == world
    | _ => false)
  | none => true

def granuleOk (s : State) (e : Env) (k : Nat) : Bool := wgGranuleOk s e.wg e.world k

/-- The logical granules of scratchpad and tiles of a workgroup that an engine touches: from its launch's PWORD, after those of the
registers (02 R51). -/
def engineTagsOk (s : State) (g : Workgroup) (world : Nat) (scratch tiles : List Nat) : Bool :=
  match s.launches.get? g.launch with
  | some l =>
    let w := l.desc.pword.toNat
    (scratch.all fun k => wgGranuleOk s g world (bitsOf w 6 6 + k)) && tiles.all fun t => wgGranuleOk s g world (bitsOf w 6 6 + bitsOf w 12 6 + t)
  | none => true

/-- The granules of scratchpad that a run of bytes lies in, as numbers from the first. -/
def scratchGranules (off n : Nat) : List Nat := if n = 0 then [] else (List.range ((off + n - 1) / 65536 - off / 65536 + 1)).map fun i => off / 65536 + i

def scratchTagOk (s : State) (e : Env) (off : Nat) : Bool := granuleOk s e (e.regGranules + off / 65536)

def tileTagOk (s : State) (e : Env) (t : Nat) : Bool := granuleOk s e (e.regGranules + e.scratchBytes / 65536 + t)

def regTagsOk (s : State) (e : Env) : Bool := (List.range e.regGranules).all (granuleOk s e)

/-! ## Barriers (07 R198, R199) -/

/-- The strands of a workgroup, by the descriptor's count. -/
def strandsOf (s : State) (wg : Nat) : List StrandId := (s.strands.map Prod.fst).filter fun k => k.wg = wg

/-- The workgroups of a launch. -/
def wgsOf (s : State) (launch : Nat) : List (Nat × Workgroup) := s.wgs.filter fun p => p.2.launch = launch

/-- The members of a barrier. -/
def barMembers (s : State) (k : BarKey) : List StrandId :=
  match k with
  | .wg w n => match (s.wgs.get? w).bind fun g => s.launches.get? g.launch with
    | some l => (strandsOf s w).filter fun t => (l.desc.barMasks.getD n 0).getLsbD t.strand.val
    | none => []
  | .cluster l idx _ => match s.launches.get? l with
    | some x => (((wgsOf s l).filter fun p => p.2.index / x.desc.cluster = idx).map fun p => strandsOf s p.1).flatten
    | none => []
  | .launch l _ => ((wgsOf s l).map fun p => strandsOf s p.1).flatten

/-- Every barrier a strand is a member of. -/
def barsOf (s : State) (sid : StrandId) : List BarKey :=
  match s.wgs.get? sid.wg with
  | none => []
  | some g => match s.launches.get? g.launch with
    | none => []
    | some l =>
      ((List.range 16).filter fun n => (l.desc.barMasks.getD n 0).getLsbD sid.strand.val).map (BarKey.wg sid.wg)
        ++ (List.range 16).map (BarKey.cluster g.launch (g.index / l.desc.cluster))
        ++ (List.range 16).map (BarKey.launch g.launch)

def State.bar (s : State) (k : BarKey) : Bar := (s.bars.get? k).getD ⟨0, [], false⟩

/-- Whether a member has arrived in the open phase; one that has executed SEXIT counts as arrived (07 R181, R199). -/
def hasArrived (s : State) (b : Bar) (t : StrandId) : Bool :=
  b.arrived.contains t || (match s.strands.get? t with
    | some st => st.sexit
    | none => false)

/-- Whether a strand's workgroup is a cocoon. -/
def isParked (s : State) (t : StrandId) : Bool :=
  match s.wgs.get? t.wg with
  | some g => g.parked.isSome
  | none => false

/-- Whether every member has arrived. A phase does not end while a member is a cocoon: the waits that would end are the saved
words' (07 R179, R200). -/
def phaseDone (s : State) (k : BarKey) : Bool :=
  let b := s.bar k
  !b.broken && !b.arrived.isEmpty && (barMembers s k).all fun t => hasArrived s b t && !isParked s t

/-- What the end of a phase does to one strand: a waiter goes on; a second arrival counts in the new phase. -/
def leavePhase (k : BarKey) (s : State) (sid : StrandId) : State :=
  match s.strands.get? sid with
  | none => s
  | some st => match st.wait with
    | some (.barrier k') => if k' = k then s.modStrand sid fun st => st.next (st.pc + 4) s.cycle else s
    | some (.again k' sync) =>
      if k' = k then
        let b := s.bar k
        let s := { s with bars := s.bars.set k { b with arrived := b.arrived ++ [sid] } }
        if sync then s.modStrand sid fun st => { st with wait := some (.barrier k) }
        else s.modStrand sid fun st => st.next (st.pc + 4) s.cycle
      else s
    | _ => s

/-- A phase in which every member has arrived completes. -/
def completePhase (s : State) (k : BarKey) : State :=
  if phaseDone s k then
    let b := s.bar k
    (barMembers s k).foldl (leavePhase k) { s with bars := s.bars.set k { b with phase := b.phase + 1, arrived := [] } }
  else s

/-- The phases that are complete in a strand's barriers end. -/
def completePhases (s : State) (sid : StrandId) : State := (barsOf s sid).foldl completePhase s

/-- A member ended by a fault or a cancel breaks its barriers. -/
def breakBars (s : State) (sid : StrandId) : State :=
  (barsOf s sid).foldl (fun s k => { s with bars := s.bars.set k { s.bar k with broken := true } }) s

/-! ## The store buffer (04 R115, 07 R190) -/

/-- The packets of a run of bytes at a target offset: at most 4,096 bytes each, at least one (19 R357). -/
def packetsOf (off : Nat) (bs : List Byte) : List (Nat × List Byte) :=
  (List.range (max 1 ((bs.length + 4095) / 4096))).map fun i => (off + 4096 * i, (bs.drop (4096 * i)).take 4096)

/-- The flits of a packet leave by a link of the fabric, chosen for each packet (19 R353, R357). -/
def sendFlits (ticks ix : Nat) (flits : Vector Nat 18) (p : Nat × List Byte) : Vector Nat 18 :=
  let link : Fin 18 := Fin.ofNat 18 (Config.pick ((ticks * 2 ^ 32 + ix) * 2 ^ 40 + p.1))
  flits.set link (flits[link] + max 1 ((p.2.length + 255) / 256))

/-- Packets that leave by a port, 1 for the fabric and 2 to 5 for Ethernet: the flits of their links, or the counter of the
peer's flow rise (19 R353). `ix` tells one run of packets from another. -/
def noteSent (s : State) (port peer ix : Nat) (parts : List (Nat × List Byte)) : State :=
  if port = 1 then { s with hub := { s.hub with flits := parts.foldl (sendFlits s.ticks ix) s.hub.flits } }
  else
    let k : Fin 4 × Nat := (Fin.ofNat 4 (port + 2), peer)
    let x := s.hub.flows.getD k (0, 0)
    { s with hub := { s.hub with flows := s.hub.flows.set k (x.1 + BitVec.ofNat 64 parts.length, x.2) } }

/-- A packet of a peer's flow has come in by a port, 1 for the fabric and 2 to 5 for Ethernet (19 R353). -/
def noteGot (s : State) (port peer : Nat) : State :=
  if port = 1 then s
  else
    let k : Fin 4 × Nat := (Fin.ofNat 4 (port + 2), peer)
    let x := s.hub.flows.getD k (0, 0)
    { s with hub := { s.hub with flows := s.hub.flows.set k (x.1, x.2 + 1) } }

/-- A new message of a strand, or of the device, to a window's peer: it takes the next number to that peer, and its packets
leave. A strand counts it as unacknowledged until it is over. -/
def newMessage (s : State) (world : Nat) (sender : Option StrandId) (w : RemoteWindow) (op : RmaOp) (parts : List (Nat × List Byte))
    (filling : Bool) (counter : Option Nat := none) : State :=
  let seq := s.rma.numbers.getD (sender, w.peer) 0 + 1
  let msg : OutMessage :=
    { num := s.rma.next, seq := seq, world := world, sender := sender, window := w, op := op, parts := parts, counter := counter, filling := filling,
      acked := [], sendings := 1, sentAt := s.cycle, wait := 50 * Config.cyclesPerMicro }
  noteSent { s with rma := { s.rma with
    next := s.rma.next + 1, numbers := s.rma.numbers.set (sender, w.peer) seq, out := s.rma.out ++ [msg] } } w.port w.peer s.rma.next parts

/-- The window entry that a remote address names (19 R357). -/
def windowOf (s : State) (pa : Nat) : Option RemoteWindow := s.rma.windows.get? (bitsOf pa 39 12)

/-- Runs of bytes that follow one another become one. -/
def mergeRuns (l : List (Nat × List Byte)) : List (Nat × List Byte) :=
  l.foldl (fun acc p => match acc.getLast? with
    | some q => if q.1 + q.2.length = p.1 then acc.dropLast ++ [(q.1, q.2 ++ p.2)] else acc ++ [p]
    | none => [p]) []

/-- A message of runs of bytes at addresses in one remote window (19 R357): what remains is its acknowledgement. A window with no
entry reaches no peer: its message is done at once (log 21). -/
def sendRuns (s : State) (world : Nat) (sender : Option StrandId) (op : RmaOp) (runs : List (Nat × List Byte)) : State :=
  match windowOf s ((runs.head?.map Prod.fst).getD 0) with
  | none => match sender with
    | some sid => s.modStrand sid fun st => { st with unackSys := st.unackSys - 1 }
    | none => s
  | some w => newMessage s world sender w op ((runs.map fun r => packetsOf (w.offset + bitsOf r.1 0 39) r.2).flatten) false

def sendMessage (s : State) (world : Nat) (sender : Option StrandId) (pa : Nat) (op : RmaOp) (payload : List Byte) : State :=
  sendRuns s world sender op [(pa, payload)]

/-- The bytes of a buffered store for remote windows: a message for each window that its lanes name (19 R357). -/
def SBEntry.messages (e : SBEntry) : List (List (Nat × List Byte)) :=
  let far := e.lanes.filter fun l => isRemote l.pa
  ((far.map fun l => bitsOf l.pa 39 12).eraseDups).map fun w =>
    mergeRuns ((far.filter fun l => bitsOf l.pa 39 12 == w).map fun l => (l.pa, l.data))

/-- A message is over for the collectives that wait for it; one that waits for none completes (04 R105, 09 R261). -/
def settleColls (s : State) (num : Option Nat) : State :=
  { s with collQs := vmap (fun q : CollQueue =>
      { q with cmds := (q.cmds.map fun k => { k with sent := k.sent.map fun l => l.filter fun n => some n ≠ num }).filter
                 fun k => k.sent ≠ some [] }) s.collQs }

/-- A message is over for its sender: its status is kept, its counter falls, and it needs no resending. -/
def finishOut (s : State) (m : OutMessage) (st : MsgStatus) : State :=
  let s : State := { s with rma := { s.rma with
    out := s.rma.out.filter fun x => x.num ≠ m.num, statuses := s.rma.statuses.set m.num st } }
  match m.sender with
  | some sid => s.modStrand sid fun st => { st with unackSys := st.unackSys - 1 }
  | none => settleColls s (some m.num)

/-- A message is over once nothing adds to it and each of its packets is acknowledged. -/
def settleOut (s : State) (num : Nat) : State :=
  match s.rma.out.find? fun m => m.num = num with
  | some m => if !m.filling && (List.range m.parts.length).all m.acked.contains then finishOut s m .complete else s
  | none => s

/-- A copy command adds no more to its messages. -/
def closeMessages (s : State) (l : List Nat) : State :=
  l.foldl (fun (s : State) n =>
    settleOut { s with rma := { s.rma with out := s.rma.out.map fun m => if m.num = n then { m with filling := false } else m } } n) s

/-- The sectors that one access covers whole, by all its parts together, take fresh check bits (18 R351). -/
def State.covered (s : State) (parts : List (Nat × List Byte)) : State :=
  if s.mem.bad = [] then s else
  { s with mem := { s.mem with bad := MemSys.clearBad s.mem.bad (parts.map fun p => cellsAt p.1 p.2).flatten } }

/-- No line of a range of bytes stays in a core's L1. -/
def l1DropRun (s : State) (core : CoreId) (pa n : Nat) : State :=
  { s with mem := { s.mem with l1 := s.mem.l1.filter fun x =>
      !(decide (x.core = core) && decide (lineOf pa ≤ x.line) && decide (128 * x.line < pa + n)) } }

/-- One buffered store leaves the buffer: performed at the die's L2, or into the port of its peer (04 R112). -/
def performStore (s : State) (sid : StrandId) (core : CoreId) (world : Nat) (e : SBEntry) : State :=
  let s := e.lanes.foldl (fun (s : State) l =>
    if isRemote l.pa then s
    else
      let s := s.performAt core.die world l.pa l.data
      { s with mem := s.mem.l1Drop core (lineOf l.pa) }) s
  let s := e.messages.foldl (fun s m => sendRuns s world (some sid) .write m) s
  let s := s.covered (e.lanes.map fun l => (l.pa, l.data))
  if e.lanes.any fun l => !isRemote l.pa then s.modStrand sid fun st => { st with unackDev := st.unackDev - 1 } else s

/-- An entry stays while an older load of the strand has not passed its check (04 R114). -/
def mayLeave (st : Strand) (e : SBEntry) : Bool := st.returns.all fun r => decide (e.id < r.id)

/-- Performs, in order, every buffered store that may leave. -/
def drain (s : State) (sid : StrandId) : State :=
  match s.env? sid with
  | none => s
  | some e =>
    let go := e.st.stores.filter (mayLeave e.st)
    go.foldl (fun s x => performStore s sid e.core e.world x)
      (s.modStrand sid fun st => { st with stores := e.st.stores.filter fun x => !mayLeave e.st x })

/-- A store enters the buffer: counted as unacknowledged, its line dropped from the core's L1 (06 R176, 04 R115). -/
def enterStore (s : State) (e : Env) (x : SBEntry) : State :=
  let s := x.lanes.foldl (fun (s : State) l => { s with mem := s.mem.l1Drop e.core (lineOf l.pa) }) s
  s.modStrand e.sid fun st =>
    { st with
      stores := st.stores ++ [x]
      unackDev := if x.lanes.any fun l => !isRemote l.pa then st.unackDev + 1 else st.unackDev
      unackSys := st.unackSys + BitVec.ofNat 32 x.messages.length }

/-- Buffered stores that were never performed leave the buffer without effect (01 R35, 04 R93, R114). -/
def dropStores (s : State) (sid : StrandId) (p : SBEntry → Bool) : State :=
  s.modStrand sid fun st =>
    let gone := st.stores.filter p
    { st with
      stores := st.stores.filter fun x => !p x
      unackDev := st.unackDev - BitVec.ofNat 32 (gone.countP fun x => x.lanes.any fun l => !isRemote l.pa)
      unackSys := st.unackSys - BitVec.ofNat 32 ((gone.map fun x => x.messages.length).foldl (· + ·) 0) }

/-- Whether no store of the scalar stream is left in the buffer. -/
def scalarDrained (s : State) (sid : StrandId) : Bool :=
  match s.strands.get? sid with
  | some st => st.stores.all fun x => x.vector
  | none => true

/-- A release at a scope (04 R88, R102, R104): the state after the waits it makes itself, and whether it may go on: once no
earlier store of the scalar stream, or of a block that has completed, is left, and the acknowledgements of the scope have
come. (A completed block has no load out, so its stores leave.) -/
def release (s : State) (sid : StrandId) (sc : Option Scope) : State × Bool :=
  match sc with
  | none | some .st => (s, true)
  | some .wg | some .cl | some .die =>
    let s := drain s sid
    (s, scalarDrained s sid)
  | some .dev =>
    let s := drain s sid
    (s, match s.strands.get? sid with | some st => st.unackDev == 0 | none => true)
  | some .sys =>
    let s := drain s sid
    (s, match s.strands.get? sid with | some st => st.unackDev == 0 && st.unackSys == 0 | none => true)

/-- The link between two dies is closed at a partition's boundary (19 R366). -/
def linkClosed (s : State) (a b : Fin 4) : Bool := s.hub.links.any fun p => decide (p = (a, b)) || decide (p = (b, a))

/-- A write that reaches a closed link is dropped and counted: the die takes it as applied, without its bytes (19 R366). -/
def dropWrite (s : State) (die : Fin 4) (w : WriteMsg) : State :=
  { s with mem := (s.mem.applyMsg die { w with cells := [], red := false }).prune, hub := { s.hub with dropped := s.hub.dropped + 1 } }

/-- A die applies every write performed so far, but for those that a closed link drops. -/
def applyAll (s : State) (e : Fin 4) : State :=
  let s := (s.mem.msgs.filter fun w => !w.applied.contains e && linkClosed s w.die e).foldl (fun s w => dropWrite s e w) s
  { s with mem := s.mem.applyUpTo e s.mem.seq }

/-- A release at device scope by a unit: every die applies the writes performed so far (log 41). No L1 is cleaned (04 R90). -/
def publish (s : State) : State := (List.finRange 4).foldl applyAll s

/-! ## Faults: taking one (18 R346 to R350) -/

def Code.num : Code → Nat
  | .illegalInstr => 1 | .illegalOperand => 2 | .align => 3 | .page => 4 | .access => 5 | .world => 6 | .poison => 7
  | .barrier => 8 | .pair => 9 | .land => 10 | .fifo => 11 | .graph => 12 | .watchdog => 13 | .trap => 14

def AccessKind.num : AccessKind → Nat
  | .none => 0 | .read => 1 | .write => 2 | .rmw => 3 | .fetch => 4

def Agent.source : Agent → Nat
  | .scalar _ => 0 | .vector _ => 1 | .copy .. => 2 | .matrix .. => 3 | .coll .. => 4 | .graphUnit .. => 5 | .launch _ => 6

def FaultRec.flags (r : FaultRec) : Nat := (if r.waiting then 1 else 0) + (if r.ended then 2 else 0)

/-- The 64 bytes of a record (18 R347). -/
def FaultRec.bytes (r : FaultRec) : List Byte :=
  natLE 1 r.code.num ++ natLE 1 r.agent.source ++ natLE 1 r.access.num ++ natLE 1 r.flags ++ natLE 4 r.detail
    ++ natLE 8 r.seq ++ natLE 4 r.launch ++ natLE 4 r.wg ++ natLE 1 r.strand ++ natLE 1 r.die ++ natLE 1 r.core ++ natLE 1 0
    ++ natLE 4 r.lanes.toNat ++ natLE 8 r.pc ++ natLE 8 r.address ++ natLE 8 r.timeline ++ natLE 8 r.second

/-- PAGE and TRAP await a RESOLVE (18 R346). -/
def Code.waits : Code → Bool
  | .page | .trap => true
  | _ => false

/-- The ENDED flag is a strand's: an engine queue whose command is abandoned halts, and has not ended (log 35). -/
def Agent.isStrand : Agent → Bool
  | .scalar _ | .vector _ => true
  | _ => false

def mkRec (agent : Agent) (f : Flt) (launch wg strand : Nat) (core : CoreId) (pc timeline : Nat) : FaultRec :=
  { code := f.code, agent := agent, access := f.access, waiting := f.code.waits, ended := !f.code.waits && agent.isStrand, detail := f.detail,
    seq := 0, launch := launch, wg := wg, strand := strand, die := core.die, core := core.core, lanes := f.lanes, pc := pc,
    address := f.addr, pages := f.pages, timeline := timeline, second := f.second, part := 0, occupied := true }

/-- Whether a world's queue has a free entry in a partition, each having records of its own (19 R366; DEDUCED, log 159). -/
def World.roomFor (w : World) (part : Fin 4) : Bool :=
  decide ((w.records.filter fun x => x.occupied && decide (x.part = part)).length < w.depth)

/-- Writes a record into the world's queue in the die's partition where an entry is free, and signals the management core; else the
record waits (18 R347, R348). Answers the sequence number. A queue that does not translate keeps its records on the device (log 22). -/
def fileRec (s : State) (world : Nat) (die : Fin 4) (r : FaultRec) : State × Option Nat :=
  match s.worlds.get? world with
  | none => (s, none)
  | some w =>
    let r := { r with part := leadOf s die }
    if w.roomFor r.part then
      let r := { r with seq := w.nextSeq }
      let s := s.modWorld world fun w =>
        { w with nextSeq := w.nextSeq + 1, records := (w.records.filter fun x => x.occupied) ++ [r] }
      let s := (writeNow s die world (w.queueBase + 64 * ((r.seq - 1) % w.depth)) r.bytes true).1
      (s.tell 0 (.faultSignal world r.seq), some r.seq)
    else (s.modWorld world fun w => { w with unwritten := w.unwritten ++ [r] }, none)

/-- Whether a sector that a return has read fails its check. -/
def Return.failed (r : Return) (bad : List Nat) : Bool := r.checks.any fun x => x.sectors.any bad.contains

/-- Both streams of a strand stop for good (18 R349): its blocks go, its buffered stores are performed (after a
fault; but for those of its blocks that are younger than a load whose check fails, 04 R114) or discarded (after a cancel,
01 R18), its barriers break, and its workgroup counts it (01 R17). A phase that was complete has ended first, and a strand that has
executed SEXIT breaks no barrier: it counts as arrived at every later phase (07 R181, R199; log 156). A VPICOT in
progress is one instruction, which a fault of the strand lets complete (09 R268, R269). -/
def endStrand (s : State) (sid : StrandId) (how : End) : State :=
  match s.strands.get? sid with
  | none => s
  | some st =>
    if st.ended = .faulted ∨ st.ended = .cancelled then s else
    let s := if how = .faulted then
        let s := dropStores s sid fun x => x.vector && st.returns.any fun r => decide (r.id < x.id) && r.failed s.mem.bad
        drain (s.modStrand sid fun st => { st with returns := [] }) sid
      else s
    let s := s.modStrand sid fun st =>
      { st with
        ended := how, laneQ := [], started := false, slots := Vector.replicate 2 none, waiting := [], joins := [],
        spilled := [], serialised := false, stores := [], returns := [], picot := if how = .faulted then st.picot else none, watch := none, wait := none,
        tickets := [], scalarStop := none, vectorStop := none, scalarWalkFaults := [], vectorWalkFaults := [],
        counted := true }
    let s := if st.counted then s else countCancelled s (unitOf sid.wg)
    if st.sexit then s else breakBars (completePhases s sid) sid

/-- A copy command of a queue of a core, or of a workgroup that has been saved from that core (17 R330). -/
def modCopyCmd (s : State) (c : CoreId) (q : Fin 4) (num : Nat) (f : CopyCmd → CopyCmd) : State :=
  let x := s.copyQ c q
  let s := s.setCopyQ c q { x with cmds := x.cmds.map fun k => if k.num = num then f k else k }
  let park (p : Parked) : Parked := { p with copies := p.copies.map fun k => if k.1 = q ∧ k.2.num = num then (k.1, f k.2) else k }
  let wgs : Assoc Nat Workgroup := s.wgs.map fun p => (p.1, if p.2.core = c then { p.2 with parked := p.2.parked.map park } else p.2)
  { s with wgs := wgs }

def modMatCmd (s : State) (wg id : Nat) (f : MatCmd → MatCmd) : State :=
  s.modWg wg fun g => { g with matrix := { g.matrix with cmds := g.matrix.cmds.map fun k => if k.id = id then f k else k } }

def modCollCmd (s : State) (d : Fin 4) (num : Nat) (f : CollCmd → CollCmd) : State :=
  let x := s.collQs[d]
  s.setCollQ d { x with cmds := x.cmds.map fun k => if k.num = num then f k else k }

/-- The agent stands still: asleep on PAGE, trapped, or with a record it could not write yet. -/
def stopAgent (s : State) (r : FaultRec) (written : Bool) : State :=
  let stop : Stop := if !written then .unwritten else if r.code = .trap then .trap r.seq r.address else .page r.seq r.address
  let cmd : CmdState := if written then .sleeping r.seq r.address else .unwritten
  match r.agent with
  | .scalar sid => s.modStrand sid fun st => { st with scalarStop := some stop, wait := none, scalarWalkFaults := [] }
  | .vector sid => s.modStrand sid fun st => { st with vectorStop := some stop, vectorWalkFaults := [] }
  | .copy c q n => modCopyCmd s c q n fun k => { k with state := cmd, walkFaults := [], ahead := [] }
  | .matrix w id => modMatCmd s w id fun k => { k with state := cmd }
  | .coll d n => modCollCmd s d n fun k => { k with state := cmd, walkFaults := [] }
  | .graphUnit .. | .launch _ => s

/-- The consequence of a fault that ends its agent: the strand ends, or the command is abandoned and its queue halts
(18 R346, 09 R243). -/
def endAgent (s : State) (a : Agent) : State :=
  match a with
  | .scalar sid | .vector sid => endStrand s sid .faulted
  | .copy c q n =>
    let s := match (s.copyQ c q).cmds.find? fun k => k.num = n with
      | some k => closeMessages s k.msgs
      | none => s
    let s := modCopyCmd s c q n fun k => { k with state := .abandoned, ahead := [], msgs := [] }
    s.setCopyQ c q { s.copyQ c q with halted := true }
  | .matrix w id =>
    let s := modMatCmd s w id fun k => { k with state := .abandoned }
    match (s.wgs.get? w).bind fun g => g.matrix.cmds.find? fun k => k.id = id with
    | some k => match k.copy with
      | some (c, q, n) =>
        let s := modCopyCmd s c q n fun k => { k with state := .abandoned }
        s.setCopyQ c q { s.copyQ c q with halted := true }
      | none => s.modWg w fun g => { g with matrix := { g.matrix with halted := true } }
    | none => s
  | .coll d n =>
    let s := modCollCmd s d n fun k => { k with state := .abandoned }
    s.setCollQ d { s.collQs[d] with halted := true }
  | .graphUnit .. | .launch _ => s

/-- The other strand of an elytra pair (09 R257). -/
def partnerOf (sid : StrandId) : StrandId := ⟨sid.wg, Fin.ofNat 32 (sid.strand.val ^^^ 1)⟩

/-- A PAIR fault of two matched words, of which `second` is the number of the partner's: neither runs, both numbers are reached,
no queue halts, and both strands end (09 R243, R257). -/
def endPair (s : State) (wg id second : Nat) : State :=
  match (s.wgs.get? wg).bind fun g => g.matrix.cmds.find? fun k => k.id = id with
  | none => s
  | some c =>
    let gone (x : MatCmd) : Bool := x.id == id || (decide (x.sid = partnerOf c.sid) && decide (x.num = some second))
    let s := s.modWg wg fun g => { g with matrix := { g.matrix with cmds := g.matrix.cmds.filter fun x => !gone x } }
    endStrand (endStrand s c.sid .faulted) (partnerOf c.sid) .faulted

/-- The consequence of a record that has been written. -/
def consequence (s : State) (r : FaultRec) : State :=
  if r.waiting then stopAgent s r true
  else match r.code, r.agent with
    | .pair, .matrix wg id => endPair s wg id r.second
    | _, a => endAgent s a

/-- A written WORLD record goes to the monitor too (16 R319). -/
def tellMonitor (s : State) (r : FaultRec) : State := if r.code = .world then s.tell 0 (.violation r) else s

/-- A record is written, or held, and has its consequence. -/
def deliver (s : State) (world : Nat) (die : Fin 4) (r : FaultRec) : State :=
  match fileRec s world die r with
  | (s, none) => stopAgent s r false
  | (s, some n) => consequence (tellMonitor s { r with seq := n }) { r with seq := n }

/-- The first strand that waits at a broken barrier. -/
def brokenWaiter (s : State) : Option StrandId :=
  (s.strands.find? fun p => match p.2.wait with
    | some (.barrier k) | some (.again k _) => (s.bar k).broken && p.2.scalarStop.isNone
    | _ => false).map Prod.fst

/-- The record of a fault in one stream of a strand. -/
def strandRec (e : Env) (agent : Agent) (f : Flt) (pc : Nat) : FaultRec :=
  mkRec agent f e.wg.launch e.wg.index e.sid.strand.val e.core pc 0

/-- Every strand that waits at a broken barrier raises BARRIER, which may break further ones (07 R199). -/
def sweepBars : Nat → State → State
  | 0, s => s
  | n + 1, s => match brokenWaiter s with
    | none => s
    | some sid => match s.env? sid with
      | none => s
      | some e => sweepBars n (deliver s e.world e.die (strandRec e (.scalar sid) { code := .barrier } e.st.pc))

def sweep (s : State) : State := sweepBars s.strands.length s

/-- TAKING A FAULT: the record is filed, the agent stops, sleeps or ends, and broken barriers have their effect. -/
def raise (s : State) (world : Nat) (die : Fin 4) (r : FaultRec) : State := sweep (deliver s world die r)

/-- A fault of a strand's scalar word, precise at its address (07 R178). -/
def raiseScalar (s : State) (e : Env) (f : Flt) : State := raise s e.world e.die (strandRec e (.scalar e.sid) f e.st.pc)

/-! ## Faults: returning from one (18 R348) -/

/-- Whether an agent still stands at its precise point for a record that is held. -/
def standsHeld (s : State) (a : Agent) : Bool :=
  match a with
  | .scalar sid => decide ((s.strands.get? sid).bind Strand.scalarStop = some .unwritten)
  | .vector sid => decide ((s.strands.get? sid).bind Strand.vectorStop = some .unwritten)
  | .copy c q n => decide (((s.copyQ c q).cmds.find? fun k => k.num = n).map CopyCmd.state = some .unwritten)
  | .matrix w id => decide (((s.wgs.get? w).bind fun g => g.matrix.cmds.find? fun k => k.id = id).map MatCmd.state = some .unwritten)
  | .coll d n => decide ((s.collQs[d].cmds.find? fun k => k.num = n).map CollCmd.state = some .unwritten)
  | .graphUnit .. | .launch _ => true

/-- The die that writes a record of an agent: its own, or the device's for the world. -/
def recordDie (s : State) (world : Nat) (r : FaultRec) : Fin 4 :=
  match r.agent with
  | .graphUnit .. | .launch _ => s.worldDie world
  | _ => Fin.ofNat 4 r.die

/-- The oldest record of a world that waits for an entry, and has one free in its partition. -/
def nextHeld (s : State) (world : Nat) : Option FaultRec :=
  (s.worlds.get? world).bind fun w => w.unwritten.find? fun r => w.roomFor r.part

/-- A freed entry lets the oldest unwritten record of the world be written (18 R348); an agent that a cancel has ended
meanwhile has no consequence left. -/
def fileHeld (s : State) (world : Nat) : State :=
  match nextHeld s world with
    | none => s
    | some r =>
      let s := s.modWorld world fun w => { w with unwritten := dropFirst (fun x => decide (x = r)) w.unwritten }
      match fileRec s world (recordDie s world r) r with
      | (s, none) => s
      | (s, some n) =>
        let s := tellMonitor s { r with seq := n }
        if standsHeld s r.agent then sweep (consequence s { r with seq := n }) else s

/-- The occupied record of a world with a sequence number. -/
def record? (s : State) (world seq : Nat) : Option FaultRec :=
  (s.worlds.get? world).bind fun w => w.records.find? fun r => r.occupied && r.seq == seq

/-- Frees the entry of a record. -/
def freeRec (s : State) (world seq : Nat) : State :=
  s.modWorld world fun w => { w with records := w.records.filter fun r => r.seq ≠ seq }

/-- The agent of a record goes on: a strand from where it stopped, a command from its next chunk. -/
def wakeAgent (s : State) (a : Agent) : State :=
  match a with
  | .scalar sid => s.modStrand sid fun st => { st with scalarStop := none, readySince := s.cycle, promoted := false }
  | .vector sid => s.modStrand sid fun st => { st with vectorStop := none, vecSince := s.cycle, vecPromoted := false }
  | .copy c q n => modCopyCmd s c q n fun k => { k with state := .ready }
  | .matrix w id => modMatCmd s w id fun k => { k with state := .ready }
  | .coll d n => modCollCmd s d n fun k => { k with state := .ready }
  | .graphUnit .. | .launch _ => s

/-- A cancel that reaches a waiting agent sets ENDED in its record, which then needs ACK, one still held too (18 R348). -/
def endRecords (s : State) (world : Nat) (die : Fin 4) (p : Agent → Bool) : State :=
  match s.worlds.get? world with
  | none => s
  | some w =>
    let s := s.modWorld world fun w => { w with
      unwritten := w.unwritten.map fun x => if x.waiting && p x.agent then { x with waiting := false, ended := true } else x }
    let hit := w.records.filter fun r => r.occupied && r.waiting && p r.agent
    hit.foldl (fun s r =>
      let r' := { r with waiting := false, ended := true }
      let s := s.modWorld world fun w => { w with records := w.records.map fun x => if x.seq = r.seq then r' else x }
      (writeNow s die world (w.queueBase + 64 * ((r.seq - 1) % w.depth) + 3) (natLE 1 r'.flags) true).1) s

/-! ## Cancelling (01 R18, R19) -/

/-- Steps 1, 2 and 4 of 01 R18: the instance and every RUNNING one below it take CANCELLED, and every strand below it
stops. Step 3 is the matrix array's (`cancelInst`). A save of a workgroup below it is abandoned (17 R331). -/
def stopUnder (s : State) (i : InstId) : State :=
  let insts : Assoc InstId Inst := s.insts.map fun p =>
    (p.1, if p.2.state = .running ∧ under s i p.1 then { p.2 with state := .cancelled } else p.2)
  let wgs : Assoc Nat Workgroup := s.wgs.map fun p => (p.1, if under s i (unitOf p.1) then { p.2 with stopping := false } else p.2)
  let s : State := { s with insts := insts, wgs := wgs }
  let hit : List StrandId := (s.strands.map Prod.fst).filter fun sid => under s i (unitOf sid.wg)
  let s := hit.foldl (fun s sid => match s.env? sid with
    | some e => endRecords (endStrand s sid .cancelled) e.world e.die fun a => a == .scalar sid || a == .vector sid
    | none => s) s
  sweep s

/-! ## Timelines (04 R105) -/

/-- The highest number with every command up to it complete. -/
def reachedOf (next : Nat) (nums : List Nat) : Nat := nums.foldl min next - 1

def CopyQueue.reached (q : CopyQueue) : Nat := reachedOf q.next (q.cmds.map fun c => c.num)
def CollQueue.reached (q : CollQueue) : Nat := reachedOf q.next (q.cmds.map fun c => c.num)
def MatQueue.reached (q : MatQueue) : Nat := reachedOf q.next (q.cmds.filterMap fun c => c.num)
def LaunchQueue.reached (q : LaunchQueue) : Nat := reachedOf q.next (q.pending.map Prod.fst)
def RasterQueue.reached (q : RasterQueue) : Nat := reachedOf q.next (q.cmds.map Prod.fst)

/-- The queue a timeline handle names for a strand (02 R45; log 14). `none`: untranslated. -/
def handleQueue (s : State) (e : Env) (h : Nat) : Option QueueKey :=
  match (s.contexts.get? e.l.ctx).bind fun c => (c.img.handles.getD h none) with
  | none => none
  | some (.launchQueue n) => if ((s.worlds.get? e.world).bind fun w => w.queues.get? n).isSome then some (.launch e.world n) else none
  | some .copyQueue => some (.copy e.core e.l.desc.copyQueue)
  | some .matrixQueue => some (.matrix e.sid.wg)
  | some .collQueue => some (.coll e.die)
  | some (.rasterQueue n) => some (.raster e.l.ctx n)

/-- The highest value a timeline has reached. -/
def reached (s : State) (k : QueueKey) : Nat :=
  match k with
  | .launch w n => match (s.worlds.get? w).bind fun w => w.queues.get? n with
    | some q => q.reached
    | none => 0
  | .copy c q => (s.copyQ c q).reached
  | .matrix w => match s.wgs.get? w with
    | some g => g.matrix.reached
    | none => 0
  | .coll d => s.collQs[d].reached
  | .raster c n => match (s.contexts.get? c).bind fun c => c.raster.get? n with
    | some q => q.reached
    | none => 0

/-- How many commands of a strand on a queue are incomplete (07 R204, STLTHR). -/
def incompleteOf (s : State) (k : QueueKey) (sid : StrandId) : Nat :=
  match k with
  | .launch w n => match (s.worlds.get? w).bind fun w => w.queues.get? n with
    | some q => q.pending.countP fun p => match s.launches.get? p.2 with
      | some l => match l.parent with
        | some pl => (match s.wgs.get? sid.wg with | some g => g.launch == pl && l.issuer == some sid | none => false)
        | none => false
      | none => false
    | none => 0
  | .copy c q => (s.copyQ c q).cmds.countP fun x => x.sid = sid
  | .matrix w => match s.wgs.get? w with
    | some g => g.matrix.cmds.countP fun x => x.num.isSome && x.sid == sid
    | none => 0
  | .coll d => s.collQs[d].cmds.countP fun x => x.sid = sid
  | .raster _ _ => 0

/-! ## Scratchpad and tiles (03 R72, 02 R45, R52) -/

/-- A word of scratchpad or of a tile whose check fails (18 R351). -/
def badWord (bad : List Nat) (off n : Nat) : Bool := bad.any fun k => decide (4 * k < off + n) && decide (off < 4 * k + 4)

/-- Alignment, then range, as 06 R176 orders them. -/
def scratchCheck (e : Env) (off n : Nat) : Option Code :=
  if (n = 2 ∨ n = 4 ∨ n = 8) ∧ off % n ≠ 0 then some .align
  else if e.scratchBytes < off + n then some .access
  else none

def scratchWrite (s : State) (wg off : Nat) (bs : List Byte) : State :=
  s.modWg wg fun g => { g with
    scratch := g.scratch.write off bs
    badScratch := g.badScratch.filter fun k => !(decide (off ≤ 4 * k) && decide (4 * k + 4 ≤ off + bs.length)) }

/-- The byte offset of an element of a tile: rows of 128 elements of 4 bytes (03 R70, 17 R332; log 15). -/
def tileOff (t row col : Nat) : Nat := t * 65536 + row * 512 + col * 4

def tileRead (g : Workgroup) (t row col : Nat) : Nat := g.tiles.readNat (tileOff t row col) 4

def tileWrite (m : Mem) (t row col v : Nat) : Mem := m.writeNat (tileOff t row col) 4 v

/-! ## Special registers (02 R46) -/

/-- The value and width of a special register for a strand; `none` for a reserved index or a parameter register. -/
def special (s : State) (e : Env) (i : Nat) : Option (Nat × Nat) :=
  let d := e.l.desc
  match i with
  | 16 => some (e.sid.strand.val, 5)
  | 17 => some (e.wg.index, 32)
  | 18 => some (e.wg.index % d.grid.1, 32)
  | 19 => some (e.wg.index / d.grid.1 % d.grid.2.1, 32)
  | 20 => some (e.wg.index / d.grid.1 / d.grid.2.1, 32)
  | 21 => some (e.wg.launch, 32)
  | 22 => some (e.world, 10)
  | 23 => some (e.core.core.val, 6)
  | 24 => some (e.core.core.val / 4, 4)
  | 25 => some (e.die.val, 2)
  | 26 => some (s.cycle, 64)
  | 27 => some (e.l.frame, 64)
  | 28 => some (match s.contexts.get? e.l.ctx with
      | some c => c.phase
      | none => 0, 64)
  | 29 => some (e.l.node, 6)
  | 30 => some (if s.spares.used.contains (.rows e.core) then 120 else 128, 8)
  | 31 => some (d.pword.toNat, 32)
  | _ => none

/-! ## What a word ends in -/

/-- What a scalar word's effect ends in: done (the next word follows), a jump, a fault of the word, or a wait. -/
inductive Eff
  | done (s : State)
  | jump (s : State) (pc : Nat)
  | fault (s : State) (f : Flt)
  | wait (s : State) (w : Wait)

/-- A fault of a scalar word is taken once the word is the oldest of its stream: the stores that wait in the buffer are
performed first, and a record that a RESOLVE answers waits until they are (04 R113, 18 R350). -/
def faultScalar (s : State) (e : Env) (f : Flt) : State :=
  let s := drain s e.sid
  if f.code.waits && !scalarDrained s e.sid then
    s.modStrand e.sid fun st => { st with wait := some .retry, readySince := s.cycle, promoted := false }
  else raiseScalar s e f

/-- The effect of an Eff on the machine, for the word at `e.st.pc` of `len` bytes. -/
def Eff.finish (eff : Eff) (e : Env) (len : Nat) : State :=
  match eff with
  | .done s => s.modStrand e.sid fun st => st.next (e.st.pc + len) s.cycle
  | .jump s pc => s.modStrand e.sid fun st => st.next pc s.cycle
  | .fault s f => faultScalar s e f
  | .wait s w => s.modStrand e.sid fun st => { st with wait := some w, readySince := s.cycle, promoted := false }

/-- A scalar word (06 R154, R158; 07 R177, R178): the decode checks that need the strand come first, then the guard;
a false guard moves on to the next word and does nothing else. -/
def scalarWord (g : Guard) (len : Nat) (check : Env → State → Option Code) (body : Env → State → Eff) (s : State) :
    Host.Outcome State Fault Refusal :=
  match s.cur with
  | some (.scalar sid) => match s.env? sid with
    | some e => match check e s with
      | some c => .next (raiseScalar s e { code := c })
      | none =>
        if e.st.holds g then .next ((body e s).finish e len)
        else .next ((Eff.done s).finish e len)
    | none => .fault .noActor
  | _ => .fault .noActor

/-- No check beyond decoding. -/
def noCheck : Env → State → Option Code := fun _ _ => none

/-- A word that writes one scalar register from the strand's registers. -/
def setsReg (d : SReg) (f : Env → State → W64) (e : Env) (s : State) : Eff := .done (s.modStrand e.sid fun st => st.wr d (f e s))

end Sys2Proof.Machine
end

