-- ==== Sys2Proof/Machine/Flags.lean ====
section
/-! DEFINITION. Conditions (06 R161), predicates' comparisons (07 R186) and shape tags (02 R47, R48). The machine keeps no
carry, overflow or floating exception flags (02 R57): its flags are the predicates, the masks and the tags. -/

namespace Sys2Proof.Machine

open Sys2Proof

/-- A condition on two integers of `n` bits (06 R161); a floating code never holds. -/
def intCond (c : Cond) (n x y : Nat) : Bool :=
  let sx := signedOf n x; let sy := signedOf n y
  let ux := x % 2 ^ n; let uy := y % 2 ^ n
  match c with
  | .eq => decide (ux = uy) | .ne => decide (ux ≠ uy)
  | .lt => decide (sx < sy) | .le => decide (sx ≤ sy) | .gt => decide (sy < sx) | .ge => decide (sy ≤ sx)
  | .lo => decide (ux < uy) | .ls => decide (ux ≤ uy) | .hi => decide (uy < ux) | .hs => decide (uy ≤ ux)
  | _ => false

/-- A condition on two floating values (06 R161): with a NaN only `fne` and `fun` hold; −0 equals +0. -/
def floatCond (c : Cond) (x y : FVal) : Bool :=
  match c with
  | .feq => x.eq y | .fne => !x.eq y
  | .flt => x.lt y | .fle => x.lt y || x.eq y | .fgt => y.lt x | .fge => y.lt x || x.eq y
  | .fun => x.isNaN || y.isNaN
  | _ => false

/-- A condition on two values of a lane type. -/
def tyCond (c : Cond) (t : Ty) (x y : Nat) : Bool :=
  if t.isFloat then floatCond c (decodeF (fmtOfTy t) x) (decodeF (fmtOfTy t) y) else intCond c t.bits x y

/-- 07 R186. -/
def scalarCond (c : Cond) (w : CmpWidth) (x y : W64) : Bool :=
  match w with
  | .i64 => intCond c 64 x.toNat y.toNat
  | .i32 => intCond c 32 x.toNat y.toNat
  | .f32 => floatCond c (decodeF .f32 (low32 x).toNat) (decodeF .f32 (low32 y).toNat)

/-! ## Shape tags -/

def Tag.code : Tag → Nat
  | .u => 0 | .a => 1 | .g => 2

def VReg.tag : VReg → Tag
  | .u _ => .u | .a .. => .a | .g _ => .g

/-- The value in a lane (02 R47). -/
def VReg.lane (r : VReg) (l : Lane) : W32 :=
  match r with
  | .u v => v
  | .a b d => b + BitVec.ofNat 32 l.val * d
  | .g v => v[l]

/-- Whether a register is stored lane by lane. -/
def VReg.isG (r : VReg) : Bool := decide (r.tag = .g)

/-- The register with the given lane values, stored in the shape of a tag. Lane values that no base and stride give, of a
saturating word, are stored lane by lane (02 R47, R48; DEDUCED, log 16). -/
def VReg.shaped (t : Tag) (f : Lane → W32) : VReg :=
  match t with
  | .u => .u (f 0)
  | .a =>
    let r := VReg.a (f 0) (f 1 - f 0)
    if (List.finRange 32).all fun l => r.lane l == f l then r else .g (lanes f)
  | .g => .g (lanes f)

/-- Operations whose result may differ by lane whatever their sources (02 R48, fourth row). -/
def laneOp (op : Nat) : Bool :=
  [0x60, 0x62, 0x64, 0x68, 0x6A, 0x65, 0x67, 0x70, 0x53, 0x50, 0x54, 0x91, 0x90, 0x95].contains op

/-- 02 R48 on writes of all 32 lanes that are not those of 08 R215; `ts` are the tags of the sources read. -/
def resultTag (op : Nat) (t : Ty) (ts : List Tag) : Tag :=
  if laneOp op then .g
  else if ts.all (· == .u) then .u
  else if t = .i32 ∨ t = .w32 then
    (match op, ts with
      | 0x01, [x, y] | 0x02, [x, y] => if x ≠ .g ∧ y ≠ .g then .a else .g
      | 0x0D, [.a, .u] => .a
      | 0x03, [.a, .u] | 0x03, [.u, .a] => .a
      | _, _ => .g)
  else .g

end Sys2Proof.Machine
end

