-- ==== Sys2Proof/Machine/Operands.lean ====
section
/-! DEFINITION. Vector operands in every form (06 R163, R164; 08 R213), the checks on names (06 R158, 4), writes of lanes,
masks and slots with their tags and latches (08 R214, R215; 01 R33, R34), and the frame of a vector word. -/

namespace Sys2Proof.Machine

open Sys2Proof

/-- A vector word being executed: its strand, slot, split and block. -/
structure VCtx where
  e : Env
  slot : Fin 2
  sp : Split
  blk : Block
  op : Nat
  w : VWord

namespace VCtx

def st (c : VCtx) : Strand := c.e.st

/-- `m0`: lanes of the split without an exit pending (02 R44). -/
def m0 (c : VCtx) : W32 := c.sp.lanes &&& ~~~c.sp.exit

/-- A mask as the executing split reads it. -/
def mask (c : VCtx) (i : Fin 16) : W32 := if i = 0 then c.m0 else c.st.masks[i]

/-- `Active(l)` (02 R61). -/
def activeMask (c : VCtx) : W32 :=
  let g := c.mask c.w.gm
  c.m0 &&& (if c.w.neg then ~~~g else g)

def active (c : VCtx) (l : Lane) : Bool := laneBit c.activeMask l

def helper (c : VCtx) (l : Lane) : Bool := laneBit c.st.helpers l

def n (c : VCtx) : Nat := c.e.l.desc.regs

/-- The chain that the word belongs to: the open one where its chain bit is set, else a new one (01 R33). -/
def chain (c : VCtx) : Chain :=
  match c.sp.chain with
  | some k => if c.w.chain then k else ⟨c.sp.pos, c.sp.pos, [], [], [], false⟩
  | none => ⟨c.sp.pos, c.sp.pos, [], [], [], false⟩

/-- A chain bit is legal only on the word after the chain's last, as the split issued it (01 R33). -/
def chainOk (c : VCtx) : Bool :=
  !c.w.chain || (match c.sp.chain with
    | some k => k.next == c.sp.pos && decide (k.latches.length < 4)
    | none => false)

/-- The address of the first word of the chain (18 R347). -/
def chainPC (c : VCtx) : Nat := c.blk.entry + 12 * (if c.w.chain ∧ c.chainOk then c.chain.first else c.sp.pos)

/-- Whether the word stands after the open chain's last one, and so continues that chain (01 R33). -/
def follows (c : VCtx) : Bool := c.w.chain && (match c.sp.chain with | some k => k.next == c.sp.pos | none => false)

/-- The chain bit of the word at an address: bit 2 of its byte 10 (06 R162). A word that cannot be read has none. -/
def chainBitAt (s : State) (e : Env) (va : Nat) : Bool :=
  let at? := match lookup s e.quadrant e.die e.world e.priv [] (va + 10) .fetch with
    | .ok pa _ => some (s, pa)
    | _ => match translateNow s e.die e.world (va + 10) .fetch e.priv with
      | (s, .ok pa) => some (s, pa)
      | (_, .error _) => none
  match at? with
  | some (s, pa) => bitOf (leNat (readDie s e.die e.world pa 1).2) 2
  | none => false

/-- The position of the first word of a chain that a word with its chain bit at `p` continues: the nearest before it
without the bit, or the block's first (01 R33). -/
def runFirst (s : State) (e : Env) (entry : Nat) : Nat → Nat
  | 0 => 0
  | p + 1 => if chainBitAt s e (entry + 12 * p) then runFirst s e entry p else p

/-- The address of the first word of the faulting chain (18 R347). A chain is a run of consecutive words of the block,
whichever word was executed last (01 R33; DEDUCED, log 123). -/
def faultPC (c : VCtx) (s : State) : Nat :=
  if c.w.chain && !c.chainOk then c.blk.entry + 12 * runFirst s c.e c.blk.entry c.sp.pos else c.chainPC

end VCtx

/-! ## Reading operands -/

/-- The type in which each operand of an opcode is read (06 R164, R167; 08). VLDF's selector is read in all 32 bits,
whatever T is (DEDUCED, log 153). -/
def readTy (op : Nat) (w : VWord) (which : Nat) : Ty :=
  match op with
  | 0x30 => w.srcTy.getD .w32
  | 0x31 => if which = 0 ∨ (which = 1 ∧ w.ty.bits = 16) then w.srcTy.getD .w32 else .w32
  | 0x32 | 0x33 | 0x34 => .w32
  | 0x50 | 0x51 => if which = 0 then w.ty else .w32
  | 0x60 | 0x61 | 0x65 | 0x66 | 0x68 | 0x69 => if which = 0 then .w64 else w.ty
  | 0x62 | 0x63 => if which = 0 then .w32 else w.ty
  | 0x64 | 0x67 | 0x6A => if which = 0 then .w64 else .w32
  | 0x70 | 0x71 | 0x72 => .w32
  | 0x90 | 0x91 | 0x92 | 0x94 | 0x95 => .w32
  | _ => w.ty

namespace VCtx

/-- A register of the strand; a name beyond the allocation never reaches here. -/
def vreg (c : VCtx) (i : Nat) : VReg := c.st.v.getD i (.u 0)

/-- The immediate slot as 64 bits in a type (06 R164). -/
def immVal (w : VWord) (t : Ty) : Nat :=
  match t with
  | .i64 => (sext32 w.imm).toNat
  | _ => w.imm.toNat % 2 ^ t.bits

/-- A special or parameter register, as a vector operand sees it: 32 bits (02 R46). -/
def sysVal (c : VCtx) (s : State) (i : Nat) : Nat :=
  if i < 8 then (c.blk.ks[i]!).toNat else match special s c.e i with
    | some (v, _) => v % 2 ^ 32
    | none => 0

/-- `V(o, l)` of 08 R213: the bits of an operand in a lane, in its type's width. The upper half of a 64-bit latch
operand is free (log 8); parameters and special registers extend with zeros (log 17). -/
def read (c : VCtx) (s : State) (t : Ty) (o : Operand) (l : Lane) : Nat :=
  match o with
  | .reg i =>
    if t.wide then ((c.vreg i.val).lane l).toNat + 2 ^ 32 * ((c.vreg (i.val + 1)).lane l).toNat
    else ((c.vreg i.val).lane l).toNat % 2 ^ t.bits
  | .latch i =>
    let x := (c.chain.latches.getD i.val ⟨.u 0, .u⟩).reg.lane l
    if t.wide then x.toNat + 2 ^ 32 * (Config.latchUpper x).toNat else x.toNat % 2 ^ t.bits
  | .special i => c.sysVal s i.val % 2 ^ t.bits
  | .imm => immVal c.w t

def rdA (c : VCtx) (s : State) (l : Lane) : Nat := c.read s (readTy c.op c.w 0) c.w.a l
def rdB (c : VCtx) (s : State) (l : Lane) : Nat := c.read s (readTy c.op c.w 1) c.w.b l
def rdC (c : VCtx) (s : State) (l : Lane) : Nat := c.read s (readTy c.op c.w 2) c.w.c l

/-- The tag of the value an operand reads (06 R163). A 64-bit value is uniform where both its registers are, else general, and
both halves of a result take the tag that follows from it (02 R48; DEDUCED, log 152). -/
def tagOf (c : VCtx) (t : Ty) (o : Operand) : Tag :=
  match o with
  | .reg i =>
    let x := (c.vreg i.val).tag
    if t.wide then (if x = .u ∧ (c.vreg (i.val + 1)).tag = .u then .u else .g) else x
  | .latch i => (c.chain.latches.getD i.val ⟨.u 0, .u⟩).tag
  | .special _ | .imm => .u

/-- The kinds of the three operands of the word. -/
def kinds (c : VCtx) : OpKind × OpKind × OpKind :=
  match vForm c.op with
  | some f => c.w.kinds c.op f
  | none => (.no, .no, .no)

/-- The operands the word reads as values, with their types. -/
def sources (c : VCtx) : List (Ty × Operand) :=
  let k := c.kinds
  let go (x : OpKind) (i : Nat) (o : Operand) : List (Ty × Operand) :=
    match x with
    | .val | .sysImm | .vreg => [(readTy c.op c.w i, o)]
    | .no | .mask => []
  go k.1 0 c.w.a ++ go k.2.1 1 c.w.b ++ go k.2.2 2 c.w.c

/-- Registers the word reads, with those of VBFI's destination and of the words that read a run of registers. -/
def regsRead (c : VCtx) : List Nat :=
  let base := (c.sources.map fun p => match p.2 with
    | .reg i => if p.1.wide then [i.val, i.val + 1] else [i.val]
    | _ => []).flatten
  let more := match c.op, c.w.b with
    | 0x13, _ => [c.w.dst.val]
    | 0x92, .reg i => [i.val + 1, i.val + 2, i.val + 3]
    | _, _ => []
  base ++ more

/-! ## Checks on names (06 R158, check 4) -/

/-- One operand's name is within its allocation. -/
def nameOk (c : VCtx) (k : OpKind) (t : Ty) (o : Operand) : Bool :=
  match k, o with
  | .no, _ => true
  | .mask, .reg i => decide (i.val < 16)
  | _, .reg i => if t.wide then i.val % 2 == 0 && decide (i.val + 1 < c.n) else decide (i.val < c.n)
  | _, .latch i => decide (i.val < c.chain.latches.length) && decide (i.val < 4)
  | _, .special i => decide (i.val < 8) || (decide (16 ≤ i.val) && decide (i.val < 32))
  | _, .imm => true

/-- Registers a word writes from its destination upward; VPICOT's count is the routine's (08 R235). -/
def dstCount (c : VCtx) : Nat :=
  match c.op with
  | 0x6A => 4
  | 0x67 => 0
  | _ => if c.w.ty.wide then 2 else 1

/-- The destination's name. A mask word with nowb writes no mask, and its field, which `_` encodes as 0, names none (log 72). -/
def dstOk (c : VCtx) : Bool :=
  match (vForm c.op).map VForm.dst with
  | some .v => (!c.w.ty.wide || c.w.dst.val % 2 == 0) && decide (c.w.dst.val + c.dstCount ≤ c.n)
  | some .slotOrV => c.w.mbit 10 || decide (c.w.dst.val < c.n)
  | some .mask => c.op == 0x80 || c.w.nowb || decide (c.w.dst.val ≠ 0)
  | _ => true

def namesOk (c : VCtx) : Bool :=
  let k := c.kinds
  c.nameOk k.1 (readTy c.op c.w 0) c.w.a && c.nameOk k.2.1 (readTy c.op c.w 1) c.w.b
    && c.nameOk k.2.2 (readTy c.op c.w 2) c.w.c && c.dstOk
    && (match c.op, c.w.b with | 0x92, .reg i => decide (i.val + 3 < c.n) | _, _ => true)

end VCtx

/-! ## Writing results -/

/-- What a vector word's effect ends in: done, with the latch it leaves, whose tag is that of its register or is given beside
it; a fault of the word; or a wait, which leaves the word to be executed again. -/
inductive VEff
  | done (s : State) (latch : VReg)
  | doneAs (s : State) (latch : Latch)
  | fault (s : State) (f : Flt)
  | wait (s : State)

/-- Replaces a register of a strand's file; a register that the list does not reach reads as zeros. -/
def setVReg (v : List VReg) (i : Nat) (r : VReg) : List VReg :=
  if i < v.length then v.set i r else v ++ List.replicate (i - v.length) (.u 0) ++ [r]

def State.modSplit (s : State) (sid : StrandId) (slot : Fin 2) (f : Split → Split) : State :=
  s.modStrand sid fun st => { st with slots := st.slots.set slot (st.slots[slot].map f) }

/-- The tag that a mask counts for as a source: U where it selects every lane or none (02 R48). -/
def maskTag (m : W32) : Tag := if m = 0 ∨ m = BitVec.allOnes 32 then .u else .g

namespace VCtx

/-- A register with the active lanes replaced; written whole it takes the tag, else it becomes G (02 R48). -/
def blend (c : VCtx) (old : VReg) (t : Tag) (f : Lane → W32) : VReg :=
  if c.activeMask = BitVec.allOnes 32 then .shaped t f
  else .g (lanes fun l => if c.active l then f l else old.lane l)

/-- The latch of a lane result: zero where the guard does not select (01 R34), with the result's tag: general for a
partial write (02 R48). -/
def latchOf (c : VCtx) (t : Tag) (f : Lane → W32) : VReg :=
  if c.activeMask = BitVec.allOnes 32 then .shaped t f
  else .g (lanes fun l => if c.active l then f l else 0)

/-- Writes a register, unless the nowb bit keeps it. -/
def putReg (c : VCtx) (s : State) (i : Nat) (r : VReg) : State :=
  if c.w.nowb then s else s.modStrand c.e.sid fun st =>
    { st with v := setVReg st.v i r
              badRegs := st.badRegs.filter fun p => !(p.1 == i && (c.activeMask.getLsbD p.2 || !r.isG)) }

/-- `SetV(d, l, x)` in every active lane, with the tag of 02 R48 for a type. -/
def setV (c : VCtx) (s : State) (t : Ty) (tag : Tag) (f : Lane → Nat) : VEff :=
  let lo (l : Lane) : W32 := BitVec.ofNat 32 (f l)
  let hi (l : Lane) : W32 := BitVec.ofNat 32 (f l / 2 ^ 32)
  let d := c.w.dst.val
  let s := c.putReg s d (c.blend (c.vreg d) tag lo)
  let s := if t.wide then c.putReg s (d + 1) (c.blend (c.vreg (d + 1)) tag hi) else s
  .done s (c.latchOf tag lo)

/-- The tag of an ordinary result of the word. -/
def tag (c : VCtx) (extra : List Tag := []) : Tag :=
  resultTag c.op c.w.ty ((c.sources.map fun p => c.tagOf p.1 p.2) ++ extra)

/-- Whether the word saturates (modifier [2] where it is that bit). -/
def sat (c : VCtx) : Bool := c.w.mbit 2

/-- A lane function of the operands written to the destination. -/
def lanewise (c : VCtx) (s : State) (f : Lane → Nat) : VEff := c.setV s c.w.ty c.tag f

/-- A uniform write (08 R215): all 32 lanes, tagged U. -/
def setUniform (c : VCtx) (s : State) (v : W32) : VEff := .done (c.putReg s c.w.dst.val (.u v)) (.u v)

/-- A return slot (01 R11), or the uniform register where the slot bit is clear. -/
def setSlotOrV (c : VCtx) (s : State) (v : W64) : VEff :=
  if c.w.mbit 10 then
    .done (if c.w.nowb then s else s.modStrand c.e.sid fun st => { st with q := st.q.set (Fin.ofNat 8 c.w.dst.val) v }) (.u (low32 v))
  else c.setUniform s (low32 v)

/-- Writes the active lanes' bits of a mask (02 R44); the latch reads the written bits (08 R214), with the tag that 02 R48
gives a result of the same sources (DEDUCED, log 128); `ms` are the tags of masks read. -/
def setMask (c : VCtx) (s : State) (f : Lane → Bool) (ms : List Tag := []) : VEff :=
  let i : Fin 16 := Fin.ofNat 16 c.w.dst.val
  let m := maskOf fun l => if c.active l then f l else laneBit c.st.masks[i] l
  let s := if c.w.nowb then s else s.modStrand c.e.sid fun st => { st with masks := st.masks.set i m }
  .done s (c.latchOf (c.tag ms) fun l => if f l then 1 else 0)

/-- The split goes on to the next word of the block, and the chain takes the word's latch (01 R33, R34). -/
def advance (c : VCtx) (s : State) (latch : VReg) (tag : Tag := latch.tag) : State :=
  s.modSplit c.e.sid c.slot fun sp =>
    { sp with
      pos := c.sp.pos + 1, run := sp.run + 1,
      chain := some { first := c.chain.first, next := c.sp.pos + 1, latches := c.chain.latches ++ [⟨latch, tag⟩],
                      stores := (match sp.chain with | some k => if k.first = c.chain.first then k.stores else [] | none => []),
                      loads := (match sp.chain with | some k => if k.first = c.chain.first then k.loads else [] | none => []),
                      cut := false } }

/-- The chain that the word continues loses its latches and what it has not performed, buffered stores and loads that
have not returned; the split stands at `pos` (01 R35, 04 R93). -/
def dropChain (c : VCtx) (s : State) (pos : Nat) : State :=
  let k : Chain := if c.follows then c.chain else ⟨0, 0, [], [], [], false⟩
  let s := dropStores s c.e.sid fun x => k.stores.contains x.id
  let s := s.modStrand c.e.sid fun st => { st with returns := st.returns.filter fun r => !k.loads.contains r.id }
  s.modSplit c.e.sid c.slot fun sp => { sp with pos := pos, chain := none }

/-- Loads of the strand that are older than the word's chain, and still out. -/
def olderLoads (c : VCtx) : List Return := c.st.returns.filter fun r => !(c.follows && c.chain.loads.contains r.id)

/-- A fault of the word: the split restarts at the chain's first word, and the record carries that word's address (01
R35, 18 R347). A PAGE comes after the older stores of the stream (18 R350). -/
def takeFault (c : VCtx) (s : State) (f : Flt) : State :=
  let s := c.dropChain s (if c.w.chain ∧ c.chainOk then c.chain.first else c.sp.pos)
  let s := if f.code = .page then drain s c.e.sid else s
  raise s c.e.world c.e.die (strandRec c.e (.vector c.e.sid) f (c.faultPC s))

end VCtx

/-- The word to execute, where the turn names a live split of a running block. -/
def State.vctx? (s : State) (op : Nat) (w : VWord) : Option VCtx :=
  match s.cur with
  | some (.vector sid slot) => match s.env? sid with
    | some e => match e.st.slots[slot], e.st.laneQ with
      | some sp, blk :: _ => some ⟨e, slot, sp, blk, op, w⟩
      | _, _ => none
    | none => none
  | _ => none

/-- Whether a register the word reads is still to be written by a return (01 R38). -/
def VCtx.outstanding (c : VCtx) : Bool :=
  c.st.returns.any fun r => r.regs.any fun p => c.regsRead.contains p.1

/-- Whether the word continues a chain whose next fetch has faulted: the fault has ended that execution of the chain,
which restarts at its first word (01 R35; log 24). -/
def VCtx.restarts (c : VCtx) : Bool := c.follows && c.chain.cut

/-- A word with an effect that a late check failure could not take back, in scratchpad, tiles, memory or a return slot:
it waits until every older load has passed its check (04 R113, R114; log 129). -/
def VCtx.lasting (c : VCtx) : Bool :=
  [0x63, 0x65, 0x66, 0x67, 0x71, 0x72, 0x92, 0x94, 0x95].contains c.op
    || (decide ((vForm c.op).map VForm.dst = some .slotOrV) && c.w.mbit 10)

/-- A vector stream has had its turn, or has been found not ready: its age for promotion starts again (01 R22). -/
def readyAgain (s : State) (sid : StrandId) : State := s.modStrand sid fun st => { st with vecSince := s.cycle, vecPromoted := false }

/-- The word waits. -/
def VCtx.again (c : VCtx) (s : State) : State := readyAgain s c.e.sid

/-- A fault of a strand's vector stream at an address where no word executes, a fetch or a rotation: taken once no load is out,
after the older stores (04 R113, 18 R350). -/
def faultVector (s : State) (e : Env) (f : Flt) (pc : Nat) : State :=
  if e.st.returns.isEmpty then raise (drain s e.sid) e.world e.die (strandRec e (.vector e.sid) f pc) else readyAgain s e.sid

/-- A fault is taken once the word is the oldest of its stream: older loads return first, with the faults they may have (04 R113,
18 R350). -/
def VCtx.faults (c : VCtx) (s : State) (f : Flt) : State := if c.olderLoads.isEmpty then c.takeFault s f else c.again s

/-- The effect on the machine of what a vector word ends in. -/
def VEff.finish (eff : VEff) (c : VCtx) : State :=
  match eff with
  | .done s latch => c.advance s latch
  | .doneAs s latch => c.advance s latch.reg latch.tag
  | .fault s f => c.faults s f
  | .wait s => c.again s

/-- Lanes whose words of its source registers the word reads: its active lanes, or all of them for a word that moves
values across lanes. -/
def VCtx.lanesRead (c : VCtx) : W32 := if 0x50 ≤ c.op ∧ c.op ≤ 0x54 ∨ c.op = 0x91 then BitVec.allOnes 32 else c.activeMask

/-- The lanes in which the word reads a 32-bit word, of the registers in a list, whose check fails (18 R351). -/
def VCtx.badLanes (c : VCtx) (regs : List Nat) : W32 :=
  maskOf fun l => c.lanesRead.getLsbD l.val && c.st.badRegs.any fun p => regs.contains p.1 && p.2 == l.val

/-- Whether the word reads a 32-bit word of a register whose check fails (18 R351). -/
def VCtx.readsBad (c : VCtx) : Bool := decide (c.badLanes c.regsRead ≠ 0)

/-- POISON at a word that reads such registers, with the lanes that hold them (08 R214, 18 R347). -/
def VCtx.poisonOf (c : VCtx) (regs : List Nat) : Flt := { code := .poison, lanes := c.badLanes regs }

/-- A vector word (06 R158; 08 R214): the chain rule, the names (with the opcode's own `check` of them), then, where some
lane is active, the effect; a register whose check fails raises POISON (18 R351). -/
def vectorWordIf (op : Nat) (w : VWord) (check : VCtx → State → Bool) (body : VCtx → State → VEff) (s : State) :
    Host.Outcome State Fault Refusal :=
  match s.vctx? op w with
  | none => .fault .noActor
  | some c =>
    if c.restarts then .next (c.dropChain s c.chain.first)
    else if !c.chainOk then .next (c.faults s { code := .illegalInstr })
    else if !(c.namesOk && check c s) then .next (c.faults s { code := .illegalOperand })
    else if c.activeMask = 0 then .next (c.advance s (.u 0))
    else if !regTagsOk s c.e then .next (c.faults s { code := .world })
    else if c.outstanding || (c.lasting && !c.st.returns.isEmpty) then .next (c.again s)
    else if c.readsBad then .next (c.faults s (c.poisonOf c.regsRead))
    else .next ((body c s).finish c)

def vectorWord (op : Nat) (w : VWord) (body : VCtx → State → VEff) (s : State) : Host.Outcome State Fault Refusal :=
  vectorWordIf op w (fun _ _ => true) body s

/-- A word whose fields are not read: only its chain bit counts, for the address its fault carries. -/
def bareWord (bits : Nat) : VWord :=
  { neg := false, gm := 0, chain := bitOf bits 82, nowb := false, ty := .i32, dst := 0, a := .imm, b := .imm, c := .imm,
    mod := 0, imm := 0 }

end Sys2Proof.Machine
end

