-- ==== Sys2Proof/Machine/Fetch.lean ====
section
/-! DEFINITION. Fetching and decoding a stream's next word (06 R157, R158, R162; 07 R194; 18 R340). -/

namespace Sys2Proof.Machine

open Sys2Proof

/-! ## Fetching bytes -/

inductive Got
  | bytes (bs : List Byte)
  | bad (c : Code) (va : Nat)
  | miss (va : Nat)
  deriving DecidableEq, Repr

/-- Code bytes at a virtual address: translated for fetch, read at the die's L2 (DEDUCED, log 23). -/
def fetchBytes (s : State) (e : Env) (faults : List WalkFault) (va n : Nat) : State × Got :=
  (pages va n).foldl (fun acc g =>
    match acc with
    | (s, .bytes bs) =>
      if 2 ^ 57 ≤ g.1 then (s, .bad .access g.1) else
      match lookup s e.quadrant e.die e.world e.priv faults g.1 .fetch with
      | .bad c => (s, .bad c g.1)
      | .miss => (s, .miss g.1)
      | .ok pa _ =>
        if s.mem.poisoned pa g.2 then (s, .bad .poison g.1) else
        let r := readDie s e.die e.world pa g.2
        (r.1, .bytes (bs ++ r.2))
    | x => x) (s, .bytes [])

/-- What a fetch ends in: an instruction to execute, or a state in which the stream's turn is over. -/
inductive Fetched
  | run (s : State) (i : Instr)
  | halt (s : State)

/-! ## Issue shares (01 R22) -/

/-- The weight of the strand's world on its core (16 R309). -/
def issueWeight (s : State) (e : Env) : Nat :=
  match (s.partReg e.core).toList.find? fun p => p.valid && p.world == e.world with
  | some p => p.weight
  | none => 1

/-- Whether a count is of the port of the strand's quadrant that its scalar or its vector stream issues on. -/
def PortIssues.onPort (x : PortIssues) (e : Env) (vector : Bool) : Bool :=
  decide (x.core = e.core) && decide (x.quadrant = Fin.ofNat 4 e.sid.strand.val) && x.vector == vector

/-- How often the strand's world has issued on the port in the present round. -/
def issueCount (s : State) (e : Env) (vector : Bool) : Nat :=
  ((s.issues.find? fun x => x.onPort e vector && x.world == e.world).map PortIssues.count).getD 0

/-- The streams and splits of the strand's world that have had their turn on the port. -/
def servedOn (s : State) (e : Env) (vector : Bool) : List (StrandId × Fin 2) :=
  ((s.issues.find? fun x => x.onPort e vector && x.world == e.world).map PortIssues.served).getD []

/-- A stream or a split issues: its world's count goes up, and it has had its turn. An issue beyond the world's weight begins a
new round of the worlds, a second turn a new round of the world's strands (log 130). -/
def noteIssue (s : State) (e : Env) (vector : Bool) (slot : Fin 2 := 0) : State :=
  let n := issueCount s e vector
  let fresh := decide (issueWeight s e ≤ n)
  let old := servedOn s e vector
  let served := if old.contains (e.sid, slot) then [(e.sid, slot)] else (e.sid, slot) :: old
  let x : PortIssues := ⟨e.core, Fin.ofNat 4 e.sid.strand.val, vector, e.world, if fresh then 1 else n + 1, served⟩
  let others := (s.issues.filter fun y => !(y.onPort e vector && y.world == e.world)).map fun y =>
    if y.onPort e vector && fresh then { y with count := 0 } else y
  { s with issues := x :: others }

/-! ## The scalar stream -/

/-- Whether a strand's scalar stream can issue its next word. -/
def scalarReady (s : State) (e : Env) : Bool :=
  decide (s.power.state = .w0) && e.wg.parked.isNone && !e.wg.stopping && !e.wg.released && decide (e.st.ended = .no)
    && e.st.scalarStop.isNone && (e.st.wait.isNone || decide (e.st.wait = some .retry))

/-- The first word's bytes, with the second's where the major takes two (06 R157). A fault of the second is reported
at the first, and comes before the first word's own checks (DESIGN CHOICE, log 154). -/
def scalarBytes (s : State) (e : Env) : State × Got :=
  match fetchBytes s e e.st.scalarWalkFaults e.st.pc 4 with
  | (s, .bytes b) =>
    if twoWords (leNat b) then
      (match fetchBytes s e e.st.scalarWalkFaults (e.st.pc + 4) 4 with
        | (s, .bytes b2) => (s, .bytes (b ++ b2))
        | x => x)
    else (s, .bytes b)
  | x => x

/-- The next word of a strand's scalar stream. A word that does not decode raises ILLEGAL_INSTR (06 R158). -/
def fetchScalar (s : State) (sid : StrandId) : Fetched :=
  match s.env? sid with
  | none => .halt s
  | some e =>
    if !scalarReady s e then .halt s else
    match scalarBytes s e with
    | (s, .bad c va) => .halt (faultScalar s e { code := c, access := .fetch, addr := va })
    | (s, .miss va) => .halt ((s.modStrand sid fun st => { st with readySince := s.cycle, promoted := false }).ask ⟨e.die, e.quadrant, .scalar sid, e.world, e.priv, va, .fetch⟩)
    | (s, .bytes bs) => match decodeScalarBytes bs with
      | .ok p => .run (noteIssue s e false) p.1
      | .error _ => .halt (faultScalar s e { code := .illegalInstr })

/-! ## The vector stream -/

/-- Whether a split of a strand can issue its next word: its block runs, it does not wait at VEND, and in serialised
mode it is not the held one (01 R28). -/
def vectorReady (s : State) (e : Env) (slot : Fin 2) : Bool :=
  decide (s.power.state = .w0) && e.wg.parked.isNone && !e.wg.stopping && !e.wg.released
    && (decide (e.st.ended = .no) || decide (e.st.ended = .exited)) && e.st.vectorStop.isNone && e.st.started
    && !(e.st.serialised && decide (slot = 1))
    && (match e.st.slots[slot] with | some sp => !sp.atEnd | none => false)
    && (match e.st.picot with | some p => decide (p.slot ≠ slot) | none => true)

/-- Whether a split is due for rotation: it has issued for 16 issue cycles and the spill stack is not empty (01 R30). -/
def rotationDue (st : Strand) (sp : Split) : Bool := decide (16 ≤ sp.run) && !st.spilled.isEmpty

/-- Whether the next word of a split continues its chain: the two issue back to back (01 R33). -/
def chainedNext (s : State) (e : Env) (sp : Split) : Bool :=
  match sp.chain, e.st.laneQ with
  | some k, blk :: _ => k.next == sp.pos && VCtx.chainBitAt s e (blk.entry + 12 * sp.pos)
  | _, _ => false

/-- A fault of the fetch of the word after an open chain: whether it continues the chain is not known before it is read, so
the chain is marked, and the word, if it does, restarts it (01 R35; DEDUCED, log 24). -/
def cutChain (s : State) (sid : StrandId) (slot : Fin 2) : State :=
  s.modSplit sid slot fun sp => { sp with chain := sp.chain.map fun k => { k with cut := true } }

/-- The next word of a split. One that is due for rotation does not issue before it (01 R30). -/
def fetchVector (s : State) (sid : StrandId) (slot : Fin 2) : Fetched :=
  match s.env? sid with
  | none => .halt s
  | some e => match e.st.slots[slot], e.st.laneQ with
    | some sp, blk :: _ =>
      if !vectorReady s e slot || (rotationDue e.st sp && !chainedNext s e sp) then .halt s else
      let va := blk.entry + 12 * sp.pos
      match fetchBytes s e e.st.vectorWalkFaults va 12 with
      | (s, .bad c fa) =>
        .halt (faultVector (if e.st.returns.isEmpty then cutChain s sid slot else s) e { code := c, access := .fetch, addr := fa } va)
      | (s, .miss fa) => .halt ((readyAgain s sid).ask ⟨e.die, e.quadrant, .vector sid, e.world, e.priv, fa, .fetch⟩)
      | (s, .bytes bs) =>
        let s := readyAgain s sid
        match decodeVectorBytes bs with
        | .ok p => .run (noteIssue s e true slot) p.1
        | .error _ =>
          .halt (VCtx.faults ⟨e, slot, sp, blk, 0, bareWord (leNat bs)⟩ s { code := .illegalInstr })
    | _, _ => .halt s

end Sys2Proof.Machine
end

