-- ==== Sys2Proof/Machine/ScalarControl.lean ====
section
/-! DEFINITION. Scalar control flow, the words that drive the vector stream, traps and special registers (07 R180, R181,
R192 to R197, R210, R211). -/

namespace Sys2Proof.Machine

open Sys2Proof

def execSnop (g : Guard) (s : State) := scalarWord g 4 noCheck (fun _ s => .done s) s

/-- The promotion age returns to zero, as it does at every word that issues; that the strand does not issue in the very
next cycle is timing (log 5). -/
def execSyield (g : Guard) (s : State) := scalarWord g 4 noCheck (fun _ s => .done s) s

/-- 07 R181. The watch is disarmed and the tickets are abandoned; blocks, buffered stores and engine commands go on. -/
def execSexit (g : Guard) (s : State) :=
  scalarWord g 4 noCheck (fun e s =>
    let s := s.modStrand e.sid fun st => { st with ended := .exited, sexit := true, watch := none, tickets := [] }
    .done (noteExit s e.sid)) s

/-! ## Branches (07 R192 to R194) -/

/-- `PC + 4 × offset` in 64 bits (06 R156). -/
def branchTarget (pc : Nat) (off : BitVec 22) : Nat := (BitVec.ofNat 64 pc + 4 * off.signExtend 64).toNat

/-- A jump to a register's value: a target that is not a word address raises ALIGN with no link written. -/
def jumpTo (e : Env) (s : State) (t : W64) (link : Option SReg) : Eff :=
  if t.toNat % 4 ≠ 0 then .fault s { code := .align, addr := t.toNat }
  else match link with
    | some d => .jump (s.modStrand e.sid fun st => st.wr d (BitVec.ofNat 64 (e.st.pc + 4))) t.toNat
    | none => .jump s t.toNat

def execSbr (g : Guard) (off : BitVec 22) (s : State) :=
  scalarWord g 4 noCheck (fun e s => .jump s (branchTarget e.st.pc off)) s

def execScall (g : Guard) (off : BitVec 22) (s : State) :=
  scalarWord g 4 noCheck (fun e s =>
    .jump (s.modStrand e.sid fun st => st.wr 31 (BitVec.ofNat 64 (e.st.pc + 4))) (branchTarget e.st.pc off)) s

def execSjr (g : Guard) (a : SReg) (s : State) := scalarWord g 4 noCheck (fun e s => jumpTo e s (e.st.rd a) none) s

def execSjalr (g : Guard) (d a : SReg) (s : State) :=
  scalarWord g 4 noCheck (fun e s => jumpTo e s (e.st.rd a) (some d)) s

def execSret (g : Guard) (s : State) := scalarWord g 4 noCheck (fun e s => jumpTo e s (e.st.rd 31) none) s

/-! ## Driving the vector stream (07 R195 to R197) -/

/-- 01 R13: only the role may issue the word. -/
def needRole (r : Role) : Env → State → Option Code := fun e _ => if e.st.role = r then none else some .illegalInstr

/-- The low 32 bits of the named registers (07 R195). -/
def snapshot (st : Strand) (first : SReg) (count : Nat) : Vector W32 8 :=
  Vector.ofFn fun j : Fin 8 => if j.val < count then low32 (st.rd (Fin.ofNat 32 (first.val + j.val))) else 0

/-- A block joins the lane queue; with none running it starts. -/
def enqueueBlock (s : State) (e : Env) (index : Nat) (first : SReg) (count : Nat) : State :=
  let blk : Block := ⟨e.l.desc.vectorBase + 12 * index, snapshot e.st first count⟩
  let s := s.modStrand e.sid fun st => { st with laneQ := st.laneQ ++ [blk] }
  if e.st.laneQ.isEmpty then startBlock s e.sid else s

def slqBody (index : Nat) (first : SReg) (count : Nat) (e : Env) (s : State) : Eff :=
  if e.st.laneQ.length < Config.laneQueueEntries then .done (enqueueBlock s e index first count)
  else .wait s (.slq index first count)

def execSlq (g : Guard) (index : BitVec 22) (first : SReg) (count : Fin 9) (s : State) :=
  scalarWord g 8 (needRole .vector) (slqBody index.toNat first count.val) s

def slwaitBody (k : Nat) (e : Env) (s : State) : Eff := if e.st.laneQ.length ≤ k then .done s else .wait s (.slwait k)

def execSlwait (g : Guard) (k : Fin 8) (s : State) := scalarWord g 4 noCheck (slwaitBody k.val) s

/-- The slot's value now: the covered one, or one that a block not covered has written (01 R11). -/
def execSgetr (g : Guard) (d : SReg) (q : Fin 8) (s : State) :=
  scalarWord g 4 noCheck (setsReg d fun e _ => e.st.q[q]) s

/-! ## Traps and special registers (07 R210, R211) -/

/-- TRAP of a kind and code; the record's address field is the next word's address. -/
def trapBody (kind code : Nat) (e : Env) (s : State) : Eff :=
  .fault s { code := .trap, addr := e.st.pc + 4, detail := kind + 65536 * code }

/-- With the world's debug enable set and the lock open, the strand stops for the halt-mode debug module (19 R363). -/
def execSbrk (g : Guard) (s : State) :=
  scalarWord g 4 noCheck (fun e s =>
    let enabled := match s.worlds.get? e.world with
      | some w => w.debugen
      | none => false
    if enabled && s.trust.debugOpen then
      .done (s.modStrand e.sid fun st =>
        { st with scalarStop := some (.debugHalt (e.st.pc + 4)),
                  vectorStop := some (st.vectorStop.getD (.debugHalt (e.st.pc + 4))) })
    else trapBody 1 0 e s) s

def execStrap (g : Guard) (code : BitVec 12) (s : State) := scalarWord g 4 noCheck (trapBody 0 code.toNat) s

/-- The value of a special register, extended with zeros from its width; a reserved index does not decode further. -/
def execSrds (g : Guard) (d : SReg) (i : Fin 128) (s : State) :=
  scalarWord g 4 (fun e s => if (special s e i.val).isSome then none else some .illegalOperand)
    (setsReg d fun e s => match special s e i.val with
      | some (v, n) => BitVec.ofNat 64 (v % 2 ^ n)
      | none => 0) s

end Sys2Proof.Machine
end

