-- ==== Sys2Proof/Machine/ScalarMem.lean ====
section
/-! DEFINITION. Scalar memory words: loads, stores, acquire and release forms, atomics and fences (06 R176; 07 R180, R188 to
R191; 04). -/

namespace Sys2Proof.Machine

open Sys2Proof

/-! ## Accesses -/

/-- The checks of a scalar access in the order of 06 R176: 57 bits, alignment, translation. A miss asks for a walk and
the word is executed again. -/
def scalarAccess (e : Env) (s : State) (va n : Nat) (kind : AccessKind) : Except Eff Nat :=
  if 2 ^ 57 ≤ va then .error (.fault s { code := .access, access := kind, addr := va })
  else if va % n ≠ 0 then .error (.fault s { code := .align, access := kind, addr := va })
  else match lookup s e.quadrant e.die e.world e.priv e.st.scalarWalkFaults va kind with
    | .bad c => .error (.fault s { code := c, access := kind, addr := va })
    | .miss => .error (.wait (s.ask ⟨e.die, e.quadrant, .scalar e.sid, e.world, e.priv, va, kind⟩) .retry)
    | .ok pa _ => .ok pa

/-- What the store buffer says of bytes that are loaded (07 R190). -/
inductive Fwd
  | none
  | hit (bs : List Byte)
  | part
  deriving DecidableEq, Repr

/-- The youngest buffered store that touches `[pa, pa + n)`. -/
def forward (stores : List SBEntry) (pa n : Nat) : Fwd :=
  match ((stores.map fun x => x.lanes).flatten.reverse).find? fun l => decide (l.pa < pa + n) && decide (pa < l.pa + l.data.length) with
  | Option.none => .none
  | some l => if l.pa ≤ pa ∧ pa + n ≤ l.pa + l.data.length then .hit ((l.data.drop (pa - l.pa)).take n) else .part

/-- Whether a buffered store that touches `[pa, pa + n)` is of a block and waits for the checks of older loads: its data, which
may come from them, reaches no scalar word before (04 R114). -/
def unchecked (st : Strand) (pa n : Nat) : Bool :=
  st.stores.any fun x => x.vector && !mayLeave st x
    && x.lanes.any fun l => decide (l.pa < pa + n) && decide (pa < l.pa + l.data.length)

/-- A line's bytes come from L2; L1 is filled unless a sector of the line fails its check (03 R74; 18 R351). -/
def missLoad (s : State) (e : Env) (pa n : Nat) : State × Option (List Byte) :=
  let r := s.readL2 e.die e.world pa n
  if r.1.mem.poisoned pa n then (r.1, none)
  else if r.1.mem.poisoned (128 * lineOf pa) 128 then ({ r.1 with mem := r.1.mem.l1Drop e.core (lineOf pa) }, some r.2)
  else ({ r.1 with mem := r.1.mem.l1Fill e.core e.world (lineOf pa) }, some r.2)

/-- Whether an older line that L1 still holds answers a load (03 R74; log 6). -/
def l1Answers (s : State) (e : Env) (pa : Nat) (fresh : Bool) : Bool :=
  !fresh && (s.mem.l1Find e.core e.world (lineOf pa)).isSome && Config.l1Keep (choiceIx s (lineOf pa) 5)

/-- The sectors at L2 that a load reads: none where L1 or a peer answers (18 R351). -/
def sectorsOf (s : State) (e : Env) (pa n : Nat) (fresh : Bool) : List Nat :=
  if isRemote pa || l1Answers s e pa fresh then [] else ((List.range n).map fun i => sectorOf (pa + i)).eraseDups

/-- The bytes of one aligned load of global memory, past the store buffer: `none` where a sector fails its check.
Without `.f` an older line may answer (03 R74; log 6). -/
def globalLoad (s : State) (e : Env) (pa n : Nat) (fresh : Bool) : State × Option (List Byte) :=
  if isRemote pa then ((readDie s e.die e.world pa n).1, some (readDie s e.die e.world pa n).2)
  else if fresh then missLoad s e pa n
  else match s.mem.l1Find e.core e.world (lineOf pa) with
    | some x =>
      if Config.l1Keep (choiceIx s (lineOf pa) 5) then (s, some ((x.bytes.drop (pa % 128)).take n)) else missLoad s e pa n
    | none => missLoad s e pa n

/-- The address `S(a) + offset × n` (06 R156). -/
def scaledAddr (e : Env) (a : SReg) (off : W64) (n : Nat) : Nat := (e.st.rd a + off * BitVec.ofNat 64 n).toNat

/-- A scalar load (07 R188, R189): the buffer answers first; a store that overlaps in part leaves the buffer before. The
value is bound at the word, so the loads of a stream are performed in its order, one of those that 04 R91 allows (DESIGN
CHOICE, log 150). -/
def scalarLoad (d : SReg) (va n : Nat) (fresh : Bool) (ext : Nat → W64) (e : Env) (s : State) : Eff :=
  match scalarAccess e s va n .read with
  | .error x => x
  | .ok pa =>
    if unchecked e.st pa n then .wait s .retry else
    match forward e.st.stores pa n with
    | .hit bs => .done (s.modStrand e.sid fun st => st.wr d (ext (leNat bs)))
    | .part => .wait (drain s e.sid) .retry
    | .none => match globalLoad s e pa n fresh with
      | (s, none) => .fault s { code := .poison, access := .read, addr := va }
      | (s, some bs) => .done (s.modStrand e.sid fun st => st.wr d (ext (leNat bs)))

/-- A scalar store (07 R188 to R190): a release waits first; a full buffer is waited for. -/
def scalarStore (va : Nat) (z : Size) (scope : Option Scope) (v : W64) (e : Env) (s : State) : Eff :=
  match scalarAccess e s va z.bytes .write with
  | .error x => x
  | .ok pa =>
    let r := release s e.sid scope
    let full := match r.1.strands.get? e.sid with
      | some st => decide (Config.storeBufferEntries ≤ st.stores.length)
      | none => false
    if !r.2 || full then .wait r.1 .retry
    else
      let x : SBEntry :=
        { id := r.1.nextId, restored := false, vector := false, size := z, scope := scope, lanes := [⟨0, va, pa, natLE z.bytes v.toNat⟩] }
      .done (enterStore { r.1 with nextId := r.1.nextId + 1 } e x)

/-- A value of `n` bytes extended to 64 bits. -/
def zextN (v : Nat) : W64 := BitVec.ofNat 64 v
def sextN (n v : Nat) : W64 := BitVec.ofInt 64 (signedOf (8 * n) v)

def execSld (g : Guard) (d a : SReg) (fresh : Bool) (z : Size) (off : BitVec 9) (s : State) :=
  scalarWord g 4 noCheck (fun e s => scalarLoad d (scaledAddr e a (off.signExtend 64) z.bytes) z.bytes fresh zextN e s) s

def execSldx (g : Guard) (d a : SReg) (fresh : Bool) (z : Size) (off : BitVec 9) (s : State) :=
  scalarWord g 4 noCheck
    (fun e s => scalarLoad d (scaledAddr e a (off.signExtend 64) z.bytes) z.bytes fresh (sextN z.bytes) e s) s

def execSst (g : Guard) (d a : SReg) (z : Size) (off : BitVec 9) (s : State) :=
  scalarWord g 4 noCheck
    (fun e s => scalarStore (scaledAddr e a (off.signExtend 64) z.bytes) z none (e.st.rd d) e s) s

/-- An acquire load is always fresh; what follows it in program order is executed later (04 R89). -/
def execSlda (g : Guard) (d a : SReg) (_sc : Scope) (z : Size) (off : BitVec 7) (s : State) :=
  scalarWord g 4 noCheck (fun e s => scalarLoad d (scaledAddr e a (off.signExtend 64) z.bytes) z.bytes true zextN e s) s

def execSstl (g : Guard) (d a : SReg) (sc : Scope) (z : Size) (off : BitVec 7) (s : State) :=
  scalarWord g 4 noCheck
    (fun e s => scalarStore (scaledAddr e a (off.signExtend 64) z.bytes) z (some sc) (e.st.rd d) e s) s

/-! ## Byte runs that a strand reads or writes through its own translation -/

/-- Every page of a run translates for a strand, or the first that does not stops the word. -/
def runPages (e : Env) (s : State) (va n : Nat) (kind : AccessKind) : Except Eff (List (Nat × Nat × Nat)) :=
  (pages va n).foldl (fun acc g => match acc with
    | .error x => .error x
    | .ok l => match scalarAccess e s g.1 1 kind with
      | .error x => .error x
      | .ok pa => .ok (l ++ [(pa, g.1, g.2)])) (.ok [])

/-- Bytes read at the die's L2, as by an acquire. The strand's own buffered stores are performed before. -/
def strandBytes (e : Env) (s : State) (va n : Nat) : Except Eff (State × List Byte) :=
  match runPages e s va n .read with
  | .error x => .error x
  | .ok l => l.foldl (fun acc g => match acc with
    | .error x => .error x
    | .ok (s, bs) =>
      if s.mem.poisoned g.1 g.2.2 then .error (.fault s { code := .poison, access := .read, addr := g.2.1 })
      else
        let r := readDie s e.die e.world g.1 g.2.2
        .ok (r.1, bs ++ r.2)) (.ok (drain s e.sid, []))

/-- Bytes written outright, performed at the die's L2. Bytes in a remote window are neither written nor sent: 19 R357 makes
messages of stores, atomic adds and copies only (DESIGN CHOICE, log 155). -/
def strandWrite (e : Env) (s : State) (va : Nat) (bs : List Byte) : Except Eff State :=
  match runPages e s va bs.length .write with
  | .error x => .error x
  | .ok l => .ok (l.foldl (fun (s : State) g =>
      let part := (bs.drop (g.2.1 - va)).take g.2.2
      let s := if isRemote g.1 then s else s.performAt e.die e.world g.1 part
      l1DropRun s e.core g.1 part.length) (drain s e.sid))

/-! ## Atomics (07 R191) -/

/-- What memory becomes: `n` bits, signed MIN and MAX. -/
def atomNew (op : AtomOp) (n old operand cmp : Nat) : Nat :=
  match op with
  | .add => (old + operand) % 2 ^ n
  | .and => old &&& operand
  | .or => old ||| operand
  | .xor => old ^^^ operand
  | .min => if signedOf n operand < signedOf n old then operand else old
  | .max => if signedOf n old < signedOf n operand then operand else old
  | .swap => operand
  | .cas => if old = cmp then operand else old

/-- One indivisible read-modify-write at the home of a line (03 R83; 04 R87, R101): the old value, or `none` where the
sector fails its check, which leaves memory unchanged (18 R351). -/
def homeRmw (s : State) (e : Env) (pa n : Nat) (f : Nat → Nat) : State × Option Nat :=
  let s := s.homeLine e.die (lineOf pa)
  if s.mem.poisoned pa n then (s, none) else
  let old := s.mem.home.readNat pa n
  let s := s.performAt e.die e.world pa (natLE n (f old))
  ({ s with mem := s.mem.l1Drop e.core (lineOf pa) }, some old)

/-- An atomic at a remote window: an add leaves as a message; the value it returns is not stated (19 R357; log 26). -/
def remoteAtom (s : State) (e : Env) (pa n : Nat) (add : Bool) (operand : Nat) : State × Nat :=
  let old := leNat (readDie s e.die e.world pa n).2
  if add then
    let s := s.modStrand e.sid fun st => { st with unackSys := st.unackSys + 1 }
    (sendMessage s e.world (some e.sid) pa .atomicAdd (natLE n operand), old)
  else (s, old)

def execSatom (g : Guard) (d a b : SReg) (op : AtomOp) (wide : Bool) (sc : Scope) (s : State) :=
  scalarWord g 4 noCheck (fun e s =>
    let n := if wide then 8 else 4
    let va := (e.st.rd a).toNat
    match scalarAccess e s va n .rmw with
    | .error x => x
    | .ok pa =>
      let r := release s e.sid (some sc)
      if !r.2 then .wait r.1 .retry else
      let s := drain r.1 e.sid
      let operand := (e.st.rd b).toNat % 2 ^ (8 * n)
      if isRemote pa then
        let q := remoteAtom s e pa n (decide (op = .add)) operand
        .done (q.1.modStrand e.sid fun st => st.wr d (sextN n q.2))
      else match homeRmw s e pa n fun old => atomNew op (8 * n) old operand ((e.st.rd d).toNat % 2 ^ (8 * n)) with
        | (s, none) => .fault s { code := .poison, access := .rmw, addr := va }
        | (s, some old) => .done (s.modStrand e.sid fun st => st.wr d (sextN n old))) s

/-- A release, then an acquire, over the scalar stream's accesses (07 R180, 04 R89). -/
def execSfence (g : Guard) (sc : Scope) (s : State) :=
  scalarWord g 4 noCheck (fun e s =>
    let r := release s e.sid (some sc)
    if r.2 then .done r.1 else .wait r.1 .retry) s

end Sys2Proof.Machine
end

