-- ==== Sys2Proof/Machine/Sync.lean ====
section
/-! DEFINITION. Barriers, landing words, monitor and wait, timelines, and the events that end a strand's wait (03 R79 to R82;
07 R179, R198 to R204; 04 R96, R105). -/

namespace Sys2Proof.Machine

open Sys2Proof

/-! ## Ending a wait -/

/-- Whether a strand's scalar stream can go on with the word it waits at. -/
def mayResume (e : Env) : Bool :=
  e.wg.parked.isNone && !e.wg.stopping && !e.wg.released && decide (e.st.ended = .no) && e.st.scalarStop.isNone

/-- The waiting word looks again at its condition: its body, from where it stands. -/
def resumeWord (s : State) (sid : StrandId) (f : Env → Wait → Option (Nat × (Env → State → Eff))) : State :=
  match s.env? sid with
  | none => s
  | some e =>
    if !mayResume e then s else
    match e.st.wait with
    | none => s
    | some w => match f e w with
      | none => s
      | some (len, body) => (body e s).finish e len

def execLaneQueueEnqueue (sid : StrandId) (s : State) : Host.Outcome State Fault Refusal :=
  .next (resumeWord s sid fun _ w => match w with
    | .slq i f c => some (8, slqBody i f c)
    | _ => none)

def execSlwaitReturn (sid : StrandId) (s : State) : Host.Outcome State Fault Refusal :=
  .next (resumeWord s sid fun _ w => match w with
    | .slwait k => some (4, slwaitBody k)
    | _ => none)

/-! ## Barriers (07 R198, R199) -/

/-- The barrier that a handle names in the strand's context; `none`: untranslated. -/
def barKey (s : State) (e : Env) (h : Nat) : Option BarKey :=
  match (s.contexts.get? e.l.ctx).bind fun c => c.img.barriers[h]? with
  | none => none
  | some b =>
    if !bitOf b.toNat 7 then none
    else match bitsOf b.toNat 5 2 with
      | 0 => some (.wg e.sid.wg (b.toNat % 16))
      | 1 => some (.cluster e.wg.launch (e.wg.index / e.l.desc.cluster) (b.toNat % 16))
      | 2 => some (.launch e.wg.launch (b.toNat % 16))
      | _ => none

/-- The scope of a barrier's level (04 R96). -/
def barScope : BarKey → Scope
  | .wg .. => .wg
  | .cluster .. => .cl
  | .launch .. => .dev

/-- An arrival in the open phase, or a wait for the phase to end where the strand has arrived in it. -/
def arrive (s : State) (e : Env) (k : BarKey) (sync : Bool) : Eff :=
  let b := s.bar k
  if b.broken then .fault s { code := .barrier }
  else if b.arrived.contains e.sid then .wait s (.again k sync)
  else
    let s := { s with bars := s.bars.set k { b with arrived := b.arrived ++ [e.sid] } }
    if sync then .wait s (.barrier k) else .done s

def barBody (h : Nat) (sync : Bool) (e : Env) (s : State) : Eff :=
  match barKey s e h with
  | none => .fault s { code := .illegalOperand }
  | some k =>
    if !(barMembers s k).contains e.sid then .fault s { code := .barrier }
    else if sync && !e.st.laneQ.isEmpty then .wait s .retry
    else
      let r := release s e.sid (some (barScope k))
      if r.2 then arrive r.1 e k sync else .wait r.1 .retry

def needBar (h : Nat) : Env → State → Option Code := fun e s => if (barKey s e h).isSome then none else some .illegalOperand

def execSbar (g : Guard) (h : Fin 64) (s : State) := scalarWord g 4 (needBar h.val) (barBody h.val true) s
def execSbara (g : Guard) (h : Fin 64) (s : State) := scalarWord g 4 (needBar h.val) (barBody h.val false) s

def execBarrierPhaseComplete (k : BarKey) (s : State) : Host.Outcome State Fault Refusal := .next (completePhase s k)

/-! ## Landing words (03 R79 to R81; 07 R201) -/

structure Land where
  target : Nat
  arrived : Nat
  gen : Nat
  flags : Nat
  deriving DecidableEq, Repr

def Land.bytes (w : Land) : List Byte := natLE 8 w.target ++ natLE 8 w.arrived ++ natLE 4 w.gen ++ natLE 4 w.flags

def landRead (g : Workgroup) (off : Nat) : Land :=
  ⟨g.scratch.readNat off 8, g.scratch.readNat (off + 8) 8, g.scratch.readNat (off + 16) 4, g.scratch.readNat (off + 20) 4⟩

def Land.overrun (w : Land) : Bool := bitOf w.flags 0

/-- The last row of R80: a generation ends once its target has arrived. -/
def Land.settle (w : Land) : Land :=
  if w.target ≠ 0 ∧ w.arrived = w.target then ⟨0, 0, (w.gen + 1) % 2 ^ 32, w.flags⟩ else w

/-- An arrival of `n` bytes, and whether it raises LAND. -/
def Land.arrive (w : Land) (n : Nat) : Land × Bool :=
  if w.overrun then (w, true)
  else if (w.target ≠ 0 ∧ w.target < w.arrived + n) ∨ (w.target = 0 ∧ 2 ^ 64 ≤ w.arrived + n) then
    ({ w with flags := w.flags + 1 }, true)
  else (Land.settle { w with arrived := w.arrived + n }, false)

/-- `SLEXP` of `n`, and whether it raises LAND. -/
def Land.expect (w : Land) (n : Nat) : Land × Bool :=
  if w.overrun then (w, true)
  else if 2 ^ 64 ≤ w.target + n then (w, true)
  else if w.target + n ≠ 0 ∧ w.target + n < w.arrived then (w, true)
  else if n = 0 then (w, false)
  else (Land.settle { w with target := w.target + n }, false)

/-- The checks that every landing-word instruction makes first on its offset, then its granule's tag. -/
def landCheck (s : State) (e : Env) (off : Nat) : Option Flt :=
  if off % 32 ≠ 0 then some { code := .align, addr := off }
  else if e.scratchBytes < off + 32 then some { code := .access, addr := off }
  else if !scratchTagOk s e off then some { code := .world }
  else none

/-- A landing-word instruction: its checks, then its effect on the word; `reads` tells whether a failing word matters. -/
def landWord (a : SReg) (reads : Bool) (body : Env → State → Nat → Land → Eff) (e : Env) (s : State) : Eff :=
  let off := (e.st.rd a).toNat
  match landCheck s e off with
  | some f => .fault s f
  | none =>
    if reads && badWord e.wg.badScratch off 24 then .fault s { code := .poison, access := .read, addr := off }
    else body e s off (landRead e.wg off)

def execSlinit (g : Guard) (a : SReg) (s : State) :=
  scalarWord g 4 noCheck (landWord a false fun e s off _ =>
    .done (scratchWrite (scratchWrite s e.sid.wg off (natLE 16 0)) e.sid.wg (off + 20) (natLE 12 0))) s

def execSlexp (g : Guard) (a b : SReg) (s : State) :=
  scalarWord g 4 noCheck (landWord a true fun e s off w =>
    match w.expect (e.st.rd b).toNat with
    | (_, true) => .fault s { code := .land, addr := off, detail := 1 }
    | (w', false) => .done (if w' = w then s else scratchWrite s e.sid.wg off w'.bytes)) s

/-- Overrun raises LAND, whether or not the wait had begun; else the phase bit decides. -/
def slwtBody (a b : SReg) : Env → State → Eff :=
  landWord a true fun e s off w =>
    if w.overrun then .fault s { code := .land, addr := off, detail := 2 }
    else if bitOf w.gen 0 ≠ (e.st.rd b).getLsbD 0 then .done s
    else .wait s (.slwt a b)

def execSlwt (g : Guard) (a b : SReg) (s : State) := scalarWord g 4 noCheck (slwtBody a b) s

/-- The reserved flags read as zero (00 R4). -/
def execSlgen (g : Guard) (d a : SReg) (s : State) :=
  scalarWord g 4 noCheck (landWord a true fun e s _ w =>
    .done (s.modStrand e.sid fun st => st.wr d (BitVec.ofNat 64 (w.flags % 2 * 2 ^ 32 + w.gen)))) s

def execSlwtReturn (sid : StrandId) (s : State) : Host.Outcome State Fault Refusal :=
  .next (resumeWord s sid fun _ w => match w with
    | .slwt a b => some (4, slwtBody a b)
    | _ => none)

/-! ## Monitor and wait (03 R82, 07 R203) -/

def execSmon (g : Guard) (a : SReg) (s : State) :=
  scalarWord g 4 noCheck (fun e s =>
    match scalarAccess e s (e.st.rd a).toNat 1 .read with
    | .error x => x
    | .ok pa => .done (s.modStrand e.sid fun st => { st with watch := some ⟨lineOf pa, false, false⟩ })) s

/-- The wait ends with a reason; every pending event is cleared, and the watch stays armed. -/
def wake (s : State) (e : Env) (d : SReg) (reason : Nat) : Eff :=
  .done (s.modStrand e.sid fun st =>
    { st.wr d (BitVec.ofNat 64 reason) with watch := st.watch.map fun w => { w with wrote := false, invalidated := false } })

/-- The pending event with the lowest code: 0 WRITE, 1 INVALIDATE; with no watch armed 3 LOST. -/
def pendingReason (st : Strand) : Option Nat :=
  match st.watch with
  | none => some 3
  | some w => if w.wrote then some 0 else if w.invalidated then some 1 else none

/-- A line that has been evicted from the watch since SMON ends the wait at once; whether it has is free (log 27). -/
def execSmwait (g : Guard) (d a : SReg) (s : State) :=
  scalarWord g 4 noCheck (fun e s =>
    match pendingReason e.st with
    | some r => wake s e d r
    | none =>
      if !Config.watchKept s.ticks then wake s e d 1
      else if e.st.rd a = 0 then wake s e d 2 else .wait s (.smwait d (s.cycle + (e.st.rd a).toNat))) s

def execSmdis (g : Guard) (s : State) :=
  scalarWord g 4 noCheck (fun e s => .done (s.modStrand e.sid fun st => { st with watch := none })) s

/-- An event of R82 wakes the strand; one that nothing recorded is the eviction of the line from the watch (log 27). -/
def execSmwaitWake (sid : StrandId) (s : State) : Host.Outcome State Fault Refusal :=
  .next (resumeWord s sid fun e w => match w with
    | .smwait d _ => some (4, fun e' s' => wake s' e' d ((pendingReason e.st).getD 1))
    | _ => none)

def execSmwaitTimeout (sid : StrandId) (s : State) : Host.Outcome State Fault Refusal :=
  .next (resumeWord s sid fun e w => match w with
    | .smwait d t => if t ≤ s.cycle then some (4, fun e' s' => wake s' e' d ((pendingReason e.st).getD 2)) else none
    | _ => none)

/-! ## Timelines (04 R105, 07 R204) -/

def needHandle (h : Nat) : Env → State → Option Code :=
  fun e s => if (handleQueue s e h).isSome then none else some .illegalOperand

def stlwaitBody (h : Fin 16) (b : SReg) (e : Env) (s : State) : Eff :=
  match handleQueue s e h.val with
  | none => .fault s { code := .illegalOperand }
  | some k => if (e.st.rd b).toNat ≤ reached s k then .done s else .wait s (.stlwait h b)

def stlthrBody (h : Fin 16) (b : SReg) (e : Env) (s : State) : Eff :=
  match handleQueue s e h.val with
  | none => .fault s { code := .illegalOperand }
  | some k => if incompleteOf s k e.sid ≤ (e.st.rd b).toNat then .done s else .wait s (.stlthr h b)

def execStlwait (g : Guard) (h : Fin 16) (b : SReg) (s : State) := scalarWord g 4 (needHandle h.val) (stlwaitBody h b) s
def execStlthr (g : Guard) (h : Fin 16) (b : SReg) (s : State) := scalarWord g 4 (needHandle h.val) (stlthrBody h b) s

def execStlrd (g : Guard) (d : SReg) (h : Fin 16) (s : State) :=
  scalarWord g 4 (needHandle h.val) (fun e s => match handleQueue s e h.val with
    | none => .fault s { code := .illegalOperand }
    | some k => .done (s.modStrand e.sid fun st => st.wr d (BitVec.ofNat 64 (reached s k)))) s

def execStlwaitReturn (sid : StrandId) (s : State) : Host.Outcome State Fault Refusal :=
  .next (resumeWord s sid fun _ w => match w with
    | .stlwait h b => some (4, stlwaitBody h b)
    | _ => none)

def execStlthrReturn (sid : StrandId) (s : State) : Host.Outcome State Fault Refusal :=
  .next (resumeWord s sid fun _ w => match w with
    | .stlthr h b => some (4, stlthrBody h b)
    | _ => none)

/-! ## Promotion (01 R22) -/

/-- A strand that has stayed ready for 64 cycles without issuing on a port is promoted there. -/
def execStrandPromotion (sid : StrandId) (s : State) : Host.Outcome State Fault Refusal :=
  .next (match s.env? sid with
    | some e =>
      let sc := decide (e.st.readySince + 64 ≤ s.cycle) && scalarReady s e
      let vc := decide (e.st.vecSince + 64 ≤ s.cycle) && (vectorReady s e 0 || vectorReady s e 1)
      s.modStrand sid fun st => { st with promoted := st.promoted || sc, vecPromoted := st.vecPromoted || vc }
    | none => s)

end Sys2Proof.Machine
end

