-- ==== Sys2Proof/Machine/CopyEngine.lean ====
section
/-! DEFINITION. The copy engine: layout records, the issue of CPY, and the chunks of a command (09 R242 to R254; 11 R286 to
R288; 12 R289 to R291). -/

namespace Sys2Proof.Machine

open Sys2Proof

/-! ## Formats (03 R77, 09 R247, R248) -/

/-- The lane type of a format code that holds one value. -/
def fmtTy : Nat → Option Ty
  | 1 => some .f32 | 2 => some .f16 | 3 => some .bf16 | 4 => some .e4m3 | 5 => some .e5m2
  | 6 => some .i8 | 7 => some .w8 | 8 => some .i32 | _ => none

/-- `decode(v)`: the exact value of an element's bits, but for NQ4. A pixel gives the value of one of its channels (log 30). -/
def decodeFmt (f bits : Nat) : FVal :=
  match fmtTy f with
  | some t => valueOf t bits
  | none => decodeF .f32 (pixelChannel f bits (Config.pixelLane f bits % 4))

/-- The last two steps of `Cvt`: rounding to nearest even, saturating into FP8, INT8 and W8. -/
def encodeFmt (f : Nat) (x : FVal) : Nat :=
  match fmtTy f with
  | some t => if Ty.isFp t then roundF (fmtOfTy t) x .rn (t == .e4m3 || t == .e5m2) else roundToInt t x .rn true
  | none => 0

/-! ## Layout records (09 R245) -/

def memFormatOk (f : Nat) : Bool := fmtKnown f

/-- The record of 64 bytes, or `none` where a field is out of range. The base's alignment depends on the command; a
ROWSCALE does not read the sizes and the memory format (12 R289). A box of 384 or 768 elements, for which R250 gives row sizes,
is out of the range of R245 (DESIGN CHOICE, log 165). -/
def parseLayout (rowScale : Bool) (bs : List Byte) : Option LayoutRec :=
  let f (o n : Nat) : Nat := fieldNat bs o n
  let sizes := (List.range 4).map fun i => f (8 + 4 * i) 4
  let boxes := (List.range 4).map fun i => f (36 + 2 * i) 2
  let ok := (rowScale || (sizes.all (fun x => decide (1 ≤ x) && decide (x ≤ 2 ^ 31)) && memFormatOk (f 52 1))) && boxes.all (fun x => decide (1 ≤ x) && decide (x ≤ 256))
    && decide (boxes.getD 1 0 * boxes.getD 2 0 * boxes.getD 3 0 ≤ 65536)
    && decide (f 53 1 ≤ 9) && bitOf (f 54 1) 7 && bitsOf (f 54 1) 1 6 == 0 && decide (f 55 1 ≤ 1)
    && f 60 4 == 0
  if !ok then none else some
    { base := f 0 8, size := sizes, stride := (List.range 3).map fun i => f (24 + 4 * i) 4, box := boxes,
      origin2 := signedOf 32 (f 44 4), origin3 := signedOf 32 (f 48 4), mem := f 52 1, near := f 53 1,
      transpose := bitOf (f 54 1) 0, swizzle := f 55 1, fill := f 56 4, bytes := bs }

/-! ## The shape of a command -/

namespace CopyCmd

variable (k : CopyCmd)

def b0 : Nat := k.layout.box.getD 0 1
def b1 : Nat := k.layout.box.getD 1 1
def b2 : Nat := k.layout.box.getD 2 1
def b3 : Nat := k.layout.box.getD 3 1

/-- Transforms that move bits unchanged. -/
def moves : Bool :=
  k.transform == .copy || k.transform == .transpose || (k.transform == .gatherRows && k.layout.mem == k.layout.near)

/-- Element sizes in half bytes: a raw side takes the other's, and a byte where both are raw (09 R247). -/
def memHalf : Nat :=
  if fmtHalf k.layout.mem ≠ 0 then fmtHalf k.layout.mem
  else if k.moves ∧ fmtHalf k.layout.near ≠ 0 then fmtHalf k.layout.near else 2

def nearHalf : Nat :=
  if fmtHalf k.layout.near ≠ 0 then fmtHalf k.layout.near
  else if k.moves ∧ fmtHalf k.layout.mem ≠ 0 then fmtHalf k.layout.mem else 2

def transposed : Bool := k.transform == .transpose || k.layout.transpose

def fifoCode : Nat := k.sb.toNat % 8

/-- A load of NQ4 into a B FIFO under COPY forms NQ4 B rows (09 R250). -/
def bRows : Bool := k.transform == .copy && k.fifo && k.layout.mem == 9 && decide (4 ≤ k.fifoCode)

def rowScale : Bool := k.transform == .rowScale

def origin0 : Int := signedOf 24 (bitsOf k.sa.toNat 16 24)
def origin1 : Int := signedOf 24 (bitsOf k.sa.toNat 40 24)

/-- The scratchpad offset of a row list or of row scales. -/
def listOff : Nat := if k.rowScale then bitsOf k.sa.toNat 24 24 else bitsOf k.sa.toNat 40 24

def tile : Nat := bitsOf k.sa.toNat 16 5

def nearRows : Nat := if k.transposed then k.b0 * k.b2 * k.b3 else k.b1 * k.b2 * k.b3
def nearCols : Nat := if k.transposed then k.b1 else k.b0

/-- Scratchpad offset named by S(b). -/
def nearBase : Nat := k.sb.toNat % 2 ^ 24

/-- Bytes of the near side. -/
def nearBytes : Nat := (k.nearRows * k.nearCols * k.nearHalf + 1) / 2

/-- 09 R251. -/
def chunkCount : Nat :=
  if k.rowScale then (k.b1 + 7) / 8
  else if k.fifo && k.transposed then (k.nearRows + 7) / 8
  else (k.b1 * k.b2 * k.b3 + 7) / 8

/-- The progress word (09 R251). -/
def progressWord : Nat := (k.progress + 65536 * k.chunks) % 2 ^ 32

end CopyCmd

/-- One element of a box: its coordinates and its place on the near side. -/
structure Elem where
  c0 : Nat
  c1 : Nat
  c2 : Nat
  c3 : Nat
  row : Nat
  col : Nat

/-- The elements of chunk `c`, in the order of the near bytes of a FIFO. -/
def chunkElems (k : CopyCmd) (c : Nat) : List Elem :=
  if k.fifo && k.transposed then
    ((List.range (min 8 (k.nearRows - 8 * c))).map fun i =>
      let r := 8 * c + i
      (List.range k.b1).map fun j => ⟨r % k.b0, j, r / k.b0 % k.b2, r / k.b0 / k.b2, r, j⟩).flatten
  else
    ((List.range (min 8 (k.b1 * k.b2 * k.b3 - 8 * c))).map fun i =>
      let n := 8 * c + i
      let c1 := n % k.b1
      let c2 := n / k.b1 % k.b2
      let c3 := n / k.b1 / k.b2
      (List.range k.b0).map fun j =>
        if k.transposed then ⟨j, c1, c2, c3, j + k.b0 * (c2 + k.b2 * c3), c1⟩ else ⟨j, c1, c2, c3, n, j⟩).flatten

/-- The place of an element on the near side, in half bytes (09 R249). -/
def nearOff (k : CopyCmd) (row col : Nat) : Nat :=
  let rowH := k.nearCols * k.nearHalf
  let off := row * rowH + col * k.nearHalf
  if k.layout.swizzle = 1 then
    let rb := rowH / 2
    let u := off / 2 % rb / 16
    2 * (row * rb + (u / 8 * 8 + (u % 8 ^^^ row % 8)) * 16 + off / 2 % 16) + off % 2
  else off

/-- Why a chunk does not go on. -/
inductive CopyStop
  | miss (va : Nat) (kind : AccessKind)
  | room
  | bad (f : Flt)

/-! ## The memory side -/

/-- Translation by the copy engine, with the world and privilege of the issuing strand (18 R340). -/
def copyLookup (s : State) (core : CoreId) (k : CopyCmd) (va : Nat) (kind : AccessKind) : Except CopyStop (Nat × FormatDesc) :=
  if 2 ^ 57 ≤ va then .error (.bad { code := .access, access := kind, addr := va })
  else match lookup s (.copyEngine core) core.die k.world k.priv k.walkFaults va kind with
    | .ok pa f => .ok (pa, f)
    | .miss => .error (.miss va kind)
    | .bad c => .error (.bad { code := c, access := kind, addr := va })

/-- Bytes of the memory side. -/
def copyRead (s : State) (core : CoreId) (k : CopyCmd) (va n : Nat) : State × Except CopyStop (List Byte) :=
  match copyLookup s core k va .read with
  | .error x => (s, .error x)
  | .ok (pa, _) =>
    if s.mem.poisoned pa n then (s, .error (.bad { code := .poison, access := .read, addr := va }))
    else
      let r := readDie s core.die k.world pa n
      (r.1, .ok r.2)

/-- The check of a page's descriptor against the record's memory format: each access of the memory side decodes by it
(09 R245, 03 R77, R78). -/
def descOk (k : CopyCmd) (f : FormatDesc) (va : Nat) : Bool :=
  f.valid && (if f.format = 0 then k.layout.mem != 9 else f.format == k.layout.mem && decide (f.region ≤ va))

/-- q and S of the block and superblock of an NQ4 element, by its number in half bytes from the region base (02 R63). -/
def scaleOf (s : State) (core : CoreId) (k : CopyCmd) (f : FormatDesc) (half : Nat) : State × Except CopyStop (Nat × W32) :=
  let e := half - 2 * f.region
  let at' := f.scaleBase + e / 16384 * f.scaleStride
  match copyRead s core k (at' + e % 16384 / 64) 1 with
  | (s, .error x) => (s, .error x)
  | (s, .ok q) => match copyRead s core k (at' + 256) 4 with
    | (s, .error x) => (s, .error x)
    | (s, .ok b) => (s, .ok (leNat q, BitVec.ofNat 32 (leNat b)))

/-- The index of an element in memory (09 R249). `list` is the row list of GATHER_ROWS. -/
def elemIndex (k : CopyCmd) (list : List Nat) (x : Elem) : List Int :=
  [k.origin0 + x.c0,
    (if k.transform = .gatherRows then ((list.getD x.c1 0 : Nat) : Int) else k.origin1 + x.c1),
    k.layout.origin2 + x.c2, k.layout.origin3 + x.c3]

def elemInside (k : CopyCmd) (g : List Int) : Bool :=
  (List.range 4).all fun d => decide (0 ≤ g.getD d 0) && decide (g.getD d 0 < (k.layout.size.getD d 0 : Nat))

/-- The memory address of an element, in half bytes. -/
def elemAddr (k : CopyCmd) (g : List Int) : Nat :=
  let n (d : Nat) : Nat := (g.getD d 0).toNat
  2 * k.layout.base + n 0 * k.memHalf
    + 2 * (n 1 * k.layout.stride.getD 0 0 + n 2 * k.layout.stride.getD 1 0 + n 3 * k.layout.stride.getD 2 0)

/-- The checks of one element's address: alignment, translation, descriptor. -/
def elemPlace (s : State) (core : CoreId) (k : CopyCmd) (h : Nat) (kind : AccessKind) : Except CopyStop (Nat × FormatDesc) :=
  let va := h / 2
  let n := k.memHalf / 2
  if 2 ^ 57 ≤ va then .error (.bad { code := .access, access := kind, addr := va })
  else if 2 ≤ n ∧ va % n ≠ 0 then .error (.bad { code := .align, access := kind, addr := va })
  else match copyLookup s core k va kind with
    | .error x => .error x
    | .ok (pa, f) =>
      if !descOk k f va then .error (.bad { code := .access, access := kind, addr := va }) else .ok (pa, f)

/-- The bits of an element in memory. -/
def elemBits (s : State) (core : CoreId) (k : CopyCmd) (h : Nat) : State × Except CopyStop (Nat × FormatDesc) :=
  match elemPlace s core k h .read with
  | .error x => (s, .error x)
  | .ok (_, f) => match copyRead s core k (h / 2) (max 1 (k.memHalf / 2)) with
    | (s, .error x) => (s, .error x)
    | (s, .ok bs) => (s, .ok (if k.memHalf = 1 then bitsOf (leNat bs) (4 * (h % 2)) 4 else leNat bs, f))

/-- The scale of `Cvt`: 1, or the tile scale of CONVERT_SCALE. -/
def CopyCmd.cvtScale (k : CopyCmd) : FVal :=
  if k.transform = .convertScale then decodeF .f32 k.scale.toNat else .fin false 1 1

/-- The near bits that a loaded element gives. -/
def loadElem (s : State) (core : CoreId) (k : CopyCmd) (list : List Nat) (x : Elem) : State × Except CopyStop Nat :=
  let g := elemIndex k list x
  if !elemInside k g then (s, .ok (k.layout.fill % 2 ^ (4 * k.nearHalf)))
  else
    let h := elemAddr k g
    match elemBits s core k h with
    | (s, .error e) => (s, .error e)
    | (s, .ok (v, f)) =>
      if k.moves then (s, .ok v)
      else if k.layout.mem = 9 then
        match scaleOf s core k f h with
        | (s, .error e) => (s, .error e)
        | (s, .ok (q, sc)) =>
          (s, .ok (encodeFmt k.layout.near ((decodeF .f32 (nq4Element v q sc)).mul k.cvtScale)))
      else (s, .ok (encodeFmt k.layout.near ((decodeFmt k.layout.mem v).mul k.cvtScale)))

/-- The bits that a stored element leaves in memory. -/
def storeBits (s : State) (core : CoreId) (k : CopyCmd) (f : FormatDesc) (h v : Nat) : State × Except CopyStop Nat :=
  if k.moves then (s, .ok v)
  else if k.transform = .compress then
    match scaleOf s core k f h with
    | (s, .error e) => (s, .error e)
    | (s, .ok (q, sc)) => (s, .ok (nq4Code (decodeFmt k.layout.near v) q (decodeF .f32 sc.toNat)))
  else (s, .ok (encodeFmt k.layout.mem ((decodeFmt k.layout.near v).mul k.cvtScale)))

/-! ## The near side -/

/-- Writes one half byte of a byte memory. -/
def setHalf (m : Mem) (h v : Nat) : Mem :=
  let old := (m.get (h / 2)).toNat
  m.set (h / 2) (BitVec.ofNat 8 (if h % 2 = 0 then old / 16 * 16 + v % 16 else old % 16 + 16 * (v % 16)))

def getHalf (m : Mem) (h : Nat) : Nat := bitsOf (m.get (h / 2)).toNat (4 * (h % 2)) 4

/-- Writes `n` half bytes. -/
def setHalves (m : Mem) (h n v : Nat) : Mem :=
  if n = 1 then setHalf m h v else m.writeNat (h / 2) (n / 2) v

def getHalves (m : Mem) (h n : Nat) : Nat := if n = 1 then getHalf m h else m.readNat (h / 2) (n / 2)

/-- Packs values of `n` half bytes each into bytes, low half first; the last byte is padded with zero. -/
def packHalves (n : Nat) (vs : List Nat) : List Byte :=
  if n = 1 then
    (List.range ((vs.length + 1) / 2)).map fun i => BitVec.ofNat 8 (vs.getD (2 * i) 0 % 16 + 16 * (vs.getD (2 * i + 1) 0 % 16))
  else (vs.map fun v => natLE (n / 2) v).flatten

/-- A failing word of the near side that the chunk reads. -/
def nearBad (g : Workgroup) (off n : Nat) (addr : Nat) : Except CopyStop Unit :=
  if badWord g.badScratch off n then .error (.bad { code := .poison, access := .read, addr := addr }) else .ok ()

/-- Loads every element of a list, in order. -/
def loadAll (core : CoreId) (k : CopyCmd) (list : List Nat) : List Elem → State → State × Except CopyStop (List Nat)
  | [], s => (s, .ok [])
  | x :: t, s => match loadElem s core k list x with
    | (s, .error e) => (s, .error e)
    | (s, .ok v) => match loadAll core k list t s with
      | (s, .error e) => (s, .error e)
      | (s, .ok vs) => (s, .ok (v :: vs))

/-- What a chunk leaves beside its writes: bytes pushed to the FIFO, the destination bytes counted, and the messages it fills. -/
structure Chunked where
  pushed : List Byte
  count : Nat
  msgs : List Nat := []

/-- The row list of GATHER_ROWS. -/
def rowList (g : Workgroup) (k : CopyCmd) : List Nat :=
  if k.transform = .gatherRows then (List.range k.b1).map fun i => g.scratch.readNat (k.listOff + 4 * i) 4 else []

/-- The words of scratchpad that runs of half bytes cover whole, by all of them together. -/
def wholeWords (offs : List Nat) (n : Nat) : List Nat :=
  let halves := (offs.map fun o => (List.range n).map fun i => o + i).flatten
  ((offs.map fun o => o / 8).eraseDups).filter fun w => (List.range 8).all fun i => halves.contains (8 * w + i)

/-- What a load reads for one chunk: the near bits of its elements (09 R249). -/
def loadRead (s : State) (core : CoreId) (k : CopyCmd) (g : Workgroup) : State × Except CopyStop (List Nat) :=
  match (if k.transform = .gatherRows then nearBad g k.listOff (4 * k.b1) k.listOff else .ok ()) with
  | .error x => (s, .error x)
  | .ok _ => loadAll core k (rowList g k) (chunkElems k k.progress) s

/-- The near writes of a load's chunk (09 R249, R251). -/
def loadWrite (s : State) (k : CopyCmd) (g : Workgroup) (vs : List Nat) : State × Chunked :=
  if k.fifo then
    let bs := packHalves k.nearHalf vs
    (s, ⟨bs, bs.length, k.msgs⟩)
  else
    let es := chunkElems k k.progress
    let place (x : Elem) : Nat := 2 * k.nearBase + nearOff k x.row x.col
    let put (m : Mem) (p : Elem × Nat) : Mem := setHalves m (place p.1) k.nearHalf p.2
    let m := (es.zip vs).foldl put g.scratch
    let s := s.modWg k.sid.wg fun g => { g with
      scratch := m
      badScratch := if g.badScratch = [] then [] else
        let words := wholeWords (es.map place) k.nearHalf
        g.badScratch.filter fun w => !words.contains w }
    (s, ⟨[], (es.length * k.nearHalf + 1) / 2, k.msgs⟩)

/-- The NQ4 B rows of a chunk (09 R250). -/
def bRowBytes (s : State) (core : CoreId) (k : CopyCmd) (es : List Elem) : State × Except CopyStop (List Byte) :=
  match loadAll core k [] es s with
  | (s, .error x) => (s, .error x)
  | (s, .ok vs) =>
    let p := (k.origin0 % 64).toNat / 32
    let nq := (k.b0 + 32 + 63) / 64
    let inside (x : Elem) : Bool := elemInside k (elemIndex k [] x)
    -- the scales of the first code of each entry that lies inside the tensor
    let step (acc : State × Except CopyStop (List (Nat × W32))) (j : Nat) : State × Except CopyStop (List (Nat × W32)) :=
      match acc with
      | (s, .error x) => (s, .error x)
      | (s, .ok l) => match es.find? fun x => (32 * p + x.c0) / 64 == j && inside x with
        | none => (s, .ok (l ++ [(0, 0)]))
        | some x =>
          let h := elemAddr k (elemIndex k [] x)
          match elemPlace s core k h .read with
          | .error e => (s, .error e)
          | .ok (_, f) => match scaleOf s core k f h with
            | (s, .error e) => (s, .error e)
            | (s, .ok q) => (s, .ok (l ++ [q]))
    match (List.range nq).foldl step (s, .ok []) with
    | (s, .error x) => (s, .error x)
    | (s, .ok qs) =>
      let sc := ((List.range nq).filterMap fun j =>
        if es.any fun x => (32 * p + x.c0) / 64 == j && inside x then some (qs.getD j (0, 0)).2 else none).headD 0
      let head := packHalves 1 vs ++ qs.map (fun q => BitVec.ofNat 8 q.1) ++ [BitVec.ofNat 8 p]
      let pad := List.replicate ((4 - head.length % 4) % 4) (0 : Byte)
      (s, .ok (head ++ pad ++ natLE 4 sc.toNat))

/-- What a load of NQ4 B rows reads for one chunk: the bytes of its rows. -/
def bRowRead (s : State) (core : CoreId) (k : CopyCmd) : State × Except CopyStop (List Nat) :=
  let rows := (List.range (min 8 (k.b1 * k.b2 * k.b3 - 8 * k.progress))).map fun i =>
    (chunkElems k k.progress).filter fun x => x.row == 8 * k.progress + i
  let r := rows.foldl (fun (acc : State × Except CopyStop (List Byte)) es =>
    match acc with
    | (s, .error x) => (s, .error x)
    | (s, .ok bs) => match bRowBytes s core k es with
      | (s, .error x) => (s, .error x)
      | (s, .ok b) => (s, .ok (bs ++ b))) (s, .ok [])
  match r with
  | (s, .error x) => (s, .error x)
  | (s, .ok bs) => (s, .ok (bs.map BitVec.toNat))

/-- What the next chunk of a load reads, if the command has not read it ahead: values or bytes. -/
def chunkRead (s : State) (core : CoreId) (k : CopyCmd) (g : Workgroup) : State × Except CopyStop (List Nat) :=
  if k.bRows then bRowRead s core k else loadRead s core k g

/-- What the next chunk of a load writes: what was read ahead, or else what it reads now. -/
def nextRead (s : State) (core : CoreId) (k : CopyCmd) (g : Workgroup) : State × Except CopyStop (List Nat) :=
  match k.ahead with
  | .load vs :: _ => (s, .ok vs)
  | _ => chunkRead s core k g

/-- A chunk of a load: what it read ahead or reads now, then its near writes (09 R251). -/
def loadChunk (s : State) (core : CoreId) (k : CopyCmd) (g : Workgroup) : State × Except CopyStop Chunked :=
  match nextRead s core k g with
  | (s, .error x) => (s, .error x)
  | (s, .ok vs) =>
    if k.bRows then (s, .ok ⟨vs.map (BitVec.ofNat 8), vs.length, k.msgs⟩)
    else let r := loadWrite s k g vs
      (r.1, .ok r.2)

/-- One of the values that an element or a scale has had since the issue (12 R290; log 9). -/
def racedValue (s : State) (ix : Nat) (old : List W32) (now : W32) : W32 :=
  match (now :: old).eraseDups with
  | [] | [_] => now
  | l => l.getD (Config.pick (choiceIx s ix 6) % l.length) now

/-- A chunk of ROWSCALE (12 R289, R290): an element or scale that has changed since the issue may read any of its values. -/
def rowScaleChunk (s : State) (k : CopyCmd) (g : Workgroup) : State × Except CopyStop Chunked :=
  let rows := (List.range (min 8 (k.b1 - 8 * k.progress))).map fun i => 8 * k.progress + i
  let bad := rows.any fun r => badWord g.badScratch (k.listOff + 4 * r) 4 || badWord g.badTiles (tileOff k.tile r 0) (4 * k.b0)
  if bad then (s, .error (.bad { code := .poison, access := .read })) else
  let bs := (rows.map fun r =>
    let sc := racedValue s (k.listOff + 4 * r) (k.snapScale.map fun l => l.getD r 0) (BitVec.ofNat 32 (g.scratch.readNat (k.listOff + 4 * r) 4))
    ((List.range k.b0).map fun c =>
      let v := racedValue s (2 ^ 24 + tileOff k.tile r c) (k.snap.map fun l => l.getD (r * k.b0 + c) 0) (BitVec.ofNat 32 (tileRead g k.tile r c))
      natLE (k.nearHalf / 2) (encodeFmt k.layout.near ((decodeF .f32 v.toNat).mul (decodeF .f32 sc.toNat)))).flatten).flatten
  (s, .ok ⟨bs, bs.length, k.msgs⟩)

/-- One store of a chunk: where its element goes and the bits it leaves. -/
def storePlan (core : CoreId) (k : CopyCmd) (g : Workgroup) :
    List Elem → State → State × Except CopyStop (List (Nat × Nat × Nat))
  | [], s => (s, .ok [])
  | x :: t, s =>
    let ix := elemIndex k [] x
    if !elemInside k ix then storePlan core k g t s
    else
      let h := elemAddr k ix
      let o := 2 * k.nearBase + nearOff k x.row x.col
      match elemPlace s core k h .write with
      | .error e => (s, .error e)
      | .ok (pa, f) => match nearBad g (o / 2) (max 1 (k.nearHalf / 2)) (o / 2) with
        | .error e => (s, .error e)
        | .ok _ => match storeBits s core k f h (getHalves g.scratch o k.nearHalf) with
          | (s, .error e) => (s, .error e)
          | (s, .ok v) => match storePlan core k g t s with
            | (s, .error e) => (s, .error e)
            | (s, .ok l) => (s, .ok ((pa, h, v) :: l))

/-- One store joins the runs of bytes of its chunk: a half byte goes into its byte, which has the other half as it stands. -/
def joinStore (core : CoreId) (k : CopyCmd) (acc : State × List (Nat × List Byte)) (p : Nat × Nat × Nat) : State × List (Nat × List Byte) :=
  let half (old : Nat) : Byte := BitVec.ofNat 8 (if p.2.1 % 2 = 0 then old / 16 * 16 + p.2.2 % 16 else old % 16 + 16 * (p.2.2 % 16))
  if k.memHalf ≠ 1 then (acc.1, acc.2 ++ [(p.1, natLE (k.memHalf / 2) p.2.2)]) else
  match acc.2.find? fun x => x.1 = p.1 with
  | some x => (acc.1, acc.2.map fun y => if y.1 = p.1 then (y.1, [half (leNat x.2)]) else y)
  | none =>
    if isRemote p.1 then
      let r := readDie acc.1 core.die k.world p.1 1
      (r.1, acc.2 ++ [(p.1, [half (leNat r.2)])])
    else
      let s := acc.1.homeLine core.die (lineOf p.1)
      (s, acc.2 ++ [(p.1, [half (s.mem.home.get p.1).toNat])])

/-- A run of bytes for a remote window goes into the message that the command fills for it, up to 4 MiB, else into a new one
(19 R357). A window with no entry reaches no peer (log 21). -/
def fillMessage (k : CopyCmd) (acc : State × List Nat) (p : Nat × List Byte) : State × List Nat :=
  match windowOf acc.1 p.1 with
  | none => acc
  | some w =>
    let parts := packetsOf (w.offset + bitsOf p.1 0 39) p.2
    let size (m : OutMessage) : Nat := (m.parts.map fun x => x.2.length).foldl (· + ·) 0
    match acc.1.rma.out.find? fun m => acc.2.contains m.num && decide (m.window = w) && decide (size m + p.2.length ≤ 4 * 2 ^ 20) with
    | some m =>
      (noteSent { acc.1 with rma := { acc.1.rma with
        out := acc.1.rma.out.map fun x => if x.num = m.num then { x with parts := x.parts ++ parts } else x } } w.port w.peer (m.num + m.parts.length * 2 ^ 16) parts, acc.2)
    | none =>
      let s := acc.1.modStrand k.sid fun st => { st with unackSys := st.unackSys + 1 }
      (newMessage s k.world (some k.sid) w .write parts true, acc.2 ++ [s.rma.next])

/-- The memory writes of a chunk: into the stacks, whole sectors with fresh check bits (18 R351), and into messages. -/
def storeRuns (s : State) (core : CoreId) (k : CopyCmd) (runs : List (Nat × List Byte)) : State × List Nat :=
  let near := runs.filter fun p => !isRemote p.1
  let s := (near.foldl (fun s p => s.performAt core.die k.world p.1 p.2) s).covered near
  (mergeRuns (runs.filter fun p => isRemote p.1)).foldl (fillMessage k) (s, k.msgs)

/-- The stores of the next chunk: read ahead, or else read now. -/
def nextStores (s : State) (core : CoreId) (k : CopyCmd) (g : Workgroup) : State × Except CopyStop (List (Nat × Nat × Nat)) :=
  match k.ahead with
  | .store l :: _ => (s, .ok l)
  | _ => storePlan core k g (chunkElems k k.progress) s

/-- A chunk of a store: elements outside the tensor are neither written nor counted. An odd number of half bytes counts as one
byte more than its pairs (log 143). -/
def storeChunk (s : State) (core : CoreId) (k : CopyCmd) (g : Workgroup) : State × Except CopyStop Chunked :=
  match nextStores s core k g with
  | (s, .error x) => (s, .error x)
  | (s, .ok l) =>
    let r := l.foldl (joinStore core k) (s, [])
    let t := storeRuns r.1 core k r.2
    (t.1, .ok ⟨[], (l.length * k.memHalf + 1) / 2, t.2⟩)

/-! ## A chunk of a command -/

/-- Capacity of an operand FIFO (03 R85). -/
def fifoSize (code : Nat) : Nat := if code < 4 then 65536 else 131072

def fifoOf (g : Workgroup) (world code : Nat) : Fifo := (g.fifos.get? code).getD ⟨world, [], []⟩

/-- The record of a copy command's fault (18 R347). -/
def copyRec (s : State) (core : CoreId) (q : Fin 4) (k : CopyCmd) (f : Flt) : FaultRec :=
  let g := s.wgs.get? k.sid.wg
  mkRec (.copy core q k.num) { f with second := k.progressWord } ((g.map Workgroup.launch).getD 0)
    ((g.map Workgroup.index).getD 0) 255 core k.pc k.num

/-- The granules of scratchpad that a chunk touches, but for its landing word's. -/
def chunkGranules (k : CopyCmd) : List Nat :=
  let near := if k.fifo || k.rowScale then [] else
    ((chunkElems k k.progress).map fun x => (2 * k.nearBase + nearOff k x.row x.col) / 131072).eraseDups
  let list := if k.rowScale then scratchGranules (k.listOff + 32 * k.progress) (4 * min 8 (k.b1 - 8 * k.progress))
    else if k.transform = .gatherRows then scratchGranules k.listOff (4 * k.b1) else []
  near ++ list

/-- Whether every granule of scratchpad or tiles that a chunk touches, its landing word's too, carries the command's world (16
R308). -/
def chunkTagsOk (s : State) (k : CopyCmd) (g : Workgroup) : Bool :=
  let land := match k.land with | some o => scratchGranules o 32 | none => []
  engineTagsOk s g k.world (chunkGranules k ++ land) (if k.rowScale then [k.tile] else [])

/-- The near or memory writes of the chunk in turn: a fault that an early read held, the tags of granules, then a FIFO of another
world, which raises WORLD (11 R286, 16 R308). -/
def chunkEffect (s : State) (core : CoreId) (k : CopyCmd) (g : Workgroup) : State × Except CopyStop Chunked :=
  match k.ahead with
  | .fault f :: _ => (s, .error (.bad f))
  | _ =>
  if !chunkTagsOk s k g then (s, .error (.bad { code := .world }))
  else if k.fifo && (fifoOf g k.world k.fifoCode).world != k.world then (s, .error (.bad { code := .world, detail := 4 }))
  else if (match k.land with | some o => badWord g.badScratch o 24 | none => false) then
    (s, .error (.bad { code := .poison, access := .read, addr := k.land.getD 0 }))
  else if k.rowScale then rowScaleChunk s k g
  else if k.store then storeChunk s core k g
  else loadChunk s core k g

/-- A landing word counts destination bytes; a chunk of none makes no arrival (03 R81). -/
def landArrival (s : State) (wg : Nat) (off : Option Nat) (n : Nat) : State × Bool :=
  match off, s.wgs.get? wg with
  | some o, some g =>
    if n = 0 then (s, false) else
    let r := (landRead g o).arrive n
    (scratchWrite s wg o r.1.bytes, r.2)
  | _, _ => (s, false)

/-- The follow-on word enters the array's order once the last chunk has been pushed and counted (09 R254). -/
def handOver (s : State) (core : CoreId) (q : Fin 4) (k : CopyCmd) (w : W32) (m : MatFields) : State :=
  let id := s.nextId
  let c : MatCmd :=
    { id := id, num := none, copy := some (core, q, k.num), sid := k.sid, pc := k.pc, word := w, world := k.world,
      kind := .mma m, index := 0, pair := .solo, started := false, aRows := [], bRows := [], state := .ready }
  let s := { s with nextId := id + 1 }.modWg k.sid.wg fun g => { g with matrix := { g.matrix with cmds := g.matrix.cmds ++ [c] } }
  modCopyCmd s core q k.num fun k => { k with followDone := true }

def dropCopy (s : State) (core : CoreId) (q : Fin 4) (num : Nat) : State :=
  let x := s.copyQ core q
  s.setCopyQ core q { x with cmds := x.cmds.filter fun k => k.num ≠ num }

/-- One chunk, performed whole: its bytes, then its arrival, then progress. -/
def runChunk (s : State) (core : CoreId) (q : Fin 4) (k : CopyCmd) (g : Workgroup) : State :=
  match chunkEffect s core k g with
  | (s, .error (.miss va kind)) => s.ask ⟨core.die, .copyEngine core, .copy core q k.num, k.world, k.priv, va, kind⟩
  | (s, .error .room) => s
  | (s, .error (.bad f)) => raise s k.world core.die (copyRec s core q k f)
  | (s, .ok c) =>
    let fifo := fifoOf g k.world k.fifoCode
    if k.fifo && decide (fifoSize k.fifoCode < fifo.bytes.length + c.pushed.length) then s
    else
      let s := modCopyCmd s core q k.num fun k => { k with msgs := c.msgs }
      let s := if k.fifo then s.modWg k.sid.wg fun g =>
        { g with fifos := g.fifos.set k.fifoCode { fifo with bytes := fifo.bytes ++ c.pushed } } else s
      let a := landArrival s k.sid.wg k.land c.count
      if a.2 then raise a.1 k.world core.die (copyRec a.1 core q k { code := .land, addr := k.land.getD 0 })
      else
        let s := modCopyCmd a.1 core q k.num fun k => { k with progress := k.progress + 1, ahead := k.ahead.drop 1 }
        if k.progress + 1 < k.chunks then s
        else match k.follow with
          | some (w, m) => handOver s core q k w m
          | none => dropCopy (closeMessages s c.msgs) core q k.num

/-! ## Reading ahead (09 R251, 11 R286, 12 R291) -/

/-- The commands of a queue that can read a chunk ahead: loads and stores with a chunk left that is neither read nor next to be
performed, while the queue runs and its head does not sleep (11 R287, 09 R243). A ROWSCALE reads in its turn (12 R290). -/
def canReadAhead (x : CopyQueue) : List CopyCmd :=
  match x.cmds.find? fun k => decide (k.progress < k.chunks) with
  | none => []
  | some head =>
    if x.halted || decide (head.state ≠ .ready) then [] else
    x.cmds.filter fun k => decide (k.state = .ready) && !k.rowScale && decide (k.progress + k.ahead.length < k.chunks)
      && !(k.ahead.isEmpty && k.num == head.num) && (match k.ahead.getLast? with | some (.fault _) => false | _ => true)

/-- What a command reads for its next chunk, ahead of its turn: what the chunk will write, or the fault that the read meets. -/
def readEarly (s : State) (core : CoreId) (k : CopyCmd) (g : Workgroup) : State × Except CopyStop AheadRead :=
  if !chunkTagsOk s k g then (s, .error (.bad { code := .world }))
  else if k.store then match storePlan core k g (chunkElems k k.progress) s with
    | (s, .ok l) => (s, .ok (.store l))
    | (s, .error x) => (s, .error x)
  else match chunkRead s core k g with
    | (s, .ok vs) => (s, .ok (.load vs))
    | (s, .error x) => (s, .error x)

/-- A command may read its next chunk ahead, of earlier commands of its queue too; a fault that the read meets is held until the
chunk's turn (11 R286; log 137). -/
def readAhead (s : State) (core : CoreId) (q : Fin 4) : State :=
  match canReadAhead (s.copyQ core q) with
  | [] => s
  | l =>
    let n := Config.readAhead (choiceIx s (4 * core.core.val + q.val) 7)
    if n = 0 then s else
    match l[(n - 1) % l.length]? with
    | none => s
    | some k => match s.wgs.get? k.sid.wg with
      | none => s
      | some g =>
        let keep (s : State) (x : AheadRead) : State := modCopyCmd s core q k.num fun k => { k with ahead := k.ahead ++ [x] }
        match readEarly s core { k with progress := k.progress + k.ahead.length } g with
        | (s', .ok x) => keep s' x
        | (s', .error (.bad f)) => keep s' (.fault f)
        | (s', .error (.miss va kind)) => s'.ask ⟨core.die, .copyEngine core, .copy core q k.num, k.world, k.priv, va, kind⟩
        | (_, .error .room) => s

/-- The oldest command of a queue that has chunks left performs its next one (12 R291, 11 R287). -/
def execCopyChunk (core : CoreId) (q : Fin 4) (s : State) : Host.Outcome State Fault Refusal :=
  .next (
    let x := s.copyQ core q
    match x.cmds.find? fun k => decide (k.progress < k.chunks) with
    | none => s
    | some k => match s.wgs.get? k.sid.wg with
      | none => s
      | some g => if x.halted || decide (k.state ≠ .ready) || g.parked.isSome
          || (g.stopping && !g.matrix.cmds.any fun m => m.started && decide (m.state ≠ .abandoned)) then s
        else readAhead (runChunk s core q k g) core q)

/-! ## Issue (09 R245 to R247) -/

/-- The combinations that R247 and R289 accept. -/
def comboOk (k : CopyCmd) : Bool :=
  let m := k.layout.mem
  let n := k.layout.near
  let same := m == n || m == 0 || n == 0
  let nearConv := decide (1 ≤ n) && decide (n ≤ 8)
  let memConv := decide (1 ≤ m) && (if k.store then decide (m ≤ 8) else true)
  let dir := !(k.fifo && k.store)
  let swz := k.layout.swizzle == 0 || (!k.fifo && k.nearCols * k.nearHalf % 256 == 0)
  let flag := !k.layout.transpose || k.transform == .convert || k.transform == .convertScale || k.transform == .expand
  let nq := m != 9 || k.rowScale || (k.origin0 % 2 == 0 && k.b0 % 2 == 0)
  dir && (match k.transform with
    | .copy => same && flag && swz && nq
        && (!k.bRows || ([32, 48, 96, 256, 384, 768].contains k.b0 && k.origin0 % 32 == 0))
    | .transpose => same && flag && swz && nq
    | .convert | .convertScale => nearConv && memConv && swz && nq
    | .rowScale => k.fifo && nearConv && decide (k.b0 ≤ 128) && decide (k.b1 ≤ 128) && k.b2 == 1 && k.b3 == 1
        && !k.layout.transpose && k.layout.swizzle == 0
    | .expand => !k.store && m == 9 && decide (1 ≤ n) && decide (n ≤ 3) && swz && nq
    | .compress => k.store && !k.fifo && (n == 1 || n == 3) && m == 9 && flag && swz && nq
    | .gatherRows => !k.store && (m == n || (nearConv && memConv)) && k.b2 == 1 && k.b3 == 1 && flag && swz && nq)

/-- Alignment of the record's base to the element size (09 R245, R247); ROWSCALE does not read it. -/
def baseOk (k : CopyCmd) : Bool := k.rowScale || k.memHalf == 1 || k.layout.base % (k.memHalf / 2) == 0

/-- Where superblocks are counted from at an address (03 R77): the region base of its page's descriptor. `none` where the address
does not translate, or its page holds no NQ4. -/
def regionOfPage (s : State) (d : Fin 4) (world va : Nat) (priv : Bool) : Option Nat :=
  if 2 ^ 57 ≤ va then none else
  match walk s d world va .read priv with
  | (s, .ok _ _ _ _ _ _ index) =>
    let f := (readDesc s d world index).2
    if f.valid && f.format == 9 then some f.region else none
  | (_, .bad _) => none

/-- The codes of each row that lie in the tensor lie within one superblock, counted from the region base (09 R250, 03 R77). A row
that does not translate at issue meets its fault in its chunk (DEDUCED, log 144). -/
def superblockOk (s : State) (core : CoreId) (k : CopyCmd) : Bool :=
  let first := (- k.origin0).toNat
  let count := (((k.layout.size.getD 0 0 : Nat) : Int) - k.origin0).toNat
  !k.bRows || decide (min k.b0 count ≤ first) || (List.range (k.b1 * k.b2 * k.b3)).all fun n =>
    let g := elemIndex k [] ⟨first, n % k.b1, n / k.b1 % k.b2, n / k.b1 / k.b2, 0, 0⟩
    !elemInside k g || (let h := elemAddr k g
      match regionOfPage s core.die k.world (h / 2) k.priv with
      | none => true
      | some r => decide (h < 2 * r) || (h - 2 * r) / 16384 == (h - 2 * r + min k.b0 count - 1 - first) / 16384)

/-- The zero fields of S(a) and S(b) (09 R246). -/
def selectorOk (t : Transform) (fifo : Bool) (sa sb : Nat) : Bool :=
  (t != .rowScale || (bitsOf sa 21 3 == 0 && bitsOf sa 48 16 == 0))
    && (if fifo then decide (sb < 6) else bitsOf sb 24 39 == 0)

/-- The last scratchpad byte that a command touches, plus one. -/
def touchedEnd (k : CopyCmd) : Nat :=
  let near := if k.fifo then 0 else k.nearBase + k.nearBytes
  let list := if k.rowScale || k.transform == .gatherRows then k.listOff + 4 * k.b1 else 0
  max near list

/-- Tiles of a matrix word within the allocation (02 R52, 06 R172). -/
def matTilesOk (e : Env) (m : MatFields) : Bool :=
  decide (m.tile.val + (if m.wide then 1 else 0) < e.accTiles)

def fifoBound (e : Env) (code : Nat) : Bool := bitOf e.l.desc.fifos code

/-- The checks of a follow-on word, at its copy (09 R246). -/
def followCheck (e : Env) (follow : W32) : Except Code MatFields :=
  match decodeScalar follow.toNat 0 with
  | .ok (.mma _ m) =>
    if !matTilesOk e m then .error .illegalOperand
    else if fifoBound e m.fa.val && fifoBound e (4 + m.fb.val) then .ok m
    else .error .fifo
  | _ => .error .illegalInstr

/-- The layout record that a handle names in the strand's context (09 R245). -/
def layoutOf (s : State) (e : Env) (h : Nat) (rowScale : Bool) : Option LayoutRec :=
  match (s.contexts.get? e.l.ctx).bind fun c => c.img.records[h]? with
  | some bs => if h < 4096 then parseLayout rowScale bs else none
  | none => none

/-- The queue's tag: a queue with commands of another world refuses the word (16 R308; log 32). -/
def queueWorldOk (world : Option Nat) (busy : Bool) (mine : Nat) : Bool :=
  match world with
  | some w => w == mine || !busy
  | none => true

/-- A list of values with the latest at its end, where it differs from the one before. -/
def noteValues (l : List (List W32)) (v : List W32) : List (List W32) := if l.getLast? = some v then l else l ++ [v]

/-- The tile words and row scales of a ROWSCALE copy as they stand, at its issue and after each step until it is done (12 R290). -/
def snapshots (k : CopyCmd) (g : Workgroup) : CopyCmd :=
  if k.rowScale && decide (k.progress < k.chunks) then
    { k with
      snap := noteValues k.snap (((List.range k.b1).map fun r => (List.range k.b0).map fun c => BitVec.ofNat 32 (tileRead g k.tile r c)).flatten)
      snapScale := noteValues k.snapScale ((List.range k.b1).map fun r => BitVec.ofNat 32 (g.scratch.readNat (k.listOff + 4 * r) 4)) }
  else k

/-- Every ROWSCALE copy that is under way takes note of what a step has written. -/
def noteRaces (s : State) : State :=
  if s.copyQs.any fun q => q.2.cmds.any CopyCmd.rowScale then
    let one (k : CopyCmd) : CopyCmd := match s.wgs.get? k.sid.wg with
      | some g => snapshots k g
      | none => k
    let qs : Assoc (CoreId × Fin 4) CopyQueue := s.copyQs.map fun q => (q.1, { q.2 with cmds := q.2.cmds.map one })
    { s with copyQs := qs }
  else s

/-- The issue checks of CPY in their order; the command that would be accepted. A command of more than 8,192 chunks is refused with
its record (09 R251; log 136). -/
def copyIssue (a b c : SReg) (t : Transform) (fifo : Bool) (follow : Option W32) (word : W32) (e : Env) (s : State) :
    Except Code CopyCmd :=
  let q := e.l.desc.copyQueue
  if follow.isSome && !fifo then .error .illegalInstr else
  let fm : Except Code (Option (W32 × MatFields)) := match follow with
    | none => .ok none
    | some w => match followCheck e w with
      | .ok m => .ok (some (w, m))
      | .error x => .error x
  match fm with
  | .error x => .error x
  | .ok f =>
    let sa := e.st.rd a
    let sb := e.st.rd b
    let sc := e.st.rd c
    if !selectorOk t fifo sa.toNat sb.toNat then .error .illegalOperand else
    match layoutOf s e (sa.toNat % 65536) (t == .rowScale) with
    | none => .error .illegalOperand
    | some r =>
      let land := if c = 0 then none else some sc.toNat
      let k : CopyCmd :=
        { num := (s.copyQ e.core q).next, sid := e.sid, pc := e.st.pc, world := e.world, priv := e.priv, word := word,
          follow := f, followDone := false, sa := sa, sb := sb, sc := sc, transform := t, fifo := fifo,
          store := !fifo && sb.getLsbD 63, layout := r, scale := e.st.tileScale, land := land, progress := 0, chunks := 0,
          snap := [], snapScale := [], state := .ready, walkFaults := [], ahead := [], msgs := [] }
      if !baseOk k || !comboOk k || !superblockOk s e.core k || decide (8192 < k.chunkCount) then .error .illegalOperand
      else if k.rowScale && decide (e.accTiles ≤ k.tile) then .error .illegalOperand
      else if (match land with | some o => o % 32 != 0 | none => false) then .error .align
      else if (k.rowScale || t == .gatherRows) && k.listOff % 4 != 0 then .error .align
      else if (match land with | some o => decide (e.scratchBytes < o + 32) | none => false)
          || decide (e.scratchBytes < touchedEnd k) then .error .access
      else if fifo && !fifoBound e k.fifoCode then .error .fifo
      else if !queueWorldOk (s.copyQ e.core q).world (!(s.copyQ e.core q).cmds.isEmpty) e.world then .error .world
      else .ok (snapshots { k with chunks := k.chunkCount } e.wg)

/-- Acceptance: the queue's next number; the strand's earlier stores are performed first (04 R106, 09 R242). -/
def acceptCopy (s : State) (e : Env) (k : CopyCmd) : State :=
  let s := drain s e.sid
  let n := e.l.desc.copyQueue
  let q := s.copyQ e.core n
  let s := s.setCopyQ e.core n { q with world := some e.world, next := q.next + 1, cmds := q.cmds ++ [k] }
  let s := s.modWg e.sid.wg fun g =>
    { g with lastCopy := (e.core, n, k.num) :: g.lastCopy.filter fun x => !(decide (x.1 = e.core) && decide (x.2.1 = n)) }
  readAhead s e.core n

/-- Issue, then acceptance. `i` is the word, executed again where the queue is full. -/
def cpyBody (i : Instr) (a b c : SReg) (t : Transform) (fifo : Bool) (follow : Option W32) (word : W32) (e : Env) (s : State) :
    Eff :=
  match copyIssue a b c t fifo follow word e s with
  | .error x => .fault s { code := x, detail := if x = .world then 3 else 0 }
  | .ok k =>
    let q := s.copyQ e.core e.l.desc.copyQueue
    if Config.engineQueueEntries ≤ q.cmds.length then .wait s (.engine i)
    else .done (acceptCopy s e k)

def cpyWord (a b c : SReg) (t : Transform) (fifo : Bool) (follow : Bool) : W32 :=
  BitVec.ofNat 32 (0x20 * 2 ^ 22 + a.val * 2 ^ 17 + b.val * 2 ^ 12 + c.val * 2 ^ 7 + t.code * 8 + b2n fifo * 4 + b2n follow * 2)

def cpyAny (i : Instr) (a b c : SReg) (t : Transform) (fifo : Bool) (follow : Option W32) : Env → State → Eff :=
  cpyBody i a b c t fifo follow (cpyWord a b c t fifo follow.isSome)

def execCpy (g : Guard) (a b c : SReg) (t : Transform) (fifo : Bool) (s : State) :=
  scalarWord g 4 (needRole .copy) (cpyAny (.cpy g a b c t fifo) a b c t fifo none) s

def execCpyThen (g : Guard) (a b c : SReg) (t : Transform) (fifo : Bool) (follow : W32) (s : State) :=
  scalarWord g 8 (needRole .copy) (cpyAny (.cpyThen g a b c t fifo follow) a b c t fifo (some follow)) s

def execCpyset (g : Guard) (a : SReg) (s : State) :=
  scalarWord g 4 (needRole .copy)
    (fun e s => .done (s.modStrand e.sid fun st => { st with tileScale := low32 (e.st.rd a) })) s

end Sys2Proof.Machine
end

