-- ==== Sys2Proof/Machine/MatrixEngine.lean ====
section
/-! DEFINITION. The matrix array: issue, the array's order, pairs, row pops, and the products (02 R66 to R68; 04 R107, R108;
06 R169 to R172; 09 R242 to R244, R254 to R259; 14 R295 to R297). -/

namespace Sys2Proof.Machine

open Sys2Proof

/-! ## Issue -/

/-- The tiles a word reads and those it writes (04 R108). -/
def matTiles (m : MatFields) : List Nat := if m.wide then [m.tile.val, m.tile.val + 1] else [m.tile.val]

def MatKind.writes : MatKind → List Nat
  | .mma m | .mmap m => matTiles m
  | .mzero t => [t.val]
  | .mguide d _ _ _ => [d.val]

def MatKind.reads : MatKind → List Nat
  | .mma m | .mmap m => if m.acc then matTiles m else []
  | .mzero _ => []
  | .mguide _ a b _ => [a.val, b.val]

def MatKind.fields? : MatKind → Option MatFields
  | .mma m | .mmap m => some m
  | _ => none

/-- Acceptance: the workgroup's queue gives its next number, and the word takes its place in the array's order (R295). -/
def acceptMat (s : State) (e : Env) (word : W32) (k : MatKind) : State :=
  let id := s.nextId
  let isPair : Bool := match k with | .mmap _ => true | _ => false
  let c : MatCmd :=
    { id := id, num := some e.wg.matrix.next, copy := none, sid := e.sid, pc := e.st.pc, word := word, world := e.world,
      kind := k, index := e.st.mmaps, pair := if isPair then .undecided else .solo, started := false, aRows := [],
      bRows := [], state := .ready }
  let s := { s with nextId := id + 1 }.modWg e.sid.wg fun g =>
    { g with matrix := { g.matrix with next := g.matrix.next + 1, cmds := g.matrix.cmds ++ [c] } }
  if isPair then s.modStrand e.sid fun st => { st with mmaps := st.mmaps + 1 } else s

/-- The last steps of every matrix word's issue: the tags of its tiles' granules (16 R308; DEDUCED, log 82), then a queue of 64
commands makes the word wait (R242). -/
def matIssue (i : Instr) (word : W32) (k : MatKind) (e : Env) (s : State) : Eff :=
  if !(k.writes ++ k.reads).all (tileTagOk s e) then .fault s { code := .world }
  else if Config.engineQueueEntries ≤ e.wg.matrix.cmds.countP (fun c => c.num.isSome) then .wait s (.engine i)
  else .done (acceptMat s e word k)

/-- The role, then the tile numbers (06 R158, R169, R172). -/
def matCheck (tilesOk : Env → Bool) (e : Env) (_ : State) : Option Code :=
  if e.st.role ≠ .matrix then some .illegalInstr else if tilesOk e then none else some .illegalOperand

def fifosBound (e : Env) (m : MatFields) : Bool := fifoBound e m.fa.val && fifoBound e (4 + m.fb.val)

/-- Whether a strand belongs to a declared pair (R257). -/
def inPair (e : Env) : Bool := bitOf e.l.desc.pairs (e.sid.strand.val / 2)

def mmaWord (m : MatFields) : W32 := BitVec.ofNat 32 (0x22 * 2 ^ 22 + m.word 0)
def mmapWord (m : MatFields) : W32 := BitVec.ofNat 32 (0x23 * 2 ^ 22 + m.word 1)
def mzeroWord (t : TileNo) : W32 := BitVec.ofNat 32 (0x24 * 2 ^ 22 + t.val * 2 ^ 17)
def mguideWord (d a b : TileNo) (w : SReg) : W32 :=
  BitVec.ofNat 32 (0x25 * 2 ^ 22 + d.val * 2 ^ 17 + a.val * 2 ^ 12 + b.val * 2 ^ 7 + w.val * 4)

def mmaBody (i : Instr) (m : MatFields) (e : Env) (s : State) : Eff :=
  if !fifosBound e m then .fault s { code := .fifo } else matIssue i (mmaWord m) (.mma m) e s

def mmapBody (i : Instr) (m : MatFields) (e : Env) (s : State) : Eff :=
  if !fifosBound e m then .fault s { code := .fifo }
  else if !inPair e then .fault s { code := .pair }
  else matIssue i (mmapWord m) (.mmap m) e s

def mzeroBody (i : Instr) (t : TileNo) : Env → State → Eff := matIssue i (mzeroWord t) (.mzero t)

/-- w is captured at issue. -/
def mguideBody (i : Instr) (d a b : TileNo) (w : SReg) (e : Env) (s : State) : Eff :=
  matIssue i (mguideWord d a b w) (.mguide d a b (low32 (e.st.rd w))) e s

def tileOk (e : Env) (t : TileNo) : Bool := decide (t.val < e.accTiles)

def execMma (g : Guard) (m : MatFields) (s : State) :=
  scalarWord g 4 (matCheck fun e => matTilesOk e m) (mmaBody (.mma g m) m) s

def execMmap (g : Guard) (m : MatFields) (s : State) :=
  scalarWord g 4 (matCheck fun e => matTilesOk e m) (mmapBody (.mmap g m) m) s

def execMzero (g : Guard) (t : TileNo) (s : State) :=
  scalarWord g 4 (matCheck fun e => tileOk e t) (mzeroBody (.mzero g t) t) s

def execMguide (g : Guard) (d a b : TileNo) (w : SReg) (s : State) :=
  scalarWord g 4 (matCheck fun e => tileOk e d && tileOk e a && tileOk e b) (mguideBody (.mguide g d a b w) d a b w) s

/-! ## The array's order -/

def MatCmd.live (c : MatCmd) : Bool := decide (c.state ≠ .abandoned)

/-- R108: whether `y` waits behind an older `x`. -/
def tileConflict (x y : MatCmd) : Bool :=
  x.kind.writes.any (fun t => y.kind.reads.contains t || y.kind.writes.contains t)
    || x.kind.reads.any fun t => y.kind.writes.contains t

/-- The live words before a word, in the array's order. -/
def olderThan (g : Workgroup) (id : Nat) : List MatCmd := (g.matrix.cmds.takeWhile fun x => x.id ≠ id).filter MatCmd.live

/-- R108, apart from the word's partner. -/
def waitsBehind (g : Workgroup) (c : MatCmd) (partner : Nat) : Bool :=
  (olderThan g c.id).any fun x => x.id != partner && tileConflict x c

/-- A resident workgroup of a core and its word with an identity. -/
def matFind (s : State) (core : CoreId) (id : Nat) : Option (Nat × Workgroup × MatCmd) :=
  s.wgs.findSome? fun p =>
    if p.2.core = core ∧ p.2.parked.isNone then
      (p.2.matrix.cmds.find? fun c => c.id = id).map fun c => (p.1, p.2, c)
    else none

def matCmd? (g : Workgroup) (id : Nat) : Option MatCmd := g.matrix.cmds.find? fun c => c.id = id

/-- The queue whose number the word bears has halted (R243). -/
def matHalted (s : State) (g : Workgroup) (c : MatCmd) : Bool :=
  match c.copy with
  | some (k, q, _) => (s.copyQ k q).halted
  | none => g.matrix.halted

def usesFifo (c : MatCmd) (a : Bool) (n : Nat) : Bool :=
  match c.kind.fields? with
  | some m => if a then m.fa.val == n else m.fb.val == n
  | none => false

/-- Whether a word is at the head of the array's order for its FIFOs and tiles (R257). -/
def atHead (g : Workgroup) (c : MatCmd) (m : MatFields) : Bool :=
  (olderThan g c.id).all fun x =>
    !(tileConflict x c || usesFifo x true m.fa.val || usesFifo x false m.fb.val
      || x.kind.reads.any fun t => c.kind.reads.contains t)

/-! ## Pairs (R257, R296) -/

/-- The nth MMAP of the partner. -/
def matched (g : Workgroup) (c : MatCmd) : Option MatCmd :=
  g.matrix.cmds.find? fun x => x.live && decide (x.sid = partnerOf c.sid) && x.index == c.index
    && (match x.kind with | .mmap _ => true | _ => false)

def pairAgrees (m n : MatFields) : Bool :=
  decide (m.m = n.m) && decide (m.n = n.n) && m.eighth == n.eighth && decide (m.pair = n.pair)
    && decide (m.sparsity = n.sparsity) && decide (m.fb = n.fb) && decide (m.tile ≠ n.tile) && decide (m.fa ≠ n.fa)

def dropMat (s : State) (wg id : Nat) : State :=
  s.modWg wg fun g => { g with matrix := { g.matrix with cmds := g.matrix.cmds.filter fun c => c.id ≠ id } }

/-- The record of a matrix word, or of the copy command that carried it (01 R14). -/
def matRec (s : State) (wg : Nat) (g : Workgroup) (c : MatCmd) (f : Flt) : FaultRec :=
  match c.copy with
  | some (k, q, n) =>
    let pw := (((s.copyQ k q).cmds.find? fun x => x.num = n).map CopyCmd.progressWord).getD 0
    mkRec (.copy k q n) { f with second := pw } g.launch g.index 255 g.core c.pc n
  | none => mkRec (.matrix wg c.id) f g.launch g.index 255 g.core c.pc (c.num.getD 0)

/-- Two matched words that disagree: PAIR, with both numbers. While its record waits for an entry both words stand (18 R348). -/
def failPair (s : State) (wg : Nat) (g : Workgroup) (c d : MatCmd) : State :=
  let s := modMatCmd s wg d.id fun k => { k with state := .unwritten }
  raise s c.world g.core.die (matRec s wg g c { code := .pair, second := d.num.getD 0 })

def setPair (s : State) (wg id : Nat) (p : PairState) : State := modMatCmd s wg id fun c => { c with pair := p }

/-- The decision of an MMAP at its decision point. -/
def decidePair (s : State) (wg : Nat) (g : Workgroup) (c : MatCmd) (m : MatFields) : State :=
  match matched g c with
  | some d => match d.kind with
    | .mmap n =>
      if waitsBehind g c d.id || waitsBehind g d c.id then s
      else if pairAgrees m n then setPair (setPair s wg c.id (.paired d.id)) wg d.id (.paired c.id)
      else failPair s wg g c d
    | _ => s
  | none =>
    let gone := match s.strands.get? (partnerOf c.sid) with
      | some p => decide (p.ended ≠ .no) && decide (p.mmaps ≤ c.index)
      | none => true
    if gone && atHead g c m then setPair s wg c.id .solo else s

def execMmapDecision (core : CoreId) (id : Nat) (s : State) : Host.Outcome State Fault Refusal :=
  .next (match matFind s core id with
    | some (wg, g, c) => match c.kind with
      | .mmap m => if c.pair = .undecided ∧ c.state = .ready ∧ matHalted s g c = false then decidePair s wg g c m else s
      | _ => s
    | none => s)

/-! ## Faults of a running word (R255) -/

/-- A command fault abandons the word with no tile changed; of a pair, which is one operation, both (log 38). -/
def matFault (s : State) (wg : Nat) (g : Workgroup) (c : MatCmd) (f : Flt) : State :=
  let s := modMatCmd s wg c.id fun k => { k with state := .abandoned }
  let s := match c.pair with
    | .paired d => modMatCmd s wg d fun k => { k with state := .abandoned }
    | _ => s
  raise s c.world g.core.die (matRec s wg g c f)

/-! ## Start (R108, R257, R296) -/

/-- A tile word that the word reads fails its check. -/
def tileBad (g : Workgroup) (k : MatKind) : Bool :=
  match k with
  | .mma m | .mmap m =>
    m.acc && (List.range m.dims.1).any fun r =>
      if m.wide then badWord g.badTiles (tileOff m.tile.val r 0) 512 || badWord g.badTiles (tileOff (m.tile.val + 1) r 0) 512
      else badWord g.badTiles (tileOff m.tile.val r 0) (4 * m.dims.2.1)
  | .mzero _ => false
  | .mguide _ a b _ => badWord g.badTiles (tileOff a.val 0 0) 65536 || badWord g.badTiles (tileOff b.val 0 0) 65536

/-- The words before both words of a pair, or before a word: those that come first at a B FIFO the pair shares (log 135). -/
def beforeBoth (g : Workgroup) (c : MatCmd) : List MatCmd :=
  let mine := olderThan g c.id
  match c.pair with
  | .paired d => let its := olderThan g d
    if mine.length ≤ its.length then mine else its
  | _ => mine

/-- Whether an older word that has not started holds the array order at a FIFO that the word pops (R257, R296; log 135). -/
def fifoHeld (g : Workgroup) (c : MatCmd) (partner : Nat) : Bool :=
  match c.kind.fields? with
  | some m =>
    (olderThan g c.id).any (fun x => !x.started && x.id != partner && usesFifo x true m.fa.val)
      || (beforeBoth g c).any fun x => !x.started && x.id != partner && usesFifo x false m.fb.val
  | none => false

/-- Whether nothing in the array's order keeps a word, its partner apart, from starting. -/
def clearOf (g : Workgroup) (c : MatCmd) (partner : Nat) : Bool := !waitsBehind g c partner && !fifoHeld g c partner

/-- A word whose pair is decided and that waits behind no older word; of a pair, both (R296). -/
def mayStart (g : Workgroup) (c : MatCmd) : Bool :=
  match c.pair with
  | .undecided => false
  | .solo => clearOf g c c.id
  | .paired d => clearOf g c d && (match matCmd? g d with
      | some x => clearOf g x c.id
      | none => false)

/-- The other word of the operation that a word is part of. -/
def partnerWord (g : Workgroup) (c : MatCmd) : Option MatCmd :=
  match c.pair with
  | .paired d => matCmd? g d
  | _ => none

/-- The words of the operation that a word is part of: the word, or both words of its pair (R297). -/
def operation (g : Workgroup) (c : MatCmd) : List MatCmd := c :: (partnerWord g c).toList

/-- The words of one operation start together. -/
def execMatrixWordStart (core : CoreId) (id : Nat) (s : State) : Host.Outcome State Fault Refusal :=
  .next (match matFind s core id with
    | some (wg, g, c) =>
      if c.started || g.stopping || (operation g c).any (fun x => decide (x.state ≠ .ready) || matHalted s g x) || !mayStart g c then s
      else match (operation g c).find? fun x => tileBad g x.kind with
        | some x => matFault s wg g x { code := .poison, access := .read }
        | none => (operation g c).foldl (fun s x => modMatCmd s wg x.id fun k => { k with started := true }) s
    | none => s)

/-! ## Rows (R255, R256) -/

def elemBytes (p : PairType) : Nat := if p.is8 then 1 else 2

/-- L: the logical depth (R66). -/
def logicalDepth (m : MatFields) : Nat :=
  match m.sparsity with
  | .dense => m.dims.2.2
  | .s8 => 3 * m.dims.2.2
  | .s16 => 3 * m.dims.2.2 / 2

def aRowSize (m : MatFields) : Nat :=
  m.dims.2.2 * elemBytes m.pair + (match m.sparsity with
    | .dense => 0
    | .s8 => 3 * m.dims.2.2 / 8
    | .s16 => 3 * m.dims.2.2 / 16)

/-- q entries of an NQ4 B row (R250). -/
def nq4Entries (l : Nat) : Nat := (l + 32 + 63) / 64

def bRowSize (m : MatFields) : Nat :=
  let l := logicalDepth m
  if m.pair = .bf16nq4 then (l / 2 + nq4Entries l + 1 + 3) / 4 * 4 + 4 else l * elemBytes m.pair

/-- The word that holds the B rows of a pair: the even strand's. -/
def holdsB (c : MatCmd) : Bool :=
  match c.pair with
  | .paired _ => c.sid.strand.val % 2 == 0
  | _ => true

def wantsA (c : MatCmd) (m : MatFields) : Bool := decide (c.aRows.length < m.dims.1)
def wantsB (c : MatCmd) (m : MatFields) : Bool := holdsB c && decide (c.bRows.length < m.dims.2.1)

/-- Whether the operation that a word is part of still wants B rows. -/
def wantsBRows (g : Workgroup) (c : MatCmd) : Bool :=
  (operation g c).any fun x => match x.kind.fields? with
    | some m => wantsB x m
    | none => false

/-- Whether a word still needs rows of a FIFO; a pair's B rows are needed at the place of each of its words. -/
def needsFifo (g : Workgroup) (c : MatCmd) (a : Bool) (n : Nat) : Bool :=
  c.live && usesFifo c a n && (match c.kind.fields? with
    | some m => if a then wantsA c m else wantsBRows g c
    | none => false)

/-- Whether a word's turn at a FIFO has come: no word before it still needs rows of it (R109; log 135). A pair's A rows come
after all its B rows (R297). -/
def mayPop (g : Workgroup) (c : MatCmd) (a : Bool) (n : Nat) : Bool :=
  if a then (olderThan g c.id).all (fun x => !needsFifo g x true n) && ((partnerWord g c).isNone || !wantsBRows g c)
  else (beforeBoth g c).all fun x => !needsFifo g x false n

/-- A FIFO's code: A FIFOs 0 to 3, B FIFOs 4 and 5. -/
def fifoCodeOf (a : Bool) (n : Nat) : Nat := if a then n else 4 + n

/-- One whole row leaves a FIFO, in push order; its space is free at once. -/
def popRow (s : State) (wg : Nat) (g : Workgroup) (c : MatCmd) (a : Bool) (n bytes : Nat) : State :=
  let code := fifoCodeOf a n
  let f := fifoOf g c.world code
  if f.world ≠ c.world then matFault s wg g c { code := .world, detail := 4 }
  else if f.bytes.length < bytes then s
  else if f.bad.any fun b => decide (b < bytes) then matFault s wg g c { code := .poison, access := .read }
  else
    let row := f.bytes.take bytes
    let f' : Fifo := { f with bytes := f.bytes.drop bytes, bad := (f.bad.filter fun b => bytes ≤ b).map fun b => b - bytes }
    let s := s.modWg wg fun g => { g with fifos := g.fifos.set code f' }
    modMatCmd s wg c.id fun k => if a then { k with aRows := k.aRows ++ [row] } else { k with bRows := k.bRows ++ [row] }

/-- A started word pops one row: of B while B rows are wanted and there, else of A where its turn there has come. -/
def popNext (s : State) (wg : Nat) (g : Workgroup) (c : MatCmd) (m : MatFields) : State :=
  let has (a : Bool) (n bytes : Nat) : Bool :=
    let f := fifoOf g c.world (fifoCodeOf a n)
    mayPop g c a n && (decide (bytes ≤ f.bytes.length) || f.world != c.world)
  if wantsB c m && has false m.fb.val (bRowSize m) then popRow s wg g c false m.fb.val (bRowSize m)
  else if wantsA c m && has true m.fa.val (aRowSize m) then popRow s wg g c true m.fa.val (aRowSize m)
  else s

def execMatrixRowPop (core : CoreId) (id : Nat) (s : State) : Host.Outcome State Fault Refusal :=
  .next (match matFind s core id with
    | some (wg, g, c) => match c.kind.fields? with
      | some m => if c.started ∧ c.state = .ready then popNext s wg g c m else s
      | none => s
    | none => s)

/-! ## Products (02 R66, R67) -/

def pairTys : PairType → Ty × Ty
  | .e4e4 => (.e4m3, .e4m3) | .e4e5 => (.e4m3, .e5m2) | .e5e4 => (.e5m2, .e4m3) | .e5e5 => (.e5m2, .e5m2)
  | .i8i8 => (.i8, .i8) | .bf16bf16 => (.bf16, .bf16) | .f16f16 => (.f16, .f16) | .bf16nq4 => (.bf16, .nq4)

/-- The place of the `n`th one bit of a mask of 24 bits. -/
def nthBit (mask n : Nat) : Option Nat := ((List.range 24).filter fun i => bitOf mask i)[n]?

/-- p(k): the logical position of stored element k of an A row (log 31). -/
def logicalPos (m : MatFields) (row : List Byte) (k : Nat) : Nat :=
  let per := match m.sparsity with | .dense => 0 | .s8 => 8 | .s16 => 16
  if per = 0 then k
  else
    let g := k / per
    let mask := fieldNat row (m.dims.2.2 * elemBytes m.pair + 3 * g) 3
    24 * g + ((nthBit mask (k % per)).getD (Config.sparsePos mask (k % per) % 24))

def aBits (m : MatFields) (row : List Byte) (k : Nat) : Nat := fieldNat row (k * elemBytes m.pair) (elemBytes m.pair)

/-- The value of an element of a B row; an NQ4 one is its FP32 value (02 R64). -/
def bValue (m : MatFields) (row : List Byte) (l : Nat) : FVal :=
  if m.pair = .bf16nq4 then
    let n := logicalDepth m
    let code := bitsOf (fieldNat row (l / 2) 1) (4 * (l % 2)) 4
    let p := fieldNat row (n / 2 + nq4Entries n) 1
    let q := fieldNat row (n / 2 + (32 * p + l) / 64) 1
    decodeF .f32 (nq4Element code q (BitVec.ofNat 32 (fieldNat row (bRowSize m - 4) 4)))
  else valueOf (pairTys m.pair).2 (fieldNat row (l * elemBytes m.pair) (elemBytes m.pair))

/-- The products of one group of 32 stored elements. -/
def groupTerms (m : MatFields) (a b : List Byte) (g : Nat) : List (FVal × FVal) :=
  (List.range 32).map fun i =>
    let k := 32 * g + i
    (valueOf (pairTys m.pair).1 (aBits m a k), bValue m b (logicalPos m a k))

/-- The exact sum of a group. -/
def groupSum (ts : List (FVal × FVal)) : FVal :=
  match ts with
  | [] => .fin false 0 1
  | t :: rest => rest.foldl (fun acc p => acc.add (p.1.mul p.2) .rn) (t.1.mul t.2)

/-- One group's step of R67 on the accumulator's bits. -/
def groupStep (m : MatFields) (a b : List Byte) (acc g : Nat) : Nat :=
  let s := groupSum (groupTerms m a b g)
  if m.pair = .i8i8 then
    (match s with
      | .fin neg n _ => wrapInt 32 ((acc : Int) + sgn neg n)
      | _ => acc)
  else roundF .f32 ((decodeF .f32 acc).add (decodeF .f32 (roundF .f32 s .rn)) .rn) .rn

/-- R67: one element after the word. -/
def productOf (m : MatFields) (a b : List Byte) (old : Nat) : Nat :=
  (List.range (m.dims.2.2 / 32)).foldl (groupStep m a b) (if m.acc then old else 0)

/-- The tile and column of a word's column. -/
def colPlace (m : MatFields) (j : Nat) : Nat × Nat := (m.tile.val + j / 128, j % 128)

/-- An element of a word's region after it. -/
def newElem (g : Workgroup) (m : MatFields) (as bs : List (List Byte)) (i j : Nat) : Nat :=
  let p := colPlace m j
  productOf m (as.getD i []) (bs.getD j []) (tileRead g p.1 i p.2)

/-- Writes words of tiles; each takes fresh check bits. -/
def putTiles (s : State) (wg : Nat) (l : List (Nat × Nat × Nat × Nat)) : State :=
  s.modWg wg fun g => { g with
    tiles := l.foldl (fun t x => tileWrite t x.1 x.2.1 x.2.2.1 x.2.2.2) g.tiles
    badTiles := g.badTiles.filter fun k => !l.any fun x => 4 * k == tileOff x.1 x.2.1 x.2.2.1 }

def productWrites (g : Workgroup) (m : MatFields) (as bs : List (List Byte)) : List (Nat × Nat × Nat × Nat) :=
  ((List.range m.dims.1).map fun i => (List.range m.dims.2.1).map fun j =>
    let p := colPlace m j
    (p.1, i, p.2, newElem g m as bs i j)).flatten

/-- R68. -/
def guide (c u w : Nat) : Nat :=
  let d := roundF .f32 ((decodeF .f32 c).sub (decodeF .f32 u) .rn) .rn
  roundF .f32 ((decodeF .f32 w).fma (decodeF .f32 d) (decodeF .f32 u) .rn) .rn

def tileIndices : List (Nat × Nat) := ((List.range 128).map fun r => (List.range 128).map fun c => (r, c)).flatten

/-! ## Completion -/

/-- A word leaves the array, and its number counts as complete; a follow-on word completes its copy (04 R107). -/
def finishMat (s : State) (wg : Nat) (c : MatCmd) : State :=
  let s := dropMat s wg c.id
  match c.copy with
  | some (k, q, n) => dropCopy s k q n
  | none => s

/-- Whether a word has every row it needs. -/
def hasRows (g : Workgroup) (c : MatCmd) (m : MatFields) : Bool :=
  !wantsA c m && !wantsB c m && (match c.pair with
    | .paired d => (match matCmd? g d with
        | some x => x.started && !wantsA x m && !wantsB x m
        | none => false)
    | _ => true)

/-- The B rows that a word multiplies by. -/
def bRowsOf (g : Workgroup) (c : MatCmd) : List (List Byte) :=
  if holdsB c then c.bRows else match c.pair with
    | .paired d => ((matCmd? g d).map MatCmd.bRows).getD []
    | _ => []

/-- The products of one word, or of both words of a pair together (R297). -/
def completeMma (s : State) (wg : Nat) (g : Workgroup) (c : MatCmd) (m : MatFields) : State :=
  let w := productWrites g m c.aRows (bRowsOf g c)
  match c.pair with
  | .paired d => match matCmd? g d with
    | some x => match x.kind.fields? with
      | some n => finishMat (finishMat (putTiles s wg (w ++ productWrites g n x.aRows (bRowsOf g x))) wg c) wg x
      | none => s
    | none => s
  | _ => finishMat (putTiles s wg w) wg c

def execMatrixWordComplete (core : CoreId) (id : Nat) (s : State) : Host.Outcome State Fault Refusal :=
  .next (match matFind s core id with
    | some (wg, g, c) =>
      if !c.started || decide (c.state ≠ .ready) then s else
      (match c.kind with
        | .mma m | .mmap m => if hasRows g c m then completeMma s wg g c m else s
        | .mzero t => finishMat (putTiles s wg (tileIndices.map fun p => (t.val, p.1, p.2, 0))) wg c
        | .mguide d a b w =>
          finishMat (putTiles s wg (tileIndices.map fun p =>
            (d.val, p.1, p.2, guide (tileRead g a.val p.1 p.2) (tileRead g b.val p.1 p.2) w.toNat))) wg c)
    | none => s)

/-! ## Words ended by a cancel (01 R18, R255) -/

def instCancelled (s : State) (i : InstId) : Bool :=
  match s.inst? i with
  | some x => decide (x.state = .cancelled)
  | none => false

/-- Rows that a word wants are not in its FIFO. -/
def rowsMissing (g : Workgroup) (c : MatCmd) : Bool :=
  match c.kind.fields? with
  | some m =>
    (wantsA c m && decide ((fifoOf g c.world m.fa.val).bytes.length < aRowSize m))
      || (wantsB c m && decide ((fifoOf g c.world (4 + m.fb.val)).bytes.length < bRowSize m))
  | none => false

/-- Whether a word waits: for an older word, its matched word, or rows that are not there; a pair waits as one. -/
def matWaits (g : Workgroup) (c : MatCmd) : Bool :=
  (!c.started && !mayStart g c) || (operation g c).any fun x => rowsMissing g x

/-- The cancelled instance that a cancelled one lies under: the highest. -/
def cancelledAt (s : State) : Nat → InstId → InstId
  | 0, i => i
  | n + 1, i => match (s.inst? i).bind Inst.parent with
    | some p => if instCancelled s p then cancelledAt s n p else i
    | none => i

/-- Whether an accepted copy command of the cancelled instance that a workgroup lies under has chunks left. -/
def copying (s : State) (wg : Nat) : Bool :=
  let top := cancelledAt s 6 (unitOf wg)
  s.copyQs.any fun q => q.2.cmds.any fun k =>
    under s top (unitOf k.sid.wg) && decide (k.progress < k.chunks) && decide (k.state ≠ .abandoned)

/-- Whether a word that has come to wait after a cancel ends: it has not started, or has no copy of the instance left to feed it. -/
def endsWith (s : State) (wg : Nat) (g : Workgroup) (c : MatCmd) : Bool := matWaits g c && !(c.started && copying s wg)

/-- The words that wait end together, with no row popped and no tile changed. -/
def endWords (s : State) (wg : Nat) (l : List MatCmd) : State := l.foldl (fun s c => finishMat s wg c) s

/-- Steps 1 to 4 of R18: every strand below the instance stops, and every matrix word below it that waits at that moment
is ended. -/
def cancelInst (s : State) (i : InstId) : State :=
  let s := stopUnder s i
  s.wgs.foldl (fun t p =>
    if under s i (unitOf p.1) then endWords t p.1 (p.2.matrix.cmds.filter (matWaits p.2)) else t) s

/-- A running word of a cancelled workgroup that has come to wait for rows ends once no copy of the cancelled instance is
left; so does a follow-on word that waits when its copy has completed. -/
def execMatrixWordEnded (core : CoreId) (id : Nat) (s : State) : Host.Outcome State Fault Refusal :=
  .next (match matFind s core id with
    | some (wg, g, c) => if instCancelled s (unitOf wg) && endsWith s wg g c then endWords s wg (operation g c) else s
    | none => s)

end Sys2Proof.Machine
end

