-- ==== Sys2Proof/Machine/VectorFloat.lean ====
section
/-! DEFINITION. Vector floating-point words (08 R217, R218; 02 R56 to R60). -/

namespace Sys2Proof.Machine

open Sys2Proof

/-- A floating operand as the word reads it: absolute value of A, then negation (08 R213). A NaN stays a NaN. -/
def signMods (absA neg : Bool) (x : FVal) : FVal :=
  let x := if absA then x.abs else x
  if neg then x.neg else x

namespace VCtx

def fmt (c : VCtx) : FFmt := fmtOfTy c.w.ty
def mode (c : VCtx) : RMode := rmodeOf (c.w.mbits 0 2)

def fA (c : VCtx) (s : State) (l : Lane) : FVal := signMods (c.w.mbit 4) (c.w.mbit 3) (decodeF c.fmt (c.rdA s l))
def fB (c : VCtx) (s : State) (l : Lane) : FVal := signMods false (c.w.mbit 8) (decodeF c.fmt (c.rdB s l))
def fC (c : VCtx) (s : State) (l : Lane) : FVal := signMods false (c.w.mbit 9) (decodeF c.fmt (c.rdC s l))

/-- One rounding of an exact result, saturating where the word does. -/
def round1 (c : VCtx) (x : FVal) : Nat := roundF c.fmt x c.mode c.sat

def binaryF (c : VCtx) (s : State) (f : FVal → FVal → FVal) : VEff :=
  c.lanewise s fun l => c.round1 (f (c.fA s l) (c.fB s l))

def unaryF (c : VCtx) (s : State) (f : FVal → FVal) : VEff := c.lanewise s fun l => c.round1 (f (c.fA s l))

/-- A function that rounds its own result: `Sat` clamps an infinity; a NaN stays (02 R60). -/
def roundedF (c : VCtx) (s : State) (f : FFmt → FVal → RMode → Nat) : VEff :=
  c.lanewise s fun l =>
    let r := f c.fmt (c.fA s l) c.mode
    if c.sat then (match decodeF c.fmt r with
      | .inf neg => c.fmt.maxBits + c.fmt.signBit neg
      | _ => r) else r

end VCtx

def execVfadd (w : VWord) (s : State) := vectorWord 0x20 w (fun c s => c.binaryF s fun x y => x.add y c.mode) s
def execVfsub (w : VWord) (s : State) := vectorWord 0x21 w (fun c s => c.binaryF s fun x y => x.sub y c.mode) s
def execVfmul (w : VWord) (s : State) := vectorWord 0x22 w (fun c s => c.binaryF s FVal.mul) s

def execVfma (w : VWord) (s : State) :=
  vectorWord 0x23 w (fun c s => c.lanewise s fun l => c.round1 ((c.fA s l).fma (c.fB s l) (c.fC s l) c.mode)) s

def execVfmin (w : VWord) (s : State) := vectorWord 0x24 w (fun c s => c.binaryF s FVal.min) s
def execVfmax (w : VWord) (s : State) := vectorWord 0x25 w (fun c s => c.binaryF s FVal.max) s

def execVfrcp (w : VWord) (s : State) := vectorWord 0x26 w (fun c s => c.unaryF s fun x => (FVal.fin false 1 1).div x) s
def execVfrsq (w : VWord) (s : State) := vectorWord 0x27 w (fun c s => c.unaryF s FVal.rsqrt) s
def execVfsqrt (w : VWord) (s : State) := vectorWord 0x28 w (fun c s => c.unaryF s FVal.sqrt) s
def execVfexp2 (w : VWord) (s : State) := vectorWord 0x29 w (fun c s => c.roundedF s exp2F) s
def execVflog2 (w : VWord) (s : State) := vectorWord 0x2A w (fun c s => c.roundedF s log2F) s
def execVfsin (w : VWord) (s : State) := vectorWord 0x2B w (fun c s => c.roundedF s sinPiF) s
def execVfcos (w : VWord) (s : State) := vectorWord 0x2C w (fun c s => c.roundedF s cosPiF) s
def execVfdiv (w : VWord) (s : State) := vectorWord 0x2D w (fun c s => c.binaryF s FVal.div) s

end Sys2Proof.Machine
end

