-- ==== Sys2Proof/Machine/VectorMask.lean ====
section
/-! DEFINITION. Masks, votes and cross-lane words (08 R222 to R228; 02 R69). -/

namespace Sys2Proof.Machine

open Sys2Proof

/-! ## Masks and votes -/

/-- The mask that an operand names. -/
def VCtx.maskOperand (c : VCtx) (o : Operand) : W32 :=
  match o with
  | .reg i => c.mask (Fin.ofNat 16 i.val)
  | _ => 0

def execVsetm (w : VWord) (s : State) :=
  vectorWord 0x40 w (fun c s =>
    let k := (condOf (c.w.mbits 4 5)).getD .eq
    c.setMask s fun l => tyCond k c.w.ty (c.rdA s l) (c.rdB s l)) s

/-- A mask from two masks, bit by bit. -/
def maskWord (op : Nat) (w : VWord) (f : Bool → Bool → Bool) (s : State) : Host.Outcome State Fault Refusal :=
  vectorWord op w (fun c s =>
    c.setMask s (fun l => f (laneBit (c.maskOperand c.w.a) l) (laneBit (c.maskOperand c.w.b) l))
      (maskTag (c.maskOperand c.w.a) :: if op = 0x44 then [] else [maskTag (c.maskOperand c.w.b)])) s

def execVmand (w : VWord) (s : State) := maskWord 0x41 w (· && ·) s
def execVmor (w : VWord) (s : State) := maskWord 0x42 w (· || ·) s
def execVmxor (w : VWord) (s : State) := maskWord 0x43 w (· != ·) s
def execVmnot (w : VWord) (s : State) := maskWord 0x44 w (fun x _ => !x) s

/-- Lanes that vote: active, and not helpers (01 R32). -/
def VCtx.voters (c : VCtx) : W32 := c.activeMask &&& ~~~c.st.helpers

def VCtx.ballot (c : VCtx) : W32 := c.voters &&& c.maskOperand c.w.a

def voteWord (op : Nat) (w : VWord) (f : VCtx → W32) (s : State) : Host.Outcome State Fault Refusal :=
  vectorWord op w (fun c s => c.setSlotOrV s (zext32 (f c))) s

def execVballot (w : VWord) (s : State) := voteWord 0x45 w VCtx.ballot s
def execVany (w : VWord) (s : State) := voteWord 0x46 w (fun c => if c.ballot ≠ 0 then 1 else 0) s
def execVall (w : VWord) (s : State) := voteWord 0x47 w (fun c => if c.ballot = c.voters then 1 else 0) s

/-! ## Cross-lane -/

def laneNo (n : Nat) : Lane := Fin.ofNat 32 n

/-- The source lane of VSHFL. -/
def shflLane (mode : Nat) (l : Lane) (y : Nat) : Lane :=
  let k := y % 32
  match mode with
  | 0 => laneNo k
  | 1 => if k ≤ l.val then laneNo (l.val - k) else l
  | 2 => if l.val + k ≤ 31 then laneNo (l.val + k) else l
  | _ => laneNo (l.val ^^^ k)

def execVshfl (w : VWord) (s : State) :=
  vectorWord 0x50 w (fun c s => c.lanewise s fun l => c.rdA s (shflLane (c.w.mbits 5 2) l (c.rdB s l))) s

/-- The lowest active lane. -/
def VCtx.firstActive (c : VCtx) : Lane := ((List.finRange 32).find? c.active).getD 0

def execVbcast (w : VWord) (s : State) :=
  vectorWord 0x51 w (fun c s =>
    c.setUniform s (BitVec.ofNat 32 (c.rdA s (laneNo (c.rdB s c.firstActive % 32))))) s

/-- The operations of R227. -/
def redOpOf : Nat → RedOp
  | 0 => .add | 1 => .min | 2 => .max | 3 => .and | 4 => .or | _ => .xor

/-- The identities of R69, as bits of the type. -/
def redIdentity (op : RedOp) (t : Ty) : Nat :=
  if t.isFloat then
    let f := fmtOfTy t
    match op with
    | .min => roundF f (.inf false) .rn
    | .max => roundF f (.inf true) .rn
    | _ => f.signBit true
  else match op with
    | .and => 2 ^ t.bits - 1
    | .min => if t.signed then 2 ^ (t.bits - 1) - 1 else 2 ^ t.bits - 1
    | .max => if t.signed then 2 ^ (t.bits - 1) else 0
    | _ => 0

/-- `Round(fmt, x ⊕ y, mode)` on bits of the type. -/
def redStep (op : RedOp) (t : Ty) (mode : RMode) (x y : Nat) : Nat :=
  if t.isFloat then
    let f := fmtOfTy t
    let a := decodeF f x
    let b := decodeF f y
    match op with
    | .min => roundF f (a.min b) mode
    | .max => roundF f (a.max b) mode
    | _ => roundF f (a.add b mode) mode
  else combineRed op t x y

/-- One of the five steps: the first half takes the second. -/
def redHalf (f : Nat → Nat → Nat) (l : List Nat) : List Nat :=
  List.zipWith f (l.take (l.length / 2)) (l.drop (l.length / 2))

namespace VCtx

/-- The value with which a lane enters a reduction or a scan. -/
def enter (c : VCtx) (s : State) (op : RedOp) (l : Lane) : Nat :=
  if c.active l then c.rdA s l else redIdentity op c.w.ty

def reduce (c : VCtx) (s : State) : Nat :=
  let op := redOpOf (c.w.mbits 5 4)
  let h := redHalf (redStep op c.w.ty (rmodeOf (c.w.mbits 0 2)))
  (h (h (h (h (h ((List.finRange 32).map (c.enter s op))))))).headD 0

/-- `Ext` of R213. -/
def ext (t : Ty) (x : Nat) : W64 := if t = .i32 then sext32 (BitVec.ofNat 32 x) else BitVec.ofNat 64 x

/-- The combinations of lanes 0 to l, in ascending order. -/
def scanGo (f : Nat → Nat → Nat) (acc : Nat) : List Nat → List Nat
  | [] => []
  | x :: t => f acc x :: scanGo f (f acc x) t

/-- What each lane receives: lane 0 begins with its own value, whose bits pass on with no rounding of their
own (DESIGN CHOICE, log 75); the exclusive form shifts by one from the identity. -/
def scan (c : VCtx) (s : State) : List Nat :=
  let op := redOpOf (c.w.mbits 5 4)
  let f := redStep op c.w.ty (rmodeOf (c.w.mbits 0 2))
  let xs := (List.finRange 32).map (c.enter s op)
  let incl := match xs with
    | [] => []
    | x :: t => x :: scanGo f x t
  if c.w.mbit 9 then redIdentity op c.w.ty :: incl.take 31 else incl

end VCtx

def execVredx (w : VWord) (s : State) :=
  vectorWord 0x52 w (fun c s => c.setSlotOrV s (VCtx.ext c.w.ty (c.reduce s))) s

def execVscan (w : VWord) (s : State) :=
  vectorWord 0x53 w (fun c s =>
    let r := c.scan s
    c.lanewise s fun l => r.getD l.val 0) s

def execVqswap (w : VWord) (s : State) :=
  vectorWord 0x54 w (fun c s => c.lanewise s fun l => c.rdA s (laneNo (l.val ^^^ (c.w.mbits 5 2 + 1)))) s

end Sys2Proof.Machine
end

