-- ==== Sys2Proof/Machine/VectorMem.lean ====
section
/-! DEFINITION. Vector memory words: global and scratchpad accesses, the decoding load, the sampler, atomics and reductions
(08 R214, R229 to R234; 01 R32, R38; 04 R101; 03 R77, R83). -/

namespace Sys2Proof.Machine

open Sys2Proof

/-! ## Lanes of an access (08 R214) -/

/-- Why a lane of a memory word does not go on: a fault, a translation that is missing, or a buffered store that
overlaps the access in part. -/
inductive LaneStop
  | bad (c : Code) (va : Nat)
  | miss (va : Nat)
  | part

/-- The fault of a word whose lanes fail: the code that comes first, its lanes, the lowest one's address. A tag that
fails comes before an integrity check (log 32). -/
def laneFault (l : List (Lane × Code × Nat)) (kind : AccessKind) : Option Flt :=
  [Code.access, Code.align, Code.page, Code.world, Code.poison].findSome? fun k =>
    match l.filter fun x => x.2.1 = k with
    | [] => none
    | x :: t => some
      { code := k, access := kind, addr := x.2.2, lanes := maskOf fun i => (x :: t).any fun y => y.1 = i
        pages := if k = .page then (x :: t).map fun y => y.2.2 else [] }

/-- What the lanes of a word give, in ascending order: their values, or why some lane stops. -/
structure LaneRun (α : Type) where
  s : State
  got : List (Lane × α)
  bad : List (Lane × Code × Nat)
  miss : List Nat
  part : Bool

def runLane {α : Type} (f : Lane → State → State × Except LaneStop α) (r : LaneRun α) (l : Lane) : LaneRun α :=
  match f l r.s with
  | (s, .ok v) => { r with s := s, got := r.got ++ [(l, v)] }
  | (_, .error (.bad c va)) => { r with bad := r.bad ++ [(l, c, va)] }
  | (_, .error (.miss va)) => { r with miss := r.miss ++ [va] }
  | (_, .error .part) => { r with part := true }

namespace VCtx

def activeLanes (c : VCtx) : List Lane := (List.finRange 32).filter c.active

/-- Runs an access in every lane of a list. Missing translations are asked for and the word waits; a fault leaves the
state as it was; a partly overlapping store leaves the buffer first (07 R190). -/
def eachLane {α : Type} (c : VCtx) (s : State) (ls : List Lane) (kind : AccessKind)
    (f : Lane → State → State × Except LaneStop α) : Except VEff (State × List (Lane × α)) :=
  let r := ls.foldl (runLane f) ⟨s, [], [], [], false⟩
  if !r.miss.isEmpty then
    .error (.wait (r.miss.foldl (fun (s : State) va =>
      s.ask ⟨c.e.die, c.e.quadrant, .vector c.e.sid, c.e.world, c.e.priv, va, kind⟩) s))
  else match laneFault r.bad kind with
    | some f => .error (.fault s f)
    | none => if r.part then .error (.wait (drain s c.e.sid)) else .ok (r.s, r.got)

/-! ## Global memory -/

/-- The checks of one lane's access, in the order of 06 R176. -/
def place (c : VCtx) (s : State) (va n : Nat) (kind : AccessKind) : Except LaneStop (Nat × FormatDesc) :=
  if 2 ^ 57 ≤ va then .error (.bad .access va)
  else if 1 < n ∧ va % n ≠ 0 then .error (.bad .align va)
  else match lookup s c.e.quadrant c.e.die c.e.world c.e.priv c.st.vectorWalkFaults va kind with
    | .ok pa f => .ok (pa, f)
    | .bad k => .error (.bad k va)
    | .miss => .error (.miss va)

/-- Bytes of a load at a translated address: the strand's buffer, then L1 or L2. With the value go the sectors at L2 that it
has read. -/
def fetchAt (c : VCtx) (s : State) (va pa n : Nat) (fresh : Bool) : State × Except LaneStop (Nat × List Nat) :=
  match forward c.st.stores pa n with
  | .hit bs => (s, .ok (leNat bs, []))
  | .part => (s, .error .part)
  | .none => match globalLoad s c.e pa n fresh with
    | (s', none) => (s', .error (.bad .poison va))
    | (s', some bs) => (s', .ok (leNat bs, sectorsOf s c.e pa n fresh))

/-- One lane's load: the value, and the sectors read. -/
def readG (c : VCtx) (s : State) (va n : Nat) (fresh : Bool) : State × Except LaneStop (Nat × List Nat) :=
  match c.place s va n .read with
  | .error x => (s, .error x)
  | .ok (pa, _) => c.fetchAt s va pa n fresh

/-- `V64(A, l) + sext(imm32)`. -/
def ea (c : VCtx) (s : State) (l : Lane) : Nat := (c.rdA s l + (sext32 c.w.imm).toNat) % 2 ^ 64

/-- `V(A, l) + sext(imm32)`, modulo 2^32. -/
def ea32 (c : VCtx) (s : State) (l : Lane) : Nat := (c.rdA s l + c.w.imm.toNat) % 2 ^ 32

/-- What a load of a type writes (08 R229). -/
def extLoad (t : Ty) (v : Nat) : Nat := if t.signed ∧ t.bits < 32 then wrapInt 32 (signedOf t.bits v) else v

/-! ## Returns (01 R38) -/

def laneVal (vs : List (Lane × Nat)) (l : Lane) : Nat := ((vs.find? fun p => p.1 = l).map Prod.snd).getD 0

/-- The vector side of the strand as the word finds it, with its split at the first word of the chain: where a replay of the word
starts (04 R113). -/
def checkpoint (c : VCtx) : Checkpoint :=
  let sp : Split := { c.sp with pos := c.chain.first, chain := none }
  { v := c.st.v, badRegs := c.st.badRegs, masks := c.st.masks, slots := c.st.slots.set c.slot (some sp), waiting := c.st.waiting,
    joins := c.st.joins, serialised := c.st.serialised, base := c.st.base, helpers := c.st.helpers }

/-- Registers that a return is to write, from a destination upward, and the lanes' checks that are still to end. -/
def post (c : VCtx) (s : State) (regs : List (Nat × Vector W32 32)) (checks : List LaneCheck) : State :=
  let regs := if c.w.nowb then [] else regs
  if regs.isEmpty && checks.isEmpty then s else
  let r : Return :=
    { id := s.nextId, regs := regs, mask := c.activeMask, first := c.chainPC, checks := checks, queued := false,
      before := c.checkpoint }
  let s := { s with nextId := s.nextId + 1 }.modStrand c.e.sid fun st => { st with returns := st.returns ++ [r] }
  s.modSplit c.e.sid c.slot fun sp => { sp with chain := some { c.chain with loads := c.chain.loads ++ [r.id] } }

/-- The checks of a load whose lanes have read sectors, each at its lane's address. -/
def checksOf (c : VCtx) (s : State) (l : List (Lane × List Nat)) : List LaneCheck :=
  (l.filter fun p => !p.2.isEmpty).map fun p => ⟨p.1.val, c.ea s p.1, p.2⟩

/-- A load's results leave for the registers; the latch holds them at once. -/
def deliverLoad (c : VCtx) (s : State) (t : Ty) (vs : List (Lane × Nat)) (checks : List LaneCheck) : VEff :=
  let lo := lanes fun l => BitVec.ofNat 32 (laneVal vs l)
  let hi := lanes fun l => BitVec.ofNat 32 (laneVal vs l / 2 ^ 32)
  let d := c.w.dst.val
  let regs : List (Nat × Vector W32 32) := if t.wide then [(d, lo), (d + 1, hi)] else [(d, lo)]
  .done (c.post s regs checks) (c.latchOf .g fun l => lo[l])

/-- A plain load of global memory. -/
def loadG (c : VCtx) (s : State) (fresh : Bool) : VEff :=
  match c.eachLane s c.activeLanes .read fun l s' => c.readG s' (c.ea s l) c.w.ty.bytes fresh with
  | .error x => x
  | .ok (s', vs) =>
    c.deliverLoad s' c.w.ty (vs.map fun p => (p.1, extLoad c.w.ty p.2.1)) (c.checksOf s (vs.map fun p => (p.1, p.2.2)))

/-! ## Stores -/

/-- A release by a vector word: every store of the strand has left its buffer, and the acknowledgements of the scope
have come. -/
def vrelease (s : State) (sid : StrandId) (sc : Option Scope) : State × Bool :=
  match sc with
  | none | some .st => (s, true)
  | _ =>
    let r := release s sid sc
    (r.1, r.2 && (match r.1.strands.get? sid with | some st => st.stores.isEmpty | none => true))

/-- One entry of the store buffer for the word's lanes, helper lanes apart; the chain can still take it back. -/
def storeG (c : VCtx) (s : State) (sc : Option Scope) : VEff :=
  match c.eachLane s c.activeLanes .write fun l s' =>
      (s', match c.place s' (c.ea s l) c.w.ty.bytes .write with
        | .ok p => .ok p.1
        | .error x => .error x) with
  | .error x => x
  | .ok (s', ps) =>
    let r := vrelease s' c.e.sid sc
    let full := match r.1.strands.get? c.e.sid with
      | some st => decide (Config.storeBufferEntries ≤ st.stores.length)
      | none => false
    if !r.2 || full then .wait r.1 else
    let ls := (ps.filter fun p => !c.helper p.1).map fun p =>
      ({ lane := p.1.val, va := c.ea s p.1, pa := p.2, data := natLE c.w.ty.bytes (c.rdB s p.1) } : SBLane)
    if ls.isEmpty then .done r.1 (.u 0) else
    let z : Size := sizeOf' (Nat.log2 c.w.ty.bytes)
    let x : SBEntry := { id := r.1.nextId, restored := false, vector := true, size := z, scope := sc, lanes := ls }
    let s := enterStore { r.1 with nextId := r.1.nextId + 1 } c.e x
    let s := s.modSplit c.e.sid c.slot fun sp => { sp with chain := some { c.chain with stores := c.chain.stores ++ [x.id] } }
    .done s (.u 0)

/-! ## Scratchpad -/

/-- The checks of one lane's scratchpad access: alignment, range, the granule's tag, and integrity for a read. -/
def placeS (c : VCtx) (s : State) (off n : Nat) (reads : Bool) : Except LaneStop Nat :=
  match scratchCheck c.e off n with
  | some k => .error (.bad k off)
  | none =>
    if !scratchTagOk s c.e off then .error (.bad .world off)
    else if reads && badWord c.e.wg.badScratch off n then .error (.bad .poison off)
    else .ok off

def readS (c : VCtx) (s : State) (off n : Nat) : Except LaneStop Nat :=
  match c.placeS s off n true with
  | .error x => .error x
  | .ok o => .ok (c.e.wg.scratch.readNat o n)

def loadS (c : VCtx) (s : State) : VEff :=
  match c.eachLane s c.activeLanes .read fun l s' => (s', c.readS s (c.ea32 s l) c.w.ty.bytes) with
  | .error x => x
  | .ok (s, vs) => c.deliverLoad s c.w.ty (vs.map fun p => (p.1, extLoad c.w.ty p.2)) []

/-- The lanes write in ascending order; helper lanes do not. -/
def storeS (c : VCtx) (s : State) : VEff :=
  match c.eachLane s c.activeLanes .write fun l s' => (s', c.placeS s (c.ea32 s l) c.w.ty.bytes false) with
  | .error x => x
  | .ok (s', ps) =>
    .done ((ps.filter fun p => !c.helper p.1).foldl
      (fun s'' p => scratchWrite s'' c.e.sid.wg p.2 (natLE c.w.ty.bytes (c.rdB s p.1))) s') (.u 0)

/-- The scope of modifier [7:5]. -/
def scope (c : VCtx) : Option Scope := scopeOf (c.w.mbits 5 3)

end VCtx

def execVld (w : VWord) (s : State) := vectorWord 0x60 w (fun c s => c.loadG s (c.w.mbit 10)) s
def execVst (w : VWord) (s : State) := vectorWord 0x61 w (fun c s => c.storeG s none) s
def execVlds (w : VWord) (s : State) := vectorWord 0x62 w (fun c s => c.loadS s) s
def execVsts (w : VWord) (s : State) := vectorWord 0x63 w (fun c s => c.storeS s) s

/-- Every lane reads at L2; the acquire follows them, and later accesses come later (04 R89). -/
def execVlda (w : VWord) (s : State) := vectorWord 0x68 w (fun c s => c.loadG s true) s

/-- One release before any of the lanes. -/
def execVstl (w : VWord) (s : State) := vectorWord 0x69 w (fun c s => c.storeG s c.scope) s

/-! ## The decoding load (08 R231) -/

namespace VCtx

/-- q and S of an NQ4 element, read as the word reads memory. -/
def readScale (c : VCtx) (s : State) (f : FormatDesc) (elem : Nat) (fresh : Bool) :
    State × Except LaneStop (Nat × W32 × List Nat) :=
  let at' := f.scaleBase + elem / 16384 * f.scaleStride
  match c.readG s (at' + elem % 16384 / 64) 1 fresh with
  | (s, .error x) => (s, .error x)
  | (s, .ok (q, k)) => match c.readG s (at' + 256) 4 fresh with
    | (s, .error x) => (s, .error x)
    | (s, .ok (b, k')) => (s, .ok (q, BitVec.ofNat 32 b, k ++ k'))

/-- Bits of y above those that a format uses. -/
def partBits (f : Nat) : Nat := if f = 9 then 1 else if 0x10 ≤ f then 2 else 0

/-- One lane of VLDF. The raw format has no region to lie in (03 R78). -/
def decodeLane (c : VCtx) (va y : Nat) (fresh : Bool) (s : State) : State × Except LaneStop (Nat × List Nat) :=
  match c.place s va 1 .read with
  | .error x => (s, .error x)
  | .ok (pa, f) =>
    if !f.valid || (f.format != 0 && decide (va < f.region)) || y / 2 ^ partBits f.format != 0 then (s, .error (.bad .access va))
    else
      let n := if f.format = 0 then c.w.ty.bytes else max 1 (fmtHalf f.format / 2)
      if va % n ≠ 0 then (s, .error (.bad .align va)) else
      match c.fetchAt s va pa n fresh with
      | (s, .error x) => (s, .error x)
      | (s, .ok (v, k)) =>
        let toT (bits : Nat) : Nat := roundF c.fmt (decodeF .f32 bits) .rn
        if f.format = 0 then (s, .ok (v, k))
        else if f.format = 9 then
          let e := 2 * (va - f.region) + y
          match c.readScale s f e fresh with
          | (s, .error x) => (s, .error x)
          | (s, .ok (q, sc, k')) => (s, .ok (toT (nq4Element (bitsOf v (4 * y) 4) q sc), k ++ k'))
        else if 0x10 ≤ f.format then (s, .ok (toT (pixelChannel f.format v y), k))
        else (s, .ok (roundF c.fmt (decodeFmtBits f.format v) .rn, k))
where
  /-- The exact value of an element of a format that holds one. -/
  decodeFmtBits (f v : Nat) : FVal :=
    match f with
    | 1 => valueOf .f32 v | 2 => valueOf .f16 v | 3 => valueOf .bf16 v | 4 => valueOf .e4m3 v | 5 => valueOf .e5m2 v
    | 6 => valueOf .i8 v | 7 => valueOf .w8 v | _ => valueOf .i32 v

end VCtx

def execVldf (w : VWord) (s : State) :=
  vectorWord 0x64 w (fun c s =>
    match c.eachLane s c.activeLanes .read fun l s' => c.decodeLane (c.ea s l) (c.rdB s l) (c.w.mbit 10) s' with
    | .error x => x
    | .ok (s', vs) =>
      c.deliverLoad s' .f32 (vs.map fun p => (p.1, p.2.1)) (c.checksOf s (vs.map fun p => (p.1, p.2.2)))) s

/-! ## The sampler (08 R232) -/

/-- A sample header. -/
structure SampleHdr where
  base : Nat
  width : Nat
  height : Nat
  pitch : Nat
  bilinear : Bool
  mode : Nat
  border : Nat

/-- The header of 32 bytes, or `none` where a field is out of range. -/
def parseSample (v : Nat) : Option SampleHdr :=
  let w := bitsOf v 64 32
  let h := bitsOf v 96 32
  if 1 ≤ w ∧ w ≤ 65536 ∧ 1 ≤ h ∧ h ≤ 65536 ∧ bitsOf v 160 8 ≤ 1 ∧ bitsOf v 168 8 ≤ 2 then
    some { base := bitsOf v 0 64, width := w, height := h, pitch := bitsOf v 128 32, bilinear := bitsOf v 160 8 == 1,
           mode := bitsOf v 168 8, border := bitsOf v 192 32 }
  else none

/-- A texel coordinate: a NaN, an infinity, or a whole number. -/
inductive Coord
  | nan
  | inf (neg : Bool)
  | at (i : Int)

def floorF (x : FVal) : Coord :=
  match x with
  | .nan => .nan
  | .inf n => .inf n
  | .fin n a b => .at ((sgn n a).fdiv b)

def Coord.next : Coord → Coord
  | .at i => .at (i + 1)
  | c => c

/-- The index along one axis of `n` texels; `none` is the border. What an infinite coordinate wraps to is free (log 36). -/
def Coord.index (c : Coord) (mode n tag : Nat) : Option Nat :=
  match mode, c with
  | 2, .at i => if 0 ≤ i ∧ i < n then some i.toNat else none
  | 2, _ => none
  | 1, .at i => some (i.emod n).toNat
  | 1, .inf _ => some (Config.wrapInf tag % n)
  | _, .at i => some (clampInt 0 (n - 1) i).toNat
  | _, .inf neg => some (if neg then 0 else n - 1)
  | _, .nan => some 0

/-- `p + f × Round(q - p)`, fused. -/
def lerp (p q : Nat) (f : FVal) : Nat :=
  let d := roundF .f32 ((decodeF .f32 q).sub (decodeF .f32 p) .rn) .rn
  roundF .f32 (f.fma (decodeF .f32 d) (decodeF .f32 p) .rn) .rn

namespace VCtx

/-- The channels of one texel, in memory at its address, and the sectors read. The texel's own page decodes it (R232). -/
def texelAt (c : VCtx) (h : SampleHdr) (i j : Nat) (fresh : Bool) (s : State) : State × Except LaneStop (List Nat × List Nat) :=
  match c.place s h.base 1 .read with
  | .error x => (s, .error x)
  | .ok (_, f0) =>
    -- the element size of the address is that of the texel base's page (log 37)
    let va := (h.base + j * h.pitch + i * max 1 (fmtHalf f0.format / 2)) % 2 ^ 64
    match c.place s va 1 .read with
    | .error x => (s, .error x)
    | .ok (pa, f) =>
      let n := max 1 (fmtHalf f.format / 2)
      if !f.valid || f.format == 0 || f.format == 9 || decide (va < f.region) then (s, .error (.bad .access va))
      else if va % n ≠ 0 then (s, .error (.bad .align va))
      else match c.fetchAt s va pa n fresh with
        | (s, .error x) => (s, .error x)
        | (s, .ok (v, k)) =>
          if 0x10 ≤ f.format then (s, .ok ((List.range 4).map (pixelChannel f.format v), k))
          else (s, .ok ([roundF .f32 (decodeLane.decodeFmtBits f.format v) .rn, 0, 0, 0x3F800000], k))

/-- `Fetch(i, j)`. -/
def texel (c : VCtx) (h : SampleHdr) (x y : Coord) (fresh : Bool) (s : State) : State × Except LaneStop (List Nat × List Nat) :=
  match x.index h.mode h.width (2 * s.ticks), y.index h.mode h.height (2 * s.ticks + 1) with
  | some i, some j => c.texelAt h i j fresh s
  | _, _ => (s, .ok (List.replicate 4 h.border, []))

/-- Texels one after another. -/
def texels (c : VCtx) (h : SampleHdr) (fresh : Bool) :
    List (Coord × Coord) → State → State × Except LaneStop (List (List Nat) × List Nat)
  | [], s => (s, .ok ([], []))
  | p :: t, s => match c.texel h p.1 p.2 fresh s with
    | (s, .error x) => (s, .error x)
    | (s, .ok (v, k)) => match texels c h fresh t s with
      | (s, .error x) => (s, .error x)
      | (s, .ok (vs, k')) => (s, .ok (v :: vs, k ++ k'))

/-- The header's base and pitch against the element size, that of the base's page (log 37). A base that does not translate
is left to the texels' own accesses. -/
def headerOk (c : VCtx) (h : SampleHdr) (s : State) : Except LaneStop Bool :=
  match c.place s h.base 1 .read with
  | .error (.miss va) => .error (.miss va)
  | .error _ => .ok true
  | .ok (_, f) =>
    let n := max 1 (fmtHalf f.format / 2)
    .ok (h.base % n == 0 && h.pitch % n == 0)

/-- One lane of VSAMPLE: four channels, and the sectors read. -/
def sampleLane (c : VCtx) (va x y : Nat) (fresh : Bool) (s : State) : State × Except LaneStop (List Nat × List Nat) :=
  match c.readG s va 32 fresh with
  | (s, .error e) => (s, .error e)
  | (s, .ok (v, k)) => match parseSample v with
    | none => (s, .error (.bad .access va))
    | some h => match c.headerOk h s with
      | .error e => (s, .error e)
      | .ok false => (s, .error (.bad .access va))
      | .ok true =>
      let fx := decodeF .f32 x
      let fy := decodeF .f32 y
      if !h.bilinear then match c.texel h (floorF fx) (floorF fy) fresh s with
        | (s, .error e) => (s, .error e)
        | (s, .ok (t, k')) => (s, .ok (t, k ++ k'))
      else
        let half (v : FVal) : FVal := decodeF .f32 (roundF .f32 (v.sub (.fin false 1 2) .rn) .rn)
        let x' := half fx
        let y' := half fy
        let i := floorF x'
        let j := floorF y'
        let frac (v : FVal) (k : Coord) : FVal := match k with
          | .at n => v.sub (FVal.ofInt n) .rn
          | _ => .nan
        match c.texels h fresh [(i, j), (i.next, j), (i, j.next), (i.next, j.next)] s with
        | (s, .error e) => (s, .error e)
        | (s, .ok (ts, k')) =>
          let t (k ch : Nat) : Nat := (ts.getD k []).getD ch 0
          (s, .ok ((List.range 4).map (fun ch =>
            lerp (lerp (t 0 ch) (t 1 ch) (frac x' i)) (lerp (t 2 ch) (t 3 ch) (frac x' i)) (frac y' j)), k ++ k'))

end VCtx

def execVsample (w : VWord) (s : State) :=
  vectorWord 0x6A w (fun c s =>
    match c.eachLane s c.activeLanes .read fun l s' => c.sampleLane (c.ea s l) (c.rdB s l) (c.rdC s l) (c.w.mbit 10) s' with
    | .error x => x
    | .ok (s', vs) =>
      let reg (ch : Nat) : Vector W32 32 := lanes fun l =>
        BitVec.ofNat 32 (((vs.find? fun p => p.1 = l).map fun p => p.2.1.getD ch 0).getD 0)
      .done (c.post s' ((List.range 4).map fun ch => (c.w.dst.val + ch, reg ch)) (c.checksOf s (vs.map fun p => (p.1, p.2.2))))
        (c.latchOf .g fun l => (reg 0)[l])) s

/-! ## Atomics and reductions (08 R233, R234) -/

/-- What an atomic leaves in memory. -/
def atomVec (op : Nat) (t : Ty) (old operand cmp : Nat) : Nat :=
  match op with
  | 6 => operand
  | 7 => if old = cmp then operand else old
  | k => combineRed (redOpOf k) t old operand

namespace VCtx

/-- Every active lane's address of a read-modify-write; integrity is checked for the lanes that perform it. -/
def placesRmw (c : VCtx) (s : State) (n : Nat) (checks : Bool) : Except VEff (State × List (Lane × Nat)) :=
  c.eachLane s c.activeLanes .rmw fun l s' =>
    (s', match c.place s' (c.ea s l) n .rmw with
      | .error x => .error x
      | .ok (pa, _) =>
        if checks && !c.helper l && !isRemote pa && s'.mem.poisoned pa n then .error (.bad .poison (c.ea s l)) else .ok pa)

/-- One lane of VATOM at the home of its line. -/
def atomLane (c : VCtx) (s0 : State) (acc : State × List (Lane × Nat)) (p : Lane × Nat) : State × List (Lane × Nat) :=
  let n := c.w.ty.bytes
  let op := c.w.mbits 2 3
  let x := c.rdB s0 p.1
  let cmp := if op = 7 then c.rdC s0 p.1 else 0
  if c.helper p.1 then (acc.1, acc.2 ++ [(p.1, 0)])
  else if isRemote p.2 then
    let r := remoteAtom acc.1 c.e p.2 n (op == 0) x
    (r.1, acc.2 ++ [(p.1, r.2)])
  else
    let r := homeRmw acc.1 c.e p.2 n fun old => atomVec op c.w.ty old x cmp
    (r.1, acc.2 ++ [(p.1, r.2.getD 0)])

/-- Before an atomic or a reduction, every earlier store of the strand is performed (04 R91). -/
def settle (s : State) (sid : StrandId) (sc : Option Scope) : State × Bool :=
  let r := vrelease s sid sc
  let s := drain r.1 sid
  (s, r.2 && (match s.strands.get? sid with | some st => st.stores.isEmpty | none => true))

end VCtx

def execVatom (w : VWord) (s : State) :=
  vectorWord 0x65 w (fun c s =>
    match c.placesRmw s c.w.ty.bytes true with
    | .error x => x
    | .ok (s', ps) =>
      let r := VCtx.settle s' c.e.sid c.scope
      if !r.2 then .wait r.1 else
      let a := ps.foldl (c.atomLane s) (r.1, [])
      c.deliverLoad a.1 c.w.ty a.2 []) s

/-- A world's contribution is accepted into its update-only copy of the line at the issuing die; a copy of another
operator or type, or of another world, is combined first (03 R83, 04 R101, 16 R308). -/
def acceptRed (s : State) (d : Fin 4) (w pa : Nat) (op : RedOp) (t : Ty) (x : Nat) : State :=
  let line := lineOf pa
  let other := s.mem.copies.find? fun k =>
    decide (k.die = d) && k.line == line && !(decide (k.op = op) && decide (k.ty = t) && k.world == w)
  let s := match other with
    | some k => s.onLine line fun m => m.combineCopy s.parts k
    | none => s
  let o := pa % 128
  let upd (k : RedCopy) : RedCopy :=
    { k with words := k.words.set o (BitVec.ofNat 64 (match k.words.get? o with
        | some y => combineRed op t y.toNat x
        | none => x)) }
  let mine (k : RedCopy) : Bool := decide (k.die = d) && k.line == line
  let m := s.mem
  let m : MemSys := if m.copies.any mine then { m with copies := m.copies.map fun k => if mine k then upd k else k }
    else { m with copies := m.copies ++ [upd ⟨d, w, line, op, t, []⟩] }
  { s with mem := m.perform d line [] true }

def execVred (w : VWord) (s : State) :=
  vectorWord 0x66 w (fun c s =>
    match c.placesRmw s c.w.ty.bytes false with
    | .error x => x
    | .ok (s', ps) =>
      let r := VCtx.settle s' c.e.sid c.scope
      if !r.2 then .wait r.1 else
      let go (t : State) (p : Lane × Nat) : State :=
        if c.helper p.1 then t
        else if isRemote p.2 then (remoteAtom t c.e p.2 c.w.ty.bytes (c.w.mbits 2 3 == 0) (c.rdB s p.1)).1
        else
          let t := acceptRed t c.e.die c.e.world p.2 (redOpOf (c.w.mbits 2 3)) c.w.ty (c.rdB s p.1)
          { t with mem := t.mem.l1Drop c.e.core (lineOf p.2) }
      .done (ps.foldl go r.1) (.u 0)) s

end Sys2Proof.Machine
end

