-- ==== Sys2Proof/Machine/Accumulator.lean ====
section
/-! DEFINITION. Accumulator rows (08 R236; 02 R52; 04 R108). -/

namespace Sys2Proof.Machine

open Sys2Proof

namespace VCtx

def accTile (c : VCtx) : Nat := bitsOf c.w.imm.toNat 0 5
def accCol (c : VCtx) (l : Lane) : Nat := 32 * bitsOf c.w.imm.toNat 5 2 + l.val

/-- The tile number is a name of the word (06 R158, 4). -/
def accNameOk (c : VCtx) (_ : State) : Bool := decide (c.accTile < c.e.accTiles)

/-- One lane's row: in range, its granule's tag right, and its word sound where it is read. -/
def accRow (c : VCtx) (s : State) (reads : Bool) (l : Lane) : Except LaneStop Nat :=
  let x := c.rdA s l
  if 128 ≤ x then .error (.bad .access 0)
  else if !tileTagOk s c.e c.accTile then .error (.bad .world 0)
  else if reads && badWord c.e.wg.badTiles (tileOff c.accTile x (c.accCol l)) 4 then .error (.bad .poison 0)
  else .ok x

/-- The rows of the lanes that take part. -/
def accRows (c : VCtx) (s : State) (reads : Bool) (ls : List Lane) (kind : AccessKind) :
    Except VEff (State × List (Lane × Nat)) :=
  c.eachLane s ls kind fun l s' => (s', c.accRow s reads l)

/-- Active lanes that are not helpers: those of VACCWR and VACCSCL (01 R32). -/
def workLanes (c : VCtx) : List Lane := c.activeLanes.filter fun l => !c.helper l

end VCtx

/-- What a word that is running, with its rows at hand, leaves in an element of a tile. -/
def runningValue (g : Workgroup) (t row col : Nat) : Option Nat :=
  (g.matrix.cmds.filter fun c => c.started && decide (c.state = .ready) && c.kind.writes.contains t).findSome? fun c =>
    match c.kind with
    | .mma m | .mmap m =>
      let j := (t - m.tile.val) * 128 + col
      if hasRows g c m ∧ row < m.dims.1 ∧ j < m.dims.2.1 then some (newElem g m c.aRows (bRowsOf g c) row j) else none
    | .mzero _ => some 0
    | .mguide _ a b w => some (guide (tileRead g a.val row col) (tileRead g b.val row col) w.toNat)

/-- The old value, or the new one of a word that overlaps, element by element (04 R108; log 33). -/
def racingRead (s : State) (g : Workgroup) (t row col : Nat) : Nat :=
  match runningValue g t row col with
  | some v => if Config.raceOld (choiceIx s (2 ^ 32 + tileOff t row col) 7) then tileRead g t row col else v
  | none => tileRead g t row col

def execVaccrd (w : VWord) (s : State) :=
  vectorWordIf 0x70 w VCtx.accNameOk (fun c s =>
    match c.accRows s true c.activeLanes .read with
    | .error x => x
    | .ok (s, rows) =>
      c.deliverLoad s .w32 (rows.map fun p => (p.1, racingRead s c.e.wg c.accTile p.2 (c.accCol p.1))) []) s

def execVaccwr (w : VWord) (s : State) :=
  vectorWordIf 0x71 w VCtx.accNameOk (fun c s =>
    match c.accRows s false c.workLanes .write with
    | .error x => x
    | .ok (s', rows) =>
      .done (putTiles s' c.e.sid.wg (rows.map fun p => (c.accTile, p.2, c.accCol p.1, c.rdB s p.1))) (.u 0)) s

/-- One scaling of an element: FP32 rounded to nearest even, or the product of integers modulo 2^32. -/
def scaleElem (t : Ty) (old x : Nat) : Nat :=
  if t = .f32 then roundF .f32 ((decodeF .f32 old).mul (decodeF .f32 x)) .rn else old * x % 2 ^ 32

def execVaccscl (w : VWord) (s : State) :=
  vectorWordIf 0x72 w VCtx.accNameOk (fun c s =>
    match c.accRows s true c.workLanes .rmw with
    | .error x => x
    | .ok (s', rows) =>
      .done (putTiles s' c.e.sid.wg (rows.map fun p =>
        (c.accTile, p.2, c.accCol p.1, scaleElem c.w.ty (tileRead c.e.wg c.accTile p.2 (c.accCol p.1)) (c.rdB s p.1)))) (.u 0)) s

end Sys2Proof.Machine
end

