-- ==== Sys2Proof/Machine/Launch.lean ====
section
/-! DEFINITION. Launch descriptors, submission, queues, and the words that launch, count and cancel (01 R15 to R20; 07 R205 to
R207; 17 R320 to R322, R327). -/

namespace Sys2Proof.Machine

open Sys2Proof

/-! ## The launch descriptor (17 R322, 02 R51, R52) -/

def roleOf : Nat → Option Role
  | 0 => some .vector
  | 1 => some .copy
  | 2 => some .matrix
  | _ => none

/-- Bits of a word from `n` upward are zero. -/
def zeroFrom (v n : Nat) : Bool := v / 2 ^ n == 0

/-- 02 R51, R52. -/
def pwordOk (p strands regs : Nat) : Bool :=
  let rg := bitsOf p 6 6
  let sc := bitsOf p 12 6
  let ac := bitsOf p 18 6
  zeroFrom p 25 && bitsOf p 0 6 == 0 && decide (1 ≤ rg) && decide (sc ≤ 48) && decide (ac ≤ 32)
    && decide (rg + sc + ac ≤ 48) && decide (strands * regs * 128 ≤ rg * 65536)

def pairsOk (pairs strands : Nat) (roles : List Role) : Bool :=
  zeroFrom pairs 16 && (List.range 16).all fun i => !bitOf pairs i ||
    (decide (2 * i + 1 < strands) && decide (roles[2 * i]? = some .matrix) && decide (roles[2 * i + 1]? = some .matrix))

/-- The descriptor of 256 bytes, or `none` where it breaks a limit. -/
def parseLaunch (bs : List Byte) : Option LaunchDesc :=
  let f (o n : Nat) : Nat := fieldNat bs o n
  let strands := f 40 1
  let regs := f 41 1
  let roles? := (List.range strands).mapM fun i => roleOf (bitsOf (f 48 8) (2 * i) 2)
  match roles? with
  | none => none
  | some roles =>
    let masks := (List.range 16).map fun i => f (128 + 4 * i) 4
    let ok := f 0 8 % 4 == 0 && f 8 8 % 16 == 0 && f 16 8 % 512 == 0
      && decide (1 ≤ f 28 4) && decide (1 ≤ f 32 4) && decide (1 ≤ f 36 4) && decide (f 28 4 * f 32 4 * f 36 4 < 2 ^ 32)
      && decide (1 ≤ strands) && decide (strands ≤ 32) && decide (8 ≤ regs) && decide (regs ≤ 128) && regs % 8 == 0
      && decide (1 ≤ f 42 1) && decide (f 42 1 ≤ 16) && zeroFrom (f 43 1) 1 && zeroFrom (f 44 1) 4 && zeroFrom (f 45 1) 1
      && zeroFrom (f 46 1) 6 && decide (f 47 1 ≤ 3) && zeroFrom (f 48 8) (2 * strands)
      && pairsOk (f 56 4) strands roles && masks.all (fun m => zeroFrom m strands)
      && decide (512 ≤ f 192 4) && f 192 4 % 512 == 0
      && pwordOk (f 24 4) strands regs
    if !ok then none else some
      { scalarBase := f 0 8, vectorBase := f 8 8, privateBase := f 16 8, pword := BitVec.ofNat 32 (f 24 4),
        grid := (f 28 4, f 32 4, f 36 4), strands := strands, regs := regs, cluster := f 42 1, priv := bitOf (f 43 1) 0,
        queue := f 44 1, overlap := bitOf (f 45 1) 0, fifos := f 46 1, copyQueue := Fin.ofNat 4 (f 47 1), roles := roles,
        pairs := f 56 4, watchdog := f 60 4, entries := (List.range 32).map fun i => f (64 + 2 * i) 2,
        barMasks := masks.map (BitVec.ofNat 32), stride := f 192 4 }

def LaunchDesc.workgroups (d : LaunchDesc) : Nat := d.grid.1 * d.grid.2.1 * d.grid.2.2

/-- Granules that a workgroup takes (17 R321). -/
def LaunchDesc.granules (d : LaunchDesc) : Nat :=
  bitsOf d.pword.toNat 6 6 + bitsOf d.pword.toNat 12 6 + bitsOf d.pword.toNat 18 6

/-- Strands of a workgroup in a quadrant (01 R7). -/
def LaunchDesc.inQuadrant (d : LaunchDesc) (q : Nat) : Nat := (List.range d.strands).countP fun i => i % 4 == q

/-- The most workgroups of a launch that one core can hold. -/
def LaunchDesc.perCore (d : LaunchDesc) : Nat :=
  let byQ := (List.range 4).foldl (fun m q => if d.inQuadrant q = 0 then m else min m (8 / d.inQuadrant q)) 8
  let n := min byQ (48 / max 1 d.granules)
  if d.fifos = 0 then n else min n 1

/-- Whether a context's barrier table has a valid entry of a level: a launch of it then names that level (log 28). -/
def usesBarrier (s : State) (ctx level : Nat) : Bool :=
  match s.contexts.get? ctx with
  | some c => c.img.barriers.any fun b => bitOf b.toNat 7 && bitsOf b.toNat 5 2 == level
  | none => false

/-- A launch that must be placed whole on one die is refused where one die cannot hold it (17 R325), its clusters each
whole in one of the die's 12 cells of 4 cores (01 R21). -/
def fitsDie (s : State) (ctx : Nat) (d : LaunchDesc) : Bool :=
  let cell := 4 * d.perCore
  let full := d.workgroups / d.cluster
  let rest := d.workgroups % d.cluster
  let most := 12 * (cell / d.cluster)
  !usesBarrier s ctx 2 || (if d.cluster ≤ 1 then decide (d.workgroups ≤ Config.coresPerDie * d.perCore)
    else decide (full < most) || (full == most && decide (rest ≤ cell % d.cluster)))

/-! ## Queues (17 R320, R327) -/

/-- The launch queue that a handle names in a context of a world. -/
def queueOfHandle (s : State) (world ctx h : Nat) : Option Nat :=
  match (s.contexts.get? ctx).bind fun c => c.img.handles.getD h none with
  | some (.launchQueue n) => if ((s.worlds.get? world).bind fun w => w.queues.get? n).isSome then some n else none
  | _ => none

/-- Whether a launch has begun to run and is not complete. -/
def runningLaunch (s : State) (id : Nat) (l : Launch) : Bool :=
  l.firstPlaced.isSome && (match s.inst? ⟨.launch, id⟩ with
    | some x => decide (x.state = .running)
    | none => false)

/-- The launch queue that a launch's descriptor names: the one it was accepted in, through the context that submitted it;
for a launch of a graph unit through its own context. -/
def namedQueue (s : State) (l : Launch) : Option Nat :=
  match l.queue with
  | some (n, _) => some n
  | none => queueOfHandle s l.world l.ctx l.desc.queue

/-- Whether a launch's reservation in the queue its descriptor names is free: no pending child holds it. -/
def holdsReservation (s : State) (world num : Nat) (p : Nat × Launch) : Bool :=
  runningLaunch s p.1 p.2 && decide (p.2.depth ≤ 7) && p.2.world == world
    && decide (namedQueue s p.2 = some num)
    && !s.launches.any fun c => decide (c.2.parent = some p.1) && c.2.reserved
        && (match s.inst? ⟨.launch, c.1⟩ with | some x => !x.settled && decide (x.state ≠ .done) | none => false)

/-- An entry for a new launch: `some false` unreserved, `some true` the issuing launch's reservation, `none` full. -/
def freeEntry (s : State) (world num : Nat) (q : LaunchQueue) (parent : Option Nat) : Option Bool :=
  let free := Config.launchQueueEntries - q.pending.length
  let held := s.launches.countP (holdsReservation s world num)
  if held < free then some false
  else match parent with
    | some p => match s.launches.get? p with
      | some l => if 0 < free ∧ holdsReservation s world num (p, l) then some true else none
      | none => none
    | none => none

/-! ## Making a launch (01 R15 to R20) -/

def Inst.fresh (parent : Option InstId) (ctx frame : Nat) : Inst :=
  { completed := 0, cancelled := 0, state := .running, settled := false, parent := parent, ctx := ctx, frame := frame,
    closed := false }

/-- The world's job, made where it has none that is open. -/
def openJob (s : State) (world : Nat) : State × InstId :=
  match (s.worlds.get? world).bind World.job with
  | some j => (s, ⟨.job, j⟩)
  | none =>
    let j : InstId := ⟨.job, s.nextId⟩
    let s := s.modWorld world fun w => { w with job := some s.nextId }
    ({ s with insts := s.insts.set j (Inst.fresh none 0 0), nextId := s.nextId + 1 }, j)

/-- A new instance takes CANCELLED where its parent already has it: nothing below a cancelled instance is launched. -/
def addInst (s : State) (i : InstId) (parent : Option InstId) (ctx frame : Nat) : State :=
  let dead : Bool := match parent.bind fun p => s.inst? p with
    | some p => decide (p.state = .cancelled)
    | none => false
  let x := Inst.fresh parent ctx frame
  { s with insts := s.insts.set i (if dead then { x with state := .cancelled } else x) }

/-- A launch outside any graph: its implicit graph's run and phase, and its place in the queue (01 R20). Answers its
timeline number. -/
def acceptLaunch (s : State) (world num : Nat) (q : LaunchQueue) (descAddr : Nat) (d : LaunchDesc) (depth : Nat)
    (parent : Option Nat) (issuer : Option StrandId) (reserved : Bool) : State × Nat :=
  let (s, job) := openJob s world
  let k := s.nextId
  let s := { s with nextId := k + 1 }
  let s := addInst s ⟨.phase, k⟩ (some job) q.ctx 0
  let s := addInst s ⟨.run, k⟩ (some ⟨.phase, k⟩) q.ctx 0
  let s := addInst s ⟨.launch, k⟩ (some ⟨.run, k⟩) q.ctx 0
  let l : Launch :=
    { world := world, ctx := q.ctx, graphMade := false, node := 0, run := k, frame := 0, descAddr := descAddr, desc := d,
      depth := depth, parent := parent, queue := some (num, q.next), errors := 0, batch := none, frag := none, placed := 0,
      total := d.workgroups, firstPlaced := none, pausedAt := none, prevOfNode := none, dropped := false, issuer := issuer,
      reserved := reserved }
  let s := { s with launches := s.launches.set k l }
  (s.modWorld world fun w =>
    { w with queues := w.queues.modify num fun q => { q with next := q.next + 1, pending := q.pending ++ [(q.next, k)] } }, q.next)

/-! ## SLAUNCH (07 R205) -/

/-- What becomes of a submission, in the order that decides. -/
inductive Submitted
  | refused
  | deep
  | full
  | accepted (s : State) (num : Nat)

def submit (s : State) (world ctx descAddr : Nat) (bs : List Byte) (mayW : Bool) (parent : Option (Nat × Launch))
    (issuer : Option StrandId) : Submitted :=
  match parseLaunch bs with
  | none => .refused
  | some d => match queueOfHandle s world ctx d.queue with
    | none => .refused
    | some num => match (s.worlds.get? world).bind fun w => w.queues.get? num with
      | none => .refused
      | some q =>
        if (d.priv && !mayW) || !fitsDie s q.ctx d then .refused
        else
          let depth := match parent with
            | some p => p.2.depth + 1
            | none => 0
          if 8 < depth then .deep
          else match freeEntry s world num q (parent.map Prod.fst) with
            | none => .full
            | some r =>
              let a := acceptLaunch s world num q descAddr d depth (parent.map Prod.fst) issuer r
              .accepted a.1 a.2

def slaunchBody (d a : SReg) (nb : Bool) (e : Env) (s : State) : Eff :=
  let va := (e.st.rd a).toNat
  if 2 ^ 57 ≤ va then .fault s { code := .access, access := .read, addr := va }
  else if va % 64 ≠ 0 then .fault s { code := .align, access := .read, addr := va }
  else
    let r := release s e.sid (some .dev)
    if !r.2 then .wait r.1 .retry else
    match strandBytes e r.1 va 256 with
    | .error x => x
    | .ok (s, bs) =>
      let put (s : State) (v : Int) : Eff := .done (s.modStrand e.sid fun st => st.wr d (BitVec.ofInt 64 v))
      match submit s e.world e.l.ctx va bs e.priv (some (e.wg.launch, e.l)) (some e.sid) with
      | .refused => put s (-2)
      | .deep => put s (-1)
      | .full => if nb then put s 0 else .wait s (.slaunch d a)
      | .accepted s n => put s n

def execSlaunch (g : Guard) (d a : SReg) (nb : Bool) (s : State) := scalarWord g 4 noCheck (slaunchBody d a nb) s

def execSlaunchReturn (sid : StrandId) (s : State) : Host.Outcome State Fault Refusal :=
  .next (resumeWord s sid fun _ w => match w with
    | .slaunch d a => some (4, slaunchBody d a false)
    | _ => none)

/-! ## Levels, SCNT and SCANCEL (01 R17 to R19; 07 R206, R207) -/

/-- The instance at a level above (or at) an instance. -/
def climb (s : State) (lv : Level) : Nat → InstId → Option InstId
  | 0, _ => none
  | n + 1, i => if i.level = lv then some i else match (s.inst? i).bind Inst.parent with
    | some p => climb s lv n p
    | none => none

def InstState.num : InstState → Nat
  | .running => 0
  | .done => 1
  | .cancelled => 2

def execScnt (g : Guard) (d : SReg) (v : CountItem) (l : Level) (s : State) :=
  scalarWord g 4 noCheck (setsReg d fun e s =>
    match (climb s l 6 (unitOf e.sid.wg)).bind s.inst? with
    | some x => match v with
      | .completed => x.completed
      | .cancelled => x.cancelled
      | .state => BitVec.ofNat 64 x.state.num
      | .errors => zext32 e.l.errors
    | none => 0) s

/-- The cancel of an instance, with the status it answers (01 R19). -/
def cancelStatus (s : State) (i : InstId) : State × Nat :=
  match s.inst? i with
  | none => (s, 3)
  | some x => match x.state with
    | .done => (s, 1)
    | .cancelled => (s, 2)
    | .running => (cancelInst s i, 0)

/-! ## Submission and queues by a world's runtime (17 R320, R322) -/

/-- Takes the first input where it is of the event's kind. Outside W0 requests wait, and none is lost (19 R367). -/
def takeInput {α : Type} (s : State) (f : Input → Option α) : Option (State × α) :=
  if s.power.state ≠ .w0 then none else
  if s.trust.stage = .halted then none else
  match s.inbox with
  | [] => none
  | x :: rest => (f x).map fun v => ({ s with inbox := rest }, v)

def execLaunchSubmission (s : State) : Host.Outcome State Fault Refusal :=
  .next (match takeInput s fun x => match x with | .submit w c d => some (w, c, d) | _ => none with
    | none => s
    | some (s, world, ctx, desc) =>
      if desc % 64 ≠ 0 then s.tell world (.launchRefused world desc)
      else match readNow s (s.worldDie world) world desc 256 true with
        | (s, .error _) => s.tell world (.launchRefused world desc)
        | (s, .ok bs) => match submit s world ctx desc bs true none none with
          | .accepted s n => s.tell world (.launchAccepted world n)
          | _ => s.tell world (.launchRefused world desc))

/-- A queue is created with a priority and a context; its timeline starts from 1. The system class is world 0's. -/
def execQueueCreate (s : State) : Host.Outcome State Fault Refusal :=
  .next (match takeInput s fun x => match x with | .createQueue w n p c => some (w, n, p, c) | _ => none with
    | none => s
    | some (s, world, num, prio, ctx) =>
      let bound := match s.contexts.get? ctx with
        | some c => c.world == world
        | none => false
      let free := match s.worlds.get? world with
        | some w => w.alive && (w.queues.get? num).isNone
        | none => false
      if bound && free && decide (num < 64) && (decide (prio ≤ 3) || (prio == 4 && world == 0)) then
        s.modWorld world fun w => { w with queues := w.queues.set num ⟨prio, ctx, 1, []⟩ }
      else s)

/-- A queue with no launch pending is destroyed (16 R307). -/
def execQueueDestroy (s : State) : Host.Outcome State Fault Refusal :=
  .next (match takeInput s fun x => match x with | .destroyQueue w n => some (w, n) | _ => none with
    | none => s
    | some (s, world, num) => s.modWorld world fun w =>
      { w with queues := w.queues.filter fun p => !(p.1 == num && p.2.pending.isEmpty) })

/-- The runtime closes the world's job; it completes once its phases have (INSTANCE_COMPLETE). -/
def execJobClose (s : State) : Host.Outcome State Fault Refusal :=
  .next (match takeInput s fun x => match x with | .closeJob w => some w | _ => none with
    | none => s
    | some (s, world) => match (s.worlds.get? world).bind World.job with
      | none => s
      | some j =>
        let s := s.modInst ⟨.job, j⟩ fun x => { x with closed := true }
        s.modWorld world fun w => { w with job := none })

end Sys2Proof.Machine
end

