-- ==== Sys2Proof/Machine/PicotUnit.lean ====
section
/-! DEFINITION. Picots: installing a routine, the word that invokes it, and its invocations at the home (03 R84; 06 R173 to
R175; 08 R235; 09 R267 to R269). -/

namespace Sys2Proof.Machine

open Sys2Proof

/-! ## Picot words (06 R173, R174) -/

structure PWord where
  op : Nat
  d : Nat
  a : Nat
  b : Nat
  imm : Nat

def pword (w : W32) : PWord :=
  let v := w.toNat
  ⟨bitsOf v 26 6, bitsOf v 20 6, bitsOf v 14 6, bitsOf v 8 6, bitsOf v 0 8⟩

namespace PWord

def assigned (p : PWord) : Bool := (1 ≤ p.op && p.op ≤ 0x13) || p.op == 0x3F
def isEnd (p : PWord) : Bool := p.op == 0x3F

/-- Fields that an op uses: destination, a, b, imm8 (R268). -/
def usesD (p : PWord) : Bool := p.op != 2 && !p.isEnd
def usesA (p : PWord) : Bool := !p.isEnd
def usesB (p : PWord) : Bool := !(p.op == 1 || p.op == 3 || p.op == 0x10 || p.op == 0x11 || p.isEnd)
def usesImm (p : PWord) : Bool := 0x10 ≤ p.op && p.op ≤ 0x13

/-- −1: an illegal op, or a bit set in a field the op does not use; a condition code that is reserved too (DESIGN CHOICE, log
164). -/
def legal (p : PWord) : Bool :=
  p.assigned && (p.usesD || p.d == 0) && (p.usesA || p.a == 0) && (p.usesB || p.b == 0) && (p.usesImm || p.imm == 0)
    && (if p.op = 0x10 ∨ p.op = 0x11 then decide (p.imm < 32) else true)
    && (if p.op = 0x12 then (condOf p.imm).isSome else true)

/-- The operand indexes that the word reads. -/
def reads (p : PWord) : List Nat :=
  (if p.usesA then [p.a] else []) ++ (if p.usesB then [p.b] else []) ++ (if p.op = 0x13 then [p.imm] else [])

/-- −2: an index beyond the operands, the third source of a PSEL among them (DESIGN CHOICE, log 164). -/
def indexed (p : PWord) : Bool := p.reads.all (· < 56) && (!p.usesD || decide (p.d < 56))

/-- −3: an invoker's operand is not written. -/
def dstLegal (p : PWord) : Bool := !(p.usesD && decide (32 ≤ p.d) && decide (p.d < 40))

def cycles (p : PWord) : Nat := if p.op = 0x0A ∨ p.op = 0x0B ∨ p.op = 0x0C then 2 else 1

end PWord

/-- The status of a routine, in the table's order (log 34): 0 where it is legal. -/
def picotStatus (ws : List PWord) : Int :=
  if !ws.all PWord.legal then -1
  else if !ws.all PWord.indexed then -2
  else if !ws.all PWord.dstLegal then -3
  else if !((ws.getLast?.map PWord.isEnd).getD false) || (ws.dropLast.any PWord.isEnd) then -4
  else if 64 < (ws.map PWord.cycles).foldl (· + ·) 0 then -5
  else 0

/-- 1 + the highest index of a group of eight, or 0. -/
def highest (base : Nat) (l : List Nat) : Nat :=
  (l.filter fun i => base ≤ i ∧ i < base + 8).foldl (fun m i => max m (i - base + 1)) 0

def picotOf (ws : List W32) : Picot :=
  let ps := ws.map pword
  { words := ws, ni := highest 32 (ps.map PWord.reads).flatten,
    nr := highest 48 (ps.map fun p => if p.usesD then [p.d] else []).flatten }

/-! ## Running a routine (09 R268) -/

/-- The 56 operand words of an invocation: the line, the invoker's words, temporaries, results. -/
def picotStart (line ops : List W32) : List W32 :=
  (List.range 32).map (fun i => line.getD i 0) ++ (List.range 8).map (fun i => ops.getD i 0) ++ List.replicate 16 0

/-- FP32 arithmetic to nearest even. -/
def pf (f : FVal → FVal → FVal) (x y : W32) : W32 :=
  BitVec.ofNat 32 (roundF .f32 (f (decodeF .f32 x.toNat) (decodeF .f32 y.toNat)) .rn)

def picotStep (m : List W32) (p : PWord) : List W32 :=
  let a := m.getD p.a 0
  let b := m.getD p.b 0
  let put (v : W32) : List W32 := m.set p.d v
  match p.op with
  | 0x01 => put (m.getD (a.toNat % 32) 0)
  | 0x02 => m.set (b.toNat % 32) a
  | 0x03 => put a
  | 0x04 => put (a + b)
  | 0x05 => put (a - b)
  | 0x06 => put (if a.toInt ≤ b.toInt then a else b)
  | 0x07 => put (if a.toInt ≤ b.toInt then b else a)
  | 0x08 => put (if a.toNat ≤ b.toNat then a else b)
  | 0x09 => put (if a.toNat ≤ b.toNat then b else a)
  | 0x0A => put (pf (fun x y => x.add y .rn) a b)
  | 0x0B => put (pf FVal.min a b)
  | 0x0C => put (pf FVal.max a b)
  | 0x0D => put (a &&& b)
  | 0x0E => put (a ||| b)
  | 0x0F => put (a ^^^ b)
  | 0x10 => put (a <<< (p.imm % 32))
  | 0x11 => put (a >>> (p.imm % 32))
  | 0x12 =>
    let c := (condOf p.imm).getD .eq
    put (if (if c.isFloat then floatCond c (decodeF .f32 a.toNat) (decodeF .f32 b.toNat) else intCond c 32 a.toNat b.toNat)
      then 1 else 0)
  | 0x13 => put (if m.getD p.imm 0 ≠ 0 then a else b)
  | _ => m

/-- The line after an invocation, and its results. -/
def runPicot (r : Picot) (line ops : List W32) : List W32 × List W32 :=
  let m := r.words.foldl (fun m w => picotStep m (pword w)) (picotStart line ops)
  (m.take 32, (m.drop 48).take r.nr)

/-! ## PICINS (09 R267) -/

def words32 (bs : List Byte) : List W32 := (List.range (bs.length / 4)).map fun i => BitVec.ofNat 32 (fieldNat bs (4 * i) 4)

def execPicins (g : Guard) (d a b : SReg) (last : Fin 32) (s : State) :=
  scalarWord g 4 noCheck (fun e s =>
    let put (s : State) (v : Int) : Eff := .done (s.modStrand e.sid fun st => st.wr d (BitVec.ofInt 64 v))
    let va := (e.st.rd a).toNat
    let h := (e.st.rd b).toNat
    if !e.priv then .fault s { code := .access }
    else if va = 0 then
      if 256 ≤ h then put s (-6)
      else .wait (s.modWorld e.world fun w => { w with picots := w.picots.erase h }) (.picins d)
    else if 2 ^ 57 ≤ va then .fault s { code := .access, access := .read, addr := va }
    else if va % 4 ≠ 0 then .fault s { code := .align, access := .read, addr := va }
    else match strandBytes e s va (4 * (last.val + 1)) with
      | .error x => x
      | .ok (s, bs) =>
        let ws := words32 bs
        let k := picotStatus (ws.map pword)
        if k ≠ 0 then put s k
        else if 256 ≤ h then put s (-6)
        else .wait (s.modWorld e.world fun w => { w with picots := w.picots.set h (picotOf ws) }) (.picins d)) s

/-- Every slice of every die serves the new table: the word ends with status 0. -/
def execPicinsComplete (sid : StrandId) (s : State) : Host.Outcome State Fault Refusal :=
  .next (resumeWord s sid fun e w => match w with
    | .picins d => some (4, fun _ s => .done (s.modStrand e.sid fun st => st.wr d 0))
    | _ => none)

/-! ## VPICOT (08 R235) -/

/-- The operand `j` places after an operand. -/
def operandPlus (o : Operand) (j : Nat) : Operand :=
  match o with
  | .reg i => .reg (Fin.ofNat 128 (i.val + j))
  | .latch i => .latch (Fin.ofNat 128 (i.val + j))
  | .special i => .special (Fin.ofNat 128 (i.val + j))
  | .imm => .imm

def operandIndex : Operand → Nat
  | .reg i | .latch i | .special i => i.val
  | .imm => 0

namespace VCtx

/-- The routine that the handle in imm32[15:0] names. -/
def routine (c : VCtx) (s : State) : Option Picot := (s.worlds.get? c.e.world).bind fun w => w.picots.get? c.w.imm.toNat

/-- The handle is translated, and the runs of registers lie within the allocation. -/
def picotNamesOk (c : VCtx) (s : State) : Bool :=
  match c.routine s with
  | none => false
  | some r =>
    decide (c.w.dst.val + r.nr ≤ c.n) && (List.range r.ni).all fun j =>
      decide (operandIndex c.w.b + j < 128) && c.nameOk .val .w32 (operandPlus c.w.b j)

/-- An operand register of the run that a return is still to write. -/
def picotWaits (c : VCtx) (r : Picot) : Bool :=
  c.st.returns.any fun x => x.regs.any fun p => (List.range r.ni).any fun j => decide (operandPlus c.w.b j = .reg (Fin.ofNat 128 p.1))

/-- The registers of the operand run. -/
def picotRegs (c : VCtx) (r : Picot) : List Nat := (List.range r.ni).filterMap fun j => match operandPlus c.w.b j with
  | .reg i => some i.val
  | _ => none

/-- Each line is checked before the first invocation of the word (R269). -/
def picotPlaces (c : VCtx) (s : State) : Except VEff (State × List (Lane × Nat)) :=
  c.eachLane s c.activeLanes .rmw fun l s' =>
    (s', match c.place s' (c.rdA s l) 1 .rmw with
      | .error x => .error x
      | .ok (pa, _) =>
        if !c.helper l && !isRemote pa && s'.mem.poisoned (128 * lineOf pa) 128 then .error (.bad .poison (c.rdA s l))
        else .ok pa)

/-- The results go to the registers, and the split goes on. -/
def picotDone (c : VCtx) (s : State) (p : PicotWord) : State :=
  let val (j : Nat) (l : Lane) : W32 := ((p.results.find? fun r => r.1 = l.val).map fun r => r.2.getD j 0).getD 0
  let s := if p.word.nowb then s else s.modStrand c.e.sid fun st =>
    { st with
      v := (List.range p.routine.nr).foldl (fun v j =>
        let d := p.word.dst.val + j
        setVReg v d (.g (lanes fun l => if laneBit p.active l then val j l else (v.getD d (.u 0)).lane l))) st.v
      badRegs := st.badRegs.filter fun b =>
        !(decide (p.word.dst.val ≤ b.1) && decide (b.1 < p.word.dst.val + p.routine.nr) && p.active.getLsbD b.2) }
  let s := s.modStrand c.e.sid fun st => { st with picot := none }
  c.advance s (if p.routine.nr = 0 then .u 0 else .g (lanes fun l => if laneBit p.active l then val 0 l else 0))

end VCtx

def execVpicot (w : VWord) (s : State) :=
  vectorWordIf 0x67 w VCtx.picotNamesOk (fun c s =>
    match c.routine s with
    | none => .fault s { code := .illegalOperand }
    | some r =>
      if c.st.picot.isSome || c.picotWaits r then .wait s else
      if c.badLanes (c.picotRegs r) ≠ 0 then .fault s (c.poisonOf (c.picotRegs r)) else
      match c.picotPlaces s with
      | .error x => x
      | .ok (s', ps) =>
        let q := VCtx.settle s' c.e.sid c.scope
        if !q.2 then .wait q.1 else
        -- a helper lane invokes nothing and gets zeros; what a remote window returns is free (log 26)
        let none' := (ps.filter fun p => c.helper p.1).map fun p => (p.1.val, List.replicate r.nr (0 : W32))
        let far := (ps.filter fun p => !c.helper p.1 && isRemote p.2).map fun p =>
          (p.1.val, words32 (readDie s' c.e.die c.e.world p.2 (4 * r.nr)).2)
        let todo := (ps.filter fun p => !c.helper p.1 && !isRemote p.2).map fun p =>
          ({ lane := p.1.val, line := lineOf p.2,
             ops := (List.range r.ni).map fun j => BitVec.ofNat 32 (c.read s .w32 (operandPlus c.w.b j) p.1) } : Invocation)
        let p : PicotWord :=
          { slot := c.slot, word := c.w, routine := r, todo := todo, results := none' ++ far, active := c.activeMask }
        .wait (q.1.modStrand c.e.sid fun st => { st with picot := some p })) s

/-- One invocation of a strand's word: the line is replaced at its home. Answers the results. -/
def invoke (s : State) (e : Env) (r : Picot) (x : Invocation) : State × List W32 :=
  let s := s.homeLine e.die x.line
  let v := runPicot r (words32 (s.mem.home.read (128 * x.line) 128)) x.ops
  let s := s.performAt e.die e.world (128 * x.line) ((v.1.map fun w => natLE 4 w.toNat).flatten)
  ({ s with mem := s.mem.l1Drop e.core x.line }, v.2)

/-- The last invocation is done: the word ends. That of a strand ended by a fault meanwhile has nothing to write to (18 R349). -/
def picotEnds (s : State) (e : Env) (p : PicotWord) : State :=
  match e.st.slots[p.slot], e.st.laneQ with
  | some sp, blk :: _ => VCtx.picotDone ⟨e, p.slot, sp, blk, 0x67, p.word⟩ s p
  | _, _ => s.modStrand e.sid fun st => { st with picot := none }

/-- One invocation, at one place in home order; after the last the word ends. A word whose lanes all invoke nothing ends
here too. -/
def execPicotInvocation (sid : StrandId) (s : State) : Host.Outcome State Fault Refusal :=
  .next (match s.env? sid with
    | none => s
    | some e => match e.st.picot with
      | none => s
      | some p => match p.todo with
        | [] => picotEnds s e p
        | x :: rest =>
          let r := invoke s e p.routine x
          let p' : PicotWord := { p with todo := rest, results := p.results ++ [(x.lane, r.2)] }
          if rest = [] then picotEnds r.1 e p' else r.1.modStrand sid fun st => { st with picot := some p' })

end Sys2Proof.Machine
end

