-- ==== Sys2Proof/Machine/Raster.lean ====
section
/-! DEFINITION. The fixed-function nodes' arithmetic: raster state, exact coverage, quads, merge state, blending (05 R130 to
R135). -/

namespace Sys2Proof.Machine

open Sys2Proof

/-! ## Raster state (05 R130) -/

/-- The 64 bytes, or `none` where a limit is broken. -/
def parseRaster (bs : List Byte) : Option RasterState :=
  let f (o n : Nat) : Nat := fieldNat bs o n
  let w := f 16 2
  let h := f 18 2
  let r : RasterState :=
    { launch := f 0 8, merge := f 8 1, cull := f 9 1, front := f 10 1, attrs := f 11 1, queue := f 12 1, x0 := f 20 2, y0 := f 22 2,
      x1 := f 24 2, y1 := f 26 2 }
  if decide (r.cull ≤ 2) && decide (r.front ≤ 1) && decide (r.attrs ≤ 16) && decide (r.queue < 16)
      && decide (1 ≤ w) && decide (w ≤ 16384) && decide (1 ≤ h) && decide (h ≤ 16384) && decide (r.x0 < r.x1) && decide (r.x1 ≤ w)
      && decide (r.y0 < r.y1) && decide (r.y1 ≤ h)
  then some r else none

/-! ## Exact coverage (05 R131, R132) -/

/-- A finite value as a rational. -/
def ratOf : FVal → Option Rat
  | .fin neg n d => some (mkRat (sgn neg n) d)
  | _ => none

/-- A vertex: its coordinates as they stand, signed zeros with them (13 R294), and x and y as rationals. -/
structure Vertex where
  fx : FVal
  fy : FVal
  fz : FVal
  x : Rat
  y : Rat
  deriving DecidableEq, Repr

/-- A triangle with finite positions, its area term and the sign of it. -/
structure Tri where
  p0 : Vertex
  p1 : Vertex
  p2 : Vertex
  deriving DecidableEq, Repr

/-- `E_jk(x, y)`. -/
def edgeFn (j k : Vertex) (x y : Rat) : Rat := (k.x - j.x) * (y - j.y) - (k.y - j.y) * (x - j.x)

def Tri.area (t : Tri) : Rat := edgeFn t.p0 t.p1 t.p2.x t.p2.y

/-- Word `i` of vertex `v` of a triangle record's payload, which has `3 + a` words a vertex. -/
def vertexWord (payload : List W32) (a v i : Nat) : W32 := payload.getD (v * (3 + a) + i) 0

def vertexOf (payload : List W32) (a v : Nat) : Option Vertex := do
  let f (i : Nat) : FVal := decodeF .f32 (vertexWord payload a v i).toNat
  let x ← ratOf (f 0)
  let y ← ratOf (f 1)
  let _ ← ratOf (f 2)
  pure ⟨f 0, f 1, f 2, x, y⟩

/-- The triangle of a record, where it is not degenerate and not culled. -/
def triOf (r : RasterState) (payload : List W32) : Option Tri := do
  let p0 ← vertexOf payload r.attrs 0
  let p1 ← vertexOf payload r.attrs 1
  let p2 ← vertexOf payload r.attrs 2
  let t : Tri := ⟨p0, p1, p2⟩
  let facing := if 0 < t.area then r.front == 1 else r.front == 0
  if t.area = 0 ∨ (r.cull = 1 ∧ facing = false) ∨ (r.cull = 2 ∧ facing = true) then none else some t

/-- Whether an edge, oriented with the triangle on its positive side, has a centre on it or beyond. -/
def edgeIn (pos : Bool) (j k : Vertex) (x y : Rat) : Bool :=
  let e := if pos then edgeFn j k x y else -edgeFn j k x y
  let dx := if pos then k.x - j.x else j.x - k.x
  let dy := if pos then k.y - j.y else j.y - k.y
  decide (0 < e) || (decide (e = 0) && (decide (dy < 0) || (decide (dy = 0) && decide (0 < dx))))

/-- A pixel's centre in one coordinate, as a rational and as a value. -/
def centre (p : Nat) : Rat := mkRat (2 * p + 1) 2
def centreVal (p : Nat) : FVal := .fin false (2 * p + 1) 2

def covered (r : RasterState) (t : Tri) (px py : Nat) : Bool :=
  let x := centre px
  let y := centre py
  let pos := decide (0 < t.area)
  decide (r.x0 ≤ px) && decide (px < r.x1) && decide (r.y0 ≤ py) && decide (py < r.y1)
    && edgeIn pos t.p0 t.p1 x y && edgeIn pos t.p1 t.p2 x y && edgeIn pos t.p2 t.p0 x y

/-- A value rounded once to FP32, to nearest even. -/
def near32 (v : FVal) : W32 := BitVec.ofNat 32 (roundF .f32 v .rn)

/-- `E_jk(x, y)` as a value that keeps the sign of a zero (13 R294). -/
def edgeVal (j k : Vertex) (x y : FVal) : FVal :=
  ((k.fx.sub j.fx .rn).mul (y.sub j.fy .rn)).sub ((k.fy.sub j.fy .rn).mul (x.sub j.fx .rn)) .rn

/-- b1, b2 and z of a pixel, each computed exactly and rounded once to FP32, to nearest even. -/
def weights (t : Tri) (px py : Nat) : W32 × W32 × W32 :=
  let x := centreVal px
  let y := centreVal py
  let e20 := edgeVal t.p2 t.p0 x y
  let e01 := edgeVal t.p0 t.p1 x y
  let a := edgeVal t.p0 t.p1 t.p2.fx t.p2.fy
  let rise := (e20.mul (t.p1.fz.sub t.p0.fz .rn)).add (e01.mul (t.p2.fz.sub t.p0.fz .rn)) .rn
  (near32 (e20.div a), near32 (e01.div a), near32 (t.p0.fz.add (rise.div a) .rn))

/-! ## Quads and strands (05 R133) -/

/-- The pixels of a quad, in lane order. -/
def quadPixel (q : Nat × Nat) (k : Nat) : Nat × Nat := (q.1 + k % 2, q.2 + k / 2)

/-- The least and the greatest of three coordinates, as whole pixels within the scissor. -/
def spanOf (lo hi : Nat) (a b c : Rat) : Nat × Nat :=
  let l := (min a (min b c)).floor.toNat
  let h := (max a (max b c)).ceil.toNat
  (max lo (l - 1), min hi (h + 1))

/-- The quads of a triangle with a covered pixel, row by row. -/
def quadsOf (r : RasterState) (t : Tri) : List (Nat × Nat) :=
  let sx := spanOf r.x0 r.x1 t.p0.x t.p1.x t.p2.x
  let sy := spanOf r.y0 r.y1 t.p0.y t.p1.y t.p2.y
  let xs : List Nat := (List.range (sx.2 / 2 + 1 - sx.1 / 2)).map fun i => 2 * (sx.1 / 2 + i)
  let ys : List Nat := (List.range (sy.2 / 2 + 1 - sy.1 / 2)).map fun i => 2 * (sy.1 / 2 + i)
  ((ys.map fun y => xs.map fun x => (x, y)).flatten).filter fun q =>
    (List.range 4).any fun k => covered r t (quadPixel q k).1 (quadPixel q k).2

/-- Groups of at most eight. -/
def groups8 {α : Type} : Nat → List α → List (List α)
  | 0, _ => []
  | n + 1, l => if l.isEmpty then [] else l.take 8 :: groups8 n (l.drop 8)

/-- The strands that a batch's triangles fill: (triangle, its record's slot and payload). -/
def fragStrands (r : RasterState) (recs : List (Nat × List W32)) : List FragStrand :=
  ((List.range recs.length).map fun i =>
    let p := recs.getD i (0, [])
    match triOf r p.2 with
    | none => []
    | some t =>
      let qs := quadsOf r t
      (groups8 (qs.length + 1) qs).map fun g => ({ tri := i, order := p.1, quads := g } : FragStrand)).flatten

/-- What a fragment strand starts with: its lanes, and the values of v0 to v5. -/
structure FragStart where
  lanes : FragLanes
  base : W32
  helpers : W32
  regs : List (Vector W32 32)
  deriving DecidableEq, Repr

def fragStart (r : RasterState) (node frame : Nat) (payload : List W32) (f : FragStrand) : FragStart :=
  let px (l : Lane) : Nat × Nat := match f.quads[l.val / 4]? with
    | some q => quadPixel q (l.val % 4)
    | none => (0, 0)
  let base := maskOf fun l => (f.quads[l.val / 4]?).isSome
  match triOf r payload with
  | none =>
    { lanes := ⟨node, frame, r.merge, f.order, Vector.replicate 32 0, Vector.replicate 32 0, Vector.replicate 32 0, 0⟩,
      base := base, helpers := base, regs := [] }
  | some t =>
    let cov := maskOf fun l => laneBit base l && covered r t (px l).1 (px l).2
    let w (l : Lane) : W32 × W32 × W32 := weights t (px l).1 (px l).2
    let inQuad (f : Lane → W32) : Vector W32 32 := lanes fun l => if laneBit base l then f l else 0
    let z := inQuad fun l => (w l).2.2
    { lanes := ⟨node, frame, r.merge, f.order, lanes fun l => (px l).1, lanes fun l => (px l).2, z, cov⟩,
      base := base, helpers := base &&& ~~~cov,
      regs := [inQuad fun l => near32 (centreVal (px l).1), inQuad fun l => near32 (centreVal (px l).2), z,
        inQuad fun l => (w l).1, inQuad fun l => (w l).2.1, inQuad fun _ => BitVec.ofNat 32 (64 + 192 * f.tri)] }

/-- A triangle's attribute block: for attribute j the values of P0, P1 and P2. -/
def attrBlock (a : Nat) (payload : List W32) : List Byte :=
  ((List.range a).map fun j => ((List.range 3).map fun v => natLE 4 (vertexWord payload a v (3 + j)).toNat).flatten).flatten

/-! ## Merge state (05 R134, R135) -/

structure Target where
  base : Nat
  pitch : Nat
  format : Nat
  blend : Nat
  mask : Nat
  enable : Bool
  deriving DecidableEq, Repr

structure DepthState where
  base : Nat
  pitch : Nat
  compare : Nat
  write : Bool
  enable : Bool
  deriving DecidableEq, Repr

def pixelSize (f : Nat) : Nat := if f = 2 ∨ f = 3 then 2 else 4

def parseTarget (bs : List Byte) (i : Nat) : Target :=
  let f (o n : Nat) : Nat := fieldNat bs (32 * i + o) n
  { base := f 0 8, pitch := f 8 4, format := f 12 1, blend := f 13 1, mask := f 14 1, enable := f 15 1 == 1 }

def parseDepth (bs : List Byte) : DepthState :=
  let f (o n : Nat) : Nat := fieldNat bs (256 + o) n
  { base := f 0 8, pitch := f 8 4, compare := f 12 1, write := f 13 1 == 1, enable := f 14 1 == 1 }

def targetOk (bs : List Byte) (i : Nat) : Bool :=
  let t := parseTarget bs i
  let z := pixelSize t.format
  (decide (1 ≤ t.format) && decide (t.format ≤ 3) || decide (0x10 ≤ t.format) && decide (t.format ≤ 0x12))
    && decide (t.blend ≤ 4) && decide (t.mask < 16) && decide (fieldNat bs (32 * i + 15) 1 ≤ 1) && t.base % z == 0 && t.pitch % z == 0

/-- The limits of a merge state, for all eight entries, enabled or not. -/
def mergeOk (bs : List Byte) : Bool :=
  let d := parseDepth bs
  ((List.range 8).all (targetOk bs))
    && d.base % 4 == 0 && d.pitch % 4 == 0 && decide (d.compare ≤ 7) && decide (fieldNat bs 269 1 ≤ 1)
    && decide (fieldNat bs 270 1 ≤ 1)

/-- The depth comparison, with IEEE meaning (06 R161). -/
def depthPasses (compare : Nat) (z d : W32) : Bool :=
  let x := decodeF .f32 z.toNat
  let y := decodeF .f32 d.toNat
  let un := x.isNaN || y.isNaN
  match compare with
  | 0 => false
  | 1 => x.lt y
  | 2 => x.eq y
  | 3 => x.lt y || x.eq y
  | 4 => y.lt x
  | 5 => un || !x.eq y
  | 6 => y.lt x || x.eq y
  | _ => true

/-- A channel of a target pixel, as FP32 bits; one the format lacks reads 0.0. -/
def mergeDecode (f word ch : Nat) : W32 :=
  if 0x10 ≤ f then BitVec.ofNat 32 (pixelChannel f word ch)
  else if ch = 0 then BitVec.ofNat 32 (roundF .f32 (decodeFmt f word) .rn) else 0
where
  decodeFmt (f bits : Nat) : FVal := match f with
    | 1 => decodeF .f32 bits
    | 2 => decodeF .f16 bits
    | _ => decodeF .bf16 bits

/-- A channel clamped to [0, 1], NaN as 0: numerator and denominator. -/
def clamp01 (r : W32) : Nat × Nat :=
  match decodeF .f32 r.toNat with
  | .nan => (0, 1)
  | .inf neg => if neg then (0, 1) else (1, 1)
  | .fin neg n d => if neg then (0, 1) else if d < n then (1, 1) else (n, d)

/-- A channel as an unsigned normalised integer. -/
def toUnorm (r : W32) (m : Nat) : Nat :=
  let c := clamp01 r
  roundNat false (c.1 * m) c.2 .rn

/-- The word of a target pixel with one channel stored (05 R135, Encode). -/
def mergeEncode (f word ch : Nat) (r : W32) : Nat :=
  let put (lo n v : Nat) : Nat := word - bitsOf word lo n * 2 ^ lo + v % 2 ^ n * 2 ^ lo
  match f with
  | 0x10 => put (8 * ch) 8 (toUnorm r 255)
  | 0x11 =>
    let c := clamp01 r
    if ch = 3 then put 24 8 (toUnorm r 255) else put (8 * ch) 8 (toUnorm (BitVec.ofNat 32 (srgbEncode c.1 c.2)) 255)
  | 0x12 => if ch = 3 then put 30 2 (toUnorm r 3) else put (10 * ch) 10 (toUnorm r 1023)
  | _ =>
    if ch ≠ 0 then word
    else match f with
      | 1 => r.toNat
      | 2 => roundF .f16 (decodeF .f32 r.toNat) .rn
      | _ => roundF .bf16 (decodeF .f32 r.toNat) .rn

/-- One channel's blend. -/
def blendChannel (blend ch : Nat) (s : List W32) (d : W32) : W32 :=
  let v (x : W32) : FVal := decodeF .f32 x.toNat
  let rn (x : FVal) : W32 := BitVec.ofNat 32 (roundF .f32 x .rn)
  let sc := s.getD ch 0
  let s3 := s.getD 3 0
  let t := rn ((FVal.ofInt 1).sub (v s3) .rn)
  match blend with
  | 0 => sc
  | 1 =>
    let y := (v d).mul (v t)
    if ch = 3 then rn ((v s3).add y .rn) else rn (((v sc).mul (v s3)).add y .rn)
  | 2 => rn ((v sc).add (v d) .rn)
  | 3 => rn ((v sc).min (v d))
  | _ => rn ((v sc).max (v d))

/-- A target pixel's new word. Every channel blends with the pixel as it was. -/
def blendPixel (t : Target) (word : Nat) (s : List W32) : Nat :=
  (List.range 4).foldl (fun w c =>
    if bitOf t.mask c then mergeEncode t.format w c (blendChannel t.blend c s (mergeDecode t.format word c)) else w) word

end Sys2Proof.Machine
end

