-- ==== Sys2Proof/Machine/Graph.lean ====
section
/-! DEFINITION. The graph unit: frames and owners, ring accesses, delivery, substitution, batches and the launches it makes
(05 R116 to R129, R133, R146 to R149). -/

namespace Sys2Proof.Machine

open Sys2Proof

/-! ## Owners and frames -/

namespace Context

def node? (c : Context) (n : Nat) : Option NodeDesc := c.img.nodes[n]?
def edge? (c : Context) (e : Nat) : Option EdgeDesc := c.img.edges[e]?

def frameStart (c : Context) (f : Nat) : Int := (c.img.epoch + f * c.img.period : Nat)

/-- The last moment of a frame on an edge (05 R121). -/
def edgeDeadline (c : Context) (d : EdgeDesc) (f : Nat) : Int := c.frameStart f + d.budget

/-- The configuration that owns frame `f`: the new one from the effective frame of a committed move on (05 R149). -/
def cutOf (c : Context) (f : Nat) : Nat :=
  if c.move.state = .committed ∧ c.move.frame ≤ f then c.move.config
  else c.past.foldl (fun k p => if f < p.1 then p.2 else k) c.cut

/-- The phase of a frame's graph run (05 R149). -/
def phaseOf (c : Context) (f : Nat) : Nat :=
  let old := c.past.countP fun p => f < p.1
  if c.move.state = .committed then
    if c.move.phaseDone then (if f < c.move.frame then c.phase - 1 - old else c.phase)
    else (if c.move.frame ≤ f then c.phase + 1 else c.phase - old)
  else c.phase - old

/-- Whether configuration `k` places a node on the far chip (05 R137). -/
def farIn (c : Context) (k n : Nat) : Bool := match c.img.cuts[k]? with
  | some x => x.owner.getLsbD n
  | none => false

/-- Whether this chip owns a node in a frame; an unpaired context has one chip. -/
def mine (c : Context) (f n : Nat) : Bool := !c.img.paired || c.farIn (c.cutOf f) n == c.img.far

def sends (c : Context) (d : EdgeDesc) (f : Nat) : Bool := c.mine f d.producer
def receives (c : Context) (d : EdgeDesc) (f : Nat) : Bool := c.mine f d.consumer

def edgeLocal (c : Context) (d : EdgeDesc) (f : Nat) : Bool := c.sends d f && c.receives d f

/-- A node whose owner the move in progress changes. -/
def moving (c : Context) (n : Nat) : Bool := decide (c.move.state ≠ .idle) && c.farIn c.cut n != c.farIn c.move.config n

/-- A stage's hand-over is complete once the edge table and every datagram of the stage have arrived (05 R147). -/
def handed (c : Context) (n : Nat) : Bool := c.move.written.contains n

/-- Whether a node's launches of a frame may start now (05 R145, R146, R148). -/
def mayLaunch (c : Context) (n f : Nat) : Bool :=
  c.mine f n && (!c.moving n ||
    (match c.move.state with
      | .idle => true
      | .proposed | .acked | .aborting => decide (f < c.move.frame)
      | .committed => decide (f < c.move.frame) || c.handed n
      | .failed => false))

def edgeOf (c : Context) (e : Nat) : EdgeState :=
  (c.edges.get? e).getD ⟨0, 0, 0, 0, 0, 0, 0, c.first, [], [], ⟨0, 0, [], 0, [], 0⟩⟩

def modEdge (c : Context) (e : Nat) (f : EdgeState → EdgeState) : Context := { c with edges := c.edges.set e (f (c.edgeOf e)) }

def nodeOf (c : Context) (n : Nat) : NodeState := (c.nodes.get? n).getD ⟨none, [], none, [], false⟩

def modNode (c : Context) (n : Nat) (f : NodeState → NodeState) : Context := { c with nodes := c.nodes.set n (f (c.nodeOf n)) }

end Context

def recSize (d : EdgeDesc) : Nat := 32 * d.units

def selfEdge (d : EdgeDesc) : Bool := d.producer == d.consumer

/-- The ring address of record (f, s) (05 R119). -/
def recAddr (d : EdgeDesc) (f s : Nat) : Nat := d.ring + (f % d.frames * d.slots + s) * recSize d

namespace EdgeState

def frame? (x : EdgeState) (f : Nat) : Option EdgeFrame := x.frames.find? fun k => k.frame = f

def frameOf (x : EdgeState) (f : Nat) : EdgeFrame := (x.frame? f).getD ⟨f, [], [], 0, none, 0, false, [], [], []⟩

def putFrame (x : EdgeState) (k : EdgeFrame) : EdgeState :=
  { x with frames := (x.frames.filter fun y => y.frame ≠ k.frame) ++ [k] }

def closedAt (x : EdgeState) (f : Nat) : Bool := decide (f < x.base) || (x.frameOf f).closed

/-- The oldest frame that has not closed (05 R142). -/
def oldest (x : EdgeState) : Nat := x.base + ((List.range (x.frames.length + 1)).find? fun i => !x.closedAt (x.base + i)).getD 0

def payload? (x : EdgeState) (f s : Nat) : Option (List Byte) := (x.hist.get? f).bind fun m => m.get? s

def keep (x : EdgeState) (f s : Nat) (p : List Byte) : EdgeState :=
  { x with hist := x.hist.set f ((x.hist.getD f []).set s p) }

end EdgeState

def State.ctx? (s : State) (k : Nat) : Option Context := s.contexts.get? k

/-- The context's frame clock, in microseconds (05 R121). -/
def State.ctxNow (s : State) (c : Context) : Int := (s.micros : Int) + c.offset

/-! ## Accesses of the graph unit (18 R340) -/

/-- Why the graph unit stands still: a page that does not translate, or a fault whose record finds no free entry. -/
structure GStop where
  node : Nat
  flt : Flt
  deriving DecidableEq, Repr

def pageStop (node va : Nat) (access : AccessKind) : GStop := ⟨node, { code := .page, access := access, addr := va, pages := [va] }⟩

def graphRec (ctx node : Nat) (f : Flt) : FaultRec := mkRec (.graphUnit ctx node) f 0 0 0xFF ⟨0, 0⟩ 0 0

/-- The graph unit stands still for a node: it sleeps on a page until the record is resolved or an INVAL replays it (18 R345,
R346), or it has a record that still waits for an entry (18 R348). -/
def unitAsleep (s : State) (ctx node world : Nat) : Bool :=
  match s.worlds.get? world with
  | none => false
  | some w =>
    (w.records.any fun r => r.waiting && decide (r.agent = .graphUnit ctx node) && decide (r.pages ≠ []))
      || w.unwritten.any fun r => decide (r.agent = .graphUnit ctx node)

/-- The graph unit stops at a fault; what it was doing is done again from its start when it goes on. -/
def graphStop (s : State) (ctx world : Nat) (x : GStop) : State :=
  if unitAsleep s ctx x.node world then s else raise s world (s.worldDie world) (graphRec ctx x.node x.flt)

/-- Whether a world's fault queue has no free entry for the next record. -/
def queueFull (s : State) (world : Nat) : Bool :=
  match s.worlds.get? world with
  | some w => !w.roomFor (leadOf s (s.worldDie world))
  | none => false

/-- A fault of the graph unit that awaits nothing: reported, or a stop until its record can be written. -/
def graphReport (s : State) (ctx node world : Nat) (f : Flt) : Except GStop State :=
  if queueFull s world then .error ⟨node, f⟩ else .ok (raise s world (s.worldDie world) (graphRec ctx node f))

/-- Whether the next access of a node's unit to a page is one that a RESOLVE END gave up (log 141), or one whose fault has been
reported only now that an entry was free. -/
def gaveUp (s : State) (ctx node va : Nat) : Bool :=
  match s.ctx? ctx with
  | some c => (c.nodeOf node).given.contains (va / 65536)
  | none => false

def takeGiven (s : State) (ctx node va : Nat) : State :=
  s.modCtx ctx fun c => c.modNode node fun k => { k with given := dropFirst (fun p => decide (p = va / 65536)) k.given }

/-- Bytes the graph unit reads, page by page; a page that faults otherwise than with PAGE is reported and reads as zero
(log 40). -/
def gread (s : State) (ctx node world va n : Nat) : Except GStop (State × List Byte) :=
  if unitAsleep s ctx node world then .error (pageStop node va .read) else
  (pages va n).foldl (fun acc g => match acc with
    | .error x => .error x
    | .ok (s, bs) =>
      let zeros := bs ++ List.replicate g.2 0
      if gaveUp s ctx node g.1 then .ok (takeGiven s ctx node g.1, zeros)
      else match readNow s (s.worldDie world) world g.1 g.2 true with
        | (s, .ok b) => .ok (s, bs ++ b)
        | (_, .error .page) => .error (pageStop node g.1 .read)
        | (s, .error c) => match graphReport s ctx node world { code := c, access := .read, addr := g.1 } with
          | .ok s => .ok (s, zeros)
          | .error x => .error x) (.ok (s, []))

/-- Bytes the graph unit writes, page by page; a page that faults otherwise than with PAGE is reported and not written
(log 40). -/
def gwrite (s : State) (ctx node world va : Nat) (bs : List Byte) : Except GStop State :=
  if unitAsleep s ctx node world then .error (pageStop node va .write) else
  (pages va bs.length).foldl (fun acc g => match acc with
    | .error x => .error x
    | .ok s =>
      if gaveUp s ctx node g.1 then .ok (takeGiven s ctx node g.1)
      else match writeNow s (s.worldDie world) world g.1 ((bs.drop (g.1 - va)).take g.2) true with
        | (s, .ok ()) => .ok s
        | (_, .error .page) => .error (pageStop node g.1 .write)
        | (s, .error c) => graphReport s ctx node world { code := c, access := .write, addr := g.1 }) (.ok s)

/-- No core's L1 keeps a line of these bytes: a record is read without `.f` (05 R127). -/
def dropLines (s : State) (world va n : Nat) : State :=
  (pages va n).foldl (fun s g => match translateNow s (s.worldDie world) world g.1 .read true with
    | (s, .ok pa) => { s with mem := { s.mem with l1 := s.mem.l1.filter fun x =>
        !(decide (pa / 128 ≤ x.line) && decide (x.line ≤ (pa + g.2 - 1) / 128)) } }
    | (s, .error _) => s) s

/-- Runs what the graph unit does; where it stops on a page nothing else has happened. -/
def runGraph (s : State) (ctx world : Nat) (x : Except GStop State) : State :=
  match x with
  | .ok s => s
  | .error g => graphStop s ctx world g

/-! ## Runs and phases (01 R15, 05 R149) -/

/-- The instance of a phase of the context, made where there is none. -/
def ensurePhase (s : State) (ctx : Nat) (c : Context) (p : Nat) : State × Nat :=
  match c.phases.get? p with
  | some k => (s, k)
  | none =>
    let (s, job) := openJob s c.world
    let k := s.nextId
    let s := addInst { s with nextId := k + 1 } ⟨.phase, k⟩ (some job) ctx 0
    (s.modCtx ctx fun c => { c with phases := c.phases.set p k }, k)

/-- The graph run of a frame. -/
def ensureRun (s : State) (ctx : Nat) (c : Context) (f : Nat) : State × Nat :=
  match c.runs.get? f with
  | some k => (s, k)
  | none =>
    let (s, p) := ensurePhase s ctx c (c.phaseOf f)
    let k := s.nextId
    let s := addInst { s with nextId := k + 1 } ⟨.run, k⟩ (some ⟨.phase, p⟩) ctx f
    (s.modCtx ctx fun c => { c with runs := c.runs.set f k }, k)

/-! ## Launches by the graph unit (05 R123 to R125, R133) -/

/-- A launch that is over: it has completed, settled, or is gone. -/
def launchOver (s : State) (id : Nat) : Bool :=
  match s.inst? ⟨.launch, id⟩ with
  | some x => decide (x.state = .done) || x.settled
  | none => true

/-- What a batch is made of, before its launch. -/
structure Batch where
  frame : Nat
  edge : Nat
  first : Nat
  count : Nat
  depth : Nat
  deadline : Bool
  anySub : Bool
  deriving DecidableEq, Repr

/-- The payload words of the batch's records, for a raster node. -/
def batchWords (x : EdgeState) (b : Batch) : List (Nat × List W32) :=
  (List.range b.count).map fun i =>
    (b.first + i, words32 ((x.payload? b.frame (b.first + i)).getD []))

/-- A launch descriptor that the graph unit may submit: within the limits, with a scratchpad granule (05 R124). -/
def graphDesc (s : State) (ctx world va : Nat) (bs : List Byte) : Option LaunchDesc :=
  if va % 64 ≠ 0 then none else
  match parseLaunch bs with
  | none => none
  | some d => if bitsOf d.pword.toNat 12 6 = 0 ∨ (queueOfHandle s world ctx d.queue).isNone ∨ !fitsDie s ctx d then none else some d

def allVector (d : LaunchDesc) : Bool := d.roles.all fun r => decide (r = .vector)

/-- Where a node's launch descriptor lies: the node's own, or its raster state's. -/
def descAddrOf (c : Context) (n : Nat) (d : NodeDesc) : Nat :=
  if d.kind = 1 then (match (c.nodeOf n).raster with | some r => r.launch | none => 0) else d.launch

/-- Whether the run of a frame is cancelled: nothing more is launched below it (01 R18). -/
def runDead (s : State) (ctx : Nat) (c : Context) (f : Nat) : Bool :=
  let r := ensureRun s ctx c f
  match r.1.inst? ⟨.run, r.2⟩ with
  | some x => decide (x.state = .cancelled)
  | none => false

/-- A launch refused with GRAPH: the refusal is told once, and the launch is dropped (18 R346). -/
def refuseLaunch (s : State) (ctx n world addr : Nat) : Except GStop State :=
  match s.ctx? ctx with
  | none => .ok s
  | some c =>
    if (c.nodeOf n).told then .ok (s.modCtx ctx fun c => c.modNode n fun k => { k with told := false })
    else graphReport s ctx n world { code := .graph, addr := addr }

/-- The node is launched for a batch, or the launch is refused with GRAPH and dropped. In a cancelled run the batch is
consumed and nothing launched (DEDUCED, log 69). -/
def graphLaunch (s : State) (ctx n : Nat) (b : Batch) : Except GStop State :=
  match s.ctx? ctx with
  | none => .ok s
  | some c => match c.node? n with
    | none => .ok s
    | some nd =>
      let va := descAddrOf c n nd
      if runDead s ctx c b.frame then .ok (ensureRun s ctx c b.frame).1 else
      if nd.kind = 1 ∧ (c.nodeOf n).raster.isNone then refuseLaunch s ctx n c.world 0 else
      match gread s ctx n c.world va 256 with
      | .error x => .error x
      | .ok (s, bs) =>
        match graphDesc s ctx c.world va bs with
        | none => refuseLaunch s ctx n c.world va
        | some d =>
          if nd.kind = 1 ∧ !allVector d then refuseLaunch s ctx n c.world va else
          let (s, run) := ensureRun s ctx c b.frame
          let id := s.nextId
          let s := addInst { s with nextId := id + 1 } ⟨.launch, id⟩ (some ⟨.run, run⟩) ctx b.frame
          let first := match c.edge? b.edge with
            | some e => recAddr e b.frame b.first
            | none => 0
          let r : BatchRec :=
            { frame := b.frame, firstRecord := if b.count = 0 then 0 else first, firstSlot := b.first, count := b.count,
              edge := b.edge, depth := b.depth, deadline := b.deadline, anySub := b.anySub, phase := c.phase }
          let recs := batchWords (c.edgeOf b.edge) b
          let frag : Option FragLaunch := match nd.kind, (c.nodeOf n).raster with
            | 1, some rs => some { raster := rs, tris := recs.map Prod.snd, strands := fragStrands rs recs }
            | _, _ => none
          let total := match frag with
            | some f => (f.strands.length + d.strands - 1) / d.strands
            | none => d.workgroups
          let l : Launch :=
            { world := c.world, ctx := ctx, graphMade := true, node := n, run := run, frame := b.frame, descAddr := va, desc := d,
              depth := 0, parent := none, queue := none, errors := 0, batch := some r, frag := frag, placed := 0, total := total,
              firstPlaced := none, pausedAt := none, prevOfNode := (c.nodeOf n).lastLaunch, dropped := false, issuer := none,
              reserved := false }
          let s : State := { s with launches := s.launches.set id l }
          .ok (s.modCtx ctx fun c =>
            let c := c.modNode n fun k => { k with lastLaunch := some id }
            if b.count = 0 then c
            else c.modEdge b.edge fun x => x.putFrame { x.frameOf b.frame with users := (x.frameOf b.frame).users ++ [id] })

/-! ## Batches (05 R122, R123, R125) -/

/-- The first run of slots of one depth in `[lo, hi)`. -/
def sameDepth (k : EdgeFrame) (lo : Nat) : Nat → Nat
  | 0 => 0
  | n + 1 => if k.slots.getD lo 0 = k.slots.getD (lo + n) 0 ∧ sameDepth k lo n = n then n + 1 else sameDepth k lo n

/-- Launches a node for the delivered slots `[lo, hi)` of a frame, one launch for each depth in slot order. -/
def launchRange (ctx n e f : Nat) (deadline : Bool) : Nat → Nat → Nat → State → Except GStop State
  | 0, _, _, s => .ok s
  | fuel + 1, lo, hi, s =>
    if hi ≤ lo then .ok s else
    match s.ctx? ctx with
    | none => .ok s
    | some c =>
      let k := (c.edgeOf e).frameOf f
      let cnt := max 1 (sameDepth k lo (hi - lo))
      let b : Batch :=
        { frame := f, edge := e, first := lo, count := cnt, depth := k.slots.getD lo 0, deadline := deadline,
          anySub := (List.range cnt).any fun i => (k.slots.get? (lo + i)).isNone }
      match graphLaunch s ctx n b with
      | .error x => .error x
      | .ok s =>
        let s := s.modCtx ctx fun c => c.modEdge e fun x => x.putFrame { x.frameOf f with taken := lo + cnt }
        launchRange ctx n e f deadline fuel (lo + cnt) hi s

/-- The frame of a trigger edge whose records are next to be taken. -/
def nextTaken (d : EdgeDesc) (x : EdgeState) : Option EdgeFrame :=
  let open' := x.frames.filter fun k => decide (k.taken < k.delivered) && decide (k.taken < d.slots)
  open'.foldl (fun acc k => match acc with
    | none => some k
    | some y => if k.frame < y.frame then some k else some y) none

/-- What a trigger edge's next launch takes up to, and whether it is the deadline's (05 R123): a batch that was partly
delivered at the deadline is first taken as far as it had been delivered then. -/
def nextBatch (d : EdgeDesc) (k : EdgeFrame) : Option (Nat × Bool) :=
  let hi := min ((k.taken / d.batch + 1) * d.batch) d.slots
  let whole : Option (Nat × Bool) := if hi ≤ k.delivered then some (hi, false) else none
  match k.cutAt with
  | some c => if k.taken < c ∧ c < hi then some (c, true) else whole
  | none => whole

/-- Every complete batch of a node's trigger edge is launched, and every partly delivered one of a deadline, in order, as far
as the node may be launched. -/
def launchReady (ctx n : Nat) : Nat → State → Except GStop State
  | 0, s => .ok s
  | fuel + 1, s =>
    match s.ctx? ctx with
    | none => .ok s
    | some c => match (c.node? n).bind fun nd => (c.edge? nd.trigger).map fun d => (nd, d) with
      | none => .ok s
      | some (nd, d) =>
        match nextTaken d (c.edgeOf nd.trigger) with
        | none => .ok s
        | some k =>
          if !c.mayLaunch n k.frame ∨ nd.kind = 2 then .ok s
          else match nextBatch d k with
            | none => .ok s
            | some (hi, late) => match launchRange ctx n nd.trigger k.frame late (hi - k.taken) k.taken hi s with
              | .error x => .error x
              | .ok s => launchReady ctx n fuel s

/-- The once-a-frame launches that a node still owes (05 R123). -/
def launchHeld (ctx n : Nat) : Nat → State → Except GStop State
  | 0, s => .ok s
  | fuel + 1, s =>
    match s.ctx? ctx with
    | none => .ok s
    | some c => match (c.nodeOf n).held with
      | [] => .ok s
      | f :: rest =>
        if !c.mayLaunch n f then .ok s
        else
          let b : Batch := { frame := f, edge := 0xFF, first := 0, count := 0, depth := 0, deadline := false, anySub := false }
          match graphLaunch s ctx n b with
          | .error x => .error x
          | .ok s => launchHeld ctx n fuel (s.modCtx ctx fun c => c.modNode n fun k => { k with held := rest })

/-- All that a node can launch now. -/
def launchNode (s : State) (ctx n : Nat) : Except GStop State :=
  match s.ctx? ctx with
  | none => .ok s
  | some c =>
    let many := 1 + ((c.nodeOf n).held.length) + 257 * (1 + (match c.node? n with | some d => (c.edgeOf d.trigger).frames.length | none => 0))
    match launchHeld ctx n many s with
    | .error x => .error x
    | .ok s => launchReady ctx n many s

/-! ## Substitution (05 R120, R129) -/

/-- Twice `a` less `b` in a format, as stored bits. -/
def lerpElem (fmt a b : Nat) : Nat :=
  let two (x y : FVal) : FVal := (x.add x .rn).sub y .rn
  let ch (lo n : Nat) : Nat :=
    let v : Int := 2 * (bitsOf a lo n : Int) - (bitsOf b lo n : Int)
    (clampInt 0 ((2 ^ n - 1 : Nat) : Int) v).toNat * 2 ^ lo
  match fmt with
  | 0x10 | 0x11 => ch 0 8 + ch 8 8 + ch 16 8 + ch 24 8
  | 0x12 => ch 0 10 + ch 10 10 + ch 20 10 + ch 30 2
  | _ => match fmtTy fmt with
    | some t =>
      let x := two (valueOf t a) (valueOf t b)
      if Ty.isFp t then roundF (fmtOfTy t) x .rn true else roundToInt t x .rn true
    | none => 0

/-- Bytes of one element of a field: a raw element is one byte (05 R120). -/
def elemSize (fmt : Nat) : Nat := if fmt = 0 then 1 else fmtHalf fmt / 2

/-- One field of a substitute, given the payloads of the two frames before (R129). -/
def subField (x : FieldEntry) (a b : Option (List Byte)) : List Byte :=
  let n := elemSize x.format
  let at' (p : List Byte) (i : Nat) : Nat := fieldNat p (x.offset - 16 + i * n) n
  ((List.range x.count).map fun i => natLE n (match x.rule, a, b with
    | 2, _, _ => 0
    | _, none, _ => 0
    | 1, some p, some q => lerpElem x.format (at' p i) (at' q i)
    | _, some p, _ => at' p i)).flatten

/-- The payload of a substitute: each field by its rule, zeros elsewhere. -/
def subPayload (d : EdgeDesc) (layout : List FieldEntry) (a b : Option (List Byte)) : List Byte :=
  (layout.filter fun x => x.format ≠ 0xFF).foldl (fun (p : List Byte) x =>
    let o := x.offset - 16
    let bs := subField x a b
    p.take o ++ bs ++ p.drop (o + bs.length)) (List.replicate (recSize d - 16) 0)

/-! ## Placing and delivering records (05 R119, R122, R128, R142) -/

/-- Whether the ring space of a frame is free: every launch that took the frame D before it has completed (05 R126). -/
def ringFree (s : State) (c : Context) (e : Nat) (d : EdgeDesc) (f : Nat) : Bool :=
  let x := c.edgeOf e
  let taken (k : EdgeFrame) : Bool := match c.node? d.consumer with
    | some nd => nd.trigger ≠ e || decide (d.slots ≤ k.taken)
    | none => true
  decide (f < x.base + d.frames) && (decide (f < d.frames) || (match x.frame? (f - d.frames) with
    | some k => taken k && k.users.all (launchOver s)
    | none => true))

/-- A record's header less LATE. -/
def recHead (f s : Nat) (sub : Bool) (depth : Nat) : List Byte :=
  natLE 8 f ++ natLE 2 s ++ natLE 1 (if sub then 1 else 0) ++ natLE 1 depth

/-- A slot holds a real record from now on: it is written to the ring where the frame's space is free, and else held until it
is delivered (05 R122, R126, R142). -/
def placeRecord (s : State) (ctx e f slot depth : Nat) (payload : List Byte) : Except GStop State :=
  match s.ctx? ctx with
  | none => .ok s
  | some c => match c.edge? e with
    | none => .ok s
    | some d =>
      let va := recAddr d f slot
      let hold (ring : Bool) (s : State) : State := s.modCtx ctx fun c => c.modEdge e fun x =>
        let k := x.frameOf f
        (x.putFrame { k with slots := k.slots.set slot depth, inRing := if ring then slot :: k.inRing else k.inRing }).keep f slot payload
      if !ringFree s c e d f then .ok (hold false s) else
      match gwrite s ctx d.consumer c.world va (recHead f slot false depth) with
      | .error x => .error x
      | .ok s => match gwrite s ctx d.consumer c.world (va + 16) payload with
        | .error x => .error x
        | .ok s => .ok (hold true s)

/-- The next slot of the oldest frame is delivered once its ring space is free: a real record, or a substitute once the frame
has closed. Answers whether it was. -/
def deliverSlot (s : State) (ctx e : Nat) : Except GStop (State × Bool) :=
  match s.ctx? ctx with
  | none => .ok (s, false)
  | some c => match c.edge? e with
    | none => .ok (s, false)
    | some d =>
      let x := c.edgeOf e
      let f := x.base
      let k := x.frameOf f
      let slot := k.delivered
      let va := recAddr d f slot
      let late := natLE 4 x.late.toNat
      let mark (s : State) (sub : Bool) (p : List Byte) : State := (dropLines s c.world va (recSize d)).modCtx ctx fun c =>
        c.modEdge e fun x =>
          let x := (x.putFrame { x.frameOf f with delivered := slot + 1 }).keep f slot p
          if sub then { x with sub := x.sub + 1 } else x
      if d.slots ≤ slot ∨ !ringFree s c e d f then .ok (s, false)
      else match k.slots.get? slot with
        | some depth =>
          let p := (x.payload? f slot).getD []
          let w := if k.inRing.contains slot then (va + 12, late) else (va, recHead f slot false depth ++ late ++ p)
          (match gwrite s ctx d.consumer c.world w.1 w.2 with
            | .error x => .error x
            | .ok s => .ok (mark s false p, true))
        | none =>
          if !k.closed then .ok (s, false)
          else
            let a := if f = 0 then none else x.payload? (f - 1) slot
            let b := if f < 2 then none else x.payload? (f - 2) slot
            let p := subPayload d (c.img.layouts.getD d.layout []) a b
            match gwrite s ctx d.consumer c.world va (recHead f slot true 0 ++ late ++ p) with
            | .error x => .error x
            | .ok s => .ok (mark s true p, true)

/-- Whether a frame's records are still to be taken by launches of the edge's consumer. -/
def Context.untaken (c : Context) (e : Nat) (d : EdgeDesc) (k : EdgeFrame) : Bool :=
  decide (k.taken < k.delivered) && (match c.node? d.consumer with
    | some nd => nd.trigger == e
    | none => false)

/-- What remains of a frame's end: the next frame is the oldest. A frame is forgotten once its ring space has gone to a later
one, its records are taken, and this chip does not send them to its peer; payloads stay as long as substitution, a launch
or a move, one that is yet to be proposed too (15 R303), may read them. -/
def turnFrame (c : Context) (e : Nat) (d : EdgeDesc) (x : EdgeState) : EdgeState :=
  let x := x.putFrame { x.frameOf x.base with closed := true, parities := [], members := [] }
  let b := x.base + 1
  let low := min (min b (c.current.getD 0)) (if c.move.state = .idle then b else c.move.frame)
  let sender (f : Nat) : Bool := c.sends d f && !c.receives d f
  { x with
    base := b
    frames := x.frames.filter fun y => decide (b ≤ y.frame + d.frames) || c.untaken e d y || sender y.frame
    hist := x.hist.filter fun p => decide (low ≤ p.1 + 2) || sender p.1 || x.frames.any fun y => y.frame == p.1 && c.untaken e d y }

/-- Delivers all that can be delivered on an edge, frame by frame. -/
def deliverEdge (ctx e : Nat) : Nat → State → Except GStop State
  | 0, s => .ok s
  | fuel + 1, s =>
    match deliverSlot s ctx e with
    | .error x => .error x
    | .ok (s, true) => deliverEdge ctx e fuel s
    | .ok (s, false) => match s.ctx? ctx with
      | none => .ok s
      | some c => match c.edge? e with
        | none => .ok s
        | some d =>
          let x := c.edgeOf e
          if (x.frameOf x.base).delivered < d.slots then .ok s
          else deliverEdge ctx e fuel (s.modCtx ctx fun c => c.modEdge e (turnFrame c e d))

/-- A frame whose node deadline has passed keeps how far it had been delivered by then (05 R123). -/
def markDeadlines (s : State) (ctx e : Nat) : State :=
  match s.ctx? ctx with
  | none => s
  | some c => match (c.edge? e).bind fun d => c.node? d.consumer with
    | none => s
    | some nd =>
      if nd.trigger ≠ e then s else
      let passed (f : Nat) : Bool := decide (c.frameStart f + nd.deadline ≤ s.ctxNow c)
      let mark (k : EdgeFrame) : EdgeFrame := if k.cutAt.isNone && passed k.frame then { k with cutAt := some k.delivered } else k
      s.modCtx ctx fun c => c.modEdge e fun x => { x with frames := x.frames.map mark }

/-- How far an edge has been delivered. -/
def deliveredTo (s : State) (ctx e : Nat) : Option (Nat × Nat) :=
  (s.ctx? ctx).map fun c => let x := c.edgeOf e; (x.base, (x.frameOf x.base).delivered)

/-- Delivery on an edge, the release of what was delivered, and the launches that follow (05 R122, R123, R127). -/
def advanceEdge (s : State) (ctx e : Nat) : Except GStop State :=
  match s.ctx? ctx with
  | none => .ok s
  | some c => match c.edge? e with
    | none => .ok s
    | some d =>
      let s0 := markDeadlines s ctx e
      match deliverEdge ctx e ((d.slots + 1) * ((c.edgeOf e).frames.length + 1)) s0 with
      | .error x => .error x
      | .ok s =>
        let s := if deliveredTo s ctx e = deliveredTo s0 ctx e then s else publish s
        match c.node? d.consumer with
        | some nd => if nd.trigger = e then launchNode s ctx d.consumer else .ok s
        | none => .ok s

/-- Every edge of the context that this chip receives delivers what has become possible: ring space may have become free. -/
def advanceAll (s : State) (ctx : Nat) : State :=
  match s.ctx? ctx with
  | none => s
  | some c => (List.range c.img.edges.length).foldl (fun s e => match c.edge? e with
      | some d => if c.receives d (c.edgeOf e).base then runGraph s ctx c.world (advanceEdge s ctx e) else s
      | none => s) s

/-- A frame of an edge closes (05 R128). -/
def closeFrame (s : State) (ctx e f : Nat) : Except GStop State :=
  advanceEdge (s.modCtx ctx fun c => c.modEdge e fun x => x.putFrame { x.frameOf f with closed := true }) ctx e

/-- Where the oldest frame is one that this chip does not receive, the edge goes on from the frame at which a move made
it the receiver (05 R149). -/
def settleBase (c : Context) (e : Nat) : Context :=
  match c.edge? e with
  | none => c
  | some d =>
    let x := c.edgeOf e
    if c.receives d x.base then c
    else
      let marks := (if c.move.state = .committed then [c.move.frame] else []) ++ c.past.map Prod.fst
      let next := (marks.filter fun m => decide (x.base < m) && c.receives d m).foldl (fun (a : Option Nat) m => match a with
        | none => some m
        | some y => some (min y m)) none
      match next with
      | some m => c.modEdge e fun x => { x with
          base := m, frames := x.frames.filter fun k => decide (m ≤ k.frame) || decide (k.frame < x.base) || c.sends d k.frame }
      | none => c

/-- Frames whose deadline has passed close before anything that arrives in the same cycle (05 R128). -/
def closeDue (ctx e : Nat) : Nat → State → Except GStop State
  | 0, s => .ok s
  | fuel + 1, s =>
    let s := s.modCtx ctx fun c => settleBase c e
    match s.ctx? ctx with
    | none => .ok s
    | some c => match c.edge? e with
      | none => .ok s
      | some d =>
        let f := (c.edgeOf e).oldest
        if !c.receives d f || decide (s.ctxNow c < c.edgeDeadline d f) then .ok s
        else match closeFrame s ctx e f with
          | .error x => .error x
          | .ok s => closeDue ctx e fuel s

/-- As many frames as can be due while none has been looked at for a while. -/
def dueFuel (s : State) (ctx e : Nat) : Nat :=
  match s.ctx? ctx with
  | none => 0
  | some c => ((s.ctxNow c - c.frameStart (c.edgeOf e).base).toNat / max 1 c.img.period) + 1

/-! ## The codec (05 R138, 15 R299) -/

/-- The port of a remote edge in a configuration. -/
def portOf (c : Context) (k e : Nat) : Fin 4 := match c.img.cuts[k]? with
  | some x => (x.ports.lookup e).getD 0
  | none => 0

/-- The peer that a configuration names (05 R137). -/
def peerOf (c : Context) (k : Nat) : Nat := (c.img.cuts[k]?.map CutConfig.peer).getD 0

def dataGram (c : Context) (e : Nat) (k : Codec) (f : Nat) (recs : List (Nat × List Byte)) : Datagram :=
  let seq := (k.last + 1).toNat
  let body := (recs.map Prod.snd).flatten
  { kind := 1, context := c.img.peerContext, edge := e, group := k.group.length + 1, records := recs.length, frame := f,
    sequence := seq, first := if k.group.isEmpty then seq else k.groupFirst, length := body.length, payload := body }

/-- The XOR of payloads, each padded to the longest. -/
def xorAll (ps : List (List Byte)) : List Byte :=
  let n := ps.foldl (fun m p => max m p.length) 0
  ps.foldl (fun acc p => List.zipWith (fun a b => a ^^^ b) acc (padTo n p)) (List.replicate n 0)

def parityBody (g : List (Nat × List Byte)) : List Byte :=
  ((List.range 8).map fun i => match g[i]? with
    | some m => natLE 2 m.2.length ++ natLE 2 m.1
    | none => natLE 4 0).flatten ++ xorAll (g.map Prod.snd)

def parityGram (c : Context) (e : Nat) (k : Codec) : Datagram :=
  let body := parityBody k.group
  { kind := 2, context := c.img.peerContext, edge := e, group := k.group.length, records := 0, frame := k.openFrame,
    sequence := 0, first := k.groupFirst, length := body.length, payload := body }

/-- A datagram of an edge enters its port's queue, until its frame's deadline (05 R139). -/
def enqueueGram (s : State) (ctx : Nat) (c : Context) (e : Nat) (d : EdgeDesc) (g : Datagram) : State :=
  let p := portOf c (c.cutOf g.frame) e
  let o : OutDatagram :=
    { world := c.world, ctx := ctx, peer := peerOf c (c.cutOf g.frame), edge := e, expires := (c.edgeDeadline d g.frame).toNat, rate := d.rate, dg := g }
  { s with ports := s.ports.set p { s.ports[p] with queue := s.ports[p].queue ++ [o] } }

def setCodec (s : State) (ctx e : Nat) (k : Codec) : State := s.modCtx ctx fun c => c.modEdge e fun x => { x with codec := k }

/-- The parity datagram of the open group, where it has members; the group ends. -/
def sendParity (s : State) (ctx e : Nat) : State :=
  match s.ctx? ctx with
  | none => s
  | some c => match c.edge? e with
    | none => s
    | some d =>
      let k := (c.edgeOf e).codec
      if k.group.isEmpty then s
      else setCodec (enqueueGram s ctx c e d (parityGram c e k)) ctx e { k with group := [] }

/-- The open datagram is sent, where it holds a record; its group's parity follows the eighth member. -/
def sendOpen (s : State) (ctx e : Nat) : State :=
  match s.ctx? ctx with
  | none => s
  | some c => match c.edge? e with
    | none => s
    | some d =>
      let k := (c.edgeOf e).codec
      if k.openRecords.isEmpty then s
      else
        let g := dataGram c e k k.openFrame k.openRecords
        let k : Codec := { k with
          last := k.last + 1, openRecords := [], groupFirst := g.first, group := k.group ++ [(g.records, g.payload)] }
        let s := setCodec (enqueueGram s ctx c e d g) ctx e k
        if k.group.length = 8 then sendParity s ctx e else s

/-- The open datagram and the open group's parity go at once (15 R299). -/
def flushEdge (s : State) (ctx e : Nat) : State := sendParity (sendOpen s ctx e) ctx e

/-- Records of a datagram stand in slot order. -/
def insertSlot (l : List (Nat × List Byte)) (p : Nat × List Byte) : List (Nat × List Byte) :=
  (l.filter fun x => x.1 < p.1) ++ [p] ++ l.filter fun x => ¬ x.1 < p.1

/-- What the sending end keeps of payloads: those that a move may yet give another route (05 R149). -/
def keepSent (c : Context) (d : EdgeDesc) (x : EdgeState) : EdgeState :=
  let cur := c.current.getD 0
  let low := min (if c.receives d x.base then min x.base cur else cur) (if c.move.state = .idle then cur else c.move.frame)
  { x with hist := x.hist.filter fun p => low ≤ p.1 + 2 }

/-- A record is handed to the codec (05 R138). A record of any other frame than the open one's, an earlier one too, ends the
open datagram and its parity group (DESIGN CHOICE, log 145). -/
def codecTake (s : State) (ctx e f slot : Nat) (d : EdgeDesc) (payload : List Byte) : State :=
  let s := match s.ctx? ctx with
    | some c =>
      let k := (c.edgeOf e).codec
      if k.openFrame ≠ f ∧ (!k.openRecords.isEmpty ∨ !k.group.isEmpty) then flushEdge s ctx e else s
    | none => s
  let rec' := recHead f slot false 0 ++ natLE 4 0 ++ payload
  let s := s.modCtx ctx fun c => c.modEdge e fun x =>
    let x := keepSent c d ((x.putFrame { x.frameOf f with slots := (x.frameOf f).slots.set slot 0 }).keep f slot payload)
    { x with codec := { x.codec with openFrame := f, openRecords := insertSlot x.codec.openRecords (slot, rec') } }
  match s.ctx? ctx with
  | some c => if 1408 < ((c.edgeOf e).codec.openRecords.length + 1) * recSize d then sendOpen s ctx e else s
  | none => s

/-! ## Emitting (05 R126, R127) -/

/-- The status of an emit by a launch of a node at a depth, in the order of 05 R127. -/
def emitStatus (s : State) (c : Context) (node depth e f slot : Nat) : Nat :=
  match c.edge? e with
  | none => 1
  | some d =>
    let x := c.edgeOf e
    if d.producer ≠ node ∨ d.slots ≤ slot ∨ !c.mine f node then 1
    else if selfEdge d ∧ d.depth < depth + 1 then 2
    else if c.edgeLocal d f ∧ x.closedAt f then 3
    else if ((x.frameOf f).slots.get? slot).isSome then 4
    else if c.edgeLocal d f ∧ !ringFree s c e d f then 5
    else 0

/-- One emit (05 R127): its status, with its effect. -/
def emit (s : State) (ctx launch node depth e f slot : Nat) (payload : List Byte) : Except GStop (State × Nat) :=
  match closeDue ctx e (dueFuel s ctx e) s with
  | .error x => .error x
  | .ok s =>
  match s.ctx? ctx with
  | none => .ok (s, 1)
  | some c =>
    let st := emitStatus s c node depth e f slot
    if st ≠ 0 then
      .ok (if st = 5 then s else s.modLaunch launch fun l => { l with errors := l.errors + 1 }, st)
    else match c.edge? e with
      | none => .ok (s, 1)
      | some d =>
        if c.edgeLocal d f then
          match placeRecord s ctx e f slot (if selfEdge d then depth + 1 else 0) payload with
          | .error x => .error x
          | .ok s =>
            let full := match s.ctx? ctx with
              | some c => decide (d.slots ≤ ((c.edgeOf e).frameOf f).slots.length)
              | none => false
            match (if full then closeFrame s ctx e f else advanceEdge s ctx e) with
            | .error x => .error x
            | .ok s => .ok (s, 0)
        else .ok (codecTake s ctx e f slot d payload, 0)

/-- An emit that a check made before the graph unit turns away with SLOT still counts (05 R127). -/
def emitSlot (s : State) (launch : Nat) : State := s.modLaunch launch fun l => { l with errors := l.errors + 1 }

end Sys2Proof.Machine
end

