-- ==== Sys2Proof/Machine/Fragment.lean ====
section
/-! DEFINITION. Fragment and record words, and the merge of one fragment (08 R240, R241; 05 R127, R135; 01 R32). -/

namespace Sys2Proof.Machine

open Sys2Proof

namespace VCtx

/-! ## VINTERP, VDERIV -/

/-- The three words of an attribute: every one is checked; the lowest that fails speaks for the lane. -/
def attrWords (c : VCtx) (s : State) (off : Nat) : Except LaneStop (FVal × FVal × FVal) := do
  let a0 ← c.readS s off 4
  let a1 ← c.readS s (off + 4) 4
  let a2 ← c.readS s (off + 8) 4
  pure (decodeF .f32 a0, decodeF .f32 a1, decodeF .f32 a2)

/-- One rounding to FP32 in the word's mode, as a value again. -/
def step1 (c : VCtx) (x : FVal) : FVal := decodeF .f32 (roundF .f32 x c.mode)

def interp (c : VCtx) (a : FVal × FVal × FVal) (x y : FVal) : Nat :=
  let d1 := c.step1 (a.2.1.sub a.1 c.mode)
  let d2 := c.step1 (a.2.2.sub a.1 c.mode)
  let t := c.step1 (x.fma d1 a.1 c.mode)
  roundF .f32 (y.fma d2 t c.mode) c.mode

/-- The two lanes whose difference VDERIV takes. -/
def derivLanes (mode : Nat) (l : Lane) : Lane × Lane :=
  let q := l.val / 4 * 4
  match mode with
  | 0 => (laneNo (q + 1), laneNo q)
  | 1 => (laneNo (q + 2), laneNo q)
  | 2 => (laneNo (l.val ||| 1), laneNo (l.val - l.val % 2))
  | _ => (laneNo (l.val ||| 2), laneNo (if bitOf l.val 1 then l.val - 2 else l.val))

/-! ## VFRAGOUT -/

/-- B names the first of four channels (ILLEGAL_OPERAND where one lies beyond). -/
def channelsOk (c : VCtx) (_ : State) : Bool :=
  (List.range 4).all fun j => decide (operandIndex c.w.b + j < 128) && c.nameOk .val .w32 (operandPlus c.w.b j)

/-- The fragment of one lane. -/
def fragOf (c : VCtx) (s : State) (x : FragLanes) (l : Lane) : Frag :=
  { node := c.e.l.node, merge := x.merge, frame := x.frame, order := x.order, launch := c.e.wg.launch, px := x.px[l], py := x.py[l],
    target := c.rdA s l, z := x.z[l],
    s := (List.range 4).map fun j => BitVec.ofNat 32 (c.read s .w32 (operandPlus c.w.b j) l) }

/-! ## VEMIT -/

/-- Bytes 16 to 255 of a lane's stage entry (08 R240): the entry's own offset wraps, what is added to it does not. -/
def stageOff (c : VCtx) (s : State) (l : Lane) : Nat := (c.rdC s l + 256 * l.val) % 2 ^ 32 + 16

/-- The check of one lane's stage entry: it lies in the scratchpad, and its granules carry the world. -/
def stageOk (c : VCtx) (s : State) (l : Lane) : Except LaneStop Unit :=
  let o := c.stageOff s l
  if c.e.scratchBytes < o + 240 then .error (.bad .access o)
  else if !scratchTagOk s c.e o || !scratchTagOk s c.e (o + 239) then .error (.bad .world o)
  else if badWord c.e.wg.badScratch o (stageSize s c.e (c.rdA s l)) then .error (.bad .poison o)
  else .ok ()
where
  /-- Payload bytes of a record on an edge of the launch's context. -/
  stageSize (s : State) (e : Env) (edge : Nat) : Nat := match (s.ctx? e.l.ctx).bind fun c => c.edge? edge with
    | some d => recSize d - 16
    | none => 0

/-- The emit of one lane and its status. -/
def emitLane (c : VCtx) (s : State) (l : Lane) : Except GStop (State × Nat) :=
  let a := c.rdA s l
  if !c.e.l.graphMade || decide (256 ≤ a) then .ok (emitSlot s c.e.wg.launch, 1)
  else
    let payload := c.e.wg.scratch.read (c.stageOff s l) (stageOk.stageSize s c.e a)
    emit s c.e.l.ctx c.e.wg.launch c.e.l.node ((c.e.l.batch.map BatchRec.depth).getD 0) a c.e.l.frame (c.rdB s l) payload

def emitLanes (c : VCtx) : List Lane → State → Except GStop (State × List (Lane × Nat))
  | [], s => .ok (s, [])
  | l :: rest, s => match c.emitLane s l with
    | .error x => .error x
    | .ok (s, v) => match emitLanes c rest s with
      | .error x => .error x
      | .ok (s, vs) => .ok (s, (l, v) :: vs)

end VCtx

def execVinterp (w : VWord) (s : State) :=
  vectorWord 0x90 w (fun c s =>
    match c.eachLane s c.activeLanes .read fun l s' => (s', c.attrWords s (c.rdA s l)) with
    | .error x => x
    | .ok (s, vs) =>
      let f (l : Lane) : Nat := match vs.find? fun p => p.1 = l with
        | some p => c.interp p.2 (decodeF .f32 (c.rdB s l)) (decodeF .f32 (c.rdC s l))
        | none => 0
      c.lanewise s f) s

def execVderiv (w : VWord) (s : State) :=
  vectorWord 0x91 w (fun c s => c.lanewise s fun l =>
    let p := VCtx.derivLanes (c.w.mbits 5 2) l
    roundF .f32 ((decodeF .f32 (c.rdA s p.1)).sub (decodeF .f32 (c.rdA s p.2)) .rn) .rn) s

def execVfragout (w : VWord) (s : State) :=
  vectorWordIf 0x92 w VCtx.channelsOk (fun c s =>
    match c.st.frag with
    | none => .fault s { code := .illegalInstr }
    | some x =>
      match c.eachLane s c.activeLanes .none fun l s' => (s', if 8 ≤ c.rdA s l then .error (.bad .access 0) else .ok ()) with
      | .error e => e
      | .ok (s, _) => .done (s.modCtx c.e.l.ctx fun k => { k with frags := k.frags ++ c.workLanes.map (c.fragOf s x) }) (.u 0)) s

def execVdiscard (w : VWord) (s : State) :=
  vectorWord 0x93 w (fun c s =>
    match c.st.frag with
    | none => .fault s { code := .illegalInstr }
    | some _ => .done (s.modStrand c.e.sid fun st => { st with helpers := st.helpers ||| c.activeMask }) (.u 0)) s

def execVrec (w : VWord) (s : State) :=
  vectorWord 0x94 w (fun c s =>
    let off (l : Lane) : Nat := c.rdC s l + 256 * l.val + c.rdA s l
    match c.eachLane s c.activeLanes .write fun l s' =>
        (s', if c.rdA s l % 4 ≠ 0 ∨ c.rdA s l < 16 ∨ 252 < c.rdA s l then .error (.bad .access (off l)) else c.placeS s (off l) 4 false) with
    | .error x => x
    | .ok (s', ps) =>
      .done ((ps.filter fun p => !c.helper p.1).foldl
        (fun s'' p => scratchWrite s'' c.e.sid.wg p.2 (natLE 4 (c.rdB s p.1))) s') (.u 0)) s

/-! ## The output merge (05 R135) -/

/-- The lanes of a strand that can still send a fragment. -/
def canSend (st : Strand) (x : FragLanes) (l : Lane) : Bool :=
  (decide (st.ended = .no) || !st.laneQ.isEmpty) && laneBit st.base l && laneBit x.covered l && !laneBit st.helpers l

/-- Whether a strand that runs may still send a fragment of a pixel from an earlier triangle of the node. -/
def earlierRuns (s : State) (ctx : Nat) (f : Frag) : Bool :=
  s.strands.any fun p => match p.2.frag, (s.wgs.get? p.1.wg).bind fun g => s.launches.get? g.launch with
    | some x, some l =>
      l.ctx == ctx && l.node == f.node && (decide (x.frame < f.frame) || (x.frame == f.frame && decide (x.order < f.order)))
        && (List.finRange 32).any fun k => canSend p.2 x k && x.px[k] == f.px && x.py[k] == f.py
    | _, _ => false

/-- Whether a strand that is still to be placed carries an earlier triangle over the pixel. -/
def earlierWaits (s : State) (ctx : Nat) (f : Frag) : Bool :=
  s.launches.any fun p => match p.2.frag with
    | some x =>
      p.2.ctx == ctx && p.2.node == f.node && !launchOver s p.1 && decide (p.2.placed < p.2.total)
        && ((x.strands.drop (p.2.placed * p.2.desc.strands)).any fun y =>
          (decide (p.2.frame < f.frame) || (p.2.frame == f.frame && decide (y.order < f.order)))
            && y.quads.any fun q => q.1 / 2 == f.px / 2 && q.2 / 2 == f.py / 2)
    | none => false

/-- Fragment `k` may be merged: none of its pixel and target, earlier in order, is still to come. -/
def mayMerge (s : State) (ctx : Nat) (c : Context) (k : Nat) (f : Frag) : Bool :=
  let same (g : Frag) : Bool := g.node == f.node && g.px == f.px && g.py == f.py && g.target == f.target
  let before (g : Frag) : Bool := decide (g.frame < f.frame) || (g.frame == f.frame && decide (g.order < f.order))
  let equal (g : Frag) : Bool := g.frame == f.frame && g.order == f.order
  !(c.frags.any fun g => same g && before g) && !((c.frags.take k).any fun g => same g && equal g)
    && !earlierRuns s ctx f && !earlierWaits s ctx f

/-- The depth test of target 0, and its write. Answers whether the fragment goes on. -/
def depthTest (s : State) (ctx world : Nat) (f : Frag) (d : DepthState) : Except GStop (State × Bool) :=
  if f.target ≠ 0 ∨ !d.enable then .ok (s, true) else
  let va := d.base + f.py * d.pitch + 4 * f.px
  match gread s ctx f.merge world va 4 with
  | .error x => .error x
  | .ok (s, bs) =>
    if !depthPasses d.compare f.z (BitVec.ofNat 32 (leNat bs)) then .ok (s, false)
    else if d.write then
      match gwrite s ctx f.merge world va (natLE 4 f.z.toNat) with
      | .error x => .error x
      | .ok s => .ok (s, true)
    else .ok (s, true)

/-- One fragment merged into its pixel, in one step. The merge state is read as it stands (log 42); where it has become one that
a context's creation would refuse, the fragment is dropped (DESIGN CHOICE, log 146). -/
def mergeFrag (s : State) (ctx : Nat) (c : Context) (f : Frag) : Except GStop State :=
  match c.node? f.merge with
  | none => .ok s
  | some nd => match gread s ctx f.merge c.world nd.launch 320 with
    | .error x => .error x
    | .ok (s, bs) =>
      let t := parseTarget bs f.target
      if !mergeOk bs || !t.enable then .ok s
      else match depthTest s ctx c.world f (parseDepth bs) with
        | .error x => .error x
        | .ok (s, false) => .ok s
        | .ok (s, true) =>
          let n := pixelSize t.format
          let va := t.base + f.py * t.pitch + n * f.px
          match gread s ctx f.merge c.world va n with
          | .error x => .error x
          | .ok (s, old) => gwrite s ctx f.merge c.world va (natLE n (blendPixel t (leNat old) f.s))

end Sys2Proof.Machine
end

