-- ==== Sys2Proof/Machine/Reorder.lean ====
section
/-! DEFINITION. The reorder buffer of a remote edge: records placed at their slots, groups rebuilt from parity, late and early
arrivals (05 R138, R142; 15 R300). -/

namespace Sys2Proof.Machine

open Sys2Proof

/-! ## The reorder buffer (05 R142, 15 R300) -/

/-- One record of a datagram: a filled slot counts as DUP, else the record is placed. -/
def placeOne (ctx e f : Nat) (d : EdgeDesc) (acc : Except GStop State) (r : List Byte) : Except GStop State :=
  match acc with
  | .error x => .error x
  | .ok s => match s.ctx? ctx with
    | none => .ok s
    | some c =>
      let slot := fieldNat r 8 2
      if (((c.edgeOf e).frameOf f).slots.get? slot).isSome then
        .ok (s.modCtx ctx fun c => c.modEdge e fun x => { x with dup := x.dup + 1 })
      else placeRecord s ctx e f slot (fieldNat r 11 1) ((r.drop 16).take (recSize d - 16))

def recordsOf (d : EdgeDesc) (n : Nat) (payload : List Byte) : List (List Byte) :=
  (List.range n).map fun i => (payload.drop (i * recSize d)).take (recSize d)

/-- The records of one data datagram, received or rebuilt, of an open frame; the group's member is kept. -/
def placeGram (s : State) (ctx e f seq records : Nat) (d : EdgeDesc) (payload : List Byte) : Except GStop State :=
  match (recordsOf d records payload).foldl (placeOne ctx e f d) (.ok s) with
  | .error x => .error x
  | .ok s => .ok (s.modCtx ctx fun c => c.modEdge e fun x =>
      let k := x.frameOf f
      x.putFrame { k with members := k.members.set seq (records, payload), closed := k.closed || decide (d.slots ≤ k.slots.length) })

/-- The one member of a group that has not arrived. -/
def missingOf (k : EdgeFrame) (first n : Nat) : List Nat :=
  ((List.range n).map fun i => first + i).filter fun q => (k.members.get? q).isNone

/-- The member that a parity rebuilds: its records and payload (05 R138). -/
def rebuild (k : EdgeFrame) (first n m : Nat) (body : List Byte) : Nat × List Byte :=
  let others := ((List.range n).map fun i => first + i).filterMap fun q => (k.members.get? q).map Prod.snd
  let width := (body.drop 32).length
  let x := others.foldl (fun acc p => List.zipWith (fun a b => a ^^^ b) acc (padTo width p)) (body.drop 32)
  let i := m - first
  (fieldNat body (4 * i + 2) 2, x.take (fieldNat body (4 * i) 2))

/-- Parities held with a frame: complete groups go, a group that lacks one member is rebuilt (15 R300). -/
def useParities (ctx e f : Nat) (d : EdgeDesc) : Nat → State → Except GStop State
  | 0, s => .ok s
  | fuel + 1, s =>
    match s.ctx? ctx with
    | none => .ok s
    | some c =>
      let k := (c.edgeOf e).frameOf f
      match k.parities.find? fun p => decide ((missingOf k p.1 p.2.1).length ≤ 1) with
      | none => .ok s
      | some p =>
        let s := s.modCtx ctx fun c => c.modEdge e fun x => x.putFrame { x.frameOf f with parities := (x.frameOf f).parities.filter fun q => q ≠ p }
        match missingOf k p.1 p.2.1 with
        | [m] =>
          let r := rebuild k p.1 p.2.1 m p.2.2
          match placeGram s ctx e f m r.1 d r.2 with
          | .error x => .error x
          | .ok s => useParities ctx e f d fuel s
        | _ => useParities ctx e f d fuel s

/-- What a frame's place among the open ones makes of an arrival. -/
inductive Place | closed | early | open
  deriving DecidableEq, Repr

def placeIn (x : EdgeState) (f : Nat) : Place := if x.closedAt f then .closed else if x.oldest + 4 ≤ f then .early else .open

/-- Whether this chip receives a frame once the move that it has acknowledged is committed (05 R149). -/
def Context.willReceive (c : Context) (d : EdgeDesc) (f : Nat) : Bool :=
  decide (c.move.state = .acked) && ({ c with move := { c.move with state := .committed } }).receives d f

/-- An arrival of a frame that this chip does not receive by its cut. The peer may have committed a move already whose
CUT_COMMIT is still on its way: then the datagram waits for it, and goes if the move ends in IDLE (05 R145, R149). Any other is
dropped with no count and no event: R142 names no such arrival (DESIGN CHOICE, log 162). -/
def notHere (s : State) (ctx : Nat) (c : Context) (d : EdgeDesc) (g : Datagram) : State :=
  if c.willReceive d g.frame then s.modCtx ctx fun c => { c with move := { c.move with held := c.move.held ++ [g] } } else s

def takeData (s : State) (ctx : Nat) (c : Context) (g : Datagram) : Except GStop State :=
  match c.edge? g.edge with
  | none => .ok s
  | some d =>
    if !c.receives d g.frame then .ok (notHere s ctx c d g) else
    match closeDue ctx g.edge (dueFuel s ctx g.edge) s with
    | .error x => .error x
    | .ok s => match s.ctx? ctx with
      | none => .ok s
      | some c =>
        let n : W32 := BitVec.ofNat 32 g.records
        let s := s.modCtx ctx fun c => c.modEdge g.edge fun x => { x with highest := BitVec.ofNat 32 (max x.highest.toNat g.sequence) }
        match placeIn (c.edgeOf g.edge) g.frame with
        | .closed => .ok (s.modCtx ctx fun c => c.modEdge g.edge fun x => { x with late := x.late + n })
        | .early => .ok ((s.modCtx ctx fun c => c.modEdge g.edge fun x => { x with early := x.early + n }).tell c.world (.early ctx g.edge))
        | .open => match placeGram s ctx g.edge g.frame g.sequence g.records d g.payload with
          | .error x => .error x
          | .ok s => match useParities ctx g.edge g.frame d 64 s with
            | .error x => .error x
            | .ok s => advanceEdge s ctx g.edge

def takeParity (s : State) (ctx : Nat) (c : Context) (g : Datagram) : Except GStop State :=
  match c.edge? g.edge with
  | none => .ok s
  | some d =>
    if !c.receives d g.frame then .ok (notHere s ctx c d g) else
    match closeDue ctx g.edge (dueFuel s ctx g.edge) s with
    | .error x => .error x
    | .ok s => match s.ctx? ctx with
      | none => .ok s
      | some c => match placeIn (c.edgeOf g.edge) g.frame with
        | .closed | .early => .ok s
        | .open =>
          let s := s.modCtx ctx fun c => c.modEdge g.edge fun x =>
            x.putFrame { x.frameOf g.frame with parities := (x.frameOf g.frame).parities ++ [(g.first, g.group, g.payload)] }
          match useParities ctx g.edge g.frame d 64 s with
          | .error x => .error x
          | .ok s => advanceEdge s ctx g.edge

end Sys2Proof.Machine
end

