-- ==== Sys2Proof/Machine/CutMove.lean ====
section
/-! DEFINITION. The cut move: proposals, commits, hand-over, and the control datagrams that carry them (05 R144 to R151; 15
R301 to R304). -/

namespace Sys2Proof.Machine

open Sys2Proof

def Move.fresh (num : W32) : Move :=
  { state := .idle, num := num, top := num, config := 0, frame := 0, deferrals := 0, initiator := false, answered := [], ctls := [],
    stored := [], written := [], total := none, tableSent := false, doneStages := [], sentStages := [], phaseDone := false, held := [] }

def State.modMove (s : State) (ctx : Nat) (f : Move → Move) : State := s.modCtx ctx fun c => { c with move := f c.move }

/-! ## Control datagrams (05 R140, R141) -/

/-- The port of a context's control datagrams: that of the first remote edge its cut names (log 43). -/
def ctlPort (c : Context) : Fin 4 :=
  let ports := (c.img.cuts.map CutConfig.ports).flatten
  match (match c.img.cuts[c.cut]? with | some x => x.ports | none => []), ports with
  | p :: _, _ => p.2
  | [], p :: _ => p.2
  | [], [] => 0

def ctlGram (c : Context) (kind frame num : Nat) (sequence : Nat := 0) (payload : List Byte := []) : Datagram :=
  { kind := kind, context := c.img.peerContext, edge := 0xFF, group := 0, records := 0, frame := frame, sequence := sequence,
    first := num, length := payload.length, payload := payload }

/-- A datagram leaves by a port to a peer, counted in the peer's flow (19 R353). -/
def sendGram (s : State) (p : Fin 4) (peer : Nat) (g : Datagram) : State :=
  noteSent { s with ports := s.ports.set p { s.ports[p] with sent := s.ports[p].sent ++ [(peer, g)] } } (p.val + 2) peer 0 [(0, g.payload)]

/-- Sends a control datagram of the current move; one that awaits a reply keeps its timer (15 R301). -/
def sendCtl (s : State) (ctx : Nat) (kind frame : Nat) (awaits : Bool) (sequence : Nat := 0) (first : Option Nat := none)
    (payload : List Byte := []) : State :=
  match s.ctx? ctx with
  | none => s
  | some c =>
    let g := ctlGram c kind frame (first.getD c.move.num.toNat) sequence payload
    let p := ctlPort c
    let peer := peerOf c c.cut
    let s := sendGram s p peer g
    if awaits then s.modMove ctx fun m => { m with ctls := m.ctls ++ [{ port := p, peer := peer, dg := g, sentAt := s.micros, resends := 0 }] }
    else s

/-- The timers of datagrams of a kind stop. -/
def stopCtl (s : State) (ctx : Nat) (p : Datagram → Bool) : State :=
  s.modMove ctx fun m => { m with ctls := m.ctls.filter fun x => !p x.dg }

def isKind (k : Nat) (g : Datagram) : Bool := g.kind == k

/-- The move ends in IDLE: its number stays, its stored datagrams and held arrivals go, and launches may start (05 R145). Only a
CUT_COMMIT whose COMMIT_ACK has not come keeps its timer (15 R301). -/
def endMove (m : Move) : Move :=
  { Move.fresh m.num with top := m.top, answered := m.answered, ctls := m.ctls.filter fun x => isKind 0x12 x.dg }

/-- Every node looks again at what it may launch; one that waits for a page leaves that for later. -/
def freeLaunches (s : State) (ctx : Nat) : State :=
  match s.ctx? ctx with
  | none => s
  | some c => (List.range c.img.nodes.length).foldl (fun s n => runGraph s ctx c.world (launchNode s ctx n)) s

/-! ## Stages (05 R147, R148; 15 R303, R304) -/

/-- The moving stages whose old owner is this chip, or is not. -/
def movingFrom (c : Context) (me : Bool) : List Nat :=
  (List.range c.img.nodes.length).filter fun n => c.moving n && ((c.farIn c.cut n == c.img.far) == me)

def inputEdges (c : Context) (n : Nat) : List (Nat × EdgeDesc) :=
  (List.range c.img.edges.length).filterMap fun e => match c.edge? e with
    | some d => if d.consumer = n then some (e, d) else none
    | none => none

def historySize (d : EdgeDesc) : Nat := 16 + d.slots * (4 + 2 * (recSize d - 16))

/-- Bytes of a stage: its state, then a history block for each input edge. -/
def stageLength (c : Context) (n : Nat) : Nat :=
  ((c.node? n).map NodeDesc.size).getD 0 + ((inputEdges c n).map fun p => historySize p.2).foldl (· + ·) 0

def stageGrams (c : Context) (n : Nat) : Nat := (stageLength c n + 1407) / 1408

/-- Every moving stage, in node order. -/
def movingAll (c : Context) : List Nat := (List.range c.img.nodes.length).filter c.moving

/-- The index of a stage's first datagram, numbered across the move in node order; 1 is an edge table's, of which each old
owner sends its own (05 R147; DEDUCED, log 125). -/
def firstIndex (c : Context) (n : Nat) : Nat := 2 + (((movingAll c).filter fun k => k < n).map (stageGrams c)).foldl (· + ·) 0

def totalGrams (c : Context) : Nat := 1 + ((movingAll c).map (stageGrams c)).foldl (· + ·) 0

/-- A history block at effective frame `f`: what has been delivered of the two frames before (15 R303). -/
def historyBlock (x : EdgeState) (e f : Nat) (d : EdgeDesc) : List Byte :=
  let z := recSize d - 16
  let done (g s : Nat) : Bool := decide (g < x.base) || decide (s < (x.frameOf g).delivered)
  let part (k s : Nat) : Option (List Byte) := if f < k || !done (f - k) s then none else x.payload? (f - k) s
  natLE 4 e ++ natLE 4 d.slots ++ natLE 4 z ++ natLE 4 0 ++ ((List.range d.slots).map fun s =>
    natLE 4 ((if (part 1 s).isSome then 1 else 0) + (if (part 2 s).isSome then 2 else 0))
      ++ padTo z ((part 1 s).getD []) ++ padTo z ((part 2 s).getD [])).flatten

/-- The history that a block carries, put in place of the edge's (15 R303). -/
def readHistory (x : EdgeState) (f : Nat) (d : EdgeDesc) (bs : List Byte) : EdgeState :=
  let z := recSize d - 16
  let slot (s : Nat) : List Byte := bs.drop (16 + s * (4 + 2 * z))
  let part (bit off : Nat) : Assoc Nat (List Byte) := (List.range d.slots).filterMap fun s =>
    if bitOf (fieldNat (slot s) 0 4) bit then some (s, ((slot s).drop off).take z) else none
  let h := x.hist.filter fun p => !(p.1 + 1 == f || p.1 + 2 == f)
  { x with hist := h ++ (if f < 1 then [] else [(f - 1, part 0 4)]) ++ (if f < 2 then [] else [(f - 2, part 1 (4 + z))]) }

/-- Whether a launch of a node and of a frame below `f` is still to complete. -/
def launchesBelow (s : State) (ctx n f : Nat) : Bool :=
  s.launches.any fun p => p.2.graphMade && p.2.ctx == ctx && p.2.node == n && decide (p.2.frame < f) && !launchOver s p.1

/-- A stage has completed frame `f - 1`: its launches up to it are made and complete (05 R145, R148). -/
def stageDone (s : State) (ctx : Nat) (c : Context) (n f : Nat) : Bool :=
  !launchesBelow s ctx n f &&
  (match c.node? n with
    | none => true
    | some nd => match c.edge? nd.trigger with
      | some d =>
        let x := c.edgeOf nd.trigger
        decide (f ≤ x.base) && x.frames.all fun k => decide (f ≤ k.frame) || decide (d.slots ≤ k.taken)
      | none => (match c.current with | some k => decide (f ≤ k + 1) | none => false) && (c.nodeOf n).held.all fun k => f ≤ k)

/-- The edge table of datagram 1, at the moment it is sent (05 R147). -/
def edgeTable (c : Context) : List Byte :=
  ((List.range c.img.edges.length).map fun e => match c.edge? e with
    | none => []
    | some d =>
      if !c.moving d.producer && !c.moving d.consumer then [] else
      let x := c.edgeOf e
      let old := c.move.frame - 1
      let last : Nat :=
        if c.edgeLocal d old then 0 else if c.sends d old then x.codec.last.toNat else if c.receives d old then x.highest.toNat else 0
      natLE 4 e ++ natLE 4 last ++ natLE 4 x.late.toNat ++ natLE 4 x.dup.toNat).flatten

/-- The stage bytes of a node: its state region as it stands in memory, then its histories. -/
def stageBytes (s : State) (ctx : Nat) (c : Context) (n : Nat) : Except GStop (State × List Byte) :=
  match c.node? n with
  | none => .ok (s, [])
  | some nd =>
    let hist := ((inputEdges c n).map fun p => historyBlock (c.edgeOf p.1) p.1 c.move.frame p.2).flatten
    if nd.size = 0 then .ok (s, hist) else
    match gread s ctx n c.world nd.state nd.size with
    | .error x => .error x
    | .ok (s, bs) => .ok (s, bs ++ hist)

def moveHead (c : Context) : List Byte := natLE 4 c.move.num.toNat ++ natLE 4 0

/-- Sends the datagrams of a stage, the edge table before the first of them (15 R302, R304). -/
def sendStage (s : State) (ctx : Nat) (c : Context) (n : Nat) : Except GStop State :=
  match stageBytes s ctx c n with
  | .error x => .error x
  | .ok (s, bs) =>
    let total := some (totalGrams c)
    let s := if c.move.tableSent then s
      else (sendCtl s ctx 0x20 c.move.frame true 1 total (moveHead c ++ edgeTable c)).modMove ctx fun m => { m with tableSent := true }
    let s := (List.range (stageGrams c n)).foldl (fun s k =>
      sendCtl s ctx 0x20 c.move.frame true (firstIndex c n + k) total
        (moveHead c ++ natLE 4 n ++ natLE 4 (1408 * k) ++ (bs.drop (1408 * k)).take 1408)) s
    .ok (s.modMove ctx fun m => { m with sentStages := m.sentStages ++ [n] })

/-- The order in which this chip's moving stages complete frame `f - 1`; a deferral takes those out that have more to do. -/
def noteDone (s : State) (ctx : Nat) : State :=
  match s.ctx? ctx with
  | none => s
  | some c =>
    if c.move.state = .idle then s else
    let done := (movingFrom c true).filter fun n => stageDone s ctx c n c.move.frame
    let kept := c.move.doneStages.filter done.contains
    s.modMove ctx fun m => { m with doneStages := kept ++ done.filter fun n => !kept.contains n }

/-- Sends every stage of this chip that has completed the last frame of the old cut, in the order of completion: the first of
them follows the edge table, and none goes before it (15 R304). -/
def sendStages (s : State) (ctx : Nat) : State :=
  match s.ctx? ctx with
  | none => s
  | some c =>
    if c.move.state ≠ .committed then s else
    c.move.doneStages.foldl (fun s n => match s.ctx? ctx with
      | none => s
      | some c =>
        if c.move.sentStages.contains n || !(c.move.tableSent || c.move.doneStages.head? == some n) then s
        else runGraph s ctx c.world (sendStage s ctx c n)) s

/-! ## The receiving side of the hand-over -/

/-- An entry of the edge table. Where this chip did not hold the edge's receiving end, the counts go on from the entry's: what
this chip has counted since the move committed is added to them (05 R149). -/
def takeEntry (old : Nat) (c : Context) (bs : List Byte) : Context :=
  let e := fieldNat bs 0 4
  match c.edge? e with
  | none => c
  | some d =>
    let last : W32 := BitVec.ofNat 32 (fieldNat bs 4 4)
    c.modEdge e fun x =>
      let x := if c.receives d old then x
        else { x with late := x.late + BitVec.ofNat 32 (fieldNat bs 8 4), dup := x.dup + BitVec.ofNat 32 (fieldNat bs 12 4) }
      if c.sends d old then x else { x with codec := { x.codec with last := last } }

def takeTable (c : Context) (bs : List Byte) : Context :=
  (List.range (bs.length / 16)).foldl (fun c i => takeEntry (c.move.frame - 1) c ((bs.drop (16 * i)).take 16)) c

/-- The stage bytes that have arrived, or `none` while some are missing. -/
def arrivedStage (c : Context) (n : Nat) : Option (List Byte) :=
  let part (k : Nat) : Option (List Byte) := (c.move.stored.get? (firstIndex c n + k)).map fun p => p.drop 16
  if (c.move.stored.get? 1).isNone then none
  else ((List.range (stageGrams c n)).mapM part).map List.flatten

/-- The histories at the end of a stage's bytes. -/
def takeHistories (c : Context) (n : Nat) (bs : List Byte) : Context :=
  ((inputEdges c n).foldl (fun (acc : Context × List Byte) p =>
    (acc.1.modEdge p.1 fun x => readHistory x c.move.frame p.2 acc.2, acc.2.drop (historySize p.2))) (c, bs)).1

/-- A new owner writes a stage whose hand-over is complete, and may launch it from then on (05 R148). -/
def takeStage (s : State) (ctx : Nat) (c : Context) (n : Nat) : Except GStop State :=
  match arrivedStage c n, c.node? n with
  | some bs, some nd =>
    match (if nd.size = 0 then Except.ok s else gwrite s ctx n c.world nd.state (bs.take nd.size)) with
    | .error x => .error x
    | .ok s =>
      let s := s.modCtx ctx fun c => takeHistories c n (bs.drop nd.size)
      let s := s.modMove ctx fun m => { m with written := m.written ++ [n] }
      launchNode (publish s) ctx n
  | _, _ => .ok s

def takeStages (s : State) (ctx : Nat) : State :=
  match s.ctx? ctx with
  | none => s
  | some c =>
    if c.move.state ≠ .committed then s else
    (movingFrom c false).foldl (fun s n => match s.ctx? ctx with
      | none => s
      | some c => if c.move.written.contains n then s else runGraph s ctx c.world (takeStage s ctx c n)) s

/-! ## The end of a committed move (05 R145, R149) -/

/-- Frame `f` has started, all that this chip sends is acknowledged, and all that it expects has arrived. -/
def moveDone (c : Context) : Bool :=
  decide (c.move.state = .committed) && c.move.phaseDone
    && (movingFrom c true).all c.move.sentStages.contains && !(c.move.ctls.any fun x => isKind 0x20 x.dg)
    && (movingFrom c false).all c.move.written.contains && c.move.held.isEmpty

def finishMove (s : State) (ctx : Nat) : State :=
  match s.ctx? ctx with
  | none => s
  | some c =>
    if !moveDone c then s else
    let s := s.modCtx ctx fun c =>
      { c with cut := c.move.config, past := (c.move.frame, c.cut) :: c.past, move := endMove c.move }
    freeLaunches (s.tell c.world (.cutDone ctx c.move.frame)) ctx

/-- The arrivals that waited for CUT_COMMIT are taken in their order; one that needs a page stays. -/
def takeHeld (s : State) (ctx : Nat) : State :=
  match s.ctx? ctx with
  | none => s
  | some c =>
    if c.move.state ≠ .committed then s else
    c.move.held.foldl (fun s g => match s.ctx? ctx with
      | none => s
      | some c => match (if g.kind = 1 then takeData s ctx c g else takeParity s ctx c g) with
        | .ok s => s.modMove ctx fun m => { m with held := dropFirst (fun x => decide (x = g)) m.held }
        | .error x => graphStop s ctx c.world x) s

/-- What a move can do now: a stage's completion noted, hand-over sent, hand-over taken, and its end. -/
def moveOn (s : State) (ctx : Nat) : State :=
  finishMove (takeStages (takeHeld (sendStages (noteDone s ctx) ctx) ctx) ctx) ctx

/-! ## Entering COMMITTED (05 R145, R149) -/

/-- A raster node reads its state and takes a command of its queue; a node without input owes its launch. A state that breaks
a limit by then stands as none: the node's launches are refused with GRAPH and dropped (DESIGN CHOICE, log 147). -/
def startNode (s : State) (ctx f n : Nat) : Except GStop State :=
  match s.ctx? ctx with
  | none => .ok s
  | some c => match c.node? n with
    | none => .ok s
    | some x =>
      if !c.mine f n then .ok s
      else match x.kind with
        | 1 => match gread s ctx n c.world x.launch 64 with
          | .error g => .error g
          | .ok (s, bs) =>
            .ok (s.modCtx ctx fun c =>
              let q := (c.raster.get? n).getD ⟨1, []⟩
              let c := c.modNode n fun y => { y with raster := parseRaster bs }
              { c with raster := c.raster.set n { next := q.next + 1, cmds := q.cmds ++ [(q.next, f)] } })
        | 2 => .ok s
        | _ => .ok (if x.trigger = 0xFF then s.modCtx ctx fun c => c.modNode n fun y => { y with held := y.held ++ [f] } else s)

/-- The phase steps at the effective frame (05 R149). -/
def stepPhase (s : State) (ctx : Nat) (c : Context) : State :=
  let s := match c.phases.get? c.phase with
    | some k => s.modInst ⟨.phase, k⟩ fun x => { x with closed := true }
    | none => s
  let s := s.modCtx ctx fun c => { c with phase := c.phase + 1, move := { c.move with phaseDone := true } }
  s.modCtx ctx fun c => (List.range c.img.edges.length).foldl settleBase c

/-- What a chip owes of frames that its new cut gives away: launches not yet made and raster commands go. -/
def dropGiven (c : Context) : Context :=
  { c with nodes := c.nodes.map fun p => (p.1, { p.2 with held := p.2.held.filter fun f => c.mine f p.1 }),
           raster := c.raster.map fun p => (p.1, { p.2 with cmds := p.2.cmds.filter fun x => c.mine x.2 p.1 }) }

/-- A run of a frame from the effective one on belongs to the new phase (05 R149). -/
def rephase (s : State) (c : Context) (p : Nat) : State :=
  c.runs.foldl (fun s r => if r.1 < c.move.frame then s else
    s.modInst ⟨.run, r.2⟩ fun x => if x.state = .running then { x with parent := some ⟨.phase, p⟩ } else x) s

/-- Stages that come to this chip start the frames that have already started. -/
def startMoved (s : State) (ctx : Nat) (c : Context) (cur : Nat) : Except GStop State :=
  ((List.range (cur + 1 - c.move.frame)).map fun i => c.move.frame + i).foldl (fun acc f =>
    (movingFrom c false).foldl (fun acc n => match acc with
      | .error x => .error x
      | .ok s => startNode s ctx f n) acc) (.ok s)

/-- A commit that arrives after the effective frame has started: what that start would have done is done now (DEDUCED,
log 126). -/
def lateCommit (s : State) (ctx : Nat) : State :=
  match s.ctx? ctx with
  | none => s
  | some c => match c.current with
    | none => s
    | some cur =>
      if cur < c.move.frame then s else
      let s := stepPhase s ctx c
      match s.ctx? ctx with
      | none => s
      | some c =>
        let r := ensurePhase s ctx c c.phase
        let s := rephase r.1 c r.2
        runGraph s ctx c.world (startMoved s ctx c cur)

/-- An edge that leaves this chip's receiving end for the peer's: what was emitted into its frames goes to the codec, whose
numbers begin anew (05 R147, R149). -/
def routeOut (s : State) (ctx e : Nat) (d : EdgeDesc) (x : EdgeState) (frames : List EdgeFrame) : State :=
  let s := s.modCtx ctx fun c => c.modEdge e fun x =>
    { x with codec := { x.codec with last := 0 }, frames := x.frames.filter fun k => frames.all fun y => y.frame ≠ k.frame }
  frames.foldl (fun s k => (List.range d.slots).foldl (fun s i =>
    if (k.slots.get? i).isSome then codecTake s ctx e k.frame i d ((x.payload? k.frame i).getD []) else s) s) s

/-- An edge whose receiving end comes to this chip, its sending end: what the codec took of its frames is placed here (05
R149). -/
def routeIn (s : State) (ctx e : Nat) (c : Context) (d : EdgeDesc) : State :=
  let f := c.move.frame
  let stale (o : OutDatagram) : Bool := decide (o.ctx = ctx) && decide (o.edge = e) && decide (f ≤ o.dg.frame)
  let ports := vmap (fun p : EthPort => { p with queue := p.queue.filter fun o => !stale o }) s.ports
  let full (k : EdgeFrame) : EdgeFrame := if f ≤ k.frame ∧ d.slots ≤ k.slots.length then { k with closed := true } else k
  let s := ({ s with ports := ports } : State).modCtx ctx fun c => settleBase (c.modEdge e fun x =>
    { x with frames := x.frames.map full
             codec := if f ≤ x.codec.openFrame then { x.codec with openRecords := [], group := [] } else x.codec }) e
  runGraph s ctx c.world (advanceEdge s ctx e)

/-- Records of the effective frame and later that were emitted before the commit travel the new cut's routes (05 R149). -/
def reroute (s : State) (ctx e : Nat) : State :=
  match s.ctx? ctx with
  | none => s
  | some c => match c.edge? e with
    | none => s
    | some d =>
      let f := c.move.frame
      let x := c.edgeOf e
      let nums := (x.frames.filter fun k => decide (f ≤ k.frame)).foldl (fun l k => insertUp k.frame l) []
      if c.edgeLocal d (f - 1) && c.sends d f && !c.receives d f then routeOut s ctx e d x (nums.map x.frameOf)
      else if c.sends d (f - 1) && !c.receives d (f - 1) && c.edgeLocal d f then routeIn s ctx e c d
      else s

/-- The counts of an edge whose receiving end comes to this chip go on from the edge table's, and begin at nothing until it has
come (05 R149). -/
def zeroCounts (c : Context) : Context :=
  (List.range c.img.edges.length).foldl (fun c e => match c.edge? e with
    | some d => if c.receives d c.move.frame && !c.receives d (c.move.frame - 1) then c.modEdge e fun x => { x with late := 0, dup := 0 } else c
    | none => c) c

/-- A chip enters COMMITTED: stages that are complete are sent on entry, with its edge table as it stands, then the table that
has arrived counts, and then the arrivals that waited are taken (05 R149, 15 R304). -/
def enterCommitted (s : State) (ctx : Nat) : State :=
  let s := s.modCtx ctx fun c => dropGiven { c with move := { c.move with state := .committed, phaseDone := false } }
  let s := (sendStages (noteDone s ctx) ctx).modCtx ctx zeroCounts
  let s := match s.ctx? ctx with
    | some c =>
      let s := match c.move.stored.get? 1 with
        | some t => s.modCtx ctx fun c => takeTable c (t.drop 8)
        | none => s
      (List.range c.img.edges.length).foldl (fun s e => reroute s ctx e) s
    | none => s
  takeHeld (freeLaunches (lateCommit s ctx) ctx) ctx

/-! ## Proposing (05 R144, R145) -/

def proposePayload (c : Context) : List Byte := natLE 1 c.move.config ++ natLE 1 (if c.img.far then 1 else 0) ++ natLE 6 0

def sendPropose (s : State) (ctx : Nat) : State :=
  match s.ctx? ctx with
  | some c => sendCtl (stopCtl s ctx (isKind 0x10)) ctx 0x10 c.move.frame true 0 none (proposePayload c)
  | none => s

/-- GCUT's status, in the order of R144: 5 INVALID, 4 UNPAIRED, 3 BUSY, 2 SAME, 1 TOO_SOON, 0 OK. -/
def cutStatus (c : Context) (k f : Nat) : Nat :=
  if 7 < k then 5
  else if !c.img.paired then 4
  else if c.move.state ≠ .idle then 3
  else if k = c.cut then 2
  else match c.current with
    | some cur => if f < cur + 2 then 1 else 0
    | none => 1

/-- An accepted move's number is one more than the highest that this copy has used or adopted (05 R144). -/
def startMove (s : State) (ctx k f : Nat) : State :=
  sendPropose (s.modMove ctx fun m =>
    { endMove m with state := .proposed, num := m.top + 1, top := m.top + 1, config := k, frame := f, initiator := true }) ctx

/-- The reasons of a CUT_ABORT event. -/
def abortEvent (s : State) (ctx : Nat) (conflict : Bool) : State :=
  match s.ctx? ctx with
  | some c => s.tell c.world (.cutAbort ctx conflict)
  | none => s

/-- What the start of a frame does to the move of a context (05 R145, R149). -/
def moveAtFrame (s : State) (ctx f : Nat) : State :=
  match s.ctx? ctx with
  | none => s
  | some c =>
    match c.move.state with
    | .proposed =>
      if f + 1 < c.move.frame then s
      else if c.move.deferrals < 3 then
        let s := s.modMove ctx fun m => { m with deferrals := m.deferrals + 1, frame := m.frame + 1 }
        (freeLaunches (sendPropose s ctx) ctx).tell c.world (.cutDefer ctx (c.move.frame + 1))
      else
        let s := (stopCtl s ctx (isKind 0x10)).modMove ctx fun m => { m with state := .aborting }
        abortEvent (sendCtl s ctx 0x14 c.move.frame true) ctx false
    | .committed =>
      if f < c.move.frame ∨ c.move.phaseDone then moveOn s ctx
      else
        moveOn (stepPhase s ctx c) ctx
    | _ => s

/-- A cancel of a phase or a job abandons a move that is not committed, and sends CUT_ABORT (05 R151). -/
def abandonMove (s : State) (ctx : Nat) : State :=
  match s.ctx? ctx with
  | none => s
  | some c => match c.move.state with
    | .proposed | .acked | .aborting =>
      let s := s.modMove ctx fun m => { endMove m with state := .aborting, config := m.config, frame := m.frame, initiator := m.initiator }
      sendCtl s ctx 0x14 c.move.frame true
    | _ => s

/-! ## Arrivals (05 R145, R151; 15 R301) -/

/-- The reply to a datagram that was answered before: the same again, with no other effect. -/
def replyKind : Nat → Nat
  | 0x10 => 0x11 | 0x11 => 0x12 | 0x12 => 0x13 | 0x14 => 0x15 | _ => 0x21

def answerAgain (s : State) (ctx : Nat) (c : Context) (g : Datagram) : State :=
  if !c.move.answered.contains g then s
  else
    let num := if g.kind = 0x20 then some (fieldNat g.payload 0 4) else some g.first
    sendCtl s ctx (replyKind g.kind) g.frame false (if g.kind = 0x20 then g.sequence else 0) num

def noteAnswered (s : State) (ctx : Nat) (g : Datagram) : State :=
  s.modMove ctx fun m => { m with answered := if m.answered.contains g then m.answered else m.answered ++ [g] }

/-- The peer acknowledges a proposal and adopts its number. A proposal of the same move for a later frame is a datagram of its
own: its CUT_ACK's count of resendings starts at 0 (DESIGN CHOICE, log 161). -/
def acceptPropose (s : State) (ctx : Nat) (g : Datagram) : State :=
  let s := s.modMove ctx fun m =>
    let m' := if m.state = .acked ∧ m.num.toNat = g.first then m else { endMove m with num := BitVec.ofNat 32 g.first, top := BitVec.ofNat 32 (max m.top.toNat g.first) }
    { m' with state := .acked, config := fieldNat g.payload 0 1, frame := g.frame, initiator := false,
              ctls := m'.ctls.filter fun x => !isKind 0x11 x.dg }
  freeLaunches (sendCtl (noteAnswered s ctx g) ctx 0x11 g.frame true) ctx

/-- A proposal that was answered before is only answered again, and its CUT_ACK's timer is left alone (05 R145; DEDUCED, log
161); but the near chip in PROPOSED discards every proposal (05 R151). -/
def onPropose (s : State) (ctx : Nat) (c : Context) (g : Datagram) : State :=
  if c.move.state = .proposed ∧ !c.img.far then s
  else if c.move.answered.contains g then answerAgain s ctx c g
  else match c.move.state with
    | .idle => acceptPropose s ctx g
    | .acked => if c.move.frame ≤ g.frame then acceptPropose s ctx g else s
    | .proposed => acceptPropose (abortEvent (s.modMove ctx endMove) ctx true) ctx g
    | .aborting =>
      if c.img.far && c.move.initiator then acceptPropose (abortEvent (s.modMove ctx endMove) ctx true) ctx g else s
    | .committed | .failed => s

/-- CUT_ACK is answered by CUT_COMMIT, and again where it comes again (05 R145). -/
def onAck (s : State) (ctx : Nat) (c : Context) (g : Datagram) : State :=
  let early := match c.current with
    | some k => decide (k + 1 < c.move.frame)
    | none => true
  if c.move.state = .proposed ∧ c.move.num.toNat = g.first ∧ c.move.frame = g.frame ∧ early = true then
    enterCommitted (sendCtl (noteAnswered (stopCtl s ctx (isKind 0x10)) ctx g) ctx 0x12 c.move.frame true) ctx
  else if c.move.num.toNat = g.first then answerAgain s ctx c g
  else s

def onCommit (s : State) (ctx : Nat) (c : Context) (g : Datagram) : State :=
  if c.move.num.toNat ≠ g.first then s
  else if c.move.state = .acked ∧ c.move.frame = g.frame then
    let s := noteAnswered (stopCtl s ctx (isKind 0x11)) ctx g
    enterCommitted (sendCtl s ctx 0x13 g.frame false) ctx
  else answerAgain s ctx c g

/-- The commit of an earlier move may still await its reply. -/
def onCommitAck (s : State) (ctx : Nat) (_ : Context) (g : Datagram) : State :=
  stopCtl s ctx fun x => isKind 0x12 x && x.frame == g.frame && x.first == g.first

def onAbort (s : State) (ctx : Nat) (c : Context) (g : Datagram) : State :=
  if c.move.num.toNat ≠ g.first then s
  else match c.move.state with
    | .proposed | .aborting | .acked =>
      let s := sendCtl (noteAnswered s ctx g) ctx 0x15 g.frame false
      freeLaunches (abortEvent (s.modMove ctx endMove) ctx false) ctx
    | .idle => answerAgain s ctx c g
    | .committed | .failed => s

def onAbortAck (s : State) (ctx : Nat) (c : Context) (g : Datagram) : State :=
  if c.move.state = .aborting ∧ c.move.num.toNat = g.first then freeLaunches (s.modMove ctx endMove) ctx else s

/-- A HANDOVER names its move in its payload. -/
def onHandover (s : State) (ctx : Nat) (c : Context) (g : Datagram) : State :=
  let num := fieldNat g.payload 0 4
  if c.move.num.toNat ≠ num then s
  else match c.move.state with
    | .acked | .committed =>
      if (c.move.stored.get? g.sequence).isSome then answerAgain s ctx c g
      else
        let s := s.modMove ctx fun m => { m with stored := m.stored.set g.sequence g.payload, total := some g.first }
        let s := sendCtl (noteAnswered s ctx g) ctx 0x21 g.frame false g.sequence
        let s := if c.move.state = .committed ∧ g.sequence = 1 then s.modCtx ctx fun c => takeTable c (g.payload.drop 8) else s
        moveOn s ctx
    | _ => answerAgain s ctx c g

def onHandoverAck (s : State) (ctx : Nat) (c : Context) (g : Datagram) : State :=
  if c.move.num.toNat ≠ g.first then s
  else moveOn (stopCtl s ctx fun x => isKind 0x20 x && x.sequence == g.sequence) ctx

/-- A control datagram that is due: its quarter of a frame period has passed since it was last sent. -/
def ctlDue (s : State) (c : Context) (x : Ctl) : Bool := decide (c.img.period ≤ 4 * (s.micros - x.sentAt))

def execControlResend (ctx k : Nat) (s : State) : Host.Outcome State Fault Refusal :=
  .next (match s.ctx? ctx with
    | none => s
    | some c => match c.move.ctls[k]? with
      | none => s
      | some x =>
        if !ctlDue s c x ∨ 16 ≤ x.resends then s
        else (sendGram s x.port x.peer x.dg).modMove ctx fun m =>
          { m with ctls := m.ctls.set k { x with sentAt := s.micros, resends := x.resends + 1 } })

/-- The limit of resending ends the move, and the context starts no further runs (05 R145). -/
def execFailed (ctx k : Nat) (s : State) : Host.Outcome State Fault Refusal :=
  .next (match s.ctx? ctx with
    | none => s
    | some c => match c.move.ctls[k]? with
      | none => s
      | some x =>
        if !ctlDue s c x ∨ x.resends < 16 then s
        else (s.modCtx ctx fun c => { c with stopped := true, move := { c.move with state := .failed, ctls := [] } }).tell c.world
          (.moveFailed ctx))

end Sys2Proof.Machine
end

