-- ==== Sys2Proof/Machine/GraphWords.lean ====
section
/-! DEFINITION. The graph words, and SCANCEL, which may abandon a move (07 R207; 09 R262 to R266; 05 R127, R144, R151, R152). -/

namespace Sys2Proof.Machine

open Sys2Proof

/-- Moves that are not committed, of the contexts with a phase in or below a cancelled instance (05 R151). -/
def abandonUnder (s : State) (i : InstId) : State :=
  let hit : List Nat := (s.contexts.filter fun p => match p.2.phases.get? p.2.phase with
    | some k => under s i ⟨.phase, k⟩
    | none => false).map Prod.fst
  hit.foldl abandonMove s

/-- 07 R207. A register that names a launch is for W; its own instance is for both privileges and ends the issuer. -/
def execScancel (g : Guard) (d a : SReg) (l : Level) (s : State) :=
  scalarWord g 4 (fun _ _ => if a ≠ 0 ∧ l = .unit then some .illegalInstr else none) (fun e s =>
    if a = 0 then
      let s := match climb s l 6 (unitOf e.sid.wg) with
        | some i => abandonUnder (cancelInst s i) i
        | none => s
      .done (sweep (endStrand s e.sid .cancelled))
    else if !e.priv then .fault s { code := .access }
    else
      let k := (e.st.rd a).toNat
      let known := match s.launches.get? k with
        | some x => x.world == e.world
        | none => false
      let put (s : State) (n : Nat) : Eff := .done (s.modStrand e.sid fun st => st.wr d (BitVec.ofNat 64 n))
      if !known then put s 3 else
      match climb s l 6 ⟨.launch, k⟩ with
      | none => put s 3
      | some i =>
        let r := cancelStatus s i
        put (if r.2 = 0 then abandonUnder r.1 i else r.1) r.2) s

/-! ## GEMIT, GCLOSE (09 R262, R263) -/

/-- The depth of a graph-made launch's records. -/
def launchDepth (l : Launch) : Nat := (l.batch.map BatchRec.depth).getD 0

def putStatus (e : Env) (d : SReg) (s : State) (n : Nat) : Eff := .done (s.modStrand e.sid fun st => st.wr d (BitVec.ofNat 64 n))

/-- A SLOT that the checks before the graph unit decide. -/
def gemitEarly (s : State) (e : Env) (f r : Nat) : Option EdgeDesc :=
  if bitsOf r 8 8 ≠ 0 ∨ bitsOf r 32 32 ≠ 0 ∨ !e.l.graphMade then none
  else match s.ctx? e.l.ctx with
    | none => none
    | some c => match c.edge? (bitsOf r 0 8) with
      | some d => if c.mine f d.producer then some d else none
      | none => none

def gemitBody (d a b r : SReg) (e : Env) (s : State) : Eff :=
  let q := release s e.sid (some .dev)
  if !q.2 then .wait q.1 .retry else
  let s := q.1
  let va := (e.st.rd a).toNat
  let f := (e.st.rd b).toNat
  let x := (e.st.rd r).toNat
  match gemitEarly s e f x with
  | none => putStatus e d (emitSlot s e.wg.launch) 1
  | some k =>
    if 2 ^ 57 ≤ va then .fault s { code := .access, access := .read, addr := va }
    else if va % 16 ≠ 0 then .fault s { code := .align, access := .read, addr := va }
    else match strandBytes e s va (recSize k - 16) with
      | .error y => y
      | .ok (s, bs) => match emit s e.l.ctx e.wg.launch e.l.node (launchDepth e.l) (bitsOf x 0 8) f (bitsOf x 16 16) bs with
        | .ok (s, n) => putStatus e d (moveOn s e.l.ctx) n
        | .error g => .wait (graphStop s e.l.ctx e.world g) .retry

def execGemit (g : Guard) (d a b r : SReg) (s : State) := scalarWord g 4 noCheck (gemitBody d a b r) s

/-- The status of GCLOSE, in the order of R263. -/
def closeStatus (s : State) (c : Context) (node e f : Nat) : Nat :=
  match c.edge? e with
  | none => 1
  | some d =>
    if d.producer ≠ node ∨ !c.mine f node then 1
    else if !c.edgeLocal d f then 0
    else if (c.edgeOf e).closedAt f then 3
    else if !ringFree s c e d f then 5
    else 0

def gcloseBody (d a b : SReg) (e : Env) (s : State) : Eff :=
  let k := (e.st.rd a).toNat
  let f := (e.st.rd b).toNat
  if !e.l.graphMade || decide (256 ≤ k) then putStatus e d s 1 else
  match closeDue e.l.ctx k (dueFuel s e.l.ctx k) s with
  | .error g => .wait (graphStop s e.l.ctx e.world g) .retry
  | .ok s =>
  match s.ctx? e.l.ctx with
  | none => putStatus e d s 1
  | some c =>
    let n := closeStatus s c e.l.node k f
    if n ≠ 0 then putStatus e d (moveOn s e.l.ctx) n
    else match c.edge? k with
      | none => putStatus e d s 1
      | some x =>
        if c.edgeLocal x f then
          match closeFrame s e.l.ctx k f with
          | .ok s => putStatus e d (moveOn s e.l.ctx) 0
          | .error g => .wait (graphStop s e.l.ctx e.world g) .retry
        else putStatus e d (moveOn (if (c.edgeOf k).codec.openFrame = f then flushEdge s e.l.ctx k else s) e.l.ctx) 0

def execGclose (g : Guard) (d a b : SReg) (s : State) := scalarWord g 4 noCheck (gcloseBody d a b) s

/-! ## VEMIT (08 R241) -/

/-- The statuses go to the lanes that emitted; helper lanes receive none. -/
def execVemit (w : VWord) (s : State) :=
  vectorWord 0x95 w (fun c s =>
    match c.eachLane s c.workLanes .read fun l s' => (s', c.stageOk s l) with
    | .error x => x
    | .ok (s, _) => match c.emitLanes c.workLanes s with
      | .error g => .wait (graphStop s c.e.l.ctx c.e.world g)
      | .ok (s', vs) =>
        let s' := moveOn s' c.e.l.ctx
        let st (l : Lane) : W32 := BitVec.ofNat 32 (VCtx.laneVal vs l)
        let old := c.vreg c.w.dst.val
        let s' := c.putReg s' c.w.dst.val (.g (lanes fun l => if c.active l ∧ c.helper l = false then st l else old.lane l))
        .done s' (.g (lanes st))) s

/-! ## GCUT, GSTAT (09 R264 to R266) -/

def execGcut (g : Guard) (d a b : SReg) (s : State) :=
  scalarWord g 4 noCheck (fun e s =>
    if !e.l.graphMade then putStatus e d s 4 else
    match s.ctx? e.l.ctx with
    | none => putStatus e d s 4
    | some c =>
      let k := (e.st.rd a).toNat
      let f := (e.st.rd b).toNat
      let n := cutStatus c k f
      putStatus e d (if n = 0 then startMove s e.l.ctx k f else s) n) s

def MoveState.num : MoveState → Nat
  | .idle => 0 | .proposed => 1 | .acked => 2 | .committed => 3 | .aborting => 4 | .failed => 5

/-- A count of an edge (05 R152). -/
def edgeItem (i : StatItem) (x : EdgeState) : W64 :=
  zext32 (match i with
    | .sub => x.sub | .late => x.late | .dup => x.dup | .early => x.early | .expired => x.expired | _ => x.malformed)

def isEdgeItem : StatItem → Bool
  | .sub | .late | .dup | .early | .expired | .malformed => true
  | _ => false

/-- An item of the context; `none` stands for the implicit graph, which never moves. -/
def ctxItem (i : StatItem) (c : Option Context) : W64 :=
  match i, c with
  | .mstate, some c => BitVec.ofNat 64 c.move.state.num
  | .mnum, some c => sext32 c.move.num
  | .cut, some c => BitVec.ofNat 64 c.cut
  | .mframe, some c => if c.move.state = .idle then BitVec.allOnes 64 else BitVec.ofNat 64 c.move.frame
  | .mframe, none => BitVec.allOnes 64
  | _, _ => 0

def statValue (s : State) (e : Env) (i : StatItem) (k : Nat) : W64 :=
  let c := if e.l.graphMade then s.ctx? e.l.ctx else none
  if isEdgeItem i then
    match c with
    | some c => if (c.edge? k).isSome then edgeItem i (c.edgeOf k) else BitVec.allOnes 64
    | none => BitVec.allOnes 64
  else ctxItem i c

def execGstat (g : Guard) (d a : SReg) (i : StatItem) (s : State) :=
  scalarWord g 4 noCheck (setsReg d fun e s => statValue s e i (e.st.rd a).toNat) s

end Sys2Proof.Machine
end

