-- ==== Sys2Proof/Machine/GraphEvents.lean ====
section
/-! DEFINITION. Creating and destroying graph contexts, frame starts, deadlines and the frame clock (05 R116 to R124, R128, R130,
R131, R136, R145). -/

namespace Sys2Proof.Machine

open Sys2Proof

/-! ## The limits of a context's tables (05 R116 to R121) -/

def fieldOk (size : Nat) (x : FieldEntry) : Bool :=
  decide (x.format = 0xFF) ||
    (decide (16 ≤ x.offset) && (decide (x.format ≤ 8) || (decide (0x10 ≤ x.format) && decide (x.format ≤ 0x12)))
      && decide (1 ≤ x.count) && decide (x.rule ≤ 2) && !(x.rule == 1 && x.format == 0)
      && decide (x.offset + x.count * elemSize x.format ≤ size))

/-- Fields that are used do not overlap. -/
def disjointFields (l : List FieldEntry) : Bool :=
  let used := l.filter fun x => x.format ≠ 0xFF
  (List.range used.length).all fun i => (List.range i).all fun j => match used[i]?, used[j]? with
    | some x, some y => decide (x.offset + x.count * elemSize x.format ≤ y.offset) || decide (y.offset + y.count * elemSize y.format ≤ x.offset)
    | _, _ => true

def layoutOk (size : Nat) (l : List FieldEntry) : Bool := decide (l.length ≤ 32) && l.all (fieldOk size) && disjointFields l

def edgeOk (m : ContextImage) (d : EdgeDesc) : Bool :=
  d.ring % 4096 == 0 && decide (d.producer < m.nodes.length) && decide (d.consumer < m.nodes.length)
    && decide (2 ≤ d.frames) && decide (d.frames ≤ 8) && decide (1 ≤ d.units) && decide (d.units ≤ 8)
    && decide (1 ≤ d.slots) && decide (d.slots ≤ 256) && decide (1 ≤ d.batch) && decide (d.batch ≤ 256) && decide (d.batch ≤ d.slots)
    && (if selfEdge d then decide (1 ≤ d.depth) && decide (d.depth ≤ 32) else d.depth == 0)
    && decide (d.budget ≤ 2 * m.period)
    && (match m.layouts[d.layout]? with | some l => layoutOk (recSize d) l | none => false)

def nodeOk (m : ContextImage) (n : Nat) (x : NodeDesc) : Bool :=
  decide (x.kind ≤ 3) && decide (x.deadline ≤ m.period) && x.state % 4096 == 0
    && decide (x.size ≤ 65536)
    && (x.trigger == 0xFF || (match m.edges[x.trigger]? with | some d => d.consumer == n | none => false))
    && !(x.kind == 1 && x.trigger == 0xFF) && !(x.kind == 2 && x.trigger != 0xFF)

/-- A barrier entry's level is not the reserved one (07 R198), and a cut's peer is one of sixteen (R137). -/
def namedOk (m : ContextImage) : Bool :=
  m.barriers.all (fun b => bitsOf b.toNat 5 2 != 3) && m.cuts.all fun x => decide (x.peer < 16)

def tablesOk (m : ContextImage) : Bool :=
  decide (m.nodes.length ≤ 64) && decide (m.edges.length ≤ 128) && decide (m.layouts.length ≤ 16) && decide (m.cuts.length ≤ 8)
    && decide (100 ≤ m.period) && decide (m.period ≤ 1000000) && decide (m.cut < 8)
    && (List.range m.nodes.length).all (fun n => match m.nodes[n]? with | some x => nodeOk m n x | none => true)
    && m.layouts.all (layoutOk 256) && m.edges.all (edgeOk m) && namedOk m

/-! ## Nodes' own state, checked in memory (05 R124, R130, R131, R134) -/

/-- A launch descriptor in memory that the graph unit would submit. -/
def launchAt (s : State) (ctx world va : Nat) : State × Option LaunchDesc :=
  match readNow s (s.worldDie world) world va 256 true with
  | (s, .ok bs) => (s, graphDesc s ctx world va bs)
  | (s, .error _) => (s, none)

/-- A raster node's state with what it names. -/
def rasterAt (s : State) (ctx : Nat) (m : ContextImage) (n : Nat) (x : NodeDesc) : State × Option RasterState :=
  if x.launch % 64 ≠ 0 then (s, none) else
  match readNow s (s.worldDie m.world) m.world x.launch 64 true with
  | (s, .error _) => (s, none)
  | (s, .ok bs) => match parseRaster bs with
    | none => (s, none)
    | some r =>
      let merge := match m.nodes[r.merge]? with | some y => y.kind == 2 | none => false
      let queue := decide (m.handles.getD r.queue none = some (.rasterQueue n))
      let wide := match m.edges[x.trigger]? with | some d => decide (16 + 12 * (3 + r.attrs) ≤ recSize d) | none => false
      if !merge || !queue || !wide then (s, none) else
      match launchAt s ctx m.world r.launch with
      | (s, some d) => if allVector d then (s, some r) else (s, none)
      | (s, none) => (s, none)

/-- Whether a node's launch field names what its kind needs; a raster node's state is kept. -/
def nodeStateAt (s : State) (ctx : Nat) (m : ContextImage) (n : Nat) (x : NodeDesc) : State × Bool × Option RasterState :=
  match x.kind with
  | 1 => match rasterAt s ctx m n x with
    | (s, some r) => (s, true, some r)
    | (s, none) => (s, false, none)
  | 2 =>
    if x.launch % 64 ≠ 0 then (s, false, none) else
    match readNow s (s.worldDie m.world) m.world x.launch 320 true with
    | (s, .ok bs) => (s, mergeOk bs, none)
    | (s, .error _) => (s, false, none)
  | _ => match launchAt s ctx m.world x.launch with
    | (s, d) => (s, d.isSome, none)

/-- The first frame that starts now or later (log 44). -/
def firstFrame (m : ContextImage) (now : Nat) : Nat := if now ≤ m.epoch then 0 else (now - m.epoch + m.period - 1) / m.period

def Context.fresh (m : ContextImage) (first : Nat) : Context :=
  { img := m, world := m.world, stopped := false, cut := m.cut, phase := 0, past := [], first := first, current := none, offset := 0,
    phases := [], runs := [], edges := (List.range m.edges.length).map fun e => (e, ⟨0, 0, 0, 0, 0, 0, 0, first, [], [], ⟨0, 0, [], 0, [], 0⟩⟩),
    nodes := [], move := Move.fresh 0, frags := [],
    raster := (List.range m.nodes.length).filterMap fun n => match m.nodes[n]? with
      | some x => if x.kind = 1 then some (n, ⟨1, []⟩) else none
      | none => none }

/-- The graph unit checks the tables and refuses a context that breaks a limit (05 R116). -/
def execContextCreate (s : State) : Host.Outcome State Fault Refusal :=
  .next (match takeInput s fun x => match x with | .createContext k m => some (k, m) | _ => none with
    | none => s
    | some (s, k, m) =>
      let alive := match s.worlds.get? m.world with | some w => w.alive | none => false
      if !alive then s
      else if !tablesOk m || decide (16384 ≤ k) || (s.ctx? k).isSome then s.tell m.world (.contextRefused m.world k)
      else
        let s0 := s
        let s : State := { s with contexts := s.contexts.set k (Context.fresh m (firstFrame m s.micros)) }
        let r := (List.range m.nodes.length).foldl (fun (acc : State × Bool) n => match m.nodes[n]? with
          | none => acc
          | some x => match nodeStateAt acc.1 k m n x with
            | (s, ok, rs) => (s.modCtx k fun c => c.modNode n fun y => { y with raster := rs }, acc.2 && ok)) (s, true)
        if r.2 then r.1 else s0.tell m.world (.contextRefused m.world k))

/-- A context goes once none of its launches is still to complete (log 45). -/
def execContextDestroy (s : State) : Host.Outcome State Fault Refusal :=
  .next (match takeInput s fun x => match x with | .destroyContext k => some k | _ => none with
    | none => s
    | some (s, k) =>
      if s.launches.any fun p => p.2.ctx == k && !launchOver s p.1 then s
      else { s with contexts := s.contexts.erase k })

/-- The frame clock of a paired context is disciplined to its peer's (05 R121). -/
def execPtpSync (ctx : Nat) (offset : Int) (s : State) : Host.Outcome State Fault Refusal :=
  .next (s.modCtx ctx fun c => if c.img.paired then { c with offset := offset } else c)

/-! ## Raster queues (05 R136) -/

/-- Whether a frame of a raster node is over: its batches launched, its launches complete, its fragments merged. -/
def rasterDone (s : State) (ctx : Nat) (c : Context) (n f : Nat) : Bool :=
  (match (c.node? n).bind fun nd => (c.edge? nd.trigger).map fun d => (nd.trigger, d) with
    | some (e, d) => decide (f < (c.edgeOf e).base) && (match (c.edgeOf e).frame? f with
      | some k => decide (d.slots ≤ k.taken)
      | none => true)
    | none => true)
    && !launchesBelow s ctx n (f + 1) && !(c.frags.any fun g => g.node == n && g.frame == f)

/-- Commands of the context's raster queues that are complete leave their queue, their writes released (04 R110). -/
def settleRaster (s : State) (ctx : Nat) : State :=
  match s.ctx? ctx with
  | none => s
  | some c =>
    let live (p : Nat × RasterQueue) : List (Nat × Nat) := p.2.cmds.filter fun x => !rasterDone s ctx c p.1 x.2
    if c.raster.all fun p => decide ((live p).length = p.2.cmds.length) then s
    else publish (s.modCtx ctx fun c => { c with raster := c.raster.map fun p => (p.1, { p.2 with cmds := live p }) })

/-- A merged fragment leaves its node, whose frame may then be over (05 R135, R136). -/
def execFragmentMerge (ctx node k : Nat) (s : State) : Host.Outcome State Fault Refusal :=
  .next (match s.ctx? ctx with
    | none => s
    | some c => match c.frags[k]? with
      | none => s
      | some f =>
        if f.merge ≠ node ∨ !mayMerge s ctx c k f then s
        else match mergeFrag s ctx c f with
          | .error x => graphStop s ctx c.world x
          | .ok s => moveOn (settleRaster (s.modCtx ctx fun c => { c with frags := c.frags.eraseIdx k }) ctx) ctx)

/-! ## Frame starts and deadlines (05 R121, R123, R128, R130, R145) -/

def startNodes (s : State) (ctx f : Nat) (c : Context) : Except GStop State :=
  (List.range c.img.nodes.length).foldl (fun acc n => match acc with
    | .error x => .error x
    | .ok s => startNode s ctx f n) (.ok s)

/-- The frame that starts next in a context. -/
def nextFrame (c : Context) : Nat := match c.current with
  | some k => k + 1
  | none => c.first

def execFrameStart (ctx : Nat) (s : State) : Host.Outcome State Fault Refusal :=
  .next (match s.ctx? ctx with
    | none => s
    | some c =>
      let f := nextFrame c
      if c.stopped || decide (s.ctxNow c < c.frameStart f) then s
      else
        match startNodes s ctx f c with
        | .error g => graphStop s ctx c.world g
        | .ok s =>
          let s := s.modCtx ctx fun c => { c with current := some f }
          let s := moveAtFrame s ctx f
          let s := match s.ctx? ctx with
            | some c => (ensureRun s ctx c f).1
            | none => s
          moveOn (settleRaster (freeLaunches s ctx) ctx) ctx)

/-- A node's deadline: what a partly delivered batch of the frame has by then is launched in its turn (05 R123). -/
def execNodeFrameDeadline (ctx node frame : Nat) (s : State) : Host.Outcome State Fault Refusal :=
  .next (match s.ctx? ctx with
    | none => s
    | some c => match c.node? node with
      | none => s
      | some x =>
        let due := decide (c.frameStart frame + x.deadline ≤ s.ctxNow c)
          && (match c.current with | some k => decide (frame ≤ k) | none => false)
        if !due || x.trigger == 0xFF then s
        else
          let s := markDeadlines s ctx x.trigger
          moveOn (runGraph s ctx c.world (launchNode s ctx node)) ctx)

/-- An edge's deadline closes its oldest frame at the end that receives it (05 R128). -/
def execEdgeDeadline (ctx edge : Nat) (s : State) : Host.Outcome State Fault Refusal :=
  .next (
    let s := s.modCtx ctx fun c => settleBase c edge
    match s.ctx? ctx with
    | none => s
    | some c => match c.edge? edge with
      | none => s
      | some d =>
        let f := (c.edgeOf edge).oldest
        if !c.receives d f || decide (s.ctxNow c < c.edgeDeadline d f) then s
        else moveOn (runGraph s ctx c.world (closeFrame s ctx edge f)) ctx)

end Sys2Proof.Machine
end

