-- ==== Sys2Proof/Machine/Placement.lean ====
section
/-! DEFINITION. Partition registers, granules, and the placing of workgroups (01 R7, R21; 02 R42, R53; 05 R124, R133; 16 R309 to
R311; 17 R321 to R327). -/

namespace Sys2Proof.Machine

open Sys2Proof

/-! ## World partition registers (16 R309, R310) -/

def parsePart (v : W64) : PartEntry :=
  let n := v.toNat
  { valid := bitOf n 63, world := bitsOf n 48 10, weight := bitsOf n 32 8, slots := bitsOf n 16 6, granules := bitsOf n 0 6,
    raw := v &&& 0x83FF00FF003F003F }

/-- A valid entry keeps its fields' limits (log 46). Reserved bits are ignored and read as zero (00 R4). -/
def partOk (v : W64) : Bool :=
  let p := parsePart v
  !p.valid || (decide (1 ≤ p.weight) && decide (p.slots ≤ 32) && decide (p.granules ≤ 48))

/-- Workgroups of a core that hold their place. -/
def resident (s : State) (core : CoreId) : List (Nat × Workgroup) :=
  s.wgs.filter fun p => decide (p.2.core = core) && !p.2.released && p.2.parked.isNone

def wgWorld (s : State) (g : Workgroup) : Option Nat := (s.launches.get? g.launch).map Launch.world

def partList (v : Vector PartEntry 8) : List PartEntry := v.toList.filter PartEntry.valid

/-- Whether a core's registers may stand as `new`: no world twice, shares within the core, every resident world listed. -/
def partsOk (s : State) (core : CoreId) (new : Vector PartEntry 8) : Bool :=
  let l := partList new
  decide ((l.map PartEntry.world).Nodup) && decide ((l.map PartEntry.granules).foldl (· + ·) 0 ≤ 48)
    && decide ((l.map PartEntry.slots).foldl (· + ·) 0 ≤ 32)
    && (resident s core).all fun p => match wgWorld s p.2 with
      | some w => (partList (s.partReg core)).all (fun x => x.world != w) || l.any fun x => x.world == w
      | none => true

def execWorldPartitionWrite (core : CoreId) (idx : Fin 8) (val : W64) (s : State) : Host.Outcome State Fault Refusal :=
  .next (
    let new := (s.partReg core).set idx (parsePart val)
    if partOk val && partsOk s core new then { s with partRegs := s.partRegs.set core new } else s)

def partOf? (s : State) (core : CoreId) (world : Nat) : Option PartEntry := (partList (s.partReg core)).find? fun x => x.world = world

/-! ## Granules (16 R311) -/

def heldBy (s : State) (core : CoreId) (world : Nat) : Nat :=
  (s.granulesOf core).toList.countP fun g => match g with
    | .held _ w => w == world
    | _ => false

def freeGranules (s : State) (core : CoreId) : List (Fin 48) :=
  (List.finRange 48).filter fun g => decide ((s.granulesOf core)[g] = .free)

/-- A workgroup's granules are released: each is zeroed before it is free again. -/
def releaseGranules (s : State) (core : CoreId) (wg : Nat) : State :=
  let one (g : Granule) : Granule :=
    match g with
    | .held k w => if k = wg then .zeroing w else g
    | _ => g
  { s with granules := s.granules.set core (vmap one (s.granulesOf core)) }

def takeGranules (s : State) (core : CoreId) (wg world : Nat) (l : List (Fin 48)) : State :=
  { s with granules := s.granules.set core (l.foldl (fun (v : Vector Granule 48) (g : Fin 48) => v.set g (.held wg world)) (s.granulesOf core)) }

def execGranuleZeroingDone (core : CoreId) (g : Fin 48) (s : State) : Host.Outcome State Fault Refusal :=
  .next (match (s.granulesOf core)[g] with
    | .zeroing _ => { s with granules := s.granules.set core ((s.granulesOf core).set g .free) }
    | _ => s)

/-! ## Whether a core can take a workgroup (17 R325) -/

def launchOf (s : State) (g : Workgroup) : Option LaunchDesc := (s.launches.get? g.launch).map Launch.desc

/-- Strands that resident workgroups have in a quadrant of a core. -/
def quadrantUsed (s : State) (core : CoreId) (q : Nat) : Nat :=
  ((resident s core).map fun p => match launchOf s p.2 with
    | some d => d.inQuadrant q
    | none => 0).foldl (· + ·) 0

/-- Strands that a world has on a core. -/
def slotsUsed (s : State) (core : CoreId) (world : Nat) : Nat :=
  ((resident s core).map fun p => if wgWorld s p.2 = some world then (match launchOf s p.2 with
    | some d => d.strands
    | none => 0) else 0).foldl (· + ·) 0

/-- The operand FIFOs that residents of a core hold. -/
def fifosUsed (s : State) (core : CoreId) : Nat :=
  (resident s core).foldl (fun m p => match launchOf s p.2 with
    | some d => m ||| d.fifos
    | none => m) 0

/-- REGCAP of a core (19 R368). -/
def regcap (s : State) (core : CoreId) : Nat := if s.spares.used.contains (.rows core) then 120 else 128

def draining (s : State) (world : Nat) (core : CoreId) : Bool := s.drains.any fun d => d.world == world && d.cores.contains core

def worldValid (s : State) (world : Nat) : Bool := match s.worlds.get? world with
  | some w => w.valid && w.alive
  | none => false

/-- Every test of R325 for one workgroup of a descriptor, of a world, on a core. -/
def canPlace (s : State) (world : Nat) (d : LaunchDesc) (core : CoreId) : Bool :=
  decide (s.power.state = .w0) && worldValid s world && !draining s world core && decide (d.regs ≤ regcap s core)
    && (match partOf? s core world with
      | some p => decide (heldBy s core world + d.granules ≤ p.granules) && decide (slotsUsed s core world + d.strands ≤ p.slots)
      | none => false)
    && (List.range 4).all (fun q => decide (quadrantUsed s core q + d.inQuadrant q ≤ 8))
    && decide (d.granules ≤ (freeGranules s core).length) && (fifosUsed s core &&& d.fifos) == 0

/-! ## Order of starting (17 R321, R323; 05 R123) -/

def isRunning (s : State) (i : InstId) : Bool := match s.inst? i with
  | some x => decide (x.state = .running)
  | none => false

/-- Whether every launch before `id` in its queue lets it start. -/
def queueLets (s : State) (id : Nat) (l : Launch) : Bool :=
  match l.queue with
  | none => true
  | some (num, _) => match (s.worlds.get? l.world).bind fun w => w.queues.get? num with
    | none => false
    | some q =>
      let before := q.pending.takeWhile fun p => p.2 ≠ id
      before.all fun p => launchOver s p.2 || (l.desc.overlap && (match s.launches.get? p.2 with
        | some x => decide (x.total ≤ x.placed)
        | none => true))

/-- A later batch's launch begins only after the one before it has begun. -/
def nodeLets (s : State) (l : Launch) : Bool :=
  match l.prevOfNode with
  | none => true
  | some k => launchOver s k || (match s.launches.get? k with
    | some x => x.firstPlaced.isSome || x.total == 0
    | none => true)

/-- A launch with a workgroup to place and nothing in its order against it. -/
def mayStartLaunch (s : State) (id : Nat) (l : Launch) : Bool :=
  isRunning s ⟨.launch, id⟩ && decide (l.placed < l.total) && queueLets s id l && nodeLets s l

/-- The queue that gives a launch its priority. -/
def queueNumOf (s : State) (l : Launch) : Nat := (namedQueue s l).getD 0

def priorityOf (s : State) (l : Launch) : Nat := match (s.worlds.get? l.world).bind fun w => w.queues.get? (queueNumOf s l) with
  | some q => q.priority
  | none => 0

/-! ## Placing (17 R325, R326; 02 R53; 05 R124, R133) -/

/-- The 64 bytes of a batch record. -/
def BatchRec.bytes (b : BatchRec) : List Byte :=
  natLE 8 b.frame ++ natLE 8 b.firstRecord ++ natLE 2 b.firstSlot ++ natLE 2 b.count ++ natLE 1 b.edge ++ natLE 1 b.depth
    ++ natLE 1 ((if b.deadline then 1 else 0) + (if b.anySub then 2 else 0)) ++ natLE 1 0 ++ natLE 8 b.phase ++ natLE 32 0

/-- What a graph unit writes into a workgroup's scratchpad before its strands start. -/
def firstScratch (l : Launch) : Mem :=
  let m : Mem := match l.batch with
    | some b => Mem.write [] 0 b.bytes
    | none => []
  match l.frag with
  | none => m
  | some f =>
    let room := bitsOf l.desc.pword.toNat 12 6 * 65536
    (List.range f.tris.length).foldl (fun (m : Mem) t =>
      let bs := attrBlock f.raster.attrs (f.tris.getD t [])
      m.write (64 + 192 * t) (bs.take (room - (64 + 192 * t)))) m

/-- The strand of a placed workgroup, as it starts. -/
def firstStrand (l : Launch) (wgIndex i cycle : Nat) : Strand :=
  let st := Strand.start (l.desc.roles.getD i .vector) ((l.desc.scalarBase + 4 * l.desc.entries.getD i 0) % 2 ^ 64) l.desc.regs cycle
  match l.frag with
  | none => st
  | some f => match f.strands[wgIndex * l.desc.strands + i]? with
    | none => { st with
        base := 0, frag := some ⟨l.node, l.frame, f.raster.merge, 0, Vector.replicate 32 0, Vector.replicate 32 0, Vector.replicate 32 0, 0⟩ }
    | some y =>
      let x := fragStart f.raster l.node l.frame (f.tris.getD y.tri []) y
      { st with base := x.base, helpers := x.helpers, frag := some x.lanes,
                v := (List.range st.v.length).map fun r => match x.regs[r]? with
                  | some v => .g v
                  | none => st.v.getD r (.u 0) }

/-- One workgroup takes its place: granules, strands, and its instance below the launch's. Which free granules back it, and in
which order, the spec leaves open (02 R53): the lowest-numbered, in rising order (DESIGN CHOICE, log 131). -/
def placeOn (s : State) (id : Nat) (l : Launch) (index : Nat) (core : CoreId) : State :=
  let wg := s.nextId
  let gs := (freeGranules s core).take l.desc.granules
  let g : Workgroup :=
    { launch := id, index := index, core := core, released := false, stopping := false, parked := none, granules := gs,
      scratch := firstScratch l, tiles := [], badScratch := [], badTiles := [], fifos := [], matrix := .empty, lastCopy := [], lastColl := [] }
  let s := takeGranules { s with nextId := wg + 1, wgs := s.wgs.set wg g } core wg l.world gs
  let s := addInst s ⟨.unit, wg⟩ (some ⟨.launch, id⟩) l.ctx l.frame
  (List.range l.desc.strands).foldl (fun (s : State) i =>
    { s with strands := s.strands.set ⟨wg, Fin.ofNat 32 i⟩ (firstStrand l index i s.cycle) }) s

/-- Places workgroups on cores one after another; `none` where one does not fit. -/
def placeAll (id : Nat) (l : Launch) : Nat → List CoreId → State → Option State
  | _, [], s => some s
  | index, c :: rest, s => if canPlace s l.world l.desc c then placeAll id l (index + 1) rest (placeOn s id l index c) else none

/-! ## Units (01 R21; 17 R325) -/

/-- Workgroups that are placed at once: a launch with launch-level barriers, a cluster, or one. -/
def unitSize (s : State) (l : Launch) : Nat :=
  if usesBarrier s l.ctx 2 then l.total - l.placed
  else if 1 < l.desc.cluster then min (l.desc.cluster - l.placed % l.desc.cluster) (l.total - l.placed)
  else 1

def CoreId.sameCell (c d : CoreId) : Bool := decide (c.die = d.die) && c.core.val / 4 == d.core.val / 4

/-- Whether workgroups from an index upward lie on cores so that each cluster is whole in one cell. -/
def clustersOk (cluster index : Nat) (cores : List CoreId) : Bool :=
  decide (cluster ≤ 1) || (List.range (cores.length - 1)).all fun i =>
    (index + i) / cluster != (index + i + 1) / cluster || (match cores[i]?, cores[i + 1]? with
      | some c, some d => CoreId.sameCell c d
      | _, _ => true)

/-- Cores that may take one unit together: every cluster in one cell, and a launch with launch-level barriers on one die. -/
def togetherOk (s : State) (l : Launch) (cores : List CoreId) : Bool :=
  match cores with
  | [] => false
  | c :: rest => clustersOk l.desc.cluster l.placed cores && (!usesBarrier s l.ctx 2 || rest.all fun d => decide (d.die = c.die))

def coresOf (d : Fin 4) : List CoreId := (List.finRange 48).map fun c => ⟨d, c⟩

def allCores : List CoreId := ((List.finRange 4).map coresOf).flatten

/-- The 12 cells of a die. -/
def cellsOf (d : Fin 4) : List (List CoreId) :=
  (List.range 12).map fun k => (List.range 4).map fun i => ⟨d, Fin.ofNat 48 (4 * k + i)⟩

/-- The places that a unit may take, each as the parts of which one takes a whole cluster. -/
def regionsFor (s : State) (l : Launch) : List (List (List CoreId)) :=
  if usesBarrier s l.ctx 2 then (List.finRange 4).map fun d => if 1 < l.desc.cluster then cellsOf d else [coresOf d]
  else if 1 < l.desc.cluster then ((List.finRange 4).map fun d => (cellsOf d).map fun c => [c]).flatten
  else allCores.map fun c => [[c]]

/-- The first cores of a part that take workgroups one after another, and the state with them placed. -/
def greedy (id : Nat) (l : Launch) (part : List CoreId) : Nat → Nat → State → Option (List CoreId × State)
  | 0, _, s => some ([], s)
  | n + 1, index, s => match part.find? fun c => canPlace s l.world l.desc c with
    | none => none
    | some c => (greedy id l part n (index + 1) (placeOn s id l index c)).map fun t => (c :: t.1, t.2)

/-- A unit cluster by cluster, each in the first part that takes it whole. -/
def greedyUnit (id : Nat) (l : Launch) (parts : List (List CoreId)) : Nat → Nat → Nat → State → Option (List CoreId)
  | 0, left, _, _ => if left = 0 then some [] else none
  | fuel + 1, left, index, s =>
    if left = 0 then some [] else
    let k := if 1 < l.desc.cluster then min left (l.desc.cluster - index % l.desc.cluster) else left
    match parts.findSome? fun p => greedy id l p k index s with
    | none => none
    | some (cs, s) => (greedyUnit id l parts fuel (left - k) (index + k) s).map fun t => cs ++ t

/-- Cores of a region that take a launch's next unit. -/
def unitOn (s : State) (id : Nat) (l : Launch) (parts : List (List CoreId)) : Option (List CoreId) :=
  greedyUnit id l parts (unitSize s l) (unitSize s l) l.placed s

/-- Whether a launch's next unit, whole as it must be, could be placed with its first workgroup on a core. -/
def couldPlace (s : State) (id : Nat) (l : Launch) (core : CoreId) : Bool :=
  canPlace s l.world l.desc core &&
  (unitSize s l ≤ 1 || (regionsFor s l).any fun parts =>
    parts.any (fun p => p.contains core) &&
    (unitOn s id l ((parts.filter fun p => p.contains core).map (fun p => core :: p.filter fun c => c ≠ core)
      ++ parts.filter fun p => !p.contains core)).isSome)

/-- Whether a launch's next unit could be placed anywhere. -/
def placeable (s : State) (id : Nat) (l : Launch) : Bool := (regionsFor s l).any fun r => (unitOn s id l r).isSome

/-! ## Order of starting among launches (17 R321) -/

/-- The launches that compete for a core: whose oldest unit could be placed there. -/
def rivals (s : State) (core : CoreId) : List (Nat × Launch) :=
  s.launches.filter fun p => mayStartLaunch s p.1 p.2 && couldPlace s p.1 p.2 core

/-- No launch of a higher level could take the core (R321, 1 and 2). -/
def levelLets (s : State) (l : Launch) (core : CoreId) : Bool :=
  (rivals s core).all fun p => decide (priorityOf s p.2 ≤ priorityOf s l)

/-- Key of a world at a level in a die's books. -/
def drrKey (core : CoreId) (world level : Nat) : Fin 4 × Nat := (core.die, world * 8 + level)

/-- The queues of a world at a level take turns: the next one after the last in number order (R321, 4). -/
def turnLets (s : State) (l : Launch) (core : CoreId) : Bool :=
  let level := priorityOf s l
  let mine := ((rivals s core).filter fun p => p.2.world == l.world && priorityOf s p.2 == level).map fun p => queueNumOf s p.2
  match s.turns.get? (drrKey core l.world level) with
  | none => true
  | some k =>
    let dist (n : Nat) : Nat := (n + 63 - k) % 64
    mine.all fun n => decide (dist (queueNumOf s l) ≤ dist n)

/-- A round of deficit round robin at a level: each competing world's weight is added to its deficit (R321, 3). -/
def drrRound (s : State) (core : CoreId) (level : Nat) : State :=
  let ws := (((rivals s core).filter fun p => priorityOf s p.2 == level).map fun p => p.2.world).eraseDups
  ws.foldl (fun s w =>
    let k := drrKey core w level
    { s with deficits := s.deficits.set k (s.deficits.getD k 0 + (((partOf? s core w).map PartEntry.weight).getD 0 : Nat)) }) s

/-- Whether no competing world of the level has a positive deficit, so that a round is due. -/
def roundDue (s : State) (core : CoreId) (level : Nat) : Bool :=
  (rivals s core).all fun p => priorityOf s p.2 != level || decide (s.deficits.getD (drrKey core p.2.world level) 0 ≤ 0)

/-- The distributor's decision for a unit of a launch on given cores. A round of the deficits may come first. -/
def execWorkgroupPlacement (launch : Nat) (cores : List CoreId) (s : State) : Host.Outcome State Fault Refusal :=
  .next (match s.launches.get? launch, cores with
    | some l, c :: _ =>
      let level := priorityOf s l
      if !mayStartLaunch s launch l || cores.length != unitSize s l || !togetherOk s l cores
          || !cores.all (fun d => levelLets s l d) || !turnLets s l c then s
      else
        match placeAll launch l l.placed cores s with
        | none => s
        | some done' =>
          let k := drrKey c l.world level
          if s.deficits.getD k 0 ≤ 0 then (if roundDue s c level then drrRound s c level else s)
          else
            let cost : Nat := l.desc.granules * cores.length
            let s := done'.modLaunch launch fun x =>
              { x with placed := x.placed + cores.length, firstPlaced := x.firstPlaced.orElse fun _ => some s.cycle }
            { s with deficits := s.deficits.set k (s.deficits.getD k 0 - cost), turns := s.turns.set k (queueNumOf s l) }
    | _, _ => s)

/-! ## Candidates for a placement -/

/-- Placements that the distributors may decide on. -/
def placements (s : State) : List Instr :=
  (s.launches.map fun p =>
    if mayStartLaunch s p.1 p.2 then
      (regionsFor s p.2).filterMap fun r => (unitOn s p.1 p.2 r).map fun cs => Instr.workgroupPlacement p.1 cs
    else []).flatten

end Sys2Proof.Machine
end

