-- ==== Sys2Proof/Machine/Instances.lean ====
section
/-! DEFINITION. Completion and settling of the levels of work, and the watchdog (01 R15 to R19; 05 R136, R148; 17 R322, R323). -/

namespace Sys2Proof.Machine

open Sys2Proof

/-! ## What an instance waits for -/

def childrenOf (s : State) (i : InstId) : List (InstId × Inst) := s.insts.filter fun p => decide (p.2.parent = some i)

/-- An instance that is complete, or settled after a cancel. -/
def Inst.over (x : Inst) : Bool := decide (x.state = .done) || x.settled

def childrenOver (s : State) (i : InstId) : Bool := (childrenOf s i).all fun p => p.2.over

/-- Engine commands of a workgroup that have not reached their timeline value. -/
def wgCommands (s : State) (wg : Nat) : Bool :=
  (s.copyQs.any fun q => q.2.cmds.any fun k => k.sid.wg == wg) || (s.collQs.toList.any fun q => q.cmds.any fun k => k.sid.wg == wg)
    || (match s.wgs.get? wg with
      | some g => !g.matrix.cmds.isEmpty
      | none => false)

/-- Every strand has ended, its blocks have completed and its stores have left the buffer (R15). -/
def strandsOver (s : State) (wg : Nat) : Bool :=
  s.strands.all fun p => p.1.wg != wg || (decide (p.2.ended ≠ .no) && p.2.laneQ.isEmpty && p.2.stores.isEmpty && p.2.returns.isEmpty && p.2.picot.isNone)

/-- Every timeline has reached the newest number the workgroup has on it. -/
def timelinesReached (s : State) (g : Workgroup) : Bool :=
  (g.lastCopy.all fun x => decide (x.2.2 ≤ (s.copyQ x.1 x.2.1).reached)) && g.lastColl.all fun x => decide (x.2 ≤ s.collQs[x.1].reached)

def unitDone (s : State) (wg : Nat) : Bool :=
  (match s.wgs.get? wg with
    | some g => g.parked.isNone && !g.released && timelinesReached s g
    | none => false) && strandsOver s wg && !wgCommands s wg

def launchDone (s : State) (id : Nat) : Bool :=
  match s.launches.get? id with
  | some l => decide (l.total ≤ l.placed) && childrenOver s ⟨.launch, id⟩
  | none => false

/-- The context and frame of an explicit graph run. -/
def runFrame (s : State) (id : Nat) : Option (Nat × Context × Nat) :=
  s.contexts.findSome? fun p => (p.2.runs.find? fun r => r.2 = id).map fun r => (p.1, p.2, r.1)

/-- A graph run is complete with every launch of its frame and every edge closed for it (R15). -/
def runDone (s : State) (id : Nat) : Bool :=
  childrenOver s ⟨.run, id⟩ &&
  match runFrame s id with
  | none => !(childrenOf s ⟨.run, id⟩).isEmpty
  | some (_, c, f) =>
    (match c.current with | some k => decide (f ≤ k) | none => false)
      && (List.range c.img.edges.length).all (fun e => match c.edge? e with
        | some d =>
          !c.receives d f || (decide (f < (c.edgeOf e).base)
            && (match c.node? d.consumer with
              | some nd => nd.trigger != e || nd.kind == 2 || decide (d.slots ≤ ((c.edgeOf e).frameOf f).taken) || ((c.edgeOf e).frame? f).isNone
              | none => true))
        | none => true)
      && c.nodes.all (fun n => !n.2.held.contains f) && c.raster.all fun q => q.2.cmds.all fun x => x.2 ≠ f

/-- Whether a later phase of the same job and context has begun: the next one of an implicit graph's (R20; log 47). -/
def laterPhase (s : State) (i : InstId) (x : Inst) : Bool :=
  s.insts.any fun p => decide (p.1.level = .phase) && decide (i.id < p.1.id) && decide (p.2.parent = x.parent) && p.2.ctx == x.ctx

/-- A phase is complete once its runs are and the next phase has begun or the job has closed, an implicit graph's too (R15,
R20). -/
def phaseDone' (s : State) (i : InstId) (x : Inst) : Bool :=
  childrenOver s i && (x.closed || (match x.parent.bind fun p => s.inst? p with
    | some j => j.closed
    | none => false) || (match s.launches.get? i.id with
      | some l => !l.graphMade && laterPhase s i x
      | none => false))

def instDone (s : State) (i : InstId) (x : Inst) : Bool :=
  match i.level with
  | .unit => unitDone s i.id
  | .launch => launchDone s i.id
  | .run => runDone s i.id
  | .phase => phaseDone' s i x
  | .job => x.closed && childrenOver s i

/-! ## Leaving the core and the queue -/

/-- A workgroup leaves its core: granules to be zeroed, rows in its FIFOs discarded (16 R311, 03 R85). -/
def vacate (s : State) (wg : Nat) : State :=
  match s.wgs.get? wg with
  | none => s
  | some g =>
    (releaseGranules s g.core wg).modWg wg fun g =>
      { g with released := true, stopping := false, parked := none, granules := [], fifos := [], scratch := [], tiles := [], badScratch := [],
               badTiles := [] }

/-- A launch that is over leaves its queue, whose timeline may reach its number (R323, 04 R105). -/
def leaveQueue (s : State) (id : Nat) : State :=
  match s.launches.get? id with
  | none => s
  | some l => match l.queue with
    | some (num, _) => s.modWorld l.world fun w => { w with queues := w.queues.modify num fun q => { q with pending := q.pending.filter fun p => p.2 ≠ id } }
    | none => s

/-- What is looked at again in a context once something of it is over: ring space, raster queues, a move's stages. -/
def afterOver (s : State) (i : InstId) : State :=
  match s.inst? i with
  | some x => if (s.ctx? x.ctx).isSome then moveOn (settleRaster (advanceAll s x.ctx) x.ctx) x.ctx else s
  | none => s

/-- The parts of an instance's end that both endings share: the release of its effects and of what it holds. -/
def endInst (s : State) (i : InstId) : State :=
  let s := publish s
  match i.level with
  | .unit => vacate s i.id
  | .launch => leaveQueue s i.id
  | _ => s

/-- A completed instance: DONE, a release at device scope, counted by its parent (R15 to R17). -/
def execInstanceComplete (i : InstId) (s : State) : Host.Outcome State Fault Refusal :=
  .next (match s.inst? i with
    | none => s
    | some x =>
      if x.state ≠ .running ∨ !instDone s i x then s
      else
        let s := (endInst s i).modInst i fun x => { x with state := .done }
        let s := match x.parent with
          | some p => countDone s p
          | none => s
        afterOver s i)

/-! ## Settling (R18) -/

/-- Commands that a cancelled workgroup still has to see complete: not those behind a command of its own that faulted. -/
def wgRunning (s : State) (wg : Nat) : Bool :=
  (s.copyQs.any fun q => !q.2.halted && q.2.cmds.any fun k => k.sid.wg == wg)
    || (s.collQs.toList.any fun q => !q.halted && q.cmds.any fun k => k.sid.wg == wg)
    || (match s.wgs.get? wg with
      | some g => g.parked.isNone && !g.matrix.halted && g.matrix.cmds.any fun k => decide (k.state ≠ .abandoned)
      | none => false)

/-- The commands of a cancelled workgroup that can no longer run go, and with a faulted one its queue's halt (09 R243). -/
def dropCommands (s : State) (wg : Nat) : State :=
  let mineAbandoned (q : CopyQueue) : Bool := q.cmds.any fun k => k.sid.wg == wg && decide (k.state = .abandoned)
  let cq : Assoc (CoreId × Fin 4) CopyQueue := s.copyQs.map fun p =>
    (p.1, { p.2 with halted := p.2.halted && !mineAbandoned p.2, cmds := p.2.cmds.filter fun k => k.sid.wg ≠ wg })
  let rest (q : CollQueue) : CollQueue :=
    { q with halted := q.halted && !(q.cmds.any fun k => k.sid.wg == wg && decide (k.state = .abandoned)),
             cmds := q.cmds.filter fun k => k.sid.wg ≠ wg }
  let kq := vmap rest s.collQs
  ({ s with copyQs := cq, collQs := kq }).modWg wg fun g => { g with matrix := { g.matrix with cmds := [], halted := false } }

/-- Whether a cancelled instance settles now. -/
def mayStill (s : State) (i : InstId) : Bool :=
  match i.level with
  | .unit => !wgRunning s i.id
  | _ => childrenOver s i

def execInstanceSettle (i : InstId) (s : State) : Host.Outcome State Fault Refusal :=
  .next (match s.inst? i with
    | none => s
    | some x =>
      if x.state ≠ .cancelled ∨ x.settled ∨ !mayStill s i then s
      else
        let s := if i.level = .unit then dropCommands s i.id else s
        let s := (endInst s i).modInst i fun x => { x with settled := true }
        let s := match x.parent with
          | some p => countCancelled s p
          | none => s
        afterOver s i)

/-! ## The watchdog (17 R322, 18 R346) -/

def execWatchdog (launch : Nat) (s : State) : Host.Outcome State Fault Refusal :=
  .next (match s.launches.get? launch with
    | none => s
    | some l =>
      let due := match l.firstPlaced with
        | some t => decide (0 < l.desc.watchdog) && decide (t + l.desc.watchdog * Config.cyclesPerMicro ≤ s.cycle)
        | none => false
      if !due || !isRunning s ⟨.launch, launch⟩ then s
      else
        let s := raise s l.world (s.worldDie l.world) (mkRec (.launch launch) { code := .watchdog } launch 0 0xFF ⟨0, 0⟩ 0 0)
        cancelInst s ⟨.launch, launch⟩)

end Sys2Proof.Machine
end

