-- ==== Sys2Proof/Machine/VectorControl.lean ====
section
/-! DEFINITION. Control of the vector stream: branches, joins, the end of a block, exits, rotation and the spill stack (01 R24 to
R33; 08 R237 to R239). -/

namespace Sys2Proof.Machine

open Sys2Proof

/-! ## The spill stack (01 R26, R27) -/

/-- The strand's private region (17 R322). -/
def privateBase (e : Env) : Nat :=
  e.l.desc.privateBase + e.l.desc.stride * (e.wg.index * e.l.desc.strands + e.sid.strand.val)

def Split.entry (sp : Split) : List Byte :=
  natLE 4 sp.lanes.toNat ++ natLE 4 sp.exit.toNat ++ natLE 4 sp.pos ++ natLE 4 sp.join

/-- A split as its entry in memory has it, with what the strand keeps of it. -/
def splitOf (bs : List Byte) (x : Spilled) : Split :=
  { lanes := BitVec.ofNat 32 (fieldNat bs 0 4), exit := BitVec.ofNat 32 (fieldNat bs 4 4), pos := fieldNat bs 8 4,
    join := fieldNat bs 12 4, age := x.age, div := x.div, run := 0, chain := none, atEnd := false }

def Split.kept (sp : Split) : Spilled := ⟨sp.age, sp.div⟩

/-- What an access to the spill stack ends in. -/
inductive Spill (α : Type)
  | ok (s : State) (v : α)
  | miss (s : State)
  | bad (f : Flt)

/-- The stack's place in memory, through the strand's translation. -/
def spillPlace (s : State) (e : Env) (kind : AccessKind) : Spill Nat :=
  let va := privateBase e
  if 2 ^ 57 ≤ va then .bad { code := .access, access := kind, addr := va }
  else match lookup s e.quadrant e.die e.world e.priv e.st.vectorWalkFaults va kind with
    | .ok pa _ => .ok s pa
    | .miss => .miss (s.ask ⟨e.die, e.quadrant, .vector e.sid, e.world, e.priv, va, kind⟩)
    | .bad c => .bad { code := c, access := kind, addr := va }

/-- The stack's entries, bottom first. -/
def spillRead (s : State) (e : Env) (depth : Nat) : Spill (List (List Byte)) :=
  if depth = 0 then .ok s [] else
  match spillPlace s e .read with
  | .miss s => .miss s
  | .bad f => .bad f
  | .ok s pa =>
    let r := readDie s e.die e.world pa (16 * depth)
    .ok r.1 ((List.range depth).map fun i => (r.2.drop (16 * i)).take 16)

/-- The stack is written whole: entries keep their order from offset 0 (log 39). -/
def spillWrite (s : State) (e : Env) (entries : List (List Byte)) : Spill Unit :=
  if entries = [] then .ok s () else
  match spillPlace s e .write with
  | .miss s => .miss s
  | .bad f => .bad f
  | .ok s pa => if isRemote pa then .ok s () else
    let s := s.performAt e.die e.world pa entries.flatten
    .ok (l1DropRun s e.core pa entries.flatten.length) ()

/-- The split at the bottom of the stack leaves it, and another may go on top. -/
def spillTake (s : State) (e : Env) (push : Option Split) : Spill Split :=
  match spillRead s e e.st.spilled.length, e.st.spilled with
  | .miss s, _ => .miss s
  | .bad f, _ => .bad f
  | .ok s es, x :: rest =>
    let es' := es.drop 1 ++ (match push with | some p => [p.entry] | none => [])
    (match spillWrite s e es' with
      | .miss s => .miss s
      | .bad f => .bad f
      | .ok s _ =>
        .ok (s.modStrand e.sid fun st =>
          { st with spilled := rest ++ (match push with | some p => [p.kept] | none => []) })
          (splitOf (es.headD []) x))
  | .ok _ _, [] => .bad { code := .illegalOperand }

/-- A split goes on top of the stack, which holds 32. -/
def spillPush (s : State) (e : Env) (sp : Split) : Spill Unit :=
  let n := e.st.spilled.length
  if Config.spillEntries ≤ n then .bad { code := .illegalOperand }
  else match spillPlace s e .write with
    | .miss s => .miss s
    | .bad f => .bad f
    | .ok s pa =>
      let s := if isRemote pa then s else
        let s := s.performAt e.die e.world (pa + 16 * n) sp.entry
        { s with mem := s.mem.l1Drop e.core (lineOf (pa + 16 * n)) }
      .ok (s.modStrand e.sid fun st => { st with spilled := st.spilled ++ [sp.kept] }) ()

/-! ## Slots and the pool (01 R25, R28) -/

/-- Strands of a quadrant whose second slot holds one of its 16 pool entries. -/
def poolUsed (s : State) (core : CoreId) (q : Nat) : Nat :=
  s.strands.countP fun p => p.1.strand.val % 4 == q && p.2.slots[1].isSome && !p.2.serialised
    && (match s.wgs.get? p.1.wg with | some g => decide (g.core = core) && g.parked.isNone | none => false)

def poolFree (s : State) (e : Env) : Bool := decide (poolUsed s e.core (e.sid.strand.val % 4) < Config.poolEntries)

/-- The serialised strands of a quadrant, those that hold a split in the second slot or the others. -/
def serialisedOf (s : State) (core : CoreId) (q : Nat) (held : Bool) : List StrandId :=
  (s.strands.filter fun p => p.1.strand.val % 4 == q && p.2.serialised && p.2.slots[1].isSome == held
    && (match s.wgs.get? p.1.wg with | some g => decide (g.core = core) | none => false)).map Prod.fst

/-- A pool entry that has freed at a join ends serialised mode in the quadrant (01 R28): for every strand that needs no
entry, its second slot being empty, and for one that takes the entry for its held split. Which of several takes it the
spec leaves open: a free choice (DESIGN CHOICE, log 127). -/
def grantPool (s : State) (core : CoreId) (q : Nat) : State :=
  if Config.poolEntries ≤ poolUsed s core q then s else
  let s := (serialisedOf s core q false).foldl (fun s sid => s.modStrand sid fun st => { st with serialised := false }) s
  match serialisedOf s core q true with
  | [] => s
  | [sid] => s.modStrand sid fun st => { st with serialised := false }
  | l => s.modStrand (l.getD (Config.pick s.ticks % l.length) (l.headD ⟨0, 0⟩)) fun st => { st with serialised := false }

def otherSlot (slot : Fin 2) : Fin 2 := if slot = 0 then 1 else 0

def Strand.setSlot (st : Strand) (slot : Fin 2) (sp : Option Split) : Strand := { st with slots := st.slots.set slot sp }

def Strand.liveSplits (st : Strand) : Nat :=
  (if st.slots[0].isSome then 1 else 0) + (if st.slots[1].isSome then 1 else 0) + st.waiting.length + st.spilled.length

/-- Serialised mode ends where one split is left. -/
def Strand.calm (st : Strand) : Strand := if st.liveSplits ≤ 1 then { st with serialised := false } else st

/-! ## Running a control word -/

/-- The split moves on with no chain open: a chain never crosses a control word (01 R33). -/
def VCtx.passOn (c : VCtx) (s : State) : State :=
  s.modSplit c.e.sid c.slot fun sp => { sp with pos := c.sp.pos + 1, run := sp.run + 1, chain := none }

/-- A control word (0x80 to 0x84): the checks on its names, then its effect. `always` tells that it acts with no lane active. -/
def controlWord (op : Nat) (w : VWord) (always : Bool) (body : VCtx → State → State) (s : State) :
    Host.Outcome State Fault Refusal :=
  match s.vctx? op w with
  | none => .fault .noActor
  | some c =>
    if c.restarts then .next (c.dropChain s c.chain.first)
    else if !c.chainOk then .next (c.faults s { code := .illegalInstr })
    else if !c.namesOk then .next (c.faults s { code := .illegalOperand })
    else if !always && decide (c.activeMask = 0) then .next (c.passOn s)
    else .next (body c s)

/-! ## VBR (08 R237) -/

/-- The lanes that take the branch. -/
def VCtx.taken (c : VCtx) : W32 :=
  let m := c.mask (Fin.ofNat 16 c.w.dst.val)
  c.activeMask &&& (if c.w.mbit 3 then ~~~m else m)

def VCtx.target (c : VCtx) : Nat := bitsOf c.w.imm.toNat 0 16
def VCtx.joinField (c : VCtx) : Nat := bitsOf c.w.imm.toNat 16 16

/-- The two sides of a division stand in the slots: both live, or the second held in serialised mode. -/
def VCtx.place2 (c : VCtx) (s : State) (one two : Split) (rec' : JoinRecord) : State :=
  let serial := decide (c.st.serialised = true) || (c.slot == 0 && c.st.slots[1].isNone && !poolFree s c.e)
  let slot : Fin 2 := if serial then 0 else c.slot
  s.modStrand c.e.sid fun st =>
    { (st.setSlot slot (some one)).setSlot (otherSlot slot) (some two) with
      joins := st.joins ++ [rec'], serialised := serial }

/-- A division: the taken side keeps the slot and the age; the other side is new; a third live split goes to the stack. No access
to the stack is made while a load is out, which may still be replayed (04 R113; log 129). -/
def VCtx.divide (c : VCtx) (s : State) (t : W32) : State :=
  let id := s.nextId
  let one : Split :=
    { c.sp with lanes := t, exit := 0, pos := c.target, join := c.joinField, div := some id, run := c.sp.run + 1, chain := none }
  let two : Split :=
    { c.sp with lanes := c.sp.lanes &&& ~~~t, pos := c.sp.pos + 1, join := c.joinField, age := s.ticks, div := some id,
                run := 0, chain := none }
  let r : JoinRecord := ⟨id, c.sp.join, c.sp.div, c.sp.age⟩
  let s' : State := { s with nextId := id + 1 }
  match c.st.slots[otherSlot c.slot] with
  | none => c.place2 s' one two r
  | some x =>
    if !c.st.returns.isEmpty then c.again s else
    match spillPush s' c.e x with
    | .ok s _ => c.place2 s one two r
    | .miss s' => { s with xlat := s'.xlat }
    | .bad f => c.faults s f

def execVbr (w : VWord) (s : State) :=
  controlWord 0x80 w false (fun c s =>
    let t := c.taken
    if t = 0 then c.passOn s
    else if t = c.m0 then
      s.modSplit c.e.sid c.slot fun sp => { sp with pos := c.target, run := sp.run + 1, chain := none }
    else c.divide s t) s

/-! ## Joins (01 R29, R31) -/

/-- A slot that has emptied takes the held split, or the bottom of the spill stack. -/
def refill (s : State) (e : Env) (slot : Fin 2) : Spill Unit :=
  if e.st.serialised ∧ e.st.slots[1].isSome then
    .ok (s.modStrand e.sid fun st => ((st.setSlot 0 st.slots[1]).setSlot 1 none).calm) ()
  else if e.st.spilled = [] then .ok (s.modStrand e.sid Strand.calm) ()
  else match spillTake s e none with
    | .miss s => .miss s
    | .bad f => .bad f
    | .ok s sp => .ok (s.modStrand e.sid fun st => (st.setSlot slot (some sp)).calm) ()

/-- The split leaves its slot and waits. It stays while a load is out and the slot must be filled from the stack (log 129). -/
def VCtx.park (c : VCtx) (s : State) (sp : Split) : State :=
  if !c.st.returns.isEmpty && !c.st.spilled.isEmpty && !(c.st.serialised && c.st.slots[1].isSome) then c.again s else
  let s' := s.modStrand c.e.sid fun st => { st.setSlot c.slot none with waiting := st.waiting ++ [sp] }
  match s'.env? c.e.sid with
  | none => s'
  | some e => match refill s' e c.slot with
    | .ok s _ => grantPool s e.core (e.sid.strand.val % 4)
    | .miss s' => { s with xlat := s'.xlat }
    | .bad f => c.faults s f

/-- The sibling made by the same VBR, waiting at the same join. -/
def VCtx.sibling (c : VCtx) : Option Split :=
  match c.sp.div with
  | none => none
  | some d => c.st.waiting.find? fun x => x.div == some d && x.pos == c.sp.pos && !x.atEnd

/-- The two sides merge: lanes with an exit pending leave the split and the base mask, and the split takes back the
join it had before the division (08 R238). It stands at the same VJOIN, which it executes under that join: a loop's
divisions share one join and merge there one after another (01 R40; DEDUCED, log 120). -/
def VCtx.merge (c : VCtx) (s : State) (x : Split) : State :=
  let d := c.sp.div.getD 0
  let rec' := (c.st.joins.find? fun r => r.id = d).getD ⟨d, 0xFFFF, none, c.sp.age⟩
  let out := c.sp.exit ||| x.exit
  let m : Split :=
    { lanes := (c.sp.lanes ||| x.lanes) &&& ~~~out, exit := 0, pos := c.sp.pos, join := rec'.savedJoin,
      age := min c.sp.age x.age, div := rec'.savedDiv, run := c.sp.run + 1, chain := none, atEnd := false }
  s.modStrand c.e.sid fun st =>
    Strand.calm { st.setSlot c.slot (some m) with
      waiting := st.waiting.filter fun y => y ≠ x
      joins := st.joins.filter fun r => r.id ≠ d
      base := st.base &&& ~~~out }

def execVjoin (w : VWord) (s : State) :=
  controlWord 0x81 w true (fun c s =>
    if c.sp.pos ≠ c.sp.join ∨ c.sp.join = 0xFFFF then c.passOn s
    else match c.sibling with
      | some x => c.merge s x
      | none => c.park s { c.sp with chain := none, run := 0 }) s

/-- Every live split has reached VEND, and every register write is done (01 R10). -/
def blockDone (st : Strand) : Bool :=
  st.started && st.slots[0].isNone && st.slots[1].isNone && st.spilled.isEmpty && st.waiting.all Split.atEnd
    && !st.waiting.isEmpty && st.returns.isEmpty && st.picot.isNone

def exitsOf (st : Strand) : W32 := (st.waiting.map Split.exit).foldl (· ||| ·) 0

def completeBlock (s : State) (sid : StrandId) : State :=
  match s.strands.get? sid with
  | some st => if blockDone st then finishBlock s sid (exitsOf st) else s
  | none => s

def execVend (w : VWord) (s : State) :=
  controlWord 0x82 w true (fun c s => completeBlock (c.park s { c.sp with chain := none, run := 0, atEnd := true }) c.e.sid) s

def execVexit (w : VWord) (s : State) :=
  controlWord 0x83 w false (fun c s =>
    (c.passOn s).modSplit c.e.sid c.slot fun sp => { sp with exit := sp.exit ||| c.activeMask }) s

/-! ## Rotation (01 R30) -/

/-- The split goes on top of the stack and the bottom entry takes the slot. A fault is the split's, at its next word, once that
is the oldest access of the stream (18 R350). -/
def rotate (s : State) (e : Env) (slot : Fin 2) : State :=
  match e.st.slots[slot], e.st.laneQ with
  | some sp, blk :: _ =>
    if e.st.spilled = [] || !e.st.returns.isEmpty || chainedNext s e sp then s else
    (match spillTake s e (some { sp with chain := none }) with
      | .ok s x => s.modStrand e.sid fun st => st.setSlot slot (some x)
      | .miss s' => { s with xlat := s'.xlat }
      | .bad f => faultVector s e f (blk.entry + 12 * sp.pos))
  | _, _ => s

/-- A rotation that must wait for a translation takes place at the next opportunity. -/
def execVyield (w : VWord) (s : State) :=
  controlWord 0x84 w false (fun c s =>
    let s := (c.passOn s).modSplit c.e.sid c.slot fun sp => { sp with run := if c.st.spilled = [] then 0 else 16 }
    match s.env? c.e.sid with
    | some e => rotate s e c.slot
    | none => s) s

def execSplitRotation (sid : StrandId) (slot : Bool) (s : State) : Host.Outcome State Fault Refusal :=
  .next (match s.env? sid with
    | some e =>
      let k : Fin 2 := if slot then 1 else 0
      (match e.st.slots[k] with
        | some sp => if vectorReady s e k && rotationDue e.st sp then readyAgain (rotate s e k) sid else s
        | none => s)
    | none => s)

/-! ## VTAG (08 R239) -/

/-- A's tag code in every lane; like the other words from 0x80 to 0x85 it closes its chain. -/
def execVtag (w : VWord) (s : State) : Host.Outcome State Fault Refusal :=
  match s.vctx? 0x85 w, vectorWord 0x85 w (fun c s => match c.w.a with
      | .reg i => c.setUniform s (BitVec.ofNat 32 (c.vreg i.val).tag.code)
      | _ => .fault s { code := .illegalInstr }) s with
  | some c, .next s' => .next (s'.modSplit c.e.sid c.slot fun sp => { sp with chain := none })
  | _, o => o

/-! ## Events of a strand's vector stream -/

def execBlockComplete (sid : StrandId) (s : State) : Host.Outcome State Fault Refusal :=
  .next (match s.env? sid with
    | some e => if e.wg.parked.isNone ∧ e.st.vectorStop.isNone then completeBlock s sid else s
    | none => s)

/-- Registers take a return's lanes. -/
def applyReturn (st : Strand) (r : Return) : Strand :=
  { st with v := r.regs.foldl (fun v p =>
      setVReg v p.1 (.g (lanes fun l => if laneBit r.mask l then p.2[l] else (v.getD p.1 (.u 0)).lane l))) st.v
            badRegs := st.badRegs.filter fun b => !(r.mask.getLsbD b.2 && r.regs.any fun p => p.1 == b.1) }

/-- A checkpoint that was taken while a return was out has its lanes too once it has returned. -/
def Return.applyTo (r : Return) (c : Checkpoint) : Checkpoint :=
  let st := applyReturn { Strand.start .vector 0 0 0 with v := c.v, badRegs := c.badRegs } r
  { c with v := st.v, badRegs := st.badRegs }

/-- A return reaches the registers, and the checkpoints of the loads after it. -/
def takeReturn (st : Strand) (r : Return) : Strand :=
  let older := st.returns.takeWhile fun x => x.id ≠ r.id
  let younger := (st.returns.filter fun x => x.id ≠ r.id).drop older.length
  applyReturn { st with returns := older ++ younger.map fun x => { x with before := r.applyTo x.before } } r

/-- Returns that stand in a quadrant's L1 return queue. -/
def queuedReturns (s : State) (core : CoreId) (q : Nat) : Nat :=
  ((s.strands.filter fun p => p.1.strand.val % 4 == q
      && (match s.wgs.get? p.1.wg with | some g => decide (g.core = core) | none => false)).map
    fun p => p.2.returns.countP Return.queued).foldl (· + ·) 0

/-- Data returns: with a free write slot it is written; without one it waits in the return queue of 16, or at L1. A
sector that fails its check meanwhile is INTEGRITY_CHECK_FAIL's. -/
def execMemoryReturn (sid : StrandId) (k : Nat) (slotFree : Bool) (s : State) : Host.Outcome State Fault Refusal :=
  .next (match s.env? sid with
    | some e => match e.st.returns.find? fun r => r.id = k with
      | some r =>
        if e.wg.parked.isSome || r.failed s.mem.bad then s
        else if slotFree then
          s.modStrand sid fun st => takeReturn st r
        else if queuedReturns s e.core (sid.strand.val % 4) < Config.returnQueueEntries then
          s.modStrand sid fun st => { st with returns := st.returns.map fun x => if x.id = k then { x with queued := true } else x }
        else s
      | none => s
    | none => s)

/-- 04 R113, R114: a check that ends late, of the oldest load that is still out. The load and the stores of the block after it
leave no effect, and POISON is raised at it, with the lanes whose sector fails and the lowest one's address (08 R214). -/
def execIntegrityCheckFail (sid : StrandId) (k : Nat) (s : State) : Host.Outcome State Fault Refusal :=
  .next (match s.env? sid with
    | some e => match e.st.returns with
      | r :: _ =>
        if r.id = k ∧ r.failed s.mem.bad ∧ e.st.vectorStop.isNone ∧ e.wg.parked.isNone then
          let hit := r.checks.filter fun x => x.sectors.any s.mem.bad.contains
          let s := dropStores (drain s sid) sid fun x => x.vector && decide (k < x.id)
          let f : Flt := { code := .poison, access := .read, addr := (hit.head?.map LaneCheck.va).getD 0
                           lanes := maskOf fun l => hit.any fun x => x.lane == l.val }
          raise s e.world e.die (strandRec e (.vector sid) f r.first)
        else s
      | [] => s
    | none => s)

/-- The peers that a buffered store goes to. -/
def SBEntry.peers (s : State) (x : SBEntry) : List Nat := x.lanes.filterMap fun l =>
  if isRemote l.pa then (windowOf s l.pa).map RemoteWindow.peer else none

/-- Whether an entry may be performed now: none older touches its lines or goes to a peer of its, a release is the oldest, no
older load is unchecked, and entries that came back with a cocoon go in their order (04 R91, R102, R104, R114, R115; 07
R190). -/
def entryReady (s : State) (st : Strand) (x : SBEntry) : Bool :=
  let older := st.stores.takeWhile fun y => y.id ≠ x.id
  mayLeave st x && !(x.restored && older.any SBEntry.restored) && (match x.scope with
    | some _ => older.isEmpty
    | none => older.all fun y => (y.lanes.all fun a => x.lanes.all fun b => lineOf a.pa ≠ lineOf b.pa)
        && !((y.peers s).any (x.peers s).contains))

def execStorePerformed (sid : StrandId) (k : Nat) (s : State) : Host.Outcome State Fault Refusal :=
  .next (match s.env? sid with
    | some e => match e.st.stores.find? fun x => x.id = k with
      | some x =>
        if e.wg.parked.isNone && entryReady s e.st x then
          let s := s.modStrand sid fun st => { st with stores := st.stores.filter fun y => y.id ≠ k }
          noteExit (performStore s sid e.core e.world x) sid
        else s
      | none => s
    | none => s)

/-- 04 R99: a die applies the write with a place in the order of performance. -/
def execWriteApply (die : Fin 4) (k : Nat) (s : State) : Host.Outcome State Fault Refusal :=
  .next (match s.mem.msgs.find? fun w => w.seq = k with
    | some w => if s.mem.canApply die w then if linkClosed s w.die die then dropWrite s die w else { s with mem := (s.mem.applyMsg die w).prune } else s
    | none => s)

/-- 03 R83: a copy is combined into its home. -/
def execReductionCopyCombine (die : Fin 4) (line : Nat) (s : State) : Host.Outcome State Fault Refusal :=
  .next (match s.mem.copies.find? fun c => decide (c.die = die) && c.line == line with
    | some c => s.onLine line fun m => m.combineCopy s.parts c
    | none => s)

end Sys2Proof.Machine
end

