-- ==== Sys2Proof/Machine/Preempt.lean ====
section
/-! DEFINITION. Drains, forced saves, the cocoon's bytes, and restoring (17 R328 to R337; 02 R50; 07 R200; 09 R252). -/

namespace Sys2Proof.Machine

open Sys2Proof

/-! ## The cocoon (17 R332 to R336) -/

def padEnd (k : Nat) (l : List Byte) : List Byte := l ++ List.replicate ((k - l.length % k) % k) 0

/-- A split as it lies in a slot of the record or on the spill stack (01 R27). -/
def slotBytes (sp : Option Split) : List Byte :=
  match sp with
  | none => natLE 16 0
  | some x => natLE 4 x.lanes.toNat ++ natLE 4 x.exit.toNat ++ natLE 4 x.pos ++ natLE 4 x.join

def blockBytes (b : Block) : List Byte := natLE 8 b.entry ++ (b.ks.toList.map fun k => natLE 4 k.toNat).flatten

def joinOf (j : JoinRecord) : List Byte := natLE 4 (j.savedJoin % 65536)

/-- A strand record of 1,536 bytes (17 R334). -/
def strandRecord (st : Strand) : List Byte :=
  let preds := (List.range 8).foldl (fun n i => if 1 ≤ i ∧ (st.p.toList.getD i false) = true then n + 2 ^ i else n) 0
  let state := (if st.sexit then 1 else 0) + (if st.serialised then 2 else 0)
  let block := if st.started then (match st.laneQ with | b :: _ => b.entry | [] => 0) else 0
  let tickets := (rising st.tickets).map (natLE 8)
  padTo 1536 (((st.s.toList.drop 1).map fun x => natLE 8 x.toNat).flatten
    ++ natLE 1 preds ++ natLE 1 state ++ natLE 1 st.stores.length ++ natLE 1 0 ++ natLE 4 st.tileScale.toNat
    ++ natLE 8 st.pc ++ natLE 8 block ++ (st.q.toList.map fun x => natLE 8 x.toNat).flatten
    ++ ((st.masks.toList.drop 1).map fun x => natLE 4 x.toNat).flatten ++ natLE 4 st.base.toNat
    ++ slotBytes st.slots[0] ++ slotBytes st.slots[1]
    ++ natLE 1 st.spilled.length ++ natLE 1 st.laneQ.length ++ natLE 1 st.joins.length ++ natLE 5 0
    ++ padTo 320 (st.laneQ.map blockBytes).flatten ++ padTo 132 (st.joins.map joinOf).flatten
    ++ natLE 4 st.unackDev.toNat ++ natLE 4 st.unackSys.toNat ++ padTo 64 tickets.flatten)

def Size.num : Size → Nat
  | .b1 => 0 | .b2 => 1 | .b4 => 2 | .b8 => 3

def scopeNum : Option Scope → Nat
  | none => 7
  | some .st => 0 | some .wg => 1 | some .cl => 2 | some .die => 3 | some .dev => 4 | some .sys => 5

/-- A store-buffer entry (17 R335). -/
def entryBytes (x : SBEntry) : List Byte :=
  let mask := if x.vector then x.lanes.foldl (fun n l => n ||| 2 ^ l.lane) 0 else 1
  padTo 32 (natLE 1 (if x.vector then 1 else 0) ++ natLE 1 (Size.num x.size) ++ natLE 1 (scopeNum x.scope) ++ natLE 1 0 ++ natLE 4 mask)
    ++ (x.lanes.map fun l => natLE 8 l.va ++ padTo 8 l.data).flatten

/-- The register save area (02 R50). -/
def saveArea (v : List VReg) : List Byte :=
  let map := (List.range v.length).foldl (fun n i => n + (v.getD i (.u 0)).tag.code * 4 ^ i) 0
  let reg (r : VReg) : List Byte := match r with
    | .u x => natLE 4 x.toNat
    | .a b s => natLE 4 b.toNat ++ natLE 4 s.toNat
    | .g x => (x.toList.map fun y => natLE 4 y.toNat).flatten
  padEnd 32 (padEnd 32 (natLE ((v.length + 3) / 4) map) ++ (v.map reg).flatten)

def fifoImage (p : Nat × Fifo) : List Byte :=
  if p.2.bytes.isEmpty then []
  else padTo 32 (natLE 1 p.1 ++ natLE 7 0 ++ natLE 8 p.2.bytes.length) ++ padEnd 32 p.2.bytes

def copyImage (k : CopyCmd) : List Byte :=
  padTo 64 (natLE 1 1 ++ natLE 7 0 ++ natLE 8 k.num ++ natLE 8 k.sa.toNat ++ natLE 8 k.sb.toNat ++ natLE 8 k.sc.toNat
    ++ natLE 4 k.word.toNat ++ natLE 4 (match k.follow with | some f => f.1.toNat | none => 0) ++ natLE 4 k.progressWord
    ++ natLE 4 k.scale.toNat) ++ padTo 64 k.layout.bytes

def matImage (c : MatCmd) : List Byte :=
  let num := match c.num, c.copy with
    | some n, _ => n
    | none, some (_, _, n) => n
    | none, none => 0
  let w := match c.kind with
    | .mguide _ _ _ w => w.toNat
    | _ => 0
  padTo 128 (natLE 1 2 ++ natLE 7 0 ++ natLE 8 num ++ natLE 24 0 ++ natLE 4 c.word.toNat ++ natLE 8 0 ++ natLE 4 w)

/-- The strands of a workgroup in ascending order. -/
def strandList (s : State) (wg n : Nat) : List Strand := (List.range n).filterMap fun i => s.strands.get? ⟨wg, Fin.ofNat 32 i⟩

/-- A workgroup barrier in the header: who has arrived, a member that has executed SEXIT too (07 R199), and its phase. -/
def barBytes (s : State) (wg b : Nat) : List Byte :=
  let x := s.bar (.wg wg b)
  natLE 4 (((barMembers s (.wg wg b)).filter (hasArrived s x)).foldl (fun n t => n ||| 2 ^ t.strand.val) 0) ++ natLE 4 (x.phase % 2 ^ 31 + (if x.broken then 2 ^ 31 else 0))

/-- Bit b: the workgroup has arrived in the open phase of barrier b, all its strands that have not ended by SEXIT having
arrived (07 R199). -/
def arrivals (s : State) (wg : Nat) (key : Nat → BarKey) : Nat :=
  (List.range 16).foldl (fun n b => if (strandsOf s wg).all (hasArrived s (s.bar (key b))) then n + 2 ^ b else n) 0

/-- The whole cocoon of a workgroup, its copy commands given. -/
def cocoonBytes (s : State) (wg : Nat) (g : Workgroup) (l : Launch) (copies : List CopyCmd) (grouped : Bool) : List Byte :=
  let d := l.desc
  let sts := strandList s wg d.strands
  let recs := (sts.map strandRecord).flatten
  let stores := padEnd 32 (sts.map fun st => (st.stores.map entryBytes).flatten).flatten
  let regs := (sts.map fun st => saveArea st.v).flatten
  let scratch := g.scratch.read 0 (bitsOf d.pword.toNat 12 6 * 65536)
  let tiles := g.tiles.read 0 (bitsOf d.pword.toNat 18 6 * 65536)
  let fifos := (g.fifos.map fifoImage).flatten
  let cmds := (copies.map copyImage).flatten ++ (g.matrix.cmds.map matImage).flatten
  let o1 := 256 + recs.length
  let o2 := o1 + stores.length
  let o3 := o2 + regs.length
  let o4 := o3 + scratch.length
  let o5 := o4 + tiles.length
  let o6 := o5 + fifos.length
  let total := o6 + cmds.length
  let head := natLE 4 1 ++ natLE 4 l.world ++ natLE 4 g.launch ++ natLE 4 g.index ++ natLE 4 d.pword.toNat ++ natLE 1 d.strands
    ++ natLE 1 d.regs ++ natLE 1 (if grouped then 1 else 0) ++ natLE 1 0 ++ natLE 8 l.descAddr ++ natLE 8 total
    ++ ([o1, o2, o3, o4, o5, o6].map (natLE 8)).flatten
    ++ natLE 4 (arrivals s wg (.cluster g.launch (g.index / d.cluster))) ++ natLE 4 (arrivals s wg (.launch g.launch))
    ++ ((List.range 16).map (barBytes s wg)).flatten
  padTo 256 head ++ recs ++ stores ++ regs ++ scratch ++ tiles ++ fifos ++ cmds

/-! ## Saving (17 R330, R331) -/

/-- Whether a workgroup of a launch is saved with its cluster or launch (07 R200; 17 R333, flags). -/
def savedTogether (s : State) (l : Launch) : Bool :=
  usesBarrier s l.ctx 2 || (usesBarrier s l.ctx 1 && decide (1 < l.desc.cluster))

/-- The workgroups saved with one: its whole launch or cluster where barriers of that level are used (07 R200). A cancelled
one is not saved (R331). -/
def saveGroup (s : State) (wg : Nat) : List Nat :=
  match s.wgs.get? wg with
  | none => []
  | some g => match s.launches.get? g.launch with
    | none => []
    | some l =>
      let live := (wgsOf s g.launch).filter fun p => !p.2.released && p.2.parked.isNone && isRunning s (unitOf p.1)
      if usesBarrier s l.ctx 2 then live.map Prod.fst
      else if usesBarrier s l.ctx 1 && decide (1 < l.desc.cluster) then
        (live.filter fun p => p.2.index / l.desc.cluster == g.index / l.desc.cluster).map Prod.fst
      else [wg]

/-- Issue stops (R330, 1). -/
def stopIssue (s : State) (l : List Nat) : State := l.foldl (fun s w => s.modWg w fun g => { g with stopping := true }) s

/-- Nothing of the workgroup is in the middle of what must complete first (R330, 2; log 49). -/
def saveReady (s : State) (wg : Nat) : Bool :=
  s.strands.all (fun p => p.1.wg != wg || p.2.picot.isNone)
    && (match s.wgs.get? wg with
      | some g => g.stopping && g.matrix.cmds.all fun c => !c.started || decide (c.state = .abandoned)
      | none => false)

/-- A chain in progress is abandoned: its unperformed stores go and its split restarts at its first word (01 R35). -/
def abandonChain (s : State) (sid : StrandId) (slot : Fin 2) : State :=
  match s.env? sid with
  | none => s
  | some e => match e.st.slots[slot] with
    | none => s
    | some sp => match sp.chain with
      | none => s
      | some k =>
        if !chainedNext s e sp then s
        else (dropStores s sid fun x => k.stores.contains x.id).modSplit sid slot fun sp => { sp with pos := k.first, chain := none }

/-- A waiting word as a save leaves it: it executes again on resumption, but for a barrier's, whose arrival stays counted
and is not made a second time: that strand waits on (07 R179, R200; log 71). -/
def keptWait : Option Wait → Option Wait
  | some (.barrier k) => some (.barrier k)
  | some (.again k sync) => some (.again k sync)
  | _ => none

/-- The vector side of a strand as it was at a checkpoint. -/
def Strand.backTo (st : Strand) (c : Checkpoint) : Strand :=
  { st with v := c.v, badRegs := c.badRegs, masks := c.masks, slots := c.slots, waiting := c.waiting, joins := c.joins,
            serialised := c.serialised, base := c.base, helpers := c.helpers, returns := [] }

/-- Loads that are not globally performed are discarded and replayed (R330, 3; 04 R112, R113): what has returned its value with no
check left reaches the registers, and the strand goes back to where the oldest other load was issued, without the younger
stores of its blocks. -/
def discardLoads (s : State) (sid : StrandId) : State :=
  match s.strands.get? sid with
  | none => s
  | some st =>
    let done := st.returns.takeWhile fun r => r.checks.isEmpty
    match st.returns.drop done.length with
    | [] => s.modStrand sid fun _ => done.foldl applyReturn { st with returns := [] }
    | r :: _ => (dropStores s sid fun x => x.vector && decide (r.id < x.id)).modStrand sid fun x =>
        x.backTo (done.foldl (fun c d => d.applyTo c) r.before)

/-- A strand as it goes into its cocoon: no load out, no chain, its watch lost, its buffered stores in an order that they keep
(R330; 04 R115). -/
def settleStrand (s : State) (sid : StrandId) : State :=
  (abandonChain (abandonChain (discardLoads s sid) sid 0) sid 1).modStrand sid fun st =>
    { st with wait := keptWait st.wait, watch := none, stores := st.stores.map fun x => { x with restored := true } }

/-- What the device keeps of a strand whose saved bytes may be overtaken by what happens to it meanwhile. -/
def savedOf (s : State) (wg : Nat) : Assoc StrandId SavedStrand :=
  (strandsOf s wg).filterMap fun sid => (s.strands.get? sid).map fun st => (sid, ⟨st.pc, st.unackDev, st.unackSys, st.tickets⟩)

/-- The queue of a core without the commands of a workgroup; it stays halted only behind an abandoned command that it keeps
(09 R243; log 158). -/
def CopyQueue.without (q : CopyQueue) (wg : Nat) : CopyQueue :=
  let rest := q.cmds.filter fun k => k.sid.wg != wg
  { q with cmds := rest, halted := q.halted && rest.any fun k => decide (k.state = .abandoned) }

/-- One workgroup is written as a cocoon, and its granules are released. -/
def saveOne (s : State) (wg addr : Nat) (grouped : Bool) : State × Nat :=
  match s.wgs.get? wg with
  | none => (s, 0)
  | some g0 => match s.launches.get? g0.launch with
    | none => (s, 0)
    | some l =>
      let s := (strandsOf s wg).foldl settleStrand s
      let copies : List (Fin 4 × CopyCmd) := ((List.finRange 4).map fun q =>
        ((s.copyQ g0.core q).cmds.filter fun k => k.sid.wg == wg).map fun k => (q, k)).flatten
      let bytes := cocoonBytes s wg g0 l (copies.map Prod.snd) grouped
      let s := s.performAt g0.core.die 0 (s.memBase g0.core.die + addr) bytes
      let s := (List.finRange 4).foldl (fun (s : State) q =>
        s.setCopyQ g0.core q ((s.copyQ g0.core q).without wg)) s
      let s := (releaseGranules s g0.core wg).modWg wg fun g =>
        { g with granules := [], stopping := false,
                 parked := some { addr := addr, size := bytes.length, grouped := grouped, told := false, copies := copies, saved := savedOf s wg } }
      (s.tell 0 (.preempted g0.launch addr), bytes.length)

/-- Saves a group one after another from an address upward, where each is ready; answers the address after them. A phase that is
complete ends before the arrivals are saved. Where they would reach beyond the memory nothing is saved (00 R2; log 58). -/
def saveAll (s : State) (l : List Nat) (addr : Nat) : State × Nat :=
  if !l.all (saveReady s) then (s, addr)
  else
    let t := ((l.map (strandsOf s)).flatten).foldl completePhases s
    let r := l.foldl (fun acc w =>
      let grouped := match (t.wgs.get? w).bind fun g => t.launches.get? g.launch with
        | some x => savedTogether t x
        | none => false
      let r := saveOne acc.1 w acc.2 grouped
      (r.1, acc.2 + r.2)) (t, addr)
    let die := match (l.head?).bind s.wgs.get? with
      | some g => g.core.die
      | none => 0
    if r.2 ≤ s.memSize die then r else (s, addr)

/-! ## Drains (17 R329) -/

/-- Each launch of the world records the next workgroup to place; a timeout of zero has passed at once. On a set of cores one
world is drained at a time. -/
def execDrain (world : Nat) (cores : List CoreId) (timeout area : Nat) (s : State) : Host.Outcome State Fault Refusal :=
  .next (
    if s.drains.any fun d => decide (d.world ≠ world) && d.cores.any cores.contains then s
    else
      let launches : Assoc Nat Launch := s.launches.map fun p =>
        (p.1, if p.2.world = world then { p.2 with pausedAt := some p.2.placed } else p.2)
      { s with
        launches := launches
        drains := s.drains ++ [{ world := world, cores := cores, deadline := s.cycle + timeout * Config.cyclesPerMicro, area := area }] })

/-- Workgroups of a drain's world that still hold a place on its cores. -/
def victims (s : State) (d : DrainRec) : List Nat :=
  (s.wgs.filter fun p => d.cores.contains p.2.core && !p.2.released && p.2.parked.isNone && isRunning s (unitOf p.1)
    && decide (wgWorld s p.2 = some d.world)).map Prod.fst

/-- A drain of the world whose timeout has passed and that still has victims. -/
def dueDrain (s : State) (world : Nat) : Option DrainRec :=
  s.drains.find? fun d => decide (d.world = world) && decide (d.deadline ≤ s.cycle) && !(victims s d).isEmpty

/-- After the timeout, issue stops in every victim, and each that is ready is saved. -/
def saveVictims : Nat → DrainRec → State → State
  | 0, _, s => s
  | fuel + 1, d, s =>
    match (victims s d).find? fun w => (saveGroup s w).all (saveReady s) with
    | none => s
    | some w =>
      let r := saveAll s (saveGroup s w) d.area
      let d' := { d with area := r.2 }
      saveVictims fuel d' { r.1 with drains := r.1.drains.map fun x => if x = d then d' else x }

def execDrainTimeout (world : Nat) (s : State) : Host.Outcome State Fault Refusal :=
  .next (match dueDrain s world with
    | none => s
    | some d =>
      let v := victims s d
      saveVictims v.length d (stopIssue s (v.map (saveGroup s)).flatten.eraseDups))

def execDrainResumption (world : Nat) (s : State) : Host.Outcome State Fault Refusal :=
  .next (
    let launches : Assoc Nat Launch := s.launches.map fun p => (p.1, if p.2.world = world then { p.2 with pausedAt := none } else p.2)
    let wgs : Assoc Nat Workgroup := s.wgs.map fun p => (p.1, if wgWorld s p.2 = some world then { p.2 with stopping := false } else p.2)
    { s with launches := launches, wgs := wgs, drains := s.drains.filter fun d => d.world ≠ world })

/-! ## Forced saves by the kernel and by the scheduler (17 R328, R329) -/

/-- Whether a queue of the world holds a child of a launch that a wait for a number waits for. -/
def awaitsChild (s : State) (world n parent upTo : Nat) : Bool :=
  match (s.worlds.get? world).bind fun w => w.queues.get? n with
  | some q => q.pending.any fun p => decide (p.1 ≤ upTo) && decide ((s.launches.get? p.2).bind Launch.parent = some parent)
  | none => false

/-- Whether a strand of the workgroup waits with STLWAIT on a child, or with SLAUNCH on a full queue. -/
def waitsOnChild (s : State) (wg : Nat) : Bool :=
  s.strands.any fun p => p.1.wg == wg && (match p.2.wait, s.env? p.1 with
    | some (.slaunch ..), _ => true
    | some (.stlwait h b), some e => (match handleQueue s e h.val with
      | some (.launch w n) => awaitsChild s w n e.wg.launch (e.st.rd b).toNat
      | _ => false)
    | _, _ => false)

/-- The state in which every granule that is being zeroed is free: room that has been made counts as room (R328). -/
def zeroed (s : State) : State :=
  { s with granules := s.granules.map fun p => (p.1, vmap (fun g => match g with | .zeroing _ => .free | x => x) p.2) }

/-- A launch of the world that could start, but whose next workgroups, those placed at once, fit nowhere. -/
def stuckLaunch (s : State) (world : Nat) : Bool :=
  s.launches.any fun p => p.2.world == world && mayStartLaunch s p.1 p.2 && !placeable (zeroed s) p.1 p.2

def depthOf (s : State) (g : Workgroup) : Nat := ((s.launches.get? g.launch).map Launch.depth).getD 0

/-- The scheduler saves the deepest waiting parents first, and no further one while a save of the world is under way, which
may make the room (R328). -/
def mayYield (s : State) (wg : Nat) (g : Workgroup) : Bool :=
  match wgWorld s g with
  | none => false
  | some w => waitsOnChild s wg && stuckLaunch s w && s.wgs.all fun p =>
      !(p.2.stopping && p.1 != wg && decide (wgWorld s p.2 = some w)) && (p.2.released || p.2.parked.isSome || decide (wgWorld s p.2 ≠ some w) || !waitsOnChild s p.1 || decide (depthOf s p.2 ≤ depthOf s g))

/-- What no cocoon may lie over, from an address to the one after its end: the pages that a tenant's translation maps, and the other
cocoons (R332). -/
def takenRuns (s : State) : List (Nat × Nat) :=
  let tenants := s.worlds.filter fun p => p.1 != 0 && p.2.alive
  let frames := (tenants.map fun p => framesOf s p.2).flatten
  frames.map (fun f => (f.1, f.1 + 2 ^ f.2)) ++ s.wgs.filterMap fun p => p.2.parked.map fun c =>
    (s.memBase p.2.core.die + c.addr, s.memBase p.2.core.die + c.addr + c.size)

/-- Whether `n` bytes from an address are memory of a die's partition over which a cocoon may lie. -/
def cocoonFits (s : State) (d : Fin 4) (addr n : Nat) : Bool :=
  let a := s.memBase d + addr
  decide (addr + n ≤ s.memSize d) && (takenRuns s).all fun r => decide (r.2 ≤ a) || decide (a + n ≤ r.1)

/-- Addresses at which a die's partition may have room for a cocoon: a free choice, its start, and the end of whatever is in the way
(log 134). -/
def cocoonSpots (s : State) (d : Fin 4) : List Nat :=
  Config.cocoonAddress s.ticks :: 0 :: ((takenRuns s).filter fun r => decide (s.memBase d ≤ r.2)).map fun r => r.2 - s.memBase d

/-- A workgroup of a drained world on its cores, or a waiting parent, is saved at an address of the kernel's. A save that has
begun goes on once the workgroup is ready. One that the scheduler makes of itself needs an address where the cocoons fit (R332). -/
def execForcedSave (wg addr : Nat) (s : State) : Host.Outcome State Fault Refusal :=
  .next (match s.wgs.get? wg with
    | none => s
    | some g =>
      let drained := match wgWorld s g with
        | some w => draining s w g.core
        | none => false
      if g.released || g.parked.isSome || !isRunning s (unitOf wg) || !(drained || g.stopping || mayYield s wg g) then s
      else
        let group := saveGroup s wg
        let s := stopIssue s group
        let r := saveAll s group addr
        if drained || cocoonFits s g.core.die addr (r.2 - addr) then r.1 else s)

/-! ## Restoring (17 R337) -/

/-- The parked workgroups restored with one. -/
def restoreGroup (s : State) (wg : Nat) (g : Workgroup) (p : Parked) : List (Nat × Workgroup) :=
  if !p.grouped then [(wg, g)]
  else match s.launches.get? g.launch with
    | none => [(wg, g)]
    | some l =>
      (wgsOf s g.launch).filter fun x => (match x.2.parked with | some y => y.grouped | none => false) && (usesBarrier s l.ctx 2 || x.2.index / l.desc.cluster == g.index / l.desc.cluster)

/-- The bytes of a cocoon, where its save on die `die` wrote them. -/
def cocoonAt (s : State) (die : Fin 4) (p : Parked) : List Byte := (s.readL2 die 0 (s.memBase die + p.addr) p.size).2

/-- The tag maps of a cocoon in memory hold no code 0b11 (02 R50). -/
def tagsOk (s : State) (die : Fin 4) (p : Parked) (d : LaunchDesc) : Bool :=
  let r := cocoonAt s die p
  let start := fieldNat r 48 8
  let n := d.regs
  let size (i : Nat) (map : Nat) : Nat := match bitsOf map (2 * i) 2 with | 0 => 4 | 1 => 8 | _ => 128
  let mapLen := ((n + 3) / 4 + 31) / 32 * 32
  let go (acc : Bool × Nat) : Bool × Nat :=
    let map := fieldNat r (start + acc.2) ((n + 3) / 4)
    let ok := (List.range n).all fun i => bitsOf map (2 * i) 2 != 3
    let body := ((List.range n).map fun i => size i map).foldl (· + ·) 0
    (acc.1 && ok, acc.2 + mapLen + (body + 31) / 32 * 32)
  ((List.range d.strands).foldl (fun acc _ => go acc) (true, 0)).1

/-! ### Sections read back (17 R333 to R337): what they do not hold stays as the machine kept it (log 83) -/

/-- A thing whose image in a cocoon is `x`: the kept one where that is its image, else what the image says. -/
def reread {α β : Type} [BEq β] (image : α → β) (x : β) (kept new : α) : α := if image kept == x then kept else new

/-- A split slot of a record at `o`; lanes 0 mark an empty one. -/
def slotFrom (r : List Byte) (o : Nat) (kept : Option Split) : Option Split :=
  if fieldNat r o 4 = 0 then none else
  some { kept.getD (Split.whole 0 0) with
    lanes := BitVec.ofNat 32 (fieldNat r o 4), exit := BitVec.ofNat 32 (fieldNat r (o + 4) 4),
    pos := fieldNat r (o + 8) 4, join := fieldNat r (o + 12) 4 }

/-- One lane-queue entry of 40 bytes. -/
def blockFrom (r : List Byte) (o : Nat) : Block :=
  { entry := fieldNat r o 8, ks := Vector.ofFn fun i : Fin 8 => BitVec.ofNat 32 (fieldNat r (o + 8 + 4 * i.val) 4) }

/-- A strand from its record (R334). What has happened to it since its save stands: a RESOLVE's address, the acknowledgements that
have come, the tickets that have ended. -/
def recordFrom (r : List Byte) (sv : SavedStrand) (st : Strand) : Strand :=
  let joins := (List.range (fieldNat r 434 1)).map fun i =>
    { st.joins.getD i ⟨0, 0xFFFF, none, 0⟩ with savedJoin := fieldNat r (760 + 4 * i) 4 }
  let tickets := ((List.range 8).map fun i => fieldNat r (900 + 8 * i) 8).filter fun t => t ≠ 0
  let sexit := bitOf (fieldNat r 249 1) 0
  { st with
    sexit := sexit
    ended := if sexit = st.sexit then st.ended else if sexit then .exited else .no
    unackDev := BitVec.ofNat 32 (fieldNat r 892 4) + (st.unackDev - sv.dev)
    unackSys := BitVec.ofNat 32 (fieldNat r 896 4) + (st.unackSys - sv.sys)
    tickets := if st.tickets = sv.tickets then reread rising tickets st.tickets tickets else st.tickets
    started := decide (fieldNat r 264 8 ≠ 0)
    spilled := (List.range (fieldNat r 432 1)).map fun i => st.spilled.getD i ⟨0, none⟩
    s := Vector.ofFn fun i : Fin 32 => if i.val = 0 then st.s[i] else BitVec.ofNat 64 (fieldNat r (8 * (i.val - 1)) 8)
    p := Vector.ofFn fun i : Fin 8 => if i.val = 0 then st.p[i] else bitOf (fieldNat r 248 1) i.val
    serialised := bitOf (fieldNat r 249 1) 1
    tileScale := BitVec.ofNat 32 (fieldNat r 252 4)
    pc := if st.pc = sv.pc then fieldNat r 256 8 else st.pc
    q := Vector.ofFn fun i : Fin 8 => BitVec.ofNat 64 (fieldNat r (272 + 8 * i.val) 8)
    masks := Vector.ofFn fun i : Fin 16 => if i.val = 0 then st.masks[i] else BitVec.ofNat 32 (fieldNat r (336 + 4 * (i.val - 1)) 4)
    base := BitVec.ofNat 32 (fieldNat r 396 4)
    slots := Vector.ofFn fun i : Fin 2 => slotFrom r (400 + 16 * i.val) st.slots[i]
    laneQ := (List.range (fieldNat r 433 1)).map fun i => blockFrom r (440 + 40 * i)
    joins := joins }

def Size.ofNum (n : Nat) : Size := match n with | 0 => .b1 | 1 => .b2 | 2 => .b4 | _ => .b8

/-- A buffered store from its image (R335), and where the next one begins. The bytes hold virtual addresses: a lane that had its
address when it was saved keeps the translation that the store was checked with. -/
def entryFrom (pa : Nat → Nat) (r : List Byte) (acc : List SBEntry × Nat) (x : SBEntry) : List SBEntry × Nat :=
  let o := acc.2
  let size := Size.ofNum (fieldNat r (o + 1) 1)
  let mask := fieldNat r (o + 4) 4
  let vector := fieldNat r o 1 == 1
  let lane (i l : Nat) : SBLane :=
    let va := fieldNat r (o + 32 + 16 * i) 8
    { lane := if vector then l else 0, va := va, data := (r.drop (o + 40 + 16 * i)).take (2 ^ Size.num size)
      pa := match x.lanes.find? fun y => y.va == va with | some y => y.pa | none => pa va }
  let lanes := ((List.range 32).filter fun l => bitOf mask l).mapIdx lane
  (acc.1 ++ [{ x with vector := vector, size := size, scope := scopeOf (fieldNat r (o + 2) 1), lanes := lanes }],
    o + 32 + 16 * lanes.length)

/-- Registers from a save area at `o` (02 R50), and how many bytes it takes. -/
def areaFrom (r : List Byte) (o n : Nat) : List VReg × Nat :=
  let map := fieldNat r o ((n + 3) / 4)
  let start := ((n + 3) / 4 + 31) / 32 * 32
  let one (acc : List VReg × Nat) (i : Nat) : List VReg × Nat :=
    let a := o + start + acc.2
    match bitsOf map (2 * i) 2 with
    | 0 => (acc.1 ++ [.u (BitVec.ofNat 32 (fieldNat r a 4))], acc.2 + 4)
    | 1 => (acc.1 ++ [.a (BitVec.ofNat 32 (fieldNat r a 4)) (BitVec.ofNat 32 (fieldNat r (a + 4) 4))], acc.2 + 8)
    | _ => (acc.1 ++ [.g (lanes fun l => BitVec.ofNat 32 (fieldNat r (a + 4 * l.val) 4))], acc.2 + 128)
  let x := (List.range n).foldl one ([], 0)
  (x.1, start + (x.2 + 31) / 32 * 32)

/-- Strands of a workgroup from its cocoon, in ascending order: records, store buffers and registers, each section from its
own offset. None has been ready while it was a cocoon (01 R22). -/
def strandsFrom (r : List Byte) (wg : Nat) (l : Launch) (core : CoreId) (saved : Assoc StrandId SavedStrand) (s : State) : State :=
  let pa (va : Nat) : Nat := match (translateNow s core.die l.world va .write l.desc.priv).2 with
    | .ok p => p
    | .error _ => va
  ((List.range l.desc.strands).foldl (fun (acc : State × Nat × Nat) i =>
    let sid : StrandId := ⟨wg, Fin.ofNat 32 i⟩
    match acc.1.strands.get? sid with
    | none => acc
    | some st =>
      let x := (r.drop (256 + 1536 * i)).take 1536
      let blank (j : Nat) : SBEntry :=
        { id := acc.1.nextId + j, restored := true, vector := false, size := .b8, scope := none, lanes := [] }
      let old := (List.range (fieldNat x 250 1)).map fun j => st.stores.getD j (blank j)
      let b := old.foldl (entryFrom pa r) ([], acc.2.1)
      let v := areaFrom r acc.2.2 l.desc.regs
      let sv := saved.getD sid ⟨st.pc, st.unackDev, st.unackSys, st.tickets⟩
      let st := { recordFrom x sv { st with stores := b.1, v := v.1 } with
        readySince := s.cycle, promoted := false, vecSince := s.cycle, vecPromoted := false }
      ({ acc.1 with strands := acc.1.strands.set sid st }, b.2, acc.2.2 + v.2)) (s, fieldNat r 40 8, fieldNat r 48 8)).1

/-- FIFO rows from their section at `o`, in the order in which the save wrote them. -/
def fifoFrom (r : List Byte) (acc : List (Nat × Fifo) × Nat) (p : Nat × Fifo) : List (Nat × Fifo) × Nat :=
  let n := p.2.bytes.length
  if n = 0 then (acc.1 ++ [p], acc.2)
  else (acc.1 ++ [(p.1, { p.2 with bytes := (r.drop (acc.2 + 32)).take n })], acc.2 + 32 + (n + 31) / 32 * 32)

/-- A matrix word from its image at `o` (R336). -/
def matFrom (r : List Byte) (o : Nat) (c : MatCmd) : MatCmd :=
  let word := BitVec.ofNat 32 (fieldNat r (o + 40) 4)
  let kind := match decodeScalar word.toNat 0 with
    | .ok (.mma _ m) => .mma m
    | .ok (.mmap _ m) => .mmap m
    | .ok (.mzero _ t) => .mzero t
    | .ok (.mguide _ d a b _) => .mguide d a b (BitVec.ofNat 32 (fieldNat r (o + 52) 4))
    | _ => c.kind
  let n := fieldNat r (o + 8) 8
  { c with word := word, kind := kind, num := c.num.map fun _ => n, copy := c.copy.map fun x => (x.1, x.2.1, n) }

/-- Scratchpad, tiles, FIFOs and matrix words of a workgroup from its cocoon, which holds `ncopies` copy commands before those. -/
def wgFrom (r : List Byte) (d : LaunchDesc) (ncopies : Nat) (g : Workgroup) : Workgroup :=
  let part (o n : Nat) : Mem := Mem.write [] 0 ((r.drop (fieldNat r o 8)).take (bitsOf d.pword.toNat n 6 * 65536))
  let from' := fieldNat r 80 8 + 128 * ncopies
  { g with scratch := part 56 12, tiles := part 64 18, fifos := (g.fifos.foldl (fifoFrom r) ([], fieldNat r 72 8)).1
           matrix := { g.matrix with cmds := g.matrix.cmds.mapIdx fun i c => matFrom r (from' + 128 * i) c } }

/-- A copy command from its image at `o` (R336). -/
def copyFrom (r : List Byte) (o : Nat) (k : CopyCmd) : CopyCmd :=
  let word := BitVec.ofNat 32 (fieldNat r (o + 40) 4)
  let sb : W64 := BitVec.ofNat 64 (fieldNat r (o + 24) 8)
  let shape : Transform × Bool := match decodeScalar word.toNat 0 with
    | .ok (.cpy _ _ _ _ t fifo) | .ok (.cpyThen _ _ _ _ t fifo _) => (t, fifo)
    | _ => (k.transform, k.fifo)
  let follow := fieldNat r (o + 44) 4
  let lay := (r.drop (o + 64)).take 64
  { k with
    num := fieldNat r (o + 8) 8, word := word, transform := shape.1, fifo := shape.2, store := !shape.2 && sb.getLsbD 63
    follow := reread (fun f => ((f.map fun p => p.1.toNat).getD 0)) follow k.follow (match decodeScalar follow 0 with
      | .ok (.mma _ m) => some (BitVec.ofNat 32 follow, m)
      | _ => k.follow)
    sa := BitVec.ofNat 64 (fieldNat r (o + 16) 8), sb := sb, sc := BitVec.ofNat 64 (fieldNat r (o + 32) 8)
    land := k.land.map fun _ => fieldNat r (o + 32) 8
    progress := fieldNat r (o + 48) 2, chunks := fieldNat r (o + 50) 2, scale := BitVec.ofNat 32 (fieldNat r (o + 52) 4)
    layout := reread LayoutRec.bytes lay k.layout ((parseLayout (shape.1 == .rowScale) lay).getD k.layout) }

/-- A workgroup's barrier from the header (R333). -/
def barFrom (r : List Byte) (wg : Nat) (s : State) (b : Nat) : State :=
  let k := BarKey.wg wg b
  let f := fieldNat r (96 + 8 * b) 8
  if barBytes s wg b = natLE 8 f then s else
  let arrived := (barMembers s k).filter fun t => bitOf f t.strand.val && !hasArrived s ⟨0, [], false⟩ t
  { s with bars := s.bars.set k ⟨bitsOf f 32 31, arrived, bitOf f 63⟩ }

/-- A workgroup's arrivals at the barriers of its cluster or launch from the header (R333). -/
def arrivalsFrom (n wg : Nat) (key : Nat → BarKey) (s : State) (b : Nat) : State :=
  let here := strandsOf s wg
  let x := s.bar (key b)
  if here.all (hasArrived s x) == bitOf n b then s else
  let others := x.arrived.filter fun t => !here.contains t
  let mine := if bitOf n b then here.filter fun t => !hasArrived s ⟨0, [], false⟩ t else []
  { s with bars := s.bars.set (key b) { x with arrived := others ++ mine } }

/-- What the header holds of a workgroup's barriers. -/
def barsFrom (r : List Byte) (wg : Nat) (g : Workgroup) (l : Launch) (s : State) : State :=
  let s := (List.range 16).foldl (barFrom r wg) s
  let s := (List.range 16).foldl (arrivalsFrom (fieldNat r 88 4) wg (.cluster g.launch (g.index / l.desc.cluster))) s
  (List.range 16).foldl (arrivalsFrom (fieldNat r 92 4) wg (.launch g.launch)) s

/-- A copy command's record follows it to the core on which it is restored, so that RESOLVE still finds it (18 R348). -/
def moveRecords (s : State) (world : Nat) (old new : CoreId) (copies : List (Fin 4 × CopyCmd)) : State :=
  let go (r : FaultRec) : FaultRec := match r.agent with
    | .copy c q n => if c = old ∧ (copies.any fun x => decide (x.1 = q) && x.2.num == n) then { r with agent := .copy new q n } else r
    | _ => r
  s.modWorld world fun w => { w with records := w.records.map go, unwritten := w.unwritten.map go }

/-- A strand that comes to another core sees what it has seen before: its die has applied every write, and no older line of
its world stands in that core's L1 (04 R91, R115; DEDUCED, log 132). -/
def arriveAt (s : State) (world : Nat) (core : CoreId) : State :=
  let s := applyAll s core.die
  { s with mem := { s.mem with l1 := s.mem.l1.filter fun x => !(decide (x.core = core) && x.world == world) } }

/-- A restored command restarts at its next chunk, one that slept on a page too (09 R252). -/
def restarted (k : CopyCmd) : CopyCmd := { k with ahead := [], state := if k.state = .abandoned then .abandoned else .ready }

/-- A restored strand whose second slot finds no pool entry free on its core is serialised (01 R25, R28; DESIGN CHOICE, log 157). -/
def serialiseFull (core : CoreId) (s : State) (sid : StrandId) : State :=
  match s.strands.get? sid with
  | some st =>
    if st.slots[1].isSome && !st.serialised && decide (Config.poolEntries < poolUsed s core (sid.strand.val % 4)) then
      s.modStrand sid fun st => { st with serialised := true }
    else s
  | none => s

/-- One cocoon goes back onto a core. -/
def restoreOne (s : State) (wg : Nat) (p : Parked) (l : Launch) (core : CoreId) : State :=
  let old := ((s.wgs.get? wg).map Workgroup.core).getD core
  let s := arriveAt (moveRecords s l.world old core p.copies) l.world core
  let r := cocoonAt s old.die p
  let gs := (freeGranules s core).take l.desc.granules
  let s := (takeGranules s core wg l.world gs).modWg wg fun g =>
    { wgFrom r l.desc p.copies.length g with
      core := core, granules := gs, parked := none, lastCopy := g.lastCopy ++ p.copies.map fun x => (core, x.1, x.2.num) }
  let s := (strandsOf s wg).foldl (serialiseFull core) (strandsFrom r wg l core p.saved s)
  let copies := p.copies.mapIdx fun i x => (x.1, copyFrom r (fieldNat r 80 8 + 128 * i) x.2)
  let s := copies.foldl (fun (s : State) x =>
    let q := s.copyQ core x.1
    let older := q.cmds.filter fun k => k.num < x.2.num
    let newer := q.cmds.filter fun k => ¬ k.num < x.2.num
    s.setCopyQ core x.1 { q with
      next := max q.next (x.2.num + 1), cmds := older ++ [restarted x.2] ++ newer, halted := q.halted || decide (x.2.state = .abandoned) }) s
  let s := match s.wgs.get? wg with
    | some g => barsFrom r wg g l s
    | none => s
  -- a follow-on word keeps naming its copy, now on this core
  s.modWg wg fun g => { g with matrix := { g.matrix with cmds := g.matrix.cmds.map fun c =>
    { c with copy := c.copy.map fun x => (core, x.2) } } }

/-- Places cocoons on cores of one part of a region one after another; `none` where one does not fit. -/
def restoreOn (l : Launch) (part : List CoreId) : List (Nat × Workgroup) → State → Option State
  | [], s => some s
  | (w, g) :: rest, s => match g.parked, part.find? fun c => canPlace s l.world l.desc c with
    | none, _ => restoreOn l part rest s
    | some _, none => none
    | some p, some c => restoreOn l part rest (restoreOne s w p l c)

/-- The cocoons of one cluster stand together: those at the head of a list in rising order. -/
def clusterHead (cluster : Nat) (all : List (Nat × Workgroup)) : List (Nat × Workgroup) :=
  match all with
  | [] => []
  | x :: _ => if cluster ≤ 1 then all else all.takeWhile fun y => y.2.index / cluster == x.2.index / cluster

/-- Cocoons cluster by cluster, each in the first part that takes it whole. -/
def restoreAll (l : Launch) (parts : List (List CoreId)) : Nat → List (Nat × Workgroup) → State → Option State
  | 0, all, s => if all.isEmpty then some s else none
  | fuel + 1, all, s =>
    if all.isEmpty then some s else
    let head := clusterHead l.desc.cluster all
    match parts.findSome? fun p => restoreOn l p head s with
    | none => none
    | some s => restoreAll l parts fuel (all.drop head.length) s

/-- The parts of the region of a core within which cocoons are restored together, with those that hold the core first. -/
def regionOf (s : State) (l : Launch) (together : Bool) (core : CoreId) : List (List CoreId) :=
  let first (p : List CoreId) : List CoreId := core :: p.filter fun c => c ≠ core
  let cell := first ((cellsOf core.die).getD (core.core.val / 4) [])
  if !together then [[core]]
  else if !usesBarrier s l.ctx 2 then [cell]
  else if 1 < l.desc.cluster then cell :: (cellsOf core.die).filter fun p => !p.contains core
  else [first (coresOf core.die)]

/-- The state with cocoons restored at a core, together or not at all. -/
def restoreAt (s : State) (l : Launch) (p : Parked) (all : List (Nat × Workgroup)) (core : CoreId) : Option State :=
  restoreAll l (regionOf s l p.grouped core) all.length all s

/-- No eligible core for the cocoons: CAPACITY, once, to the world's runtime and to the kernel. -/
def tellCapacity (s : State) (wg : Nat) (p : Parked) (g : Workgroup) (l : Launch) (all : List (Nat × Workgroup)) : State :=
  if p.told || allCores.any (fun c => (restoreAt s l p all c).isSome) then s
  else
    let e := Event.capacity g.launch l.desc.regs
    ((s.tell l.world e).tell 0 e).modWg wg fun g => { g with parked := g.parked.map fun y => { y with told := true } }

/-- A cocoon whose register save area holds tag code 0b11 is not restored, and ILLEGAL_OPERAND goes to its world's runtime: as an
event that names the launch and the code, with no fault record (02 R50 names no form of the report; DESIGN CHOICE, log 133). -/
def execCocoonRestore (k : Nat) (core : CoreId) (s : State) : Host.Outcome State Fault Refusal :=
  .next (match s.wgs.get? k with
    | none => s
    | some g => match g.parked, s.launches.get? g.launch with
      | some p, some l =>
        if instDone' s k then s
        else
          let all := restoreGroup s k g p
          if !all.all (fun x => match x.2.parked with | some y => tagsOk s x.2.core.die y l.desc | none => true) then
            s.tell l.world (.restoreRefused g.launch .illegalOperand)
          else match restoreAt s l p all core with
            | some s => s
            | none => tellCapacity s k p g l all
      | _, _ => s)
where
  /-- A cancelled workgroup's cocoon is discarded unread (R331). -/
  instDone' (s : State) (k : Nat) : Bool := !isRunning s (unitOf k)

end Sys2Proof.Machine
end

