-- ==== Sys2Proof/Machine/Choose.lean ====
section
/-! DEFINITION. The choice of what moves next (01 R22, R23; log 4). -/

namespace Sys2Proof.Machine

open Sys2Proof

/-! ## What moves next -/

/-- A stream or split that may issue, with its quadrant's port (01 R22): promoted or due to be, since when it has been ready,
whether its word continues a chain (R33), whether its world's share of the round is used up, and whether it has had its
turn among its world's. -/
structure Cand where
  turn : Turn
  core : CoreId
  quadrant : Fin 4
  vector : Bool
  promoted : Bool
  since : Nat
  chained : Bool
  spent : Bool
  world : Nat
  served : Bool
  deriving DecidableEq, Repr

/-- A split's turn: its rotation where one is due between two chains, which comes before its next word (01 R30). -/
def vectorCand (s : State) (e : Env) (slot : Fin 2) : List Cand :=
  match e.st.slots[slot] with
  | none => []
  | some sp =>
    let chained := chainedNext s e sp
    if vectorReady s e slot then
      [{ turn := if !chained && rotationDue e.st sp then .event (.splitRotation e.sid (decide (slot = 1))) else .vector e.sid slot, core := e.core, quadrant := Fin.ofNat 4 e.sid.strand.val, vector := true,
         promoted := e.st.vecPromoted || decide (e.st.vecSince + 64 ≤ s.cycle), since := e.st.vecSince, chained := chained,
         spent := decide (issueWeight s e ≤ issueCount s e true), world := e.world,
         served := (servedOn s e true).contains (e.sid, slot) }]
    else []

def candsOf (s : State) (sid : StrandId) : List Cand :=
  match s.env? sid with
  | none => []
  | some e =>
    (if scalarReady s e then
      [{ turn := .scalar sid, core := e.core, quadrant := Fin.ofNat 4 sid.strand.val, vector := false,
         promoted := e.st.promoted || decide (e.st.readySince + 64 ≤ s.cycle), since := e.st.readySince, chained := false,
         spent := decide (issueWeight s e ≤ issueCount s e false), world := e.world,
         served := (servedOn s e false).contains (sid, 0) }] else [])
      ++ vectorCand s e 0 ++ vectorCand s e 1

def candidates (s : State) : List Cand := (s.strands.map fun p => candsOf s p.1).flatten

def Cand.samePort (c d : Cand) : Bool := decide (d.core = c.core) && decide (d.quadrant = c.quadrant) && d.vector == c.vector

/-- Who may issue on a port (01 R22, R33). A word that continues a chain goes on with no strand switch, and two such chains
hold both of a quadrant's vector slots. Else a promoted strand is chosen ahead of every one that is not, oldest readiness
first; and among the others a world whose share of the round is used up waits for one whose share is not, and a strand that
has had its turn for one of its world that has not (log 130). -/
def mayIssue (all : List Cand) (c : Cand) : Bool :=
  let port := all.filter c.samePort
  c.chained || (decide ((port.filter Cand.chained).length < 2) &&
    (if c.promoted then port.all fun d => !d.promoted || decide (c.since < d.since) || (c.since == d.since && (!c.served || d.served))
      else port.all fun d => !d.promoted && (!c.spent || d.spent) && (d.world != c.world || !c.served || d.served)))

/-- A strand that stays ready issues within 72 cycles (01 R23). -/
def Cand.overdue (s : State) (c : Cand) : Bool := decide (c.since + 72 ≤ s.cycle)

/-- The event that may end a strand's wait. -/
def waitEvents (sid : StrandId) (w : Option Wait) : List Instr :=
  match w with
  | some (.slq ..) => [Instr.laneQueueEnqueue sid]
  | some (.slwait _) => [Instr.slwaitReturn sid]
  | some (.slwt ..) => [Instr.slwtReturn sid]
  | some (.smwait ..) => [Instr.smwaitWake sid, Instr.smwaitTimeout sid]
  | some (.stlwait ..) => [Instr.stlwaitReturn sid]
  | some (.stlthr ..) => [Instr.stlthrReturn sid]
  | some (.slaunch ..) => [Instr.slaunchReturn sid]
  | some (.sgatew ..) => [Instr.sgatewReturn sid]
  | some (.engine _) => [Instr.engineWordAccept sid]
  | some (.picins _) => [Instr.picinsComplete sid]
  | some (.fdtsync ..) => [Instr.fdtsyncComplete sid]
  | some (.barrier k) => [Instr.barrierPhaseComplete k]
  | some (.again k _) => [Instr.barrierPhaseComplete k]
  | some .retry | none => []

/-- Events of a strand that its own state may let happen; an event that is not enabled changes nothing. -/
def strandEvents (sid : StrandId) (st : Strand) : List Instr :=
  let own : List Instr := [Instr.blockComplete sid, Instr.picotInvocation sid, Instr.strandPromotion sid]
  let ret : List Instr := (st.returns.map fun r => [Instr.memoryReturn sid r.id true, Instr.integrityCheckFail sid r.id]).flatten
  let sto : List Instr := st.stores.map fun x => Instr.storePerformed sid x.id
  own ++ waitEvents sid st.wait ++ ret ++ sto

def memoryEvents (s : State) : List Instr :=
  let wr : List Instr := (s.mem.msgs.map fun w => (List.finRange 4).map fun d => Instr.writeApply d w.seq).flatten
  let red : List Instr := s.mem.copies.map fun c => Instr.reductionCopyCombine c.die c.line
  let pw : List Instr := if s.xlat.walks.isEmpty then [] else (List.finRange 4).map fun d => Instr.pageWalk d
  let inv : List Instr := if s.xlat.inval.isSome then [Instr.invalComplete] else []
  wr ++ red ++ pw ++ inv

def matrixEvents (c : CoreId) (id : Nat) : List Instr :=
  [Instr.mmapDecision c id, Instr.matrixWordStart c id, Instr.matrixRowPop c id, Instr.matrixWordComplete c id,
    Instr.matrixWordEnded c id]

def engineEvents (s : State) : List Instr :=
  let cp : List Instr := s.copyQs.map fun q => Instr.copyChunk q.1.1 q.1.2
  let mx : List Instr := (s.wgs.map fun p => (p.2.matrix.cmds.map fun c => matrixEvents p.2.core c.id).flatten).flatten
  cp ++ mx

def zeroing (c : CoreId) (v : Vector Granule 48) : List Instr :=
  (List.finRange 48).filterMap fun g => match v[g] with
    | .zeroing _ => some (Instr.granuleZeroingDone c g)
    | _ => none

def workEvents (s : State) : List Instr :=
  let ins : List Instr := (s.insts.map fun p => [Instr.instanceComplete p.1, Instr.instanceSettle p.1]).flatten
  let zer : List Instr := (s.granules.map fun p => zeroing p.1 p.2).flatten
  let dog : List Instr := s.launches.map fun p => Instr.watchdog p.1
  let drn : List Instr := s.drains.map fun d => Instr.drainTimeout d.world
  ins ++ zer ++ dog ++ drn

def contextEvents (c : Nat) (x : Context) : List Instr :=
  let edg : List Instr := x.edges.map fun e => Instr.edgeDeadline c e.1
  let nod : List Instr := ((List.range x.img.nodes.length).map fun n => x.runs.map fun r => Instr.nodeFrameDeadline c n r.1).flatten
  let ctl : List Instr := ((List.range x.move.ctls.length).map fun k => [Instr.controlResend c k, Instr.failed c k]).flatten
  let frg : List Instr := (List.range x.frags.length).map fun k => Instr.fragmentMerge c ((x.frags.map Frag.merge).getD k 0) k
  Instr.frameStart c :: (edg ++ nod ++ ctl ++ frg)

def linkEvents (s : State) : List Instr :=
  let dgs : List Instr := ((List.finRange 4).map fun d => [Instr.datagramSend d, Instr.datagramExpired d]).flatten
  let rma : List Instr := s.rma.out.map fun m => Instr.rmaResend m.num
  let keys : List Instr := (s.rma.regions.filter fun p => p.2.state == 2).map fun p => Instr.keyRevocation p.1
  let dog : List Instr := if s.trust.trialUntil.isSome then [Instr.bundleWatchdog] else []
  let rek : List Instr := ((List.finRange 18).filter fun l => 2 ^ 32 ≤ s.hub.flits[l]).map Instr.fabricRekey
  dgs ++ rma ++ keys ++ dog ++ rek

/-- The events that the input at the head of the queue stands for; of those, at most one changes anything. -/
def inputEvents : List Input → List Instr
  | [] => []
  | x :: _ => match x with
    | .datagram .. => [Instr.data, Instr.parity, Instr.malformedDatagram, Instr.cutPropose, Instr.cutAck, Instr.cutCommit,
        Instr.commitAck, Instr.cutAbort, Instr.abortAck, Instr.handover, Instr.handoverAck]
    | .rmaPacket .. => [Instr.rmaPacketArrival]
    | .rmaAck .. => [Instr.rmaAcknowledgement]
    | .trigger _ => [Instr.triggeredRequestPost]
    | .region .. | .window .. => [Instr.regionEntryWrite]
    | .firewall .. => [Instr.firewallWindowWrite]
    | .inbound .. => [Instr.inboundRequest]
    | .bootImages _ => [Instr.boot]
    | .nonce _ => [Instr.getMeasurements]
    | .bundle _ => [Instr.bundleUpdate]
    | .token _ => [Instr.debugLockOpen]
    | .partition _ => [Instr.hardPartitionChange]
    | .tolerance _ => [Instr.powerStateEntry]
    | .submit .. => [Instr.launchSubmission]
    | .createQueue .. => [Instr.queueCreate]
    | .createContext .. => [Instr.contextCreate]
    | .closeJob _ => [Instr.jobClose]
    | .destroyContext _ => [Instr.contextDestroy]
    | .destroyQueue .. => [Instr.queueDestroy]
    | .createWorld .. => [Instr.worldCreate]
    | .doorbell => [Instr.powerStateExit]

/-- Cocoons that wait for a core. -/
def restores (s : State) : List Instr :=
  ((s.wgs.filter fun p => p.2.parked.isSome).map fun p => allCores.map fun c => Instr.cocoonRestore p.1 c).flatten

/-- Saves that the scheduler makes of itself: of a parent that waits on a child, or one that has begun, wherever a cocoon may fit
(17 R328, R332; log 134). -/
def saves (s : State) : List Instr :=
  ((s.wgs.filter fun p => !p.2.released && p.2.parked.isNone && (p.2.stopping || mayYield s p.1 p.2)).map
    fun p => (cocoonSpots s p.2.core.die).map fun a => Instr.forcedSave p.1 a).flatten

/-- Outside W0 only the exit, a deeper state, and what W4 serves itself, may move (19 R366, R367). -/
def asleepEvents (s : State) : List Instr :=
  let out : List Instr := if s.power.exitAt.isSome then [Instr.powerExitComplete] else [Instr.powerStateEntry]
  let wake : List Instr := if s.inbox.isEmpty then [] else [Instr.powerStateExit, Instr.hardPartitionChange]
  out ++ wake

/-- The events that the device's own parts may bring about. Those that need an operand from outside (the host, the
network, the kernel or the distributor's choice) come through the agenda. -/
def deviceEvents (s : State) : List Instr :=
  let ctx : List Instr := (s.contexts.map fun p => contextEvents p.1 p.2).flatten
  memoryEvents s ++ engineEvents s ++ workEvents s ++ ctx ++ linkEvents s ++ inputEvents s.inbox ++ placements s ++ saves s ++ restores s

/-- Strands whose VPICOT word holds its lines. -/
def holders (s : State) : List StrandId := (s.strands.filter fun p => p.2.picot.isSome).map Prod.fst

/-- Everything that may move: ready streams under promotion, and events. While lines are held their invocations come
first: another request for one waits, and what concerns no held line may as well come after (09 R269). A port with a strand
that has been ready for 72 cycles issues before all else (01 R23). -/
def moves (s : State) : List Turn :=
  let c := candidates s
  if s.power.state ≠ .w0 then (asleepEvents s).map Turn.event else
  if holders s ≠ [] then (holders s).map fun sid => Turn.event (Instr.picotInvocation sid) else
  let due := c.filter (Cand.overdue s)
  if due ≠ [] then ((c.filter fun x => mayIssue c x && due.any x.samePort).map Cand.turn) else
  ((c.filter (mayIssue c)).map Cand.turn)
    ++ (s.strands.map fun p => (strandEvents p.1 p.2).map Turn.event).flatten ++ (deviceEvents s).map Turn.event

/-- The free choice of one move (log 4). -/
def choose (s : State) : Option Turn :=
  match moves s with
  | [] => none
  | [t] => some t
  | l => l[Config.pick s.ticks % l.length]?

end Sys2Proof.Machine
end

