-- ==== Sys2Proof/Machine/Collective.lean ====
section
/-! DEFINITION. Collectives (09 R260, R261; 04 R105, R111), and a waiting engine word that its queue can now accept (09 R242). -/

namespace Sys2Proof.Machine

open Sys2Proof

/-! ## Issue -/

/-- The types a collective takes. -/
def collTy : Nat → Option Ty
  | 0 => some .i32 | 1 => some .w32 | 8 => some .f32 | 9 => some .f16 | 10 => some .bf16 | _ => none

/-- Elements that member `m` reads. -/
def collReads (k : CollKind) (n members root m : Nat) : Nat :=
  match k with
  | .allReduce | .allGather => n
  | .reduceScatter => n * members
  | .broadcast => if m = root then n else 0

/-- Elements that a member writes. -/
def collWrites (k : CollKind) (n members : Nat) : Nat := if k = .allGather then n * members else n

def overlaps (a m b n : Nat) : Bool := decide (a < b + n) && decide (b < a + m)

def groupOf (s : State) (e : Env) (h : Nat) : Option GroupEntry :=
  ((s.contexts.get? e.l.ctx).bind fun c => c.img.groups.find? fun p => p.1 = h).map Prod.snd

/-- The issue checks of CCOL; the command that would be accepted. A descriptor whose field [39:36], which 09 R260 gives as zero,
is not zero raises ILLEGAL_OPERAND (DESIGN CHOICE, log 163). -/
def collIssue (a b c : SReg) (k : CollKind) (op : CollOp) (e : Env) (s : State) : Except Code CollCmd :=
  let src := (e.st.rd a).toNat
  let dst := (e.st.rd b).toNat
  let d := (e.st.rd c).toNat
  let n := bitsOf d 0 32
  let root := bitsOf d 48 16
  match collTy (bitsOf d 32 4), groupOf s e (bitsOf d 40 8) with
  | some t, some g =>
    let z := t.bits / 8
    -- the source range is checked at every member, whether or not it reads there
    let rd := (if k = .reduceScatter then n * g.members else n) * z
    let wr := collWrites k n g.members * z
    if bitsOf d 36 4 ≠ 0 then .error .illegalOperand
    else if src % z ≠ 0 ∨ dst % z ≠ 0 then .error .align
    else if n = 0 ∨ g.members ≤ root ∨ (overlaps src rd dst wr = true ∧ ¬(k = .allReduce ∧ src = dst)) then .error .illegalOperand
    else if !queueWorldOk s.collQs[e.die].world (!s.collQs[e.die].cmds.isEmpty) e.world then .error .world
    else .ok
      { num := s.collQs[e.die].next, sid := e.sid, pc := e.st.pc, world := e.world, priv := e.priv, src := src, dst := dst,
        count := n, ty := bitsOf d 32 4, kind := k, op := op, root := root, group := g, exchanged := false, data := [], sent := none,
        state := .ready, walkFaults := [] }
  | _, _ => .error .illegalOperand

/-- Acceptance: the queue's next number; the strand's earlier stores are performed first (04 R106, 09 R261). -/
def acceptColl (s : State) (e : Env) (cmd : CollCmd) : State :=
  let s := drain s e.sid
  let q := s.collQs[e.die]
  (s.setCollQ e.die { q with world := some e.world, next := q.next + 1, cmds := q.cmds ++ [cmd] }).modWg e.sid.wg fun g =>
    { g with lastColl := (e.die, cmd.num) :: g.lastColl.filter fun x => x.1 ≠ e.die }

def ccolBody (i : Instr) (a b c : SReg) (k : CollKind) (op : CollOp) (e : Env) (s : State) : Eff :=
  match collIssue a b c k op e s with
  | .error x => .fault s { code := x, detail := if x = .world then 3 else 0 }
  | .ok cmd =>
    let q := s.collQs[e.die]
    if Config.engineQueueEntries ≤ q.cmds.length then .wait s (.engine i)
    else .done (acceptColl s e cmd)

def execCcol (g : Guard) (a b c : SReg) (k : CollKind) (op : CollOp) (s : State) :=
  scalarWord g 4 (needRole .copy) (ccolBody (.ccol g a b c k op) a b c k op) s

/-! ## Waiting words -/

/-- The length and body of an engine word that waits for its queue. -/
def engineBody (i : Instr) : Option (Nat × (Env → State → Eff)) :=
  match i with
  | .cpy _ a b c t fifo => some (4, cpyAny i a b c t fifo none)
  | .cpyThen _ a b c t fifo follow => some (8, cpyAny i a b c t fifo (some follow))
  | .mma _ m => some (4, mmaBody i m)
  | .mmap _ m => some (4, mmapBody i m)
  | .mzero _ t => some (4, mzeroBody i t)
  | .mguide _ d a b w => some (4, mguideBody i d a b w)
  | .ccol _ a b c k op => some (4, ccolBody i a b c k op)
  | _ => none

def execEngineWordAccept (sid : StrandId) (s : State) : Host.Outcome State Fault Refusal :=
  .next (resumeWord s sid fun _ w => match w with
    | .engine i => engineBody i
    | _ => none)

/-! ## Execution -/

/-- The oldest command of a die's queue, where the queue runs. -/
def collHead (s : State) (die : Fin 4) : Option CollCmd :=
  let q := s.collQs[die]
  if q.halted then none else match q.cmds with
    | c :: _ => if c.state = .ready then some c else none
    | [] => none

def collFault (s : State) (die : Fin 4) (c : CollCmd) (f : Flt) : State :=
  let g := s.wgs.get? c.sid.wg
  let core := (g.map Workgroup.core).getD ⟨die, 0⟩
  raise s c.world die (mkRec (.coll die c.num) f ((g.map Workgroup.launch).getD 0) ((g.map Workgroup.index).getD 0) 255
    core c.pc c.num)

/-- Physical places of a run of bytes through the collective engine's TLB. -/
inductive CollPlaces
  | ok (l : List (Nat × Nat × Nat))
  | miss (va : Nat)
  | bad (f : Flt)

def collPlaces (s : State) (die : Fin 4) (c : CollCmd) (va n : Nat) (kind : AccessKind) : CollPlaces :=
  (pages va n).foldl (fun acc g => match acc with
    | .ok l =>
      if 2 ^ 57 ≤ g.1 then .bad { code := .access, access := kind, addr := g.1 } else
      (match lookup s (.collEngine die) die c.world c.priv c.walkFaults g.1 kind with
        | .ok pa _ => .ok (l ++ [(pa, g.1, g.2)])
        | .miss => .miss g.1
        | .bad k => .bad { code := k, access := kind, addr := g.1 })
    | x => x) (.ok [])

def collAsk (s : State) (die : Fin 4) (c : CollCmd) (va : Nat) (kind : AccessKind) : State :=
  s.ask ⟨die, .collEngine die, .coll die c.num, c.world, c.priv, va, kind⟩

def CollCmd.bytes (c : CollCmd) : Nat := ((collTy c.ty).getD .i32).bits / 8

def elems (z : Nat) (bs : List Byte) : List W32 :=
  (List.range (bs.length / z)).map fun i => BitVec.ofNat 32 (fieldNat bs (z * i) z)

def CollCmd.header (c : CollCmd) : CollHeader := ⟨c.kind, c.op, c.ty, c.count⟩

/-- The first exchange: the headers of the other members must agree, then the source is read at L2. -/
def execCollectiveExchange (die : Fin 4) (others : List CollHeader) (s : State) : Host.Outcome State Fault Refusal :=
  .next (match collHead s die with
    | none => s
    | some c =>
      if c.exchanged || others.length + 1 != c.group.members then s
      else if others.any fun h => h ≠ c.header then collFault s die c { code := .illegalOperand }
      else
        let n := collReads c.kind c.count c.group.members c.root c.group.rank * c.bytes
        match collPlaces s die c c.src n .read with
        | .miss va => collAsk s die c va .read
        | .bad f => collFault s die c f
        | .ok l =>
          match l.find? fun g => s.mem.poisoned g.1 g.2.2 with
          | some g => collFault s die c { code := .poison, access := .read, addr := g.2.1 }
          | none =>
            let r := l.foldl (fun (acc : State × List Byte) g =>
              let x := readDie acc.1 die c.world g.1 g.2.2
              (x.1, acc.2 ++ x.2)) (s, [])
            modCollCmd r.1 die c.num fun k => { k with exchanged := true, data := elems c.bytes r.2 })

/-- A free order of contributions (04 R111). -/
def freeOrder {α : Type} (seed : Nat) : Nat → List α → List α
  | 0, _ => []
  | n + 1, l =>
    let i := Config.pick (seed + n) % max 1 l.length
    match l[i]? with
    | some x => x :: freeOrder seed n (l.eraseIdx i)
    | none => []

def collRed : CollOp → RedOp
  | .add => .add | .min => .min | .max => .max

/-- ⊕ of one element over the members. -/
def combineAll (seed : Nat) (op : CollOp) (t : Ty) (xs : List W32) : W32 :=
  match freeOrder seed xs.length xs with
  | [] => 0
  | x :: rest => BitVec.ofNat 32 (rest.foldl (fun acc y => redStep (collRed op) t .rn acc y.toNat) x.toNat)

/-- What a member writes, from every member's source in member order. -/
def collResult (seed : Nat) (c : CollCmd) (all : List (List W32)) : List W32 :=
  let t := (collTy c.ty).getD .i32
  match c.kind with
  | .allReduce => (List.range c.count).map fun i => combineAll (seed + 64 * i) c.op t (all.map fun x => x.getD i 0)
  | .reduceScatter =>
    (List.range c.count).map fun i =>
      combineAll (seed + 64 * i) c.op t (all.map fun x => x.getD (c.group.rank * c.count + i) 0)
  | .allGather => (all.map fun x => x.take c.count).flatten
  | .broadcast => all.getD c.root []

/-- The destination is written: a part in another device's memory is a message. Answers the messages it takes. -/
def writeDest (s : State) (die : Fin 4) (c : CollCmd) (bs : List Byte) (l : List (Nat × Nat × Nat)) : State × List Nat :=
  l.foldl (fun (acc : State × List Nat) g =>
    let part := (bs.drop (g.2.1 - c.dst)).take g.2.2
    if isRemote g.1 then
      match windowOf acc.1 g.1 with
      | some _ => (sendMessage acc.1 c.world none g.1 .write part, acc.2 ++ [acc.1.rma.next])
      | none => acc
    else (acc.1.performAt die c.world g.1 part, acc.2)) (s, [])

/-- The other members' sources have arrived, in member order: the destination is written. The number is reached once every
message of the destination is over: a `.sys` release (04 R105). -/
def execCollectiveComplete (die : Fin 4) (sources : List (List W32)) (s : State) : Host.Outcome State Fault Refusal :=
  .next (match collHead s die with
    | none => s
    | some c =>
      let all := sources.take c.group.rank ++ c.data :: sources.drop c.group.rank
      let right := (List.range c.group.members).all fun m =>
        (all.getD m []).length == collReads c.kind c.count c.group.members c.root m
      if !c.exchanged || c.sent.isSome || sources.length + 1 != c.group.members || !right then s
      else
        let bs := ((collResult (s.ticks * 2 ^ 64) c all).map fun x => natLE c.bytes x.toNat).flatten
        match collPlaces s die c c.dst bs.length .write with
        | .miss va => collAsk s die c va .write
        | .bad f => collFault s die c f
        | .ok l =>
          let r := writeDest s die c bs l
          settleColls (modCollCmd r.1 die c.num fun k => { k with sent := some r.2 }) none)

end Sys2Proof.Machine
end

