-- ==== Sys2Proof/Machine/Datagrams.lean ====
section
/-! DEFINITION. Graph datagrams at the ports: arrival, the reorder buffer, parity, pacing and expiry (05 R138 to R145, R153; 15
R299 to R301). -/

namespace Sys2Proof.Machine

open Sys2Proof

/-! ## Headers (05 R139 to R141) -/

/-- The context that a datagram names, where it belongs to the flow's world. -/
def gramCtx (s : State) (a : Arrival) : Option Context :=
  if 16384 ≤ a.dg.context then none else (s.ctx? a.dg.context).filter fun c => c.world == a.world

/-- A DATA header, and the headers of its records: one that names another frame, or a slot the edge does not have, makes the
datagram malformed (DESIGN CHOICE, log 148). -/
def dataOk (d : EdgeDesc) (g : Datagram) : Bool :=
  decide (1 ≤ g.group) && decide (g.group ≤ 8) && decide (1 ≤ g.records) && g.length == g.payload.length
    && g.records * recSize d == g.length && decide (g.length ≤ 1408) && g.sequence == g.first + g.group - 1
    && (List.range g.records).all fun i =>
      let r := g.payload.drop (i * recSize d)
      fieldNat r 0 8 == g.frame && decide (fieldNat r 8 2 < d.slots)

def parityOk (g : Datagram) : Bool :=
  let len (i : Nat) : Nat := fieldNat g.payload (4 * i) 2
  let cnt (i : Nat) : Nat := fieldNat g.payload (4 * i + 2) 2
  decide (1 ≤ g.group) && decide (g.group ≤ 8) && g.records == 0 && g.length == g.payload.length && g.sequence == 0
    && (List.range 8).all (fun i => if i < g.group then decide (1 ≤ cnt i) && decide (cnt i ≤ 44) && decide (len i ≤ 1408)
        else len i == 0 && cnt i == 0)
    && g.length == 32 + (List.range 8).foldl (fun m i => max m (len i)) 0

/-- The length of HANDOVER datagram `i` of the move in progress (05 R147, 15 R302). -/
def handoverLen (c : Context) (i : Nat) : Option Nat :=
  if i = 1 then
    some (8 + 16 * (List.range c.img.edges.length).countP fun e => match c.edge? e with
      | some d => c.moving d.producer || c.moving d.consumer
      | none => false)
  else
    let n := (movingAll c).find? fun n => decide (firstIndex c n ≤ i) && decide (i < firstIndex c n + stageGrams c n)
    n.map fun n => 16 + min 1408 (stageLength c n - 1408 * (i - firstIndex c n))

/-- A HANDOVER of the move in progress has its own length; one of another move, a length that some move gives. -/
def handoverOk (c : Context) (g : Datagram) : Bool :=
  let form := if g.sequence = 1 then g.length % 16 == 8 else decide (16 ≤ g.length) && decide (g.length ≤ 16 + 1408)
  decide (1 ≤ g.sequence) && decide (g.sequence ≤ g.first) && form &&
    (if (c.move.state = .acked ∨ c.move.state = .committed) ∧ fieldNat g.payload 0 4 = c.move.num.toNat then
      handoverLen c g.sequence == some g.length else true)

def controlOk (c : Context) (g : Datagram) : Bool :=
  g.edge == 0xFF && g.group == 0 && g.records == 0 && g.length == g.payload.length &&
  (match g.kind with
    | 0x10 => g.length == 8 && decide (fieldNat g.payload 0 1 ≤ 7) && decide (fieldNat g.payload 1 1 ≤ 1) && leNat (g.payload.drop 2) == 0
    | 0x11 | 0x12 | 0x13 | 0x14 | 0x15 | 0x21 => g.length == 0
    | 0x20 => handoverOk c g
    | _ => false)

/-- A datagram that passes: its cipher, its context and its header. A control datagram for an unpaired context is malformed
(DESIGN CHOICE, log 148). -/
def gramOk (s : State) (a : Arrival) (cipherOk : Bool) : Bool :=
  cipherOk && (match gramCtx s a with
    | none => false
    | some c => match a.dg.kind, c.edge? a.dg.edge with
      | 1, some d => dataOk d a.dg
      | 2, some _ => parityOk a.dg
      | 1, none | 2, none => false
      | _, _ => controlOk c a.dg && c.img.paired)

/-- The datagram at the head of the inputs; one that passes the cipher check counts in its peer's flow (19 R353). -/
def takeGram (s : State) : Option (State × Arrival × Bool) :=
  match takeInput s fun x => match x with | .datagram a ok => some (a, ok) | _ => none with
  | none => none
  | some (s, a, ok) => some (if ok then noteGot s (a.port.val + 2) a.peer else s, a, ok)

/-- The datagram at the head of the inputs, where it passes and is of a kind. -/
def headGram (s : State) (kind : Nat) : Option (State × Context × Arrival) :=
  match takeGram s with
  | none => none
  | some (s, a, ok) =>
    if gramOk s a ok && a.dg.kind == kind then (gramCtx s a).map fun c => (s, c, a) else none

/-- A discarded datagram is counted on its edge or on its port (05 R139). -/
def countMalformed (s : State) (a : Arrival) (cipherOk : Bool) : State :=
  let onPort (s : State) : State := { s with ports := s.ports.set a.port { s.ports[a.port] with malformed := s.ports[a.port].malformed + 1 } }
  match gramCtx s a with
  | none => onPort s
  | some c =>
    if cipherOk && (a.dg.kind == 1 || a.dg.kind == 2) && (c.edge? a.dg.edge).isSome then
      s.modCtx a.dg.context fun c => c.modEdge a.dg.edge fun x => { x with malformed := x.malformed + 1 }
    else onPort s

def execMalformedDatagram (s : State) : Host.Outcome State Fault Refusal :=
  .next (match takeGram s with
    | none => s
    | some (s', a, ok) => if gramOk s a ok then s else countMalformed s' a ok)

/-! ## Arrivals -/

/-- An arrival that the graph unit takes; where a page it needs does not translate the datagram stays at the head. -/
def arrival (s : State) (kind : Nat) (f : State → Nat → Context → Datagram → Except GStop State) : State :=
  match headGram s kind with
  | none => s
  | some (s', c, a) => match f s' a.dg.context c a.dg with
    | .ok s => moveOn s a.dg.context
    | .error g => graphStop s a.dg.context c.world g

def control (s : State) (kind : Nat) (f : State → Nat → Context → Datagram → State) : State :=
  arrival s kind fun s ctx c g => .ok (f s ctx c g)

def execData (s : State) : Host.Outcome State Fault Refusal := .next (arrival s 1 takeData)
def execParity (s : State) : Host.Outcome State Fault Refusal := .next (arrival s 2 takeParity)
def execCutPropose (s : State) : Host.Outcome State Fault Refusal := .next (control s 0x10 onPropose)
def execCutAck (s : State) : Host.Outcome State Fault Refusal := .next (control s 0x11 onAck)
def execCutCommit (s : State) : Host.Outcome State Fault Refusal := .next (control s 0x12 onCommit)
def execCommitAck (s : State) : Host.Outcome State Fault Refusal := .next (control s 0x13 onCommitAck)
def execCutAbort (s : State) : Host.Outcome State Fault Refusal := .next (control s 0x14 onAbort)
def execAbortAck (s : State) : Host.Outcome State Fault Refusal := .next (control s 0x15 onAbortAck)
def execHandover (s : State) : Host.Outcome State Fault Refusal := .next (control s 0x20 onHandover)
def execHandoverAck (s : State) : Host.Outcome State Fault Refusal := .next (control s 0x21 onHandoverAck)

/-! ## Pacing and expiry (05 R139) -/

/-- Whether a queued datagram may leave: its deadline has not passed and its edge's rate cap lets it go. -/
def maySend (s : State) (o : OutDatagram) : Bool :=
  match s.ctx? o.ctx with
  | none => false
  | some c => decide (0 < o.rate) && decide (s.ctxNow c < o.expires) && decide ((c.edgeOf o.edge).codec.nextSend ≤ s.micros)

/-- The first datagram of the port that may leave does; its edge then rests for the time its bits take at the cap. -/
def execDatagramSend (port : Fin 4) (s : State) : Host.Outcome State Fault Refusal :=
  .next (match s.ports[port].queue.find? (maySend s) with
    | none => s
    | some o =>
      let rest := ((32 + o.dg.length) * 8 + o.rate - 1) / o.rate
      let s := sendGram { s with ports := s.ports.set port { s.ports[port] with queue := dropFirst (fun x => decide (x = o)) s.ports[port].queue } }
        port o.peer o.dg
      s.modCtx o.ctx fun c => c.modEdge o.edge fun x => { x with codec := { x.codec with nextSend := s.micros + rest } })

/-- A queued datagram whose frame's deadline has passed at the sender. -/
def expired (s : State) (o : OutDatagram) : Bool :=
  match s.ctx? o.ctx with
  | none => true
  | some c => decide ((o.expires : Int) ≤ s.ctxNow c)

def execDatagramExpired (port : Fin 4) (s : State) : Host.Outcome State Fault Refusal :=
  .next (match s.ports[port].queue.find? (expired s) with
    | none => s
    | some o =>
      let s : State := { s with ports := s.ports.set port { s.ports[port] with queue := dropFirst (fun x => decide (x = o)) s.ports[port].queue } }
      s.modCtx o.ctx fun c => c.modEdge o.edge fun x => { x with expired := x.expired + 1 })

end Sys2Proof.Machine
end

