-- ==== Sys2Proof/Machine/Gates.lean ====
section
/-! DEFINITION. Call gates and system registers (07 R208, R209, R212; 16 R306, R313 to R318). -/

namespace Sys2Proof.Machine

open Sys2Proof

/-! ## Posting and waiting (07 R208, R209; 16 R316) -/

/-- The 128 bytes of a gate queue's entry. -/
def gateEntry (ticket q world len : Nat) (msg : List Byte) : List Byte :=
  natLE 8 ticket ++ natLE 8 q ++ natLE 2 world ++ natLE 1 len ++ natLE 45 0 ++ padTo 64 msg

/-- An accepted post: one entry in the serving world's queue, and a ticket of the strand. -/
def postGate (s : State) (e : Env) (server gate : Nat) (x : Gate) (len : Nat) (msg : List Byte) : State × Nat :=
  let t := s.nextId
  let q := x.posted + 1
  let s := { s with
    nextId := t + 1
    tickets := s.tickets.set t { server := server, gate := gate, holder := e.sid, state := .pending } }
  let s := (writeNow s e.die server (x.base + 128 * ((q - 1) % x.depth)) (gateEntry t q e.world len msg) true).1
  let s := s.modWorld server fun w =>
    { w with served := w.served.modify gate fun g => { g with posted := q, pending := g.pending ++ [t] } }
  (s.modStrand e.sid fun st => { st with tickets := st.tickets ++ [t] }, t)

/-- A length of 0 or above 64 is an illegal combination, whatever the guard. -/
def execSgate (g : Guard) (d a b : SReg) (len : BitVec 7) (s : State) :=
  scalarWord g 4 (fun _ _ => if 1 ≤ len.toNat ∧ len.toNat ≤ 64 then none else some .illegalInstr) (fun e s =>
    match strandBytes e s (e.st.rd b).toNat len.toNat with
    | .error x => x
    | .ok (s, msg) =>
      let r := release s e.sid (some .dev)
      if !r.2 then .wait r.1 .retry else
      let s := r.1
      let put (s : State) (v : Int) : Eff := .done (s.modStrand e.sid fun st => st.wr d (BitVec.ofInt 64 v))
      match (s.worlds.get? e.world).bind fun w => w.handles.get? (low32 (e.st.rd a)).toNat with
      | none => put s (-1)
      | some (server, gate) => match (s.worlds.get? server).bind fun w => w.served.get? gate with
        | none => put s (-1)
        | some x =>
          if 8 ≤ e.st.tickets.length ∨ x.depth ≤ x.pending.length then put s (-2)
          else
            let p := postGate s e server gate x len.toNat msg
            put p.1 p.2) s

/-- The ticket is consumed. -/
def consume (s : State) (e : Env) (t : Nat) : State :=
  { s with tickets := s.tickets.erase t }.modStrand e.sid fun st => { st with tickets := st.tickets.filter fun x => x ≠ t }

def sgatewBody (d a b : SReg) (e : Env) (s : State) : Eff :=
  let t := (e.st.rd a).toNat
  let put (s : State) (v : Int) : Eff := .done (s.modStrand e.sid fun st => st.wr d (BitVec.ofInt 64 v))
  if !e.st.tickets.contains t then put s (-1)
  else match (s.tickets.get? t).map Ticket.state with
    | none => put (consume s e t) (-1)
    | some .pending => .wait s (.sgatew d a b)
    | some .closed => put (consume s e t) (-3)
    | some (.replied bs) => match strandWrite e s (e.st.rd b).toNat bs with
      | .error x => x
      | .ok s => put (consume s e t) bs.length

def execSgatew (g : Guard) (d a b : SReg) (s : State) := scalarWord g 4 noCheck (sgatewBody d a b) s

def execSgatewReturn (sid : StrandId) (s : State) : Host.Outcome State Fault Refusal :=
  .next (resumeWord s sid fun _ w => match w with
    | .sgatew d a b => some (4, sgatewBody d a b)
    | _ => none)

/-! ## System registers (16 R313) -/

/-- A write of a system register needs W. -/
def systemWord (g : Guard) (a : SReg) (body : Env → State → W64 → Eff) (s : State) : Host.Outcome State Fault Refusal :=
  scalarWord g 4 noCheck (fun e s => if e.priv then body e s (e.st.rd a) else .fault s { code := .access }) s

/-- An index that R313 does not assign. -/
def execSwrs (g : Guard) (a : SReg) (_idx : BitVec 12) (s : State) :=
  systemWord g a (fun _ s _ => .fault s { code := .illegalOperand }) s

/-- Copies of a world's descriptors leave every TLB: those of one index, or all (16 R314). -/
def dropDescs (s : State) (world : Nat) (p : TlbEntry → Bool) : State :=
  { s with xlat := { s.xlat with tlb := s.xlat.tlb.filter fun t => !(t.world == world && p t) } }

/-- The buffered stores of a world's strands are performed as far as they may be: the world's earlier stores to its table
(16 R314). -/
def drainWorld (s : State) (world : Nat) : State :=
  (s.strands.map Prod.fst).foldl (fun s k => match s.env? k with
    | some e => if e.world = world then drain s k else s
    | none => s) s

/-- The base of the world's descriptor table; it takes effect as `fdtsync` of every entry. -/
def execFdtb (g : Guard) (a : SReg) (s : State) :=
  systemWord g a (fun e s v =>
    if v.toNat % 8192 ≠ 0 then .fault s { code := .illegalOperand } else
    let r := release s e.sid (some .dev)
    if !r.2 then .wait r.1 .retry else
    let s := (drainWorld r.1 e.world).modWorld e.world fun w => { w with fdtb := some v.toNat }
    .wait s (.fdtsync 256 s.nextId)) s

def execFdtsync (g : Guard) (a : SReg) (s : State) :=
  systemWord g a (fun e s v =>
    if 256 < v.toNat then .fault s { code := .illegalOperand } else
    let r := release s e.sid (some .dev)
    if !r.2 then .wait r.1 .retry else
    .wait (drainWorld r.1 e.world) (.fdtsync v.toNat r.1.nextId)) s

/-- Whether a strand of the world on a core still holds a store from before a point in the order of the machine's numbers. -/
def storesHeld (s : State) (world before : Nat) : Bool :=
  s.strands.any fun p => (p.2.stores.any fun x => decide (x.id < before)) && (match s.env? p.1 with
    | some e => e.world == world && e.wg.parked.isNone
    | none => false)

/-- The world's earlier stores are released at `.dev`, whichever strand made them; then the named descriptors leave every TLB, so
that none holds a copy read before, and the word ends (16 R314; log 111). -/
def fdtsyncBody (index before : Nat) (e : Env) (s : State) : Eff :=
  let s := drainWorld s e.world
  if storesHeld s e.world before then .wait s (.fdtsync index before)
  else .done (dropDescs (publish s) e.world fun t => index == 256 || t.index == index)

def execFdtsyncComplete (sid : StrandId) (s : State) : Host.Outcome State Fault Refusal :=
  .next (resumeWord s sid fun _ w => match w with
    | .fdtsync index before => some (4, fdtsyncBody index before)
    | _ => none)

/-! ## Gates of a serving world (16 R315, R317, R318) -/

/-- A registration: its status, the order of the tests being the model's (log 29). -/
def registerGate (s : State) (server : Nat) (bs : List Byte) : State :=
  let client := fieldNat bs 12 2
  let handle := fieldNat bs 14 1
  let gate := fieldNat bs 16 4
  match s.worlds.get? client with
  | none => s.tell server (.gate gate 2)
  | some c =>
    if !c.alive then s.tell server (.gate gate 2)
    else if (c.handles.get? handle).isSome then s.tell server (.gate gate 1)
    else if ((s.worlds.get? server).bind fun w => w.served.get? gate).isSome then s.tell server (.gate gate 3)
    else
      let s := s.modWorld client fun w => { w with handles := w.handles.set handle (server, gate) }
      let x : Gate :=
        { client := client, handle := handle, base := fieldNat bs 0 8, depth := fieldNat bs 8 4, posted := 0, pending := [] }
      let s := s.modWorld server fun w => { w with served := w.served.set gate x }
      (s.tell server (.gate gate 0)).tell client (.gateOpened handle server)

/-- The fields of a registration that R315 gives a range; reserved bytes are ignored (00 R4). -/
def gateRecordOk (bs : List Byte) : Bool :=
  fieldNat bs 0 8 % 128 == 0 && decide (1 ≤ fieldNat bs 8 4) && decide (fieldNat bs 8 4 ≤ 256)
    && decide (fieldNat bs 12 2 < 1024) && decide (fieldNat bs 16 4 < 256)

def execGatereg (g : Guard) (a : SReg) (s : State) :=
  systemWord g a (fun e s v =>
    if v.toNat % 64 ≠ 0 then .fault s { code := .illegalOperand } else
    match strandBytes e s v.toNat 64 with
    | .error x => x
    | .ok (s, bs) =>
      if !gateRecordOk bs then .fault s { code := .illegalOperand } else .done (registerGate s e.world bs)) s

/-- A gate closes: the client's handle goes and every pending ticket completes with −3. -/
def closeGate (s : State) (server gate : Nat) : State :=
  match (s.worlds.get? server).bind fun w => w.served.get? gate with
  | none => s
  | some x =>
    let s := s.modWorld x.client fun w => { w with handles := w.handles.erase x.handle }
    let s := s.modWorld server fun w => { w with served := w.served.erase gate }
    x.pending.foldl (fun (s : State) t => { s with tickets := s.tickets.modify t fun k => { k with state := .closed } }) s

def execGateclose (g : Guard) (a : SReg) (s : State) :=
  systemWord g a (fun e s v =>
    let n := v.toNat % 256
    if 512 ≤ v.toNat then .fault s { code := .illegalOperand }
    else if v.toNat < 256 then .done (closeGate s e.world n)
    else match (s.worlds.get? e.world).bind fun w => w.handles.get? n with
      | some (server, gate) => .done (closeGate s server gate)
      | none => .done s) s

/-- The reply goes to the ticket; one that its holder has abandoned is discarded (07 R181). -/
def replyTicket (s : State) (server gate t : Nat) (k : Ticket) (bs : List Byte) : State :=
  let s := s.modWorld server fun w =>
    { w with served := w.served.modify gate fun g => { g with pending := g.pending.filter fun x => x ≠ t } }
  let held := match s.strands.get? k.holder with
    | some st => st.tickets.contains t
    | none => false
  if held then { s with tickets := s.tickets.set t { k with state := .replied bs } }
  else { s with tickets := s.tickets.erase t }

def execGatereply (g : Guard) (a : SReg) (s : State) :=
  systemWord g a (fun e s v =>
    if v.toNat % 128 ≠ 0 then .fault s { code := .illegalOperand } else
    match strandBytes e s v.toNat 128 with
    | .error x => x
    | .ok (s, bs) =>
      let r := release s e.sid (some .dev)
      if !r.2 then .wait r.1 .retry else
      let s := r.1
      let t := fieldNat bs 0 8
      let gate := fieldNat bs 8 4
      let len := fieldNat bs 12 1
      let pending := match (s.worlds.get? e.world).bind fun w => w.served.get? gate with
        | some x => x.pending.contains t
        | none => false
      match s.tickets.get? t with
      | none => .fault s { code := .illegalOperand }
      | some k =>
        if !pending || decide (64 < len) then .fault s { code := .illegalOperand }
        else .done (replyTicket s e.world gate t k ((bs.drop 64).take len))) s

def execDebugen (g : Guard) (a : SReg) (s : State) :=
  systemWord g a (fun e s v =>
    if 1 < v.toNat then .fault s { code := .illegalOperand }
    else .done (s.modWorld e.world fun w => { w with debugen := decide (v.toNat = 1) })) s

end Sys2Proof.Machine
end

