-- ==== Sys2Proof/Machine/Faults.lean ====
section
/-! DEFINITION. The translation control block and the fault queue seen from the management core: walks, INVAL, RESOLVE,
QRESTART, world translation records, and words that do not decode (06 R158, R160, R168; 18 R340 to R348). -/

namespace Sys2Proof.Machine

open Sys2Proof

/-! ## Walks (18 R340 to R343) -/

/-- The walks a die has in progress, of those that wait in arrival order: at most 64, and a world goes beyond 16 only where no
other world's miss is left waiting (18 R343). -/
def inProgress (l : List Walk) : List Walk :=
  let mine (acc : List Walk) (w : Walk) : Nat := acc.countP fun x => x.world == w.world
  let r := l.foldl (fun (acc : List Walk × List Walk) w =>
    if 64 ≤ acc.1.length ∨ 16 ≤ mine acc.1 w then (acc.1, acc.2 ++ [w]) else (acc.1 ++ [w], acc.2)) (([], []) : List Walk × List Walk)
  match r.2 with
  | [] => r.1
  | w :: more => if more.all fun x => x.world == w.world then r.1 ++ r.2.take (64 - r.1.length) else r.1

/-- A walk that found a fault leaves it with the access that asked (18 R350). -/
def leaveFault (s : State) (w : Walk) (c : Code) : State :=
  let f : WalkFault := ⟨w.va / 65536, w.access, c⟩
  match w.asker with
  | .scalar sid => s.modStrand sid fun st => { st with scalarWalkFaults := f :: st.scalarWalkFaults }
  | .vector sid => s.modStrand sid fun st => { st with vectorWalkFaults := f :: st.vectorWalkFaults }
  | .copy c q n => modCopyCmd s c q n fun k => { k with walkFaults := f :: k.walkFaults }
  | .coll d n => modCollCmd s d n fun k => { k with walkFaults := f :: k.walkFaults }

/-- A translation enters the asking TLB and the die's L2 TLB, with the descriptor found with it (03 R78). -/
def keepTranslation (s : State) (w : Walk) (pa log2 : Nat) (u x wr r : Bool) (index : Nat) : State :=
  let d := readDesc s w.die w.world index
  let e : TlbEntry :=
    { site := w.site, world := w.world, page := w.va / 2 ^ log2, log2 := log2, pa := pa, u := u, x := x, w := wr, r := r,
      index := index, fmt := d.2 }
  { d.1 with xlat := { d.1.xlat with tlb := tlbInsert (tlbInsert d.1.xlat.tlb { e with site := .l2 w.die }) e } }

/-- One walk of a die ends: in any order among those in progress. -/
def execPageWalk (die : Fin 4) (s : State) : Host.Outcome State Fault Refusal :=
  .next (
    let l := inProgress (s.xlat.walks.filter fun w => decide (w.die = die))
    match l[Config.pick (2 ^ 80 * (s.ticks + 1) + die.val) % l.length]? with
    | none => s
    | some w =>
      let s : State := { s with xlat := { s.xlat with walks := s.xlat.walks.filter fun x => decide (x ≠ w) } }
      match walk s die w.world w.va w.access w.priv with
      | (s, .ok pa log2 u x wr r index) => keepTranslation s w pa log2 u x wr r index
      | (s, .bad c) => leaveFault s w c)

/-! ## Invalidation (18 R342, R345) -/

/-- Whether two ranges of virtual addresses meet. -/
def meets (a alog b blog : Nat) : Bool :=
  let m := max alog blog
  a / 2 ^ m == b / 2 ^ m

def Inval.covers (i : Inval) (va : Nat) : Bool := va / 2 ^ i.log2 == i.va / 2 ^ i.log2

/-- The range leaves every TLB and walk cache; a table entry covers all that it leads to. -/
def dropRange (s : State) (i : Inval) : State :=
  { s with xlat := { s.xlat with
      tlb := s.xlat.tlb.filter fun t => !(t.world == i.world && meets (t.page * 2 ^ t.log2) t.log2 i.va i.log2)
      pwc := s.xlat.pwc.filter fun t =>
        !(t.world == i.world && meets (t.tag * 2 ^ levelShift t.level) (levelShift t.level) i.va i.log2) } }

/-- Faults that walks found in the range and that are not raised yet go: their accesses are translated anew. -/
def forgetFaults (s : State) (i : Inval) : State :=
  let keep (l : List WalkFault) : List WalkFault := l.filter fun f => !i.covers (f.page * 65536)
  let strands : Assoc StrandId Strand := s.strands.map fun p =>
    match s.env? p.1 with
    | some e => if e.world = i.world then
        (p.1, { p.2 with scalarWalkFaults := keep p.2.scalarWalkFaults, vectorWalkFaults := keep p.2.vectorWalkFaults }) else p
    | none => p
  let copyQs : Assoc (CoreId × Fin 4) CopyQueue := s.copyQs.map fun p =>
    (p.1, { p.2 with cmds := p.2.cmds.map fun k => if k.world = i.world then { k with walkFaults := keep k.walkFaults } else k })
  let one (q : CollQueue) : CollQueue :=
    { q with cmds := q.cmds.map fun k => if k.world = i.world then { k with walkFaults := keep k.walkFaults } else k }
  let collQs := vmap one s.collQs
  { s with strands := strands, copyQs := copyQs, collQs := collQs }

/-- Whether an agent stands still for a record. -/
def standsFor (s : State) (r : FaultRec) : Bool :=
  let strand (x : Option Stop) : Bool := match x with
    | some (.page n _) | some (.trap n _) => n == r.seq
    | _ => false
  let cmd (x : Option CmdState) : Bool := match x with
    | some (.sleeping n _) => n == r.seq
    | _ => false
  match r.agent with
  | .scalar sid => strand ((s.strands.get? sid).bind Strand.scalarStop)
  | .vector sid => strand ((s.strands.get? sid).bind Strand.vectorStop)
  | .copy c q n => cmd (((s.copyQ c q).cmds.find? fun k => k.num = n).map CopyCmd.state)
  | .matrix w id => cmd (((s.wgs.get? w).bind fun g => g.matrix.cmds.find? fun k => k.id = id).map MatCmd.state)
  | .coll d n => cmd ((s.collQs[d].cmds.find? fun k => k.num = n).map CollCmd.state)
  | .graphUnit .. => decide (r.pages ≠ [])
  | .launch _ => false

/-- The graph unit goes on with what it was doing for a context. -/
def wakeUnit (s : State) (a : Agent) : State :=
  match a with
  | .graphUnit ctx _ => moveOn (freeLaunches (advanceAll s ctx) ctx) ctx
  | _ => s

/-- Whether an access sleeps on PAGE at an address of the range, in any of its lanes. -/
def Inval.replays (i : Inval) (r : FaultRec) : Bool :=
  r.waiting && decide (r.code = .page) && (i.covers r.address || r.pages.any i.covers)

/-- Every access of the world that sleeps on PAGE in the range is replayed (18 R345). A record that is written keeps its entry
(R348); one that still waits for an entry is dropped (DEDUCED, log 142). -/
def replayRange (s : State) (i : Inval) : State :=
  match s.worlds.get? i.world with
  | none => s
  | some w =>
    let hit := (w.records.filter fun r => r.occupied && i.replays r) ++ w.unwritten.filter i.replays
    let go := hit.filter fun r => if w.records.contains r then standsFor s r else standsHeld s r.agent
    let s := s.modWorld i.world fun w => { w with
      records := w.records.map fun r => if i.replays r then { r with pages := [] } else r
      unwritten := w.unwritten.filter fun r => !i.replays r }
    (go.map FaultRec.agent).foldl (fun s a => wakeUnit (wakeAgent s a) a) s

/-- The INVAL under way completes, if there is one. A walk is one step of this model, so none is in progress between steps
(18 R342). -/
def finishInval (s : State) : State :=
  match s.xlat.inval with
  | none => s
  | some i =>
    let s := replayRange (forgetFaults (dropRange s i) i) i
    { s with xlat := { s.xlat with inval := none } }.tell 0 (.invalDone i.world)

def execInvalComplete (s : State) : Host.Outcome State Fault Refusal := .next (finishInval s)

/-- An operation of the control block: each completes before the next one starts (18 R345). -/
def startInval (s : State) (world va log2 : Nat) : State :=
  let s := finishInval s
  { s with xlat := { s.xlat with inval := some ⟨world, va, log2⟩ } }

def execInval (world va log2 : Nat) (s : State) : Host.Outcome State Fault Refusal :=
  .next (if 16 ≤ log2 ∧ log2 ≤ 57 then startInval s world va log2 else s)

def execInvalall (world : Nat) (s : State) : Host.Outcome State Fault Refusal := .next (startInval s world 0 57)

/-! ## RESOLVE (18 R348) -/

/-- The graph unit goes on once a record of its that awaits nothing has been written: past the access, or past the launch that was
refused (18 R348). -/
def unitReported (s : State) (r : FaultRec) : State :=
  match r.agent with
  | .graphUnit ctx node =>
    let s := if r.waiting then s
      else s.modCtx ctx fun c => c.modNode node fun k =>
        if r.code = .graph then { k with told := true } else { k with given := k.given ++ [r.address / 65536] }
    wakeUnit s r.agent
  | _ => s

/-- The entry of a record is freed, and the oldest record that waits for one is written. -/
def release1 (s : State) (world seq : Nat) : State :=
  let s := freeRec s world seq
  let t := sweep (fileHeld s world)
  match nextHeld s world with
  | some r => unitReported t r
  | none => t

/-- What remains once a record is resolved: its entry is free, and the graph unit's work goes on. -/
def resolved (s : State) (world seq : Nat) (a : Agent) : State := wakeUnit (release1 s world seq) a

/-- The access at which the graph unit sleeps is given up (18 R348; DESIGN CHOICE, log 141). -/
def giveUp (s : State) (r : FaultRec) : State :=
  match r.agent with
  | .graphUnit ctx node => s.modCtx ctx fun c => c.modNode node fun k => { k with given := k.given ++ r.pages.map fun p => p / 65536 }
  | _ => s

/-- RESUME: the access is replayed from its checkpoint or its chunk. An agent that an INVAL has replayed runs already. -/
def execResolveResume (world seq : Nat) (s : State) : Host.Outcome State Fault Refusal :=
  .next (let s := finishInval s
    match record? s world seq with
    | none => s
    | some r =>
      if !r.waiting || decide (r.code ≠ .page) then s
      else resolved (if standsFor s r then wakeAgent s r.agent else s) world seq r.agent)

/-- END: the strand ends, or the command is abandoned and its queue halts. -/
def execResolveEnd (world seq : Nat) (s : State) : Host.Outcome State Fault Refusal :=
  .next (let s := finishInval s
    match record? s world seq with
    | none => s
    | some r =>
      if !r.waiting then s
      else resolved (if standsFor s r then giveUp (sweep (endAgent s r.agent)) r else s) world seq r.agent)

/-- NEXT: a trapped strand goes on at `NextPC`. -/
def execResolveNext (world seq : Nat) (s : State) : Host.Outcome State Fault Refusal :=
  .next (let s := finishInval s
    match record? s world seq with
    | none => s
    | some r =>
      if !r.waiting || decide (r.code ≠ .trap) then s
      else
        let s := match r.agent with
          | .scalar sid => if standsFor s r then (wakeAgent s r.agent).modStrand sid fun st => st.next r.address s.cycle else s
          | _ => s
        release1 s world seq)

/-- ACK: the entry of a record that awaits nothing is freed. -/
def execResolveAck (world seq : Nat) (s : State) : Host.Outcome State Fault Refusal :=
  .next (let s := finishInval s
    match record? s world seq with
    | none => s
    | some r => if r.waiting then s else release1 s world seq)

/-! ## QRESTART (09 R243, 18 R345) -/

/-- The abandoned command of the world goes, its number reached, and the queue runs again. -/
def execQrestart (world : Nat) (q : QueueKey) (s : State) : Host.Outcome State Fault Refusal :=
  .next (let s := finishInval s
    match q with
    | .copy c n =>
      let x := s.copyQ c n
      match x.cmds.find? fun k => k.world == world && decide (k.state = .abandoned) with
      | some k =>
        if !x.halted then s else
        let s := s.setCopyQ c n { x with halted := false, cmds := x.cmds.filter fun y => y.num ≠ k.num }
        s.modWg k.sid.wg fun g =>
          { g with matrix := { g.matrix with cmds := g.matrix.cmds.filter fun m => m.copy ≠ some (c, n, k.num) } }
      | none => s
    | .matrix w => match s.wgs.get? w with
      | some g =>
        if g.matrix.halted && g.matrix.cmds.any fun m => m.world == world && m.num.isSome && decide (m.state = .abandoned) then
          s.modWg w fun g =>
            { g with matrix := { g.matrix with halted := false
                                               cmds := g.matrix.cmds.filter fun m => !(m.num.isSome && decide (m.state = .abandoned)) } }
        else s
      | none => s
    | .coll d =>
      let x := s.collQs[d]
      if x.halted && x.cmds.any fun k => k.world == world && decide (k.state = .abandoned) then
        s.setCollQ d { x with halted := false, cmds := x.cmds.filter fun k => k.state ≠ .abandoned }
      else s
    | .launch .. | .raster .. => s)

/-! ## World translation records (18 R344) -/

def powerOfTwo (n : Nat) : Bool := (List.range 17).any fun k => n == 2 ^ k

/-- A record that breaks a field's rule is not written (DEDUCED, log 52). -/
def execWorldTranslationRecord (world : Nat) (root queueBase : W64) (depth : Nat) (s : State) : Host.Outcome State Fault Refusal :=
  .next (
    let ok := root.toNat % 4096 / 2 == 0 && queueBase.toNat % 4096 == 0 && powerOfTwo depth && decide (16 ≤ depth)
    if !ok then s else
    s.modWorld world fun w =>
      { w with valid := root.getLsbD 0, root := root.toNat / 4096 * 4096, queueBase := queueBase.toNat, depth := depth })

/-! ## Words that do not decode (06 R158, R160, R168) -/

def execUnassignedMajor (_w : W32) (s : State) : Host.Outcome State Fault Refusal :=
  match s.cur with
  | some (.scalar sid) => match s.env? sid with
    | some e => .next (faultScalar s e { code := .illegalInstr })
    | none => .fault .noActor
  | _ => .fault .noActor

def execUnassignedVectorOpcode (w : BitVec 96) (s : State) : Host.Outcome State Fault Refusal :=
  match s.cur with
  | some (.vector sid slot) => match s.env? sid with
    | some e => match e.st.slots[slot], e.st.laneQ with
      | some sp, blk :: _ => .next (VCtx.faults ⟨e, slot, sp, blk, 0, bareWord w.toNat⟩ s { code := .illegalInstr })
      | _, _ => .fault .noActor
    | none => .fault .noActor
  | _ => .fault .noActor

end Sys2Proof.Machine
end

