-- ==== Sys2Proof/Machine/Links.lean ====
section
/-! DEFINITION. The hub's access firewall, remote memory access and fabric links (19 R353 to R360). -/

namespace Sys2Proof.Machine

open Sys2Proof

/-! ## The access firewall (19 R354) -/

/-- Whether a port's windows let a request of a partition through: its range within one window, with the permission, and for
a request of a world, that world's window. -/
def firewallLets (s : State) (port : Fin 6) (part : Fin 4) (world : Option Nat) (pa n : Nat) (write : Bool) : Bool :=
  s.hub.firewall[port].any fun p =>
    let w := p.2
    decide (p.1.1 = part) && decide (w.base ≤ pa) && decide (pa + n ≤ w.base + w.length)
      && (match world with | some x => w.world == x | none => true) && (if write then w.write else w.read)

/-- A request that no window allows is discarded: the port's violation count rises and world 0 is told. -/
def violate (s : State) (port : Fin 6) : State :=
  { s with hub := { s.hub with violations := s.hub.violations.set port (s.hub.violations[port] + 1) } }.tell 0 (.firewall port.val)

/-- A packet that fails its cipher check is discarded and counted (19 R353). -/
def badCipher (s : State) (port : Fin 6) : State :=
  { s with hub := { s.hub with cipherFails := s.hub.cipherFails.set port (s.hub.cipherFails[port] + 1) } }

def execFirewallWindowWrite (s : State) : Host.Outcome State Fault Refusal :=
  .next (match takeInput s fun x => match x with | .firewall p d i w => some (p, d, i, w) | _ => none with
    | none => s
    | some (s, port, part, i, w) =>
      let l := s.hub.firewall[port]
      let k := (leadOf s part, i.val)
      let l' := match w with
        | some x => l.set k x
        | none => l.erase k
      { s with hub := { s.hub with firewall := s.hub.firewall.set port l' } })

/-- Where an inbound request reaches memory: at its own address, or for a CXL.mem request of the host's port within the window
that the host manages (19 R353; log 138). -/
def inboundAddr (s : State) (r : Inbound) (n : Nat) : Option Nat :=
  if !r.hdm then some r.addr
  else if r.port ≠ 0 then none
  else s.hub.hdm.bind fun h => if r.addr + n ≤ h.2 then some (h.1 + r.addr) else none

/-- An inbound request at a physical address of a partition's memory: a write is performed, a read is answered. One beyond the
memory is discarded like one that no window allows (00 R2; DESIGN CHOICE, log 58). -/
def execInboundRequest (s : State) : Host.Outcome State Fault Refusal :=
  .next (match takeInput s fun x => match x with | .inbound r ok => some (r, ok) | _ => none with
    | none => s
    | some (s, r, ok) =>
      let n := if r.write then r.data.length else r.length
      if !ok then badCipher s r.port else
      match inboundAddr s r n with
      | none => violate s r.port
      | some addr =>
      if !firewallLets s r.port (leadOf s r.part) none addr n r.write || decide (s.memSize r.part < addr + n) then violate s r.port
      else if r.write then s.performAt r.part 0 (s.memBase r.part + addr) r.data
      else
        let q := s.readL2 r.part 0 (s.memBase r.part + addr) n
        { q.1 with hub := { q.1.hub with replies := q.1.hub.replies ++ [(r.port, q.2)] } })

/-! ## Regions and keys (19 R356, R360) -/

/-- A fresh check value that differs from the entry's old one (19 R356; log 12). -/
def freshCheck (s : State) (old : Option Region) : W32 :=
  let c := Config.keyCheck s.ticks
  match old with
  | some r => if c = r.check then c + 1 else c
  | none => c

/-- A window entry is written by the same event as a region entry (19 R357; DESIGN CHOICE, log 99). -/
def writeWindow (s : State) : State :=
  match takeInput s fun x => match x with | .window i w => some (i, w) | _ => none with
  | none => s
  | some (s, i, w) =>
    let l := match w with
      | some x => s.rma.windows.set i.val x
      | none => s.rma.windows.erase i.val
    { s with rma := { s.rma with windows := l } }

/-- The monitor writes an entry that no key uses, or a window entry. -/
def execRegionEntryWrite (s : State) : Host.Outcome State Fault Refusal :=
  .next (match takeInput s fun x => match x with | .region h r => some (h, r) | _ => none with
    | none => writeWindow s
    | some (s, h, r) =>
      let old := s.rma.regions.get? h
      let free := match old with | some o => o.state == 0 | none => true
      if free && decide (h < 65536) && r.base % 65536 == 0 && r.length % 65536 == 0 && decide (r.world < 1024) then
        { s with rma := { s.rma with regions := s.rma.regions.set h { r with check := freshCheck s old, state := 1 } } }
      else s)

def InMessage.full (m : InMessage) : Bool := m.refused || decide (m.packets ≤ m.got.length)

/-- The sendings of a message take 50 µs, doubled each time, eight times: 12,750 µs; one that is incomplete after that has
failed (19 R357; at the target, counted from its first packet, log 54). -/
def sendWindow : Nat := 12750 * Config.cyclesPerMicro

def InMessage.failed (m : InMessage) (cycle : Nat) : Bool := !m.full && decide (m.since + sendWindow ≤ cycle)

/-- A draining key whose admitted messages have completed or failed becomes INVALID. -/
def settleKey (s : State) (h : Nat) : State :=
  match s.rma.regions.get? h with
  | some r =>
    if r.state = 2 ∧ s.rma.inn.all (fun m => m.handle != h || m.full || m.failed s.cycle) then
      { s with rma := { s.rma with regions := s.rma.regions.set h { r with state := 0 } } }.tell r.world (.revoked h)
    else s
  | none => s

/-- The monitor revokes a key. -/
def execKeyRevocation (handle : Nat) (s : State) : Host.Outcome State Fault Refusal :=
  .next (
    let s : State := match s.rma.regions.get? handle with
      | some r => if r.state = 1 then
          { s with rma := { s.rma with regions := s.rma.regions.set handle { r with state := 2 } } } else s
      | none => s
    settleKey s handle)

/-! ## Messages of this device (19 R357) -/

/-- The sender as its events name it: world, launch and strand are one number of the model. -/
def senderNum : Option StrandId → Nat
  | some sid => sid.wg * 32 + sid.strand.val
  | none => 0

def execRmaAcknowledgement (s : State) : Host.Outcome State Fault Refusal :=
  .next (match takeInput s fun x => match x with | .rmaAck a ok => some (a, ok) | _ => none with
    | none => s
    | some (s, a, ok) =>
      if !ok then badCipher s (Fin.ofNat 6 a.port) else
      let s := noteGot s a.port a.peer
      match s.rma.out.find? fun m => m.num = a.message with
      | none => s
      | some m => match a.refused with
        | some off => (finishOut s m .refused).tell m.world (.rmaViolation m.window.handle m.window.check off)
        | none =>
          let acked := (m.acked ++ a.got.filter fun i => decide (i < m.parts.length) && !m.acked.contains i).eraseDups
          let one (x : OutMessage) : OutMessage := if x.num = a.message then { x with acked := acked } else x
          settleOut { s with rma := { s.rma with out := s.rma.out.map one } } a.message)

/-- Missing packets are sent again after 50 µs, then twice as long each time, up to 8 sendings; then the message fails. -/
def execRmaResend (message : Nat) (s : State) : Host.Outcome State Fault Refusal :=
  .next (match s.rma.out.find? fun m => m.num = message with
    | none => s
    | some m =>
      if s.cycle < m.sentAt + m.wait then s
      else if 8 ≤ m.sendings then
        (finishOut s m .failed).tell m.world (.rmaFailed (senderNum m.sender) m.seq m.window.handle m.window.check)
      else
        let missing := ((List.range m.parts.length).filter fun i => !m.acked.contains i).filterMap fun i => m.parts[i]?
        let one (x : OutMessage) : OutMessage :=
          if x.num = message then { x with sendings := x.sendings + 1, wait := 2 * x.wait, sentAt := s.cycle } else x
        noteSent { s with rma := { s.rma with out := s.rma.out.map one } } m.window.port m.window.peer (m.num + m.sendings * 2 ^ 16) missing)

/-! ## Triggered requests (19 R358) -/

/-- A request leaves as a message of the device, with the counter that its header names. -/
def fire (s : State) (t : Triggered) : State :=
  let p := t.request
  newMessage s t.world none ⟨p.port, p.peer, p.handle, p.check, 0⟩ p.op (packetsOf p.offset p.payload) false p.counter

def counterOf (s : State) (n : Nat) : W64 := s.rma.counters.getD n 0

/-- Whether a request's counter is at or above its threshold. -/
def due (s : State) (t : Triggered) : Bool := decide (t.threshold ≤ (counterOf s t.counter).toNat)

/-- Every request that is due fires, once. -/
def fireDue (s : State) : State :=
  let go := s.rma.triggered.filter (due s)
  go.foldl fire { s with rma := { s.rma with triggered := s.rma.triggered.filter fun t => !due s t } }

def execTriggeredRequestPost (s : State) : Host.Outcome State Fault Refusal :=
  .next (match takeInput s fun x => match x with | .trigger t => some t | _ => none with
    | none => s
    | some (s, t) =>
      if 16384 ≤ t.counter then s
      else fireDue { s with rma := { s.rma with triggered := s.rma.triggered ++ [t] } })

/-- A complete message that names a counter adds 1 to it. -/
def countArrival (s : State) (c : Option Nat) : State :=
  match c with
  | some n => if 16384 ≤ n then s
    else fireDue { s with rma := { s.rma with counters := s.rma.counters.set n (counterOf s n + 1) } }
  | none => s

/-! ## Arrivals (19 R357, R359) -/

def sameMessage (p : RmaPacket) (m : InMessage) : Bool := m.peer == p.peer && m.sender == p.sender && m.num == p.message

/-- What this device returns for a packet, which leaves as a packet of the peer's flow or link (19 R353). -/
def answer (s : State) (p : RmaPacket) (got : List Nat) (refused : Option Nat) (data : List Byte) : State :=
  noteSent { s with rma := { s.rma with answers := s.rma.answers ++ [⟨p.port, p.peer, p.message, got, refused, data⟩] } }
    p.port p.peer (2 ^ 31 + s.rma.answers.length) [(p.offset, data)]

def modIn (s : State) (p : RmaPacket) (f : InMessage → InMessage) : State :=
  { s with rma := { s.rma with inn := s.rma.inn.map fun m => if sameMessage p m then f m else m } }

/-- The message is known from its first packet on. -/
def noteFirst (s : State) (p : RmaPacket) : State :=
  if s.rma.inn.any (sameMessage p) then s else
  let m : InMessage :=
    { peer := p.peer, sender := p.sender, num := p.message, handle := p.handle, packets := p.packets, got := [],
      counter := p.counter, since := s.cycle, refused := false }
  { s with rma := { s.rma with inn := s.rma.inn ++ [m] } }

/-- Bytes that a packet touches. -/
def pktSize (p : RmaPacket) : Nat := p.payload.length

/-- Whether the key lets a packet in: VALID, or DRAINING for a message admitted before; the check; the range; the permission. -/
def keyLets (s : State) (p : RmaPacket) (admitted : Bool) : Bool :=
  match s.rma.regions.get? p.handle with
  | none => false
  | some r =>
    (r.state == 1 || (r.state == 2 && admitted)) && decide (r.check = p.check) && decide (p.offset + pktSize p ≤ r.length)
      && (match p.op with | .write => r.write | .atomicAdd => r.atomic | .read => r.read)

/-- A refused packet is not placed: a refusal goes back, and the region's world hears of it. -/
def refusePacket (s : State) (p : RmaPacket) : State :=
  let s := modIn (answer (noteFirst s p) p [] (some p.offset) []) p fun m => { m with refused := true }
  match s.rma.regions.get? p.handle with
  | some r => s.tell r.world (.rmaViolation p.handle p.check p.offset)
  | none => s

def accessOf : RmaOp → AccessKind
  | .write => .write | .atomicAdd => .rmw | .read => .read

/-- The port of the firewall that a packet came in at: 1 fabric, 2 to 5 Ethernet. -/
def pktPort (p : RmaPacket) : Fin 6 := Fin.ofNat 6 p.port

/-- The places of a packet's bytes: (physical address, place in the packet, count), one for each 64 KiB page. -/
def placesOf (s : State) (p : RmaPacket) (r : Region) : State × Option (List (Nat × Nat × Nat)) :=
  let va := r.base + p.offset
  (pages va (pktSize p)).foldl (fun acc g => match acc with
    | (s, none) => (s, none)
    | (s, some l) => match translateNow s (s.worldDie r.world) r.world g.1 (accessOf p.op) true with
      | (s, .error _) => (s, none)
      | (s, .ok pa) => if isRemote pa then (s, none) else (s, some (l ++ [(pa, g.1 - va, g.2)]))) (s, some [])

/-- A packet's effect at its places, with what it returns. -/
def effectAt (s : State) (w : Nat) (p : RmaPacket) (l : List (Nat × Nat × Nat)) : State × List Byte :=
  let d := s.worldDie w
  match p.op with
  | .write => (l.foldl (fun s g => s.performAt d w g.1 ((p.payload.drop g.2.1).take g.2.2)) s, [])
  | .atomicAdd => (l.foldl (fun s g =>
      let s := s.homeLine d (lineOf g.1)
      let old := s.mem.home.readNat g.1 g.2.2
      s.performAt d w g.1 (natLE g.2.2 ((old + fieldNat p.payload g.2.1 g.2.2) % 2 ^ (8 * g.2.2)))) s, [])
  | .read => l.foldl (fun acc g => ((acc.1.readL2 d w g.1 g.2.2).1, acc.2 ++ (acc.1.readL2 d w g.1 g.2.2).2)) (s, [])

/-- A packet is placed at its address: translated in the owning world, through the firewall. One whose page does not
translate is lost, and is sent again (log 55). -/
def placePacket (s : State) (p : RmaPacket) (r : Region) : State × Bool :=
  match placesOf s p r with
  | (s, none) => (s, false)
  | (s, some l) =>
    if !l.all fun g => firewallLets s (pktPort p) (leadOf s (s.worldDie r.world)) (some r.world) (g.1 % 2 ^ 52) g.2.2 (decide (p.op ≠ .read)) then
      (violate s (pktPort p), false)
    else
      let q := effectAt s r.world p l
      let s := modIn q.1 p fun m => { m with got := p.index :: m.got }
      let got := match s.rma.inn.find? (sameMessage p) with | some m => m.got | none => []
      (answer s p got none q.2, true)

/-- Whether the message before this one, of the same strand to this device, is over (19 R357; numbers count from 1). -/
def turnOf (s : State) (p : RmaPacket) : Bool :=
  decide (p.message ≤ 1)
    || s.rma.inn.any fun m => m.peer == p.peer && m.sender == p.sender && m.num + 1 == p.message && (m.full || m.failed s.cycle)

/-- The 16 MiB receive buffer of a port: a packet that finds no room is dropped. -/
def holdPacket (s : State) (p : RmaPacket) : State :=
  let mine := s.rma.held.filter fun q => q.port == p.port
  let used := (mine.map pktSize).foldl (· + ·) 0
  if s.rma.held.any (fun q => q.peer == p.peer && q.sender == p.sender && q.message == p.message && q.index == p.index)
      || decide (16 * 2 ^ 20 < used + pktSize p) then s
  else { s with rma := { s.rma with held := s.rma.held ++ [p] } }

/-- A packet whose turn it is: placed, its message perhaps complete. Answers whether the message is over now. -/
def placeTurn (s : State) (p : RmaPacket) (r : Region) (before packets : Nat) (counter : Option Nat) : State × Bool :=
  if !turnOf s p then (holdPacket s p, false)
  else
    let q := placePacket s p r
    if q.2 && decide (packets ≤ before + 1) then (countArrival q.1 counter, true) else (q.1, false)

/-- One packet: refused, answered again, held, or placed. -/
def takePacket (s : State) (p : RmaPacket) : State × Bool :=
  match s.rma.inn.find? (sameMessage p), s.rma.regions.get? p.handle with
  | some m, some r =>
    if m.refused then (answer s p [] (some p.offset) [], false)
    else if m.got.contains p.index || m.full then (answer s p m.got none [], false)
    else if !keyLets s p true then (refusePacket s p, true)
    else placeTurn s p r m.got.length m.packets m.counter
  | none, some r =>
    if !keyLets s p false then (refusePacket s p, true) else placeTurn (noteFirst s p) p r 0 p.packets p.counter
  | _, none => (refusePacket s p, true)

/-- A packet, and once its message is over the held packets of the next one. -/
def takePackets : Nat → State → RmaPacket → State
  | 0, s, p => (takePacket s p).1
  | fuel + 1, s, p =>
    let q := takePacket s p
    if !q.2 then q.1 else
    let next (x : RmaPacket) : Bool := x.peer == p.peer && x.sender == p.sender && x.message == p.message + 1
    let s : State := { q.1 with rma := { q.1.rma with held := q.1.rma.held.filter fun x => !next x } }
    (q.1.rma.held.filter next).foldl (fun s x => takePackets fuel s x) s

def execRmaPacketArrival (s : State) : Host.Outcome State Fault Refusal :=
  .next (match takeInput s fun x => match x with | .rmaPacket p ok => some (p, ok) | _ => none with
    | none => s
    | some (s, p, ok) =>
      if !ok then badCipher s (pktPort p)
      else settleKey (takePackets (s.rma.held.length + 1) (noteGot s p.port p.peer) p) p.handle)

/-! ## Fabric links (19 R353) -/

/-- A link that has sent 2^32 flits since its last rekeying takes a new key. -/
def execFabricRekey (link : Fin 18) (s : State) : Host.Outcome State Fault Refusal :=
  .next (
    if s.hub.flits[link] < 2 ^ 32 then s
    else { s with hub := { s.hub with
      flits := s.hub.flits.set link (s.hub.flits[link] - 2 ^ 32)
      rekeys := s.hub.rekeys.set link (s.hub.rekeys[link] + 1) } })

end Sys2Proof.Machine
end

