-- ==== Sys2Proof/Machine/Worlds.lean ====
section
/-! DEFINITION. Creating and releasing worlds: identifiers, measured images, the release scrub and its receipt, and the frames
a world's tree maps (16 R307, R318; 18 R338; 19 R361, R363, R365). -/

namespace Sys2Proof.Machine

open Sys2Proof

/-! ## Release (19 R365) -/

/-- Nothing of the world runs: no resident or saved workgroup, no command, no launch still to end. -/
def worldIdle (s : State) (world : Nat) : Bool :=
  !(s.wgs.any fun p => !p.2.released && decide (wgWorld s p.2 = some world))
    && !(s.launches.any fun p => p.2.world == world && !launchOver s p.1)
    && !(s.copyQs.any fun q => q.2.cmds.any fun k => k.world == world)
    && !(s.collQs.toList.any fun q => q.cmds.any fun k => k.world == world)

/-- Each gate that the world serves or holds closes (16 R318). -/
def closeGates (s : State) (world : Nat) : State :=
  match s.worlds.get? world with
  | none => s
  | some w =>
    let s := w.served.foldl (fun s p => closeGate s world p.1) s
    w.handles.foldl (fun s p => closeGate s p.2.1 p.2.2) s

/-- Zeros with fresh check bits over frames, at the home and in every die's view, as a write that a watch sees; a page of `bad`
keeps failing. -/
def scrubFrames (s : State) (frames : List (Nat × Nat)) (bad : List Nat) : State :=
  let keep (m : Mem) : Mem := m.filter fun c => !inFrames frames c.1
  let see (w : Watch) : Watch := if inFrames frames (128 * w.line) then { w with wrote := true } else w
  let strands : Assoc StrandId Strand := s.strands.map fun p => (p.1, { p.2 with watch := p.2.watch.map see })
  let m := s.mem
  { s with strands := strands, mem := { m with
      home := keep m.home
      views := vmap keep m.views
      copies := m.copies.filter fun c => !inFrames frames (128 * c.line)
      l1 := m.l1.filter fun x => !inFrames frames (128 * x.line)
      l2 := m.l2.filter fun x => !inFrames frames (128 * x.line)
      stale := m.stale.filter fun p => !inFrames frames (128 * p.2)
      bad := m.bad.filter fun k => !inFrames frames (32 * k) || bad.contains (32 * k / 65536 * 65536)
      retired := m.retired ++ bad.filter fun p => !m.retired.contains p } }

/-- The receipt's bytes: everything before the signature, then the signature (19 R365). The digest's list is every frame's
address and size as 64-bit numbers (log 53). -/
def receipt (world bytes : Nat) (frames : List (Nat × Nat)) (excluded : List Nat) : List Byte :=
  let digest := (Config.shake256 ((frames.map fun f => natLE 8 f.1 ++ natLE 8 (2 ^ f.2)).flatten)).toList
  let body := natLE 4 world ++ natLE 4 (if excluded.isEmpty then 0 else 1) ++ natLE 8 bytes ++ natLE 4 excluded.length
    ++ digest ++ (excluded.map (natLE 8)).flatten
  body ++ (Config.ed448Sign body).toList

/-- Every line tagged with a world leaves every L1 and L2; a reduction copy of it is first combined into its home (R307). -/
def dropTagged (s : State) (world : Nat) : State :=
  let s := (s.mem.copies.filter fun c => c.world == world).foldl (fun (s : State) c => s.onLine c.line fun m => m.combineCopy s.parts c) s
  { s with mem := { s.mem with
      l1 := s.mem.l1.filter fun x => x.world ≠ world
      l2 := s.mem.l2.filter fun x => x.world ≠ world } }

/-- The scrub of a released world: `bad` are the 64 KiB pages of its frames with a sector whose check fails after its rewrite.
Pages retired earlier that its frame list still names appear as exclusions too. -/
def execWorldReleaseScrub (world : Nat) (bad : List Nat) (s : State) : Host.Outcome State Fault Refusal :=
  .next (match s.worlds.get? world with
    | none => s
    | some w =>
      if world = 0 || !w.alive || !worldIdle s world then s
      else
        let s := publish (dropTagged (closeGates s world) world)
        let frames := framesOf s w
        let bad := bad.filter fun p => p % 65536 == 0 && inFrames frames p
        let old := s.mem.retired.filter fun p => inFrames frames p && !bad.contains p
        let bytes := (frames.map fun f => 2 ^ f.2).foldl (· + ·) 0 - 65536 * (bad.length + old.length)
        let s := scrubFrames s frames bad
        let s : State := { s with
          xlat := { s.xlat with
            tlb := s.xlat.tlb.filter fun t => t.world ≠ world
            pwc := s.xlat.pwc.filter fun t => t.world ≠ world
            walks := s.xlat.walks.filter fun t => t.world ≠ world } }
        s.modWorld world fun w =>
          { w with alive := false, valid := false, receipts := w.receipts ++ [receipt world bytes frames (old ++ bad)] })

/-! ## Creation (16 R307; 19 R361, R363) -/

/-- An identifier may be given out: 1 to 1,023, and its previous world is scrubbed, with a receipt, every line tagged with it
gone, and every queue, context and gate bound to it destroyed. -/
def idFree (s : State) (id : Nat) : Bool :=
  decide (1 ≤ id) && decide (id ≤ 1023) && (match s.worlds.get? id with
    | none => true
    | some w => !w.alive && !w.receipts.isEmpty && w.queues.isEmpty && w.handles.isEmpty && w.served.isEmpty)
  && !(s.contexts.any fun c => c.2.world == id) && !(s.mem.l1.any fun x => x.world == id)
  && !(s.mem.l2.any fun x => x.world == id) && !(s.mem.copies.any fun c => c.world == id)
  && s.worlds.all fun p => p.2.served.all fun g => g.2.client != id

/-- One measurement register is extended by a digest (19 R361). -/
def extendMr (s : State) (i : Fin 24) (digest : List Byte) : State :=
  { s with trust := { s.trust with mr := s.trust.mr.set i (Config.shake256 (s.trust.mr[i] ++ digest)).toList } }

/-- The monitor creates a world: its image verified under its owner's key and measured into a register 8 to 23. -/
def execWorldCreate (s : State) : Host.Outcome State Fault Refusal :=
  .next (match takeInput s fun x => match x with | .createWorld p i k r id => some (p, i, k, r, id) | _ => none with
    | none => s
    | some (s, protect, image, key, reg, id) =>
      if decide (s.trust.stage ≠ .running) || !idFree s id || (protect && s.trust.debugOpen)
          || !Config.ed448Verify key image.bytes image.signature then s
      else
        let s := extendMr s (Fin.ofNat 24 (8 + reg.val)) (Config.shake256 image.bytes).toList
        let old := match s.worlds.get? id with | some w => w.receipts | none => []
        { s with worlds := s.worlds.set id { World.empty with protect := protect, register := 8 + reg.val, receipts := old } })

end Sys2Proof.Machine
end

