-- ==== Sys2Proof/Machine/PowerStates.lean ====
section
/-! DEFINITION. Power states, hard partitions and spares (19 R366 to R368). -/

namespace Sys2Proof.Machine

open Sys2Proof

def State.modPower (s : State) (f : Power → Power) : State := { s with power := f s.power }

/-! ## Power states (19 R367) -/

/-- Exit latency in microseconds. -/
def exitMicros : PowerState → Nat
  | .w0 => 0 | .w1 => 2 | .w2 => 40 | .w3 => 600 | .w4 => 30000

/-- W2 or deeper: no resident workgroup and no accepted command. W1 or deeper: no picot line held. -/
def mayEnter (s : State) (p : PowerState) : Bool :=
  let held := s.strands.any fun x => x.2.picot.isSome
  let busy := (s.wgs.any fun x => !x.2.released && x.2.parked.isNone)
    || (s.copyQs.any fun q => !q.2.cmds.isEmpty) || (s.collQs.toList.any fun q => !q.cmds.isEmpty)
    || (s.contexts.any fun c => c.2.raster.any fun q => !q.2.cmds.isEmpty)
    || s.worlds.any fun w => w.2.queues.any fun q => !q.2.pending.isEmpty
  match p with
  | .w0 => true
  | .w1 => !held
  | .w2 | .w3 | .w4 => !held && !busy

/-- The lowest state within the tolerance register that may be entered. -/
def lowest (s : State) : PowerState :=
  ([PowerState.w4, .w3, .w2, .w1].find? fun p => decide (exitMicros p ≤ s.power.tolerance) && mayEnter s p).getD .w0

/-- What a state does not keep: cores' L1 and TLBs in W2, and below it L2 with its TLB and walk caches, written back first. -/
def sleepCaches (s : State) (p : PowerState) : State :=
  let cores (s : State) : State :=
    { s with
      mem := { s.mem with l1 := [] }
      xlat := { s.xlat with tlb := s.xlat.tlb.filter fun e => match e.site with | .l2 _ => true | _ => false } }
  let l2 (s : State) : State :=
    let s := s.mem.copies.foldl (fun (s : State) c => s.onLine c.line fun m => m.combineLine s.parts c.line) s
    let s := publish s
    { s with
      mem := { s.mem with views := Vector.replicate 4 s.mem.home, stale := [], l2 := [] }
      xlat := { s.xlat with tlb := [], pwc := [] } }
  match p with
  | .w0 | .w1 => s
  | .w2 => cores s
  | .w3 | .w4 => l2 (cores s)

/-- The device enters a lower state than it is in; a new value of the host's tolerance register comes first where one waits. -/
def execPowerStateEntry (s : State) : Host.Outcome State Fault Refusal :=
  .next (
    if s.power.exitAt.isSome then s else
    let s := match takeInput s fun x => match x with | .tolerance t => some t | _ => none with
      | some (s, t) => s.modPower fun p => { p with tolerance := t }
      | none => s
    let p := lowest s
    if exitMicros p ≤ exitMicros s.power.state then s
    else (sleepCaches s p).modPower fun x => { x with state := p })

/-- Whether an input starts the exit: every request but one that a low state serves itself. -/
def wakes : Input → Bool
  | .partition _ => false
  | _ => true

/-- A request, a message or a doorbell starts the exit; a doorbell asks for nothing more. -/
def execPowerStateExit (s : State) : Host.Outcome State Fault Refusal :=
  .next (match s.inbox with
    | [] => s
    | x :: rest =>
      let s' : State := if x = .doorbell then { s with inbox := rest } else s
      if s.power.state = .w0 then s'
      else if s.power.exitAt.isSome then s'
      else if wakes x then s'.modPower fun p => { p with exitAt := some (s.cycle + exitMicros p.state * Config.cyclesPerMicro) }
      else s)

def execPowerExitComplete (s : State) : Host.Outcome State Fault Refusal :=
  .next (match s.power.exitAt with
    | none => s
    | some t => if t ≤ s.cycle then s.modPower fun p => { p with state := .w0, exitAt := none } else s)

/-! ## Hard partitions (19 R366) -/

/-- Parts of 1, 2 or 4 whole dies, each die in one part. -/
def partitionOk (parts : List (List (Fin 4))) : Bool :=
  parts.all (fun p => p.length == 1 || p.length == 2 || p.length == 4)
    && (List.finRange 4).all fun d => (parts.map fun p => p.countP fun e => decide (e = d)).foldl (· + ·) 0 == 1

/-- The links between dies of different parts. -/
def closedLinks (parts : List (List (Fin 4))) : List (Fin 4 × Fin 4) :=
  ((List.finRange 4).map fun a => ((List.finRange 4).filter fun b => decide (a < b) && !(partOf parts a).contains b).map fun b => (a, b)).flatten

/-- The partition changes in W4 only; links at its boundaries close, and the map is measured into register 6 (19 R361; log 160). -/
def execHardPartitionChange (s : State) : Host.Outcome State Fault Refusal :=
  .next (match s.inbox with
    | .partition parts :: rest =>
      let s' : State := { s with inbox := rest }
      if s.power.state ≠ .w4 ∨ !partitionOk parts then s'
      else
        extendMr { s'.modPower fun p => { p with parts := parts } with hub := { s.hub with links := closedLinks parts } } 6
          (Config.partsDigest parts).toList
    | _ => s)

/-! ## Spares (19 R368) -/

def spareDie : SpareUnit → Fin 4
  | .core c | .rows c => c.die
  | .l2Way d _ | .lane d _ | .stackRow d _ | .page d _ => d

def spareKind : SpareUnit → Nat
  | .core _ => 0 | .rows _ => 1 | .l2Way .. => 2 | .lane .. => 3 | .stackRow .. => 4 | .page .. => 5

/-- Spares of a kind on a die: four cores (00 R2), and of the others some number of at least one (log 108). -/
def spareSupply (d : Fin 4) (kind : Nat) : Nat := if kind = 0 then 4 else 1 + Config.spareMore d kind

/-- A core that nothing occupies: no resident workgroup, and its copy engine has no command. -/
def coreIdle (s : State) (c : CoreId) : Bool :=
  (resident s c).isEmpty && s.copyQs.all fun q => decide (q.1.1 ≠ c) || q.2.cmds.isEmpty

/-- Whether a live world has a frame in one of these 64 KiB pages of a die's memory. -/
def pagesMapped (s : State) (d : Fin 4) (l : List Nat) : Bool :=
  s.worlds.any fun w => w.2.alive && (framesOf s w.2).any fun f => l.any fun p =>
    let a := s.memBase d + 65536 * p
    decide (f.1 < a + 65536) && decide (a < f.1 + 2 ^ f.2)

/-- Whether nothing occupies the unit that a spare replaces: no workgroup or command of a core, no line in a slice of L2, no
write on its way over a link, no frame of a world in a row or page (log 108). -/
def unitFree (s : State) : SpareUnit → Bool
  | .core c | .rows c => coreIdle s c
  | .l2Way d i => !(s.mem.l2.any fun x => decide (x.die = d) && MemSys.sliceOf x.line == i.val)
  | .lane a b => s.mem.msgs.all fun w =>
      (decide (w.die ≠ a) || w.applied.contains b) && (decide (w.die ≠ b) || w.applied.contains a)
  | .stackRow d r => !pagesMapped s d (Config.rowPages d r)
  | .page d p => !pagesMapped s d [p]

/-- The resident kernel brings a spare in while nothing occupies the unit it replaces, and while the die has one left. A core
with spare register rows advertises REGCAP 120. -/
def execSpareBringIn (unit : SpareUnit) (s : State) : Host.Outcome State Fault Refusal :=
  .next (
    let used := s.spares.used.countP fun u => decide (spareDie u = spareDie unit) && spareKind u == spareKind unit
    if spareSupply (spareDie unit) (spareKind unit) ≤ used || !unitFree s unit then s
    else { s with spares := { used := unit :: s.spares.used } })

end Sys2Proof.Machine
end

