-- ==== Sys2Proof/Machine/ScalarAlu.lean ====
section
/-! DEFINITION. Scalar arithmetic, literals and predicates (07 R182 to R187). -/

namespace Sys2Proof.Machine

open Sys2Proof

/-- A three-register word of major 0x01: `SetS(d, f(S(a), S(b)))`. -/
def aluWord (g : Guard) (d a b : SReg) (f : W64 → W64 → W64) (s : State) : Host.Outcome State Fault Refusal :=
  scalarWord g 4 noCheck (setsReg d fun e _ => f (e.st.rd a) (e.st.rd b)) s

/-- A word of one register source. -/
def unaryWord (g : Guard) (d a : SReg) (f : W64 → W64) (s : State) : Host.Outcome State Fault Refusal :=
  scalarWord g 4 noCheck (setsReg d fun e _ => f (e.st.rd a)) s

/-- A word of a literal: two words long (06 R157). -/
def literalWord (g : Guard) (d : SReg) (f : W64 → W64) (s : State) : Host.Outcome State Fault Refusal :=
  scalarWord g 8 noCheck (setsReg d fun e _ => f (e.st.rd d)) s

/-- A word that writes one predicate from the strand's state. -/
def predWord (g : Guard) (d : PReg) (f : Strand → Bool) (s : State) : Host.Outcome State Fault Refusal :=
  scalarWord g 4 noCheck (fun e s => .done (s.modStrand e.sid fun st => st.wrP d (f e.st))) s

/-! ## The functions of R182 and R183 -/

def mulHigh (x y : W64) : W64 := BitVec.ofInt 64 (x.toInt * y.toInt / 2 ^ 64)
def mulHighW (x y : W64) : W64 := sext32 (BitVec.ofInt 32 ((low32 x).toInt * (low32 y).toInt / 2 ^ 32))

/-- 07 R183: −1 where the divisor is zero; else the quotient truncated toward zero, wrapped. -/
def divW (x y : W64) : W64 :=
  if low32 y = 0 then BitVec.allOnes 64 else sext32 (BitVec.ofInt 32 ((low32 x).toInt.tdiv (low32 y).toInt))

def remW (x y : W64) : W64 :=
  if low32 y = 0 then sext32 (low32 x) else sext32 (BitVec.ofInt 32 ((low32 x).toInt.tmod (low32 y).toInt))

/-- y[5:0]. -/
def shiftAmount (y : W64) : Nat := y.toNat % 64

/-- The number of leading zeros of `n` bits. -/
def clzNat (n v : Nat) : Nat := if v % 2 ^ n = 0 then n else n - 1 - Nat.log2 (v % 2 ^ n)

/-- The number of one bits of `n` bits. -/
def popcNat (n v : Nat) : Nat := (List.range n).countP fun i => bitOf v i

def minU32 (x y : W64) : W64 := sext32 (if (low32 x).toNat ≤ (low32 y).toNat then low32 x else low32 y)
def maxU32 (x y : W64) : W64 := sext32 (if (low32 x).toNat ≤ (low32 y).toNat then low32 y else low32 x)

def execSadd (g : Guard) (d a b : SReg) (s : State) := aluWord g d a b (· + ·) s
def execSsub (g : Guard) (d a b : SReg) (s : State) := aluWord g d a b (· - ·) s
def execSmul (g : Guard) (d a b : SReg) (s : State) := aluWord g d a b (· * ·) s
def execSmulh (g : Guard) (d a b : SReg) (s : State) := aluWord g d a b mulHigh s
def execSmulhw (g : Guard) (d a b : SReg) (s : State) := aluWord g d a b mulHighW s
def execSdivw (g : Guard) (d a b : SReg) (s : State) := aluWord g d a b divW s
def execSremw (g : Guard) (d a b : SReg) (s : State) := aluWord g d a b remW s
def execSand (g : Guard) (d a b : SReg) (s : State) := aluWord g d a b (· &&& ·) s
def execSor (g : Guard) (d a b : SReg) (s : State) := aluWord g d a b (· ||| ·) s
def execSxor (g : Guard) (d a b : SReg) (s : State) := aluWord g d a b (· ^^^ ·) s
def execSshl (g : Guard) (d a b : SReg) (s : State) := aluWord g d a b (fun x y => x <<< shiftAmount y) s
def execSshr (g : Guard) (d a b : SReg) (s : State) := aluWord g d a b (fun x y => x >>> shiftAmount y) s
def execSsra (g : Guard) (d a b : SReg) (s : State) := aluWord g d a b (fun x y => x.sshiftRight (shiftAmount y)) s
def execSmin (g : Guard) (d a b : SReg) (s : State) := aluWord g d a b (fun x y => if x.toInt ≤ y.toInt then x else y) s
def execSmax (g : Guard) (d a b : SReg) (s : State) := aluWord g d a b (fun x y => if x.toInt ≤ y.toInt then y else x) s
def execSminw (g : Guard) (d a b : SReg) (s : State) := aluWord g d a b minU32 s
def execSmaxw (g : Guard) (d a b : SReg) (s : State) := aluWord g d a b maxU32 s

/-- The destination is also the condition, read before it is written. -/
def execSsel (g : Guard) (d a b : SReg) (s : State) :=
  scalarWord g 4 noCheck (setsReg d fun e _ => if e.st.rd d ≠ 0 then e.st.rd a else e.st.rd b) s

def execSclz (g : Guard) (d a : SReg) (s : State) := unaryWord g d a (fun x => BitVec.ofNat 64 (clzNat 64 x.toNat)) s
def execSpopc (g : Guard) (d a : SReg) (s : State) := unaryWord g d a (fun x => BitVec.ofNat 64 (popcNat 64 x.toNat)) s

/-! ## Immediates (07 R184) and literals (07 R185) -/

def execSaddi (g : Guard) (d a : SReg) (imm : BitVec 12) (s : State) := unaryWord g d a (fun x => x + imm.signExtend 64) s
def execSandi (g : Guard) (d a : SReg) (imm : BitVec 12) (s : State) := unaryWord g d a (fun x => x &&& imm.signExtend 64) s
def execSori (g : Guard) (d a : SReg) (imm : BitVec 12) (s : State) := unaryWord g d a (fun x => x ||| imm.signExtend 64) s
def execSxori (g : Guard) (d a : SReg) (imm : BitVec 12) (s : State) := unaryWord g d a (fun x => x ^^^ imm.signExtend 64) s
def execSshli (g : Guard) (d a : SReg) (sh : Fin 64) (s : State) := unaryWord g d a (fun x => x <<< sh.val) s
def execSshri (g : Guard) (d a : SReg) (sh : Fin 64) (s : State) := unaryWord g d a (fun x => x >>> sh.val) s
def execSsrai (g : Guard) (d a : SReg) (sh : Fin 64) (s : State) := unaryWord g d a (fun x => x.sshiftRight sh.val) s

def execSli (g : Guard) (d : SReg) (lit : W32) (s : State) := literalWord g d (fun _ => sext32 lit) s
def execSlih (g : Guard) (d : SReg) (lit : W32) (s : State) := literalWord g d (fun x => join64 (low32 x) lit) s

/-! ## Predicates (07 R186, R187) -/

def execSsetp (g : Guard) (d : PReg) (a b : SReg) (c : Cond) (w : CmpWidth) (s : State) :=
  predWord g d (fun st => scalarCond c w (st.rd a) (st.rd b)) s
def execSpand (g : Guard) (d a b : PReg) (s : State) := predWord g d (fun st => st.rdP a && st.rdP b) s
def execSpor (g : Guard) (d a b : PReg) (s : State) := predWord g d (fun st => st.rdP a || st.rdP b) s
def execSpxor (g : Guard) (d a b : PReg) (s : State) := predWord g d (fun st => st.rdP a != st.rdP b) s
def execSpnot (g : Guard) (d a : PReg) (s : State) := predWord g d (fun st => !st.rdP a) s
def execSpmov (g : Guard) (d a : PReg) (s : State) := predWord g d (fun st => st.rdP a) s

end Sys2Proof.Machine
end

