-- ==== Sys2Proof/Machine/TrustChain.lean ====
section
/-! DEFINITION. Boot, measurement, bundles, the debug lock and the crash dump (19 R361 to R364). -/

namespace Sys2Proof.Machine

open Sys2Proof

def State.modTrust (s : State) (f : Trust → Trust) : State := { s with trust := f s.trust }

def digestOf (bytes : List Byte) : List Byte := (Config.shake256 bytes).toList

/-! ## The boot chain (19 R361) -/

/-- The bundle's one signature verifies under the key in the first stage (19 R362). -/
def bundleOk (key : List Byte) (b : Bundle) : Bool :=
  Config.ed448Verify key (Config.bundleBytes b.version b.minimum b.kernel b.monitor b.firmware) b.signature

/-- Registers 2, 3 and 4 take the bundle's images, and the device runs. A slot not marked good runs for ten minutes (19 R362). -/
def runBundle (s : State) (slot : Fin 2) (b : Bundle) : State :=
  let s := extendMr (extendMr (extendMr s 2 (digestOf b.kernel)) 3 (digestOf b.monitor)) 4 (digestOf b.firmware)
  s.modTrust fun t =>
    { t with stage := .running, active := slot
             trialUntil := if t.slots[slot].good then none else some (s.cycle + 600000000 * Config.cyclesPerMicro) }

/-- The bundle stage: the active slot, else the other one. With neither, the first stage goes on running (log 56). -/
def bundleStage (s : State) (key : List Byte) : State :=
  let try' (slot : Fin 2) : Option Bundle := s.trust.slots[slot].bundle.bind fun b => if bundleOk key b then some b else none
  let a := s.trust.active
  match try' a, try' (1 - a) with
  | some b, _ => runBundle s a b
  | none, some b => runBundle s (1 - a) b
  | none, none => s.modTrust fun t => { t with stage := .first }

/-- The memory that the host manages through CXL.mem: at most 64 GiB (19 R353). -/
def hdmOf (i : BootImages) : Option (Nat × Nat) := i.hdm.filter fun h => decide (h.2 ≤ 2 ^ 36)

/-- Reset starts the chain: the ROM measures itself and the first stage, whose key must match the fused hash of the Malrad
key. -/
def execBoot (s : State) : Host.Outcome State Fault Refusal :=
  .next (match takeInput s fun x => match x with | .bootImages i => some i | _ => none with
    | none => s
    | some (s, i) =>
      if s.trust.stage ≠ .off then s else
      let s := extendMr { s with hub := { s.hub with hdm := hdmOf i } } 0 (digestOf Config.romImage)
      let ok := decide (Config.shake256 i.malradKey = Config.fusedKeyHash)
        && Config.ed448Verify i.malradKey i.firstStage.bytes i.firstStage.signature
      if !ok then s.modTrust fun t => { t with stage := .halted }
      else
        let s := extendMr s 1 (digestOf i.firstStage.bytes)
        let s := extendMr s 5 (Config.fuseDigest s.trust.rollback).toList
        let s := extendMr s 6 (Config.partsDigest s.parts).toList
        bundleStage s (Config.bundleKey i.firstStage.bytes))

/-- The first stage runs, alone or with a bundle. -/
def booted (s : State) : Bool := decide (s.trust.stage = .running) || decide (s.trust.stage = .first)

/-- The first stage's signed answer, which it gives on its own and while a bundle runs: every register as its block, with the
request's nonce (19 R361). -/
def execGetMeasurements (s : State) : Host.Outcome State Fault Refusal :=
  .next (match takeInput s fun x => match x with | .nonce b => some b | _ => none with
    | none => s
    | some (s, nonce) =>
      if !booted s then s else
      let body := s.trust.mr.toList.flatten ++ nonce
      s.modTrust fun t => { t with answers := t.answers ++ [body ++ (Config.ed448Sign body).toList] })

/-! ## Bundles (19 R362) -/

/-- The device starts again: everything as after reset but the fused counter, the slots, retired pages, the spares brought in, the
hard partitions, which change in W4 only (19 R366), what the outside has handed it, and the model's own counters (log 57). -/
def restart (s : State) (active : Fin 2) : State :=
  { State.reset with
    agenda := s.agenda
    inbox := s.inbox
    power := { State.reset.power with parts := s.power.parts }
    hub := { Hub.reset with links := s.hub.links }
    ticks := s.ticks
    nextId := s.nextId
    spares := s.spares
    mem := { MemSys.reset with retired := s.mem.retired }
    trust := { Trust.reset with slots := s.trust.slots, active := active, rollback := s.trust.rollback } }

/-- A new bundle goes to the inactive slot, unless its version is below the fused counter, and the device restarts into it.
A device of which neither slot's bundle verifies takes one too (log 56). -/
def execBundleUpdate (s : State) : Host.Outcome State Fault Refusal :=
  .next (match takeInput s fun x => match x with | .bundle b => some b | _ => none with
    | none => s
    | some (s, b) =>
      if !booted s || decide (b.version < s.trust.rollback) then s
      else
        let n : Fin 2 := 1 - s.trust.active
        restart (s.modTrust fun t => { t with slots := t.slots.set n ⟨some b, false⟩ }) n)

/-- Ten minutes without remote attestation: the device restarts into the previous slot. -/
def execBundleWatchdog (s : State) : Host.Outcome State Fault Refusal :=
  .next (match s.trust.trialUntil with
    | none => s
    | some t => if t ≤ s.cycle then restart s (1 - s.trust.active) else s)

/-- Attestation within the time: the slot is good and the fused counter rises to the bundle's minimum. -/
def execRemoteAttestation (s : State) : Host.Outcome State Fault Refusal :=
  .next (match s.trust.trialUntil with
    | none => s
    | some due => if due ≤ s.cycle then s else s.modTrust fun t =>
      let a := t.active
      { t with
        trialUntil := none
        slots := t.slots.set a { t.slots[a] with good := true }
        rollback := match t.slots[a].bundle with | some b => max t.rollback b.minimum | none => t.rollback })

/-! ## The debug lock (19 R363) -/

/-- The opening is extended into register 7, then the lock opens. -/
def execDebugLockOpen (s : State) : Host.Outcome State Fault Refusal :=
  .next (match takeInput s fun x => match x with | .token t => some t | _ => none with
    | none => s
    | some (s, t) =>
      if s.trust.debugOpen || !Config.tokenOpens Config.deviceIdentity t.bytes t.signature then s
      else (extendMr s 7 (digestOf t.bytes)).modTrust fun t => { t with debugOpen := true })

/-! ## The crash dump (19 R364) -/

/-- Frames of worlds that are protected, or are not. -/
def framesWhere (s : State) (prot : Bool) : List (Nat × Nat) :=
  ((s.worlds.filter fun p => p.2.alive && p.2.protect == prot).map fun p => framesOf s p.2).flatten

/-- The hub's state and the frames of unprotected worlds; of frames that a protected world owns only the count. -/
def execCrashDump (buffer : Nat) (s : State) : Host.Outcome State Fault Refusal :=
  let hidden := framesWhere s true
  let open' := (framesWhere s false).filter fun f => !inFrames hidden f.1 && !(hidden.any fun h => inFrames [f] h.1)
  let d : CrashDump :=
    { buffer := buffer, regs := s.hub.toHubRegs, ports := s.ports, rma := s.rma, trust := s.trust,
      edges := s.contexts.map fun p => (p.1, p.2.edges),
      frames := open'.map fun f => (f.1, f.2, s.mem.home.filter fun c => inFrames [f] c.1), omitted := hidden.length }
  .next { s with hub := { s.hub with crash := some d } }

end Sys2Proof.Machine
end

