-- ==== Sys2Proof/Machine/VectorConvert.lean ====
section
/-! DEFINITION. Vector conversions, packing, and NQ4 (08 R219 to R221; 02 R62, R64). -/

namespace Sys2Proof.Machine

open Sys2Proof

namespace VCtx

def src (c : VCtx) : Ty := c.w.srcTy.getD .w32

/-- The conversion of R219 from the source type to T. -/
def cvt (c : VCtx) (x : Nat) : Nat := convert c.src c.w.ty x c.mode c.sat

end VCtx

def execVcvt (w : VWord) (s : State) := vectorWord 0x30 w (fun c s => c.lanewise s fun l => c.cvt (c.rdA s l)) s

/-- `y` with the element of `n` bits at an index replaced. -/
def replaceElem (y n i x : Nat) : Nat := y / 2 ^ (n * (i + 1)) * 2 ^ (n * (i + 1)) + x % 2 ^ n * 2 ^ (n * i) + y % 2 ^ (n * i)

/-- A packed word is 32 bits whatever T: it is written whole. -/
def execVpack (w : VWord) (s : State) :=
  vectorWord 0x31 w (fun c s => c.setV s .w32 (c.tag) fun l =>
    let x := c.rdA s l
    let y := c.rdB s l
    if c.w.ty.bits = 16 then c.cvt x % 2 ^ 16 + 2 ^ 16 * (c.cvt y % 2 ^ 16)
    else if c.w.ty.bits = 8 then replaceElem y 8 (c.rdC s l % 4) (c.cvt x)
    else replaceElem y 4 (c.rdC s l % 8) x) s

/-- The element of `x` that `y` selects: a half word, a byte or a nibble. -/
def execVunpk (w : VWord) (s : State) :=
  vectorWord 0x32 w (fun c s => c.lanewise s fun l =>
    let n := c.src.bits
    c.cvt (bitsOf (c.rdA s l) (n * (c.rdB s l % (32 / n))) n)) s

def execVqnq4 (w : VWord) (s : State) :=
  vectorWord 0x33 w (fun c s => c.setV s .w32 (c.tag) fun l =>
    nq4Code (decodeF .f32 (c.rdA s l)) (c.rdB s l % 256) (decodeF .f32 (c.rdC s l))) s

/-- The FP32 element, rounded once more to T. -/
def execVdq (w : VWord) (s : State) :=
  vectorWord 0x34 w (fun c s => c.lanewise s fun l =>
    roundF c.fmt (decodeF .f32 (nq4Element (c.rdA s l % 16) (c.rdB s l % 256) (BitVec.ofNat 32 (c.rdC s l)))) c.mode) s

end Sys2Proof.Machine
end

