-- ==== Sys2Proof/Machine/VectorInt.lean ====
section
/-! DEFINITION. Vector integer words, moves and selections (08 R216; 02 R47, R48, R55). -/

namespace Sys2Proof.Machine

open Sys2Proof

/-- The integer that a lane's bits stand for: signed for `.i` types, unsigned for `.w` types. -/
def intVal (t : Ty) (x : Nat) : Int := if t.signed then signedOf t.bits x else (x % 2 ^ t.bits : Nat)

/-- A result of exact integer arithmetic: wrapped, or clamped where the word saturates. -/
def intResult (t : Ty) (sat : Bool) (r : Int) : Nat := wrapInt t.bits (if sat then clampTy t r else r)

namespace VCtx

def unaryI (c : VCtx) (s : State) (f : Nat → Nat) : VEff := c.lanewise s fun l => f (c.rdA s l)

def binaryI (c : VCtx) (s : State) (f : Nat → Nat → Nat) : VEff := c.lanewise s fun l => f (c.rdA s l) (c.rdB s l)

/-- Exact arithmetic on two operands, then the wrap or the clamp. -/
def exactI (c : VCtx) (s : State) (f : Int → Int → Int) : VEff :=
  c.binaryI s fun x y => intResult c.w.ty c.sat (f (intVal c.w.ty x) (intVal c.w.ty y))

end VCtx

def execVnop (w : VWord) (s : State) := vectorWord 0x00 w (fun _ s => .done s (.u 0)) s

def execVadd (w : VWord) (s : State) := vectorWord 0x01 w (fun c s => c.exactI s (· + ·)) s
def execVsub (w : VWord) (s : State) := vectorWord 0x02 w (fun c s => c.exactI s (· - ·)) s
def execVmul (w : VWord) (s : State) := vectorWord 0x03 w (fun c s => c.exactI s (· * ·)) s

/-- Bits [63:32] of the exact product. -/
def execVmulh (w : VWord) (s : State) :=
  vectorWord 0x04 w (fun c s => c.binaryI s fun x y => wrapInt 32 (intVal c.w.ty x * intVal c.w.ty y / 2 ^ 32)) s

def execVmad (w : VWord) (s : State) :=
  vectorWord 0x05 w (fun c s => c.lanewise s fun l =>
    wrapInt 32 (intVal c.w.ty (c.rdA s l) * intVal c.w.ty (c.rdB s l) + intVal c.w.ty (c.rdC s l))) s

def execVmin (w : VWord) (s : State) :=
  vectorWord 0x06 w (fun c s => c.binaryI s fun x y => if intVal c.w.ty x ≤ intVal c.w.ty y then x else y) s

def execVmax (w : VWord) (s : State) :=
  vectorWord 0x07 w (fun c s => c.binaryI s fun x y => if intVal c.w.ty x ≤ intVal c.w.ty y then y else x) s

def execVabs (w : VWord) (s : State) :=
  vectorWord 0x08 w (fun c s => c.unaryI s fun x => wrapInt c.w.ty.bits (intVal c.w.ty x).natAbs) s

def execVand (w : VWord) (s : State) := vectorWord 0x09 w (fun c s => c.binaryI s (· &&& ·)) s
def execVor (w : VWord) (s : State) := vectorWord 0x0A w (fun c s => c.binaryI s (· ||| ·)) s
def execVxor (w : VWord) (s : State) := vectorWord 0x0B w (fun c s => c.binaryI s (· ^^^ ·)) s

def execVnot (w : VWord) (s : State) :=
  vectorWord 0x0C w (fun c s => c.unaryI s fun x => 2 ^ c.w.ty.bits - 1 - x % 2 ^ c.w.ty.bits) s

def execVshl (w : VWord) (s : State) :=
  vectorWord 0x0D w (fun c s => c.binaryI s fun x y => x * 2 ^ (y % c.w.ty.bits) % 2 ^ c.w.ty.bits) s

def execVshr (w : VWord) (s : State) := vectorWord 0x0E w (fun c s => c.binaryI s fun x y => x / 2 ^ (y % c.w.ty.bits)) s

/-- Copies of the top bit come in, for either signedness. -/
def execVsra (w : VWord) (s : State) :=
  vectorWord 0x0F w (fun c s => c.binaryI s fun x y =>
    wrapInt c.w.ty.bits (signedOf c.w.ty.bits x / 2 ^ (y % c.w.ty.bits))) s

def execVclz (w : VWord) (s : State) := vectorWord 0x10 w (fun c s => c.unaryI s (clzNat 32)) s
def execVpopc (w : VWord) (s : State) := vectorWord 0x11 w (fun c s => c.unaryI s (popcNat 32)) s

/-- o and n of VBFE and VBFI. -/
def bfOff (y : Nat) : Nat := y % 32
def bfLen (y z : Nat) : Nat := min (z % 64) (32 - bfOff y)

def bfExtract (signed : Bool) (x y z : Nat) : Nat :=
  let n := bfLen y z
  let f := bitsOf x (bfOff y) n
  if n = 0 then 0 else if signed then wrapInt 32 (signedOf n f) else f

/-- Bits of the old value outside the field stay. -/
def bfInsert (old x y z : Nat) : Nat :=
  let o := bfOff y
  let n := bfLen y z
  old / 2 ^ (o + n) * 2 ^ (o + n) + bitsOf x 0 n * 2 ^ o + old % 2 ^ o

def execVbfe (w : VWord) (s : State) :=
  vectorWord 0x12 w (fun c s => c.lanewise s fun l => bfExtract c.w.ty.signed (c.rdA s l) (c.rdB s l) (c.rdC s l)) s

/-- The destination is also a source, and counts as one for the tag. -/
def execVbfi (w : VWord) (s : State) :=
  vectorWord 0x13 w (fun c s =>
    c.setV s c.w.ty (c.tag [(c.vreg c.w.dst.val).tag]) fun l =>
      bfInsert ((c.vreg c.w.dst.val).lane l).toNat (c.rdA s l) (c.rdB s l) (c.rdC s l)) s

def execVmov (w : VWord) (s : State) := vectorWord 0x14 w (fun c s => c.unaryI s id) s

/-- The selecting mask counts as a uniform source only where it selects every lane or none. -/
def execVsel (w : VWord) (s : State) :=
  vectorWord 0x15 w (fun c s =>
    let m := c.mask (Fin.ofNat 16 (c.w.mbits 5 4))
    c.setV s c.w.ty (c.tag [maskTag m]) fun l => if laneBit m l then c.rdA s l else c.rdB s l) s

/-- A write of all 32 lanes, tagged A (08 R215); its latch is zero in lanes that the guard does not select, and carries the
result's tag (01 R34; 02 R48). -/
def execVidx (w : VWord) (s : State) :=
  vectorWord 0x16 w (fun c s =>
    let x : W32 := BitVec.ofNat 32 (c.rdA s 0)
    let y : W32 := BitVec.ofNat 32 (c.rdB s 0)
    let r : VReg := .a x y
    .doneAs (c.putReg s c.w.dst.val r) ⟨if c.activeMask = BitVec.allOnes 32 then r else .g (lanes fun l => if c.active l then r.lane l else 0), .a⟩) s

end Sys2Proof.Machine
end

