-- ==== Sys2Proof/Machine/Dispatch.lean ====
section
/-! DEFINITION. One arm per instruction and event: each calls its meaning. -/

namespace Sys2Proof.Machine

open Sys2Proof

def exec (i : Instr) (s : State) : Host.Outcome State Fault Refusal :=
  match i with
  | .snop g => Sys2Proof.Machine.execSnop g s
  | .sbrk g => Sys2Proof.Machine.execSbrk g s
  | .syield g => Sys2Proof.Machine.execSyield g s
  | .sexit g => Sys2Proof.Machine.execSexit g s
  | .sfence g sc => Sys2Proof.Machine.execSfence g sc s
  | .sadd g d a b => Sys2Proof.Machine.execSadd g d a b s
  | .ssub g d a b => Sys2Proof.Machine.execSsub g d a b s
  | .smul g d a b => Sys2Proof.Machine.execSmul g d a b s
  | .smulh g d a b => Sys2Proof.Machine.execSmulh g d a b s
  | .smulhw g d a b => Sys2Proof.Machine.execSmulhw g d a b s
  | .sdivw g d a b => Sys2Proof.Machine.execSdivw g d a b s
  | .sremw g d a b => Sys2Proof.Machine.execSremw g d a b s
  | .sand g d a b => Sys2Proof.Machine.execSand g d a b s
  | .sor g d a b => Sys2Proof.Machine.execSor g d a b s
  | .sxor g d a b => Sys2Proof.Machine.execSxor g d a b s
  | .sshl g d a b => Sys2Proof.Machine.execSshl g d a b s
  | .sshr g d a b => Sys2Proof.Machine.execSshr g d a b s
  | .ssra g d a b => Sys2Proof.Machine.execSsra g d a b s
  | .smin g d a b => Sys2Proof.Machine.execSmin g d a b s
  | .smax g d a b => Sys2Proof.Machine.execSmax g d a b s
  | .sminw g d a b => Sys2Proof.Machine.execSminw g d a b s
  | .smaxw g d a b => Sys2Proof.Machine.execSmaxw g d a b s
  | .ssel g d a b => Sys2Proof.Machine.execSsel g d a b s
  | .sclz g d a => Sys2Proof.Machine.execSclz g d a s
  | .spopc g d a => Sys2Proof.Machine.execSpopc g d a s
  | .saddi g d a imm => Sys2Proof.Machine.execSaddi g d a imm s
  | .sandi g d a imm => Sys2Proof.Machine.execSandi g d a imm s
  | .sori g d a imm => Sys2Proof.Machine.execSori g d a imm s
  | .sxori g d a imm => Sys2Proof.Machine.execSxori g d a imm s
  | .sshli g d a sh => Sys2Proof.Machine.execSshli g d a sh s
  | .sshri g d a sh => Sys2Proof.Machine.execSshri g d a sh s
  | .ssrai g d a sh => Sys2Proof.Machine.execSsrai g d a sh s
  | .sli g d lit => Sys2Proof.Machine.execSli g d lit s
  | .slih g d lit => Sys2Proof.Machine.execSlih g d lit s
  | .ssetp g d a b c w => Sys2Proof.Machine.execSsetp g d a b c w s
  | .spand g d a b => Sys2Proof.Machine.execSpand g d a b s
  | .spor g d a b => Sys2Proof.Machine.execSpor g d a b s
  | .spxor g d a b => Sys2Proof.Machine.execSpxor g d a b s
  | .spnot g d a => Sys2Proof.Machine.execSpnot g d a s
  | .spmov g d a => Sys2Proof.Machine.execSpmov g d a s
  | .sld g d a fresh z off => Sys2Proof.Machine.execSld g d a fresh z off s
  | .sldx g d a fresh z off => Sys2Proof.Machine.execSldx g d a fresh z off s
  | .sst g d a z off => Sys2Proof.Machine.execSst g d a z off s
  | .slda g d a sc z off => Sys2Proof.Machine.execSlda g d a sc z off s
  | .sstl g d a sc z off => Sys2Proof.Machine.execSstl g d a sc z off s
  | .satom g d a b op wide sc => Sys2Proof.Machine.execSatom g d a b op wide sc s
  | .sbr g off => Sys2Proof.Machine.execSbr g off s
  | .scall g off => Sys2Proof.Machine.execScall g off s
  | .sjr g a => Sys2Proof.Machine.execSjr g a s
  | .sjalr g d a => Sys2Proof.Machine.execSjalr g d a s
  | .sret g => Sys2Proof.Machine.execSret g s
  | .slq g index first count => Sys2Proof.Machine.execSlq g index first count s
  | .slwait g k => Sys2Proof.Machine.execSlwait g k s
  | .sgetr g d q => Sys2Proof.Machine.execSgetr g d q s
  | .sbar g h => Sys2Proof.Machine.execSbar g h s
  | .sbara g h => Sys2Proof.Machine.execSbara g h s
  | .slinit g a => Sys2Proof.Machine.execSlinit g a s
  | .slexp g a b => Sys2Proof.Machine.execSlexp g a b s
  | .slwt g a b => Sys2Proof.Machine.execSlwt g a b s
  | .slgen g d a => Sys2Proof.Machine.execSlgen g d a s
  | .smon g a => Sys2Proof.Machine.execSmon g a s
  | .smwait g d a => Sys2Proof.Machine.execSmwait g d a s
  | .smdis g => Sys2Proof.Machine.execSmdis g s
  | .stlwait g h b => Sys2Proof.Machine.execStlwait g h b s
  | .stlthr g h b => Sys2Proof.Machine.execStlthr g h b s
  | .stlrd g d h => Sys2Proof.Machine.execStlrd g d h s
  | .slaunch g d a nb => Sys2Proof.Machine.execSlaunch g d a nb s
  | .scancel g d a l => Sys2Proof.Machine.execScancel g d a l s
  | .scnt g d v l => Sys2Proof.Machine.execScnt g d v l s
  | .cpy g a b c t fifo => Sys2Proof.Machine.execCpy g a b c t fifo s
  | .cpyThen g a b c t fifo follow => Sys2Proof.Machine.execCpyThen g a b c t fifo follow s
  | .cpyset g a => Sys2Proof.Machine.execCpyset g a s
  | .mma g m => Sys2Proof.Machine.execMma g m s
  | .mmap g m => Sys2Proof.Machine.execMmap g m s
  | .mzero g t => Sys2Proof.Machine.execMzero g t s
  | .mguide g d a b w => Sys2Proof.Machine.execMguide g d a b w s
  | .ccol g a b c k op => Sys2Proof.Machine.execCcol g a b c k op s
  | .gemit g d a b r => Sys2Proof.Machine.execGemit g d a b r s
  | .gclose g d a b => Sys2Proof.Machine.execGclose g d a b s
  | .gcut g d a b => Sys2Proof.Machine.execGcut g d a b s
  | .gstat g d a ix => Sys2Proof.Machine.execGstat g d a ix s
  | .sgate g d a b len => Sys2Proof.Machine.execSgate g d a b len s
  | .sgatew g d a b => Sys2Proof.Machine.execSgatew g d a b s
  | .strap g code => Sys2Proof.Machine.execStrap g code s
  | .srds g d ix => Sys2Proof.Machine.execSrds g d ix s
  | .swrs g a idx => Sys2Proof.Machine.execSwrs g a idx s
  | .fdtb g a => Sys2Proof.Machine.execFdtb g a s
  | .fdtsync g a => Sys2Proof.Machine.execFdtsync g a s
  | .gatereg g a => Sys2Proof.Machine.execGatereg g a s
  | .gateclose g a => Sys2Proof.Machine.execGateclose g a s
  | .gatereply g a => Sys2Proof.Machine.execGatereply g a s
  | .debugen g a => Sys2Proof.Machine.execDebugen g a s
  | .picins g d a b last => Sys2Proof.Machine.execPicins g d a b last s
  | .vnop w => Sys2Proof.Machine.execVnop w s
  | .vadd w => Sys2Proof.Machine.execVadd w s
  | .vsub w => Sys2Proof.Machine.execVsub w s
  | .vmul w => Sys2Proof.Machine.execVmul w s
  | .vmulh w => Sys2Proof.Machine.execVmulh w s
  | .vmad w => Sys2Proof.Machine.execVmad w s
  | .vmin w => Sys2Proof.Machine.execVmin w s
  | .vmax w => Sys2Proof.Machine.execVmax w s
  | .vabs w => Sys2Proof.Machine.execVabs w s
  | .vand w => Sys2Proof.Machine.execVand w s
  | .vor w => Sys2Proof.Machine.execVor w s
  | .vxor w => Sys2Proof.Machine.execVxor w s
  | .vnot w => Sys2Proof.Machine.execVnot w s
  | .vshl w => Sys2Proof.Machine.execVshl w s
  | .vshr w => Sys2Proof.Machine.execVshr w s
  | .vsra w => Sys2Proof.Machine.execVsra w s
  | .vclz w => Sys2Proof.Machine.execVclz w s
  | .vpopc w => Sys2Proof.Machine.execVpopc w s
  | .vbfe w => Sys2Proof.Machine.execVbfe w s
  | .vbfi w => Sys2Proof.Machine.execVbfi w s
  | .vmov w => Sys2Proof.Machine.execVmov w s
  | .vsel w => Sys2Proof.Machine.execVsel w s
  | .vidx w => Sys2Proof.Machine.execVidx w s
  | .vfadd w => Sys2Proof.Machine.execVfadd w s
  | .vfsub w => Sys2Proof.Machine.execVfsub w s
  | .vfmul w => Sys2Proof.Machine.execVfmul w s
  | .vfma w => Sys2Proof.Machine.execVfma w s
  | .vfmin w => Sys2Proof.Machine.execVfmin w s
  | .vfmax w => Sys2Proof.Machine.execVfmax w s
  | .vfrcp w => Sys2Proof.Machine.execVfrcp w s
  | .vfrsq w => Sys2Proof.Machine.execVfrsq w s
  | .vfsqrt w => Sys2Proof.Machine.execVfsqrt w s
  | .vfexp2 w => Sys2Proof.Machine.execVfexp2 w s
  | .vflog2 w => Sys2Proof.Machine.execVflog2 w s
  | .vfsin w => Sys2Proof.Machine.execVfsin w s
  | .vfcos w => Sys2Proof.Machine.execVfcos w s
  | .vfdiv w => Sys2Proof.Machine.execVfdiv w s
  | .vcvt w => Sys2Proof.Machine.execVcvt w s
  | .vpack w => Sys2Proof.Machine.execVpack w s
  | .vunpk w => Sys2Proof.Machine.execVunpk w s
  | .vqnq4 w => Sys2Proof.Machine.execVqnq4 w s
  | .vdq w => Sys2Proof.Machine.execVdq w s
  | .vsetm w => Sys2Proof.Machine.execVsetm w s
  | .vmand w => Sys2Proof.Machine.execVmand w s
  | .vmor w => Sys2Proof.Machine.execVmor w s
  | .vmxor w => Sys2Proof.Machine.execVmxor w s
  | .vmnot w => Sys2Proof.Machine.execVmnot w s
  | .vballot w => Sys2Proof.Machine.execVballot w s
  | .vany w => Sys2Proof.Machine.execVany w s
  | .vall w => Sys2Proof.Machine.execVall w s
  | .vshfl w => Sys2Proof.Machine.execVshfl w s
  | .vbcast w => Sys2Proof.Machine.execVbcast w s
  | .vredx w => Sys2Proof.Machine.execVredx w s
  | .vscan w => Sys2Proof.Machine.execVscan w s
  | .vqswap w => Sys2Proof.Machine.execVqswap w s
  | .vld w => Sys2Proof.Machine.execVld w s
  | .vst w => Sys2Proof.Machine.execVst w s
  | .vlds w => Sys2Proof.Machine.execVlds w s
  | .vsts w => Sys2Proof.Machine.execVsts w s
  | .vldf w => Sys2Proof.Machine.execVldf w s
  | .vatom w => Sys2Proof.Machine.execVatom w s
  | .vred w => Sys2Proof.Machine.execVred w s
  | .vpicot w => Sys2Proof.Machine.execVpicot w s
  | .vlda w => Sys2Proof.Machine.execVlda w s
  | .vstl w => Sys2Proof.Machine.execVstl w s
  | .vsample w => Sys2Proof.Machine.execVsample w s
  | .vaccrd w => Sys2Proof.Machine.execVaccrd w s
  | .vaccwr w => Sys2Proof.Machine.execVaccwr w s
  | .vaccscl w => Sys2Proof.Machine.execVaccscl w s
  | .vbr w => Sys2Proof.Machine.execVbr w s
  | .vjoin w => Sys2Proof.Machine.execVjoin w s
  | .vend w => Sys2Proof.Machine.execVend w s
  | .vexit w => Sys2Proof.Machine.execVexit w s
  | .vyield w => Sys2Proof.Machine.execVyield w s
  | .vtag w => Sys2Proof.Machine.execVtag w s
  | .vinterp w => Sys2Proof.Machine.execVinterp w s
  | .vderiv w => Sys2Proof.Machine.execVderiv w s
  | .vfragout w => Sys2Proof.Machine.execVfragout w s
  | .vdiscard w => Sys2Proof.Machine.execVdiscard w s
  | .vrec w => Sys2Proof.Machine.execVrec w s
  | .vemit w => Sys2Proof.Machine.execVemit w s
  | .picotInvocation sid => Sys2Proof.Machine.execPicotInvocation sid s
  | .blockComplete sid => Sys2Proof.Machine.execBlockComplete sid s
  | .laneQueueEnqueue sid => Sys2Proof.Machine.execLaneQueueEnqueue sid s
  | .slwaitReturn sid => Sys2Proof.Machine.execSlwaitReturn sid s
  | .barrierPhaseComplete k => Sys2Proof.Machine.execBarrierPhaseComplete k s
  | .slwtReturn sid => Sys2Proof.Machine.execSlwtReturn sid s
  | .smwaitWake sid => Sys2Proof.Machine.execSmwaitWake sid s
  | .smwaitTimeout sid => Sys2Proof.Machine.execSmwaitTimeout sid s
  | .stlwaitReturn sid => Sys2Proof.Machine.execStlwaitReturn sid s
  | .stlthrReturn sid => Sys2Proof.Machine.execStlthrReturn sid s
  | .slaunchReturn sid => Sys2Proof.Machine.execSlaunchReturn sid s
  | .sgatewReturn sid => Sys2Proof.Machine.execSgatewReturn sid s
  | .strandPromotion sid => Sys2Proof.Machine.execStrandPromotion sid s
  | .splitRotation sid slot => Sys2Proof.Machine.execSplitRotation sid slot s
  | .memoryReturn sid k slotFree => Sys2Proof.Machine.execMemoryReturn sid k slotFree s
  | .storePerformed sid k => Sys2Proof.Machine.execStorePerformed sid k s
  | .integrityCheckFail sid k => Sys2Proof.Machine.execIntegrityCheckFail sid k s
  | .writeApply die k => Sys2Proof.Machine.execWriteApply die k s
  | .reductionCopyCombine die line => Sys2Proof.Machine.execReductionCopyCombine die line s
  | .engineWordAccept sid => Sys2Proof.Machine.execEngineWordAccept sid s
  | .copyChunk core q => Sys2Proof.Machine.execCopyChunk core q s
  | .mmapDecision core id => Sys2Proof.Machine.execMmapDecision core id s
  | .matrixWordStart core id => Sys2Proof.Machine.execMatrixWordStart core id s
  | .matrixRowPop core id => Sys2Proof.Machine.execMatrixRowPop core id s
  | .matrixWordComplete core id => Sys2Proof.Machine.execMatrixWordComplete core id s
  | .matrixWordEnded core id => Sys2Proof.Machine.execMatrixWordEnded core id s
  | .collectiveExchange die others => Sys2Proof.Machine.execCollectiveExchange die others s
  | .collectiveComplete die sources => Sys2Proof.Machine.execCollectiveComplete die sources s
  | .instanceComplete ix => Sys2Proof.Machine.execInstanceComplete ix s
  | .instanceSettle ix => Sys2Proof.Machine.execInstanceSettle ix s
  | .granuleZeroingDone core g => Sys2Proof.Machine.execGranuleZeroingDone core g s
  | .workgroupPlacement launch cores => Sys2Proof.Machine.execWorkgroupPlacement launch cores s
  | .watchdog launch => Sys2Proof.Machine.execWatchdog launch s
  | .drain world cores timeout area => Sys2Proof.Machine.execDrain world cores timeout area s
  | .drainTimeout world => Sys2Proof.Machine.execDrainTimeout world s
  | .forcedSave wg addr => Sys2Proof.Machine.execForcedSave wg addr s
  | .cocoonRestore k core => Sys2Proof.Machine.execCocoonRestore k core s
  | .pageWalk die => Sys2Proof.Machine.execPageWalk die s
  | .inval world va log2 => Sys2Proof.Machine.execInval world va log2 s
  | .invalall world => Sys2Proof.Machine.execInvalall world s
  | .qrestart world q => Sys2Proof.Machine.execQrestart world q s
  | .resolveResume world seq => Sys2Proof.Machine.execResolveResume world seq s
  | .resolveEnd world seq => Sys2Proof.Machine.execResolveEnd world seq s
  | .resolveNext world seq => Sys2Proof.Machine.execResolveNext world seq s
  | .resolveAck world seq => Sys2Proof.Machine.execResolveAck world seq s
  | .worldPartitionWrite core idx val => Sys2Proof.Machine.execWorldPartitionWrite core idx val s
  | .worldTranslationRecord world root queueBase depth => Sys2Proof.Machine.execWorldTranslationRecord world root queueBase depth s
  | .worldReleaseScrub world bad => Sys2Proof.Machine.execWorldReleaseScrub world bad s
  | .frameStart ctx => Sys2Proof.Machine.execFrameStart ctx s
  | .nodeFrameDeadline ctx node frame => Sys2Proof.Machine.execNodeFrameDeadline ctx node frame s
  | .edgeDeadline ctx edge => Sys2Proof.Machine.execEdgeDeadline ctx edge s
  | .datagramSend port => Sys2Proof.Machine.execDatagramSend port s
  | .datagramExpired port => Sys2Proof.Machine.execDatagramExpired port s
  | .controlResend ctx k => Sys2Proof.Machine.execControlResend ctx k s
  | .failed ctx k => Sys2Proof.Machine.execFailed ctx k s
  | .fragmentMerge ctx node k => Sys2Proof.Machine.execFragmentMerge ctx node k s
  | .rmaResend message => Sys2Proof.Machine.execRmaResend message s
  | .keyRevocation handle => Sys2Proof.Machine.execKeyRevocation handle s
  | .fabricRekey link => Sys2Proof.Machine.execFabricRekey link s
  | .crashDump buffer => Sys2Proof.Machine.execCrashDump buffer s
  | .spareBringIn unit => Sys2Proof.Machine.execSpareBringIn unit s
  | .unassignedMajor w => Sys2Proof.Machine.execUnassignedMajor w s
  | .unassignedVectorOpcode w => Sys2Proof.Machine.execUnassignedVectorOpcode w s
  | .drainResumption world => Sys2Proof.Machine.execDrainResumption world s
  | .ptpSync ctx offset => Sys2Proof.Machine.execPtpSync ctx offset s
  | .picinsComplete sid => Sys2Proof.Machine.execPicinsComplete sid s
  | .fdtsyncComplete sid => Sys2Proof.Machine.execFdtsyncComplete sid s
  | .invalComplete => Sys2Proof.Machine.execInvalComplete s
  | .data => Sys2Proof.Machine.execData s
  | .parity => Sys2Proof.Machine.execParity s
  | .malformedDatagram => Sys2Proof.Machine.execMalformedDatagram s
  | .cutPropose => Sys2Proof.Machine.execCutPropose s
  | .cutAck => Sys2Proof.Machine.execCutAck s
  | .cutCommit => Sys2Proof.Machine.execCutCommit s
  | .commitAck => Sys2Proof.Machine.execCommitAck s
  | .cutAbort => Sys2Proof.Machine.execCutAbort s
  | .abortAck => Sys2Proof.Machine.execAbortAck s
  | .handover => Sys2Proof.Machine.execHandover s
  | .handoverAck => Sys2Proof.Machine.execHandoverAck s
  | .rmaPacketArrival => Sys2Proof.Machine.execRmaPacketArrival s
  | .rmaAcknowledgement => Sys2Proof.Machine.execRmaAcknowledgement s
  | .triggeredRequestPost => Sys2Proof.Machine.execTriggeredRequestPost s
  | .regionEntryWrite => Sys2Proof.Machine.execRegionEntryWrite s
  | .firewallWindowWrite => Sys2Proof.Machine.execFirewallWindowWrite s
  | .inboundRequest => Sys2Proof.Machine.execInboundRequest s
  | .boot => Sys2Proof.Machine.execBoot s
  | .getMeasurements => Sys2Proof.Machine.execGetMeasurements s
  | .bundleUpdate => Sys2Proof.Machine.execBundleUpdate s
  | .bundleWatchdog => Sys2Proof.Machine.execBundleWatchdog s
  | .remoteAttestation => Sys2Proof.Machine.execRemoteAttestation s
  | .debugLockOpen => Sys2Proof.Machine.execDebugLockOpen s
  | .powerStateEntry => Sys2Proof.Machine.execPowerStateEntry s
  | .powerStateExit => Sys2Proof.Machine.execPowerStateExit s
  | .powerExitComplete => Sys2Proof.Machine.execPowerExitComplete s
  | .hardPartitionChange => Sys2Proof.Machine.execHardPartitionChange s
  | .launchSubmission => Sys2Proof.Machine.execLaunchSubmission s
  | .queueCreate => Sys2Proof.Machine.execQueueCreate s
  | .contextCreate => Sys2Proof.Machine.execContextCreate s
  | .jobClose => Sys2Proof.Machine.execJobClose s
  | .contextDestroy => Sys2Proof.Machine.execContextDestroy s
  | .queueDestroy => Sys2Proof.Machine.execQueueDestroy s
  | .worldCreate => Sys2Proof.Machine.execWorldCreate s

end Sys2Proof.Machine
end

