-- ==== Sys2Proof/Machine/Step.lean ====
section
/-! DEFINITION. One step of the machine: what stands first on the agenda, else a free choice among what may move; then
time passes. And the placing of one instruction where the next step fetches it. -/

namespace Sys2Proof.Machine

open Sys2Proof

/-- The cycles that may pass before some ready strand has been ready for 72 (01 R23); `none` where none is ready. -/
def timeLeft (s : State) : Option Nat := ((candidates s).map fun c => c.since + 72 - s.cycle).min?

/-- How many cycles pass in a step: a free number (log 5), at least one after some free number of steps in one cycle, and none
beyond the time by which a ready strand issues (01 R23). -/
def passes (s : State) : Nat :=
  let d := Config.elapsed s.ticks
  let d := if Config.stepsPerCycle ≤ s.still then max 1 d else d
  match timeLeft s with
  | some k => min k d
  | none => d

/-- Time passes at the end of a step. -/
def tick (s : State) : State :=
  let s : State := noteRaces { s with cur := none }
  { s with ticks := s.ticks + 1, still := if passes s = 0 then s.still + 1 else 0, cycle := s.cycle + passes s }

def afterwards (o : Host.Outcome State Fault Refusal) : Host.Outcome State Fault Refusal :=
  match o with
  | .next s => .next (tick s)
  | .fault f => .fault f
  | .refused r => .refused r

/-- One turn: an event, or the next word of a stream. -/
def turn (t : Turn) (s : State) : Host.Outcome State Fault Refusal :=
  match t with
  | .event i => exec i s
  | .scalar sid => match fetchScalar s sid with
    | .halt s => .next s
    | .run s i => exec i { s with cur := some (.scalar sid) }
  | .vector sid slot => match fetchVector s sid slot with
    | .halt s => .next s
    | .run s i => exec i { s with cur := some (.vector sid slot) }

/-- One step. -/
def step (s : State) : Host.Outcome State Fault Refusal :=
  match s.agenda with
  | t :: rest => afterwards (turn t { s with agenda := rest, cur := none })
  | [] => match choose s with
    | some t => afterwards (turn t { s with cur := none })
    | none => afterwards (.next s)

/-! ## One instruction where the next step fetches it -/

namespace State

/-- The role that may issue an instruction (01 R13). -/
def roleFor : Option Instr → Role
  | some (.cpy ..) | some (.cpyThen ..) | some (.cpyset ..) | some (.ccol ..) => .copy
  | some (.mma ..) | some (.mmap ..) | some (.mzero ..) | some (.mguide ..) => .matrix
  | _ => .vector

/-- Where the code of `withFetchWord` lies, virtual and physical. -/
def codeAt : Nat := 65536

def fetchDesc (role : Role) : LaunchDesc :=
  { scalarBase := codeAt, vectorBase := codeAt, privateBase := 0, pword := 0x00081040, grid := (1, 1, 1), strands := 1,
    regs := 8, cluster := 1, priv := true, queue := 0, overlap := false, fifos := 0, copyQueue := 0, roles := [role],
    pairs := 0, watchdog := 0, entries := [0], barMasks := [1], stride := 512 }

/-- `s` with one instruction where the next step fetches it: the bytes in memory, a translation of their page, and a
strand of one workgroup of one launch of a world, whose turn stands first on the agenda. It stands for the loading of a
program and its launch from outside (log 25). -/
def withFetchWord (s : State) (nbits w : Nat) : State :=
  let k := s.nextId
  let core : CoreId := ⟨0, 0⟩
  let sid : StrandId := ⟨k, 0⟩
  let scalar := decide (nbits ≤ 64)
  let bytes := if scalar then natLE 8 (w % 2 ^ nbits) else natLE 12 (w % 2 ^ nbits)
  let role := roleFor (decodeTableWord nbits w)
  let st0 := Strand.start role codeAt 8 s.cycle
  let st : Strand := if scalar then st0 else
    { st0 with
      laneQ := [⟨codeAt, Vector.replicate 8 0⟩], started := true,
      slots := #v[some (Split.whole (BitVec.allOnes 32) 0), none] }
  let wg : Workgroup :=
    { launch := k, index := 0, core := core, released := false, stopping := false, parked := none, granules := [], scratch := [], tiles := [],
      badScratch := [], badTiles := [], fifos := [], matrix := .empty, lastCopy := [], lastColl := [] }
  let l : Launch :=
    { world := k, ctx := k, graphMade := false, node := 0, run := k, frame := 0, descAddr := 0, desc := fetchDesc role,
      depth := 0, parent := none, queue := none, errors := 0, batch := none, frag := none, placed := 1, total := 1,
      firstPlaced := some s.cycle, pausedAt := none, prevOfNode := none, dropped := false, issuer := none, reserved := false }
  let tlb : TlbEntry :=
    { site := .quadrant core 0, world := k, page := 1, log2 := 16, pa := codeAt, u := true, x := true, w := true, r := true,
      index := 0, fmt := .raw }
  { s with
    agenda := (if scalar then Turn.scalar sid else Turn.vector sid 0) :: s.agenda
    nextId := k + 1
    power := { s.power with state := .w0 }
    worlds := s.worlds.set k { World.empty with valid := true }
    launches := s.launches.set k l
    wgs := s.wgs.set k wg
    strands := s.strands.set sid st
    xlat := { s.xlat with tlb := tlb :: s.xlat.tlb }
    mem := { s.mem with home := s.mem.home.write codeAt bytes, views := vmap (fun v => v.write codeAt bytes) s.mem.views } }

end State

end Sys2Proof.Machine
end

