-- ==== Sys2Proof/Laws/Bytes.lean ====
section
/-! SUPPORT. Little-endian bytes and sparse memories: reading after writing, and the canonical form. -/

namespace Sys2Proof.Machine

/-! ## Little-endian bytes -/

@[simp] theorem length_natLE (n v : Nat) : (natLE n v).length = n := by
  induction n generalizing v with
  | zero => rfl
  | succ k ih => simp [natLE, ih]

theorem leNat_natLE (n v : Nat) : leNat (natLE n v) = v % 256 ^ n := by
  induction n generalizing v with
  | zero => simp [natLE, leNat, Nat.mod_one]
  | succ k ih =>
    simp only [natLE, leNat, ih, BitVec.toNat_ofNat]
    have h : 256 ^ (k + 1) = 256 * 256 ^ k := Nat.pow_succ'
    rw [h]
    exact (Nat.mod_mul (x := v) (a := 256) (b := 256 ^ k)).symm

theorem leNat_append (l m : List Sys2Proof.Byte) : leNat (l ++ m) = leNat l + 256 ^ l.length * leNat m := by
  induction l with
  | nil => simp [leNat]
  | cons b t ih =>
    simp only [List.cons_append, leNat, List.length_cons, ih, Nat.pow_succ]
    grind

/-- The first `n` bytes of a value and what follows read back as the value. -/
theorem fieldNat_natLE (n v : Nat) (rest : List Sys2Proof.Byte) (h : v < 256 ^ n) : fieldNat (natLE n v ++ rest) 0 n = v := by
  have : (natLE n v ++ rest).take n = natLE n v := by
    rw [List.take_append_of_le_length (by simp), List.take_of_length_le (by simp)]
  simp [fieldNat, this, leNat_natLE, Nat.mod_eq_of_lt h]

theorem fieldNat_append (l m : List Sys2Proof.Byte) (n : Nat) : fieldNat (l ++ m) l.length n = fieldNat m 0 n := by
  simp [fieldNat]

/-! ## Sparse memories -/

theorem Mem.wfFrom_weaken {lo hi : Option Nat} {m : Mem} (h : Mem.wfFrom hi m = true)
    (hl : ∀ l, lo = some l → ∃ k, hi = some k ∧ l ≤ k) : Mem.wfFrom lo m = true := by
  cases m with
  | nil => rfl
  | cons p t =>
    obtain ⟨a, b⟩ := p
    simp only [Mem.wfFrom, Bool.and_eq_true] at h ⊢
    refine ⟨⟨?_, h.1.2⟩, h.2⟩
    cases lo with
    | none => rfl
    | some l =>
      obtain ⟨k, rfl, hk⟩ := hl l rfl
      have := h.1.1
      simp only [decide_eq_true_eq] at this ⊢
      omega

theorem Mem.wfFrom_set {lo : Option Nat} {m : Mem} (a : Nat) (b : Sys2Proof.Byte) (h : Mem.wfFrom lo m = true)
    (hl : ∀ l, lo = some l → l < a) : Mem.wfFrom lo (m.set a b) = true := by
  induction m generalizing lo with
  | nil =>
    by_cases hb : b = Mem.fill
    · simp [Mem.set, hb, Mem.wfFrom]
    · cases lo with
      | none => simp [Mem.set, hb, Mem.wfFrom]
      | some l => simp [Mem.set, hb, Mem.wfFrom, hl l rfl]
  | cons p t ih =>
    obtain ⟨a', b'⟩ := p
    have h0 := h
    simp only [Mem.wfFrom, Bool.and_eq_true] at h
    by_cases h1 : a' = a
    · subst h1
      by_cases hb : b = Mem.fill
      · simp only [Mem.set, hb, if_true]
        refine Mem.wfFrom_weaken h.2 fun l hlo => ⟨a', rfl, ?_⟩
        exact Nat.le_of_lt (hl l hlo)
      · simp only [Mem.set, if_true, hb, if_false, Mem.wfFrom, Bool.and_eq_true]
        exact ⟨⟨h.1.1, by simp [hb]⟩, h.2⟩
    · by_cases h2 : a < a'
      · by_cases hb : b = Mem.fill
        · simp [Mem.set, h1, h2, hb, h0]
        · simp only [Mem.set, h1, if_false, h2, if_true, hb, Mem.wfFrom, Bool.and_eq_true]
          refine ⟨⟨?_, by simp [hb]⟩, ⟨by simpa using h2, h.1.2⟩, h.2⟩
          cases lo with
          | none => rfl
          | some l => simpa using hl l rfl
      · simp only [Mem.set, h1, if_false, h2, Mem.wfFrom, Bool.and_eq_true]
        refine ⟨h.1, ih h.2 fun l hlo => ?_⟩
        cases hlo
        omega

/-- Writing a byte keeps the canonical form. -/
theorem Mem.wf_set {m : Mem} (a : Nat) (b : Sys2Proof.Byte) (h : m.wf = true) : (m.set a b).wf = true :=
  Mem.wfFrom_set a b h fun _ h => by cases h

theorem Mem.wf_write {m : Mem} (a : Nat) (bs : List Sys2Proof.Byte) (h : m.wf = true) : (m.write a bs).wf = true := by
  induction bs generalizing m a with
  | nil => exact h
  | cons b t ih => exact ih _ (Mem.wf_set a b h)

theorem Mem.wf_writeCells {m : Mem} (cs : List Host.Cell) (h : m.wf = true) : (m.writeCells cs).wf = true := by
  induction cs generalizing m with
  | nil => exact h
  | cons c t ih => exact ih (Mem.wf_set c.1 c.2 h)

theorem Mem.wf_writeNat {m : Mem} (a n v : Nat) (h : m.wf = true) : (m.writeNat a n v).wf = true := Mem.wf_write a _ h

theorem Mem.wfFrom_filter {lo : Option Nat} {m : Mem} (p : Host.Cell → Bool) (h : Mem.wfFrom lo m = true) :
    Mem.wfFrom lo (m.filter p) = true := by
  induction m generalizing lo with
  | nil => rfl
  | cons q t ih =>
    obtain ⟨a, b⟩ := q
    have h0 := h
    simp only [Mem.wfFrom, Bool.and_eq_true] at h
    by_cases hp : p (a, b) = true
    · rw [List.filter_cons_of_pos hp]
      simp only [Mem.wfFrom, Bool.and_eq_true]
      exact ⟨h.1, ih h.2⟩
    · rw [List.filter_cons_of_neg hp]
      refine ih (Mem.wfFrom_weaken h.2 fun l hlo => ⟨a, rfl, ?_⟩)
      subst hlo
      have := h.1.1
      simp only [decide_eq_true_eq] at this
      omega

theorem Mem.wf_filter {m : Mem} (p : Host.Cell → Bool) (h : m.wf = true) : Mem.wf (m.filter p) = true := Mem.wfFrom_filter p h

theorem Mem.wfFrom_get {l : Nat} {m : Mem} (h : Mem.wfFrom (some l) m = true) {a : Nat} (ha : a ≤ l) : m.get a = Mem.fill := by
  cases m with
  | nil => rfl
  | cons p t =>
    obtain ⟨a', b'⟩ := p
    simp only [Mem.wfFrom, Bool.and_eq_true, decide_eq_true_eq] at h
    have : a ≠ a' := by omega
    have h2 : a < a' := by omega
    simp [Mem.get, Ne.symm this, h2]

theorem Mem.get_set_from {lo : Option Nat} {m : Mem} (h : Mem.wfFrom lo m = true) (a : Nat) (b : Sys2Proof.Byte) (j : Nat) :
    (m.set a b).get j = if a = j then b else m.get j := by
  induction m generalizing lo with
  | nil =>
    by_cases hb : b = Mem.fill
    · by_cases hj : a = j <;> simp [Mem.set, hb, Mem.get]
    · by_cases hj : a = j <;> simp [Mem.set, hb, Mem.get, hj]
  | cons p t ih =>
    obtain ⟨a', b'⟩ := p
    simp only [Mem.wfFrom, Bool.and_eq_true] at h
    have iht := ih h.2
    by_cases h1 : a' = a
    · subst h1
      by_cases hb : b = Mem.fill
      · by_cases hj : a' = j
        · subst hj
          simp [Mem.set, hb, Mem.wfFrom_get h.2 (Nat.le_refl _)]
        · by_cases hlt : j < a'
          · simp [Mem.set, hb, Mem.get, hj, hlt, Mem.wfFrom_get h.2 (Nat.le_of_lt hlt)]
          · simp [Mem.set, hb, Mem.get, hj, hlt]
      · by_cases hj : a' = j <;> simp [Mem.set, hb, Mem.get, hj]
    · by_cases h2 : a < a'
      · by_cases hj : a = j
        · subst hj
          by_cases hb : b = Mem.fill <;> simp [Mem.set, h1, h2, hb, Mem.get]
        · by_cases hb : b = Mem.fill
          · simp [Mem.set, h1, h2, hb, hj]
          · by_cases hlt : j < a
            · have h3 : a' ≠ j := by omega
              have h4 : j < a' := by omega
              simp [Mem.set, h1, h2, hb, Mem.get, hj, hlt, h3, h4]
            · simp [Mem.set, h1, h2, hb, Mem.get, hj, hlt]
      · by_cases hj : a = j
        · subst hj
          simp [Mem.set, h1, h2, Mem.get, iht]
        · by_cases h3 : a' = j
          · subst h3
            simp [Mem.set, h1, h2, Mem.get, hj]
          · by_cases hlt : j < a' <;> simp [Mem.set, h1, h2, Mem.get, h3, hlt, iht, hj]

/-- A read after a write of one byte, in a canonical memory. -/
theorem Mem.get_set {m : Mem} (h : m.wf = true) (a : Nat) (b : Sys2Proof.Byte) (j : Nat) :
    (m.set a b).get j = if a = j then b else m.get j := Mem.get_set_from h a b j

theorem Mem.get_set_same {m : Mem} (h : m.wf = true) (a : Nat) (b : Sys2Proof.Byte) : (m.set a b).get a = b := by
  simp [Mem.get_set h]

theorem Mem.get_set_other {m : Mem} (h : m.wf = true) {a j : Nat} (b : Sys2Proof.Byte) (hj : a ≠ j) :
    (m.set a b).get j = m.get j := by simp [Mem.get_set h, hj]

/-- A byte outside those written is unchanged. -/
theorem Mem.get_write_other {m : Mem} (h : m.wf = true) (a : Nat) (bs : List Sys2Proof.Byte) {j : Nat}
    (hj : j < a ∨ a + bs.length ≤ j) : (m.write a bs).get j = m.get j := by
  induction bs generalizing m a with
  | nil => rfl
  | cons b t ih =>
    have h1 : a ≠ j := by simp only [List.length_cons] at hj; omega
    have h2 : j < a + 1 ∨ a + 1 + t.length ≤ j := by simp only [List.length_cons] at hj; omega
    rw [Mem.write, ih (Mem.wf_set a b h) (a + 1) h2, Mem.get_set_other h b h1]

/-- Written bytes read back. -/
theorem Mem.read_write {m : Mem} (h : m.wf = true) (a : Nat) (bs : List Sys2Proof.Byte) :
    (m.write a bs).read a bs.length = bs := by
  induction bs generalizing m a with
  | nil => rfl
  | cons b t ih =>
    have hw := Mem.wf_set a b h
    simp only [List.length_cons, Mem.read, Mem.write]
    rw [ih hw (a + 1), Mem.get_write_other hw (a + 1) t (Or.inl (by omega)), Mem.get_set_same h]

theorem Mem.readNat_writeNat {m : Mem} (h : m.wf = true) (a n v : Nat) : (m.writeNat a n v).readNat a n = v % 256 ^ n := by
  have := Mem.read_write h a (natLE n v)
  simp only [length_natLE] at this
  simp [Mem.readNat, Mem.writeNat, this, leNat_natLE]

theorem Mem.get_writeCells_other {m : Mem} (h : m.wf = true) (cs : List Host.Cell) {j : Nat}
    (hj : ∀ c ∈ cs, c.1 ≠ j) : (m.writeCells cs).get j = m.get j := by
  induction cs generalizing m with
  | nil => rfl
  | cons c t ih =>
    show ((m.set c.1 c.2).writeCells t).get j = m.get j
    rw [ih (Mem.wf_set c.1 c.2 h) fun x hx => hj x (List.mem_cons_of_mem _ hx)]
    exact Mem.get_set_other h c.2 (hj c List.mem_cons_self)

end Sys2Proof.Machine
end

