-- ==== Sys2Proof/WellFormed.lean ====
section
/-! DEFINITION. Well-formed instructions: those a word of the spec's encodings stands for. A constructor's fields are
typed, so only the combinations that the opcode maps forbid remain to be refused (06 R154, R158, R163 to R168). -/

namespace Sys2Proof

/-- The guard of a scalar instruction. -/
def Instr.guard? : Instr → Option Guard
  | .snop g | .sbrk g | .syield g | .sexit g | .sfence g _ => some g
  | .sadd g .. | .ssub g .. | .smul g .. | .smulh g .. | .smulhw g .. | .sdivw g .. | .sremw g .. | .sand g ..
  | .sor g .. | .sxor g .. | .sshl g .. | .sshr g .. | .ssra g .. | .smin g .. | .smax g .. | .sminw g ..
  | .smaxw g .. | .ssel g .. | .sclz g .. | .spopc g .. | .saddi g .. | .sandi g .. | .sori g .. | .sxori g ..
  | .sshli g .. | .sshri g .. | .ssrai g .. | .sli g .. | .slih g .. | .ssetp g .. | .spand g .. | .spor g ..
  | .spxor g .. | .spnot g .. | .spmov g .. | .sld g .. | .sldx g .. | .sst g .. | .slda g .. | .sstl g ..
  | .satom g .. | .sbr g .. | .scall g .. | .sjr g .. | .sjalr g .. | .sret g | .slq g .. | .slwait g .. | .sgetr g ..
  | .sbar g .. | .sbara g .. | .slinit g .. | .slexp g .. | .slwt g .. | .slgen g .. | .smon g .. | .smwait g ..
  | .smdis g | .stlwait g .. | .stlthr g .. | .stlrd g .. | .slaunch g .. | .scancel g .. | .scnt g .. | .cpy g ..
  | .cpyThen g .. | .cpyset g .. | .mma g .. | .mmap g .. | .mzero g .. | .mguide g .. | .ccol g .. | .gemit g ..
  | .gclose g .. | .gcut g .. | .gstat g .. | .sgate g .. | .sgatew g .. | .strap g .. | .srds g .. | .swrs g ..
  | .fdtb g .. | .fdtsync g .. | .gatereg g .. | .gateclose g .. | .gatereply g .. | .debugen g .. | .picins g .. => some g
  | _ => none

/-- The combinations of fields that the scalar map forbids. -/
def Instr.combinationOk : Instr → Bool
  | .ssetp _ _ _ _ c k => c.isFloat == decide (k = .f32)
  | .sldx _ _ _ _ z _ => decide (z ≠ .b8)
  | .slq _ _ f c => decide (f.val + c.val ≤ 32)
  | .scancel _ _ a l => decide (a = 0 ∨ l ≠ .unit)
  | .scnt _ _ v l => decide (v = .errors → l = .launch)
  | .cpyThen _ _ _ _ _ _ w => decide (w.toNat / 2 ^ 22 = 0x22)
  | .mma _ m | .mmap _ m => m.legal
  | .ccol _ _ _ _ k op => decide (k = .broadcast → op = .add)
  | .gstat _ _ a i => decide (i.code < 6 ∨ a = 0)
  | .sgate _ _ _ _ n => decide (1 ≤ n.toNat ∧ n.toNat ≤ 64)
  | .swrs _ _ i => decide (6 ≤ i.toNat)
  | .unassignedMajor w => decide ((fld w.toNat 22 6) ∈ [0x26, 0x27, 0x32] ∨ 0x34 ≤ fld w.toNat 22 6)
  | .unassignedVectorOpcode w => (vCtor (fld w.toNat 88 8)).isNone
  | _ => true

/-- Whether an instruction is one that some word stands for. Events are always well formed. -/
def Instr.wf (i : Instr) : Bool :=
  match i.vword with
  | some (op, w) => w.ok op
  | none => (match i.guard? with | some g => g.legal | none => true) && i.combinationOk

end Sys2Proof
end

