-- ==== Sys2Proof/Laws/Encoding.lean ====
section
/-! SUPPORT. Fields of an encoded word: what the decoder's field reads give on the encoder's sums. -/

namespace Sys2Proof

open Machine

/-! ## A scalar word: guard, major and the 22 bits below -/

theorem Guard.bits_eq (g : Guard) : ∃ k, g.bits = k * 2 ^ 28 ∧ k < 16 := by
  obtain ⟨n, p⟩ := g
  have := p.isLt
  cases n
  · exact ⟨p.val, by simp [Guard.bits], by omega⟩
  · exact ⟨8 + p.val, by simp [Guard.bits]; omega, by omega⟩

theorem fld_low (g : Guard) (M r lo n : Nat) (h : lo + n ≤ 22) :
    fld (g.bits + M * 2 ^ 22 + r) lo n = fld r lo n := by
  obtain ⟨k, hk, -⟩ := g.bits_eq
  have e : g.bits + M * 2 ^ 22 + r = 2 ^ lo * (2 ^ (22 - lo) * (k * 2 ^ 6 + M)) + r := by
    rw [← Nat.mul_assoc, ← Nat.pow_add, Nat.add_sub_cancel' (by omega : lo ≤ 22), hk]; omega
  unfold fld
  rw [e, Nat.mul_add_div (by positivity)]
  have d : 2 ^ n ∣ 2 ^ (22 - lo) * (k * 2 ^ 6 + M) := Dvd.dvd.mul_right (Nat.pow_dvd_pow 2 (by omega)) _
  obtain ⟨c, hc⟩ := d
  rw [hc, Nat.mul_add_mod]

theorem fld_major (g : Guard) (M r : Nat) (hM : M < 64) (hr : r < 2 ^ 22) : fld (g.bits + M * 2 ^ 22 + r) 22 6 = M := by
  obtain ⟨k, hk, -⟩ := g.bits_eq
  unfold fld; omega

theorem guardOf_word (g : Guard) (M r : Nat) (hM : M < 64) (hr : r < 2 ^ 22) : guardOf (g.bits + M * 2 ^ 22 + r) = g := by
  obtain ⟨n, p⟩ := g
  have := p.isLt
  cases n <;> simp only [guardOf, Guard.bits, bit, Guard.mk.injEq, Fin.ext_iff, Fin.ofNat] <;>
    refine ⟨?_, ?_⟩ <;> (simp; omega)

theorem word_lt (g : Guard) (M r : Nat) (hM : M < 64) (hr : r < 2 ^ 22) : g.bits + M * 2 ^ 22 + r < 2 ^ 32 := by
  obtain ⟨k, hk, hk2⟩ := g.bits_eq
  omega

theorem reg_low (g : Guard) (M r lo : Nat) (h : lo ≤ 17) : reg (g.bits + M * 2 ^ 22 + r) lo = reg r lo := by
  have := fld_low g M r lo 5 (by omega)
  simp only [fld] at this
  simp only [reg, Fin.ofNat, Fin.ext_iff]
  exact this

theorem bit_low (g : Guard) (M r i : Nat) (h : i < 22) : bit (g.bits + M * 2 ^ 22 + r) i = bit r i := by
  have := fld_low g M r i 1 (by omega)
  simp only [fld, Nat.pow_one] at this
  simp only [bit, this]

theorem ofNat_low (g : Guard) (M r n : Nat) (h : n ≤ 22) :
    BitVec.ofNat n (g.bits + M * 2 ^ 22 + r) = BitVec.ofNat n r := by
  have := fld_low g M r 0 n (by omega)
  simp only [fld, Nat.pow_zero, Nat.div_one] at this
  apply BitVec.eq_of_toNat_eq
  simpa using this

theorem finOf_low (g : Guard) (M r lo n : Nat) (h : lo + n ≤ 22) :
    Fin.ofNat (2 ^ n) ((g.bits + M * 2 ^ 22 + r) / 2 ^ lo) = Fin.ofNat (2 ^ n) (r / 2 ^ lo) := by
  have := fld_low g M r lo n h
  simp only [fld] at this
  simp only [Fin.ofNat, Fin.ext_iff]
  exact this

/-! ## From a word to its bytes -/

theorem drop_natLE (n v : Nat) (rest : List Byte) : (natLE n v ++ rest).drop n = rest := by
  rw [List.drop_append_of_le_length (by simp), List.drop_of_length_le (by simp), List.nil_append]

theorem decodeBytes_one (i : Instr) (W : Nat) (rest : List Byte) (hW : W < 256 ^ 4) (h2 : twoWords W = false)
    (hd : decodeScalar W 0 = .ok i) : decodeScalarBytes (natLE 4 W ++ rest) = .ok (i, rest) := by
  have hl : ¬ (natLE 4 W ++ rest).length < 4 := by simp
  unfold decodeScalarBytes
  rw [if_neg hl, fieldNat_natLE 4 W rest hW]
  simp only [h2, hd, drop_natLE, Bool.false_eq_true, if_false]

theorem decodeBytes_two (i : Instr) (W W2 : Nat) (rest : List Byte) (hW : W < 256 ^ 4) (hW2 : W2 < 256 ^ 4)
    (h2 : twoWords W = true) (hd : decodeScalar W W2 = .ok i) :
    decodeScalarBytes (natLE 4 W ++ (natLE 4 W2 ++ rest)) = .ok (i, rest) := by
  have hl : ¬ (natLE 4 W ++ (natLE 4 W2 ++ rest)).length < 4 := by simp
  have hl8 : ¬ (natLE 4 W ++ (natLE 4 W2 ++ rest)).length < 8 := by simp; omega
  have hf : fieldNat (natLE 4 W ++ (natLE 4 W2 ++ rest)) 4 4 = W2 := by
    have := fieldNat_append (natLE 4 W) (natLE 4 W2 ++ rest) 4
    rw [length_natLE] at this
    rw [this, fieldNat_natLE 4 W2 rest hW2]
  have hdrop : (natLE 4 W ++ (natLE 4 W2 ++ rest)).drop 8 = rest := by
    rw [show (8 : Nat) = 4 + 4 from rfl, ← List.drop_drop, drop_natLE, drop_natLE]
  unfold decodeScalarBytes
  rw [if_neg hl, fieldNat_natLE 4 W _ hW]
  simp only [h2, if_true, if_neg hl8, hf, hd, hdrop]

theorem decodeScalar_word (i : Instr) (g : Guard) (W W2 : Nat) (hW : guardOf W = g) (hg : g.legal = true)
    (hd : decodeMajor g W W2 = some (.ok i)) : decodeScalar W W2 = .ok i := by
  unfold decodeScalar
  rw [hW, hd]
  simp only [hg, if_true]

/-! ## Codes of enumerated fields -/

theorem Scope.code_lt (x : Scope) : x.code < 8 := by cases x <;> decide
theorem Scope.of_code (x : Scope) : scopeOf x.code = some x := by cases x <;> rfl
theorem Cond.code_lt (x : Cond) : x.code < 32 := by cases x <;> decide
theorem Cond.of_code (x : Cond) : condOf x.code = some x := by cases x <;> rfl
theorem CmpWidth.code_lt (x : CmpWidth) : x.code < 4 := by cases x <;> decide
theorem CmpWidth.of_code (x : CmpWidth) : widthOf x.code = some x := by cases x <;> rfl
theorem AtomOp.code_lt (x : AtomOp) : x.code < 8 := by cases x <;> decide
theorem AtomOp.of_code (x : AtomOp) : atomOf x.code = x := by cases x <;> rfl
theorem Transform.code_lt (x : Transform) : x.code < 16 := by cases x <;> decide
theorem Transform.of_code (x : Transform) : transformOf x.code = some x := by cases x <;> rfl
theorem PairType.code_lt (x : PairType) : x.code < 16 := by cases x <;> decide
theorem PairType.of_code (x : PairType) : pairTypeOf x.code = some x := by cases x <;> rfl
theorem Sparsity.code_lt (x : Sparsity) : x.code < 4 := by cases x <;> decide
theorem Sparsity.of_code (x : Sparsity) : sparsityOf x.code = some x := by cases x <;> rfl
theorem Level.code_lt (x : Level) : x.code < 8 := by cases x <;> decide
theorem Level.of_code (x : Level) : levelOf x.code = some x := by cases x <;> rfl
theorem CountItem.code_lt (x : CountItem) : x.code < 4 := by cases x <;> decide
theorem CountItem.of_code (x : CountItem) : countOf x.code = x := by cases x <;> rfl
theorem CollKind.code_lt (x : CollKind) : x.code < 4 := by cases x <;> decide
theorem CollKind.of_code (x : CollKind) : collKindOf x.code = x := by cases x <;> rfl
theorem CollOp.code_lt (x : CollOp) : x.code < 8 := by cases x <;> decide
theorem CollOp.of_code (x : CollOp) : collOpOf x.code = some x := by cases x <;> rfl
theorem StatItem.code_lt (x : StatItem) : x.code < 128 := by cases x <;> decide
theorem StatItem.of_code (x : StatItem) : statOf x.code = some x := by cases x <;> rfl
theorem Size.code_lt (x : Size) : x.code < 4 := by cases x <;> decide
theorem Size.of_code (x : Size) : sizeOf' x.code = x := by cases x <;> rfl
theorem Ty.code_lt (x : Ty) : x.code < 16 := by cases x <;> decide
theorem Ty.of_code (x : Ty) : tyOf x.code = some x := by cases x <;> rfl
theorem Size.code_ne (x : Size) (h : x ≠ .b8) : x.code ≠ 3 := by cases x <;> first | decide | exact absurd rfl h
theorem b2n_lt (b : Bool) : b2n b < 2 := by cases b <;> decide
theorem b2n_beq (b : Bool) : (b2n b == 1) = b := by cases b <;> rfl

/-! ## Whole encodings -/

theorem encoded_one (i : Instr) (W : Nat) (he : encode i = [W]) (hv : i.isVector = false) (hW : W < 2 ^ 32)
    (h2 : twoWords W = false) (hd : decodeScalar W 0 = .ok i) (rest : List Byte) :
    decodeScalarBytes (encodeBytes i ++ rest) = .ok (i, rest) := by
  have e : encodeBytes i = natLE 4 W := by simp [encodeBytes, he, hv]
  rw [e]
  exact decodeBytes_one i W rest hW h2 hd

theorem encoded_two (i : Instr) (W W2 : Nat) (he : encode i = [W, W2]) (hv : i.isVector = false) (hW : W < 2 ^ 32)
    (hW2 : W2 < 2 ^ 32) (h2 : twoWords W = true) (hd : decodeScalar W W2 = .ok i) (rest : List Byte) :
    decodeScalarBytes (encodeBytes i ++ rest) = .ok (i, rest) := by
  have e : encodeBytes i = natLE 4 W ++ natLE 4 W2 := by simp [encodeBytes, he, hv]
  rw [e, List.append_assoc]
  exact decodeBytes_two i W W2 rest hW hW2 h2 hd

/-! ## The SR and SI shapes: every scalar encoding is one of them, or a major over 22 bits -/

section shapes
variable (g : Guard) (M : Nat) (x y z : Fin 32) (f lo n i : Nat)

theorem encSR_sum : encSR g M x y z f = g.bits + M * 2 ^ 22 + (x.val * 2 ^ 17 + y.val * 2 ^ 12 + z.val * 2 ^ 7 + f) := by
  simp only [encSR, Nat.add_assoc]

theorem encSI_sum : encSI g M x y f = g.bits + M * 2 ^ 22 + (x.val * 2 ^ 17 + y.val * 2 ^ 12 + f) := by
  simp only [encSI, Nat.add_assoc]

theorem sr_lt (hf : f < 2 ^ 7) : x.val * 2 ^ 17 + y.val * 2 ^ 12 + z.val * 2 ^ 7 + f < 2 ^ 22 := by omega
theorem si_lt (hf : f < 2 ^ 12) : x.val * 2 ^ 17 + y.val * 2 ^ 12 + f < 2 ^ 22 := by omega

theorem sr_major (hM : M < 64) (hf : f < 2 ^ 7) : fld (encSR g M x y z f) 22 6 = M := by
  rw [encSR_sum]; exact fld_major g M _ hM (sr_lt x y z f hf)
theorem si_major (hM : M < 64) (hf : f < 2 ^ 12) : fld (encSI g M x y f) 22 6 = M := by
  rw [encSI_sum]; exact fld_major g M _ hM (si_lt x y f hf)

theorem sr_x (hf : f < 2 ^ 7) : reg (encSR g M x y z f) 17 = x := by
  rw [encSR_sum, reg_low _ _ _ _ (by decide)]; simp only [reg, Fin.ofNat, Fin.ext_iff]; omega
theorem sr_y (hf : f < 2 ^ 7) : reg (encSR g M x y z f) 12 = y := by
  rw [encSR_sum, reg_low _ _ _ _ (by decide)]; simp only [reg, Fin.ofNat, Fin.ext_iff]; omega
theorem sr_z (hf : f < 2 ^ 7) : reg (encSR g M x y z f) 7 = z := by
  rw [encSR_sum, reg_low _ _ _ _ (by decide)]; simp only [reg, Fin.ofNat, Fin.ext_iff]; omega
theorem si_x (hf : f < 2 ^ 12) : reg (encSI g M x y f) 17 = x := by
  rw [encSI_sum, reg_low _ _ _ _ (by decide)]; simp only [reg, Fin.ofNat, Fin.ext_iff]; omega
theorem si_y (hf : f < 2 ^ 12) : reg (encSI g M x y f) 12 = y := by
  rw [encSI_sum, reg_low _ _ _ _ (by decide)]; simp only [reg, Fin.ofNat, Fin.ext_iff]; omega

/-- The bits below a word's registers are those of its function field. -/
theorem low_div (a k lo n : Nat) (h : lo + n ≤ k) (r : Nat) : (a * 2 ^ k + r) / 2 ^ lo % 2 ^ n = r / 2 ^ lo % 2 ^ n := by
  have e : a * 2 ^ k + r = 2 ^ lo * (a * 2 ^ (k - lo - n) * 2 ^ n) + r := by
    have : (2 : Nat) ^ k = 2 ^ lo * (2 ^ (k - lo - n) * 2 ^ n) := by
      rw [← Nat.pow_add, ← Nat.pow_add]; congr 1; omega
    rw [this]; ring
  rw [e, Nat.mul_add_div (by positivity), Nat.mul_add_mod_self_right]

theorem sr_fld (h : lo + n ≤ 7) : fld (encSR g M x y z f) lo n = fld f lo n := by
  rw [encSR_sum, fld_low _ _ _ _ _ (by omega)]
  have e : x.val * 2 ^ 17 + y.val * 2 ^ 12 + z.val * 2 ^ 7 + f = (x.val * 2 ^ 10 + y.val * 2 ^ 5 + z.val) * 2 ^ 7 + f := by omega
  rw [e]; exact low_div _ 7 lo n h f
theorem si_fld (h : lo + n ≤ 12) : fld (encSI g M x y f) lo n = fld f lo n := by
  rw [encSI_sum, fld_low _ _ _ _ _ (by omega)]
  have e : x.val * 2 ^ 17 + y.val * 2 ^ 12 + f = (x.val * 2 ^ 5 + y.val) * 2 ^ 12 + f := by omega
  rw [e]; exact low_div _ 12 lo n h f
theorem si_fld17 (hf : f < 2 ^ 12) : fld (encSI g M x y f) 0 17 = y.val * 2 ^ 12 + f := by
  rw [encSI_sum, fld_low _ _ _ _ _ (by omega)]; unfold fld; omega

theorem sr_bit (h : i < 7) : bit (encSR g M x y z f) i = bit f i := by
  have := sr_fld g M x y z f i 1 (by omega)
  simp only [fld, Nat.pow_one] at this
  simp only [bit, this]
theorem si_bit (h : i < 12) : bit (encSI g M x y f) i = bit f i := by
  have := si_fld g M x y f i 1 (by omega)
  simp only [fld, Nat.pow_one] at this
  simp only [bit, this]

theorem ofNat_fld (n w : Nat) : BitVec.ofNat n w = BitVec.ofNat n (fld w 0 n) := by
  apply BitVec.eq_of_toNat_eq; simp [fld]
theorem fin_fld (k n w : Nat) : Fin.ofNat (2 ^ k) (w / 2 ^ n) = Fin.ofNat (2 ^ k) (fld w n k) := by
  apply Fin.ext; simp [fld, Fin.ofNat]
theorem fin0_fld (k w : Nat) : Fin.ofNat (2 ^ k) w = Fin.ofNat (2 ^ k) (fld w 0 k) := by
  apply Fin.ext; simp [fld, Fin.ofNat]
theorem fin8_fld (n w : Nat) : Fin.ofNat 8 (w / 2 ^ n) = Fin.ofNat 8 (fld w n 3) := fin_fld 3 n w
theorem fin16_fld (n w : Nat) : Fin.ofNat 16 (w / 2 ^ n) = Fin.ofNat 16 (fld w n 4) := fin_fld 4 n w
theorem fin8_fld0 (w : Nat) : Fin.ofNat 8 w = Fin.ofNat 8 (fld w 0 3) := fin0_fld 3 w
theorem fin16_fld0 (w : Nat) : Fin.ofNat 16 w = Fin.ofNat 16 (fld w 0 4) := fin0_fld 4 w
theorem fin64_fld0 (w : Nat) : Fin.ofNat 64 w = Fin.ofNat 64 (fld w 0 6) := fin0_fld 6 w
theorem fin128_fld0 (w : Nat) : Fin.ofNat 128 w = Fin.ofNat 128 (fld w 0 7) := fin0_fld 7 w

theorem sr_reg (h : lo + 5 ≤ 7) : reg (encSR g M x y z f) lo = reg f lo := by
  have := sr_fld g M x y z f lo 5 h
  simp only [fld] at this
  simp only [reg, Fin.ofNat, Fin.ext_iff]; exact this
theorem sr_ofNat (h : n ≤ 7) : BitVec.ofNat n (encSR g M x y z f) = BitVec.ofNat n f := by
  rw [ofNat_fld, sr_fld _ _ _ _ _ _ _ _ (by omega), ← ofNat_fld]
theorem si_ofNat (h : n ≤ 12) : BitVec.ofNat n (encSI g M x y f) = BitVec.ofNat n f := by
  rw [ofNat_fld, si_fld _ _ _ _ _ _ _ (by omega), ← ofNat_fld]
theorem sr_fin64 : Fin.ofNat 64 (encSR g M x y z f) = Fin.ofNat 64 f := by
  rw [fin64_fld0, sr_fld _ _ _ _ _ _ _ _ (by decide), ← fin64_fld0]
theorem si_fin8 : Fin.ofNat 8 (encSI g M x y f) = Fin.ofNat 8 f := by
  rw [fin8_fld0, si_fld _ _ _ _ _ _ _ (by decide), ← fin8_fld0]
theorem si_fin64 : Fin.ofNat 64 (encSI g M x y f) = Fin.ofNat 64 f := by
  rw [fin64_fld0, si_fld _ _ _ _ _ _ _ (by decide), ← fin64_fld0]
theorem si_fin128 : Fin.ofNat 128 (encSI g M x y f) = Fin.ofNat 128 f := by
  rw [fin128_fld0, si_fld _ _ _ _ _ _ _ (by decide), ← fin128_fld0]
/-- Parts of the three register fields, where they hold predicates, handles or queue registers. -/
theorem sr_part (hf : f < 2 ^ 7) (k n : Nat) (h : k + n ≤ 5) :
    fld (encSR g M x y z f) (17 + k) n = fld x.val k n ∧ fld (encSR g M x y z f) (12 + k) n = fld y.val k n ∧
      fld (encSR g M x y z f) (7 + k) n = fld z.val k n := by
  have aux : ∀ lo, lo ≤ 17 → fld (encSR g M x y z f) (lo + k) n = fld (reg (encSR g M x y z f) lo).val k n := by
    intro lo _
    have e := low_div (encSR g M x y z f / 2 ^ lo / 2 ^ 5) 5 k n h (encSR g M x y z f / 2 ^ lo % 2 ^ 5)
    rw [Nat.div_add_mod'] at e
    simp only [fld, reg, Fin.ofNat, Nat.pow_add, ← Nat.div_div_eq_div_mul]
    exact e
  exact ⟨by rw [aux 17 (by decide), sr_x _ _ _ _ _ _ hf], by rw [aux 12 (by decide), sr_y _ _ _ _ _ _ hf],
    by rw [aux 7 (by decide), sr_z _ _ _ _ _ _ hf]⟩

theorem sr_x_hi (hf : f < 2 ^ 7) : fld (encSR g M x y z f) 20 2 = fld x.val 3 2 := (sr_part g M x y z f hf 3 2 (by decide)).1
theorem sr_y_hi (hf : f < 2 ^ 7) : fld (encSR g M x y z f) 15 2 = fld y.val 3 2 := (sr_part g M x y z f hf 3 2 (by decide)).2.1
theorem sr_z_hi (hf : f < 2 ^ 7) : fld (encSR g M x y z f) 10 2 = fld z.val 3 2 := (sr_part g M x y z f hf 3 2 (by decide)).2.2
theorem sr_y_bit (hf : f < 2 ^ 7) : bit (encSR g M x y z f) 16 = bit y.val 4 := by
  have := (sr_part g M x y z f hf 4 1 (by decide)).2.1
  simp only [fld, Nat.pow_one] at this
  simp only [bit, this]
theorem sr_x8 (hf : f < 2 ^ 7) : Fin.ofNat 8 (encSR g M x y z f / 2 ^ 17) = Fin.ofNat 8 x.val := by
  have := (sr_part g M x y z f hf 0 3 (by decide)).1
  rw [fin8_fld, show fld (encSR g M x y z f) _ _ = _ from this, ← fin8_fld0]
theorem sr_y8 (hf : f < 2 ^ 7) : Fin.ofNat 8 (encSR g M x y z f / 2 ^ 12) = Fin.ofNat 8 y.val := by
  have := (sr_part g M x y z f hf 0 3 (by decide)).2.1
  rw [fin8_fld, show fld (encSR g M x y z f) _ _ = _ from this, ← fin8_fld0]
theorem sr_z8 (hf : f < 2 ^ 7) : Fin.ofNat 8 (encSR g M x y z f / 2 ^ 7) = Fin.ofNat 8 z.val := by
  have := (sr_part g M x y z f hf 0 3 (by decide)).2.2
  rw [fin8_fld, show fld (encSR g M x y z f) _ _ = _ from this, ← fin8_fld0]
theorem sr_y16 (hf : f < 2 ^ 7) : Fin.ofNat 16 (encSR g M x y z f / 2 ^ 12) = Fin.ofNat 16 y.val := by
  have := (sr_part g M x y z f hf 0 4 (by decide)).2.1
  rw [fin16_fld, show fld (encSR g M x y z f) _ _ = _ from this, ← fin16_fld0]
end shapes

/-- A scalar instruction whose one word has the SR shape: its decoding under its major gives it back. -/
theorem sr_round {i : Instr} {g : Guard} {M : Nat} {x y z : Fin 32} {f : Nat} (he : encode i = [encSR g M x y z f])
    (hv : i.isVector = false) (hg : i.wf = true → g.legal = true ∧ i.combinationOk = true) (hM : M < 64) (hf : f < 2 ^ 7)
    (h2 : twoWords (encSR g M x y z f) = false)
    (hd : i.combinationOk = true → decodeMajor g (encSR g M x y z f) 0 = some (.ok i)) (hwf : i.wf = true) (rest : List Byte) :
    decodeScalarBytes (encodeBytes i ++ rest) = .ok (i, rest) := by
  obtain ⟨hl, hc⟩ := hg hwf
  refine encoded_one i _ he hv ?_ h2 (decodeScalar_word i g _ 0 ?_ hl (hd hc)) rest
  · rw [encSR_sum]; exact word_lt g M _ hM (sr_lt x y z f hf)
  · rw [encSR_sum]; exact guardOf_word g M _ hM (sr_lt x y z f hf)

theorem si_round {i : Instr} {g : Guard} {M : Nat} {x y : Fin 32} {f : Nat} (he : encode i = [encSI g M x y f])
    (hv : i.isVector = false) (hg : i.wf = true → g.legal = true ∧ i.combinationOk = true) (hM : M < 64) (hf : f < 2 ^ 12)
    (h2 : twoWords (encSI g M x y f) = false)
    (hd : i.combinationOk = true → decodeMajor g (encSI g M x y f) 0 = some (.ok i)) (hwf : i.wf = true) (rest : List Byte) :
    decodeScalarBytes (encodeBytes i ++ rest) = .ok (i, rest) := by
  obtain ⟨hl, hc⟩ := hg hwf
  refine encoded_one i _ he hv ?_ h2 (decodeScalar_word i g _ 0 ?_ hl (hd hc)) rest
  · rw [encSI_sum]; exact word_lt g M _ hM (si_lt x y f hf)
  · rw [encSI_sum]; exact guardOf_word g M _ hM (si_lt x y f hf)

theorem wf_scalar {i : Instr} {g : Guard} (hv : i.vword = none) (hg : i.guard? = some g) (h : i.wf = true) :
    g.legal = true ∧ i.combinationOk = true := by
  simpa only [Instr.wf, hv, hg, Bool.and_eq_true] using h

/-- The two-word forms (06 R157), and words whose 22 bits are one field. -/
theorem word_round {i : Instr} {g : Guard} {M r : Nat} (he : encode i = [g.bits + M * 2 ^ 22 + r])
    (hv : i.isVector = false) (hg : i.wf = true → g.legal = true ∧ i.combinationOk = true) (hM : M < 64) (hr : r < 2 ^ 22)
    (h2 : twoWords (g.bits + M * 2 ^ 22 + r) = false)
    (hd : i.combinationOk = true → decodeMajor g (g.bits + M * 2 ^ 22 + r) 0 = some (.ok i)) (hwf : i.wf = true)
    (rest : List Byte) : decodeScalarBytes (encodeBytes i ++ rest) = .ok (i, rest) := by
  obtain ⟨hl, hc⟩ := hg hwf
  exact encoded_one i _ he hv (word_lt g M r hM hr) h2 (decodeScalar_word i g _ 0 (guardOf_word g M r hM hr) hl (hd hc)) rest

theorem word_round_two {i : Instr} {g : Guard} {M r w2 : Nat} (he : encode i = [g.bits + M * 2 ^ 22 + r, w2])
    (hv : i.isVector = false) (hg : i.wf = true → g.legal = true ∧ i.combinationOk = true) (hM : M < 64) (hr : r < 2 ^ 22)
    (hw : w2 < 2 ^ 32) (h2 : twoWords (g.bits + M * 2 ^ 22 + r) = true)
    (hd : i.combinationOk = true → decodeMajor g (g.bits + M * 2 ^ 22 + r) w2 = some (.ok i)) (hwf : i.wf = true)
    (rest : List Byte) : decodeScalarBytes (encodeBytes i ++ rest) = .ok (i, rest) := by
  obtain ⟨hl, hc⟩ := hg hwf
  exact encoded_two i _ w2 he hv (word_lt g M r hM hr) hw h2
    (decodeScalar_word i g _ w2 (guardOf_word g M r hM hr) hl (hd hc)) rest

theorem sr_round_two {i : Instr} {g : Guard} {M : Nat} {x y z : Fin 32} {f w2 : Nat}
    (he : encode i = [encSR g M x y z f, w2]) (hv : i.isVector = false)
    (hg : i.wf = true → g.legal = true ∧ i.combinationOk = true) (hM : M < 64) (hf : f < 2 ^ 7) (hw : w2 < 2 ^ 32)
    (h2 : twoWords (encSR g M x y z f) = true)
    (hd : i.combinationOk = true → decodeMajor g (encSR g M x y z f) w2 = some (.ok i)) (hwf : i.wf = true)
    (rest : List Byte) : decodeScalarBytes (encodeBytes i ++ rest) = .ok (i, rest) := by
  rw [encSR_sum] at he h2 hd
  exact word_round_two he hv hg hM (sr_lt x y z f hf) hw h2 hd hwf rest

theorem si_round_two {i : Instr} {g : Guard} {M : Nat} {x y : Fin 32} {f w2 : Nat}
    (he : encode i = [encSI g M x y f, w2]) (hv : i.isVector = false)
    (hg : i.wf = true → g.legal = true ∧ i.combinationOk = true) (hM : M < 64) (hf : f < 2 ^ 12) (hw : w2 < 2 ^ 32)
    (h2 : twoWords (encSI g M x y f) = true)
    (hd : i.combinationOk = true → decodeMajor g (encSI g M x y f) w2 = some (.ok i)) (hwf : i.wf = true)
    (rest : List Byte) : decodeScalarBytes (encodeBytes i ++ rest) = .ok (i, rest) := by
  rw [encSI_sum] at he h2 hd
  exact word_round_two he hv hg hM (si_lt x y f hf) hw h2 hd hwf rest

/-! ## Matrix words -/

theorem MatFields.word_lt (m : MatFields) (mode : Nat) (h : mode < 4) : m.word mode < 2 ^ 22 := by
  have := b2n_lt m.eighth; have := b2n_lt m.acc; have := PairType.code_lt m.pair; have := Sparsity.code_lt m.sparsity
  unfold MatFields.word; omega

theorem MatFields.word_mode (m : MatFields) (mode : Nat) (h : mode < 4) : fld (m.word mode) 0 2 = mode := by
  unfold MatFields.word fld; omega

/-- A word built from its top field down: each field below the last. -/
theorem cat_lt {h r m k : Nat} (hh : h < 2 ^ m) (hr : r < 2 ^ k) : h * 2 ^ k + r < 2 ^ (m + k) := by
  have : (h + 1) * 2 ^ k ≤ 2 ^ m * 2 ^ k := Nat.mul_le_mul_right _ hh
  rw [Nat.pow_add]; rw [Nat.add_mul] at this; omega

theorem fld_hi {h r k lo n : Nat} (hr : r < 2 ^ k) (hk : k ≤ lo) : fld (h * 2 ^ k + r) lo n = fld h (lo - k) n := by
  have e : (2 : Nat) ^ lo = 2 ^ k * 2 ^ (lo - k) := by rw [← Nat.pow_add]; congr 1; omega
  have d : (h * 2 ^ k + r) / 2 ^ k = h := by
    rw [Nat.add_comm, Nat.add_mul_div_right _ _ (by positivity), Nat.div_eq_of_lt hr, Nat.zero_add]
  unfold fld; rw [e, ← Nat.div_div_eq_div_mul, d]

theorem fld_lo {h r k lo n : Nat} (hk : lo + n ≤ k) : fld (h * 2 ^ k + r) lo n = fld r lo n := low_div h k lo n hk r

theorem fld_all {r n : Nat} (h : r < 2 ^ n) : fld r 0 n = r := by simp [fld, Nat.mod_eq_of_lt h]

theorem bit_fld (w i : Nat) : bit w i = (fld w i 1 == 1) := by simp only [bit, fld, Nat.pow_one]
theorem fin2_fld (n w : Nat) : Fin.ofNat 2 (w / 2 ^ n) = Fin.ofNat 2 (fld w n 1) := fin_fld 1 n w
theorem fin4_fld (n w : Nat) : Fin.ofNat 4 (w / 2 ^ n) = Fin.ofNat 4 (fld w n 2) := fin_fld 2 n w
theorem fin128_fld (n w : Nat) : Fin.ofNat 128 (w / 2 ^ n) = Fin.ofNat 128 (fld w n 7) := fin_fld 7 n w
theorem reg_fld (w lo : Nat) : reg w lo = Fin.ofNat 32 (fld w lo 5) := fin_fld 5 lo w
theorem ofNat_div_fld (n lo w : Nat) : BitVec.ofNat n (w / 2 ^ lo) = BitVec.ofNat n (fld w lo n) := by
  apply BitVec.eq_of_toNat_eq; simp [fld]

theorem MatFields.word_cat (m : MatFields) (mode : Nat) : m.word mode =
    ((((((((m.tile.val * 2 ^ 2 + m.fa.val) * 2 ^ 1 + m.fb.val) * 2 ^ 2 + m.m.val) * 2 ^ 2 + m.n.val) * 2 ^ 1
      + b2n m.eighth) * 2 ^ 4 + m.pair.code) * 2 ^ 1 + b2n m.acc) * 2 ^ 2 + m.sparsity.code) * 2 ^ 2 + mode := by
  unfold MatFields.word; ring

theorem fin_self {n : Nat} [NeZero n] (i : Fin n) : Fin.ofNat n i.val = i := by
  apply Fin.ext; simp [Fin.ofNat, Nat.mod_eq_of_lt i.isLt]

theorem matFieldsOf_eq (w : Nat) (m : MatFields) (h1 : fld w 17 5 = m.tile.val) (h2 : fld w 15 2 = m.fa.val)
    (h3 : fld w 14 1 = m.fb.val) (h4 : fld w 12 2 = m.m.val) (h5 : fld w 10 2 = m.n.val) (h6 : fld w 9 1 = b2n m.eighth)
    (h7 : fld w 5 4 = m.pair.code) (h8 : fld w 4 1 = b2n m.acc) (h9 : fld w 2 2 = m.sparsity.code) :
    matFieldsOf w = some m := by
  simp only [matFieldsOf, reg_fld, fin2_fld, fin4_fld, bit_fld, h1, h2, h3, h4, h5, h6, h7, h8, h9, PairType.of_code,
    Sparsity.of_code, b2n_beq, fin_self]

/-- What a matrix word's fields read (06 R169, R170). -/
theorem MatFields.word_fields (m : MatFields) (mode : Nat) (h : mode < 4) :
    fld (m.word mode) 17 5 = m.tile.val ∧ fld (m.word mode) 15 2 = m.fa.val ∧ fld (m.word mode) 14 1 = m.fb.val ∧
      fld (m.word mode) 12 2 = m.m.val ∧ fld (m.word mode) 10 2 = m.n.val ∧ fld (m.word mode) 9 1 = b2n m.eighth ∧
      fld (m.word mode) 5 4 = m.pair.code ∧ fld (m.word mode) 4 1 = b2n m.acc ∧
      fld (m.word mode) 2 2 = m.sparsity.code := by
  have h0 : mode < 2 ^ 2 := h
  have h1 : b2n m.eighth < 2 ^ 1 := b2n_lt _
  have h2 : b2n m.acc < 2 ^ 1 := b2n_lt _
  have h3 : m.pair.code < 2 ^ 4 := PairType.code_lt _
  have h4 : m.sparsity.code < 2 ^ 2 := Sparsity.code_lt _
  have h5 : m.fa.val < 2 ^ 2 := m.fa.isLt
  have h6 : m.fb.val < 2 ^ 1 := m.fb.isLt
  have h7 : m.m.val < 2 ^ 2 := m.m.isLt
  have h8 : m.n.val < 2 ^ 2 := m.n.isLt
  have h9 : m.tile.val < 2 ^ 5 := m.tile.isLt
  rw [MatFields.word_cat]
  simp (disch := first | assumption | decide) only [fld_hi, fld_lo, fld_all, Nat.reduceSub, and_self]

theorem matFieldsOf_low (g : Guard) (M r : Nat) (m : MatFields) (h : fld r 17 5 = m.tile.val ∧ fld r 15 2 = m.fa.val ∧
    fld r 14 1 = m.fb.val ∧ fld r 12 2 = m.m.val ∧ fld r 10 2 = m.n.val ∧ fld r 9 1 = b2n m.eighth ∧
    fld r 5 4 = m.pair.code ∧ fld r 4 1 = b2n m.acc ∧ fld r 2 2 = m.sparsity.code) :
    matFieldsOf (g.bits + M * 2 ^ 22 + r) = some m := by
  obtain ⟨h1, h2, h3, h4, h5, h6, h7, h8, h9⟩ := h
  have k (lo n : Nat) (hl : lo + n ≤ 22) := fld_low g M r lo n hl
  exact matFieldsOf_eq _ m (by rw [k 17 5 (by decide), h1]) (by rw [k 15 2 (by decide), h2]) (by rw [k 14 1 (by decide), h3])
    (by rw [k 12 2 (by decide), h4]) (by rw [k 10 2 (by decide), h5]) (by rw [k 9 1 (by decide), h6])
    (by rw [k 5 4 (by decide), h7]) (by rw [k 4 1 (by decide), h8]) (by rw [k 2 2 (by decide), h9])

theorem matFieldsOf_word (g : Guard) (M : Nat) (m : MatFields) (mode : Nat) (h : mode < 4) :
    matFieldsOf (g.bits + M * 2 ^ 22 + m.word mode) = some m := matFieldsOf_low g M _ m (m.word_fields mode h)

/-! ## Vector words -/

theorem Operand.code_lt (o : Operand) : o.code < 512 := by cases o <;> simp [Operand.code] <;> omega

theorem operandOf_code (o : Operand) : operandOf o.code = some o := by
  cases o with
  | reg i =>
    have e : fld i.val 7 2 = 0 := by unfold fld; omega
    have k : Fin.ofNat 128 i.val = i := by apply Fin.ext; simp [Fin.ofNat]
    simp only [operandOf, Operand.code, e, k]
  | latch i =>
    have e : fld (128 + i.val) 7 2 = 1 := by unfold fld; omega
    have k : Fin.ofNat 128 (128 + i.val) = i := by apply Fin.ext; simp only [Fin.ofNat]; omega
    simp only [operandOf, Operand.code, e, k]
  | special i =>
    have e : fld (256 + i.val) 7 2 = 2 := by unfold fld; omega
    have k : Fin.ofNat 128 (256 + i.val) = i := by apply Fin.ext; simp only [Fin.ofNat]; omega
    simp only [operandOf, Operand.code, e, k]
  | imm => rfl

theorem VWord.encode_cat (op : Nat) (v : VWord) : v.encode op =
    ((((((((((op * 2 ^ 1 + b2n v.neg) * 2 ^ 4 + v.gm.val) * 2 ^ 1 + b2n v.chain) * 2 ^ 1 + b2n v.nowb) * 2 ^ 4 + v.ty.code)
      * 2 ^ 7 + v.dst.val) * 2 ^ 9 + v.a.code) * 2 ^ 9 + v.b.code) * 2 ^ 9 + v.c.code) * 2 ^ 11 + v.mod.toNat) * 2 ^ 32
      + v.imm.toNat := by
  unfold VWord.encode; ring

theorem vFields_eq (w : Nat) (v : VWord) (h1 : fld w 87 1 = b2n v.neg) (h2 : fld w 83 4 = v.gm.val)
    (h3 : fld w 82 1 = b2n v.chain) (h4 : fld w 81 1 = b2n v.nowb) (h5 : fld w 77 4 = v.ty.code)
    (h6 : fld w 70 7 = v.dst.val) (h7 : fld w 61 9 = v.a.code) (h8 : fld w 52 9 = v.b.code) (h9 : fld w 43 9 = v.c.code)
    (h10 : fld w 32 11 = v.mod.toNat) (h11 : fld w 0 32 = v.imm.toNat) : vFields w = some v := by
  simp only [vFields, bit_fld, fin16_fld, fin128_fld, ofNat_div_fld, h1, h2, h3, h4, h5, h6, h7, h8, h9, h10]
  rw [ofNat_fld 32, h11]
  simp only [operandOf_code, Ty.of_code, b2n_beq, fin_self, BitVec.ofNat_toNat, BitVec.setWidth_eq]

/-- What a vector word's fields read: each where 06 R162 places it. -/
theorem VWord.encode_fields (op : Nat) (v : VWord) (h : op < 256) :
    fld (v.encode op) 88 8 = op ∧ fld (v.encode op) 87 1 = b2n v.neg ∧ fld (v.encode op) 83 4 = v.gm.val ∧
      fld (v.encode op) 82 1 = b2n v.chain ∧ fld (v.encode op) 81 1 = b2n v.nowb ∧ fld (v.encode op) 77 4 = v.ty.code ∧
      fld (v.encode op) 70 7 = v.dst.val ∧ fld (v.encode op) 61 9 = v.a.code ∧ fld (v.encode op) 52 9 = v.b.code ∧
      fld (v.encode op) 43 9 = v.c.code ∧ fld (v.encode op) 32 11 = v.mod.toNat ∧ fld (v.encode op) 0 32 = v.imm.toNat := by
  have h0 : op < 2 ^ 8 := h
  have h1 : b2n v.neg < 2 ^ 1 := b2n_lt _
  have h2 : v.gm.val < 2 ^ 4 := v.gm.isLt
  have h3 : b2n v.chain < 2 ^ 1 := b2n_lt _
  have h4 : b2n v.nowb < 2 ^ 1 := b2n_lt _
  have h5 : v.ty.code < 2 ^ 4 := Ty.code_lt _
  have h6 : v.dst.val < 2 ^ 7 := v.dst.isLt
  have h7 : v.a.code < 2 ^ 9 := Operand.code_lt _
  have h8 : v.b.code < 2 ^ 9 := Operand.code_lt _
  have h9 : v.c.code < 2 ^ 9 := Operand.code_lt _
  have h10 : v.mod.toNat < 2 ^ 11 := v.mod.isLt
  have h11 : v.imm.toNat < 2 ^ 32 := v.imm.isLt
  rw [VWord.encode_cat]
  simp (disch := first | assumption | decide) only [fld_hi, fld_lo, fld_all, Nat.reduceSub, and_self]

theorem VWord.encode_lt (op : Nat) (v : VWord) (h : op < 256) : v.encode op < 256 ^ 12 := by
  have h0 : op < 2 ^ 8 := h
  have h1 : b2n v.neg < 2 ^ 1 := b2n_lt _
  have h3 : b2n v.chain < 2 ^ 1 := b2n_lt _
  have h4 : b2n v.nowb < 2 ^ 1 := b2n_lt _
  have h5 : v.ty.code < 2 ^ 4 := Ty.code_lt _
  have h7 : v.a.code < 2 ^ 9 := Operand.code_lt _
  have h8 : v.b.code < 2 ^ 9 := Operand.code_lt _
  have h9 : v.c.code < 2 ^ 9 := Operand.code_lt _
  have h10 : v.mod.toNat < 2 ^ 11 := v.mod.isLt
  have h11 : v.imm.toNat < 2 ^ 32 := v.imm.isLt
  have e : (256 : Nat) ^ 12 = 2 ^ (8 + 1 + 4 + 1 + 1 + 4 + 7 + 9 + 9 + 9 + 11 + 32) := by norm_num
  rw [VWord.encode_cat, e]
  exact cat_lt (cat_lt (cat_lt (cat_lt (cat_lt (cat_lt (cat_lt (cat_lt (cat_lt (cat_lt (cat_lt h0 h1) v.gm.isLt) h3) h4) h5)
    v.dst.isLt) h7) h8) h9) h10) h11

theorem vFields_encode (op : Nat) (v : VWord) (h : op < 256) :
    v.encode op < 256 ^ 12 ∧ fld (v.encode op) 88 8 = op ∧ vFields (v.encode op) = some v := by
  obtain ⟨h0, h1, h2, h3, h4, h5, h6, h7, h8, h9, h10, h11⟩ := v.encode_fields op h
  exact ⟨v.encode_lt op h, h0, vFields_eq _ v h1 h2 h3 h4 h5 h6 h7 h8 h9 h10 h11⟩

theorem decodeVector_of {W op : Nat} {v : VWord} {i : Instr} {mk : VWord → Instr} (hf : fld W 88 8 = op)
    (hs : vFields W = some v) (hc : vCtor op = some mk) (hm : mk v = i) (hok : v.ok op = true) : decodeVector W = .ok i := by
  unfold decodeVector
  simp only [hf, hc, hs, hok, if_true, hm]

theorem decodeVectorBytes_of {W : Nat} {i : Instr} (hl : W < 256 ^ 12) (hd : decodeVector W = .ok i) (rest : List Byte) :
    decodeVectorBytes (natLE 12 W ++ rest) = .ok (i, rest) := by
  have hlen : ¬ (natLE 12 W ++ rest).length < 12 := by simp
  unfold decodeVectorBytes
  rw [if_neg hlen, fieldNat_natLE 12 W rest hl, hd, drop_natLE]

theorem vector_decode {i : Instr} {op : Nat} {v : VWord} {mk : VWord → Instr} (hv : i.vword = some (op, v)) (hop : op < 256)
    (hc : vCtor op = some mk) (hm : mk v = i) (hi : i.isVector = true) (hwf : i.wf = true) (rest : List Byte) :
    decodeVectorBytes (encodeBytes i ++ rest) = .ok (i, rest) := by
  obtain ⟨hl, hf, hs⟩ := vFields_encode op v hop
  have e : encodeBytes i = natLE 12 (v.encode op) := by
    have : encode i = [v.encode op] := by unfold encode; rw [hv]
    simp [encodeBytes, this, hi]
  have hok : v.ok op = true := by simpa only [Instr.wf, hv] using hwf
  rw [e]
  exact decodeVectorBytes_of hl (decodeVector_of hf hs hc hm hok) rest

end Sys2Proof
end

