-- ==== Sys2Proof/Laws/PerInstr.lean ====
section
/-! SUPPORT. The round trip of the encoding, one lemma for each constructor: the bytes of a well-formed instruction decode
to it, whatever bytes follow. -/

namespace Sys2Proof.Laws.RoundTrip

open Sys2Proof Sys2Proof.Machine

/-- Decoding what the encoder gives for an instruction gives the instruction back, with the bytes that follow it. -/
def Statement (i : Instr) : Prop :=
  (i.wf = true → i.isScalar = true → ∀ rest, decodeScalarBytes (encodeBytes i ++ rest) = .ok (i, rest))
    ∧ (i.wf = true → i.isVector = true → ∀ rest, decodeVectorBytes (encodeBytes i ++ rest) = .ok (i, rest))

theorem snop (g : Guard) : Statement (.snop g) := by
  refine ⟨fun hwf _ => ?_, fun _ hw => Bool.noConfusion hw⟩
  refine sr_round (M := 0) (x := 0) (y := 0) (z := 0) (f := 0) rfl rfl (wf_scalar rfl rfl) (by decide) (by decide) (by simp (disch := first | decide | assumption) only [twoWords, sr_major]) (fun _ => ?_) hwf
  simp (disch := first | decide | assumption) only [decodeMajor, sr_major, sr_x, sr_y, sr_z, sr_fld]
  all_goals rfl

theorem sbrk (g : Guard) : Statement (.sbrk g) := by
  refine ⟨fun hwf _ => ?_, fun _ hw => Bool.noConfusion hw⟩
  refine sr_round (M := 0) (x := 0) (y := 0) (z := 0) (f := 1) rfl rfl (wf_scalar rfl rfl) (by decide) (by decide) (by simp (disch := first | decide | assumption) only [twoWords, sr_major]) (fun _ => ?_) hwf
  simp (disch := first | decide | assumption) only [decodeMajor, sr_major, sr_x, sr_y, sr_z, sr_fld]
  all_goals rfl

theorem syield (g : Guard) : Statement (.syield g) := by
  refine ⟨fun hwf _ => ?_, fun _ hw => Bool.noConfusion hw⟩
  refine sr_round (M := 0) (x := 0) (y := 0) (z := 0) (f := 2) rfl rfl (wf_scalar rfl rfl) (by decide) (by decide) (by simp (disch := first | decide | assumption) only [twoWords, sr_major]) (fun _ => ?_) hwf
  simp (disch := first | decide | assumption) only [decodeMajor, sr_major, sr_x, sr_y, sr_z, sr_fld]
  all_goals rfl

theorem sexit (g : Guard) : Statement (.sexit g) := by
  refine ⟨fun hwf _ => ?_, fun _ hw => Bool.noConfusion hw⟩
  refine sr_round (M := 0) (x := 0) (y := 0) (z := 0) (f := 3) rfl rfl (wf_scalar rfl rfl) (by decide) (by decide) (by simp (disch := first | decide | assumption) only [twoWords, sr_major]) (fun _ => ?_) hwf
  simp (disch := first | decide | assumption) only [decodeMajor, sr_major, sr_x, sr_y, sr_z, sr_fld]
  all_goals rfl

theorem sfence (g : Guard) (sc : Scope) : Statement (.sfence g sc) := by
  refine ⟨fun hwf _ => ?_, fun _ hw => Bool.noConfusion hw⟩
  have hz : fld (Fin.ofNat 32 sc.code).val 0 3 = sc.code := by cases sc <;> rfl
  have hh : fld (Fin.ofNat 32 sc.code).val 3 2 = 0 := by cases sc <;> rfl
  have he : encode (.sfence g sc) = [encSR g 0 0 0 (Fin.ofNat 32 sc.code) 4] := by cases sc <;> simp [encode, Instr.vword, Instr.scalarWords, encSR, Scope.code]
  refine sr_round he rfl (wf_scalar rfl rfl) (by decide) (by decide) (by simp (disch := decide) only [twoWords, sr_major]) (fun _ => ?_) hwf
  have h7 := (sr_part g 0 0 0 (Fin.ofNat 32 sc.code) 4 (by decide) 0 3 (by decide)).2.2
  simp (disch := decide) only [decodeMajor, sr_major, sr_x, sr_y, sr_z_hi, sr_fld, hh, h7, hz, Scope.of_code]; rfl

theorem sadd (g : Guard) (d a b : SReg) : Statement (.sadd g d a b) := by
  refine ⟨fun hwf _ => ?_, fun _ hw => Bool.noConfusion hw⟩
  refine sr_round (M := 1) (x := d) (y := a) (z := b) (f := 0) rfl rfl (wf_scalar rfl rfl) (by decide) (by decide) (by simp (disch := first | decide | assumption) only [twoWords, sr_major]) (fun _ => ?_) hwf
  simp (disch := first | decide | assumption) only [decodeMajor, sr_major, sr_x, sr_y, sr_z, sr_fld]
  all_goals rfl

theorem ssub (g : Guard) (d a b : SReg) : Statement (.ssub g d a b) := by
  refine ⟨fun hwf _ => ?_, fun _ hw => Bool.noConfusion hw⟩
  refine sr_round (M := 1) (x := d) (y := a) (z := b) (f := 1) rfl rfl (wf_scalar rfl rfl) (by decide) (by decide) (by simp (disch := first | decide | assumption) only [twoWords, sr_major]) (fun _ => ?_) hwf
  simp (disch := first | decide | assumption) only [decodeMajor, sr_major, sr_x, sr_y, sr_z, sr_fld]
  all_goals rfl

theorem smul (g : Guard) (d a b : SReg) : Statement (.smul g d a b) := by
  refine ⟨fun hwf _ => ?_, fun _ hw => Bool.noConfusion hw⟩
  refine sr_round (M := 1) (x := d) (y := a) (z := b) (f := 2) rfl rfl (wf_scalar rfl rfl) (by decide) (by decide) (by simp (disch := first | decide | assumption) only [twoWords, sr_major]) (fun _ => ?_) hwf
  simp (disch := first | decide | assumption) only [decodeMajor, sr_major, sr_x, sr_y, sr_z, sr_fld]
  all_goals rfl

theorem smulh (g : Guard) (d a b : SReg) : Statement (.smulh g d a b) := by
  refine ⟨fun hwf _ => ?_, fun _ hw => Bool.noConfusion hw⟩
  refine sr_round (M := 1) (x := d) (y := a) (z := b) (f := 3) rfl rfl (wf_scalar rfl rfl) (by decide) (by decide) (by simp (disch := first | decide | assumption) only [twoWords, sr_major]) (fun _ => ?_) hwf
  simp (disch := first | decide | assumption) only [decodeMajor, sr_major, sr_x, sr_y, sr_z, sr_fld]
  all_goals rfl

theorem smulhw (g : Guard) (d a b : SReg) : Statement (.smulhw g d a b) := by
  refine ⟨fun hwf _ => ?_, fun _ hw => Bool.noConfusion hw⟩
  refine sr_round (M := 1) (x := d) (y := a) (z := b) (f := 4) rfl rfl (wf_scalar rfl rfl) (by decide) (by decide) (by simp (disch := first | decide | assumption) only [twoWords, sr_major]) (fun _ => ?_) hwf
  simp (disch := first | decide | assumption) only [decodeMajor, sr_major, sr_x, sr_y, sr_z, sr_fld]
  all_goals rfl

theorem sdivw (g : Guard) (d a b : SReg) : Statement (.sdivw g d a b) := by
  refine ⟨fun hwf _ => ?_, fun _ hw => Bool.noConfusion hw⟩
  refine sr_round (M := 1) (x := d) (y := a) (z := b) (f := 5) rfl rfl (wf_scalar rfl rfl) (by decide) (by decide) (by simp (disch := first | decide | assumption) only [twoWords, sr_major]) (fun _ => ?_) hwf
  simp (disch := first | decide | assumption) only [decodeMajor, sr_major, sr_x, sr_y, sr_z, sr_fld]
  all_goals rfl

theorem sremw (g : Guard) (d a b : SReg) : Statement (.sremw g d a b) := by
  refine ⟨fun hwf _ => ?_, fun _ hw => Bool.noConfusion hw⟩
  refine sr_round (M := 1) (x := d) (y := a) (z := b) (f := 6) rfl rfl (wf_scalar rfl rfl) (by decide) (by decide) (by simp (disch := first | decide | assumption) only [twoWords, sr_major]) (fun _ => ?_) hwf
  simp (disch := first | decide | assumption) only [decodeMajor, sr_major, sr_x, sr_y, sr_z, sr_fld]
  all_goals rfl

theorem sand (g : Guard) (d a b : SReg) : Statement (.sand g d a b) := by
  refine ⟨fun hwf _ => ?_, fun _ hw => Bool.noConfusion hw⟩
  refine sr_round (M := 1) (x := d) (y := a) (z := b) (f := 7) rfl rfl (wf_scalar rfl rfl) (by decide) (by decide) (by simp (disch := first | decide | assumption) only [twoWords, sr_major]) (fun _ => ?_) hwf
  simp (disch := first | decide | assumption) only [decodeMajor, sr_major, sr_x, sr_y, sr_z, sr_fld]
  all_goals rfl

theorem sor (g : Guard) (d a b : SReg) : Statement (.sor g d a b) := by
  refine ⟨fun hwf _ => ?_, fun _ hw => Bool.noConfusion hw⟩
  refine sr_round (M := 1) (x := d) (y := a) (z := b) (f := 8) rfl rfl (wf_scalar rfl rfl) (by decide) (by decide) (by simp (disch := first | decide | assumption) only [twoWords, sr_major]) (fun _ => ?_) hwf
  simp (disch := first | decide | assumption) only [decodeMajor, sr_major, sr_x, sr_y, sr_z, sr_fld]
  all_goals rfl

theorem sxor (g : Guard) (d a b : SReg) : Statement (.sxor g d a b) := by
  refine ⟨fun hwf _ => ?_, fun _ hw => Bool.noConfusion hw⟩
  refine sr_round (M := 1) (x := d) (y := a) (z := b) (f := 9) rfl rfl (wf_scalar rfl rfl) (by decide) (by decide) (by simp (disch := first | decide | assumption) only [twoWords, sr_major]) (fun _ => ?_) hwf
  simp (disch := first | decide | assumption) only [decodeMajor, sr_major, sr_x, sr_y, sr_z, sr_fld]
  all_goals rfl

theorem sshl (g : Guard) (d a b : SReg) : Statement (.sshl g d a b) := by
  refine ⟨fun hwf _ => ?_, fun _ hw => Bool.noConfusion hw⟩
  refine sr_round (M := 1) (x := d) (y := a) (z := b) (f := 10) rfl rfl (wf_scalar rfl rfl) (by decide) (by decide) (by simp (disch := first | decide | assumption) only [twoWords, sr_major]) (fun _ => ?_) hwf
  simp (disch := first | decide | assumption) only [decodeMajor, sr_major, sr_x, sr_y, sr_z, sr_fld]
  all_goals rfl

theorem sshr (g : Guard) (d a b : SReg) : Statement (.sshr g d a b) := by
  refine ⟨fun hwf _ => ?_, fun _ hw => Bool.noConfusion hw⟩
  refine sr_round (M := 1) (x := d) (y := a) (z := b) (f := 11) rfl rfl (wf_scalar rfl rfl) (by decide) (by decide) (by simp (disch := first | decide | assumption) only [twoWords, sr_major]) (fun _ => ?_) hwf
  simp (disch := first | decide | assumption) only [decodeMajor, sr_major, sr_x, sr_y, sr_z, sr_fld]
  all_goals rfl

theorem ssra (g : Guard) (d a b : SReg) : Statement (.ssra g d a b) := by
  refine ⟨fun hwf _ => ?_, fun _ hw => Bool.noConfusion hw⟩
  refine sr_round (M := 1) (x := d) (y := a) (z := b) (f := 12) rfl rfl (wf_scalar rfl rfl) (by decide) (by decide) (by simp (disch := first | decide | assumption) only [twoWords, sr_major]) (fun _ => ?_) hwf
  simp (disch := first | decide | assumption) only [decodeMajor, sr_major, sr_x, sr_y, sr_z, sr_fld]
  all_goals rfl

theorem smin (g : Guard) (d a b : SReg) : Statement (.smin g d a b) := by
  refine ⟨fun hwf _ => ?_, fun _ hw => Bool.noConfusion hw⟩
  refine sr_round (M := 1) (x := d) (y := a) (z := b) (f := 13) rfl rfl (wf_scalar rfl rfl) (by decide) (by decide) (by simp (disch := first | decide | assumption) only [twoWords, sr_major]) (fun _ => ?_) hwf
  simp (disch := first | decide | assumption) only [decodeMajor, sr_major, sr_x, sr_y, sr_z, sr_fld]
  all_goals rfl

theorem smax (g : Guard) (d a b : SReg) : Statement (.smax g d a b) := by
  refine ⟨fun hwf _ => ?_, fun _ hw => Bool.noConfusion hw⟩
  refine sr_round (M := 1) (x := d) (y := a) (z := b) (f := 14) rfl rfl (wf_scalar rfl rfl) (by decide) (by decide) (by simp (disch := first | decide | assumption) only [twoWords, sr_major]) (fun _ => ?_) hwf
  simp (disch := first | decide | assumption) only [decodeMajor, sr_major, sr_x, sr_y, sr_z, sr_fld]
  all_goals rfl

theorem sminw (g : Guard) (d a b : SReg) : Statement (.sminw g d a b) := by
  refine ⟨fun hwf _ => ?_, fun _ hw => Bool.noConfusion hw⟩
  refine sr_round (M := 1) (x := d) (y := a) (z := b) (f := 15) rfl rfl (wf_scalar rfl rfl) (by decide) (by decide) (by simp (disch := first | decide | assumption) only [twoWords, sr_major]) (fun _ => ?_) hwf
  simp (disch := first | decide | assumption) only [decodeMajor, sr_major, sr_x, sr_y, sr_z, sr_fld]
  all_goals rfl

theorem smaxw (g : Guard) (d a b : SReg) : Statement (.smaxw g d a b) := by
  refine ⟨fun hwf _ => ?_, fun _ hw => Bool.noConfusion hw⟩
  refine sr_round (M := 1) (x := d) (y := a) (z := b) (f := 16) rfl rfl (wf_scalar rfl rfl) (by decide) (by decide) (by simp (disch := first | decide | assumption) only [twoWords, sr_major]) (fun _ => ?_) hwf
  simp (disch := first | decide | assumption) only [decodeMajor, sr_major, sr_x, sr_y, sr_z, sr_fld]
  all_goals rfl

theorem ssel (g : Guard) (d a b : SReg) : Statement (.ssel g d a b) := by
  refine ⟨fun hwf _ => ?_, fun _ hw => Bool.noConfusion hw⟩
  refine sr_round (M := 1) (x := d) (y := a) (z := b) (f := 17) rfl rfl (wf_scalar rfl rfl) (by decide) (by decide) (by simp (disch := first | decide | assumption) only [twoWords, sr_major]) (fun _ => ?_) hwf
  simp (disch := first | decide | assumption) only [decodeMajor, sr_major, sr_x, sr_y, sr_z, sr_fld]
  all_goals rfl

theorem sclz (g : Guard) (d a : SReg) : Statement (.sclz g d a) := by
  refine ⟨fun hwf _ => ?_, fun _ hw => Bool.noConfusion hw⟩
  refine sr_round (M := 1) (x := d) (y := a) (z := 0) (f := 18) rfl rfl (wf_scalar rfl rfl) (by decide) (by decide) (by simp (disch := first | decide | assumption) only [twoWords, sr_major]) (fun _ => ?_) hwf
  simp (disch := first | decide | assumption) only [decodeMajor, sr_major, sr_x, sr_y, sr_z, sr_fld]
  all_goals rfl

theorem spopc (g : Guard) (d a : SReg) : Statement (.spopc g d a) := by
  refine ⟨fun hwf _ => ?_, fun _ hw => Bool.noConfusion hw⟩
  refine sr_round (M := 1) (x := d) (y := a) (z := 0) (f := 19) rfl rfl (wf_scalar rfl rfl) (by decide) (by decide) (by simp (disch := first | decide | assumption) only [twoWords, sr_major]) (fun _ => ?_) hwf
  simp (disch := first | decide | assumption) only [decodeMajor, sr_major, sr_x, sr_y, sr_z, sr_fld]
  all_goals rfl

theorem saddi (g : Guard) (d a : SReg) (imm : BitVec 12) : Statement (.saddi g d a imm) := by
  refine ⟨fun hwf _ => ?_, fun _ hw => Bool.noConfusion hw⟩
  have := imm.isLt
  have hf : imm.toNat < 2 ^ 12 := by omega
  have f0 : BitVec.ofNat 12 imm.toNat = imm := by apply BitVec.eq_of_toNat_eq; simp only [BitVec.toNat_ofNat]; omega
  refine si_round (M := 2) (x := d) (y := a) (f := imm.toNat) rfl rfl (wf_scalar rfl rfl) (by decide) hf (by simp (disch := first | decide | assumption) only [twoWords, si_major]) (fun _ => ?_) hwf
  simp (disch := first | decide | assumption) only [decodeMajor, si_major, si_x, si_y, si_ofNat, f0]

theorem sandi (g : Guard) (d a : SReg) (imm : BitVec 12) : Statement (.sandi g d a imm) := by
  refine ⟨fun hwf _ => ?_, fun _ hw => Bool.noConfusion hw⟩
  have := imm.isLt
  have hf : imm.toNat < 2 ^ 12 := by omega
  have f0 : BitVec.ofNat 12 imm.toNat = imm := by apply BitVec.eq_of_toNat_eq; simp only [BitVec.toNat_ofNat]; omega
  refine si_round (M := 3) (x := d) (y := a) (f := imm.toNat) rfl rfl (wf_scalar rfl rfl) (by decide) hf (by simp (disch := first | decide | assumption) only [twoWords, si_major]) (fun _ => ?_) hwf
  simp (disch := first | decide | assumption) only [decodeMajor, si_major, si_x, si_y, si_ofNat, f0]

theorem sori (g : Guard) (d a : SReg) (imm : BitVec 12) : Statement (.sori g d a imm) := by
  refine ⟨fun hwf _ => ?_, fun _ hw => Bool.noConfusion hw⟩
  have := imm.isLt
  have hf : imm.toNat < 2 ^ 12 := by omega
  have f0 : BitVec.ofNat 12 imm.toNat = imm := by apply BitVec.eq_of_toNat_eq; simp only [BitVec.toNat_ofNat]; omega
  refine si_round (M := 4) (x := d) (y := a) (f := imm.toNat) rfl rfl (wf_scalar rfl rfl) (by decide) hf (by simp (disch := first | decide | assumption) only [twoWords, si_major]) (fun _ => ?_) hwf
  simp (disch := first | decide | assumption) only [decodeMajor, si_major, si_x, si_y, si_ofNat, f0]

theorem sxori (g : Guard) (d a : SReg) (imm : BitVec 12) : Statement (.sxori g d a imm) := by
  refine ⟨fun hwf _ => ?_, fun _ hw => Bool.noConfusion hw⟩
  have := imm.isLt
  have hf : imm.toNat < 2 ^ 12 := by omega
  have f0 : BitVec.ofNat 12 imm.toNat = imm := by apply BitVec.eq_of_toNat_eq; simp only [BitVec.toNat_ofNat]; omega
  refine si_round (M := 5) (x := d) (y := a) (f := imm.toNat) rfl rfl (wf_scalar rfl rfl) (by decide) hf (by simp (disch := first | decide | assumption) only [twoWords, si_major]) (fun _ => ?_) hwf
  simp (disch := first | decide | assumption) only [decodeMajor, si_major, si_x, si_y, si_ofNat, f0]

theorem sshli (g : Guard) (d a : SReg) (sh : Fin 64) : Statement (.sshli g d a sh) := by
  refine ⟨fun hwf _ => ?_, fun _ hw => Bool.noConfusion hw⟩
  have hf : sh.val < 2 ^ 12 := by omega
  have f0 : fld sh.val 6 6 = 0 := by simp only [fld]; omega
  have f1 : Fin.ofNat 64 sh.val = sh := by simp only [Fin.ofNat, Fin.ext_iff]; omega
  refine si_round (M := 6) (x := d) (y := a) (f := sh.val) rfl rfl (wf_scalar rfl rfl) (by decide) hf (by simp (disch := first | decide | assumption) only [twoWords, si_major]) (fun _ => ?_) hwf
  simp (disch := first | decide | assumption) only [decodeMajor, si_major, si_x, si_y, si_fld, si_fin64, f0, f1]
  all_goals rfl

theorem sshri (g : Guard) (d a : SReg) (sh : Fin 64) : Statement (.sshri g d a sh) := by
  refine ⟨fun hwf _ => ?_, fun _ hw => Bool.noConfusion hw⟩
  have hf : sh.val < 2 ^ 12 := by omega
  have f0 : fld sh.val 6 6 = 0 := by simp only [fld]; omega
  have f1 : Fin.ofNat 64 sh.val = sh := by simp only [Fin.ofNat, Fin.ext_iff]; omega
  refine si_round (M := 7) (x := d) (y := a) (f := sh.val) rfl rfl (wf_scalar rfl rfl) (by decide) hf (by simp (disch := first | decide | assumption) only [twoWords, si_major]) (fun _ => ?_) hwf
  simp (disch := first | decide | assumption) only [decodeMajor, si_major, si_x, si_y, si_fld, si_fin64, f0, f1]
  all_goals rfl

theorem ssrai (g : Guard) (d a : SReg) (sh : Fin 64) : Statement (.ssrai g d a sh) := by
  refine ⟨fun hwf _ => ?_, fun _ hw => Bool.noConfusion hw⟩
  have hf : sh.val < 2 ^ 12 := by omega
  have f0 : fld sh.val 6 6 = 0 := by simp only [fld]; omega
  have f1 : Fin.ofNat 64 sh.val = sh := by simp only [Fin.ofNat, Fin.ext_iff]; omega
  refine si_round (M := 8) (x := d) (y := a) (f := sh.val) rfl rfl (wf_scalar rfl rfl) (by decide) hf (by simp (disch := first | decide | assumption) only [twoWords, si_major]) (fun _ => ?_) hwf
  simp (disch := first | decide | assumption) only [decodeMajor, si_major, si_x, si_y, si_fld, si_fin64, f0, f1]
  all_goals rfl

theorem sli (g : Guard) (d : SReg) (lit : W32) : Statement (.sli g d lit) := by
  refine ⟨fun hwf _ => ?_, fun _ hw => Bool.noConfusion hw⟩
  refine si_round_two (M := 9) (x := d) (y := 0) (f := 0) rfl rfl (wf_scalar rfl rfl) (by decide) (by decide) (by omega) (by simp (disch := first | decide | assumption) only [twoWords, si_major]) (fun _ => ?_) hwf
  simp (disch := first | decide | assumption) only [decodeMajor, si_major, si_x, si_fld17]
  simp [need]

theorem slih (g : Guard) (d : SReg) (lit : W32) : Statement (.slih g d lit) := by
  refine ⟨fun hwf _ => ?_, fun _ hw => Bool.noConfusion hw⟩
  refine si_round_two (M := 10) (x := d) (y := 0) (f := 0) rfl rfl (wf_scalar rfl rfl) (by decide) (by decide) (by omega) (by simp (disch := first | decide | assumption) only [twoWords, si_major]) (fun _ => ?_) hwf
  simp (disch := first | decide | assumption) only [decodeMajor, si_major, si_x, si_fld17]
  simp [need]

theorem ssetp (g : Guard) (d : PReg) (a b : SReg) (c : Cond) (w : CmpWidth) : Statement (.ssetp g d a b c w) := by
  refine ⟨fun hwf _ => ?_, fun _ hw => Bool.noConfusion hw⟩
  have := Cond.code_lt c
  have := CmpWidth.code_lt w
  have hf : (c.code * 2 ^ 2 + w.code) < 2 ^ 7 := by omega
  have f0 : fld (c.code * 2 ^ 2 + w.code) 2 5 = c.code := by simp only [fld]; omega
  have f1 : fld (c.code * 2 ^ 2 + w.code) 0 2 = w.code := by simp only [fld]; omega
  have f2 : Fin.ofNat 8 (d.castLE (by decide) : Fin 32).val = d := by simp only [Fin.ofNat, Fin.ext_iff, Fin.val_castLE]; omega
  have f3 : fld (d.castLE (by decide) : Fin 32).val 3 2 = 0 := by simp only [fld, Fin.val_castLE]; omega
  have he : encode (.ssetp g d a b c w) = [encSR g 11 (d.castLE (by decide)) a b (c.code * 2 ^ 2 + w.code)] := by simp only [encode, Instr.vword, Instr.scalarWords, encSR, Nat.add_assoc, Fin.val_castLE]
  refine sr_round (M := 11) he rfl (wf_scalar rfl rfl) (by decide) hf (by simp (disch := first | decide | assumption) only [twoWords, sr_major]) (fun hc => ?_) hwf
  simp (disch := first | decide | assumption) only [decodeMajor, sr_major, sr_y, sr_z, sr_fld, sr_x_hi, sr_x8, Cond.of_code, CmpWidth.of_code, f0, f1, f2, f3]
  simp only [Instr.combinationOk] at hc; simp [need, hc]

theorem spand (g : Guard) (d a b : PReg) : Statement (.spand g d a b) := by
  refine ⟨fun hwf _ => ?_, fun _ hw => Bool.noConfusion hw⟩
  have f0 : Fin.ofNat 8 (d.castLE (by decide) : Fin 32).val = d := by simp only [Fin.ofNat, Fin.ext_iff, Fin.val_castLE]; omega
  have f1 : fld (d.castLE (by decide) : Fin 32).val 3 2 = 0 := by simp only [fld, Fin.val_castLE]; omega
  have f2 : Fin.ofNat 8 (a.castLE (by decide) : Fin 32).val = a := by simp only [Fin.ofNat, Fin.ext_iff, Fin.val_castLE]; omega
  have f3 : fld (a.castLE (by decide) : Fin 32).val 3 2 = 0 := by simp only [fld, Fin.val_castLE]; omega
  have f4 : Fin.ofNat 8 (b.castLE (by decide) : Fin 32).val = b := by simp only [Fin.ofNat, Fin.ext_iff, Fin.val_castLE]; omega
  have f5 : fld (b.castLE (by decide) : Fin 32).val 3 2 = 0 := by simp only [fld, Fin.val_castLE]; omega
  have he : encode (.spand g d a b) = [encSR g 12 (d.castLE (by decide)) (a.castLE (by decide)) (b.castLE (by decide)) 0] := by simp only [encode, Instr.vword, Instr.scalarWords, encSR, encPR, Nat.add_assoc, Fin.val_castLE, Nat.add_zero]
  refine sr_round (M := 12) he rfl (wf_scalar rfl rfl) (by decide) (by decide) (by simp (disch := first | decide | assumption) only [twoWords, sr_major]) (fun _ => ?_) hwf
  simp (disch := first | decide | assumption) only [decodeMajor, sr_major, sr_fld, sr_x_hi, sr_y_hi, sr_z_hi, sr_x8, sr_y8, sr_z8, f0, f1, f2, f3, f4, f5]
  simp [need, fld]

theorem spor (g : Guard) (d a b : PReg) : Statement (.spor g d a b) := by
  refine ⟨fun hwf _ => ?_, fun _ hw => Bool.noConfusion hw⟩
  have f0 : Fin.ofNat 8 (d.castLE (by decide) : Fin 32).val = d := by simp only [Fin.ofNat, Fin.ext_iff, Fin.val_castLE]; omega
  have f1 : fld (d.castLE (by decide) : Fin 32).val 3 2 = 0 := by simp only [fld, Fin.val_castLE]; omega
  have f2 : Fin.ofNat 8 (a.castLE (by decide) : Fin 32).val = a := by simp only [Fin.ofNat, Fin.ext_iff, Fin.val_castLE]; omega
  have f3 : fld (a.castLE (by decide) : Fin 32).val 3 2 = 0 := by simp only [fld, Fin.val_castLE]; omega
  have f4 : Fin.ofNat 8 (b.castLE (by decide) : Fin 32).val = b := by simp only [Fin.ofNat, Fin.ext_iff, Fin.val_castLE]; omega
  have f5 : fld (b.castLE (by decide) : Fin 32).val 3 2 = 0 := by simp only [fld, Fin.val_castLE]; omega
  have he : encode (.spor g d a b) = [encSR g 12 (d.castLE (by decide)) (a.castLE (by decide)) (b.castLE (by decide)) 1] := by simp only [encode, Instr.vword, Instr.scalarWords, encSR, encPR, Nat.add_assoc, Fin.val_castLE]
  refine sr_round (M := 12) he rfl (wf_scalar rfl rfl) (by decide) (by decide) (by simp (disch := first | decide | assumption) only [twoWords, sr_major]) (fun _ => ?_) hwf
  simp (disch := first | decide | assumption) only [decodeMajor, sr_major, sr_fld, sr_x_hi, sr_y_hi, sr_z_hi, sr_x8, sr_y8, sr_z8, f0, f1, f2, f3, f4, f5]
  simp [need, fld]

theorem spxor (g : Guard) (d a b : PReg) : Statement (.spxor g d a b) := by
  refine ⟨fun hwf _ => ?_, fun _ hw => Bool.noConfusion hw⟩
  have f0 : Fin.ofNat 8 (d.castLE (by decide) : Fin 32).val = d := by simp only [Fin.ofNat, Fin.ext_iff, Fin.val_castLE]; omega
  have f1 : fld (d.castLE (by decide) : Fin 32).val 3 2 = 0 := by simp only [fld, Fin.val_castLE]; omega
  have f2 : Fin.ofNat 8 (a.castLE (by decide) : Fin 32).val = a := by simp only [Fin.ofNat, Fin.ext_iff, Fin.val_castLE]; omega
  have f3 : fld (a.castLE (by decide) : Fin 32).val 3 2 = 0 := by simp only [fld, Fin.val_castLE]; omega
  have f4 : Fin.ofNat 8 (b.castLE (by decide) : Fin 32).val = b := by simp only [Fin.ofNat, Fin.ext_iff, Fin.val_castLE]; omega
  have f5 : fld (b.castLE (by decide) : Fin 32).val 3 2 = 0 := by simp only [fld, Fin.val_castLE]; omega
  have he : encode (.spxor g d a b) = [encSR g 12 (d.castLE (by decide)) (a.castLE (by decide)) (b.castLE (by decide)) 2] := by simp only [encode, Instr.vword, Instr.scalarWords, encSR, encPR, Nat.add_assoc, Fin.val_castLE]
  refine sr_round (M := 12) he rfl (wf_scalar rfl rfl) (by decide) (by decide) (by simp (disch := first | decide | assumption) only [twoWords, sr_major]) (fun _ => ?_) hwf
  simp (disch := first | decide | assumption) only [decodeMajor, sr_major, sr_fld, sr_x_hi, sr_y_hi, sr_z_hi, sr_x8, sr_y8, sr_z8, f0, f1, f2, f3, f4, f5]
  simp [need, fld]

theorem spnot (g : Guard) (d a : PReg) : Statement (.spnot g d a) := by
  refine ⟨fun hwf _ => ?_, fun _ hw => Bool.noConfusion hw⟩
  have f0 : Fin.ofNat 8 (d.castLE (by decide) : Fin 32).val = d := by simp only [Fin.ofNat, Fin.ext_iff, Fin.val_castLE]; omega
  have f1 : fld (d.castLE (by decide) : Fin 32).val 3 2 = 0 := by simp only [fld, Fin.val_castLE]; omega
  have f2 : Fin.ofNat 8 (a.castLE (by decide) : Fin 32).val = a := by simp only [Fin.ofNat, Fin.ext_iff, Fin.val_castLE]; omega
  have f3 : fld (a.castLE (by decide) : Fin 32).val 3 2 = 0 := by simp only [fld, Fin.val_castLE]; omega
  have he : encode (.spnot g d a) = [encSR g 12 (d.castLE (by decide)) (a.castLE (by decide)) 0 3] := by simp only [encode, Instr.vword, Instr.scalarWords, encSR, encPR, Nat.add_assoc, Fin.val_castLE, Fin.val_zero, Nat.zero_mul, Nat.add_zero]
  refine sr_round (M := 12) he rfl (wf_scalar rfl rfl) (by decide) (by decide) (by simp (disch := first | decide | assumption) only [twoWords, sr_major]) (fun _ => ?_) hwf
  simp (disch := first | decide | assumption) only [decodeMajor, sr_major, sr_fld, sr_x_hi, sr_y_hi, sr_z_hi, sr_x8, sr_y8, sr_z8, f0, f1, f2, f3]
  simp [need, fld]

theorem spmov (g : Guard) (d a : PReg) : Statement (.spmov g d a) := by
  refine ⟨fun hwf _ => ?_, fun _ hw => Bool.noConfusion hw⟩
  have f0 : Fin.ofNat 8 (d.castLE (by decide) : Fin 32).val = d := by simp only [Fin.ofNat, Fin.ext_iff, Fin.val_castLE]; omega
  have f1 : fld (d.castLE (by decide) : Fin 32).val 3 2 = 0 := by simp only [fld, Fin.val_castLE]; omega
  have f2 : Fin.ofNat 8 (a.castLE (by decide) : Fin 32).val = a := by simp only [Fin.ofNat, Fin.ext_iff, Fin.val_castLE]; omega
  have f3 : fld (a.castLE (by decide) : Fin 32).val 3 2 = 0 := by simp only [fld, Fin.val_castLE]; omega
  have he : encode (.spmov g d a) = [encSR g 12 (d.castLE (by decide)) (a.castLE (by decide)) 0 4] := by simp only [encode, Instr.vword, Instr.scalarWords, encSR, encPR, Nat.add_assoc, Fin.val_castLE, Fin.val_zero, Nat.zero_mul, Nat.add_zero]
  refine sr_round (M := 12) he rfl (wf_scalar rfl rfl) (by decide) (by decide) (by simp (disch := first | decide | assumption) only [twoWords, sr_major]) (fun _ => ?_) hwf
  simp (disch := first | decide | assumption) only [decodeMajor, sr_major, sr_fld, sr_x_hi, sr_y_hi, sr_z_hi, sr_x8, sr_y8, sr_z8, f0, f1, f2, f3]
  simp [need, fld]

theorem sld (g : Guard) (d a : SReg) (fresh : Bool) (z : Size) (off : BitVec 9) : Statement (.sld g d a fresh z off) := by
  refine ⟨fun hwf _ => ?_, fun _ hw => Bool.noConfusion hw⟩
  have := b2n_lt fresh
  have := Size.code_lt z
  have := off.isLt
  have hf : (b2n fresh * 2 ^ 11 + z.code * 2 ^ 9 + off.toNat) < 2 ^ 12 := by omega
  have f0 : fld (b2n fresh * 2 ^ 11 + z.code * 2 ^ 9 + off.toNat) 9 2 = z.code := by simp only [fld]; omega
  have f1 : bit (b2n fresh * 2 ^ 11 + z.code * 2 ^ 9 + off.toNat) 11 = fresh := by rw [show bit (b2n fresh * 2 ^ 11 + z.code * 2 ^ 9 + off.toNat) 11 = (b2n fresh == 1) from congrArg (· == 1) (by omega), b2n_beq]
  have f2 : BitVec.ofNat 9 (b2n fresh * 2 ^ 11 + z.code * 2 ^ 9 + off.toNat) = off := by apply BitVec.eq_of_toNat_eq; simp only [BitVec.toNat_ofNat]; omega
  have he : encode (.sld g d a fresh z off) = [encSI g 13 d a (b2n fresh * 2 ^ 11 + z.code * 2 ^ 9 + off.toNat)] := by simp only [encode, Instr.vword, Instr.scalarWords, encSI, encSM, Nat.add_assoc]
  refine si_round (M := 13) he rfl (wf_scalar rfl rfl) (by decide) hf (by simp (disch := first | decide | assumption) only [twoWords, si_major]) (fun _ => ?_) hwf
  simp (disch := first | decide | assumption) only [decodeMajor, si_major, si_x, si_y, si_fld, si_bit, si_ofNat, Size.of_code, f0, f1, f2]

theorem sldx (g : Guard) (d a : SReg) (fresh : Bool) (z : Size) (off : BitVec 9) : Statement (.sldx g d a fresh z off) := by
  refine ⟨fun hwf _ => ?_, fun _ hw => Bool.noConfusion hw⟩
  have := b2n_lt fresh
  have := Size.code_lt z
  have := off.isLt
  have hf : (b2n fresh * 2 ^ 11 + z.code * 2 ^ 9 + off.toNat) < 2 ^ 12 := by omega
  have f0 : fld (b2n fresh * 2 ^ 11 + z.code * 2 ^ 9 + off.toNat) 9 2 = z.code := by simp only [fld]; omega
  have f1 : bit (b2n fresh * 2 ^ 11 + z.code * 2 ^ 9 + off.toNat) 11 = fresh := by rw [show bit (b2n fresh * 2 ^ 11 + z.code * 2 ^ 9 + off.toNat) 11 = (b2n fresh == 1) from congrArg (· == 1) (by omega), b2n_beq]
  have f2 : BitVec.ofNat 9 (b2n fresh * 2 ^ 11 + z.code * 2 ^ 9 + off.toNat) = off := by apply BitVec.eq_of_toNat_eq; simp only [BitVec.toNat_ofNat]; omega
  have he : encode (.sldx g d a fresh z off) = [encSI g 14 d a (b2n fresh * 2 ^ 11 + z.code * 2 ^ 9 + off.toNat)] := by simp only [encode, Instr.vword, Instr.scalarWords, encSI, encSM, Nat.add_assoc]
  refine si_round (M := 14) he rfl (wf_scalar rfl rfl) (by decide) hf (by simp (disch := first | decide | assumption) only [twoWords, si_major]) (fun hc => ?_) hwf
  simp (disch := first | decide | assumption) only [decodeMajor, si_major, si_x, si_y, si_fld, si_bit, si_ofNat, Size.of_code, f0, f1, f2]
  have hz : z ≠ .b8 := by simpa [Instr.combinationOk] using hc
  simp [need, Size.code_ne z hz]

theorem sst (g : Guard) (d a : SReg) (z : Size) (off : BitVec 9) : Statement (.sst g d a z off) := by
  refine ⟨fun hwf _ => ?_, fun _ hw => Bool.noConfusion hw⟩
  have := b2n_lt false
  have := Size.code_lt z
  have := off.isLt
  have hf : (b2n false * 2 ^ 11 + z.code * 2 ^ 9 + off.toNat) < 2 ^ 12 := by omega
  have f0 : fld (b2n false * 2 ^ 11 + z.code * 2 ^ 9 + off.toNat) 9 2 = z.code := by simp only [fld]; omega
  have f1 : bit (b2n false * 2 ^ 11 + z.code * 2 ^ 9 + off.toNat) 11 = false := by simp [bit, b2n]; omega
  have f2 : BitVec.ofNat 9 (b2n false * 2 ^ 11 + z.code * 2 ^ 9 + off.toNat) = off := by apply BitVec.eq_of_toNat_eq; simp only [BitVec.toNat_ofNat]; omega
  have he : encode (.sst g d a z off) = [encSI g 15 d a (b2n false * 2 ^ 11 + z.code * 2 ^ 9 + off.toNat)] := by simp only [encode, Instr.vword, Instr.scalarWords, encSI, encSM, Nat.add_assoc]
  refine si_round (M := 15) he rfl (wf_scalar rfl rfl) (by decide) hf (by simp (disch := first | decide | assumption) only [twoWords, si_major]) (fun _ => ?_) hwf
  simp (disch := first | decide | assumption) only [decodeMajor, si_major, si_x, si_y, si_fld, si_bit, si_ofNat, Size.of_code, f0, f1, f2]
  all_goals rfl

theorem slda (g : Guard) (d a : SReg) (sc : Scope) (z : Size) (off : BitVec 7) : Statement (.slda g d a sc z off) := by
  refine ⟨fun hwf _ => ?_, fun _ hw => Bool.noConfusion hw⟩
  have := Scope.code_lt sc
  have := Size.code_lt z
  have := off.isLt
  have hf : (sc.code * 2 ^ 9 + z.code * 2 ^ 7 + off.toNat) < 2 ^ 12 := by omega
  have f0 : fld (sc.code * 2 ^ 9 + z.code * 2 ^ 7 + off.toNat) 9 3 = sc.code := by simp only [fld]; omega
  have f1 : fld (sc.code * 2 ^ 9 + z.code * 2 ^ 7 + off.toNat) 7 2 = z.code := by simp only [fld]; omega
  have f2 : BitVec.ofNat 7 (sc.code * 2 ^ 9 + z.code * 2 ^ 7 + off.toNat) = off := by apply BitVec.eq_of_toNat_eq; simp only [BitVec.toNat_ofNat]; omega
  have he : encode (.slda g d a sc z off) = [encSI g 16 d a (sc.code * 2 ^ 9 + z.code * 2 ^ 7 + off.toNat)] := by simp only [encode, Instr.vword, Instr.scalarWords, encSI, encSMA, Nat.add_assoc]
  refine si_round (M := 16) he rfl (wf_scalar rfl rfl) (by decide) hf (by simp (disch := first | decide | assumption) only [twoWords, si_major]) (fun _ => ?_) hwf
  simp (disch := first | decide | assumption) only [decodeMajor, si_major, si_x, si_y, si_fld, si_ofNat, Size.of_code, Scope.of_code, f0, f1, f2]

theorem sstl (g : Guard) (d a : SReg) (sc : Scope) (z : Size) (off : BitVec 7) : Statement (.sstl g d a sc z off) := by
  refine ⟨fun hwf _ => ?_, fun _ hw => Bool.noConfusion hw⟩
  have := Scope.code_lt sc
  have := Size.code_lt z
  have := off.isLt
  have hf : (sc.code * 2 ^ 9 + z.code * 2 ^ 7 + off.toNat) < 2 ^ 12 := by omega
  have f0 : fld (sc.code * 2 ^ 9 + z.code * 2 ^ 7 + off.toNat) 9 3 = sc.code := by simp only [fld]; omega
  have f1 : fld (sc.code * 2 ^ 9 + z.code * 2 ^ 7 + off.toNat) 7 2 = z.code := by simp only [fld]; omega
  have f2 : BitVec.ofNat 7 (sc.code * 2 ^ 9 + z.code * 2 ^ 7 + off.toNat) = off := by apply BitVec.eq_of_toNat_eq; simp only [BitVec.toNat_ofNat]; omega
  have he : encode (.sstl g d a sc z off) = [encSI g 17 d a (sc.code * 2 ^ 9 + z.code * 2 ^ 7 + off.toNat)] := by simp only [encode, Instr.vword, Instr.scalarWords, encSI, encSMA, Nat.add_assoc]
  refine si_round (M := 17) he rfl (wf_scalar rfl rfl) (by decide) hf (by simp (disch := first | decide | assumption) only [twoWords, si_major]) (fun _ => ?_) hwf
  simp (disch := first | decide | assumption) only [decodeMajor, si_major, si_x, si_y, si_fld, si_ofNat, Size.of_code, Scope.of_code, f0, f1, f2]

theorem satom (g : Guard) (d a b : SReg) (op : AtomOp) (wide : Bool) (sc : Scope) : Statement (.satom g d a b op wide sc) := by
  refine ⟨fun hwf _ => ?_, fun _ hw => Bool.noConfusion hw⟩
  have := b2n_lt wide
  have := AtomOp.code_lt op
  have := Scope.code_lt sc
  have hf : (b2n wide * 2 ^ 6 + op.code * 2 ^ 3 + sc.code) < 2 ^ 7 := by omega
  have f0 : fld (b2n wide * 2 ^ 6 + op.code * 2 ^ 3 + sc.code) 0 3 = sc.code := by simp only [fld]; omega
  have f1 : fld (b2n wide * 2 ^ 6 + op.code * 2 ^ 3 + sc.code) 3 3 = op.code := by simp only [fld]; omega
  have f2 : bit (b2n wide * 2 ^ 6 + op.code * 2 ^ 3 + sc.code) 6 = wide := by rw [show bit (b2n wide * 2 ^ 6 + op.code * 2 ^ 3 + sc.code) 6 = (b2n wide == 1) from congrArg (· == 1) (by omega), b2n_beq]
  refine sr_round (M := 18) (x := d) (y := a) (z := b) (f := (b2n wide * 2 ^ 6 + op.code * 2 ^ 3 + sc.code)) rfl rfl (wf_scalar rfl rfl) (by decide) hf (by simp (disch := first | decide | assumption) only [twoWords, sr_major]) (fun _ => ?_) hwf
  simp (disch := first | decide | assumption) only [decodeMajor, sr_major, sr_x, sr_y, sr_z, sr_fld, sr_bit, AtomOp.of_code, Scope.of_code, f0, f1, f2]

theorem sbr (g : Guard) (off : BitVec 22) : Statement (.sbr g off) := by
  refine ⟨fun hwf _ => ?_, fun _ hw => Bool.noConfusion hw⟩
  have := off.isLt
  have hr : off.toNat < 2 ^ 22 := by omega
  have hv : BitVec.ofNat 22 off.toNat = off := by simp
  refine word_round (M := 19) rfl rfl (wf_scalar rfl rfl) (by decide) hr (by simp (disch := first | decide | assumption) only [twoWords, fld_major]) (fun _ => ?_) hwf
  simp (disch := first | decide | assumption) only [decodeMajor, fld_major, ofNat_low, hv]

theorem scall (g : Guard) (off : BitVec 22) : Statement (.scall g off) := by
  refine ⟨fun hwf _ => ?_, fun _ hw => Bool.noConfusion hw⟩
  have := off.isLt
  have hr : off.toNat < 2 ^ 22 := by omega
  have hv : BitVec.ofNat 22 off.toNat = off := by simp
  refine word_round (M := 20) rfl rfl (wf_scalar rfl rfl) (by decide) hr (by simp (disch := first | decide | assumption) only [twoWords, fld_major]) (fun _ => ?_) hwf
  simp (disch := first | decide | assumption) only [decodeMajor, fld_major, ofNat_low, hv]

theorem sjr (g : Guard) (a : SReg) : Statement (.sjr g a) := by
  refine ⟨fun hwf _ => ?_, fun _ hw => Bool.noConfusion hw⟩
  refine sr_round (M := 21) (x := 0) (y := a) (z := 0) (f := 0) rfl rfl (wf_scalar rfl rfl) (by decide) (by decide) (by simp (disch := first | decide | assumption) only [twoWords, sr_major]) (fun _ => ?_) hwf
  simp (disch := first | decide | assumption) only [decodeMajor, sr_major, sr_x, sr_y, sr_z, sr_fld]
  all_goals rfl

theorem sjalr (g : Guard) (d a : SReg) : Statement (.sjalr g d a) := by
  refine ⟨fun hwf _ => ?_, fun _ hw => Bool.noConfusion hw⟩
  refine sr_round (M := 21) (x := d) (y := a) (z := 0) (f := 1) rfl rfl (wf_scalar rfl rfl) (by decide) (by decide) (by simp (disch := first | decide | assumption) only [twoWords, sr_major]) (fun _ => ?_) hwf
  simp (disch := first | decide | assumption) only [decodeMajor, sr_major, sr_x, sr_y, sr_z, sr_fld]
  all_goals rfl

theorem sret (g : Guard) : Statement (.sret g) := by
  refine ⟨fun hwf _ => ?_, fun _ hw => Bool.noConfusion hw⟩
  refine sr_round (M := 21) (x := 0) (y := 0) (z := 0) (f := 2) rfl rfl (wf_scalar rfl rfl) (by decide) (by decide) (by simp (disch := first | decide | assumption) only [twoWords, sr_major]) (fun _ => ?_) hwf
  simp (disch := first | decide | assumption) only [decodeMajor, sr_major, sr_x, sr_y, sr_z, sr_fld]
  all_goals rfl

theorem slq (g : Guard) (index : BitVec 22) (first : SReg) (count : Fin 9) : Statement (.slq g index first count) := by
  refine ⟨fun hwf _ => ?_, fun _ hw => Bool.noConfusion hw⟩
  have := index.isLt
  have hr : index.toNat < 2 ^ 22 := by omega
  have hv : BitVec.ofNat 22 index.toNat = index := by simp
  refine word_round_two (M := 22) rfl rfl (wf_scalar rfl rfl) (by decide) hr (by omega) (by simp (disch := first | decide | assumption) only [twoWords, fld_major]) (fun hc => ?_) hwf
  have f1 : reg (first.val * 2 ^ 27 + count.val * 2 ^ 23) 27 = first := by simp only [reg, Fin.ofNat, Fin.ext_iff]; omega
  have f2 : fld (first.val * 2 ^ 27 + count.val * 2 ^ 23) 23 4 = count.val := by simp only [fld]; omega
  have f3 : fld (first.val * 2 ^ 27 + count.val * 2 ^ 23) 0 23 = 0 := by simp only [fld]; omega
  simp (disch := first | decide | assumption) only [decodeMajor, fld_major, ofNat_low, hv, f1, f2, f3]
  simp only [Instr.combinationOk, decide_eq_true_eq] at hc
  simp [need, hc, count.isLt]

theorem slwait (g : Guard) (k : Fin 8) : Statement (.slwait g k) := by
  refine ⟨fun hwf _ => ?_, fun _ hw => Bool.noConfusion hw⟩
  have hf : k.val < 2 ^ 12 := by omega
  have f0 : fld k.val 3 9 = 0 := by simp only [fld]; omega
  have f1 : Fin.ofNat 8 k.val = k := by simp only [Fin.ofNat, Fin.ext_iff]; omega
  refine si_round (M := 23) (x := 0) (y := 0) (f := k.val) rfl rfl (wf_scalar rfl rfl) (by decide) hf (by simp (disch := first | decide | assumption) only [twoWords, si_major]) (fun _ => ?_) hwf
  simp (disch := first | decide | assumption) only [decodeMajor, si_major, si_x, si_y, si_fld, si_fin8, f0, f1]
  all_goals rfl

theorem sgetr (g : Guard) (d : SReg) (q : Fin 8) : Statement (.sgetr g d q) := by
  refine ⟨fun hwf _ => ?_, fun _ hw => Bool.noConfusion hw⟩
  have f0 : Fin.ofNat 8 (q.castLE (by decide) : Fin 32).val = q := by simp only [Fin.ofNat, Fin.ext_iff, Fin.val_castLE]; omega
  have f1 : fld (q.castLE (by decide) : Fin 32).val 3 2 = 0 := by simp only [fld, Fin.val_castLE]; omega
  have he : encode (.sgetr g d q) = [encSR g 24 d (q.castLE (by decide)) 0 0] := by simp only [encode, Instr.vword, Instr.scalarWords, encSR, Nat.add_assoc, Fin.val_castLE, Fin.val_zero, Nat.zero_mul, Nat.add_zero]
  refine sr_round (M := 24) he rfl (wf_scalar rfl rfl) (by decide) (by decide) (by simp (disch := first | decide | assumption) only [twoWords, sr_major]) (fun _ => ?_) hwf
  simp (disch := first | decide | assumption) only [decodeMajor, sr_major, sr_x, sr_z, sr_fld, sr_y_hi, sr_y8, f0, f1]
  simp [need, fld]

theorem sbar (g : Guard) (h : Fin 64) : Statement (.sbar g h) := by
  refine ⟨fun hwf _ => ?_, fun _ hw => Bool.noConfusion hw⟩
  have hf : h.val < 2 ^ 7 := by omega
  have f0 : bit h.val 6 = false := by simp only [bit, beq_eq_false_iff_ne]; omega
  have f1 : Fin.ofNat 64 h.val = h := by simp only [Fin.ofNat, Fin.ext_iff]; omega
  have he : encode (.sbar g h) = [encSR g 25 0 0 0 h.val] := by simp only [encode, Instr.vword, Instr.scalarWords, encSR, Nat.add_assoc, Fin.val_zero, Nat.zero_mul, Nat.add_zero]
  refine sr_round (M := 25) he rfl (wf_scalar rfl rfl) (by decide) hf (by simp (disch := first | decide | assumption) only [twoWords, sr_major]) (fun _ => ?_) hwf
  simp (disch := first | decide | assumption) only [decodeMajor, sr_major, sr_x, sr_y, sr_z, sr_bit, sr_fin64, f0, f1]
  all_goals rfl

theorem sbara (g : Guard) (h : Fin 64) : Statement (.sbara g h) := by
  refine ⟨fun hwf _ => ?_, fun _ hw => Bool.noConfusion hw⟩
  have hf : (2 ^ 6 + h.val) < 2 ^ 7 := by omega
  have f0 : bit (2 ^ 6 + h.val) 6 = true := by simp only [bit, beq_iff_eq]; omega
  have f1 : Fin.ofNat 64 (2 ^ 6 + h.val) = h := by simp only [Fin.ofNat, Fin.ext_iff]; omega
  have he : encode (.sbara g h) = [encSR g 25 0 0 0 (2 ^ 6 + h.val)] := by simp only [encode, Instr.vword, Instr.scalarWords, encSR, Nat.add_assoc, Fin.val_zero, Nat.zero_mul, Nat.add_zero]
  refine sr_round (M := 25) he rfl (wf_scalar rfl rfl) (by decide) hf (by simp (disch := first | decide | assumption) only [twoWords, sr_major]) (fun _ => ?_) hwf
  simp (disch := first | decide | assumption) only [decodeMajor, sr_major, sr_x, sr_y, sr_z, sr_bit, sr_fin64, f0, f1]
  all_goals rfl

theorem slinit (g : Guard) (a : SReg) : Statement (.slinit g a) := by
  refine ⟨fun hwf _ => ?_, fun _ hw => Bool.noConfusion hw⟩
  refine sr_round (M := 26) (x := 0) (y := a) (z := 0) (f := 0) rfl rfl (wf_scalar rfl rfl) (by decide) (by decide) (by simp (disch := first | decide | assumption) only [twoWords, sr_major]) (fun _ => ?_) hwf
  simp (disch := first | decide | assumption) only [decodeMajor, sr_major, sr_x, sr_y, sr_z, sr_fld]
  all_goals rfl

theorem slexp (g : Guard) (a b : SReg) : Statement (.slexp g a b) := by
  refine ⟨fun hwf _ => ?_, fun _ hw => Bool.noConfusion hw⟩
  refine sr_round (M := 26) (x := 0) (y := a) (z := b) (f := 1) rfl rfl (wf_scalar rfl rfl) (by decide) (by decide) (by simp (disch := first | decide | assumption) only [twoWords, sr_major]) (fun _ => ?_) hwf
  simp (disch := first | decide | assumption) only [decodeMajor, sr_major, sr_x, sr_y, sr_z, sr_fld]
  all_goals rfl

theorem slwt (g : Guard) (a b : SReg) : Statement (.slwt g a b) := by
  refine ⟨fun hwf _ => ?_, fun _ hw => Bool.noConfusion hw⟩
  refine sr_round (M := 26) (x := 0) (y := a) (z := b) (f := 2) rfl rfl (wf_scalar rfl rfl) (by decide) (by decide) (by simp (disch := first | decide | assumption) only [twoWords, sr_major]) (fun _ => ?_) hwf
  simp (disch := first | decide | assumption) only [decodeMajor, sr_major, sr_x, sr_y, sr_z, sr_fld]
  all_goals rfl

theorem slgen (g : Guard) (d a : SReg) : Statement (.slgen g d a) := by
  refine ⟨fun hwf _ => ?_, fun _ hw => Bool.noConfusion hw⟩
  refine sr_round (M := 26) (x := d) (y := a) (z := 0) (f := 3) rfl rfl (wf_scalar rfl rfl) (by decide) (by decide) (by simp (disch := first | decide | assumption) only [twoWords, sr_major]) (fun _ => ?_) hwf
  simp (disch := first | decide | assumption) only [decodeMajor, sr_major, sr_x, sr_y, sr_z, sr_fld]
  all_goals rfl

theorem smon (g : Guard) (a : SReg) : Statement (.smon g a) := by
  refine ⟨fun hwf _ => ?_, fun _ hw => Bool.noConfusion hw⟩
  refine sr_round (M := 27) (x := 0) (y := a) (z := 0) (f := 0) rfl rfl (wf_scalar rfl rfl) (by decide) (by decide) (by simp (disch := first | decide | assumption) only [twoWords, sr_major]) (fun _ => ?_) hwf
  simp (disch := first | decide | assumption) only [decodeMajor, sr_major, sr_x, sr_y, sr_z, sr_fld]
  all_goals rfl

theorem smwait (g : Guard) (d a : SReg) : Statement (.smwait g d a) := by
  refine ⟨fun hwf _ => ?_, fun _ hw => Bool.noConfusion hw⟩
  refine sr_round (M := 27) (x := d) (y := a) (z := 0) (f := 1) rfl rfl (wf_scalar rfl rfl) (by decide) (by decide) (by simp (disch := first | decide | assumption) only [twoWords, sr_major]) (fun _ => ?_) hwf
  simp (disch := first | decide | assumption) only [decodeMajor, sr_major, sr_x, sr_y, sr_z, sr_fld]
  all_goals rfl

theorem smdis (g : Guard) : Statement (.smdis g) := by
  refine ⟨fun hwf _ => ?_, fun _ hw => Bool.noConfusion hw⟩
  refine sr_round (M := 27) (x := 0) (y := 0) (z := 0) (f := 2) rfl rfl (wf_scalar rfl rfl) (by decide) (by decide) (by simp (disch := first | decide | assumption) only [twoWords, sr_major]) (fun _ => ?_) hwf
  simp (disch := first | decide | assumption) only [decodeMajor, sr_major, sr_x, sr_y, sr_z, sr_fld]
  all_goals rfl

theorem stlwait (g : Guard) (h : Fin 16) (b : SReg) : Statement (.stlwait g h b) := by
  refine ⟨fun hwf _ => ?_, fun _ hw => Bool.noConfusion hw⟩
  have f0 : Fin.ofNat 16 (h.castLE (by decide) : Fin 32).val = h := by simp only [Fin.ofNat, Fin.ext_iff, Fin.val_castLE]; omega
  have hb : bit (h.castLE (by decide) : Fin 32).val 4 = false := by simp only [bit, Fin.val_castLE, beq_eq_false_iff_ne]; omega
  have he : encode (.stlwait g h b) = [encSR g 28 0 (h.castLE (by decide)) b 0] := by simp only [encode, Instr.vword, Instr.scalarWords, encSR, Nat.add_assoc, Fin.val_castLE, Fin.val_zero, Nat.zero_mul, Nat.add_zero]
  refine sr_round (M := 28) he rfl (wf_scalar rfl rfl) (by decide) (by decide) (by simp (disch := first | decide | assumption) only [twoWords, sr_major]) (fun _ => ?_) hwf
  simp (disch := first | decide | assumption) only [decodeMajor, sr_major, sr_x, sr_z, sr_fld, sr_y_bit, sr_y16, hb, f0]
  rfl

theorem stlthr (g : Guard) (h : Fin 16) (b : SReg) : Statement (.stlthr g h b) := by
  refine ⟨fun hwf _ => ?_, fun _ hw => Bool.noConfusion hw⟩
  have f0 : Fin.ofNat 16 (h.castLE (by decide) : Fin 32).val = h := by simp only [Fin.ofNat, Fin.ext_iff, Fin.val_castLE]; omega
  have hb : bit (h.castLE (by decide) : Fin 32).val 4 = false := by simp only [bit, Fin.val_castLE, beq_eq_false_iff_ne]; omega
  have he : encode (.stlthr g h b) = [encSR g 28 0 (h.castLE (by decide)) b 1] := by simp only [encode, Instr.vword, Instr.scalarWords, encSR, Nat.add_assoc, Fin.val_castLE, Fin.val_zero, Nat.zero_mul, Nat.add_zero]
  refine sr_round (M := 28) he rfl (wf_scalar rfl rfl) (by decide) (by decide) (by simp (disch := first | decide | assumption) only [twoWords, sr_major]) (fun _ => ?_) hwf
  simp (disch := first | decide | assumption) only [decodeMajor, sr_major, sr_x, sr_z, sr_fld, sr_y_bit, sr_y16, hb, f0]
  rfl

theorem stlrd (g : Guard) (d : SReg) (h : Fin 16) : Statement (.stlrd g d h) := by
  refine ⟨fun hwf _ => ?_, fun _ hw => Bool.noConfusion hw⟩
  have f0 : Fin.ofNat 16 (h.castLE (by decide) : Fin 32).val = h := by simp only [Fin.ofNat, Fin.ext_iff, Fin.val_castLE]; omega
  have hb : bit (h.castLE (by decide) : Fin 32).val 4 = false := by simp only [bit, Fin.val_castLE, beq_eq_false_iff_ne]; omega
  have he : encode (.stlrd g d h) = [encSR g 28 d (h.castLE (by decide)) 0 2] := by simp only [encode, Instr.vword, Instr.scalarWords, encSR, Nat.add_assoc, Fin.val_castLE, Fin.val_zero, Nat.zero_mul, Nat.add_zero]
  refine sr_round (M := 28) he rfl (wf_scalar rfl rfl) (by decide) (by decide) (by simp (disch := first | decide | assumption) only [twoWords, sr_major]) (fun _ => ?_) hwf
  simp (disch := first | decide | assumption) only [decodeMajor, sr_major, sr_x, sr_z, sr_fld, sr_y_bit, sr_y16, hb, f0]
  rfl

theorem slaunch (g : Guard) (d a : SReg) (nb : Bool) : Statement (.slaunch g d a nb) := by
  refine ⟨fun hwf _ => ?_, fun _ hw => Bool.noConfusion hw⟩
  cases nb <;> (
    refine sr_round (M := 29) rfl rfl (wf_scalar rfl rfl) (by decide) (by decide) (by simp (disch := first | decide | assumption) only [twoWords, sr_major]) (fun _ => ?_) hwf
    simp (disch := first | decide | assumption) only [decodeMajor, sr_major, sr_x, sr_y, sr_z, sr_fld, sr_bit]
    all_goals rfl)

theorem scancel (g : Guard) (d a : SReg) (l : Level) : Statement (.scancel g d a l) := by
  refine ⟨fun hwf _ => ?_, fun _ hw => Bool.noConfusion hw⟩
  cases l <;> (
    refine si_round (M := 30) rfl rfl (wf_scalar rfl rfl) (by decide) (by decide) (by simp (disch := first | decide | assumption) only [twoWords, si_major]) (fun hc => ?_) hwf
    simp only [Instr.combinationOk, decide_eq_true_eq] at hc
    simp (disch := first | decide | assumption) only [decodeMajor, si_major, si_x, si_y, si_fld]
    simp [need, fld, levelOf, Level.code] at hc ⊢ <;> exact hc)

theorem scnt (g : Guard) (d : SReg) (v : CountItem) (l : Level) : Statement (.scnt g d v l) := by
  refine ⟨fun hwf _ => ?_, fun _ hw => Bool.noConfusion hw⟩
  cases v <;> cases l <;> (
    refine sr_round (M := 31) rfl rfl (wf_scalar rfl rfl) (by decide) (by decide) (by simp (disch := first | decide | assumption) only [twoWords, sr_major]) (fun hc => ?_) hwf
    first
    | exact Bool.noConfusion (show false = true from hc)
    | simp (disch := first | decide | assumption) only [decodeMajor, sr_major, sr_x, sr_y, sr_z, sr_fld]; rfl)

theorem cpy (g : Guard) (a b c : SReg) (t : Transform) (fifo : Bool) : Statement (.cpy g a b c t fifo) := by
  refine ⟨fun hwf _ => ?_, fun _ hw => Bool.noConfusion hw⟩
  cases t <;> cases fifo <;> (
    refine sr_round (M := 32) rfl rfl (wf_scalar rfl rfl) (by decide) (by decide) (by simp (disch := first | decide | assumption) only [twoWords, sr_major, sr_bit]; rfl) (fun _ => ?_) hwf
    simp (disch := first | decide | assumption) only [decodeMajor, sr_major, sr_x, sr_y, sr_z, sr_fld, sr_bit]
    all_goals rfl)

theorem cpyThen (g : Guard) (a b c : SReg) (t : Transform) (fifo : Bool) (follow : W32) : Statement (.cpyThen g a b c t fifo follow) := by
  refine ⟨fun hwf _ => ?_, fun _ hw => Bool.noConfusion hw⟩
  cases t <;> cases fifo <;> (
    refine sr_round_two (M := 32) rfl rfl (wf_scalar rfl rfl) (by decide) (by decide) (by omega) (by simp (disch := first | decide | assumption) only [twoWords, sr_major, sr_bit]; rfl) (fun hc => ?_) hwf
    simp only [Instr.combinationOk, decide_eq_true_eq] at hc
    simp (disch := first | decide | assumption) only [decodeMajor, sr_major, sr_x, sr_y, sr_z, sr_fld, sr_bit]
    simp [need, fld, bit, transformOf, Transform.code, b2n]; omega)

theorem cpyset (g : Guard) (a : SReg) : Statement (.cpyset g a) := by
  refine ⟨fun hwf _ => ?_, fun _ hw => Bool.noConfusion hw⟩
  refine sr_round (M := 33) (x := 0) (y := a) (z := 0) (f := 0) rfl rfl (wf_scalar rfl rfl) (by decide) (by decide) (by simp (disch := first | decide | assumption) only [twoWords, sr_major]) (fun _ => ?_) hwf
  simp (disch := first | decide | assumption) only [decodeMajor, sr_major, sr_x, sr_y, sr_z, sr_fld]
  all_goals rfl

theorem mma (g : Guard) (m : MatFields) : Statement (.mma g m) := by
  refine ⟨fun hwf _ => ?_, fun _ hw => Bool.noConfusion hw⟩
  have hr : m.word 0 < 2 ^ 22 := MatFields.word_lt m 0 (by decide)
  refine word_round (M := 34) rfl rfl (wf_scalar rfl rfl) (by decide) hr (by simp (disch := first | decide | assumption) only [twoWords, fld_major]) (fun hc => ?_) hwf
  simp (disch := first | decide | assumption) only [decodeMajor, fld_major, fld_low, matFieldsOf_word, MatFields.word_mode]
  simp only [Instr.combinationOk] at hc; simp [need, hc]

theorem mmap (g : Guard) (m : MatFields) : Statement (.mmap g m) := by
  refine ⟨fun hwf _ => ?_, fun _ hw => Bool.noConfusion hw⟩
  have hr : m.word 1 < 2 ^ 22 := MatFields.word_lt m 1 (by decide)
  refine word_round (M := 35) rfl rfl (wf_scalar rfl rfl) (by decide) hr (by simp (disch := first | decide | assumption) only [twoWords, fld_major]) (fun hc => ?_) hwf
  simp (disch := first | decide | assumption) only [decodeMajor, fld_major, fld_low, matFieldsOf_word, MatFields.word_mode]
  simp only [Instr.combinationOk] at hc; simp [need, hc]

theorem mzero (g : Guard) (t : TileNo) : Statement (.mzero g t) := by
  refine ⟨fun hwf _ => ?_, fun _ hw => Bool.noConfusion hw⟩
  have he : encode (.mzero g t) = [encSI g 36 t 0 0] := by simp only [encode, Instr.vword, Instr.scalarWords, encSI, Nat.add_assoc, Fin.val_zero, Nat.zero_mul, Nat.add_zero]
  refine si_round (M := 36) he rfl (wf_scalar rfl rfl) (by decide) (by decide) (by simp (disch := first | decide | assumption) only [twoWords, si_major]) (fun _ => ?_) hwf
  simp (disch := first | decide | assumption) only [decodeMajor, si_major, si_x, si_fld17]
  simp [need]

theorem mguide (g : Guard) (d a b : TileNo) (w : SReg) : Statement (.mguide g d a b w) := by
  refine ⟨fun hwf _ => ?_, fun _ hw => Bool.noConfusion hw⟩
  have hf : (w.val * 2 ^ 2) < 2 ^ 7 := by omega
  have f0 : fld (w.val * 2 ^ 2) 0 2 = 0 := by simp only [fld]; omega
  have f1 : reg (w.val * 2 ^ 2) 2 = w := by simp only [reg, Fin.ofNat, Fin.ext_iff]; omega
  refine sr_round (M := 37) (x := d) (y := a) (z := b) (f := (w.val * 2 ^ 2)) rfl rfl (wf_scalar rfl rfl) (by decide) hf (by simp (disch := first | decide | assumption) only [twoWords, sr_major]) (fun _ => ?_) hwf
  simp (disch := first | decide | assumption) only [decodeMajor, sr_major, sr_x, sr_y, sr_z, sr_fld, sr_reg, f0, f1]
  all_goals rfl

theorem ccol (g : Guard) (a b c : SReg) (k : CollKind) (op : CollOp) : Statement (.ccol g a b c k op) := by
  refine ⟨fun hwf _ => ?_, fun _ hw => Bool.noConfusion hw⟩
  cases k <;> cases op <;> (
    refine sr_round (M := 40) rfl rfl (wf_scalar rfl rfl) (by decide) (by decide) (by simp (disch := first | decide | assumption) only [twoWords, sr_major]) (fun hc => ?_) hwf
    first
    | exact Bool.noConfusion (show false = true from hc)
    | simp (disch := first | decide | assumption) only [decodeMajor, sr_major, sr_x, sr_y, sr_z, sr_fld]; rfl)

theorem gemit (g : Guard) (d a b r : SReg) : Statement (.gemit g d a b r) := by
  refine ⟨fun hwf _ => ?_, fun _ hw => Bool.noConfusion hw⟩
  have hf : (r.val * 2 ^ 2) < 2 ^ 7 := by omega
  have f0 : fld (r.val * 2 ^ 2) 0 2 = 0 := by simp only [fld]; omega
  have f1 : reg (r.val * 2 ^ 2) 2 = r := by simp only [reg, Fin.ofNat, Fin.ext_iff]; omega
  refine sr_round (M := 41) (x := d) (y := a) (z := b) (f := (r.val * 2 ^ 2)) rfl rfl (wf_scalar rfl rfl) (by decide) hf (by simp (disch := first | decide | assumption) only [twoWords, sr_major]) (fun _ => ?_) hwf
  simp (disch := first | decide | assumption) only [decodeMajor, sr_major, sr_x, sr_y, sr_z, sr_fld, sr_reg, f0, f1]
  all_goals rfl

theorem gclose (g : Guard) (d a b : SReg) : Statement (.gclose g d a b) := by
  refine ⟨fun hwf _ => ?_, fun _ hw => Bool.noConfusion hw⟩
  refine sr_round (M := 42) (x := d) (y := a) (z := b) (f := 0) rfl rfl (wf_scalar rfl rfl) (by decide) (by decide) (by simp (disch := first | decide | assumption) only [twoWords, sr_major]) (fun _ => ?_) hwf
  simp (disch := first | decide | assumption) only [decodeMajor, sr_major, sr_x, sr_y, sr_z, sr_fld]
  all_goals rfl

theorem gcut (g : Guard) (d a b : SReg) : Statement (.gcut g d a b) := by
  refine ⟨fun hwf _ => ?_, fun _ hw => Bool.noConfusion hw⟩
  refine sr_round (M := 43) (x := d) (y := a) (z := b) (f := 0) rfl rfl (wf_scalar rfl rfl) (by decide) (by decide) (by simp (disch := first | decide | assumption) only [twoWords, sr_major]) (fun _ => ?_) hwf
  simp (disch := first | decide | assumption) only [decodeMajor, sr_major, sr_x, sr_y, sr_z, sr_fld]
  all_goals rfl

theorem gstat (g : Guard) (d a : SReg) (i : StatItem) : Statement (.gstat g d a i) := by
  refine ⟨fun hwf _ => ?_, fun _ hw => Bool.noConfusion hw⟩
  cases i <;> (
    refine sr_round (M := 44) rfl rfl (wf_scalar rfl rfl) (by decide) (by decide) (by simp (disch := first | decide | assumption) only [twoWords, sr_major]) (fun hc => ?_) hwf
    simp only [Instr.combinationOk, decide_eq_true_eq] at hc
    simp (disch := first | decide | assumption) only [decodeMajor, sr_major, sr_x, sr_y, sr_z, sr_fld]
    simp [need, fld, statOf, StatItem.code] at hc ⊢ <;> exact hc)

theorem sgate (g : Guard) (d a b : SReg) (len : BitVec 7) : Statement (.sgate g d a b len) := by
  refine ⟨fun hwf _ => ?_, fun _ hw => Bool.noConfusion hw⟩
  have := len.isLt
  have hf : len.toNat < 2 ^ 7 := by omega
  have f0 : BitVec.ofNat 7 len.toNat = len := by apply BitVec.eq_of_toNat_eq; simp only [BitVec.toNat_ofNat]; omega
  refine sr_round (M := 45) (x := d) (y := a) (z := b) (f := len.toNat) rfl rfl (wf_scalar rfl rfl) (by decide) hf (by simp (disch := first | decide | assumption) only [twoWords, sr_major]) (fun _ => ?_) hwf
  simp (disch := first | decide | assumption) only [decodeMajor, sr_major, sr_x, sr_y, sr_z, sr_ofNat, f0]

theorem sgatew (g : Guard) (d a b : SReg) : Statement (.sgatew g d a b) := by
  refine ⟨fun hwf _ => ?_, fun _ hw => Bool.noConfusion hw⟩
  refine sr_round (M := 46) (x := d) (y := a) (z := b) (f := 0) rfl rfl (wf_scalar rfl rfl) (by decide) (by decide) (by simp (disch := first | decide | assumption) only [twoWords, sr_major]) (fun _ => ?_) hwf
  simp (disch := first | decide | assumption) only [decodeMajor, sr_major, sr_x, sr_y, sr_z, sr_fld]
  all_goals rfl

theorem strap (g : Guard) (code : BitVec 12) : Statement (.strap g code) := by
  refine ⟨fun hwf _ => ?_, fun _ hw => Bool.noConfusion hw⟩
  have := code.isLt
  have hf : code.toNat < 2 ^ 12 := by omega
  have f0 : BitVec.ofNat 12 code.toNat = code := by apply BitVec.eq_of_toNat_eq; simp only [BitVec.toNat_ofNat]; omega
  refine si_round (M := 47) (x := 0) (y := 0) (f := code.toNat) rfl rfl (wf_scalar rfl rfl) (by decide) hf (by simp (disch := first | decide | assumption) only [twoWords, si_major]) (fun _ => ?_) hwf
  simp (disch := first | decide | assumption) only [decodeMajor, si_major, si_x, si_y, si_ofNat, f0]
  all_goals rfl

theorem srds (g : Guard) (d : SReg) (i : Fin 128) : Statement (.srds g d i) := by
  refine ⟨fun hwf _ => ?_, fun _ hw => Bool.noConfusion hw⟩
  have hf : i.val < 2 ^ 12 := by omega
  have f0 : fld i.val 7 5 = 0 := by simp only [fld]; omega
  have f1 : Fin.ofNat 128 i.val = i := by simp only [Fin.ofNat, Fin.ext_iff]; omega
  refine si_round (M := 48) (x := d) (y := 0) (f := i.val) rfl rfl (wf_scalar rfl rfl) (by decide) hf (by simp (disch := first | decide | assumption) only [twoWords, si_major]) (fun _ => ?_) hwf
  simp (disch := first | decide | assumption) only [decodeMajor, si_major, si_x, si_y, si_fld, si_fin128, f0, f1]
  all_goals rfl

theorem swrs (g : Guard) (a : SReg) (idx : BitVec 12) : Statement (.swrs g a idx) := by
  refine ⟨fun hwf _ => ?_, fun _ hw => Bool.noConfusion hw⟩
  have := idx.isLt
  have hf : idx.toNat < 2 ^ 12 := by omega
  have f0 : fld idx.toNat 0 12 = idx.toNat := by simp only [fld]; omega
  have f1 : BitVec.ofNat 12 idx.toNat = idx := by apply BitVec.eq_of_toNat_eq; simp only [BitVec.toNat_ofNat]; omega
  refine si_round (M := 49) (x := 0) (y := a) (f := idx.toNat) rfl rfl (wf_scalar rfl rfl) (by decide) hf (by simp (disch := first | decide | assumption) only [twoWords, si_major]) (fun hc => ?_) hwf
  simp only [Instr.combinationOk, decide_eq_true_eq] at hc
  simp (disch := first | decide | assumption) only [decodeMajor, si_major, si_x, si_y, si_fld, si_ofNat, f0, f1]
  generalize hk : idx.toNat = k at hc
  match k, hc with
  | k + 6, _ => rfl

theorem fdtb (g : Guard) (a : SReg) : Statement (.fdtb g a) := by
  refine ⟨fun hwf _ => ?_, fun _ hw => Bool.noConfusion hw⟩
  refine si_round (M := 49) (x := 0) (y := a) (f := 0) rfl rfl (wf_scalar rfl rfl) (by decide) (by decide) (by simp (disch := first | decide | assumption) only [twoWords, si_major]) (fun _ => ?_) hwf
  simp (disch := first | decide | assumption) only [decodeMajor, si_major, si_x, si_y, si_fld]
  all_goals rfl

theorem fdtsync (g : Guard) (a : SReg) : Statement (.fdtsync g a) := by
  refine ⟨fun hwf _ => ?_, fun _ hw => Bool.noConfusion hw⟩
  refine si_round (M := 49) (x := 0) (y := a) (f := 1) rfl rfl (wf_scalar rfl rfl) (by decide) (by decide) (by simp (disch := first | decide | assumption) only [twoWords, si_major]) (fun _ => ?_) hwf
  simp (disch := first | decide | assumption) only [decodeMajor, si_major, si_x, si_y, si_fld]
  all_goals rfl

theorem gatereg (g : Guard) (a : SReg) : Statement (.gatereg g a) := by
  refine ⟨fun hwf _ => ?_, fun _ hw => Bool.noConfusion hw⟩
  refine si_round (M := 49) (x := 0) (y := a) (f := 2) rfl rfl (wf_scalar rfl rfl) (by decide) (by decide) (by simp (disch := first | decide | assumption) only [twoWords, si_major]) (fun _ => ?_) hwf
  simp (disch := first | decide | assumption) only [decodeMajor, si_major, si_x, si_y, si_fld]
  all_goals rfl

theorem gateclose (g : Guard) (a : SReg) : Statement (.gateclose g a) := by
  refine ⟨fun hwf _ => ?_, fun _ hw => Bool.noConfusion hw⟩
  refine si_round (M := 49) (x := 0) (y := a) (f := 3) rfl rfl (wf_scalar rfl rfl) (by decide) (by decide) (by simp (disch := first | decide | assumption) only [twoWords, si_major]) (fun _ => ?_) hwf
  simp (disch := first | decide | assumption) only [decodeMajor, si_major, si_x, si_y, si_fld]
  all_goals rfl

theorem gatereply (g : Guard) (a : SReg) : Statement (.gatereply g a) := by
  refine ⟨fun hwf _ => ?_, fun _ hw => Bool.noConfusion hw⟩
  refine si_round (M := 49) (x := 0) (y := a) (f := 4) rfl rfl (wf_scalar rfl rfl) (by decide) (by decide) (by simp (disch := first | decide | assumption) only [twoWords, si_major]) (fun _ => ?_) hwf
  simp (disch := first | decide | assumption) only [decodeMajor, si_major, si_x, si_y, si_fld]
  all_goals rfl

theorem debugen (g : Guard) (a : SReg) : Statement (.debugen g a) := by
  refine ⟨fun hwf _ => ?_, fun _ hw => Bool.noConfusion hw⟩
  refine si_round (M := 49) (x := 0) (y := a) (f := 5) rfl rfl (wf_scalar rfl rfl) (by decide) (by decide) (by simp (disch := first | decide | assumption) only [twoWords, si_major]) (fun _ => ?_) hwf
  simp (disch := first | decide | assumption) only [decodeMajor, si_major, si_x, si_y, si_fld]
  all_goals rfl

theorem picins (g : Guard) (d a b : SReg) (last : Fin 32) : Statement (.picins g d a b last) := by
  refine ⟨fun hwf _ => ?_, fun _ hw => Bool.noConfusion hw⟩
  have hf : last.val < 2 ^ 7 := by omega
  have f0 : fld last.val 5 2 = 0 := by simp only [fld]; omega
  have f1 : reg last.val 0 = last := by simp only [reg, Fin.ofNat, Fin.ext_iff]; omega
  refine sr_round (M := 51) (x := d) (y := a) (z := b) (f := last.val) rfl rfl (wf_scalar rfl rfl) (by decide) hf (by simp (disch := first | decide | assumption) only [twoWords, sr_major]) (fun _ => ?_) hwf
  simp (disch := first | decide | assumption) only [decodeMajor, sr_major, sr_x, sr_y, sr_z, sr_fld, sr_reg, f0, f1]
  all_goals rfl

theorem vnop (w : VWord) : Statement (.vnop w) := 
  ⟨fun _ h => Bool.noConfusion h, fun hwf _ => vector_decode rfl (by decide) rfl rfl rfl hwf⟩
theorem vadd (w : VWord) : Statement (.vadd w) := 
  ⟨fun _ h => Bool.noConfusion h, fun hwf _ => vector_decode rfl (by decide) rfl rfl rfl hwf⟩
theorem vsub (w : VWord) : Statement (.vsub w) := 
  ⟨fun _ h => Bool.noConfusion h, fun hwf _ => vector_decode rfl (by decide) rfl rfl rfl hwf⟩
theorem vmul (w : VWord) : Statement (.vmul w) := 
  ⟨fun _ h => Bool.noConfusion h, fun hwf _ => vector_decode rfl (by decide) rfl rfl rfl hwf⟩
theorem vmulh (w : VWord) : Statement (.vmulh w) := 
  ⟨fun _ h => Bool.noConfusion h, fun hwf _ => vector_decode rfl (by decide) rfl rfl rfl hwf⟩
theorem vmad (w : VWord) : Statement (.vmad w) := 
  ⟨fun _ h => Bool.noConfusion h, fun hwf _ => vector_decode rfl (by decide) rfl rfl rfl hwf⟩
theorem vmin (w : VWord) : Statement (.vmin w) := 
  ⟨fun _ h => Bool.noConfusion h, fun hwf _ => vector_decode rfl (by decide) rfl rfl rfl hwf⟩
theorem vmax (w : VWord) : Statement (.vmax w) := 
  ⟨fun _ h => Bool.noConfusion h, fun hwf _ => vector_decode rfl (by decide) rfl rfl rfl hwf⟩
theorem vabs (w : VWord) : Statement (.vabs w) := 
  ⟨fun _ h => Bool.noConfusion h, fun hwf _ => vector_decode rfl (by decide) rfl rfl rfl hwf⟩
theorem vand (w : VWord) : Statement (.vand w) := 
  ⟨fun _ h => Bool.noConfusion h, fun hwf _ => vector_decode rfl (by decide) rfl rfl rfl hwf⟩
theorem vor (w : VWord) : Statement (.vor w) := 
  ⟨fun _ h => Bool.noConfusion h, fun hwf _ => vector_decode rfl (by decide) rfl rfl rfl hwf⟩
theorem vxor (w : VWord) : Statement (.vxor w) := 
  ⟨fun _ h => Bool.noConfusion h, fun hwf _ => vector_decode rfl (by decide) rfl rfl rfl hwf⟩
theorem vnot (w : VWord) : Statement (.vnot w) := 
  ⟨fun _ h => Bool.noConfusion h, fun hwf _ => vector_decode rfl (by decide) rfl rfl rfl hwf⟩
theorem vshl (w : VWord) : Statement (.vshl w) := 
  ⟨fun _ h => Bool.noConfusion h, fun hwf _ => vector_decode rfl (by decide) rfl rfl rfl hwf⟩
theorem vshr (w : VWord) : Statement (.vshr w) := 
  ⟨fun _ h => Bool.noConfusion h, fun hwf _ => vector_decode rfl (by decide) rfl rfl rfl hwf⟩
theorem vsra (w : VWord) : Statement (.vsra w) := 
  ⟨fun _ h => Bool.noConfusion h, fun hwf _ => vector_decode rfl (by decide) rfl rfl rfl hwf⟩
theorem vclz (w : VWord) : Statement (.vclz w) := 
  ⟨fun _ h => Bool.noConfusion h, fun hwf _ => vector_decode rfl (by decide) rfl rfl rfl hwf⟩
theorem vpopc (w : VWord) : Statement (.vpopc w) := 
  ⟨fun _ h => Bool.noConfusion h, fun hwf _ => vector_decode rfl (by decide) rfl rfl rfl hwf⟩
theorem vbfe (w : VWord) : Statement (.vbfe w) := 
  ⟨fun _ h => Bool.noConfusion h, fun hwf _ => vector_decode rfl (by decide) rfl rfl rfl hwf⟩
theorem vbfi (w : VWord) : Statement (.vbfi w) := 
  ⟨fun _ h => Bool.noConfusion h, fun hwf _ => vector_decode rfl (by decide) rfl rfl rfl hwf⟩
theorem vmov (w : VWord) : Statement (.vmov w) := 
  ⟨fun _ h => Bool.noConfusion h, fun hwf _ => vector_decode rfl (by decide) rfl rfl rfl hwf⟩
theorem vsel (w : VWord) : Statement (.vsel w) := 
  ⟨fun _ h => Bool.noConfusion h, fun hwf _ => vector_decode rfl (by decide) rfl rfl rfl hwf⟩
theorem vidx (w : VWord) : Statement (.vidx w) := 
  ⟨fun _ h => Bool.noConfusion h, fun hwf _ => vector_decode rfl (by decide) rfl rfl rfl hwf⟩
theorem vfadd (w : VWord) : Statement (.vfadd w) := 
  ⟨fun _ h => Bool.noConfusion h, fun hwf _ => vector_decode rfl (by decide) rfl rfl rfl hwf⟩
theorem vfsub (w : VWord) : Statement (.vfsub w) := 
  ⟨fun _ h => Bool.noConfusion h, fun hwf _ => vector_decode rfl (by decide) rfl rfl rfl hwf⟩
theorem vfmul (w : VWord) : Statement (.vfmul w) := 
  ⟨fun _ h => Bool.noConfusion h, fun hwf _ => vector_decode rfl (by decide) rfl rfl rfl hwf⟩
theorem vfma (w : VWord) : Statement (.vfma w) := 
  ⟨fun _ h => Bool.noConfusion h, fun hwf _ => vector_decode rfl (by decide) rfl rfl rfl hwf⟩
theorem vfmin (w : VWord) : Statement (.vfmin w) := 
  ⟨fun _ h => Bool.noConfusion h, fun hwf _ => vector_decode rfl (by decide) rfl rfl rfl hwf⟩
theorem vfmax (w : VWord) : Statement (.vfmax w) := 
  ⟨fun _ h => Bool.noConfusion h, fun hwf _ => vector_decode rfl (by decide) rfl rfl rfl hwf⟩
theorem vfrcp (w : VWord) : Statement (.vfrcp w) := 
  ⟨fun _ h => Bool.noConfusion h, fun hwf _ => vector_decode rfl (by decide) rfl rfl rfl hwf⟩
theorem vfrsq (w : VWord) : Statement (.vfrsq w) := 
  ⟨fun _ h => Bool.noConfusion h, fun hwf _ => vector_decode rfl (by decide) rfl rfl rfl hwf⟩
theorem vfsqrt (w : VWord) : Statement (.vfsqrt w) := 
  ⟨fun _ h => Bool.noConfusion h, fun hwf _ => vector_decode rfl (by decide) rfl rfl rfl hwf⟩
theorem vfexp2 (w : VWord) : Statement (.vfexp2 w) := 
  ⟨fun _ h => Bool.noConfusion h, fun hwf _ => vector_decode rfl (by decide) rfl rfl rfl hwf⟩
theorem vflog2 (w : VWord) : Statement (.vflog2 w) := 
  ⟨fun _ h => Bool.noConfusion h, fun hwf _ => vector_decode rfl (by decide) rfl rfl rfl hwf⟩
theorem vfsin (w : VWord) : Statement (.vfsin w) := 
  ⟨fun _ h => Bool.noConfusion h, fun hwf _ => vector_decode rfl (by decide) rfl rfl rfl hwf⟩
theorem vfcos (w : VWord) : Statement (.vfcos w) := 
  ⟨fun _ h => Bool.noConfusion h, fun hwf _ => vector_decode rfl (by decide) rfl rfl rfl hwf⟩
theorem vfdiv (w : VWord) : Statement (.vfdiv w) := 
  ⟨fun _ h => Bool.noConfusion h, fun hwf _ => vector_decode rfl (by decide) rfl rfl rfl hwf⟩
theorem vcvt (w : VWord) : Statement (.vcvt w) := 
  ⟨fun _ h => Bool.noConfusion h, fun hwf _ => vector_decode rfl (by decide) rfl rfl rfl hwf⟩
theorem vpack (w : VWord) : Statement (.vpack w) := 
  ⟨fun _ h => Bool.noConfusion h, fun hwf _ => vector_decode rfl (by decide) rfl rfl rfl hwf⟩
theorem vunpk (w : VWord) : Statement (.vunpk w) := 
  ⟨fun _ h => Bool.noConfusion h, fun hwf _ => vector_decode rfl (by decide) rfl rfl rfl hwf⟩
theorem vqnq4 (w : VWord) : Statement (.vqnq4 w) := 
  ⟨fun _ h => Bool.noConfusion h, fun hwf _ => vector_decode rfl (by decide) rfl rfl rfl hwf⟩
theorem vdq (w : VWord) : Statement (.vdq w) := 
  ⟨fun _ h => Bool.noConfusion h, fun hwf _ => vector_decode rfl (by decide) rfl rfl rfl hwf⟩
theorem vsetm (w : VWord) : Statement (.vsetm w) := 
  ⟨fun _ h => Bool.noConfusion h, fun hwf _ => vector_decode rfl (by decide) rfl rfl rfl hwf⟩
theorem vmand (w : VWord) : Statement (.vmand w) := 
  ⟨fun _ h => Bool.noConfusion h, fun hwf _ => vector_decode rfl (by decide) rfl rfl rfl hwf⟩
theorem vmor (w : VWord) : Statement (.vmor w) := 
  ⟨fun _ h => Bool.noConfusion h, fun hwf _ => vector_decode rfl (by decide) rfl rfl rfl hwf⟩
theorem vmxor (w : VWord) : Statement (.vmxor w) := 
  ⟨fun _ h => Bool.noConfusion h, fun hwf _ => vector_decode rfl (by decide) rfl rfl rfl hwf⟩
theorem vmnot (w : VWord) : Statement (.vmnot w) := 
  ⟨fun _ h => Bool.noConfusion h, fun hwf _ => vector_decode rfl (by decide) rfl rfl rfl hwf⟩
theorem vballot (w : VWord) : Statement (.vballot w) := 
  ⟨fun _ h => Bool.noConfusion h, fun hwf _ => vector_decode rfl (by decide) rfl rfl rfl hwf⟩
theorem vany (w : VWord) : Statement (.vany w) := 
  ⟨fun _ h => Bool.noConfusion h, fun hwf _ => vector_decode rfl (by decide) rfl rfl rfl hwf⟩
theorem vall (w : VWord) : Statement (.vall w) := 
  ⟨fun _ h => Bool.noConfusion h, fun hwf _ => vector_decode rfl (by decide) rfl rfl rfl hwf⟩
theorem vshfl (w : VWord) : Statement (.vshfl w) := 
  ⟨fun _ h => Bool.noConfusion h, fun hwf _ => vector_decode rfl (by decide) rfl rfl rfl hwf⟩
theorem vbcast (w : VWord) : Statement (.vbcast w) := 
  ⟨fun _ h => Bool.noConfusion h, fun hwf _ => vector_decode rfl (by decide) rfl rfl rfl hwf⟩
theorem vredx (w : VWord) : Statement (.vredx w) := 
  ⟨fun _ h => Bool.noConfusion h, fun hwf _ => vector_decode rfl (by decide) rfl rfl rfl hwf⟩
theorem vscan (w : VWord) : Statement (.vscan w) := 
  ⟨fun _ h => Bool.noConfusion h, fun hwf _ => vector_decode rfl (by decide) rfl rfl rfl hwf⟩
theorem vqswap (w : VWord) : Statement (.vqswap w) := 
  ⟨fun _ h => Bool.noConfusion h, fun hwf _ => vector_decode rfl (by decide) rfl rfl rfl hwf⟩
theorem vld (w : VWord) : Statement (.vld w) := 
  ⟨fun _ h => Bool.noConfusion h, fun hwf _ => vector_decode rfl (by decide) rfl rfl rfl hwf⟩
theorem vst (w : VWord) : Statement (.vst w) := 
  ⟨fun _ h => Bool.noConfusion h, fun hwf _ => vector_decode rfl (by decide) rfl rfl rfl hwf⟩
theorem vlds (w : VWord) : Statement (.vlds w) := 
  ⟨fun _ h => Bool.noConfusion h, fun hwf _ => vector_decode rfl (by decide) rfl rfl rfl hwf⟩
theorem vsts (w : VWord) : Statement (.vsts w) := 
  ⟨fun _ h => Bool.noConfusion h, fun hwf _ => vector_decode rfl (by decide) rfl rfl rfl hwf⟩
theorem vldf (w : VWord) : Statement (.vldf w) := 
  ⟨fun _ h => Bool.noConfusion h, fun hwf _ => vector_decode rfl (by decide) rfl rfl rfl hwf⟩
theorem vatom (w : VWord) : Statement (.vatom w) := 
  ⟨fun _ h => Bool.noConfusion h, fun hwf _ => vector_decode rfl (by decide) rfl rfl rfl hwf⟩
theorem vred (w : VWord) : Statement (.vred w) := 
  ⟨fun _ h => Bool.noConfusion h, fun hwf _ => vector_decode rfl (by decide) rfl rfl rfl hwf⟩
theorem vpicot (w : VWord) : Statement (.vpicot w) := 
  ⟨fun _ h => Bool.noConfusion h, fun hwf _ => vector_decode rfl (by decide) rfl rfl rfl hwf⟩
theorem vlda (w : VWord) : Statement (.vlda w) := 
  ⟨fun _ h => Bool.noConfusion h, fun hwf _ => vector_decode rfl (by decide) rfl rfl rfl hwf⟩
theorem vstl (w : VWord) : Statement (.vstl w) := 
  ⟨fun _ h => Bool.noConfusion h, fun hwf _ => vector_decode rfl (by decide) rfl rfl rfl hwf⟩
theorem vsample (w : VWord) : Statement (.vsample w) := 
  ⟨fun _ h => Bool.noConfusion h, fun hwf _ => vector_decode rfl (by decide) rfl rfl rfl hwf⟩
theorem vaccrd (w : VWord) : Statement (.vaccrd w) := 
  ⟨fun _ h => Bool.noConfusion h, fun hwf _ => vector_decode rfl (by decide) rfl rfl rfl hwf⟩
theorem vaccwr (w : VWord) : Statement (.vaccwr w) := 
  ⟨fun _ h => Bool.noConfusion h, fun hwf _ => vector_decode rfl (by decide) rfl rfl rfl hwf⟩
theorem vaccscl (w : VWord) : Statement (.vaccscl w) := 
  ⟨fun _ h => Bool.noConfusion h, fun hwf _ => vector_decode rfl (by decide) rfl rfl rfl hwf⟩
theorem vbr (w : VWord) : Statement (.vbr w) := 
  ⟨fun _ h => Bool.noConfusion h, fun hwf _ => vector_decode rfl (by decide) rfl rfl rfl hwf⟩
theorem vjoin (w : VWord) : Statement (.vjoin w) := 
  ⟨fun _ h => Bool.noConfusion h, fun hwf _ => vector_decode rfl (by decide) rfl rfl rfl hwf⟩
theorem vend (w : VWord) : Statement (.vend w) := 
  ⟨fun _ h => Bool.noConfusion h, fun hwf _ => vector_decode rfl (by decide) rfl rfl rfl hwf⟩
theorem vexit (w : VWord) : Statement (.vexit w) := 
  ⟨fun _ h => Bool.noConfusion h, fun hwf _ => vector_decode rfl (by decide) rfl rfl rfl hwf⟩
theorem vyield (w : VWord) : Statement (.vyield w) := 
  ⟨fun _ h => Bool.noConfusion h, fun hwf _ => vector_decode rfl (by decide) rfl rfl rfl hwf⟩
theorem vtag (w : VWord) : Statement (.vtag w) := 
  ⟨fun _ h => Bool.noConfusion h, fun hwf _ => vector_decode rfl (by decide) rfl rfl rfl hwf⟩
theorem vinterp (w : VWord) : Statement (.vinterp w) := 
  ⟨fun _ h => Bool.noConfusion h, fun hwf _ => vector_decode rfl (by decide) rfl rfl rfl hwf⟩
theorem vderiv (w : VWord) : Statement (.vderiv w) := 
  ⟨fun _ h => Bool.noConfusion h, fun hwf _ => vector_decode rfl (by decide) rfl rfl rfl hwf⟩
theorem vfragout (w : VWord) : Statement (.vfragout w) := 
  ⟨fun _ h => Bool.noConfusion h, fun hwf _ => vector_decode rfl (by decide) rfl rfl rfl hwf⟩
theorem vdiscard (w : VWord) : Statement (.vdiscard w) := 
  ⟨fun _ h => Bool.noConfusion h, fun hwf _ => vector_decode rfl (by decide) rfl rfl rfl hwf⟩
theorem vrec (w : VWord) : Statement (.vrec w) := 
  ⟨fun _ h => Bool.noConfusion h, fun hwf _ => vector_decode rfl (by decide) rfl rfl rfl hwf⟩
theorem vemit (w : VWord) : Statement (.vemit w) := 
  ⟨fun _ h => Bool.noConfusion h, fun hwf _ => vector_decode rfl (by decide) rfl rfl rfl hwf⟩
theorem picotInvocation (sid : StrandId) : Statement (.picotInvocation sid) :=
  ⟨fun _ h => Bool.noConfusion h, fun _ h => Bool.noConfusion h⟩
theorem blockComplete (sid : StrandId) : Statement (.blockComplete sid) :=
  ⟨fun _ h => Bool.noConfusion h, fun _ h => Bool.noConfusion h⟩
theorem laneQueueEnqueue (sid : StrandId) : Statement (.laneQueueEnqueue sid) :=
  ⟨fun _ h => Bool.noConfusion h, fun _ h => Bool.noConfusion h⟩
theorem slwaitReturn (sid : StrandId) : Statement (.slwaitReturn sid) :=
  ⟨fun _ h => Bool.noConfusion h, fun _ h => Bool.noConfusion h⟩
theorem barrierPhaseComplete (k : BarKey) : Statement (.barrierPhaseComplete k) :=
  ⟨fun _ h => Bool.noConfusion h, fun _ h => Bool.noConfusion h⟩
theorem slwtReturn (sid : StrandId) : Statement (.slwtReturn sid) :=
  ⟨fun _ h => Bool.noConfusion h, fun _ h => Bool.noConfusion h⟩
theorem smwaitWake (sid : StrandId) : Statement (.smwaitWake sid) :=
  ⟨fun _ h => Bool.noConfusion h, fun _ h => Bool.noConfusion h⟩
theorem smwaitTimeout (sid : StrandId) : Statement (.smwaitTimeout sid) :=
  ⟨fun _ h => Bool.noConfusion h, fun _ h => Bool.noConfusion h⟩
theorem stlwaitReturn (sid : StrandId) : Statement (.stlwaitReturn sid) :=
  ⟨fun _ h => Bool.noConfusion h, fun _ h => Bool.noConfusion h⟩
theorem stlthrReturn (sid : StrandId) : Statement (.stlthrReturn sid) :=
  ⟨fun _ h => Bool.noConfusion h, fun _ h => Bool.noConfusion h⟩
theorem slaunchReturn (sid : StrandId) : Statement (.slaunchReturn sid) :=
  ⟨fun _ h => Bool.noConfusion h, fun _ h => Bool.noConfusion h⟩
theorem sgatewReturn (sid : StrandId) : Statement (.sgatewReturn sid) :=
  ⟨fun _ h => Bool.noConfusion h, fun _ h => Bool.noConfusion h⟩
theorem strandPromotion (sid : StrandId) : Statement (.strandPromotion sid) :=
  ⟨fun _ h => Bool.noConfusion h, fun _ h => Bool.noConfusion h⟩
theorem splitRotation (sid : StrandId) (slot : Bool) : Statement (.splitRotation sid slot) :=
  ⟨fun _ h => Bool.noConfusion h, fun _ h => Bool.noConfusion h⟩
theorem memoryReturn (sid : StrandId) (k : Nat) (slotFree : Bool) : Statement (.memoryReturn sid k slotFree) :=
  ⟨fun _ h => Bool.noConfusion h, fun _ h => Bool.noConfusion h⟩
theorem storePerformed (sid : StrandId) (k : Nat) : Statement (.storePerformed sid k) :=
  ⟨fun _ h => Bool.noConfusion h, fun _ h => Bool.noConfusion h⟩
theorem integrityCheckFail (sid : StrandId) (k : Nat) : Statement (.integrityCheckFail sid k) :=
  ⟨fun _ h => Bool.noConfusion h, fun _ h => Bool.noConfusion h⟩
theorem writeApply (die : Fin 4) (k : Nat) : Statement (.writeApply die k) :=
  ⟨fun _ h => Bool.noConfusion h, fun _ h => Bool.noConfusion h⟩
theorem reductionCopyCombine (die : Fin 4) (line : Nat) : Statement (.reductionCopyCombine die line) :=
  ⟨fun _ h => Bool.noConfusion h, fun _ h => Bool.noConfusion h⟩
theorem engineWordAccept (sid : StrandId) : Statement (.engineWordAccept sid) :=
  ⟨fun _ h => Bool.noConfusion h, fun _ h => Bool.noConfusion h⟩
theorem copyChunk (core : CoreId) (q : Fin 4) : Statement (.copyChunk core q) :=
  ⟨fun _ h => Bool.noConfusion h, fun _ h => Bool.noConfusion h⟩
theorem mmapDecision (core : CoreId) (id : Nat) : Statement (.mmapDecision core id) :=
  ⟨fun _ h => Bool.noConfusion h, fun _ h => Bool.noConfusion h⟩
theorem matrixWordStart (core : CoreId) (id : Nat) : Statement (.matrixWordStart core id) :=
  ⟨fun _ h => Bool.noConfusion h, fun _ h => Bool.noConfusion h⟩
theorem matrixRowPop (core : CoreId) (id : Nat) : Statement (.matrixRowPop core id) :=
  ⟨fun _ h => Bool.noConfusion h, fun _ h => Bool.noConfusion h⟩
theorem matrixWordComplete (core : CoreId) (id : Nat) : Statement (.matrixWordComplete core id) :=
  ⟨fun _ h => Bool.noConfusion h, fun _ h => Bool.noConfusion h⟩
theorem matrixWordEnded (core : CoreId) (id : Nat) : Statement (.matrixWordEnded core id) :=
  ⟨fun _ h => Bool.noConfusion h, fun _ h => Bool.noConfusion h⟩
theorem collectiveExchange (die : Fin 4) (others : List CollHeader) : Statement (.collectiveExchange die others) :=
  ⟨fun _ h => Bool.noConfusion h, fun _ h => Bool.noConfusion h⟩
theorem collectiveComplete (die : Fin 4) (sources : List (List W32)) : Statement (.collectiveComplete die sources) :=
  ⟨fun _ h => Bool.noConfusion h, fun _ h => Bool.noConfusion h⟩
theorem instanceComplete (i : InstId) : Statement (.instanceComplete i) :=
  ⟨fun _ h => Bool.noConfusion h, fun _ h => Bool.noConfusion h⟩
theorem instanceSettle (i : InstId) : Statement (.instanceSettle i) :=
  ⟨fun _ h => Bool.noConfusion h, fun _ h => Bool.noConfusion h⟩
theorem granuleZeroingDone (core : CoreId) (g : Fin 48) : Statement (.granuleZeroingDone core g) :=
  ⟨fun _ h => Bool.noConfusion h, fun _ h => Bool.noConfusion h⟩
theorem workgroupPlacement (launch : Nat) (cores : List CoreId) : Statement (.workgroupPlacement launch cores) :=
  ⟨fun _ h => Bool.noConfusion h, fun _ h => Bool.noConfusion h⟩
theorem watchdog (launch : Nat) : Statement (.watchdog launch) :=
  ⟨fun _ h => Bool.noConfusion h, fun _ h => Bool.noConfusion h⟩
theorem drain (world : Nat) (cores : List CoreId) (timeout area : Nat) : Statement (.drain world cores timeout area) :=
  ⟨fun _ h => Bool.noConfusion h, fun _ h => Bool.noConfusion h⟩
theorem drainTimeout (world : Nat) : Statement (.drainTimeout world) :=
  ⟨fun _ h => Bool.noConfusion h, fun _ h => Bool.noConfusion h⟩
theorem forcedSave (wg : Nat) (addr : Nat) : Statement (.forcedSave wg addr) :=
  ⟨fun _ h => Bool.noConfusion h, fun _ h => Bool.noConfusion h⟩
theorem cocoonRestore (k : Nat) (core : CoreId) : Statement (.cocoonRestore k core) :=
  ⟨fun _ h => Bool.noConfusion h, fun _ h => Bool.noConfusion h⟩
theorem pageWalk (die : Fin 4) : Statement (.pageWalk die) :=
  ⟨fun _ h => Bool.noConfusion h, fun _ h => Bool.noConfusion h⟩
theorem inval (world va log2 : Nat) : Statement (.inval world va log2) :=
  ⟨fun _ h => Bool.noConfusion h, fun _ h => Bool.noConfusion h⟩
theorem invalall (world : Nat) : Statement (.invalall world) :=
  ⟨fun _ h => Bool.noConfusion h, fun _ h => Bool.noConfusion h⟩
theorem qrestart (world : Nat) (q : QueueKey) : Statement (.qrestart world q) :=
  ⟨fun _ h => Bool.noConfusion h, fun _ h => Bool.noConfusion h⟩
theorem resolveResume (world seq : Nat) : Statement (.resolveResume world seq) :=
  ⟨fun _ h => Bool.noConfusion h, fun _ h => Bool.noConfusion h⟩
theorem resolveEnd (world seq : Nat) : Statement (.resolveEnd world seq) :=
  ⟨fun _ h => Bool.noConfusion h, fun _ h => Bool.noConfusion h⟩
theorem resolveNext (world seq : Nat) : Statement (.resolveNext world seq) :=
  ⟨fun _ h => Bool.noConfusion h, fun _ h => Bool.noConfusion h⟩
theorem resolveAck (world seq : Nat) : Statement (.resolveAck world seq) :=
  ⟨fun _ h => Bool.noConfusion h, fun _ h => Bool.noConfusion h⟩
theorem worldPartitionWrite (core : CoreId) (idx : Fin 8) (val : W64) : Statement (.worldPartitionWrite core idx val) :=
  ⟨fun _ h => Bool.noConfusion h, fun _ h => Bool.noConfusion h⟩
theorem worldTranslationRecord (world : Nat) (root : W64) (queueBase : W64) (depth : Nat) : Statement (.worldTranslationRecord world root queueBase depth) :=
  ⟨fun _ h => Bool.noConfusion h, fun _ h => Bool.noConfusion h⟩
theorem worldReleaseScrub (world : Nat) (bad : List Nat) : Statement (.worldReleaseScrub world bad) :=
  ⟨fun _ h => Bool.noConfusion h, fun _ h => Bool.noConfusion h⟩
theorem frameStart (ctx : Nat) : Statement (.frameStart ctx) :=
  ⟨fun _ h => Bool.noConfusion h, fun _ h => Bool.noConfusion h⟩
theorem nodeFrameDeadline (ctx node frame : Nat) : Statement (.nodeFrameDeadline ctx node frame) :=
  ⟨fun _ h => Bool.noConfusion h, fun _ h => Bool.noConfusion h⟩
theorem edgeDeadline (ctx edge : Nat) : Statement (.edgeDeadline ctx edge) :=
  ⟨fun _ h => Bool.noConfusion h, fun _ h => Bool.noConfusion h⟩
theorem datagramSend (port : Fin 4) : Statement (.datagramSend port) :=
  ⟨fun _ h => Bool.noConfusion h, fun _ h => Bool.noConfusion h⟩
theorem datagramExpired (port : Fin 4) : Statement (.datagramExpired port) :=
  ⟨fun _ h => Bool.noConfusion h, fun _ h => Bool.noConfusion h⟩
theorem controlResend (ctx k : Nat) : Statement (.controlResend ctx k) :=
  ⟨fun _ h => Bool.noConfusion h, fun _ h => Bool.noConfusion h⟩
theorem failed (ctx k : Nat) : Statement (.failed ctx k) :=
  ⟨fun _ h => Bool.noConfusion h, fun _ h => Bool.noConfusion h⟩
theorem fragmentMerge (ctx node k : Nat) : Statement (.fragmentMerge ctx node k) :=
  ⟨fun _ h => Bool.noConfusion h, fun _ h => Bool.noConfusion h⟩
theorem rmaResend (message : Nat) : Statement (.rmaResend message) :=
  ⟨fun _ h => Bool.noConfusion h, fun _ h => Bool.noConfusion h⟩
theorem keyRevocation (handle : Nat) : Statement (.keyRevocation handle) :=
  ⟨fun _ h => Bool.noConfusion h, fun _ h => Bool.noConfusion h⟩
theorem fabricRekey (link : Fin 18) : Statement (.fabricRekey link) :=
  ⟨fun _ h => Bool.noConfusion h, fun _ h => Bool.noConfusion h⟩
theorem crashDump (buffer : Nat) : Statement (.crashDump buffer) :=
  ⟨fun _ h => Bool.noConfusion h, fun _ h => Bool.noConfusion h⟩
theorem spareBringIn (unit : SpareUnit) : Statement (.spareBringIn unit) :=
  ⟨fun _ h => Bool.noConfusion h, fun _ h => Bool.noConfusion h⟩
theorem unassignedMajor (w : W32) : Statement (.unassignedMajor w) := by
  refine ⟨fun hwf _ rest => ?_, fun _ hw => Bool.noConfusion hw⟩
  have hc : fld w.toNat 22 6 ∈ [0x26, 0x27, 0x32] ∨ 0x34 ≤ fld w.toNat 22 6 := by
    have h : Instr.combinationOk (.unassignedMajor w) = true := by
      have h := hwf; simp only [Instr.wf, Instr.vword, Instr.guard?, Bool.true_and] at h; exact h
    exact of_decide_eq_true h
  have hk : fld w.toNat 22 6 < 64 := Nat.mod_lt _ (by decide)
  have hm (g : Guard) : decodeMajor g w.toNat 0 = none := by
    generalize hf : fld w.toNat 22 6 = k at hc hk
    simp only [decodeMajor, hf]
    have : k = 38 ∨ k = 39 ∨ k = 50 ∨ 52 ≤ k := by simpa [or_assoc] using hc
    obtain rfl | rfl | rfl | h := this
    · rfl
    · rfl
    · rfl
    · obtain ⟨j, rfl⟩ : ∃ j, k = j + 52 := ⟨k - 52, by omega⟩
      rfl
  have h2 : twoWords w.toNat = false := by
    have : fld w.toNat 22 6 ≠ 9 ∧ fld w.toNat 22 6 ≠ 10 ∧ fld w.toNat 22 6 ≠ 22 ∧ fld w.toNat 22 6 ≠ 32 := by
      simp only [List.mem_cons, List.not_mem_nil, or_false] at hc; omega
    unfold twoWords
    split <;> simp_all
  refine encoded_one _ w.toNat rfl rfl w.isLt h2 ?_ rest
  simp only [decodeScalar, hm, BitVec.ofNat_toNat, BitVec.setWidth_eq]
theorem unassignedVectorOpcode (w : BitVec 96) : Statement (.unassignedVectorOpcode w) := by
  refine ⟨fun _ hw => Bool.noConfusion hw, fun hwf _ rest => ?_⟩
  have hc : vCtor (fld w.toNat 88 8) = none := by
    have h := hwf
    simp only [Instr.wf, Instr.vword, Instr.guard?, Bool.true_and, Instr.combinationOk] at h
    exact Option.isNone_iff_eq_none.mp h
  have hl : w.toNat < 256 ^ 12 := by have := w.isLt; norm_num at this ⊢; exact this
  have e : encodeBytes (.unassignedVectorOpcode w) = natLE 12 w.toNat := by
    have : encode (.unassignedVectorOpcode w) = [w.toNat] := rfl
    simp [encodeBytes, this, Instr.isVector]
  rw [e]
  refine decodeVectorBytes_of hl ?_ rest
  simp only [decodeVector, hc, BitVec.ofNat_toNat, BitVec.setWidth_eq]
theorem drainResumption (world : Nat) : Statement (.drainResumption world) :=
  ⟨fun _ h => Bool.noConfusion h, fun _ h => Bool.noConfusion h⟩
theorem ptpSync (ctx : Nat) (offset : Int) : Statement (.ptpSync ctx offset) :=
  ⟨fun _ h => Bool.noConfusion h, fun _ h => Bool.noConfusion h⟩
theorem picinsComplete (sid : StrandId) : Statement (.picinsComplete sid) :=
  ⟨fun _ h => Bool.noConfusion h, fun _ h => Bool.noConfusion h⟩
theorem fdtsyncComplete (sid : StrandId) : Statement (.fdtsyncComplete sid) :=
  ⟨fun _ h => Bool.noConfusion h, fun _ h => Bool.noConfusion h⟩
theorem invalComplete : Statement (.invalComplete) :=
  ⟨fun _ h => Bool.noConfusion h, fun _ h => Bool.noConfusion h⟩
theorem data : Statement (.data) :=
  ⟨fun _ h => Bool.noConfusion h, fun _ h => Bool.noConfusion h⟩
theorem parity : Statement (.parity) :=
  ⟨fun _ h => Bool.noConfusion h, fun _ h => Bool.noConfusion h⟩
theorem malformedDatagram : Statement (.malformedDatagram) :=
  ⟨fun _ h => Bool.noConfusion h, fun _ h => Bool.noConfusion h⟩
theorem cutPropose : Statement (.cutPropose) :=
  ⟨fun _ h => Bool.noConfusion h, fun _ h => Bool.noConfusion h⟩
theorem cutAck : Statement (.cutAck) :=
  ⟨fun _ h => Bool.noConfusion h, fun _ h => Bool.noConfusion h⟩
theorem cutCommit : Statement (.cutCommit) :=
  ⟨fun _ h => Bool.noConfusion h, fun _ h => Bool.noConfusion h⟩
theorem commitAck : Statement (.commitAck) :=
  ⟨fun _ h => Bool.noConfusion h, fun _ h => Bool.noConfusion h⟩
theorem cutAbort : Statement (.cutAbort) :=
  ⟨fun _ h => Bool.noConfusion h, fun _ h => Bool.noConfusion h⟩
theorem abortAck : Statement (.abortAck) :=
  ⟨fun _ h => Bool.noConfusion h, fun _ h => Bool.noConfusion h⟩
theorem handover : Statement (.handover) :=
  ⟨fun _ h => Bool.noConfusion h, fun _ h => Bool.noConfusion h⟩
theorem handoverAck : Statement (.handoverAck) :=
  ⟨fun _ h => Bool.noConfusion h, fun _ h => Bool.noConfusion h⟩
theorem rmaPacketArrival : Statement (.rmaPacketArrival) :=
  ⟨fun _ h => Bool.noConfusion h, fun _ h => Bool.noConfusion h⟩
theorem rmaAcknowledgement : Statement (.rmaAcknowledgement) :=
  ⟨fun _ h => Bool.noConfusion h, fun _ h => Bool.noConfusion h⟩
theorem triggeredRequestPost : Statement (.triggeredRequestPost) :=
  ⟨fun _ h => Bool.noConfusion h, fun _ h => Bool.noConfusion h⟩
theorem regionEntryWrite : Statement (.regionEntryWrite) :=
  ⟨fun _ h => Bool.noConfusion h, fun _ h => Bool.noConfusion h⟩
theorem firewallWindowWrite : Statement (.firewallWindowWrite) :=
  ⟨fun _ h => Bool.noConfusion h, fun _ h => Bool.noConfusion h⟩
theorem inboundRequest : Statement (.inboundRequest) :=
  ⟨fun _ h => Bool.noConfusion h, fun _ h => Bool.noConfusion h⟩
theorem boot : Statement (.boot) :=
  ⟨fun _ h => Bool.noConfusion h, fun _ h => Bool.noConfusion h⟩
theorem getMeasurements : Statement (.getMeasurements) :=
  ⟨fun _ h => Bool.noConfusion h, fun _ h => Bool.noConfusion h⟩
theorem bundleUpdate : Statement (.bundleUpdate) :=
  ⟨fun _ h => Bool.noConfusion h, fun _ h => Bool.noConfusion h⟩
theorem bundleWatchdog : Statement (.bundleWatchdog) :=
  ⟨fun _ h => Bool.noConfusion h, fun _ h => Bool.noConfusion h⟩
theorem remoteAttestation : Statement (.remoteAttestation) :=
  ⟨fun _ h => Bool.noConfusion h, fun _ h => Bool.noConfusion h⟩
theorem debugLockOpen : Statement (.debugLockOpen) :=
  ⟨fun _ h => Bool.noConfusion h, fun _ h => Bool.noConfusion h⟩
theorem powerStateEntry : Statement (.powerStateEntry) :=
  ⟨fun _ h => Bool.noConfusion h, fun _ h => Bool.noConfusion h⟩
theorem powerStateExit : Statement (.powerStateExit) :=
  ⟨fun _ h => Bool.noConfusion h, fun _ h => Bool.noConfusion h⟩
theorem powerExitComplete : Statement (.powerExitComplete) :=
  ⟨fun _ h => Bool.noConfusion h, fun _ h => Bool.noConfusion h⟩
theorem hardPartitionChange : Statement (.hardPartitionChange) :=
  ⟨fun _ h => Bool.noConfusion h, fun _ h => Bool.noConfusion h⟩
theorem launchSubmission : Statement (.launchSubmission) :=
  ⟨fun _ h => Bool.noConfusion h, fun _ h => Bool.noConfusion h⟩
theorem queueCreate : Statement (.queueCreate) :=
  ⟨fun _ h => Bool.noConfusion h, fun _ h => Bool.noConfusion h⟩
theorem contextCreate : Statement (.contextCreate) :=
  ⟨fun _ h => Bool.noConfusion h, fun _ h => Bool.noConfusion h⟩
theorem jobClose : Statement (.jobClose) :=
  ⟨fun _ h => Bool.noConfusion h, fun _ h => Bool.noConfusion h⟩
theorem contextDestroy : Statement (.contextDestroy) :=
  ⟨fun _ h => Bool.noConfusion h, fun _ h => Bool.noConfusion h⟩
theorem queueDestroy : Statement (.queueDestroy) :=
  ⟨fun _ h => Bool.noConfusion h, fun _ h => Bool.noConfusion h⟩
theorem worldCreate : Statement (.worldCreate) :=
  ⟨fun _ h => Bool.noConfusion h, fun _ h => Bool.noConfusion h⟩

end Sys2Proof.Laws.RoundTrip
end

