-- ==== Sys2Proof/Safety.lean ====
section
/-! DEFINITION. What claims say of states and of runs: memories in their canonical form, and states that steps lead to. -/

namespace Sys2Proof.Machine

open Sys2Proof

/-- Global memory is canonical at its home and in every die's view. -/
def MemSys.wf (m : MemSys) : Bool := m.home.wf && m.views.toList.all Mem.wf

/-- Every memory of the machine is canonical: global memory, and each workgroup's scratchpad and tiles. -/
def State.memWf (s : State) : Bool := s.mem.wf && s.wgs.all fun p => p.2.scratch.wf && p.2.tiles.wf

/-- A strand's scalar stream executes a word: the strand stands as `e` says, and the word's guard holds (06 R154). -/
structure Issues (s : State) (e : Env) (g : Guard) : Prop where
  cur : s.cur = some (.scalar e.sid)
  env : s.env? e.sid = some e
  guard : e.st.holds g = true

/-- The machine after a scalar word that changes its own strand by `f` and goes on at `pc`: nothing else is touched. -/
def State.after (s : State) (e : Env) (pc : Nat) (f : Strand → Strand) : State :=
  s.modStrand e.sid fun st => (f st).next pc s.cycle

/-- The machine with a strand's scalar stream waiting at its word: it has been found not ready, so its age for promotion starts
again (01 R22). -/
def State.waits (s : State) (sid : StrandId) (w : Wait) : State :=
  s.modStrand sid fun st => { st with wait := some w, readySince := s.cycle, promoted := false }

/-- Every field but the strands is as it was, and so is every strand but one. -/
structure OnlyStrand (s t : State) (sid : StrandId) : Prop where
  rest : { t with strands := s.strands } = s
  others : ∀ k, k ≠ sid → t.strands.get? k = s.strands.get? k

/-- Every field but the strands, global memory's and the next number is as it was, and so is every strand but one. -/
structure OnlyStrandMem (s t : State) (sid : StrandId) : Prop where
  rest : { t with strands := s.strands, mem := s.mem, nextId := s.nextId } = s
  others : ∀ k, k ≠ sid → t.strands.get? k = s.strands.get? k

/-- A scalar access that reaches global memory (06 R176): 57 bits, aligned, translated to an address of this device, which
keeps the alignment (a page is at least 64 KiB, 18 R338). -/
structure Reaches57 (s : State) (e : Env) (va n : Nat) (k : AccessKind) (pa : Nat) : Prop where
  low : va < 2 ^ 57
  aligned : va % n = 0
  maps : ∃ f, lookup s e.quadrant e.die e.world e.priv e.st.scalarWalkFaults va k = .ok pa f
  here : isRemote pa = false
  placed : pa % n = 0

/-- No byte of global memory, of any die's view, of a scratchpad or of a tile reads otherwise than it did. -/
structure SameBytes (s t : State) : Prop where
  home : ∀ a, t.mem.home.get a = s.mem.home.get a
  views : ∀ d a, (t.mem.view d).get a = (s.mem.view d).get a
  scratch : ∀ w a, (t.wgs.get? w).map (fun g => g.scratch.get a) = (s.wgs.get? w).map fun g => g.scratch.get a
  tiles : ∀ w a, (t.wgs.get? w).map (fun g => g.tiles.get a) = (s.wgs.get? w).map fun g => g.tiles.get a

/-! ## Vector words -/

/-- A vector word gets past the checks of 06 R158 and the waits of 01 R38 and 04 R114, with some lane active (08 R214). -/
structure IssuesV (s : State) (op : Nat) (w : VWord) (c : VCtx) : Prop where
  ctx : s.vctx? op w = some c
  whole : c.restarts = false
  chain : c.chainOk = true
  names : c.namesOk = true
  lane : c.activeMask ≠ 0
  tags : regTagsOk s c.e = true
  ready : c.outstanding = false
  alone : c.lasting = true → c.st.returns = []
  sound : c.readsBad = false

/-- A register's value in a lane. -/
def Strand.vlane (st : Strand) (i : Nat) (l : Lane) : W32 := (st.v.getD i (.u 0)).lane l

/-- The shape tag that a register carries (02 R47). -/
def Strand.vtag (st : Strand) (i : Nat) : Tag := (st.v.getD i (.u 0)).tag

/-- Lane values that a base and a stride give (02 R47). -/
def Affine (f : Lane → W32) : Prop := ∃ b d : W32, ∀ l : Lane, f l = b + BitVec.ofNat 32 l.val * d

/-- The tag of lane values that a word writes in its active lanes, where `t` is the tag of the result in all lanes: general where
some lane is inactive, and for values that no base and stride give (02 R48; log 16). -/
structure Tagged (c : VCtx) (t : Tag) (f : Lane → W32) (k : Tag) : Prop where
  part : c.activeMask ≠ BitVec.allOnes 32 → k = .g
  whole : c.activeMask = BitVec.allOnes 32 → (t = .a → Affine f) → k = t
  bent : c.activeMask = BitVec.allOnes 32 → t = .a → ¬ Affine f → k = .g

/-- The tag of a word's result in all lanes, of its sources' and of `extra` sources (02 R48). -/
def VCtx.rowTag (c : VCtx) (extra : List Tag) : Tag :=
  resultTag c.op c.w.ty ((c.sources.map fun p => c.tagOf p.1 p.2) ++ extra)

/-- The split of a vector word has gone on to the next word, and its chain holds one more latch, with a tag (01 R33, R34). -/
structure WentOn (c : VCtx) (st : Strand) (latch : Lane → W32) (tagged : Tag → Prop := (· = .u)) : Prop where
  other : st.slots[otherSlot c.slot] = c.st.slots[otherSlot c.slot]
  split : ∃ sp k r, st.slots[c.slot] = some sp ∧ sp = { c.sp with pos := c.sp.pos + 1, run := c.sp.run + 1, chain := some k } ∧
    k.first = c.chain.first ∧ k.next = c.sp.pos + 1 ∧ k.latches = c.chain.latches ++ [r] ∧ (∀ l, r.reg.lane l = latch l) ∧ tagged r.tag

/-- The vector words with no check of names of their own, and with their opcodes (08). -/
def vectorWords : List (Nat × (VWord → Instr)) :=
  [(0x00, Instr.vnop), (0x01, .vadd), (0x02, .vsub), (0x03, .vmul), (0x04, .vmulh), (0x05, .vmad), (0x06, .vmin), (0x07, .vmax),
   (0x08, .vabs), (0x09, .vand), (0x0A, .vor), (0x0B, .vxor), (0x0C, .vnot), (0x0D, .vshl), (0x0E, .vshr), (0x0F, .vsra),
   (0x10, .vclz), (0x11, .vpopc), (0x12, .vbfe), (0x13, .vbfi), (0x14, .vmov), (0x15, .vsel), (0x16, .vidx),
   (0x20, .vfadd), (0x21, .vfsub), (0x22, .vfmul), (0x23, .vfma), (0x24, .vfmin), (0x25, .vfmax), (0x26, .vfrcp), (0x27, .vfrsq),
   (0x28, .vfsqrt), (0x29, .vfexp2), (0x2A, .vflog2), (0x2B, .vfsin), (0x2C, .vfcos), (0x2D, .vfdiv),
   (0x30, .vcvt), (0x31, .vpack), (0x32, .vunpk), (0x33, .vqnq4), (0x34, .vdq),
   (0x40, .vsetm), (0x41, .vmand), (0x42, .vmor), (0x43, .vmxor), (0x44, .vmnot), (0x45, .vballot), (0x46, .vany), (0x47, .vall),
   (0x50, .vshfl), (0x51, .vbcast), (0x52, .vredx), (0x53, .vscan), (0x54, .vqswap),
   (0x60, .vld), (0x61, .vst), (0x62, .vlds), (0x63, .vsts), (0x64, .vldf), (0x65, .vatom), (0x66, .vred), (0x68, .vlda),
   (0x69, .vstl), (0x6A, .vsample), (0x90, .vinterp), (0x91, .vderiv), (0x93, .vdiscard), (0x94, .vrec), (0x95, .vemit)]

/-- A vector word answers a state in which its split has gone on and nothing but its own strand has changed; the strand
is one that `p` holds of. -/
def AnswersV (s : State) (i : Instr) (c : VCtx) (latch : Lane → W32) (p : Strand → Prop) (tagged : Tag → Prop := (· = .u)) : Prop :=
  ∃ t st, exec i s = .next t ∧ OnlyStrand s t c.e.sid ∧ t.strands.get? c.e.sid = some st ∧ WentOn c st latch tagged ∧ p st

/-- The strand has only its registers and its splits otherwise; no register has a new failing check. -/
structure OnlyRegs (c : VCtx) (st : Strand) : Prop where
  rest : { st with v := c.st.v, badRegs := c.st.badRegs, slots := c.st.slots } = c.st
  bad : ∀ i ∈ st.badRegs, i ∈ c.st.badRegs

/-- A word that writes a value of a type to its destination in each active lane: the pair for 64 bits, zeros above a
narrow type (08 R213, R214). With nowb the registers stay; the latch has the value's low word. The registers written, and the
latch, carry the tag that 02 R48 gives, where the word has sources beyond its operands with those tags too. -/
def LaneAnswer (s : State) (i : Instr) (c : VCtx) (t : Ty) (f : Lane → Nat) (extra : List Tag := []) : Prop :=
  let lo (l : Lane) : W32 := BitVec.ofNat 32 (f l)
  let hi (l : Lane) : W32 := BitVec.ofNat 32 (f l / 2 ^ 32)
  AnswersV s i c (fun l => if c.active l then lo l else 0) (fun st => OnlyRegs c st ∧
    (∀ r l, st.vlane r l = if c.active l = false ∨ c.w.nowb = true then c.st.vlane r l
      else if r = c.w.dst.val then lo l
      else if t.wide = true ∧ r = c.w.dst.val + 1 then hi l
      else c.st.vlane r l) ∧
    ∀ r, if c.w.nowb = true then st.vtag r = c.st.vtag r
      else if r = c.w.dst.val then Tagged c (c.rowTag extra) lo (st.vtag r)
      else if t.wide = true ∧ r = c.w.dst.val + 1 then Tagged c (c.rowTag extra) hi (st.vtag r)
      else st.vtag r = c.st.vtag r) (Tagged c (c.rowTag extra) lo)

/-- A word that writes all 32 lanes of its destination, with the tag of 02 R48's first two rows (08 R215). -/
def WholeAnswer (s : State) (i : Instr) (c : VCtx) (latch f : Lane → W32) (tag : Tag := .u) : Prop :=
  AnswersV s i c latch (fun st => OnlyRegs c st ∧
    (∀ r l, st.vlane r l = if r = c.w.dst.val ∧ c.w.nowb = false then f l else c.st.vlane r l) ∧
    ∀ r, st.vtag r = if r = c.w.dst.val ∧ c.w.nowb = false then tag else c.st.vtag r) (· = tag)

/-- A word that writes a return slot where modifier [10] is set, and all lanes of a register where it is clear. -/
def SlotAnswer (s : State) (i : Instr) (c : VCtx) (v : W64) : Prop :=
  (c.w.mbit 10 = false → WholeAnswer s i c (fun _ => v.setWidth 32) fun _ => v.setWidth 32) ∧
  (c.w.mbit 10 = true → AnswersV s i c (fun _ => v.setWidth 32) fun st =>
    { st with q := c.st.q, slots := c.st.slots } = c.st ∧
      ∀ j : Fin 8, st.q[j] = if j.val = c.w.dst.val % 8 ∧ c.w.nowb = false then v else c.st.q[j])

/-- A word that writes the active lanes' bits of its destination mask (08 R222); `extra` are the tags of masks read (log 128). -/
def MaskAnswer (s : State) (i : Instr) (c : VCtx) (f : Lane → Bool) (extra : List Tag := []) : Prop :=
  AnswersV s i c (fun l => if c.active l && f l then 1 else 0) (fun st =>
    { st with masks := c.st.masks, slots := c.st.slots } = c.st ∧
      ∀ (j : Fin 16) (l : Lane), laneBit st.masks[j] l =
        if j.val = c.w.dst.val % 16 ∧ c.active l = true ∧ c.w.nowb = false then f l else laneBit c.st.masks[j] l)
    (Tagged c (c.rowTag extra) fun l => if f l then 1 else 0)

/-- A vector load: the split goes on with the values in its latch, tagged G, and, but for nowb, the strand has one more return,
for the active lanes, that is to write the values to the destination (01 R38); with nowb one that writes nothing at most. -/
def LoadAnswer (s : State) (i : Instr) (c : VCtx) (wide : Bool) (f : Lane → Nat) : Prop :=
  ∃ t st, exec i s = .next t ∧ t.strands.get? c.e.sid = some st ∧
    WentOn c st (fun l => if c.active l then BitVec.ofNat 32 (f l) else 0) (· = .g) ∧
    { st with slots := c.st.slots, returns := c.st.returns } = c.st ∧
    (∀ k, k ≠ c.e.sid → t.strands.get? k = s.strands.get? k) ∧
    (c.w.nowb = true → c.st.returns <+: st.returns ∧ ∀ r ∈ st.returns, r ∈ c.st.returns ∨ r.regs = []) ∧
    (c.w.nowb = false → ∃ r lo hi, st.returns = c.st.returns ++ [r] ∧ r.mask = c.activeMask ∧ r.queued = false ∧
      r.regs = (if wide then [(c.w.dst.val, lo), (c.w.dst.val + 1, hi)] else [(c.w.dst.val, lo)]) ∧
      ∀ l : Lane, c.active l = true → lo[l] = BitVec.ofNat 32 (f l) ∧ hi[l] = BitVec.ofNat 32 (f l / 2 ^ 32))

/-- The active lanes' accesses reach global memory: 57 bits, aligned, translated to an address of this device. -/
structure LanesReach (s : State) (c : VCtx) (va : Lane → Nat) (n : Nat) (k : AccessKind) (pa : Lane → Nat) : Prop where
  low : ∀ l, c.active l = true → va l < 2 ^ 57
  aligned : ∀ l, c.active l = true → va l % n = 0
  maps : ∀ l, c.active l = true → ∃ f, lookup s c.e.quadrant c.e.die c.e.world c.e.priv c.st.vectorWalkFaults (va l) k = .ok (pa l) f
  here : ∀ l, c.active l = true → isRemote (pa l) = false
  placed : ∀ l, c.active l = true → pa l % n = 0

/-- What the active lanes would read lies at L2: the die's copy of each line answers the world as it stands, no buffered store
of the bytes, no failed check in the lines, and either the word reads fresh or L1 holds none of the lines. -/
structure LanesAtL2 (s : State) (c : VCtx) (n : Nat) (fresh : Bool) (pa : Lane → Nat) : Prop where
  held : ∀ l, c.active l = true → s.mem.readyLine s.parts c.e.die c.e.world (lineOf (pa l)) = s.mem
  buffer : ∀ l, c.active l = true → forward c.st.stores (pa l) n = .none
  sound : ∀ l, c.active l = true → s.mem.poisoned (128 * lineOf (pa l)) 128 = false
  l1 : fresh = true ∨ ∀ l, c.active l = true → s.mem.l1Find c.e.core c.e.world (lineOf (pa l)) = none

/-- The active lanes' scratchpad accesses pass their checks (08 R229, 06 R176). -/
structure LanesScratch (s : State) (c : VCtx) (off : Lane → Nat) (n : Nat) (reads : Bool) : Prop where
  fits : ∀ l, c.active l = true → off l + n ≤ c.e.scratchBytes
  aligned : ∀ l, c.active l = true → off l % n = 0
  tags : ∀ l, c.active l = true → scratchTagOk s c.e (off l) = true
  sound : reads = true → ∀ l, c.active l = true → badWord c.e.wg.badScratch (off l) n = false

/-- The words of R182, R184, R185, R186 and R187: registers in, one register or predicate out. -/
def registerWord : Instr → Bool
  | .sadd .. | .ssub .. | .smul .. | .smulh .. | .smulhw .. | .sdivw .. | .sremw .. | .sand .. | .sor .. | .sxor .. | .sshl ..
  | .sshr .. | .ssra .. | .smin .. | .smax .. | .sminw .. | .smaxw .. | .ssel .. | .sclz .. | .spopc .. | .saddi .. | .sandi ..
  | .sori .. | .sxori .. | .sshli .. | .sshri .. | .ssrai .. | .sli .. | .slih .. | .ssetp .. | .spand .. | .spor .. | .spxor ..
  | .spnot .. | .spmov .. => true
  | _ => false

/-- The scalar register that a register word names as its destination. -/
def destReg : Instr → Option SReg
  | .sadd _ d _ _ | .ssub _ d _ _ | .smul _ d _ _ | .smulh _ d _ _ | .smulhw _ d _ _ | .sdivw _ d _ _ | .sremw _ d _ _
  | .sand _ d _ _ | .sor _ d _ _ | .sxor _ d _ _ | .sshl _ d _ _ | .sshr _ d _ _ | .ssra _ d _ _ | .smin _ d _ _
  | .smax _ d _ _ | .sminw _ d _ _ | .smaxw _ d _ _ | .ssel _ d _ _ | .sclz _ d _ | .spopc _ d _ | .saddi _ d _ _
  | .sandi _ d _ _ | .sori _ d _ _ | .sxori _ d _ _ | .sshli _ d _ _ | .sshri _ d _ _ | .ssrai _ d _ _ | .sli _ d _
  | .slih _ d _ => some d
  | _ => none

/-- The predicate that a register word names as its destination. -/
def destPred : Instr → Option PReg
  | .ssetp _ d _ _ _ _ | .spand _ d _ _ | .spor _ d _ _ | .spxor _ d _ _ | .spnot _ d _ | .spmov _ d _ => some d
  | _ => none

/-- A scalar word that decoding judges without its strand (06 R158): it names no role, handle or special register. -/
def plainWord : Instr → Bool
  | .slq .. | .sbar .. | .sbara .. | .stlwait .. | .stlthr .. | .stlrd .. | .srds .. | .swrs .. | .cpy .. | .cpyThen ..
  | .cpyset .. | .mma .. | .mmap .. | .mzero .. | .mguide .. | .ccol .. | .sgate .. | .scancel .. => false
  | _ => true

/-- The bytes of a scalar word (06 R157). -/
def scalarBytesOf : Instr → Nat
  | .sli .. | .slih .. | .slq .. | .cpyThen .. => 8
  | _ => 4

/-- `t` is reached from `s` by steps that all answer a next state. -/
inductive Reaches : State → State → Prop
  | refl (s : State) : Reaches s s
  | tail {s t u : State} (h : Reaches s t) (k : step t = .next u) : Reaches s u

end Sys2Proof.Machine
end

