-- ==== Sys2Proof/Certificates/Slice0/Obligations.lean ====
section
/-! DEFINITION. The statements for the provers. Each follows rules of spec/ that its docstring names. -/

open Sys2Proof Sys2Proof.Machine

/-- 06: the encodings of the scalar and of the vector words; the round trip over all of them. -/
def Obligations.EncodeDecode : Prop :=
  ∀ i : Instr, Sys2Proof.Laws.RoundTrip.Statement i

/-- 06 R158: unused fields are zero and reserved values do not decode, so a word that decodes is the only one for its instruction. -/
def Obligations.DecodeEncode : Prop :=
  (∀ (bs rest : List Byte) (i : Instr), decodeScalarBytes bs = .ok (i, rest) →
    (i.wf = true ∨ ∃ g d a b n, i = .sgate g d a b n) ∧ i.isScalar = true ∧ encodeBytes i ++ rest = bs)
  ∧ ∀ (bs rest : List Byte) (i : Instr), decodeVectorBytes bs = .ok (i, rest) →
    i.wf = true ∧ i.isVector = true ∧ encodeBytes i ++ rest = bs

/-- The examples of 07 and 09, word for word. -/
def Obligations.DecodeWords : Prop :=
  decodeScalar 0x00485300 0 = .ok (.sadd ⟨false, 0⟩ 4 5 6) ∧
  decodeScalar 0x308E4010 0 = .ok (.saddi ⟨false, 3⟩ 7 4 16) ∧
  decodeScalar 0x02500000 0xFFFFFFFE = .ok (.sli ⟨false, 0⟩ 8 0xFFFFFFFE) ∧
  decodeScalar 0x02880000 0x00001234 = .ok (.slih ⟨false, 0⟩ 4 0x00001234) ∧
  decodeScalar 0x00000204 0 = .ok (.sfence ⟨false, 0⟩ .dev) ∧
  decodeScalar 0x004E5305 0 = .ok (.sdivw ⟨false, 0⟩ 7 5 6) ∧
  decodeScalar 0x00929FFF 0 = .ok (.saddi ⟨false, 0⟩ 9 9 (-1)) ∧
  decodeScalar 0x02C44299 0 = .ok (.ssetp ⟨false, 0⟩ 2 4 5 .lo .i32) ∧
  decodeScalar 0x034E4C00 0 = .ok (.sld ⟨false, 0⟩ 7 4 true .b4 0) ∧
  decodeScalar 0x04525900 0 = .ok (.sstl ⟨false, 0⟩ 9 5 .dev .b4 0) ∧
  decodeScalar 0x048E443C 0 = .ok (.satom ⟨false, 0⟩ 7 4 8 .cas false .dev) ∧
  decodeScalar 0xA4FFFFFD 0 = .ok (.sbr ⟨true, 2⟩ (-3)) ∧
  decodeScalar 0x05000028 0 = .ok (.scall ⟨false, 0⟩ 40) ∧
  decodeScalar 0x05400002 0 = .ok (.sret ⟨false, 0⟩) ∧
  decodeScalar 0x0580000A 0x21800000 = .ok (.slq ⟨false, 0⟩ 10 4 3) ∧
  decodeScalar 0x05C00000 0 = .ok (.slwait ⟨false, 0⟩ 0) ∧
  decodeScalar 0x060E2000 0 = .ok (.sgetr ⟨false, 0⟩ 7 2) ∧
  decodeScalar 0x06400043 0 = .ok (.sbara ⟨false, 0⟩ 3) ∧
  decodeScalar 0x06804281 0 = .ok (.slexp ⟨false, 0⟩ 4 5) ∧
  decodeScalar 0x06CE6001 0 = .ok (.smwait ⟨false, 0⟩ 7 6) ∧
  decodeScalar 0x07001480 0 = .ok (.stlwait ⟨false, 0⟩ 1 9) ∧
  decodeScalar 0x074E4001 0 = .ok (.slaunch ⟨false, 0⟩ 7 4 true) ∧
  decodeScalar 0x07D00001 0 = .ok (.scnt ⟨false, 0⟩ 8 .completed .launch) ∧
  decodeScalar 0x07D00019 0 = .ok (.scnt ⟨false, 0⟩ 8 .errors .launch) ∧
  decodeScalar 0x07800001 0 = .ok (.scancel ⟨false, 0⟩ 0 0 .launch) ∧
  decodeScalar 0x08085318 0 = .ok (.cpy ⟨false, 0⟩ 4 5 6 .convertScale false) ∧
  decodeScalar 0x08085326 0x088282A0 = .ok (.cpyThen ⟨false, 0⟩ 4 5 6 .rowScale true 0x088282A0) ∧
  decodeScalar 0x08408000 0 = .ok (.cpyset ⟨false, 0⟩ 8) ∧
  decodeScalar 0x088482B0 0 = .ok (.mma ⟨false, 0⟩ ⟨2, 1, 0, 0, 0, true, .bf16bf16, true, .dense⟩) ∧
  decodeScalar 0x08C002A1 0 = .ok (.mmap ⟨false, 0⟩ ⟨0, 0, 0, 0, 0, true, .bf16bf16, false, .dense⟩) ∧
  decodeScalar 0x09060000 0 = .ok (.mzero ⟨false, 0⟩ 3) ∧
  decodeScalar 0x094400A4 0 = .ok (.mguide ⟨false, 0⟩ 2 0 1 9) ∧
  decodeScalar 0x0A4E4298 0 = .ok (.gemit ⟨false, 0⟩ 7 4 5 6) ∧
  decodeScalar 0x0A8E4280 0 = .ok (.gclose ⟨false, 0⟩ 7 4 5) ∧
  decodeScalar 0x0ACE4280 0 = .ok (.gcut ⟨false, 0⟩ 7 4 5) ∧
  decodeScalar 0x0B0E4001 0 = .ok (.gstat ⟨false, 0⟩ 7 4 .late) ∧
  decodeScalar 0x0B4E42B0 0 = .ok (.sgate ⟨false, 0⟩ 7 4 5 48) ∧
  decodeScalar 0x0C0C0010 0 = .ok (.srds ⟨false, 0⟩ 6 16) ∧
  decodeScalar 0x0C404004 0 = .ok (.gatereply ⟨false, 0⟩ 4) ∧
  decodeScalar 0x0C405001 0 = .ok (.fdtsync ⟨false, 0⟩ 5) ∧
  decodeVectorBytes (natLE 12 0x2301020120D0880000000000) = .ok (.vfma ⟨false, 0, false, false, .f32, 8, .reg 9, .reg 13, .reg 17, 0, 0⟩, []) ∧
  decodeVectorBytes (natLE 12 0x01000100B800000000000010) = .ok (.vadd ⟨false, 0, false, false, .i32, 4, .reg 5, .imm, .reg 0, 0, 16⟩, []) ∧
  decodeVectorBytes (natLE 12 0x400100810090012000000000) = .ok (.vsetm ⟨false, 0, false, false, .f32, 2, .reg 8, .reg 9, .reg 0, 0x120, 0⟩, []) ∧
  decodeVectorBytes (natLE 12 0x600022008000040000000040) = .ok (.vld ⟨false, 0, false, false, .w32, 8, .reg 4, .reg 0, .reg 0, 0x400, 64⟩, []) ∧
  decodeVectorBytes (natLE 12 0x2007001000C0000000000000) = .ok (.vfadd ⟨false, 0, true, true, .f32, 0, .latch 0, .reg 12, .reg 0, 0, 0⟩, []) ∧
  decodeVectorBytes (natLE 12 0x520100410000040000000000) = .ok (.vredx ⟨false, 0, false, false, .f32, 1, .reg 8, .reg 0, .reg 0, 0x400, 0⟩, []) ∧
  decodeVectorBytes (natLE 12 0x70010500C000000000000023) = .ok (.vaccrd ⟨false, 0, false, false, .f32, 20, .reg 6, .reg 0, .reg 0, 0, 0x23⟩, []) ∧
  decodeVectorBytes (natLE 12 0x80000080000000000014000C) = .ok (.vbr ⟨false, 0, false, false, .i32, 2, .reg 0, .reg 0, .reg 0, 0, 0x0014000C⟩, []) ∧
  decodeVectorBytes (natLE 12 0x16002320F800000000000001) = .ok (.vidx ⟨false, 0, false, false, .w32, 12, .special 7, .imm, .reg 0, 0, 1⟩, []) ∧
  decodeVectorBytes (natLE 12 0x230901C09030300800000000) = .ok (.vfma ⟨false, 1, false, false, .f32, 7, .reg 4, .special 3, .reg 6, 8, 0⟩, []) ∧
  decodeVectorBytes (natLE 12 0x610900014070000000000000) = .ok (.vst ⟨false, 1, false, false, .f32, 0, .reg 10, .reg 7, .reg 0, 0, 0⟩, []) ∧
  decodeScalar 0xFFFFFFFF 0 = .ok (.unassignedMajor 0xFFFFFFFF) ∧
  decodeScalar 0 0 = .ok (.snop ⟨false, 0⟩) ∧
  decodeScalar 0x360F2000 0 = .error .unusedField ∧
  decodeScalar 0x07D00018 0 = .error .combination ∧
  decodeVectorBytes (natLE 12 0x400100810090012400000000) = .error .modifier

/-- 19 R361 and 02 R46, CYCLE. What unwritten memory reads as is the model's choice (log 1). -/
def Obligations.ResetState : Prop :=
  (∀ k : Fin 24, State.reset.trust.mr[k] = List.replicate 64 0) ∧ State.reset.cycle = 0 ∧ State.reset.strands = [] ∧
    State.reset.wgs = [] ∧ State.reset.launches = [] ∧ State.reset.contexts = [] ∧ State.reset.insts = [] ∧
    State.reset.xlat.walks = [] ∧ State.reset.mem.msgs = [] ∧ State.reset.memWf = true ∧
    (∀ a, State.reset.mem.home.get a = 0) ∧ State.reset.worlds.map Prod.fst = [0]

/-- 06 R157, R158: how a word comes to be executed; 01 R22, R23: whose turn it is. The agenda and the current turn are the model's own (log 2), and so are
the free choice of a turn and the cycles that pass (logs 4, 5), the counts of issue shares (log 130) and what racing chunks see (log 9). -/
def Obligations.StepRunsWords : Prop :=
  (∀ (s s1 : State) (e : Env) (rest : List Turn) (bs : List Byte) (i : Instr) (left : List Byte),
    let s0 : State := { s with agenda := rest, cur := none }
    s.agenda = .scalar e.sid :: rest → s0.env? e.sid = some e → scalarReady s0 e = true → scalarBytes s0 e = (s1, .bytes bs) →
    decodeScalarBytes bs = .ok (i, left) →
    step s = afterwards (exec i { noteIssue s1 e false with cur := some (.scalar e.sid) }))
  ∧ (∀ (s s1 : State) (e : Env) (slot : Fin 2) (sp : Split) (blk : Block) (blks : List Block) (rest : List Turn) (bs : List Byte) (i : Instr) (left : List Byte),
    let s0 : State := { s with agenda := rest, cur := none }
    s.agenda = .vector e.sid slot :: rest → s0.env? e.sid = some e → e.st.slots[slot] = some sp → e.st.laneQ = blk :: blks →
    vectorReady s0 e slot = true → (rotationDue e.st sp = false ∨ chainedNext s0 e sp = true) →
    fetchBytes s0 e e.st.vectorWalkFaults (blk.entry + 12 * sp.pos) 12 = (s1, .bytes bs) → decodeVectorBytes bs = .ok (i, left) →
    step s = afterwards (exec i
      { noteIssue (s1.modStrand e.sid fun st => { st with vecSince := s1.cycle, vecPromoted := false }) e true slot with
        cur := some (.vector e.sid slot) }))
  ∧ (∀ (s : State) (i : Instr) (rest : List Turn), s.agenda = .event i :: rest →
    step s = afterwards (exec i { s with agenda := rest, cur := none }))
  ∧ (∀ (s : State) (t : Turn), s.agenda = [] → choose s = some t → step s = afterwards (turn t { s with cur := none }))
  ∧ (∀ s : State, s.power.state = .w0 → holders s = [] → (∃ c ∈ candidates s, c.since + 72 ≤ s.cycle) →
    ∃ d ∈ candidates s, choose s = some d.turn)
  ∧ ∀ s : State, ∃ n, afterwards (.next s) = .next (let r := noteRaces { s with cur := none }
    { r with ticks := r.ticks + 1, still := if n = 0 then r.still + 1 else 0, cycle := r.cycle + n })

/-- 06 R158, 07 R177 and 18 R346: what goes wrong is a fault record and its consequence, never the end of the machine. -/
def Obligations.StepAnswers : Prop :=
  ∀ s : State, (∀ i rest, s.agenda = .event i :: rest → i.isScalar = false ∧ i.isVector = false) → ∃ t, step s = .next t

/-- The memories of 03 are lists in one form, so that equal memories are equal data (log 1). -/
def Obligations.MemoryCanonical : Prop :=
  State.reset.memWf = true ∧ ∀ s t : State, s.memWf = true → step s = .next t → t.memWf = true

/-- 07 R182: every row of major 0x01. The whole next state is stated, so every other register, predicate, queue and byte of
memory is as it was. -/
def Obligations.ScalarArithmeticResults : Prop :=
  (∀ (s : State) (e : Env) (g : Guard) (d a b : SReg), Issues s e g →
    let x := e.st.rd a
    let y := e.st.rd b
    let xw : BitVec 32 := x.extractLsb' 0 32
    let yw : BitVec 32 := y.extractLsb' 0 32
    let out (r : W64) : Host.Outcome State Fault Refusal := .next (s.after e (e.st.pc + 4) fun st => st.wr d r)
    exec (.sadd g d a b) s = out (x + y) ∧ exec (.ssub g d a b) s = out (x - y) ∧ exec (.smul g d a b) s = out (x * y) ∧
    exec (.smulh g d a b) s = out (((x.signExtend 128) * (y.signExtend 128)).extractLsb' 64 64) ∧
    exec (.smulhw g d a b) s = out ((((xw.signExtend 64) * (yw.signExtend 64)).extractLsb' 32 32).signExtend 64) ∧
    (yw ≠ 0 → exec (.sdivw g d a b) s = out ((xw.sdiv yw).signExtend 64) ∧
      exec (.sremw g d a b) s = out ((xw - yw * xw.sdiv yw).signExtend 64)) ∧
    exec (.sand g d a b) s = out (x &&& y) ∧ exec (.sor g d a b) s = out (x ||| y) ∧
    exec (.sxor g d a b) s = out (x ^^^ y) ∧
    exec (.sshl g d a b) s = out (x <<< (y.extractLsb' 0 6)) ∧ exec (.sshr g d a b) s = out (x >>> (y.extractLsb' 0 6)) ∧
    exec (.ssra g d a b) s = out (x.sshiftRight' (y.extractLsb' 0 6)) ∧
    exec (.smin g d a b) s = out (if x.slt y then x else y) ∧ exec (.smax g d a b) s = out (if x.slt y then y else x) ∧
    exec (.sminw g d a b) s = out ((if xw < yw then xw else yw).signExtend 64) ∧
    exec (.smaxw g d a b) s = out ((if xw < yw then yw else xw).signExtend 64) ∧
    exec (.ssel g d a b) s = out (if e.st.rd d ≠ 0 then x else y) ∧
    (∃ n : Nat, n ≤ 64 ∧ exec (.sclz g d a) s = out (BitVec.ofNat 64 n) ∧ (∀ i, i < n → x.getMsbD i = false) ∧
      (n < 64 → x.getMsbD n = true)) ∧
    exec (.spopc g d a) s = out (BitVec.ofNat 64 ((List.finRange 64).filter fun i => x.getLsbD i.val).length))
  ∧ (∀ (g : Guard) (d a b : SReg) (f : Nat), g.legal = true → f < 128 →
      20 ≤ f ∨ (18 ≤ f ∧ b ≠ 0) → ∃ x, decodeScalar (encSR g 1 d a b f) 0 = .error x)
  ∧ ∀ (s : State) (e : Env) (g : Guard) (a b : SReg), Issues s e g →
      ∃ t, exec (.ssel g 0 a b) s = .next t ∧ ∀ st, t.strands.get? e.sid = some st → st.s = e.st.s

/-- 07 R183: the edge cases of SDIVW and SREMW, and what the quotient and remainder are otherwise. -/
def Obligations.ScalarDivisionCorners : Prop :=
  (∀ (s : State) (e : Env) (g : Guard) (d a b : SReg), Issues s e g →
    let xw : BitVec 32 := (e.st.rd a).extractLsb' 0 32
    let yw : BitVec 32 := (e.st.rd b).extractLsb' 0 32
    let out (r : W64) : Host.Outcome State Fault Refusal := .next (s.after e (e.st.pc + 4) fun st => st.wr d r)
    (yw = 0 → exec (.sdivw g d a b) s = out (-1) ∧ exec (.sremw g d a b) s = out (xw.signExtend 64)) ∧
    (xw = 0x80000000#32 ∧ yw = -1 → exec (.sdivw g d a b) s = out 0xFFFFFFFF80000000#64 ∧ exec (.sremw g d a b) s = out 0) ∧
    (yw ≠ 0 → ¬ (xw = 0x80000000#32 ∧ yw = -1) → ∃ q r : Int,
      exec (.sdivw g d a b) s = out (BitVec.ofInt 64 q) ∧ exec (.sremw g d a b) s = out (BitVec.ofInt 64 r) ∧
      xw.toInt = yw.toInt * q + r ∧ r.natAbs < yw.toInt.natAbs ∧ (r = 0 ∨ r.sign = xw.toInt.sign)))
  ∧ divW (-7) 2 = -3 ∧ remW (-7) 2 = -1

/-- 07 R184, every row, with the limit on the shift words. -/
def Obligations.ScalarImmediateResults : Prop :=
  (∀ (s : State) (e : Env) (g : Guard) (d a : SReg) (imm : BitVec 12) (n : Fin 64), Issues s e g →
    let x := e.st.rd a
    let i := imm.signExtend 64
    let out (r : W64) : Host.Outcome State Fault Refusal := .next (s.after e (e.st.pc + 4) fun st => st.wr d r)
    exec (.saddi g d a imm) s = out (x + i) ∧ exec (.sandi g d a imm) s = out (x &&& i) ∧
    exec (.sori g d a imm) s = out (x ||| i) ∧ exec (.sxori g d a imm) s = out (x ^^^ i) ∧
    exec (.sshli g d a n) s = out (x <<< n.val) ∧ exec (.sshri g d a n) s = out (x >>> n.val) ∧
    exec (.ssrai g d a n) s = out (x.sshiftRight n.val))
  ∧ ∀ (g : Guard) (d a : SReg) (m imm : Nat), g.legal = true → m ∈ [6, 7, 8] → imm < 4096 → 64 ≤ imm →
      decodeScalar (encSI g m d a imm) 0 = .error .unusedField

/-- 07 R185 and 06 R157. The example: `sli s4, 0x8000_0000` and `slih s4, 0x1234`. -/
def Obligations.ScalarLiteralResults : Prop :=
  (∀ (s : State) (e : Env) (g : Guard) (d : SReg) (lit : W32), Issues s e g →
    exec (.sli g d lit) s = .next (s.after e (e.st.pc + 8) fun st => st.wr d (lit.signExtend 64)) ∧
    exec (.slih g d lit) s = .next (s.after e (e.st.pc + 8) fun st =>
      st.wr d (BitVec.ofNat 64 (lit.toNat * 2 ^ 32 + (e.st.rd d).toNat % 2 ^ 32))))
  ∧ decodeScalar 0x02480000 0x80000000 = .ok (.sli ⟨false, 0⟩ 4 0x80000000)
  ∧ decodeScalar 0x02880000 0x00001234 = .ok (.slih ⟨false, 0⟩ 4 0x00001234)

/-- 07 R186 with the conditions of 06 R161. Numbers of FP32 are in the order of their magnitude bits under their sign. -/
def Obligations.ScalarComparison : Prop :=
  (∀ (s : State) (e : Env) (g : Guard) (d : PReg) (a b : SReg), Issues s e g →
    let x := e.st.rd a
    let y := e.st.rd b
    let xw : BitVec 32 := x.extractLsb' 0 32
    let yw : BitVec 32 := y.extractLsb' 0 32
    let out (v : Bool) : Host.Outcome State Fault Refusal := .next (s.after e (e.st.pc + 4) fun st => st.wrP d v)
    let ints (w : CmpWidth) (n : Nat) (x y : BitVec n) : Prop :=
      exec (.ssetp g d a b .eq w) s = out (x == y) ∧ exec (.ssetp g d a b .ne w) s = out (x != y) ∧
      exec (.ssetp g d a b .lt w) s = out (x.slt y) ∧ exec (.ssetp g d a b .le w) s = out (x.sle y) ∧
      exec (.ssetp g d a b .gt w) s = out (y.slt x) ∧ exec (.ssetp g d a b .ge w) s = out (y.sle x) ∧
      exec (.ssetp g d a b .lo w) s = out (x.ult y) ∧ exec (.ssetp g d a b .ls w) s = out (x.ule y) ∧
      exec (.ssetp g d a b .hi w) s = out (y.ult x) ∧ exec (.ssetp g d a b .hs w) s = out (y.ule x)
    ints .i64 64 x y ∧ ints .i32 32 xw yw ∧
    -- a NaN has a magnitude above infinity's; a number's place among the others is its magnitude with its sign
    let isNaN (v : BitVec 32) : Prop := 2 ^ 23 * 255 < v.toNat % 2 ^ 31
    let place (v : BitVec 32) : Int := if v.msb then -((v.toNat % 2 ^ 31 : Nat) : Int) else (v.toNat : Int)
    (isNaN xw ∨ isNaN yw → ∀ c : Cond, c.isFloat = true → exec (.ssetp g d a b c .f32) s = out (decide (c = .fne ∨ c = .fun))) ∧
    (¬ isNaN xw → ¬ isNaN yw →
      exec (.ssetp g d a b .feq .f32) s = out (decide (place xw = place yw)) ∧
      exec (.ssetp g d a b .fne .f32) s = out (decide (place xw ≠ place yw)) ∧
      exec (.ssetp g d a b .flt .f32) s = out (decide (place xw < place yw)) ∧
      exec (.ssetp g d a b .fle .f32) s = out (decide (place xw ≤ place yw)) ∧
      exec (.ssetp g d a b .fgt .f32) s = out (decide (place yw < place xw)) ∧
      exec (.ssetp g d a b .fge .f32) s = out (decide (place yw ≤ place xw)) ∧
      exec (.ssetp g d a b .fun .f32) s = out false))
  ∧ decodeScalar 0x02C44299 0 = .ok (.ssetp ⟨false, 0⟩ 2 4 5 .lo .i32)

/-- 07 R187, and 02 R41 on `s0` and `p0`. -/
def Obligations.PredicateResults : Prop :=
  (∀ (s : State) (e : Env) (g : Guard) (d a b : PReg), Issues s e g →
    let x := e.st.rdP a
    let y := e.st.rdP b
    let out (v : Bool) : Host.Outcome State Fault Refusal := .next (s.after e (e.st.pc + 4) fun st => st.wrP d v)
    exec (.spand g d a b) s = out (x && y) ∧ exec (.spor g d a b) s = out (x || y) ∧ exec (.spxor g d a b) s = out (x ^^ y) ∧
    exec (.spnot g d a) s = out (!x) ∧ exec (.spmov g d a) s = out x)
  ∧ ∀ (st : Strand) (i j : SReg) (p q : PReg) (v : W64) (b : Bool),
      st.rd 0 = 0 ∧ st.rdP 0 = true ∧ st.wr 0 v = st ∧ st.wrP 0 b = st ∧
      (i ≠ 0 → (st.wr i v).rd i = v) ∧ (j ≠ i → (st.wr i v).rd j = st.rd j) ∧
      (p ≠ 0 → (st.wrP p b).rdP p = b) ∧ (q ≠ p → (st.wrP p b).rdP q = st.rdP q)

/-- 06 R154: a false guard has no effect of any kind; 06 R158: the decode checks come before it. -/
def Obligations.ScalarFalseGuardMovesOn : Prop :=
  ∀ (s : State) (e : Env) (i : Instr) (g : Guard), i.guard? = some g → s.cur = some (.scalar e.sid) →
    s.env? e.sid = some e → e.st.holds g = false →
    (exec i s = .next (s.after e (e.st.pc + scalarBytesOf i) fun st => st) ∨
      ∃ c, (c = .illegalInstr ∨ c = .illegalOperand) ∧ exec i s = .next (raiseScalar s e { code := c })) ∧
    (plainWord i = true → exec i s = .next (s.after e (e.st.pc + scalarBytesOf i) fun st => st))

/-- The frame of the register words (07 R182 to R187 with R177): what they leave as it was. -/
def Obligations.ScalarRegisterFrame : Prop :=
  ∀ (s t : State) (e : Env) (i : Instr), s.cur = some (.scalar e.sid) → s.env? e.sid = some e → registerWord i = true →
    exec i s = .next t →
    OnlyStrand s t e.sid ∧ SameBytes s t ∧ ∃ st, t.strands.get? e.sid = some st ∧
      (∀ j, destReg i ≠ some j → st.rd j = e.st.rd j) ∧ (∀ j, destPred i ≠ some j → st.rdP j = e.st.rdP j) ∧
      { e.st with s := st.s, p := st.p, pc := st.pc, wait := none, readySince := st.readySince, promoted := false } = st

/-- 07 R180 (SNOP, and SYIELD less its timing), R192, R193. -/
def Obligations.ControlFlowTargets : Prop :=
  ∀ (s : State) (e : Env) (g : Guard) (d a : SReg) (off : BitVec 22), Issues s e g →
    let link : W64 := BitVec.ofNat 64 (e.st.pc + 4)
    let target : W64 := BitVec.ofNat 64 e.st.pc + 4 * off.signExtend 64
    let stay : Strand → Strand := fun st => st
    exec (.snop g) s = .next (s.after e (e.st.pc + 4) stay) ∧ exec (.syield g) s = .next (s.after e (e.st.pc + 4) stay) ∧
    exec (.sbr g off) s = .next (s.after e target.toNat stay) ∧
    exec (.scall g off) s = .next (s.after e target.toNat fun st => st.wr 31 link) ∧
    ((e.st.rd a).toNat % 4 = 0 →
      exec (.sjr g a) s = .next (s.after e (e.st.rd a).toNat stay) ∧
      exec (.sjalr g d a) s = .next (s.after e (e.st.rd a).toNat fun st => st.wr d link)) ∧
    ((e.st.rd 31).toNat % 4 = 0 → exec (.sret g) s = .next (s.after e (e.st.rd 31).toNat stay)) ∧
    ((e.st.rd a).toNat % 4 ≠ 0 →
      exec (.sjr g a) s = .next (faultScalar s e { code := .align, addr := (e.st.rd a).toNat }) ∧
      exec (.sjalr g d a) s = .next (faultScalar s e { code := .align, addr := (e.st.rd a).toNat })) ∧
    ((e.st.rd 31).toNat % 4 ≠ 0 → exec (.sret g) s = .next (faultScalar s e { code := .align, addr := (e.st.rd 31).toNat }))

/-- 07 R181, items 1 to 4, and the last paragraph on completion. -/
def Obligations.ExitEndsScalarStream : Prop :=
  ∀ (s : State) (e : Env) (g : Guard), Issues s e g → e.st.ended = .no →
    ∃ t st, exec (.sexit g) s = .next t ∧ t.strands.get? e.sid = some st ∧ st.ended = .exited ∧ st.sexit = true ∧ (∀ b : Bar, hasArrived t b e.sid = true) ∧ st.watch = none ∧
      st.tickets = [] ∧ st.s = e.st.s ∧ st.laneQ = e.st.laneQ ∧ st.slots = e.st.slots ∧ st.stores = e.st.stores ∧
      st.v = e.st.v ∧ (∀ e', t.env? e.sid = some e' → scalarReady t e' = false) ∧ t.mem = s.mem ∧
      (e.st.laneQ = [] → e.st.stores = [] → e.st.counted = false → ∀ x, s.insts.get? (unitOf e.sid.wg) = some x →
        ∃ y, t.insts.get? (unitOf e.sid.wg) = some y ∧ y.completed = x.completed + 1)

/-- 07 R195 to R197 with 01 R9 and R11; 06 R158 check 3. Which value of a slot an uncovered block's write leaves is R11's choice; SGETR
reads the slot as it stands. -/
def Obligations.LaneQueueWords : Prop :=
  (∀ (s : State) (e : Env) (g : Guard) (index : BitVec 22) (f : SReg) (c : Fin 9), s.env? e.sid = some e →
    let entered (t : State) : Prop := ∃ st blk, t.strands.get? e.sid = some st ∧ st.pc = e.st.pc + 8 ∧ st.s = e.st.s ∧
      st.wait = none ∧ blk.entry = e.l.desc.vectorBase + 12 * index.toNat ∧
      (∀ j : Fin 8, blk.ks[j] = if j.val < c.val then low32 (e.st.rd (Fin.ofNat 32 (f.val + j.val))) else 0) ∧
      (e.st.laneQ ≠ [] ∨ e.st.base ≠ 0 → st.laneQ = e.st.laneQ ++ [blk]) ∧
      (e.st.laneQ = [] → e.st.base ≠ 0 → st.started = true ∧
        ∃ sp, st.slots[0] = some sp ∧ sp.lanes = e.st.base ∧ sp.pos = 0 ∧ sp.chain = none)
    (Issues s e g → e.st.role = .vector → e.st.laneQ.length < 8 → ∃ t, exec (.slq g index f c) s = .next t ∧ t.mem = s.mem ∧ entered t) ∧
    (Issues s e g → e.st.role = .vector → 8 ≤ e.st.laneQ.length →
      exec (.slq g index f c) s = .next (s.waits e.sid (.slq index.toNat f c.val))) ∧
    (mayResume e = true → e.st.wait = some (.slq index.toNat f c.val) → e.st.laneQ.length < 8 →
      ∃ t, exec (.laneQueueEnqueue e.sid) s = .next t ∧ t.mem = s.mem ∧ entered t))
  ∧ (∀ (s : State) (e : Env) (g : Guard) (index : BitVec 22) (f : SReg) (c : Fin 9), s.cur = some (.scalar e.sid) →
      s.env? e.sid = some e → e.st.role ≠ .vector →
      exec (.slq g index f c) s = .next (raiseScalar s e { code := .illegalInstr }))
  ∧ ∀ (s : State) (e : Env) (g : Guard) (d : SReg) (k q : Fin 8), s.env? e.sid = some e →
      (Issues s e g → exec (.sgetr g d q) s = .next (s.after e (e.st.pc + 4) fun st => st.wr d e.st.q[q]) ∧
        (e.st.laneQ.length ≤ k.val → exec (.slwait g k) s = .next (s.after e (e.st.pc + 4) fun st => st)) ∧
        (k.val < e.st.laneQ.length → exec (.slwait g k) s = .next (s.waits e.sid (.slwait k.val)))) ∧
      (mayResume e = true → e.st.wait = some (.slwait k.val) → e.st.laneQ.length ≤ k.val →
        exec (.slwaitReturn e.sid) s = .next (s.after e (e.st.pc + 4) fun st => st)) ∧
      (mayResume e = true → e.st.wait = some (.slwait k.val) → k.val < e.st.laneQ.length →
        exec (.slwaitReturn e.sid) s = .next (s.waits e.sid (.slwait k.val)))

/-- 07 R210 and the detail field of 18 R347. What TRAP then does is `FaultStopsOneStream`. That STRAP and SBRK leave the strand's state as it is
but for the stop, and that a debug halt stops both streams, is the model's reading (log 109). -/
def Obligations.TrapWordsTakeTraps : Prop :=
  ∀ (s : State) (e : Env) (g : Guard) (code : BitVec 12) (w : World), Issues s e g → s.worlds.get? e.world = some w →
    exec (.strap g code) s = .next (faultScalar s e { code := .trap, addr := e.st.pc + 4, detail := 0 + 2 ^ 16 * code.toNat }) ∧
    ((w.debugen && s.trust.debugOpen) = false →
      exec (.sbrk g) s = .next (faultScalar s e { code := .trap, addr := e.st.pc + 4, detail := 1 })) ∧
    ((w.debugen && s.trust.debugOpen) = true →
      ∃ t st, exec (.sbrk g) s = .next t ∧ OnlyStrand s t e.sid ∧ t.strands.get? e.sid = some st ∧
        st.scalarStop = some (.debugHalt (e.st.pc + 4)) ∧ st.pc = e.st.pc + 4 ∧ st.vectorStop.isSome = true ∧ st.s = e.st.s)

/-- 18 R346, R347, R349: what an exception of a scalar word saves, where it is kept, and that the stream stops until RESOLVE. What
becomes of a record whose queue does not translate, and that each partition has records of its own under one sequence, are the model's
choices (logs 22, 159); that PAGE waits for older stores is 18 R350, and that TRAP does is 04 R113. -/
def Obligations.FaultStopsOneStream : Prop :=
  ∀ (s : State) (e : Env) (f : Flt) (w : World), s.env? e.sid = some e → s.worlds.get? e.world = some w →
    f.code = .page ∨ f.code = .trap → w.roomFor (leadOf s e.die) = true → brokenWaiter s = none →
    let s1 := drain s e.sid
    (scalarDrained s1 e.sid = true → faultScalar s e f = raiseScalar s1 e f) ∧
    (scalarDrained s1 e.sid = false → faultScalar s e f =
      s1.modStrand e.sid fun st => { st with wait := some .retry, readySince := s1.cycle, promoted := false }) ∧
    let t := raiseScalar s e f
    ∃ w' st r, t.worlds.get? e.world = some w' ∧ t.strands.get? e.sid = some st ∧ w'.nextSeq = w.nextSeq + 1 ∧
      r ∈ w'.records ∧ r.seq = w.nextSeq ∧ r.occupied = true ∧ r.waiting = true ∧ r.ended = false ∧ r.code = f.code ∧
      r.agent = .scalar e.sid ∧ r.access = f.access ∧ r.detail = f.detail ∧ r.address = f.addr ∧ r.pc = e.st.pc ∧
      r.launch = e.wg.launch ∧ r.wg = e.wg.index ∧ r.strand = e.sid.strand.val ∧ r.die = e.wg.core.die.val ∧
      r.core = e.wg.core.core.val ∧ (0, Event.faultSignal e.world w.nextSeq) ∈ t.events ∧
      st.pc = e.st.pc ∧ st.s = e.st.s ∧ st.p = e.st.p ∧ st.ended = e.st.ended ∧ st.laneQ = e.st.laneQ ∧ st.slots = e.st.slots ∧
      st.v = e.st.v ∧ st.vectorStop = e.st.vectorStop ∧ st.wait = none ∧
      st.scalarStop = some (if f.code = .trap then .trap w.nextSeq f.addr else .page w.nextSeq f.addr) ∧
      (let va := w.queueBase + 64 * ((w.nextSeq - 1) % w.depth)
      let kept := (w.records.filter fun x => x.occupied) ++ [r]
      let s2 := s.modWorld e.world fun w => { w with nextSeq := w.nextSeq + 1, records := kept }
      ∀ pa, s.memWf = true → va % 64 = 0 → pa % 64 = 0 → isRemote pa = false →
        (translateNow s2 e.die e.world va .write true).2 = .ok pa → t.mem.home.read pa 64 = r.bytes)

/-- 18 R346 (the last column and the paragraph after the table), R349; 07 R199 on a member that ends by a fault. That a strand past SEXIT breaks none
is the model's reading of 07 R181 beside R199 (log 156); partitions have records of their own (log 159). -/
def Obligations.FaultEndsStrand : Prop :=
  ∀ (s : State) (e : Env) (f : Flt) (w : World) (agent : Agent) (pc : Nat), s.env? e.sid = some e → s.worlds.get? e.world = some w →
    e.st.ended = .no ∨ e.st.ended = .exited → agent = .scalar e.sid ∨ agent = .vector e.sid →
    f.code ≠ .page → f.code ≠ .trap → w.roomFor (leadOf s e.die) = true →
    let t := raise s e.world e.die (strandRec e agent f pc)
    ∃ w' st, t.worlds.get? e.world = some w' ∧ w.nextSeq < w'.nextSeq ∧ t.strands.get? e.sid = some st ∧ st.ended = .faulted ∧
      st.laneQ = [] ∧ st.slots = Vector.replicate 2 none ∧ st.stores = [] ∧ st.tickets = [] ∧ st.watch = none ∧
      (e.st.sexit = false → ∀ k, k ∈ barsOf s e.sid → (t.bar k).broken = true) ∧
      (e.st.sexit = true → brokenWaiter s = none → t.bars = s.bars)

/-- 18 R346 and R347, the table of bytes. -/
def Obligations.FaultRecordBytes : Prop :=
  (∀ r : FaultRec, r.detail < 2 ^ 32 → r.seq < 2 ^ 64 → r.launch < 2 ^ 32 → r.wg < 2 ^ 32 → r.strand < 2 ^ 8 → r.die < 2 ^ 8 →
    r.core < 2 ^ 8 → r.pc < 2 ^ 64 → r.address < 2 ^ 64 → r.timeline < 2 ^ 64 → r.second < 2 ^ 64 →
    r.bytes.length = 64 ∧ fieldNat r.bytes 0 1 = r.code.num ∧ fieldNat r.bytes 1 1 = r.agent.source ∧
    fieldNat r.bytes 2 1 = r.access.num ∧ fieldNat r.bytes 3 1 = (if r.waiting then 1 else 0) + (if r.ended then 2 else 0) ∧
    fieldNat r.bytes 4 4 = r.detail ∧ fieldNat r.bytes 8 8 = r.seq ∧ fieldNat r.bytes 16 4 = r.launch ∧
    fieldNat r.bytes 20 4 = r.wg ∧ fieldNat r.bytes 24 1 = r.strand ∧ fieldNat r.bytes 25 1 = r.die ∧
    fieldNat r.bytes 26 1 = r.core ∧ fieldNat r.bytes 27 1 = 0 ∧ fieldNat r.bytes 28 4 = r.lanes.toNat ∧
    fieldNat r.bytes 32 8 = r.pc ∧ fieldNat r.bytes 40 8 = r.address ∧ fieldNat r.bytes 48 8 = r.timeline ∧
    fieldNat r.bytes 56 8 = r.second)
  ∧ ([Code.illegalInstr, .illegalOperand, .align, .page, .access, .world, .poison, .barrier, .pair, .land, .fifo, .graph, .watchdog,
      .trap].map Code.num = List.range' 1 14)
  ∧ ∀ (sid : StrandId) (c : CoreId) (q d : Fin 4) (n m : Nat),
      [Agent.scalar sid, .vector sid, .copy c q n, .matrix n m, .coll d n, .graphUnit n m, .launch n].map Agent.source = List.range 7

/-- 18 R348, the table of actions and the paragraph after it, for scalar streams. -/
def Obligations.ResolveActions : Prop :=
  (∀ (s : State) (e : Env) (n : Nat) (r : FaultRec), s.env? e.sid = some e → record? s e.world n = some r → s.xlat.inval = none →
    (∀ w, s.worlds.get? e.world = some w → w.unwritten = [] ∧ n < w.nextSeq) → brokenWaiter s = none → r.agent = .scalar e.sid →
    r.waiting = true → e.st.ended = .no → e.st.wait = none →
    (r.code = .page → e.st.scalarStop = some (.page n r.address) →
      ∃ t st, exec (.resolveResume e.world n) s = .next t ∧ record? t e.world n = none ∧ t.strands.get? e.sid = some st ∧
        st = { e.st with scalarStop := none, readySince := s.cycle, promoted := false }) ∧
    (r.code = .trap → e.st.scalarStop = some (.trap n r.address) →
      ∃ t st, exec (.resolveNext e.world n) s = .next t ∧ record? t e.world n = none ∧ t.strands.get? e.sid = some st ∧
        st = ({ e.st with scalarStop := none }.next r.address s.cycle)) ∧
    ((r.code = .page ∧ e.st.scalarStop = some (.page n r.address)) ∨ (r.code = .trap ∧ e.st.scalarStop = some (.trap n r.address)) →
      ∃ t st, exec (.resolveEnd e.world n) s = .next t ∧ record? t e.world n = none ∧ t.strands.get? e.sid = some st ∧
        st.ended = .faulted) ∧
    (r.code = .trap → exec (.resolveResume e.world n) s = .next s) ∧
    (r.code = .page → exec (.resolveNext e.world n) s = .next s) ∧ exec (.resolveAck e.world n) s = .next s)
  ∧ (∀ (s : State) (world n : Nat) (r : FaultRec), record? s world n = some r → r.waiting = false → s.xlat.inval = none →
      (∀ w, s.worlds.get? world = some w → w.unwritten = []) → brokenWaiter s = none →
      ∃ t, exec (.resolveAck world n) s = .next t ∧ record? t world n = none ∧ t.strands = s.strands ∧ t.mem = s.mem)
  ∧ ∀ (s : State) (world n : Nat), record? s world n = none → s.xlat.inval = none →
      exec (.resolveResume world n) s = .next s ∧ exec (.resolveEnd world n) s = .next s ∧
      exec (.resolveNext world n) s = .next s ∧ exec (.resolveAck world n) s = .next s

/-- 07 R188 to R190 with `Read` of 06 R176; 04 R114. What a plain load may take from L1 instead is 03 R74's choice (log 6). -/
def Obligations.ScalarLoadResults : Prop :=
  ∀ (s : State) (e : Env) (g : Guard) (d a : SReg) (z : Size) (sc : Scope) (off : BitVec 9) (off7 : BitVec 7) (pa : Nat),
    let va := (e.st.rd a + off.signExtend 64 * BitVec.ofNat 64 z.bytes).toNat
    let va7 := (e.st.rd a + off7.signExtend 64 * BitVec.ofNat 64 z.bytes).toNat
    Issues s e g →
    let goes (i : Instr) (r : W64) : Prop := ∃ t, exec i s = .next t ∧ OnlyStrandMem s t e.sid ∧ t.mem.home = s.mem.home ∧
      t.strands.get? e.sid = some ((e.st.wr d r).next (e.st.pc + 4) s.cycle)
    let held (i : Instr) : Prop := ∃ st, exec i s = .next ((drain s e.sid).waits e.sid .retry) ∧
      (drain s e.sid).strands.get? e.sid = some st ∧ st.s = e.st.s ∧ st.pc = e.st.pc
    (∀ fresh, Reaches57 s e va z.bytes .read pa → s.mem.copies = [] → s.mem.poisoned (128 * lineOf pa) 128 = false →
      let v := leNat (s.readL2 e.die e.world pa z.bytes).2
      (forward e.st.stores pa z.bytes = .none → fresh = true ∨ s.mem.l1Find e.core e.world (lineOf pa) = none →
        goes (.sld g d a fresh z off) (BitVec.ofNat 64 v) ∧
        goes (.sldx g d a fresh z off) ((BitVec.ofNat (8 * z.bytes) v).signExtend 64)) ∧
      (∀ bs, forward e.st.stores pa z.bytes = .hit bs → unchecked e.st pa z.bytes = false →
        goes (.sld g d a fresh z off) (BitVec.ofNat 64 (leNat bs)) ∧
        goes (.sldx g d a fresh z off) ((BitVec.ofNat (8 * z.bytes) (leNat bs)).signExtend 64)) ∧
      (unchecked e.st pa z.bytes = true → exec (.sld g d a fresh z off) s = .next (s.waits e.sid .retry) ∧
        exec (.sldx g d a fresh z off) s = .next (s.waits e.sid .retry)) ∧
      (forward e.st.stores pa z.bytes = .part → unchecked e.st pa z.bytes = false → held (.sld g d a fresh z off) ∧ held (.sldx g d a fresh z off))) ∧
    (Reaches57 s e va7 z.bytes .read pa → s.mem.copies = [] → s.mem.poisoned (128 * lineOf pa) 128 = false →
      (forward e.st.stores pa z.bytes = .none →
        goes (.slda g d a sc z off7) (BitVec.ofNat 64 (leNat (s.readL2 e.die e.world pa z.bytes).2))) ∧
      (∀ bs, forward e.st.stores pa z.bytes = .hit bs → unchecked e.st pa z.bytes = false → goes (.slda g d a sc z off7) (BitVec.ofNat 64 (leNat bs))) ∧
      (unchecked e.st pa z.bytes = true → exec (.slda g d a sc z off7) s = .next (s.waits e.sid .retry)) ∧
      (forward e.st.stores pa z.bytes = .part → unchecked e.st pa z.bytes = false → held (.slda g d a sc z off7)))

/-- 07 R188 to R190, `Write` of 06 R176 and 04 R115. -/
def Obligations.ScalarStoreResults : Prop :=
  ∀ (s : State) (e : Env) (g : Guard) (d a : SReg) (z : Size) (sc : Scope) (off : BitVec 9) (off7 : BitVec 7) (pa : Nat),
    let va := (e.st.rd a + off.signExtend 64 * BitVec.ofNat 64 z.bytes).toNat
    let va7 := (e.st.rd a + off7.signExtend 64 * BitVec.ofNat 64 z.bytes).toNat
    Issues s e g →
    let enters (i : Instr) (s1 : State) (st1 : Strand) (scope : Option Scope) (va : Nat) : Prop := ∃ t st, exec i s = .next t ∧
      OnlyStrandMem s1 t e.sid ∧ t.mem.home = s1.mem.home ∧ t.mem.views = s1.mem.views ∧
      t.mem.l1 = s1.mem.l1.filter (fun x => !(decide (x.core = e.core) && decide (x.line = lineOf pa))) ∧
      t.strands.get? e.sid = some st ∧ st.s = st1.s ∧ st.p = st1.p ∧ st.pc = e.st.pc + 4 ∧ st.wait = none ∧
      st.unackDev = st1.unackDev + 1 ∧ st.unackSys = st1.unackSys ∧ st.laneQ = st1.laneQ ∧
      ∃ n, st.stores = st1.stores ++ [⟨n, false, false, z, scope, [⟨0, va, pa, natLE z.bytes (e.st.rd d).toNat⟩]⟩]
    (Reaches57 s e va z.bytes .write pa →
      (e.st.stores.length < 16 → enters (.sst g d a z off) s e.st none va) ∧
      (16 ≤ e.st.stores.length →
        exec (.sst g d a z off) s = .next (s.waits e.sid .retry))) ∧
    (Reaches57 s e va7 z.bytes .write pa → ∀ st1, (release s e.sid (some sc)).1.strands.get? e.sid = some st1 →
      ((release s e.sid (some sc)).2 = true → st1.stores.length < 16 →
        enters (.sstl g d a sc z off7) (release s e.sid (some sc)).1 st1 (some sc) va7) ∧
      ((release s e.sid (some sc)).2 = false ∨ 16 ≤ st1.stores.length →
        exec (.sstl g d a sc z off7) s =
          .next ((release s e.sid (some sc)).1.waits e.sid .retry)))

/-- 03 R70, R71 and 06 R176, the order in which `Read` and `Write` make their checks; 04 R113 and 18 R350 on what comes before a fault.
What faultScalar does is `FaultStopsOneStream`. -/
def Obligations.ScalarAccessFaults : Prop :=
  ∀ (s : State) (e : Env) (g : Guard) (d a b : SReg) (fresh wide : Bool) (z : Size) (sc : Scope) (off : BitVec 9) (off7 : BitVec 7)
      (op : AtomOp), Issues s e g →
    let va := (e.st.rd a + off.signExtend 64 * BitVec.ofNat 64 z.bytes).toNat
    let va7 := (e.st.rd a + off7.signExtend 64 * BitVec.ofNat 64 z.bytes).toNat
    let ends (i : Instr) (va n : Nat) (k : AccessKind) : Prop :=
      (2 ^ 57 ≤ va → exec i s = .next (faultScalar s e { code := .access, access := k, addr := va })) ∧
      (va < 2 ^ 57 → va % n ≠ 0 → exec i s = .next (faultScalar s e { code := .align, access := k, addr := va })) ∧
      (va < 2 ^ 57 → va % n = 0 →
        (∀ c, lookup s e.quadrant e.die e.world e.priv e.st.scalarWalkFaults va k = .bad c →
          exec i s = .next (faultScalar s e { code := c, access := k, addr := va })) ∧
        (lookup s e.quadrant e.die e.world e.priv e.st.scalarWalkFaults va k = .miss →
          exec i s = .next ((s.ask ⟨e.die, e.quadrant, .scalar e.sid, e.world, e.priv, va, k⟩).waits e.sid .retry)))
    ends (.sld g d a fresh z off) va z.bytes .read ∧ ends (.sldx g d a fresh z off) va z.bytes .read ∧
    ends (.sst g d a z off) va z.bytes .write ∧ ends (.slda g d a sc z off7) va7 z.bytes .read ∧
    ends (.sstl g d a sc z off7) va7 z.bytes .write ∧
    ends (.satom g d a b op wide sc) (e.st.rd a).toNat (if wide then 8 else 4) .rmw

/-- 07 R191, every op and both widths. -/
def Obligations.AtomicResults : Prop :=
  ∀ (s : State) (e : Env) (g : Guard) (d a b : SReg) (op : AtomOp) (wide : Bool) (sc : Scope) (pa : Nat),
    let n := if wide then 8 else 4
    let va := (e.st.rd a).toNat
    Issues s e g → s.memWf = true → Reaches57 s e va n .rmw pa → (release s e.sid (some sc)).2 = true →
    let s1 := (drain (release s e.sid (some sc)).1 e.sid).homeLine e.die (lineOf pa)
    let old : BitVec (8 * n) := BitVec.ofNat (8 * n) (s1.mem.home.readNat pa n)
    let x : BitVec (8 * n) := (e.st.rd b).setWidth (8 * n)
    let cmp : BitVec (8 * n) := (e.st.rd d).setWidth (8 * n)
    (s1.mem.poisoned pa n = false → ∃ t st new, exec (.satom g d a b op wide sc) s = .next t ∧
      t.strands.get? e.sid = some st ∧ st.rd d = (if d = 0 then 0 else old.signExtend 64) ∧ (∀ i, i ≠ d → st.rd i = e.st.rd i) ∧
      st.p = e.st.p ∧ st.pc = e.st.pc + 4 ∧
      t.mem.home.readNat pa n = BitVec.toNat new ∧ (∀ i, i < pa ∨ pa + n ≤ i → t.mem.home.get i = s1.mem.home.get i) ∧
      t.mem.l1Find e.core e.world (lineOf pa) = none ∧ t.wgs = s.wgs ∧
      (op = .add → new = old + x) ∧ (op = .and → new = old &&& x) ∧ (op = .or → new = old ||| x) ∧ (op = .xor → new = old ^^^ x) ∧
      (op = .min → new = if x.slt old then x else old) ∧ (op = .max → new = if old.slt x then x else old) ∧
      (op = .swap → new = x) ∧ (op = .cas → new = if old = cmp then x else old)) ∧
    (s1.mem.poisoned pa n = true →
      exec (.satom g d a b op wide sc) s = .next (faultScalar s1 e { code := .poison, access := .rmw, addr := va }))

/-- 07 R180, the row of SFENCE, with 04 R88, R102 and R104. -/
def Obligations.FencesWaitForStores : Prop :=
  ∀ (s : State) (e : Env) (g : Guard) (sc : Scope), Issues s e g →
    ((release s e.sid (some sc)).2 = true → ∃ t st, exec (.sfence g sc) s = .next t ∧ t.strands.get? e.sid = some st ∧
      st.s = e.st.s ∧ st.p = e.st.p ∧ st.pc = e.st.pc + 4 ∧ st.wait = none ∧
      (sc ≠ .st → ∀ x ∈ st.stores, x.vector = true ∧ e.st.returns ≠ []) ∧ (sc = .dev → st.unackDev = 0) ∧
      (sc = .sys → st.unackDev = 0 ∧ st.unackSys = 0)) ∧
    ((release s e.sid (some sc)).2 = false → exec (.sfence g sc) s =
      .next ((release s e.sid (some sc)).1.waits e.sid .retry)) ∧
    (e.st.stores = [] → (sc ≠ .dev ∧ sc ≠ .sys) ∨ (e.st.unackDev = 0 ∧ (sc = .sys → e.st.unackSys = 0)) →
      (release s e.sid (some sc)).2 = true)

/-- 04 R95, R91, R102, R104, R114 and 07 R190: leaving the buffer performs the store. -/
def Obligations.BufferedStoresArePerformed : Prop :=
  (∀ (s : State) (e : Env) (x : SBEntry) (l : SBLane), s.env? e.sid = some e → s.memWf = true → e.wg.parked = none →
    e.st.stores.find? (fun y => decide (y.id = x.id)) = some x → entryReady s e.st x = true → x.lanes = [l] → isRemote l.pa = false →
    l.pa / 128 = (l.pa + l.data.length - 1) / 128 → l.data ≠ [] →
    ∃ t st, exec (.storePerformed e.sid x.id) s = .next t ∧ t.strands.get? e.sid = some st ∧
      (t.mem.home.read l.pa l.data.length = l.data ∧ (t.mem.view e.die).read l.pa l.data.length = l.data) ∧
      (∀ i, i < l.pa ∨ l.pa + l.data.length ≤ i →
        t.mem.home.get i = (s.mem.combineLine s.parts (lineOf l.pa)).home.get i) ∧
      st.stores = e.st.stores.filter (fun y => decide (y.id ≠ x.id)) ∧ st.unackDev = e.st.unackDev - 1 ∧ st.s = e.st.s ∧
      (∀ w ∈ t.mem.l1, w.core = e.core → w.line ≠ lineOf l.pa) ∧ t.wgs = s.wgs)
  ∧ (∀ (s : State) (e : Env) (x : SBEntry), s.env? e.sid = some e → e.st.stores.find? (fun y => decide (y.id = x.id)) = some x →
      entryReady s e.st x = false → exec (.storePerformed e.sid x.id) s = .next s)
  ∧ ∀ (s : State) (e : Env) (k : Nat), s.env? e.sid = some e → e.st.stores.find? (fun y => decide (y.id = k)) = none →
      exec (.storePerformed e.sid k) s = .next s

/-- 07 R198, R199 and R181 with 04 R96 and 06 R158 check 4. That a strand past SEXIT counts as arrived even after a fault of its blocks is the
model's reading (log 156); that a phase does not end while a member is a cocoon is read from R179 and R200. -/
def Obligations.BarrierWords : Prop :=
  (∀ (s : State) (e : Env) (g : Guard) (h : Fin 64) (k : BarKey), Issues s e g → barKey s e h.val = some k →
    let r := release s e.sid (some (barScope k))
    let b := s.bar k
    (e.sid ∈ barMembers s k → b.broken = false → r.2 = true → e.sid ∉ b.arrived →
      (∃ t st, exec (.sbara g h) s = .next t ∧ t.bar k = { b with arrived := b.arrived ++ [e.sid] } ∧
        (∀ k', k' ≠ k → t.bar k' = s.bar k') ∧ t.strands.get? e.sid = some st ∧ st.pc = e.st.pc + 4 ∧ st.s = e.st.s ∧
        st.wait = none ∧ t.wgs = s.wgs) ∧
      (e.st.laneQ = [] → ∃ t st, exec (.sbar g h) s = .next t ∧ t.bar k = { b with arrived := b.arrived ++ [e.sid] } ∧
        (∀ k', k' ≠ k → t.bar k' = s.bar k') ∧ t.strands.get? e.sid = some st ∧ st.pc = e.st.pc ∧ st.s = e.st.s ∧
        st.wait = some (.barrier k) ∧ t.wgs = s.wgs) ∧
      (e.st.laneQ ≠ [] → exec (.sbar g h) s = .next (s.waits e.sid .retry))) ∧
    (e.sid ∈ barMembers s k → b.broken = false → r.2 = true → e.sid ∈ b.arrived → e.st.laneQ = [] →
      exec (.sbara g h) s = .next (r.1.waits e.sid (.again k false)) ∧
      exec (.sbar g h) s = .next (r.1.waits e.sid (.again k true))) ∧
    (e.sid ∈ barMembers s k → b.broken = true → r.2 = true →
      exec (.sbara g h) s = .next (faultScalar r.1 e { code := .barrier }) ∧
      (e.st.laneQ = [] → exec (.sbar g h) s = .next (faultScalar r.1 e { code := .barrier }))) ∧
    -- conditions on the strand and the barrier alone: nothing buffered, nothing unacknowledged, no block, everyone else has arrived
    (e.sid ∈ barMembers s k → (barMembers s k).Nodup → b.broken = false → e.sid ∉ b.arrived → e.st.stores = [] → e.st.unackDev = 0 →
      (∃ t st, exec (.sbara g h) s = .next t ∧ t.strands.get? e.sid = some st ∧ st.pc = e.st.pc + 4 ∧ st.wait = none ∧
        e.sid ∈ (t.bar k).arrived) ∧
      (e.st.laneQ = [] → (∀ m ∈ barMembers s k, (m = e.sid ∨ m ∈ b.arrived) ∧ isParked s m = false) →
        ∃ t t' st, exec (.sbar g h) s = .next t ∧ exec (.barrierPhaseComplete k) t = .next t' ∧
          t'.strands.get? e.sid = some st ∧ st.pc = e.st.pc + 4 ∧ st.wait = none ∧ (t'.bar k).phase = b.phase + 1)) ∧
    (e.sid ∉ barMembers s k → exec (.sbara g h) s = .next (faultScalar s e { code := .barrier }) ∧
      exec (.sbar g h) s = .next (faultScalar s e { code := .barrier })))
  ∧ (∀ (s : State) (e : Env) (g : Guard) (h : Fin 64), s.cur = some (.scalar e.sid) → s.env? e.sid = some e →
      barKey s e h.val = none → exec (.sbar g h) s = .next (raiseScalar s e { code := .illegalOperand }) ∧
        exec (.sbara g h) s = .next (raiseScalar s e { code := .illegalOperand }))
  ∧ (∀ (s : State) (k : BarKey) (sid : StrandId) (st : Strand), phaseDone s k = true → (barMembers s k).Nodup →
      sid ∈ barMembers s k → s.strands.get? sid = some st → st.wait = some (.barrier k) →
      ∃ t st', exec (.barrierPhaseComplete k) s = .next t ∧ (t.bar k).phase = (s.bar k).phase + 1 ∧
        t.strands.get? sid = some st' ∧ st'.pc = st.pc + 4 ∧ st'.wait = none ∧ st'.s = st.s ∧ t.mem = s.mem ∧ t.wgs = s.wgs)
  ∧ (∀ (s : State) (k : BarKey), phaseDone s k = true ↔ (s.bar k).broken = false ∧ (s.bar k).arrived ≠ [] ∧ ∀ sid ∈ barMembers s k,
      (sid ∈ (s.bar k).arrived ∨ ∃ st, s.strands.get? sid = some st ∧ st.sexit = true) ∧
      ¬ ∃ w p, s.wgs.get? sid.wg = some w ∧ w.parked = some p)
  ∧ ∀ (s : State) (k : BarKey), phaseDone s k = false → exec (.barrierPhaseComplete k) s = .next s

/-- 03 R79 and R80, the rows of SLEXP, and 07 R201; 00 R4 on the reserved flags. The record of a scratchpad or landing access has the offset as its
address by the model's choice (log 121). -/
def Obligations.LandingWords : Prop :=
  ∀ (s : State) (e : Env) (g : Guard) (d a b : SReg), e.wg.scratch.wf = true →
    let off := (e.st.rd a).toNat
    let w := landRead e.wg off
    let n := (e.st.rd b).toNat
    let writes (i : Instr) (w' : Land) : Prop := ∃ t wg, exec i s = .next t ∧ t.wgs.get? e.sid.wg = some wg ∧
      landRead wg off = w' ∧ (∀ x, x < off ∨ off + 32 ≤ x → wg.scratch.get x = e.wg.scratch.get x) ∧
      { wg with scratch := e.wg.scratch, badScratch := e.wg.badScratch } = e.wg ∧ t.mem = s.mem ∧
      t.strands.get? e.sid = some (e.st.next (e.st.pc + 4) s.cycle)
    let land (i : Instr) (k : Nat) : Prop :=
      exec i s = .next (faultScalar s e { code := .land, addr := off, detail := k })
    let checks (i : Instr) : Prop :=
      (off % 32 ≠ 0 → exec i s = .next (faultScalar s e { code := .align, addr := off })) ∧
      (off % 32 = 0 → e.scratchBytes < off + 32 → exec i s = .next (faultScalar s e { code := .access, addr := off }))
    let waits (i : Instr) : Prop := checks i ∧ (landCheck s e off = none → badWord e.wg.badScratch off 24 = false →
      (bitOf w.flags 0 = true → land i 2) ∧
      (bitOf w.flags 0 = false → bitOf w.gen 0 ≠ (e.st.rd b).getLsbD 0 → exec i s = .next (s.after e (e.st.pc + 4) fun st => st)) ∧
      (bitOf w.flags 0 = false → bitOf w.gen 0 = (e.st.rd b).getLsbD 0 → exec i s = .next (s.waits e.sid (.slwt a b))))
    (s.env? e.sid = some e → mayResume e = true → e.st.wait = some (.slwt a b) → waits (.slwtReturn e.sid)) ∧
    (Issues s e g → waits (.slwt g a b) ∧ (∀ i ∈ [Instr.slinit g a, .slexp g a b, .slgen g d a], checks i) ∧
     (landCheck s e off = none → badWord e.wg.badScratch off 24 = false →
      writes (.slinit g a) ⟨0, 0, w.gen, 0⟩ ∧
      (bitOf w.flags 0 = true ∨ 2 ^ 64 ≤ w.target + n ∨ (w.target + n ≠ 0 ∧ w.target + n < w.arrived) → land (.slexp g a b) 1) ∧
      (bitOf w.flags 0 = false → w.target + n < 2 ^ 64 → (w.target + n ≠ 0 → w.arrived ≤ w.target + n) →
        (n ≠ 0 → w.arrived = w.target + n → writes (.slexp g a b) ⟨0, 0, (w.gen + 1) % 2 ^ 32, w.flags⟩) ∧
        (n ≠ 0 → w.arrived ≠ w.target + n → writes (.slexp g a b) ⟨w.target + n, w.arrived, w.gen, w.flags⟩) ∧
        (n = 0 → writes (.slexp g a b) w)) ∧
      exec (.slgen g d a) s =
        .next (s.after e (e.st.pc + 4) fun st => st.wr d (BitVec.ofNat 64 (w.flags % 2 * 2 ^ 32 + w.gen)))))

/-- 03 R82 with 07 R203, and 04 R105 with 07 R204. A wake with no event pending is the eviction of the line, and whether
SMWAIT finds the line evicted is free (log 27). -/
def Obligations.MonitorAndTimelineWords : Prop :=
  (∀ (s : State) (e : Env) (g : Guard) (d a : SReg),
    let quiet (st : Strand) : Strand := { st with watch := st.watch.map fun w => { w with wrote := false, invalidated := false } }
    let woken (r : W64) : Host.Outcome State Fault Refusal := .next (s.after e (e.st.pc + 4) fun st => quiet (st.wr d r))
    (Issues s e g → (∀ pa, Reaches57 s e (e.st.rd a).toNat 1 .read pa →
      exec (.smon g a) s = .next (s.after e (e.st.pc + 4) fun st => { st with watch := some ⟨pa / 128, false, false⟩ })) ∧
    exec (.smdis g) s = .next (s.after e (e.st.pc + 4) fun st => { st with watch := none }) ∧
    (e.st.watch = none → exec (.smwait g d a) s = woken 3) ∧
    (∀ w, e.st.watch = some w →
      (w.wrote = true → exec (.smwait g d a) s = woken 0) ∧
      (w.wrote = false → w.invalidated = true → exec (.smwait g d a) s = woken 1) ∧
      (w.wrote = false → w.invalidated = false →
        exec (.smwait g d a) s = if !Config.watchKept s.ticks then woken 1
          else if e.st.rd a = 0 then woken 2 else .next (s.waits e.sid (.smwait d (s.cycle + (e.st.rd a).toNat)))))) ∧
    (∀ t w, s.env? e.sid = some e → mayResume e = true → e.st.wait = some (.smwait d t) → e.st.watch = some w →
      exec (.smwaitWake e.sid) s = woken (if w.wrote then 0 else 1) ∧
      (t ≤ s.cycle → exec (.smwaitTimeout e.sid) s = woken (if w.wrote then 0 else if w.invalidated then 1 else 2)) ∧
      (s.cycle < t → exec (.smwaitTimeout e.sid) s = .next s)))
  ∧ (∀ (s : State) (e : Env) (g : Guard) (d b : SReg) (h : Fin 16) (k : QueueKey), s.env? e.sid = some e → handleQueue s e h.val = some k →
      let on : Host.Outcome State Fault Refusal := .next (s.after e (e.st.pc + 4) fun st => st)
      (Issues s e g → exec (.stlrd g d h) s = .next (s.after e (e.st.pc + 4) fun st => st.wr d (BitVec.ofNat 64 (reached s k)))) ∧
      ((e.st.rd b).toNat ≤ reached s k → (Issues s e g → exec (.stlwait g h b) s = on) ∧
        (mayResume e = true → e.st.wait = some (.stlwait h b) → exec (.stlwaitReturn e.sid) s = on)) ∧
      (reached s k < (e.st.rd b).toNat → (Issues s e g → exec (.stlwait g h b) s = .next (s.waits e.sid (.stlwait h b))) ∧
        (mayResume e = true → e.st.wait = some (.stlwait h b) → exec (.stlwaitReturn e.sid) s = .next (s.waits e.sid (.stlwait h b)))) ∧
      (incompleteOf s k e.sid ≤ (e.st.rd b).toNat → (Issues s e g → exec (.stlthr g h b) s = on) ∧
        (mayResume e = true → e.st.wait = some (.stlthr h b) → exec (.stlthrReturn e.sid) s = on)) ∧
      ((e.st.rd b).toNat < incompleteOf s k e.sid → (Issues s e g → exec (.stlthr g h b) s = .next (s.waits e.sid (.stlthr h b))) ∧
        (mayResume e = true → e.st.wait = some (.stlthr h b) → exec (.stlthrReturn e.sid) s = .next (s.waits e.sid (.stlthr h b)))))
  ∧ ∀ (s : State) (e : Env) (g : Guard) (d b : SReg) (h : Fin 16), s.cur = some (.scalar e.sid) → s.env? e.sid = some e →
      handleQueue s e h.val = none → ∀ i ∈ [Instr.stlwait g h b, .stlthr g h b, .stlrd g d h],
        exec i s = .next (raiseScalar s e { code := .illegalOperand })

/-- 07 R211 with the table of 02 R46. -/
def Obligations.SpecialRegisterReads : Prop :=
  (∀ (s : State) (e : Env) (g : Guard) (d : SReg), Issues s e g →
    let x := e.l.desc
    let gx := x.grid.1
    let gy := x.grid.2.1
    let reads (i : Fin 128) (v n : Nat) : Prop :=
      exec (.srds g d i) s = .next (s.after e (e.st.pc + 4) fun st => st.wr d ((BitVec.ofNat n v).setWidth 64))
    reads 16 e.sid.strand.val 5 ∧ reads 17 e.wg.index 32 ∧ reads 18 (e.wg.index % gx) 32 ∧ reads 19 (e.wg.index / gx % gy) 32 ∧
    reads 20 (e.wg.index / gx / gy) 32 ∧ reads 21 e.wg.launch 32 ∧ reads 22 e.l.world 10 ∧ reads 23 e.wg.core.core.val 6 ∧
    reads 24 (e.wg.core.core.val / 4) 4 ∧ reads 25 e.wg.core.die.val 2 ∧ reads 26 s.cycle 64 ∧ reads 27 e.l.frame 64 ∧
    (∀ c, s.contexts.get? e.l.ctx = some c → reads 28 c.phase 64) ∧ reads 29 e.l.node 6 ∧
    (SpareUnit.rows e.wg.core ∉ s.spares.used → reads 30 128 8) ∧ (SpareUnit.rows e.wg.core ∈ s.spares.used → reads 30 120 8) ∧ reads 31 x.pword.toNat 32)
  ∧ (∀ (s : State) (e : Env) (g : Guard) (d : SReg) (i : Fin 128), s.cur = some (.scalar e.sid) → s.env? e.sid = some e →
      i.val < 16 ∨ 32 ≤ i.val → exec (.srds g d i) s = .next (raiseScalar s e { code := .illegalOperand }))
  ∧ ∀ (g : Guard) (d a : SReg) (imm : Nat), g.legal = true → imm < 4096 → a ≠ 0 ∨ 128 ≤ imm →
      decodeScalar (encSI g 0x30 d a imm) 0 = .error .unusedField

/-- 16 R306, R313 to R318 with 07 R212. Model choices: the order of the registration's tests (log 29), which records are refused (log 65), the moment at
which FDTB and FDTSYNC drop the copies and whose stores they wait for (log 111), and that a release reaches every die in one step (log 41). -/
def Obligations.SystemRegisterWrites : Prop :=
  (∀ (s : State) (e : Env) (g : Guard) (a : SReg) (idx : BitVec 12), Issues s e g → e.l.desc.priv = false →
    ∀ i ∈ [Instr.swrs g a idx, .fdtb g a, .fdtsync g a, .gatereg g a, .gateclose g a, .gatereply g a, .debugen g a],
      exec i s = .next (faultScalar s e { code := .access }))
  ∧ (∀ (s : State) (e : Env) (g : Guard) (a : SReg) (idx : BitVec 12), Issues s e g → e.l.desc.priv = true →
    let v := (e.st.rd a).toNat
    let bad (i : Instr) : Prop := exec i s = .next (faultScalar s e { code := .illegalOperand })
    let r := release s e.sid (some .dev)
    bad (.swrs g a idx) ∧ (v % 8192 ≠ 0 → bad (.fdtb g a)) ∧ (256 < v → bad (.fdtsync g a)) ∧ (v % 64 ≠ 0 → bad (.gatereg g a)) ∧
    (512 ≤ v → bad (.gateclose g a)) ∧ (v % 128 ≠ 0 → bad (.gatereply g a)) ∧ (1 < v → bad (.debugen g a)) ∧
    (v % 8192 = 0 → r.2 = true → ∃ t st, exec (.fdtb g a) s = .next t ∧
      (∀ w, t.worlds.get? e.world = some w → w.fdtb = some v) ∧ t.xlat.tlb = s.xlat.tlb ∧
      t.strands.get? e.sid = some st ∧ st.wait = some (.fdtsync 256 r.1.nextId) ∧ st.s = e.st.s) ∧
    (v ≤ 256 → r.2 = true → ∃ t st, exec (.fdtsync g a) s = .next t ∧ t.xlat.tlb = s.xlat.tlb ∧
      t.strands.get? e.sid = some st ∧ st.wait = some (.fdtsync v r.1.nextId) ∧ st.s = e.st.s ∧ t.worlds = s.worlds) ∧
    (mayResume e = true → (∀ p ∈ s.strands, p.2.stores = []) → e.st.unackDev = 0 →
      ∀ i : Instr, (i = .fdtb g a ∧ v % 8192 = 0) ∨ (i = .fdtsync g a ∧ v ≤ 256) →
      ∃ t t' st, exec i s = .next t ∧ exec (.fdtsyncComplete e.sid) t = .next t' ∧ t'.strands.get? e.sid = some st ∧
        st.pc = e.st.pc + 4 ∧ st.wait = none ∧ st.s = e.st.s) ∧
    (v ≤ 1 → ∃ t, exec (.debugen g a) s = .next t ∧ t.strands.get? e.sid = some (e.st.next (e.st.pc + 4) s.cycle) ∧
      (∀ w, s.worlds.get? e.world = some w → t.worlds.get? e.world = some { w with debugen := decide (v = 1) }) ∧
      (∀ k, k ≠ e.world → t.worlds.get? k = s.worlds.get? k) ∧ t.mem = s.mem) ∧
    (v < 256 → exec (.gateclose g a) s = .next ((closeGate s e.world v).after e (e.st.pc + 4) fun st => st)) ∧
    (256 ≤ v → v < 512 → let hd := (s.worlds.get? e.world).bind fun w => w.handles.get? (v - 256)
      (∀ server gate, hd = some (server, gate) →
        exec (.gateclose g a) s = .next ((closeGate s server gate).after e (e.st.pc + 4) fun st => st)) ∧
      (hd = none → exec (.gateclose g a) s = .next (s.after e (e.st.pc + 4) fun st => st))) ∧
    (∀ s1 bs, v % 64 = 0 → strandBytes e s v 64 = .ok (s1, bs) →
      (gateRecordOk bs = false → exec (.gatereg g a) s = .next (faultScalar s1 e { code := .illegalOperand })) ∧
      (gateRecordOk bs = true →
        exec (.gatereg g a) s = .next ((registerGate s1 e.world bs).after e (e.st.pc + 4) fun st => st))) ∧
    (∀ s1 bs k x, v % 128 = 0 → strandBytes e s v 128 = .ok (s1, bs) → (release s1 e.sid (some .dev)).2 = true →
      let s2 := (release s1 e.sid (some .dev)).1
      s2.tickets.get? (fieldNat bs 0 8) = some k →
      ((s2.worlds.get? e.world).bind fun w => w.served.get? (fieldNat bs 8 4)) = some x →
      (fieldNat bs 0 8 ∈ x.pending → fieldNat bs 12 1 ≤ 64 →
        exec (.gatereply g a) s = .next ((replyTicket s2 e.world (fieldNat bs 8 4) (fieldNat bs 0 8) k
          ((bs.drop 64).take (fieldNat bs 12 1))).after e (e.st.pc + 4) fun st => st)) ∧
      (fieldNat bs 0 8 ∉ x.pending → exec (.gatereply g a) s = .next (faultScalar s2 e { code := .illegalOperand }))))
  ∧ (∀ (s : State) (e : Env) (k n : Nat), s.env? e.sid = some e → mayResume e = true → e.st.wait = some (.fdtsync k n) →
      let s1 := drainWorld s e.world
      (storesHeld s1 e.world n = true → exec (.fdtsyncComplete e.sid) s = .next (s1.waits e.sid (.fdtsync k n))) ∧
      (storesHeld s1 e.world n = false → ∃ t st, exec (.fdtsyncComplete e.sid) s = .next t ∧ t.strands.get? e.sid = some st ∧
        st.pc = e.st.pc + 4 ∧ st.wait = none ∧ st.s = e.st.s ∧ t.mem = (publish s1).mem ∧ t.worlds = s.worlds ∧
        ∀ x, x ∈ t.xlat.tlb ↔ x ∈ s.xlat.tlb ∧ ¬ (x.world = e.world ∧ (k = 256 ∨ x.index = k))))
  ∧ (∀ (s : State) (server gate : Nat) (x : Gate), ((s.worlds.get? server).bind fun w => w.served.get? gate) = some x →
      ((closeGate s server gate).worlds.get? server).bind (fun w => w.served.get? gate) = none ∧
      ((closeGate s server gate).worlds.get? x.client).bind (fun w => w.handles.get? x.handle) = none ∧
      ∀ t ∈ x.pending, ∀ k, (closeGate s server gate).tickets.get? t = some k → k.state = .closed)
  ∧ (∀ (s : State) (server : Nat) (sw cw : World) (bs : List Byte), s.worlds.get? server = some sw →
      s.worlds.get? (fieldNat bs 12 2) = some cw → cw.alive = true → cw.handles.get? (fieldNat bs 14 1) = none →
      sw.served.get? (fieldNat bs 16 4) = none →
      ((registerGate s server bs).worlds.get? (fieldNat bs 12 2)).bind (fun w => w.handles.get? (fieldNat bs 14 1)) =
          some (server, fieldNat bs 16 4) ∧
        (∃ x, ((registerGate s server bs).worlds.get? server).bind (fun w => w.served.get? (fieldNat bs 16 4)) = some x ∧
          x.base = fieldNat bs 0 8 ∧ x.depth = fieldNat bs 8 4 ∧ x.pending = []) ∧
        (registerGate s server bs).events = s.events ++ [(server, .gate (fieldNat bs 16 4) 0),
          (fieldNat bs 12 2, .gateOpened (fieldNat bs 14 1) server)])
  ∧ ∀ (s : State) (server gate t : Nat) (k : Ticket) (st : Strand) (bs : List Byte), s.strands.get? k.holder = some st →
      (t ∈ st.tickets → (replyTicket s server gate t k bs).tickets.get? t = some { k with state := .replied bs }) ∧
      ∀ x, ((replyTicket s server gate t k bs).worlds.get? server).bind (fun w => w.served.get? gate) = some x → t ∉ x.pending

/-- 07 R208 and R209 with 16 R316. Model choices: the handle is the register's low 32 bits (log 64), the posting counts whether or not the queue's
address translates (log 18). -/
def Obligations.GateWords : Prop :=
  (∀ (s : State) (e : Env) (g : Guard) (d a b : SReg) (len : BitVec 7) (s1 : State) (msg : List Byte), Issues s e g →
    1 ≤ len.toNat → len.toNat ≤ 64 → strandBytes e s (e.st.rd b).toNat len.toNat = .ok (s1, msg) →
    (release s1 e.sid (some .dev)).2 = true →
    let s2 := (release s1 e.sid (some .dev)).1
    let hd := (s2.worlds.get? e.world).bind fun w => w.handles.get? ((e.st.rd a).toNat % 2 ^ 32)
    let answers (v : W64) : Prop := exec (.sgate g d a b len) s = .next (s2.after e (e.st.pc + 4) fun st => st.wr d v)
    (hd = none → answers (-1)) ∧
    (∀ server gate, hd = some (server, gate) →
      let gt := (s2.worlds.get? server).bind fun w => w.served.get? gate
      (gt = none → answers (-1)) ∧
      (∀ x, gt = some x →
        (8 ≤ e.st.tickets.length ∨ x.depth ≤ x.pending.length → answers (-2)) ∧
        (e.st.tickets.length < 8 → x.pending.length < x.depth → 1 ≤ s2.nextId → s2.nextId < 2 ^ 64 → ∃ t st x', exec (.sgate g d a b len) s = .next t ∧
          t.strands.get? e.sid = some st ∧ (d ≠ 0 → st.rd d = BitVec.ofNat 64 s2.nextId) ∧ s2.nextId ∈ st.tickets ∧
          st.pc = e.st.pc + 4 ∧ (t.tickets.get? s2.nextId).map Ticket.state = some .pending ∧ t.nextId = s2.nextId + 1 ∧
          ((t.worlds.get? server).bind fun w => w.served.get? gate) = some x' ∧ x'.posted = x.posted + 1 ∧
          x'.pending = x.pending ++ [s2.nextId] ∧
          let va := x.base + 128 * (x.posted % x.depth)
          let s3 : State := { s2 with nextId := s2.nextId + 1,
                                      tickets := s2.tickets.set s2.nextId { server := server, gate := gate, holder := e.sid, state := .pending } }
          ∀ pa, s2.memWf = true → va % 128 = 0 → pa % 128 = 0 → isRemote pa = false →
            (translateNow s3 e.die server va .write true).2 = .ok pa →
            t.mem.home.read pa 128 = natLE 8 s2.nextId ++ natLE 8 (x.posted + 1) ++ natLE 2 e.world ++ natLE 1 len.toNat ++
              List.replicate 45 0 ++ msg ++ List.replicate (64 - msg.length) 0))))
  ∧ (∀ (s : State) (e : Env) (g : Guard) (d a b : SReg) (len : BitVec 7), s.cur = some (.scalar e.sid) → s.env? e.sid = some e →
      len = 0 ∨ 64 < len.toNat → exec (.sgate g d a b len) s = .next (raiseScalar s e { code := .illegalInstr }))
  ∧ ∀ (s : State) (e : Env) (g : Guard) (d a b : SReg) (i : Instr), s.env? e.sid = some e →
      (i = .sgatew g d a b ∧ Issues s e g) ∨ (i = .sgatewReturn e.sid ∧ mayResume e = true ∧ e.st.wait = some (.sgatew d a b)) →
      let n := (e.st.rd a).toNat
      let ends (v : Int) (s1 : State) (t : State) : Prop := ∃ st, t.strands.get? e.sid = some st ∧
        (d ≠ 0 → st.rd d = BitVec.ofInt 64 v) ∧ st.pc = e.st.pc + 4 ∧ st.wait = none ∧ n ∉ st.tickets ∧ t.tickets.get? n = none ∧
        t.mem = s1.mem
      (n ∉ e.st.tickets → exec i s = .next (s.after e (e.st.pc + 4) fun st => st.wr d (-1))) ∧
      (n ∈ e.st.tickets → ∀ k, s.tickets.get? n = some k →
        (k.state = .pending → exec i s = .next (s.waits e.sid (.sgatew d a b))) ∧
        (k.state = .closed → ∃ t, exec i s = .next t ∧ ends (-3) s t) ∧
        (∀ bs s1, k.state = .replied bs → strandWrite e s (e.st.rd b).toNat bs = .ok s1 →
          ∃ t, exec i s = .next t ∧ ends bs.length s1 t))

/-- 07 R205 to R207 with 01 R17 to R19 and 16 R306. -/
def Obligations.LaunchWords : Prop :=
  (∀ (s : State) (e : Env) (g : Guard) (d a : SReg) (nb : Bool) (i : Instr), s.env? e.sid = some e →
    (i = .slaunch g d a nb ∧ Issues s e g) ∨
      (i = .slaunchReturn e.sid ∧ nb = false ∧ mayResume e = true ∧ e.st.wait = some (.slaunch d a)) →
    let va := (e.st.rd a).toNat
    let r := release s e.sid (some .dev)
    (2 ^ 57 ≤ va → exec i s = .next (faultScalar s e { code := .access, access := .read, addr := va })) ∧
    (va < 2 ^ 57 → va % 64 ≠ 0 → exec i s = .next (faultScalar s e { code := .align, access := .read, addr := va })) ∧
    (∀ s1 bs, va < 2 ^ 57 → va % 64 = 0 → r.2 = true → strandBytes e r.1 va 256 = .ok (s1, bs) →
      let out := submit s1 e.l.world e.l.ctx va bs e.l.desc.priv (some (e.wg.launch, e.l)) (some e.sid)
      let answers (t : State) (v : Int) : Prop :=
        exec i s = .next (t.after e (e.st.pc + 4) fun st => st.wr d (BitVec.ofInt 64 v))
      (parseLaunch bs = none → out = .refused) ∧ (out = .refused → answers s1 (-2)) ∧ (out = .deep → answers s1 (-1)) ∧
      (out = .full → nb = true → answers s1 0) ∧
      (out = .full → nb = false →
        exec i s = .next (s1.waits e.sid (.slaunch d a))) ∧
      (∀ t n, out = .accepted t n → answers t n ∧ ∃ k l num, t.launches.get? k = some l ∧ l.parent = some e.wg.launch ∧
        l.issuer = some e.sid ∧ l.queue = some (num, n) ∧ l.descAddr = va ∧ l.depth = e.l.depth + 1 ∧ l.depth ≤ 8 ∧
        some l.desc = parseLaunch bs)) ∧
    (va < 2 ^ 57 → va % 64 = 0 → e.st.stores = [] → e.st.unackDev = 0 → (∃ x, strandBytes e s va 256 = .ok x) → nb = true →
      ∃ (t : State) (v : W64), exec i s = .next (t.after e (e.st.pc + 4) fun st => st.wr d v)))
  ∧ (∀ (s : State) (e : Env) (g : Guard) (d : SReg) (l : Level) (i : InstId) (x : Inst), Issues s e g →
      climb s l 6 (unitOf e.sid.wg) = some i → s.inst? i = some x →
      let reads (v : CountItem) (r : W64) : Prop := exec (.scnt g d v l) s = .next (s.after e (e.st.pc + 4) fun st => st.wr d r)
      reads .completed x.completed ∧ reads .cancelled x.cancelled ∧ (x.state = .running → reads .state 0) ∧
      (x.state = .done → reads .state 1) ∧ (x.state = .cancelled → reads .state 2) ∧ reads .errors (e.l.errors.setWidth 64))
  ∧ (∀ (s : State) (e : Env) (g : Guard) (d : SReg) (l : Level) (v : CountItem), Issues s e g →
      ∃ r, exec (.scnt g d v l) s = .next (s.after e (e.st.pc + 4) fun st => st.wr d r))
  ∧ (∀ (s : State) (e : Env) (g : Guard) (d a : SReg) (l : Level), Issues s e g → a ≠ 0 →
      (l ≠ .unit → e.l.desc.priv = false → exec (.scancel g d a l) s = .next (faultScalar s e { code := .access })) ∧
      (l = .unit → exec (.scancel g d a l) s = .next (raiseScalar s e { code := .illegalInstr })) ∧
      (l ≠ .unit → e.l.desc.priv = true →
        let k := (e.st.rd a).toNat
        ((∀ x, s.launches.get? k = some x → x.world ≠ e.l.world) →
          exec (.scancel g d a l) s = .next (s.after e (e.st.pc + 4) fun st => st.wr d 3)) ∧
        (∀ x i y, s.launches.get? k = some x → x.world = e.l.world → climb s l 6 ⟨.launch, k⟩ = some i → s.inst? i = some y →
          (y.state = .done → exec (.scancel g d a l) s = .next (s.after e (e.st.pc + 4) fun st => st.wr d 1)) ∧
          (y.state = .cancelled → exec (.scancel g d a l) s = .next (s.after e (e.st.pc + 4) fun st => st.wr d 2)) ∧
          (y.state = .running → ∃ t z st, exec (.scancel g d a l) s = .next t ∧ t.inst? i = some z ∧
            z.state = .cancelled ∧ t.strands.get? e.sid = some st ∧ (d ≠ 0 → st.rd d = 0)))))
  ∧ ∀ (s : State) (e : Env) (g : Guard) (d : SReg) (l : Level), Issues s e g → e.st.ended = .no →
      ∃ t st, exec (.scancel g d 0 l) s = .next t ∧ t.strands.get? e.sid = some st ∧ st.ended = .cancelled ∧ st.laneQ = [] ∧
        st.stores = [] ∧ st.s = e.st.s ∧
        ∀ i x, climb s l 6 (unitOf e.sid.wg) = some i → s.inst? i = some x →
          (x.state = .running → ∃ y, t.inst? i = some y ∧ y.state = .cancelled) ∧
          ∀ k st0, k.wg = e.sid.wg → s.strands.get? k = some st0 → st0.ended = .no →
            ∃ st1, t.strands.get? k = some st1 ∧ st1.ended = .cancelled

/-- 17 R320, R322; 01 R15, R20; 16 R307; 05 R116. How a host's input is taken (logs 3, 116) and how a context is destroyed (log 45) are the model's. -/
def Obligations.RuntimeRequests : Prop :=
  (∀ (s : State) (world ctx desc : Nat) (rest : List Input), s.power.state = .w0 → s.trust.stage ≠ .halted → s.inbox = .submit world ctx desc :: rest →
    let s0 : State := { s with inbox := rest }
    (desc % 64 ≠ 0 → exec .launchSubmission s = .next (s0.tell world (.launchRefused world desc))) ∧
    (desc % 64 = 0 → (∀ s1 c, readNow s0 (s0.worldDie world) world desc 256 true = (s1, .error c) →
        exec .launchSubmission s = .next (s1.tell world (.launchRefused world desc))) ∧
      (∀ s1 bs, readNow s0 (s0.worldDie world) world desc 256 true = (s1, .ok bs) →
        (∀ t n, submit s1 world ctx desc bs true none none = .accepted t n →
          exec .launchSubmission s = .next (t.tell world (.launchAccepted world n)) ∧
          ∃ k l num, t.launches.get? k = some l ∧ l.queue = some (num, n) ∧ l.parent = none ∧ l.depth = 0 ∧ some l.desc = parseLaunch bs) ∧
        ((∀ t n, submit s1 world ctx desc bs true none none ≠ .accepted t n) →
          exec .launchSubmission s = .next (s1.tell world (.launchRefused world desc))))))
  ∧ (∀ (s : State) (world num prio ctx : Nat) (c : Context) (w : World) (rest : List Input), s.power.state = .w0 → s.trust.stage ≠ .halted →
      s.inbox = .createQueue world num prio ctx :: rest → s.contexts.get? ctx = some c → c.world = world →
      s.worlds.get? world = some w → w.alive = true → w.queues.get? num = none → num < 64 →
      prio ≤ 3 ∨ (prio = 4 ∧ world = 0) → ∃ t w', exec .queueCreate s = .next t ∧ t.worlds.get? world = some w' ∧
        w'.queues.get? num = some ⟨prio, ctx, 1, []⟩ ∧ (∀ k, k ≠ num → w'.queues.get? k = w.queues.get? k) ∧ t.inbox = rest)
  ∧ (∀ (s : State) (world num : Nat) (w : World) (q : LaunchQueue) (rest : List Input), s.power.state = .w0 → s.trust.stage ≠ .halted →
      s.inbox = .destroyQueue world num :: rest → s.worlds.get? world = some w → w.queues.get? num = some q →
      (w.queues.map Prod.fst).Nodup → ∃ t w', exec .queueDestroy s = .next t ∧ t.worlds.get? world = some w' ∧
        w'.queues.get? num = if q.pending = [] then none else some q)
  ∧ (∀ (s : State) (world j : Nat) (w : World) (x : Inst) (rest : List Input), s.power.state = .w0 → s.trust.stage ≠ .halted →
      s.inbox = .closeJob world :: rest → s.worlds.get? world = some w → w.job = some j → s.inst? ⟨.job, j⟩ = some x →
      ∃ t w', exec .jobClose s = .next t ∧ t.inst? ⟨.job, j⟩ = some { x with closed := true } ∧ t.worlds.get? world = some w' ∧ w'.job = none)
  ∧ (∀ (s : State) (k : Nat) (m : ContextImage) (w : World) (rest : List Input), s.power.state = .w0 → s.trust.stage ≠ .halted →
      s.inbox = .createContext k m :: rest → s.worlds.get? m.world = some w → w.alive = true →
      let s0 : State := { s with inbox := rest }
      let refused : Host.Outcome State Fault Refusal := .next (s0.tell m.world (.contextRefused m.world k))
      (tablesOk m = false → exec .contextCreate s = refused) ∧ (16384 ≤ k → exec .contextCreate s = refused) ∧
      (∀ c, s.contexts.get? k = some c → exec .contextCreate s = refused) ∧
      (tablesOk m = true → k < 16384 → s.contexts.get? k = none →
        (exec .contextCreate s = refused ∨ ∃ t c, exec .contextCreate s = .next t ∧ t.contexts.get? k = some c ∧ c.img = m ∧
          c.world = m.world ∧ c.current = none ∧ c.runs = [] ∧ t.inbox = rest) ∧
        (m.nodes = [] → ∃ t c, exec .contextCreate s = .next t ∧ t.contexts.get? k = some c ∧ c.img = m)))
  ∧ (∀ (s : State) (k : Nat) (rest : List Input), s.power.state = .w0 → s.trust.stage ≠ .halted → s.inbox = .destroyContext k :: rest →
      ((∀ p ∈ s.launches, p.2.ctx = k → launchOver s p.1 = true) → ∃ t, exec .contextDestroy s = .next t ∧ t.contexts.get? k = none ∧
        (∀ j, j ≠ k → t.contexts.get? j = s.contexts.get? j) ∧ t.strands = s.strands ∧ t.mem = s.mem) ∧
      ((∃ p ∈ s.launches, p.2.ctx = k ∧ launchOver s p.1 = false) → exec .contextDestroy s = .next { s with inbox := rest }))
  ∧ (∀ s : State, s.power.state ≠ .w0 ∨ s.trust.stage = .halted ∨ s.inbox = [] →
      ∀ i ∈ [Instr.launchSubmission, .queueCreate, .queueDestroy, .jobClose, .contextCreate, .contextDestroy], exec i s = .next s)
  ∧ ∀ (s : State) (x : Input) (rest : List Input), s.inbox = x :: rest →
      ((∀ w c d, x ≠ .submit w c d) → exec .launchSubmission s = .next s) ∧
      ((∀ w n p c, x ≠ .createQueue w n p c) → exec .queueCreate s = .next s) ∧
      ((∀ w n, x ≠ .destroyQueue w n) → exec .queueDestroy s = .next s) ∧
      ((∀ w, x ≠ .closeJob w) → exec .jobClose s = .next s) ∧
      ((∀ k m, x ≠ .createContext k m) → exec .contextCreate s = .next s) ∧
      ((∀ k, x ≠ .destroyContext k) → exec .contextDestroy s = .next s)

/-- 09 R242 and the issue checks of R246, R253, R255, R257 to R260; 01 R13. The bound of 8,192 chunks is log 136's, the tags of tiles at issue
log 82's, the superblock check at issue log 144's, the zero field [39:36] of CCOL log 163's. -/
def Obligations.EngineWordsAreAccepted : Prop :=
  (∀ (s : State) (e : Env) (g : Guard) (a b c : SReg) (t : Transform) (fifo : Bool) (fw : W32), Issues s e g → e.st.role = .copy →
    let q := s.copyQ e.wg.core e.l.desc.copyQueue
    let enters (i : Instr) (len : Nat) (k : CopyCmd) : Prop := ∃ t st, exec i s = .next t ∧ t.strands.get? e.sid = some st ∧
      st.pc = e.st.pc + len ∧ st.s = e.st.s ∧ (t.copyQ e.wg.core e.l.desc.copyQueue).next = q.next + 1 ∧
      (t.copyQ e.wg.core e.l.desc.copyQueue).world = some e.l.world ∧
      (t.copyQ e.wg.core e.l.desc.copyQueue).cmds.map (fun x => { x with ahead := [] }) =
        (q.cmds ++ [k]).map fun x => { x with ahead := [] }
    let words : List (Instr × Option W32 × Nat) := [(.cpy g a b c t fifo, none, 4), (.cpyThen g a b c t fifo fw, some fw, 8)]
    (∀ x ∈ words, (∀ k, copyIssue a b c t fifo x.2.1 (cpyWord a b c t fifo x.2.1.isSome) e s = .ok k →
        (q.cmds.length < 64 → exec x.1 s = .next ((acceptCopy s e k).after e (e.st.pc + x.2.2) fun st => st) ∧ enters x.1 x.2.2 k ∧
          k.num = q.next ∧ k.sid = e.sid ∧ k.progress = 0 ∧ k.sa = e.st.rd a ∧ k.sb = e.st.rd b ∧ k.sc = e.st.rd c ∧
          k.scale = e.st.tileScale ∧ k.transform = t ∧ k.fifo = fifo ∧ k.state = .ready) ∧
        (64 ≤ q.cmds.length → exec x.1 s = .next (s.waits e.sid (.engine x.1)))) ∧
      (∀ k, copyIssue a b c t fifo x.2.1 (cpyWord a b c t fifo x.2.1.isSome) e s = .error k →
        exec x.1 s = .next (faultScalar s e { code := k, detail := if k = .world then 3 else 0 }))) ∧
    (∀ (r : LayoutRec) (k : CopyCmd), k.world = e.world → k.priv = e.priv → k.sa = e.st.rd a → k.sb = e.st.rd b → k.sc = e.st.rd c → k.transform = t → k.fifo = fifo →
      k.store = (!fifo && (e.st.rd b).getLsbD 63) → k.layout = r → layoutOf s e ((e.st.rd a).toNat % 65536) (t == .rowScale) = some r →
      selectorOk t fifo (e.st.rd a).toNat (e.st.rd b).toNat = true → baseOk k = true → comboOk k = true → superblockOk s e.core k = true →
      k.chunkCount ≤ 8192 → (t = .rowScale → k.tile < e.accTiles) → (t = .rowScale ∨ t = .gatherRows → k.listOff % 4 = 0) →
      (c ≠ 0 → (e.st.rd c).toNat % 32 = 0 ∧ (e.st.rd c).toNat + 32 ≤ e.scratchBytes) → touchedEnd k ≤ e.scratchBytes →
      (fifo = true → fifoBound e k.fifoCode = true) → q.cmds = [] ∨ q.world = some e.l.world → q.cmds.length < 64 →
      (∃ k', enters (.cpy g a b c t fifo) 4 k' ∧ k'.num = q.next ∧ k'.chunks = k.chunkCount ∧ k'.layout = r) ∧
      (∀ m, followCheck e fw = .ok m → fifo = true →
        ∃ k', enters (.cpyThen g a b c t fifo fw) 8 k' ∧ k'.num = q.next ∧ k'.follow = some (fw, m))) ∧
    exec (.cpyset g a) s = .next (s.after e (e.st.pc + 4) fun st => { st with tileScale := (e.st.rd a).setWidth 32 }))
  ∧ (∀ (s : State) (e : Env) (g : Guard) (m : MatFields) (d a b : TileNo) (w : SReg), Issues s e g → e.st.role = .matrix →
      let enters (i : Instr) (k : MatKind) : Prop := e.wg.matrix.cmds.countP (fun c => c.num.isSome) < 64 →
        ∃ t wg cmd st, exec i s = .next t ∧ t.wgs.get? e.sid.wg = some wg ∧ wg.matrix.cmds = e.wg.matrix.cmds ++ [cmd] ∧
          wg.matrix.next = e.wg.matrix.next + 1 ∧ cmd.num = some e.wg.matrix.next ∧ cmd.kind = k ∧ cmd.sid = e.sid ∧
          cmd.started = false ∧ cmd.aRows = [] ∧ cmd.bRows = [] ∧ wg.tiles = e.wg.tiles ∧ wg.fifos = e.wg.fifos ∧
          t.strands.get? e.sid = some st ∧ st.pc = e.st.pc + 4 ∧ st.s = e.st.s ∧ t.mem = s.mem
      let holds (i : Instr) : Prop := 64 ≤ e.wg.matrix.cmds.countP (fun c => c.num.isSome) →
        exec i s = .next (s.waits e.sid (.engine i))
      let inAcc (t : TileNo) : Prop := t.val < e.accTiles
      let tags (k : MatKind) : Prop := ∀ t ∈ k.writes ++ k.reads, tileTagOk s e t = true
      let raises (i : Instr) (c : Code) : Prop := exec i s = .next (faultScalar s e { code := c })
      (matTilesOk e m = true → fifoBound e m.fa.val = true → fifoBound e (4 + m.fb.val) = true →
        (tags (.mma m) → enters (.mma g m) (.mma m) ∧ holds (.mma g m)) ∧ (¬ tags (.mma m) → raises (.mma g m) .world) ∧
        (bitOf e.l.desc.pairs (e.sid.strand.val / 2) = true → (tags (.mmap m) → enters (.mmap g m) (.mmap m) ∧ holds (.mmap g m)) ∧
          (¬ tags (.mmap m) → raises (.mmap g m) .world)) ∧
        (bitOf e.l.desc.pairs (e.sid.strand.val / 2) = false → raises (.mmap g m) .pair)) ∧
      (matTilesOk e m = true → fifoBound e m.fa.val = false ∨ fifoBound e (4 + m.fb.val) = false →
        raises (.mma g m) .fifo ∧ raises (.mmap g m) .fifo) ∧
      (inAcc d → (tags (.mzero d) → enters (.mzero g d) (.mzero d) ∧ holds (.mzero g d)) ∧ (¬ tags (.mzero d) → raises (.mzero g d) .world)) ∧
      (inAcc d → inAcc a → inAcc b → let k := MatKind.mguide d a b ((e.st.rd w).setWidth 32)
        (tags k → enters (.mguide g d a b w) k ∧ holds (.mguide g d a b w)) ∧ (¬ tags k → raises (.mguide g d a b w) .world)))
  ∧ (∀ (s : State) (e : Env) (g : Guard) (a b c : SReg) (k : CollKind) (op : CollOp), Issues s e g → e.st.role = .copy →
      let q := s.collQs[e.wg.core.die]
      let enters (cmd : CollCmd) : Prop := ∃ (t : State) (st : Strand), exec (.ccol g a b c k op) s = .next t ∧ t.strands.get? e.sid = some st ∧
        st.pc = e.st.pc + 4 ∧ st.s = e.st.s ∧
        t.collQs[e.wg.core.die] = { q with world := some e.l.world, next := q.next + 1, cmds := q.cmds ++ [cmd] }
      (∀ x, collIssue a b c k op e s = .error x →
        exec (.ccol g a b c k op) s = .next (faultScalar s e { code := x, detail := if x = .world then 3 else 0 })) ∧
      (∀ cmd, collIssue a b c k op e s = .ok cmd →
        (q.cmds.length < 64 → enters cmd ∧ cmd.num = q.next ∧ cmd.sid = e.sid ∧ cmd.exchanged = false) ∧
        (64 ≤ q.cmds.length → exec (.ccol g a b c k op) s = .next (s.waits e.sid (.engine (.ccol g a b c k op))))) ∧
      ∀ (ty : Ty) (gr : GroupEntry), collTy (bitsOf (e.st.rd c).toNat 32 4) = some ty → groupOf s e (bitsOf (e.st.rd c).toNat 40 8) = some gr →
        bitsOf (e.st.rd c).toNat 36 4 = 0 → (e.st.rd a).toNat % (ty.bits / 8) = 0 → (e.st.rd b).toNat % (ty.bits / 8) = 0 →
        0 < bitsOf (e.st.rd c).toNat 0 32 → bitsOf (e.st.rd c).toNat 48 16 < gr.members →
        (k = .allReduce ∧ e.st.rd a = e.st.rd b) ∨ overlaps (e.st.rd a).toNat
          ((if k = .reduceScatter then bitsOf (e.st.rd c).toNat 0 32 * gr.members else bitsOf (e.st.rd c).toNat 0 32) * (ty.bits / 8))
          (e.st.rd b).toNat (collWrites k (bitsOf (e.st.rd c).toNat 0 32) gr.members * (ty.bits / 8)) = false →
        q.cmds = [] ∨ q.world = some e.l.world → q.cmds.length < 64 →
        ∃ cmd, enters cmd ∧ cmd.num = q.next ∧ cmd.count = bitsOf (e.st.rd c).toNat 0 32 ∧ cmd.kind = k ∧ cmd.op = op ∧ cmd.group = gr)
  ∧ (∀ (s : State) (e : Env) (g : Guard) (m : MatFields) (d a b : TileNo) (w : SReg), s.cur = some (.scalar e.sid) →
      s.env? e.sid = some e → e.st.role = .matrix →
      (matTilesOk e m = false → exec (.mma g m) s = .next (raiseScalar s e { code := .illegalOperand }) ∧
        exec (.mmap g m) s = .next (raiseScalar s e { code := .illegalOperand })) ∧
      (¬ d.val < e.accTiles → exec (.mzero g d) s = .next (raiseScalar s e { code := .illegalOperand })) ∧
      (¬ d.val < e.accTiles ∨ ¬ a.val < e.accTiles ∨ ¬ b.val < e.accTiles →
        exec (.mguide g d a b w) s = .next (raiseScalar s e { code := .illegalOperand })))
  ∧ (∀ (s : State) (e : Env) (g : Guard) (a b c : SReg) (t : Transform) (fifo : Bool) (fw : W32) (m : MatFields) (k : CollKind) (op : CollOp)
      (d : TileNo) (w : SReg), s.cur = some (.scalar e.sid) → s.env? e.sid = some e →
      (e.st.role ≠ .copy → ∀ i ∈ [Instr.cpy g a b c t fifo, .cpyThen g a b c t fifo fw, .cpyset g a, .ccol g a b c k op],
        exec i s = .next (raiseScalar s e { code := .illegalInstr })) ∧
      (e.st.role ≠ .matrix → ∀ i ∈ [Instr.mma g m, .mmap g m, .mzero g d, .mguide g d d d w],
        exec i s = .next (raiseScalar s e { code := .illegalInstr })))
  ∧ ∀ (s : State) (e : Env) (i : Instr) (g : Guard), s.env? e.sid = some e → mayResume e = true → e.st.wait = some (.engine i) →
      let q := s.copyQ e.core e.l.desc.copyQueue
      let c := s.collQs[e.wg.core.die]
      let event := exec (.engineWordAccept e.sid) s
      (∀ a b c t fifo fw, let copies (len : Nat) (then? : Option W32) : Prop :=
            (∀ k, copyIssue a b c t fifo then? (cpyWord a b c t fifo then?.isSome) e s = .ok k →
              (q.cmds.length < 64 → event = .next ((acceptCopy s e k).after e (e.st.pc + len) fun st => st)) ∧
              (64 ≤ q.cmds.length → event = .next (s.waits e.sid (.engine i)))) ∧
            (∀ k, copyIssue a b c t fifo then? (cpyWord a b c t fifo then?.isSome) e s = .error k →
              event = .next (faultScalar s e { code := k, detail := if k = .world then 3 else 0 }))
          (i = .cpy g a b c t fifo → copies 4 none) ∧ (i = .cpyThen g a b c t fifo fw → copies 8 (some fw))) ∧
      (∀ x y z k op cmd, i = .ccol g x y z k op → collIssue x y z k op e s = .ok cmd →
        (c.cmds.length < 64 → event = .next ((acceptColl s e cmd).after e (e.st.pc + 4) fun st => st)) ∧
        (64 ≤ c.cmds.length → event = .next (s.waits e.sid (.engine i)))) ∧
      ∀ (m : MatFields) (d a b : TileNo) (w : SReg) (k : MatKind),
        (i, k) ∈ [(Instr.mma g m, MatKind.mma m), (.mmap g m, .mmap m), (.mzero g d, .mzero d), (.mguide g d a b w, .mguide d a b ((e.st.rd w).setWidth 32))] →
        (∀ n, k.fields? = some n → fifoBound e n.fa.val = true ∧ fifoBound e (4 + n.fb.val) = true) →
        (∀ n, k = .mmap n → bitOf e.l.desc.pairs (e.sid.strand.val / 2) = true) → (∀ t ∈ k.writes ++ k.reads, tileTagOk s e t = true) →
        (e.wg.matrix.cmds.countP (fun c => c.num.isSome) < 64 → ∃ t wg cmd st, event = .next t ∧ t.wgs.get? e.sid.wg = some wg ∧
          wg.matrix.cmds = e.wg.matrix.cmds ++ [cmd] ∧ wg.matrix.next = e.wg.matrix.next + 1 ∧ cmd.num = some e.wg.matrix.next ∧
          cmd.kind = k ∧ cmd.sid = e.sid ∧ t.strands.get? e.sid = some st ∧ st.pc = e.st.pc + 4 ∧ st.s = e.st.s) ∧
        (64 ≤ e.wg.matrix.cmds.countP (fun c => c.num.isSome) → event = .next (s.waits e.sid (.engine i)))

/-- 09 R243, R249, R251, R254, R260 and R261; the order of contributions of other operations is free (04 R111). After a chunk the queue may
read a later chunk ahead (`readAhead`; which and when is free: log 137). The granules that a chunk checks are log 82's; the address of a landing record is the landing offset (log 121). -/
def Obligations.CopyAndCollectiveEvents : Prop :=
  (∀ (s s1 : State) (core : CoreId) (q : Fin 4) (k : CopyCmd) (g : Workgroup) (c : Chunked),
    let x := s.copyQ core q
    x.cmds.find? (fun k => decide (k.progress < k.chunks)) = some k → s.wgs.get? k.sid.wg = some g → x.halted = false →
    k.state = .ready → g.parked = none → g.stopping = false →
    (chunkEffect s core k g = (s1, .ok c) → k.fifo = false ∨ (fifoOf g k.world k.fifoCode).bytes.length + c.pushed.length ≤ fifoSize k.fifoCode →
      let f0 := fifoOf g k.world k.fifoCode
      let f1 : Fifo := { f0 with bytes := f0.bytes ++ c.pushed }
      let sm := modCopyCmd s1 core q k.num fun y => { y with msgs := c.msgs }
      let s2 := if k.fifo then sm.modWg k.sid.wg (fun g' => { g' with fifos := g'.fifos.set k.fifoCode f1 }) else sm
      let a := landArrival s2 k.sid.wg k.land c.count
      (a.2 = false → (k.progress + 1 < k.chunks → exec (.copyChunk core q) s =
          .next (readAhead (modCopyCmd a.1 core q k.num fun y => { y with progress := y.progress + 1, ahead := y.ahead.drop 1 }) core q)) ∧
        (k.progress + 1 = k.chunks → (k.follow = none → ∃ t, exec (.copyChunk core q) s = .next t ∧ ∀ y ∈ (t.copyQ core q).cmds, y.num ≠ k.num) ∧
          (∀ w m, k.follow = some (w, m) → ∃ t g' cmd, exec (.copyChunk core q) s = .next t ∧ (∀ y ∈ (t.copyQ core q).cmds, y.num = k.num → y.followDone = true) ∧
            (∀ g1, a.1.wgs.get? k.sid.wg = some g1 → t.wgs.get? k.sid.wg = some g' ∧ g'.matrix.cmds = g1.matrix.cmds ++ [cmd] ∧ cmd.kind = .mma m ∧ cmd.num = none)))) ∧
      (a.2 = true → exec (.copyChunk core q) s = .next (readAhead (raise a.1 k.world core.die
        (copyRec a.1 core q k { code := .land, addr := k.land.getD 0 })) core q))) ∧
    (∀ f, chunkEffect s core k g = (s1, .error (.bad f)) → exec (.copyChunk core q) s = .next (readAhead (raise s1 k.world core.die (copyRec s1 core q k f)) core q)) ∧
    (∀ f l, k.ahead = .fault f :: l → exec (.copyChunk core q) s = .next (readAhead (raise s k.world core.die (copyRec s core q k f)) core q)) ∧
    ((∀ f l, k.ahead ≠ .fault f :: l) → chunkTagsOk s k g = false →
      exec (.copyChunk core q) s = .next (readAhead (raise s k.world core.die (copyRec s core q k { code := .world })) core q)))
  ∧ (∀ (s : State) (core : CoreId) (k : CopyCmd) (list : List Nat) (x : Elem),
      (elemInside k (elemIndex k list x) = false → loadElem s core k list x = (s, .ok (k.layout.fill % 2 ^ (4 * k.nearHalf)))) ∧
      (∀ s1 v f, elemInside k (elemIndex k list x) = true → k.moves = true → elemBits s core k (elemAddr k (elemIndex k list x)) = (s1, .ok (v, f)) →
        loadElem s core k list x = (s1, .ok v)))
  ∧ (∀ (s : State) (die : Fin 4) (c : CollCmd) (others : List CollHeader), collHead s die = some c → c.exchanged = false →
      others.length + 1 = c.group.members →
      ((∃ h ∈ others, h ≠ ⟨c.kind, c.op, c.ty, c.count⟩) →
        exec (.collectiveExchange die others) s = .next (collFault s die c { code := .illegalOperand })) ∧
      ((∀ h ∈ others, h = ⟨c.kind, c.op, c.ty, c.count⟩) → ∀ pa,
        collPlaces s die c c.src (collReads c.kind c.count c.group.members c.root c.group.rank * c.bytes) .read =
          .ok [(pa, c.src, collReads c.kind c.count c.group.members c.root c.group.rank * c.bytes)] →
        s.mem.poisoned pa (collReads c.kind c.count c.group.members c.root c.group.rank * c.bytes) = false →
        ∃ t, exec (.collectiveExchange die others) s = .next t ∧ ∀ y ∈ (t.collQs[die]).cmds, y.num = c.num → y.exchanged = true ∧
          y.data = elems c.bytes (readDie s die c.world pa (collReads c.kind c.count c.group.members c.root c.group.rank * c.bytes)).2))
  ∧ ∀ (s : State) (die : Fin 4) (c : CollCmd) (sources : List (List W32)) (pa : Nat), s.memWf = true → collHead s die = some c → c.exchanged = true → c.sent = none →
      c.ty = 0 ∨ c.ty = 1 → c.group.rank ≤ sources.length → sources.length + 1 = c.group.members → isRemote pa = false →
      let all := sources.take c.group.rank ++ c.data :: sources.drop c.group.rank
      (∀ m, m < c.group.members → (all.getD m []).length = collReads c.kind c.count c.group.members c.root m) →
      let n := collWrites c.kind c.count c.group.members
      collPlaces s die c c.dst (4 * n) .write = .ok [(pa, c.dst, 4 * n)] →
      let total (i : Nat) : W32 := (all.map fun x => x.getD i 0).foldl (fun a b => a + b) 0
      let writes (out : Nat → W32) : Prop := ∃ t, exec (.collectiveComplete die sources) s = .next t ∧
        (∀ i, i < n → t.mem.home.readNat (pa + 4 * i) 4 = (out i).toNat) ∧
        (∀ y ∈ (t.collQs[die]).cmds, y.num ≠ c.num) ∧ t.strands.map Prod.fst = s.strands.map Prod.fst
      (c.kind = .allReduce → c.op = .add → writes total) ∧
      (c.kind = .reduceScatter → c.op = .add → writes fun i => total (c.group.rank * c.count + i)) ∧
      (c.kind = .allGather → 0 < c.count → writes fun i => (all.getD (i / c.count) []).getD (i % c.count) 0) ∧
      (c.kind = .broadcast → c.root < c.group.members → writes fun i => (all.getD c.root []).getD i 0)

/-- 09 R255 to R259, 04 R107 and R108, 14 R296 and R297, and the element values of 02 R66 to R68. Both words of a pair as one operation at a
fault are log 38's, the array order at a shared B FIFO log 135's, the places of sparse elements log 31's. -/
def Obligations.MatrixArrayEvents : Prop :=
  (∀ (s : State) (core : CoreId) (id wg : Nat) (g : Workgroup) (c : MatCmd), matFind s core id = some (wg, g, c) →
    (c.started = false → g.stopping = false → mayStart g c = true →
      (∀ x ∈ operation g c, x.state = .ready ∧ matHalted s g x = false ∧ tileBad g x.kind = false) →
      exec (.matrixWordStart core id) s =
        .next ((operation g c).foldl (fun s x => modMatCmd s wg x.id fun k => { k with started := true }) s)) ∧
    (c.started = false → g.stopping = false → mayStart g c = true → c.pair = .solo → c.state = .ready → matHalted s g c = false →
      tileBad g c.kind = true → exec (.matrixWordStart core id) s = .next (matFault s wg g c { code := .poison, access := .read })) ∧
    (∀ m, c.kind.fields? = some m → c.started = true → c.state = .ready → wantsB c m = true → mayPop g c false m.fb.val = true →
      (fifoOf g c.world (4 + m.fb.val)).world ≠ c.world →
      exec (.matrixRowPop core id) s = .next (matFault s wg g c { code := .world, detail := 4 })) ∧
    (c.pair = .solo → operation g c = [c]) ∧ (∀ d x, c.pair = .paired d → matCmd? g d = some x → operation g c = [c, x]) ∧
    (mayStart g c = false → exec (.matrixWordStart core id) s = .next s) ∧
    (∀ m, c.kind.fields? = some m → c.started = true → c.state = .ready → wantsB c m = true → mayPop g c false m.fb.val = true →
      let f := fifoOf g c.world (4 + m.fb.val)
      f.world = c.world → bRowSize m ≤ f.bytes.length → (∀ b ∈ f.bad, bRowSize m ≤ b) →
      let f1 : Fifo := { f with bytes := f.bytes.drop (bRowSize m), bad := f.bad.map fun b => b - bRowSize m }
      exec (.matrixRowPop core id) s = .next (modMatCmd (s.modWg wg fun g => { g with fifos := g.fifos.set (4 + m.fb.val) f1 }) wg c.id
        fun k => { k with bRows := k.bRows ++ [f.bytes.take (bRowSize m)] })) ∧
    (∀ m, c.kind.fields? = some m → c.started = true → c.state = .ready → wantsB c m = false → wantsA c m = true → mayPop g c true m.fa.val = true →
      let f := fifoOf g c.world m.fa.val
      f.world = c.world → aRowSize m ≤ f.bytes.length → (∀ b ∈ f.bad, aRowSize m ≤ b) →
      let f1 : Fifo := { f with bytes := f.bytes.drop (aRowSize m), bad := f.bad.map fun b => b - aRowSize m }
      exec (.matrixRowPop core id) s = .next (modMatCmd (s.modWg wg fun g => { g with fifos := g.fifos.set m.fa.val f1 }) wg c.id
        fun k => { k with aRows := k.aRows ++ [f.bytes.take (aRowSize m)] })) ∧
    (c.started = true → c.state = .ready → g.tiles.wf = true → s.wgs.get? wg = some g →
      let leaves (t : State) (g' : Workgroup) : Prop := exec (.matrixWordComplete core id) s = .next t ∧ t.wgs.get? wg = some g' ∧
        (∀ k ∈ g'.matrix.cmds, k.id ≠ c.id) ∧ g'.scratch = g.scratch ∧ t.mem = s.mem ∧ t.strands = s.strands ∧
        (∀ n q y, c.copy = some (n, q, y) → ∀ k ∈ (t.copyQ n q).cmds, k.num ≠ y)
      (∀ d, c.kind = .mzero d → ∃ t g', leaves t g' ∧ ∀ u r x, r < 128 → x < 128 →
        tileRead g' u r x = if u = d.val then 0 else tileRead g u r x) ∧
      (∀ d a b w, c.kind = .mguide d a b w → ∃ t g', leaves t g' ∧ ∀ u r x, r < 128 → x < 128 →
        tileRead g' u r x = if u = d.val then guide (tileRead g a.val r x) (tileRead g b.val r x) w.toNat % 2 ^ 32 else tileRead g u r x) ∧
      (∀ m, c.kind.fields? = some m → c.pair = .solo → hasRows g c m = true → m.legal = true → ∃ t g', leaves t g' ∧
        ∀ u r x, r < 128 → x < 128 → tileRead g' u r x =
          if m.tile.val ≤ u ∧ r < m.dims.1 ∧ 128 * (u - m.tile.val) + x < m.dims.2.1
          then productOf m (c.aRows.getD r []) (c.bRows.getD (128 * (u - m.tile.val) + x) []) (tileRead g u r x) % 2 ^ 32
          else tileRead g u r x)) ∧
    (c.started = false → exec (.matrixWordComplete core id) s = .next s ∧ exec (.matrixRowPop core id) s = .next s) ∧
    (∀ m, c.kind = .mmap m → c.pair = .undecided → c.state = .ready → matHalted s g c = false →
      (∀ d n, matched g c = some d → d.kind = .mmap n → waitsBehind g c d.id = false → waitsBehind g d c.id = false →
        (pairAgrees m n = true → exec (.mmapDecision core id) s =
          .next (modMatCmd (modMatCmd s wg c.id fun k => { k with pair := .paired d.id }) wg d.id fun k => { k with pair := .paired c.id })) ∧
        (pairAgrees m n = false → exec (.mmapDecision core id) s = .next (failPair s wg g c d))) ∧
      (matched g c = none → atHead g c m = true → (∀ p, s.strands.get? (partnerOf c.sid) = some p → p.ended ≠ .no ∧ p.mmaps ≤ c.index) →
        exec (.mmapDecision core id) s = .next (modMatCmd s wg c.id fun k => { k with pair := .solo }))) ∧
    (c.pair = .solo → instCancelled s (unitOf wg) = true → matWaits g c = true → copying s wg = false →
      ∃ t, exec (.matrixWordEnded core id) s = .next t ∧ (∀ g', s.wgs.get? wg = some g → t.wgs.get? wg = some g' →
        g'.tiles = g.tiles ∧ ∀ k ∈ g'.matrix.cmds, k.id ≠ c.id)) ∧
    (instCancelled s (unitOf wg) = false → exec (.matrixWordEnded core id) s = .next s) ∧
    (∀ i, under s i (unitOf wg) = true → s.wgs.get? wg = some g → matWaits g c = true →
      ∃ g', (cancelInst s i).wgs.get? wg = some g' ∧ g'.tiles = g.tiles ∧ ∀ k ∈ g'.matrix.cmds, k.id ≠ c.id))
  ∧ (∀ (m : MatFields) (a b : List Byte) (old : Nat),
      let z := if m.pair.is8 = true then 1 else 2
      let term (k : Nat) : FVal × FVal := (valueOf (pairTys m.pair).1 (fieldNat a (k * z) z), bValue m b (logicalPos m a k))
      let int8 (x : Nat) : Int := if 128 ≤ x then (x : Int) - 256 else x
      let step (acc g : Nat) : Nat := match m.pair with
        | .i8i8 => (((acc : Int) + ((List.range 32).map fun i =>
            int8 (fieldNat a (32 * g + i) 1) * int8 (fieldNat b (logicalPos m a (32 * g + i)) 1)).sum).emod (2 ^ 32)).toNat
        | _ => roundF .f32 ((decodeF .f32 acc).add (decodeF .f32 (roundF .f32
            (groupSum ((List.range 32).map fun i => term (32 * g + i))) .rn)) .rn) .rn
      productOf m a b old = (List.range (m.dims.2.2 / 32)).foldl step (if m.acc = true then old else 0) ∧
      (m.pair ≠ .bf16nq4 → ∀ l, bValue m b l = valueOf (pairTys m.pair).2 (fieldNat b (l * z) z)) ∧
      ∀ k, let places (per : Nat) : Prop := ∀ p, p < 24 →
            let mask := fieldNat a (m.dims.2.2 * z + 3 * (k / per)) 3
            mask.testBit p = true → ((List.range p).filter mask.testBit).length = k % per → logicalPos m a k = 24 * (k / per) + p
        (m.sparsity = .dense → logicalPos m a k = k) ∧ (m.sparsity = .s8 → places 8) ∧ (m.sparsity = .s16 → places 16))
  ∧ (∀ ts : List (FVal × FVal), ts ≠ [] →
      let val (x : FVal) : ℚ := match x with
        | .fin neg n d => (if neg then -1 else 1) * (n : ℚ) / d
        | _ => 0
      let finite (x : FVal) : Prop := ∃ b n d, x = .fin b n d ∧ 0 < d
      ((∀ p ∈ ts, finite p.1 ∧ finite p.2) → finite (groupSum ts) ∧ val (groupSum ts) = (ts.map fun p => val p.1 * val p.2).sum) ∧
      ((∃ p ∈ ts, p.1.mul p.2 = .nan) → groupSum ts = .nan))
  ∧ ∀ c u w : Nat, guide c u w = roundF .f32 (((decodeF .f32 w).mul (decodeF .f32 (roundF .f32
      ((decodeF .f32 c).add (decodeF .f32 u).neg .rn) .rn))).add (decodeF .f32 u) .rn) .rn

/-- 09 R262 to R266 with 05 R126, R127, R144 and R152. `moveOn` is what a committed move of the context can do after the word (05 R148). A remote edge
answers 0 with no FULL (log 88). -/
def Obligations.GraphWords : Prop :=
  (∀ (s : State) (e : Env) (g : Guard) (d a b r : SReg), Issues s e g → e.l.graphMade = false →
    let puts (t : State) (i : Instr) (v : W64) : Prop := exec i s = .next (t.after e (e.st.pc + 4) fun st => st.wr d v)
    let q := release s e.sid (some .dev)
    let counted (t : State) : State := t.modLaunch e.wg.launch fun l => { l with errors := l.errors + 1 }
    (q.2 = true → puts (counted q.1) (.gemit g d a b r) 1) ∧ puts s (.gclose g d a b) 1 ∧ puts s (.gcut g d a b) 4 ∧
    (∀ i ∈ [StatItem.sub, .late, .dup, .early, .expired, .malformed], puts s (.gstat g d a i) (-1)) ∧
    puts s (.gstat g d a .mstate) 0 ∧ puts s (.gstat g d a .mnum) 0 ∧ puts s (.gstat g d a .cut) 0 ∧ puts s (.gstat g d a .mframe) (BitVec.allOnes 64))
  ∧ (∀ (s : State) (e : Env) (g : Guard) (d a b : SReg) (c : Context), Issues s e g → e.l.graphMade = true → s.contexts.get? e.l.ctx = some c →
    let x := (e.st.rd a).toNat
    let f := (e.st.rd b).toNat
    let puts (t : State) (i : Instr) (v : W64) : Prop := exec i s = .next (t.after e (e.st.pc + 4) fun st => st.wr d v)
    let counts (i : StatItem) (n : EdgeState → W32) : Prop :=
      (∀ y, c.img.edges[x]? = some y → puts s (.gstat g d a i) ((n (c.edgeOf x)).setWidth 64)) ∧
        (c.img.edges[x]? = none → puts s (.gstat g d a i) (-1))
    (counts .sub EdgeState.sub ∧ counts .late EdgeState.late ∧ counts .dup EdgeState.dup ∧ counts .early EdgeState.early ∧
      counts .expired EdgeState.expired ∧ counts .malformed EdgeState.malformed) ∧
    (∀ p ∈ [(MoveState.idle, 0), (.proposed, 1), (.acked, 2), (.committed, 3), (.aborting, 4), (.failed, 5)], c.move.state = p.1 →
      puts s (.gstat g d a .mstate) (BitVec.ofNat 64 p.2)) ∧
    puts s (.gstat g d a .mnum) (c.move.num.signExtend 64) ∧ puts s (.gstat g d a .cut) (BitVec.ofNat 64 c.cut) ∧
    (c.move.state = .idle → puts s (.gstat g d a .mframe) (BitVec.allOnes 64)) ∧
    (c.move.state ≠ .idle → puts s (.gstat g d a .mframe) (BitVec.ofNat 64 c.move.frame)) ∧
    (let cut (n : Nat) : Prop := puts s (.gcut g d a b) (BitVec.ofNat 64 n)
     (7 < x → cut 5) ∧ (x ≤ 7 → c.img.paired = false → cut 4) ∧ (x ≤ 7 → c.img.paired = true → c.move.state ≠ .idle → cut 3) ∧
     (x ≤ 7 → c.img.paired = true → c.move.state = .idle → x = c.cut → cut 2) ∧
     (x ≤ 7 → c.img.paired = true → c.move.state = .idle → x ≠ c.cut → (∀ k, c.current = some k → f < k + 2) → cut 1) ∧
     (∀ k, x ≤ 7 → c.img.paired = true → c.move.state = .idle → x ≠ c.cut → c.current = some k → k + 2 ≤ f →
       ∃ t st c', exec (.gcut g d a b) s = .next t ∧ t.strands.get? e.sid = some st ∧ st = (e.st.wr d 0).next (e.st.pc + 4) s.cycle ∧
         t.contexts.get? e.l.ctx = some c' ∧ c'.move.state = .proposed ∧ c'.move.num = c.move.top + 1 ∧ c'.move.top = c'.move.num ∧ c'.move.config = x ∧ c'.move.frame = f ∧
         c'.cut = c.cut ∧ ∃ (p : Fin 4) (n : Nat) (gm : Datagram), (t.ports[p]).sent = (s.ports[p]).sent ++ [(n, gm)] ∧ gm.kind = 0x10 ∧ gm.frame = f)) ∧
    ∀ (s1 : State) (c1 : Context), closeDue e.l.ctx x (dueFuel s e.l.ctx x) s = .ok s1 → s1.contexts.get? e.l.ctx = some c1 → x < 256 →
      let closes (t : State) (n : Nat) : Prop := puts (moveOn t e.l.ctx) (.gclose g d a b) (BitVec.ofNat 64 n)
      (∀ y, c1.img.edges[x]? = some y →
        (y.producer ≠ e.l.node ∨ c1.mine f e.l.node = false → closes s1 1) ∧
        (y.producer = e.l.node → c1.mine f e.l.node = true →
          (c1.edgeLocal y f = true → (c1.edgeOf x).closedAt f = true → closes s1 3) ∧
          (c1.edgeLocal y f = true → (c1.edgeOf x).closedAt f = false → ringFree s1 c1 x y f = false → closes s1 5) ∧
          (∀ t, c1.edgeLocal y f = true → (c1.edgeOf x).closedAt f = false → ringFree s1 c1 x y f = true →
            closeFrame s1 e.l.ctx x f = .ok t → closes t 0) ∧
          (c1.edgeLocal y f = false → closes (if (c1.edgeOf x).codec.openFrame = f then flushEdge s1 e.l.ctx x else s1) 0))) ∧
      (c1.img.edges[x]? = none → closes s1 1))
  ∧ (∀ (s : State) (e : Env) (g : Guard) (d a b : SReg), Issues s e g → 256 ≤ (e.st.rd a).toNat →
      exec (.gclose g d a b) s = .next (s.after e (e.st.pc + 4) fun st => st.wr d 1))
  ∧ ∀ (s : State) (e : Env) (g : Guard) (d a b r : SReg), Issues s e g → e.l.graphMade = true → (release s e.sid (some .dev)).2 = true →
    let q := (release s e.sid (some .dev)).1
    let x := (e.st.rd r).toNat
    let k := x % 256
    let slot := x / 2 ^ 16 % 2 ^ 16
    let f := (e.st.rd b).toNat
    let va := (e.st.rd a).toNat
    let puts (t : State) (n : Nat) : Prop := exec (.gemit g d a b r) s = .next (t.after e (e.st.pc + 4) fun st => st.wr d (BitVec.ofNat 64 n))
    let counted (t : State) : State := t.modLaunch e.wg.launch fun l => { l with errors := l.errors + 1 }
    (x / 256 % 256 ≠ 0 ∨ x / 2 ^ 32 ≠ 0 → puts (counted q) 1) ∧
    ∀ c, q.contexts.get? e.l.ctx = some c → x / 256 % 256 = 0 → x / 2 ^ 32 = 0 →
      (c.img.edges[k]? = none → puts (counted q) 1) ∧
      ∀ y, c.img.edges[k]? = some y → (c.mine f y.producer = false → puts (counted q) 1) ∧
        (c.mine f y.producer = true →
          (2 ^ 57 ≤ va → exec (.gemit g d a b r) s = .next (faultScalar q e { code := .access, access := .read, addr := va })) ∧
          (va < 2 ^ 57 → va % 16 ≠ 0 → exec (.gemit g d a b r) s = .next (faultScalar q e { code := .align, access := .read, addr := va })) ∧
          ∀ s1 bs s2 c2, va < 2 ^ 57 → va % 16 = 0 → strandBytes e q va (32 * y.units - 16) = .ok (s1, bs) →
            closeDue e.l.ctx k (dueFuel s1 e.l.ctx k) s1 = .ok s2 → s2.contexts.get? e.l.ctx = some c2 → c2.img.edges[k]? = some y →
            let z := c2.edgeOf k
            let right := y.producer = e.l.node ∧ slot < y.slots ∧ c2.mine f e.l.node = true
            let depth := (e.l.batch.map BatchRec.depth).getD 0
            let deep := y.producer = y.consumer ∧ y.depth < depth + 1
            let here := c2.edgeLocal y f = true
            let free := ringFree s2 c2 k y f = true
            let answers (t : State) (n : Nat) : Prop := puts (moveOn t e.l.ctx) n
            (¬ right → answers (counted s2) 1) ∧ (right → deep → answers (counted s2) 2) ∧
            (right → ¬ deep → here → z.closedAt f = true → answers (counted s2) 3) ∧
            (right → ¬ deep → ¬ (here ∧ z.closedAt f = true) → ((z.frameOf f).slots.get? slot).isSome = true → answers (counted s2) 4) ∧
            (right → ¬ deep → here → z.closedAt f = false → (z.frameOf f).slots.get? slot = none → ¬ free → answers s2 5) ∧
            (right → ¬ deep → ¬ here → (z.frameOf f).slots.get? slot = none →
              answers (codecTake s2 e.l.ctx k f slot y bs) 0) ∧
            ∀ s3 s4 c3, right → ¬ deep → here → z.closedAt f = false → (z.frameOf f).slots.get? slot = none → free →
              placeRecord s2 e.l.ctx k f slot (if y.producer = y.consumer then depth + 1 else 0) bs = .ok s3 → s3.contexts.get? e.l.ctx = some c3 →
              (if y.slots ≤ ((c3.edgeOf k).frameOf f).slots.length then closeFrame s3 e.l.ctx k f else advanceEdge s3 e.l.ctx k) = .ok s4 →
              answers s4 0 ∧ ((c3.edgeOf k).frameOf f).slots.get? slot = some (if y.producer = y.consumer then depth + 1 else 0) ∧
                (c3.edgeOf k).payload? f slot = some bs)

/-- 09 R267 with 06 R175 and 08 R235; where -6 stands among the statuses is the model's (log 34), and so is what a reserved condition or
an imm8 of 64 or more answers (log 164). -/
def Obligations.PicotInstall : Prop :=
  (∀ (s : State) (e : Env) (g : Guard) (d a b : SReg) (last : Fin 32), Issues s e g → e.l.desc.priv = false →
    exec (.picins g d a b last) s = .next (faultScalar s e { code := .access }))
  ∧ (∀ (s : State) (e : Env) (g : Guard) (d a b : SReg) (last : Fin 32), Issues s e g → e.l.desc.priv = true →
    let va := (e.st.rd a).toNat
    let h := (e.st.rd b).toNat
    let puts (t : State) (v : Int) : Prop := exec (.picins g d a b last) s = .next (t.after e (e.st.pc + 4) fun st => st.wr d (BitVec.ofInt 64 v))
    let waits (s1 t : State) (table : World → Assoc Nat Picot) : Prop := exec (.picins g d a b last) s = .next t ∧
      t.strands.get? e.sid = some { e.st with wait := some (.picins d), readySince := s.cycle, promoted := false } ∧ t.mem = s1.mem ∧
      ∀ w, s1.worlds.get? e.world = some w → t.worlds.get? e.world = some { w with picots := table w }
    (va = 0 → 256 ≤ h → puts s (-6)) ∧
    (va = 0 → h < 256 → ∃ t, waits s t fun w => w.picots.erase h) ∧
    (2 ^ 57 ≤ va → exec (.picins g d a b last) s = .next (faultScalar s e { code := .access, access := .read, addr := va })) ∧
    (va < 2 ^ 57 → va % 4 ≠ 0 → exec (.picins g d a b last) s = .next (faultScalar s e { code := .align, access := .read, addr := va })) ∧
    ∀ s1 bs, va < 2 ^ 57 → va ≠ 0 → va % 4 = 0 → strandBytes e s va (4 * (last.val + 1)) = .ok (s1, bs) →
      let ps := (words32 bs).map pword
      let legal := ∀ p ∈ ps, p.legal = true
      let indexed := ∀ p ∈ ps, (∀ i ∈ p.reads, i < 56) ∧ (p.usesD = true → p.d < 56)
      let dst := ∀ p ∈ ps, p.usesD = true → ¬ (32 ≤ p.d ∧ p.d < 40)
      let ended := (ps.getLast?.map PWord.isEnd) = some true ∧ ∀ p ∈ ps.dropLast, p.isEnd = false
      let sum := (ps.map PWord.cycles).sum
      (¬ legal → puts s1 (-1)) ∧ (legal → ¬ indexed → puts s1 (-2)) ∧ (legal → indexed → ¬ dst → puts s1 (-3)) ∧
      (legal → indexed → dst → ¬ ended → puts s1 (-4)) ∧ (legal → indexed → dst → ended → 64 < sum → puts s1 (-5)) ∧
      (legal → indexed → dst → ended → sum ≤ 64 → 256 ≤ h → puts s1 (-6)) ∧
      (legal → indexed → dst → ended → sum ≤ 64 → h < 256 → ∃ t r, waits s1 t (fun w => w.picots.set h r) ∧ r.words = words32 bs ∧
        (∀ j, j < 8 → r.ni ≤ j → ∀ p ∈ ps, 32 + j ∉ p.reads) ∧ (0 < r.ni → ∃ p ∈ ps, 31 + r.ni ∈ p.reads) ∧
        (∀ j, j < 8 → r.nr ≤ j → ∀ p ∈ ps, p.usesD = true → p.d ≠ 48 + j) ∧ (0 < r.nr → ∃ p ∈ ps, p.usesD = true ∧ p.d = 47 + r.nr)))
  ∧ ∀ (s : State) (e : Env) (d : SReg), s.env? e.sid = some e → mayResume e = true → e.st.wait = some (.picins d) →
      exec (.picinsComplete e.sid) s = .next (s.after e (e.st.pc + 4) fun st => st.wr d 0)

/-- 06 R158 and R163, 08 R214, 01 R33 to R35 and R38; the restart after a failed fetch and the wait of a lasting word are logs 24 and 129. 02 R48: the tag of
a pair is log 152's. A 64-bit operand reads a special register zero-extended by log 17. A mask word with nowb names no mask (log 72). -/
def Obligations.VectorWordChecks : Prop :=
  (∀ x ∈ vectorWords, ∀ (s : State) (w : VWord) (c : VCtx), s.vctx? x.1 w = some c →
    let faults (f : Flt) : Prop := (c.olderLoads = [] → exec (x.2 w) s = .next (c.takeFault s f)) ∧
      (c.olderLoads ≠ [] → exec (x.2 w) s = .next (s.modStrand c.e.sid fun st => { st with vecSince := s.cycle, vecPromoted := false }))
    let raises (k : Code) : Prop := faults { code := k }
    (c.restarts = true → exec (x.2 w) s = .next (c.dropChain s c.chain.first)) ∧
    (c.restarts = false → c.chainOk = false → raises .illegalInstr) ∧
    (c.restarts = false → c.chainOk = true → c.namesOk = false → raises .illegalOperand) ∧
    (c.restarts = false → c.chainOk = true → c.namesOk = true → c.activeMask = 0 →
      AnswersV s (x.2 w) c (fun _ => 0) fun st => { st with slots := c.st.slots } = c.st) ∧
    (c.restarts = false → c.chainOk = true → c.namesOk = true → c.activeMask ≠ 0 → regTagsOk s c.e = false → raises .world) ∧
    (c.restarts = false → c.chainOk = true → c.namesOk = true → c.activeMask ≠ 0 → regTagsOk s c.e = true →
      let waits : Prop := c.outstanding = true ∨ (c.lasting = true ∧ c.st.returns ≠ [])
      (waits → exec (x.2 w) s = .next (s.modStrand c.e.sid fun st => { st with vecSince := s.cycle, vecPromoted := false })) ∧
      (¬ waits → (∃ p ∈ c.st.badRegs, p.1 ∈ c.regsRead ∧ c.lanesRead.getLsbD p.2 = true) →
        ∃ m : W32, faults { code := .poison, lanes := m } ∧
          ∀ l : Lane, laneBit m l = true ↔ c.lanesRead.getLsbD l.val = true ∧ ∃ p ∈ c.st.badRegs, p.1 ∈ c.regsRead ∧ p.2 = l.val)))
  ∧ (∀ (s : State) (c : VCtx) (t : Ty) (l : Lane) (i : Fin 128),
      (t.wide = false → c.read s t (.reg i) l = (c.st.vlane i.val l).toNat % 2 ^ t.bits) ∧
      (t.wide = true → c.read s t (.reg i) l = (c.st.vlane i.val l).toNat + 2 ^ 32 * (c.st.vlane (i.val + 1) l).toNat) ∧
      (∀ r, c.chain.latches[i.val]? = some r → t.wide = false → c.read s t (.latch i) l = (r.reg.lane l).toNat % 2 ^ t.bits) ∧
      (∀ j : Fin 8, i.val = j.val → c.read s t (.special i) l = (c.blk.ks[j]).toNat % 2 ^ t.bits) ∧
      (∀ v n, 8 ≤ i.val → special s c.e i.val = some (v, n) → c.read s t (.special i) l = v % 2 ^ 32 % 2 ^ t.bits) ∧
      c.read s .i64 .imm l = (c.w.imm.signExtend 64).toNat ∧ (t ≠ .i64 → c.read s t .imm l = c.w.imm.toNat % 2 ^ t.bits) ∧
      (t.wide = false → c.tagOf t (.reg i) = c.st.vtag i.val) ∧
      (t.wide = true → c.st.vtag i.val = .u → c.st.vtag (i.val + 1) = .u → c.tagOf t (.reg i) = .u) ∧
      (t.wide = true → ¬ (c.st.vtag i.val = .u ∧ c.st.vtag (i.val + 1) = .u) → c.tagOf t (.reg i) = .g) ∧
      (∀ r, c.chain.latches[i.val]? = some r → c.tagOf t (.latch i) = r.tag) ∧ c.tagOf t (.special i) = .u ∧ c.tagOf t .imm = .u)
  ∧ ∀ (op : Nat) (t : Ty) (ts : List Tag),
      let differs := op ∈ [0x60, 0x62, 0x64, 0x68, 0x6A, 0x65, 0x67, 0x70, 0x53, 0x50, 0x54, 0x91, 0x90, 0x95]
      let affine := (t = .i32 ∨ t = .w32) ∧ ((op = 0x01 ∨ op = 0x02) ∧ (∃ x y, ts = [x, y] ∧ x ≠ .g ∧ y ≠ .g) ∨
        op = 0x0D ∧ ts = [.a, .u] ∨ op = 0x03 ∧ (ts = [.a, .u] ∨ ts = [.u, .a]))
      (differs → resultTag op t ts = .g) ∧ (¬ differs → (∀ x ∈ ts, x = .u) → resultTag op t ts = .u) ∧
      (¬ (∀ x ∈ ts, x = .u) → affine → resultTag op t ts = .a) ∧ (¬ differs → ¬ (∀ x ∈ ts, x = .u) → ¬ affine → resultTag op t ts = .g)

/-- 08 R213 to R216. Zeros in VIDX's latch where the guard does not select are the model's reading of 01 R34 (log 73), tags of values that saturate
log 16's. -/
def Obligations.VectorIntegerResults : Prop :=
  let int (t : Ty) (x : Nat) : Int := if t.signed = true ∧ 2 ^ (t.bits - 1) ≤ x then (x : Int) - 2 ^ t.bits else x
  let top (t : Ty) (x : Nat) : Int := if 2 ^ (t.bits - 1) ≤ x then (x : Int) - 2 ^ t.bits else x
  let wrap (n : Nat) (r : Int) : Nat := (r.emod (2 ^ n)).toNat
  let clamp (t : Ty) (r : Int) : Int :=
    if t.signed = true then max (-2 ^ (t.bits - 1)) (min (2 ^ (t.bits - 1) - 1) r) else max 0 (min (2 ^ t.bits - 1) r)
  let writes (op : Nat) (i : VWord → Instr) (f : VWord → Nat → Nat → Nat → Nat) : Prop :=
    ∀ (s : State) (w : VWord) (c : VCtx), IssuesV s op w c → LaneAnswer s (i w) c w.ty fun l => f w (c.rdA s l) (c.rdB s l) (c.rdC s l)
  let exact (op : Nat) (i : VWord → Instr) (f : Int → Int → Int) : Prop :=
    writes op i fun w x y _ => wrap w.ty.bits (if w.mbit 2 = true then clamp w.ty (f (int w.ty x) (int w.ty y)) else f (int w.ty x) (int w.ty y))
  (∀ (s : State) (w : VWord) (c : VCtx), IssuesV s 0x00 w c → AnswersV s (.vnop w) c (fun _ => 0) fun st => { st with slots := c.st.slots } = c.st)
  ∧ exact 0x01 .vadd (fun x y => x + y) ∧ exact 0x02 .vsub (fun x y => x - y) ∧ exact 0x03 .vmul (fun x y => x * y)
  ∧ writes 0x04 .vmulh (fun w x y _ => wrap 32 (int w.ty x * int w.ty y / 2 ^ 32))
  ∧ writes 0x05 .vmad (fun _ x y z => (x * y + z) % 2 ^ 32)
  ∧ writes 0x06 .vmin (fun w x y _ => if int w.ty x ≤ int w.ty y then x else y)
  ∧ writes 0x07 .vmax (fun w x y _ => if int w.ty x ≤ int w.ty y then y else x)
  ∧ writes 0x08 .vabs (fun w x _ _ => if int w.ty x < 0 then wrap w.ty.bits (- int w.ty x) else x)
  ∧ writes 0x09 .vand (fun _ x y _ => x &&& y) ∧ writes 0x0A .vor (fun _ x y _ => x ||| y) ∧ writes 0x0B .vxor (fun _ x y _ => x ^^^ y)
  ∧ writes 0x0C .vnot (fun w x _ _ => 2 ^ w.ty.bits - 1 - x)
  ∧ writes 0x0D .vshl (fun w x y _ => x * 2 ^ (y % w.ty.bits) % 2 ^ w.ty.bits)
  ∧ writes 0x0E .vshr (fun w x y _ => x / 2 ^ (y % w.ty.bits))
  ∧ writes 0x0F .vsra (fun w x y _ => wrap w.ty.bits (top w.ty x / 2 ^ (y % w.ty.bits)))
  ∧ (∀ (s : State) (w : VWord) (c : VCtx), IssuesV s 0x10 w c → w.ty.bits = 32 →
      LaneAnswer s (.vclz w) c w.ty fun l => if c.rdA s l = 0 then 32 else 31 - Nat.log2 (c.rdA s l))
  ∧ writes 0x11 .vpopc (fun _ x _ _ => ((List.range 32).filter fun k => x.testBit k).length)
  ∧ writes 0x12 .vbfe (fun w x y z =>
      let o := y % 32
      let n := min (z % 64) (32 - o)
      let field := x / 2 ^ o % 2 ^ n
      if n = 0 then 0 else if w.ty.signed = true ∧ 2 ^ (n - 1) ≤ field then field + 2 ^ 32 - 2 ^ n else field)
  ∧ (∀ (s : State) (w : VWord) (c : VCtx), IssuesV s 0x13 w c → LaneAnswer s (.vbfi w) c w.ty (fun l =>
      let old := (c.st.vlane w.dst.val l).toNat
      let o := c.rdB s l % 32
      let n := min (c.rdC s l % 64) (32 - o)
      old - old / 2 ^ o % 2 ^ n * 2 ^ o + c.rdA s l % 2 ^ n * 2 ^ o) [c.st.vtag w.dst.val])
  ∧ writes 0x14 .vmov (fun _ x _ _ => x)
  ∧ (∀ (s : State) (w : VWord) (c : VCtx), IssuesV s 0x15 w c →
      let m := c.mask (Fin.ofNat 16 (w.mod.toNat / 2 ^ 5))
      LaneAnswer s (.vsel w) c w.ty (fun l => if laneBit m l = true then c.rdA s l else c.rdB s l)
        [if m = 0 ∨ m = BitVec.allOnes 32 then .u else .g])
  ∧ ∀ (s : State) (w : VWord) (c : VCtx), IssuesV s 0x16 w c →
      let f (l : Lane) : W32 := BitVec.ofNat 32 (c.rdA s 0 + l.val * c.rdB s 0)
      WholeAnswer s (.vidx w) c (fun l => if c.active l then f l else 0) f .a

/-- 08 R217 and R218 with 02 R56 to R60. The transcendental functions are bounded; how their results round where two fixed-point bounds
disagree is free (log 10). -/
def Obligations.VectorFloatResults : Prop :=
  let inp (w : VWord) (abs neg : Bool) (x : Nat) : FVal :=
    let v := decodeF (fmtOfTy w.ty) x
    let v := if abs = true then v.abs else v
    if neg = true then v.neg else v
  let val (x : FVal) : ℚ := match x with
    | .fin neg n d => (if neg then -1 else 1) * (n : ℚ) / d
    | _ => 0
  let finite (x : FVal) : Prop := ∃ b n d, x = .fin b n d ∧ 0 < d
  let mode (w : VWord) : RMode := rmodeOf (w.mod.toNat % 4)
  let sat (w : VWord) (r : Nat) : Nat := if w.mod.getLsbD 2 = true then (match decodeF (fmtOfTy w.ty) r with
    | .inf neg => (fmtOfTy w.ty).maxBits + (fmtOfTy w.ty).signBit neg
    | _ => r) else r
  let writes (op : Nat) (i : VWord → Instr) (f : VWord → FVal → FVal → FVal → Nat) : Prop :=
    ∀ (s : State) (w : VWord) (c : VCtx), IssuesV s op w c → w.ty = .f32 ∨ w.ty = .f16 ∨ w.ty = .bf16 →
      LaneAnswer s (i w) c w.ty fun l => sat w (f w (inp w (w.mod.getLsbD 4) (w.mod.getLsbD 3) (c.rdA s l))
        (inp w false (w.mod.getLsbD 8) (c.rdB s l)) (inp w false (w.mod.getLsbD 9) (c.rdC s l)))
  let rounds (op : Nat) (i : VWord → Instr) (f : RMode → FVal → FVal → FVal → FVal) : Prop :=
    writes op i fun w x y z => roundF (fmtOfTy w.ty) (f (mode w) x y z) (mode w)
  rounds 0x20 .vfadd (fun m x y _ => x.add y m) ∧ rounds 0x21 .vfsub (fun m x y _ => x.add y.neg m) ∧ rounds 0x22 .vfmul (fun _ x y _ => x.mul y)
  ∧ rounds 0x23 .vfma (fun m x y z => (x.mul y).add z m) ∧ rounds 0x24 .vfmin (fun _ x y _ => x.min y) ∧ rounds 0x25 .vfmax (fun _ x y _ => x.max y)
  ∧ rounds 0x26 .vfrcp (fun _ x _ _ => (FVal.fin false 1 1).div x) ∧ rounds 0x27 .vfrsq (fun _ x _ _ => x.rsqrt)
  ∧ rounds 0x28 .vfsqrt (fun _ x _ _ => x.sqrt) ∧ rounds 0x2D .vfdiv (fun _ x y _ => x.div y)
  ∧ writes 0x29 .vfexp2 (fun w x _ _ => exp2F (fmtOfTy w.ty) x (mode w)) ∧ writes 0x2A .vflog2 (fun w x _ _ => log2F (fmtOfTy w.ty) x (mode w))
  ∧ writes 0x2B .vfsin (fun w x _ _ => sinPiF (fmtOfTy w.ty) x (mode w)) ∧ writes 0x2C .vfcos (fun w x _ _ => cosPiF (fmtOfTy w.ty) x (mode w))
  ∧ (∀ (b b' : Bool) (n d n' d' : Nat) (m : RMode), 0 < n → 0 < d →
      (FVal.fin false 1 1).div (.fin b 0 d) = .inf b ∧ (FVal.fin false 1 1).div (.inf b) = .fin b 0 1 ∧
      FVal.rsqrt (.fin b 0 d) = .inf b ∧ FVal.rsqrt (.fin true n d) = .nan ∧ FVal.rsqrt (.inf false) = .fin false 0 1 ∧
      FVal.sqrt (.fin b 0 d) = .fin b 0 1 ∧ FVal.sqrt (.fin true n d) = .nan ∧ FVal.sqrt (.inf false) = .inf false ∧
      exp2F .f32 (.inf true) m = 0 ∧ exp2F .f32 (.inf false) m = 0x7F800000 ∧
      log2F .f32 (.fin b 0 d) m = 0xFF800000 ∧ log2F .f32 (.fin true n d) m = 0x7FC00000 ∧ log2F .f32 (.inf false) m = 0x7F800000 ∧
      log2F .f32 (.fin false n n) m = 0 ∧
      sinPiF .f32 (.inf b) m = 0x7FC00000 ∧ sinPiF .f32 (.fin b (n * d) d) m = (if b = true then 0x80000000 else 0) ∧
      cosPiF .f32 (.inf b) m = 0x7FC00000 ∧ cosPiF .f32 (.fin b ((2 * n + 1) * d) (2 * d)) m = 0 ∧
      (FVal.fin b 0 d).div (.fin b' 0 d') = .nan ∧ (FVal.inf b).div (.inf b') = .nan ∧ (FVal.fin b n d).div (.fin b' 0 d') = .inf (b != b') ∧
      FVal.nan.min (.fin b n d) = .fin b n d ∧ (FVal.fin b n d).max .nan = .fin b n d ∧ FVal.nan.min .nan = .nan ∧
      (FVal.fin true 0 d).min (.fin false 0 d) = .fin true 0 d ∧ (FVal.fin true 0 d).max (.fin false 0 d) = .fin false 0 d ∧
      (FVal.inf b).add (.inf (!b)) m = .nan ∧ (FVal.inf b).mul (.fin b' 0 d') = .nan ∧ FVal.nan.add (.fin b n' d') m = .nan)
  ∧ (∀ (f : FFmt) (m : RMode) (sat : Bool), roundF f .nan m sat = f.canonicalNaN)
  ∧ (∀ (a b : Bool) (n d k e : Nat) (m : RMode), 0 < d → 0 < e →
      let x := FVal.fin a n d
      let y := FVal.fin b k e
      (finite (x.add y m) ∧ val (x.add y m) = val x + val y ∧
        (val x + val y = 0 → (x.add y m).sign = if n = 0 ∧ k = 0 ∧ a = b then a else decide (m = .rd))) ∧
      (finite (x.mul y) ∧ val (x.mul y) = val x * val y ∧ (x.mul y).sign = (a != b)) ∧
      (0 < k → finite (x.div y) ∧ val (x.div y) = val x / val y ∧ (x.div y).sign = (a != b)))
  ∧ (∀ (x y : Nat) (m : RMode), x < 2 ^ 32 → y < 2 ^ 32 → finite (decodeF .f32 x) → finite (decodeF .f32 y) → 0 < val (decodeF .f32 x) →
      0 ≤ val (decodeF .f32 y) →
      let X := val (decodeF .f32 x)
      let Y := val (decodeF .f32 y)
      let r := val (decodeF .f32 (roundF .f32 (decodeF .f32 x).sqrt m))
      let q := val (decodeF .f32 (roundF .f32 (decodeF .f32 x).rsqrt m))
      0 ≤ r ∧ 0 ≤ q ∧
      (m = .rn → (r < Y → 4 * X ≤ (r + Y) ^ 2) ∧ (Y < r → (r + Y) ^ 2 ≤ 4 * X) ∧
        (q < Y → 4 ≤ (q + Y) ^ 2 * X) ∧ (Y < q → (q + Y) ^ 2 * X ≤ 4)) ∧
      (m = .rz ∨ m = .rd → r ^ 2 ≤ X ∧ (Y ^ 2 ≤ X → Y ≤ r) ∧ q ^ 2 * X ≤ 1 ∧ (Y ^ 2 * X ≤ 1 → Y ≤ q)) ∧
      (m = .ru → X ≤ r ^ 2 ∧ (X ≤ Y ^ 2 → r ≤ Y) ∧ 1 ≤ q ^ 2 * X ∧ (1 ≤ Y ^ 2 * X → q ≤ Y)))
  ∧ ∀ (x : Nat) (m : RMode), x < 2 ^ 32 → finite (decodeF .f32 x) →
      let v := decodeF .f32 x
      let X := val v
      (-126 ≤ ⌊X⌋ → ⌊X⌋ < 127 → let r := val (decodeF .f32 (exp2F .f32 v m))
        (2 : ℚ) ^ ⌊X⌋ ≤ r ∧ r ≤ 2 ^ (⌊X⌋ + 1) ∧ (X = ⌊X⌋ → r = 2 ^ ⌊X⌋)) ∧
      (∀ e : ℤ, (2 : ℚ) ^ e ≤ X → X < 2 ^ (e + 1) → let r := val (decodeF .f32 (log2F .f32 v m))
        e ≤ r ∧ r ≤ e + 1 ∧ (X = 2 ^ e → r = e)) ∧
      ∀ p ∈ [(sinPiF .f32 v m, (0 : ℚ)), (cosPiF .f32 v m, 1 / 2)],
        let Y := X + p.2
        let near := min (Y - ⌊Y⌋) (⌊Y⌋ + 1 - Y)
        let r := (if ⌊Y⌋ % 2 = 0 then 1 else -1) * val (decodeF .f32 p.1)
        near / 2 ≤ r ∧ r ≤ 8 * near

/-- 02 R59. BF16 has a range of its own (R56) and is not of this statement but for patterns that are not subnormal. -/
def Obligations.RoundToFormat : Prop :=
  let val (x : FVal) : ℚ := match x with
    | .fin neg n d => (if neg then -1 else 1) * (n : ℚ) / d
    | _ => 0
  let finite (x : FVal) : Prop := ∃ b n d, x = .fin b n d
  (∀ (f : FFmt) (neg : Bool) (n d : Nat) (m : RMode), f ≠ .bf16 → 0 < d →
    let x := val (.fin neg n d)
    |x| ≤ val (decodeF f f.maxBits) →
      let r := roundF f (.fin neg n d) m
      let v := val (decodeF f r)
      finite (decodeF f r) ∧ r < 2 ^ f.width ∧
      ∀ w, w < 2 ^ f.width → finite (decodeF f w) →
        let y := val (decodeF f w)
        (m = .rn → |v - x| ≤ |y - x| ∧ (|v - x| = |y - x| → v ≠ y → r % 2 = 0)) ∧
        (m = .rz → |v| ≤ |x| ∧ (|y| ≤ |x| → |y| ≤ |v|)) ∧
        (m = .ru → x ≤ v ∧ (x ≤ y → v ≤ y)) ∧
        (m = .rd → v ≤ x ∧ (y ≤ x → y ≤ v)))
  ∧ ∀ (f : FFmt) (w : Nat) (m : RMode), w < 2 ^ f.width → decodeF f w ≠ .nan → f ≠ .bf16 ∨ w / 2 ^ 7 % 2 ^ 8 ≠ 0 →
      roundF f (decodeF f w) m = w

/-- 08 R219 to R221 with 02 R62 and R64. -/
def Obligations.VectorConversionResults : Prop :=
  let int (t : Ty) (x : Nat) : Int := if t.signed = true ∧ 2 ^ (t.bits - 1) ≤ x then (x : Int) - 2 ^ t.bits else x
  let wrap (n : Nat) (r : Int) : Nat := (r.emod (2 ^ n)).toNat
  let clamp (t : Ty) (r : Int) : Int :=
    if t.signed = true then max (-2 ^ (t.bits - 1)) (min (2 ^ (t.bits - 1) - 1) r) else max 0 (min (2 ^ t.bits - 1) r)
  let isFloat (t : Ty) : Prop := t = .f32 ∨ t = .f16 ∨ t = .bf16 ∨ t = .e4m3 ∨ t = .e5m2
  let mode (w : VWord) : RMode := rmodeOf (w.mod.toNat % 4)
  let sat (w : VWord) : Bool := w.mod.getLsbD 2
  let src (w : VWord) : Ty := w.srcTy.getD .w32
  -- 02 R59 and 08 R219 into an integer type
  let toInt (t : Ty) (x : FVal) (m : RMode) (sat : Bool) : Nat :=
    let via : Ty := if sat = true ∨ 32 ≤ t.bits then t else if t.signed = true then .i32 else .w32
    match x with
    | .nan => 0
    | .inf neg => wrap t.bits (if neg then (if via.signed = true then -2 ^ (via.bits - 1) else 0)
        else (if via.signed = true then 2 ^ (via.bits - 1) - 1 else 2 ^ via.bits - 1))
    | .fin neg n d => wrap t.bits (clamp via ((if neg then -1 else 1) * (roundNat neg n d m : Int)))
  let cvt (w : VWord) (x : Nat) : Nat :=
    let v : FVal := if src w = .nq4 then codebookVal x else
      if src w = .f32 ∨ src w = .f16 ∨ src w = .bf16 ∨ src w = .e4m3 ∨ src w = .e5m2 then decodeF (fmtOfTy (src w)) x else FVal.ofInt (int (src w) x)
    if w.ty = .f32 ∨ w.ty = .f16 ∨ w.ty = .bf16 ∨ w.ty = .e4m3 ∨ w.ty = .e5m2 then roundF (fmtOfTy w.ty) v (mode w) (sat w)
    else if src w = .f32 ∨ src w = .f16 ∨ src w = .bf16 ∨ src w = .e4m3 ∨ src w = .e5m2 then toInt w.ty v (mode w) (sat w)
    else wrap w.ty.bits (if sat w = true then clamp w.ty (int (src w) x) else int (src w) x)
  (∀ (s : State) (w : VWord) (c : VCtx), IssuesV s 0x30 w c → w.ty ≠ .nq4 → src w ≠ .nq4 → LaneAnswer s (.vcvt w) c w.ty fun l => cvt w (c.rdA s l))
  ∧ (∀ (s : State) (w : VWord) (c : VCtx), IssuesV s 0x31 w c → src w ≠ .nq4 →
      (w.ty.bits = 16 → LaneAnswer s (.vpack w) c .w32 fun l => cvt w (c.rdA s l) % 2 ^ 16 + 2 ^ 16 * (cvt w (c.rdB s l) % 2 ^ 16)) ∧
      (w.ty.bits = 8 → LaneAnswer s (.vpack w) c .w32 fun l =>
        let o := 8 * (c.rdC s l % 4)
        c.rdB s l - c.rdB s l / 2 ^ o % 2 ^ 8 * 2 ^ o + cvt w (c.rdA s l) % 2 ^ 8 * 2 ^ o) ∧
      (w.ty = .nq4 → LaneAnswer s (.vpack w) c .w32 fun l =>
        let o := 4 * (c.rdC s l % 8)
        c.rdB s l - c.rdB s l / 2 ^ o % 2 ^ 4 * 2 ^ o + c.rdA s l % 2 ^ 4 * 2 ^ o))
  ∧ (∀ (s : State) (w : VWord) (c : VCtx), IssuesV s 0x32 w c → w.ty ≠ .nq4 → (src w).bits = 16 ∨ (src w).bits = 8 ∨ (src w = .nq4 ∧ isFloat w.ty) →
      LaneAnswer s (.vunpk w) c w.ty fun l => cvt w (c.rdA s l / 2 ^ ((src w).bits * (c.rdB s l % (32 / (src w).bits))) % 2 ^ (src w).bits))
  ∧ (∀ (s : State) (w : VWord) (c : VCtx), IssuesV s 0x32 w c → w.ty = .w32 → src w = .nq4 →
      LaneAnswer s (.vunpk w) c .w32 fun l => c.rdA s l / 2 ^ (4 * (c.rdB s l % 8)) % 16)
  ∧ (∀ (s : State) (w : VWord) (c : VCtx), IssuesV s 0x33 w c → LaneAnswer s (.vqnq4 w) c .w32 fun l =>
      nq4Code (decodeF .f32 (c.rdA s l)) (c.rdB s l % 256) (decodeF .f32 (c.rdC s l)))
  ∧ (∀ (s : State) (w : VWord) (c : VCtx), IssuesV s 0x34 w c → LaneAnswer s (.vdq w) c w.ty fun l =>
      roundF (fmtOfTy w.ty) (decodeF .f32 (nq4Element (c.rdA s l % 16) (c.rdB s l % 256) (BitVec.ofNat 32 (c.rdC s l)))) (mode w))
  ∧ (∀ (x sc : FVal) (q : Nat), nq4Code x q sc < 16 ∧ (x = .nan ∨ sc = .nan ∨ q = 0 ∨ (∃ b, sc = .inf b) ∨ (∃ b d, sc = .fin b 0 d) → nq4Code x q sc = 7))
  ∧ (∀ (bx bs : Bool) (n d a b q k : Nat), 0 < d → 0 < a → 0 < b → 0 < q → k < 16 →
      let f : ℚ := (q : ℚ) * ((if bs then -1 else 1) * a / b) / 255
      let x : ℚ := (if bx then -1 else 1) * n / d
      let book (c : Nat) : ℚ := (codebook.getD c 0 : ℚ) / 16384
      let best := nq4Code (.fin bx n d) q (.fin bs a b)
      |book best * f - x| ≤ |book k * f - x| ∧ (|book best * f - x| = |book k * f - x| → |book best| ≤ |book k|))
  ∧ (∀ (bx bs : Bool) (a b q : Nat), 0 < a → 0 < b → 0 < q → nq4Code (.inf bx) q (.fin bs a b) = if bx = bs then 15 else 0)
  ∧ ∀ (c q : Nat) (s : W32), nq4Element c q s =
      roundF .f32 ((((codebookVal c).mul (.fin false q 1)).mul (decodeF .f32 s.toNat)).div (.fin false 255 1)) .rn

/-- 08 R222 to R228 with 02 R69 and 06 R161. That lane 0 of an inclusive scan passes its own value on is the model's reading (log 75); what nowb
keeps of masks and slots is log 72's, the tag of a mask word's latch log 128's. -/
def Obligations.MasksVotesAndLanes : Prop :=
  let int (t : Ty) (x : Nat) : Int := if t.signed = true ∧ 2 ^ (t.bits - 1) ≤ x then (x : Int) - 2 ^ t.bits else x
  let top (t : Ty) (x : Nat) : Int := if 2 ^ (t.bits - 1) ≤ x then (x : Int) - 2 ^ t.bits else x
  let lt (t : Ty) (x y : Nat) : Bool := (decodeF (fmtOfTy t) x).lt (decodeF (fmtOfTy t) y)
  let eq (t : Ty) (x y : Nat) : Bool := (decodeF (fmtOfTy t) x).eq (decodeF (fmtOfTy t) y)
  let sets (k : Cond) (f : Ty → Nat → Nat → Bool) (float : Bool) : Prop :=
    ∀ (s : State) (w : VWord) (c : VCtx), IssuesV s 0x40 w c → condOf (w.mod.toNat / 2 ^ 4 % 2 ^ 5) = some k → w.ty.isFloat = float →
      MaskAnswer s (.vsetm w) c fun l => f w.ty (c.rdA s l) (c.rdB s l)
  let bit (c : VCtx) (o : Operand) (l : Lane) : Bool := match o with
    | .reg i => laneBit (c.mask (Fin.ofNat 16 i.val)) l
    | _ => false
  -- the tag of a mask read: U where it selects every lane or none
  let mtag (c : VCtx) (o : Operand) : Tag := match o with
    | .reg i => if c.mask (Fin.ofNat 16 i.val) = 0 ∨ c.mask (Fin.ofNat 16 i.val) = BitVec.allOnes 32 then .u else .g
    | _ => .u
  let masks (op : Nat) (i : VWord → Instr) (f : Bool → Bool → Bool) : Prop :=
    ∀ (s : State) (w : VWord) (c : VCtx), IssuesV s op w c → MaskAnswer s (i w) c (fun l => f (bit c w.a l) (bit c w.b l))
      (mtag c w.a :: if op = 0x44 then [] else [mtag c w.b])
  let votes (c : VCtx) (l : Lane) : Bool := c.active l && !laneBit c.st.helpers l
  (sets .eq (fun _ x y => decide (x = y)) false ∧ sets .ne (fun _ x y => decide (x ≠ y)) false
    ∧ sets .lt (fun t x y => decide (top t x < top t y)) false ∧ sets .le (fun t x y => decide (top t x ≤ top t y)) false
    ∧ sets .gt (fun t x y => decide (top t y < top t x)) false ∧ sets .ge (fun t x y => decide (top t y ≤ top t x)) false
    ∧ sets .lo (fun _ x y => decide (x < y)) false ∧ sets .ls (fun _ x y => decide (x ≤ y)) false
    ∧ sets .hi (fun _ x y => decide (y < x)) false ∧ sets .hs (fun _ x y => decide (y ≤ x)) false
    ∧ sets .feq eq true ∧ sets .fne (fun t x y => !eq t x y) true ∧ sets .flt lt true ∧ sets .fle (fun t x y => lt t x y || eq t x y) true
    ∧ sets .fgt (fun t x y => lt t y x) true ∧ sets .fge (fun t x y => lt t y x || eq t x y) true
    ∧ sets .fun (fun t x y => decide (decodeF (fmtOfTy t) x = .nan) || decide (decodeF (fmtOfTy t) y = .nan)) true)
  ∧ masks 0x41 .vmand and ∧ masks 0x42 .vmor or ∧ masks 0x43 .vmxor xor ∧ masks 0x44 .vmnot (fun x _ => !x)
  ∧ (∀ (s : State) (w : VWord) (c : VCtx), IssuesV s 0x45 w c → ∃ v : W32, (∀ l, laneBit v l = (votes c l && bit c w.a l)) ∧
      SlotAnswer s (.vballot w) c (v.setWidth 64))
  ∧ (∀ (s : State) (w : VWord) (c : VCtx), IssuesV s 0x46 w c →
      ((∃ l, votes c l = true ∧ bit c w.a l = true) → SlotAnswer s (.vany w) c 1) ∧
      ((∀ l, votes c l = true → bit c w.a l = false) → SlotAnswer s (.vany w) c 0))
  ∧ (∀ (s : State) (w : VWord) (c : VCtx), IssuesV s 0x47 w c →
      ((∃ l, votes c l = true ∧ bit c w.a l = false) → SlotAnswer s (.vall w) c 0) ∧
      ((∀ l, votes c l = true → bit c w.a l = true) → SlotAnswer s (.vall w) c 1))
  ∧ (∀ (s : State) (w : VWord) (c : VCtx), IssuesV s 0x50 w c → LaneAnswer s (.vshfl w) c w.ty fun l =>
      let k := c.rdB s l % 32
      c.rdA s (match w.mod.toNat / 2 ^ 5 % 4 with
        | 0 => Fin.ofNat 32 k
        | 1 => if k ≤ l.val then Fin.ofNat 32 (l.val - k) else l
        | 2 => if l.val + k ≤ 31 then Fin.ofNat 32 (l.val + k) else l
        | _ => Fin.ofNat 32 (l.val ^^^ k)))
  ∧ (∀ (s : State) (w : VWord) (c : VCtx) (l0 : Lane), IssuesV s 0x51 w c → c.active l0 = true → (∀ l, l < l0 → c.active l = false) →
      let v : W32 := BitVec.ofNat 32 (c.rdA s (Fin.ofNat 32 (c.rdB s l0)))
      WholeAnswer s (.vbcast w) c (fun _ => v) fun _ => v)
  ∧ (∀ (s : State) (w : VWord) (c : VCtx), IssuesV s 0x54 w c → w.mod.toNat / 2 ^ 5 % 4 < 3 → LaneAnswer s (.vqswap w) c w.ty fun l =>
      c.rdA s (Fin.ofNat 32 (l.val ^^^ (w.mod.toNat / 2 ^ 5 % 4 + 1))))
  ∧ ∀ (s : State) (w : VWord) (c : VCtx), w.ty.isFloat = true ∨ w.ty = .i32 ∨ w.ty = .w32 →
      let op := w.mod.toNat / 2 ^ 5 % 2 ^ 4
      op < (if w.ty.isFloat = true then 3 else 6) →
      let f := fmtOfTy w.ty
      let m := rmodeOf (w.mod.toNat % 4)
      let step (x y : Nat) : Nat :=
        if w.ty.isFloat = true then
          (match op with
            | 0 => roundF f ((decodeF f x).add (decodeF f y) m) m
            | 1 => roundF f ((decodeF f x).min (decodeF f y)) m
            | _ => roundF f ((decodeF f x).max (decodeF f y)) m)
        else match op with
          | 0 => (x + y) % 2 ^ 32
          | 1 => if int w.ty y < int w.ty x then y else x
          | 2 => if int w.ty x < int w.ty y then y else x
          | 3 => x &&& y
          | 4 => x ||| y
          | _ => x ^^^ y
      let ident : Nat := match w.ty, op with
        | .f32, 0 => 0x80000000 | .f32, 1 => 0x7F800000 | .f32, _ => 0xFF800000
        | .f16, 0 => 0x8000 | .f16, 1 => 0x7C00 | .f16, _ => 0xFC00
        | .bf16, 0 => 0x8000 | .bf16, 1 => 0x7F80 | .bf16, _ => 0xFF80
        | .i32, 1 => 0x7FFFFFFF | .i32, 2 => 0x80000000 | .w32, 1 => 0xFFFFFFFF
        | _, 3 => 0xFFFFFFFF | _, _ => 0
      let enters (l : Nat) : Nat := if c.active (Fin.ofNat 32 l) = true then c.rdA s (Fin.ofNat 32 l) else ident
      let half (k : Nat) (v : Nat → Nat) (l : Nat) : Nat := step (v l) (v (l + k))
      let all := half 1 (half 2 (half 4 (half 8 (half 16 enters)))) 0
      let upTo (l : Nat) : Nat := (List.range l).foldl (fun acc k => step acc (enters (k + 1))) (enters 0)
      (IssuesV s 0x52 w c → SlotAnswer s (.vredx w) c (if w.ty = .i32 then (BitVec.ofNat 32 all).signExtend 64 else BitVec.ofNat 64 all)) ∧
      (IssuesV s 0x53 w c → w.mod.getLsbD 9 = false → LaneAnswer s (.vscan w) c w.ty fun l => upTo l.val) ∧
      (IssuesV s 0x53 w c → w.mod.getLsbD 9 = true → LaneAnswer s (.vscan w) c w.ty fun l => if l.val = 0 then ident else upTo (l.val - 1))

/-- 08 R214, R229 to R231 and R236, 01 R38, 03 R77. What a plain load may take from L1 instead is 03 R74's choice (log 6); that a raw page has no
region to lie in, so that no ACCESS comes of an address below one, is log 76's, and that B of VLDF is read in 32 bits log 153's. -/
def Obligations.VectorLoadResults : Prop :=
  (∀ (s : State) (w : VWord) (c : VCtx) (pa : Lane → Nat),
    let va (l : Lane) : Nat := (c.rdA s l + (w.imm.signExtend 64).toNat) % 2 ^ 64
    let n := w.ty.bits / 8
    let at' (l : Lane) (k : Nat) : Nat := leNat ((s.mem.view c.e.die).read (pa l) k)
    let value (l : Lane) : Nat := if w.ty = .i8 ∧ 2 ^ 7 ≤ at' l n then at' l n + 2 ^ 32 - 2 ^ 8
      else if w.ty = .i16 ∧ 2 ^ 15 ≤ at' l n then at' l n + 2 ^ 32 - 2 ^ 16 else at' l n
    w.ty ≠ .nq4 → LanesReach s c va n .read pa →
      (∀ fresh, IssuesV s 0x60 w c → w.mod.getLsbD 10 = fresh → LanesAtL2 s c n fresh pa → LoadAnswer s (.vld w) c w.ty.wide value) ∧
      (IssuesV s 0x68 w c → LanesAtL2 s c n true pa → LoadAnswer s (.vlda w) c w.ty.wide value))
  ∧ (∀ (s : State) (w : VWord) (c : VCtx) (pa : Lane → Nat) (fm : FormatDesc),
    let va (l : Lane) : Nat := (c.rdA s l + (w.imm.signExtend 64).toNat) % 2 ^ 64
    let f := fm.format
    let n := if f = 0 then w.ty.bits / 8 else max 1 (fmtHalf f / 2)
    let at' (l : Lane) (k : Nat) : Nat := leNat ((s.mem.view c.e.die).read (pa l) k)
    let y (l : Lane) : Nat := c.rdB s l
    let channel (x ch : Nat) : FVal := match f with
      | 0x10 => .fin false (x / 2 ^ (8 * ch) % 2 ^ 8) 255
      | 0x11 => if ch = 3 then .fin false (x / 2 ^ 24 % 2 ^ 8) 255 else srgbDecode (x / 2 ^ (8 * ch) % 2 ^ 8)
      | _ => if ch = 3 then .fin false (x / 2 ^ 30 % 4) 3 else .fin false (x / 2 ^ (10 * ch) % 2 ^ 10) 1023
    let number (x : Nat) : FVal := match f with
      | 1 => decodeF .f32 x | 2 => decodeF .f16 x | 3 => decodeF .bf16 x | 4 => decodeF .e4m3 x | 5 => decodeF .e5m2 x
      | 6 => FVal.ofInt (if 2 ^ 7 ≤ x then (x : Int) - 2 ^ 8 else x) | 7 => FVal.ofInt x
      | _ => FVal.ofInt (if 2 ^ 31 ≤ x then (x : Int) - 2 ^ 32 else x)
    IssuesV s 0x64 w c → w.ty = .f32 ∨ w.ty = .f16 ∨ w.ty = .bf16 → fm.valid = true → LanesReach s c va n .read pa →
      LanesAtL2 s c n (w.mod.getLsbD 10) pa →
      (∀ l, c.active l = true → lookup s c.e.quadrant c.e.die c.e.world c.e.priv c.st.vectorWalkFaults (va l) .read = .ok (pa l) fm ∧
        (f = 0 ∨ fm.region ≤ va l) ∧ (f < 9 → y l = 0) ∧ (0x10 ≤ f → y l < 4)) →
      (f = 0 → LoadAnswer s (.vldf w) c false fun l => at' l n) ∧
      (1 ≤ f → f ≤ 8 → LoadAnswer s (.vldf w) c false fun l => roundF (fmtOfTy w.ty) (number (at' l n)) .rn) ∧
      (0x10 ≤ f → f ≤ 0x12 → LoadAnswer s (.vldf w) c false fun l =>
        roundF (fmtOfTy w.ty) (decodeF .f32 (roundF .f32 (channel (at' l n) (y l)) .rn)) .rn) ∧
      (∀ qa sa : Lane → Nat, f = 9 → (∀ l, c.active l = true → y l < 2) →
        let e (l : Lane) : Nat := 2 * (va l - fm.region) + y l
        let row (l : Lane) : Nat := fm.scaleBase + e l / 16384 * fm.scaleStride
        LanesReach s c (fun l => row l + e l % 16384 / 64) 1 .read qa → LanesReach s c (fun l => row l + 256) 4 .read sa →
        LanesAtL2 s c 1 (w.mod.getLsbD 10) qa → LanesAtL2 s c 4 (w.mod.getLsbD 10) sa → LoadAnswer s (.vldf w) c false fun l =>
          let scale : W32 := BitVec.ofNat 32 (leNat ((s.mem.view c.e.die).read (sa l) 4))
          let q := leNat ((s.mem.view c.e.die).read (qa l) 1)
          roundF (fmtOfTy w.ty) (decodeF .f32 (nq4Element (at' l n / 2 ^ (4 * y l) % 16) q scale)) .rn))
  ∧ (∀ (s : State) (w : VWord) (c : VCtx), IssuesV s 0x62 w c → w.ty ≠ .nq4 →
    let off (l : Lane) : Nat := (c.rdA s l + w.imm.toNat) % 2 ^ 32
    let n := w.ty.bits / 8
    let x (l : Lane) : Nat := c.e.wg.scratch.readNat (off l) n
    LanesScratch s c off n true → LoadAnswer s (.vlds w) c w.ty.wide fun l =>
      if w.ty = .i8 ∧ 2 ^ 7 ≤ x l then x l + 2 ^ 32 - 2 ^ 8 else if w.ty = .i16 ∧ 2 ^ 15 ≤ x l then x l + 2 ^ 32 - 2 ^ 16 else x l)
  ∧ (∀ (s : State) (w : VWord) (c : VCtx), IssuesV s 0x70 w c →
    let tile := w.imm.toNat % 2 ^ 5
    let col (l : Lane) : Nat := 32 * (w.imm.toNat / 2 ^ 5 % 4) + l.val
    (c.e.accTiles ≤ tile → exec (.vaccrd w) s = .next (c.faults s { code := .illegalOperand })) ∧
    (tile < c.e.accTiles → tileTagOk s c.e tile = true → (∀ l, c.active l = true → c.rdA s l < 128 ∧
        badWord c.e.wg.badTiles (tileOff tile (c.rdA s l) (col l)) 4 = false) →
      (∀ k ∈ c.e.wg.matrix.cmds, k.started = true → tile ∉ k.kind.writes) →
      LoadAnswer s (.vaccrd w) c false fun l => tileRead c.e.wg tile (c.rdA s l) (col l)) ∧
    (tile < c.e.accTiles → tileTagOk s c.e tile = true → (∃ l, c.active l = true ∧ 128 ≤ c.rdA s l) →
      ∃ m : W32, (∀ l, laneBit m l = (c.active l && decide (128 ≤ c.rdA s l))) ∧
        exec (.vaccrd w) s = .next (c.faults s { code := .access, access := .read, lanes := m })))
  ∧ (∀ (s : State) (w : VWord) (c : VCtx) (l0 : Lane),
    let va (l : Lane) : Nat := (c.rdA s l + (w.imm.signExtend 64).toNat) % 2 ^ 64
    w.ty ≠ .nq4 → c.active l0 = true → 2 ^ 57 ≤ va l0 → (∀ l, l < l0 → c.active l = true → va l < 2 ^ 57) →
    (∀ l, c.active l = true → va l < 2 ^ 57 → va l % (w.ty.bits / 8) = 0 → ∃ pa f, isRemote pa = false ∧
      forward c.st.stores pa (w.ty.bits / 8) = .none ∧
      lookup s c.e.quadrant c.e.die c.e.world c.e.priv c.st.vectorWalkFaults (va l) .read = .ok pa f) →
    ∃ m : W32, (∀ l, laneBit m l = (c.active l && decide (2 ^ 57 ≤ va l))) ∧
      (IssuesV s 0x60 w c → exec (.vld w) s = .next (c.faults s { code := .access, access := .read, addr := va l0, lanes := m })) ∧
      (IssuesV s 0x68 w c → exec (.vlda w) s = .next (c.faults s { code := .access, access := .read, addr := va l0, lanes := m })))
  ∧ ∀ (s : State) (e : Env) (r : Return), s.env? e.sid = some e → e.wg.parked = none →
      e.st.returns.find? (fun x => x.id = r.id) = some r → (∀ k ∈ r.checks, ∀ x ∈ k.sectors, x ∉ s.mem.bad) → (r.regs.map Prod.fst).Nodup →
      ∃ t st, exec (.memoryReturn e.sid r.id true) s = .next t ∧ OnlyStrand s t e.sid ∧ t.strands.get? e.sid = some st ∧
        { st with v := e.st.v, badRegs := e.st.badRegs, returns := e.st.returns } = e.st ∧ (∀ x ∈ st.returns, x.id ≠ r.id) ∧
        (let kept (x : Return) := (x.id, x.regs, x.mask, x.first, x.checks, x.queued)
         st.returns.map kept = (e.st.returns.filter fun x => x.id ≠ r.id).map kept) ∧ (∀ p ∈ r.regs, st.vtag p.1 = .g) ∧
        (∀ i, (∀ p ∈ r.regs, p.1 ≠ i) → st.vtag i = e.st.vtag i) ∧
        (∀ i l, (∀ p ∈ r.regs, p.1 ≠ i) → st.vlane i l = e.st.vlane i l) ∧
        ∀ p ∈ r.regs, ∀ l : Lane, st.vlane p.1 l = if laneBit r.mask l = true then p.2[l] else e.st.vlane p.1 l

/-- 08 R232 with 03 R77. The element size is that of the base's page (log 37), and an infinite coordinate under wrap is free (log 36). -/
def Obligations.SamplerResults : Prop :=
  (∀ (s : State) (w : VWord) (c : VCtx) (ch : Lane → List Nat), IssuesV s 0x6A w c → w.mod.getLsbD 10 = true →
    let va (l : Lane) : Nat := (c.rdA s l + (w.imm.signExtend 64).toNat) % 2 ^ 64
    (∀ l, c.active l = true → ∃ s' k, c.sampleLane (va l) (c.rdB s l) (c.rdC s l) true s = (s', .ok (ch l, k)) ∧
      { s' with mem := { s'.mem with l1 := s.mem.l1 } } = s) →
    ∃ t st, exec (.vsample w) s = .next t ∧ t.strands.get? c.e.sid = some st ∧ t.mem.home = s.mem.home ∧
      WentOn c st (fun l => if c.active l then BitVec.ofNat 32 ((ch l).getD 0 0) else 0) (· = .g) ∧
      { st with slots := c.st.slots, returns := c.st.returns } = c.st ∧
      (w.nowb = true → c.st.returns <+: st.returns ∧ ∀ r ∈ st.returns, r ∈ c.st.returns ∨ r.regs = []) ∧
      (w.nowb = false → ∃ r, st.returns = c.st.returns ++ [r] ∧ r.mask = c.activeMask ∧ r.regs.map Prod.fst = (List.range 4).map (w.dst.val + ·) ∧
        ∀ (l : Lane) k p, c.active l = true → r.regs[k]? = some p → p.2[l] = BitVec.ofNat 32 ((ch l).getD k 0)))
  ∧ (∀ (s : State) (w : VWord) (c : VCtx) (l0 : Lane) (pa : Nat) (f : FormatDesc), IssuesV s 0x6A w c → c.activeMask = BitVec.ofNat 32 (2 ^ l0.val) →
    let va := (c.rdA s l0 + (w.imm.signExtend 64).toNat) % 2 ^ 64
    va < 2 ^ 57 → va % 32 = 0 → lookup s c.e.quadrant c.e.die c.e.world c.e.priv c.st.vectorWalkFaults va .read = .ok pa f → isRemote pa = false →
    w.mod.getLsbD 10 = true → c.st.stores = [] → s.mem.bad = [] →
    let hdr := parseSample (leNat (s.readL2 c.e.die c.e.world pa 32).2)
    let breaks : Prop := exec (.vsample w) s = .next (c.faults s { code := .access, access := .read, addr := va, lanes := c.activeMask })
    (hdr = none → breaks) ∧
    ∀ h pb fm, hdr = some h → c.place s h.base 1 .read = .ok (pb, fm) →
      h.base % max 1 (fmtHalf fm.format / 2) ≠ 0 ∨ h.pitch % max 1 (fmtHalf fm.format / 2) ≠ 0 → breaks)
  ∧ (∀ v : Nat, let field (b n : Nat) : Nat := v / 2 ^ b % 2 ^ n
      (parseSample v).isSome = decide (1 ≤ field 64 32 ∧ field 64 32 ≤ 65536 ∧ 1 ≤ field 96 32 ∧ field 96 32 ≤ 65536 ∧ field 160 8 ≤ 1 ∧
        field 168 8 ≤ 2) ∧
      ∀ h, parseSample v = some h → h.base = field 0 64 ∧ h.width = field 64 32 ∧ h.height = field 96 32 ∧ h.pitch = field 128 32 ∧
        h.bilinear = decide (field 160 8 = 1) ∧ h.mode = field 168 8 ∧ h.border = field 192 32)
  ∧ (∀ (i : Int) (b : Bool) (n tag num den : Nat), 0 < n → 0 < den →
      (Coord.at i).index 0 n tag = some (max 0 (min ((n : Int) - 1) i)).toNat ∧ (Coord.at i).index 1 n tag = some (i.emod n).toNat ∧
      (Coord.at i).index 2 n tag = (if 0 ≤ i ∧ i < n then some i.toNat else none) ∧
      Coord.nan.index 0 n tag = some 0 ∧ Coord.nan.index 1 n tag = some 0 ∧ Coord.nan.index 2 n tag = none ∧
      (Coord.inf b).index 0 n tag = some (if b = true then 0 else n - 1) ∧ (Coord.inf b).index 2 n tag = none ∧
      ∃ k : Int, floorF (.fin b num den) = .at k ∧ k * den ≤ (if b then -1 else 1) * (num : Int) ∧ (if b then -1 else 1) * (num : Int) < (k + 1) * den)
  ∧ (∀ (p q : Nat) (f : FVal), lerp p q f =
      roundF .f32 ((f.mul (decodeF .f32 (roundF .f32 ((decodeF .f32 q).add (decodeF .f32 p).neg .rn) .rn))).add (decodeF .f32 p) .rn) .rn)
  ∧ (∀ (s s1 : State) (c : VCtx) (va x y v : Nat) (k : List Nat) (fresh : Bool) (h : SampleHdr), c.readG s va 32 fresh = (s1, .ok (v, k)) →
      parseSample v = some h → c.headerOk h s1 = .ok true →
      (h.bilinear = false → let one := c.texel h (floorF (decodeF .f32 x)) (floorF (decodeF .f32 y)) fresh s1
        (∀ s2 a ka, one = (s2, .ok (a, ka)) → c.sampleLane va x y fresh s = (s2, .ok (a, k ++ ka))) ∧
        (∀ s2 z, one = (s2, .error z) → c.sampleLane va x y fresh s = (s2, .error z))) ∧
      (h.bilinear = true →
        let half (u : Nat) : FVal := decodeF .f32 (roundF .f32 ((decodeF .f32 u).add (.fin true 1 2) .rn) .rn)
        ∀ (i j : Int) (s2 s3 s4 s5 : State) (a b d e ka kb kd ke : List Nat), floorF (half x) = .at i → floorF (half y) = .at j →
          c.texel h (.at i) (.at j) fresh s1 = (s2, .ok (a, ka)) → c.texel h (.at (i + 1)) (.at j) fresh s2 = (s3, .ok (b, kb)) →
          c.texel h (.at i) (.at (j + 1)) fresh s3 = (s4, .ok (d, kd)) → c.texel h (.at (i + 1)) (.at (j + 1)) fresh s4 = (s5, .ok (e, ke)) →
          let fx := (half x).add (FVal.ofInt i).neg .rn
          let fy := (half y).add (FVal.ofInt j).neg .rn
          c.sampleLane va x y fresh s = (s5, .ok ((List.range 4).map (fun k =>
            lerp (lerp (a.getD k 0) (b.getD k 0) fx) (lerp (d.getD k 0) (e.getD k 0) fx) fy), k ++ (ka ++ (kb ++ (kd ++ ke)))))))
  ∧ ∀ (s : State) (c : VCtx) (h : SampleHdr) (x y : Coord) (fresh : Bool),
      (x.index h.mode h.width (2 * s.ticks) = none ∨ y.index h.mode h.height (2 * s.ticks + 1) = none →
        c.texel h x y fresh s = (s, .ok ([h.border, h.border, h.border, h.border], []))) ∧
      ∀ (i j pb pt : Nat) (f0 fm : FormatDesc) (s1 : State) (v : Nat) (k : List Nat), x.index h.mode h.width (2 * s.ticks) = some i →
        y.index h.mode h.height (2 * s.ticks + 1) = some j → fm.valid = true → 1 ≤ fm.format → fm.format ≠ 9 →
        let n := max 1 (fmtHalf fm.format / 2)
        let va := (h.base + j * h.pitch + i * max 1 (fmtHalf f0.format / 2)) % 2 ^ 64
        let number : FVal := match fm.format with
          | 1 => decodeF .f32 v | 2 => decodeF .f16 v | 3 => decodeF .bf16 v | 4 => decodeF .e4m3 v | 5 => decodeF .e5m2 v
          | 6 => FVal.ofInt (if 2 ^ 7 ≤ v then (v : Int) - 2 ^ 8 else v) | 7 => FVal.ofInt v
          | _ => FVal.ofInt (if 2 ^ 31 ≤ v then (v : Int) - 2 ^ 32 else v)
        va % n = 0 → fm.region ≤ va → c.place s h.base 1 .read = .ok (pb, f0) → c.place s va 1 .read = .ok (pt, fm) →
        c.fetchAt s va pt n fresh = (s1, .ok (v, k)) → v < 2 ^ (8 * n) →
        (0x10 ≤ fm.format → c.texel h x y fresh s = (s1, .ok ((List.range 4).map (pixelChannel fm.format v), k))) ∧
        (fm.format ≤ 8 → c.texel h x y fresh s = (s1, .ok ([roundF .f32 number .rn, 0, 0, 0x3F800000], k)))

/-- 08 R229, R230 and R236 with 01 R32 and 04 R115. -/
def Obligations.VectorStoreResults : Prop :=
  let works (c : VCtx) (l : Lane) : Bool := c.active l && !laneBit c.st.helpers l
  let waits (q : State) (c : VCtx) : State := q.modStrand c.e.sid fun st => { st with vecSince := q.cycle, vecPromoted := false }
  (∀ (s : State) (w : VWord) (c : VCtx) (pa : Lane → Nat),
    let va (l : Lane) : Nat := (c.rdA s l + (w.imm.signExtend 64).toNat) % 2 ^ 64
    let n := w.ty.bits / 8
    let entry (id : Nat) (sc : Option Scope) (x : SBEntry) : Prop := x.id = id ∧ x.vector = true ∧ x.restored = false ∧ x.size.bytes = n ∧ x.scope = sc ∧
      x.lanes = ((List.finRange 32).filter (works c)).map fun l => ⟨l.val, va l, pa l, natLE n (c.rdB s l)⟩
    let stores (i : Instr) (q : State) (sc : Option Scope) : Prop := ∀ st0, q.strands.get? c.e.sid = some st0 →
      (16 ≤ st0.stores.length → exec i s = .next (waits q c)) ∧
      (st0.stores.length < 16 → (∃ l, works c l = true) → ∃ t st x, exec i s = .next t ∧ entry q.nextId sc x ∧
        t.nextId = q.nextId + 1 ∧ t.strands.get? c.e.sid = some st ∧ WentOn c st (fun _ => 0) ∧
        { st with slots := st0.slots } = { st0 with stores := st0.stores ++ [x], unackDev := st0.unackDev + 1 } ∧
        t.mem.home = q.mem.home ∧ t.mem.views = q.mem.views ∧ (∀ l, works c l = true → t.mem.l1Find c.e.core c.e.world (lineOf (pa l)) = none) ∧
        ∀ k, k ≠ c.e.sid → t.strands.get? k = q.strands.get? k) ∧
      (st0.stores.length < 16 → (∀ l, works c l = false) → ∃ t st, exec i s = .next t ∧ OnlyStrand q t c.e.sid ∧ t.strands.get? c.e.sid = some st ∧
        WentOn c st (fun _ => 0) ∧ { st with slots := st0.slots } = st0)
    w.ty ≠ .nq4 → LanesReach s c va n .write pa →
      (IssuesV s 0x61 w c → stores (.vst w) s none) ∧
      (∀ sc, IssuesV s 0x69 w c → scopeOf (w.mod.toNat / 2 ^ 5 % 2 ^ 3) = some sc →
        let r := VCtx.vrelease s c.e.sid (some sc)
        (r.2 = false → exec (.vstl w) s = .next (waits r.1 c)) ∧ (r.2 = true → stores (.vstl w) r.1 (some sc))))
  ∧ (∀ (s : State) (w : VWord) (c : VCtx), IssuesV s 0x63 w c → w.ty ≠ .nq4 → s.memWf = true → s.wgs.get? c.e.sid.wg = some c.e.wg →
    let off (l : Lane) : Nat := (c.rdA s l + w.imm.toNat) % 2 ^ 32
    let n := w.ty.bits / 8
    LanesScratch s c off n false → ∃ t g st, exec (.vsts w) s = .next t ∧ t.wgs.get? c.e.sid.wg = some g ∧
      (∀ a, (∀ l, works c l = true → a < off l ∨ off l + n ≤ a) → g.scratch.get a = c.e.wg.scratch.get a) ∧
      (∀ l i, works c l = true → i < n → (∀ l', l < l' → works c l' = true → off l + i < off l' ∨ off l' + n ≤ off l + i) →
        g.scratch.get (off l + i) = BitVec.ofNat 8 (c.rdB s l / 2 ^ (8 * i))) ∧
      g.tiles = c.e.wg.tiles ∧ t.mem = s.mem ∧ t.strands.get? c.e.sid = some st ∧ WentOn c st (fun _ => 0) ∧
      { st with slots := c.st.slots } = c.st)
  ∧ ∀ (s : State) (w : VWord) (c : VCtx), s.memWf = true → s.wgs.get? c.e.sid.wg = some c.e.wg →
    let tile := w.imm.toNat % 2 ^ 5
    let col (l : Lane) : Nat := 32 * (w.imm.toNat / 2 ^ 5 % 4) + l.val
    let writes (i : Instr) (f : Lane → Nat) : Prop := ∃ t g st, exec i s = .next t ∧ t.wgs.get? c.e.sid.wg = some g ∧
      (∀ l, works c l = true → tileRead g tile (c.rdA s l) (col l) = f l) ∧
      (∀ u r k, r < 128 → k < 128 → (∀ l, works c l = true → ¬ (u = tile ∧ r = c.rdA s l ∧ k = col l)) → tileRead g u r k = tileRead c.e.wg u r k) ∧
      g.scratch = c.e.wg.scratch ∧ t.mem = s.mem ∧ t.strands.get? c.e.sid = some st ∧ WentOn c st (fun _ => 0) ∧
      { st with slots := c.st.slots } = c.st
    tile < c.e.accTiles → tileTagOk s c.e tile = true → (∀ l, works c l = true → c.rdA s l < 128) →
      (IssuesV s 0x71 w c → writes (.vaccwr w) fun l => c.rdB s l % 2 ^ 32) ∧
      (IssuesV s 0x72 w c → (∀ l, works c l = true → badWord c.e.wg.badTiles (tileOff tile (c.rdA s l) (col l)) 4 = false) →
        writes (.vaccscl w) fun l =>
          let old := tileRead c.e.wg tile (c.rdA s l) (col l)
          if w.ty = .f32 then roundF .f32 ((decodeF .f32 old).mul (decodeF .f32 (c.rdB s l))) .rn else old * c.rdB s l % 2 ^ 32)

/-- 08 R233 and R234 with 03 R83, 04 R87, R88 and R101, and 16 R308 for the world of a copy. -/
def Obligations.VectorAtomicResults : Prop :=
  let works (c : VCtx) (l : Lane) : Bool := c.active l && !laneBit c.st.helpers l
  let int (t : Ty) (x : Nat) : Int := if t.signed = true ∧ 2 ^ (t.bits - 1) ≤ x then (x : Int) - 2 ^ t.bits else x
  let combine (t : Ty) (op x y : Nat) : Nat :=
    if t = .f32 then (match op with
      | 0 => roundF .f32 ((decodeF .f32 x).add (decodeF .f32 y) .rn) .rn
      | 1 => roundF .f32 ((decodeF .f32 x).min (decodeF .f32 y)) .rn
      | _ => roundF .f32 ((decodeF .f32 x).max (decodeF .f32 y)) .rn)
    else match op with
      | 0 => (x + y) % 2 ^ t.bits
      | 1 => if int t y < int t x then y else x
      | 2 => if int t x < int t y then y else x
      | 3 => x &&& y
      | 4 => x ||| y
      | _ => x ^^^ y
  ∀ (s : State) (w : VWord) (c : VCtx) (pa : Lane → Nat),
    w.ty = .f32 ∨ w.ty = .i32 ∨ w.ty = .w32 ∨ w.ty = .i64 ∨ w.ty = .w64 →
    let va (l : Lane) : Nat := (c.rdA s l + (w.imm.signExtend 64).toNat) % 2 ^ 64
    let n := w.ty.bits / 8
    let op := w.mod.toNat / 2 ^ 2 % 2 ^ 3
    let r := VCtx.settle s c.e.sid (scopeOf (w.mod.toNat / 2 ^ 5 % 2 ^ 3))
    let waits : State := r.1.modStrand c.e.sid fun st => { st with vecSince := r.1.cycle, vecPromoted := false }
    let home (a : Nat) : Nat := r.1.mem.home.readNat a n
    let away (a : Nat) : Prop := ∀ l, works c l = true → a < pa l ∨ pa l + n ≤ a
    let apart : Prop := ∀ l l', works c l = true → works c l' = true → l ≠ l' → pa l ≠ pa l'
    LanesReach s c va n .rmw pa → s.mem.bad = [] → r.1.mem.bad = [] → s.memWf = true → (w.ty = .f32 → op < 3) →
    (IssuesV s 0x65 w c →
      (r.2 = false → exec (.vatom w) s = .next waits) ∧
      (r.2 = true → r.1.mem.copies = [] → ∀ st0, r.1.strands.get? c.e.sid = some st0 → ∃ t st, exec (.vatom w) s = .next t ∧
        t.strands.get? c.e.sid = some st ∧ { st with slots := st0.slots, returns := st0.returns, watch := st0.watch } = st0 ∧
        (∀ a, away a → t.mem.home.get a = r.1.mem.home.get a) ∧
        let delivers (f : Lane → Nat) : Prop := WentOn c st (fun l => if c.active l then BitVec.ofNat 32 (f l) else 0) (· = .g) ∧
          (w.nowb = true → st.returns = st0.returns) ∧
          (w.nowb = false → ∃ x lo, st.returns = st0.returns ++ [x] ∧ x.mask = c.activeMask ∧ x.regs.head? = some (w.dst.val, lo) ∧
            ∀ l : Lane, c.active l = true → lo[l] = BitVec.ofNat 32 (f l))
        (apart → delivers (fun l => if laneBit c.st.helpers l then 0 else home (pa l)) ∧
          ∀ l, works c l = true → t.mem.home.readNat (pa l) n =
            (if op = 6 then c.rdB s l else if op = 7 then (if home (pa l) = c.rdC s l then c.rdB s l else home (pa l))
              else combine w.ty op (home (pa l)) (c.rdB s l))) ∧
        (∀ a, w.ty ≠ .f32 → op = 0 → (∀ l, works c l = true → pa l = a) → (∃ l, works c l = true) →
          let before (l : Lane) : Nat := (((List.finRange 32).filter fun k => works c k && decide (k < l)).map fun k => c.rdB s k).sum
          delivers (fun l => if laneBit c.st.helpers l then 0 else (home a + before l) % 2 ^ w.ty.bits) ∧
          t.mem.home.readNat a n = (home a + (((List.finRange 32).filter (works c)).map fun k => c.rdB s k).sum) % 2 ^ w.ty.bits))) ∧
    (IssuesV s 0x66 w c → op < 6 →
      (r.2 = false → exec (.vred w) s = .next waits) ∧
      (r.2 = true → (∀ k ∈ r.1.mem.copies, k.die = c.e.die → k.op = redOpOf op ∧ k.ty = w.ty ∧ k.world = c.e.world) →
        ∀ st0, r.1.strands.get? c.e.sid = some st0 → ∃ t st, exec (.vred w) s = .next t ∧ t.strands.get? c.e.sid = some st ∧
          WentOn c st (fun _ => 0) ∧ { st with slots := st0.slots } = st0 ∧ t.mem.home = r.1.mem.home ∧
          (apart → ∀ l, works c l = true → ∃ k ∈ t.mem.copies, k.die = c.e.die ∧ k.line = pa l / 128 ∧ k.world = c.e.world ∧ k.op = redOpOf op ∧ k.ty = w.ty ∧
            (k.words.get? (pa l % 128)).map BitVec.toNat =
              match (r.1.mem.copies.find? fun k => decide (k.die = c.e.die) && k.line == pa l / 128).bind fun k => k.words.get? (pa l % 128) with
              | some y => some (combine w.ty op y.toNat (c.rdB s l))
              | none => some (c.rdB s l))))

/-- 08 R235 and 09 R268; that invocations of a word whose release has settled come one to an event is the model's
order (log 80). R268's condition codes that are reserved are log 164's. -/
def Obligations.PicotInvocations : Prop :=
  (∀ (s : State) (w : VWord) (c : VCtx) (pa : Lane → Nat), IssuesV s 0x67 w c →
    let raises : Prop := exec (.vpicot w) s = .next (c.faults s { code := .illegalOperand })
    let waits (q : State) : State := q.modStrand c.e.sid fun st => { st with vecSince := q.cycle, vecPromoted := false }
    let found := (s.worlds.get? c.e.world).bind fun x => x.picots.get? w.imm.toNat
    (found = none → raises) ∧
    ∀ r, found = some r →
      (c.n < w.dst.val + r.nr → raises) ∧ (∀ b, w.b = .reg b → 0 < r.ni → c.n < b.val + r.ni → raises) ∧
      (c.picotNamesOk s = true → c.st.picot.isSome = true → exec (.vpicot w) s = .next (waits s)) ∧
      (∀ b, c.picotNamesOk s = true → c.st.picot = none → w.b = .reg b →
        (∃ p ∈ c.st.badRegs, b.val ≤ p.1 ∧ p.1 < b.val + r.ni ∧ c.activeMask.getLsbD p.2 = true) →
        ∃ m, exec (.vpicot w) s = .next (c.faults s { code := .poison, lanes := m }) ∧ ∀ l : Lane, laneBit m l = true ↔
          c.active l = true ∧ ∃ p ∈ c.st.badRegs, b.val ≤ p.1 ∧ p.1 < b.val + r.ni ∧ p.2 = l.val) ∧
      let q := VCtx.settle s c.e.sid (scopeOf (w.mod.toNat / 2 ^ 5 % 2 ^ 3))
      (c.picotNamesOk s = true → c.st.picot = none → c.st.badRegs = [] → LanesReach s c (fun l => c.rdA s l) 1 .rmw pa → s.mem.bad = [] →
        (q.2 = false → exec (.vpicot w) s = .next (waits q.1)) ∧
        (q.2 = true → ∀ st0, q.1.strands.get? c.e.sid = some st0 → ∃ t p, exec (.vpicot w) s = .next t ∧ OnlyStrand q.1 t c.e.sid ∧
          t.strands.get? c.e.sid = some { st0 with picot := some p, vecSince := q.1.cycle, vecPromoted := false } ∧ p.slot = c.slot ∧ p.word = w ∧ p.routine = r ∧ p.active = c.activeMask ∧
          p.todo = (((List.finRange 32).filter fun l => c.active l && !laneBit c.st.helpers l).map fun l =>
            { lane := l.val, line := pa l / 128, ops := (List.range r.ni).map fun j => BitVec.ofNat 32 (c.read s .w32 (operandPlus w.b j) l) }) ∧
          p.results = (((List.finRange 32).filter fun l => c.active l && laneBit c.st.helpers l).map fun l => (l.val, List.replicate r.nr 0)))))
  ∧ (∀ (s : State) (e : Env) (p : PicotWord) (x : Invocation) (rest : List Invocation) (sp : Split) (blk : Block) (blks : List Block),
      s.memWf = true → s.env? e.sid = some e → e.st.picot = some p → e.st.laneQ = blk :: blks → e.st.slots[p.slot] = some sp → p.todo = x :: rest →
      let s1 := s.homeLine e.die x.line
      let line := words32 (s1.mem.home.read (128 * x.line) 128)
      let z := runPicot p.routine line x.ops
      ∃ t st, exec (.picotInvocation e.sid) s = .next t ∧ t.strands.get? e.sid = some st ∧
        (∀ i, i < 32 → t.mem.home.readNat (128 * x.line + 4 * i) 4 = (z.1.getD i 0).toNat) ∧
        (∀ a, a < 128 * x.line ∨ 128 * x.line + 128 ≤ a → t.mem.home.get a = s1.mem.home.get a) ∧
        (rest ≠ [] → { st with watch := e.st.watch } = { e.st with picot := some { p with todo := rest, results := p.results ++ [(x.lane, z.2)] } }) ∧
        (rest = [] → st.picot = none ∧
          { st with v := e.st.v, badRegs := e.st.badRegs, slots := e.st.slots, picot := e.st.picot, watch := e.st.watch } = e.st ∧
          (∃ sp', st.slots[p.slot] = some sp' ∧ sp'.pos = sp.pos + 1 ∧ sp'.lanes = sp.lanes) ∧
          ∀ i l, st.vlane i l =
            if p.word.dst.val ≤ i ∧ i < p.word.dst.val + p.routine.nr ∧ laneBit p.active l = true ∧ p.word.nowb = false
            then (((p.results ++ [(x.lane, z.2)]).find? fun r => r.1 = l.val).map fun r => r.2.getD (i - p.word.dst.val) 0).getD 0
            else e.st.vlane i l))
  ∧ ∀ (m : List W32) (d a b imm : Nat), m.length = 56 → d < 56 →
      let x := m.getD a 0
      let y := m.getD b 0
      let puts (op : Nat) (v : W32) : Prop := picotStep m ⟨op, d, a, b, imm⟩ = m.set d v
      puts 0x01 (m.getD (x.toNat % 32) 0) ∧ picotStep m ⟨0x02, d, a, b, imm⟩ = m.set (y.toNat % 32) x ∧ puts 0x03 x ∧ puts 0x04 (x + y) ∧
      puts 0x05 (x - y) ∧ puts 0x06 (if y.toInt < x.toInt then y else x) ∧ puts 0x07 (if x.toInt < y.toInt then y else x) ∧
      puts 0x08 (if y.toNat < x.toNat then y else x) ∧ puts 0x09 (if x.toNat < y.toNat then y else x) ∧
      puts 0x0A (BitVec.ofNat 32 (roundF .f32 ((decodeF .f32 x.toNat).add (decodeF .f32 y.toNat) .rn) .rn)) ∧
      puts 0x0B (BitVec.ofNat 32 (roundF .f32 ((decodeF .f32 x.toNat).min (decodeF .f32 y.toNat)) .rn)) ∧
      puts 0x0C (BitVec.ofNat 32 (roundF .f32 ((decodeF .f32 x.toNat).max (decodeF .f32 y.toNat)) .rn)) ∧
      puts 0x0D (x &&& y) ∧ puts 0x0E (x ||| y) ∧ puts 0x0F (x ^^^ y) ∧ (imm < 32 → puts 0x10 (x <<< imm) ∧ puts 0x11 (x >>> imm)) ∧
      (imm = 0 → puts 0x12 (if x = y then 1 else 0)) ∧ (imm = 2 → puts 0x12 (if x.toInt < y.toInt then 1 else 0)) ∧
      (imm = 6 → puts 0x12 (if x.toNat < y.toNat then 1 else 0)) ∧
      (imm = 18 → puts 0x12 (if (decodeF .f32 x.toNat).lt (decodeF .f32 y.toNat) = true then 1 else 0)) ∧
      puts 0x13 (if m.getD imm 0 = 0 then y else x)

/-- 08 R237 to R239 with 01 R10 and R24 to R31. The bytes and the places of pushed entries, and what a rotation writes, are the model's choice
(log 39), and so are which held split goes on first (log 79) and which a freed pool entry goes to (log 127). No access to the stack is made while a load is out (log 129). The order in which a held split of serialised mode goes on is the model's, as is that a merged split executes the VJOIN again under the join it takes back (log 120). -/
def Obligations.VectorControlResults : Prop :=
  let jumps (s : State) (i : Instr) (c : VCtx) (sp : Split) : Prop := ∃ t, exec i s = .next t ∧ OnlyStrand s t c.e.sid ∧
    t.strands.get? c.e.sid = some { c.st with slots := c.st.slots.set c.slot (some sp) }
  let next (c : VCtx) : Split := { c.sp with pos := c.sp.pos + 1, run := c.sp.run + 1, chain := none }
  let passes (s : State) (op : Nat) (w : VWord) (c : VCtx) : Prop := s.vctx? op w = some c ∧ c.restarts = false ∧ c.chainOk = true ∧ c.namesOk = true
  (∀ (s : State) (w : VWord) (c : VCtx) (T : W32), passes s 0x80 w c → c.activeMask ≠ 0 →
    (∀ l, laneBit T l = (c.active l && xor (laneBit (c.mask (Fin.ofNat 16 w.dst.val)) l) (w.mod.getLsbD 3))) →
    let target := w.imm.toNat % 2 ^ 16
    let join := w.imm.toNat / 2 ^ 16
    let one : Split := { c.sp with lanes := T, exit := 0, pos := target, join := join, div := some s.nextId, run := c.sp.run + 1, chain := none }
    let two : Split := { c.sp with lanes := c.sp.lanes &&& ~~~T, pos := c.sp.pos + 1, join := join, age := s.ticks, div := some s.nextId, run := 0, chain := none }
    let divides (t : State) (st0 : Strand) : Prop := ∃ st : Strand, t.strands.get? c.e.sid = some st ∧ t.nextId = s.nextId + 1 ∧
      st.joins = st0.joins ++ [⟨s.nextId, c.sp.join, c.sp.div, c.sp.age⟩] ∧
      (st.serialised = false → st.slots[c.slot] = some one ∧ st.slots[otherSlot c.slot] = some two) ∧
      (st.serialised = true → st.slots[(0 : Fin 2)] = some one ∧ st.slots[(1 : Fin 2)] = some two) ∧
      (c.st.serialised = true → st.serialised = true) ∧
      (c.st.serialised = false → c.slot = 0 → c.st.slots[(1 : Fin 2)] = none → (st.serialised = true ↔ poolFree s c.e = false)) ∧
      { st with slots := st0.slots, joins := st0.joins, serialised := st0.serialised } = st0
    (T = 0 → jumps s (.vbr w) c (next c)) ∧
    (T ≠ 0 → T = c.m0 → jumps s (.vbr w) c { c.sp with pos := target, run := c.sp.run + 1, chain := none }) ∧
    (T ≠ 0 → T ≠ c.m0 → c.st.slots[otherSlot c.slot] = none → ∃ t, exec (.vbr w) s = .next t ∧ t.mem = s.mem ∧ divides t c.st) ∧
    (T ≠ 0 → T ≠ c.m0 → ∀ x, c.st.slots[otherSlot c.slot] = some x →
      (c.st.returns ≠ [] → exec (.vbr w) s = .next (s.modStrand c.e.sid fun st => { st with vecSince := s.cycle, vecPromoted := false })) ∧
      (c.st.returns = [] → 32 ≤ c.st.spilled.length → exec (.vbr w) s = .next (c.takeFault s { code := .illegalOperand })) ∧
      (∀ pa f, c.st.returns = [] → c.st.spilled.length < 32 → s.memWf = true → privateBase c.e < 2 ^ 57 → isRemote pa = false → s.mem.copies = [] → c.st.watch = none →
        lookup s c.e.quadrant c.e.die c.e.world c.e.priv c.st.vectorWalkFaults (privateBase c.e) .write = .ok pa f →
        ∃ t, exec (.vbr w) s = .next t ∧ divides t { c.st with spilled := c.st.spilled ++ [⟨x.age, x.div⟩] } ∧
          let o := pa + 16 * c.st.spilled.length
          t.mem.home.readNat o 4 = x.lanes.toNat ∧ t.mem.home.readNat (o + 4) 4 = x.exit.toNat ∧ t.mem.home.readNat (o + 8) 4 = x.pos % 2 ^ 32 ∧
          t.mem.home.readNat (o + 12) 4 = x.join % 2 ^ 32 ∧ ∀ a, a < o ∨ o + 16 ≤ a → t.mem.home.get a = s.mem.home.get a)))
  ∧ (∀ (s : State) (w : VWord) (c : VCtx), passes s 0x81 w c →
    (c.sp.pos ≠ c.sp.join ∨ c.sp.join = 0xFFFF → jumps s (.vjoin w) c (next c)) ∧
    (∀ x d r, c.sp.pos = c.sp.join → c.sp.join ≠ 0xFFFF → c.sp.div = some d → x ∈ c.st.waiting →
      c.st.waiting.find? (fun y => y.div == some d && y.pos == c.sp.pos && !y.atEnd) = some x → c.st.joins.find? (fun j => j.id = d) = some r →
      ∃ t st, exec (.vjoin w) s = .next t ∧ OnlyStrand s t c.e.sid ∧ t.strands.get? c.e.sid = some st ∧
        let out := c.sp.exit ||| x.exit
        st.slots[c.slot] = some ⟨(c.sp.lanes ||| x.lanes) &&& ~~~out, 0, c.sp.pos, r.savedJoin, min c.sp.age x.age, r.savedDiv,
          c.sp.run + 1, none, false⟩ ∧
        st.base = c.st.base &&& ~~~out ∧ x ∉ st.waiting ∧ (∀ j ∈ st.joins, j.id ≠ d) ∧ st.v = c.st.v ∧ st.masks = c.st.masks) ∧
    (c.sp.pos = c.sp.join → c.sp.join ≠ 0xFFFF → c.st.waiting.all (fun y => !(y.div == c.sp.div && y.pos == c.sp.pos)) = true →
      c.st.serialised = false → c.st.spilled = [] → ∃ t st, exec (.vjoin w) s = .next t ∧ t.strands.get? c.e.sid = some st ∧
        st.slots[c.slot] = none ∧ st.slots[otherSlot c.slot] = c.st.slots[otherSlot c.slot] ∧
        st.waiting = c.st.waiting ++ [{ c.sp with chain := none, run := 0 }] ∧ st.v = c.st.v ∧ st.masks = c.st.masks ∧ t.mem = s.mem))
  ∧ (∀ (s : State) (w : VWord) (c : VCtx) (blks : List Block), passes s 0x82 w c → c.st.serialised = false → c.st.spilled = [] →
    (c.st.slots[otherSlot c.slot] ≠ none → ∃ t st, exec (.vend w) s = .next t ∧ t.strands.get? c.e.sid = some st ∧ st.slots[c.slot] = none ∧
      st.waiting = c.st.waiting ++ [{ c.sp with chain := none, run := 0, atEnd := true }] ∧ st.laneQ = c.st.laneQ ∧ st.base = c.st.base) ∧
    (c.st.slots[otherSlot c.slot] = none → c.st.started = true → (∀ x ∈ c.st.waiting, x.atEnd = true) → c.st.returns = [] → c.st.picot = none →
      c.st.laneQ = c.blk :: blks → ∃ t st, exec (.vend w) s = .next t ∧ t.strands.get? c.e.sid = some st ∧ t.mem = s.mem ∧
        st.base = c.st.base &&& ~~~((c.st.waiting.map Split.exit).foldl (· ||| ·) 0 ||| c.sp.exit) ∧ st.v = c.st.v ∧
        (st.base ≠ 0 → st.laneQ = blks ∧ (blks ≠ [] → st.started = true ∧ ∃ sp, st.slots[(0 : Fin 2)] = some sp ∧ sp.lanes = st.base ∧ sp.pos = 0) ∧
          (blks = [] → st.started = false))))
  ∧ (∀ (s : State) (w : VWord) (c : VCtx), passes s 0x83 w c → c.activeMask ≠ 0 →
      jumps s (.vexit w) c { next c with exit := c.sp.exit ||| c.activeMask })
  ∧ (∀ (s : State) (w : VWord) (c : VCtx), passes s 0x84 w c → c.activeMask ≠ 0 → c.st.spilled = [] →
      jumps s (.vyield w) c { next c with run := 0 })
  ∧ (∀ (s : State) (w : VWord) (c : VCtx) (i : Fin 128), IssuesV s 0x85 w c → w.a = .reg i → ∃ t st, exec (.vtag w) s = .next t ∧
      OnlyStrand s t c.e.sid ∧ t.strands.get? c.e.sid = some st ∧ st.slots = c.st.slots.set c.slot (some (next c)) ∧ OnlyRegs c st ∧
      (∀ r, st.vtag r = if r = w.dst.val ∧ w.nowb = false then .u else c.st.vtag r) ∧
      ∀ r l, st.vlane r l = if r = w.dst.val ∧ w.nowb = false then
        (match c.st.v.getD i.val (.u 0) with | .u _ => 0 | .a .. => 1 | .g _ => 2) else c.st.vlane r l)
  ∧ (∀ (s : State) (e : Env), s.env? e.sid = some e → e.wg.parked = none → e.st.vectorStop = none →
      (e.st.started = true → e.st.slots = Vector.replicate 2 none → e.st.spilled = [] → (∀ x ∈ e.st.waiting, x.atEnd = true) → e.st.waiting ≠ [] →
        e.st.returns = [] → e.st.picot = none → exec (.blockComplete e.sid) s =
          .next (finishBlock s e.sid ((e.st.waiting.map Split.exit).foldl (· ||| ·) 0))) ∧
      (e.st.started = false ∨ e.st.returns ≠ [] ∨ (∃ x ∈ e.st.waiting, x.atEnd = false) → exec (.blockComplete e.sid) s = .next s))
  ∧ ∀ (s : State) (e : Env) (sp : Split), s.env? e.sid = some e → e.st.slots[(0 : Fin 2)] = some sp →
      (vectorReady s e 0 = false ∨ sp.run < 16 ∨ e.st.spilled = [] → exec (.splitRotation e.sid false) s = .next s) ∧
      ∀ (x : Spilled) (rest : List Spilled) (pa : Nat) (fr fw : FormatDesc), vectorReady s e 0 = true → 16 ≤ sp.run → e.st.spilled = x :: rest →
        e.st.returns = [] → sp.chain = none → e.st.laneQ ≠ [] → privateBase e < 2 ^ 57 → isRemote pa = false → s.mem.copies = [] → s.memWf = true →
        lookup s e.quadrant e.die e.world e.priv e.st.vectorWalkFaults (privateBase e) .read = .ok pa fr →
        lookup s e.quadrant e.die e.world e.priv e.st.vectorWalkFaults (privateBase e) .write = .ok pa fw →
        let bs := (s.readL2 e.die e.world pa (16 * e.st.spilled.length)).2
        ∃ t st sp', exec (.splitRotation e.sid false) s = .next t ∧ t.strands.get? e.sid = some st ∧ st.slots[(0 : Fin 2)] = some sp' ∧
          sp'.lanes = BitVec.ofNat 32 (leNat (bs.take 4)) ∧ sp'.pos = leNat ((bs.drop 8).take 4) ∧ sp'.join = leNat ((bs.drop 12).take 4) ∧
          sp'.age = x.age ∧ sp'.run = 0 ∧ st.spilled = rest ++ [⟨sp.age, sp.div⟩] ∧
          t.mem.home.read pa (16 * e.st.spilled.length) = bs.drop 16 ++ natLE 4 sp.lanes.toNat ++ natLE 4 sp.exit.toNat ++ natLE 4 sp.pos ++ natLE 4 sp.join

/-- 08 R240, R241 and R228 with 05 R135 and 01 R32. The merge state is read as it stands at the merge (logs 42, 146). The record of
VREC has the scratchpad offset as its address (log 121), and that the operands of helper lanes are checked too is log 77's. After an emit a
committed move goes on (`moveOn`, 05 R148), and after a merge a raster command may be complete (`settleRaster`, 05 R136). -/
def Obligations.FragmentWords : Prop :=
  let works (c : VCtx) (l : Lane) : Bool := c.active l && !laneBit c.st.helpers l
  (∀ (s : State) (w : VWord) (c : VCtx), IssuesV s 0x90 w c → w.ty = .f32 →
    let off (k : Nat) (l : Lane) : Nat := (c.rdA s l + k) % 2 ^ 32
    LanesScratch s c (off 0) 4 true → LanesScratch s c (off 4) 4 true → LanesScratch s c (off 8) 4 true →
    LaneAnswer s (.vinterp w) c .f32 fun l =>
      let m (k : Nat) : FVal := decodeF .f32 (c.e.wg.scratch.readNat (off k l) 4)
      let rnd (x : FVal) : FVal := decodeF .f32 (roundF .f32 x c.mode)
      let d1 := rnd ((m 4).sub (m 0) c.mode)
      let d2 := rnd ((m 8).sub (m 0) c.mode)
      let t := rnd (((decodeF .f32 (c.rdB s l)).mul d1).add (m 0) c.mode)
      roundF .f32 (((decodeF .f32 (c.rdC s l)).mul d2).add t c.mode) c.mode)
  ∧ (∀ (s : State) (w : VWord) (c : VCtx), IssuesV s 0x91 w c → w.ty = .f32 →
    let q (l : Lane) : Nat := l.val / 4 * 4
    let diff (x y : Lane → Nat) : Prop := LaneAnswer s (.vderiv w) c .f32 fun l =>
      roundF .f32 ((decodeF .f32 (c.rdA s (Fin.ofNat 32 (x l)))).sub (decodeF .f32 (c.rdA s (Fin.ofNat 32 (y l)))) .rn) .rn
    (w.mod.toNat / 2 ^ 5 % 4 = 0 → diff (fun l => q l + 1) q) ∧ (w.mod.toNat / 2 ^ 5 % 4 = 1 → diff (fun l => q l + 2) q) ∧
    (w.mod.toNat / 2 ^ 5 % 4 = 2 → diff (fun l => l.val / 2 * 2 + 1) fun l => l.val / 2 * 2) ∧
    (w.mod.toNat / 2 ^ 5 % 4 = 3 → diff (fun l => q l + 2 + l.val % 2) fun l => q l + l.val % 2))
  ∧ (∀ (s : State) (w : VWord) (c : VCtx), c.st.frag = none →
    (IssuesV s 0x93 w c → exec (.vdiscard w) s = .next (c.faults s { code := .illegalInstr })) ∧
    (IssuesV s 0x92 w c → c.channelsOk s = true → exec (.vfragout w) s = .next (c.faults s { code := .illegalInstr })))
  ∧ (∀ (s : State) (w : VWord) (c : VCtx) (x : FragLanes), c.st.frag = some x →
    (IssuesV s 0x93 w c → AnswersV s (.vdiscard w) c (fun _ => 0) fun st =>
      { st with slots := c.st.slots } = { c.st with helpers := c.st.helpers ||| c.activeMask }) ∧
    (IssuesV s 0x92 w c →
      (∀ b, w.b = .reg b → c.n < b.val + 4 → exec (.vfragout w) s = .next (c.faults s { code := .illegalOperand })) ∧
      (c.channelsOk s = true → (∀ l, c.active l = true → c.rdA s l < 8) → ∀ k, s.contexts.get? c.e.l.ctx = some k →
        ∃ t st, exec (.vfragout w) s = .next t ∧ t.strands.get? c.e.sid = some st ∧ WentOn c st (fun _ => 0) ∧
          { st with slots := c.st.slots } = c.st ∧ t.mem = s.mem ∧ t.wgs = s.wgs ∧
          t.contexts.get? c.e.l.ctx = some { k with frags := k.frags ++ ((List.finRange 32).filter (works c)).map fun l =>
            { node := c.e.l.node, merge := x.merge, frame := x.frame, order := x.order, launch := c.e.wg.launch, px := x.px[l], py := x.py[l],
              target := c.rdA s l, z := x.z[l],
              s := [c.read s .w32 (operandPlus w.b 0) l, c.read s .w32 (operandPlus w.b 1) l, c.read s .w32 (operandPlus w.b 2) l,
                c.read s .w32 (operandPlus w.b 3) l].map (BitVec.ofNat 32) } })))
  ∧ (∀ (s : State) (w : VWord) (c : VCtx) (x : FragLanes) (l0 : Lane), IssuesV s 0x92 w c → c.st.frag = some x → c.channelsOk s = true →
    c.activeMask = BitVec.ofNat 32 (2 ^ l0.val) → 8 ≤ c.rdA s l0 →
    exec (.vfragout w) s = .next (c.faults s { code := .access, addr := 0, lanes := c.activeMask }))
  ∧ (∀ (s : State) (w : VWord) (c : VCtx), IssuesV s 0x94 w c →
    let off (l : Lane) : Nat := c.rdC s l + 256 * l.val + c.rdA s l
    let fits (l : Lane) : Prop := c.rdA s l % 4 = 0 ∧ 16 ≤ c.rdA s l ∧ c.rdA s l ≤ 252
    (∀ l0 : Lane, c.activeMask = BitVec.ofNat 32 (2 ^ l0.val) → ¬ fits l0 →
      exec (.vrec w) s = .next (c.faults s { code := .access, access := .write, addr := off l0, lanes := c.activeMask })) ∧
    ((∀ l, c.active l = true → fits l) → LanesScratch s c off 4 false → s.memWf = true → s.wgs.get? c.e.sid.wg = some c.e.wg →
      ∃ t g st, exec (.vrec w) s = .next t ∧ t.wgs.get? c.e.sid.wg = some g ∧
        (∀ a, (∀ l, works c l = true → a < off l ∨ off l + 4 ≤ a) → g.scratch.get a = c.e.wg.scratch.get a) ∧
        (∀ l, works c l = true → (∀ l', l < l' → works c l' = true → off l + 4 ≤ off l' ∨ off l' + 4 ≤ off l) →
          g.scratch.readNat (off l) 4 = c.rdB s l % 2 ^ 32) ∧
        g.tiles = c.e.wg.tiles ∧ t.mem = s.mem ∧ t.strands.get? c.e.sid = some st ∧ WentOn c st (fun _ => 0) ∧ { st with slots := c.st.slots } = c.st))
  ∧ (∀ (s : State) (w : VWord) (c : VCtx), IssuesV s 0x95 w c →
    (∀ l, works c l = true → let o := (c.rdC s l + 256 * l.val) % 2 ^ 32 + 16
      o + 240 ≤ c.e.scratchBytes ∧ scratchTagOk s c.e o = true ∧ scratchTagOk s c.e (o + 239) = true) → c.e.wg.badScratch = [] →
    let n := ((List.finRange 32).filter (works c)).length
    let answers (t : State) (f : Lane → W32) : Prop := ∃ st, t.strands.get? c.e.sid = some st ∧ WentOn c st (fun l => if works c l then f l else 0) (· = .g) ∧
      OnlyRegs c st ∧ (∀ r, st.vtag r = if w.nowb = false ∧ r = w.dst.val then .g else c.st.vtag r) ∧
      ∀ r l, st.vlane r l = if works c l = true ∧ w.nowb = false ∧ r = w.dst.val then f l else c.st.vlane r l
    let quiet : Prop := ∀ x, s.contexts.get? c.e.l.ctx = some x → x.move.state ≠ .committed
    (quiet → c.e.l.graphMade = false → ∀ l1, s.launches.get? c.e.wg.launch = some l1 → ∃ t, exec (.vemit w) s = .next t ∧ answers t (fun _ => 1) ∧
      t.mem = s.mem ∧ t.wgs = s.wgs ∧ t.contexts = s.contexts ∧
      t.launches.get? c.e.wg.launch = some { l1 with errors := l1.errors + BitVec.ofNat 32 n }) ∧
    (∀ l0 : Lane, c.e.l.graphMade = true → c.activeMask = BitVec.ofNat 32 (2 ^ l0.val) → works c l0 = true →
      let a := c.rdA s l0
      let o := (c.rdC s l0 + 256 * l0.val) % 2 ^ 32 + 16
      (256 ≤ a → quiet → ∃ t, exec (.vemit w) s = .next t ∧ answers t (fun _ => 1) ∧
        ∀ l1, s.launches.get? c.e.wg.launch = some l1 → t.launches.get? c.e.wg.launch = some { l1 with errors := l1.errors + 1 }) ∧
      (∀ (x : Context) (y : EdgeDesc) (t1 : State) (v : Nat), a < 256 → s.contexts.get? c.e.l.ctx = some x → x.img.edges[a]? = some y →
        emit s c.e.l.ctx c.e.wg.launch c.e.l.node ((c.e.l.batch.map BatchRec.depth).getD 0) a c.e.l.frame (c.rdB s l0)
          (c.e.wg.scratch.read o (32 * y.units - 16)) = .ok (t1, v) →
        let t2 := moveOn t1 c.e.l.ctx
        t2.strands.get? c.e.sid = some c.st → ∃ t, exec (.vemit w) s = .next t ∧ answers t (fun _ => BitVec.ofNat 32 v) ∧
          t.launches = t2.launches ∧ t.contexts = t2.contexts ∧ t.mem.home = t2.mem.home)))
  ∧ (∀ (s : State) (ctx node k : Nat) (c : Context), s.contexts.get? ctx = some c →
    (c.frags[k]? = none → exec (.fragmentMerge ctx node k) s = .next s) ∧
    ∀ f, c.frags[k]? = some f →
      (f.merge ≠ node → exec (.fragmentMerge ctx node k) s = .next s) ∧
      ((∃ g ∈ c.frags, g.node = f.node ∧ g.px = f.px ∧ g.py = f.py ∧ g.target = f.target ∧
          (g.frame < f.frame ∨ g.frame = f.frame ∧ g.order < f.order)) → exec (.fragmentMerge ctx node k) s = .next s) ∧
      ((∃ g ∈ c.frags.take k, g.node = f.node ∧ g.px = f.px ∧ g.py = f.py ∧ g.target = f.target ∧ g.frame = f.frame ∧ g.order = f.order) →
        exec (.fragmentMerge ctx node k) s = .next s) ∧
      ∀ (nd : NodeDesc) (s1 : State) (bs : List Byte), f.merge = node → mayMerge s ctx c k f = true → c.img.nodes[node]? = some nd →
        gread s ctx node c.world nd.launch 320 = .ok (s1, bs) →
        let goes (q : State) : Prop := exec (.fragmentMerge ctx node k) s =
          .next (moveOn (settleRaster (q.modCtx ctx fun c => { c with frags := c.frags.eraseIdx k }) ctx) ctx)
        let tg := parseTarget bs f.target
        let d := parseDepth bs
        let ta := tg.base + f.py * tg.pitch + pixelSize tg.format * f.px
        let da := d.base + f.py * d.pitch + 4 * f.px
        let paints (s2 : State) : Prop := ∀ s3 old s4, gread s2 ctx node c.world ta (pixelSize tg.format) = .ok (s3, old) →
          gwrite s3 ctx node c.world ta (natLE (pixelSize tg.format) (blendPixel tg (leNat old) f.s)) = .ok s4 → goes s4
        (mergeOk bs = false ∨ tg.enable = false → goes s1) ∧
        (mergeOk bs = true → tg.enable = true →
          (f.target ≠ 0 ∨ d.enable = false → paints s1) ∧
          ∀ s2 z, f.target = 0 → d.enable = true → gread s1 ctx node c.world da 4 = .ok (s2, z) →
            let ok := depthPasses d.compare f.z (BitVec.ofNat 32 (leNat z))
            (ok = false → goes s2) ∧ (ok = true → d.write = false → paints s2) ∧
            ∀ s3, ok = true → d.write = true → gwrite s2 ctx node c.world da (natLE 4 f.z.toNat) = .ok s3 → paints s3))
  ∧ ∀ (b ch : Nat) (p : List W32) (d : W32),
      let v (x : W32) : FVal := decodeF .f32 x.toNat
      let rn (x : FVal) : W32 := BitVec.ofNat 32 (roundF .f32 x .rn)
      let p3 := p.getD 3 0
      let under := (v d).mul (v (rn ((FVal.ofInt 1).sub (v p3) .rn)))
      (b = 0 → blendChannel b ch p d = p.getD ch 0) ∧ (b = 1 → ch = 3 → blendChannel b ch p d = rn ((v p3).add under .rn)) ∧
      (b = 1 → ch < 3 → blendChannel b ch p d = rn (((v (p.getD ch 0)).mul (v p3)).add under .rn)) ∧
      (b = 2 → blendChannel b ch p d = rn ((v (p.getD ch 0)).add (v d) .rn)) ∧ (b = 3 → blendChannel b ch p d = rn ((v (p.getD ch 0)).min (v d))) ∧
      (b = 4 → blendChannel b ch p d = rn ((v (p.getD ch 0)).max (v d)))

/-- 01 R15 to R22, 04 R99 to R114, 16 R311, 17 R325 and R326. The order among eligible cores, and when a round of deficits is drawn, are
the model's (log 112), and so are which granules are taken (log 131), the fields that the watchdog's record lacks (log 19) and the die by which
it is written (log 139). A write over a closed link is dropped and counted (log 95); a release makes every die apply what has been performed
(log 41). -/
def Obligations.LevelAndMemoryEvents : Prop :=
  (∀ (s : State) (id : Nat) (core : CoreId) (l : Launch), s.launches.get? id = some l →
    ((s.power.state ≠ .w0 ∨ draining s l.world core = true ∨ regcap s core < l.desc.regs ∨ partOf? s core l.world = none ∨
        (freeGranules s core).length < l.desc.granules ∨ fifosUsed s core &&& l.desc.fifos ≠ 0 ∨
        (∃ q, q < 4 ∧ 8 < quadrantUsed s core q + l.desc.inQuadrant q) ∨
        (∃ p, partOf? s core l.world = some p ∧ (p.granules < heldBy s core l.world + l.desc.granules ∨ p.slots < slotsUsed s core l.world + l.desc.strands))) →
      exec (.workgroupPlacement id [core]) s = .next s) ∧
    (mayStartLaunch s id l = false → exec (.workgroupPlacement id [core]) s = .next s) ∧
    (mayStartLaunch s id l = true → unitSize s l = 1 → levelLets s l core = true → turnLets s l core = true → canPlace s l.world l.desc core = true →
      let lv := priorityOf s l
      let k := drrKey core l.world lv
      let old := s.deficits.getD k 0
      (old ≤ 0 → roundDue s core lv = false → exec (.workgroupPlacement id [core]) s = .next s) ∧
      (old ≤ 0 → roundDue s core lv = true → ∃ t, exec (.workgroupPlacement id [core]) s = .next t ∧ { t with deficits := s.deficits } = s ∧
        t.deficits.getD k 0 = old + (((partOf? s core l.world).map PartEntry.weight).getD 0 : Nat)) ∧
      (0 < old → l.desc.strands ≤ 32 → ∃ t g, exec (.workgroupPlacement id [core]) s = .next t ∧
        let gs := (freeGranules s core).take l.desc.granules
        t.wgs.get? s.nextId = some g ∧ g.launch = id ∧ g.index = l.placed ∧ g.core = core ∧ g.granules = gs ∧ g.released = false ∧ g.tiles = [] ∧
        (∀ j : Fin 48, (t.granulesOf core)[j] = if j ∈ gs then .held s.nextId l.world else (s.granulesOf core)[j]) ∧
        (∀ c, c ≠ core → t.granulesOf c = s.granulesOf c) ∧
        (∀ i, i < l.desc.strands → ∃ st, t.strands.get? ⟨s.nextId, Fin.ofNat 32 i⟩ = some st ∧ st = firstStrand l l.placed i s.cycle ∧
          st.pc = (l.desc.scalarBase + 4 * l.desc.entries.getD i 0) % 2 ^ 64 ∧ st.role = l.desc.roles.getD i .vector ∧ st.ended = .no) ∧
        (∀ sid, sid.wg ≠ s.nextId → t.strands.get? sid = s.strands.get? sid) ∧
        t.launches.get? id = some { l with placed := l.placed + 1, firstPlaced := some (l.firstPlaced.getD s.cycle) } ∧
        t.insts.get? ⟨.unit, s.nextId⟩ = some (Inst.fresh (some ⟨.launch, id⟩) l.ctx l.frame) ∧
        t.deficits.getD k 0 = old - (l.desc.granules : Int) ∧ t.nextId = s.nextId + 1 ∧ t.mem = s.mem)))
  ∧ (∀ (s : State) (i : InstId) (x : Inst), s.insts.get? i = some x →
    let ends (i' : Instr) (y : Inst) (p : InstId → Inst → Inst → Prop) : Prop := ∃ q, exec i' s = .next (afterOver q i) ∧
      (x.parent ≠ some i → q.insts.get? i = some y) ∧ q.mem.home = s.mem.home ∧ q.mem.l1 = s.mem.l1 ∧ (∀ w ∈ s.mem.msgs, ∀ d, ∀ x ∈ q.mem.msgs, x.seq = w.seq → d ∈ x.applied) ∧
      (∀ j z, x.parent = some j → j ≠ i → s.insts.get? j = some z → ∃ z', q.insts.get? j = some z' ∧ p j z z') ∧
      (i.level = .unit → ∀ g, s.wgs.get? i.id = some g → ∃ g', q.wgs.get? i.id = some g' ∧ g'.released = true ∧ g'.granules = [] ∧ g'.scratch = [] ∧
        g'.fifos = [] ∧ ∀ j : Fin 48, (q.granulesOf g.core)[j] = match (s.granulesOf g.core)[j] with
          | .held k w => if k = i.id then .zeroing w else .held k w
          | h => h) ∧
      (i.level = .launch → ∀ l n m w lq, s.launches.get? i.id = some l → l.queue = some (n, m) → s.worlds.get? l.world = some w → w.queues.get? n = some lq →
        ∃ w' lq', q.worlds.get? l.world = some w' ∧ w'.queues.get? n = some lq' ∧ lq'.pending = lq.pending.filter fun p => p.2 ≠ i.id)
    (x.state ≠ .running ∨ instDone s i x = false → exec (.instanceComplete i) s = .next s) ∧
    (x.state = .running → instDone s i x = true →
      ends (.instanceComplete i) { x with state := .done } fun _ z z' => z' = { z with completed := z.completed + 1 }) ∧
    (x.state ≠ .cancelled ∨ x.settled = true ∨ mayStill s i = false → exec (.instanceSettle i) s = .next s) ∧
    (x.state = .cancelled → x.settled = false → mayStill s i = true →
      ends (.instanceSettle i) { x with settled := true } fun _ z z' => z' = { z with cancelled := z.cancelled + 1 }) ∧
    (i.level = .unit → instDone s i x = true → wgCommands s i.id = false ∧
      (∀ p ∈ s.strands, p.1.wg = i.id → p.2.ended ≠ .no ∧ p.2.laneQ = [] ∧ p.2.stores = []) ∧
      ∀ g, s.wgs.get? i.id = some g → (∀ x ∈ g.lastCopy, x.2.2 ≤ (s.copyQ x.1 x.2.1).reached) ∧ ∀ x ∈ g.lastColl, x.2 ≤ (s.collQs[x.1]).reached) ∧
    (i.level = .launch → instDone s i x = true → ∀ l, s.launches.get? i.id = some l → l.total ≤ l.placed ∧
      ∀ p ∈ s.insts, p.2.parent = some i → p.2.state = .done ∨ p.2.settled = true) ∧
    (i.level = .job → instDone s i x = true → x.closed = true))
  ∧ (∀ (s : State) (c : CoreId) (g : Fin 48),
    (∀ w, (s.granulesOf c)[g] = .zeroing w → ∃ t, exec (.granuleZeroingDone c g) s = .next t ∧ { t with granules := s.granules } = s ∧
      t.granulesOf c = (s.granulesOf c).set g .free ∧ ∀ d, d ≠ c → t.granulesOf d = s.granulesOf d) ∧
    ((∀ w, (s.granulesOf c)[g] ≠ .zeroing w) → exec (.granuleZeroingDone c g) s = .next s))
  ∧ (∀ (s : State) (e : Env), s.env? e.sid = some e →
    let scalar : Prop := e.st.readySince + 64 ≤ s.cycle ∧ scalarReady s e = true
    let vector : Prop := e.st.vecSince + 64 ≤ s.cycle ∧ (vectorReady s e 0 = true ∨ vectorReady s e 1 = true)
    ∃ t st, exec (.strandPromotion e.sid) s = .next t ∧ OnlyStrand s t e.sid ∧ t.strands.get? e.sid = some st ∧
      { st with promoted := e.st.promoted, vecPromoted := e.st.vecPromoted } = e.st ∧
      (st.promoted = true ↔ e.st.promoted = true ∨ scalar) ∧ (st.vecPromoted = true ↔ e.st.vecPromoted = true ∨ vector))
  ∧ (∀ (s : State) (e : Env) (k : Nat), s.env? e.sid = some e →
    ((∀ r ∈ e.st.returns.head?, r.id ≠ k) → exec (.integrityCheckFail e.sid k) s = .next s) ∧
    ∀ (r : Return) (rest : List Return), e.st.returns = r :: rest → r.id = k →
      let fails (c : LaneCheck) : Prop := ∃ x ∈ c.sectors, x ∈ s.mem.bad
      ((∀ c ∈ r.checks, ¬ fails c) ∨ e.st.vectorStop ≠ none ∨ e.wg.parked ≠ none → exec (.integrityCheckFail e.sid k) s = .next s) ∧
      (∀ c pre post, r.checks = pre ++ c :: post → (∀ x ∈ pre, ¬ fails x) → fails c → e.st.vectorStop = none → e.wg.parked = none →
        ∃ m : W32, (∀ l : Lane, laneBit m l = true ↔ ∃ x ∈ r.checks, x.lane = l.val ∧ fails x) ∧
          exec (.integrityCheckFail e.sid k) s = .next (raise (dropStores (drain s e.sid) e.sid fun y => y.vector && decide (k < y.id)) e.world e.die
            (strandRec e (.vector e.sid) { code := .poison, access := .read, addr := c.va, lanes := m } r.first))))
  ∧ (∀ (s : State) (d : Fin 4) (k : Nat) (w : WriteMsg), s.mem.msgs.find? (fun w => w.seq = k) = some w →
    let follows : Prop := w.stamp[w.die] = s.mem.clocks[d][w.die] + 1 ∧ ∀ j, j ≠ w.die → w.stamp[j] ≤ s.mem.clocks[d][j]
    let later (a : Nat) : Bool := s.mem.msgs.any fun x => decide (x.line = w.line) && decide (w.seq < x.seq) && x.applied.contains d && x.cells.any fun y => y.1 == a
    let closed : Prop := (w.die, d) ∈ s.hub.links ∨ (d, w.die) ∈ s.hub.links
    (d = w.die ∨ d ∈ w.applied ∨ ¬ follows → exec (.writeApply d k) s = .next s) ∧
    (d ≠ w.die → d ∉ w.applied → follows → closed → ∃ t, exec (.writeApply d k) s = .next t ∧ t.hub.dropped = s.hub.dropped + 1 ∧
      t.mem.home = s.mem.home ∧ t.mem.views = s.mem.views ∧ t.mem.clocks = s.mem.clocks.set d (s.mem.clocks[d].set w.die w.stamp[w.die])) ∧
    (d ≠ w.die → d ∉ w.applied → follows → ¬ closed → ∃ t, exec (.writeApply d k) s = .next t ∧ { t with mem := s.mem } = s ∧ t.mem.home = s.mem.home ∧
      t.mem.clocks = s.mem.clocks.set d (s.mem.clocks[d].set w.die w.stamp[w.die]) ∧ (∀ e, e ≠ d → t.mem.view e = s.mem.view e) ∧
      t.mem.view d = (s.mem.view d).writeCells (w.cells.filter fun c => !later c.1) ∧
      (w.red = true → (d, w.line) ∈ t.mem.stale) ∧ (w.red = false → t.mem.stale = s.mem.stale)))
  ∧ (∀ (s : State) (d : Fin 4) (line : Nat) (c : RedCopy), s.mem.copies.find? (fun c => decide (c.die = d) && c.line == line) = some c →
    let n := c.ty.bits / 8
    ∃ t, exec (.reductionCopyCombine d line) s = .next t ∧ t.mem.copies = s.mem.copies.filter (fun x => x ≠ c) ∧ t.mem.bad = s.mem.bad ∧
      t.mem.home = s.mem.home.writeCells ((c.words.map fun p => cellsAt (128 * line + p.1)
        (natLE n (combineRed c.op c.ty (s.mem.home.readNat (128 * line + p.1) n) p.2.toNat))).flatten) ∧
      { t with mem := s.mem, strands := s.strands } = s ∧
      ∀ k st, s.strands.get? k = some st → ∃ st', t.strands.get? k = some st' ∧ { st' with watch := st.watch } = st)
  ∧ (∀ (s : State) (id : Nat) (l : Launch), s.launches.get? id = some l →
    (l.desc.watchdog = 0 ∨ l.firstPlaced = none ∨ isRunning s ⟨.launch, id⟩ = false → exec (.watchdog id) s = .next s) ∧
    ∀ n, l.firstPlaced = some n → (s.cycle < n + l.desc.watchdog * 940 → exec (.watchdog id) s = .next s) ∧
      (0 < l.desc.watchdog → n + l.desc.watchdog * 940 ≤ s.cycle → isRunning s ⟨.launch, id⟩ = true →
        exec (.watchdog id) s = .next (cancelInst
          (raise s l.world (s.worldDie l.world) (mkRec (.launch id) { code := .watchdog } id 0 0xFF ⟨0, 0⟩ 0 0)) ⟨.launch, id⟩)))
  ∧ (∀ (s : State) (w : W32) (e : Env), s.cur = some (.scalar e.sid) → s.env? e.sid = some e →
      exec (.unassignedMajor w) s = .next (faultScalar s e { code := .illegalInstr }))
  ∧ ∀ (s : State) (w : BitVec 96) (e : Env) (slot : Fin 2) (sp : Split) (blk : Block) (blks : List Block),
      s.cur = some (.vector e.sid slot) → s.env? e.sid = some e → e.st.slots[slot] = some sp → e.st.laneQ = blk :: blks →
      exec (.unassignedVectorOpcode w) s = .next (VCtx.faults ⟨e, slot, sp, blk, 0, bareWord w.toNat⟩ s { code := .illegalInstr })

/-- 16 R307 to R311, 17 R328 to R337, 18 R338 to R345 and 19 R361, R365. Which walk ends first is free; a partition write of weight 0, a translation record that breaks a rule and the receipt's list are the model's (logs 46, 52, 53), so are ACCESS for a table entry and no save beyond the partition's memory (log 58), a second drain of a core (log 86), the physical address of a cocoon (log 85) and where the scheduler puts one (log 134), which granules a restore takes (log 131), what a restore reads back and what stays as the device keeps it (log 83), the halt that goes with an abandoned copy (log 158), when a world may be released (log 106), the report of a refused restore (log 133) and what a strand sees on its new core (log 132). -/
def Obligations.KernelAndMonitorOperations : Prop :=
  let room (s : State) (k addr : Nat) : Prop := ∀ g l, s.wgs.get? k = some g → s.launches.get? g.launch = some l → let q := stopIssue s [k]
    addr + (saveOne ((strandsOf q k).foldl completePhases q) k addr (savedTogether s l)).2 ≤ s.memSize g.core.die
  let zeroed (s t : State) (core : CoreId) (wg : Nat) : Prop := ∀ j : Fin 48, (t.granulesOf core)[j] = match (s.granulesOf core)[j] with
    | .held k w => if k = wg then .zeroing w else .held k w
    | h => h
  let saves (s t : State) (wg addr : Nat) : Prop := ∀ g l, s.wgs.get? wg = some g → s.launches.get? g.launch = some l → s.mem.copies = [] →
    s.memWf = true → let b := s.memBase g.core.die + addr
    ∃ g' p, t.wgs.get? wg = some g' ∧ g'.parked = some p ∧ p.addr = addr ∧ p.grouped = savedTogether s l ∧ g'.granules = [] ∧ g'.scratch = g.scratch ∧
      g'.tiles = g.tiles ∧ zeroed s t g.core wg ∧ t.mem.home.readNat b 4 = 1 ∧ t.mem.home.readNat (b + 4) 4 = l.world % 2 ^ 32 ∧
      t.mem.home.readNat (b + 8) 4 = g.launch % 2 ^ 32 ∧ t.mem.home.readNat (b + 12) 4 = g.index % 2 ^ 32 ∧
      t.mem.home.readNat (b + 16) 4 = l.desc.pword.toNat ∧ t.mem.home.readNat (b + 20) 1 = l.desc.strands % 256 ∧
      t.mem.home.readNat (b + 21) 1 = l.desc.regs % 256 ∧ t.mem.home.readNat (b + 32) 8 = p.size % 2 ^ 64 ∧ 256 ≤ p.size ∧
      (∀ a, a < b ∨ b + p.size ≤ a → t.mem.home.get a = s.mem.home.get a) ∧ t.events = s.events ++ [(0, .preempted g.launch addr)]
  (∀ (s : State) (d : Fin 4), let l := inProgress (s.xlat.walks.filter fun w => decide (w.die = d))
    l.length ≤ 64 ∧ (l = [] → exec (.pageWalk d) s = .next s) ∧
    (l ≠ [] → ∃ w ∈ l, let s0 : State := { s with xlat := { s.xlat with walks := s.xlat.walks.filter fun x => decide (x ≠ w) } }
      (∀ s1 c, walk s0 d w.world w.va w.access w.priv = (s1, .bad c) → exec (.pageWalk d) s = .next (leaveFault s1 w c)) ∧
      ∀ s1 pa lg u x wr r ix, walk s0 d w.world w.va w.access w.priv = (s1, .ok pa lg u x wr r ix) → ∃ t, exec (.pageWalk d) s = .next t ∧
        t.xlat.walks = s0.xlat.walks ∧ t.strands = (readDesc s1 w.die w.world ix).1.strands ∧ ∀ site ∈ [w.site, .l2 w.die], ∃ e,
          tlbFind t.xlat.tlb site w.world w.va = some e ∧ e.site = site ∧ e.pa = pa ∧ e.log2 = lg ∧ e.u = u ∧ e.x = x ∧ e.w = wr ∧ e.r = r ∧
            e.fmt = (readDesc s1 w.die w.world ix).2))
  ∧ (∀ (s : State) (d : Fin 4) (world va : Nat) (acc : AccessKind) (priv : Bool) (w : World), s.worlds.get? world = some w → w.valid = true →
    s.xlat.pwc = [] → s.mem.copies = [] → s.mem.msgs = [] → s.memBase d = 0 → va < 2 ^ 57 →
    let e4 := s.mem.home.readNat (w.root + 8 * (va / 2 ^ 48 % 512)) 8
    let e3 := s.mem.home.readNat (e4 / 64 * 64 + 8 * (va / 2 ^ 39 % 512)) 8
    let e2 := s.mem.home.readNat (e3 / 64 * 64 + 8 * (va / 2 ^ 30 % 512)) 8
    let e1 := s.mem.home.readNat (e2 / 64 * 64 + 8 * (va / 2 ^ 21 % 512)) 8
    let e0 := s.mem.home.readNat (e1 / 64 * 64 + 8 * (va / 2 ^ 16 % 32)) 8
    let table (e n : Nat) : Prop := e % 4 = 1 ∧ e / 64 % (n / 64) = 0 ∧ e / 2 ^ 52 = 0 ∧ e / 64 * 64 + n ≤ s.memSize d
    let ends (x : WalkEnd) : Prop := (walk s d world va acc priv).2 = x
    (s.memSize d < w.root + 8 * (va / 2 ^ 48 % 512) + 8 → ends (.bad .access)) ∧ (w.root + 4096 ≤ s.memSize d →
    (e4 % 2 = 0 → ends (.bad .page)) ∧
    (e4 % 4 = 1 → e4 / 64 % 64 = 0 → e4 / 2 ^ 52 = 0 → s.memSize d < e4 / 64 * 64 + 8 * (va / 2 ^ 39 % 512) + 8 → ends (.bad .access)) ∧
    (table e4 4096 → e3 % 2 = 0 → ends (.bad .page)) ∧
    (table e4 4096 → table e3 4096 → table e2 4096 → table e1 256 → (e0 % 2 = 0 → ends (.bad .page)) ∧ (e0 % 4 = 1 → ends (.bad .access)) ∧
      (e0 % 4 = 3 → e0 / 2 ^ 6 % 4 = 0 → e0 / 2 ^ 52 % 16 = 0 → e0 / 2 ^ 8 % 2 ^ 8 = 0 →
        let has (b : Nat) : Bool := e0.testBit b
        let may : Bool := (match acc with | .read => has 2 | .write => has 3 | .rmw => has 2 && has 3 | .fetch => has 4 | .none => true) && (priv || has 5)
        (may = false → ends (.bad .access)) ∧
        let pa := e0 / 2 ^ 8 % 2 ^ 44 * 256
        (may = true → pa.testBit 51 = true ∨ pa + 65536 ≤ s.memSize d → ends (.ok pa 16 (has 5) (has 4) (has 3) (has 2) (e0 / 2 ^ 56 % 256))) ∧
        (pa.testBit 51 = false → s.memSize d < pa + 65536 → ends (.bad .access))))))
  ∧ (∀ (s : State) (world va lg : Nat), s.xlat.inval = none →
    let begun (l : Nat) (a : Nat) : State := { s with xlat := { s.xlat with inval := some ⟨world, a, l⟩ } }
    (16 ≤ lg → lg ≤ 57 → exec (.inval world va lg) s = .next (begun lg va)) ∧ (lg < 16 ∨ 57 < lg → exec (.inval world va lg) s = .next s) ∧
    exec (.invalall world) s = .next (begun 57 0) ∧ exec .invalComplete s = .next s)
  ∧ (∀ (s : State) (i : Inval), s.xlat.inval = some i →
    (∀ w, s.worlds.get? i.world = some w → ∀ r ∈ w.records ++ w.unwritten, ∀ c n, r.agent ≠ .graphUnit c n) →
    ∃ t, exec .invalComplete s = .next t ∧ t.xlat.inval = none ∧
    (∀ e ∈ t.xlat.tlb, e.world = i.world → ∀ va, va / 2 ^ e.log2 = e.page → va / 2 ^ i.log2 ≠ i.va / 2 ^ i.log2) ∧
    (∀ e ∈ t.xlat.pwc, e.world = i.world → ∀ va, va / 2 ^ levelShift e.level = e.tag → va / 2 ^ i.log2 ≠ i.va / 2 ^ i.log2) ∧
    (∀ e ∈ s.xlat.tlb, e.world ≠ i.world → e ∈ t.xlat.tlb) ∧ t.events = s.events ++ [(0, .invalDone i.world)] ∧ t.mem = s.mem ∧
    (∀ w r sid n f st, s.worlds.get? i.world = some w → r ∈ w.records → r.occupied = true → r.waiting = true → r.code = .page →
      (r.address / 2 ^ i.log2 = i.va / 2 ^ i.log2 ∨ ∃ p ∈ r.pages, p / 2 ^ i.log2 = i.va / 2 ^ i.log2) → r.agent = .scalar sid → s.strands.get? sid = some st → st.scalarStop = some (.page n f) → n = r.seq →
      ∃ st', t.strands.get? sid = some st' ∧ st'.scalarStop = none))
  ∧ (∀ (s : State) (world : Nat), s.xlat.inval = none →
    (∀ (c : CoreId) (n : Fin 4), let x := s.copyQ c n
      (∀ k, x.cmds.find? (fun k => k.world == world && decide (k.state = .abandoned)) = some k → x.halted = true →
        ∃ t, exec (.qrestart world (.copy c n)) s = .next t ∧ t.copyQ c n = { x with halted := false, cmds := x.cmds.filter fun y => y.num ≠ k.num } ∧
          ∀ g, s.wgs.get? k.sid.wg = some g → ∃ g', t.wgs.get? k.sid.wg = some g' ∧
            g'.matrix.cmds = g.matrix.cmds.filter fun m => m.copy ≠ some (c, n, k.num)) ∧
      (x.halted = false ∨ (∀ k ∈ x.cmds, k.world = world → k.state ≠ .abandoned) → exec (.qrestart world (.copy c n)) s = .next s)) ∧
    (∀ w g, s.wgs.get? w = some g →
      (g.matrix.halted = true → (∃ m ∈ g.matrix.cmds, m.world = world ∧ m.num.isSome = true ∧ m.state = .abandoned) →
        ∃ t g', exec (.qrestart world (.matrix w)) s = .next t ∧ t.wgs.get? w = some g' ∧ g'.matrix.halted = false ∧
          g'.matrix.cmds = g.matrix.cmds.filter fun m => !(m.num.isSome && decide (m.state = .abandoned))) ∧
      (g.matrix.halted = false → exec (.qrestart world (.matrix w)) s = .next s)) ∧
    (∀ d : Fin 4, let x := s.collQs[d]
      (x.halted = true → (∃ k ∈ x.cmds, k.world = world ∧ k.state = .abandoned) → ∃ t, exec (.qrestart world (.coll d)) s = .next t ∧
        t.collQs = s.collQs.set d { x with halted := false, cmds := x.cmds.filter fun k => k.state ≠ .abandoned } ∧ t.mem = s.mem) ∧
      (x.halted = false → exec (.qrestart world (.coll d)) s = .next s)) ∧
    (∀ n, exec (.qrestart world (.launch world n)) s = .next s ∧ exec (.qrestart world (.raster world n)) s = .next s))
  ∧ (∀ (s : State) (world : Nat) (cores : List CoreId) (timeout area : Nat),
    ((∃ d ∈ s.drains, d.world ≠ world ∧ ∃ c ∈ cores, c ∈ d.cores) → exec (.drain world cores timeout area) s = .next s) ∧
    ((∀ d ∈ s.drains, d.world ≠ world → ∀ c ∈ cores, c ∉ d.cores) → ∃ t, exec (.drain world cores timeout area) s = .next t ∧ { t with launches := s.launches, drains := s.drains } = s ∧
      t.drains = s.drains ++ [⟨world, cores, s.cycle + timeout * 940, area⟩] ∧ (∀ c ∈ cores, draining t world c = true) ∧
      ∀ k l, s.launches.get? k = some l → t.launches.get? k = some (if l.world = world then { l with pausedAt := some l.placed } else l)) ∧
    (∃ t, exec (.drainResumption world) s = .next t ∧ (∀ c, draining t world c = false) ∧ (∀ v c, v ≠ world → draining t v c = draining s v c) ∧
      (∀ k l, s.launches.get? k = some l → t.launches.get? k = some (if l.world = world then { l with pausedAt := none } else l)) ∧
      ∀ k g, s.wgs.get? k = some g → t.wgs.get? k = some (if wgWorld s g = some world then { g with stopping := false } else g)) ∧
    ((∀ d ∈ s.drains, d.world = world → s.cycle < d.deadline ∨ victims s d = []) → exec (.drainTimeout world) s = .next s) ∧
    (∀ d ∈ s.drains, d.world = world → (∀ x ∈ s.drains, x.world = world → x = d) →
      ∀ k, d.deadline ≤ s.cycle → victims s d = [k] → saveGroup s k = [k] → saveReady (stopIssue s [k]) k = true →
        (room s k d.area → ∃ t, exec (.drainTimeout world) s = .next t ∧ saves s t k d.area) ∧
        (¬ room s k d.area → exec (.drainTimeout world) s = .next (stopIssue s [k]))))
  ∧ (∀ (s : State) (k addr : Nat) (g : Workgroup), s.wgs.get? k = some g →
    (g.released = true ∨ g.parked.isSome = true ∨ isRunning s (unitOf k) = false → exec (.forcedSave k addr) s = .next s) ∧
    (g.stopping = false → (∀ w, wgWorld s g = some w → draining s w g.core = false) → mayYield s k g = false → exec (.forcedSave k addr) s = .next s) ∧
    (g.released = false → g.parked = none → isRunning s (unitOf k) = true → (g.stopping = true ∨ (∃ w, wgWorld s g = some w ∧ draining s w g.core = true) ∨ mayYield s k g = true) →
      saveGroup s k = [k] →
      (saveReady (stopIssue s [k]) k = false → ∃ t, exec (.forcedSave k addr) s = .next t ∧ t.wgs.get? k = some { g with stopping := true } ∧ t.mem = s.mem) ∧
      (saveReady (stopIssue s [k]) k = true → let size := (saveAll (stopIssue s [k]) [k] addr).2 - addr
        let fits : Prop := (∃ w, wgWorld s g = some w ∧ draining s w g.core = true) ∨ cocoonFits (stopIssue s [k]) g.core.die addr size = true
        (room s k addr → fits → ∃ t, exec (.forcedSave k addr) s = .next t ∧ saves s t k addr) ∧
        (¬ room s k addr ∨ ¬ fits → exec (.forcedSave k addr) s = .next (stopIssue s [k])))))
  ∧ (∀ (s : State) (d : Fin 4) (addr n : Nat), let a := s.memBase d + addr
    cocoonFits s d addr n = true ↔ addr + n ≤ s.memSize d ∧
      (∀ p ∈ s.worlds, p.1 ≠ 0 → p.2.alive = true → ∀ f ∈ framesOf s p.2, f.1 + 2 ^ f.2 ≤ a ∨ a + n ≤ f.1) ∧
      ∀ x ∈ s.wgs, ∀ p, x.2.parked = some p → let b := s.memBase x.2.core.die + p.addr
        b + p.size ≤ a ∨ a + n ≤ b)
  ∧ (∀ (s : State) (sid : StrandId) (st : Strand), s.strands.get? sid = some st →
    ((∀ r ∈ st.returns, r.checks = []) → discardLoads s sid = s.modStrand sid fun _ => st.returns.foldl applyReturn { st with returns := [] }) ∧
    (∀ l r rest, st.returns = l ++ r :: rest → (∀ x ∈ l, x.checks = []) → r.checks ≠ [] →
      ∃ st', (discardLoads s sid).strands.get? sid = some st' ∧ st'.returns = [] ∧
        st'.stores = st.stores.filter (fun e => !(e.vector && decide (r.id < e.id))) ∧ st'.slots = r.before.slots ∧ st'.joins = r.before.joins ∧
        st'.base = r.before.base ∧ (l = [] → st'.v = r.before.v ∧ st'.masks = r.before.masks)))
  ∧ (∀ (s : State) (k : Nat) (core : CoreId) (g : Workgroup) (p : Parked) (l : Launch), s.wgs.get? k = some g → g.parked = some p →
    s.launches.get? g.launch = some l → p.grouped = false →
    (isRunning s (unitOf k) = false → exec (.cocoonRestore k core) s = .next s) ∧
    (isRunning s (unitOf k) = true →
      (tagsOk s g.core.die p l.desc = false → ∃ t, exec (.cocoonRestore k core) s = .next t ∧ { t with events := s.events } = s ∧
        t.events = s.events ++ [(l.world, .restoreRefused g.launch .illegalOperand)]) ∧
      (tagsOk s g.core.die p l.desc = true →
        let r := cocoonAt (arriveAt s l.world core) g.core.die p
        let area (o n : Nat) : Mem := Mem.write [] 0 ((r.drop (fieldNat r o 8)).take (l.desc.pword.toNat / 2 ^ n % 64 * 65536))
        (canPlace s l.world l.desc core = true → ∃ t g', exec (.cocoonRestore k core) s = .next t ∧ t.wgs.get? k = some g' ∧ g'.parked = none ∧ g'.core = core ∧
          g'.granules = (freeGranules s core).take l.desc.granules ∧ g'.scratch = area 56 12 ∧ g'.tiles = area 64 18 ∧ g'.matrix.cmds.length = g.matrix.cmds.length ∧
          (∀ j : Fin 48, (t.granulesOf core)[j] = if j ∈ g'.granules then .held k l.world else (s.granulesOf core)[j]) ∧
          (∀ i q x, p.copies[i]? = some (q, x) → let o := fieldNat r 80 8 + 128 * i
            ∃ y ∈ (t.copyQ core q).cmds, y.num = fieldNat r (o + 8) 8 ∧ y.sa.toNat = fieldNat r (o + 16) 8 ∧ y.sb.toNat = fieldNat r (o + 24) 8 ∧
              y.sc.toNat = fieldNat r (o + 32) 8 ∧ y.word.toNat = fieldNat r (o + 40) 4 ∧ y.progress = fieldNat r (o + 48) 2 ∧
              y.scale.toNat = fieldNat r (o + 52) 4 ∧ y.ahead = [] ∧ (x.state ≠ .abandoned → y.state = .ready) ∧
              (x.state = .abandoned → y.state = .abandoned ∧ (t.copyQ core q).halted = true)) ∧ t.mem.home = s.mem.home ∧ (∀ x ∈ t.mem.l1, x.core = core → x.world ≠ l.world) ∧
          (l.desc.strands ≤ 32 → ∀ i, i < l.desc.strands → ∀ st, s.strands.get? ⟨k, Fin.ofNat 32 i⟩ = some st → ∃ st', t.strands.get? ⟨k, Fin.ofNat 32 i⟩ = some st' ∧
            let b := 256 + 1536 * i
            let sv := p.saved.getD ⟨k, Fin.ofNat 32 i⟩ ⟨st.pc, st.unackDev, st.unackSys, st.tickets⟩
            (st'.pc = if st.pc = sv.pc then fieldNat r (b + 256) 8 else st.pc) ∧ (∀ j : Fin 31, (st'.s[j.val + 1]).toNat = fieldNat r (b + 8 * j.val) 8) ∧
            (∀ j : Fin 8, (st'.q[j]).toNat = fieldNat r (b + 272 + 8 * j.val) 8) ∧ st'.base.toNat = fieldNat r (b + 396) 4 ∧
            (∀ j : Fin 15, (st'.masks[j.val + 1]).toNat = fieldNat r (b + 336 + 4 * j.val) 4) ∧ st'.tileScale.toNat = fieldNat r (b + 252) 4 ∧
            st'.v.length = l.desc.regs ∧ st'.stores.length = fieldNat r (b + 250) 1 ∧ st'.wait = st.wait ∧
            st'.unackDev = BitVec.ofNat 32 (fieldNat r (b + 892) 4) + (st.unackDev - sv.dev) ∧
            st'.unackSys = BitVec.ofNat 32 (fieldNat r (b + 896) 4) + (st.unackSys - sv.sys) ∧ st'.readySince = s.cycle ∧ st'.vecSince = s.cycle)) ∧
        (canPlace s l.world l.desc core = false → p.told = true ∨ (∃ c ∈ allCores, canPlace s l.world l.desc c = true) →
          exec (.cocoonRestore k core) s = .next s) ∧
        ((∀ c, canPlace s l.world l.desc c = false) → p.told = false → ∃ t, exec (.cocoonRestore k core) s = .next t ∧
          t.events = s.events ++ [(l.world, .capacity g.launch l.desc.regs), (0, .capacity g.launch l.desc.regs)] ∧
          t.wgs.get? k = some { g with parked := some { p with told := true } }))))
  ∧ (∀ (s : State) (core : CoreId) (i : Fin 8) (v : W64), let n := v.toNat
    let e : PartEntry := ⟨v.getLsbD 63, n / 2 ^ 48 % 1024, n / 2 ^ 32 % 256, n / 2 ^ 16 % 64, n % 64, v &&& 0x83FF00FF003F003F⟩
    let new := (s.partReg core).set i e
    ((e.valid = true ∧ (e.weight = 0 ∨ 32 < e.slots ∨ 48 < e.granules)) ∨ partsOk s core new = false →
      exec (.worldPartitionWrite core i v) s = .next s) ∧
    ((e.valid = true → 1 ≤ e.weight ∧ e.slots ≤ 32 ∧ e.granules ≤ 48) → partsOk s core new = true →
      ∃ t, exec (.worldPartitionWrite core i v) s = .next t ∧ { t with partRegs := s.partRegs } = s ∧ t.partReg core = new ∧
        ∀ c, c ≠ core → t.partReg c = s.partReg c) ∧
    (∀ p : Vector PartEntry 8, partsOk s core p = true →
      ((p.toList.filter PartEntry.valid).map PartEntry.world).Nodup ∧ ((p.toList.filter PartEntry.valid).map PartEntry.granules).sum ≤ 48 ∧
        ((p.toList.filter PartEntry.valid).map PartEntry.slots).sum ≤ 32))
  ∧ (∀ (s : State) (world : Nat) (root qb : W64) (depth : Nat) (w : World), s.worlds.get? world = some w →
    let fits : Prop := root.toNat % 4096 < 2 ∧ qb.toNat % 4096 = 0 ∧ ∃ k, 4 ≤ k ∧ k ≤ 16 ∧ depth = 2 ^ k
    (¬ fits → exec (.worldTranslationRecord world root qb depth) s = .next s) ∧
    (fits → ∃ t, exec (.worldTranslationRecord world root qb depth) s = .next t ∧ { t with worlds := s.worlds } = s ∧
      t.worlds.get? world = some { w with valid := root.getLsbD 0, root := root.toNat / 4096 * 4096, queueBase := qb.toNat, depth := depth } ∧
      ∀ k, k ≠ world → t.worlds.get? k = s.worlds.get? k))
  ∧ (∀ (s : State) (world : Nat) (bad : List Nat) (w : World), s.worlds.get? world = some w →
    (world = 0 ∨ w.alive = false ∨ worldIdle s world = false → exec (.worldReleaseScrub world bad) s = .next s) ∧
    (world ≠ 0 → w.alive = true → worldIdle s world = true → s.mem.copies = [] → let fr := framesOf s w
      ∃ t w', exec (.worldReleaseScrub world bad) s = .next t ∧ t.worlds.get? world = some w' ∧ w'.alive = false ∧ w'.valid = false ∧
        (∀ a, t.mem.home.get a = if inFrames fr a = true then 0 else s.mem.home.get a) ∧
        (∀ e ∈ t.xlat.tlb, e.world ≠ world) ∧ (∀ x ∈ t.mem.l1, x.world ≠ world) ∧ (∀ x ∈ t.mem.l2, x.world ≠ world) ∧
        ∃ r, w'.receipts = w.receipts ++ [r] ∧ fieldNat r 0 4 = world % 2 ^ 32 ∧
          (bad = [] → s.mem.retired = [] → r.length = 198 ∧ fieldNat r 4 4 = 0 ∧ fieldNat r 16 4 = 0 ∧
            fieldNat r 8 8 = ((fr.map fun f => 2 ^ f.2).foldl (· + ·) 0) % 2 ^ 64) ∧
          (∀ p, bad = [p] → s.mem.retired = [] → p % 65536 = 0 → inFrames fr p = true → r.length = 206 ∧ fieldNat r 4 4 = 1 ∧ fieldNat r 16 4 = 1 ∧
            fieldNat r 84 8 = p % 2 ^ 64 ∧ p ∈ t.mem.retired)))
  ∧ ∀ (s : State) (rest : List Input) (p : Bool) (m : SignedImage) (key : List Byte) (r : Fin 16) (id : Nat),
      s.inbox = .createWorld p m key r id :: rest → s.power.state = .w0 →
      (s.trust.stage = .halted → exec .worldCreate s = .next s) ∧
      (s.trust.stage ≠ .halted → s.trust.stage ≠ .running ∨ idFree s id = false ∨ (p = true ∧ s.trust.debugOpen = true) → exec .worldCreate s = .next { s with inbox := rest }) ∧
      (s.trust.stage = .running → idFree s id = true → (p = true → s.trust.debugOpen = false) → ∃ t w,
        exec .worldCreate s = .next (if Config.ed448Verify key m.bytes m.signature = true then t else { s with inbox := rest }) ∧
        t.worlds.get? id = some w ∧ w.alive = true ∧ w.valid = false ∧ w.protect = p ∧ w.register = 8 + r.val ∧ w.records = [] ∧ w.served = [] ∧
        { t with inbox := s.inbox, trust := s.trust, worlds := s.worlds } = s ∧
        ∀ i : Fin 24, t.trust.mr[i] = if i.val = 8 + r.val then
          (Config.shake256 (s.trust.mr[i] ++ (Config.shake256 m.bytes).toList)).toList else s.trust.mr[i])

/-- 05 R121 to R151 and 15 R300 to R302. The port of control datagrams is that of the first remote edge (log 43). After each arrival a move goes on as far as it can (`moveOn`). A page that the graph unit needs and that faults stops it or reads as zeros as log 40 says. The model's are also a cancelled run's dropped launches (log 69), the fields that are checked of a datagram (log 148), the dropped arrival of a frame that this chip does not receive (log 162) and the answer to a repeated datagram, whose timer stays (log 161). -/
def Obligations.GraphTimeAndDatagrams : Prop :=
  let holds (s : State) (ctx : Nat) (c : Context) : Prop := s.contexts.get? ctx = some c
  (∀ (s : State) (ctx : Nat) (c : Context), holds s ctx c → let f : Nat := match c.current with | some k => k + 1 | none => c.first
    (c.stopped = true ∨ (s.micros : Int) + c.offset < c.img.epoch + f * c.img.period → exec (.frameStart ctx) s = .next s) ∧
    (c.stopped = false → (c.img.epoch : Int) + f * c.img.period ≤ s.micros + c.offset →
      (∀ g, startNodes s ctx f c = .error g → exec (.frameStart ctx) s = .next (graphStop s ctx c.world g)) ∧
      ∀ s1, startNodes s ctx f c = .ok s1 → ∃ t c', exec (.frameStart ctx) s = .next t ∧ holds t ctx c' ∧ c'.current = some f ∧
        (c.move.state = .idle → c'.move = c.move ∧ c'.cut = c.cut) ∧
        (c.move.state = .proposed → f + 1 < c.move.frame → c'.move = { c.move with doneStages := c'.move.doneStages }) ∧
        (c.move.state = .proposed → c.move.frame ≤ f + 1 → c.move.deferrals < 3 → c'.move.state = .proposed ∧ c'.move.frame = c.move.frame + 1 ∧
          c'.move.deferrals = c.move.deferrals + 1 ∧ (c.world, .cutDefer ctx (c.move.frame + 1)) ∈ t.events) ∧
        (c.move.state = .proposed → c.move.frame ≤ f + 1 → 3 ≤ c.move.deferrals → c'.move.state = .aborting ∧ c'.cut = c.cut ∧
          (c.world, .cutAbort ctx false) ∈ t.events) ∧
        (c.move.state = .committed → c.move.frame ≤ f → c.move.phaseDone = false → c'.phase = c.phase + 1)))
  ∧ (∀ (s : State) (ctx n f : Nat) (c : Context) (x : NodeDesc), holds s ctx c → c.img.nodes[n]? = some x →
    let passed (g : Nat) : Prop := (c.img.epoch : Int) + g * c.img.period + x.deadline ≤ s.micros + c.offset
    let due : Prop := passed f ∧ ∃ k, c.current = some k ∧ f ≤ k
    (¬ due ∨ x.trigger = 0xFF → exec (.nodeFrameDeadline ctx n f) s = .next s) ∧
    (due → x.trigger ≠ 0xFF → let s1 := markDeadlines s ctx x.trigger
      (∀ s2, launchNode s1 ctx n = .ok s2 → exec (.nodeFrameDeadline ctx n f) s = .next (moveOn s2 ctx)) ∧
      (∀ g, launchNode s1 ctx n = .error g → exec (.nodeFrameDeadline ctx n f) s = .next (moveOn (graphStop s1 ctx c.world g) ctx)) ∧
      ∀ d, c.img.edges[x.trigger]? = some d → d.consumer = n → ∃ c1, holds s1 ctx c1 ∧ { s1 with contexts := s.contexts } = s ∧
        ∀ (i : Nat) (k : EdgeFrame), (c.edgeOf x.trigger).frames[i]? = some k →
          (k.cutAt.isSome = true ∨ ¬ passed k.frame → (c1.edgeOf x.trigger).frames[i]? = some k) ∧
          (k.cutAt = none → passed k.frame → (c1.edgeOf x.trigger).frames[i]? = some { k with cutAt := some k.delivered })))
  ∧ (∀ (s s2 : State) (ctx n fuel hi : Nat) (late : Bool) (c : Context) (x : NodeDesc) (d : EdgeDesc) (k : EdgeFrame), holds s ctx c →
    c.img.nodes[n]? = some x → c.img.edges[x.trigger]? = some d → nextTaken d (c.edgeOf x.trigger) = some k → x.kind ≠ 2 → 0 < d.batch →
    let last := min ((k.taken / d.batch + 1) * d.batch) d.slots
    (c.mayLaunch n k.frame = false → launchReady ctx n (fuel + 1) s = .ok s) ∧
    (c.mayLaunch n k.frame = true → (∀ e ∈ k.cutAt, e ≤ k.taken ∨ last ≤ e) → k.delivered < last → launchReady ctx n (fuel + 1) s = .ok s) ∧
    (c.mayLaunch n k.frame = true →
      (late = true ∧ k.cutAt = some hi ∧ k.taken < hi ∧ hi < last) ∨ (late = false ∧ hi = last ∧ hi ≤ k.delivered ∧ ∀ e ∈ k.cutAt, e ≤ k.taken ∨ last ≤ e) →
      launchRange ctx n x.trigger k.frame late (hi - k.taken) k.taken hi s = .ok s2 →
      launchReady ctx n (fuel + 1) s = launchReady ctx n fuel s2))
  ∧ (∀ (s : State) (ctx n : Nat) (b : Batch) (c : Context) (x : NodeDesc) (s1 : State) (bs : List Byte) (d : LaunchDesc), holds s ctx c →
    c.img.nodes[n]? = some x → (runDead s ctx c b.frame = true → ∃ t, graphLaunch s ctx n b = .ok t ∧ t.launches = s.launches) ∧
    (runDead s ctx c b.frame = false → x.kind = 0 → gread s ctx n c.world x.launch 256 = .ok (s1, bs) → graphDesc s1 ctx c.world x.launch bs = some d →
    ∃ t l id, graphLaunch s ctx n b = .ok t ∧ t.launches.get? id = some l ∧ l.graphMade = true ∧ l.node = n ∧ l.frame = b.frame ∧ l.ctx = ctx ∧
      l.desc = d ∧ l.total = d.workgroups ∧ l.placed = 0 ∧ ∃ r, l.batch = some r ∧ r.frame = b.frame ∧ r.firstSlot = b.first ∧ r.count = b.count ∧
        r.edge = b.edge ∧ r.depth = b.depth ∧ r.deadline = b.deadline ∧ r.phase = c.phase))
  ∧ (∀ (s : State) (ctx e : Nat) (c : Context) (d : EdgeDesc), holds s ctx c → c.img.edges[e]? = some d → settleBase c e = c →
    let f := (c.edgeOf e).oldest
    let due : Prop := c.receives d f = true ∧ (c.img.epoch : Int) + f * c.img.period + d.budget ≤ s.micros + c.offset
    (¬ due → ∃ t, exec (.edgeDeadline ctx e) s = .next t ∧ holds t ctx c ∧ { t with contexts := s.contexts } = s) ∧
    (due → let s0 := (s.modCtx ctx fun c => settleBase c e).modCtx ctx fun c => c.modEdge e fun x => x.putFrame { x.frameOf f with closed := true }
      (∀ s1, advanceEdge s0 ctx e = .ok s1 → exec (.edgeDeadline ctx e) s = .next (moveOn s1 ctx)) ∧ ∃ c', holds s0 ctx c' ∧ (c'.edgeOf e).closedAt f = true))
  ∧ (∀ (s : State) (p : Fin 4) (o : OutDatagram),
    let left (q : List OutDatagram) : Prop := ∃ a b, s.ports[p].queue = a ++ o :: b ∧ q = a ++ b
    (s.ports[p].queue.find? (maySend s) = some o → ∀ c, holds s o.ctx c → ∃ t c', exec (.datagramSend p) s = .next t ∧ left t.ports[p].queue ∧
      t.ports[p].sent = s.ports[p].sent ++ [(o.peer, o.dg)] ∧ holds t o.ctx c' ∧ (c'.edgeOf o.edge).codec.nextSend = s.micros + ((32 + o.dg.length) * 8 + o.rate - 1) / o.rate) ∧
    (s.ports[p].queue.find? (expired s) = some o → ∀ c, holds s o.ctx c → ∃ t c', exec (.datagramExpired p) s = .next t ∧ left t.ports[p].queue ∧
      t.ports[p].sent = s.ports[p].sent ∧ holds t o.ctx c' ∧ (c'.edgeOf o.edge).expired = (c.edgeOf o.edge).expired + 1) ∧
    (∀ c, holds s o.ctx c → (maySend s o = true → s.micros + c.offset < o.expires) ∧ (expired s o = true ↔ (o.expires : Int) ≤ s.micros + c.offset)) ∧
    (s.ports[p].queue = [] → exec (.datagramSend p) s = .next s ∧ exec (.datagramExpired p) s = .next s))
  ∧ (∀ (s : State) (a : Arrival) (ok : Bool) (rest : List Input), s.power.state = .w0 → s.trust.stage ≠ .halted → s.inbox = .datagram a ok :: rest →
    (gramOk s a ok = true → exec .malformedDatagram s = .next s) ∧
    (gramOk s a ok = false →
      (∀ c, a.dg.context < 16384 → holds s a.dg.context c → c.world = a.world → ok = true → a.dg.kind = 1 ∨ a.dg.kind = 2 →
        (c.img.edges[a.dg.edge]?).isSome = true → ∃ t c', exec .malformedDatagram s = .next t ∧ holds t a.dg.context c' ∧ t.ports = s.ports ∧ t.inbox = rest ∧
          (c'.edgeOf a.dg.edge).malformed = (c.edgeOf a.dg.edge).malformed + 1) ∧
      (ok = false ∨ (a.dg.kind ≠ 1 ∧ a.dg.kind ≠ 2) → ∃ t, exec .malformedDatagram s = .next t ∧ t.contexts = s.contexts ∧ t.inbox = rest ∧
        t.ports[a.port].malformed = s.ports[a.port].malformed + 1)))
  ∧ (∀ (s : State) (a : Arrival) (rest : List Input) (c : Context) (d : EdgeDesc) (s1 : State) (c1 : Context), s.power.state = .w0 → s.trust.stage ≠ .halted →
    s.inbox = .datagram a true :: rest → gramOk s a true = true → holds s a.dg.context c → c.img.edges[a.dg.edge]? = some d →
    let k := a.dg.context
    let e := a.dg.edge
    let s0 : State := noteGot { s with inbox := rest } (a.port.val + 2) a.peer
    (c.receives d a.dg.frame = false →
      let coming : Prop := c.move.state = .acked ∧ ({ c with move := { c.move with state := .committed } } : Context).receives d a.dg.frame = true
      ∃ q, (a.dg.kind = 1 → exec .data s = .next (moveOn q k)) ∧ (a.dg.kind = 2 → exec .parity s = .next (moveOn q k)) ∧
        (¬ coming → q = s0) ∧ (coming → holds q k { c with move := { c.move with held := c.move.held ++ [a.dg] } } ∧ { q with contexts := s0.contexts } = s0)) ∧
    (c.receives d a.dg.frame = true → closeDue k e (dueFuel s0 k e) s0 = .ok s1 → holds s1 k c1 →
      let y := c1.edgeOf e
      let n : W32 := BitVec.ofNat 32 a.dg.records
      let counts (f : EdgeState → EdgeState) (ev : List (Nat × Event)) : Prop := ∃ q c', exec .data s = .next (moveOn q k) ∧ holds q k c' ∧
        q.events = s1.events ++ ev ∧ c'.edgeOf e = { f y with highest := BitVec.ofNat 32 (max y.highest.toNat a.dg.sequence) }
      (a.dg.kind = 1 → y.closedAt a.dg.frame = true → counts (fun y => { y with late := y.late + n }) []) ∧
      (a.dg.kind = 1 → y.closedAt a.dg.frame = false → y.oldest + 4 ≤ a.dg.frame → counts (fun y => { y with early := y.early + n }) [(c1.world, .early k e)]) ∧
      (a.dg.kind = 2 → y.closedAt a.dg.frame = true ∨ y.oldest + 4 ≤ a.dg.frame → exec .parity s = .next (moveOn s1 k)) ∧
      (y.closedAt a.dg.frame = false → a.dg.frame < y.oldest + 4 →
        (∀ s2 s3 s4, a.dg.kind = 1 →
          placeGram (s1.modCtx k fun c => c.modEdge e fun x => { x with highest := BitVec.ofNat 32 (max x.highest.toNat a.dg.sequence) }) k e a.dg.frame
            a.dg.sequence a.dg.records d a.dg.payload = .ok s2 →
          useParities k e a.dg.frame d 64 s2 = .ok s3 → advanceEdge s3 k e = .ok s4 → exec .data s = .next (moveOn s4 k)) ∧
        (∀ s3 s4, a.dg.kind = 2 → useParities k e a.dg.frame d 64 (s1.modCtx k fun c => c.modEdge e fun x =>
            x.putFrame { x.frameOf a.dg.frame with parities := (x.frameOf a.dg.frame).parities ++ [(a.dg.first, a.dg.group, a.dg.payload)] }) = .ok s3 →
          advanceEdge s3 k e = .ok s4 → exec .parity s = .next (moveOn s4 k)))))
  ∧ (∀ (s : State) (ctx e f : Nat) (c : Context) (d : EdgeDesc) (r : List Byte), holds s ctx c →
    let slot := fieldNat r 8 2
    ((((c.edgeOf e).frameOf f).slots.get? slot).isSome = true → ∃ t c', placeOne ctx e f d (.ok s) r = .ok t ∧ holds t ctx c' ∧ t.mem = s.mem ∧
      c'.edgeOf e = { c.edgeOf e with dup := (c.edgeOf e).dup + 1 }) ∧
    (((c.edgeOf e).frameOf f).slots.get? slot = none →
      placeOne ctx e f d (.ok s) r = placeRecord s ctx e f slot (fieldNat r 11 1) ((r.drop 16).take (32 * d.units - 16))))
  ∧ (∀ (s : State) (a : Arrival) (rest : List Input) (ctx : Nat) (c : Context), s.power.state = .w0 → s.trust.stage ≠ .halted → s.inbox = .datagram a true :: rest →
    a.dg.context = ctx → ctx < 16384 → holds s ctx c → c.world = a.world → c.img.paired = true → controlOk c a.dg = true →
    let g := a.dg
    let m := c.move
    let s0 : State := noteGot { s with inbox := rest } (a.port.val + 2) a.peer
    let gram (kind frame first seq : Nat) : Datagram := ⟨kind, c.img.peerContext, 0xFF, 0, 0, frame, seq, first, 0, []⟩
    let ends (i : Instr) (p : State → Context → Prop) : Prop := ∃ q c', exec i s = .next (moveOn q ctx) ∧ holds q ctx c' ∧ p q c'
    let posts (q : State) (x : Datagram) : Prop := ∃ more, q.ports[ctlPort c].sent = s.ports[ctlPort c].sent ++ (peerOf c c.cut, x) :: more
    let stays (i : Instr) : Prop := exec i s = .next (moveOn s0 ctx)
    let again (i : Instr) (x : Datagram) : Prop := (g ∉ m.answered → stays i) ∧ (g ∈ m.answered → ends i fun q c' => c' = c ∧ posts q x)
    let named := m.num.toNat = g.first
    let adopts : Prop := ends .cutPropose fun q c' => c'.move.state = .acked ∧ c'.move.frame = g.frame ∧ c'.move.config = fieldNat g.payload 0 1 ∧
      c'.move.num = BitVec.ofNat 32 g.first ∧ (m.num.toNat ≤ m.top.toNat → c'.move.top = BitVec.ofNat 32 (max m.top.toNat g.first)) ∧ c'.move.initiator = false ∧ g ∈ c'.move.answered ∧ c'.cut = c.cut ∧
      posts q (gram 0x11 g.frame (g.first % 2 ^ 32) 0) ∧ (m.state = .proposed ∨ m.state = .aborting → (c.world, .cutAbort ctx true) ∈ q.events)
    (g.kind = 0x10 →
      (m.state = .proposed → c.img.far = false → stays .cutPropose) ∧
      (g ∈ m.answered → m.state ≠ .proposed ∨ c.img.far = true → again .cutPropose (gram 0x11 g.frame g.first 0)) ∧
      (g ∉ m.answered → (m.state = .idle → adopts) ∧ (m.state = .acked → m.frame ≤ g.frame → adopts) ∧
        (m.state = .acked → g.frame < m.frame → stays .cutPropose) ∧ (m.state = .proposed → c.img.far = true → adopts) ∧
        (m.state = .aborting → c.img.far = true → m.initiator = true → adopts) ∧
        (m.state = .aborting → c.img.far = false ∨ m.initiator = false → stays .cutPropose) ∧
        (m.state = .committed ∨ m.state = .failed → stays .cutPropose))) ∧
    (g.kind = 0x11 → let inTime : Prop := ∀ k, c.current = some k → k + 1 < m.frame
      (m.state = .proposed → named → m.frame = g.frame → inTime → ends .cutAck fun q c' => c'.move.state = .committed ∧ c'.move.frame = m.frame ∧ c'.cut = c.cut ∧
        g ∈ c'.move.answered ∧ posts q (gram 0x12 m.frame m.num.toNat 0)) ∧
      (¬ named → stays .cutAck) ∧
      (named → m.state ≠ .proposed ∨ m.frame ≠ g.frame ∨ ¬ inTime → again .cutAck (gram 0x12 g.frame g.first 0))) ∧
    (g.kind = 0x12 → (¬ named → stays .cutCommit) ∧
      (named → m.state = .acked → m.frame = g.frame → ends .cutCommit fun q c' => c'.move.state = .committed ∧ g ∈ c'.move.answered ∧
        posts q (gram 0x13 g.frame m.num.toNat 0)) ∧
      (named → m.state ≠ .acked ∨ m.frame ≠ g.frame → again .cutCommit (gram 0x13 g.frame g.first 0))) ∧
    (g.kind = 0x13 → ends .commitAck fun q c' => q.ports = s.ports ∧
      c' = { c with move := { m with ctls := m.ctls.filter fun x => !(x.dg.kind == 0x12 && x.dg.frame == g.frame && x.dg.first == g.first) } }) ∧
    (g.kind = 0x14 → (¬ named → stays .cutAbort) ∧ (named → m.state = .committed ∨ m.state = .failed → stays .cutAbort) ∧
      (named → m.state = .idle → again .cutAbort (gram 0x15 g.frame g.first 0)) ∧
      (named → m.state = .proposed ∨ m.state = .aborting ∨ m.state = .acked → ends .cutAbort fun q c' => c'.move.state = .idle ∧ c'.move.num = m.num ∧
        c'.move.stored = [] ∧ c'.cut = c.cut ∧ posts q (gram 0x15 g.frame m.num.toNat 0) ∧ (c.world, .cutAbort ctx false) ∈ q.events)) ∧
    (g.kind = 0x15 → (m.state = .aborting → named → ends .abortAck fun q c' => c'.move.state = .idle ∧ c'.move.num = m.num ∧ c'.cut = c.cut ∧ q.ports = s.ports) ∧
      (m.state ≠ .aborting ∨ ¬ named → stays .abortAck)) ∧
    (g.kind = 0x20 → let mine := m.num.toNat = fieldNat g.payload 0 4
      (¬ mine → stays .handover) ∧
      (mine → m.state = .acked ∨ m.state = .committed → m.stored.get? g.sequence = none → ends .handover fun q c' =>
        c'.move.state = .acked ∧ m.state = .acked ∧ c'.move.stored.get? g.sequence = some g.payload ∧ c'.move.total = some g.first ∧
          posts q (gram 0x21 g.frame m.num.toNat g.sequence) ∨ m.state = .committed ∧ posts q (gram 0x21 g.frame m.num.toNat g.sequence)) ∧
      (mine → m.state = .acked ∨ m.state = .committed → (m.stored.get? g.sequence).isSome = true →
        again .handover (gram 0x21 g.frame (fieldNat g.payload 0 4) g.sequence)) ∧
      (mine → m.state ≠ .acked → m.state ≠ .committed → again .handover (gram 0x21 g.frame (fieldNat g.payload 0 4) g.sequence))) ∧
    (g.kind = 0x21 → (¬ named → stays .handoverAck) ∧ (named → exec .handoverAck s = .next (moveOn (moveOn (s0.modCtx ctx fun c =>
      { c with move := { c.move with ctls := c.move.ctls.filter fun x => !(x.dg.kind == 0x20 && x.dg.sequence == g.sequence) } }) ctx) ctx))))
  ∧ (∀ (s : State) (ctx k : Nat) (c : Context), holds s ctx c →
    (c.move.state = .idle → moveOn s ctx = s) ∧
    (c.move.state ≠ .idle → c.move.state ≠ .committed → ∃ l, moveOn s ctx = s.modMove ctx fun m => { m with doneStages := l }) ∧
    (c.img.paired = true → c.move.state = .proposed ∨ c.move.state = .acked ∨ c.move.state = .aborting → ∃ c' more, holds (abandonMove s ctx) ctx c' ∧
      c'.move.state = .aborting ∧ c'.move.num = c.move.num ∧ c'.cut = c.cut ∧ (abandonMove s ctx).ports[ctlPort c].sent = s.ports[ctlPort c].sent ++
        (peerOf c c.cut, ⟨0x14, c.img.peerContext, 0xFF, 0, 0, c.move.frame, 0, c.move.num.toNat, 0, []⟩) :: more) ∧
    (c.move.state = .committed → c.move.tableSent = false → (c.move.doneStages = [] → sendStages s ctx = s) ∧
      (∀ n rest g, c.move.doneStages = n :: rest → n ∉ rest → n ∉ c.move.sentStages → sendStage s ctx c n = .error g → (sendStages s ctx).ports = s.ports) ∧
      (∀ n t, c.move.doneStages = [n] → n ∉ c.move.sentStages → sendStage s ctx c n = .ok t → sendStages s ctx = t)) ∧
    (∀ e d x p, p ∈ EdgeState.hist x → x.base + 1 ≤ p.1 + 2 ∨ c.current.getD 0 ≤ p.1 + 2 ∨ (c.move.state ≠ .idle ∧ c.move.frame ≤ p.1 + 2) →
      p ∈ (turnFrame c e d x).hist) ∧
    (∀ old bs d, let e := fieldNat bs 0 4
      let x := c.edgeOf e
      let y := (takeEntry old c bs).edgeOf e
      c.img.edges[e]? = some d →
      (c.receives d old = true → y.late = x.late ∧ y.dup = x.dup) ∧
      (c.receives d old = false → y.late = x.late + BitVec.ofNat 32 (fieldNat bs 8 4) ∧ y.dup = x.dup + BitVec.ofNat 32 (fieldNat bs 12 4)) ∧
      (c.sends d old = false → y.codec.last = BitVec.ofNat 32 (fieldNat bs 4 4))) ∧
    (c.move.ctls[k]? = none → exec (.controlResend ctx k) s = .next s ∧ exec (.failed ctx k) s = .next s) ∧
    ∀ x, c.move.ctls[k]? = some x → let due : Prop := c.img.period ≤ 4 * (s.micros - x.sentAt)
      (¬ due ∨ 16 ≤ x.resends → exec (.controlResend ctx k) s = .next s) ∧ (¬ due ∨ x.resends < 16 → exec (.failed ctx k) s = .next s) ∧
      (due → x.resends < 16 → ∃ t, exec (.controlResend ctx k) s = .next t ∧ t.ports[x.port].sent = s.ports[x.port].sent ++ [(x.peer, x.dg)] ∧
        holds t ctx { c with move := { c.move with ctls := c.move.ctls.set k { x with sentAt := s.micros, resends := x.resends + 1 } } }) ∧
      (due → 16 ≤ x.resends → ∃ t, exec (.failed ctx k) s = .next t ∧ t.events = s.events ++ [(c.world, .moveFailed ctx)] ∧ t.ports = s.ports ∧
        holds t ctx { c with stopped := true, move := { c.move with state := .failed, ctls := [] } }))
  ∧ ∀ (s : State) (ctx : Nat) (offset : Int) (c : Context), holds s ctx c → ∃ t, exec (.ptpSync ctx offset) s = .next t ∧
      { t with contexts := s.contexts } = s ∧ holds t ctx (if c.img.paired = true then { c with offset := offset } else c)

/-- 19 R353 to R360. RMA accesses translate at W privilege (log 55) at a die of the world's (log 139), the host-managed window is log 138, a window entry is written by REGION_ENTRY_WRITE (log 99); when a target counts a message as failed is log 54; the fresh check value is free (log 12). A request beyond the partition's memory counts as a violation (logs 58, 104), an acknowledgement names its message by the device's number (log 101), messages are numbered and held as log 102 says, a region entry is written over none or an INVALID one only (log 103), and what a link's flits and a rekeying count is log 105. -/
def Obligations.LinksAndRemoteMemory : Prop :=
  let next (s : State) (rest : List Input) : State := { s with inbox := rest }
  let live (s : State) : Prop := s.power.state = .w0 ∧ s.trust.stage ≠ .halted
  (∀ (s : State) (port : Fin 6) (part : Fin 4) (pa n : Nat) (wr : Bool), firewallLets s port part none pa n wr = true ↔
    ∃ x ∈ s.hub.firewall[port], x.1.1 = part ∧ x.2.base ≤ pa ∧ pa + n ≤ x.2.base + x.2.length ∧ (if wr = true then x.2.write = true else x.2.read = true))
  ∧ (∀ (s : State) (r : Inbound) (ok : Bool) (rest : List Input), live s → s.inbox = .inbound r ok :: rest →
    let n := if r.write = true then r.data.length else r.length
    let place : Option Nat := if r.hdm = false then some r.addr else if r.port ≠ 0 then none else
      s.hub.hdm.bind fun h => if r.addr + n ≤ h.2 then some (h.1 + r.addr) else none
    let lets (a : Nat) : Prop := place = some a ∧ firewallLets s r.port (leadOf s r.part) none a n r.write = true ∧ a + n ≤ s.memSize r.part
    (ok = false → ∃ t, exec .inboundRequest s = .next t ∧ { t with inbox := s.inbox, hub := s.hub } = s ∧ t.inbox = rest ∧
      t.hub = { s.hub with cipherFails := s.hub.cipherFails.set r.port (s.hub.cipherFails[r.port] + 1) }) ∧
    (ok = true → (∀ a, ¬ lets a) → ∃ t, exec .inboundRequest s = .next t ∧ t.mem = s.mem ∧ t.hub.violations = s.hub.violations.set r.port (s.hub.violations[r.port] + 1) ∧
      t.hub.replies = s.hub.replies ∧ t.events = s.events ++ [(0, .firewall r.port.val)]) ∧
    (∀ a0, let b := s.memBase r.part + a0
      ok = true → lets a0 → r.write = true → s.mem.copies = [] → s.memWf = true → ∃ t, exec .inboundRequest s = .next t ∧ t.hub = s.hub ∧
      (∀ i, i < r.data.length → t.mem.home.get (b + i) = r.data.getD i 0) ∧
      ∀ a, a < b ∨ b + r.data.length ≤ a → t.mem.home.get a = s.mem.home.get a) ∧
    (∀ a0, let b := s.memBase r.part + a0
      ok = true → lets a0 → r.write = false → ∃ t bs, exec .inboundRequest s = .next t ∧ t.hub = { s.hub with replies := s.hub.replies ++ [(r.port, bs)] } ∧
      bs = (t.mem.view r.part).read b r.length ∧ (s.mem.copies = [] → t.mem.home = s.mem.home)))
  ∧ (∀ (s : State) (p : Fin 6) (d : Fin 4) (i : Fin 256) (w : Option FirewallWindow) (rest : List Input), live s → s.inbox = .firewall p d i w :: rest →
    let k := (leadOf s d, i.val)
    ∃ t, exec .firewallWindowWrite s = .next t ∧ { t with inbox := s.inbox, hub := s.hub } = s ∧ { t.hub with firewall := s.hub.firewall } = s.hub ∧
      (∀ q, q ≠ p → t.hub.firewall[q] = s.hub.firewall[q]) ∧ (∀ x, w = some x → (t.hub.firewall[p]).get? k = some x) ∧
      ∀ j, j ≠ k → (t.hub.firewall[p]).get? j = (s.hub.firewall[p]).get? j)
  ∧ (∀ (s : State) (h : Nat) (r : Region) (rest : List Input), live s → s.inbox = .region h r :: rest →
    let old := s.rma.regions.get? h
    let fits : Prop := (∀ o, old = some o → o.state = 0) ∧ h < 65536 ∧ r.base % 65536 = 0 ∧ r.length % 65536 = 0 ∧ r.world < 1024
    (¬ fits → exec .regionEntryWrite s = .next (next s rest)) ∧
    (fits → ∃ t c, exec .regionEntryWrite s = .next t ∧ t.rma.regions.get? h = some { r with check := c, state := 1 } ∧ (∀ o, old = some o → c ≠ o.check) ∧
      (∀ k, k ≠ h → t.rma.regions.get? k = s.rma.regions.get? k) ∧ { t with inbox := s.inbox, rma := s.rma } = s))
  ∧ (∀ (s : State) (i : Fin 4096) (w : RemoteWindow) (rest : List Input), live s → s.inbox = .window i (some w) :: rest →
    ∃ t, exec .regionEntryWrite s = .next t ∧ t.rma.windows.get? i.val = some w ∧ (∀ k, k ≠ i.val → t.rma.windows.get? k = s.rma.windows.get? k) ∧
      { t with inbox := s.inbox, rma := s.rma } = s)
  ∧ (∀ (s : State) (h : Nat),
    let closed (m : InMessage) : Prop := m.refused = true ∨ m.packets ≤ m.got.length ∨ m.since + 12750 * 940 ≤ s.cycle
    (∀ r, s.rma.regions.get? h = some r → r.state = 1 ∨ r.state = 2 →
      ((∃ m ∈ s.rma.inn, m.handle = h ∧ ¬ closed m) → ∃ t, exec (.keyRevocation h) s = .next t ∧ t.rma.regions.get? h = some { r with state := 2 } ∧
        t.events = s.events) ∧
      ((∀ m ∈ s.rma.inn, m.handle = h → closed m) → ∃ t, exec (.keyRevocation h) s = .next t ∧ t.rma.regions.get? h = some { r with state := 0 } ∧
        t.events = s.events ++ [(r.world, .revoked h)])) ∧
    ((∀ r, s.rma.regions.get? h = some r → r.state ≠ 1 ∧ r.state ≠ 2) → exec (.keyRevocation h) s = .next s))
  ∧ (∀ (s : State) (a : RmaAck) (rest : List Input), live s → s.inbox = .rmaAck a false :: rest → let p : Fin 6 := Fin.ofNat 6 a.port
    ∃ t, exec .rmaAcknowledgement s = .next t ∧ { t with inbox := s.inbox, hub := s.hub } = s ∧ t.inbox = rest ∧
      t.hub = { s.hub with cipherFails := s.hub.cipherFails.set p (s.hub.cipherFails[p] + 1) })
  ∧ (∀ (s : State) (a : RmaAck) (rest : List Input), live s → s.inbox = .rmaAck a true :: rest → let num := a.message
    let s0 := noteGot (next s rest) a.port a.peer
    let gone (t : State) (m : OutMessage) (r : MsgStatus) : Prop :=
      t.rma = { s.rma with out := s.rma.out.filter (fun x => x.num ≠ num), statuses := s.rma.statuses.set num r } ∧
      ∀ sid st, m.sender = some sid → s.strands.get? sid = some st → t.strands.get? sid = some { st with unackSys := st.unackSys - 1 }
    (s.rma.out.find? (fun m => m.num = num) = none → exec .rmaAcknowledgement s = .next s0) ∧
    ∀ m, s.rma.out.find? (fun m => m.num = num) = some m →
      let acked := (m.acked ++ a.got.filter fun i => decide (i < m.parts.length) && !m.acked.contains i).eraseDups
      let whole : Prop := m.filling = false ∧ ∀ i, i < m.parts.length → i ∈ acked
      (∀ off, a.refused = some off → ∃ t, exec .rmaAcknowledgement s = .next t ∧ gone t m .refused ∧ t.hub = s0.hub ∧
        t.events = s.events ++ [(m.world, .rmaViolation m.window.handle m.window.check off)]) ∧
      (a.refused = none → whole → ∃ t, exec .rmaAcknowledgement s = .next t ∧ gone t m .complete ∧ t.hub = s0.hub ∧ t.events = s.events) ∧
      (a.refused = none → ¬ whole → ∃ t, exec .rmaAcknowledgement s = .next t ∧ t.strands = s.strands ∧ t.hub = s0.hub ∧
        t.rma = { s.rma with out := s.rma.out.map fun x => if x.num = num then { x with acked := acked } else x }))
  ∧ (∀ (s : State) (num : Nat),
    (s.rma.out.find? (fun m => m.num = num) = none → exec (.rmaResend num) s = .next s) ∧
    ∀ m, s.rma.out.find? (fun m => m.num = num) = some m →
      (s.cycle < m.sentAt + m.wait → exec (.rmaResend num) s = .next s) ∧
      (m.sentAt + m.wait ≤ s.cycle → m.sendings < 8 → ∃ t, exec (.rmaResend num) s = .next t ∧ { t with rma := s.rma, hub := s.hub } = s ∧
        t.rma = { s.rma with out := s.rma.out.map fun x =>
          if x.num = num then { x with sendings := x.sendings + 1, wait := 2 * x.wait, sentAt := s.cycle } else x }) ∧
      (m.sentAt + m.wait ≤ s.cycle → 8 ≤ m.sendings → ∃ t, exec (.rmaResend num) s = .next t ∧
        t.rma = { s.rma with out := s.rma.out.filter (fun x => x.num ≠ num), statuses := s.rma.statuses.set num .failed } ∧
        t.events = s.events ++ [(m.world, .rmaFailed (senderNum m.sender) m.seq m.window.handle m.window.check)] ∧
        ∀ sid st, m.sender = some sid → s.strands.get? sid = some st → t.strands.get? sid = some { st with unackSys := st.unackSys - 1 }))
  ∧ (∀ (s : State) (x : Triggered) (rest : List Input), live s → s.inbox = .trigger x :: rest →
    let met (y : Triggered) : Prop := y.threshold ≤ (s.rma.counters.getD y.counter 0).toNat
    (16384 ≤ x.counter → exec .triggeredRequestPost s = .next (next s rest)) ∧
    (x.counter < 16384 → (∀ y ∈ s.rma.triggered, ¬ met y) →
      (¬ met x → ∃ t, exec .triggeredRequestPost s = .next t ∧ t.rma = { s.rma with triggered := s.rma.triggered ++ [x] }) ∧
      (met x → ∃ t m, exec .triggeredRequestPost s = .next t ∧ t.rma.triggered = s.rma.triggered ∧ t.rma.out = s.rma.out ++ [m] ∧
        m.parts = packetsOf x.request.offset x.request.payload ∧ m.filling = false ∧ m.op = x.request.op ∧ m.window.peer = x.request.peer ∧
        m.window.handle = x.request.handle ∧ m.counter = x.request.counter ∧ m.world = x.world ∧ m.sendings = 1 ∧ m.wait = 50 * 940)))
  ∧ (∀ (s : State) (p : RmaPacket) (ok : Bool) (rest : List Input), live s → s.inbox = .rmaPacket p ok :: rest →
    let same (m : InMessage) : Bool := m.peer == p.peer && m.sender == p.sender && m.num == p.message
    let port : Fin 6 := Fin.ofNat 6 p.port
    let s0 := noteGot (next s rest) p.port p.peer
    (ok = false → ∃ t, exec .rmaPacketArrival s = .next t ∧ t.mem = s.mem ∧ t.rma = s.rma ∧
      t.hub = { s.hub with cipherFails := s.hub.cipherFails.set port (s.hub.cipherFails[port] + 1) }) ∧
    (ok = true → s.rma.held = [] → s.rma.inn.find? same = none →
      let lets (r : Region) : Prop := r.state = 1 ∧ r.check = p.check ∧ p.offset + p.payload.length ≤ r.length ∧
        match p.op with | .write => r.write = true | .atomicAdd => r.atomic = true | .read => r.read = true
      (∀ r, s.rma.regions.get? p.handle = some r → ¬ lets r → ∃ t, exec .rmaPacketArrival s = .next t ∧ t.mem = s.mem ∧
        t.rma.answers = s.rma.answers ++ [⟨p.port, p.peer, p.message, [], some p.offset, []⟩] ∧ (r.world, .rmaViolation p.handle p.check p.offset) ∈ t.events) ∧
      (s.rma.regions.get? p.handle = none → ∃ t, exec .rmaPacketArrival s = .next t ∧ t.mem = s.mem ∧
        t.rma.answers = s.rma.answers ++ [⟨p.port, p.peer, p.message, [], some p.offset, []⟩]) ∧
      (∀ r, s.rma.regions.get? p.handle = some r → lets r → 1 < p.message →
        (∀ m ∈ s.rma.inn, ¬ (m.peer = p.peer ∧ m.sender = p.sender ∧ m.num + 1 = p.message)) → p.payload.length ≤ 2 ^ 24 →
        ∃ t, exec .rmaPacketArrival s = .next t ∧ t.rma.held = [p] ∧ t.mem = s.mem ∧ t.rma.answers = s.rma.answers) ∧
      (∀ r s1 pa, s.rma.regions.get? p.handle = some r → lets r → p.message ≤ 1 → p.op = .write →
        placesOf (noteFirst s0 p) p r = (s1, some [(pa, 0, p.payload.length)]) →
        let passes : Prop := firewallLets s port (leadOf s (s.worldDie r.world)) (some r.world) (pa % 2 ^ 52) p.payload.length true = true
        (¬ passes → ∃ t, exec .rmaPacketArrival s = .next t ∧ t.rma.answers = s.rma.answers ∧ t.mem = s1.mem ∧
          t.hub.violations = s.hub.violations.set port (s.hub.violations[port] + 1)) ∧
        (passes → s1.mem.copies = [] → s1.memWf = true → ∃ t, exec .rmaPacketArrival s = .next t ∧
          t.rma.answers = s.rma.answers ++ [⟨p.port, p.peer, p.message, [p.index], none, []⟩] ∧
          (∀ i, i < p.payload.length → t.mem.home.get (pa + i) = p.payload.getD i 0) ∧
          (∀ a, a < pa ∨ pa + p.payload.length ≤ a → t.mem.home.get a = s1.mem.home.get a) ∧
          ∀ n, p.counter = some n → n < 16384 → t.rma.counters.getD n 0 = s.rma.counters.getD n 0 + (if p.packets ≤ 1 then 1 else 0)))) ∧
    (∀ m r, ok = true → s.rma.held = [] → s.rma.inn.find? same = some m → s.rma.regions.get? p.handle = some r → m.refused = false → p.index ∈ m.got →
      ∃ t, exec .rmaPacketArrival s = .next t ∧ t.mem = s.mem ∧ t.rma.answers = s.rma.answers ++ [⟨p.port, p.peer, p.message, m.got, none, []⟩] ∧
        t.rma.counters = s.rma.counters))
  ∧ ∀ (s : State) (l : Fin 18), (s.hub.flits[l] < 2 ^ 32 → exec (.fabricRekey l) s = .next s) ∧
      (2 ^ 32 ≤ s.hub.flits[l] → ∃ t, exec (.fabricRekey l) s = .next t ∧ { t with hub := s.hub } = s ∧
        t.hub = { s.hub with flits := s.hub.flits.set l (s.hub.flits[l] - 2 ^ 32), rekeys := s.hub.rekeys.set l (s.hub.rekeys[l] + 1) })

/-- 19 R361 to R368. Hashes and signatures are free values (logs 11, 50, 51); what a restart keeps is log 57, what a device does with no bundle that verifies is log 56, a bundle's signed bytes are log 140, and what occupies a unit is log 108. Where a partition's memory lies is log 94, what a power state drops log 96, how a state is entered log 97 and left log 98, the form of an answer and of a dump log 107, and register 6 at a change of the partition log 160. -/
def Obligations.TrustPowerAndPartitions : Prop :=
  let next (s : State) (rest : List Input) : State := { s with inbox := rest }
  let live (s : State) : Prop := s.power.state = .w0 ∧ s.trust.stage ≠ .halted
  let dig (b : List Byte) : List Byte := (Config.shake256 b).toList
  let ext (old digest : List Byte) : List Byte := dig (old ++ digest)
  (∀ (s : State) (i : BootImages) (rest : List Input), live s → s.inbox = .bootImages i :: rest →
    (s.trust.stage ≠ .off → exec .boot s = .next (next s rest)) ∧
    (s.trust.stage = .off →
      let fine (key : List Byte) (m : SignedImage) : Bool := Config.ed448Verify key m.bytes m.signature
      let sound (b : Bundle) : Bool := Config.ed448Verify (Config.bundleKey i.firstStage.bytes)
        (Config.bundleBytes b.version b.minimum b.kernel b.monitor b.firmware) b.signature
      let a0 := s.trust.active
      ∃ a h, exec .boot s = .next (if (decide (Config.shake256 i.malradKey = Config.fusedKeyHash) && fine i.malradKey i.firstStage) = true then a else h) ∧
        h.trust.stage = .halted ∧ h.trust.mr = s.trust.mr.set 0 (ext s.trust.mr[(0 : Fin 24)] (dig Config.romImage)) ∧
        a.trust.mr[(0 : Fin 24)] = ext s.trust.mr[(0 : Fin 24)] (dig Config.romImage) ∧ a.trust.mr[(1 : Fin 24)] = ext s.trust.mr[(1 : Fin 24)] (dig i.firstStage.bytes) ∧
        a.trust.mr[(6 : Fin 24)] = ext s.trust.mr[(6 : Fin 24)] (Config.partsDigest s.power.parts).toList ∧
        a.mem = s.mem ∧ h.mem = s.mem ∧ (∀ x, i.hdm = some x → x.2 ≤ 2 ^ 36 → a.hub.hdm = some x) ∧
        (∀ b, s.trust.slots[a0].bundle = some b →
          ∃ x y, a.trust = (if sound b = true then x else y) ∧ x.stage = .running ∧ x.active = a0 ∧
            x.mr[(2 : Fin 24)] = ext s.trust.mr[(2 : Fin 24)] (dig b.kernel) ∧ x.mr[(3 : Fin 24)] = ext s.trust.mr[(3 : Fin 24)] (dig b.monitor) ∧
            x.mr[(4 : Fin 24)] = ext s.trust.mr[(4 : Fin 24)] (dig b.firmware) ∧
            (s.trust.slots[a0].good = false → x.trialUntil = some (s.cycle + 600 * 1000000 * 940)) ∧
            (s.trust.slots[1 - a0].bundle = none → y.stage = .first)) ∧
        (∀ b, s.trust.slots[a0].bundle = none → s.trust.slots[1 - a0].bundle = some b →
          a.trust.stage = (if sound b = true then .running else .first) ∧ a.trust.active = (if sound b = true then 1 - a0 else a0)) ∧
        (s.trust.slots[a0].bundle = none → s.trust.slots[1 - a0].bundle = none → a.trust.stage = .first)))
  ∧ (∀ (s : State) (b : List Byte) (rest : List Input), live s → s.inbox = .nonce b :: rest →
    (s.trust.stage = .off → exec .getMeasurements s = .next (next s rest)) ∧
    (s.trust.stage = .running ∨ s.trust.stage = .first → let body := s.trust.mr.toList.flatten ++ b
      ∃ t, exec .getMeasurements s = .next t ∧ { t with inbox := s.inbox, trust := s.trust } = s ∧
        t.trust = { s.trust with answers := s.trust.answers ++ [body ++ (Config.ed448Sign body).toList] }))
  ∧ (∀ (s : State) (b : Bundle) (rest : List Input), live s → s.inbox = .bundle b :: rest →
    ((s.trust.stage ≠ .running ∧ s.trust.stage ≠ .first) ∨ b.version < s.trust.rollback → exec .bundleUpdate s = .next (next s rest)) ∧
    (s.trust.stage = .running ∨ s.trust.stage = .first → s.trust.rollback ≤ b.version → ∃ t, exec .bundleUpdate s = .next t ∧ t.trust.stage = .off ∧
      t.trust.active = 1 - s.trust.active ∧ t.trust.slots[1 - s.trust.active] = ⟨some b, false⟩ ∧ t.trust.slots[s.trust.active] = s.trust.slots[s.trust.active] ∧
      t.trust.rollback = s.trust.rollback ∧ t.trust.mr = State.reset.trust.mr ∧ t.strands = [] ∧ t.mem.home = [] ∧ t.mem.retired = s.mem.retired ∧
      t.power.parts = s.power.parts ∧ t.hub.links = s.hub.links))
  ∧ (∀ s : State,
    (s.trust.trialUntil = none → exec .bundleWatchdog s = .next s ∧ exec .remoteAttestation s = .next s) ∧
    ∀ n, s.trust.trialUntil = some n →
      (s.cycle < n → exec .bundleWatchdog s = .next s) ∧
      (n ≤ s.cycle → ∃ t, exec .bundleWatchdog s = .next t ∧ t.trust.stage = .off ∧ t.trust.active = 1 - s.trust.active ∧ t.trust.slots = s.trust.slots ∧
        t.trust.rollback = s.trust.rollback ∧ t.strands = [] ∧ t.launches = []) ∧
      (n ≤ s.cycle → exec .remoteAttestation s = .next s) ∧
      ∀ b, s.cycle < n → s.trust.slots[s.trust.active].bundle = some b → ∃ t, exec .remoteAttestation s = .next t ∧ { t with trust := s.trust } = s ∧
        t.trust.trialUntil = none ∧ t.trust.slots[s.trust.active] = ⟨some b, true⟩ ∧ t.trust.slots[1 - s.trust.active] = s.trust.slots[1 - s.trust.active] ∧
        t.trust.rollback = max s.trust.rollback b.minimum ∧ t.trust.mr = s.trust.mr)
  ∧ (∀ (s : State) (m : SignedImage) (rest : List Input), live s → s.inbox = .token m :: rest →
    (s.trust.debugOpen = true → exec .debugLockOpen s = .next (next s rest)) ∧
    (s.trust.debugOpen = false → ∃ t, exec .debugLockOpen s =
        .next (if Config.tokenOpens Config.deviceIdentity m.bytes m.signature = true then t else next s rest) ∧
      t.trust = { s.trust with debugOpen := true, mr := s.trust.mr.set 7 (ext s.trust.mr[(7 : Fin 24)] (dig m.bytes)) } ∧
      { t with inbox := s.inbox, trust := s.trust } = s))
  ∧ (∀ (s : State) (buffer : Nat), ∃ t d, exec (.crashDump buffer) s = .next t ∧ { t with hub := s.hub } = s ∧ t.hub = { s.hub with crash := some d } ∧
      d.buffer = buffer ∧ d.regs = s.hub.toHubRegs ∧ d.ports = s.ports ∧ d.rma = s.rma ∧ d.trust = s.trust ∧ (∀ k, d.edges.get? k = (s.contexts.get? k).map Context.edges) ∧
      d.omitted = ((s.worlds.filter fun p => p.2.alive && p.2.protect).map fun p => (framesOf s p.2).length).sum ∧
      (∀ f ∈ d.frames, ∀ c ∈ f.2.2, c ∈ s.mem.home ∧ ∀ k w, (k, w) ∈ s.worlds → w.alive = true → w.protect = true → inFrames (framesOf s w) c.1 = false))
  ∧ (∀ s : State,
    (s.power.exitAt.isSome = true → exec .powerStateEntry s = .next s) ∧
    (s.power.exitAt = none → ∀ tol, (live s ∧ ∃ rest, s.inbox = .tolerance tol :: rest) ∨ ((live s → ∀ x rest, s.inbox ≠ .tolerance x :: rest) ∧ tol = s.power.tolerance) →
      ∃ t p, exec .powerStateEntry s = .next t ∧ t.power.tolerance = tol ∧ exitMicros p ≤ tol ∧ mayEnter s p = true ∧
        (∀ q, exitMicros p < exitMicros q → tol < exitMicros q ∨ mayEnter s q = false) ∧ (s.mem.copies = [] → t.mem.home = s.mem.home) ∧
        t.power.state = (if exitMicros p ≤ exitMicros s.power.state then s.power.state else p) ∧
        (exitMicros s.power.state < exitMicros p → p ≠ .w1 → t.mem.l1 = [] ∧ ∀ e ∈ t.xlat.tlb, ∃ d, e.site = .l2 d)) ∧
    (exitMicros .w0 = 0 ∧ exitMicros .w1 = 2 ∧ exitMicros .w2 = 40 ∧ exitMicros .w3 = 600 ∧ exitMicros .w4 = 30000) ∧
    (∀ p, p ≠ .w0 → p ≠ .w1 → mayEnter s p = true → (∀ x ∈ s.wgs, x.2.released = true ∨ x.2.parked.isSome = true) ∧
      (∀ x ∈ s.copyQs, x.2.cmds = []) ∧ (∀ x ∈ s.strands, x.2.picot = none) ∧ (∀ x ∈ s.contexts, ∀ q ∈ x.2.raster, q.2.cmds = []) ∧
      (∀ x ∈ s.worlds, ∀ q ∈ x.2.queues, q.2.pending = []) ∧ ∀ d : Fin 4, s.collQs[d].cmds = []) ∧
    (s.inbox = [] → exec .powerStateExit s = .next s) ∧
    (∀ x rest, s.inbox = x :: rest → s.power.state ≠ .w0 → s.power.exitAt = none → (∀ p, x ≠ .partition p) →
      ∃ t, exec .powerStateExit s = .next t ∧ t.power = { s.power with exitAt := some (s.cycle + exitMicros s.power.state * 940) } ∧
        t.inbox = (if x = .doorbell then rest else s.inbox)) ∧
    (∀ x rest, s.inbox = x :: rest → s.power.state = .w0 ∨ s.power.exitAt.isSome = true → ∃ t, exec .powerStateExit s = .next t ∧ t.power = s.power ∧
        t.inbox = if x = .doorbell then rest else s.inbox) ∧
    (s.power.exitAt = none → exec .powerExitComplete s = .next s) ∧
    ∀ n, s.power.exitAt = some n → (s.cycle < n → exec .powerExitComplete s = .next s) ∧
      (n ≤ s.cycle → exec .powerExitComplete s = .next { s with power := { s.power with state := .w0, exitAt := none } }))
  ∧ (∀ (s : State) (parts : List (List (Fin 4))) (rest : List Input), s.inbox = .partition parts :: rest →
    let whole : Prop := (∀ p ∈ parts, p.length = 1 ∨ p.length = 2 ∨ p.length = 4) ∧ ∀ d : Fin 4, (parts.map fun p => p.count d).sum = 1
    (s.power.state ≠ .w4 ∨ ¬ whole → exec .hardPartitionChange s = .next (next s rest)) ∧
    (s.power.state = .w4 → whole → ∃ t, exec .hardPartitionChange s = .next t ∧ t.power = { s.power with parts := parts } ∧ t.inbox = rest ∧ t.mem = s.mem ∧
      t.trust = { s.trust with mr := s.trust.mr.set 6 (ext s.trust.mr[(6 : Fin 24)] (Config.partsDigest parts).toList) } ∧
      (∀ a b : Fin 4, a < b → ((a, b) ∈ t.hub.links ↔ ¬ ∃ p ∈ parts, a ∈ p ∧ b ∈ p)) ∧
      ∀ p ∈ parts, ∀ d ∈ p, ∀ pa, some (homeDie parts d pa) = p[pa / 4096 % 4 % p.length]?))
  ∧ ∀ (s : State) (u : SpareUnit), let used := s.spares.used.countP fun v => decide (spareDie v = spareDie u) && spareKind v == spareKind u
      (unitFree s u = false ∨ spareSupply (spareDie u) (spareKind u) ≤ used → exec (.spareBringIn u) s = .next s) ∧
      (unitFree s u = true → used < spareSupply (spareDie u) (spareKind u) → exec (.spareBringIn u) s = .next { s with spares := ⟨u :: s.spares.used⟩ }) ∧
      (∀ c, regcap s c = if SpareUnit.rows c ∈ s.spares.used then 120 else 128) ∧ (∀ d, spareSupply d 0 = 4 ∧ ∀ k, 1 ≤ spareSupply d k) ∧
      (∀ c, u = .core c ∨ u = .rows c → unitFree s u = true → resident s c = [] ∧ ∀ q ∈ s.copyQs, q.1.1 = c → q.2.cmds = []) ∧
      (∀ d i, u = .l2Way d i → unitFree s u = true → ∀ x ∈ s.mem.l2, x.die = d → MemSys.sliceOf x.line ≠ i.val) ∧
      ∀ d n w f, u = .page d n → unitFree s u = true → w ∈ s.worlds → w.2.alive = true → f ∈ framesOf s w.2 →
        f.1 + 2 ^ f.2 ≤ s.memBase d + 65536 * n ∨ s.memBase d + 65536 * n + 65536 ≤ f.1
end

