-- ==== Sys2Proof/Laws/Assoc.lean ====
section
/-! SUPPORT. Association lists: what reading gives after a write. -/

namespace Sys2Proof.Machine.Assoc

variable {κ α : Type} [DecidableEq κ]

@[simp] theorem get?_nil (k : κ) : get? ([] : Assoc κ α) k = none := rfl

theorem get?_set (l : Assoc κ α) (k j : κ) (v : α) : (l.set k v).get? j = if k = j then some v else l.get? j := by
  induction l with
  | nil => by_cases h : k = j <;> simp [set, get?, h]
  | cons p t ih =>
    obtain ⟨k', v'⟩ := p
    by_cases h : k' = k
    · subst h
      by_cases h2 : k' = j <;> simp [set, get?, h2]
    · by_cases h2 : k' = j
      · subst h2
        simp [set, get?, h, Ne.symm h]
      · simp [set, get?, h, h2, ih]

@[simp] theorem get?_set_same (l : Assoc κ α) (k : κ) (v : α) : (l.set k v).get? k = some v := by simp [get?_set]

theorem get?_set_other (l : Assoc κ α) {k j : κ} (v : α) (h : k ≠ j) : (l.set k v).get? j = l.get? j := by simp [get?_set, h]

theorem get?_modify (l : Assoc κ α) (k j : κ) (f : α → α) :
    (l.modify k f).get? j = if k = j then (l.get? j).map f else l.get? j := by
  induction l with
  | nil => simp [modify]
  | cons p t ih =>
    obtain ⟨k', v'⟩ := p
    by_cases h : k' = k
    · subst h
      by_cases h2 : k' = j <;> simp [modify, get?, h2]
    · by_cases h2 : k' = j
      · subst h2
        simp [modify, get?, h, Ne.symm h]
      · simp [modify, get?, h, h2, ih]

@[simp] theorem get?_modify_same (l : Assoc κ α) (k : κ) (f : α → α) : (l.modify k f).get? k = (l.get? k).map f := by
  simp [get?_modify]

theorem get?_modify_other (l : Assoc κ α) {k j : κ} (f : α → α) (h : k ≠ j) : (l.modify k f).get? j = l.get? j := by
  simp [get?_modify, h]

theorem modify_modify (l : Assoc κ α) (k : κ) (f g : α → α) : (l.modify k f).modify k g = l.modify k fun x => g (f x) := by
  induction l with
  | nil => rfl
  | cons p t ih =>
    obtain ⟨k', v'⟩ := p
    by_cases h : k' = k <;> simp [modify, h, ih]

theorem all_modify (l : Assoc κ α) (k : κ) (f : α → α) (p : α → Bool) (hf : ∀ x, p x = true → p (f x) = true)
    (h : l.all (fun q => p q.2) = true) : (l.modify k f).all (fun q => p q.2) = true := by
  induction l with
  | nil => rfl
  | cons q t ih =>
    obtain ⟨k', v'⟩ := q
    simp only [List.all_cons, Bool.and_eq_true] at h
    by_cases hk : k' = k
    · simp [modify, hk, hf _ h.1, h.2]
    · simp [modify, hk, h.1, ih h.2]

theorem all_set (l : Assoc κ α) (k : κ) (v : α) (p : α → Bool) (hv : p v = true)
    (h : l.all (fun q => p q.2) = true) : (l.set k v).all (fun q => p q.2) = true := by
  induction l with
  | nil => simp [set, hv]
  | cons q t ih =>
    obtain ⟨k', v'⟩ := q
    simp only [List.all_cons, Bool.and_eq_true] at h
    by_cases hk : k' = k
    · simp [set, hk, hv, h.2]
    · simp [set, hk, h.1, ih h.2]

end Sys2Proof.Machine.Assoc
end

