-- ==== Sys2Proof/Laws/Memory.lean ====
section
/-! SUPPORT. Every memory operation keeps the canonical form of the home and of the dies' views (log 1), and what a
performed write leaves alone. -/

namespace Sys2Proof.Machine

/-- What each step of a fold keeps, the fold keeps. -/
theorem foldl_keeps {α β : Type} (P : α → Prop) (f : α → β → α) (h : ∀ a x, P a → P (f a x)) (l : List β) (a : α)
    (ha : P a) : P (l.foldl f a) := by
  induction l generalizing a with
  | nil => exact ha
  | cons x t ih => exact ih _ (h _ _ ha)

/-! ## The memory system -/

theorem MemSys.wf_iff (m : MemSys) : m.wf = true ↔ m.home.wf = true ∧ ∀ d : Fin 4, m.views[d].wf = true := by
  simp only [MemSys.wf, Bool.and_eq_true, List.all_eq_true]
  refine and_congr_right fun _ => ⟨fun h d => h _ (by simp), fun h v hv => ?_⟩
  obtain ⟨i, hi, rfl⟩ := Vector.getElem_of_mem (Vector.mem_toList_iff.mp hv)
  exact h ⟨i, hi⟩

theorem MemSys.wf_of_views {m n : MemSys} (h : m.wf = true) (hh : n.home = m.home) (hv : n.views = m.views) : n.wf = true := by
  simpa [MemSys.wf, hh, hv] using h

theorem MemSys.wf_view {m : MemSys} (h : m.wf = true) (d : Fin 4) : (m.view d).wf = true := (m.wf_iff.mp h).2 d

theorem MemSys.wf_home {m : MemSys} (h : m.wf = true) : m.home.wf = true := (m.wf_iff.mp h).1

/-- A memory system whose home and whose view at one die are changed for canonical ones. -/
theorem MemSys.wf_set {m n : MemSys} (h : m.wf = true) (d : Fin 4) (v : Mem) (hv : v.wf = true) (hh : n.home.wf = true)
    (hn : n.views = m.views.set d v) : n.wf = true := by
  refine n.wf_iff.mpr ⟨hh, fun e => ?_⟩
  rw [hn]
  simp only [Fin.getElem_fin, Vector.getElem_set]
  split
  · exact hv
  · exact (m.wf_iff.mp h).2 e

theorem MemSys.wf_setView {m : MemSys} (h : m.wf = true) (d : Fin 4) {v : Mem} (hv : v.wf = true) : (m.setView d v).wf = true :=
  wf_set h d v hv (show m.home.wf = true from wf_home h) rfl

theorem MemSys.wf_prune {m : MemSys} (h : m.wf = true) : m.prune.wf = true := wf_of_views h rfl rfl

theorem MemSys.wf_applyMsg {m : MemSys} (h : m.wf = true) (e : Fin 4) (w : WriteMsg) : (m.applyMsg e w).wf = true :=
  wf_set h e _ (Mem.wf_writeCells _ (wf_view h e)) (show m.home.wf = true from wf_home h) rfl

theorem MemSys.wf_applyUpTo {m : MemSys} (h : m.wf = true) (e : Fin 4) (upTo : Nat) : (m.applyUpTo e upTo).wf = true :=
  wf_prune (foldl_keeps (fun m : MemSys => m.wf = true) _ (fun _ w hm => wf_applyMsg hm e w) _ _ h)

theorem MemSys.wf_applyPast {m : MemSys} (h : m.wf = true) (e : Fin 4) (w : WriteMsg) : (m.applyPast e w).wf = true :=
  foldl_keeps (fun m : MemSys => m.wf = true) _ (fun _ x hm => wf_applyMsg hm e x) _ _ h

theorem MemSys.wf_catchUp {m : MemSys} (h : m.wf = true) (e : Fin 4) (line : Nat) : (m.catchUp e line).wf = true :=
  wf_prune (foldl_keeps (fun m : MemSys => m.wf = true) _ (fun _ w hm => wf_applyPast hm e w) _ _ h)

theorem MemSys.wf_perform {m : MemSys} (h : m.wf = true) (d : Fin 4) (line : Nat) (cells : List Host.Cell) (red : Bool) :
    (m.perform d line cells red).wf = true :=
  wf_set h d _ (Mem.wf_writeCells cells (wf_view h d)) (Mem.wf_writeCells cells (wf_home h)) rfl

theorem MemSys.wf_combineCopy {m : MemSys} (h : m.wf = true) (parts : List (List (Fin 4))) (c : RedCopy) :
    (m.combineCopy parts c).wf = true :=
  have h' : MemSys.wf { m with copies := m.copies.filter fun x => x ≠ c } = true := wf_of_views h rfl rfl
  wf_of_views (wf_perform h' _ c.line _ false) rfl rfl

theorem MemSys.wf_combineLine {m : MemSys} (h : m.wf = true) (parts : List (List (Fin 4))) (line : Nat) :
    (m.combineLine parts line).wf = true :=
  foldl_keeps (fun m : MemSys => m.wf = true) _ (fun _ c hm => wf_combineCopy hm parts c) _ _ h

theorem MemSys.wf_atHome {m : MemSys} (h : m.wf = true) (parts : List (List (Fin 4))) (d : Fin 4) (line : Nat) :
    (m.atHome parts d line).wf = true :=
  wf_of_views (wf_catchUp (wf_combineLine h parts line) d line) rfl rfl

theorem MemSys.wf_l2Fill {m : MemSys} (h : m.wf = true) (d : Fin 4) (w line : Nat) : (m.l2Fill d w line).wf = true :=
  wf_of_views h rfl rfl

theorem MemSys.wf_l2Own {m : MemSys} (h : m.wf = true) (d : Fin 4) (w line : Nat) : (m.l2Own d w line).wf = true :=
  wf_of_views h rfl rfl

theorem MemSys.wf_readyLine {m : MemSys} (h : m.wf = true) (parts : List (List (Fin 4))) (d : Fin 4) (w line : Nat) :
    (m.readyLine parts d w line).wf = true := by
  unfold MemSys.readyLine
  extract_lets
  split
  · exact wf_l2Fill (wf_atHome h parts d line) d w line
  · split
    · exact wf_catchUp h d line
    · exact h

theorem MemSys.wf_l1Drop {m : MemSys} (h : m.wf = true) (core : CoreId) (line : Nat) : (m.l1Drop core line).wf = true :=
  wf_of_views h rfl rfl

theorem MemSys.wf_l1Fill {m : MemSys} (h : m.wf = true) (core : CoreId) (world line : Nat) : (m.l1Fill core world line).wf = true :=
  wf_of_views h rfl rfl

/-! ## Operations of the machine on memory -/

theorem State.wf_onLine {s : State} (h : s.mem.wf = true) (line : Nat) {f : MemSys → MemSys}
    (hf : ∀ m : MemSys, m.wf = true → (f m).wf = true) : (s.onLine line f).mem.wf = true := by
  unfold State.onLine
  extract_lets m
  split <;> exact hf _ h

theorem State.wf_homeLine {s : State} (h : s.mem.wf = true) (d : Fin 4) (line : Nat) : (s.homeLine d line).mem.wf = true :=
  wf_onLine h line fun _ hm => MemSys.wf_atHome hm _ d line

theorem State.wf_readyAt {s : State} (h : s.mem.wf = true) (d : Fin 4) (w pa n : Nat) : (s.readyAt d w pa n).mem.wf = true :=
  foldl_keeps (fun s : State => s.mem.wf = true) _ (fun _ g hs => wf_onLine hs g.1 fun _ hm => MemSys.wf_readyLine hm _ d w g.1) _ _ h

theorem State.wf_readL2 {s : State} (h : s.mem.wf = true) (d : Fin 4) (w pa n : Nat) : (s.readL2 d w pa n).1.mem.wf = true :=
  wf_readyAt h d w pa n

theorem State.wf_readHome8 {s : State} (h : s.mem.wf = true) (d : Fin 4) (pa : Nat) : (s.readHome8 d pa).1.mem.wf = true :=
  wf_homeLine h d _

theorem State.wf_performAt {s : State} (h : s.mem.wf = true) (d : Fin 4) (w pa : Nat) (bs : List Byte) :
    (s.performAt d w pa bs).mem.wf = true :=
  foldl_keeps (fun s : State => s.mem.wf = true) _
    (fun _ g hs => MemSys.wf_perform
      (wf_onLine hs g.1 fun _ hm => MemSys.wf_l2Own (MemSys.wf_combineLine hm _ g.1) d w g.1) d g.1 _ false) _ _ h

theorem reset_memWf : State.reset.memWf = true := by decide

/-! ## What a performed write does -/

/-- A byte that no cell of the write names keeps its value at the home. -/
theorem MemSys.perform_home_other {m : MemSys} (h : m.wf = true) (d : Fin 4) (line : Nat) (cells : List Host.Cell) (red : Bool)
    {a : Nat} (ha : ∀ c ∈ cells, c.1 ≠ a) : (m.perform d line cells red).home.get a = m.home.get a :=
  Mem.get_writeCells_other (wf_home h) cells ha

/-- The writer's own die sees the write at once (04 R87). -/
theorem MemSys.perform_view {m : MemSys} (d : Fin 4) (line : Nat) (cells : List Host.Cell) (red : Bool) :
    (m.perform d line cells red).view d = (m.view d).writeCells cells := by
  simp [MemSys.perform, MemSys.view]

/-- Another die's view does not move when a write is performed: it applies the write later (04 R99). -/
theorem MemSys.perform_view_other {m : MemSys} {d e : Fin 4} (h : e ≠ d) (line : Nat) (cells : List Host.Cell) (red : Bool) :
    (m.perform d line cells red).view e = m.view e := by
  have hn : (d : Nat) ≠ (e : Nat) := fun x => h (Fin.ext x.symm)
  simp [MemSys.perform, MemSys.view, hn]

end Sys2Proof.Machine
end

