-- ==== Sys2Proof/Laws/State.lean ====
section
/-! SUPPORT. What each update of the state leaves in each field: one lemma for each field and update, true by unfolding,
so that no later proof opens a record update. -/

namespace Sys2Proof.Machine

open Sys2Proof

/-! ## modStrand -/

@[simp] theorem State.modStrand_agenda (s : State) (sid : StrandId) (f : Strand → Strand) : (s.modStrand sid f).agenda = s.agenda := rfl
@[simp] theorem State.modStrand_inbox (s : State) (sid : StrandId) (f : Strand → Strand) : (s.modStrand sid f).inbox = s.inbox := rfl
@[simp] theorem State.modStrand_cur (s : State) (sid : StrandId) (f : Strand → Strand) : (s.modStrand sid f).cur = s.cur := rfl
@[simp] theorem State.modStrand_ticks (s : State) (sid : StrandId) (f : Strand → Strand) : (s.modStrand sid f).ticks = s.ticks := rfl
@[simp] theorem State.modStrand_still (s : State) (sid : StrandId) (f : Strand → Strand) : (s.modStrand sid f).still = s.still := rfl
@[simp] theorem State.modStrand_cycle (s : State) (sid : StrandId) (f : Strand → Strand) : (s.modStrand sid f).cycle = s.cycle := rfl
@[simp] theorem State.modStrand_mem (s : State) (sid : StrandId) (f : Strand → Strand) : (s.modStrand sid f).mem = s.mem := rfl
@[simp] theorem State.modStrand_xlat (s : State) (sid : StrandId) (f : Strand → Strand) : (s.modStrand sid f).xlat = s.xlat := rfl
@[simp] theorem State.modStrand_strands (s : State) (sid : StrandId) (f : Strand → Strand) : (s.modStrand sid f).strands = s.strands.modify sid f := rfl
@[simp] theorem State.modStrand_wgs (s : State) (sid : StrandId) (f : Strand → Strand) : (s.modStrand sid f).wgs = s.wgs := rfl
@[simp] theorem State.modStrand_launches (s : State) (sid : StrandId) (f : Strand → Strand) : (s.modStrand sid f).launches = s.launches := rfl
@[simp] theorem State.modStrand_insts (s : State) (sid : StrandId) (f : Strand → Strand) : (s.modStrand sid f).insts = s.insts := rfl
@[simp] theorem State.modStrand_bars (s : State) (sid : StrandId) (f : Strand → Strand) : (s.modStrand sid f).bars = s.bars := rfl
@[simp] theorem State.modStrand_copyQs (s : State) (sid : StrandId) (f : Strand → Strand) : (s.modStrand sid f).copyQs = s.copyQs := rfl
@[simp] theorem State.modStrand_collQs (s : State) (sid : StrandId) (f : Strand → Strand) : (s.modStrand sid f).collQs = s.collQs := rfl
@[simp] theorem State.modStrand_partRegs (s : State) (sid : StrandId) (f : Strand → Strand) : (s.modStrand sid f).partRegs = s.partRegs := rfl
@[simp] theorem State.modStrand_granules (s : State) (sid : StrandId) (f : Strand → Strand) : (s.modStrand sid f).granules = s.granules := rfl
@[simp] theorem State.modStrand_deficits (s : State) (sid : StrandId) (f : Strand → Strand) : (s.modStrand sid f).deficits = s.deficits := rfl
@[simp] theorem State.modStrand_turns (s : State) (sid : StrandId) (f : Strand → Strand) : (s.modStrand sid f).turns = s.turns := rfl
@[simp] theorem State.modStrand_issues (s : State) (sid : StrandId) (f : Strand → Strand) : (s.modStrand sid f).issues = s.issues := rfl
@[simp] theorem State.modStrand_drains (s : State) (sid : StrandId) (f : Strand → Strand) : (s.modStrand sid f).drains = s.drains := rfl
@[simp] theorem State.modStrand_worlds (s : State) (sid : StrandId) (f : Strand → Strand) : (s.modStrand sid f).worlds = s.worlds := rfl
@[simp] theorem State.modStrand_tickets (s : State) (sid : StrandId) (f : Strand → Strand) : (s.modStrand sid f).tickets = s.tickets := rfl
@[simp] theorem State.modStrand_contexts (s : State) (sid : StrandId) (f : Strand → Strand) : (s.modStrand sid f).contexts = s.contexts := rfl
@[simp] theorem State.modStrand_ports (s : State) (sid : StrandId) (f : Strand → Strand) : (s.modStrand sid f).ports = s.ports := rfl
@[simp] theorem State.modStrand_rma (s : State) (sid : StrandId) (f : Strand → Strand) : (s.modStrand sid f).rma = s.rma := rfl
@[simp] theorem State.modStrand_hub (s : State) (sid : StrandId) (f : Strand → Strand) : (s.modStrand sid f).hub = s.hub := rfl
@[simp] theorem State.modStrand_trust (s : State) (sid : StrandId) (f : Strand → Strand) : (s.modStrand sid f).trust = s.trust := rfl
@[simp] theorem State.modStrand_power (s : State) (sid : StrandId) (f : Strand → Strand) : (s.modStrand sid f).power = s.power := rfl
@[simp] theorem State.modStrand_spares (s : State) (sid : StrandId) (f : Strand → Strand) : (s.modStrand sid f).spares = s.spares := rfl
@[simp] theorem State.modStrand_events (s : State) (sid : StrandId) (f : Strand → Strand) : (s.modStrand sid f).events = s.events := rfl
@[simp] theorem State.modStrand_nextId (s : State) (sid : StrandId) (f : Strand → Strand) : (s.modStrand sid f).nextId = s.nextId := rfl

/-! ## modWg -/

@[simp] theorem State.modWg_agenda (s : State) (w : Nat) (f : Workgroup → Workgroup) : (s.modWg w f).agenda = s.agenda := rfl
@[simp] theorem State.modWg_inbox (s : State) (w : Nat) (f : Workgroup → Workgroup) : (s.modWg w f).inbox = s.inbox := rfl
@[simp] theorem State.modWg_cur (s : State) (w : Nat) (f : Workgroup → Workgroup) : (s.modWg w f).cur = s.cur := rfl
@[simp] theorem State.modWg_ticks (s : State) (w : Nat) (f : Workgroup → Workgroup) : (s.modWg w f).ticks = s.ticks := rfl
@[simp] theorem State.modWg_still (s : State) (w : Nat) (f : Workgroup → Workgroup) : (s.modWg w f).still = s.still := rfl
@[simp] theorem State.modWg_cycle (s : State) (w : Nat) (f : Workgroup → Workgroup) : (s.modWg w f).cycle = s.cycle := rfl
@[simp] theorem State.modWg_mem (s : State) (w : Nat) (f : Workgroup → Workgroup) : (s.modWg w f).mem = s.mem := rfl
@[simp] theorem State.modWg_xlat (s : State) (w : Nat) (f : Workgroup → Workgroup) : (s.modWg w f).xlat = s.xlat := rfl
@[simp] theorem State.modWg_strands (s : State) (w : Nat) (f : Workgroup → Workgroup) : (s.modWg w f).strands = s.strands := rfl
@[simp] theorem State.modWg_wgs (s : State) (w : Nat) (f : Workgroup → Workgroup) : (s.modWg w f).wgs = s.wgs.modify w f := rfl
@[simp] theorem State.modWg_launches (s : State) (w : Nat) (f : Workgroup → Workgroup) : (s.modWg w f).launches = s.launches := rfl
@[simp] theorem State.modWg_insts (s : State) (w : Nat) (f : Workgroup → Workgroup) : (s.modWg w f).insts = s.insts := rfl
@[simp] theorem State.modWg_bars (s : State) (w : Nat) (f : Workgroup → Workgroup) : (s.modWg w f).bars = s.bars := rfl
@[simp] theorem State.modWg_copyQs (s : State) (w : Nat) (f : Workgroup → Workgroup) : (s.modWg w f).copyQs = s.copyQs := rfl
@[simp] theorem State.modWg_collQs (s : State) (w : Nat) (f : Workgroup → Workgroup) : (s.modWg w f).collQs = s.collQs := rfl
@[simp] theorem State.modWg_partRegs (s : State) (w : Nat) (f : Workgroup → Workgroup) : (s.modWg w f).partRegs = s.partRegs := rfl
@[simp] theorem State.modWg_granules (s : State) (w : Nat) (f : Workgroup → Workgroup) : (s.modWg w f).granules = s.granules := rfl
@[simp] theorem State.modWg_deficits (s : State) (w : Nat) (f : Workgroup → Workgroup) : (s.modWg w f).deficits = s.deficits := rfl
@[simp] theorem State.modWg_turns (s : State) (w : Nat) (f : Workgroup → Workgroup) : (s.modWg w f).turns = s.turns := rfl
@[simp] theorem State.modWg_issues (s : State) (w : Nat) (f : Workgroup → Workgroup) : (s.modWg w f).issues = s.issues := rfl
@[simp] theorem State.modWg_drains (s : State) (w : Nat) (f : Workgroup → Workgroup) : (s.modWg w f).drains = s.drains := rfl
@[simp] theorem State.modWg_worlds (s : State) (w : Nat) (f : Workgroup → Workgroup) : (s.modWg w f).worlds = s.worlds := rfl
@[simp] theorem State.modWg_tickets (s : State) (w : Nat) (f : Workgroup → Workgroup) : (s.modWg w f).tickets = s.tickets := rfl
@[simp] theorem State.modWg_contexts (s : State) (w : Nat) (f : Workgroup → Workgroup) : (s.modWg w f).contexts = s.contexts := rfl
@[simp] theorem State.modWg_ports (s : State) (w : Nat) (f : Workgroup → Workgroup) : (s.modWg w f).ports = s.ports := rfl
@[simp] theorem State.modWg_rma (s : State) (w : Nat) (f : Workgroup → Workgroup) : (s.modWg w f).rma = s.rma := rfl
@[simp] theorem State.modWg_hub (s : State) (w : Nat) (f : Workgroup → Workgroup) : (s.modWg w f).hub = s.hub := rfl
@[simp] theorem State.modWg_trust (s : State) (w : Nat) (f : Workgroup → Workgroup) : (s.modWg w f).trust = s.trust := rfl
@[simp] theorem State.modWg_power (s : State) (w : Nat) (f : Workgroup → Workgroup) : (s.modWg w f).power = s.power := rfl
@[simp] theorem State.modWg_spares (s : State) (w : Nat) (f : Workgroup → Workgroup) : (s.modWg w f).spares = s.spares := rfl
@[simp] theorem State.modWg_events (s : State) (w : Nat) (f : Workgroup → Workgroup) : (s.modWg w f).events = s.events := rfl
@[simp] theorem State.modWg_nextId (s : State) (w : Nat) (f : Workgroup → Workgroup) : (s.modWg w f).nextId = s.nextId := rfl

/-! ## modLaunch -/

@[simp] theorem State.modLaunch_agenda (s : State) (l : Nat) (f : Launch → Launch) : (s.modLaunch l f).agenda = s.agenda := rfl
@[simp] theorem State.modLaunch_inbox (s : State) (l : Nat) (f : Launch → Launch) : (s.modLaunch l f).inbox = s.inbox := rfl
@[simp] theorem State.modLaunch_cur (s : State) (l : Nat) (f : Launch → Launch) : (s.modLaunch l f).cur = s.cur := rfl
@[simp] theorem State.modLaunch_ticks (s : State) (l : Nat) (f : Launch → Launch) : (s.modLaunch l f).ticks = s.ticks := rfl
@[simp] theorem State.modLaunch_still (s : State) (l : Nat) (f : Launch → Launch) : (s.modLaunch l f).still = s.still := rfl
@[simp] theorem State.modLaunch_cycle (s : State) (l : Nat) (f : Launch → Launch) : (s.modLaunch l f).cycle = s.cycle := rfl
@[simp] theorem State.modLaunch_mem (s : State) (l : Nat) (f : Launch → Launch) : (s.modLaunch l f).mem = s.mem := rfl
@[simp] theorem State.modLaunch_xlat (s : State) (l : Nat) (f : Launch → Launch) : (s.modLaunch l f).xlat = s.xlat := rfl
@[simp] theorem State.modLaunch_strands (s : State) (l : Nat) (f : Launch → Launch) : (s.modLaunch l f).strands = s.strands := rfl
@[simp] theorem State.modLaunch_wgs (s : State) (l : Nat) (f : Launch → Launch) : (s.modLaunch l f).wgs = s.wgs := rfl
@[simp] theorem State.modLaunch_launches (s : State) (l : Nat) (f : Launch → Launch) : (s.modLaunch l f).launches = s.launches.modify l f := rfl
@[simp] theorem State.modLaunch_insts (s : State) (l : Nat) (f : Launch → Launch) : (s.modLaunch l f).insts = s.insts := rfl
@[simp] theorem State.modLaunch_bars (s : State) (l : Nat) (f : Launch → Launch) : (s.modLaunch l f).bars = s.bars := rfl
@[simp] theorem State.modLaunch_copyQs (s : State) (l : Nat) (f : Launch → Launch) : (s.modLaunch l f).copyQs = s.copyQs := rfl
@[simp] theorem State.modLaunch_collQs (s : State) (l : Nat) (f : Launch → Launch) : (s.modLaunch l f).collQs = s.collQs := rfl
@[simp] theorem State.modLaunch_partRegs (s : State) (l : Nat) (f : Launch → Launch) : (s.modLaunch l f).partRegs = s.partRegs := rfl
@[simp] theorem State.modLaunch_granules (s : State) (l : Nat) (f : Launch → Launch) : (s.modLaunch l f).granules = s.granules := rfl
@[simp] theorem State.modLaunch_deficits (s : State) (l : Nat) (f : Launch → Launch) : (s.modLaunch l f).deficits = s.deficits := rfl
@[simp] theorem State.modLaunch_turns (s : State) (l : Nat) (f : Launch → Launch) : (s.modLaunch l f).turns = s.turns := rfl
@[simp] theorem State.modLaunch_issues (s : State) (l : Nat) (f : Launch → Launch) : (s.modLaunch l f).issues = s.issues := rfl
@[simp] theorem State.modLaunch_drains (s : State) (l : Nat) (f : Launch → Launch) : (s.modLaunch l f).drains = s.drains := rfl
@[simp] theorem State.modLaunch_worlds (s : State) (l : Nat) (f : Launch → Launch) : (s.modLaunch l f).worlds = s.worlds := rfl
@[simp] theorem State.modLaunch_tickets (s : State) (l : Nat) (f : Launch → Launch) : (s.modLaunch l f).tickets = s.tickets := rfl
@[simp] theorem State.modLaunch_contexts (s : State) (l : Nat) (f : Launch → Launch) : (s.modLaunch l f).contexts = s.contexts := rfl
@[simp] theorem State.modLaunch_ports (s : State) (l : Nat) (f : Launch → Launch) : (s.modLaunch l f).ports = s.ports := rfl
@[simp] theorem State.modLaunch_rma (s : State) (l : Nat) (f : Launch → Launch) : (s.modLaunch l f).rma = s.rma := rfl
@[simp] theorem State.modLaunch_hub (s : State) (l : Nat) (f : Launch → Launch) : (s.modLaunch l f).hub = s.hub := rfl
@[simp] theorem State.modLaunch_trust (s : State) (l : Nat) (f : Launch → Launch) : (s.modLaunch l f).trust = s.trust := rfl
@[simp] theorem State.modLaunch_power (s : State) (l : Nat) (f : Launch → Launch) : (s.modLaunch l f).power = s.power := rfl
@[simp] theorem State.modLaunch_spares (s : State) (l : Nat) (f : Launch → Launch) : (s.modLaunch l f).spares = s.spares := rfl
@[simp] theorem State.modLaunch_events (s : State) (l : Nat) (f : Launch → Launch) : (s.modLaunch l f).events = s.events := rfl
@[simp] theorem State.modLaunch_nextId (s : State) (l : Nat) (f : Launch → Launch) : (s.modLaunch l f).nextId = s.nextId := rfl

/-! ## modInst -/

@[simp] theorem State.modInst_agenda (s : State) (i : InstId) (f : Inst → Inst) : (s.modInst i f).agenda = s.agenda := rfl
@[simp] theorem State.modInst_inbox (s : State) (i : InstId) (f : Inst → Inst) : (s.modInst i f).inbox = s.inbox := rfl
@[simp] theorem State.modInst_cur (s : State) (i : InstId) (f : Inst → Inst) : (s.modInst i f).cur = s.cur := rfl
@[simp] theorem State.modInst_ticks (s : State) (i : InstId) (f : Inst → Inst) : (s.modInst i f).ticks = s.ticks := rfl
@[simp] theorem State.modInst_still (s : State) (i : InstId) (f : Inst → Inst) : (s.modInst i f).still = s.still := rfl
@[simp] theorem State.modInst_cycle (s : State) (i : InstId) (f : Inst → Inst) : (s.modInst i f).cycle = s.cycle := rfl
@[simp] theorem State.modInst_mem (s : State) (i : InstId) (f : Inst → Inst) : (s.modInst i f).mem = s.mem := rfl
@[simp] theorem State.modInst_xlat (s : State) (i : InstId) (f : Inst → Inst) : (s.modInst i f).xlat = s.xlat := rfl
@[simp] theorem State.modInst_strands (s : State) (i : InstId) (f : Inst → Inst) : (s.modInst i f).strands = s.strands := rfl
@[simp] theorem State.modInst_wgs (s : State) (i : InstId) (f : Inst → Inst) : (s.modInst i f).wgs = s.wgs := rfl
@[simp] theorem State.modInst_launches (s : State) (i : InstId) (f : Inst → Inst) : (s.modInst i f).launches = s.launches := rfl
@[simp] theorem State.modInst_insts (s : State) (i : InstId) (f : Inst → Inst) : (s.modInst i f).insts = s.insts.modify i f := rfl
@[simp] theorem State.modInst_bars (s : State) (i : InstId) (f : Inst → Inst) : (s.modInst i f).bars = s.bars := rfl
@[simp] theorem State.modInst_copyQs (s : State) (i : InstId) (f : Inst → Inst) : (s.modInst i f).copyQs = s.copyQs := rfl
@[simp] theorem State.modInst_collQs (s : State) (i : InstId) (f : Inst → Inst) : (s.modInst i f).collQs = s.collQs := rfl
@[simp] theorem State.modInst_partRegs (s : State) (i : InstId) (f : Inst → Inst) : (s.modInst i f).partRegs = s.partRegs := rfl
@[simp] theorem State.modInst_granules (s : State) (i : InstId) (f : Inst → Inst) : (s.modInst i f).granules = s.granules := rfl
@[simp] theorem State.modInst_deficits (s : State) (i : InstId) (f : Inst → Inst) : (s.modInst i f).deficits = s.deficits := rfl
@[simp] theorem State.modInst_turns (s : State) (i : InstId) (f : Inst → Inst) : (s.modInst i f).turns = s.turns := rfl
@[simp] theorem State.modInst_issues (s : State) (i : InstId) (f : Inst → Inst) : (s.modInst i f).issues = s.issues := rfl
@[simp] theorem State.modInst_drains (s : State) (i : InstId) (f : Inst → Inst) : (s.modInst i f).drains = s.drains := rfl
@[simp] theorem State.modInst_worlds (s : State) (i : InstId) (f : Inst → Inst) : (s.modInst i f).worlds = s.worlds := rfl
@[simp] theorem State.modInst_tickets (s : State) (i : InstId) (f : Inst → Inst) : (s.modInst i f).tickets = s.tickets := rfl
@[simp] theorem State.modInst_contexts (s : State) (i : InstId) (f : Inst → Inst) : (s.modInst i f).contexts = s.contexts := rfl
@[simp] theorem State.modInst_ports (s : State) (i : InstId) (f : Inst → Inst) : (s.modInst i f).ports = s.ports := rfl
@[simp] theorem State.modInst_rma (s : State) (i : InstId) (f : Inst → Inst) : (s.modInst i f).rma = s.rma := rfl
@[simp] theorem State.modInst_hub (s : State) (i : InstId) (f : Inst → Inst) : (s.modInst i f).hub = s.hub := rfl
@[simp] theorem State.modInst_trust (s : State) (i : InstId) (f : Inst → Inst) : (s.modInst i f).trust = s.trust := rfl
@[simp] theorem State.modInst_power (s : State) (i : InstId) (f : Inst → Inst) : (s.modInst i f).power = s.power := rfl
@[simp] theorem State.modInst_spares (s : State) (i : InstId) (f : Inst → Inst) : (s.modInst i f).spares = s.spares := rfl
@[simp] theorem State.modInst_events (s : State) (i : InstId) (f : Inst → Inst) : (s.modInst i f).events = s.events := rfl
@[simp] theorem State.modInst_nextId (s : State) (i : InstId) (f : Inst → Inst) : (s.modInst i f).nextId = s.nextId := rfl

/-! ## modCtx -/

@[simp] theorem State.modCtx_agenda (s : State) (c : Nat) (f : Context → Context) : (s.modCtx c f).agenda = s.agenda := rfl
@[simp] theorem State.modCtx_inbox (s : State) (c : Nat) (f : Context → Context) : (s.modCtx c f).inbox = s.inbox := rfl
@[simp] theorem State.modCtx_cur (s : State) (c : Nat) (f : Context → Context) : (s.modCtx c f).cur = s.cur := rfl
@[simp] theorem State.modCtx_ticks (s : State) (c : Nat) (f : Context → Context) : (s.modCtx c f).ticks = s.ticks := rfl
@[simp] theorem State.modCtx_still (s : State) (c : Nat) (f : Context → Context) : (s.modCtx c f).still = s.still := rfl
@[simp] theorem State.modCtx_cycle (s : State) (c : Nat) (f : Context → Context) : (s.modCtx c f).cycle = s.cycle := rfl
@[simp] theorem State.modCtx_mem (s : State) (c : Nat) (f : Context → Context) : (s.modCtx c f).mem = s.mem := rfl
@[simp] theorem State.modCtx_xlat (s : State) (c : Nat) (f : Context → Context) : (s.modCtx c f).xlat = s.xlat := rfl
@[simp] theorem State.modCtx_strands (s : State) (c : Nat) (f : Context → Context) : (s.modCtx c f).strands = s.strands := rfl
@[simp] theorem State.modCtx_wgs (s : State) (c : Nat) (f : Context → Context) : (s.modCtx c f).wgs = s.wgs := rfl
@[simp] theorem State.modCtx_launches (s : State) (c : Nat) (f : Context → Context) : (s.modCtx c f).launches = s.launches := rfl
@[simp] theorem State.modCtx_insts (s : State) (c : Nat) (f : Context → Context) : (s.modCtx c f).insts = s.insts := rfl
@[simp] theorem State.modCtx_bars (s : State) (c : Nat) (f : Context → Context) : (s.modCtx c f).bars = s.bars := rfl
@[simp] theorem State.modCtx_copyQs (s : State) (c : Nat) (f : Context → Context) : (s.modCtx c f).copyQs = s.copyQs := rfl
@[simp] theorem State.modCtx_collQs (s : State) (c : Nat) (f : Context → Context) : (s.modCtx c f).collQs = s.collQs := rfl
@[simp] theorem State.modCtx_partRegs (s : State) (c : Nat) (f : Context → Context) : (s.modCtx c f).partRegs = s.partRegs := rfl
@[simp] theorem State.modCtx_granules (s : State) (c : Nat) (f : Context → Context) : (s.modCtx c f).granules = s.granules := rfl
@[simp] theorem State.modCtx_deficits (s : State) (c : Nat) (f : Context → Context) : (s.modCtx c f).deficits = s.deficits := rfl
@[simp] theorem State.modCtx_turns (s : State) (c : Nat) (f : Context → Context) : (s.modCtx c f).turns = s.turns := rfl
@[simp] theorem State.modCtx_issues (s : State) (c : Nat) (f : Context → Context) : (s.modCtx c f).issues = s.issues := rfl
@[simp] theorem State.modCtx_drains (s : State) (c : Nat) (f : Context → Context) : (s.modCtx c f).drains = s.drains := rfl
@[simp] theorem State.modCtx_worlds (s : State) (c : Nat) (f : Context → Context) : (s.modCtx c f).worlds = s.worlds := rfl
@[simp] theorem State.modCtx_tickets (s : State) (c : Nat) (f : Context → Context) : (s.modCtx c f).tickets = s.tickets := rfl
@[simp] theorem State.modCtx_contexts (s : State) (c : Nat) (f : Context → Context) : (s.modCtx c f).contexts = s.contexts.modify c f := rfl
@[simp] theorem State.modCtx_ports (s : State) (c : Nat) (f : Context → Context) : (s.modCtx c f).ports = s.ports := rfl
@[simp] theorem State.modCtx_rma (s : State) (c : Nat) (f : Context → Context) : (s.modCtx c f).rma = s.rma := rfl
@[simp] theorem State.modCtx_hub (s : State) (c : Nat) (f : Context → Context) : (s.modCtx c f).hub = s.hub := rfl
@[simp] theorem State.modCtx_trust (s : State) (c : Nat) (f : Context → Context) : (s.modCtx c f).trust = s.trust := rfl
@[simp] theorem State.modCtx_power (s : State) (c : Nat) (f : Context → Context) : (s.modCtx c f).power = s.power := rfl
@[simp] theorem State.modCtx_spares (s : State) (c : Nat) (f : Context → Context) : (s.modCtx c f).spares = s.spares := rfl
@[simp] theorem State.modCtx_events (s : State) (c : Nat) (f : Context → Context) : (s.modCtx c f).events = s.events := rfl
@[simp] theorem State.modCtx_nextId (s : State) (c : Nat) (f : Context → Context) : (s.modCtx c f).nextId = s.nextId := rfl

/-! ## modWorld -/

@[simp] theorem State.modWorld_agenda (s : State) (w : Nat) (f : World → World) : (s.modWorld w f).agenda = s.agenda := rfl
@[simp] theorem State.modWorld_inbox (s : State) (w : Nat) (f : World → World) : (s.modWorld w f).inbox = s.inbox := rfl
@[simp] theorem State.modWorld_cur (s : State) (w : Nat) (f : World → World) : (s.modWorld w f).cur = s.cur := rfl
@[simp] theorem State.modWorld_ticks (s : State) (w : Nat) (f : World → World) : (s.modWorld w f).ticks = s.ticks := rfl
@[simp] theorem State.modWorld_still (s : State) (w : Nat) (f : World → World) : (s.modWorld w f).still = s.still := rfl
@[simp] theorem State.modWorld_cycle (s : State) (w : Nat) (f : World → World) : (s.modWorld w f).cycle = s.cycle := rfl
@[simp] theorem State.modWorld_mem (s : State) (w : Nat) (f : World → World) : (s.modWorld w f).mem = s.mem := rfl
@[simp] theorem State.modWorld_xlat (s : State) (w : Nat) (f : World → World) : (s.modWorld w f).xlat = s.xlat := rfl
@[simp] theorem State.modWorld_strands (s : State) (w : Nat) (f : World → World) : (s.modWorld w f).strands = s.strands := rfl
@[simp] theorem State.modWorld_wgs (s : State) (w : Nat) (f : World → World) : (s.modWorld w f).wgs = s.wgs := rfl
@[simp] theorem State.modWorld_launches (s : State) (w : Nat) (f : World → World) : (s.modWorld w f).launches = s.launches := rfl
@[simp] theorem State.modWorld_insts (s : State) (w : Nat) (f : World → World) : (s.modWorld w f).insts = s.insts := rfl
@[simp] theorem State.modWorld_bars (s : State) (w : Nat) (f : World → World) : (s.modWorld w f).bars = s.bars := rfl
@[simp] theorem State.modWorld_copyQs (s : State) (w : Nat) (f : World → World) : (s.modWorld w f).copyQs = s.copyQs := rfl
@[simp] theorem State.modWorld_collQs (s : State) (w : Nat) (f : World → World) : (s.modWorld w f).collQs = s.collQs := rfl
@[simp] theorem State.modWorld_partRegs (s : State) (w : Nat) (f : World → World) : (s.modWorld w f).partRegs = s.partRegs := rfl
@[simp] theorem State.modWorld_granules (s : State) (w : Nat) (f : World → World) : (s.modWorld w f).granules = s.granules := rfl
@[simp] theorem State.modWorld_deficits (s : State) (w : Nat) (f : World → World) : (s.modWorld w f).deficits = s.deficits := rfl
@[simp] theorem State.modWorld_turns (s : State) (w : Nat) (f : World → World) : (s.modWorld w f).turns = s.turns := rfl
@[simp] theorem State.modWorld_issues (s : State) (w : Nat) (f : World → World) : (s.modWorld w f).issues = s.issues := rfl
@[simp] theorem State.modWorld_drains (s : State) (w : Nat) (f : World → World) : (s.modWorld w f).drains = s.drains := rfl
@[simp] theorem State.modWorld_worlds (s : State) (w : Nat) (f : World → World) : (s.modWorld w f).worlds = s.worlds.modify w f := rfl
@[simp] theorem State.modWorld_tickets (s : State) (w : Nat) (f : World → World) : (s.modWorld w f).tickets = s.tickets := rfl
@[simp] theorem State.modWorld_contexts (s : State) (w : Nat) (f : World → World) : (s.modWorld w f).contexts = s.contexts := rfl
@[simp] theorem State.modWorld_ports (s : State) (w : Nat) (f : World → World) : (s.modWorld w f).ports = s.ports := rfl
@[simp] theorem State.modWorld_rma (s : State) (w : Nat) (f : World → World) : (s.modWorld w f).rma = s.rma := rfl
@[simp] theorem State.modWorld_hub (s : State) (w : Nat) (f : World → World) : (s.modWorld w f).hub = s.hub := rfl
@[simp] theorem State.modWorld_trust (s : State) (w : Nat) (f : World → World) : (s.modWorld w f).trust = s.trust := rfl
@[simp] theorem State.modWorld_power (s : State) (w : Nat) (f : World → World) : (s.modWorld w f).power = s.power := rfl
@[simp] theorem State.modWorld_spares (s : State) (w : Nat) (f : World → World) : (s.modWorld w f).spares = s.spares := rfl
@[simp] theorem State.modWorld_events (s : State) (w : Nat) (f : World → World) : (s.modWorld w f).events = s.events := rfl
@[simp] theorem State.modWorld_nextId (s : State) (w : Nat) (f : World → World) : (s.modWorld w f).nextId = s.nextId := rfl

/-! ## tell -/

@[simp] theorem State.tell_agenda (s : State) (w : Nat) (e : Event) : (s.tell w e).agenda = s.agenda := rfl
@[simp] theorem State.tell_inbox (s : State) (w : Nat) (e : Event) : (s.tell w e).inbox = s.inbox := rfl
@[simp] theorem State.tell_cur (s : State) (w : Nat) (e : Event) : (s.tell w e).cur = s.cur := rfl
@[simp] theorem State.tell_ticks (s : State) (w : Nat) (e : Event) : (s.tell w e).ticks = s.ticks := rfl
@[simp] theorem State.tell_still (s : State) (w : Nat) (e : Event) : (s.tell w e).still = s.still := rfl
@[simp] theorem State.tell_cycle (s : State) (w : Nat) (e : Event) : (s.tell w e).cycle = s.cycle := rfl
@[simp] theorem State.tell_mem (s : State) (w : Nat) (e : Event) : (s.tell w e).mem = s.mem := rfl
@[simp] theorem State.tell_xlat (s : State) (w : Nat) (e : Event) : (s.tell w e).xlat = s.xlat := rfl
@[simp] theorem State.tell_strands (s : State) (w : Nat) (e : Event) : (s.tell w e).strands = s.strands := rfl
@[simp] theorem State.tell_wgs (s : State) (w : Nat) (e : Event) : (s.tell w e).wgs = s.wgs := rfl
@[simp] theorem State.tell_launches (s : State) (w : Nat) (e : Event) : (s.tell w e).launches = s.launches := rfl
@[simp] theorem State.tell_insts (s : State) (w : Nat) (e : Event) : (s.tell w e).insts = s.insts := rfl
@[simp] theorem State.tell_bars (s : State) (w : Nat) (e : Event) : (s.tell w e).bars = s.bars := rfl
@[simp] theorem State.tell_copyQs (s : State) (w : Nat) (e : Event) : (s.tell w e).copyQs = s.copyQs := rfl
@[simp] theorem State.tell_collQs (s : State) (w : Nat) (e : Event) : (s.tell w e).collQs = s.collQs := rfl
@[simp] theorem State.tell_partRegs (s : State) (w : Nat) (e : Event) : (s.tell w e).partRegs = s.partRegs := rfl
@[simp] theorem State.tell_granules (s : State) (w : Nat) (e : Event) : (s.tell w e).granules = s.granules := rfl
@[simp] theorem State.tell_deficits (s : State) (w : Nat) (e : Event) : (s.tell w e).deficits = s.deficits := rfl
@[simp] theorem State.tell_turns (s : State) (w : Nat) (e : Event) : (s.tell w e).turns = s.turns := rfl
@[simp] theorem State.tell_issues (s : State) (w : Nat) (e : Event) : (s.tell w e).issues = s.issues := rfl
@[simp] theorem State.tell_drains (s : State) (w : Nat) (e : Event) : (s.tell w e).drains = s.drains := rfl
@[simp] theorem State.tell_worlds (s : State) (w : Nat) (e : Event) : (s.tell w e).worlds = s.worlds := rfl
@[simp] theorem State.tell_tickets (s : State) (w : Nat) (e : Event) : (s.tell w e).tickets = s.tickets := rfl
@[simp] theorem State.tell_contexts (s : State) (w : Nat) (e : Event) : (s.tell w e).contexts = s.contexts := rfl
@[simp] theorem State.tell_ports (s : State) (w : Nat) (e : Event) : (s.tell w e).ports = s.ports := rfl
@[simp] theorem State.tell_rma (s : State) (w : Nat) (e : Event) : (s.tell w e).rma = s.rma := rfl
@[simp] theorem State.tell_hub (s : State) (w : Nat) (e : Event) : (s.tell w e).hub = s.hub := rfl
@[simp] theorem State.tell_trust (s : State) (w : Nat) (e : Event) : (s.tell w e).trust = s.trust := rfl
@[simp] theorem State.tell_power (s : State) (w : Nat) (e : Event) : (s.tell w e).power = s.power := rfl
@[simp] theorem State.tell_spares (s : State) (w : Nat) (e : Event) : (s.tell w e).spares = s.spares := rfl
@[simp] theorem State.tell_events (s : State) (w : Nat) (e : Event) : (s.tell w e).events = s.events ++ [(w, e)] := rfl
@[simp] theorem State.tell_nextId (s : State) (w : Nat) (e : Event) : (s.tell w e).nextId = s.nextId := rfl

/-! ## setCopyQ -/

@[simp] theorem State.setCopyQ_agenda (s : State) (c : CoreId) (q : Fin 4) (v : CopyQueue) : (s.setCopyQ c q v).agenda = s.agenda := rfl
@[simp] theorem State.setCopyQ_inbox (s : State) (c : CoreId) (q : Fin 4) (v : CopyQueue) : (s.setCopyQ c q v).inbox = s.inbox := rfl
@[simp] theorem State.setCopyQ_cur (s : State) (c : CoreId) (q : Fin 4) (v : CopyQueue) : (s.setCopyQ c q v).cur = s.cur := rfl
@[simp] theorem State.setCopyQ_ticks (s : State) (c : CoreId) (q : Fin 4) (v : CopyQueue) : (s.setCopyQ c q v).ticks = s.ticks := rfl
@[simp] theorem State.setCopyQ_still (s : State) (c : CoreId) (q : Fin 4) (v : CopyQueue) : (s.setCopyQ c q v).still = s.still := rfl
@[simp] theorem State.setCopyQ_cycle (s : State) (c : CoreId) (q : Fin 4) (v : CopyQueue) : (s.setCopyQ c q v).cycle = s.cycle := rfl
@[simp] theorem State.setCopyQ_mem (s : State) (c : CoreId) (q : Fin 4) (v : CopyQueue) : (s.setCopyQ c q v).mem = s.mem := rfl
@[simp] theorem State.setCopyQ_xlat (s : State) (c : CoreId) (q : Fin 4) (v : CopyQueue) : (s.setCopyQ c q v).xlat = s.xlat := rfl
@[simp] theorem State.setCopyQ_strands (s : State) (c : CoreId) (q : Fin 4) (v : CopyQueue) : (s.setCopyQ c q v).strands = s.strands := rfl
@[simp] theorem State.setCopyQ_wgs (s : State) (c : CoreId) (q : Fin 4) (v : CopyQueue) : (s.setCopyQ c q v).wgs = s.wgs := rfl
@[simp] theorem State.setCopyQ_launches (s : State) (c : CoreId) (q : Fin 4) (v : CopyQueue) : (s.setCopyQ c q v).launches = s.launches := rfl
@[simp] theorem State.setCopyQ_insts (s : State) (c : CoreId) (q : Fin 4) (v : CopyQueue) : (s.setCopyQ c q v).insts = s.insts := rfl
@[simp] theorem State.setCopyQ_bars (s : State) (c : CoreId) (q : Fin 4) (v : CopyQueue) : (s.setCopyQ c q v).bars = s.bars := rfl
@[simp] theorem State.setCopyQ_copyQs (s : State) (c : CoreId) (q : Fin 4) (v : CopyQueue) : (s.setCopyQ c q v).copyQs = s.copyQs.set (c, q) v := rfl
@[simp] theorem State.setCopyQ_collQs (s : State) (c : CoreId) (q : Fin 4) (v : CopyQueue) : (s.setCopyQ c q v).collQs = s.collQs := rfl
@[simp] theorem State.setCopyQ_partRegs (s : State) (c : CoreId) (q : Fin 4) (v : CopyQueue) : (s.setCopyQ c q v).partRegs = s.partRegs := rfl
@[simp] theorem State.setCopyQ_granules (s : State) (c : CoreId) (q : Fin 4) (v : CopyQueue) : (s.setCopyQ c q v).granules = s.granules := rfl
@[simp] theorem State.setCopyQ_deficits (s : State) (c : CoreId) (q : Fin 4) (v : CopyQueue) : (s.setCopyQ c q v).deficits = s.deficits := rfl
@[simp] theorem State.setCopyQ_turns (s : State) (c : CoreId) (q : Fin 4) (v : CopyQueue) : (s.setCopyQ c q v).turns = s.turns := rfl
@[simp] theorem State.setCopyQ_issues (s : State) (c : CoreId) (q : Fin 4) (v : CopyQueue) : (s.setCopyQ c q v).issues = s.issues := rfl
@[simp] theorem State.setCopyQ_drains (s : State) (c : CoreId) (q : Fin 4) (v : CopyQueue) : (s.setCopyQ c q v).drains = s.drains := rfl
@[simp] theorem State.setCopyQ_worlds (s : State) (c : CoreId) (q : Fin 4) (v : CopyQueue) : (s.setCopyQ c q v).worlds = s.worlds := rfl
@[simp] theorem State.setCopyQ_tickets (s : State) (c : CoreId) (q : Fin 4) (v : CopyQueue) : (s.setCopyQ c q v).tickets = s.tickets := rfl
@[simp] theorem State.setCopyQ_contexts (s : State) (c : CoreId) (q : Fin 4) (v : CopyQueue) : (s.setCopyQ c q v).contexts = s.contexts := rfl
@[simp] theorem State.setCopyQ_ports (s : State) (c : CoreId) (q : Fin 4) (v : CopyQueue) : (s.setCopyQ c q v).ports = s.ports := rfl
@[simp] theorem State.setCopyQ_rma (s : State) (c : CoreId) (q : Fin 4) (v : CopyQueue) : (s.setCopyQ c q v).rma = s.rma := rfl
@[simp] theorem State.setCopyQ_hub (s : State) (c : CoreId) (q : Fin 4) (v : CopyQueue) : (s.setCopyQ c q v).hub = s.hub := rfl
@[simp] theorem State.setCopyQ_trust (s : State) (c : CoreId) (q : Fin 4) (v : CopyQueue) : (s.setCopyQ c q v).trust = s.trust := rfl
@[simp] theorem State.setCopyQ_power (s : State) (c : CoreId) (q : Fin 4) (v : CopyQueue) : (s.setCopyQ c q v).power = s.power := rfl
@[simp] theorem State.setCopyQ_spares (s : State) (c : CoreId) (q : Fin 4) (v : CopyQueue) : (s.setCopyQ c q v).spares = s.spares := rfl
@[simp] theorem State.setCopyQ_events (s : State) (c : CoreId) (q : Fin 4) (v : CopyQueue) : (s.setCopyQ c q v).events = s.events := rfl
@[simp] theorem State.setCopyQ_nextId (s : State) (c : CoreId) (q : Fin 4) (v : CopyQueue) : (s.setCopyQ c q v).nextId = s.nextId := rfl

/-! ## setCollQ -/

@[simp] theorem State.setCollQ_agenda (s : State) (d : Fin 4) (v : CollQueue) : (s.setCollQ d v).agenda = s.agenda := rfl
@[simp] theorem State.setCollQ_inbox (s : State) (d : Fin 4) (v : CollQueue) : (s.setCollQ d v).inbox = s.inbox := rfl
@[simp] theorem State.setCollQ_cur (s : State) (d : Fin 4) (v : CollQueue) : (s.setCollQ d v).cur = s.cur := rfl
@[simp] theorem State.setCollQ_ticks (s : State) (d : Fin 4) (v : CollQueue) : (s.setCollQ d v).ticks = s.ticks := rfl
@[simp] theorem State.setCollQ_still (s : State) (d : Fin 4) (v : CollQueue) : (s.setCollQ d v).still = s.still := rfl
@[simp] theorem State.setCollQ_cycle (s : State) (d : Fin 4) (v : CollQueue) : (s.setCollQ d v).cycle = s.cycle := rfl
@[simp] theorem State.setCollQ_mem (s : State) (d : Fin 4) (v : CollQueue) : (s.setCollQ d v).mem = s.mem := rfl
@[simp] theorem State.setCollQ_xlat (s : State) (d : Fin 4) (v : CollQueue) : (s.setCollQ d v).xlat = s.xlat := rfl
@[simp] theorem State.setCollQ_strands (s : State) (d : Fin 4) (v : CollQueue) : (s.setCollQ d v).strands = s.strands := rfl
@[simp] theorem State.setCollQ_wgs (s : State) (d : Fin 4) (v : CollQueue) : (s.setCollQ d v).wgs = s.wgs := rfl
@[simp] theorem State.setCollQ_launches (s : State) (d : Fin 4) (v : CollQueue) : (s.setCollQ d v).launches = s.launches := rfl
@[simp] theorem State.setCollQ_insts (s : State) (d : Fin 4) (v : CollQueue) : (s.setCollQ d v).insts = s.insts := rfl
@[simp] theorem State.setCollQ_bars (s : State) (d : Fin 4) (v : CollQueue) : (s.setCollQ d v).bars = s.bars := rfl
@[simp] theorem State.setCollQ_copyQs (s : State) (d : Fin 4) (v : CollQueue) : (s.setCollQ d v).copyQs = s.copyQs := rfl
@[simp] theorem State.setCollQ_collQs (s : State) (d : Fin 4) (v : CollQueue) : (s.setCollQ d v).collQs = s.collQs.set d v := rfl
@[simp] theorem State.setCollQ_partRegs (s : State) (d : Fin 4) (v : CollQueue) : (s.setCollQ d v).partRegs = s.partRegs := rfl
@[simp] theorem State.setCollQ_granules (s : State) (d : Fin 4) (v : CollQueue) : (s.setCollQ d v).granules = s.granules := rfl
@[simp] theorem State.setCollQ_deficits (s : State) (d : Fin 4) (v : CollQueue) : (s.setCollQ d v).deficits = s.deficits := rfl
@[simp] theorem State.setCollQ_turns (s : State) (d : Fin 4) (v : CollQueue) : (s.setCollQ d v).turns = s.turns := rfl
@[simp] theorem State.setCollQ_issues (s : State) (d : Fin 4) (v : CollQueue) : (s.setCollQ d v).issues = s.issues := rfl
@[simp] theorem State.setCollQ_drains (s : State) (d : Fin 4) (v : CollQueue) : (s.setCollQ d v).drains = s.drains := rfl
@[simp] theorem State.setCollQ_worlds (s : State) (d : Fin 4) (v : CollQueue) : (s.setCollQ d v).worlds = s.worlds := rfl
@[simp] theorem State.setCollQ_tickets (s : State) (d : Fin 4) (v : CollQueue) : (s.setCollQ d v).tickets = s.tickets := rfl
@[simp] theorem State.setCollQ_contexts (s : State) (d : Fin 4) (v : CollQueue) : (s.setCollQ d v).contexts = s.contexts := rfl
@[simp] theorem State.setCollQ_ports (s : State) (d : Fin 4) (v : CollQueue) : (s.setCollQ d v).ports = s.ports := rfl
@[simp] theorem State.setCollQ_rma (s : State) (d : Fin 4) (v : CollQueue) : (s.setCollQ d v).rma = s.rma := rfl
@[simp] theorem State.setCollQ_hub (s : State) (d : Fin 4) (v : CollQueue) : (s.setCollQ d v).hub = s.hub := rfl
@[simp] theorem State.setCollQ_trust (s : State) (d : Fin 4) (v : CollQueue) : (s.setCollQ d v).trust = s.trust := rfl
@[simp] theorem State.setCollQ_power (s : State) (d : Fin 4) (v : CollQueue) : (s.setCollQ d v).power = s.power := rfl
@[simp] theorem State.setCollQ_spares (s : State) (d : Fin 4) (v : CollQueue) : (s.setCollQ d v).spares = s.spares := rfl
@[simp] theorem State.setCollQ_events (s : State) (d : Fin 4) (v : CollQueue) : (s.setCollQ d v).events = s.events := rfl
@[simp] theorem State.setCollQ_nextId (s : State) (d : Fin 4) (v : CollQueue) : (s.setCollQ d v).nextId = s.nextId := rfl

/-! ## modTrust -/

@[simp] theorem State.modTrust_agenda (s : State) (f : Trust → Trust) : (s.modTrust f).agenda = s.agenda := rfl
@[simp] theorem State.modTrust_inbox (s : State) (f : Trust → Trust) : (s.modTrust f).inbox = s.inbox := rfl
@[simp] theorem State.modTrust_cur (s : State) (f : Trust → Trust) : (s.modTrust f).cur = s.cur := rfl
@[simp] theorem State.modTrust_ticks (s : State) (f : Trust → Trust) : (s.modTrust f).ticks = s.ticks := rfl
@[simp] theorem State.modTrust_still (s : State) (f : Trust → Trust) : (s.modTrust f).still = s.still := rfl
@[simp] theorem State.modTrust_cycle (s : State) (f : Trust → Trust) : (s.modTrust f).cycle = s.cycle := rfl
@[simp] theorem State.modTrust_mem (s : State) (f : Trust → Trust) : (s.modTrust f).mem = s.mem := rfl
@[simp] theorem State.modTrust_xlat (s : State) (f : Trust → Trust) : (s.modTrust f).xlat = s.xlat := rfl
@[simp] theorem State.modTrust_strands (s : State) (f : Trust → Trust) : (s.modTrust f).strands = s.strands := rfl
@[simp] theorem State.modTrust_wgs (s : State) (f : Trust → Trust) : (s.modTrust f).wgs = s.wgs := rfl
@[simp] theorem State.modTrust_launches (s : State) (f : Trust → Trust) : (s.modTrust f).launches = s.launches := rfl
@[simp] theorem State.modTrust_insts (s : State) (f : Trust → Trust) : (s.modTrust f).insts = s.insts := rfl
@[simp] theorem State.modTrust_bars (s : State) (f : Trust → Trust) : (s.modTrust f).bars = s.bars := rfl
@[simp] theorem State.modTrust_copyQs (s : State) (f : Trust → Trust) : (s.modTrust f).copyQs = s.copyQs := rfl
@[simp] theorem State.modTrust_collQs (s : State) (f : Trust → Trust) : (s.modTrust f).collQs = s.collQs := rfl
@[simp] theorem State.modTrust_partRegs (s : State) (f : Trust → Trust) : (s.modTrust f).partRegs = s.partRegs := rfl
@[simp] theorem State.modTrust_granules (s : State) (f : Trust → Trust) : (s.modTrust f).granules = s.granules := rfl
@[simp] theorem State.modTrust_deficits (s : State) (f : Trust → Trust) : (s.modTrust f).deficits = s.deficits := rfl
@[simp] theorem State.modTrust_turns (s : State) (f : Trust → Trust) : (s.modTrust f).turns = s.turns := rfl
@[simp] theorem State.modTrust_issues (s : State) (f : Trust → Trust) : (s.modTrust f).issues = s.issues := rfl
@[simp] theorem State.modTrust_drains (s : State) (f : Trust → Trust) : (s.modTrust f).drains = s.drains := rfl
@[simp] theorem State.modTrust_worlds (s : State) (f : Trust → Trust) : (s.modTrust f).worlds = s.worlds := rfl
@[simp] theorem State.modTrust_tickets (s : State) (f : Trust → Trust) : (s.modTrust f).tickets = s.tickets := rfl
@[simp] theorem State.modTrust_contexts (s : State) (f : Trust → Trust) : (s.modTrust f).contexts = s.contexts := rfl
@[simp] theorem State.modTrust_ports (s : State) (f : Trust → Trust) : (s.modTrust f).ports = s.ports := rfl
@[simp] theorem State.modTrust_rma (s : State) (f : Trust → Trust) : (s.modTrust f).rma = s.rma := rfl
@[simp] theorem State.modTrust_hub (s : State) (f : Trust → Trust) : (s.modTrust f).hub = s.hub := rfl
@[simp] theorem State.modTrust_trust (s : State) (f : Trust → Trust) : (s.modTrust f).trust = f s.trust := rfl
@[simp] theorem State.modTrust_power (s : State) (f : Trust → Trust) : (s.modTrust f).power = s.power := rfl
@[simp] theorem State.modTrust_spares (s : State) (f : Trust → Trust) : (s.modTrust f).spares = s.spares := rfl
@[simp] theorem State.modTrust_events (s : State) (f : Trust → Trust) : (s.modTrust f).events = s.events := rfl
@[simp] theorem State.modTrust_nextId (s : State) (f : Trust → Trust) : (s.modTrust f).nextId = s.nextId := rfl

/-! ## modPower -/

@[simp] theorem State.modPower_agenda (s : State) (f : Power → Power) : (s.modPower f).agenda = s.agenda := rfl
@[simp] theorem State.modPower_inbox (s : State) (f : Power → Power) : (s.modPower f).inbox = s.inbox := rfl
@[simp] theorem State.modPower_cur (s : State) (f : Power → Power) : (s.modPower f).cur = s.cur := rfl
@[simp] theorem State.modPower_ticks (s : State) (f : Power → Power) : (s.modPower f).ticks = s.ticks := rfl
@[simp] theorem State.modPower_still (s : State) (f : Power → Power) : (s.modPower f).still = s.still := rfl
@[simp] theorem State.modPower_cycle (s : State) (f : Power → Power) : (s.modPower f).cycle = s.cycle := rfl
@[simp] theorem State.modPower_mem (s : State) (f : Power → Power) : (s.modPower f).mem = s.mem := rfl
@[simp] theorem State.modPower_xlat (s : State) (f : Power → Power) : (s.modPower f).xlat = s.xlat := rfl
@[simp] theorem State.modPower_strands (s : State) (f : Power → Power) : (s.modPower f).strands = s.strands := rfl
@[simp] theorem State.modPower_wgs (s : State) (f : Power → Power) : (s.modPower f).wgs = s.wgs := rfl
@[simp] theorem State.modPower_launches (s : State) (f : Power → Power) : (s.modPower f).launches = s.launches := rfl
@[simp] theorem State.modPower_insts (s : State) (f : Power → Power) : (s.modPower f).insts = s.insts := rfl
@[simp] theorem State.modPower_bars (s : State) (f : Power → Power) : (s.modPower f).bars = s.bars := rfl
@[simp] theorem State.modPower_copyQs (s : State) (f : Power → Power) : (s.modPower f).copyQs = s.copyQs := rfl
@[simp] theorem State.modPower_collQs (s : State) (f : Power → Power) : (s.modPower f).collQs = s.collQs := rfl
@[simp] theorem State.modPower_partRegs (s : State) (f : Power → Power) : (s.modPower f).partRegs = s.partRegs := rfl
@[simp] theorem State.modPower_granules (s : State) (f : Power → Power) : (s.modPower f).granules = s.granules := rfl
@[simp] theorem State.modPower_deficits (s : State) (f : Power → Power) : (s.modPower f).deficits = s.deficits := rfl
@[simp] theorem State.modPower_turns (s : State) (f : Power → Power) : (s.modPower f).turns = s.turns := rfl
@[simp] theorem State.modPower_issues (s : State) (f : Power → Power) : (s.modPower f).issues = s.issues := rfl
@[simp] theorem State.modPower_drains (s : State) (f : Power → Power) : (s.modPower f).drains = s.drains := rfl
@[simp] theorem State.modPower_worlds (s : State) (f : Power → Power) : (s.modPower f).worlds = s.worlds := rfl
@[simp] theorem State.modPower_tickets (s : State) (f : Power → Power) : (s.modPower f).tickets = s.tickets := rfl
@[simp] theorem State.modPower_contexts (s : State) (f : Power → Power) : (s.modPower f).contexts = s.contexts := rfl
@[simp] theorem State.modPower_ports (s : State) (f : Power → Power) : (s.modPower f).ports = s.ports := rfl
@[simp] theorem State.modPower_rma (s : State) (f : Power → Power) : (s.modPower f).rma = s.rma := rfl
@[simp] theorem State.modPower_hub (s : State) (f : Power → Power) : (s.modPower f).hub = s.hub := rfl
@[simp] theorem State.modPower_trust (s : State) (f : Power → Power) : (s.modPower f).trust = s.trust := rfl
@[simp] theorem State.modPower_power (s : State) (f : Power → Power) : (s.modPower f).power = f s.power := rfl
@[simp] theorem State.modPower_spares (s : State) (f : Power → Power) : (s.modPower f).spares = s.spares := rfl
@[simp] theorem State.modPower_events (s : State) (f : Power → Power) : (s.modPower f).events = s.events := rfl
@[simp] theorem State.modPower_nextId (s : State) (f : Power → Power) : (s.modPower f).nextId = s.nextId := rfl

/-! ## Strand updates: a register, a predicate, moving on -/

@[simp] theorem Strand.wr_role (st : Strand) (i : SReg) (v : W64) : (st.wr i v).role = st.role := by unfold Strand.wr; split <;> rfl
@[simp] theorem Strand.wrP_role (st : Strand) (i : PReg) (b : Bool) : (st.wrP i b).role = st.role := by unfold Strand.wrP; split <;> rfl
@[simp] theorem Strand.next_role (st : Strand) (pc c : Nat) : (st.next pc c).role = st.role := rfl
@[simp] theorem Strand.wrP_s (st : Strand) (i : PReg) (b : Bool) : (st.wrP i b).s = st.s := by unfold Strand.wrP; split <;> rfl
@[simp] theorem Strand.next_s (st : Strand) (pc c : Nat) : (st.next pc c).s = st.s := rfl
@[simp] theorem Strand.wr_p (st : Strand) (i : SReg) (v : W64) : (st.wr i v).p = st.p := by unfold Strand.wr; split <;> rfl
@[simp] theorem Strand.next_p (st : Strand) (pc c : Nat) : (st.next pc c).p = st.p := rfl
@[simp] theorem Strand.wr_pc (st : Strand) (i : SReg) (v : W64) : (st.wr i v).pc = st.pc := by unfold Strand.wr; split <;> rfl
@[simp] theorem Strand.wrP_pc (st : Strand) (i : PReg) (b : Bool) : (st.wrP i b).pc = st.pc := by unfold Strand.wrP; split <;> rfl
@[simp] theorem Strand.next_pc (st : Strand) (pc c : Nat) : (st.next pc c).pc = pc := rfl
@[simp] theorem Strand.wr_ended (st : Strand) (i : SReg) (v : W64) : (st.wr i v).ended = st.ended := by unfold Strand.wr; split <;> rfl
@[simp] theorem Strand.wrP_ended (st : Strand) (i : PReg) (b : Bool) : (st.wrP i b).ended = st.ended := by unfold Strand.wrP; split <;> rfl
@[simp] theorem Strand.next_ended (st : Strand) (pc c : Nat) : (st.next pc c).ended = st.ended := rfl
@[simp] theorem Strand.wr_sexit (st : Strand) (i : SReg) (v : W64) : (st.wr i v).sexit = st.sexit := by unfold Strand.wr; split <;> rfl
@[simp] theorem Strand.wrP_sexit (st : Strand) (i : PReg) (b : Bool) : (st.wrP i b).sexit = st.sexit := by unfold Strand.wrP; split <;> rfl
@[simp] theorem Strand.next_sexit (st : Strand) (pc c : Nat) : (st.next pc c).sexit = st.sexit := rfl
@[simp] theorem Strand.wr_tileScale (st : Strand) (i : SReg) (v : W64) : (st.wr i v).tileScale = st.tileScale := by unfold Strand.wr; split <;> rfl
@[simp] theorem Strand.wrP_tileScale (st : Strand) (i : PReg) (b : Bool) : (st.wrP i b).tileScale = st.tileScale := by unfold Strand.wrP; split <;> rfl
@[simp] theorem Strand.next_tileScale (st : Strand) (pc c : Nat) : (st.next pc c).tileScale = st.tileScale := rfl
@[simp] theorem Strand.wr_laneQ (st : Strand) (i : SReg) (v : W64) : (st.wr i v).laneQ = st.laneQ := by unfold Strand.wr; split <;> rfl
@[simp] theorem Strand.wrP_laneQ (st : Strand) (i : PReg) (b : Bool) : (st.wrP i b).laneQ = st.laneQ := by unfold Strand.wrP; split <;> rfl
@[simp] theorem Strand.next_laneQ (st : Strand) (pc c : Nat) : (st.next pc c).laneQ = st.laneQ := rfl
@[simp] theorem Strand.wr_started (st : Strand) (i : SReg) (v : W64) : (st.wr i v).started = st.started := by unfold Strand.wr; split <;> rfl
@[simp] theorem Strand.wrP_started (st : Strand) (i : PReg) (b : Bool) : (st.wrP i b).started = st.started := by unfold Strand.wrP; split <;> rfl
@[simp] theorem Strand.next_started (st : Strand) (pc c : Nat) : (st.next pc c).started = st.started := rfl
@[simp] theorem Strand.wr_slots (st : Strand) (i : SReg) (v : W64) : (st.wr i v).slots = st.slots := by unfold Strand.wr; split <;> rfl
@[simp] theorem Strand.wrP_slots (st : Strand) (i : PReg) (b : Bool) : (st.wrP i b).slots = st.slots := by unfold Strand.wrP; split <;> rfl
@[simp] theorem Strand.next_slots (st : Strand) (pc c : Nat) : (st.next pc c).slots = st.slots := rfl
@[simp] theorem Strand.wr_serialised (st : Strand) (i : SReg) (v : W64) : (st.wr i v).serialised = st.serialised := by unfold Strand.wr; split <;> rfl
@[simp] theorem Strand.wrP_serialised (st : Strand) (i : PReg) (b : Bool) : (st.wrP i b).serialised = st.serialised := by unfold Strand.wrP; split <;> rfl
@[simp] theorem Strand.next_serialised (st : Strand) (pc c : Nat) : (st.next pc c).serialised = st.serialised := rfl
@[simp] theorem Strand.wr_spilled (st : Strand) (i : SReg) (v : W64) : (st.wr i v).spilled = st.spilled := by unfold Strand.wr; split <;> rfl
@[simp] theorem Strand.wrP_spilled (st : Strand) (i : PReg) (b : Bool) : (st.wrP i b).spilled = st.spilled := by unfold Strand.wrP; split <;> rfl
@[simp] theorem Strand.next_spilled (st : Strand) (pc c : Nat) : (st.next pc c).spilled = st.spilled := rfl
@[simp] theorem Strand.wr_waiting (st : Strand) (i : SReg) (v : W64) : (st.wr i v).waiting = st.waiting := by unfold Strand.wr; split <;> rfl
@[simp] theorem Strand.wrP_waiting (st : Strand) (i : PReg) (b : Bool) : (st.wrP i b).waiting = st.waiting := by unfold Strand.wrP; split <;> rfl
@[simp] theorem Strand.next_waiting (st : Strand) (pc c : Nat) : (st.next pc c).waiting = st.waiting := rfl
@[simp] theorem Strand.wr_joins (st : Strand) (i : SReg) (v : W64) : (st.wr i v).joins = st.joins := by unfold Strand.wr; split <;> rfl
@[simp] theorem Strand.wrP_joins (st : Strand) (i : PReg) (b : Bool) : (st.wrP i b).joins = st.joins := by unfold Strand.wrP; split <;> rfl
@[simp] theorem Strand.next_joins (st : Strand) (pc c : Nat) : (st.next pc c).joins = st.joins := rfl
@[simp] theorem Strand.wr_base (st : Strand) (i : SReg) (v : W64) : (st.wr i v).base = st.base := by unfold Strand.wr; split <;> rfl
@[simp] theorem Strand.wrP_base (st : Strand) (i : PReg) (b : Bool) : (st.wrP i b).base = st.base := by unfold Strand.wrP; split <;> rfl
@[simp] theorem Strand.next_base (st : Strand) (pc c : Nat) : (st.next pc c).base = st.base := rfl
@[simp] theorem Strand.wr_helpers (st : Strand) (i : SReg) (v : W64) : (st.wr i v).helpers = st.helpers := by unfold Strand.wr; split <;> rfl
@[simp] theorem Strand.wrP_helpers (st : Strand) (i : PReg) (b : Bool) : (st.wrP i b).helpers = st.helpers := by unfold Strand.wrP; split <;> rfl
@[simp] theorem Strand.next_helpers (st : Strand) (pc c : Nat) : (st.next pc c).helpers = st.helpers := rfl
@[simp] theorem Strand.wr_masks (st : Strand) (i : SReg) (v : W64) : (st.wr i v).masks = st.masks := by unfold Strand.wr; split <;> rfl
@[simp] theorem Strand.wrP_masks (st : Strand) (i : PReg) (b : Bool) : (st.wrP i b).masks = st.masks := by unfold Strand.wrP; split <;> rfl
@[simp] theorem Strand.next_masks (st : Strand) (pc c : Nat) : (st.next pc c).masks = st.masks := rfl
@[simp] theorem Strand.wr_v (st : Strand) (i : SReg) (v : W64) : (st.wr i v).v = st.v := by unfold Strand.wr; split <;> rfl
@[simp] theorem Strand.wrP_v (st : Strand) (i : PReg) (b : Bool) : (st.wrP i b).v = st.v := by unfold Strand.wrP; split <;> rfl
@[simp] theorem Strand.next_v (st : Strand) (pc c : Nat) : (st.next pc c).v = st.v := rfl
@[simp] theorem Strand.wr_badRegs (st : Strand) (i : SReg) (v : W64) : (st.wr i v).badRegs = st.badRegs := by unfold Strand.wr; split <;> rfl
@[simp] theorem Strand.wrP_badRegs (st : Strand) (i : PReg) (b : Bool) : (st.wrP i b).badRegs = st.badRegs := by unfold Strand.wrP; split <;> rfl
@[simp] theorem Strand.next_badRegs (st : Strand) (pc c : Nat) : (st.next pc c).badRegs = st.badRegs := rfl
@[simp] theorem Strand.wr_q (st : Strand) (i : SReg) (v : W64) : (st.wr i v).q = st.q := by unfold Strand.wr; split <;> rfl
@[simp] theorem Strand.wrP_q (st : Strand) (i : PReg) (b : Bool) : (st.wrP i b).q = st.q := by unfold Strand.wrP; split <;> rfl
@[simp] theorem Strand.next_q (st : Strand) (pc c : Nat) : (st.next pc c).q = st.q := rfl
@[simp] theorem Strand.wr_stores (st : Strand) (i : SReg) (v : W64) : (st.wr i v).stores = st.stores := by unfold Strand.wr; split <;> rfl
@[simp] theorem Strand.wrP_stores (st : Strand) (i : PReg) (b : Bool) : (st.wrP i b).stores = st.stores := by unfold Strand.wrP; split <;> rfl
@[simp] theorem Strand.next_stores (st : Strand) (pc c : Nat) : (st.next pc c).stores = st.stores := rfl
@[simp] theorem Strand.wr_unackDev (st : Strand) (i : SReg) (v : W64) : (st.wr i v).unackDev = st.unackDev := by unfold Strand.wr; split <;> rfl
@[simp] theorem Strand.wrP_unackDev (st : Strand) (i : PReg) (b : Bool) : (st.wrP i b).unackDev = st.unackDev := by unfold Strand.wrP; split <;> rfl
@[simp] theorem Strand.next_unackDev (st : Strand) (pc c : Nat) : (st.next pc c).unackDev = st.unackDev := rfl
@[simp] theorem Strand.wr_unackSys (st : Strand) (i : SReg) (v : W64) : (st.wr i v).unackSys = st.unackSys := by unfold Strand.wr; split <;> rfl
@[simp] theorem Strand.wrP_unackSys (st : Strand) (i : PReg) (b : Bool) : (st.wrP i b).unackSys = st.unackSys := by unfold Strand.wrP; split <;> rfl
@[simp] theorem Strand.next_unackSys (st : Strand) (pc c : Nat) : (st.next pc c).unackSys = st.unackSys := rfl
@[simp] theorem Strand.wr_watch (st : Strand) (i : SReg) (v : W64) : (st.wr i v).watch = st.watch := by unfold Strand.wr; split <;> rfl
@[simp] theorem Strand.wrP_watch (st : Strand) (i : PReg) (b : Bool) : (st.wrP i b).watch = st.watch := by unfold Strand.wrP; split <;> rfl
@[simp] theorem Strand.next_watch (st : Strand) (pc c : Nat) : (st.next pc c).watch = st.watch := rfl
@[simp] theorem Strand.wr_tickets (st : Strand) (i : SReg) (v : W64) : (st.wr i v).tickets = st.tickets := by unfold Strand.wr; split <;> rfl
@[simp] theorem Strand.wrP_tickets (st : Strand) (i : PReg) (b : Bool) : (st.wrP i b).tickets = st.tickets := by unfold Strand.wrP; split <;> rfl
@[simp] theorem Strand.next_tickets (st : Strand) (pc c : Nat) : (st.next pc c).tickets = st.tickets := rfl
@[simp] theorem Strand.wr_wait (st : Strand) (i : SReg) (v : W64) : (st.wr i v).wait = st.wait := by unfold Strand.wr; split <;> rfl
@[simp] theorem Strand.wrP_wait (st : Strand) (i : PReg) (b : Bool) : (st.wrP i b).wait = st.wait := by unfold Strand.wrP; split <;> rfl
@[simp] theorem Strand.next_wait (st : Strand) (pc c : Nat) : (st.next pc c).wait = none := rfl
@[simp] theorem Strand.wr_scalarStop (st : Strand) (i : SReg) (v : W64) : (st.wr i v).scalarStop = st.scalarStop := by unfold Strand.wr; split <;> rfl
@[simp] theorem Strand.wrP_scalarStop (st : Strand) (i : PReg) (b : Bool) : (st.wrP i b).scalarStop = st.scalarStop := by unfold Strand.wrP; split <;> rfl
@[simp] theorem Strand.next_scalarStop (st : Strand) (pc c : Nat) : (st.next pc c).scalarStop = st.scalarStop := rfl
@[simp] theorem Strand.wr_vectorStop (st : Strand) (i : SReg) (v : W64) : (st.wr i v).vectorStop = st.vectorStop := by unfold Strand.wr; split <;> rfl
@[simp] theorem Strand.wrP_vectorStop (st : Strand) (i : PReg) (b : Bool) : (st.wrP i b).vectorStop = st.vectorStop := by unfold Strand.wrP; split <;> rfl
@[simp] theorem Strand.next_vectorStop (st : Strand) (pc c : Nat) : (st.next pc c).vectorStop = st.vectorStop := rfl
@[simp] theorem Strand.wr_scalarWalkFaults (st : Strand) (i : SReg) (v : W64) : (st.wr i v).scalarWalkFaults = st.scalarWalkFaults := by unfold Strand.wr; split <;> rfl
@[simp] theorem Strand.wrP_scalarWalkFaults (st : Strand) (i : PReg) (b : Bool) : (st.wrP i b).scalarWalkFaults = st.scalarWalkFaults := by unfold Strand.wrP; split <;> rfl
@[simp] theorem Strand.next_scalarWalkFaults (st : Strand) (pc c : Nat) : (st.next pc c).scalarWalkFaults = st.scalarWalkFaults := rfl
@[simp] theorem Strand.wr_vectorWalkFaults (st : Strand) (i : SReg) (v : W64) : (st.wr i v).vectorWalkFaults = st.vectorWalkFaults := by unfold Strand.wr; split <;> rfl
@[simp] theorem Strand.wrP_vectorWalkFaults (st : Strand) (i : PReg) (b : Bool) : (st.wrP i b).vectorWalkFaults = st.vectorWalkFaults := by unfold Strand.wrP; split <;> rfl
@[simp] theorem Strand.next_vectorWalkFaults (st : Strand) (pc c : Nat) : (st.next pc c).vectorWalkFaults = st.vectorWalkFaults := rfl
@[simp] theorem Strand.wr_returns (st : Strand) (i : SReg) (v : W64) : (st.wr i v).returns = st.returns := by unfold Strand.wr; split <;> rfl
@[simp] theorem Strand.wrP_returns (st : Strand) (i : PReg) (b : Bool) : (st.wrP i b).returns = st.returns := by unfold Strand.wrP; split <;> rfl
@[simp] theorem Strand.next_returns (st : Strand) (pc c : Nat) : (st.next pc c).returns = st.returns := rfl
@[simp] theorem Strand.wr_picot (st : Strand) (i : SReg) (v : W64) : (st.wr i v).picot = st.picot := by unfold Strand.wr; split <;> rfl
@[simp] theorem Strand.wrP_picot (st : Strand) (i : PReg) (b : Bool) : (st.wrP i b).picot = st.picot := by unfold Strand.wrP; split <;> rfl
@[simp] theorem Strand.next_picot (st : Strand) (pc c : Nat) : (st.next pc c).picot = st.picot := rfl
@[simp] theorem Strand.wr_frag (st : Strand) (i : SReg) (v : W64) : (st.wr i v).frag = st.frag := by unfold Strand.wr; split <;> rfl
@[simp] theorem Strand.wrP_frag (st : Strand) (i : PReg) (b : Bool) : (st.wrP i b).frag = st.frag := by unfold Strand.wrP; split <;> rfl
@[simp] theorem Strand.next_frag (st : Strand) (pc c : Nat) : (st.next pc c).frag = st.frag := rfl
@[simp] theorem Strand.wr_readySince (st : Strand) (i : SReg) (v : W64) : (st.wr i v).readySince = st.readySince := by unfold Strand.wr; split <;> rfl
@[simp] theorem Strand.wrP_readySince (st : Strand) (i : PReg) (b : Bool) : (st.wrP i b).readySince = st.readySince := by unfold Strand.wrP; split <;> rfl
@[simp] theorem Strand.next_readySince (st : Strand) (pc c : Nat) : (st.next pc c).readySince = c := rfl
@[simp] theorem Strand.wr_promoted (st : Strand) (i : SReg) (v : W64) : (st.wr i v).promoted = st.promoted := by unfold Strand.wr; split <;> rfl
@[simp] theorem Strand.wrP_promoted (st : Strand) (i : PReg) (b : Bool) : (st.wrP i b).promoted = st.promoted := by unfold Strand.wrP; split <;> rfl
@[simp] theorem Strand.next_promoted (st : Strand) (pc c : Nat) : (st.next pc c).promoted = false := rfl
@[simp] theorem Strand.wr_vecSince (st : Strand) (i : SReg) (v : W64) : (st.wr i v).vecSince = st.vecSince := by unfold Strand.wr; split <;> rfl
@[simp] theorem Strand.wrP_vecSince (st : Strand) (i : PReg) (b : Bool) : (st.wrP i b).vecSince = st.vecSince := by unfold Strand.wrP; split <;> rfl
@[simp] theorem Strand.next_vecSince (st : Strand) (pc c : Nat) : (st.next pc c).vecSince = st.vecSince := rfl
@[simp] theorem Strand.wr_vecPromoted (st : Strand) (i : SReg) (v : W64) : (st.wr i v).vecPromoted = st.vecPromoted := by unfold Strand.wr; split <;> rfl
@[simp] theorem Strand.wrP_vecPromoted (st : Strand) (i : PReg) (b : Bool) : (st.wrP i b).vecPromoted = st.vecPromoted := by unfold Strand.wrP; split <;> rfl
@[simp] theorem Strand.next_vecPromoted (st : Strand) (pc c : Nat) : (st.next pc c).vecPromoted = st.vecPromoted := rfl
@[simp] theorem Strand.wr_mmaps (st : Strand) (i : SReg) (v : W64) : (st.wr i v).mmaps = st.mmaps := by unfold Strand.wr; split <;> rfl
@[simp] theorem Strand.wrP_mmaps (st : Strand) (i : PReg) (b : Bool) : (st.wrP i b).mmaps = st.mmaps := by unfold Strand.wrP; split <;> rfl
@[simp] theorem Strand.next_mmaps (st : Strand) (pc c : Nat) : (st.next pc c).mmaps = st.mmaps := rfl
@[simp] theorem Strand.wr_counted (st : Strand) (i : SReg) (v : W64) : (st.wr i v).counted = st.counted := by unfold Strand.wr; split <;> rfl
@[simp] theorem Strand.wrP_counted (st : Strand) (i : PReg) (b : Bool) : (st.wrP i b).counted = st.counted := by unfold Strand.wrP; split <;> rfl
@[simp] theorem Strand.next_counted (st : Strand) (pc c : Nat) : (st.next pc c).counted = st.counted := rfl

/-- 02 R41: `s0` reads as zero, and a register reads back what was written to it; the others keep their values. -/
@[simp] theorem Strand.rd_zero (st : Strand) : st.rd 0 = 0 := rfl
@[simp] theorem Strand.rdP_zero (st : Strand) : st.rdP 0 = true := rfl
@[simp] theorem Strand.wr_zero (st : Strand) (v : W64) : st.wr 0 v = st := rfl
@[simp] theorem Strand.wrP_zero (st : Strand) (b : Bool) : st.wrP 0 b = st := rfl

theorem Strand.rd_wr (st : Strand) (i j : SReg) (v : W64) :
    (st.wr i v).rd j = if i = 0 then st.rd j else if j = i then v else st.rd j := by
  by_cases hi : i = 0
  · simp [hi]
  by_cases hj : j = 0
  · subst hj; simp [Strand.rd, hi, Ne.symm hi]
  by_cases h : j = i
  · subst h; simp [Strand.rd, Strand.wr, hi]
  · simp [Strand.rd, Strand.wr, hi, hj, h, Fin.getElem_fin, Fin.val_ne_of_ne (Ne.symm h)]

theorem Strand.rdP_wrP (st : Strand) (i j : PReg) (b : Bool) :
    (st.wrP i b).rdP j = if i = 0 then st.rdP j else if j = i then b else st.rdP j := by
  by_cases hi : i = 0
  · simp [hi]
  by_cases hj : j = 0
  · subst hj; simp [Strand.rdP, hi, Ne.symm hi]
  by_cases h : j = i
  · subst h; simp [Strand.rdP, Strand.wrP, hi]
  · simp [Strand.rdP, Strand.wrP, hi, hj, h, Fin.getElem_fin, Fin.val_ne_of_ne (Ne.symm h)]

@[simp] theorem Strand.rd_next (st : Strand) (pc c : Nat) (i : SReg) : (st.next pc c).rd i = st.rd i := rfl
@[simp] theorem Strand.rdP_next (st : Strand) (pc c : Nat) (i : PReg) : (st.next pc c).rdP i = st.rdP i := rfl

/-! ## Two updates of one record are one -/

theorem State.modStrand_modStrand (s : State) (sid : StrandId) (f g : Strand → Strand) :
    (s.modStrand sid f).modStrand sid g = s.modStrand sid fun x => g (f x) := by
  simp [State.modStrand, Assoc.modify_modify]

theorem State.modWg_modWg (s : State) (w : Nat) (f g : Workgroup → Workgroup) : (s.modWg w f).modWg w g = s.modWg w fun x => g (f x) := by
  simp [State.modWg, Assoc.modify_modify]

theorem State.modWorld_modWorld (s : State) (w : Nat) (f g : World → World) :
    (s.modWorld w f).modWorld w g = s.modWorld w fun x => g (f x) := by
  simp [State.modWorld, Assoc.modify_modify]

/-- The strand found by `env?` is the one that `modStrand` changes. -/
theorem State.env?_strand {s : State} {sid : StrandId} {e : Env} (h : s.env? sid = some e) :
    e.sid = sid ∧ s.strands.get? sid = some e.st ∧ s.wgs.get? sid.wg = some e.wg ∧ s.launches.get? e.wg.launch = some e.l := by
  unfold State.env? at h
  cases h1 : s.strands.get? sid with
  | none => simp [h1] at h
  | some st => cases h2 : s.wgs.get? sid.wg with
    | none => simp [h1, h2] at h
    | some g => cases h3 : s.launches.get? g.launch with
      | none => simp [h1, h2, h3] at h
      | some l =>
        simp only [h1, h2, h3, Option.some.injEq] at h
        subst h; exact ⟨rfl, rfl, rfl, h3⟩

end Sys2Proof.Machine
end

