-- ==== Sys2Proof/Laws/Step.lean ====
section
/-! SUPPORT. What one step is: the turn that stands first on the agenda, else a free choice, and then time passes. -/

namespace Sys2Proof.Machine

open Sys2Proof

/-- Noting what a step has written changes the copy commands only. -/
theorem noteRaces_eq (s : State) : noteRaces s = { s with copyQs := (noteRaces s).copyQs } := by
  unfold noteRaces
  split <;> rfl

@[simp] theorem noteRaces_mem (s : State) : (noteRaces s).mem = s.mem := by rw [noteRaces_eq]
@[simp] theorem noteRaces_strands (s : State) : (noteRaces s).strands = s.strands := by rw [noteRaces_eq]
@[simp] theorem noteRaces_wgs (s : State) : (noteRaces s).wgs = s.wgs := by rw [noteRaces_eq]
@[simp] theorem noteRaces_cur (s : State) : (noteRaces s).cur = s.cur := by rw [noteRaces_eq]
@[simp] theorem noteRaces_ticks (s : State) : (noteRaces s).ticks = s.ticks := by rw [noteRaces_eq]
@[simp] theorem noteRaces_cycle (s : State) : (noteRaces s).cycle = s.cycle := by rw [noteRaces_eq]

@[simp] theorem tick_cur (s : State) : (tick s).cur = none := by simp [tick]
@[simp] theorem tick_mem (s : State) : (tick s).mem = s.mem := by simp [tick]
@[simp] theorem tick_strands (s : State) : (tick s).strands = s.strands := by simp [tick]
@[simp] theorem tick_wgs (s : State) : (tick s).wgs = s.wgs := by simp [tick]
@[simp] theorem tick_ticks (s : State) : (tick s).ticks = s.ticks + 1 := by simp [tick]
@[simp] theorem tick_cycle (s : State) : (tick s).cycle = s.cycle + passes (noteRaces { s with cur := none }) := by simp [tick]

theorem afterwards_next {o : Host.Outcome State Fault Refusal} {t : State} (h : afterwards o = .next t) :
    ∃ u, o = .next u ∧ t = tick u := by
  cases o with
  | next u => exact ⟨u, rfl, by simpa [afterwards] using h.symm⟩
  | fault f => simp [afterwards] at h
  | refused r => simp [afterwards] at h

theorem step_agenda {s : State} {t : Turn} {rest : List Turn} (h : s.agenda = t :: rest) :
    step s = afterwards (turn t { s with agenda := rest, cur := none }) := by simp [step, h]

theorem step_event {s : State} {i : Instr} {rest : List Turn} (h : s.agenda = .event i :: rest) :
    step s = afterwards (exec i { s with agenda := rest, cur := none }) := by simp [step, h, turn]

/-- A turn that answers a next state: an event or a word has been executed, or the fetch of a word has ended the turn. -/
theorem turn_cases {x : Turn} {r v : State} (h : turn x r = .next v) :
    (∃ i u, exec i u = .next v ∧ (x = .event i ∧ u = r ∨
      (∃ sid q, x = .scalar sid ∧ fetchScalar r sid = .run q i ∧ u = { q with cur := some (.scalar sid) }) ∨
      ∃ sid slot q, x = .vector sid slot ∧ fetchVector r sid slot = .run q i ∧ u = { q with cur := some (.vector sid slot) })) ∨
    (∃ sid, x = .scalar sid ∧ fetchScalar r sid = .halt v) ∨ ∃ sid slot, x = .vector sid slot ∧ fetchVector r sid slot = .halt v := by
  cases x with
  | event i => exact .inl ⟨i, r, h, .inl ⟨rfl, rfl⟩⟩
  | scalar sid =>
    simp only [turn] at h
    split at h
    · cases h
      exact .inr (.inl ⟨sid, rfl, ‹_›⟩)
    · exact .inl ⟨_, _, h, .inr (.inl ⟨sid, _, rfl, ‹_›, rfl⟩)⟩
  | vector sid slot =>
    simp only [turn] at h
    split at h
    · cases h
      exact .inr (.inr ⟨sid, slot, rfl, ‹_›⟩)
    · exact .inl ⟨_, _, h, .inr (.inr ⟨sid, slot, _, rfl, ‹_›, rfl⟩)⟩

/-- What a step that answers a next state has done: one turn, or nothing where nothing may move; then time has passed. -/
theorem step_cases {s t : State} (h : step s = .next t) :
    (∃ x rest v, s.agenda = x :: rest ∧ turn x { s with agenda := rest, cur := none } = .next v ∧ t = tick v) ∨
      (∃ x v, s.agenda = [] ∧ choose s = some x ∧ turn x { s with cur := none } = .next v ∧ t = tick v) ∨
      (s.agenda = [] ∧ choose s = none ∧ t = tick s) := by
  unfold step at h
  split at h
  · obtain ⟨v, hv, rfl⟩ := afterwards_next h
    exact .inl ⟨_, _, v, ‹_›, hv, rfl⟩
  · split at h <;> obtain ⟨v, hv, rfl⟩ := afterwards_next h
    · exact .inr (.inl ⟨_, v, ‹_›, ‹_›, hv, rfl⟩)
    · cases hv
      exact .inr (.inr ⟨‹_›, ‹_›, rfl⟩)

end Sys2Proof.Machine
end

