-- ==== Sys2Proof/Laws/Words.lean ====
section
/-! SUPPORT. What a scalar word does, once for all of them: with a true guard its body, with a false one nothing but moving
on, with a failed check the fault. And the same for a vector word. -/

namespace Sys2Proof.Machine

open Sys2Proof

theorem scalarWord_runs {s : State} {e : Env} {g : Guard} (h : Issues s e g) (len : Nat) (check : Env → State → Option Code)
    (body : Env → State → Eff) (hc : check e s = none) : scalarWord g len check body s = .next ((body e s).finish e len) := by
  simp [scalarWord, h.cur, h.env, h.guard, hc]

/-- A word's possible ends, for a strand that exists. -/
theorem scalarWord_cases {s : State} {e : Env} (hcur : s.cur = some (.scalar e.sid)) (henv : s.env? e.sid = some e)
    (g : Guard) (len : Nat) (check : Env → State → Option Code) (body : Env → State → Eff) :
    (∃ c, check e s = some c ∧ scalarWord g len check body s = .next (raiseScalar s e { code := c })) ∨
      (check e s = none ∧ e.st.holds g = true ∧ scalarWord g len check body s = .next ((body e s).finish e len)) ∨
      (check e s = none ∧ e.st.holds g = false ∧
        scalarWord g len check body s = .next (s.modStrand e.sid fun st => st.next (e.st.pc + len) s.cycle)) := by
  cases hc : check e s with
  | some c => exact .inl ⟨c, rfl, by simp [scalarWord, hcur, henv, hc]⟩
  | none => cases hg : e.st.holds g with
    | true => exact .inr (.inl ⟨rfl, rfl, by simp [scalarWord, hcur, henv, hc, hg]⟩)
    | false => exact .inr (.inr ⟨rfl, rfl, by simp [scalarWord, hcur, henv, hc, hg, Eff.finish]⟩)

theorem finish_done (s : State) (e : Env) (len : Nat) (f : Strand → Strand) :
    (Eff.done (s.modStrand e.sid f)).finish e len = s.after e (e.st.pc + len) f := by
  simp [Eff.finish, State.after, State.modStrand_modStrand]

theorem finish_jump (s : State) (e : Env) (len pc : Nat) (f : Strand → Strand) :
    (Eff.jump (s.modStrand e.sid f) pc).finish e len = s.after e pc f := by
  simp [Eff.finish, State.after, State.modStrand_modStrand]

theorem finish_wait (s : State) (e : Env) (len : Nat) (w : Wait) : (Eff.wait s w).finish e len = s.waits e.sid w := rfl

/-- A word that only writes a scalar register. -/
theorem setsReg_next {s : State} {e : Env} {g : Guard} (h : Issues s e g) (len : Nat) (check : Env → State → Option Code)
    (hc : check e s = none) (d : SReg) (f : Env → State → W64) :
    scalarWord g len check (setsReg d f) s = .next (s.after e (e.st.pc + len) fun st => st.wr d (f e s)) := by
  rw [scalarWord_runs h len check _ hc, setsReg, finish_done]

theorem after_onlyStrand (s : State) (e : Env) (pc : Nat) (f : Strand → Strand) : OnlyStrand s (s.after e pc f) e.sid :=
  ⟨rfl, fun _ hk => Assoc.get?_modify_other _ _ (Ne.symm hk)⟩

theorem after_sameBytes (s : State) (e : Env) (pc : Nat) (f : Strand → Strand) : SameBytes s (s.after e pc f) :=
  ⟨fun _ => rfl, fun _ _ => rfl, fun _ _ => rfl, fun _ _ => rfl⟩

/-- The strand after such a word. -/
theorem after_strand {s : State} {e : Env} (h : s.env? e.sid = some e) (pc : Nat) (f : Strand → Strand) :
    (s.after e pc f).strands.get? e.sid = some ((f e.st).next pc s.cycle) := by
  simp [State.after, (State.env?_strand h).2.1]

/-! ## Vector words -/

theorem vectorWordIf_runs {s : State} {op : Nat} {w : VWord} {c : VCtx} (h : IssuesV s op w c) {check : VCtx → State → Bool}
    (hc : check c s = true) (body : VCtx → State → VEff) : vectorWordIf op w check body s = .next ((body c s).finish c) := by
  have hl : ¬ c.activeMask = 0#32 := h.lane
  have ha : (c.lasting && !c.st.returns.isEmpty) = false := by
    cases hb : c.lasting
    · rfl
    · simp [h.alone hb]
  simp [vectorWordIf, h.ctx, h.whole, h.chain, h.names, hc, hl, h.tags, h.ready, ha, h.sound]

theorem vectorWord_runs {s : State} {op : Nat} {w : VWord} {c : VCtx} (h : IssuesV s op w c) (body : VCtx → State → VEff) :
    vectorWord op w body s = .next ((body c s).finish c) := vectorWordIf_runs h rfl body

/-- A vector word's possible ends, in the order of its checks (01 R35, 06 R158, 08 R214, 17 R330, 01 R38, 18 R351). -/
theorem vectorWordIf_cases {s : State} {op : Nat} {w : VWord} {c : VCtx} (h : s.vctx? op w = some c) (check : VCtx → State → Bool)
    (body : VCtx → State → VEff) :
    (c.restarts = true ∧ vectorWordIf op w check body s = .next (c.dropChain s c.chain.first)) ∨
    (∃ f : Flt, vectorWordIf op w check body s = .next (c.faults s f) ∧
      (f.code = .illegalInstr ∨ f.code = .illegalOperand ∨ f.code = .world ∨ f.code = .poison)) ∨
    (c.activeMask = 0 ∧ vectorWordIf op w check body s = .next (c.advance s (.u 0))) ∨
    (c.activeMask ≠ 0 ∧ (c.outstanding || (c.lasting && !c.st.returns.isEmpty)) = true ∧
      vectorWordIf op w check body s = .next (c.again s)) ∨
    (IssuesV s op w c ∧ check c s = true ∧ vectorWordIf op w check body s = .next ((body c s).finish c)) := by
  simp only [vectorWordIf, h]
  split
  · exact .inl ⟨‹_›, rfl⟩
  refine .inr ?_
  rename_i hwhole
  split
  · exact .inl ⟨_, rfl, .inl rfl⟩
  · rename_i hchain
    split
    · exact .inl ⟨_, rfl, .inr (.inl rfl)⟩
    · rename_i hnames
      split
      · exact .inr (.inl ⟨‹_›, rfl⟩)
      · rename_i hlane
        split
        · exact .inl ⟨_, rfl, .inr (.inr (.inl rfl))⟩
        · rename_i htags
          split
          · exact .inr (.inr (.inl ⟨hlane, ‹_›, rfl⟩))
          · rename_i hready
            split
            · exact .inl ⟨_, rfl, .inr (.inr (.inr rfl))⟩
            · rename_i hsound
              simp only [Bool.not_eq_true', Bool.not_eq_false, Bool.and_eq_true, Bool.not_eq_true,
                Bool.or_eq_true, not_or] at hwhole hchain hnames htags hready hsound
              refine .inr (.inr (.inr ⟨⟨h, hwhole, hchain, hnames.1, hlane, htags, hready.1, fun hb => ?_, hsound⟩, hnames.2, rfl⟩))
              simpa [hb] using hready.2

end Sys2Proof.Machine
end

