-- ==== Sys2Proof/Tests/Slice0.lean ====
section
/-! SUPPORT. The model's own tests: ill-formed instructions, words from the spec, single steps on small states, and for each
statement a state and operands that meet its hypotheses. Expected values come from the sections of spec/ named beside them. -/

namespace Sys2Proof.Tests

open Sys2Proof Sys2Proof.Machine

/-! ## A small machine: world 1 runs one strand of one workgroup -/

def sid0 : StrandId := ⟨1, 0⟩
def guard0 : Guard := ⟨false, 0⟩
def core0 : CoreId := ⟨0, 0⟩
def desc0 : LaunchDesc :=
  { scalarBase := 65536, vectorBase := 65536, privateBase := 131072, pword := 0x00081040, grid := (1, 1, 1), strands := 1,
    regs := 8, cluster := 1, priv := true, queue := 0, overlap := false, fifos := 1, copyQueue := 0, roles := [.vector],
    pairs := 0, watchdog := 0, entries := [0], barMasks := [1], stride := 512 }
def launch0 : Launch :=
  { world := 1, ctx := 1, graphMade := false, node := 0, run := 1, frame := 0, descAddr := 0, desc := desc0,
    depth := 0, parent := none, queue := none, errors := 0, batch := none, frag := none, placed := 1, total := 1,
    firstPlaced := some 0, pausedAt := none, prevOfNode := none, dropped := false, issuer := none, reserved := false }
def wg0 : Workgroup :=
  { launch := 1, index := 0, core := core0, released := false, stopping := false, parked := none, granules := [0, 1, 2],
    scratch := [], tiles := [], badScratch := [], badTiles := [], fifos := [], matrix := .empty, lastCopy := [],
    lastColl := [] }
def st0 : Strand := Strand.start .vector 65536 8 0
def page0 (p : Nat) : TlbEntry :=
  { site := .quadrant core0 0, world := 1, page := p, log2 := 16, pa := 65536 * p, u := true, x := true, w := true, r := true,
    index := 0, fmt := .raw }
def img0 : ContextImage :=
  { world := 1, paired := false, far := false, peerContext := 0, period := 1000, epoch := 0, nodes := [], edges := [],
    layouts := [], cuts := [], cut := 0, barriers := [0x80], handles := [some (.launchQueue 0), some .copyQueue],
    records := [], groups := [] }
def ctx0 : Context :=
  { img := img0, world := 1, stopped := false, cut := 0, phase := 0, past := [], first := 0, current := none, offset := 0,
    phases := [], runs := [], edges := [], nodes := [],
    move := Move.fresh 0, frags := [], raster := [] }

/-- The machine with its strand as `f` makes it. -/
def base (f : Strand → Strand) : State :=
  { State.reset with
    strands := [(sid0, f st0)], wgs := [(1, wg0)], launches := [(1, launch0)], contexts := [(1, ctx0)]
    worlds := [(0, World.empty), (1, { World.empty with valid := true, queues := [(0, ⟨0, 1, 1, []⟩)] })]
    granules := [(core0, (((Vector.replicate 48 Granule.free).set 0 (.held 1 1)).set 1 (.held 1 1)).set 2 (.held 1 1))]
    insts := [(unitOf 1, Inst.fresh (some ⟨.launch, 1⟩) 1 0), (⟨.launch, 1⟩, Inst.fresh none 1 0)]
    xlat := { State.reset.xlat with tlb := [page0 1, page0 2] }
    nextId := 10 }

/-- Its scalar stream executes a word. -/
def issuing (f : Strand → Strand) : State := { base f with cur := some (.scalar sid0) }
def envOf (f : Strand → Strand) : Env := ⟨sid0, f st0, wg0, launch0⟩

theorem issuing_issues (f : Strand → Strand) : Issues (issuing f) (envOf f) guard0 := ⟨rfl, rfl, rfl⟩


/-! ## Ill-formed instructions: one that each check of WellFormed refuses (06 R154, R158, R163 to R172) -/

/-- A word of type `ty` with plain register operands. -/
def plain (ty : Ty) : VWord := ⟨false, 0, false, false, ty, 5, .reg 1, .reg 2, .reg 0, 0, 0⟩

theorem test_wf_guard : (Instr.sadd ⟨true, 0⟩ 1 2 3).wf = false ∧ (Instr.sadd ⟨true, 1⟩ 1 2 3).wf = true := by decide
theorem test_wf_ssetp : (Instr.ssetp guard0 1 2 3 .flt .i32).wf = false ∧ (Instr.ssetp guard0 1 2 3 .lt .f32).wf = false ∧
    (Instr.ssetp guard0 1 2 3 .flt .f32).wf = true := by decide
theorem test_wf_sldx : (Instr.sldx guard0 1 2 false .b8 0).wf = false := by decide
theorem test_wf_slq : (Instr.slq guard0 0 25 8).wf = false ∧ (Instr.slq guard0 0 24 8).wf = true := by decide
theorem test_wf_scancel : (Instr.scancel guard0 0 4 .unit).wf = false := by decide
theorem test_wf_scnt : (Instr.scnt guard0 8 .errors .run).wf = false := by decide
theorem test_wf_cpyThen : (Instr.cpyThen guard0 4 5 6 .copy false 0x08085318).wf = false := by decide
theorem test_wf_ccol : (Instr.ccol guard0 1 2 3 .broadcast .max).wf = false := by decide
theorem test_wf_gstat : (Instr.gstat guard0 7 1 .mstate).wf = false ∧ (Instr.gstat guard0 7 1 .late).wf = true := by decide
theorem test_wf_sgate : (Instr.sgate guard0 7 4 5 0).wf = false ∧ (Instr.sgate guard0 7 4 5 65).wf = false := by decide
theorem test_wf_swrs : (Instr.swrs guard0 1 5).wf = false ∧ (Instr.swrs guard0 1 6).wf = true := by decide
theorem test_wf_unassigned : (Instr.unassignedMajor 0x00485300).wf = false ∧ (Instr.unassignedVectorOpcode 0).wf = false := by decide
theorem test_wf_vector_guard : (Instr.vadd { plain .i32 with neg := true }).wf = false ∧ (Instr.vadd (plain .i32)).wf = true := by decide
theorem test_wf_vector_type : (Instr.vadd (plain .f32)).wf = false ∧ (Instr.vfadd (plain .i32)).wf = false := by decide
theorem test_wf_vector_modifier : (Instr.vand { plain .i32 with mod := 1 }).wf = false := by decide
theorem test_wf_vector_destination : (Instr.vst { plain .w32 with dst := 5 }).wf = false := by decide
theorem test_wf_vector_operand : (Instr.vadd { plain .i32 with c := .reg 3 }).wf = false ∧
    (Instr.vadd { plain .i8 with b := .imm, imm := 256 }).wf = false := by decide
theorem test_wf_vector_conversion : (Instr.vcvt { plain .f32 with b := .reg 0, mod := 13 * 32 }).wf = false := by decide
theorem test_wf_vector_chain : (Instr.vbr { plain .i32 with dst := 2, a := .reg 0, b := .reg 0, chain := true }).wf = false := by decide
theorem test_wf_vector_zero : (Instr.vnop { plain .i32 with dst := 0, a := .reg 0, b := .reg 0, imm := 1 }).wf = false := by decide

/-! ## Words written out from the encodings, one or more a family

Scalar words: guard sign [31], guard [30:28], major [27:22], then the fields of the format (06 R154, R155). Vector words:
opcode [95:88], guard sign, guard [86:83], chain, nowb, type [80:77], destination [76:70], A [69:61], B [60:52], C [51:43],
modifier [42:32], immediate (06 R162). -/

theorem test_decode_smulhw : decodeScalar 0b0_101_000001_00111_00100_01001_0000100 0 = .ok (.smulhw ⟨false, 5⟩ 7 4 9) := by decide
theorem test_decode_ssrai : decodeScalar 0b1_011_001000_00001_11111_000000_111110 0 = .ok (.ssrai ⟨true, 3⟩ 1 31 62) := by decide
theorem test_decode_spnot : decodeScalar 0b0_000_001100_00011_00101_00000_0000011 0 = .ok (.spnot ⟨false, 0⟩ 3 5) := by decide
theorem test_decode_sldx : decodeScalar 0b0_000_001110_00110_01010_1_10_111111111 0 = .ok (.sldx ⟨false, 0⟩ 6 10 true .b4 (-1)) := by decide
theorem test_decode_sst : decodeScalar 0b0_010_001111_01000_00001_0_11_000000011 0 = .ok (.sst ⟨false, 2⟩ 8 1 .b8 3) := by decide
theorem test_decode_slda : decodeScalar 0b0_000_010000_00010_00011_101_01_1111110 0 = .ok (.slda ⟨false, 0⟩ 2 3 .sys .b2 (-2)) := by decide
theorem test_decode_satom_wide : decodeScalar 0b0_000_010010_00010_00011_00100_1110_011 0 = .ok (.satom ⟨false, 0⟩ 2 3 4 .swap true .die) := by decide
theorem test_decode_sjalr : decodeScalar 0b0_000_010101_00101_01001_00000_0000001 0 = .ok (.sjalr ⟨false, 0⟩ 5 9) := by decide
theorem test_decode_sbar : decodeScalar 0b0_000_011001_00000_00000_00000_0_100110 0 = .ok (.sbar ⟨false, 0⟩ 38) := by decide
theorem test_decode_slgen : decodeScalar 0b0_000_011010_00111_00100_00000_0000011 0 = .ok (.slgen ⟨false, 0⟩ 7 4) := by decide
theorem test_decode_stlthr : decodeScalar 0b0_000_011100_00000_01010_00011_0000001 0 = .ok (.stlthr ⟨false, 0⟩ 10 3) := by decide
theorem test_decode_ccol : decodeScalar 0b0_000_101000_00001_00010_00011_01_010_00 0 = .ok (.ccol ⟨false, 0⟩ 1 2 3 .reduceScatter .max) := by decide
theorem test_decode_strap : decodeScalar 0b0_000_101111_00000_00000_111111111111 0 = .ok (.strap ⟨false, 0⟩ 4095) := by decide
theorem test_decode_swrs : decodeScalar 0b0_000_110001_00000_00100_000000000111 0 = .ok (.swrs ⟨false, 0⟩ 4 7) := by decide
theorem test_decode_picins : decodeScalar 0b0_000_110011_00111_00100_00101_00_00101 0 = .ok (.picins ⟨false, 0⟩ 7 4 5 5) := by decide
theorem test_decode_mma_shape : decodeScalar 0b0_000_100010_11110_10_1_01_11_0_0001_1_10_00 0 = .ok (.mma ⟨false, 0⟩ ⟨30, 2, 1, 1, 3, false, .e4e5, true, .s16⟩) := by decide
theorem test_decode_vmad :
    decodeVector 0b00000101_1_0010_1_0_0001_0000101_000000110_010000111_100001000_00000000000_00000000000000000000000000000000 =
      .ok (.vmad ⟨true, 2, true, false, .w32, 5, .reg 6, .latch 7, .special 8, 0, 0⟩) := by decide
theorem test_decode_vunpk :
    decodeVector 0b00110010_0_0000_0_0_1000_0000101_000000110_110000000_000000000_00010100000_00000000000000000000000000000011 =
      .ok (.vunpk ⟨false, 0, false, false, .f32, 5, .reg 6, .imm, .reg 0, 0x0A0, 3⟩) := by decide
theorem test_decode_vmand :
    decodeVector 0b01000001_0_0000_0_0_0000_0000011_000000100_000000101_000000000_00000000000_00000000000000000000000000000000 =
      .ok (.vmand ⟨false, 0, false, false, .i32, 3, .reg 4, .reg 5, .reg 0, 0, 0⟩) := by decide
theorem test_decode_vatom :
    decodeVector 0b01100101_0_0000_0_0_0001_0000101_000000110_000001001_000000000_00010000000_11111111111111111111111111111100 =
      .ok (.vatom ⟨false, 0, false, false, .w32, 5, .reg 6, .reg 9, .reg 0, 0x080, 0xFFFFFFFC⟩) := by decide
theorem test_decode_vend :
    decodeVector 0b10000010_0_0000_0_0_0000_0000000_000000000_000000000_000000000_00000000000_00000000000000000000000000000000 =
      .ok (.vend ⟨false, 0, false, false, .i32, 0, .reg 0, .reg 0, .reg 0, 0, 0⟩) := by decide
theorem test_decode_vinterp :
    decodeVector 0b10010000_0_0001_0_0_1000_0000111_000000011_000000000_000000000_00000000000_00000000000000000000000000000000 =
      .ok (.vinterp ⟨false, 1, false, false, .f32, 7, .reg 3, .reg 0, .reg 0, 0, 0⟩) := by decide

/-! ### EncodeDecode -/

theorem witness_EncodeDecode : (Instr.sadd guard0 1 2 3).wf = true ∧ (Instr.sadd guard0 1 2 3).isScalar = true := by decide

/-! ### DecodeEncode -/

theorem witness_DecodeEncode :
    decodeScalarBytes [0x00, 0x53, 0x48, 0x00] = .ok (.sadd guard0 4 5 6, []) ∧
      (decodeVectorBytes [0x0C, 0, 0x14, 0, 0, 0, 0, 0, 0x80, 0, 0, 0x80]).toOption.map Prod.snd = some [] := by decide

/-! ### StepRunsWords -/

theorem pair_eq {α β : Type} {p : α × β} {y : β} (h : p.2 = y) : ∃ x, p = (x, y) := ⟨p.1, by rw [← h]⟩
/-- The machine with bytes at 65536, the strand's turn first. -/
def placed (f : Strand → Strand) (t : Turn) (bs : List Byte) : State :=
  let b := base f
  { b with agenda := [t], mem := { b.mem with home := b.mem.home.write 65536 bs, views := vmap (fun v => v.write 65536 bs) b.mem.views } }
def blockOf : Strand → Strand := fun st =>
  { st with laneQ := [⟨65536, Vector.replicate 8 0⟩], started := true, slots := #v[some (Split.whole (BitVec.allOnes 32) 0), none] }
theorem witness_StepRunsWords_scalar :
    let s := { placed id (.scalar sid0) [0x00, 0x53, 0x48, 0x00] with agenda := [] }
    s.env? sid0 = some (envOf id) ∧ scalarReady s (envOf id) = true ∧
      (∃ s1, scalarBytes s (envOf id) = (s1, .bytes [0x00, 0x53, 0x48, 0x00])) ∧
      decodeScalarBytes [0x00, 0x53, 0x48, 0x00] = .ok (.sadd guard0 4 5 6, []) :=
  ⟨rfl, by decide, pair_eq (by decide), by decide⟩
theorem witness_StepRunsWords_vector :
    let bs : List Byte := [0x10, 0, 0, 0, 0, 0, 0, 0xB8, 0, 1, 0, 1]
    let s := { placed blockOf (.vector sid0 0) bs with agenda := [] }
    s.env? sid0 = some (envOf blockOf) ∧ (envOf blockOf).st.slots[(0 : Fin 2)] = some (Split.whole (BitVec.allOnes 32) 0) ∧
      (envOf blockOf).st.laneQ = [⟨65536, Vector.replicate 8 0⟩] ∧ vectorReady s (envOf blockOf) 0 = true ∧
      rotationDue (envOf blockOf).st (Split.whole (BitVec.allOnes 32) 0) = false ∧
      (∃ s1, fetchBytes s (envOf blockOf) [] 65536 12 = (s1, .bytes bs)) ∧
      ∃ i, decodeVectorBytes bs = .ok (i, []) := by
  exact ⟨rfl, by decide, by decide, by decide, by decide, pair_eq (by decide), ⟨_, rfl⟩⟩
theorem witness_StepRunsWords_choose :
    let s := { State.reset with power := { State.reset.power with state := .w3, exitAt := some 0 } }
    s.agenda = [] ∧ choose s = some (.event .powerExitComplete) := by decide
theorem witness_StepRunsWords_overdue :
    let s := { base id with cycle := 72 }
    s.power.state = .w0 ∧ holders s = [] ∧ (candidates s).any fun c => c.since + 72 ≤ s.cycle := by decide

/-! ### StepAnswers -/

theorem witness_StepAnswers : ∀ i rest, State.reset.agenda = .event i :: rest → i.isScalar = false ∧ i.isVector = false := by
  intro i rest h; cases h

/-! ### MemoryCanonical -/

theorem witness_MemoryCanonical : State.reset.memWf = true := by decide

/-! ### ScalarArithmeticResults -/

theorem witness_ScalarArithmeticResults : Issues (issuing fun st => (st.wr 1 7).wr 2 3) (envOf fun st => (st.wr 1 7).wr 2 3) guard0 :=
  issuing_issues _

/-! ### ScalarDivisionCorners -/

theorem witness_ScalarDivisionCorners_zero :
    Issues (issuing id) (envOf id) guard0 ∧ ((envOf id).st.rd 2).extractLsb' 0 32 = 0 :=
  ⟨issuing_issues _, by decide⟩
theorem witness_ScalarDivisionCorners_overflow :
    let f := fun st : Strand => (st.wr 1 0x80000000).wr 2 (-1)
    Issues (issuing f) (envOf f) guard0 ∧ ((envOf f).st.rd 1).extractLsb' 0 32 = 0x80000000#32 ∧
      ((envOf f).st.rd 2).extractLsb' 0 32 = -1 :=
  ⟨issuing_issues _, by decide, by decide⟩
theorem witness_ScalarDivisionCorners_otherwise :
    let f := fun st : Strand => (st.wr 1 (-7)).wr 2 2
    Issues (issuing f) (envOf f) guard0 ∧ ((envOf f).st.rd 2).extractLsb' 0 32 ≠ 0 :=
  ⟨issuing_issues _, by decide⟩

/-! ### ScalarImmediateResults -/

theorem witness_ScalarImmediateResults : Issues (issuing fun st => st.wr 1 5) (envOf fun st => st.wr 1 5) guard0 :=
  issuing_issues _
theorem witness_ScalarImmediateResults_reserved : guard0.legal = true ∧ 6 ∈ [6, 7, 8] ∧ 64 < 4096 ∧ 64 ≤ 64 := by decide

/-! ### ScalarLiteralResults -/

theorem witness_ScalarLiteralResults : Issues (issuing id) (envOf id) guard0 := issuing_issues _

/-! ### ScalarComparison -/

theorem witness_ScalarComparison_nan :
    let f := fun st : Strand => (st.wr 1 0x3F800000).wr 2 0x7FC00000
    Issues (issuing f) (envOf f) guard0 ∧ ¬ 2 ^ 23 * 255 < (((envOf f).st.rd 1).extractLsb' 0 32).toNat % 2 ^ 31 ∧
      2 ^ 23 * 255 < (((envOf f).st.rd 2).extractLsb' 0 32).toNat % 2 ^ 31 :=
  ⟨issuing_issues _, by decide⟩
theorem witness_ScalarComparison_numbers :
    let f := fun st : Strand => (st.wr 1 0x80000000).wr 2 0xFF800000
    Issues (issuing f) (envOf f) guard0 ∧ ¬ 2 ^ 23 * 255 < (((envOf f).st.rd 1).extractLsb' 0 32).toNat % 2 ^ 31 ∧
      ¬ 2 ^ 23 * 255 < (((envOf f).st.rd 2).extractLsb' 0 32).toNat % 2 ^ 31 :=
  ⟨issuing_issues _, by decide⟩
theorem test_ssetp_zeros : scalarCond .feq .f32 0x80000000 0 = true ∧ scalarCond .flt .f32 0x80000000 0 = false ∧
    scalarCond .flt .f32 0xFF800000 0x80000001 = true ∧ scalarCond .fun .f32 0 0x7FC00000 = true := by decide

/-! ### PredicateResults -/

theorem witness_PredicateResults : Issues (issuing fun st => st.wrP 1 true) (envOf fun st => st.wrP 1 true) guard0 ∧
    (3 : SReg) ≠ 0 ∧ (4 : SReg) ≠ 3 ∧ (3 : PReg) ≠ 0 ∧ (4 : PReg) ≠ 3 :=
  ⟨issuing_issues _, by decide⟩

/-! ### ScalarFalseGuardMovesOn -/

theorem witness_ScalarFalseGuardMovesOn :
    let g : Guard := ⟨false, 1⟩
    (Instr.sadd g 3 1 2).guard? = some g ∧ (issuing id).cur = some (.scalar (envOf id).sid) ∧
      (issuing id).env? (envOf id).sid = some (envOf id) ∧ (envOf id).st.holds g = false ∧
      plainWord (.sadd g 3 1 2) = true :=
  ⟨rfl, rfl, rfl, rfl, rfl⟩

/-! ### ScalarRegisterFrame -/

theorem witness_ScalarRegisterFrame :
    (issuing id).cur = some (.scalar (envOf id).sid) ∧ (issuing id).env? (envOf id).sid = some (envOf id) ∧
      registerWord (.sadd guard0 3 1 2) = true ∧ ∃ t, exec (.sadd guard0 3 1 2) (issuing id) = .next t :=
  ⟨rfl, rfl, rfl, _, setsReg_next (issuing_issues _) 4 noCheck rfl 3 _⟩

/-! ### ControlFlowTargets -/

theorem witness_ControlFlowTargets_aligned :
    let f := fun st : Strand => (st.wr 1 65540).wr 31 65544
    Issues (issuing f) (envOf f) guard0 ∧ ((envOf f).st.rd 1).toNat % 4 = 0 ∧ ((envOf f).st.rd 31).toNat % 4 = 0 :=
  ⟨issuing_issues _, by decide, by decide⟩
theorem witness_ControlFlowTargets_misaligned :
    let f := fun st : Strand => (st.wr 1 65541).wr 31 65546
    Issues (issuing f) (envOf f) guard0 ∧ ((envOf f).st.rd 1).toNat % 4 ≠ 0 ∧ ((envOf f).st.rd 31).toNat % 4 ≠ 0 :=
  ⟨issuing_issues _, by decide, by decide⟩

/-! ### ExitEndsScalarStream -/

theorem witness_ExitEndsScalarStream : Issues (issuing id) (envOf id) guard0 ∧ (envOf id).st.ended = .no ∧
    (envOf id).st.laneQ = [] ∧ (envOf id).st.stores = [] ∧ (envOf id).st.counted = false ∧
    ((issuing id).insts.get? (unitOf 1)).isSome = true :=
  ⟨issuing_issues _, rfl, rfl, rfl, rfl, rfl⟩

/-! ### LaneQueueWords -/

theorem witness_LaneQueueWords_free : Issues (issuing id) (envOf id) guard0 ∧ (envOf id).st.role = .vector ∧
    (envOf id).st.laneQ.length < 8 ∧ (envOf id).st.laneQ = [] ∧ (envOf id).st.base ≠ 0 ∧ (envOf id).st.laneQ.length ≤ 0 :=
  ⟨issuing_issues _, rfl, by decide, rfl, by decide, by decide⟩
def blk0 : Block := ⟨65536, Vector.replicate 8 0⟩
theorem witness_LaneQueueWords_full :
    let f := fun st : Strand => { st with laneQ := List.replicate 8 blk0 }
    Issues (issuing f) (envOf f) guard0 ∧ (envOf f).st.role = .vector ∧ 8 ≤ (envOf f).st.laneQ.length ∧
      (7 : Fin 8).val < (envOf f).st.laneQ.length ∧ (envOf f).st.laneQ ≠ [] :=
  ⟨issuing_issues _, rfl, by decide, by decide, by decide⟩
theorem witness_LaneQueueWords_waiting :
    let f := fun st : Strand => { st with wait := some (.slq 3 1 2), laneQ := [blk0] }
    let k := fun st : Strand => { st with wait := some (.slwait 1), laneQ := [blk0] }
    (base f).env? sid0 = some (envOf f) ∧ (base k).env? sid0 = some (envOf k) ∧ mayResume (envOf f) = true ∧ (envOf f).st.wait = some (.slq (3 : BitVec 22).toNat 1 (2 : Fin 9).val) ∧
      (envOf f).st.laneQ.length < 8 ∧ mayResume (envOf k) = true ∧ (envOf k).st.wait = some (.slwait (1 : Fin 8).val) ∧
      (envOf k).st.laneQ.length ≤ (1 : Fin 8).val ∧ (0 : Fin 8).val < (envOf k).st.laneQ.length := ⟨rfl, rfl, by decide⟩
theorem witness_LaneQueueWords_role :
    let f := fun st : Strand => { st with role := .copy }
    (issuing f).cur = some (.scalar (envOf f).sid) ∧ (issuing f).env? (envOf f).sid = some (envOf f) ∧
      (envOf f).st.role ≠ .vector := ⟨rfl, rfl, by decide⟩

/-! ### TrapWordsTakeTraps -/

theorem witness_TrapWordsTakeTraps : Issues (issuing id) (envOf id) guard0 ∧ (issuing id).worlds.get? 1 =
    some { World.empty with valid := true, queues := [(0, ⟨0, 1, 1, []⟩)] } ∧ (false && false) = false :=
  ⟨issuing_issues _, rfl, rfl⟩
def debugState : State :=
  { issuing id with
    worlds := [(1, { World.empty with debugen := true })], trust := { State.reset.trust with debugOpen := true } }
theorem witness_TrapWordsTakeTraps_debug : Issues debugState (envOf id) guard0 ∧
    debugState.worlds.get? 1 = some { World.empty with debugen := true } ∧ (true && debugState.trust.debugOpen) = true :=
  ⟨⟨rfl, rfl, rfl⟩, rfl, rfl⟩

/-! ### FaultStopsOneStream -/

theorem witness_FaultStopsOneStream :
    (issuing id).env? (envOf id).sid = some (envOf id) ∧ ((issuing id).worlds.get? 1).isSome = true ∧
      World.empty.roomFor (leadOf (issuing id) core0.die) = true ∧ brokenWaiter (issuing id) = none ∧
      scalarDrained (drain (issuing id) sid0) sid0 = true :=
  ⟨rfl, rfl, by decide, by decide, by decide⟩
/-- A scalar store of the strand that a load still out keeps in the buffer. -/
def heldStore : Strand → Strand := fun st =>
  { st with
    stores := [{ id := 5, restored := false, vector := false, size := .b1, scope := none, lanes := [⟨0, 70000, 70000, [1]⟩] }]
    returns := [{ id := 3, regs := [], mask := 1, first := 0, checks := [], queued := false,
                  before := ⟨[], [], Vector.replicate 16 0, Vector.replicate 2 none, [], [], false, 1, 0⟩ }] }
theorem witness_FaultStopsOneStream_waits : scalarDrained (drain (issuing heldStore) sid0) sid0 = false := by decide
/-- A tree of one table, which every level but the last leads back to; its second entry maps the page at 65536. -/
def treeMem : Mem := (Mem.writeNat [] 4096 8 0x1001).writeNat 4104 8 0x2003F
def queueWorld : World := { World.empty with valid := true, root := 4096, queueBase := 65536 }
def queueState : State :=
  let b := issuing id
  { b with worlds := [(1, queueWorld)], mem := { b.mem with home := treeMem, views := Vector.replicate 4 treeMem } }
set_option maxRecDepth 16000 in
theorem witness_FaultStopsOneStream_queue :
    queueState.env? (envOf id).sid = some (envOf id) ∧ queueState.worlds.get? 1 = some queueWorld ∧ queueState.memWf = true ∧
      (queueWorld.queueBase + 64 * ((queueWorld.nextSeq - 1) % queueWorld.depth)) % 64 = 0 ∧ 131072 % 64 = 0 ∧
      isRemote 131072 = false ∧ brokenWaiter queueState = none ∧
      (translateNow queueState 0 1 (queueWorld.queueBase + 64 * ((queueWorld.nextSeq - 1) % queueWorld.depth)) .write true).2.toOption =
        some 131072 :=
  ⟨rfl, rfl, by decide, by decide, by decide, by decide, by decide, by decide⟩

/-! ### FaultEndsStrand -/

theorem witness_FaultEndsStrand :
    (issuing id).env? (envOf id).sid = some (envOf id) ∧ ((issuing id).worlds.get? 1).isSome = true ∧
      (envOf id).st.ended = .no ∧ (envOf id).st.sexit = false ∧ Code.align ≠ .page ∧ Code.align ≠ .trap ∧
      World.empty.roomFor (leadOf (issuing id) core0.die) = true :=
  ⟨rfl, rfl, rfl, rfl, by decide, by decide, by decide⟩
theorem witness_FaultEndsStrand_exited :
    let f := fun st : Strand => { st with ended := .exited, sexit := true }
    (issuing f).env? (envOf f).sid = some (envOf f) ∧ (envOf f).st.ended = .exited ∧ (envOf f).st.sexit = true ∧
      brokenWaiter (issuing f) = none := ⟨rfl, rfl, rfl, by decide⟩

/-! ### FaultRecordBytes -/

def rec0 : FaultRec := mkRec (.scalar sid0) { code := .trap, addr := 65540 } 1 0 0 core0 65536 0
theorem witness_FaultRecordBytes : rec0.detail < 2 ^ 32 ∧ rec0.seq < 2 ^ 64 ∧ rec0.launch < 2 ^ 32 ∧ rec0.wg < 2 ^ 32 ∧
    rec0.strand < 2 ^ 8 ∧ rec0.die < 2 ^ 8 ∧ rec0.core < 2 ^ 8 ∧ rec0.pc < 2 ^ 64 ∧ rec0.address < 2 ^ 64 ∧
    rec0.timeline < 2 ^ 64 ∧ rec0.second < 2 ^ 64 := by decide

/-! ### ResolveActions -/

/-- The machine with its strand stopped for a record of a code. -/
def stopped (c : Code) : State :=
  let r := { mkRec (.scalar sid0) { code := c, addr := 65540 } 1 0 0 core0 65536 0 with seq := 1 }
  let b := base fun st =>
    { st with scalarStop := some (if c = .trap then Stop.trap 1 65540 else Stop.page 1 65540) }
  { b with worlds := b.worlds.set 1 { World.empty with valid := true, nextSeq := 2, records := [r] } }
theorem witness_ResolveActions_waiting : ∀ c ∈ [Code.page, Code.trap],
    ((stopped c).env? sid0).isSome = true ∧ (record? (stopped c) 1 1).isSome = true ∧ (stopped c).xlat.inval = none ∧
      ((stopped c).worlds.get? 1).map World.unwritten = some [] ∧ ((stopped c).worlds.get? 1).map World.nextSeq = some 2 ∧
      brokenWaiter (stopped c) = none ∧
      (record? (stopped c) 1 1).map FaultRec.agent = some (.scalar sid0) ∧
      (record? (stopped c) 1 1).map FaultRec.waiting = some true ∧ (record? (stopped c) 1 1).map FaultRec.code = some c ∧
      ((stopped c).strands.get? sid0).map Strand.ended = some .no ∧ ((stopped c).strands.get? sid0).map Strand.wait = some none ∧
      ((stopped c).strands.get? sid0).map Strand.scalarStop =
        some (some (if c = .trap then Stop.trap 1 65540 else Stop.page 1 65540)) := by decide
theorem witness_ResolveActions_ack : (record? (stopped .align) 1 1).map FaultRec.waiting = some false ∧
    (stopped .align).xlat.inval = none ∧ brokenWaiter (stopped .align) = none ∧
    ((stopped .align).worlds.get? 1).map World.unwritten = some [] := by decide
theorem witness_ResolveActions_none : record? (stopped .page) 1 2 = none := by decide

/-! ### ScalarLoadResults -/

/-- A strand with the address 65664 in `s1`, and stores in its buffer. -/
def loads (stores : List SBEntry) : Strand → Strand := fun st => { st.wr 1 65664 with stores := stores }
def entry0 (pa n : Nat) : SBEntry := { id := 5, restored := false, vector := false, size := .b4, scope := none, lanes := [⟨0, pa, pa, natLE n 7⟩] }
theorem reaches0 (stores : List SBEntry) (k : AccessKind) : Reaches57 (issuing (loads stores)) (envOf (loads stores)) 65664 4 k 65664 :=
  ⟨by decide, by decide, ⟨.raw, by cases k <;> rfl⟩, by decide, by decide⟩
theorem witness_ScalarLoadResults_memory : Issues (issuing (loads [])) (envOf (loads [])) guard0 ∧
    (issuing (loads [])).mem.copies = [] ∧ (issuing (loads [])).mem.poisoned (128 * lineOf 65664) 128 = false ∧
    forward (envOf (loads [])).st.stores 65664 4 = .none ∧
    (issuing (loads [])).mem.l1Find core0 1 (lineOf 65664) = none ∧
    ((envOf (loads [])).st.rd 1 + (0 : BitVec 9).signExtend 64 * 4).toNat = 65664 :=
  ⟨issuing_issues _, rfl, by decide, by decide, by decide, by decide⟩
theorem witness_ScalarLoadResults_buffered :
    forward (loads [entry0 65664 4] st0).stores 65664 4 = .hit [7, 0, 0, 0] ∧
      forward (loads [entry0 65666 2] st0).stores 65664 4 = .part ∧ unchecked (loads [entry0 65666 2] st0) 65664 4 = false ∧
      unchecked (loads [entry0 65664 4] st0) 65664 4 = false ∧
      (unchecked { heldStore st0 with stores := [{ entry0 65664 4 with vector := true }] } 65664 4 = true) := by decide
/-- The die's view holds 0x80 at the address: a byte load extends it with zeros or with its sign. -/
def with80 : State :=
  let b := issuing (loads [])
  { b with mem := { b.mem with views := b.mem.views.set 0 [(65664, 0x80)] } }
theorem test_sld_zero_extends : (match exec (.sld guard0 2 1 true .b1 0) with80 with
    | .next t => (t.strands.get? sid0).map fun st => st.rd 2
    | _ => none) = some 0x80 := by decide
theorem test_sldx_sign_extends : (match exec (.sldx guard0 2 1 true .b1 0) with80 with
    | .next t => (t.strands.get? sid0).map fun st => st.rd 2
    | _ => none) = some (-128) := by decide

/-! ### ScalarStoreResults -/

theorem witness_ScalarStoreResults_free : Issues (issuing (loads [])) (envOf (loads [])) guard0 ∧
    (envOf (loads [])).st.stores.length < 16 ∧
    Reaches57 (issuing (loads [])) (envOf (loads [])) 65664 4 .write 65664 ∧
    (release (issuing (loads [])) sid0 (some .dev)).2 = true ∧
    ((release (issuing (loads [])) sid0 (some .dev)).1.strands.get? sid0).map (fun st => st.stores.length) = some 0 :=
  ⟨issuing_issues _, by decide, reaches0 _ _, by decide, by decide⟩
theorem witness_ScalarStoreResults_full :
    let f := loads (List.replicate 16 (entry0 65664 4))
    Issues (issuing f) (envOf f) guard0 ∧ 16 ≤ (envOf f).st.stores.length ∧
      Reaches57 (issuing f) (envOf f) 65664 4 .write 65664 := ⟨issuing_issues _, by decide, reaches0 _ _⟩
theorem witness_ScalarStoreResults_held :
    let f := fun st : Strand => { st with unackDev := 1 }
    (release (issuing f) sid0 (some .dev)).2 = false := by decide
theorem test_sst_buffers : (match exec (.sst guard0 1 1 .b2 0) (issuing (loads [])) with
    | .next t => (t.strands.get? sid0).map fun st => st.stores.map fun x => x.lanes.map SBLane.data
    | _ => none) = some [[[0x80, 0x00]]] := by decide

/-! ### ScalarAccessFaults -/

theorem witness_ScalarAccessFaults_low : ((envOf (loads [])).st.rd 1).toNat < 2 ^ 57 ∧ ((envOf (loads [])).st.rd 1).toNat % 4 = 0 ∧
    lookup { issuing (loads []) with xlat := State.reset.xlat } (envOf (loads [])).quadrant 0 1 true [] 65664 .read = .miss ∧
    lookup (issuing (loads [])) (envOf (loads [])).quadrant 0 1 true [] 65664 .read ≠ .miss ∧
    lookup { issuing (loads []) with xlat := State.reset.xlat } (envOf (loads [])).quadrant 0 1 true [⟨1, .read, .page⟩] 65664 .read
      = .bad .page := by decide
theorem witness_ScalarAccessFaults_high :
    let f := fun st : Strand => st.wr 1 0x0200000000000000
    Issues (issuing f) (envOf f) guard0 ∧ 2 ^ 57 ≤ ((envOf f).st.rd 1).toNat := ⟨issuing_issues _, by decide⟩
theorem witness_ScalarAccessFaults_align :
    let f := fun st : Strand => st.wr 1 65665
    Issues (issuing f) (envOf f) guard0 ∧ ((envOf f).st.rd 1).toNat < 2 ^ 57 ∧ ((envOf f).st.rd 1).toNat % 4 ≠ 0 :=
  ⟨issuing_issues _, by decide⟩

/-! ### AtomicResults -/

theorem witness_AtomicResults : (issuing (loads [])).memWf = true ∧ (release (issuing (loads [])) sid0 (some .dev)).2 = true ∧
    ((drain (release (issuing (loads [])) sid0 (some .dev)).1 sid0).homeLine 0 (lineOf 65664)).mem.poisoned 65664 4 = false ∧
    Reaches57 (issuing (loads [])) (envOf (loads [])) 65664 4 .rmw 65664 :=
  ⟨by decide, by decide, by decide, reaches0 _ _⟩
theorem witness_AtomicResults_poisoned :
    let s := { issuing (loads []) with mem := { State.reset.mem with bad := [65664 / 32] } }
    ((drain (release s sid0 (some .dev)).1 sid0).homeLine 0 (lineOf 65664)).mem.poisoned 65664 4 = true := by decide
theorem test_satom_cas : (match exec (.satom guard0 2 1 3 .cas false .dev) (issuing fun st => (st.wr 1 65664).wr 3 9) with
    | .next t => (t.mem.home.readNat 65664 4, (t.strands.get? sid0).map fun st => st.rd 2)
    | _ => (0, none)) = (9, some 0) := by decide

/-! ### FencesWaitForStores -/

theorem witness_FencesWaitForStores : Issues (issuing (loads [])) (envOf (loads [])) guard0 ∧
    (release (issuing (loads [])) sid0 (some .sys)).2 = true ∧ (envOf (loads [])).st.stores = [] ∧ (envOf (loads [])).st.unackDev = 0 :=
  ⟨issuing_issues _, by decide, rfl, rfl⟩
theorem witness_FencesWaitForStores_held :
    let f := fun st : Strand => { st with unackSys := 1 }
    Issues (issuing f) (envOf f) guard0 ∧ (release (issuing f) sid0 (some .sys)).2 = false := ⟨issuing_issues _, by decide⟩

/-! ### BufferedStoresArePerformed -/

theorem witness_BufferedStoresArePerformed :
    let f := loads [entry0 65664 4]
    (issuing f).env? sid0 = some (envOf f) ∧ (issuing f).memWf = true ∧ (envOf f).wg.parked = none ∧
      (envOf f).st.stores.find? (fun y => decide (y.id = 5)) = some (entry0 65664 4) ∧ entryReady (issuing f) (envOf f).st (entry0 65664 4) = true ∧
      (entry0 65664 4).lanes = [⟨0, 65664, 65664, natLE 4 7⟩] ∧ isRemote 65664 = false :=
  ⟨rfl, by decide, rfl, by decide, by decide, by decide, by decide⟩
theorem witness_BufferedStoresArePerformed_held :
    let y := { entry0 65664 4 with id := 6 }
    let f := loads [entry0 65664 4, y]
    (issuing f).env? sid0 = some (envOf f) ∧ (envOf f).st.stores.find? (fun z => decide (z.id = y.id)) = some y ∧
      entryReady (issuing f) (envOf f).st y = false ∧ (envOf f).st.stores.find? (fun z => decide (z.id = 7)) = none :=
  ⟨rfl, by decide, by decide, by decide⟩
theorem test_store_performed : (match exec (.storePerformed sid0 5) (base (loads [entry0 65664 4])) with
    | .next t => (t.mem.home.readNat 65664 4, (t.strands.get? sid0).map fun st => st.stores.length)
    | _ => (0, none)) = (7, some 0) := by decide

/-! ### BarrierWords -/

theorem witness_BarrierWords : barKey (issuing id) (envOf id) (0 : Fin 64).val = some (.wg 1 0) ∧
    sid0 ∈ barMembers (issuing id) (.wg 1 0) ∧ ((issuing id).bar (.wg 1 0)).broken = false ∧
    (release (issuing id) sid0 (some (barScope (.wg 1 0)))).2 = true ∧ sid0 ∉ ((issuing id).bar (.wg 1 0)).arrived ∧
    (envOf id).st.laneQ = [] ∧ barKey (issuing id) (envOf id) (1 : Fin 64).val = none := by decide
/-- The strand has arrived in the open phase, and waits there. -/
def arrived0 (broken : Bool) : State :=
  let b := issuing fun st => { st with wait := some (.barrier (.wg 1 0)) }
  { b with bars := [(.wg 1 0, ⟨0, [sid0], broken⟩)] }
theorem witness_BarrierWords_again : sid0 ∈ ((arrived0 false).bar (.wg 1 0)).arrived ∧ phaseDone (arrived0 false) (.wg 1 0) = true ∧
    (barMembers (arrived0 false) (.wg 1 0)).Nodup ∧ sid0 ∈ barMembers (arrived0 false) (.wg 1 0) ∧
    ((arrived0 false).strands.get? sid0).map Strand.wait = some (some (.barrier (.wg 1 0))) ∧
    ((arrived0 true).bar (.wg 1 0)).broken = true := by decide
theorem witness_BarrierWords_outside :
    let s := { issuing id with launches := [(1, { launch0 with desc := { desc0 with barMasks := [0] } })] }
    sid0 ∉ barMembers s (.wg 1 0) ∧ (s.cur = some (.scalar sid0)) := by decide
theorem witness_BarrierWords_broken :
    let s := { issuing id with bars := [(.wg 1 0, ⟨0, [], true⟩)] }
    sid0 ∈ barMembers s (.wg 1 0) ∧ (s.bar (.wg 1 0)).broken = true ∧ (release s sid0 (some .wg)).2 = true := by decide
theorem witness_BarrierWords_completes : (barMembers (issuing id) (.wg 1 0)).Nodup ∧ (envOf id).st.stores = [] ∧
    (envOf id).st.unackDev = 0 ∧ phaseDone (issuing id) (.wg 1 0) = false ∧
    ∀ m ∈ barMembers (issuing id) (.wg 1 0), (m = sid0 ∨ m ∈ ((issuing id).bar (.wg 1 0)).arrived) ∧ isParked (issuing id) m = false := by decide

/-! ### LandingWords -/

/-- A launch with two granules of scratchpad, and a landing word at offset 32 that has 5 bytes arrived. -/
def landing (bytes : List Byte) (f : Strand → Strand) : State × Env :=
  let wg := { wg0 with scratch := Mem.write [] 32 bytes }
  let l := { launch0 with desc := { desc0 with pword := 0x00081040 } }
  ({ issuing f with wgs := [(1, wg)], launches := [(1, l)] }, ⟨sid0, f st0, wg, l⟩)
def land0 (n : Nat) : Strand → Strand := fun st => (st.wr 1 32).wr 2 (BitVec.ofNat 64 n)
theorem landing_issues (bytes : List Byte) (f : Strand → Strand) : Issues (landing bytes f).1 (landing bytes f).2 guard0 := ⟨rfl, rfl, rfl⟩
theorem witness_LandingWords :
    let x := landing (Land.bytes ⟨0, 5, 6, 0⟩) (land0 5)
    x.2.wg.scratch.wf = true ∧ landCheck x.1 x.2 32 = none ∧ badWord x.2.wg.badScratch 32 24 = false ∧
      landRead x.2.wg 32 = ⟨0, 5, 6, 0⟩ ∧ ¬ 33 % 32 = 0 ∧ x.2.scratchBytes < 65536 * 64 + 32 := by decide
theorem witness_LandingWords_overrun :
    landRead (landing (Land.bytes ⟨4, 3, 6, 1⟩) (land0 5)).2.wg 32 = ⟨4, 3, 6, 1⟩ ∧ bitOf 1 0 = true := by decide
theorem witness_LandingWords_waiting :
    let x := landing (Land.bytes ⟨8, 3, 6, 0⟩) fun st => { land0 4 st with wait := some (.slwt 1 2) }
    x.1.env? x.2.sid = some x.2 ∧ mayResume x.2 = true ∧ x.2.st.wait = some (.slwt 1 2) ∧ bitOf 6 0 = (x.2.st.rd 2).getLsbD 0 ∧
      landCheck x.1 x.2 32 = none := ⟨rfl, by decide⟩
theorem test_slexp_advances : (match exec (.slexp guard0 1 2) (landing (Land.bytes ⟨0, 5, 6, 0⟩) (land0 5)).1 with
    | .next t => (t.wgs.get? 1).map fun w => landRead w 32
    | _ => none) = some ⟨0, 0, 7, 0⟩ := by decide
theorem test_slinit_keeps_generation : (match exec (.slinit guard0 1) (landing (Land.bytes ⟨8, 3, 6, 1⟩) (land0 5)).1 with
    | .next t => (t.wgs.get? 1).map fun w => landRead w 32
    | _ => none) = some ⟨0, 0, 6, 0⟩ := by decide

/-! ### MonitorAndTimelineWords -/

def watching (w : Option Watch) (wait : Option Wait) : Strand → Strand := fun st => { st.wr 1 65664 with watch := w, wait := wait }
theorem witness_MonitorAndTimelineWords_watch :
    let f := watching (some ⟨513, true, false⟩) none
    Issues (issuing f) (envOf f) guard0 ∧ Reaches57 (issuing f) (envOf f) ((envOf f).st.rd 1).toNat 1 .read 65664 ∧
      (envOf f).st.watch = some ⟨513, true, false⟩ ∧ (envOf f).st.rd 1 ≠ 0 ∧ (envOf id).st.watch = none :=
  ⟨issuing_issues _, ⟨by decide, by decide, ⟨.raw, rfl⟩, by decide, by decide⟩, rfl, by decide, rfl⟩
theorem witness_MonitorAndTimelineWords_waiting :
    let f := watching (some ⟨513, false, false⟩) (some (.smwait 2 0))
    (base f).env? sid0 = some (envOf f) ∧ mayResume (envOf f) = true ∧ (envOf f).st.wait = some (.smwait 2 0) ∧ 0 ≤ (base f).cycle :=
  ⟨rfl, by decide⟩
theorem witness_MonitorAndTimelineWords_timeline :
    let f := fun st : Strand => { st.wr 1 5 with wait := some (.stlwait 0 2) }
    handleQueue (issuing f) (envOf f) (0 : Fin 16).val = some (.launch 1 0) ∧ reached (issuing f) (.launch 1 0) = 0 ∧
      ((envOf f).st.rd 2).toNat ≤ 0 ∧ 0 < ((envOf f).st.rd 1).toNat ∧ incompleteOf (issuing f) (.launch 1 0) sid0 = 0 ∧
      mayResume (envOf f) = true ∧ handleQueue (issuing f) (envOf f) (2 : Fin 16).val = none := by decide
def layout0 : LayoutRec := ⟨0, [], [], [], 0, 0, 0, 0, false, 0, 0, []⟩
def copy0 (word : W32) : CopyCmd :=
  { num := 1, sid := sid0, pc := 65536, world := 1, priv := true, word := word, follow := none, followDone := true, sa := 0, sb := 0,
    sc := 0, transform := .copy, fifo := false, store := false, layout := layout0, scale := 0, land := none, progress := 0,
    chunks := 1, snap := [], snapScale := [], state := .ready, walkFaults := [], ahead := [], msgs := [] }
theorem witness_MonitorAndTimelineWords_incomplete :
    let s := { issuing id with copyQs := [((core0, 0), ⟨none, 2, [copy0 0], false⟩)] }
    handleQueue s (envOf id) (1 : Fin 16).val = some (.copy core0 0) ∧
      ((envOf id).st.rd 2).toNat < incompleteOf s (.copy core0 0) sid0 := by decide
theorem test_smwait_write_first : (match exec (.smwait guard0 2 1) (issuing (watching (some ⟨513, true, true⟩) none)) with
    | .next t => (t.strands.get? sid0).map fun st => (st.rd 2, st.watch)
    | _ => none) = some (0, some ⟨513, false, false⟩) := by decide

/-! ### SpecialRegisterReads -/

theorem witness_SpecialRegisterReads : Issues (issuing id) (envOf id) guard0 ∧ (issuing id).contexts.get? 1 = some ctx0 ∧
    SpareUnit.rows core0 ∉ (issuing id).spares.used ∧ (32 ≤ (32 : Fin 128).val) ∧ (15 : Fin 128).val < 16 ∧ (0 : SReg) ≠ 1 :=
  ⟨issuing_issues _, rfl, by decide, by decide, by decide, by decide⟩
theorem witness_SpecialRegisterReads_spare : SpareUnit.rows core0 ∈ ({ issuing id with spares := ⟨[.rows core0]⟩ } : State).spares.used := by
  decide
theorem test_srds_world : (match exec (.srds guard0 6 22) (issuing id) with
    | .next t => (t.strands.get? sid0).map fun st => st.rd 6
    | _ => none) = some 1 := by decide

/-! ### SystemRegisterWrites -/

def sysWord (v : Nat) (wait : Option Wait) : Strand → Strand := fun st => { st.wr 1 (BitVec.ofNat 64 v) with wait := wait }
def atU (f : Strand → Strand) : State × Env :=
  let l := { launch0 with desc := { desc0 with priv := false } }
  ({ issuing f with launches := [(1, l)] }, ⟨sid0, f st0, wg0, l⟩)
theorem witness_SystemRegisterWrites_user : Issues (atU id).1 (atU id).2 guard0 ∧ (atU id).2.l.desc.priv = false := ⟨⟨rfl, rfl, rfl⟩, rfl⟩
theorem witness_SystemRegisterWrites : (envOf id).l.desc.priv = true ∧ ((envOf (sysWord 8192 none)).st.rd 1).toNat % 8192 = 0 ∧
    (release (issuing (sysWord 8192 none)) sid0 (some .dev)).2 = true ∧
    mayResume (envOf (sysWord 8192 none)) = true ∧ ((issuing (sysWord 8192 none)).strands.all fun p => p.2.stores.isEmpty) ∧ (envOf (sysWord 8192 none)).st.unackDev = 0 ∧ ((envOf (sysWord 1 none)).st.rd 1).toNat ≤ 1 ∧
    ((envOf (sysWord 700 none)).st.rd 1).toNat % 64 ≠ 0 ∧ 512 ≤ ((envOf (sysWord 700 none)).st.rd 1).toNat ∧
    (∀ v ∈ [256, 511], 256 ≤ ((envOf (sysWord v none)).st.rd 1).toNat ∧ ((envOf (sysWord v none)).st.rd 1).toNat < 512) := by decide
theorem witness_SystemRegisterWrites_sync :
    let f := sysWord 1 (some (.fdtsync 5 9))
    (base f).env? sid0 = some (envOf f) ∧ mayResume (envOf f) = true ∧ storesHeld (drainWorld (base f) 1) 1 9 = false := ⟨rfl, by decide⟩
theorem witness_SystemRegisterWrites_held : storesHeld (drainWorld (base heldStore) 1) 1 9 = true := by decide
/-- World 1 serves gate 3 to itself as handle 4, and ticket 9 of the strand waits there. -/
def gate0 : Gate := { client := 1, handle := 4, base := 65536, depth := 2, posted := 1, pending := [9] }
def ticket0 : Ticket := { server := 1, gate := 3, holder := sid0, state := .pending }
def serving (f : Strand → Strand) (m : List Byte) (at_ : Nat) : State :=
  let b := issuing fun st => { f st with tickets := [9] }
  let w := { World.empty with valid := true, alive := true, served := [(3, gate0)], handles := [(4, (1, 3))] }
  { b with worlds := [(0, World.empty), (1, w)], tickets := [(9, ticket0)],
           mem := { b.mem with home := Mem.write [] at_ m, views := vmap (fun _ => Mem.write [] at_ m) b.mem.views } }
theorem witness_SystemRegisterWrites_gates : (((serving id [] 0).worlds.get? 1).bind fun w => w.served.get? 3) = some gate0 ∧
    ((serving id [] 0).worlds.get? 1).bind (fun w => w.handles.get? (260 - 256)) = some (1, 3) ∧
    ((serving id [] 0).worlds.get? 1).bind (fun w => w.handles.get? (511 - 256)) = none ∧ (9 ∈ gate0.pending) ∧ (serving id [] 0).tickets.get? 9 = some ticket0 ∧
    ((serving id [] 0).strands.get? ticket0.holder).map Strand.tickets = some [9] := by decide
/-- The bytes that a strand's word reads, where it reads them. -/
def bytesRead (x : Except Eff (State × List Byte)) : Option (List Byte) := match x with | .ok p => some p.2 | .error _ => none
def envTickets (v : Nat) : Env := envOf fun st => { sysWord v none st with tickets := [9] }
theorem witness_SystemRegisterWrites_reply :
    let bs := natLE 8 9 ++ natLE 4 3 ++ natLE 1 2 ++ List.replicate 51 0 ++ [5, 6] ++ List.replicate 62 0
    let s := serving (sysWord 65536 none) bs 65536
    Issues s (envTickets 65536) guard0 ∧ bytesRead (strandBytes (envTickets 65536) s 65536 128) = some bs ∧ fieldNat bs 0 8 = 9 ∧
      fieldNat bs 8 4 = 3 ∧ fieldNat bs 12 1 ≤ 64 ∧ leNat ((bs.drop 13).take 51) = 0 :=
  ⟨⟨rfl, rfl, rfl⟩, by decide, by decide, by decide, by decide, rfl⟩
theorem witness_SystemRegisterWrites_register :
    let bs := natLE 8 65536 ++ natLE 4 2 ++ natLE 2 1 ++ natLE 1 7 ++ natLE 1 0 ++ natLE 4 5 ++ List.replicate 44 0
    let s := serving (sysWord 65536 none) bs 65536
    bytesRead (strandBytes (envTickets 65536) s 65536 64) = some bs ∧ gateRecordOk bs = true ∧
      ((s.worlds.get? (fieldNat bs 12 2)).map fun w => (w.alive, w.handles.get? 7, w.served.get? 5)) = some (true, none, none) ∧
      gateRecordOk (bs.set 15 1) = true ∧ gateRecordOk (bs.set 0 1) = false := by decide
theorem test_debugen : (match exec (.debugen guard0 1) (issuing (sysWord 1 none)) with
    | .next t => (t.worlds.get? 1).map World.debugen
    | _ => none) = some true := by decide

/-! ### GateWords -/

def posting (h v : Nat) (w : Option Wait) : Strand → Strand := fun st => { (st.wr 1 (BitVec.ofNat 64 h)).wr 2 (BitVec.ofNat 64 v) with wait := w }
def envPosting (h v : Nat) (w : Option Wait) : Env := envOf fun st => { posting h v w st with tickets := [9] }
theorem witness_GateWords :
    let s := serving (posting 4 65536 none) [] 0
    let e := envPosting 4 65536 none
    Issues s e guard0 ∧ bytesRead (strandBytes e s 65536 2) = some [0, 0] ∧ (release s sid0 (some .dev)).2 = true ∧
      ((s.worlds.get? 1).bind fun w => w.handles.get? ((e.st.rd 1).toNat % 2 ^ 32)) = some (1, 3) ∧ e.st.tickets.length < 8 ∧
      gate0.pending.length < gate0.depth ∧ 1 ≤ s.nextId ∧ s.nextId < 2 ^ 64 ∧ (gate0.base + 128 * (gate0.posted % gate0.depth)) % 128 = 0 :=
  ⟨⟨rfl, rfl, rfl⟩, by decide, by decide, by decide, by decide, by decide, by decide, by decide, by decide⟩
set_option maxRecDepth 16000 in
theorem witness_GateWords_entry : (translateNow queueState 0 1 (65536 + 128) .write true).2.toOption = some 131200 ∧ 131200 % 128 = 0 := by decide
theorem witness_GateWords_none :
    ((((serving (posting 5 65536 none) [] 0).worlds.get? 1).bind fun w => w.handles.get? 5) = none) ∧
      ({ gate0 with depth := 1 } : Gate).depth ≤ gate0.pending.length ∧ 64 < (65 : BitVec 7).toNat := by decide
theorem witness_GateWords_wait :
    let e := envPosting 9 65536 (some (.sgatew 3 1 2))
    let s := serving (posting 9 65536 (some (.sgatew 3 1 2))) [] 0
    Issues s e guard0 ∧ (e.st.rd 1).toNat ∈ e.st.tickets ∧ s.tickets.get? 9 = some ticket0 ∧ ticket0.state = .pending ∧
      mayResume e = true ∧ e.st.wait = some (.sgatew 3 1 2) ∧ (0 : Nat) ∉ e.st.tickets := ⟨⟨rfl, rfl, rfl⟩, by decide, by decide, by decide, by decide, by decide, by decide⟩
theorem witness_GateWords_reply :
    let e := envPosting 9 65536 none
    let s := serving (posting 9 65536 none) [] 0
    (match strandWrite e s 65536 [5, 6] with | .ok t => t.mem.home.read 65536 2 | .error _ => []) = [5, 6] := by decide
set_option maxRecDepth 4000 in
theorem test_sgate_ticket : (match exec (.sgate guard0 3 1 2 2) (serving (posting 4 65536 none) [] 0) with
    | .next t => (t.strands.get? sid0).map fun st => (st.rd 3, st.tickets)
    | _ => none) = some (10, [9, 10]) := by decide
theorem test_sgatew_closed : (match exec (.sgatew guard0 3 1 2)
      { serving (posting 9 65536 none) [] 0 with tickets := [(9, { ticket0 with state := .closed })] } with
    | .next t => (t.strands.get? sid0).map fun st => (st.rd 3, st.tickets)
    | _ => none) = some (-3, []) := by decide

/-! ### LaunchWords -/

/-- A launch record of one workgroup on queue handle 0, at 65536, and a strand that holds the address in `s1`. -/
def descBytes : List Byte :=
  natLE 8 65536 ++ natLE 8 65536 ++ natLE 8 131072 ++ natLE 4 0x1040 ++ natLE 4 1 ++ natLE 4 1 ++ natLE 4 1 ++ [1, 8, 1, 1, 0, 0, 0, 0]
    ++ natLE 8 0 ++ natLE 4 0 ++ natLE 4 0 ++ List.replicate 128 0 ++ natLE 4 512 ++ List.replicate 60 0
def launching (bs : List Byte) (f : Strand → Strand) : State :=
  let b := issuing f
  { b with mem := { b.mem with home := Mem.write [] 65536 bs, views := vmap (fun _ => Mem.write [] 65536 bs) b.mem.views } }
def at64k (w : Option Wait) : Strand → Strand := fun st => { st.wr 1 65536 with wait := w }
set_option maxRecDepth 8000 in
theorem witness_LaunchWords : Issues (launching descBytes (at64k none)) (envOf (at64k none)) guard0 ∧
    ((envOf (at64k none)).st.rd 1).toNat < 2 ^ 57 ∧ ((envOf (at64k none)).st.rd 1).toNat % 64 = 0 ∧
    (release (launching descBytes (at64k none)) sid0 (some .dev)).2 = true ∧
    bytesRead (strandBytes (envOf (at64k none)) (release (launching descBytes (at64k none)) sid0 (some .dev)).1 65536 256)
      = some descBytes ∧ (parseLaunch descBytes).isSome = true :=
  ⟨⟨rfl, rfl, rfl⟩, by decide, by decide, by decide, by rfl, by decide⟩
theorem witness_LaunchWords_wait : mayResume (envOf (at64k (some (.slaunch 2 1)))) = true ∧ (parseLaunch []).isSome = false ∧
    (envOf (at64k (some (.slaunch 2 1)))).st.wait = some (.slaunch 2 1) ∧ climb (issuing id) .launch 6 (unitOf 1) = some ⟨.launch, 1⟩ ∧
    ((issuing id).inst? ⟨.launch, 1⟩).map Inst.state = some .running ∧
    (envOf id).st.ended = .no ∧ (envOf fun st => st.wr 1 1).l.world = 1 ∧ (issuing id).launches.get? 7 = none := by decide
theorem test_scnt_state : (match exec (.scnt guard0 8 .state .launch) (issuing id) with
    | .next t => (t.strands.get? sid0).map fun st => st.rd 8
    | _ => none) = some 0 := by decide
set_option maxRecDepth 16000 in
theorem test_scancel_own_unit : (match exec (.scancel guard0 0 0 .unit) (issuing id) with
    | .next t => ((t.strands.get? sid0).map Strand.ended, (t.insts.get? (unitOf 1)).map Inst.state)
    | _ => (none, none)) = (some .cancelled, some .cancelled) := by decide

/-! ### RuntimeRequests -/

def asked (x : Input) : State := { base id with inbox := [x] }
theorem witness_RuntimeRequests : (asked (.submit 1 1 65600)).power.state = .w0 ∧
    (asked .doorbell).trust.stage ≠ .halted ∧ 65600 % 64 = 0 ∧ 65601 % 64 ≠ 0 ∧
    ctx0.world = 1 ∧ (asked .doorbell).contexts.get? 1 = some ctx0 ∧
    ((asked .doorbell).worlds.get? 1).map (fun w => (w.queues.get? 0, w.queues.get? 1)) = some (some ⟨0, 1, 1, []⟩, none) := by decide
theorem witness_RuntimeRequests_read : (readNow (asked (.submit 1 1 65600)) 0 1 65600 256 true).2.toOption = none := by decide
/-- World 1 with an open job, and everything of its launch over. -/
def jobbed (x : Input) : State :=
  let b := asked x
  { b with worlds := [(1, { World.empty with valid := true, alive := true, job := some 5 })],
           insts := [(⟨.job, 5⟩, Inst.fresh none 0 0), (⟨.launch, 1⟩, { Inst.fresh none 1 0 with state := .done })] }
theorem witness_RuntimeRequests_job : ((jobbed (.closeJob 1)).worlds.get? 1).map World.job = some (some 5) ∧
    ((jobbed (.closeJob 1)).inst? ⟨.job, 5⟩).isSome = true ∧
    ((jobbed (.destroyContext 1)).launches.all fun p => launchOver (jobbed .doorbell) p.1) = true ∧
    launchOver (asked .doorbell) 1 = false := by decide
theorem witness_RuntimeRequests_context : tablesOk { img0 with period := 1000 } = true ∧ tablesOk { img0 with period := 1 } = false ∧
    (jobbed .doorbell).contexts.get? 7 = none ∧ img0.nodes = [] ∧
    ((jobbed .doorbell).worlds.get? img0.world).map World.alive = some true := by decide
theorem test_queue_create : (match exec .queueCreate { jobbed .doorbell with inbox := [.createQueue 1 3 2 1] } with
    | .next t => (t.worlds.get? 1).map fun w => w.queues.get? 3
    | _ => none) = some (some ⟨2, 1, 1, []⟩) := by decide

/-! ### EngineWordsAreAccepted -/

def withRole (r : Role) : Strand → Strand := fun st => { st with role := r }
/-- A matrix-role strand of a launch with four tiles, a pair and every FIFO. -/
def matrixEnv (f : Strand → Strand) (cmds : List MatCmd) : State × Env :=
  let wg := { wg0 with matrix := { MatQueue.empty with cmds := cmds } }
  let l := { launch0 with desc := { desc0 with pword := 0x00101040, pairs := 1, fifos := 63, roles := [.matrix, .matrix] } }
  ({ issuing f with wgs := [(1, wg)], launches := [(1, l)] }, ⟨sid0, f st0, wg, l⟩)
def fields0 : MatFields := ⟨1, 0, 0, 0, 0, true, .bf16bf16, true, .dense⟩
def matCmd0 (id : Nat) (k : MatKind) (rows : List (List Byte)) : MatCmd :=
  { id := id, num := some id, copy := none, sid := sid0, pc := 65536, word := 0, world := 1, kind := k, index := 0, pair := .solo,
    started := true, aRows := rows, bRows := rows, state := .ready }
theorem witness_EngineWordsAreAccepted_matrix :
    let x := matrixEnv (withRole .matrix) []
    Issues x.1 x.2 guard0 ∧ x.2.st.role = .matrix ∧ matTilesOk x.2 fields0 = true ∧ fifoBound x.2 0 = true ∧ fifoBound x.2 4 = true ∧
      bitOf x.2.l.desc.pairs (sid0.strand.val / 2) = true ∧ (1 : TileNo).val < x.2.accTiles ∧ ¬ (9 : TileNo).val < x.2.accTiles ∧
      x.2.wg.matrix.cmds.countP (fun c => c.num.isSome) < 64 :=
  ⟨⟨rfl, rfl, rfl⟩, rfl, by decide, by decide, by decide, by decide, by decide, by decide, by decide⟩
theorem witness_EngineWordsAreAccepted_full :
    let x := matrixEnv (fun st => { withRole .matrix st with wait := some (.engine (.mma guard0 fields0)) }) (List.replicate 64 (matCmd0 1 (.mzero 0) []))
    64 ≤ x.2.wg.matrix.cmds.countP (fun c => c.num.isSome) ∧ mayResume x.2 = true ∧ x.1.env? x.2.sid = some x.2 ∧
      (∀ t ∈ (MatKind.mma fields0).writes ++ (MatKind.mma fields0).reads, tileTagOk x.1 x.2 t = true) := ⟨by decide, by decide, rfl, by decide⟩
/-- The tags of the tiles of a launch whose first granules belong to another world. -/
theorem witness_EngineWordsAreAccepted_tags :
    let x := matrixEnv (withRole .matrix) []
    let y := { x.1 with granules := [(core0, (Vector.replicate 48 Granule.free).set 2 (.held 1 2))] }
    (∀ t ∈ (MatKind.mzero 0).writes ++ (MatKind.mzero 0).reads, tileTagOk x.1 x.2 t = true) ∧
      ¬ (∀ t ∈ (MatKind.mzero 0).writes ++ (MatKind.mzero 0).reads, tileTagOk y x.2 t = true) := by decide
theorem witness_EngineWordsAreAccepted_unbound :
    let e : Env := ⟨sid0, withRole .matrix st0, wg0, { launch0 with desc := { desc0 with pword := 0x00101040, fifos := 0 } }⟩
    matTilesOk e fields0 = true ∧ fifoBound e 0 = false ∧ bitOf e.l.desc.pairs (sid0.strand.val / 2) = false ∧ e.st.role ≠ .copy := by decide
/-- A layout record of one row of four bytes at 65536, and a copy-role strand that holds its handle in `s1`. -/
def layoutBytes (fill : Nat) : List Byte :=
  natLE 8 65536 ++ (natLE 4 4 ++ natLE 4 1 ++ natLE 4 1 ++ natLE 4 1) ++ natLE 12 0 ++ (natLE 2 4 ++ natLE 2 1 ++ natLE 2 1 ++ natLE 2 1)
    ++ natLE 4 0 ++ natLE 4 0 ++ [0, 7, 0x80, 0] ++ natLE 4 fill ++ natLE 4 0
def copyEnv (f : Strand → Strand) : State × Env :=
  let c := { ctx0 with img := { img0 with records := [layoutBytes 0], groups := [(0, ⟨2, 1⟩)] } }
  let f := fun st => f (withRole .copy st)
  ({ issuing f with contexts := [(1, c)] }, ⟨sid0, f st0, wg0, launch0⟩)
set_option maxRecDepth 8000 in
theorem witness_EngineWordsAreAccepted_copy :
    let x := copyEnv id
    (copyIssue 1 2 0 .copy false none (cpyWord 1 2 0 .copy false false) x.2 x.1).toOption.map (fun k => (k.num, k.chunks)) = some (1, 1) ∧
      x.2.st.role = .copy ∧ (x.1.copyQ core0 0).cmds.length < 64 := by decide
set_option maxRecDepth 8000 in
theorem witness_EngineWordsAreAccepted_then :
    let x := copyEnv id
    (copyIssue 1 2 0 .copy false (some 0) 0 x.2 x.1).toOption.map CopyCmd.num = none := by decide
theorem witness_EngineWordsAreAccepted_collective :
    let x := copyEnv fun st => (((st.wr 1 65536).wr 2 65792).wr 3 4)
    Issues x.1 x.2 guard0 ∧ (collIssue 1 2 3 .allReduce .add x.2 x.1).toOption.map (fun k => (k.num, k.count)) = some (1, 4) :=
  ⟨⟨rfl, rfl, rfl⟩, by decide⟩
theorem test_mzero_queues : (match exec (.mzero guard0 3) (matrixEnv (withRole .matrix) []).1 with
    | .next t => (t.wgs.get? 1).map fun w => (w.matrix.next, w.matrix.cmds.map MatCmd.kind)
    | _ => none) = some (2, [.mzero 3]) := by decide
theorem test_cpyset : (match exec (.cpyset guard0 1) (copyEnv fun st => st.wr 1 0xFF40000000).1 with
    | .next t => (t.strands.get? sid0).map Strand.tileScale
    | _ => none) = some 0x40000000 := by decide

/-! ### CopyAndCollectiveEvents -/

/-- A copy queue that holds one command of one chunk, and a translation for the engine. -/
def copying0 (fifo : Bool) : State × CopyCmd :=
  let r := (parseLayout false (layoutBytes 0)).getD layout0
  let k := { copy0 0 with layout := r, fifo := fifo }
  let b := base (withRole .copy)
  let tl := { page0 1 with site := .copyEngine core0 }
  ({ b with copyQs := [((core0, 0), ⟨some 1, 2, [k], false⟩)], xlat := { b.xlat with tlb := [tl] },
            mem := { b.mem with views := b.mem.views.set 0 [(65537, 9)] } }, k)
def chunked (x : State × Except CopyStop Chunked) : Option (List Byte × Nat) := match x.2 with | .ok c => some (c.pushed, c.count) | .error _ => none
set_option maxRecDepth 8000 in
theorem witness_CopyAndCollectiveEvents_chunk :
    let x := copying0 false
    (x.1.copyQ core0 0).cmds.find? (fun k => decide (k.progress < k.chunks)) = some x.2 ∧ x.1.wgs.get? x.2.sid.wg = some wg0 ∧
      (x.1.copyQ core0 0).halted = false ∧ x.2.state = .ready ∧ wg0.parked = none ∧ wg0.stopping = false ∧
      chunked (chunkEffect x.1 core0 x.2 wg0) = some ([], 4) ∧ x.2.progress + 1 = x.2.chunks ∧ x.2.follow = none ∧
      (landArrival x.1 1 x.2.land 4).2 = false := by decide
theorem witness_CopyAndCollectiveEvents_faults :
    let x := copying0 false
    let held := { x.2 with ahead := [.fault { code := .page, addr := 65536 }] }
    let y := { x.1 with granules := [(core0, (Vector.replicate 48 Granule.free).set 1 (.held 1 2))] }
    held.ahead = .fault { code := .page, addr := 65536 } :: [] ∧ (∀ f l, x.2.ahead ≠ .fault f :: l) ∧ chunkTagsOk y x.2 wg0 = false ∧
      chunkTagsOk x.1 x.2 wg0 = true := ⟨rfl, by simp [copying0, copy0], by decide, by decide⟩
set_option maxRecDepth 8000 in
theorem witness_CopyAndCollectiveEvents_fifo :
    let x := copying0 true
    chunked (chunkEffect x.1 core0 x.2 wg0) = some ([0, 9, 0, 0], 4) ∧ (fifoOf wg0 1 x.2.fifoCode).bytes.length + 4 ≤ fifoSize x.2.fifoCode ∧
      elemInside x.2 (elemIndex x.2 [] ⟨0, 0, 0, 0, 0, 0⟩) = true ∧ elemInside x.2 (elemIndex x.2 [] ⟨7, 0, 0, 0, 0, 0⟩) = false ∧ x.2.moves = true := by decide
/-- A collective of two members, this one of rank 1, on die 0. -/
def coll0 (exchanged : Bool) (data : List W32) : State × CollCmd :=
  let c : CollCmd :=
    { num := 1, sid := sid0, pc := 65536, world := 1, priv := true, src := 65536, dst := 65792, count := 2, ty := 0, kind := .allReduce,
      op := .add, root := 0, group := ⟨2, 1⟩, exchanged := exchanged, data := data, sent := none, state := .ready, walkFaults := [] }
  let b := base (withRole .copy)
  ({ b with collQs := b.collQs.set 0 ⟨some 1, 2, [c], false⟩, xlat := { b.xlat with tlb := [{ page0 1 with site := .collEngine 0 }] } }, c)
def placesOf (x : CollPlaces) : List (Nat × Nat × Nat) := match x with | .ok l => l | _ => []
theorem witness_CopyAndCollectiveEvents_exchange :
    let x := coll0 false []
    collHead x.1 0 = some x.2 ∧ [(⟨.allReduce, .add, 0, 2⟩ : CollHeader)].length + 1 = x.2.group.members ∧
      placesOf (collPlaces x.1 0 x.2 x.2.src 8 .read) = [(65536, 65536, 8)] ∧ x.1.mem.poisoned 65536 8 = false := by decide
theorem witness_CopyAndCollectiveEvents_complete :
    let x := coll0 true [3, 0xFFFFFFFF]
    x.1.memWf = true ∧ collHead x.1 0 = some x.2 ∧ x.2.sent = none ∧ x.2.group.rank ≤ [[(5 : W32), 2]].length ∧ isRemote 65792 = false ∧
      (∀ m, m < 2 → (([[(5 : W32), 2]].take 1 ++ x.2.data :: [[(5 : W32), 2]].drop 1).getD m []).length = collReads .allReduce 2 2 0 m) ∧
      placesOf (collPlaces x.1 0 x.2 x.2.dst 8 .write) = [(65792, 65792, 8)] := by decide
set_option maxRecDepth 8000 in
theorem test_copy_chunk_moves_bytes : (match exec (.copyChunk core0 0) (copying0 false).1 with
    | .next t => ((t.wgs.get? 1).map fun w => w.scratch.read 0 4, (t.copyQ core0 0).cmds.length)
    | _ => (none, 9)) = (some [0, 9, 0, 0], 0) := by decide

/-! ### MatrixArrayEvents -/

/-- A core whose matrix queue holds one word with these rows, its FIFOs, and whether its workgroup is cancelled. -/
def array0 (c : MatCmd) (fifos : Assoc Nat Fifo) (dead : Bool) : State × Workgroup :=
  let x := matrixEnv (withRole .matrix) [c]
  let g := { x.2.wg with fifos := fifos }
  let i := Inst.fresh none 1 0
  ({ x.1 with wgs := [(1, g)], insts := [(unitOf 1, if dead then { i with state := .cancelled } else i)] }, g)
def fields1 : MatFields := { fields0 with m := 0, n := 0 }
def idle0 (k : MatKind) : MatCmd := { matCmd0 1 k [] with started := false }
theorem witness_MatrixArrayEvents_start :
    let c := idle0 (.mzero 2)
    let x := array0 c [] false
    matFind x.1 core0 1 = some (1, x.2, c) ∧ c.started = false ∧ x.2.stopping = false ∧ c.state = .ready ∧ matHalted x.1 x.2 c = false ∧
      mayStart x.2 c = true ∧ tileBad x.2 c.kind = false ∧ operation x.2 c = [c] := by decide
def fifo0 (n : Nat) : Fifo := ⟨1, List.replicate n 1, []⟩
set_option maxRecDepth 8000 in
theorem witness_MatrixArrayEvents_rows :
    let c := matCmd0 1 (.mma fields1) []
    let d := { matCmd0 1 (.mma fields1) [] with bRows := List.replicate fields1.dims.2.1 [] }
    let x := array0 c [(0, fifo0 (aRowSize fields1)), (4, fifo0 (bRowSize fields1))] false
    (matFind x.1 core0 1).map (fun y => y.2.2.id) = some 1 ∧ wantsB c fields1 = true ∧ mayPop x.2 c false fields1.fb.val = true ∧
      (fifoOf x.2 1 4).world = 1 ∧ bRowSize fields1 ≤ (fifoOf x.2 1 4).bytes.length ∧ wantsB d fields1 = false ∧ wantsA d fields1 = true ∧
      mayPop x.2 d true fields1.fa.val = true ∧ aRowSize fields1 ≤ (fifoOf x.2 1 0).bytes.length := by decide
set_option maxRecDepth 8000 in
theorem witness_MatrixArrayEvents_complete :
    let c := matCmd0 1 (.mma fields1) (List.replicate 256 [])
    let x := array0 c [] false
    matFind x.1 core0 1 = some (1, x.2, c) ∧ x.2.tiles.wf = true ∧ x.1.wgs.get? 1 = some x.2 ∧ c.pair = .solo ∧ hasRows x.2 c fields1 = true ∧
      fields1.legal = true := by decide
/-- Two matched words of strands 0 and 1. -/
def pair0 (n : MatFields) : State × Workgroup × MatCmd × MatCmd :=
  let c := { matCmd0 1 (.mmap fields1) [] with pair := .undecided }
  let d := { matCmd0 2 (.mmap n) [] with pair := .undecided, sid := ⟨1, 1⟩ }
  let x := matrixEnv (withRole .matrix) [c, d]
  (x.1, x.2.wg, c, d)
theorem witness_MatrixArrayEvents_pair :
    let n := { fields1 with tile := 2, fa := 1 }
    let x := pair0 n
    matFind x.1 core0 1 = some (1, x.2.1, x.2.2.1) ∧ matched x.2.1 x.2.2.1 = some x.2.2.2 ∧ waitsBehind x.2.1 x.2.2.1 2 = false ∧
      waitsBehind x.2.1 x.2.2.2 1 = false ∧ pairAgrees fields1 n = true ∧ pairAgrees fields1 { n with fb := 1 } = false := by decide
theorem witness_MatrixArrayEvents_alone :
    let c := { matCmd0 1 (.mmap fields1) [] with pair := .undecided }
    let x := array0 c [] false
    matched x.2 c = none ∧ atHead x.2 c fields1 = true ∧ x.1.strands.get? (partnerOf c.sid) = none := by decide
theorem witness_MatrixArrayEvents_ended :
    let c := matCmd0 1 (.mma fields1) []
    let x := array0 c [] true
    matFind x.1 core0 1 = some (1, x.2, c) ∧ c.pair = .solo ∧ instCancelled x.1 (unitOf 1) = true ∧ matWaits x.2 c = true ∧ copying x.1 1 = false ∧
      instCancelled (array0 c [] false).1 (unitOf 1) = false := by decide
theorem test_matrix_word_ended : (match exec (.matrixWordEnded core0 1) (array0 (matCmd0 1 (.mma fields1) []) [] true).1 with
    | .next t => (t.wgs.get? 1).map fun w => (w.matrix.cmds.length, w.matrix.reached)
    | _ => none) = some (0, 0) := by decide

/-! ### GraphWords -/

/-- The strand's launch is one of node 0 of a graph whose edge 0 runs from node 0 to node 1, with two slots of 32 bytes. -/
def edge0 : EdgeDesc :=
  { producer := 0, consumer := 1, slots := 2, frames := 2, layout := 0, ring := 131072, budget := 500, batch := 2, units := 1,
    depth := 0, rate := 0, reserved0 := 0, reserved1 := 0 }
def graph0 (edges : List EdgeDesc) (paired : Bool) (current : Option Nat) (f : Strand → Strand) : State × Env × Context :=
  let c := { ctx0 with img := { img0 with edges := edges, paired := paired, nodes := [] }, current := current }
  let l := { launch0 with graphMade := true }
  let b := issuing f
  ({ b with launches := [(1, l)], contexts := [(1, c)], xlat := { b.xlat with tlb := [page0 1, page0 2] } }, ⟨sid0, f st0, wg0, l⟩, c)
def graphRegs (a b r : Nat) : Strand → Strand := fun st => ((st.wr 1 (BitVec.ofNat 64 a)).wr 2 (BitVec.ofNat 64 b)).wr 3 (BitVec.ofNat 64 r)
theorem witness_GraphWords_outside : Issues (issuing id) (envOf id) guard0 ∧ (envOf id).l.graphMade = false ∧
    (release (issuing id) sid0 (some .dev)).2 = true := ⟨issuing_issues _, rfl, by decide⟩
theorem witness_GraphWords_inside :
    let x := graph0 [edge0] true (some 3) (graphRegs 0 5 0)
    Issues x.1 x.2.1 guard0 ∧ x.2.1.l.graphMade = true ∧ x.1.contexts.get? 1 = some x.2.2 ∧ x.2.2.img.edges[0]? = some edge0 ∧
      x.2.2.img.edges[7]? = none ∧ x.2.2.move.state = .idle ∧ x.2.2.img.paired = true :=
  ⟨⟨rfl, rfl, rfl⟩, rfl, rfl, rfl, rfl, rfl, rfl⟩
theorem witness_GraphWords_cut :
    let x := graph0 [edge0] true (some 3) (graphRegs 5 5 0)
    (x.2.1.st.rd 1).toNat ≤ 7 ∧ (x.2.1.st.rd 1).toNat ≠ x.2.2.cut ∧ x.2.2.current = some 3 ∧ 3 + 2 ≤ (x.2.1.st.rd 2).toNat ∧
      ¬ 3 + 2 ≤ 4 ∧ (7 : Nat) < 8 := by decide
/-- The state an Except holds, seen through `f`. -/
def seen {ε α β : Type} (x : Except ε α) (f : α → β) : Option β := match x with | .ok y => some (f y) | .error _ => none
theorem witness_GraphWords_close :
    let x := graph0 [edge0] false none (graphRegs 0 0 0)
    (seen (closeDue 1 0 (dueFuel x.1 1 0) x.1) fun t => (t.contexts.get? 1).map fun c =>
      (c.img.edges[0]?, c.mine 0 0, c.edgeLocal edge0 0, (c.edgeOf 0).closedAt 0, ringFree t c 0 edge0 0)) =
      some (some (some edge0, true, true, false, true)) := by decide
/-- A world whose root entry breaks its reserved bits, so that the graph unit's own accesses are dropped with a report. -/
def dropped0 : State × Env × Context :=
  let x := graph0 [edge0] false none (graphRegs 65536 0 0x10000)
  ({ x.1 with mem := { x.1.mem with home := [(0, 0x41)] } }, x.2)
set_option maxRecDepth 8000 in
theorem witness_GraphWords_emit :
    let x := dropped0
    let q := (release x.1 sid0 (some .dev)).1
    (release x.1 sid0 (some .dev)).2 = true ∧ bytesRead (strandBytes x.2.1 q 65536 16) = some (List.replicate 16 0) ∧
      (q.contexts.get? 1).map (fun c => c.mine 0 0) = some true ∧
      (seen (placeRecord q 1 0 0 1 0 (List.replicate 16 0)) fun t => (seen (advanceEdge t 1 0) fun _ => true)) = some (some true) := by decide
/-- Node 1 lies on the far chip, so that edge 0 is remote. -/
def remote0 : State × Env :=
  let x := graph0 [edge0] true none (graphRegs 65536 7 0x10000)
  let img := { x.2.2.img with cuts := [⟨2, [], 0⟩] }
  ({ x.1 with contexts := [(1, { x.2.2 with img := img })] }, x.2.1)
set_option maxRecDepth 8000 in
theorem test_gemit_hands_to_codec : (match exec (.gemit guard0 7 1 2 3) remote0.1 with
    | .next t => ((t.strands.get? sid0).map fun st => st.rd 7, (t.contexts.get? 1).map fun c =>
      ((c.edgeOf 0).codec.openRecords.map fun p => (p.1, p.2.take 12)))
    | _ => (none, none)) = (some 0, some [(1, [7, 0, 0, 0, 0, 0, 0, 0, 1, 0, 0, 0])]) := by decide
theorem test_gcut_too_soon : (match exec (.gcut guard0 7 1 2) (graph0 [edge0] true (some 3) (graphRegs 5 4 0)).1 with
    | .next t => (t.strands.get? sid0).map fun st => st.rd 7
    | _ => none) = some 1 := by decide
theorem test_gstat_outside : (match exec (.gstat guard0 7 1 .late) (issuing id) with
    | .next t => (t.strands.get? sid0).map fun st => st.rd 7
    | _ => none) = some (-1) := by decide

/-! ### PicotInstall -/

def routine0 : List Byte := natLE 4 (0x04 * 2 ^ 26 + 48 * 2 ^ 20 + 0 * 2 ^ 14 + 33 * 2 ^ 8) ++ natLE 4 (0x3F * 2 ^ 26)
def installing (va h : Nat) : Strand → Strand := fun st => (st.wr 1 (BitVec.ofNat 64 va)).wr 2 (BitVec.ofNat 64 h)
set_option maxRecDepth 8000 in
theorem witness_PicotInstall :
    let s := serving (installing 65536 5) routine0 65536
    let e := envTickets 0
    let ps := (words32 routine0).map pword
    bytesRead (strandBytes { e with st := { installing 65536 5 st0 with tickets := [9] } } s 65536 8) = some routine0 ∧
      ps.all PWord.legal = true ∧ ps.all PWord.indexed = true ∧ ps.all PWord.dstLegal = true ∧ (ps.getLast?.map PWord.isEnd) = some true ∧
      (picotOf (words32 routine0)).ni = 2 ∧ (picotOf (words32 routine0)).nr = 1 ∧ (ps.map PWord.cycles).sum ≤ 64 := by decide
theorem witness_PicotInstall_bad : ((([0, 0, 0, 0] : List Byte) |> words32).map pword).all PWord.legal = false ∧
    ([⟨4, 56, 0, 0, 0⟩] : List PWord).all PWord.indexed = false ∧ ([⟨4, 32, 0, 0, 0⟩] : List PWord).all PWord.dstLegal = false ∧
    (([⟨4, 48, 0, 0, 0⟩] : List PWord).getLast?.map PWord.isEnd) = some false ∧
    64 < ((List.replicate 33 (⟨0x0A, 48, 0, 0, 0⟩ : PWord)).map PWord.cycles).sum := by decide
theorem witness_PicotInstall_complete : (issuing fun st => { st with wait := some (.picins 7) }).env? sid0 =
    some (envOf fun st => { st with wait := some (.picins 7) }) ∧ mayResume (envOf fun st => { st with wait := some (.picins 7) }) = true :=
  ⟨rfl, by decide⟩
theorem test_picins_handle : (match exec (.picins guard0 7 1 2 0) (issuing (installing 0 256)) with
    | .next t => (t.strands.get? sid0).map fun st => st.rd 7
    | _ => none) = some (-6) := by decide

/-! ### VectorWordChecks -/

/-- The strand's block runs in one split of all lanes; registers v1 and v2 hold `a` and `b` in every lane. -/
def lanesOf (a b : W32) (m1 : W32) : Strand → Strand := fun st =>
  { blockOf st with v := [.u 0, .u a, .u b, .a 0 1, .g (Vector.replicate 32 a), .u 0, .u 0, .u 0], masks := st.masks.set 1 m1 }
def vword0 (ty : Ty) (dst a b : Fin 128) : VWord :=
  { neg := false, gm := 0, chain := false, nowb := false, ty := ty, dst := dst, a := .reg a, b := .reg b, c := .imm, mod := 0, imm := 0 }
def vissue (f : Strand → Strand) : State := { base f with cur := some (.vector sid0 0) }
def vctx0 (f : Strand → Strand) (op : Nat) (w : VWord) : VCtx :=
  ⟨envOf f, 0, Split.whole (BitVec.allOnes 32) 0, ⟨65536, Vector.replicate 8 0⟩, op, w⟩
/-- Where a load of the word would take the strand back to. -/
def check0 : Checkpoint := (vctx0 (lanesOf 1 2 3) 1 (vword0 .i32 5 1 2)).checkpoint
theorem witness_VectorWordChecks_chain :
    let w := { vword0 .i32 5 1 2 with chain := true }
    (vissue (lanesOf 1 2 3)).vctx? 1 w = some (vctx0 (lanesOf 1 2 3) 1 w) ∧ (vctx0 (lanesOf 1 2 3) 1 w).chainOk = false := ⟨rfl, by decide⟩
theorem witness_VectorWordChecks_names :
    let w := vword0 .i32 9 1 2
    (vissue (lanesOf 1 2 3)).vctx? 1 w = some (vctx0 (lanesOf 1 2 3) 1 w) ∧ (vctx0 (lanesOf 1 2 3) 1 w).chainOk = true ∧
      (vctx0 (lanesOf 1 2 3) 1 w).namesOk = false := ⟨rfl, by decide, by decide⟩
theorem witness_VectorWordChecks_idle :
    let w := { vword0 .i32 5 1 2 with gm := 1 }
    (vctx0 (lanesOf 1 2 0) 1 w).namesOk = true ∧ (vctx0 (lanesOf 1 2 0) 1 w).activeMask = 0 := by decide
theorem witness_VectorWordChecks_tags :
    let s := { vissue (lanesOf 1 2 3) with granules := [] }
    regTagsOk s (envOf (lanesOf 1 2 3)) = false ∧ (vctx0 (lanesOf 1 2 3) 1 (vword0 .i32 5 1 2)).activeMask ≠ 0 := by decide
theorem witness_VectorWordChecks_wait :
    let f := fun st => { lanesOf 1 2 3 st with
      returns := [{ id := 1, regs := [(1, Vector.replicate 32 0)], mask := 1, first := 0, checks := [], before := check0, queued := false }] }
    (vctx0 f 1 (vword0 .i32 5 1 2)).outstanding = true ∧ regTagsOk (vissue f) (envOf f) = true := by decide
theorem witness_VectorWordChecks_poison :
    let f := fun st => { lanesOf 1 2 3 st with badRegs := [(2, 7)] }
    let c := vctx0 f 1 (vword0 .i32 5 1 2)
    (2 ∈ c.regsRead) ∧ (2, 7) ∈ c.st.badRegs ∧ c.lanesRead.getLsbD 7 = true ∧ c.outstanding = false ∧ c.restarts = false := by decide
theorem witness_VectorWordChecks_restart :
    let sp := { Split.whole 1 0 with chain := some ⟨0, 0, [⟨.u 7, .u⟩], [], [], true⟩ }
    let c := { vctx0 (lanesOf 1 2 3) 1 (vword0 .i32 5 1 2) with w := { vword0 .i32 5 1 2 with chain := true }, sp := sp }
    c.restarts = true := by decide
theorem witness_VectorWordChecks_lasting :
    let f := fun st => { lanesOf 1 2 3 st with
      returns := [{ id := 1, regs := [(7, Vector.replicate 32 0)], mask := 1, first := 0, checks := [], before := check0, queued := false }] }
    let c := vctx0 f 0x63 (vword0 .w32 0 1 2)
    c.lasting = true ∧ c.st.returns ≠ [] ∧ c.outstanding = false := by decide
theorem witness_VectorWordChecks_operands :
    let sp := { Split.whole 1 0 with chain := some ⟨0, 0, [⟨.u 7, .u⟩], [], [], false⟩ }
    let c := { vctx0 (lanesOf 1 2 3) 1 (vword0 .i32 5 1 2) with w := { vword0 .i32 5 1 2 with chain := true }, sp := sp }
    c.chain.latches[(0 : Fin 128).val]? = some ⟨.u 7, .u⟩ ∧ c.olderLoads = [] ∧ (special (vissue (lanesOf 1 2 3)) c.e 16).isSome = true ∧
      Ty.i64.wide = true ∧ Ty.w8.wide = false := by decide

/-! ### VectorIntegerResults -/

theorem issuesV (f : Strand → Strand) (op : Nat) (w : VWord) (h : (vissue f).vctx? op w = some (vctx0 f op w))
    (k : (vctx0 f op w).restarts = false ∧ (vctx0 f op w).chainOk = true ∧ (vctx0 f op w).namesOk = true ∧ (vctx0 f op w).activeMask ≠ 0 ∧
      regTagsOk (vissue f) (envOf f) = true ∧ (vctx0 f op w).outstanding = false ∧ (vctx0 f op w).st.returns.isEmpty = true ∧
      (vctx0 f op w).readsBad = false) : IssuesV (vissue f) op w (vctx0 f op w) :=
  ⟨h, k.1, k.2.1, k.2.2.1, k.2.2.2.1, k.2.2.2.2.1, k.2.2.2.2.2.1, fun _ => List.isEmpty_iff.mp k.2.2.2.2.2.2.1, k.2.2.2.2.2.2.2⟩
theorem witness_VectorIntegerResults_add : IssuesV (vissue (lanesOf 1 2 3)) 0x01 (vword0 .i32 5 1 2) (vctx0 (lanesOf 1 2 3) 0x01 (vword0 .i32 5 1 2)) :=
  issuesV _ _ _ rfl (by decide)
theorem witness_VectorIntegerResults_rest : ∀ op ∈ [0x00, 0x04, 0x05, 0x06, 0x08, 0x0C, 0x10, 0x12, 0x13, 0x15, 0x16],
    (vctx0 (lanesOf 1 2 3) op (vword0 .i32 5 1 2)).chainOk = true ∧ (vctx0 (lanesOf 1 2 3) op (vword0 .i32 5 1 2)).namesOk = true ∧
      (vctx0 (lanesOf 1 2 3) op (vword0 .i32 5 1 2)).activeMask ≠ 0 ∧ Ty.i32.bits = 32 := by decide
/-- Lane `l` of register 5 after a word. -/
def after5 (i : Instr) (f : Strand → Strand) (l : Lane) : Option W32 := match exec i (vissue f) with
  | .next t => (t.strands.get? sid0).map fun st => st.vlane 5 l
  | _ => none
theorem test_vadd_guarded : after5 (.vadd { vword0 .i32 5 1 2 with gm := 1 }) (lanesOf 0xFFFFFFFF 3 1) 0 = some 2 ∧
    after5 (.vadd { vword0 .i32 5 1 2 with gm := 1 }) (lanesOf 0xFFFFFFFF 3 1) 1 = some 0 := by decide
theorem test_vsub_saturates : after5 (.vsub { vword0 .i32 5 1 2 with mod := 4 }) (lanesOf 0x80000000 1 0) 7 = some 0x80000000 := by decide
theorem test_vmulh_signed : after5 (.vmulh (vword0 .i32 5 1 2)) (lanesOf 0xFFFFFFFF 2 0) 0 = some 0xFFFFFFFF := by decide
theorem test_vsra_unsigned_type : after5 (.vsra (vword0 .w32 5 1 2)) (lanesOf 0x80000000 33 0) 3 = some 0xC0000000 := by decide
theorem test_vidx_strides : after5 (.vidx { vword0 .i32 5 1 2 with a := .special 7, b := .imm, imm := 4 }) (lanesOf 0 0 0) 9 = some 36 := by decide

/-! ### VectorFloatResults -/

theorem witness_VectorFloatResults : IssuesV (vissue (lanesOf 0x3F800000 0x40000000 3)) 0x20 (vword0 .f32 5 1 2)
    (vctx0 (lanesOf 0x3F800000 0x40000000 3) 0x20 (vword0 .f32 5 1 2)) := issuesV _ _ _ rfl (by decide)
theorem witness_VectorFloatResults_numbers : decodeF .f32 0x3F800000 = .fin false (2 ^ 23) (2 ^ 23) ∧ decodeF .f32 0 = .fin false 0 (2 ^ 149) ∧
    (0x3F800000 : Nat) < 2 ^ 32 ∧ decodeF .f32 0xBF000000 = .fin true (2 ^ 23) (2 ^ 24) := by decide
theorem witness_VectorFloatResults_unary : ∀ op ∈ [0x23, 0x26, 0x27, 0x28, 0x29, 0x2A, 0x2B, 0x2C, 0x2D],
    (vctx0 (lanesOf 1 2 3) op (vword0 .f32 5 1 2)).chainOk = true ∧ (vctx0 (lanesOf 1 2 3) op (vword0 .f32 5 1 2)).namesOk = true ∧
      (vctx0 (lanesOf 1 2 3) op (vword0 .f32 5 1 2)).activeMask ≠ 0 := by decide
set_option maxRecDepth 8000 in
theorem test_vfadd : after5 (.vfadd (vword0 .f32 5 1 2)) (lanesOf 0x3F800000 0x40000000 0) 4 = some 0x40400000 := by decide
set_option maxRecDepth 8000 in
theorem test_vfmin_nan : after5 (.vfmin (vword0 .f32 5 1 2)) (lanesOf 0x7FC12345 0xC0000000 0) 4 = some 0xC0000000 := by decide
set_option maxRecDepth 8000 in
theorem test_vfdiv_zero : after5 (.vfdiv (vword0 .f32 5 1 2)) (lanesOf 0xBF800000 0 0) 4 = some 0xFF800000 := by decide

/-! ### RoundToFormat -/

theorem witness_RoundToFormat : FFmt.e4m3 ≠ .bf16 ∧ (464 : Nat) / 2 ≤ 448 ∧ decodeF .e4m3 0x7E = .fin false 448 1 ∧
    decodeF .bf16 0x3F80 ≠ .nan ∧ 0x3F80 / 2 ^ 7 % 2 ^ 8 ≠ 0 ∧ 0x3F80 < 2 ^ FFmt.bf16.width := by decide
theorem test_round_e4m3_tie : roundF .e4m3 (.fin false 464 1) .rn = 0x7E ∧ roundF .e4m3 (.fin false 465 1) .rn = 0x7F ∧
    roundF .e4m3 (.fin false 449 1) .rz = 0x7E := by decide

/-! ### VectorConversionResults -/

def cvtWord (dst src : Ty) (m : BitVec 11) : VWord := { vword0 dst 5 1 2 with mod := BitVec.ofNat 11 (32 * src.code) ||| m }
theorem witness_VectorConversionResults_cvt : IssuesV (vissue (lanesOf 0x3F800000 2 3)) 0x30 (cvtWord .i8 .f32 0)
    (vctx0 (lanesOf 0x3F800000 2 3) 0x30 (cvtWord .i8 .f32 0)) ∧ (cvtWord .i8 .f32 0).srcTy = some .f32 := ⟨issuesV _ _ _ rfl (by decide), by decide⟩
theorem witness_VectorConversionResults_rest :
    (∀ p ∈ [(0x31, cvtWord .f16 .f32 0), (0x31, cvtWord .e4m3 .f32 0), (0x31, cvtWord .nq4 .w32 0), (0x32, cvtWord .f32 .e4m3 0),
        (0x32, cvtWord .f32 .bf16 0), (0x32, cvtWord .w32 .nq4 0), (0x33, cvtWord .nq4 .f32 0), (0x34, cvtWord .f32 .nq4 0)],
      (vctx0 (lanesOf 1 2 3) p.1 p.2).chainOk = true ∧ (vctx0 (lanesOf 1 2 3) p.1 p.2).namesOk = true ∧
        (vctx0 (lanesOf 1 2 3) p.1 p.2).activeMask ≠ 0 ∧ (vctx0 (lanesOf 1 2 3) p.1 p.2).outstanding = false) ∧
      Ty.e4m3.bits = 8 ∧ Ty.f16.bits = 16 ∧ (cvtWord .w32 .nq4 0).srcTy = some .nq4 := by decide
set_option maxRecDepth 8000 in
theorem test_vqnq4_example : nq4Code (.fin false 175 1000) 204 (decodeF .f32 0x3F000000) = 12 ∧
    nq4Code (.fin true 16 100) 204 (decodeF .f32 0x3F000000) = 3 := by decide
set_option maxRecDepth 8000 in
theorem test_vdq_example : nq4Element 3 204 0x3F000000 = 0xBE21999A := by decide
set_option maxRecDepth 8000 in
theorem test_vcvt_narrow_wraps : after5 (.vcvt (cvtWord .i8 .f32 0)) (lanesOf 0x43960000 0 0) 2 = some 0x2C ∧
    after5 (.vcvt (cvtWord .i8 .f32 4)) (lanesOf 0x43960000 0 0) 2 = some 0x7F := by decide

/-! ### MasksVotesAndLanes -/

theorem witness_MasksVotesAndLanes_set : IssuesV (vissue (lanesOf 1 2 3)) 0x40 { vword0 .i32 2 1 2 with mod := 0x20 }
    (vctx0 (lanesOf 1 2 3) 0x40 { vword0 .i32 2 1 2 with mod := 0x20 }) ∧ condOf (0x20 / 2 ^ 4 % 2 ^ 5) = some .lt ∧
      Ty.f32.isFloat = true ∧ condOf 16 = some .feq := ⟨issuesV _ _ _ rfl (by decide), by decide, by decide, by decide⟩
theorem witness_MasksVotesAndLanes_votes : IssuesV (vissue (lanesOf 1 2 3)) 0x45 (vword0 .i32 2 1 0)
    (vctx0 (lanesOf 1 2 3) 0x45 (vword0 .i32 2 1 0)) ∧ (vctx0 (lanesOf 1 2 3) 0x45 (vword0 .i32 2 1 0)).active 0 = true ∧
      laneBit ((vctx0 (lanesOf 1 2 3) 0x45 (vword0 .i32 2 1 0)).mask 1) 0 = true ∧
      laneBit ((vctx0 (lanesOf 1 2 3) 0x45 (vword0 .i32 2 1 0)).mask 1) 2 = false := ⟨issuesV _ _ _ rfl (by decide), by decide, by decide, by decide⟩
theorem witness_MasksVotesAndLanes_lanes : ∀ op ∈ [0x50, 0x51, 0x52, 0x53, 0x54],
    (vctx0 (lanesOf 1 2 3) op (vword0 .i32 5 1 2)).chainOk = true ∧ (vctx0 (lanesOf 1 2 3) op (vword0 .i32 5 1 2)).namesOk = true ∧
      (vctx0 (lanesOf 1 2 3) op (vword0 .i32 5 1 2)).activeMask ≠ 0 := by decide
theorem test_vshfl_up : after5 (.vshfl { vword0 .i32 5 3 2 with mod := 0x20 }) (lanesOf 1 2 0) 1 = some 1 ∧
    after5 (.vshfl { vword0 .i32 5 3 2 with mod := 0x20 }) (lanesOf 1 2 0) 9 = some 7 := by decide
set_option maxRecDepth 8000 in
theorem test_vredx_add : after5 (.vredx (vword0 .i32 5 3 0)) (lanesOf 0 0 0) 3 = some 496 := by decide
set_option maxRecDepth 8000 in
theorem test_vscan_exclusive : after5 (.vscan { vword0 .i32 5 3 0 with mod := 0x200 }) (lanesOf 0 0 0) 4 = some 6 := by decide
theorem test_vsetm_other_bits : (match exec (.vsetm { vword0 .i32 1 3 2 with mod := 0x20, gm := 1 }) (vissue (lanesOf 0 2 0xFF)) with
    | .next t => (t.strands.get? sid0).map fun st => st.masks[(1 : Fin 16)]
    | _ => none) = some 3 := by decide

/-! ### VectorLoadResults -/

/-- Register pair 2, 3 holds an address in every lane, and each lane reads the same bytes. -/
def gather (a : W32) : Strand → Strand := fun st =>
  { blockOf st with v := [.u 0, .u 5, .u a, .u 0, .u 1, .u 0, .u 0, .u 0] }
def loadWord (ty : Ty) : VWord := { vword0 ty 6 2 4 with b := .imm, imm := 64 }
def vmem (bs : List Byte) (f : Strand → Strand) : State :=
  let b := vissue f
  { b with mem := { b.mem with l2 := [⟨0, 513, 1⟩], views := b.mem.views.set 0 (Mem.write [] 65664 bs) } }
theorem reachV (k : AccessKind) (op n : Nat) (ty : Ty) (h : 65664 % n = 0) :
    LanesReach (vmem [1, 2, 3, 4] (gather 65600)) (vctx0 (gather 65600) op (loadWord ty)) (fun _ => 65664) n k (fun _ => 65664) :=
  ⟨fun _ _ => by decide, fun _ _ => h, fun _ _ => ⟨.raw, by cases k <;> rfl⟩, fun _ _ => by decide, fun _ _ => h⟩
theorem atL2V (op n : Nat) (ty : Ty) (fresh : Bool) (h : forward [] 65664 n = .none) :
    LanesAtL2 (vmem [1, 2, 3, 4] (gather 65600)) (vctx0 (gather 65600) op (loadWord ty)) n fresh (fun _ => 65664) :=
  ⟨fun _ _ => by rfl, fun _ _ => h, fun _ _ => by rfl, .inr fun _ _ => by rfl⟩
theorem witness_VectorLoadResults_global : IssuesV (vmem [1, 2, 3, 4] (gather 65600)) 0x60 (loadWord .i16) (vctx0 (gather 65600) 0x60 (loadWord .i16)) ∧
    LanesReach (vmem [1, 2, 3, 4] (gather 65600)) (vctx0 (gather 65600) 0x60 (loadWord .i16)) (fun _ => 65664) 2 .read (fun _ => 65664) ∧
    LanesAtL2 (vmem [1, 2, 3, 4] (gather 65600)) (vctx0 (gather 65600) 0x60 (loadWord .i16)) 2 false (fun _ => 65664) ∧
    (((vctx0 (gather 65600) 0x60 (loadWord .i16)).rdA (vmem [1, 2, 3, 4] (gather 65600)) 3 + ((64 : W32).signExtend 64).toNat) % 2 ^ 64 = 65664) :=
  ⟨⟨rfl, by decide, by decide, by decide, by decide, by decide, by decide, fun _ => rfl, by decide⟩, reachV _ _ _ _ (by decide), atL2V _ _ _ _ (by decide), by decide⟩
theorem witness_VectorLoadResults_raw : FormatDesc.raw.valid = true ∧ FormatDesc.raw.format = 0 ∧
    (parseDesc ([0x10] ++ List.replicate 31 0)).valid = true ∧ (parseDesc ([9, 6] ++ List.replicate 18 0 ++ natLE 4 272 ++ List.replicate 8 0)).valid = true ∧
    (parseDesc ([4] ++ List.replicate 31 0)).valid = true := by decide
theorem witness_VectorLoadResults_scratch : LanesScratch (vissue (gather 0)) (vctx0 (gather 0) 0x62 (loadWord .f32)) (fun _ => 64) 4 true :=
  ⟨fun _ _ => by decide, fun _ _ => by decide, fun _ _ => by decide, fun _ _ _ => by decide⟩
theorem witness_VectorLoadResults_tile :
    let e : Env := { envOf (gather 0) with l := { launch0 with desc := { desc0 with pword := 0x00101040 } } }
    1 < e.accTiles ∧ e.wg.badTiles = [] ∧ e.wg.matrix.cmds = [] := by decide
theorem witness_VectorLoadResults_far :
    let f : Strand → Strand := fun st => { gather 65600 st with v := [.u 0, .u 5, .u 0, .u 0x2000000, .u 1, .u 0, .u 0, .u 0] }
    let c := vctx0 f 0x60 (loadWord .i16)
    c.active 0 = true ∧ 2 ^ 57 ≤ (c.rdA (vissue f) 0 + ((64 : W32).signExtend 64).toNat) % 2 ^ 64 := by decide
def return0 : Return := { id := 3, regs := [(6, Vector.replicate 32 9)], mask := 0xF, first := 0, checks := [], before := check0, queued := false }
theorem witness_VectorLoadResults_return :
    let f : Strand → Strand := fun st => { gather 0 st with returns := [return0] }
    (vissue f).env? sid0 = some (envOf f) ∧ (envOf f).wg.parked = none ∧ (envOf f).st.returns.find? (fun x => x.id = 3) = some return0 ∧
      (return0.regs.map Prod.fst).Nodup := ⟨rfl, by decide, by decide, by decide⟩
theorem test_memory_return : (match exec (.memoryReturn sid0 3 true) (vissue fun st => { gather 0 st with returns := [return0] }) with
    | .next t => (t.strands.get? sid0).map fun st => (st.vlane 6 3, st.vlane 6 4)
    | _ => none) = some (9, 0) := by decide
set_option maxRecDepth 8000 in
theorem test_vld_posts_return : (match exec (.vld { loadWord .i8 with gm := 1 }) (vmem [0x80] fun st => { gather 65600 st with masks := st.masks.set 1 1 }) with
    | .next t => (t.strands.get? sid0).map fun st => st.returns.map fun r => (r.mask, (r.regs.map fun p => (p.1, p.2[(0 : Lane)])))
    | _ => none) = some [(1, [(6, 0xFFFFFF80)])] := by decide

/-! ### SamplerResults -/

/-- The image of R232's example at 65792, its header at 65664, on a page of FP32 elements. -/
def sampled (x : W32) : State × VCtx :=
  let hdr := natLE 8 65792 ++ natLE 4 2 ++ natLE 4 2 ++ natLE 4 8 ++ [1, 0, 0, 0] ++ natLE 8 0
  let img := natLE 4 0x3F800000 ++ natLE 4 0x40400000 ++ natLE 4 0x40A00000 ++ natLE 4 0x41100000
  let f : Strand → Strand := fun st => { gather 65664 st with v := [.u 0, .u x, .u 65664, .u 0, .u 0, .u 0, .u 0, .u 0], masks := st.masks.set 1 1 }
  let fm : FormatDesc := { FormatDesc.raw with format := 1, region := 65536 }
  let w := { vword0 .f32 4 2 1 with c := .reg 1, mod := 0x400, gm := 1 }
  let b := vissue f
  ({ b with xlat := { b.xlat with tlb := [{ page0 1 with fmt := fm }] },
            mem := { b.mem with l2 := [⟨0, 513, 1⟩, ⟨0, 514, 1⟩],
                                  views := b.mem.views.set 0 (Mem.write (Mem.write [] 65664 hdr) 65792 img) } }, vctx0 f 0x6A w)
set_option maxRecDepth 16000 in
theorem witness_SamplerResults : (sampled 0x3F800000).1.vctx? 0x6A (sampled 0x3F800000).2.w = some (sampled 0x3F800000).2 ∧
    (sampled 0x3F800000).2.namesOk = true ∧ (sampled 0x3F800000).2.st.stores = [] ∧ (sampled 0x3F800000).1.mem.stale = [] ∧
    (match (sampled 0x3F800000).2.sampleLane 65664 0x3F800000 0x3F800000 true (sampled 0x3F800000).1 with
      | (_, .ok l) => l.1 | _ => []) = [0x40900000, 0, 0, 0x3F800000] := ⟨rfl, by decide, rfl, rfl, by decide⟩
theorem witness_SamplerResults_header : parseSample 0 = none ∧ (parseSample (2 ^ 64 + 2 ^ 96 + 2 ^ 168)).map SampleHdr.mode = some 1 ∧
    (floorF (.fin true 1 4) = .at (-1)) := ⟨rfl, rfl, rfl⟩

/-! ### VectorStoreResults -/

theorem witness_VectorStoreResults_global : IssuesV (vmem [1, 2, 3, 4] (gather 65600)) 0x61 (loadWord .i32) (vctx0 (gather 65600) 0x61 (loadWord .i32)) ∧
    LanesReach (vmem [1, 2, 3, 4] (gather 65600)) (vctx0 (gather 65600) 0x61 (loadWord .i32)) (fun _ => 65664) 4 .write (fun _ => 65664) ∧
    (vctx0 (gather 65600) 0x61 (loadWord .i32)).active 0 = true ∧ laneBit (gather 65600 st0).helpers 0 = false :=
  ⟨⟨rfl, by decide, by decide, by decide, by decide, by decide, by decide, fun _ => rfl, by decide⟩, reachV _ _ _ _ (by decide), by decide, by decide⟩
theorem witness_VectorStoreResults_release :
    let s := vmem [1, 2, 3, 4] (gather 65600)
    scopeOf ((0x80 : BitVec 11).toNat / 2 ^ 5 % 2 ^ 3) = some .dev ∧ (VCtx.vrelease s sid0 (some .dev)).2 = true := by decide
theorem witness_VectorStoreResults_scratch : LanesScratch (vissue (gather 0)) (vctx0 (gather 0) 0x63 (loadWord .f32)) (fun _ => 64) 4 false ∧
    (vissue (gather 0)).memWf = true ∧ (vissue (gather 0)).wgs.get? sid0.wg = some wg0 :=
  ⟨⟨fun _ _ => by decide, fun _ _ => by decide, fun _ _ => by decide, fun h => by cases h⟩, by decide, rfl⟩
theorem witness_VectorStoreResults_tile :
    let g := vissue (gather 0)
    let e : Env := { envOf (gather 0) with l := { launch0 with desc := { desc0 with pword := 0x00101040 } } }
    1 < e.accTiles ∧ tileTagOk { g with granules := [(core0, Vector.replicate 48 (.held 1 1))] } { e with wg := { wg0 with granules := List.finRange 8 |>.map (Fin.castLE (by decide)) } } 1 = true := by
  decide
set_option maxRecDepth 8000 in
theorem test_vsts_later_lane : (match exec (.vsts { vword0 .w32 0 2 3 with imm := 64 }) (vissue fun st =>
      { gather 0 st with v := [.u 0, .u 0, .u 0, .a 0 1, .u 0, .u 0, .u 0, .u 0] }) with
    | .next t => (t.wgs.get? 1).map fun g => g.scratch.readNat 64 4
    | _ => none) = some 31 := by decide
set_option maxRecDepth 8000 in
theorem test_vst_entry : (match exec (.vst { vword0 .w8 0 2 1 with imm := 64, gm := 1 }) (vmem [] fun st => { gather 65600 st with masks := st.masks.set 1 2 }) with
    | .next t => (t.strands.get? sid0).map fun st => st.stores.map SBEntry.lanes
    | _ => none) = some [[⟨1, 65664, 65664, [5]⟩]] := by decide

/-! ### VectorAtomicResults -/

def atomWord (mod : BitVec 11) : VWord := { vword0 .w32 6 2 1 with imm := 64, mod := mod }
theorem witness_VectorAtomicResults : IssuesV (vmem [1, 2, 3, 4] (gather 65600)) 0x65 (atomWord 0) (vctx0 (gather 65600) 0x65 (atomWord 0)) ∧
    (VCtx.settle (vmem [1, 2, 3, 4] (gather 65600)) sid0 (scopeOf 0)).2 = true ∧
    (VCtx.settle (vmem [1, 2, 3, 4] (gather 65600)) sid0 (scopeOf 0)).1.mem.copies = [] ∧
    LanesReach (vmem [1, 2, 3, 4] (gather 65600)) (vctx0 (gather 65600) 0x65 (atomWord 0)) (fun _ => 65664) 4 .rmw (fun _ => 65664) ∧
    (vmem [1, 2, 3, 4] (gather 65600)).memWf = true :=
  ⟨⟨rfl, by decide, by decide, by decide, by decide, by decide, by decide, fun _ => rfl, by decide⟩, by decide, by decide,
    ⟨fun _ _ => by decide, fun _ _ => by decide, fun _ _ => ⟨.raw, rfl⟩, fun _ _ => by decide, fun _ _ => by decide⟩, by decide⟩
theorem witness_VectorAtomicResults_apart : ∀ l l' : Lane, laneBit (1 : W32) l = true → laneBit (1 : W32) l' = true → l ≠ l' → (0 : Nat) ≠ 0 := by decide
set_option maxRecDepth 16000 in
theorem test_vatom_ascending : (match exec (.vatom { atomWord 0 with gm := 1 }) (vmem [] fun st => { gather 65600 st with masks := st.masks.set 1 6 }) with
    | .next t => (t.mem.home.readNat 65664 4, (t.strands.get? sid0).map fun st => st.returns.map fun r => r.regs.map fun p => (p.2[(1 : Lane)], p.2[(2 : Lane)]))
    | _ => (0, none)) = (10, some [[(0, 5)]]) := by decide
set_option maxRecDepth 16000 in
theorem test_vred_copy : (match exec (.vred { atomWord 0 with gm := 1, dst := 0 }) (vmem [] fun st => { gather 65600 st with masks := st.masks.set 1 6 }) with
    | .next t => (t.mem.home.readNat 65664 4, t.mem.copies.map fun k => (k.line, k.words))
    | _ => (9, [])) = (0, [(513, [(0, 10)])]) := by decide

/-! ### PicotInvocations -/

/-- A routine that adds operand o0 to word 0 of the line and returns the old word. -/
def adder : Picot := picotOf [BitVec.ofNat 32 (0x03 * 2 ^ 26 + 48 * 2 ^ 20), BitVec.ofNat 32 (0x04 * 2 ^ 26 + 32 * 2 ^ 8), BitVec.ofNat 32 (0x3F * 2 ^ 26)]
def picots (f : Strand → Strand) (on : Bool) : State :=
  let b := vmem [] f
  { b with worlds := [(0, World.empty), (1, { World.empty with valid := true, picots := if on then [(5, adder)] else [] })] }
def picotWord : VWord := { vword0 .i32 6 2 1 with imm := 5, gm := 1 }
def twoLanes (p : Option PicotWord) : Strand → Strand := fun st => { gather 65664 st with masks := st.masks.set 1 3, picot := p }
def running0 (todo : List Invocation) : PicotWord := { slot := 0, word := picotWord, routine := adder, todo := todo, results := [], active := 3 }
theorem witness_PicotInvocations : IssuesV (picots (twoLanes none) true) 0x67 picotWord (vctx0 (twoLanes none) 0x67 picotWord) ∧
    ((picots (twoLanes none) true).worlds.get? 1).bind (fun x => x.picots.get? 5) = some adder ∧
    ((picots (twoLanes none) false).worlds.get? 1).bind (fun x => x.picots.get? 5) = none ∧
    (vctx0 (twoLanes none) 0x67 picotWord).picotNamesOk (picots (twoLanes none) true) = true ∧
    LanesReach (picots (twoLanes none) true) (vctx0 (twoLanes none) 0x67 picotWord) (fun _ => 65664) 1 .rmw (fun _ => 65664) ∧
    (VCtx.settle (picots (twoLanes none) true) sid0 (scopeOf 0)).2 = true ∧ 8 < 7 + adder.nr + 1 ∧ adder.ni = 1 :=
  ⟨⟨rfl, by decide, by decide, by decide, by decide, by decide, by decide, fun _ => rfl, by decide⟩, rfl, rfl, by decide,
    ⟨fun _ _ => by decide, fun _ _ => by decide, fun _ _ => ⟨.raw, rfl⟩, fun _ _ => by decide, fun _ _ => by decide⟩, by decide, by decide, by decide⟩
theorem witness_PicotInvocations_run :
    let f := twoLanes (some (running0 [⟨0, 513, [7]⟩, ⟨1, 513, [7]⟩]))
    (picots f true).memWf = true ∧ (picots f true).env? sid0 = some (envOf f) ∧ (envOf f).st.picot = some (running0 [⟨0, 513, [7]⟩, ⟨1, 513, [7]⟩]) ∧
      (envOf f).st.laneQ = [⟨65536, Vector.replicate 8 0⟩] ∧ (envOf f).st.slots[(0 : Fin 2)] = some (Split.whole (BitVec.allOnes 32) 0) :=
  ⟨by decide, rfl, rfl, rfl, rfl⟩
theorem witness_PicotInvocations_words : (List.replicate 56 (0 : W32)).length = 56 ∧ (55 : Nat) < 56 ∧ (31 : Nat) < 32 := by decide
set_option maxRecDepth 16000 in
theorem test_picot_invocation : (match exec (.picotInvocation sid0) (picots (twoLanes (some (running0 [⟨1, 513, [7]⟩]))) true) with
    | .next t => (t.mem.home.readNat 65664 4, (t.strands.get? sid0).map fun st => (st.picot, st.vlane 6 1))
    | _ => (9, none)) = (7, some (none, 0)) := by decide

/-! ### VectorControlResults -/

def ctrlWord (dst : Fin 128) (imm : W32) : VWord := { vword0 .i32 dst 0 0 with a := .imm, b := .imm, imm := imm }
def split0 : Split := Split.whole (BitVec.allOnes 32) 0
def splitRun (f : Split → Split) (g : Strand → Strand) : Strand → Strand := fun st => g { lanesOf 1 2 0xF st with slots := #v[some (f split0), none] }
def vctxOf (f : Split → Split) (g : Strand → Strand) (op : Nat) (w : VWord) : VCtx :=
  ⟨envOf (splitRun f g), 0, f split0, ⟨65536, Vector.replicate 8 0⟩, op, w⟩
theorem witness_VectorControlResults_branch :
    (vissue (splitRun id id)).vctx? 0x80 (ctrlWord 1 0x30002) = some (vctxOf id id 0x80 (ctrlWord 1 0x30002)) ∧
      (vctxOf id id 0x80 (ctrlWord 1 0x30002)).restarts = false ∧ (vctxOf id id 0x80 (ctrlWord 1 0x30002)).chainOk = true ∧ (vctxOf id id 0x80 (ctrlWord 1 0x30002)).namesOk = true ∧
      (vctxOf id id 0x80 (ctrlWord 1 0x30002)).activeMask ≠ 0 ∧ (∀ l, laneBit 0xF l = ((vctxOf id id 0x80 (ctrlWord 1 0x30002)).active l &&
        xor (laneBit ((vctxOf id id 0x80 (ctrlWord 1 0x30002)).mask 1) l) false)) ∧ (0xF : W32) ≠ (vctxOf id id 0x80 (ctrlWord 1 0x30002)).m0 :=
  ⟨rfl, by decide, by decide, by decide, by decide, by decide, by decide⟩
theorem witness_VectorControlResults_third :
    let g : Strand → Strand := fun st => { st with slots := st.slots.set 1 (some split0) }
    (envOf (splitRun id g)).st.slots[(1 : Fin 2)] = some split0 ∧ privateBase (envOf (splitRun id g)) < 2 ^ 57 ∧ isRemote 131072 = false ∧
      lookup (vissue (splitRun id g)) (.quadrant core0 0) 0 1 true [] (privateBase (envOf (splitRun id g))) .write = .ok 131072 .raw ∧
      (vissue (splitRun id g)).memWf = true := ⟨rfl, by decide, by decide, rfl, by decide⟩
def sib : Split := { split0 with lanes := 0xF0, pos := 3, join := 3, div := some 8 }
theorem witness_VectorControlResults_join :
    let f : Split → Split := fun sp => { sp with pos := 3, join := 3, div := some 8 }
    let g : Strand → Strand := fun st => { st with waiting := [sib], joins := [⟨8, 0xFFFF, none, 0⟩] }
    (vissue (splitRun f g)).vctx? 0x81 (ctrlWord 0 0) = some (vctxOf f g 0x81 (ctrlWord 0 0)) ∧ (vctxOf f g 0x81 (ctrlWord 0 0)).chainOk = true ∧
      (vctxOf f g 0x81 (ctrlWord 0 0)).namesOk = true ∧ (f split0).pos = (f split0).join ∧ (sib ∈ (envOf (splitRun f g)).st.waiting) ∧
      (envOf (splitRun f g)).st.waiting.find? (fun y => y.div == some 8 && y.pos == 3 && !y.atEnd) = some sib ∧
      (envOf (splitRun f id)).st.waiting.all (fun y => !(y.div == some 8 && y.pos == 3)) = true :=
  ⟨rfl, by decide, by decide, by decide, by decide, by decide, by decide⟩
theorem witness_VectorControlResults_end :
    (vissue (splitRun id id)).vctx? 0x82 (ctrlWord 0 0) = some (vctxOf id id 0x82 (ctrlWord 0 0)) ∧ (vctxOf id id 0x82 (ctrlWord 0 0)).namesOk = true ∧
      (envOf (splitRun id id)).st.started = true ∧ (envOf (splitRun id id)).st.laneQ = [⟨65536, Vector.replicate 8 0⟩] ∧
      (envOf (splitRun id id)).st.returns = [] := ⟨rfl, by decide, rfl, rfl, rfl⟩
theorem witness_VectorControlResults_rest : (vctxOf id id 0x83 (ctrlWord 0 0)).activeMask ≠ 0 ∧ (vctxOf id id 0x83 (ctrlWord 0 0)).namesOk = true ∧
    (vctxOf id id 0x84 (ctrlWord 0 0)).namesOk = true ∧ (envOf (splitRun id id)).st.spilled = [] ∧
    IssuesV (vissue (lanesOf 1 2 3)) 0x85 (vword0 .w32 5 3 0) (vctx0 (lanesOf 1 2 3) 0x85 (vword0 .w32 5 3 0)) :=
  ⟨by decide, by decide, by decide, rfl, issuesV _ _ _ rfl (by decide)⟩
theorem witness_VectorControlResults_block :
    let g : Strand → Strand := fun st => { st with slots := Vector.replicate 2 none, waiting := [{ split0 with atEnd := true }] }
    (vissue (splitRun id g)).env? sid0 = some (envOf (splitRun id g)) ∧ (envOf (splitRun id g)).wg.parked = none ∧
      (envOf (splitRun id g)).st.vectorStop = none ∧ (envOf (splitRun id g)).st.waiting ≠ [] := ⟨rfl, rfl, rfl, by decide⟩
theorem witness_VectorControlResults_rotate :
    let f : Split → Split := fun sp => { sp with run := 16 }
    let g : Strand → Strand := fun st => { st with spilled := [⟨0, none⟩] }
    vectorReady (vissue (splitRun f g)) (envOf (splitRun f g)) 0 = true ∧ (envOf (splitRun f g)).st.slots[(0 : Fin 2)] = some (f split0) ∧
      lookup (vissue (splitRun f g)) (.quadrant core0 0) 0 1 true [] (privateBase (envOf (splitRun f g))) .read = .ok 131072 .raw := ⟨by decide, rfl, rfl⟩
theorem test_vbr_divides : (match exec (.vbr (ctrlWord 1 0x30002)) (vissue (splitRun id id)) with
    | .next t => (t.strands.get? sid0).map fun st => (st.slots[(0 : Fin 2)].map fun x => (x.lanes, x.pos, x.join), st.slots[(1 : Fin 2)].map fun x => (x.lanes, x.pos))
    | _ => none) = some (some (0xF, 2, 3), some (0xFFFFFFF0, 1)) := by decide
theorem test_vexit : (match exec (.vexit { ctrlWord 0 0 with gm := 1 }) (vissue (splitRun id id)) with
    | .next t => (t.strands.get? sid0).map fun st => st.slots[(0 : Fin 2)].map Split.exit
    | _ => none) = some (some 0xF) := by decide
theorem test_vtag_affine : (match exec (.vtag (vword0 .w32 5 3 0)) (vissue (lanesOf 1 2 3)) with
    | .next t => (t.strands.get? sid0).map fun st => st.vlane 5 9
    | _ => none) = some 1 := by decide
theorem test_vend_frees_entry : (match exec (.vend (ctrlWord 0 0)) (vissue (splitRun (fun sp => { sp with exit := 3 }) id)) with
    | .next t => (t.strands.get? sid0).map fun st => (st.laneQ.length, st.base)
    | _ => none) = some (0, 0xFFFFFFFC) := by decide

/-! ### FragmentWords -/

/-- A strand of a fragment launch: lane 0 covers pixel (4, 2); registers 2 to 5 are its channels, register 1 its target. -/
def fragLanes0 : FragLanes :=
  { node := 0, frame := 2, merge := 1, order := 5, px := Vector.replicate 32 4, py := Vector.replicate 32 2, z := Vector.replicate 32 0x3F000000,
    covered := 1 }
def fragment0 (target : W32) (on : Bool) : Strand → Strand := fun st =>
  let v : List VReg := [.u 0, .u target, .u 0x3F800000, .u 0, .u 0, .u 0x3F800000, .u 0, .u 0]
  { lanesOf target 0x3F800000 1 st with v := v, frag := if on then some fragLanes0 else none }
def fragWord (a b : Fin 128) (c : Operand) : VWord := { vword0 .f32 6 a b with c := c, gm := 1 }
theorem witness_FragmentWords_interp : let f := lanesOf 64 0x3F800000 3
    IssuesV (vissue f) 0x90 (fragWord 1 2 (.reg 2)) (vctx0 f 0x90 (fragWord 1 2 (.reg 2))) ∧
      LanesScratch (vissue f) (vctx0 f 0x90 (fragWord 1 2 (.reg 2))) (fun _ => 72) 4 true :=
  ⟨issuesV _ _ _ rfl (by decide), ⟨fun _ _ => by decide, fun _ _ => by decide, fun _ _ => by decide, fun _ _ _ => by decide⟩⟩
theorem witness_FragmentWords_deriv : let f := lanesOf 64 0x3F800000 3
    IssuesV (vissue f) 0x91 (fragWord 1 0 .imm) (vctx0 f 0x91 (fragWord 1 0 .imm)) := issuesV _ _ _ rfl (by decide)
theorem witness_FragmentWords_out : let w := { fragWord 1 2 .imm with dst := 0 }
    IssuesV (vissue (fragment0 3 true)) 0x92 w (vctx0 (fragment0 3 true) 0x92 w) ∧ (vctx0 (fragment0 3 true) 0x92 w).channelsOk (vissue (fragment0 3 true)) = true ∧
      (vctx0 (fragment0 3 true) 0x92 w).activeMask = BitVec.ofNat 32 (2 ^ (0 : Lane).val) ∧ (fragment0 3 true st0).frag = some fragLanes0 ∧
      (vissue (fragment0 3 true)).contexts.get? 1 = some ctx0 ∧ (vctx0 (fragment0 3 true) 0x92 w).rdA (vissue (fragment0 3 true)) 0 = 3 ∧
      (vctx0 (fragment0 9 true) 0x92 w).rdA (vissue (fragment0 9 true)) 0 = 9 :=
  ⟨issuesV _ _ _ rfl (by decide), by decide, by decide, rfl, rfl, by decide, by decide⟩
theorem witness_FragmentWords_outside : IssuesV (vissue (fragment0 3 false)) 0x93 (fragWord 0 0 .imm) (vctx0 (fragment0 3 false) 0x93 (fragWord 0 0 .imm)) ∧
    (fragment0 3 false st0).frag = none ∧ (8 : Nat) < (6 : Fin 128).val + 4 := ⟨issuesV _ _ _ rfl (by decide), rfl, by decide⟩
theorem witness_FragmentWords_rec : let f := fun st => { lanesOf 252 7 3 st with v := [.u 0, .u 252, .u 7, .u 0, .u 0, .u 0, .u 0, .u 0] }
    let w := { vword0 .w32 0 1 2 with c := .reg 3, gm := 1 }
    IssuesV (vissue f) 0x94 w (vctx0 f 0x94 w) ∧ (vctx0 f 0x94 w).rdA (vissue f) 0 = 252 ∧ (vissue f).memWf = true ∧
      LanesScratch (vissue f) (vctx0 f 0x94 w) (fun l => (vctx0 f 0x94 w).rdC (vissue f) l + 256 * l.val + (vctx0 f 0x94 w).rdA (vissue f) l) 4 false :=
  ⟨issuesV _ _ _ rfl (by decide), by decide, by decide, by decide, by decide, by decide, fun h => by cases h⟩
theorem witness_FragmentWords_emit : let f := fun st => { lanesOf 0 1 3 st with v := [.u 0, .u 0, .u 1, .u 0, .u 0, .u 0, .u 0, .u 0] }
    let w := { vword0 .w32 6 1 2 with c := .reg 3, gm := 1 }
    IssuesV (vissue f) 0x95 w (vctx0 f 0x95 w) ∧ (0 + 256 * 1) % 2 ^ 32 + 16 + 240 ≤ (envOf f).scratchBytes ∧
      scratchTagOk (vissue f) (envOf f) 272 = true ∧ scratchTagOk (vissue f) (envOf f) 511 = true ∧ (vissue f).launches.get? 1 = some launch0 ∧
      launch0.graphMade = false := ⟨issuesV _ _ _ rfl (by decide), by decide, by decide, by decide, rfl, rfl⟩
theorem test_vemit_outside : (match exec (.vemit { vword0 .w32 6 1 2 with c := .reg 3, gm := 1 })
      (vissue fun st => { lanesOf 0 1 3 st with v := [.u 0, .u 0, .u 1, .u 0, .u 0, .u 0, .u 0, .u 0] }) with
    | .next t => ((t.strands.get? sid0).map fun st => (st.vlane 6 1, st.vlane 6 2), (t.launches.get? 1).map Launch.errors)
    | _ => (none, none)) = (some (1, 0), some 2) := by decide
theorem test_vderiv_fine : (match exec (.vderiv { fragWord 1 0 .imm with mod := 0x40 })
      (vissue fun st => { lanesOf 0 0 0xF st with
        v := [.u 0, .g ((Vector.replicate 32 0).set 3 0x40400000), .u 0, .u 0, .u 0, .u 0, .u 0, .u 0] }) with
    | .next t => (t.strands.get? sid0).map fun st => (st.vlane 6 1, st.vlane 6 2)
    | _ => none) = some (0, 0x40400000) := by decide
set_option maxRecDepth 16000 in
theorem test_vrec_low_offset : (match exec (.vrec { vword0 .w32 0 1 2 with c := .reg 3, gm := 1 })
      (vissue fun st => { lanesOf 12 7 1 st with v := [.u 0, .u 12, .u 7, .u 0, .u 0, .u 0, .u 0, .u 0] }) with
    | .next t => t.worlds.get? 1 |>.map fun w => (w.records ++ w.unwritten).map FaultRec.code
    | _ => none) = some [.access] := by decide
/-- Page tables at 1 MiB for world 1: the first GiB maps to itself, with every permission. -/
def tables : Mem :=
  Mem.write (Mem.write (Mem.write [] 1048576 (natLE 8 (1048576 + 4096 + 1))) (1048576 + 4096) (natLE 8 (1048576 + 8192 + 1))) (1048576 + 8192)
    (natLE 8 0x3F)
def mapped (s : State) : State :=
  { s with worlds := [(0, World.empty), (1, { World.empty with valid := true, root := 1048576, queues := [(0, ⟨0, 1, 1, []⟩)] })],
           mem := { s.mem with home := tables } }
/-- Fragments of node 0 wait for node 1, whose merge state at 65536 is `bs`. -/
def frag0 (order : Nat) : Frag :=
  { node := 0, merge := 1, frame := 0, order := order, launch := 1, px := 4, py := 2, target := 0, z := 0x3F000000, s := [0x3F800000, 0, 0, 0x3F800000] }
def node0 (launch : Nat) : NodeDesc :=
  { kind := 2, trigger := 255, reserved0 := 0, deadline := 0, launch := launch, state := 0, size := 0, reserved1 := 0 }
def merging (fs : List Frag) (bs : List Byte) : State × Context :=
  let c := { ctx0 with img := { img0 with nodes := [node0 0, node0 65536] }, frags := fs, nodes := [(1, ⟨none, [], none, [2 ^ 41, 2 ^ 41], false⟩)] }
  let b := mapped { base id with contexts := [(1, c)] }
  ({ b with mem := { b.mem with views := b.mem.views.set 0 (Mem.write [] 65536 bs) } }, c)
/-- A merge state whose target 0 lies where no address reaches, and of whose page a RESOLVE END gave up the next two accesses. -/
def mergeBytes (on : Nat) : List Byte :=
  let off : List Byte := List.replicate 12 0 ++ [0x10] ++ List.replicate 19 0
  natLE 8 (2 ^ 57) ++ natLE 4 64 ++ [0x10, 0, 15, BitVec.ofNat 8 on] ++ List.replicate 16 0 ++ off ++ off ++ off ++ off ++ off ++ off ++ off
    ++ List.replicate 64 0
set_option maxRecDepth 16000 in
theorem witness_FragmentWords_merge :
    let x := merging [frag0 5, frag0 5] (mergeBytes 1)
    x.1.contexts.get? 1 = some x.2 ∧ x.2.frags[0]? = some (frag0 5) ∧ mayMerge x.1 1 x.2 0 (frag0 5) = true ∧ mayMerge x.1 1 x.2 1 (frag0 5) = false ∧
      x.2.frags[2]? = none ∧ x.2.img.nodes[1]? = some (node0 65536) ∧
      (match gread x.1 1 1 1 65536 320 with
        | .ok (q, bs) => decide (bs = mergeBytes 1) && mergeOk bs && (parseTarget bs 0).enable && !(parseDepth bs).enable &&
          (match gread q 1 1 1 (2 ^ 57 + 2 * 64 + 16) 4 with
            | .ok (q, old) => (gwrite q 1 1 1 (2 ^ 57 + 2 * 64 + 16) (natLE 4 (blendPixel (parseTarget bs 0) (leNat old) (frag0 5).s))).isOk
            | .error _ => false)
        | .error _ => false) = true ∧ (parseTarget (mergeBytes 0) 0).enable = false :=
  ⟨rfl, rfl, by decide, by decide, rfl, rfl, by decide, by decide⟩
theorem witness_FragmentWords_depth :
    depthPasses 1 0x3F000000 0x3F800000 = true ∧ depthPasses 4 0x3F000000 0x3F800000 = false ∧ blendChannel 4 3 [1, 2, 3, 4] 5 = 5 := by decide
/-- Target 0 on a page the world maps: the one fragment leaves and its pixel is written (R135's replace, RGBA8). -/
theorem test_merge_pixel : mergeEncode 0x10 0 0 0x3F800000 = 255 ∧ blendPixel (parseTarget (mergeBytes 1) 0) 0 (frag0 5).s = 0xFF0000FF := by decide

/-! ### LevelAndMemoryEvents -/

/-- A launch of one workgroup that is still to be placed on core0, where world 1 has a partition entry. -/
def placing (deficit : Int) (power : PowerState) : State × Launch :=
  let l := { launch0 with placed := 0, firstPlaced := none }
  let b := base id
  let part : PartEntry := { valid := true, world := 1, weight := 3, slots := 8, granules := 20, raw := 0 }
  ({ b with
      strands := [], wgs := [], launches := [(1, l)], insts := [(⟨.launch, 1⟩, Inst.fresh none 1 0)], granules := []
      partRegs := [(core0, (Vector.replicate 8 PartEntry.empty).set 0 part)], power := { b.power with state := power }
      deficits := [(drrKey core0 1 (priorityOf b l), deficit)] }, l)
set_option maxRecDepth 16000 in
theorem witness_LevelAndMemoryEvents_place :
    let x := placing 5 .w0
    x.1.launches.get? 1 = some x.2 ∧ mayStartLaunch x.1 1 x.2 = true ∧ unitSize x.1 x.2 = 1 ∧ levelLets x.1 x.2 core0 = true ∧
      turnLets x.1 x.2 core0 = true ∧ canPlace x.1 1 x.2.desc core0 = true ∧ 0 < x.1.deficits.getD (drrKey core0 1 (priorityOf x.1 x.2)) 0 ∧
      x.2.desc.strands ≤ 32 := by decide
set_option maxRecDepth 16000 in
theorem witness_LevelAndMemoryEvents_round :
    let x := placing 0 .w0
    roundDue x.1 core0 (priorityOf x.1 x.2) = true ∧ x.1.deficits.getD (drrKey core0 1 (priorityOf x.1 x.2)) 0 ≤ 0 ∧
      (placing 0 .w1).1.power.state ≠ .w0 ∧ mayStartLaunch (base id) 1 launch0 = false := by decide
set_option maxRecDepth 16000 in
theorem test_placement : (match exec (.workgroupPlacement 1 [core0]) (placing 5 .w0).1 with
    | .next t => (t.wgs.map Prod.fst, t.strands.map fun p => p.2.pc, t.launches.map fun p => p.2.placed)
    | _ => ([], [], [])) = ([10], [65536], [1]) := by decide
/-- The workgroup's one strand has executed SEXIT. -/
def ending (state : InstState) : State :=
  let b := base fun st => { st with ended := .exited, counted := true }
  { b with insts := [(unitOf 1, { Inst.fresh (some ⟨.launch, 1⟩) 1 0 with state := state }), (⟨.launch, 1⟩, Inst.fresh none 1 0)] }
theorem witness_LevelAndMemoryEvents_done :
    (ending .running).insts.get? (unitOf 1) = some (Inst.fresh (some ⟨.launch, 1⟩) 1 0) ∧
      instDone (ending .running) (unitOf 1) (Inst.fresh (some ⟨.launch, 1⟩) 1 0) = true ∧ (ending .running).wgs.get? 1 = some wg0 ∧
      instDone (base id) (unitOf 1) (Inst.fresh (some ⟨.launch, 1⟩) 1 0) = false := ⟨rfl, by decide, rfl, by decide⟩
theorem witness_LevelAndMemoryEvents_launch :
    let i : InstId := ⟨.launch, 1⟩
    let s := { ending .done with launches := [(1, { launch0 with queue := some (0, 1) })] }
    instDone s i (Inst.fresh none 1 0) = true ∧ ((s.worlds.get? 1).bind fun w => w.queues.get? 0) = some ⟨0, 1, 1, []⟩ ∧
      instDone s ⟨.job, 9⟩ { Inst.fresh none 1 0 with closed := true } = true := by decide
theorem witness_LevelAndMemoryEvents_settle : mayStill (ending .cancelled) (unitOf 1) = true ∧
    ((ending .cancelled).insts.get? (unitOf 1)).map (fun x => (x.state, x.settled)) = some (.cancelled, false) ∧
    mayStill (ending .cancelled) ⟨.launch, 1⟩ = false := by decide
set_option maxRecDepth 8000 in
theorem test_instance_complete : (match exec (.instanceComplete (unitOf 1)) (ending .running) with
    | .next t => (t.insts.map fun p => (p.2.state, p.2.completed), (t.granulesOf core0)[(2 : Fin 48)])
    | _ => ([], .free)) = ([(.done, 0), (.running, 1)], .zeroing 1) := by decide
theorem witness_LevelAndMemoryEvents_granule :
    let s := { base id with granules := [(core0, (Vector.replicate 48 Granule.free).set 4 (.zeroing 1))] }
    (s.granulesOf core0)[(4 : Fin 48)] = .zeroing 1 ∧ (s.granulesOf core0)[(5 : Fin 48)] = .free := by decide
theorem witness_LevelAndMemoryEvents_promotion :
    let s := { base id with cycle := 64 }
    s.env? sid0 = some (envOf id) ∧ st0.readySince + 64 ≤ s.cycle ∧ scalarReady s (envOf id) = true ∧ (base id).cycle < st0.readySince + 64 :=
  ⟨rfl, by decide, by decide, by decide⟩
theorem witness_LevelAndMemoryEvents_check :
    let r := { return0 with checks := [⟨0, 224, [6]⟩, ⟨2, 256, [7]⟩] }
    let s := base fun st => { st with returns := [r] }
    s.env? sid0 = some (envOf fun st => { st with returns := [r] }) ∧ r.id = 3 ∧ r.checks = [⟨0, 224, [6]⟩] ++ ⟨2, 256, [7]⟩ :: [] ∧
      7 ∈ ({ s with mem := { s.mem with bad := [7] } } : State).mem.bad ∧ 7 ∉ s.mem.bad ∧ s.mem.bad = [] ∧ wg0.parked = none :=
  ⟨rfl, rfl, rfl, by decide, by decide, rfl, rfl⟩
set_option maxRecDepth 16000 in
theorem test_late_check_lanes : (match exec (.integrityCheckFail sid0 3)
      (let s := base fun st => { st with returns := [{ return0 with checks := [⟨0, 224, [6]⟩, ⟨2, 256, [7]⟩] }] }
       { s with mem := { s.mem with bad := [7] } }) with
    | .next t => (t.worlds.get? 1).map fun w => (w.records ++ w.unwritten).map fun r => (r.code, r.lanes, r.address)
    | _ => none) = some [(.poison, 4, 256)] := by decide
/-- Die 1 performed a write of byte 9 at 65664 that die 0 has not applied. -/
def msg0 (stamp : Nat) : WriteMsg :=
  { die := 1, stamp := (Vector.replicate 4 0).set 1 stamp, seq := 4, line := 513, cells := [(65664, 9)], red := false, applied := [1] }
theorem witness_LevelAndMemoryEvents_apply :
    let m := { (base id).mem with msgs := [msg0 1] }
    m.msgs.find? (fun w => w.seq = 4) = some (msg0 1) ∧ (msg0 1).stamp[(1 : Fin 4)] = m.clocks[(0 : Fin 4)][(1 : Fin 4)] + 1 ∧
      (∀ j : Fin 4, j ≠ 1 → (msg0 1).stamp[j] ≤ m.clocks[(0 : Fin 4)][j]) ∧
      (base id).hub.links = [] ∧ (0 : Fin 4) ∉ (msg0 1).applied ∧
      ¬ ((msg0 2).stamp[(1 : Fin 4)] = m.clocks[(0 : Fin 4)][(1 : Fin 4)] + 1) := by decide
theorem test_write_apply : (match exec (.writeApply 0 4) { base id with mem := { (base id).mem with msgs := [msg0 1] } } with
    | .next t => ((t.mem.view 0).get 65664, t.mem.clocks[(0 : Fin 4)][(1 : Fin 4)])
    | _ => (0, 0)) = (9, 1) := by decide
def copyOf0 : RedCopy := { die := 2, line := 513, op := .add, ty := .i32, words := [(4, 7)], world := 1 }
theorem witness_LevelAndMemoryEvents_combine :
    ({ (base id).mem with copies := [copyOf0] } : MemSys).copies.find? (fun c => decide (c.die = 2) && c.line == 513) = some copyOf0 := rfl
theorem test_reduction_combine : (match exec (.reductionCopyCombine 2 513)
      { base id with mem := { (base id).mem with copies := [copyOf0], home := Mem.write [] 65668 [5] } } with
    | .next t => t.mem.home.readNat 65664 8
    | _ => 0) = 12 * 2 ^ 32 := by decide
theorem witness_LevelAndMemoryEvents_opcode :
    let f := lanesOf 1 2 3
    (vissue f).cur = some (.vector sid0 0) ∧ (vissue f).env? sid0 = some (envOf f) ∧ (envOf f).st.slots[(0 : Fin 2)] = some (Split.whole (BitVec.allOnes 32) 0) ∧
      (envOf f).st.laneQ = [⟨65536, Vector.replicate 8 0⟩] := ⟨rfl, rfl, rfl, rfl⟩
/-- The launch's first workgroup was placed at cycle 0 and its watchdog is one microsecond. -/
def watched (cycle : Nat) : State := { base id with launches := [(1, { launch0 with desc := { desc0 with watchdog := 1 } })], cycle := cycle }
theorem witness_LevelAndMemoryEvents_watchdog :
    ((watched 940).launches.get? 1).map (fun l => (l.desc.watchdog, l.firstPlaced)) = some (1, some 0) ∧
      isRunning (watched 940) ⟨.launch, 1⟩ = true ∧ 0 + 1 * 940 ≤ (watched 940).cycle ∧ (watched 939).cycle < 0 + 1 * 940 ∧
      launch0.desc.watchdog = 0 := ⟨rfl, by decide, by decide, by decide, rfl⟩
set_option maxRecDepth 16000 in
theorem test_watchdog : (match exec (.watchdog 1) (watched 940) with
    | .next t => isRunning t ⟨.launch, 1⟩
    | _ => true) = false ∧ (match exec (.watchdog 1) (watched 939) with
    | .next t => isRunning t ⟨.launch, 1⟩
    | _ => false) = true := by decide
theorem witness_LevelAndMemoryEvents_major : (issuing id).cur = some (.scalar (envOf id).sid) ∧ (issuing id).env? sid0 = some (envOf id) := ⟨rfl, rfl⟩

/-! ### KernelAndMonitorOperations -/

def walk0 (w : Nat) : Walk := { die := 0, site := .quadrant core0 0, asker := .scalar sid0, world := 1, priv := true, va := 65536 * w, access := .read }
def asking (l : List Walk) : State := let b := mapped (base id); { b with xlat := { b.xlat with walks := l } }
set_option maxRecDepth 16000 in
theorem witness_KernelAndMonitorOperations_walk :
    inProgress ((asking [walk0 5]).xlat.walks.filter fun w => decide (w.die = 0)) = [walk0 5] ∧
      (match walk (asking []) 0 1 (65536 * 5) .read true with | (_, .ok pa lg ..) => (pa, lg) | _ => (1, 1)) = (0, 30) ∧
      (match walk (asking []) 0 1 (2 ^ 48) .read true with | (_, .bad c) => some c | _ => none) = some .page ∧
      (inProgress (List.replicate 70 (walk0 1))).length = 64 := by decide
/-- A tree whose level 0 maps page 3 of the first 2 MiB to 0x70000, readable and executable to all. -/
def deep : Mem :=
  Mem.write (Mem.write (Mem.write (Mem.write (Mem.write [] 4096 (natLE 8 8193)) 8192 (natLE 8 12289)) 12288 (natLE 8 16385)) 16384 (natLE 8 20737))
    (20736 + 24) (natLE 8 (0x70000 + 0x37))
def deepState : State := { base id with
  mem := { (base id).mem with home := deep }, worlds := [(0, World.empty), (1, { World.empty with valid := true, root := 4096 })] }
theorem witness_KernelAndMonitorOperations_levels : deepState.xlat.pwc = [] ∧ deepState.mem.copies = [] ∧ deepState.memBase 0 = 0 ∧ 0x70000 + 65536 ≤ deepState.memSize 0 ∧
    deep.readNat (4096 + 0) 8 = 8193 ∧ 8193 % 4096 = 1 ∧ deep.readNat 20760 8 % 4 = 3 ∧ deep.readNat 20760 8 / 2 ^ 6 % 4 = 0 ∧
    deep.readNat 20760 8 / 2 ^ 8 % 2 ^ 8 = 0 := by decide
theorem test_walk_levels : (walk deepState 0 1 (3 * 65536 + 5) .fetch false).2 = .ok 0x70000 16 true true false true 0 ∧
    (walk deepState 0 1 (3 * 65536 + 5) .write true).2 = .bad .access := by decide
theorem witness_KernelAndMonitorOperations_inval :
    let w := { World.empty with valid := true, records := [{ (strandRec (envOf id) (.scalar sid0) { code := .page, addr := 70000 } 65536) with
      seq := 4, occupied := true, waiting := true }] }
    let s := { base fun st => { st with scalarStop := some (.page 4 65536) } with worlds := [(1, w)], xlat := { (base id).xlat with inval := some ⟨1, 65536, 16⟩ } }
    s.xlat.inval = some ⟨1, 65536, 16⟩ ∧ 70000 / 2 ^ 16 = 65536 / 2 ^ 16 ∧ (s.strands.get? sid0).bind Strand.scalarStop = some (.page 4 65536) ∧
      w.records.map (fun r => (r.occupied, r.waiting, r.seq, decide (r.agent = .scalar sid0))) = [(true, true, 4, true)] := by decide
theorem test_inval_complete : (match exec .invalComplete { base id with xlat := { (base id).xlat with tlb := [page0 1, page0 2], inval := some ⟨1, 65537, 16⟩ } } with
    | .next t => t.xlat.tlb.map TlbEntry.page
    | _ => []) = [2] := by decide
theorem witness_KernelAndMonitorOperations_restart :
    let k := { copy0 0 with state := .abandoned }
    let s := { base id with copyQs := [((core0, 0), ⟨some 1, 2, [k], true⟩)] }
    (s.copyQ core0 0).cmds.find? (fun k => k.world == 1 && decide (k.state = .abandoned)) = some k ∧ (s.copyQ core0 0).halted = true ∧
      s.xlat.inval = none := by decide
theorem witness_KernelAndMonitorOperations_restart_matrix :
    let m : MatCmd := { matCmd0 1 (.mzero 3) [] with state := .abandoned, num := some 1 }
    m.world = 1 ∧ m.num.isSome = true ∧ m.state = .abandoned := by decide
def drainOf (deadline : Nat) : DrainRec := ⟨1, [core0], deadline, 262144⟩
theorem witness_KernelAndMonitorOperations_drain :
    let s := { base id with drains := [drainOf 0] }
    (∀ d ∈ (base id).drains, d.world ≠ 2 → ∀ c ∈ [core0], c ∉ d.cores) ∧ drainOf 0 ∈ s.drains ∧ (drainOf 0).world = 1 ∧
      (∀ x ∈ s.drains, x.world = 1 → x = drainOf 0) ∧ (drainOf 0).deadline ≤ s.cycle ∧
      victims s (drainOf 0) = [1] ∧ saveGroup s 1 = [1] ∧ saveReady (stopIssue s [1]) 1 = true ∧ wg0.parked = none ∧
      wgWorld s wg0 = some 1 ∧ draining s 1 wg0.core = true ∧ s.memWf = true ∧ (∃ d ∈ [{ drainOf 0 with world := 2 }], d.world ≠ 1 ∧ ∃ c ∈ [core0], c ∈ d.cores) := by decide
theorem witness_KernelAndMonitorOperations_save : (∀ w, wgWorld (base id) wg0 = some w → draining (base id) w wg0.core = false) ∧
    mayYield (base id) 1 wg0 = false ∧ saveReady (stopIssue (base fun st => { st with picot := some (running0 []) }) [1]) 1 = false :=
  ⟨fun _ _ => rfl, by decide, by decide⟩
def parked0 (told : Bool) : Parked := { addr := 262144, size := 32, grouped := false, told := told, copies := [], saved := [] }
/-- The workgroup lies saved; core0 has a partition entry where `fits`. -/
def savedOne (fits : Bool) : State :=
  let part : PartEntry := { valid := true, world := 1, weight := 3, slots := 8, granules := 20, raw := 0 }
  let regs := if fits then [(core0, (Vector.replicate 8 PartEntry.empty).set 0 part)] else []
  { base id with wgs := [(1, { wg0 with parked := some (parked0 false), granules := [] })], granules := [], partRegs := regs }
set_option maxRecDepth 16000 in
theorem witness_KernelAndMonitorOperations_restore : isRunning (savedOne true) (unitOf 1) = true ∧ canPlace (savedOne true) 1 desc0 core0 = true ∧
    tagsOk (savedOne true) 0 (parked0 false) desc0 = true ∧ canPlace (savedOne false) 1 desc0 core0 = false := by decide
theorem witness_KernelAndMonitorOperations_nowhere : ∀ c, canPlace (savedOne false) 1 desc0 c = false := fun c => by
  simp [canPlace, partOf?, partList, State.partReg, savedOne, PartEntry.empty, Vector.toList_replicate]
theorem witness_KernelAndMonitorOperations_tags :
    let s := savedOne true
    let m := Mem.write (Mem.write [] (262144 + 48) (natLE 8 128)) (262144 + 128) [3]
    tagsOk { s with mem := { s.mem with views := s.mem.views.set 0 m } } 0 { parked0 false with size := 160 } desc0 = false := by decide
/-- A strand with something in most sections of its record (17 R334). -/
def savedStrand : Strand :=
  { ((st0.wr 1 7).wr 31 0x1122334455667788).wrP 2 true with
    laneQ := [⟨65600, Vector.replicate 8 9⟩], slots := (Vector.replicate 2 none).set 0 (some { Split.whole 5 3 with pos := 4, join := 17 }),
    joins := [⟨4, 99, some 2, 1⟩], base := 7, q := Vector.replicate 8 77, tileScale := 3, masks := (Vector.replicate 16 0).set 3 9 }
set_option maxRecDepth 16000 in
theorem test_record_reads_back :
    let x := recordFrom (strandRecord savedStrand) ⟨0, 0, 0, []⟩ { savedStrand with s := Vector.replicate 32 0, pc := 0, base := 0, laneQ := [] }
    (x.rd 31, x.rdP 2, x.pc, x.laneQ, x.base) = (0x1122334455667788, true, 65536, [⟨65600, Vector.replicate 8 9⟩], 7) ∧ x.slots = savedStrand.slots := by decide
set_option maxRecDepth 16000 in
theorem witness_KernelAndMonitorOperations_parts :
    let v : W64 := 0x8001000700080014
    partsOk (base id) core0 (((base id).partReg core0).set 3 ⟨v.getLsbD 63, v.toNat / 2 ^ 48 % 1024, v.toNat / 2 ^ 32 % 256, v.toNat / 2 ^ 16 % 64, v.toNat % 64, v⟩)
      = true ∧ v.toNat / 2 ^ 32 % 256 = 7 ∧ v.toNat % 64 = 20 := by decide
set_option maxRecDepth 16000 in
theorem test_partition_write_twice :
    let v : W64 := 0x8001000700080014
    (match exec (.worldPartitionWrite core0 3 v) (base id) with
      | .next t => (match exec (.worldPartitionWrite core0 4 v) t with
        | .next u => decide ((u.partReg core0)[(3 : Fin 8)].world = 1 ∧ (u.partReg core0)[(4 : Fin 8)].valid = false)
        | _ => false)
      | _ => false) = true := by decide
theorem witness_KernelAndMonitorOperations_record : ((0x5001 : W64).toNat % 4096 < 2) ∧ ((0x3000 : W64).toNat % 4096 = 0) ∧ (65536 = 2 ^ 16) ∧
    ¬ ((0x5002 : W64).toNat % 4096 < 2) := by decide
set_option maxRecDepth 16000 in
theorem witness_KernelAndMonitorOperations_scrub :
    let s := { State.reset with worlds := [(0, World.empty), (2, { World.empty with valid := false })] }
    worldIdle s 2 = true ∧ World.empty.alive = true ∧ worldIdle (base id) 1 = false ∧ inFrames [(65536, 16)] 65536 = true := by decide
set_option maxRecDepth 16000 in
theorem witness_KernelAndMonitorOperations_create :
    let s := { State.reset with trust := { State.reset.trust with stage := .running }, inbox := [.createWorld false ⟨[], []⟩ [] 0 5] }
    s.trust.stage = .running ∧ idFree s 5 = true ∧ s.power.state = .w0 ∧ idFree s 0 = false := by decide

/-! ### GraphTimeAndDatagrams -/

/-- A paired context whose move stands in `state`, with a control datagram of a kind at the head of the inputs. -/
def moving0 (state : MoveState) (deferrals : Nat) (answered : List Datagram) : Context :=
  let mv : Move := { Move.fresh 3 with state := state, frame := 6, config := 2, deferrals := deferrals, answered := answered,
                                       ctls := [⟨0, 0, ⟨0x12, 0, 0xFF, 0, 0, 6, 0, 3, 0, []⟩, 0, 0⟩] }
  { ctx0 with img := { img0 with paired := true, peerContext := 9, edges := [edge0] }, current := some 4, move := mv }
def control0 (kind : Nat) (seq : Nat) (payload : List Byte) : Datagram := ⟨kind, 1, 0xFF, 0, 0, 6, seq, 3, payload.length, payload⟩
def arriving (c : Context) (g : Datagram) : State :=
  { base id with contexts := [(1, c)], inbox := [.datagram ⟨0, 1, g, 0⟩ true] }
theorem witness_GraphTimeAndDatagrams_frame :
    let s := { base id with contexts := [(1, ctx0)] }
    s.contexts.get? 1 = some ctx0 ∧ ctx0.stopped = false ∧ (ctx0.img.epoch : Int) + 0 * ctx0.img.period ≤ s.micros + ctx0.offset ∧
      (startNodes s 1 0 ctx0).isOk = true ∧ ¬ ((s.micros : Int) + 0 < 0) := by decide
theorem witness_GraphTimeAndDatagrams_defer :
    (moving0 .proposed 0 []).move.frame ≤ 5 + 1 ∧ (moving0 .proposed 3 []).move.deferrals = 3 ∧ (moving0 .committed 0 []).move.phaseDone = false := by decide
/-- A node whose edge has one of two records delivered, past the node's deadline. -/
def halfFull : State × Context :=
  let k : EdgeFrame := ⟨0, [(0, 0)], [0], 1, some 1, 0, false, [], [], []⟩
  let x : EdgeState := { (Context.fresh img0 0).edgeOf 0 with frames := [k], base := 0 }
  let c := { ctx0 with img := { img0 with nodes := [node0 65536], edges := [{ edge0 with consumer := 0 }] }, current := some 0, edges := [(0, x)] }
  let c := { c with img := { c.img with nodes := [{ node0 65536 with kind := 0, trigger := 0 }] } }
  (mapped { base id with contexts := [(1, c)] }, c)
theorem witness_GraphTimeAndDatagrams_node :
    let x := halfFull
    (0 : Int) ≤ x.1.micros + 0 ∧ x.2.current = some 0 ∧ x.2.mayLaunch 0 0 = true ∧ (1 < min ((0 / edge0.batch + 1) * edge0.batch) edge0.slots) ∧ (nextTaken { edge0 with consumer := 0 } (x.2.edgeOf 0)).map (fun k => (k.frame, k.taken, k.delivered)) = some (0, 0, 1) ∧
      (launchRange 1 0 0 0 true 1 0 1 x.1).isOk = true := ⟨by decide, by decide, by decide, by decide, by decide, by rfl⟩
set_option maxRecDepth 16000 in
theorem witness_GraphTimeAndDatagrams_launch :
    let x := halfFull
    let m := { x.1.mem with views := x.1.mem.views.set 0 (Mem.write [] 65536 descBytes) }
    (match gread { x.1 with mem := m } 1 0 1 65536 256 with
      | .ok (q, bs) => (graphDesc q 1 1 65536 bs).isSome
      | .error _ => false) = true := by decide
theorem witness_GraphTimeAndDatagrams_edge :
    let c := { ctx0 with img := { img0 with edges := [{ edge0 with budget := 0 }] } }
    let s := { base id with contexts := [(1, c)], worlds := [(0, World.empty), (1, { World.empty with valid := false })] }
    settleBase c 0 = c ∧ c.receives { edge0 with budget := 0 } 0 = true ∧ (c.img.epoch : Int) + 0 * c.img.period + 0 ≤ s.micros + c.offset ∧
      ¬ (c.img.epoch : Int) + 0 * c.img.period + 500 ≤ s.micros + c.offset := by decide
def outGram (expires : Nat) : OutDatagram := { world := 1, ctx := 1, edge := 0, expires := expires, rate := 10, peer := 0, dg := ⟨1, 9, 0, 1, 1, 0, 1, 1, 32, []⟩ }
theorem witness_GraphTimeAndDatagrams_ports :
    let p : State → EthPort := fun s => s.ports[(2 : Fin 4)]
    let s (n : Nat) : State := { base id with contexts := [(1, ctx0)], ports := (base id).ports.set 2 { p (base id) with queue := [outGram n] } }
    (p (s 5)).queue.find? (maySend (s 5)) = some (outGram 5) ∧ (p (s 0)).queue.find? (expired (s 0)) = some (outGram 0) ∧ (p (base id)).queue = [] := by decide
theorem test_datagram_send :
    let s : State := { base id with contexts := [(1, ctx0)], ports := (base id).ports.set 2 { (base id).ports[(2 : Fin 4)] with queue := [outGram 5] } }
    (match exec (.datagramSend 2) s with
      | .next t => (t.ports[(2 : Fin 4)].queue.length, t.ports[(2 : Fin 4)].sent.length, (t.contexts.get? 1).map fun c => (c.edgeOf 0).codec.nextSend)
      | _ => (9, 9, none)) = (0, 1, some 52) := by decide
def dataGram0 (records length : Nat) (frame : Nat) : Datagram :=
  ⟨1, 1, 0, 1, records, frame, 1, 1, length, natLE 8 frame ++ natLE 8 0 ++ List.replicate 16 7⟩
def receiving : Context := { ctx0 with img := { img0 with edges := [edge0] } }
theorem witness_GraphTimeAndDatagrams_malformed :
    gramOk (arriving receiving (dataGram0 2 32 0)) ⟨0, 1, dataGram0 2 32 0, 0⟩ true = false ∧
      gramOk (arriving receiving (dataGram0 1 32 0)) ⟨0, 1, dataGram0 1 32 0, 0⟩ true = true ∧ (receiving.img.edges[0]?).isSome = true ∧
      gramOk (arriving receiving (control0 0x11 0 [1])) ⟨0, 1, control0 0x11 0 [1], 0⟩ true = false := by decide
theorem witness_GraphTimeAndDatagrams_data :
    let s := arriving receiving (dataGram0 1 32 6)
    receiving.receives edge0 6 = true ∧ (seen (closeDue 1 0 (dueFuel { s with inbox := [] } 1 0) { s with inbox := [] }) State.nextId) = some s.nextId ∧
      (receiving.edgeOf 0).closedAt 6 = false ∧ (receiving.edgeOf 0).oldest + 4 ≤ 6 ∧ ¬ (receiving.edgeOf 0).oldest + 4 ≤ 3 := by decide
theorem test_early_counts : (match exec .data (arriving receiving (dataGram0 1 32 6)) with
    | .next t => ((t.contexts.get? 1).map fun c => (c.edgeOf 0).early, t.events)
    | _ => (none, [])) = (some 1, [(1, .early 1 0)]) := by decide
theorem witness_GraphTimeAndDatagrams_control : ∀ k ∈ [0x11, 0x12, 0x13, 0x14, 0x15, 0x21],
    controlOk (moving0 .acked 0 []) (control0 k 0 []) = true ∧ (moving0 .acked 0 []).move.num.toNat = (control0 k 0 []).first ∧ (moving0 .acked 0 []).img.paired = true ∧
      (moving0 .acked 0 []).world = 1 := by decide
theorem witness_GraphTimeAndDatagrams_propose : controlOk (moving0 .acked 0 []) (control0 0x10 0 (natLE 8 2)) = true ∧ (moving0 .idle 0 []).move.answered = [] ∧
    (moving0 .proposed 0 []).img.far = false ∧ (moving0 .acked 0 []).move.frame ≤ (control0 0x10 0 (natLE 8 2)).frame ∧
    (∀ k, (moving0 .proposed 0 []).current = some k → k + 1 < 6) := by
  refine ⟨by decide, rfl, rfl, by decide, fun k h => ?_⟩
  cases h
  decide
theorem witness_GraphTimeAndDatagrams_handover :
    let g := control0 0x20 1 (natLE 4 3 ++ natLE 4 0)
    controlOk (moving0 .acked 0 []) g = true ∧ fieldNat g.payload 0 4 = 3 ∧ (moving0 .acked 0 []).move.stored.get? 1 = none := by decide
theorem test_cut_commit : (match exec .cutCommit (arriving (moving0 .acked 0 []) (control0 0x12 0 [])) with
    | .next t => ((t.contexts.get? 1).map fun c => c.move.state, t.ports[(0 : Fin 4)].sent.map fun g => (g.2.kind, g.2.context, g.2.first))
    | _ => (none, [])) = (some .committed, [(0x13, 9, 3)]) := by decide
theorem test_cut_abort : (match exec .cutAbort (arriving (moving0 .proposed 0 []) (control0 0x14 0 [])) with
    | .next t => ((t.contexts.get? 1).map fun c => (c.move.state, c.move.num), t.events)
    | _ => (none, [])) = (some (.idle, 3), [(1, .cutAbort 1 false)]) := by decide
theorem witness_GraphTimeAndDatagrams_timer :
    let s := { arriving (moving0 .committed 0 []) (control0 0x12 0 []) with cycle := 940 * 250 }
    s.micros = 250 ∧ (moving0 .committed 0 []).img.period ≤ 4 * (250 - 0) ∧ ((moving0 .committed 0 []).move.ctls[0]?).map Ctl.resends = some 0 ∧
      ((moving0 .committed 0 []).move.ctls[1]?).isNone = true := by decide

/-! ### LinksAndRemoteMemory -/

def given (i : Input) (f : State → State) : State := f { base id with inbox := [i] }
def window0 (world : Nat) : FirewallWindow := { base := 0, length := 2 ^ 20, world := world, read := true, write := true }
def fired (port : Fin 6) (s : State) : State := { s with hub := { s.hub with firewall := s.hub.firewall.set port [((0, 3), window0 1)] } }
def inbound0 (write : Bool) : Inbound := { part := 0, port := 4, addr := 65536, length := 4, write := write, data := [1, 2] }
theorem witness_LinksAndRemoteMemory_inbound :
    let s := given (.inbound (inbound0 true) true) (fired 4)
    firewallLets s 4 0 none 65536 2 true = true ∧ isRemote 65536 = false ∧ s.power.state = .w0 ∧ s.mem.copies = [] ∧ s.memWf = true ∧
      firewallLets (base id) 4 0 none 65536 2 true = false := by decide
theorem test_inbound_write : (match exec .inboundRequest (given (.inbound (inbound0 true) true) (fired 4)) with
    | .next t => (t.mem.home.readNat 65536 4, t.hub.violations[(4 : Fin 6)])
    | _ => (0, 9)) = (0x201, 0) := by decide
theorem test_inbound_refused : (match exec .inboundRequest (given (.inbound (inbound0 true) true) id) with
    | .next t => (t.mem.home.readNat 65536 4, t.hub.violations[(4 : Fin 6)])
    | _ => (9, 0)) = (0, 1) := by decide
def region0 (state : Nat) : Region := { base := 65536, length := 65536, check := 7, world := 1, read := true, write := true, atomic := false, state := state }
def keyed (state : Nat) (inn : List InMessage) (s : State) : State :=
  { s with rma := { s.rma with regions := [(5, region0 state)], inn := inn } }
theorem witness_LinksAndRemoteMemory_region : (region0 0).base % 65536 = 0 ∧ (region0 0).length % 65536 = 0 ∧ (region0 0).world < 1024 ∧
    (keyed 0 [] (base id)).rma.regions.get? 5 = some (region0 0) ∧ ¬ (65536 < 65536) := by decide
def inMsg0 (got : List Nat) : InMessage :=
  { peer := 2, sender := 3, num := 1, handle := 5, packets := 2, got := got, counter := none, since := 0, refused := false }
theorem witness_LinksAndRemoteMemory_revoke : (keyed 1 [inMsg0 [0]] (base id)).rma.regions.get? 5 = some (region0 1) ∧
    (inMsg0 [0]).got.length < (inMsg0 [0]).packets ∧ (base id).cycle < 0 + 12750 * 940 ∧ (inMsg0 [0, 1]).packets ≤ (inMsg0 [0, 1]).got.length := by decide
theorem test_revocation : (match exec (.keyRevocation 5) (keyed 1 [inMsg0 [0]] (base id)) with
    | .next t => (t.rma.regions.get? 5).map Region.state
    | _ => none) = some 2 ∧ (match exec (.keyRevocation 5) (keyed 1 [inMsg0 [0, 1]] (base id)) with
    | .next t => (t.rma.regions.get? 5).map Region.state
    | _ => none) = some 0 := by decide
def outMsg0 (sendings : Nat) : OutMessage :=
  { num := 8, seq := 1, world := 1, sender := some sid0, window := ⟨1, 2, 5, 7, 0⟩, op := .write, parts := [(64, [1]), (4160, [2])], counter := none, filling := false, acked := [],
    sendings := sendings, sentAt := 0, wait := 47000 }
def sending (sendings : Nat) (s : State) : State := { s with rma := { s.rma with out := [outMsg0 sendings] } }
theorem witness_LinksAndRemoteMemory_out : (sending 1 (base id)).rma.out.find? (fun m => m.num = 8) = some (outMsg0 1) ∧
    (base id).cycle < (outMsg0 1).sentAt + (outMsg0 1).wait ∧ (outMsg0 8).sentAt + (outMsg0 8).wait ≤ ({ base id with cycle := 47000 } : State).cycle ∧
    ([] ++ [0, 1].filter fun i => decide (i < 2) && !([] : List Nat).contains i).eraseDups = [0, 1] := by decide
theorem witness_LinksAndRemoteMemory_live : (base id).power.state = .w0 ∧ (base id).trust.stage ≠ .halted := by decide
theorem test_rma_fails : (match exec (.rmaResend 8) { sending 8 (base fun st => { st with unackSys := 1 }) with cycle := 47000 } with
    | .next t => (t.rma.out.length, (t.strands.get? sid0).map Strand.unackSys, t.events.length)
    | _ => (9, none, 9)) = (0, some 0, 1) := by decide
def packet0 (message : Nat) (check : W32) : RmaPacket :=
  { port := 4, peer := 2, handle := 5, check := check, message := message, sender := 3, index := 0, packets := 1, op := .write, offset := 8, payload := [4, 5],
    counter := some 9 }
def trigger0 (threshold : Nat) : Triggered := { world := 1, counter := 9, threshold := threshold, request := packet0 1 7 }
theorem witness_LinksAndRemoteMemory_trigger : (trigger0 0).threshold ≤ ((base id).rma.counters.getD 9 0).toNat ∧
    ¬ (trigger0 1).threshold ≤ ((base id).rma.counters.getD 9 0).toNat ∧ (base id).rma.triggered = [] := by decide
theorem witness_LinksAndRemoteMemory_packet :
    let s := given (.rmaPacket (packet0 1 7) true) fun s => keyed 1 [] (fired 4 (mapped s))
    s.rma.held = [] ∧ s.rma.inn.isEmpty = true ∧ s.rma.regions.get? 5 = some (region0 1) ∧ (packet0 1 7).offset + 2 ≤ (region0 1).length ∧
      (Sys2Proof.Machine.placesOf (noteFirst (noteGot { s with inbox := [] } 4 2) (packet0 1 7)) (packet0 1 7) (region0 1)).2 = some [(65544, 0, 2)] ∧
      firewallLets s 4 (leadOf s (s.worldDie 1)) (some 1) (65544 % 2 ^ 52) 2 true = true ∧ (packet0 1 8).check ≠ (region0 1).check := by decide
theorem test_rma_write : (match exec .rmaPacketArrival (given (.rmaPacket (packet0 1 7) true) fun s => keyed 1 [] (fired 4 (mapped s))) with
    | .next t => (t.mem.home.readNat 65544 2, t.rma.counters.getD 9 0, t.rma.answers.map RmaAnswer.got)
    | _ => (0, 0, [])) = (0x504, 1, [[0]]) := by decide
theorem test_rma_held : (match exec .rmaPacketArrival (given (.rmaPacket (packet0 2 7) true) fun s => keyed 1 [] (fired 4 (mapped s))) with
    | .next t => (t.rma.held.length, t.rma.answers.length)
    | _ => (9, 9)) = (1, 0) := by decide

/-! ### TrustPowerAndPartitions -/

def bundle0 (version : Nat) : Bundle := { version := version, minimum := 4, kernel := [1], monitor := [2], firmware := [3], signature := [] }
def trusting (stage : BootStage) (i : Input) : State :=
  let r := State.reset
  { r with inbox := [i], trust := { r.trust with stage := stage, slots := r.trust.slots.set 0 ⟨some (bundle0 3), false⟩, rollback := 3 } }
theorem witness_TrustPowerAndPartitions_boot :
    let s := trusting .off (.bootImages ⟨[2], ⟨[3], [4]⟩, none⟩)
    s.power.state = .w0 ∧ s.trust.stage = .off ∧ s.trust.slots[s.trust.active].bundle = some (bundle0 3) ∧ s.trust.slots[1 - s.trust.active].bundle = none ∧
      s.trust.slots[s.trust.active].good = false ∧ State.reset.trust.slots[State.reset.trust.active].bundle = none := by decide
theorem witness_TrustPowerAndPartitions_bundle :
    let s := trusting .running (.bundle (bundle0 3))
    s.trust.stage = .running ∧ s.trust.rollback ≤ (bundle0 3).version ∧ (bundle0 2).version < s.trust.rollback ∧
      ({ s.trust with trialUntil := some 0 } : Trust).trialUntil = some 0 ∧ s.trust.debugOpen = false := by decide
theorem test_bundle_refused : (match exec .bundleUpdate (trusting .running (.bundle (bundle0 2))) with
    | .next t => (t.trust.stage, t.trust.active, t.inbox.length)
    | _ => (.off, 1, 9)) = (.running, 0, 0) := by decide
theorem test_bundle_restart : (match exec .bundleUpdate (trusting .running (.bundle (bundle0 3))) with
    | .next t => (t.trust.stage, t.trust.active, t.trust.slots[(1 : Fin 2)].bundle.map Bundle.version)
    | _ => (.halted, 0, none)) = (.off, 1, some 3) := by decide
theorem test_attestation :
    let s := trusting .running .doorbell
    (match exec .remoteAttestation { s with trust := { s.trust with trialUntil := some 5 } } with
      | .next t => (t.trust.rollback, t.trust.slots[(0 : Fin 2)].good)
      | _ => (0, false)) = (4, true) := by decide
def sleepy (tol : Nat) (state : PowerState) (exitAt : Option Nat) (inbox : List Input) : State :=
  let r := State.reset
  { r with inbox := inbox, power := { r.power with state := state, tolerance := tol, exitAt := exitAt } }
theorem witness_TrustPowerAndPartitions_power : mayEnter (sleepy 50 .w0 none []) .w2 = true ∧ mayEnter (base id) .w2 = false ∧
    (sleepy 0 .w2 none [.doorbell]).power.exitAt = none ∧ (sleepy 0 .w2 (some 7) []).power.exitAt = some 7 := by decide
theorem witness_TrustPowerAndPartitions_tolerance : ∀ x rest, (sleepy 50 .w0 none []).inbox ≠ Input.tolerance x :: rest := fun _ _ h => by cases h
theorem test_power_entry : (match exec .powerStateEntry (sleepy 50 .w0 none []) with
    | .next t => t.power.state
    | _ => .w0) = .w2 ∧ (match exec .powerStateEntry (sleepy 600 .w0 none [.tolerance 39]) with
    | .next t => (t.power.state, t.power.tolerance)
    | _ => (.w0, 0)) = (.w1, 39) := by decide
theorem test_power_exit : (match exec .powerStateExit (sleepy 0 .w2 none [.doorbell]) with
    | .next t => (t.power.exitAt, t.inbox.length)
    | _ => (none, 9)) = (some 37600, 0) := by decide
theorem witness_TrustPowerAndPartitions_parts : (∀ p ∈ ([[0, 1], [2], [3]] : List (List (Fin 4))), p.length = 1 ∨ p.length = 2 ∨ p.length = 4) ∧
    (∀ d : Fin 4, (([[0, 1], [2], [3]] : List (List (Fin 4))).map fun p => p.count d).sum = 1) ∧
    ¬ (∀ p ∈ ([[0, 1, 2], [3]] : List (List (Fin 4))), p.length = 1 ∨ p.length = 2 ∨ p.length = 4) := by decide
theorem test_partition : (match exec .hardPartitionChange (sleepy 0 .w4 none [.partition [[0, 1], [2], [3]]]) with
    | .next t => (homeDie t.power.parts 0 0x3000, homeDie t.power.parts 2 0x3000, t.hub.links)
    | _ => (0, 0, [])) = (1, 2, [(0, 2), (0, 3), (1, 2), (1, 3), (2, 3)]) := by decide
theorem witness_TrustPowerAndPartitions_spare : unitFree State.reset (.rows core0) = true ∧ unitFree (base id) (.rows core0) = false ∧
    State.reset.spares.used = [] ∧ unitFree State.reset (.l2Way 0 3) = true ∧ unitFree State.reset (.page 0 3) = true := by decide
theorem witness_TrustPowerAndPartitions_supply : ∀ u, 0 < spareSupply (spareDie u) (spareKind u) := fun u => by
  simp only [spareSupply]; split <;> omega
theorem witness_TrustPowerAndPartitions_dump :
    let w := { World.empty with valid := true, protect := true, root := 4096 }
    let s := { deepState with worlds := [(0, World.empty), (1, w)] }
    w.alive = true ∧ w.protect = true ∧ (1, w) ∈ s.worlds := by decide

end Sys2Proof.Tests
end

section
/-! Reading an association list after entries have been removed. -/

namespace Sys2Proof.Machine.Assoc

variable {κ α : Type} [DecidableEq κ]

theorem get?_none_of_not_mem {l : Assoc κ α} {k : κ} (h : k ∉ l.map Prod.fst) : l.get? k = none := by
  induction l with
  | nil => rfl
  | cons p t ih =>
    simp only [List.map_cons, List.mem_cons, not_or] at h
    simp [get?, Ne.symm h.1, ih h.2]

/-- Where no key stands twice, a filter keeps a key's value or takes the key away, as it judges the pair. -/
theorem get?_filter {l : Assoc κ α} (hn : (l.map Prod.fst).Nodup) {k : κ} {v : α} (h : l.get? k = some v) (p : κ × α → Bool) :
    get? (l.filter p) k = if p (k, v) then some v else none := by
  induction l with
  | nil => simp at h
  | cons q t ih =>
    obtain ⟨k', v'⟩ := q
    simp only [List.map_cons, List.nodup_cons] at hn
    by_cases hk : k' = k
    · subst hk
      obtain rfl : v' = v := by simpa [get?] using h
      have ht : get? (t.filter p) k' = none :=
        get?_none_of_not_mem fun hm => hn.1 (List.map_subset _ (List.filter_subset_self t) hm)
      by_cases hp : p (k', v') <;> simp [hp, get?, ht]
    · have ht : get? t k = some v := by simpa [get?, hk] using h
      by_cases hp : p (k', v') <;> simp [hp, get?, hk, ih hn.2 ht]

theorem get?_erase (l : Assoc κ α) (k j : κ) : (l.erase k).get? j = if k = j then none else l.get? j := by
  induction l with
  | nil => simp [erase]
  | cons q t ih =>
    obtain ⟨k', v'⟩ := q
    have ih' : get? (t.filter fun p => decide (p.1 ≠ k)) j = if k = j then none else get? t j := ih
    by_cases hk : k' = k
    · subst hk
      by_cases hj : k' = j <;> simp_all [erase, get?]
    · by_cases hj : k' = j
      · subst hj; simp [erase, get?, hk, Ne.symm hk]
      · simp_all [erase, get?]

end Sys2Proof.Machine.Assoc
end


section
/-! What the device's own reads leave alone: all but global memory, the translation state and the strands' watches. -/

namespace Sys2Proof.Machine

open Sys2Proof

/-- Every field but global memory's, the translations' and the strands' is as it was. -/
structure SameButMemory (s t : State) : Prop where
  rest : { t with mem := s.mem, xlat := s.xlat, strands := s.strands } = s

namespace SameButMemory

theorem refl (s : State) : SameButMemory s s := ⟨rfl⟩

theorem trans {s t u : State} (h : SameButMemory s t) (k : SameButMemory t u) : SameButMemory s u := by
  have h' := h.rest
  rw [← k.rest] at h'
  exact ⟨h'⟩

theorem contexts {s t : State} (h : SameButMemory s t) : t.contexts = s.contexts := by rw [← h.rest]

theorem inbox {s t : State} (h : SameButMemory s t) : t.inbox = s.inbox := by rw [← h.rest]

theorem foldl {β : Type} {f : State → β → State} (h : ∀ s x, SameButMemory s (f s x)) (l : List β) (s : State) :
    SameButMemory s (l.foldl f s) :=
  foldl_keeps (SameButMemory s) f (fun _ x hs => hs.trans (h _ x)) l s (refl s)

/-- The state of a pair, said apart so that the kernel need not evaluate the pair's parts to see it. -/
theorem pair {β : Type} {s t : State} (h : SameButMemory s t) (b : β) : SameButMemory s (t, b).1 := h

end SameButMemory

theorem State.onLine_sameButMemory (s : State) (line : Nat) (f : MemSys → MemSys) : SameButMemory s (s.onLine line f) := by
  unfold State.onLine
  extract_lets m
  split <;> exact ⟨rfl⟩

theorem State.homeLine_sameButMemory (s : State) (d : Fin 4) (line : Nat) : SameButMemory s (s.homeLine d line) :=
  s.onLine_sameButMemory line _

theorem State.readyAt_sameButMemory (s : State) (d : Fin 4) (w pa n : Nat) : SameButMemory s (s.readyAt d w pa n) := by
  unfold State.readyAt
  exact .foldl (fun s _ => s.onLine_sameButMemory ..) ..

theorem State.readL2_sameButMemory (s : State) (d : Fin 4) (w pa n : Nat) : SameButMemory s (s.readL2 d w pa n).1 :=
  s.readyAt_sameButMemory d w pa n

theorem walkRead_sameButMemory (s : State) (d : Fin 4) (world level tag pa : Nat) :
    SameButMemory s (walkRead s d world level tag pa).1 := by
  unfold walkRead
  split
  · split
    · exact .refl s
    · exact s.homeLine_sameButMemory d _
  · exact s.homeLine_sameButMemory d _

theorem walkKeep_sameButMemory (s : State) (d : Fin 4) (world level tag e : Nat) :
    SameButMemory s (walkKeep s d world level tag e) := ⟨rfl⟩

theorem walkGo_sameButMemory (base : Nat) (d : Fin 4) (world va : Nat) (acc : AccessKind) (priv : Bool) (level table : Nat)
    (s : State) : SameButMemory s (walkGo base d world va acc priv level table s).1 := by
  induction level generalizing table s with
  | zero =>
    unfold walkGo
    split
    · exact .refl s
    · exact .pair (walkRead_sameButMemory s d ..) _
  | succ level ih =>
    have hr := walkRead_sameButMemory s d world (level + 1) (va / 2 ^ levelShift (level + 1))
      (table + 8 * bitsOf va (levelShift (level + 1)) 9)
    simp only [walkGo]
    split
    · exact .refl s
    · split
      · exact hr
      · exact (hr.trans (walkKeep_sameButMemory ..)).trans (ih ..)

theorem walk_sameButMemory (s : State) (d : Fin 4) (world va : Nat) (acc : AccessKind) (priv : Bool) :
    SameButMemory s (walk s d world va acc priv).1 := by
  unfold walk
  split
  · split
    · exact .pair (walkGo_sameButMemory ..) _
    · exact .refl s
  · exact .refl s

theorem translateNow_sameButMemory (s : State) (d : Fin 4) (world va : Nat) (acc : AccessKind) (priv : Bool) :
    SameButMemory s (translateNow s d world va acc priv).1 := by
  have h := walk_sameButMemory s d world va acc priv
  unfold translateNow
  split
  · exact .refl s
  · split <;> simpa [*] using h

theorem readNow_sameButMemory (s : State) (d : Fin 4) (world va n : Nat) (priv : Bool) :
    SameButMemory s (readNow s d world va n priv).1 := by
  unfold readNow
  refine foldl_keeps (fun a : State × Except Code (List Byte) => SameButMemory s a.1) _ (fun a g ha => ?_) _ _ (.refl s)
  obtain ⟨u, r⟩ := a
  have ht := ha.trans (translateNow_sameButMemory u d world g.1 .read priv)
  cases r with
  | error c => exact ha
  | ok bs =>
    simp only
    split
    · simpa [*] using ht
    · rename_i v pa hv
      rw [hv] at ht
      split
      · exact ht
      · exact ht.trans (v.readL2_sameButMemory d ..)

theorem launchAt_sameButMemory (s : State) (ctx world va : Nat) : SameButMemory s (launchAt s ctx world va).1 := by
  have h := readNow_sameButMemory s (s.worldDie world) world va 256 true
  unfold launchAt
  split <;> simpa [*] using h

theorem rasterAt_sameButMemory (s : State) (ctx : Nat) (m : ContextImage) (n : Nat) (x : NodeDesc) :
    SameButMemory s (rasterAt s ctx m n x).1 := by
  have h := readNow_sameButMemory s (s.worldDie m.world) m.world x.launch 64 true
  unfold rasterAt
  split
  · exact .refl s
  · split
    · simpa [*] using h
    · rename_i u bs hu
      rw [hu] at h
      split
      · exact h
      · rename_i r _
        have hl := h.trans (launchAt_sameButMemory u ctx m.world r.launch)
        extract_lets merge queue wide
        split
        · exact h
        · split
          · split <;> simpa [*] using hl
          · simpa [*] using hl

theorem nodeStateAt_sameButMemory (s : State) (ctx : Nat) (m : ContextImage) (n : Nat) (x : NodeDesc) :
    SameButMemory s (nodeStateAt s ctx m n x).1 := by
  have hr := rasterAt_sameButMemory s ctx m n x
  have hm := readNow_sameButMemory s (s.worldDie m.world) m.world x.launch 320 true
  unfold nodeStateAt
  split
  · split <;> simpa [*] using hr
  · split
    · exact .refl s
    · split <;> simpa [*] using hm
  · exact launchAt_sameButMemory s ctx _ _

end Sys2Proof.Machine
end

section
/-! The runtime's requests (17 R320, R322; 01 R15, R20; 16 R307; 05 R116): when one is taken, and what each does once it is. -/

namespace Sys2Proof.Machine

open Sys2Proof

theorem State.modWorld_get?_same {s : State} {k : Nat} {w : World} (h : s.worlds.get? k = some w) (f : World → World) :
    (s.modWorld k f).worlds.get? k = some (f w) := by
  rw [State.modWorld_worlds, Assoc.get?_modify_same, h, Option.map_some]

/-! ## Taking an input (19 R367) -/

/-- A request is taken where it stands first, in W0, with the start of the device not halted. -/
structure Takes (s : State) (x : Input) (rest : List Input) : Prop where
  awake : s.power.state = .w0
  started : s.trust.stage ≠ .halted
  first : s.inbox = x :: rest

theorem Takes.takeInput {s : State} {x : Input} {rest : List Input} (h : Takes s x rest) {α : Type} (f : Input → Option α) :
    takeInput s f = (f x).map fun v => ({ s with inbox := rest }, v) := by
  simp [Machine.takeInput, h.awake, h.started, h.first]

theorem takeInput_asleep {s : State} (h : s.power.state ≠ .w0 ∨ s.trust.stage = .halted ∨ s.inbox = []) {α : Type}
    (f : Input → Option α) : takeInput s f = none := by
  unfold takeInput
  split
  · rfl
  split
  · rfl
  rename_i hw hh
  obtain hw' | hh' | hi := h
  · exact absurd hw' hw
  · exact absurd hh' hh
  · simp [hi]

theorem takeInput_other {s : State} {x : Input} {rest : List Input} (h : s.inbox = x :: rest) {α : Type} {f : Input → Option α}
    (hf : f x = none) : takeInput s f = none := by
  unfold takeInput
  simp [h, hf]

/-! ## Submission (17 R322) -/

/-- An accepted launch stands in the launches with its descriptor, its parent and its place in the queue. -/
theorem acceptLaunch_launch (s : State) (world num : Nat) (q : LaunchQueue) (addr : Nat) (d : LaunchDesc) (depth : Nat)
    (parent : Option Nat) (issuer : Option StrandId) (reserved : Bool) :
    ∃ k l, (acceptLaunch s world num q addr d depth parent issuer reserved).1.launches.get? k = some l ∧ l.desc = d ∧
      l.depth = depth ∧ l.parent = parent ∧
      l.queue = some (num, (acceptLaunch s world num q addr d depth parent issuer reserved).2) :=
  ⟨_, _, Assoc.get?_set_same .., rfl, rfl, rfl, rfl⟩

/-- What an accepted submission without a parent has made. -/
theorem submit_accepted {s t : State} {world ctx addr n : Nat} {bs : List Byte} {mayW : Bool} {issuer : Option StrandId}
    (h : submit s world ctx addr bs mayW none issuer = .accepted t n) :
    ∃ k l num, t.launches.get? k = some l ∧ l.queue = some (num, n) ∧ l.parent = none ∧ l.depth = 0 ∧ some l.desc = parseLaunch bs := by
  unfold submit at h
  split at h
  · cases h
  rename_i d hd
  split at h
  · cases h
  rename_i num _
  split at h
  · cases h
  rename_i q _
  split at h
  · cases h
  extract_lets depth at h
  split at h
  · cases h
  split at h
  · cases h
  rename_i r _
  cases h
  obtain ⟨k, l, hk, hdesc, hdepth, hparent, hqueue⟩ := acceptLaunch_launch s world num q addr d 0 none issuer r
  exact ⟨k, l, num, hk, hqueue, hparent, hdepth, by rw [hdesc, hd]⟩

section
variable {s : State} {world ctx desc : Nat} {rest : List Input} (h : Takes s (.submit world ctx desc) rest)
include h

theorem launchSubmission_misaligned (ha : desc % 64 ≠ 0) :
    exec .launchSubmission s = .next (({ s with inbox := rest } : State).tell world (.launchRefused world desc)) := by
  show execLaunchSubmission s = _
  simp [execLaunchSubmission, h.takeInput, ha]

theorem launchSubmission_unread (ha : desc % 64 = 0) {s1 : State} {c : Code}
    (hr : readNow { s with inbox := rest } (State.worldDie { s with inbox := rest } world) world desc 256 true = (s1, .error c)) :
    exec .launchSubmission s = .next (s1.tell world (.launchRefused world desc)) := by
  show execLaunchSubmission s = _
  simp [execLaunchSubmission, h.takeInput, ha, hr]

variable (ha : desc % 64 = 0) {s1 : State} {bs : List Byte}
  (hr : readNow { s with inbox := rest } (State.worldDie { s with inbox := rest } world) world desc 256 true = (s1, .ok bs))
include ha hr

theorem launchSubmission_accepted {t : State} {n : Nat} (hs : submit s1 world ctx desc bs true none none = .accepted t n) :
    exec .launchSubmission s = .next (t.tell world (.launchAccepted world n)) := by
  show execLaunchSubmission s = _
  simp [execLaunchSubmission, h.takeInput, ha, hr, hs]

theorem launchSubmission_refused (hs : ∀ t n, submit s1 world ctx desc bs true none none ≠ .accepted t n) :
    exec .launchSubmission s = .next (s1.tell world (.launchRefused world desc)) := by
  show execLaunchSubmission s = _
  cases hx : submit s1 world ctx desc bs true none none with
  | accepted t n => exact absurd hx (hs t n)
  | refused | deep | full => simp [execLaunchSubmission, h.takeInput, ha, hr, hx]

end

/-! ## Queues and jobs (17 R320; 16 R307; 01 R15) -/

theorem queueCreate_made {s : State} {world num prio ctx : Nat} {rest : List Input} (h : Takes s (.createQueue world num prio ctx) rest)
    {c : Context} {w : World} (hc : s.contexts.get? ctx = some c) (hcw : c.world = world) (hw : s.worlds.get? world = some w)
    (ha : w.alive = true) (hq : w.queues.get? num = none) (hn : num < 64) (hp : prio ≤ 3 ∨ (prio = 4 ∧ world = 0)) :
    exec .queueCreate s = .next (({ s with inbox := rest } : State).modWorld world fun w =>
      { w with queues := w.queues.set num ⟨prio, ctx, 1, []⟩ }) := by
  show execQueueCreate s = _
  simp [execQueueCreate, h.takeInput, hc, hcw, hw, ha, hq, hn, hp]

theorem queueDestroy_taken {s : State} {world num : Nat} {rest : List Input} (h : Takes s (.destroyQueue world num) rest) :
    exec .queueDestroy s = .next (({ s with inbox := rest } : State).modWorld world fun w =>
      { w with queues := w.queues.filter fun p => !(p.1 == num && p.2.pending.isEmpty) }) := by
  show execQueueDestroy s = _
  simp [execQueueDestroy, h.takeInput]

theorem jobClose_open {s : State} {world j : Nat} {rest : List Input} (h : Takes s (.closeJob world) rest) {w : World}
    (hw : s.worlds.get? world = some w) (hj : w.job = some j) :
    exec .jobClose s = .next ((({ s with inbox := rest } : State).modInst ⟨.job, j⟩ fun x => { x with closed := true }).modWorld world
      fun w => { w with job := none }) := by
  show execJobClose s = _
  simp [execJobClose, h.takeInput, hw, hj]

/-! ## Contexts (05 R116) -/

section
variable {s : State} {k : Nat} {m : ContextImage} {rest : List Input} (h : Takes s (.createContext k m) rest) {w : World}
  (hw : s.worlds.get? m.world = some w) (ha : w.alive = true)
include h hw ha

theorem contextCreate_refused (hb : tablesOk m = false ∨ 16384 ≤ k ∨ ∃ c, s.contexts.get? k = some c) :
    exec .contextCreate s = .next (({ s with inbox := rest } : State).tell m.world (.contextRefused m.world k)) := by
  show execContextCreate s = _
  have hb' : (!tablesOk m || decide (16384 ≤ k) || (s.contexts.get? k).isSome) = true := by
    obtain hb | hb | ⟨c, hb⟩ := hb <;> simp [hb]
  simp [execContextCreate, h.takeInput, hw, ha, State.ctx?, hb']

end

/-- The checks of one node: its state as it stands in memory, kept in the context. -/
def checkNode (k : Nat) (m : ContextImage) (acc : State × Bool) (n : Nat) : State × Bool :=
  match m.nodes[n]? with
  | none => acc
  | some x => match nodeStateAt acc.1 k m n x with
    | (s, ok, rs) => (s.modCtx k fun c => c.modNode n fun y => { y with raster := rs }, acc.2 && ok)

/-- The context as it stands once it is made, before its nodes' state is checked. -/
def withContext (s : State) (k : Nat) (m : ContextImage) : State :=
  { s with contexts := s.contexts.set k (Context.fresh m (firstFrame m s.micros)) }

section
variable {s : State} {k : Nat} {m : ContextImage} {rest : List Input} (h : Takes s (.createContext k m) rest) {w : World}
  (hw : s.worlds.get? m.world = some w) (ha : w.alive = true) (ht : tablesOk m = true) (hk : k < 16384)
  (hf : s.contexts.get? k = none)
include h hw ha ht hk hf

theorem contextCreate_checked :
    exec .contextCreate s = .next (
      let r := (List.range m.nodes.length).foldl (checkNode k m) (withContext { s with inbox := rest } k m, true)
      if r.2 then r.1 else ({ s with inbox := rest } : State).tell m.world (.contextRefused m.world k)) := by
  show execContextCreate s = _
  simp only [execContextCreate, h.takeInput, Option.map_some, hw, ha, ht, State.ctx?, hf, Bool.not_true, Bool.false_eq_true,
    if_false, Option.isSome_none, Bool.or_false, Bool.false_or, decide_eq_true_eq, Nat.not_le.mpr hk]
  rfl

end

/-- What the checks of the nodes keep of a new context: its tables, its world, and that no frame has begun. -/
def NewContext (k : Nat) (m : ContextImage) (rest : List Input) (s : State) : Prop :=
  ∃ c, s.contexts.get? k = some c ∧ c.img = m ∧ c.world = m.world ∧ c.current = none ∧ c.runs = [] ∧ s.inbox = rest

theorem newContext_withContext (s : State) (k : Nat) (m : ContextImage) : NewContext k m s.inbox (withContext s k m) :=
  ⟨_, Assoc.get?_set_same .., rfl, rfl, rfl, rfl, rfl⟩

theorem NewContext.checkNode {k : Nat} {m : ContextImage} {rest : List Input} {acc : State × Bool} (h : NewContext k m rest acc.1)
    (n : Nat) : NewContext k m rest (checkNode k m acc n).1 := by
  unfold Machine.checkNode
  split
  · exact h
  rename_i x _
  have hs := nodeStateAt_sameButMemory acc.1 k m n x
  split
  rename_i t ok rs ht
  rw [ht] at hs
  obtain ⟨c, hc, himg, hworld, hcur, hruns, hin⟩ := h
  refine ⟨c.modNode n fun y => { y with raster := rs }, ?_, himg, hworld, hcur, hruns, hs.inbox.trans hin⟩
  rw [State.modCtx_contexts, hs.contexts, Assoc.get?_modify_same, hc, Option.map_some]

theorem contextDestroy_taken {s : State} {k : Nat} {rest : List Input} (h : Takes s (.destroyContext k) rest) :
    exec .contextDestroy s = .next (if s.launches.any fun p => p.2.ctx == k && !launchOver s p.1 then { s with inbox := rest }
      else { s with inbox := rest, contexts := s.contexts.erase k }) := by
  show execContextDestroy s = _
  simp only [execContextDestroy, h.takeInput, Option.map_some]
  rfl

end Sys2Proof.Machine
end

section
/-! The runtime's requests, settled. -/

namespace Sys2Proof.Machine

open Sys2Proof

/-- Settles O37: each request's effect is its own lemma; one that is not taken changes nothing. -/
theorem runtimeRequests : Obligations.RuntimeRequests := by
  unfold Obligations.RuntimeRequests
  refine ⟨?submission, ?queueCreate, ?queueDestroy, ?jobClose, ?contextCreate, ?contextDestroy, ?asleep, ?other⟩
  case submission =>
    intro s world ctx desc rest hw hh hi s0
    have h : Takes s (.submit world ctx desc) rest := ⟨hw, hh, hi⟩
    exact ⟨launchSubmission_misaligned h, fun ha => ⟨fun s1 c hr => launchSubmission_unread h ha hr, fun s1 bs hr =>
      ⟨fun t n hs => ⟨launchSubmission_accepted h ha hr hs, submit_accepted hs⟩, launchSubmission_refused h ha hr⟩⟩⟩
  case queueCreate =>
    intro s world num prio ctx c w rest hw hh hi hc hcw hworld halive hfree hnum hprio
    exact ⟨_, _, queueCreate_made ⟨hw, hh, hi⟩ hc hcw hworld halive hfree hnum hprio, State.modWorld_get?_same hworld _,
      Assoc.get?_set_same .., fun k hk => Assoc.get?_set_other _ _ hk.symm, rfl⟩
  case queueDestroy =>
    intro s world num w q rest hw hh hi hworld hq hnodup
    refine ⟨_, _, queueDestroy_taken ⟨hw, hh, hi⟩, State.modWorld_get?_same hworld _, ?_⟩
    rw [Assoc.get?_filter hnodup hq]
    by_cases hp : q.pending = [] <;> simp [hp]
  case jobClose =>
    intro s world j w x rest hw hh hi hworld hj hx
    refine ⟨_, _, jobClose_open ⟨hw, hh, hi⟩ hworld hj, ?_, State.modWorld_get?_same hworld _, rfl⟩
    show (Assoc.modify s.insts _ _).get? _ = _
    rw [Assoc.get?_modify_same, show s.insts.get? ⟨.job, j⟩ = some x from hx, Option.map_some]
  case contextCreate =>
    intro s k m w rest hw hh hi hworld halive s0 refused
    have h : Takes s (.createContext k m) rest := ⟨hw, hh, hi⟩
    refine ⟨fun hb => contextCreate_refused h hworld halive (.inl hb), fun hb => contextCreate_refused h hworld halive (.inr (.inl hb)),
      fun c hb => contextCreate_refused h hworld halive (.inr (.inr ⟨c, hb⟩)), fun ht hk hf => ?_⟩
    have hexec := contextCreate_checked h hworld halive ht hk hf
    have hnew : NewContext k m rest (withContext s0 k m) := newContext_withContext s0 k m
    refine ⟨?_, fun hnone => ?_⟩
    · have hkept : NewContext k m rest ((List.range m.nodes.length).foldl (checkNode k m) (withContext s0 k m, true)).1 :=
        foldl_keeps (fun acc : State × Bool => NewContext k m rest acc.1) _ (fun _ n ha => ha.checkNode n) _ _ hnew
      rw [hexec]
      extract_lets r
      split
      · obtain ⟨c, hc, himg, hcw, hcur, hruns, hin⟩ := hkept
        exact .inr ⟨_, c, rfl, hc, himg, hcw, hcur, hruns, hin⟩
      · exact .inl rfl
    · obtain ⟨c, hc, himg, -⟩ := hnew
      exact ⟨_, c, by simpa [hnone] using hexec, hc, himg⟩
  case contextDestroy =>
    intro s k rest hw hh hi
    have hexec := contextDestroy_taken ⟨hw, hh, hi⟩
    refine ⟨fun hover => ?_, fun ⟨p, hp, hctx, hrun⟩ => ?_⟩
    · have hnone : ¬ (s.launches.any fun p => p.2.ctx == k && !launchOver s p.1) = true := by
        simpa [-Prod.forall, -Prod.exists] using hover
      rw [if_neg hnone] at hexec
      refine ⟨_, hexec, by simp [Assoc.get?_erase], fun j hj => by simp [Assoc.get?_erase, hj.symm], rfl, rfl⟩
    · have hsome : (s.launches.any fun p => p.2.ctx == k && !launchOver s p.1) = true :=
        List.any_eq_true.mpr ⟨p, hp, by simp [hctx, hrun]⟩
      rw [hexec, if_pos hsome]
  case asleep =>
    intro s h
    simp only [List.forall_mem_cons, List.not_mem_nil, false_imp_iff, implies_true, and_true]
    simp [exec, execLaunchSubmission, execQueueCreate, execQueueDestroy, execJobClose, execContextCreate, execContextDestroy,
      takeInput_asleep h]
  case other =>
    intro s x rest hi
    have absent {α : Type} {f : Input → Option α} (hf : f x = none) : takeInput s f = none := takeInput_other hi hf
    refine ⟨fun h => ?_, fun h => ?_, fun h => ?_, fun h => ?_, fun h => ?_, fun h => ?_⟩
    · show execLaunchSubmission s = _
      rw [execLaunchSubmission, absent (by split; exacts [absurd rfl (h _ _ _), rfl])]
    · show execQueueCreate s = _
      rw [execQueueCreate, absent (by split; exacts [absurd rfl (h _ _ _ _), rfl])]
    · show execQueueDestroy s = _
      rw [execQueueDestroy, absent (by split; exacts [absurd rfl (h _ _), rfl])]
    · show execJobClose s = _
      rw [execJobClose, absent (by split; exacts [absurd rfl (h _), rfl])]
    · show execContextCreate s = _
      rw [execContextCreate, absent (by split; exacts [absurd rfl (h _ _), rfl])]
    · show execContextDestroy s = _
      rw [execContextDestroy, absent (by split; exacts [absurd rfl (h _), rfl])]

end Sys2Proof.Machine
end

section
/-! What leaves the contexts alone: accesses to memory, stores, messages, barriers, and taking a fault (04 R115; 19 R357; 07 R199; 18 R346
to R350). -/

namespace Sys2Proof.Machine

open Sys2Proof

/-- A fold leaves the contexts alone where each of its steps does. -/
theorem foldl_contexts {β : Type} {f : State → β → State} (h : ∀ s x, (f s x).contexts = s.contexts) (l : List β) (s : State) :
    (l.foldl f s).contexts = s.contexts :=
  foldl_keeps (fun t : State => t.contexts = s.contexts) f (fun _ _ ht => (h _ _).trans ht) l s rfl

/-! ## Memory -/

@[simp] theorem State.performAt_contexts (s : State) (d : Fin 4) (w pa : Nat) (bs : List Byte) :
    (s.performAt d w pa bs).contexts = s.contexts := by
  unfold State.performAt
  exact foldl_contexts (fun s g => by simp [(s.onLine_sameButMemory _ _).contexts, State.noteWrite]) _ _

@[simp] theorem readNow_contexts (s : State) (d : Fin 4) (world va n : Nat) (priv : Bool) :
    (readNow s d world va n priv).1.contexts = s.contexts := (readNow_sameButMemory ..).contexts

@[simp] theorem translateNow_contexts (s : State) (d : Fin 4) (world va : Nat) (acc : AccessKind) (priv : Bool) :
    (translateNow s d world va acc priv).1.contexts = s.contexts := (translateNow_sameButMemory ..).contexts

@[simp] theorem writeNow_contexts (s : State) (d : Fin 4) (world va : Nat) (bs : List Byte) (priv : Bool) :
    (writeNow s d world va bs priv).1.contexts = s.contexts := by
  unfold writeNow
  extract_lets checked
  have hc : checked.1.contexts = s.contexts := by
    refine foldl_keeps (fun a : State × Except Code (List (Nat × Nat × Nat)) => a.1.contexts = s.contexts) _ (fun a g ha => ?_) _ _ rfl
    obtain ⟨u, r⟩ := a
    cases r with
    | error c => exact ha
    | ok l =>
      have ht := translateNow_contexts u d world g.1 .write priv
      simp only
      split <;> simp_all
  rw [← hc]
  obtain ⟨u, r⟩ := checked
  cases r with
  | error c => rfl
  | ok l => exact foldl_contexts (fun s g => by simp) l u

@[simp] theorem State.covered_contexts (s : State) (l : List (Nat × List Byte)) : (s.covered l).contexts = s.contexts := by
  unfold State.covered
  split <;> rfl

@[simp] theorem dropWrite_contexts (s : State) (d : Fin 4) (w : WriteMsg) : (dropWrite s d w).contexts = s.contexts := rfl

@[simp] theorem applyAll_contexts (s : State) (e : Fin 4) : (applyAll s e).contexts = s.contexts :=
  foldl_contexts (fun s w => dropWrite_contexts s e w) _ s

@[simp] theorem publish_contexts (s : State) : (publish s).contexts = s.contexts :=
  foldl_contexts (fun s e => applyAll_contexts s e) _ s

@[simp] theorem dropLines_contexts (s : State) (world va n : Nat) : (dropLines s world va n).contexts = s.contexts := by
  unfold dropLines
  refine foldl_contexts (fun s g => ?_) _ _
  have h := translateNow_contexts s (s.worldDie world) world g.1 .read true
  split <;> simpa [*] using h

/-! ## Messages and the store buffer -/

@[simp] theorem noteSent_contexts (s : State) (port peer ix : Nat) (l : List (Nat × List Byte)) :
    (noteSent s port peer ix l).contexts = s.contexts := by
  unfold noteSent
  split <;> rfl

@[simp] theorem sendRuns_contexts (s : State) (world : Nat) (sender : Option StrandId) (op : RmaOp) (l : List (Nat × List Byte)) :
    (sendRuns s world sender op l).contexts = s.contexts := by
  unfold sendRuns
  split
  · split <;> rfl
  · simp [newMessage]

@[simp] theorem performStore_contexts (s : State) (sid : StrandId) (core : CoreId) (world : Nat) (e : SBEntry) :
    (performStore s sid core world e).contexts = s.contexts := by
  unfold performStore
  extract_lets s1 s2 s3
  have h1 : s1.contexts = s.contexts := foldl_contexts (fun s l => by split <;> simp) _ _
  have h2 : s2.contexts = s1.contexts := foldl_contexts (fun s m => sendRuns_contexts ..) _ _
  have h3 : s3.contexts = s2.contexts := State.covered_contexts ..
  split <;> simp [h3, h2, h1]

@[simp] theorem drain_contexts (s : State) (sid : StrandId) : (drain s sid).contexts = s.contexts := by
  unfold drain
  split
  · rfl
  · exact foldl_contexts (fun s x => performStore_contexts ..) _ _

@[simp] theorem dropStores_contexts (s : State) (sid : StrandId) (p : SBEntry → Bool) : (dropStores s sid p).contexts = s.contexts := rfl

@[simp] theorem finishOut_contexts (s : State) (m : OutMessage) (st : MsgStatus) : (finishOut s m st).contexts = s.contexts := by
  unfold finishOut
  split <;> rfl

@[simp] theorem settleOut_contexts (s : State) (n : Nat) : (settleOut s n).contexts = s.contexts := by
  unfold settleOut
  split
  · split <;> simp
  · rfl

@[simp] theorem closeMessages_contexts (s : State) (l : List Nat) : (closeMessages s l).contexts = s.contexts := by
  unfold closeMessages
  exact foldl_contexts (fun s n => by simp) _ _

/-! ## Barriers and the end of a strand -/

@[simp] theorem leavePhase_contexts (k : BarKey) (s : State) (sid : StrandId) : (leavePhase k s sid).contexts = s.contexts := by
  unfold leavePhase
  split
  · rfl
  · split
    · split <;> rfl
    · split
      · extract_lets b t
        split <;> rfl
      · rfl
    · rfl

@[simp] theorem completePhases_contexts (s : State) (sid : StrandId) : (completePhases s sid).contexts = s.contexts := by
  refine foldl_contexts (fun s k => ?_) _ s
  unfold completePhase
  split
  · exact foldl_contexts (fun s sid => leavePhase_contexts k s sid) _ _
  · rfl

@[simp] theorem breakBars_contexts (s : State) (sid : StrandId) : (breakBars s sid).contexts = s.contexts := by
  unfold breakBars
  exact foldl_contexts (fun _ _ => by rfl) _ _

@[simp] theorem countCancelled_contexts (s : State) (i : InstId) : (countCancelled s i).contexts = s.contexts := rfl

@[simp] theorem endStrand_contexts (s : State) (sid : StrandId) (how : End) : (endStrand s sid how).contexts = s.contexts := by
  unfold endStrand
  split
  · rfl
  split
  · rfl
  extract_lets s0 s1 s2 s3
  have h1 : s1.contexts = s.contexts := by simp [s1, s0, apply_ite State.contexts]
  have h3 : s3.contexts = s.contexts := by simp [s3, s2, h1, apply_ite State.contexts]
  split <;> simp [h3]

/-! ## Taking a fault -/

@[simp] theorem modCopyCmd_contexts (s : State) (c : CoreId) (q : Fin 4) (n : Nat) (f : CopyCmd → CopyCmd) :
    (modCopyCmd s c q n f).contexts = s.contexts := rfl

@[simp] theorem modMatCmd_contexts (s : State) (w n : Nat) (f : MatCmd → MatCmd) : (modMatCmd s w n f).contexts = s.contexts := rfl

@[simp] theorem modCollCmd_contexts (s : State) (d : Fin 4) (n : Nat) (f : CollCmd → CollCmd) :
    (modCollCmd s d n f).contexts = s.contexts := rfl

@[simp] theorem stopAgent_contexts (s : State) (r : FaultRec) (written : Bool) : (stopAgent s r written).contexts = s.contexts := by
  unfold stopAgent
  extract_lets stop cmd
  split <;> rfl

@[simp] theorem endAgent_contexts (s : State) (a : Agent) : (endAgent s a).contexts = s.contexts := by
  unfold endAgent
  split
  · simp
  · simp
  · simp only [State.setCopyQ_contexts, modCopyCmd_contexts]
    split <;> simp
  · extract_lets t
    split
    · split <;> simp [t]
    · simp [t]
  · simp
  · rfl
  · rfl

@[simp] theorem endPair_contexts (s : State) (wg id second : Nat) : (endPair s wg id second).contexts = s.contexts := by
  unfold endPair
  split <;> simp

@[simp] theorem consequence_contexts (s : State) (r : FaultRec) : (consequence s r).contexts = s.contexts := by
  unfold consequence
  split
  · simp
  · split <;> simp

@[simp] theorem tellMonitor_contexts (s : State) (r : FaultRec) : (tellMonitor s r).contexts = s.contexts := by
  unfold tellMonitor
  split <;> rfl

@[simp] theorem fileRec_contexts (s : State) (world : Nat) (d : Fin 4) (r : FaultRec) : (fileRec s world d r).1.contexts = s.contexts := by
  unfold fileRec
  split
  · rfl
  · extract_lets r' r'' s1 s2
    split <;> simp [s2, s1]

@[simp] theorem deliver_contexts (s : State) (world : Nat) (d : Fin 4) (r : FaultRec) : (deliver s world d r).contexts = s.contexts := by
  have h := fileRec_contexts s world d r
  unfold deliver
  split <;> simpa [*] using h

@[simp] theorem sweepBars_contexts (n : Nat) (s : State) : (sweepBars n s).contexts = s.contexts := by
  induction n generalizing s with
  | zero => rfl
  | succ n ih =>
    unfold sweepBars
    split
    · rfl
    · split
      · rfl
      · simp [ih]

@[simp] theorem raise_contexts (s : State) (world : Nat) (d : Fin 4) (r : FaultRec) : (raise s world d r).contexts = s.contexts := by
  simp [raise, sweep]

end Sys2Proof.Machine
end

section
/-! The graph unit makes and removes no context: after delivery, launches, a move's steps and what follows the end of a level of work
the contexts have the numbers they had (05 R122 to R129, R142 to R149). -/

namespace Sys2Proof.Machine

open Sys2Proof

@[simp] theorem Assoc.keys_modify {κ α : Type} [DecidableEq κ] (l : Assoc κ α) (k : κ) (f : α → α) :
    (l.modify k f).map Prod.fst = l.map Prod.fst := by
  induction l with
  | nil => rfl
  | cons p t ih =>
    obtain ⟨k', v⟩ := p
    by_cases h : k' = k <;> simp [Assoc.modify, h, ih]

/-- The numbers of the contexts that there are. -/
def State.ctxIds (s : State) : List Nat := s.contexts.map Prod.fst

theorem ctxIds_congr {s t : State} (h : t.contexts = s.contexts) : t.ctxIds = s.ctxIds := by rw [State.ctxIds, h, State.ctxIds]

theorem State.modCtx_ctxIds (s : State) (k : Nat) (f : Context → Context) : (s.modCtx k f).ctxIds = s.ctxIds :=
  Assoc.keys_modify ..

theorem foldl_ctxIds {β : Type} {f : State → β → State} (h : ∀ s x, (f s x).ctxIds = s.ctxIds) (l : List β) (s : State) :
    (l.foldl f s).ctxIds = s.ctxIds :=
  foldl_keeps (fun t : State => t.ctxIds = s.ctxIds) f (fun _ _ ht => (h _ _).trans ht) l s rfl

/-- A fold over results that may fail, each step of which leaves the contexts their numbers where it succeeds. -/
theorem foldl_ok_ctxIds {α β : Type} {f : Except GStop α → β → Except GStop α} (st : α → State)
    (herr : ∀ x b, f (.error x) b = .error x) (hok : ∀ a b c, f (.ok a) b = .ok c → (st c).ctxIds = (st a).ctxIds)
    {l : List β} {a c : α} (h : l.foldl f (.ok a) = .ok c) : (st c).ctxIds = (st a).ctxIds := by
  refine foldl_keeps (fun r : Except GStop α => ∀ c, r = .ok c → (st c).ctxIds = (st a).ctxIds) f (fun r b hr c hc => ?_) l (.ok a)
    (fun c hc => by cases hc; rfl) c h
  cases r with
  | error x => rw [herr] at hc; cases hc
  | ok a' => exact (hok a' b c hc).trans (hr a' rfl)

/-! ## Accesses of the graph unit -/

@[simp] theorem graphStop_contexts (s : State) (ctx world : Nat) (x : GStop) : (graphStop s ctx world x).contexts = s.contexts := by
  unfold graphStop
  split <;> simp

theorem graphReport_contexts {s t : State} {ctx n world : Nat} {f : Flt} (h : graphReport s ctx n world f = .ok t) :
    t.contexts = s.contexts := by
  unfold graphReport at h
  split at h <;> cases h
  simp

theorem gread_ctxIds {s t : State} {ctx n world va len : Nat} {bs : List Byte} (h : gread s ctx n world va len = .ok (t, bs)) :
    t.ctxIds = s.ctxIds := by
  unfold gread at h
  split at h
  · cases h
  refine foldl_ok_ctxIds Prod.fst (fun _ _ => rfl) (fun a g c hc => ?_) h
  obtain ⟨u, b⟩ := a
  have hr := readNow_contexts u (u.worldDie world) world g.1 g.2 true
  simp only at hc
  split at hc
  · cases hc
    exact State.modCtx_ctxIds ..
  split at hc
  · rename_i hv
    rw [hv] at hr
    cases hc
    exact ctxIds_congr hr
  · cases hc
  · rename_i hv
    rw [hv] at hr
    split at hc <;> cases hc
    exact ctxIds_congr ((graphReport_contexts ‹_›).trans hr)

theorem gwrite_ctxIds {s t : State} {ctx n world va : Nat} {bs : List Byte} (h : gwrite s ctx n world va bs = .ok t) :
    t.ctxIds = s.ctxIds := by
  unfold gwrite at h
  split at h
  · cases h
  refine foldl_ok_ctxIds id (fun _ _ => rfl) (fun u g c hc => ?_) h
  have hr := writeNow_contexts u (u.worldDie world) world g.1 ((bs.drop (g.1 - va)).take g.2) true
  simp only at hc
  split at hc
  · cases hc
    exact State.modCtx_ctxIds ..
  split at hc
  · rename_i hv
    rw [hv] at hr
    cases hc
    exact ctxIds_congr hr
  · cases hc
  · rename_i hv
    rw [hv] at hr
    exact ctxIds_congr ((graphReport_contexts hc).trans hr)

theorem runGraph_ctxIds {s : State} {r : Except GStop State} (h : ∀ t, r = .ok t → t.ctxIds = s.ctxIds) (ctx world : Nat) :
    (runGraph s ctx world r).ctxIds = s.ctxIds := by
  unfold runGraph
  split
  · exact h _ rfl
  · exact ctxIds_congr (graphStop_contexts ..)

/-! ## Launches -/

@[simp] theorem openJob_contexts (s : State) (world : Nat) : (openJob s world).1.contexts = s.contexts := by
  unfold openJob
  split <;> rfl

theorem ensurePhase_ctxIds (s : State) (ctx : Nat) (c : Context) (p : Nat) : (ensurePhase s ctx c p).1.ctxIds = s.ctxIds := by
  unfold ensurePhase
  split
  · rfl
  · exact (State.modCtx_ctxIds ..).trans (ctxIds_congr (openJob_contexts s c.world))

theorem ensureRun_ctxIds (s : State) (ctx : Nat) (c : Context) (f : Nat) : (ensureRun s ctx c f).1.ctxIds = s.ctxIds := by
  unfold ensureRun
  split
  · rfl
  · exact (State.modCtx_ctxIds ..).trans (ensurePhase_ctxIds s ctx c (c.phaseOf f))

theorem refuseLaunch_ctxIds {s t : State} {ctx n world addr : Nat} (h : refuseLaunch s ctx n world addr = .ok t) :
    t.ctxIds = s.ctxIds := by
  unfold refuseLaunch at h
  split at h
  · cases h; rfl
  split at h
  · cases h; exact State.modCtx_ctxIds ..
  · exact ctxIds_congr (graphReport_contexts h)

theorem graphLaunch_ctxIds {s t : State} {ctx n : Nat} {b : Batch} (h : graphLaunch s ctx n b = .ok t) : t.ctxIds = s.ctxIds := by
  unfold graphLaunch at h
  split at h
  · cases h; rfl
  rename_i c _
  split at h
  · cases h; rfl
  rename_i nd _
  extract_lets va at h
  split at h
  · cases h; exact ensureRun_ctxIds ..
  split at h
  · exact refuseLaunch_ctxIds h
  split at h
  · cases h
  rename_i s1 bs hr
  have h1 := gread_ctxIds hr
  split at h
  · exact (refuseLaunch_ctxIds h).trans h1
  split at h
  · exact (refuseLaunch_ctxIds h).trans h1
  · rename_i d _ _
    have h2 := ensureRun_ctxIds s1 ctx c b.frame
    cases h
    exact (State.modCtx_ctxIds ..).trans (h2.trans h1)

theorem launchRange_ctxIds {ctx n e f : Nat} {late : Bool} {fuel lo hi : Nat} {s t : State}
    (h : launchRange ctx n e f late fuel lo hi s = .ok t) : t.ctxIds = s.ctxIds := by
  induction fuel generalizing lo s with
  | zero => cases h; rfl
  | succ fuel ih =>
    unfold launchRange at h
    split at h
    · cases h; rfl
    split at h
    · cases h; rfl
    extract_lets k cnt b at h
    split at h
    · cases h
    · exact (ih h).trans ((State.modCtx_ctxIds ..).trans (graphLaunch_ctxIds ‹_›))

theorem launchReady_ctxIds {ctx n fuel : Nat} {s t : State} (h : launchReady ctx n fuel s = .ok t) : t.ctxIds = s.ctxIds := by
  induction fuel generalizing s with
  | zero => cases h; rfl
  | succ fuel ih =>
    unfold launchReady at h
    split at h
    · cases h; rfl
    split at h
    · cases h; rfl
    split at h
    · cases h; rfl
    split at h
    · cases h; rfl
    split at h
    · cases h; rfl
    split at h
    · cases h
    · exact (ih h).trans (launchRange_ctxIds ‹_›)

theorem launchHeld_ctxIds {ctx n fuel : Nat} {s t : State} (h : launchHeld ctx n fuel s = .ok t) : t.ctxIds = s.ctxIds := by
  induction fuel generalizing s with
  | zero => cases h; rfl
  | succ fuel ih =>
    unfold launchHeld at h
    split at h
    · cases h; rfl
    split at h
    · cases h; rfl
    split at h
    · cases h; rfl
    extract_lets b at h
    split at h
    · cases h
    · exact (ih h).trans ((State.modCtx_ctxIds ..).trans (graphLaunch_ctxIds ‹_›))

theorem launchNode_ctxIds {s t : State} {ctx n : Nat} (h : launchNode s ctx n = .ok t) : t.ctxIds = s.ctxIds := by
  unfold launchNode at h
  split at h
  · cases h; rfl
  extract_lets many at h
  split at h
  · cases h
  · exact (launchReady_ctxIds h).trans (launchHeld_ctxIds ‹_›)

/-! ## Delivery -/

theorem placeRecord_ctxIds {s t : State} {ctx e f slot depth : Nat} {p : List Byte} (h : placeRecord s ctx e f slot depth p = .ok t) :
    t.ctxIds = s.ctxIds := by
  unfold placeRecord at h
  split at h
  · cases h; rfl
  split at h
  · cases h; rfl
  extract_lets va hold at h
  split at h
  · cases h; exact State.modCtx_ctxIds ..
  split at h
  · cases h
  rename_i h1
  split at h
  · cases h
  rename_i h2
  cases h
  exact (State.modCtx_ctxIds ..).trans ((gwrite_ctxIds h2).trans (gwrite_ctxIds h1))

theorem deliverSlot_ctxIds {s t : State} {ctx e : Nat} {b : Bool} (h : deliverSlot s ctx e = .ok (t, b)) : t.ctxIds = s.ctxIds := by
  unfold deliverSlot at h
  split at h
  · cases h; rfl
  split at h
  · cases h; rfl
  extract_lets x f k slot va late mark at h
  have hmark (u : State) (sub : Bool) (p : List Byte) : (mark u sub p).ctxIds = u.ctxIds :=
    (State.modCtx_ctxIds ..).trans (ctxIds_congr (dropLines_contexts ..))
  split at h
  · cases h; rfl
  split at h
  · extract_lets w at h
    clear_value w
    split at h <;> cases h
    exact (hmark ..).trans (gwrite_ctxIds ‹_›)
  · split at h
    · cases h; rfl
    split at h <;> cases h
    exact (hmark ..).trans (gwrite_ctxIds ‹_›)

theorem deliverEdge_ctxIds {ctx e fuel : Nat} {s t : State} (h : deliverEdge ctx e fuel s = .ok t) : t.ctxIds = s.ctxIds := by
  induction fuel generalizing s with
  | zero => cases h; rfl
  | succ fuel ih =>
    unfold deliverEdge at h
    split at h
    · cases h
    · exact (ih h).trans (deliverSlot_ctxIds ‹_›)
    · rename_i hs
      have hs := deliverSlot_ctxIds hs
      split at h
      · cases h; exact hs
      split at h
      · cases h; exact hs
      extract_lets x at h
      split at h
      · cases h; exact hs
      · exact (ih h).trans ((State.modCtx_ctxIds ..).trans hs)

theorem markDeadlines_ctxIds (s : State) (ctx e : Nat) : (markDeadlines s ctx e).ctxIds = s.ctxIds := by
  unfold markDeadlines
  split
  · rfl
  split
  · rfl
  split
  · rfl
  · exact State.modCtx_ctxIds ..

theorem advanceEdge_ctxIds {s t : State} {ctx e : Nat} (h : advanceEdge s ctx e = .ok t) : t.ctxIds = s.ctxIds := by
  unfold advanceEdge at h
  split at h
  · cases h; rfl
  split at h
  · cases h; rfl
  extract_lets s0 at h
  split at h
  · cases h
  rename_i s1 hs
  have h1 : s1.ctxIds = s.ctxIds := (deliverEdge_ctxIds hs).trans (markDeadlines_ctxIds ..)
  extract_lets s2 at h
  have h2 : s2.ctxIds = s.ctxIds := by
    simp only [s2]
    split
    · exact h1
    · exact (ctxIds_congr (publish_contexts s1)).trans h1
  clear_value s2
  split at h
  · split at h
    · exact (launchNode_ctxIds h).trans h2
    · cases h; exact h2
  · cases h; exact h2

theorem advanceAll_ctxIds (s : State) (ctx : Nat) : (advanceAll s ctx).ctxIds = s.ctxIds := by
  unfold advanceAll
  split
  · rfl
  refine foldl_ctxIds (fun s e => ?_) _ _
  split
  · split
    · exact runGraph_ctxIds (fun _ h => advanceEdge_ctxIds h) ..
    · rfl
  · rfl

theorem closeFrame_ctxIds {s t : State} {ctx e f : Nat} (h : closeFrame s ctx e f = .ok t) : t.ctxIds = s.ctxIds :=
  (advanceEdge_ctxIds h).trans (State.modCtx_ctxIds ..)

theorem settleRaster_ctxIds (s : State) (ctx : Nat) : (settleRaster s ctx).ctxIds = s.ctxIds := by
  unfold settleRaster
  split
  · rfl
  · extract_lets live
    split
    · rfl
    · exact (ctxIds_congr (publish_contexts _)).trans (State.modCtx_ctxIds ..)

/-! ## Arrivals -/

theorem closeDue_ctxIds {ctx e fuel : Nat} {s t : State} (h : closeDue ctx e fuel s = .ok t) : t.ctxIds = s.ctxIds := by
  induction fuel generalizing s with
  | zero => cases h; rfl
  | succ fuel ih =>
    unfold closeDue at h
    extract_lets s1 at h
    have h1 : s1.ctxIds = s.ctxIds := State.modCtx_ctxIds ..
    clear_value s1
    split at h
    · cases h; exact h1
    split at h
    · cases h; exact h1
    extract_lets f at h
    split at h
    · cases h; exact h1
    split at h
    · cases h
    · exact (ih h).trans ((closeFrame_ctxIds ‹_›).trans h1)

theorem notHere_ctxIds (s : State) (ctx : Nat) (c : Context) (d : EdgeDesc) (g : Datagram) : (notHere s ctx c d g).ctxIds = s.ctxIds := by
  unfold notHere
  split
  · exact State.modCtx_ctxIds ..
  · rfl

theorem placeGram_ctxIds {s t : State} {ctx e f seq records : Nat} {d : EdgeDesc} {p : List Byte}
    (h : placeGram s ctx e f seq records d p = .ok t) : t.ctxIds = s.ctxIds := by
  unfold placeGram at h
  split at h <;> cases h
  rename_i u hu
  refine (State.modCtx_ctxIds ..).trans (foldl_ok_ctxIds id (fun _ _ => rfl) (fun v r w hw => ?_) hu)
  unfold placeOne at hw
  simp only at hw
  split at hw
  · cases hw; rfl
  split at hw
  · cases hw; exact State.modCtx_ctxIds ..
  · exact placeRecord_ctxIds hw

theorem useParities_ctxIds {ctx e f fuel : Nat} {d : EdgeDesc} {s t : State} (h : useParities ctx e f d fuel s = .ok t) :
    t.ctxIds = s.ctxIds := by
  induction fuel generalizing s with
  | zero => cases h; rfl
  | succ fuel ih =>
    unfold useParities at h
    split at h
    · cases h; rfl
    extract_lets k at h
    split at h
    · cases h; rfl
    extract_lets s1 at h
    have h1 : s1.ctxIds = s.ctxIds := State.modCtx_ctxIds ..
    split at h
    · extract_lets r at h
      split at h
      · cases h
      · exact (ih h).trans ((placeGram_ctxIds ‹_›).trans h1)
    · exact (ih h).trans h1

theorem takeData_ctxIds {s t : State} {ctx : Nat} {c : Context} {g : Datagram} (h : takeData s ctx c g = .ok t) :
    t.ctxIds = s.ctxIds := by
  unfold takeData at h
  split at h
  · cases h; rfl
  split at h
  · cases h; exact notHere_ctxIds ..
  split at h
  · cases h
  rename_i s1 hd
  have h1 := closeDue_ctxIds hd
  split at h
  · cases h; exact h1
  extract_lets n s2 at h
  have h2 : s2.ctxIds = s.ctxIds := (State.modCtx_ctxIds ..).trans h1
  clear_value s2
  split at h
  · cases h; exact (State.modCtx_ctxIds ..).trans h2
  · cases h; exact (State.modCtx_ctxIds ..).trans h2
  · split at h
    · cases h
    rename_i hp
    split at h
    · cases h
    rename_i hu
    exact (advanceEdge_ctxIds h).trans ((useParities_ctxIds hu).trans ((placeGram_ctxIds hp).trans h2))

theorem takeParity_ctxIds {s t : State} {ctx : Nat} {c : Context} {g : Datagram} (h : takeParity s ctx c g = .ok t) :
    t.ctxIds = s.ctxIds := by
  unfold takeParity at h
  split at h
  · cases h; rfl
  split at h
  · cases h; exact notHere_ctxIds ..
  split at h
  · cases h
  rename_i s1 hd
  have h1 := closeDue_ctxIds hd
  split at h
  · cases h; exact h1
  split at h
  · cases h; exact h1
  · cases h; exact h1
  · extract_lets s2 at h
    have h2 : s2.ctxIds = s.ctxIds := (State.modCtx_ctxIds ..).trans h1
    split at h
    · cases h
    rename_i hu
    exact (advanceEdge_ctxIds h).trans ((useParities_ctxIds hu).trans h2)

/-! ## The steps of a move -/

theorem State.modMove_ctxIds (s : State) (ctx : Nat) (f : Move → Move) : (s.modMove ctx f).ctxIds = s.ctxIds := s.modCtx_ctxIds ctx _

theorem sendCtl_ctxIds (s : State) (ctx kind frame : Nat) (awaits : Bool) (seq : Nat) (first : Option Nat) (p : List Byte) :
    (sendCtl s ctx kind frame awaits seq first p).ctxIds = s.ctxIds := by
  unfold sendCtl
  split
  · rfl
  extract_lets g port peer s1
  have h1 : s1.ctxIds = s.ctxIds := ctxIds_congr (noteSent_contexts ..)
  split
  · exact (State.modMove_ctxIds ..).trans h1
  · exact h1

theorem stageBytes_ctxIds {s t : State} {ctx n : Nat} {c : Context} {bs : List Byte} (h : stageBytes s ctx c n = .ok (t, bs)) :
    t.ctxIds = s.ctxIds := by
  unfold stageBytes at h
  split at h
  · cases h; rfl
  extract_lets hist at h
  clear_value hist
  split at h
  · cases h; rfl
  split at h <;> cases h
  exact gread_ctxIds ‹_›

theorem sendStage_ctxIds {s t : State} {ctx n : Nat} {c : Context} (h : sendStage s ctx c n = .ok t) : t.ctxIds = s.ctxIds := by
  unfold sendStage at h
  split at h
  · cases h
  rename_i s1 bs hb
  extract_lets total s2 s3 at h
  have h2 : s2.ctxIds = s.ctxIds := by
    simp only [s2]
    split
    · exact stageBytes_ctxIds hb
    · exact (State.modMove_ctxIds ..).trans ((sendCtl_ctxIds ..).trans (stageBytes_ctxIds hb))
  have h3 : s3.ctxIds = s2.ctxIds := foldl_ctxIds (fun s k => by exact sendCtl_ctxIds ..) _ _
  cases h
  exact (State.modMove_ctxIds ..).trans (h3.trans h2)

theorem noteDone_ctxIds (s : State) (ctx : Nat) : (noteDone s ctx).ctxIds = s.ctxIds := by
  unfold noteDone
  split
  · rfl
  split
  · rfl
  · exact State.modMove_ctxIds ..

theorem sendStages_ctxIds (s : State) (ctx : Nat) : (sendStages s ctx).ctxIds = s.ctxIds := by
  unfold sendStages
  split
  · rfl
  split
  · rfl
  refine foldl_ctxIds (fun s n => ?_) _ _
  split
  · rfl
  split
  · rfl
  · exact runGraph_ctxIds (fun _ h => sendStage_ctxIds h) ..

theorem takeHeld_ctxIds (s : State) (ctx : Nat) : (takeHeld s ctx).ctxIds = s.ctxIds := by
  unfold takeHeld
  split
  · rfl
  split
  · rfl
  refine foldl_ctxIds (fun s g => ?_) _ _
  split
  · rfl
  split
  · rename_i u hu
    refine (State.modMove_ctxIds ..).trans ?_
    split at hu
    · exact takeData_ctxIds hu
    · exact takeParity_ctxIds hu
  · exact ctxIds_congr (graphStop_contexts ..)

theorem takeStage_ctxIds {s t : State} {ctx n : Nat} {c : Context} (h : takeStage s ctx c n = .ok t) : t.ctxIds = s.ctxIds := by
  unfold takeStage at h
  split at h
  · split at h
    · cases h
    rename_i s1 hw
    have h1 : s1.ctxIds = s.ctxIds := by
      split at hw
      · cases hw; rfl
      · exact gwrite_ctxIds hw
    exact (launchNode_ctxIds h).trans ((ctxIds_congr (publish_contexts _)).trans
      ((State.modMove_ctxIds ..).trans ((State.modCtx_ctxIds ..).trans h1)))
  · cases h; rfl

theorem takeStages_ctxIds (s : State) (ctx : Nat) : (takeStages s ctx).ctxIds = s.ctxIds := by
  unfold takeStages
  split
  · rfl
  split
  · rfl
  refine foldl_ctxIds (fun s n => ?_) _ _
  split
  · rfl
  split
  · rfl
  · exact runGraph_ctxIds (fun _ h => takeStage_ctxIds h) ..

theorem freeLaunches_ctxIds (s : State) (ctx : Nat) : (freeLaunches s ctx).ctxIds = s.ctxIds := by
  unfold freeLaunches
  split
  · rfl
  · exact foldl_ctxIds (fun s n => by exact runGraph_ctxIds (fun _ h => launchNode_ctxIds h) ..) _ _

theorem finishMove_ctxIds (s : State) (ctx : Nat) : (finishMove s ctx).ctxIds = s.ctxIds := by
  unfold finishMove
  split
  · rfl
  split
  · rfl
  · exact (freeLaunches_ctxIds ..).trans (State.modCtx_ctxIds s ..)

theorem moveOn_ctxIds (s : State) (ctx : Nat) : (moveOn s ctx).ctxIds = s.ctxIds :=
  (finishMove_ctxIds ..).trans ((takeStages_ctxIds ..).trans ((takeHeld_ctxIds ..).trans
    ((sendStages_ctxIds ..).trans (noteDone_ctxIds ..))))

theorem afterOver_ctxIds (s : State) (i : InstId) : (afterOver s i).ctxIds = s.ctxIds := by
  unfold afterOver
  split
  · split
    · exact (moveOn_ctxIds ..).trans ((settleRaster_ctxIds ..).trans (advanceAll_ctxIds ..))
    · rfl
  · rfl

end Sys2Proof.Machine
end

section
/-! The end of a level of work releases the writes performed so far (01 R16): those that the memory system has numbered. The statement
asks it of every message that there is, in any state. -/

namespace Sys2Proof.Machine

open Sys2Proof

theorem afterOver_of_no_contexts {s : State} (h : s.contexts = []) (i : InstId) : afterOver s i = s := by
  unfold afterOver
  split
  · simp [State.ctx?, h]
  · rfl

/-- What follows the end of a level of work has removed no context: where there is none after it, it has done nothing. -/
theorem eq_of_afterOver_no_contexts {s t : State} {i : InstId} (h : afterOver s i = t) (ht : t.contexts = []) : s = t := by
  have hids := afterOver_ctxIds s i
  have hs : s.contexts = [] := by simpa [h, State.ctxIds, ht] using hids.symm
  rw [← h, afterOver_of_no_contexts hs]

/-- A write on its way to every die, with number 1. -/
def strayWrite : WriteMsg := { die := 0, stamp := Vector.replicate 4 0, seq := 1, line := 0, cells := [], red := false, applied := [] }

/-- A closed job with nothing below it. -/
def closedJob : Inst := { Inst.fresh none 0 0 with closed := true }

/-- The closed job on a device that has performed no write, and yet has a message of one: a state that the statement does not exclude. -/
def strayState : State :=
  { State.reset with insts := [(⟨.job, 1⟩, closedJob)], mem := { MemSys.reset with msgs := [strayWrite] } }

/-- The job completes, and the message stays: no die applies a write numbered beyond the writes performed. -/
theorem strayState_complete : exec (.instanceComplete ⟨.job, 1⟩) strayState =
    .next { strayState with insts := [(⟨.job, 1⟩, { closedJob with state := .done })] } :=
  congrArg Host.Outcome.next (by decide)

/-- Refutes O56: when INSTANCE_COMPLETE makes a RUNNING job DONE, a message numbered beyond the writes performed stays unapplied at every
die, where the statement has every die apply each message. -/
theorem not_levelAndMemoryEvents : ¬ Obligations.LevelAndMemoryEvents := by
  unfold Obligations.LevelAndMemoryEvents
  rintro ⟨-, hinst, -⟩
  obtain ⟨-, hdone, -⟩ := hinst strayState ⟨.job, 1⟩ closedJob rfl
  obtain ⟨q, hq, -, -, -, happlied, -⟩ := hdone rfl (by decide)
  rw [strayState_complete] at hq
  obtain rfl := eq_of_afterOver_no_contexts (Host.Outcome.next.inj hq).symm rfl
  have h0 : (0 : Fin 4) ∈ strayWrite.applied := happlied strayWrite (by simp [strayState]) 0 strayWrite (by simp [strayState]) rfl
  exact absurd h0 (by decide)

end Sys2Proof.Machine
end

section
/-! Rounding to a format with subnormals (02 R54, R58, R59): `roundF` rounds among the format's values, which rise with the magnitude
bits. -/

namespace Sys2Proof.Machine
open Sys2Proof

/-! ## Powers of two and the leading bit -/

theorem pow2_num_pos (e : ℤ) : 0 < (pow2 e).1 := by
  unfold pow2; split <;> positivity

theorem pow2_den_pos (e : ℤ) : 0 < (pow2 e).2 := by
  unfold pow2; split <;> positivity

/-- The fraction of `pow2` is the power. -/
theorem pow2_eq (e : ℤ) : ((pow2 e).1 : ℚ) = 2 ^ e * (pow2 e).2 := by
  unfold pow2
  split
  · rename_i h
    obtain ⟨n, rfl⟩ := Int.eq_ofNat_of_zero_le h
    simp
  · rename_i h
    obtain ⟨n, rfl⟩ : ∃ n : ℕ, e = -n := ⟨(-e).toNat, by omega⟩
    simp

theorem mul_pow2 (k : Nat) (e : ℤ) : ((k * (pow2 e).1 : ℕ) : ℚ) / (pow2 e).2 = k * 2 ^ e := by
  have hp : (0 : ℚ) < (pow2 e).2 := by exact_mod_cast pow2_den_pos e
  rw [Nat.cast_mul, pow2_eq]
  field_simp

/-- A quotient against a power of two, as `ilog2` compares it. -/
theorem lt_pow2_iff {n d : Nat} (hd : 0 < d) (e : ℤ) : n * (pow2 e).2 < d * (pow2 e).1 ↔ (n : ℚ) / d < 2 ^ e := by
  have hd' : (0 : ℚ) < d := by exact_mod_cast hd
  have hp : (0 : ℚ) < (pow2 e).2 := by exact_mod_cast pow2_den_pos e
  rw [div_lt_iff₀ hd', ← mul_lt_mul_iff_left₀ hp, ← Nat.cast_lt (α := ℚ)]
  push_cast
  rw [pow2_eq]
  ring_nf

/-- `ilog2` is the exponent of the leading bit. -/
theorem ilog2_spec {n d : Nat} (hn : 0 < n) (hd : 0 < d) :
    (2 : ℚ) ^ ilog2 n d ≤ n / d ∧ (n : ℚ) / d < 2 ^ (ilog2 n d + 1) := by
  have hd' : (0 : ℚ) < d := by exact_mod_cast hd
  have hn0 : (2 : ℚ) ^ (n.log2 : ℤ) ≤ n := by exact_mod_cast Nat.log2_self_le hn.ne'
  have hn1 : (n : ℚ) < 2 ^ ((n.log2 : ℤ) + 1) := by exact_mod_cast Nat.lt_log2_self
  have hd0 : (2 : ℚ) ^ (d.log2 : ℤ) ≤ d := by exact_mod_cast Nat.log2_self_le hd.ne'
  have hd1 : (d : ℚ) < 2 ^ ((d.log2 : ℤ) + 1) := by exact_mod_cast Nat.lt_log2_self
  have hlow : (2 : ℚ) ^ ((n.log2 : ℤ) - d.log2 - 1) ≤ n / d := by
    rw [le_div_iff₀ hd']
    calc (2 : ℚ) ^ ((n.log2 : ℤ) - d.log2 - 1) * d ≤ 2 ^ ((n.log2 : ℤ) - d.log2 - 1) * 2 ^ ((d.log2 : ℤ) + 1) := by gcongr
      _ = 2 ^ (n.log2 : ℤ) := by rw [← zpow_add₀ two_ne_zero]; ring_nf
      _ ≤ n := hn0
  have hhigh : (n : ℚ) / d < 2 ^ ((n.log2 : ℤ) - d.log2 + 1) := by
    rw [div_lt_iff₀ hd']
    calc (n : ℚ) < 2 ^ ((n.log2 : ℤ) + 1) := hn1
      _ = 2 ^ ((n.log2 : ℤ) - d.log2 + 1) * 2 ^ (d.log2 : ℤ) := by rw [← zpow_add₀ two_ne_zero]; ring_nf
      _ ≤ 2 ^ ((n.log2 : ℤ) - d.log2 + 1) * d := by gcongr
  unfold ilog2
  extract_lets e p
  split
  · rename_i h
    exact ⟨hlow, by simpa using (lt_pow2_iff hd e).1 h⟩
  · rename_i h
    exact ⟨not_lt.1 fun hx => h ((lt_pow2_iff hd e).2 hx), hhigh⟩

/-! ## Rounding among the values of a rising sequence (02 R58, R59) -/

/-- Whether a mode takes the upper of two neighbours, from the distances to the lower and to the upper one and whether the lower one
has an odd place. -/
def RMode.takesUpper (m : RMode) (neg : Bool) (below above : ℚ) (odd : Prop) : Prop :=
  match m with
  | .rn => above < below ∨ above = below ∧ odd
  | .rz => False
  | .ru => neg = false ∧ 0 < below
  | .rd => neg = true ∧ 0 < below

/-- `r` is the place of the magnitude `x` of a value of the given sign, rounded to a value of the sequence. -/
def Rounds (V : ℕ → ℚ) (m : RMode) (neg : Bool) (x : ℚ) (r : ℕ) : Prop :=
  ∃ p, V p ≤ x ∧ x < V (p + 1) ∧
    (r = p ∧ ¬ m.takesUpper neg (x - V p) (V (p + 1) - x) (p % 2 = 1) ∨
      r = p + 1 ∧ m.takesUpper neg (x - V p) (V (p + 1) - x) (p % 2 = 1))

/-- The mode is toward zero for the sign. -/
def RMode.inward (m : RMode) (neg : Bool) : Prop := m = .rz ∨ m = .ru ∧ neg = true ∨ m = .rd ∧ neg = false

/-- The mode is away from zero for the sign. -/
def RMode.outward (m : RMode) (neg : Bool) : Prop := m = .ru ∧ neg = false ∨ m = .rd ∧ neg = true

theorem RMode.takesUpper_mul (m : RMode) (neg : Bool) (a b : ℚ) {u : ℚ} (hu : 0 < u) (odd : Prop) :
    m.takesUpper neg (a * u) (b * u) odd ↔ m.takesUpper neg a b odd := by
  cases m <;> simp [takesUpper, hu, hu.ne']

/-- What a mode does depends on the values at the two neighbours only, up to a scale and an even shift of the places. -/
theorem Rounds.scale {V W : ℕ → ℚ} {m : RMode} {neg : Bool} {x u : ℚ} {r t : ℕ} (h : Rounds V m neg x r) (hu : 0 < u) (ht : t % 2 = 0)
    (hW : ∀ k, V k ≤ x → x < V (k + 1) → W (t + k) = V k * u ∧ W (t + k + 1) = V (k + 1) * u) : Rounds W m neg (x * u) (t + r) := by
  obtain ⟨p, hlo, hhi, hr⟩ := h
  obtain ⟨hp, hp'⟩ := hW p hlo hhi
  have hodd : ((t + p) % 2 = 1) = (p % 2 = 1) := by rw [eq_iff_iff]; omega
  refine ⟨t + p, hp ▸ by gcongr, hp' ▸ by gcongr, ?_⟩
  rw [hp, hp', ← sub_mul, ← sub_mul, hodd, RMode.takesUpper_mul m neg _ _ hu]
  obtain ⟨rfl, h⟩ | ⟨rfl, h⟩ := hr
  · exact .inl ⟨rfl, h⟩
  · exact .inr ⟨rfl, h⟩

section
variable {V : ℕ → ℚ} (hV : StrictMono V) {m : RMode} {neg : Bool} {x : ℚ} {r : ℕ}
include hV

/-- A value above the lower neighbour is at least the upper one. -/
theorem le_or_succ_le (p j : ℕ) : V j ≤ V p ∨ V (p + 1) ≤ V j :=
  (Nat.lt_or_ge p j).symm.imp (hV.monotone ·) (hV.monotone ·)

theorem Rounds.inward (h : Rounds V m neg x r) (hm : m.inward neg) : V r ≤ x ∧ ∀ j, V j ≤ x → V j ≤ V r := by
  obtain ⟨p, hlo, hhi, hr⟩ := h
  have hn : ¬ m.takesUpper neg (x - V p) (V (p + 1) - x) (p % 2 = 1) := by
    obtain rfl | ⟨rfl, rfl⟩ | ⟨rfl, rfl⟩ := hm <;> simp [RMode.takesUpper]
  obtain ⟨rfl, -⟩ | ⟨-, hu⟩ := hr
  · refine ⟨hlo, fun j hj => (le_or_succ_le hV r j).resolve_right fun h => ?_⟩
    linarith
  · exact absurd hu hn

theorem Rounds.outward (h : Rounds V m neg x r) (hm : m.outward neg) : x ≤ V r ∧ ∀ j, x ≤ V j → V r ≤ V j := by
  obtain ⟨p, hlo, hhi, hr⟩ := h
  have hu : m.takesUpper neg (x - V p) (V (p + 1) - x) (p % 2 = 1) ↔ V p < x := by
    obtain ⟨rfl, rfl⟩ | ⟨rfl, rfl⟩ := hm <;> simp [RMode.takesUpper]
  rw [hu] at hr
  obtain ⟨rfl, h⟩ | ⟨rfl, h⟩ := hr
  · exact ⟨not_lt.1 h, fun j hj => hlo.trans hj⟩
  · refine ⟨hhi.le, fun j hj => (le_or_succ_le hV p j).resolve_left fun h => ?_⟩
    linarith

theorem Rounds.nearest (h : Rounds V .rn neg x r) (j : ℕ) :
    |V r - x| ≤ |V j - x| ∧ (|V r - x| = |V j - x| → V r ≠ V j → r % 2 = 0) := by
  obtain ⟨p, hlo, hhi, hr⟩ := h
  simp only [RMode.takesUpper, not_or, not_and, not_lt] at hr
  have hp : |V p - x| = x - V p := by rw [abs_sub_comm, abs_of_nonneg (by linarith)]
  have hp' : |V (p + 1) - x| = V (p + 1) - x := abs_of_nonneg (by linarith)
  obtain hj | hj := le_or_succ_le hV p j
  · have hjx : |V j - x| = x - V j := by rw [abs_sub_comm, abs_of_nonneg (by linarith)]
    obtain ⟨rfl, hle, -⟩ | ⟨rfl, hlt | ⟨heq, hodd⟩⟩ := hr
    · exact ⟨by linarith, fun h hne => absurd (by linarith) hne⟩
    · exact ⟨by linarith, fun h => by linarith⟩
    · exact ⟨by linarith, fun _ _ => by omega⟩
  · have hjx : |V j - x| = V j - x := abs_of_nonneg (by linarith)
    obtain ⟨rfl, hle, heven⟩ | ⟨rfl, hup⟩ := hr
    · exact ⟨by linarith, fun h _ => by have := heven (by linarith); omega⟩
    · exact ⟨by linarith, fun h hne => absurd (by linarith) hne⟩

/-- A value of the sequence is rounded to itself. -/
theorem Rounds.self (m : RMode) (neg : Bool) (k : ℕ) : Rounds V m neg (V k) k := by
  have h := sub_pos.2 (hV (Nat.lt_succ_self k))
  refine ⟨k, le_rfl, hV (Nat.lt_succ_self k), .inl ⟨rfl, ?_⟩⟩
  cases m <;> simp only [RMode.takesUpper] <;> grind

theorem Rounds.exact {k : ℕ} (h : Rounds V m neg (V k) r) : r = k := by
  obtain ⟨p, hlo, hhi, hr⟩ := h
  have hp : p = k := by
    have := hV.le_iff_le.1 hlo
    have := hV.lt_iff_lt.1 hhi
    omega
  subst hp
  have hn : ¬ m.takesUpper neg (V p - V p) (V (p + 1) - V p) (p % 2 = 1) := by
    have := hV (Nat.lt_succ_self p)
    cases m <;> simp only [RMode.takesUpper] <;> grind
  exact hr.elim And.left fun h => absurd h.2 hn

theorem Rounds.ge {k : ℕ} (h : Rounds V m neg x r) (hx : V k ≤ x) : k ≤ r := by
  obtain ⟨p, hlo, hhi, hr⟩ := h
  have : k < p + 1 := hV.lt_iff_lt.1 (hx.trans_lt hhi)
  omega

theorem Rounds.le {k : ℕ} (h : Rounds V m neg x r) (hx : x ≤ V k) : r ≤ k := by
  obtain ⟨p, hlo, hhi, hr⟩ := id h
  have hp : p ≤ k := hV.le_iff_le.1 (hlo.trans hx)
  obtain rfl | hlt := hp.eq_or_lt
  · obtain rfl : x = V p := le_antisymm hx hlo
    exact (h.exact hV).le
  · omega
end

/-- `roundNat` rounds a quotient to a whole number. -/
theorem roundNat_rounds (neg : Bool) (n : Nat) {d : Nat} (hd : 0 < d) (m : RMode) :
    Rounds (fun k => (k : ℚ)) m neg ((n : ℚ) / d) (roundNat neg n d m) := by
  have hd' : (0 : ℚ) < d := by exact_mod_cast hd
  have hr : n % d < d := Nat.mod_lt n hd
  have hn : (n : ℚ) = d * (n / d : ℕ) + (n % d : ℕ) := by exact_mod_cast (Nat.div_add_mod n d).symm
  have hbelow : (n : ℚ) / d - (n / d : ℕ) = (n % d : ℕ) * (d : ℚ)⁻¹ := by field_simp; linarith
  have habove : ((n / d + 1 : ℕ) : ℚ) - n / d = ((d : ℚ) - (n % d : ℕ)) * (d : ℚ)⁻¹ := by push_cast; field_simp; linarith
  have hr' : ((n % d : ℕ) : ℚ) < d := by exact_mod_cast hr
  refine ⟨n / d, ?_, ?_, ?_⟩
  · rw [← sub_nonneg, hbelow]; positivity
  · rw [← sub_pos, habove]; exact mul_pos (by linarith) (by positivity)
  · rw [hbelow, habove, RMode.takesUpper_mul _ _ _ _ (by positivity)]
    have key (up : Bool) (h : m.takesUpper neg (n % d : ℕ) ((d : ℚ) - (n % d : ℕ)) (n / d % 2 = 1) ↔ up = true) :
        let r := if up = true then n / d + 1 else n / d
        r = n / d ∧ ¬ m.takesUpper neg (n % d : ℕ) ((d : ℚ) - (n % d : ℕ)) (n / d % 2 = 1) ∨
          r = n / d + 1 ∧ m.takesUpper neg (n % d : ℕ) ((d : ℚ) - (n % d : ℕ)) (n / d % 2 = 1) := by
      cases up <;> simp [h]
    cases m with
    | rn =>
      refine key (if 2 * (n % d) = d then n / d % 2 == 1 else decide (d < 2 * (n % d))) ?_
      have hlt : (d : ℚ) - (n % d : ℕ) < (n % d : ℕ) ↔ d < 2 * (n % d) := by
        rw [sub_lt_iff_lt_add, ← two_mul]; exact_mod_cast Iff.rfl
      have heq : (d : ℚ) - (n % d : ℕ) = (n % d : ℕ) ↔ 2 * (n % d) = d := by
        rw [sub_eq_iff_eq_add, ← two_mul, eq_comm]; exact_mod_cast Iff.rfl
      simp only [RMode.takesUpper, hlt, heq]
      split
      · simp [*]
      · simp [*]
    | rz => exact key false (by simp [RMode.takesUpper])
    | ru => exact key (!neg && n % d != 0) (by simp [RMode.takesUpper, Nat.pos_iff_ne_zero])
    | rd => exact key (neg && n % d != 0) (by simp [RMode.takesUpper, Nat.pos_iff_ne_zero])

/-! ## The values of a format in units of its least subnormal (02 R54) -/

namespace FFmt

/-- The value of the magnitude bits `p` in units of the least subnormal: an exponent field above 0 brings the hidden bit, and one above 1
doubles the unit each time. -/
def units (f : FFmt) (p : Nat) : Nat := (p - (p / 2 ^ f.fbits - 1) * 2 ^ f.fbits) * 2 ^ (p / 2 ^ f.fbits - 1)

/-- The least subnormal. -/
def unit (f : FFmt) : ℚ := 2 ^ (1 - (f.bias : ℤ) - f.fbits)

/-- The value of the magnitude bits `p`. -/
def magVal (f : FFmt) (p : Nat) : ℚ := f.units p * f.unit

theorem unit_pos (f : FFmt) : 0 < f.unit := by unfold unit; positivity

/-- Bits that count `k` steps from the start of the binade `t`; the last step is the start of the next binade. -/
theorem units_add (f : FFmt) {t k : Nat} (hlo : t = 0 ∨ 2 ^ f.fbits ≤ k) (hhi : k ≤ 2 * 2 ^ f.fbits) :
    f.units (t * 2 ^ f.fbits + k) = k * 2 ^ t := by
  unfold units
  generalize hF : 2 ^ f.fbits = F at *
  have hp : 0 < F := by rw [← hF]; positivity
  have hdiv : (t * F + k) / F = t + k / F := by rw [Nat.mul_comm, Nat.mul_add_div hp]
  obtain hk | rfl := hhi.lt_or_eq
  · have ht : (t * F + k) / F - 1 = t := by
      rw [hdiv]
      have h1 : k / F < 2 := Nat.div_lt_of_lt_mul (by omega)
      obtain rfl | hlo := hlo
      · omega
      · have := Nat.div_pos hlo hp
        omega
    rw [ht, Nat.add_sub_cancel_left]
  · have ht : (t * F + 2 * F) / F - 1 = t + 1 := by rw [hdiv, Nat.mul_div_cancel _ hp]; omega
    rw [ht, show t * F + 2 * F - (t + 1) * F = F by ring_nf; omega, pow_succ]
    ring

/-- Every bit pattern counts some steps in one binade. -/
theorem exists_binade (f : FFmt) (p : Nat) :
    ∃ t k, p = t * 2 ^ f.fbits + k ∧ (t = 0 ∨ 2 ^ f.fbits ≤ k) ∧ k < 2 * 2 ^ f.fbits := by
  have h := Nat.div_add_mod' p (2 ^ f.fbits)
  have hlt := Nat.mod_lt p (show 0 < 2 ^ f.fbits by positivity)
  cases hq : p / 2 ^ f.fbits with
  | zero => exact ⟨0, p, by omega, .inl rfl, by rw [hq] at h; omega⟩
  | succ t => exact ⟨t, 2 ^ f.fbits + p % 2 ^ f.fbits, by rw [hq, add_one_mul] at h; omega, .inr (by omega), by omega⟩

theorem magVal_strictMono (f : FFmt) : StrictMono f.magVal := by
  refine strictMono_nat_of_lt_succ fun p => ?_
  obtain ⟨t, k, rfl, hlo, hhi⟩ := f.exists_binade p
  unfold magVal
  rw [Nat.add_assoc, f.units_add hlo hhi.le, f.units_add (hlo.imp_right fun h => by omega) (by omega)]
  gcongr
  · exact f.unit_pos
  · omega

end FFmt

/-! ## `roundF` is a rounding among the values of its format -/

namespace FFmt

/-- The binade that a positive quotient is rounded in: 0 for the subnormals and the one above them. -/
def binade (f : FFmt) (n d : Nat) : Nat := (max (ilog2 n d) (1 - f.bias) + f.bias - 1).toNat

/-- The step of a binade. -/
def step (f : FFmt) (t : Nat) : Nat × Nat := pow2 (t + 1 - f.bias - f.fbits)

/-- The magnitude bits that a quotient is rounded to, before the test for overflow. -/
def roundMag (f : FFmt) (neg : Bool) (n d : Nat) (m : RMode) : Nat :=
  let u := f.step (f.binade n d)
  f.binade n d * 2 ^ f.fbits + roundNat neg (n * u.2) (d * u.1) m

theorem binade_eq (f : FFmt) (n d : Nat) : (f.binade n d : ℤ) = max (ilog2 n d) (1 - f.bias) + f.bias - 1 := by
  unfold binade; omega

theorem step_pos (f : FFmt) (t : Nat) : 0 < (f.step t).1 ∧ 0 < (f.step t).2 := ⟨pow2_num_pos _, pow2_den_pos _⟩

/-- A quotient counted in steps of a binade. -/
theorem steps_mul (f : FFmt) (n : Nat) {d : Nat} (hd : 0 < d) (t : Nat) :
    ((n * (f.step t).2 : ℕ) : ℚ) / ((d * (f.step t).1 : ℕ) : ℚ) * (2 ^ t * f.unit) = n / d := by
  have h : ((f.step t).1 : ℚ) = 2 ^ t * f.unit * (f.step t).2 := by
    rw [step, pow2_eq, unit, ← zpow_natCast, ← zpow_add₀ two_ne_zero]
    ring_nf
  have hu := f.unit_pos
  have hs : (0 : ℚ) < (f.step t).2 := by exact_mod_cast (f.step_pos t).2
  have hd' : (0 : ℚ) < d := by exact_mod_cast hd
  push_cast
  rw [h]
  field_simp

section
variable (f : FFmt) {n d : Nat} (hn : 0 < n) (hd : 0 < d)
include hn hd

/-- A quotient is less than two full fractions of steps of its binade, and at least one where the binade is not the lowest. -/
theorem steps_bounds :
    let y : ℚ := ((n * (f.step (f.binade n d)).2 : ℕ) : ℚ) / ((d * (f.step (f.binade n d)).1 : ℕ) : ℚ)
    y < ((2 * 2 ^ f.fbits : ℕ) : ℚ) ∧ (f.binade n d = 0 ∨ ((2 ^ f.fbits : ℕ) : ℚ) ≤ y) := by
  have ht := f.binade_eq n d
  have hmul := f.steps_mul n hd (f.binade n d)
  generalize f.binade n d = t at *
  extract_lets y
  have hu : 0 < 2 ^ t * f.unit := mul_pos (by positivity) f.unit_pos
  have hpow (k : ℕ) : ((2 ^ k : ℕ) : ℚ) * (2 ^ t * f.unit) = 2 ^ ((k : ℤ) + t + 1 - f.bias - f.fbits) := by
    push_cast
    rw [unit, ← zpow_natCast, ← zpow_natCast, ← zpow_add₀ two_ne_zero, ← zpow_add₀ two_ne_zero]
    ring_nf
  obtain ⟨hlo, hhi⟩ := ilog2_spec hn hd
  rw [← hmul] at hlo hhi
  refine ⟨?_, (Nat.eq_zero_or_pos t).imp_right fun h0 => ?_⟩
  · rw [← pow_succ', ← mul_lt_mul_iff_left₀ hu, hpow]
    exact hhi.trans_le (zpow_le_zpow_right₀ one_le_two (by push_cast; omega))
  · rw [← mul_le_mul_iff_left₀ hu, hpow]
    exact le_trans (zpow_le_zpow_right₀ one_le_two (by omega)) hlo

/-- `roundMag` rounds a quotient to a value of the format. -/
theorem roundMag_rounds (neg : Bool) (m : RMode) : Rounds f.magVal m neg ((n : ℚ) / d) (f.roundMag neg n d m) := by
  have hmul := f.steps_mul n hd (f.binade n d)
  obtain ⟨hhi, hlo⟩ := f.steps_bounds hn hd
  rw [← hmul]
  refine (roundNat_rounds neg _ (Nat.mul_pos hd (f.step_pos _).1) m).scale (mul_pos (by positivity) f.unit_pos) ?_ fun k hk hk' => ?_
  · have : 2 ^ f.fbits % 2 = 0 := by cases f <;> rfl
    simp [Nat.mul_mod, this]
  · have h1 : k < 2 * 2 ^ f.fbits := by exact_mod_cast hk.trans_lt hhi
    have h2 : f.binade n d = 0 ∨ 2 ^ f.fbits ≤ k :=
      hlo.imp_right fun h => Nat.lt_succ_iff.1 (by exact_mod_cast h.trans_lt hk')
    rw [magVal, magVal, Nat.add_assoc, f.units_add h2 h1.le, f.units_add (h2.imp_right fun h => by omega) (by omega)]
    push_cast
    exact ⟨by ring, by ring⟩

theorem roundMag_bounds (neg : Bool) (m : RMode) :
    let u := f.step (f.binade n d)
    let k := roundNat neg (n * u.2) (d * u.1) m
    k ≤ 2 * 2 ^ f.fbits ∧ (f.binade n d = 0 ∨ 2 ^ f.fbits ≤ k) := by
  obtain ⟨hhi, hlo⟩ := f.steps_bounds hn hd
  have h := roundNat_rounds neg (n * (f.step (f.binade n d)).2) (Nat.mul_pos hd (f.step_pos (f.binade n d)).1) m
  exact ⟨h.le Nat.strictMono_cast hhi.le, hlo.imp_right (h.ge Nat.strictMono_cast)⟩

end

/-- What `roundF` makes of `k` steps of `2 ^ q`. -/
def pack (f : FFmt) (neg : Bool) (k : Nat) (q : ℤ) (m : RMode) (sat : Bool) : Nat :=
  if k = 0 then f.signBit neg else
  let k' := if k = 2 ^ (f.fbits + 1) then 2 ^ f.fbits else k
  let q' := if k = 2 ^ (f.fbits + 1) then q + 1 else q
  if k' < 2 ^ f.fbits then k' + f.signBit neg
  else if q' + f.fbits + f.bias < 1 then f.signBit neg
  else
    let bits := (q' + f.fbits + f.bias).toNat * 2 ^ f.fbits + (k' - 2 ^ f.fbits)
    if f.maxBits < bits then overflowBits f neg m sat else bits + f.signBit neg

theorem pack_eq (f : FFmt) (neg : Bool) {t k : Nat} (m : RMode) (sat : Bool) (hhi : k ≤ 2 * 2 ^ f.fbits) (hlo : t = 0 ∨ 2 ^ f.fbits ≤ k) :
    f.pack neg k (t + 1 - f.bias - f.fbits) m sat =
      if f.maxBits < t * 2 ^ f.fbits + k then overflowBits f neg m sat else t * 2 ^ f.fbits + k + f.signBit neg := by
  have hmax : 2 ^ f.fbits ≤ f.maxBits := by cases f <;> decide
  have hpow : 0 < 2 ^ f.fbits := by positivity
  unfold pack
  rw [pow_succ']
  by_cases hsub : k < 2 ^ f.fbits
  · obtain rfl : t = 0 := by omega
    have h1 : k ≠ 2 * 2 ^ f.fbits := by omega
    have h2 : ¬ f.maxBits < k := by omega
    by_cases h0 : k = 0 <;> simp [h0, h1, h2, hsub]
  have h0 : k ≠ 0 := by omega
  by_cases htop : k = 2 * 2 ^ f.fbits
  · have he : (t + 1 - f.bias - f.fbits + 1 + f.fbits + f.bias : ℤ) = (t + 2 : ℕ) := by push_cast; ring
    have hbits : (t + 2) * 2 ^ f.fbits + (2 ^ f.fbits - 2 ^ f.fbits) = t * 2 ^ f.fbits + 2 * 2 ^ f.fbits := by
      rw [Nat.sub_self, add_mul, Nat.add_zero]
    simp only [htop, if_true, lt_irrefl, if_false, he, Int.toNat_natCast, hbits]
    rw [if_neg (by omega), if_neg (by omega)]
  · have he : (t + 1 - f.bias - f.fbits + f.fbits + f.bias : ℤ) = (t + 1 : ℕ) := by push_cast; ring
    have hbits : (t + 1) * 2 ^ f.fbits + (k - 2 ^ f.fbits) = t * 2 ^ f.fbits + k := by rw [add_mul]; omega
    simp only [h0, htop, hsub, if_false, he, Int.toNat_natCast, hbits]
    rw [if_neg (by omega)]

/-- `roundF` writes the rounded magnitude with its sign, or overflows. -/
theorem roundF_fin (f : FFmt) {n d : Nat} (hn : 0 < n) (hd : 0 < d) (hf : f ≠ .bf16 ∨ 1 - (f.bias : ℤ) ≤ ilog2 n d) (neg : Bool)
    (m : RMode) (sat : Bool) :
    roundF f (.fin neg n d) m sat = if f.maxBits < f.roundMag neg n d m then overflowBits f neg m sat
      else f.roundMag neg n d m + f.signBit neg := by
  obtain ⟨hhi, hlo⟩ := f.roundMag_bounds hn hd neg m
  rw [roundMag, ← f.pack_eq neg m sat hhi hlo, step]
  have hq : (if f = .bf16 then ilog2 n d else max (ilog2 n d) (1 - f.bias)) - (f.fbits + 1 - 1 : ℕ) =
      (f.binade n d : ℤ) + 1 - f.bias - f.fbits := by
    have ht := f.binade_eq n d
    split
    · have := hf.resolve_left (not_not.2 ‹_›)
      omega
    · omega
  rw [← hq]
  exact if_neg hn.ne'

end FFmt

/-! ## The value of a bit pattern -/

/-- A sign as a factor. -/
def signFactor (neg : Bool) : ℚ := if neg then -1 else 1

@[simp] theorem abs_signFactor (neg : Bool) : |signFactor neg| = 1 := by cases neg <;> simp [signFactor]

/-- The exact value as a rational; NaN and the infinities have none. -/
def FVal.toRat : FVal → ℚ
  | .fin neg n d => signFactor neg * n / d
  | _ => 0

namespace FFmt

theorem maxBits_lt (f : FFmt) : f.maxBits < 2 ^ (f.width - 1) := by cases f <;> decide

/-- A pattern is magnitude bits with a sign. -/
theorem exists_mag (f : FFmt) {w : Nat} (h : w < 2 ^ f.width) : ∃ neg p, p < 2 ^ (f.width - 1) ∧ w = p + f.signBit neg := by
  have hw : 2 ^ f.width = 2 * 2 ^ (f.width - 1) := by cases f <;> rfl
  by_cases hs : w < 2 ^ (f.width - 1)
  · exact ⟨false, w, hs, rfl⟩
  · exact ⟨true, w - 2 ^ (f.width - 1), by omega, by simp only [signBit, if_true]; omega⟩

section
variable (f : FFmt) (neg : Bool) {p : Nat}

/-- The fields of magnitude bits with a sign. -/
theorem fields_mag (hp : p < 2 ^ (f.width - 1)) :
    bitOf (p + f.signBit neg) (f.width - 1) = neg ∧ bitsOf (p + f.signBit neg) f.fbits f.ebits = p / 2 ^ f.fbits ∧
      bitsOf (p + f.signBit neg) 0 f.fbits = p % 2 ^ f.fbits := by
  have hw : f.width - 1 = f.fbits + f.ebits := by simp [width]; omega
  rw [hw] at hp
  have hpos : 0 < 2 ^ (f.fbits + f.ebits) := by positivity
  simp only [bitOf, bitsOf, signBit, hw, pow_zero, Nat.div_one]
  cases neg with
  | false =>
    refine ⟨by simp [Nat.div_eq_of_lt hp], ?_, rfl⟩
    exact Nat.mod_eq_of_lt (Nat.div_lt_of_lt_mul (by rwa [← pow_add]))
  | true =>
    refine ⟨by simp [Nat.add_div_right _ hpos, Nat.div_eq_of_lt hp], ?_, ?_⟩
    · rw [if_pos rfl, pow_add, Nat.add_mul_div_left _ _ (by positivity), Nat.add_mod_right]
      exact Nat.mod_eq_of_lt (Nat.div_lt_of_lt_mul (by rwa [← pow_add]))
    · rw [if_pos rfl, pow_add, Nat.add_mul_mod_self_left]

/-- Magnitude bits up to the largest finite ones have their value. -/
theorem decodeF_mag (hp : p ≤ f.maxBits) (hf : f ≠ .bf16 ∨ 2 ^ f.fbits ≤ p) :
    ∃ n d, 0 < d ∧ decodeF f (p + f.signBit neg) = .fin neg n d ∧ (n : ℚ) / d = f.magVal p := by
  obtain ⟨hs, he, hm⟩ := f.fields_mag neg (hp.trans_lt f.maxBits_lt)
  have hfin : ¬(f = .e4m3 ∧ p / 2 ^ f.fbits = 2 ^ f.ebits - 1 ∧ p % 2 ^ f.fbits = 7) ∧
      ¬(f ≠ .e4m3 ∧ p / 2 ^ f.fbits = 2 ^ f.ebits - 1) := by
    cases f <;> simp [maxBits, fbits, ebits] at hp ⊢ <;> omega
  have hpos : 0 < 2 ^ f.fbits := by positivity
  have hlt := Nat.mod_lt p hpos
  have hp := Nat.div_add_mod' p (2 ^ f.fbits)
  simp only [decodeF, hs, he, hm, hfin, if_false]
  by_cases h0 : p / 2 ^ f.fbits = 0
  · have hb : f ≠ .bf16 := hf.resolve_right fun h => absurd (Nat.div_pos h hpos) (by omega)
    refine ⟨_, _, pow2_den_pos (1 - f.bias - f.fbits), by rw [if_pos h0, if_neg hb], ?_⟩
    have hu := f.units_add (t := 0) (k := p % 2 ^ f.fbits) (.inl rfl) (by omega)
    have hp0 : p = 0 * 2 ^ f.fbits + p % 2 ^ f.fbits := by rw [← h0]; exact hp.symm
    rw [mul_pow2, magVal, unit]
    conv_rhs => rw [hp0, hu, pow_zero, Nat.mul_one]
  · refine ⟨_, _, pow2_den_pos ((p / 2 ^ f.fbits : ℕ) - f.bias - f.fbits), by rw [if_neg h0], ?_⟩
    have hu := f.units_add (t := p / 2 ^ f.fbits - 1) (k := 2 ^ f.fbits + p % 2 ^ f.fbits) (.inr (by omega)) (by omega)
    have hp1 : (p / 2 ^ f.fbits - 1) * 2 ^ f.fbits + (2 ^ f.fbits + p % 2 ^ f.fbits) = p := by
      rw [← Nat.add_assoc, ← Nat.add_one_mul, Nat.sub_add_cancel (Nat.pos_of_ne_zero h0), hp]
    rw [hp1] at hu
    rw [mul_pow2, magVal, unit, hu, Nat.cast_mul, Nat.cast_pow, mul_assoc, Nat.cast_two, ← zpow_natCast, ← zpow_add₀ two_ne_zero]
    congr 2
    push_cast [Nat.one_le_iff_ne_zero.2 h0]
    ring

/-- Magnitude bits beyond the largest finite ones have no value. -/
theorem decodeF_ne_fin (hp : f.maxBits < p) (hp' : p < 2 ^ (f.width - 1)) (b : Bool) (n d : Nat) :
    decodeF f (p + f.signBit neg) ≠ .fin b n d := by
  obtain ⟨hs, he, hm⟩ := f.fields_mag neg hp'
  have hfin : f = .e4m3 ∧ p / 2 ^ f.fbits = 2 ^ f.ebits - 1 ∧ p % 2 ^ f.fbits = 7 ∨
      f ≠ .e4m3 ∧ p / 2 ^ f.fbits = 2 ^ f.ebits - 1 := by
    cases f <;> simp [maxBits, fbits, ebits, width] at hp hp' ⊢ <;> omega
  simp only [decodeF, hs, he, hm]
  obtain h | h := hfin
  · rw [if_pos h]
    simp
  · rw [if_neg fun h' => h.1 h'.1, if_pos h]
    split <;> simp

theorem toRat_decodeF_mag (hp : p ≤ f.maxBits) (hf : f ≠ .bf16 ∨ 2 ^ f.fbits ≤ p) :
    (decodeF f (p + f.signBit neg)).toRat = signFactor neg * f.magVal p := by
  obtain ⟨n, d, -, h, hv⟩ := f.decodeF_mag neg hp hf
  rw [h, FVal.toRat, mul_div_assoc, hv]

end

/-- A pattern with a value, by its sign and its magnitude bits. -/
theorem exists_of_decodeF_fin (f : FFmt) {w : Nat} (hw : w < 2 ^ f.width) (h : ∃ b n d, decodeF f w = .fin b n d) :
    ∃ neg p, p ≤ f.maxBits ∧ w = p + f.signBit neg := by
  obtain ⟨neg, p, hp, rfl⟩ := f.exists_mag hw
  obtain ⟨b, n, d, h⟩ := h
  exact ⟨neg, p, not_lt.1 fun hlt => f.decodeF_ne_fin neg hlt hp b n d h, rfl⟩

theorem magVal_zero (f : FFmt) : f.magVal 0 = 0 := by simp [magVal, units]

/-- A value no larger than the largest finite one is rounded to a finite value of the format (02 R59). -/
theorem roundF_rounds (f : FFmt) (neg : Bool) {n d : Nat} (m : RMode) (hd : 0 < d)
    (hf : n = 0 ∨ f ≠ .bf16 ∨ 1 - (f.bias : ℤ) ≤ ilog2 n d) (hx : (n : ℚ) / d ≤ f.magVal f.maxBits) :
    ∃ r ≤ f.maxBits, roundF f (.fin neg n d) m = r + f.signBit neg ∧ Rounds f.magVal m neg ((n : ℚ) / d) r := by
  obtain rfl | hn := Nat.eq_zero_or_pos n
  · refine ⟨0, Nat.zero_le _, by simp [roundF], ?_⟩
    simpa [f.magVal_zero] using Rounds.self f.magVal_strictMono m neg 0
  · have h := f.roundMag_rounds hn hd neg m
    have hle := h.le f.magVal_strictMono hx
    exact ⟨_, hle, by rw [f.roundF_fin hn hd (hf.resolve_left hn.ne') neg m false, if_neg (not_lt.2 hle)], h⟩

end FFmt

/-! ## Rounding with a sign -/

section
variable {V : ℕ → ℚ} (hV : StrictMono V) (h0 : V 0 = 0) {m : RMode} {neg : Bool} {x : ℚ} {r : ℕ} (hx : 0 ≤ x)
include hV h0 hx

theorem Rounds.nearest_signed (h : Rounds V .rn neg x r) (neg' : Bool) (j : ℕ) :
    |signFactor neg * V r - signFactor neg * x| ≤ |signFactor neg' * V j - signFactor neg * x| ∧
      (|signFactor neg * V r - signFactor neg * x| = |signFactor neg' * V j - signFactor neg * x| →
        signFactor neg * V r ≠ signFactor neg' * V j → r % 2 = 0) := by
  obtain ⟨hle, heven⟩ := h.nearest hV j
  obtain ⟨hle0, heven0⟩ := h.nearest hV 0
  have hVj : 0 ≤ V j := h0 ▸ hV.monotone (Nat.zero_le j)
  rw [← mul_sub, abs_mul, abs_signFactor, one_mul]
  obtain rfl | hne := eq_or_ne neg' neg
  · rw [← mul_sub, abs_mul, abs_signFactor, one_mul]
    exact ⟨hle, fun he hne => heven he fun h => hne (by rw [h])⟩
  · have hopp : |signFactor neg' * V j - signFactor neg * x| = V j + x := by
      have hs : signFactor neg' = -signFactor neg := by cases neg <;> cases neg' <;> simp_all [signFactor]
      rw [hs, show -signFactor neg * V j - signFactor neg * x = -(signFactor neg * (V j + x)) by ring, abs_neg, abs_mul,
        abs_signFactor, one_mul, abs_of_nonneg (by linarith)]
    have hzero : |V 0 - x| = x := by rw [h0, zero_sub, abs_neg, abs_of_nonneg hx]
    rw [hopp]
    refine ⟨by linarith, fun he hv => heven0 (by linarith) fun h => hv ?_⟩
    have : V j = 0 := by linarith
    rw [h, h0, this, mul_zero, mul_zero]

theorem Rounds.up_signed (h : Rounds V .ru neg x r) (neg' : Bool) (j : ℕ) :
    signFactor neg * x ≤ signFactor neg * V r ∧
      (signFactor neg * x ≤ signFactor neg' * V j → signFactor neg * V r ≤ signFactor neg' * V j) := by
  have hVj : 0 ≤ V j := h0 ▸ hV.monotone (Nat.zero_le j)
  have hVr : 0 ≤ V r := h0 ▸ hV.monotone (Nat.zero_le r)
  cases neg with
  | false =>
    obtain ⟨hle, hleast⟩ := h.outward hV (.inl ⟨rfl, rfl⟩)
    have hj := hleast j
    have hz := hleast 0
    cases neg' <;> simp only [signFactor] <;> grind
  | true =>
    obtain ⟨hle, hmost⟩ := h.inward hV (.inr (.inl ⟨rfl, rfl⟩))
    have hj := hmost j
    cases neg' <;> simp only [signFactor] <;> grind

/-- Down is up for the opposite sign. -/
theorem Rounds.down_signed (h : Rounds V .rd neg x r) (neg' : Bool) (j : ℕ) :
    signFactor neg * V r ≤ signFactor neg * x ∧
      (signFactor neg' * V j ≤ signFactor neg * x → signFactor neg' * V j ≤ signFactor neg * V r) := by
  have hup : Rounds V .ru (!neg) x r := by simpa [Rounds, RMode.takesUpper] using h
  have hs (b : Bool) (y : ℚ) : signFactor (!b) * y = -(signFactor b * y) := by cases b <;> simp [signFactor]
  simpa only [hs, neg_le_neg_iff] using hup.up_signed hV h0 hx (!neg') j

theorem Rounds.towardZero_signed (h : Rounds V .rz neg x r) (neg' : Bool) (j : ℕ) :
    |signFactor neg * V r| ≤ |signFactor neg * x| ∧
      (|signFactor neg' * V j| ≤ |signFactor neg * x| → |signFactor neg' * V j| ≤ |signFactor neg * V r|) := by
  have hpos (k : ℕ) : 0 ≤ V k := h0 ▸ hV.monotone (Nat.zero_le k)
  obtain ⟨hle, hmost⟩ := h.inward hV (.inl rfl)
  simp only [abs_mul, abs_signFactor, one_mul, abs_of_nonneg hx, abs_of_nonneg (hpos _)]
  exact ⟨hle, hmost j⟩

end

namespace FFmt

/-- The one pattern of an infinity. -/
theorem eq_of_decodeF_inf (f : FFmt) {w : Nat} (hw : w < 2 ^ f.width) {b : Bool} (h : decodeF f w = .inf b) :
    f ≠ .e4m3 ∧ w = (2 ^ f.ebits - 1) * 2 ^ f.fbits + f.signBit b := by
  obtain ⟨neg, p, hp, rfl⟩ := f.exists_mag hw
  obtain ⟨hs, he, hm⟩ := f.fields_mag neg hp
  have hdiv := Nat.div_add_mod' p (2 ^ f.fbits)
  simp only [decodeF, hs, he, hm] at h
  split at h
  · cases h
  split at h
  · rename_i htop
    split at h
    · rename_i h0
      obtain rfl : neg = b := FVal.inf.inj h
      refine ⟨htop.1, ?_⟩
      rw [← htop.2]
      omega
    · cases h
  · split at h
    · split at h <;> cases h
    · cases h

/-- A value of at least the least normal one is rounded in a binade of its own. -/
theorem emin_le_ilog2 (f : FFmt) {n d : Nat} (hn : 0 < n) (hd : 0 < d) (h : f.magVal (2 ^ f.fbits) ≤ (n : ℚ) / d) :
    1 - (f.bias : ℤ) ≤ ilog2 n d := by
  have hu := f.units_add (t := 0) (k := 2 ^ f.fbits) (.inl rfl) (by omega)
  rw [zero_mul, zero_add, pow_zero, mul_one] at hu
  have hval : f.magVal (2 ^ f.fbits) = 2 ^ (1 - (f.bias : ℤ)) := by
    rw [magVal, hu, unit, Nat.cast_pow, Nat.cast_two, ← zpow_natCast, ← zpow_add₀ two_ne_zero]
    ring_nf
  rw [hval] at h
  have := (zpow_lt_zpow_iff_right₀ (one_lt_two (α := ℚ))).1 (h.trans_lt (ilog2_spec hn hd).2)
  omega

/-- A pattern that is not a NaN is rounded to itself from its own value; of BF16, one that is not subnormal. -/
theorem roundF_decodeF (f : FFmt) {w : Nat} (m : RMode) (hw : w < 2 ^ f.width) (hnan : decodeF f w ≠ .nan)
    (hf : f ≠ .bf16 ∨ bitsOf w f.fbits f.ebits ≠ 0) : roundF f (decodeF f w) m = w := by
  cases h : decodeF f w with
  | nan => exact absurd h hnan
  | inf b =>
    obtain ⟨hne, rfl⟩ := f.eq_of_decodeF_inf hw h
    simp [roundF, hne]
  | fin b n d =>
    obtain ⟨neg, p, hp, rfl⟩ := f.exists_of_decodeF_fin hw ⟨b, n, d, h⟩
    have hpos : 0 < 2 ^ f.fbits := by positivity
    rw [(f.fields_mag neg (hp.trans_lt f.maxBits_lt)).2.1] at hf
    have hf' : f ≠ .bf16 ∨ 2 ^ f.fbits ≤ p := hf.imp_right fun h => not_lt.1 fun hlt => h (Nat.div_eq_of_lt hlt)
    obtain ⟨n', d', hd, h', hv⟩ := f.decodeF_mag neg hp hf'
    obtain ⟨rfl, rfl, rfl⟩ := FVal.fin.inj (h.symm.trans h')
    have hmono := f.magVal_strictMono.monotone
    have hbinade : n = 0 ∨ f ≠ .bf16 ∨ 1 - (f.bias : ℤ) ≤ ilog2 n d :=
      (Nat.eq_zero_or_pos n).imp_right fun hn => hf'.imp_right fun hle => f.emin_le_ilog2 hn hd (hv ▸ hmono hle)
    obtain ⟨r, -, hround, hr⟩ := f.roundF_rounds b m hd hbinade (hv ▸ hmono hp)
    rw [hv] at hr
    rw [hround, hr.exact f.magVal_strictMono]

end FFmt

/-- Settles O46: `roundF` rounds among the values of its format (`FFmt.roundF_rounds`), and a value of the format rounds to itself. -/
theorem roundToFormat : Obligations.RoundToFormat := by
  unfold Obligations.RoundToFormat
  intro val finite
  have hval : val = FVal.toRat := by funext x; cases x <;> rfl
  refine ⟨?_, fun f w m hw hnan hb => f.roundF_decodeF m hw hnan ?_⟩
  · intro f neg n d m hf hd x hx r v
    have hV := f.magVal_strictMono
    have h0 := f.magVal_zero
    have hX : (0 : ℚ) ≤ n / d := by positivity
    have hxs : x = signFactor neg * ((n : ℚ) / d) := mul_div_assoc ..
    have hvals (b : Bool) {p : Nat} (hp : p ≤ f.maxBits) : val (decodeF f (p + f.signBit b)) = signFactor b * f.magVal p :=
      hval ▸ f.toRat_decodeF_mag b hp (.inl hf)
    have hmax : (n : ℚ) / d ≤ f.magVal f.maxBits := by
      have h : val (decodeF f f.maxBits) = f.magVal f.maxBits := (hvals false le_rfl).trans (one_mul _)
      rwa [hxs, h, abs_mul, abs_signFactor, one_mul, abs_of_nonneg hX] at hx
    obtain ⟨k, hk, hr, h⟩ := f.roundF_rounds neg m hd (.inr (.inl hf)) hmax
    have hv : v = signFactor neg * f.magVal k := by rw [← hvals neg hk, ← hr]
    change r = _ at hr
    clear_value v r x
    subst hr hv hxs
    have hsign : f.signBit neg % 2 = 0 ∧ f.signBit neg ≤ 2 ^ (f.width - 1) ∧ 2 ^ f.width = 2 * 2 ^ (f.width - 1) := by
      cases f <;> cases neg <;> decide
    have hkw := hk.trans_lt f.maxBits_lt
    refine ⟨?_, by omega, ?_⟩
    · obtain ⟨n', d', -, h', -⟩ := f.decodeF_mag neg hk (.inl hf)
      exact ⟨_, _, _, h'⟩
    · intro w hw hwf y
      obtain ⟨neg', j, hj, rfl⟩ := f.exists_of_decodeF_fin hw hwf
      have hy : y = signFactor neg' * f.magVal j := hvals neg' hj
      clear_value y
      subst hy
      refine ⟨?_, ?_, ?_, ?_⟩ <;> rintro rfl
      · obtain ⟨hle, heven⟩ := h.nearest_signed hV h0 hX neg' j
        exact ⟨hle, fun he hne => by have := heven he hne; omega⟩
      · exact h.towardZero_signed hV h0 hX neg' j
      · exact h.up_signed hV h0 hX neg' j
      · exact h.down_signed hV h0 hX neg' j
  · obtain rfl | hf := eq_or_ne f .bf16
    · exact hb
    · exact .inl hf

end Sys2Proof.Machine
end

section
/-! Elements of matrix words (02 R66, R67): the exact sum of a group, INT8 groups, and the places of sparse elements. -/

namespace Sys2Proof.Machine
open Sys2Proof

/-! ## Exact sums and products -/

/-- A finite value, its denominator positive. -/
def FVal.Finite (x : FVal) : Prop := ∃ b n d, x = .fin b n d ∧ 0 < d

theorem sgn_cast (b : Bool) (n : Nat) : ((sgn b n : ℤ) : ℚ) = signFactor b * n := by cases b <;> simp [sgn, signFactor]

theorem signFactor_natAbs (s : ℤ) : signFactor (decide (s < 0)) * s.natAbs = s := by
  rw [Nat.cast_natAbs]
  by_cases h : s < 0
  · simp [signFactor, h, abs_of_neg h]
  · simp [signFactor, h, abs_of_nonneg (not_lt.1 h)]

theorem FVal.finite_mul {x y : FVal} (hx : x.Finite) (hy : y.Finite) : (x.mul y).Finite ∧ (x.mul y).toRat = x.toRat * y.toRat := by
  obtain ⟨a, n, d, rfl, hd⟩ := hx
  obtain ⟨b, m, e, rfl, he⟩ := hy
  refine ⟨⟨_, _, _, rfl, Nat.mul_pos hd he⟩, ?_⟩
  have hs : signFactor (a != b) = signFactor a * signFactor b := by cases a <;> cases b <;> simp [signFactor]
  simp only [FVal.mul, FVal.toRat, hs, Nat.cast_mul]
  ring

theorem FVal.finite_add {x y : FVal} (hx : x.Finite) (hy : y.Finite) (m : RMode) :
    (x.add y m).Finite ∧ (x.add y m).toRat = x.toRat + y.toRat := by
  obtain ⟨a, n, d, rfl, hd⟩ := hx
  obtain ⟨b, k, e, rfl, he⟩ := hy
  have hd' : (d : ℚ) ≠ 0 := by exact_mod_cast hd.ne'
  have he' : (e : ℚ) ≠ 0 := by exact_mod_cast he.ne'
  have hsum : (FVal.fin a n d).toRat + (FVal.fin b k e).toRat = ((sgn a n * e + sgn b k * d : ℤ) : ℚ) / (d * e) := by
    push_cast [FVal.toRat, sgn_cast]
    field_simp
  rw [hsum]
  simp only [FVal.add]
  split
  · rename_i h0
    refine ⟨⟨_, _, _, rfl, Nat.one_pos⟩, ?_⟩
    rw [h0]
    simp [FVal.toRat]
  · refine ⟨⟨_, _, _, rfl, Nat.mul_pos hd he⟩, ?_⟩
    rw [FVal.toRat, signFactor_natAbs]
    push_cast
    rfl

theorem FVal.nan_add (x : FVal) (m : RMode) : FVal.nan.add x m = .nan := by simp [FVal.add]

theorem FVal.add_nan (x : FVal) (m : RMode) : x.add .nan m = .nan := by cases x <;> simp [FVal.add]

/-- A sum of products of terms, by what each term, each product and each sum stands for. -/
theorem groupSum_of {α ι : Type} [Semiring α] {R : FVal → α → Prop} (hzero : R (.fin false 0 1) 0)
    (hmul : ∀ {x y v w}, R x v → R y w → R (x.mul y) (v * w)) (hadd : ∀ {x y v w}, R x v → R y w → R (x.add y .rn) (v + w))
    {l : List ι} {f : ι → FVal × FVal} {v w : ι → α} (h : ∀ i ∈ l, R (f i).1 (v i) ∧ R (f i).2 (w i)) :
    R (groupSum (l.map f)) (l.map fun i => v i * w i).sum := by
  have hfold (t : List ι) (ht : ∀ i ∈ t, R (f i).1 (v i) ∧ R (f i).2 (w i)) (x : FVal) (u : α) (hx : R x u) :
      R ((t.map f).foldl (fun acc p => acc.add (p.1.mul p.2) .rn) x) (u + (t.map fun i => v i * w i).sum) := by
    induction t generalizing x u with
    | nil => simpa using hx
    | cons i t ih =>
      obtain ⟨hi, ht⟩ := List.forall_mem_cons.1 ht
      simpa [add_assoc] using ih ht _ _ (hadd hx (hmul hi.1 hi.2))
  cases l with
  | nil => exact hzero
  | cons i t =>
    obtain ⟨hi, ht⟩ := List.forall_mem_cons.1 h
    exact hfold t ht _ _ (hmul hi.1 hi.2)

/-- Finite terms add up. -/
theorem groupSum_finite {ts : List (FVal × FVal)} (h : ∀ p ∈ ts, p.1.Finite ∧ p.2.Finite) :
    (groupSum ts).Finite ∧ (groupSum ts).toRat = (ts.map fun p => p.1.toRat * p.2.toRat).sum := by
  have hsum := groupSum_of (R := fun x v => x.Finite ∧ x.toRat = v) (l := ts) (f := id) (v := fun p => p.1.toRat) (w := fun p => p.2.toRat)
    ⟨⟨_, _, _, rfl, Nat.one_pos⟩, by simp [FVal.toRat]⟩ ?_ ?_ fun p hp => ⟨⟨(h p hp).1, rfl⟩, (h p hp).2, rfl⟩
  · rwa [List.map_id] at hsum
  · rintro x y _ _ ⟨hx, rfl⟩ ⟨hy, rfl⟩
    exact FVal.finite_mul hx hy
  · rintro x y _ _ ⟨hx, rfl⟩ ⟨hy, rfl⟩
    exact FVal.finite_add hx hy .rn

/-- One NaN makes the sum a NaN. -/
theorem foldl_add_nan (ts : List (FVal × FVal)) (x : FVal) (h : x = .nan ∨ ∃ p ∈ ts, p.1.mul p.2 = .nan) :
    ts.foldl (fun acc p => acc.add (p.1.mul p.2) .rn) x = .nan := by
  induction ts generalizing x with
  | nil => simpa using h
  | cons p t ih =>
    refine ih _ ?_
    obtain rfl | ⟨q, hq, hn⟩ := h
    · exact .inl (FVal.nan_add ..)
    · obtain rfl | hq := List.mem_cons.1 hq
      · exact .inl (by simp only [hn, FVal.add_nan])
      · exact .inr ⟨q, hq, hn⟩

theorem groupSum_nan {ts : List (FVal × FVal)} (h : ∃ p ∈ ts, p.1.mul p.2 = .nan) : groupSum ts = .nan := by
  cases ts with
  | nil => simp at h
  | cons p t =>
    refine foldl_add_nan t _ ?_
    simpa using h

/-! ## INT8 groups (02 R67) -/

/-- The exact value of an integer is whole. -/
def FVal.IsInt (x : FVal) (v : ℤ) : Prop := ∃ b n, x = .fin b n 1 ∧ sgn b n = v

theorem ofInt_isInt (v : ℤ) : (FVal.ofInt v).IsInt v :=
  ⟨_, _, rfl, by by_cases h : v < 0 <;> simp only [sgn, h, decide_true, decide_false, if_true, Bool.false_eq_true, if_false] <;> omega⟩

theorem FVal.IsInt.mul {x y : FVal} {v w : ℤ} (hx : x.IsInt v) (hy : y.IsInt w) : (x.mul y).IsInt (v * w) := by
  obtain ⟨a, n, rfl, rfl⟩ := hx
  obtain ⟨b, m, rfl, rfl⟩ := hy
  exact ⟨_, _, rfl, by cases a <;> cases b <;> simp [sgn]⟩

theorem FVal.IsInt.add {x y : FVal} {v w : ℤ} (hx : x.IsInt v) (hy : y.IsInt w) (m : RMode) : (x.add y m).IsInt (v + w) := by
  obtain ⟨a, n, rfl, rfl⟩ := hx
  obtain ⟨b, k, rfl, rfl⟩ := hy
  simp only [FVal.add, Nat.cast_one, mul_one]
  split
  · rename_i h0
    exact ⟨_, 0, rfl, by rw [h0]; simp [sgn]⟩
  · exact (ofInt_isInt (sgn a n + sgn b k))

/-- Element bits of INT8 as a signed number. -/
theorem signedOf_byte {x : Nat} (h : x < 256) : signedOf 8 x = if 128 ≤ x then (x : ℤ) - 256 else x := by
  simp [signedOf, Nat.mod_eq_of_lt h]

theorem fieldNat_lt (l : List Byte) (o n : Nat) : fieldNat l o n < 256 ^ n := by
  have hlen (l : List Byte) : leNat l < 256 ^ l.length := by
    induction l with
    | nil => simp [leNat]
    | cons b t ih =>
      have := b.isLt
      simp only [leNat, List.length_cons, pow_succ]
      omega
  exact (hlen _).trans_le (Nat.pow_le_pow_right (by omega) (by simp))

theorem valueOf_i8 {x : Nat} (h : x < 256) : (valueOf .i8 x).IsInt (if 128 ≤ x then (x : ℤ) - 256 else x) := by
  rw [← signedOf_byte h]
  exact ofInt_isInt _

section
variable {m : MatFields} (hm : m.pair = .i8i8) (a b : List Byte)
include hm

/-- R67 for INT8: the exact sum of a group's products, modulo 2^32. -/
theorem groupStep_i8 (acc g : Nat) :
    let int8 (x : Nat) : Int := if 128 ≤ x then (x : Int) - 256 else x
    groupStep m a b acc g = (((acc : Int) + ((List.range 32).map fun i =>
      int8 (fieldNat a (32 * g + i) 1) * int8 (fieldNat b (logicalPos m a (32 * g + i)) 1)).sum).emod (2 ^ 32)).toNat := by
  intro int8
  have hterm (i : Nat) : (valueOf (pairTys m.pair).1 (aBits m a (32 * g + i))).IsInt (int8 (fieldNat a (32 * g + i) 1)) ∧
      (bValue m b (logicalPos m a (32 * g + i))).IsInt (int8 (fieldNat b (logicalPos m a (32 * g + i)) 1)) := by
    have hb : elemBytes .i8i8 = 1 := rfl
    have hne : ¬ PairType.i8i8 = .bf16nq4 := by decide
    simp only [aBits, bValue, hm, hb, mul_one, hne, if_false]
    exact ⟨valueOf_i8 (fieldNat_lt a _ 1), valueOf_i8 (fieldNat_lt b _ 1)⟩
  obtain ⟨neg, n, hsum, hv⟩ : (groupSum (groupTerms m a b g)).IsInt _ :=
    groupSum_of (R := FVal.IsInt) (l := List.range 32) ⟨false, 0, rfl, rfl⟩ FVal.IsInt.mul (fun h k => h.add k .rn) fun i _ => hterm i
  simp only [groupStep, hm, if_true, hsum]
  rw [← hv]
  rfl

end

/-- R67 for the other types: a group's sum rounded, then its sum with the accumulator rounded. -/
theorem groupStep_float {m : MatFields} (hm : m.pair ≠ .i8i8) (a b : List Byte) (acc g : Nat) :
    groupStep m a b acc g = roundF .f32 ((decodeF .f32 acc).add (decodeF .f32 (roundF .f32 (groupSum (groupTerms m a b g)) .rn)) .rn) .rn :=
  if_neg hm

/-! ## The places of sparse elements (02 R66) -/

/-- Of the numbers below a bound that meet a test, the one with `n` before it stands at index `n`. -/
theorem filter_range_getElem? {q : Nat → Bool} {b p : Nat} (hp : p < b) (hq : q p = true) :
    ((List.range b).filter q)[((List.range p).filter q).length]? = some p := by
  obtain ⟨k, rfl⟩ : ∃ k, b = p + (k + 1) := ⟨b - p - 1, by omega⟩
  rw [List.range_add, List.filter_append, List.getElem?_append_right le_rfl, Nat.sub_self, List.range_succ_eq_map]
  simp [hq]

theorem bitOf_eq_testBit (v i : Nat) : bitOf v i = v.testBit i := by
  rw [bitOf, Nat.testBit_eq_decide_div_mod_eq]

section
variable {m : MatFields} {row : List Byte} {k : Nat}

theorem logicalPos_dense (h : m.sparsity = .dense) : logicalPos m row k = k := by simp [logicalPos, h]

theorem logicalPos_sparse {per p : Nat} (h : m.sparsity = .s8 ∧ per = 8 ∨ m.sparsity = .s16 ∧ per = 16) (hp : p < 24)
    (hbit : (fieldNat row (m.dims.2.2 * elemBytes m.pair + 3 * (k / per)) 3).testBit p = true)
    (hn : ((List.range p).filter (fieldNat row (m.dims.2.2 * elemBytes m.pair + 3 * (k / per)) 3).testBit).length = k % per) :
    logicalPos m row k = 24 * (k / per) + p := by
  have hnth : nthBit (fieldNat row (m.dims.2.2 * elemBytes m.pair + 3 * (k / per)) 3) (k % per) = some p := by
    have hbits : bitOf (fieldNat row (m.dims.2.2 * elemBytes m.pair + 3 * (k / per)) 3) =
      (fieldNat row (m.dims.2.2 * elemBytes m.pair + 3 * (k / per)) 3).testBit := funext (bitOf_eq_testBit _)
    rw [nthBit, ← hn, hbits]
    exact filter_range_getElem? hp hbit
  obtain ⟨hs, rfl⟩ | ⟨hs, rfl⟩ := h <;> simp [logicalPos, hs, hnth]

end

/-- An element of a B row that is not NQ4 is its bits' value. -/
theorem bValue_plain {m : MatFields} (h : m.pair ≠ .bf16nq4) (b : List Byte) (l : Nat) :
    bValue m b l = valueOf (pairTys m.pair).2 (fieldNat b (l * elemBytes m.pair) (elemBytes m.pair)) := if_neg h

end Sys2Proof.Machine
end

section
/-! Events of the matrix array (09 R255 to R257, 14 R296): start, row pops and pairs, one lemma for each thing an event can do. -/

namespace Sys2Proof.Machine
open Sys2Proof

/-! ## The word that an event names -/

/-- What `matFind` has found stands where it says. -/
theorem matFind_mem {s : State} {core : CoreId} {id wg : Nat} {g : Workgroup} {c : MatCmd} (h : matFind s core id = some (wg, g, c)) :
    (wg, g) ∈ s.wgs ∧ c ∈ g.matrix.cmds ∧ c.id = id := by
  obtain ⟨p, hp, hc⟩ := List.exists_of_findSome?_eq_some h
  split at hc
  · obtain ⟨x, hx, he⟩ := Option.map_eq_some_iff.1 hc
    cases he
    exact ⟨hp, List.mem_of_find?_eq_some hx, by simpa using List.find?_some hx⟩
  · cases hc

theorem operation_solo {c : MatCmd} (h : c.pair = .solo) (g : Workgroup) : operation g c = [c] := by
  simp [operation, partnerWord, h]

theorem operation_paired {c x : MatCmd} {d : Nat} {g : Workgroup} (h : c.pair = .paired d) (hx : matCmd? g d = some x) :
    operation g c = [c, x] := by
  simp [operation, partnerWord, h, hx]

section
variable {s : State} {core : CoreId} {id wg : Nat} {g : Workgroup} {c : MatCmd} (hf : matFind s core id = some (wg, g, c))
include hf

/-! ## Start -/

theorem matrixWordStart_waits (h : mayStart g c = false) : exec (.matrixWordStart core id) s = .next s := by
  show execMatrixWordStart core id s = _
  simp [execMatrixWordStart, hf, h]

omit hf in
theorem operation_may_start (hall : ∀ x ∈ operation g c, x.state = .ready ∧ matHalted s g x = false) :
    (operation g c).any (fun x => decide (x.state ≠ .ready) || matHalted s g x) = false := by
  rw [List.any_eq_false]
  intro x hx
  simp [hall x hx]

theorem matrixWordStart_starts (hs : c.started = false) (hg : g.stopping = false) (hm : mayStart g c = true)
    (hall : ∀ x ∈ operation g c, x.state = .ready ∧ matHalted s g x = false ∧ tileBad g x.kind = false) :
    exec (.matrixWordStart core id) s =
      .next ((operation g c).foldl (fun s x => modMatCmd s wg x.id fun k => { k with started := true }) s) := by
  have hnone : (operation g c).find? (fun x => tileBad g x.kind) = none :=
    List.find?_eq_none.2 fun x hx => by simp [(hall x hx).2.2]
  show execMatrixWordStart core id s = _
  simp only [execMatrixWordStart, hf, hs, hg, hm, operation_may_start fun x hx => ⟨(hall x hx).1, (hall x hx).2.1⟩, hnone, Bool.or_self,
    Bool.not_true, Bool.false_eq_true, if_false]

theorem matrixWordStart_poison (hs : c.started = false) (hg : g.stopping = false) (hm : mayStart g c = true) (hp : c.pair = .solo)
    (hc : c.state = .ready) (hh : matHalted s g c = false) (hb : tileBad g c.kind = true) :
    exec (.matrixWordStart core id) s = .next (matFault s wg g c { code := .poison, access := .read }) := by
  show execMatrixWordStart core id s = _
  simp [execMatrixWordStart, hf, hs, hg, hm, operation_solo hp, hc, hh, hb]

/-! ## Rows -/

theorem matrixRowPop_idle (h : c.started = false) : exec (.matrixRowPop core id) s = .next s := by
  show execMatrixRowPop core id s = _
  simp only [execMatrixRowPop, hf]
  split <;> simp [h]

section
variable {m : MatFields} (hk : c.kind.fields? = some m) (hs : c.started = true) (hc : c.state = .ready)
include hk hs hc

theorem matrixRowPop_next : exec (.matrixRowPop core id) s = .next (popNext s wg g c m) := by
  show execMatrixRowPop core id s = _
  simp [execMatrixRowPop, hf, hk, hs, hc]

/-- A word that wants B rows, whose turn at its FIFO has come, and whose FIFO holds a row or another world's bytes, pops there. -/
theorem matrixRowPop_B (hw : wantsB c m = true) (hp : mayPop g c false m.fb.val = true)
    (hh : bRowSize m ≤ (fifoOf g c.world (4 + m.fb.val)).bytes.length ∨ (fifoOf g c.world (4 + m.fb.val)).world ≠ c.world) :
    exec (.matrixRowPop core id) s = .next (popRow s wg g c false m.fb.val (bRowSize m)) := by
  rw [matrixRowPop_next hf hk hs hc]
  simp [popNext, hw, hp, fifoCodeOf, hh]

theorem matrixRowPop_A (hb : wantsB c m = false) (hw : wantsA c m = true) (hp : mayPop g c true m.fa.val = true)
    (hh : aRowSize m ≤ (fifoOf g c.world m.fa.val).bytes.length) :
    exec (.matrixRowPop core id) s = .next (popRow s wg g c true m.fa.val (aRowSize m)) := by
  rw [matrixRowPop_next hf hk hs hc]
  simp [popNext, hb, hw, hp, fifoCodeOf, hh]

end
end

/-- The FIFO after a row has left its front. -/
def Fifo.popped (f : Fifo) (n : Nat) : Fifo := { f with bytes := f.bytes.drop n, bad := f.bad.map fun b => b - n }

section
variable (s : State) (wg : Nat) (g : Workgroup) (c : MatCmd) (a : Bool) (n bytes : Nat)

theorem popRow_world (h : (fifoOf g c.world (fifoCodeOf a n)).world ≠ c.world) :
    popRow s wg g c a n bytes = matFault s wg g c { code := .world, detail := 4 } := if_pos h

/-- A whole row leaves the front, and no byte behind it fails its check. -/
theorem popRow_row (hw : (fifoOf g c.world (fifoCodeOf a n)).world = c.world)
    (hl : bytes ≤ (fifoOf g c.world (fifoCodeOf a n)).bytes.length) (hb : ∀ b ∈ (fifoOf g c.world (fifoCodeOf a n)).bad, bytes ≤ b) :
    popRow s wg g c a n bytes = modMatCmd (s.modWg wg fun g' => { g' with
        fifos := g'.fifos.set (fifoCodeOf a n) ((fifoOf g c.world (fifoCodeOf a n)).popped bytes) }) wg c.id
      fun k => if a then { k with aRows := k.aRows ++ [(fifoOf g c.world (fifoCodeOf a n)).bytes.take bytes] }
        else { k with bRows := k.bRows ++ [(fifoOf g c.world (fifoCodeOf a n)).bytes.take bytes] } := by
  have hfilter : (fifoOf g c.world (fifoCodeOf a n)).bad.filter (fun b => decide (bytes ≤ b)) = (fifoOf g c.world (fifoCodeOf a n)).bad :=
    List.filter_eq_self.2 fun b hx => decide_eq_true (hb b hx)
  have hbad : ((fifoOf g c.world (fifoCodeOf a n)).bad.any fun b => decide (b < bytes)) = false := by
    simpa [List.any_eq_false] using hb
  simp only [popRow, hw, ne_eq, not_true_eq_false, if_false, Nat.not_lt.2 hl, hbad, Bool.false_eq_true, hfilter, Fifo.popped]

end

/-! ## Pairs -/

section
variable {s : State} {core : CoreId} {id wg : Nat} {g : Workgroup} {c : MatCmd} (hf : matFind s core id = some (wg, g, c))
  {m : MatFields} (hk : c.kind = .mmap m) (hp : c.pair = .undecided) (hc : c.state = .ready) (hh : matHalted s g c = false)
include hf hk hp hc hh

theorem mmapDecision_decides : exec (.mmapDecision core id) s = .next (decidePair s wg g c m) := by
  show execMmapDecision core id s = _
  simp [execMmapDecision, hf, hk, hp, hc, hh]

section
variable {d : MatCmd} {n : MatFields} (hd : matched g c = some d) (hn : d.kind = .mmap n) (h1 : waitsBehind g c d.id = false)
  (h2 : waitsBehind g d c.id = false)
include hd hn h1 h2

theorem mmapDecision_pairs (ha : pairAgrees m n = true) : exec (.mmapDecision core id) s =
    .next (modMatCmd (modMatCmd s wg c.id fun k => { k with pair := .paired d.id }) wg d.id fun k => { k with pair := .paired c.id }) := by
  rw [mmapDecision_decides hf hk hp hc hh]
  simp [decidePair, hd, hn, h1, h2, ha, setPair]

theorem mmapDecision_fails (ha : pairAgrees m n = false) : exec (.mmapDecision core id) s = .next (failPair s wg g c d) := by
  rw [mmapDecision_decides hf hk hp hc hh]
  simp [decidePair, hd, hn, h1, h2, ha]

end

/-- A partner that has ended issues no further MMAP: the word runs alone. -/
theorem mmapDecision_alone (hd : matched g c = none) (ha : atHead g c m = true)
    (hgone : ∀ p, s.strands.get? (partnerOf c.sid) = some p → p.ended ≠ .no ∧ p.mmaps ≤ c.index) :
    exec (.mmapDecision core id) s = .next (modMatCmd s wg c.id fun k => { k with pair := .solo }) := by
  rw [mmapDecision_decides hf hk hp hc hh]
  cases hx : s.strands.get? (partnerOf c.sid) with
  | none => simp [decidePair, hd, ha, hx, setPair]
  | some p => simp [decidePair, hd, ha, hx, setPair, hgone p hx]

end

end Sys2Proof.Machine
end

section
/-! The completion of a matrix word (09 R255, R258, R259): what its workgroup's tiles read, and what else it leaves. -/

namespace Sys2Proof.Machine
open Sys2Proof

/-! ## Tiles: what is read after words have been written -/

theorem Mem.read_congr {m n : Mem} {a k : Nat} (h : ∀ i, a ≤ i → i < a + k → n.get i = m.get i) : n.read a k = m.read a k := by
  induction k generalizing a with
  | zero => rfl
  | succ k ih => rw [Mem.read, Mem.read, h a le_rfl (by omega), ih fun i hi hk => h i (by omega) (by omega)]

/-- A read of bytes apart from those written. -/
theorem Mem.readNat_writeNat_other {m : Mem} (h : m.wf = true) {a b n k : Nat} (v : Nat) (hab : a + n ≤ b ∨ b + k ≤ a) :
    (m.writeNat a n v).readNat b k = m.readNat b k := by
  unfold Mem.readNat Mem.writeNat
  rw [Mem.read_congr fun i _ _ => Mem.get_write_other h a _ (by rw [length_natLE]; omega)]

/-- The elements of tiles lie apart. -/
theorem tileOff_apart {u r x u' r' x' : Nat} (hr : r < 128) (hx : x < 128) (hr' : r' < 128) (hx' : x' < 128)
    (h : (u', r', x') ≠ (u, r, x)) : tileOff u' r' x' + 4 ≤ tileOff u r x ∨ tileOff u r x + 4 ≤ tileOff u' r' x' := by
  have h' : ¬ (u' = u ∧ r' = r ∧ x' = x) := fun hp => h (by rw [hp.1, hp.2.1, hp.2.2])
  unfold tileOff
  omega

/-- Words written to tiles: the tile, the row, the column and the value of each. -/
def writeTiles (m : Mem) (l : List (Nat × Nat × Nat × Nat)) : Mem := l.foldl (fun t x => tileWrite t x.1 x.2.1 x.2.2.1 x.2.2.2) m

section
variable {m : Mem} (hm : m.wf = true) {l : List (Nat × Nat × Nat × Nat)} (hl : ∀ e ∈ l, e.2.1 < 128 ∧ e.2.2.1 < 128)
  {u r x : Nat} (hr : r < 128) (hx : x < 128)
include hm hl hr hx

/-- An element that no write names keeps its value. -/
theorem readNat_writeTiles_other (hne : ∀ e ∈ l, (e.1, e.2.1, e.2.2.1) ≠ (u, r, x)) :
    (writeTiles m l).readNat (tileOff u r x) 4 = m.readNat (tileOff u r x) 4 := by
  induction l generalizing m with
  | nil => rfl
  | cons e t ih =>
    obtain ⟨he, ht⟩ := List.forall_mem_cons.1 hl
    obtain ⟨hne', hnt⟩ := List.forall_mem_cons.1 hne
    exact (ih (Mem.wf_writeNat _ 4 _ hm) ht hnt).trans (Mem.readNat_writeNat_other hm _ (tileOff_apart hr hx he.1 he.2 hne'))

/-- An element reads the value that every write to it has. -/
theorem readNat_writeTiles {v : Nat} (hv : ∀ e ∈ l, (e.1, e.2.1, e.2.2.1) = (u, r, x) → e.2.2.2 = v) (he : (u, r, x, v) ∈ l) :
    (writeTiles m l).readNat (tileOff u r x) 4 = v % 2 ^ 32 := by
  induction l generalizing m with
  | nil => cases he
  | cons e t ih =>
    obtain ⟨hle, hlt⟩ := List.forall_mem_cons.1 hl
    obtain ⟨hve, hvt⟩ := List.forall_mem_cons.1 hv
    have hm' : (tileWrite m e.1 e.2.1 e.2.2.1 e.2.2.2).wf = true := Mem.wf_writeNat _ 4 _ hm
    by_cases ht : (u, r, x, v) ∈ t
    · exact ih hm' hlt hvt ht
    · obtain rfl : (u, r, x, v) = e := (List.mem_cons.1 he).resolve_right ht
      have hne : ∀ e ∈ t, (e.1, e.2.1, e.2.2.1) ≠ (u, r, x) := fun e hmem hp => by
        have hval := hvt e hmem hp
        obtain ⟨a, b, c, d⟩ := e
        cases hp
        cases hval
        exact ht hmem
      exact (readNat_writeTiles_other hm' hlt hr hx hne).trans (Mem.readNat_writeNat hm _ 4 v)

end

/-! ## Completion -/

/-- A workgroup without one word. -/
def Workgroup.dropWord (g : Workgroup) (id : Nat) : Workgroup :=
  { g with matrix := { g.matrix with cmds := g.matrix.cmds.filter fun k => k.id ≠ id } }

theorem Workgroup.dropWord_gone (g : Workgroup) (id : Nat) : ∀ k ∈ (g.dropWord id).matrix.cmds, k.id ≠ id := by
  intro k hk
  simpa using (List.mem_filter.1 hk).2

section
variable (s : State) (wg : Nat) (c : MatCmd)

theorem finishMat_get? (w : Nat) :
    (finishMat s wg c).wgs.get? w = if wg = w then (s.wgs.get? w).map fun g => g.dropWord c.id else s.wgs.get? w := by
  have h : (finishMat s wg c).wgs = s.wgs.modify wg fun g => g.dropWord c.id := by
    unfold finishMat
    cases c.copy <;> rfl
  rw [h, Assoc.get?_modify]

@[simp] theorem finishMat_mem : (finishMat s wg c).mem = s.mem := by
  unfold finishMat
  cases c.copy <;> rfl

@[simp] theorem finishMat_strands : (finishMat s wg c).strands = s.strands := by
  unfold finishMat
  cases c.copy <;> rfl

variable {c}

/-- A follow-on word takes its copy command with it (04 R107). -/
theorem finishMat_copyGone {n : CoreId} {q : Fin 4} {y : Nat} (h : c.copy = some (n, q, y)) :
    ∀ k ∈ ((finishMat s wg c).copyQ n q).cmds, k.num ≠ y := by
  have hq : ((finishMat s wg c).copyQ n q).cmds = ((dropMat s wg c.id).copyQ n q).cmds.filter fun k => k.num ≠ y := by
    simp [finishMat, h, dropCopy, State.copyQ, State.setCopyQ]
  rw [hq]
  intro k hk
  simpa using (List.mem_filter.1 hk).2

end

/-- What the completion of a word leaves: its tiles written, the word gone with the copy command that carried it, and the rest. -/
structure Completes (s : State) (wg : Nat) (g : Workgroup) (c : MatCmd) (l : List (Nat × Nat × Nat × Nat)) (t : State) (g' : Workgroup) :
    Prop where
  found : t.wgs.get? wg = some g'
  tiles : g'.tiles = writeTiles g.tiles l
  gone : ∀ k ∈ g'.matrix.cmds, k.id ≠ c.id
  scratch : g'.scratch = g.scratch
  mem : t.mem = s.mem
  strands : t.strands = s.strands
  copyGone : ∀ n q y, c.copy = some (n, q, y) → ∀ k ∈ (t.copyQ n q).cmds, k.num ≠ y

theorem finishMat_putTiles_completes {s : State} {wg : Nat} {g : Workgroup} (hg : s.wgs.get? wg = some g) (c : MatCmd)
    (l : List (Nat × Nat × Nat × Nat)) : ∃ g', Completes s wg g c l (finishMat (putTiles s wg l) wg c) g' := by
  have hfound : (finishMat (putTiles s wg l) wg c).wgs.get? wg = some (Workgroup.dropWord { g with
      tiles := writeTiles g.tiles l
      badTiles := g.badTiles.filter fun k => !l.any fun x => 4 * k == tileOff x.1 x.2.1 x.2.2.1 } c.id) := by
    rw [finishMat_get?, if_pos rfl, putTiles, State.modWg_wgs, Assoc.get?_modify_same, hg]
    rfl
  exact ⟨_, hfound, rfl, Workgroup.dropWord_gone _ _, rfl, finishMat_mem .., finishMat_strands .., fun _ _ _ h => finishMat_copyGone _ _ h⟩

/-! ## The tiles after each kind of word -/

theorem mem_tileIndices {r x : Nat} : (r, x) ∈ tileIndices ↔ r < 128 ∧ x < 128 := by simp [tileIndices]

theorem dims_fst_le (m : MatFields) : m.dims.1 ≤ 128 := by
  have h : 2 ^ m.m.val ≤ 2 ^ 3 := Nat.pow_le_pow_right (by omega) (by omega)
  show 16 * 2 ^ m.m.val ≤ 128
  omega

theorem mem_productWrites {g : Workgroup} {m : MatFields} {as bs : List (List Byte)} {e : Nat × Nat × Nat × Nat} :
    e ∈ productWrites g m as bs ↔
      ∃ i < m.dims.1, ∃ j < m.dims.2.1, (m.tile.val + j / 128, i, j % 128, newElem g m as bs i j) = e := by
  simp only [productWrites, colPlace, List.mem_flatten, List.mem_map, List.mem_range]
  constructor
  · rintro ⟨_, ⟨i, hi, rfl⟩, he⟩
    obtain ⟨j, hj, rfl⟩ := List.mem_map.1 he
    exact ⟨i, hi, j, List.mem_range.1 hj, rfl⟩
  · rintro ⟨i, hi, j, hj, rfl⟩
    exact ⟨_, ⟨i, hi, rfl⟩, List.mem_map.2 ⟨j, List.mem_range.2 hj, rfl⟩⟩

section
variable {s t : State} {wg : Nat} {g g' : Workgroup} {c : MatCmd} {l : List (Nat × Nat × Nat × Nat)} (hc : Completes s wg g c l t g')
  (hwf : g.tiles.wf = true)
include hc hwf

/-- A word that writes a whole tile. -/
theorem Completes.wholeTile {d : Nat} {v : Nat × Nat → Nat} (hl : l = tileIndices.map fun p => (d, p.1, p.2, v p)) {u r x : Nat} (hr : r < 128)
    (hx : x < 128) : tileRead g' u r x = if u = d then v (r, x) % 2 ^ 32 else tileRead g u r x := by
  have hb : ∀ e ∈ l, e.2.1 < 128 ∧ e.2.2.1 < 128 := by
    rw [hl, List.forall_mem_map]
    exact fun p hp => mem_tileIndices.1 hp
  unfold tileRead
  rw [hc.tiles]
  split
  · rename_i hu
    subst hu
    refine readNat_writeTiles hwf hb hr hx ?_ ?_
    · rw [hl, List.forall_mem_map]
      rintro ⟨a, b⟩ - hp
      cases hp
      rfl
    · rw [hl]
      exact List.mem_map.2 ⟨(r, x), mem_tileIndices.2 ⟨hr, hx⟩, rfl⟩
  · rename_i hu
    refine readNat_writeTiles_other hwf hb hr hx ?_
    rw [hl, List.forall_mem_map]
    exact fun p _ hp => hu (congrArg Prod.fst hp).symm

/-- A product writes the elements of its region (R66, R67). -/
theorem Completes.product {m : MatFields} {as bs : List (List Byte)} (hl : l = productWrites g m as bs) {u r x : Nat}
    (hr : r < 128) (hx : x < 128) : tileRead g' u r x =
      if m.tile.val ≤ u ∧ r < m.dims.1 ∧ 128 * (u - m.tile.val) + x < m.dims.2.1
      then productOf m (as.getD r []) (bs.getD (128 * (u - m.tile.val) + x) []) (tileRead g u r x) % 2 ^ 32
      else tileRead g u r x := by
  have hb : ∀ e ∈ l, e.2.1 < 128 ∧ e.2.2.1 < 128 := by
    rw [hl]
    intro e he
    obtain ⟨i, hi, j, -, rfl⟩ := mem_productWrites.1 he
    exact ⟨hi.trans_le (dims_fst_le m), Nat.mod_lt _ (by omega)⟩
  have hplace {i j : Nat} (hp : (m.tile.val + j / 128, i, j % 128) = (u, r, x)) :
      m.tile.val ≤ u ∧ i = r ∧ j = 128 * (u - m.tile.val) + x := by
    obtain ⟨h1, h2, h3⟩ : m.tile.val + j / 128 = u ∧ i = r ∧ j % 128 = x := by simpa using hp
    omega
  have hread : tileRead g' u r x = (writeTiles g.tiles l).readNat (tileOff u r x) 4 := by rw [tileRead, hc.tiles]
  rw [hread]
  split
  · rename_i h
    obtain ⟨hu, hrow, hcol⟩ := h
    have hdiv : m.tile.val + (128 * (u - m.tile.val) + x) / 128 = u := by omega
    have hmod : (128 * (u - m.tile.val) + x) % 128 = x := by omega
    have hnew : newElem g m as bs r (128 * (u - m.tile.val) + x) =
        productOf m (as.getD r []) (bs.getD (128 * (u - m.tile.val) + x) []) (tileRead g u r x) := by
      simp only [newElem, colPlace, hdiv, hmod]
    refine readNat_writeTiles hwf hb hr hx ?_ ?_
    · rw [hl]
      intro e he hp
      obtain ⟨i, -, j, -, rfl⟩ := mem_productWrites.1 he
      obtain ⟨-, rfl, rfl⟩ := hplace hp
      exact hnew
    · rw [hl, ← hnew]
      exact mem_productWrites.2 ⟨r, hrow, _, hcol, by rw [hdiv, hmod]⟩
  · rename_i h
    refine readNat_writeTiles_other hwf hb hr hx ?_
    rw [hl]
    intro e he hp
    obtain ⟨i, hi, j, hj, rfl⟩ := mem_productWrites.1 he
    obtain ⟨hu, rfl, rfl⟩ := hplace hp
    exact h ⟨hu, hi, hj⟩

end

/-! ## MATRIX_WORD_COMPLETE (09 R255, R258, R259) -/

section
variable {s : State} {core : CoreId} {id wg : Nat} {g : Workgroup} {c : MatCmd} (hf : matFind s core id = some (wg, g, c))
include hf

theorem matrixWordComplete_idle (h : c.started = false) : exec (.matrixWordComplete core id) s = .next s := by
  show execMatrixWordComplete core id s = _
  simp [execMatrixWordComplete, hf, h]

variable (hs : c.started = true) (hc : c.state = .ready)
include hs hc

theorem matrixWordComplete_mzero {d : TileNo} (hk : c.kind = .mzero d) : exec (.matrixWordComplete core id) s =
    .next (finishMat (putTiles s wg (tileIndices.map fun p => (d.val, p.1, p.2, 0))) wg c) := by
  show execMatrixWordComplete core id s = _
  simp [execMatrixWordComplete, hf, hs, hc, hk]

theorem matrixWordComplete_mguide {d a b : TileNo} {w : W32} (hk : c.kind = .mguide d a b w) : exec (.matrixWordComplete core id) s =
    .next (finishMat (putTiles s wg (tileIndices.map fun p =>
      (d.val, p.1, p.2, guide (tileRead g a.val p.1 p.2) (tileRead g b.val p.1 p.2) w.toNat))) wg c) := by
  show execMatrixWordComplete core id s = _
  simp [execMatrixWordComplete, hf, hs, hc, hk]

theorem matrixWordComplete_mma {m : MatFields} (hk : c.kind.fields? = some m) (hp : c.pair = .solo) (hr : hasRows g c m = true) :
    exec (.matrixWordComplete core id) s = .next (finishMat (putTiles s wg (productWrites g m c.aRows c.bRows)) wg c) := by
  have hrows : completeMma s wg g c m = finishMat (putTiles s wg (productWrites g m c.aRows c.bRows)) wg c := by
    simp [completeMma, bRowsOf, holdsB, hp]
  show execMatrixWordComplete core id s = _
  cases hkind : c.kind with
  | mma n | mmap n =>
    obtain rfl : n = m := by simpa [hkind, MatKind.fields?] using hk
    simp [execMatrixWordComplete, hf, hs, hc, hkind, hr, hrows]
  | mzero | mguide => simp [hkind, MatKind.fields?] at hk

end

end Sys2Proof.Machine
end

section
/-! Words ended by a cancel (01 R18): the strands that stop leave workgroups and levels of work alone, so that every word that waits ends. -/

namespace Sys2Proof.Machine
open Sys2Proof

/-- What lies under a level of work is read from the parents alone. -/
theorem under_congr {s t : State} (h : ∀ i, (t.inst? i).bind Inst.parent = (s.inst? i).bind Inst.parent) (j i : InstId) :
    under t j i = under s j i := by
  suffices hgo : ∀ n i, underGo t j n i = underGo s j n i from hgo 6 i
  intro n
  induction n with
  | zero => exact fun _ => rfl
  | succ n ih =>
    intro i
    unfold underGo
    rw [h]
    cases (s.inst? i).bind Inst.parent with
    | none => rfl
    | some p => simp only [ih]

/-- Every workgroup is as it was, and every level of work lies where it lay. -/
structure KeepsWork (s t : State) : Prop where
  wgs : t.wgs = s.wgs
  parent : ∀ i, (t.inst? i).bind Inst.parent = (s.inst? i).bind Inst.parent

namespace KeepsWork

theorem refl (s : State) : KeepsWork s s := ⟨rfl, fun _ => rfl⟩

theorem trans {s t u : State} (h : KeepsWork s t) (k : KeepsWork t u) : KeepsWork s u :=
  ⟨k.wgs.trans h.wgs, fun i => (k.parent i).trans (h.parent i)⟩

/-- The last of two steps first, so that it names the state between them. -/
theorem after {s t u : State} (k : KeepsWork t u) (h : KeepsWork s t) : KeepsWork s u := h.trans k

theorem of_eq {s t : State} (hw : t.wgs = s.wgs) (hi : t.insts = s.insts) : KeepsWork s t :=
  ⟨hw, fun i => by rw [State.inst?, State.inst?, hi]⟩

theorem of_sameButMemory {s t : State} (h : SameButMemory s t) : KeepsWork s t := by
  refine of_eq ?_ ?_ <;> rw [← h.rest]

theorem foldl {β : Type} {f : State → β → State} (h : ∀ s x, KeepsWork s (f s x)) (l : List β) (s : State) : KeepsWork s (l.foldl f s) :=
  foldl_keeps (KeepsWork s) f (fun _ x hs => hs.trans (h _ x)) l s (refl s)

end KeepsWork

/-! ## Memory, messages and the store buffer -/

theorem State.performAt_sameButMemory (s : State) (d : Fin 4) (w pa : Nat) (bs : List Byte) : SameButMemory s (s.performAt d w pa bs) := by
  unfold State.performAt
  refine .foldl (fun s g => ?_) _ _
  extract_lets cells u
  have hu : SameButMemory s u := s.onLine_sameButMemory g.1 _
  clear_value u
  exact hu.trans ⟨rfl⟩

theorem writeNow_sameButMemory (s : State) (d : Fin 4) (world va : Nat) (bs : List Byte) (priv : Bool) :
    SameButMemory s (writeNow s d world va bs priv).1 := by
  unfold writeNow
  extract_lets checked
  have hc : SameButMemory s checked.1 := by
    refine foldl_keeps (fun a : State × Except Code (List (Nat × Nat × Nat)) => SameButMemory s a.1) _ (fun a g ha => ?_) _ _ (.refl s)
    obtain ⟨u, r⟩ := a
    cases r with
    | error c => exact ha
    | ok l =>
      have ht := ha.trans (translateNow_sameButMemory u d world g.1 .write priv)
      simp only
      split <;> simpa [*] using ht
  generalize checked = x at hc
  obtain ⟨u, r⟩ := x
  cases r with
  | error c => exact hc
  | ok l => exact hc.trans (.foldl (fun s g => s.performAt_sameButMemory ..) l u)

theorem State.covered_keepsWork (s : State) (l : List (Nat × List Byte)) : KeepsWork s (s.covered l) := by
  unfold State.covered
  split
  · exact .refl s
  · exact .of_eq rfl rfl

theorem sendRuns_keepsWork (s : State) (world : Nat) (sender : Option StrandId) (op : RmaOp) (l : List (Nat × List Byte)) :
    KeepsWork s (sendRuns s world sender op l) := by
  unfold sendRuns
  split
  · split <;> exact .of_eq rfl rfl
  · unfold newMessage noteSent
    extract_lets
    split <;> exact .of_eq rfl rfl

theorem performStore_keepsWork (s : State) (sid : StrandId) (core : CoreId) (world : Nat) (e : SBEntry) :
    KeepsWork s (performStore s sid core world e) := by
  unfold performStore
  extract_lets s1 s2 s3
  have h1 : KeepsWork s s1 := .foldl (fun s l => by
    split
    · exact .refl s
    · exact (KeepsWork.of_sameButMemory (s.performAt_sameButMemory ..)).trans (.of_eq rfl rfl)) _ _
  have h2 : KeepsWork s1 s2 := .foldl (fun s m => sendRuns_keepsWork ..) _ _
  have h3 : KeepsWork s s3 := (h1.trans h2).trans (State.covered_keepsWork ..)
  split
  · exact h3.trans (.of_eq rfl rfl)
  · exact h3

theorem drain_keepsWork (s : State) (sid : StrandId) : KeepsWork s (drain s sid) := by
  unfold drain
  split
  · exact .refl s
  · exact (KeepsWork.foldl (fun s x => performStore_keepsWork ..) _ _).after (.of_eq rfl rfl)

/-! ## Barriers and the end of a strand -/

theorem leavePhase_keepsWork (k : BarKey) (s : State) (sid : StrandId) : KeepsWork s (leavePhase k s sid) := by
  unfold leavePhase
  split
  · exact .refl s
  · split
    · split <;> exact .of_eq rfl rfl
    · split
      · extract_lets b t
        split <;> exact .of_eq rfl rfl
      · exact .refl s
    · exact .refl s

theorem completePhases_keepsWork (s : State) (sid : StrandId) : KeepsWork s (completePhases s sid) := by
  refine .foldl (fun s k => ?_) _ s
  unfold completePhase
  split
  · exact (KeepsWork.foldl (fun s sid => leavePhase_keepsWork k s sid) _ _).after (.of_eq rfl rfl)
  · exact .refl s

theorem breakBars_keepsWork (s : State) (sid : StrandId) : KeepsWork s (breakBars s sid) := by
  unfold breakBars
  refine .foldl (fun _ _ => ?_) _ s
  exact .of_eq rfl rfl

theorem countCancelled_keepsWork (s : State) (i : InstId) : KeepsWork s (countCancelled s i) := by
  refine ⟨rfl, fun j => ?_⟩
  show ((s.insts.modify i _).get? j).bind _ = (s.insts.get? j).bind _
  rw [Assoc.get?_modify]
  split
  · cases s.insts.get? j <;> rfl
  · rfl

theorem endStrand_keepsWork (s : State) (sid : StrandId) (how : End) : KeepsWork s (endStrand s sid how) := by
  unfold endStrand
  split
  · exact .refl s
  split
  · exact .refl s
  extract_lets s0 s1 s2 s3
  have h1 : KeepsWork s s1 := by
    unfold s1
    split
    · exact (drain_keepsWork ..).after (.of_eq rfl rfl)
    · exact .refl s
  have h2 : KeepsWork s s2 := h1.trans (.of_eq rfl rfl)
  have h3 : KeepsWork s s3 := by
    unfold s3
    split
    · exact h2
    · exact h2.trans (countCancelled_keepsWork ..)
  split
  · exact h3
  · exact h3.trans ((completePhases_keepsWork ..).trans (breakBars_keepsWork ..))

/-! ## The records of strands -/

theorem fileRec_keepsWork (s : State) (world : Nat) (d : Fin 4) (r : FaultRec) : KeepsWork s (fileRec s world d r).1 := by
  unfold fileRec
  split
  · exact .refl s
  · extract_lets r' r'' s1 s2
    have h1 : KeepsWork s s1 := .of_eq rfl rfl
    have h2 : KeepsWork s s2 := h1.trans (.of_sameButMemory (writeNow_sameButMemory s1 ..))
    clear_value s2
    split
    · exact h2.trans (.of_eq rfl rfl : KeepsWork s2 (s2.tell 0 _))
    · exact .of_eq rfl rfl

/-- The consequence of a record that ends a strand's scalar stream. -/
theorem consequence_scalar (s : State) {r : FaultRec} {sid : StrandId} (ha : r.agent = .scalar sid) (hw : r.waiting = false) :
    consequence s r = endStrand s sid .faulted := by
  unfold consequence
  rw [if_neg (by simp [hw])]
  split
  · rename_i h
    cases ha.symm.trans h
  · rw [ha]
    rfl

/-- Filing the record of a strand's scalar stream that ends the strand. -/
theorem deliver_keepsWork (s : State) (world : Nat) (d : Fin 4) {r : FaultRec} {sid : StrandId} (ha : r.agent = .scalar sid)
    (hw : r.waiting = false) : KeepsWork s (deliver s world d r) := by
  have h := fileRec_keepsWork s world d r
  unfold deliver
  split
  · rename_i t ht
    rw [ht] at h
    refine h.trans ?_
    simp only [stopAgent, ha]
    exact .of_eq rfl rfl
  · rename_i t n ht
    rw [ht] at h
    have htell : KeepsWork t (tellMonitor t { r with seq := n }) := by
      unfold tellMonitor
      split
      · exact .of_eq rfl rfl
      · exact .refl t
    refine (h.trans htell).trans ?_
    rw [consequence_scalar (r := { r with seq := n }) _ ha hw]
    exact endStrand_keepsWork ..

theorem sweepBars_keepsWork (n : Nat) (s : State) : KeepsWork s (sweepBars n s) := by
  induction n generalizing s with
  | zero => exact .refl s
  | succ n ih =>
    unfold sweepBars
    split
    · exact .refl s
    · split
      · exact .refl s
      · exact (deliver_keepsWork s _ _ rfl rfl).trans (ih _)

theorem endRecords_keepsWork (s : State) (world : Nat) (d : Fin 4) (p : Agent → Bool) : KeepsWork s (endRecords s world d p) := by
  unfold endRecords
  split
  · exact .refl s
  · extract_lets t hit
    refine (KeepsWork.of_eq rfl rfl : KeepsWork s t).trans (.foldl (fun s r => ?_) hit t)
    exact (KeepsWork.of_sameButMemory (writeNow_sameButMemory ..)).after (.of_eq rfl rfl)

/-! ## A cancel (01 R18) -/

theorem Assoc.mem_of_get? {κ α : Type} [DecidableEq κ] {l : Assoc κ α} {k : κ} {v : α} (h : l.get? k = some v) : (k, v) ∈ l := by
  induction l with
  | nil => cases h
  | cons p t ih =>
    obtain ⟨k', v'⟩ := p
    by_cases hk : k' = k
    · subst hk
      obtain rfl : v' = v := by simpa [Assoc.get?] using h
      exact List.mem_cons_self
    · exact List.mem_cons_of_mem _ (ih (by simpa [Assoc.get?, hk] using h))

theorem Assoc.get?_map {κ α β : Type} [DecidableEq κ] (l : Assoc κ α) (F : κ → α → β) (k : κ) :
    Assoc.get? (l.map fun p => (p.1, F p.1 p.2)) k = (l.get? k).map (F k) := by
  induction l with
  | nil => rfl
  | cons p t ih =>
    obtain ⟨k', v⟩ := p
    by_cases h : k' = k
    · subst h
      simp [Assoc.get?]
    · simp [Assoc.get?, h, ih]

/-- What a cancel makes of each level of work and of each workgroup before its strands end. -/
def markInst (s : State) (i k : InstId) (x : Inst) : Inst := if x.state = .running ∧ under s i k then { x with state := .cancelled } else x

def markWg (s : State) (i : InstId) (k : Nat) (g : Workgroup) : Workgroup := if under s i (unitOf k) then { g with stopping := false } else g

def marked (s : State) (i : InstId) : State :=
  { s with insts := s.insts.map fun p => (p.1, markInst s i p.1 p.2), wgs := s.wgs.map fun p => (p.1, markWg s i p.1 p.2) }

theorem stopUnder_keepsWork (s : State) (i : InstId) : KeepsWork (marked s i) (stopUnder s i) := by
  unfold stopUnder sweep
  extract_lets insts wgs s1 hit s2
  have h2 : KeepsWork s1 s2 := .foldl (fun s sid => by
    split
    · exact (endStrand_keepsWork ..).trans (endRecords_keepsWork ..)
    · exact .refl s) _ _
  exact h2.trans (sweepBars_keepsWork ..)

theorem marked_parent (s : State) (i k : InstId) : ((marked s i).inst? k).bind Inst.parent = (s.inst? k).bind Inst.parent := by
  have h : (marked s i).inst? k = (s.insts.get? k).map (markInst s i k) := Assoc.get?_map s.insts (markInst s i) k
  rw [h, State.inst?]
  cases s.insts.get? k with
  | none => rfl
  | some x =>
    simp only [Option.map_some, Option.bind_some, markInst]
    split <;> rfl

theorem under_stopUnder (s : State) (i j k : InstId) : under (stopUnder s i) j k = under s j k :=
  under_congr (fun x => ((stopUnder_keepsWork s i).parent x).trans (marked_parent s i x)) j k

theorem stopUnder_get?_wgs {s : State} {i : InstId} {wg : Nat} {g : Workgroup} (hu : under s i (unitOf wg) = true)
    (hg : s.wgs.get? wg = some g) : (stopUnder s i).wgs.get? wg = some { g with stopping := false } := by
  have h : (marked s i).wgs.get? wg = (s.wgs.get? wg).map (markWg s i wg) := Assoc.get?_map s.wgs (markWg s i) wg
  rw [(stopUnder_keepsWork s i).wgs, h, hg, Option.map_some, markWg, if_pos hu]

/-- A fold that comes to a step with an effect, which later steps keep. -/
theorem foldl_reaches {α β : Type} {P Q : α → Prop} {f : α → β → α} {l : List β} {x : β} (hx : x ∈ l) (hQ : ∀ a y, Q a → Q (f a y))
    (hP : ∀ a y, P a → P (f a y)) (hstep : ∀ a, Q a → P (f a x)) {a : α} (ha : Q a) : P (l.foldl f a) := by
  obtain ⟨l1, l2, rfl⟩ := List.append_of_mem hx
  rw [List.foldl_append, List.foldl_cons]
  exact foldl_keeps P f hP l2 _ (hstep _ (foldl_keeps Q f hQ l1 a ha))

/-- A workgroup has these tiles, and each word left in its array has a property. -/
def WordsLeft (wg : Nat) (tiles : Mem) (p : MatCmd → Prop) (s : State) : Prop :=
  ∃ g, s.wgs.get? wg = some g ∧ g.tiles = tiles ∧ ∀ k ∈ g.matrix.cmds, p k

section
variable {wg : Nat} {tiles : Mem} {p : MatCmd → Prop} {s : State}

theorem WordsLeft.finishMat (h : WordsLeft wg tiles p s) (w : Nat) (c : MatCmd) : WordsLeft wg tiles p (finishMat s w c) := by
  obtain ⟨g, hg, ht, hp⟩ := h
  by_cases hw : w = wg
  · refine ⟨g.dropWord c.id, by rw [finishMat_get?, if_pos hw, hg, Option.map_some], ht, fun k hk => hp k (List.mem_filter.1 hk).1⟩
  · exact ⟨g, by rw [finishMat_get?, if_neg hw, hg], ht, hp⟩

theorem WordsLeft.finishMat_gone (h : WordsLeft wg tiles p s) (c : MatCmd) :
    WordsLeft wg tiles (fun k => k.id ≠ c.id) (Machine.finishMat s wg c) := by
  obtain ⟨g, hg, ht, -⟩ := h
  exact ⟨g.dropWord c.id, by rw [finishMat_get?, if_pos rfl, hg, Option.map_some], ht, g.dropWord_gone c.id⟩

theorem WordsLeft.endWords (h : WordsLeft wg tiles p s) (w : Nat) (l : List MatCmd) : WordsLeft wg tiles p (endWords s w l) :=
  foldl_keeps (WordsLeft wg tiles p) _ (fun _ c ht => ht.finishMat w c) l s h

/-- Of the words ended together, none is left. -/
theorem WordsLeft.endWords_gone (h : WordsLeft wg tiles p s) {l : List MatCmd} {c : MatCmd} (hc : c ∈ l) :
    WordsLeft wg tiles (fun k => k.id ≠ c.id) (Machine.endWords s wg l) :=
  foldl_reaches hc (fun _ x ht => ht.finishMat wg x) (fun _ x ht => ht.finishMat wg x) (fun _ ht => ht.finishMat_gone c) h

end

/-- Step 3 of R18: a waiting word below the cancelled level is gone, and its workgroup has the tiles it had. -/
theorem cancelInst_wordsLeft {s : State} {i : InstId} {wg : Nat} {g : Workgroup} {c : MatCmd} (hu : under s i (unitOf wg) = true)
    (hg : s.wgs.get? wg = some g) (hc : c ∈ g.matrix.cmds) (hw : matWaits g c = true) :
    WordsLeft wg g.tiles (fun k => k.id ≠ c.id) (cancelInst s i) := by
  have hg' := stopUnder_get?_wgs hu hg
  have hkeep (p : MatCmd → Prop) (t : State) (y : Nat × Workgroup) (ht : WordsLeft wg g.tiles p t) :
      WordsLeft wg g.tiles p (if under (stopUnder s i) i (unitOf y.1) then endWords t y.1 (y.2.matrix.cmds.filter (matWaits y.2)) else t) := by
    split
    · exact ht.endWords ..
    · exact ht
  refine foldl_reaches (Q := WordsLeft wg g.tiles fun _ => True) (Assoc.mem_of_get? hg') (hkeep _) (hkeep _) (fun t ht => ?_)
    ⟨_, hg', rfl, fun _ _ => trivial⟩
  rw [if_pos (by rw [under_stopUnder, hu])]
  exact ht.endWords_gone (List.mem_filter.2 ⟨hc, hw⟩)

section
variable {s : State} {core : CoreId} {id wg : Nat} {g : Workgroup} {c : MatCmd} (hf : matFind s core id = some (wg, g, c))
include hf

theorem matrixWordEnded_idle (h : instCancelled s (unitOf wg) = false) : exec (.matrixWordEnded core id) s = .next s := by
  show execMatrixWordEnded core id s = _
  simp [execMatrixWordEnded, hf, h]

theorem matrixWordEnded_ends (hp : operation g c = [c]) (h : instCancelled s (unitOf wg) = true) (hw : matWaits g c = true)
    (hcopy : copying s wg = false) : exec (.matrixWordEnded core id) s = .next (finishMat s wg c) := by
  show execMatrixWordEnded core id s = _
  simp [execMatrixWordEnded, hf, h, endsWith, hw, hcopy, hp, endWords]

end

end Sys2Proof.Machine
end

section
/-! The matrix array, settled. -/

namespace Sys2Proof.Machine
open Sys2Proof

/-- Settles O40: each event's effect is a lemma of its own (`matrixWordStart_starts` to `cancelInst_wordsLeft`), and so is each element
value (`groupStep_i8`, `groupStep_float`, `logicalPos_sparse`, `groupSum_finite`). -/
theorem matrixArrayEvents : Obligations.MatrixArrayEvents := by
  unfold Obligations.MatrixArrayEvents
  refine ⟨fun s core id wg g c hf => ?_, ?_, ?_, ?_⟩
  · obtain ⟨-, hmem, -⟩ := matFind_mem hf
    refine ⟨matrixWordStart_starts hf, matrixWordStart_poison hf, ?_, fun hp => operation_solo hp g, fun d x hp hx => operation_paired hp hx,
      matrixWordStart_waits hf, ?_, ?_, ?_, fun hs => ⟨matrixWordComplete_idle hf hs, matrixRowPop_idle hf hs⟩, ?_, ?_, matrixWordEnded_idle hf, ?_⟩
    · intro m hk hs hc hw hp hworld
      rw [matrixRowPop_B hf hk hs hc hw hp (.inr hworld)]
      exact congrArg _ (popRow_world s wg g c false _ _ hworld)
    · intro m hk hs hc hw hp f hworld hlen hbad f1
      rw [matrixRowPop_B hf hk hs hc hw hp (.inl hlen)]
      exact congrArg _ (popRow_row s wg g c false _ _ hworld hlen hbad)
    · intro m hk hs hc hb hw hp f hworld hlen hbad f1
      rw [matrixRowPop_A hf hk hs hc hb hw hp hlen]
      exact congrArg _ (popRow_row s wg g c true _ _ hworld hlen hbad)
    · intro hs hc hwf hg leaves
      have hleaves {l : List (Nat × Nat × Nat × Nat)} {t : State} {g' : Workgroup} (he : exec (.matrixWordComplete core id) s = .next t)
          (h : Completes s wg g c l t g') : leaves t g' :=
        ⟨he, h.found, h.gone, h.scratch, h.mem, h.strands, h.copyGone⟩
      refine ⟨fun d hk => ?_, fun d a b w hk => ?_, fun m hk hp hr hlegal => ?_⟩
      · obtain ⟨g', h⟩ := finishMat_putTiles_completes hg c (tileIndices.map fun p => (d.val, p.1, p.2, 0))
        exact ⟨_, g', hleaves (matrixWordComplete_mzero hf hs hc hk) h, fun u r x => h.wholeTile hwf (v := fun _ => 0) rfl⟩
      · obtain ⟨g', h⟩ := finishMat_putTiles_completes hg c (tileIndices.map fun p =>
          (d.val, p.1, p.2, guide (tileRead g a.val p.1 p.2) (tileRead g b.val p.1 p.2) w.toNat))
        exact ⟨_, g', hleaves (matrixWordComplete_mguide hf hs hc hk) h, fun u r x => h.wholeTile hwf
          (v := fun p => guide (tileRead g a.val p.1 p.2) (tileRead g b.val p.1 p.2) w.toNat) rfl⟩
      · obtain ⟨g', h⟩ := finishMat_putTiles_completes hg c (productWrites g m c.aRows c.bRows)
        exact ⟨_, g', hleaves (matrixWordComplete_mma hf hs hc hk hp hr) h, fun u r x => h.product hwf rfl⟩
    · intro m hk hp hc hh
      exact ⟨fun d n hd hn h1 h2 => ⟨mmapDecision_pairs hf hk hp hc hh hd hn h1 h2, mmapDecision_fails hf hk hp hc hh hd hn h1 h2⟩,
        mmapDecision_alone hf hk hp hc hh⟩
    · intro hp hcan hw hcopy
      refine ⟨_, matrixWordEnded_ends hf (operation_solo hp g) hcan hw hcopy, fun g' hg hg' => ?_⟩
      rw [finishMat_get?, if_pos rfl, hg] at hg'
      cases hg'
      exact ⟨rfl, g.dropWord_gone c.id⟩
    · exact fun i hu hg hw => cancelInst_wordsLeft hu hg hmem hw
  · intro m a b old z term int8 step
    refine ⟨?_, fun h l => bValue_plain h b l, ?_⟩
    · have hstep : groupStep m a b = step := by
        funext acc g
        simp only [step]
        split
        · rename_i hm
          exact groupStep_i8 hm a b acc g
        · rename_i hm
          exact groupStep_float hm a b acc g
      rw [← hstep]
      rfl
    · intro k places
      exact ⟨logicalPos_dense, fun hs p hp => logicalPos_sparse (.inl ⟨hs, rfl⟩) hp, fun hs p hp => logicalPos_sparse (.inr ⟨hs, rfl⟩) hp⟩
  · intro ts hne val finite
    have hval : val = FVal.toRat := by funext x; cases x <;> rfl
    exact ⟨fun h => by rw [hval]; exact groupSum_finite h, groupSum_nan⟩
  · exact fun c u w => rfl

end Sys2Proof.Machine
end

section
/-! Scalar accesses that do not come about (03 R70, R71; 06 R176), settled. -/

namespace Sys2Proof.Machine
open Sys2Proof

/-- Whatever a scalar access ends in before it reaches memory, the word whose body begins with it ends in. -/
def EndsAccess (s : State) (e : Env) (i : Instr) (va n : Nat) (k : AccessKind) : Prop :=
  ∀ x, scalarAccess e s va n k = .error x → exec i s = .next (x.finish e 4)

section
variable {s : State} {e : Env} {va n : Nat} {k : AccessKind}

theorem scalarAccess_high (h : 2 ^ 57 ≤ va) :
    scalarAccess e s va n k = .error (.fault s { code := .access, access := k, addr := va }) := by
  rw [scalarAccess, if_pos h]

theorem scalarAccess_misaligned (h : va < 2 ^ 57) (ha : va % n ≠ 0) :
    scalarAccess e s va n k = .error (.fault s { code := .align, access := k, addr := va }) := by
  rw [scalarAccess, if_neg (Nat.not_le.mpr h), if_pos ha]

theorem scalarAccess_bad (h : va < 2 ^ 57) (ha : va % n = 0) {c : Code}
    (hl : lookup s e.quadrant e.die e.world e.priv e.st.scalarWalkFaults va k = .bad c) :
    scalarAccess e s va n k = .error (.fault s { code := c, access := k, addr := va }) := by
  rw [scalarAccess, if_neg (Nat.not_le.mpr h), if_neg (not_not.mpr ha), hl]

theorem scalarAccess_miss (h : va < 2 ^ 57) (ha : va % n = 0)
    (hl : lookup s e.quadrant e.die e.world e.priv e.st.scalarWalkFaults va k = .miss) :
    scalarAccess e s va n k = .error (.wait (s.ask ⟨e.die, e.quadrant, .scalar e.sid, e.world, e.priv, va, k⟩) .retry) := by
  rw [scalarAccess, if_neg (Nat.not_le.mpr h), if_neg (not_not.mpr ha), hl]

theorem scalarAccess_ok (h : va < 2 ^ 57) (ha : va % n = 0) {pa : Nat} {f : FormatDesc}
    (hl : lookup s e.quadrant e.die e.world e.priv e.st.scalarWalkFaults va k = .ok pa f) : scalarAccess e s va n k = .ok pa := by
  rw [scalarAccess, if_neg (Nat.not_le.mpr h), if_neg (not_not.mpr ha), hl]

theorem scalarLoad_endsAccess {d : SReg} {fresh : Bool} {ext : Nat → W64} {x : Eff} (h : scalarAccess e s va n .read = .error x) :
    scalarLoad d va n fresh ext e s = x := by
  rw [scalarLoad, h]

theorem scalarStore_endsAccess {z : Size} {sc : Option Scope} {v : W64} {x : Eff} (h : scalarAccess e s va z.bytes .write = .error x) :
    scalarStore va z sc v e s = x := by
  rw [scalarStore, h]

/-- The order of the checks: 57 bits, alignment, translation (06 R176). -/
theorem EndsAccess.checks {i : Instr} (h : EndsAccess s e i va n k) :
    (2 ^ 57 ≤ va → exec i s = .next (faultScalar s e { code := .access, access := k, addr := va })) ∧
    (va < 2 ^ 57 → va % n ≠ 0 → exec i s = .next (faultScalar s e { code := .align, access := k, addr := va })) ∧
    (va < 2 ^ 57 → va % n = 0 →
      (∀ c, lookup s e.quadrant e.die e.world e.priv e.st.scalarWalkFaults va k = .bad c →
        exec i s = .next (faultScalar s e { code := c, access := k, addr := va })) ∧
      (lookup s e.quadrant e.die e.world e.priv e.st.scalarWalkFaults va k = .miss →
        exec i s = .next ((s.ask ⟨e.die, e.quadrant, .scalar e.sid, e.world, e.priv, va, k⟩).waits e.sid .retry))) :=
  ⟨fun hv => h _ (scalarAccess_high hv), fun hv ha => h _ (scalarAccess_misaligned hv ha), fun hv ha =>
    ⟨fun _ hl => h _ (scalarAccess_bad hv ha hl), fun hl => h _ (scalarAccess_miss hv ha hl)⟩⟩

end

/-- A word whose body, run, ends as its access ends. -/
theorem endsAccess_of_runs {s : State} {e : Env} {i : Instr} {va n : Nat} {k : AccessKind} {body : Eff} (hr : exec i s = .next (body.finish e 4))
    (hb : ∀ x, scalarAccess e s va n k = .error x → body = x) : EndsAccess s e i va n k := fun x hx => by
  rw [hr, hb x hx]

/-- Settles O26: each of the six words ends as its access ends, and the access makes its checks in the order of R176. -/
theorem scalarAccessFaults : Obligations.ScalarAccessFaults := by
  unfold Obligations.ScalarAccessFaults
  intro s e g d a b fresh wide z sc off off7 op hi va va7 ends
  refine ⟨EndsAccess.checks ?_, EndsAccess.checks ?_, EndsAccess.checks ?_, EndsAccess.checks ?_, EndsAccess.checks ?_,
    EndsAccess.checks ?_⟩
  · exact endsAccess_of_runs (scalarWord_runs hi 4 noCheck _ rfl) fun _ hx => scalarLoad_endsAccess hx
  · exact endsAccess_of_runs (scalarWord_runs hi 4 noCheck _ rfl) fun _ hx => scalarLoad_endsAccess hx
  · exact endsAccess_of_runs (scalarWord_runs hi 4 noCheck _ rfl) fun _ hx => scalarStore_endsAccess hx
  · exact endsAccess_of_runs (scalarWord_runs hi 4 noCheck _ rfl) fun _ hx => scalarLoad_endsAccess hx
  · exact endsAccess_of_runs (scalarWord_runs hi 4 noCheck _ rfl) fun _ hx => scalarStore_endsAccess hx
  · intro x hx
    show execSatom g d a b op wide sc s = _
    rw [execSatom, scalarWord_runs hi _ _ _ rfl]
    simp only [hx]

end Sys2Proof.Machine
end

section
/-! Landing words (03 R79 to R81; 07 R201): what their bytes read after a write, and the words that use them. -/

namespace Sys2Proof.Machine
open Sys2Proof

/-! ## The bytes of a landing word -/

theorem Mem.length_read (m : Mem) (a n : Nat) : (m.read a n).length = n := by
  induction n generalizing a with
  | zero => rfl
  | succ n ih => simp [Mem.read, ih]

theorem leNat_lt (l : List Byte) : leNat l < 256 ^ l.length := by
  induction l with
  | nil => simp [leNat]
  | cons b t ih =>
    have hb := b.isLt
    simp only [leNat, List.length_cons, Nat.pow_succ]
    omega

theorem Mem.readNat_lt (m : Mem) (a n : Nat) : m.readNat a n < 256 ^ n := by
  simpa [Mem.readNat, Mem.length_read] using leNat_lt (m.read a n)

theorem Mem.write_append (m : Mem) (a : Nat) (l k : List Byte) : m.write a (l ++ k) = (m.write a l).write (a + l.length) k := by
  induction l generalizing m a with
  | nil => rfl
  | cons b t ih => simp [Mem.write, ih, Nat.add_comm 1, Nat.add_assoc]

/-- The fields of a landing word are no wider than their places. -/
structure Land.Fits (w : Land) : Prop where
  target : w.target < 256 ^ 8
  arrived : w.arrived < 256 ^ 8
  gen : w.gen < 256 ^ 4
  flags : w.flags < 256 ^ 4

theorem landRead_fits (g : Workgroup) (off : Nat) : (landRead g off).Fits :=
  ⟨Mem.readNat_lt .., Mem.readNat_lt .., Mem.readNat_lt .., Mem.readNat_lt ..⟩

/-- The fields of the landing word at an offset of a scratchpad. -/
def landOf (m : Mem) (off : Nat) : Land := ⟨m.readNat off 8, m.readNat (off + 8) 8, m.readNat (off + 16) 4, m.readNat (off + 20) 4⟩

theorem landRead_eq (g : Workgroup) (off : Nat) : landRead g off = landOf g.scratch off := rfl

section
variable {m : Mem} (h : m.wf = true) (off : Nat)
include h

theorem landOf_write_bytes {w : Land} (hw : w.Fits) : landOf (m.write off w.bytes) off = w := by
  obtain ⟨ht, ha, hg, hf⟩ := hw
  have e : m.write off w.bytes =
      (((m.writeNat off 8 w.target).writeNat (off + 8) 8 w.arrived).writeNat (off + 16) 4 w.gen).writeNat (off + 20) 4 w.flags := by
    simp [Land.bytes, Mem.write_append, Mem.writeNat]
  have h1 := Mem.wf_writeNat off 8 w.target h
  have h2 := Mem.wf_writeNat (off + 8) 8 w.arrived h1
  have h3 := Mem.wf_writeNat (off + 16) 4 w.gen h2
  simp (disch := omega) only [e, landOf, Mem.readNat_writeNat h, Mem.readNat_writeNat h1, Mem.readNat_writeNat h2, Mem.readNat_writeNat h3,
    Mem.readNat_writeNat_other h1, Mem.readNat_writeNat_other h2, Mem.readNat_writeNat_other h3, Nat.mod_eq_of_lt ht, Nat.mod_eq_of_lt ha,
    Nat.mod_eq_of_lt hg, Nat.mod_eq_of_lt hf]

/-- What SLINIT leaves: all but the generation is zero. -/
theorem landOf_init : landOf ((m.write off (natLE 16 0)).write (off + 20) (natLE 12 0)) off = ⟨0, 0, (landOf m off).gen, 0⟩ := by
  have e : (m.write off (natLE 16 0)).write (off + 20) (natLE 12 0) =
      (((m.writeNat off 8 0).writeNat (off + 8) 8 0).writeNat (off + 20) 4 0).writeNat (off + 24) 8 0 := by
    rw [show natLE 16 0 = natLE 8 0 ++ natLE 8 0 from rfl, show natLE 12 0 = natLE 4 0 ++ natLE 8 0 from rfl]
    simp [Mem.write_append, Mem.writeNat]
  have h1 := Mem.wf_writeNat off 8 0 h
  have h2 := Mem.wf_writeNat (off + 8) 8 0 h1
  have h3 := Mem.wf_writeNat (off + 20) 4 0 h2
  simp (disch := omega) only [e, landOf, Mem.readNat_writeNat h, Mem.readNat_writeNat h1, Mem.readNat_writeNat h2,
    Mem.readNat_writeNat_other h, Mem.readNat_writeNat_other h1, Mem.readNat_writeNat_other h2, Mem.readNat_writeNat_other h3, Nat.zero_mod]

end

/-! ## SLEXP (03 R80) -/

section
variable {w : Land} {n : Nat}

theorem Land.expect_raises (h : w.overrun = true ∨ 2 ^ 64 ≤ w.target + n ∨ (w.target + n ≠ 0 ∧ w.target + n < w.arrived)) :
    w.expect n = (w, true) := by
  unfold Land.expect
  split
  · rfl
  · split
    · rfl
    · split
      · rfl
      · rename_i h1 h2 h3
        exact absurd h (by simp only [not_or]; exact ⟨h1, h2, h3⟩)

variable (ho : w.overrun = false) (hn : w.target + n < 2 ^ 64) (ha : w.target + n ≠ 0 → w.arrived ≤ w.target + n)
include ho hn ha

theorem Land.expect_zero (h : n = 0) : w.expect n = (w, false) := by
  have h' : ¬ (w.target + n ≠ 0 ∧ w.target + n < w.arrived) := fun ⟨h1, h2⟩ => Nat.not_le.mpr h2 (ha h1)
  rw [Land.expect, if_neg (by simp [ho]), if_neg (Nat.not_le.mpr hn), if_neg h', if_pos h]

theorem Land.expect_adds (h : n ≠ 0) : w.expect n = (Land.settle { w with target := w.target + n }, false) := by
  have h' : ¬ (w.target + n ≠ 0 ∧ w.target + n < w.arrived) := fun ⟨h1, h2⟩ => Nat.not_le.mpr h2 (ha h1)
  rw [Land.expect, if_neg (by simp [ho]), if_neg (Nat.not_le.mpr hn), if_neg h', if_neg h]

theorem Land.expect_ends (h : n ≠ 0) (he : w.arrived = w.target + n) : w.expect n = (⟨0, 0, (w.gen + 1) % 2 ^ 32, w.flags⟩, false) := by
  rw [Land.expect_adds ho hn ha h, Land.settle, if_pos ⟨by show w.target + n ≠ 0; omega, he⟩]

theorem Land.expect_waits (h : n ≠ 0) (he : w.arrived ≠ w.target + n) :
    w.expect n = (⟨w.target + n, w.arrived, w.gen, w.flags⟩, false) := by
  rw [Land.expect_adds ho hn ha h, Land.settle, if_neg fun hs => he hs.2]

end

/-! ## The instructions (07 R201) -/

section
variable {s : State} {e : Env} {a : SReg} {reads : Bool} {body : Env → State → Nat → Land → Eff}

theorem landWord_align (h : (e.st.rd a).toNat % 32 ≠ 0) :
    landWord a reads body e s = .fault s { code := .align, addr := (e.st.rd a).toNat } := by
  simp only [landWord, landCheck, if_pos h]

theorem landWord_access (h : (e.st.rd a).toNat % 32 = 0) (hb : e.scratchBytes < (e.st.rd a).toNat + 32) :
    landWord a reads body e s = .fault s { code := .access, addr := (e.st.rd a).toNat } := by
  simp only [landWord, landCheck, if_neg (not_not.mpr h), if_pos hb]

theorem landWord_runs (hc : landCheck s e (e.st.rd a).toNat = none) (hb : badWord e.wg.badScratch (e.st.rd a).toNat 24 = false) :
    landWord a reads body e s = body e s (e.st.rd a).toNat (landRead e.wg (e.st.rd a).toNat) := by
  simp [landWord, hc, hb]

end

/-- An instruction or event that does what a landing-word instruction of the strand does. -/
def ActsOnLand (s : State) (e : Env) (i : Instr) (a : SReg) (reads : Bool) (body : Env → State → Nat → Land → Eff) : Prop :=
  exec i s = .next ((landWord a reads body e s).finish e 4)

section
variable {s : State} {e : Env} {i : Instr} {a : SReg} {reads : Bool} {body : Env → State → Nat → Land → Eff}

theorem ActsOnLand.checks (h : ActsOnLand s e i a reads body) :
    ((e.st.rd a).toNat % 32 ≠ 0 → exec i s = .next (faultScalar s e { code := .align, addr := (e.st.rd a).toNat })) ∧
    ((e.st.rd a).toNat % 32 = 0 → e.scratchBytes < (e.st.rd a).toNat + 32 →
      exec i s = .next (faultScalar s e { code := .access, addr := (e.st.rd a).toNat })) := by
  refine ⟨fun h1 => ?_, fun h1 h2 => ?_⟩
  · rw [h, landWord_align h1]
    rfl
  · rw [h, landWord_access h1 h2]
    rfl

theorem ActsOnLand.runs (h : ActsOnLand s e i a reads body) (hc : landCheck s e (e.st.rd a).toNat = none)
    (hb : badWord e.wg.badScratch (e.st.rd a).toNat 24 = false) :
    exec i s = .next ((body e s (e.st.rd a).toNat (landRead e.wg (e.st.rd a).toNat)).finish e 4) := by
  rw [h, landWord_runs hc hb]

end

/-- A workgroup with bytes written to its scratchpad: words that they cover whole take fresh check bits (18 R351). -/
def Workgroup.putScratch (g : Workgroup) (off : Nat) (bs : List Byte) : Workgroup :=
  { g with
    scratch := g.scratch.write off bs
    badScratch := g.badScratch.filter fun k => !(decide (off ≤ 4 * k) && decide (4 * k + 4 ≤ off + bs.length)) }

theorem scratchWrite_eq (s : State) (wg off : Nat) (bs : List Byte) :
    scratchWrite s wg off bs = s.modWg wg fun g => g.putScratch off bs := rfl

@[simp] theorem Workgroup.putScratch_scratch (g : Workgroup) (off : Nat) (bs : List Byte) :
    (g.putScratch off bs).scratch = g.scratch.write off bs := rfl

theorem Workgroup.putScratch_rest (g : Workgroup) (off : Nat) (bs : List Byte) :
    { g.putScratch off bs with scratch := g.scratch, badScratch := g.badScratch } = g := rfl

theorem Workgroup.putScratch_twice_rest (g : Workgroup) (o o' : Nat) (l l' : List Byte) :
    { (g.putScratch o l).putScratch o' l' with scratch := g.scratch, badScratch := g.badScratch } = g := rfl

/-- What an instruction leaves that goes on with the landing word at an offset changed to `w`, and nothing beside it. -/
def LandBecomes (s : State) (e : Env) (off : Nat) (i : Instr) (w : Land) : Prop :=
  ∃ t wg, exec i s = .next t ∧ t.wgs.get? e.sid.wg = some wg ∧ landRead wg off = w ∧
    (∀ x, x < off ∨ off + 32 ≤ x → wg.scratch.get x = e.wg.scratch.get x) ∧
    { wg with scratch := e.wg.scratch, badScratch := e.wg.badScratch } = e.wg ∧ t.mem = s.mem ∧
    t.strands.get? e.sid = some (e.st.next (e.st.pc + 4) s.cycle)

section
variable {s : State} {e : Env} {off : Nat} {i : Instr} (henv : s.env? e.sid = some e)
include henv

theorem landBecomes_same (h : exec i s = .next ((Eff.done s).finish e 4)) : LandBecomes s e off i (landRead e.wg off) := by
  obtain ⟨-, hst, hwg, -⟩ := State.env?_strand henv
  exact ⟨_, e.wg, h, hwg, rfl, fun _ _ => rfl, rfl, rfl, by simp [Eff.finish, hst]⟩

theorem landBecomes_modWg {f : Workgroup → Workgroup} {w : Land} (h : exec i s = .next ((Eff.done (s.modWg e.sid.wg f)).finish e 4))
    (hw : landRead (f e.wg) off = w) (hout : ∀ x, x < off ∨ off + 32 ≤ x → (f e.wg).scratch.get x = e.wg.scratch.get x)
    (hrest : { f e.wg with scratch := e.wg.scratch, badScratch := e.wg.badScratch } = e.wg) : LandBecomes s e off i w := by
  obtain ⟨-, hst, hwg, -⟩ := State.env?_strand henv
  exact ⟨_, f e.wg, h, by simp [Eff.finish, hwg], hw, hout, hrest, rfl, by simp [Eff.finish, hst]⟩

variable (hm : e.wg.scratch.wf = true)
include hm

theorem landBecomes_bytes {w : Land} (hw : w.Fits)
    (h : exec i s = .next ((Eff.done (scratchWrite s e.sid.wg off w.bytes)).finish e 4)) : LandBecomes s e off i w := by
  rw [scratchWrite_eq] at h
  refine landBecomes_modWg henv h (by rw [landRead_eq, Workgroup.putScratch_scratch, landOf_write_bytes hm off hw]) (fun _ hx => ?_)
    (e.wg.putScratch_rest off w.bytes)
  rw [Workgroup.putScratch_scratch]
  exact Mem.get_write_other hm off _ (by simp only [Land.bytes, List.length_append, length_natLE]; omega)

theorem landBecomes_init (h : exec i s = .next ((Eff.done (scratchWrite (scratchWrite s e.sid.wg off (natLE 16 0)) e.sid.wg (off + 20)
      (natLE 12 0))).finish e 4)) : LandBecomes s e off i ⟨0, 0, (landRead e.wg off).gen, 0⟩ := by
  rw [scratchWrite_eq, scratchWrite_eq, State.modWg_modWg] at h
  refine landBecomes_modWg henv h (by
    rw [landRead_eq, Workgroup.putScratch_scratch, Workgroup.putScratch_scratch, landOf_init hm off, landRead_eq]) (fun x hx => ?_)
    (e.wg.putScratch_twice_rest ..)
  rw [Workgroup.putScratch_scratch, Workgroup.putScratch_scratch]
  exact (Mem.get_write_other (Mem.wf_write off _ hm) (off + 20) _ (by simp only [length_natLE]; omega)).trans
    (Mem.get_write_other hm off _ (by simp only [length_natLE]; omega))

end

/-- What SLEXP does with a landing word. -/
def expectBody (b : SReg) (e : Env) (s : State) (off : Nat) (w : Land) : Eff :=
  match w.expect (e.st.rd b).toNat with
  | (_, true) => .fault s { code := .land, addr := off, detail := 1 }
  | (w', false) => .done (if w' = w then s else scratchWrite s e.sid.wg off w'.bytes)

section
variable {s : State} {e : Env} {g : Guard} (d a b : SReg)

theorem slinit_acts (hi : Issues s e g) : ActsOnLand s e (.slinit g a) a false fun e s off _ =>
    .done (scratchWrite (scratchWrite s e.sid.wg off (natLE 16 0)) e.sid.wg (off + 20) (natLE 12 0)) :=
  scalarWord_runs hi 4 noCheck _ rfl

theorem slexp_acts (hi : Issues s e g) : ActsOnLand s e (.slexp g a b) a true (expectBody b) :=
  scalarWord_runs hi 4 noCheck (landWord a true (expectBody b)) rfl

theorem slgen_acts (hi : Issues s e g) : ActsOnLand s e (.slgen g d a) a true fun e s _ w =>
    .done (s.modStrand e.sid fun st => st.wr d (BitVec.ofNat 64 (w.flags % 2 * 2 ^ 32 + w.gen))) :=
  scalarWord_runs hi 4 noCheck _ rfl

/-- What SLWT and its return do with a landing word. -/
def landWaitBody (a b : SReg) (e : Env) (s : State) (off : Nat) (w : Land) : Eff :=
  if w.overrun then .fault s { code := .land, addr := off, detail := 2 }
  else if bitOf w.gen 0 ≠ (e.st.rd b).getLsbD 0 then .done s
  else .wait s (.slwt a b)

theorem slwt_acts (hi : Issues s e g) : ActsOnLand s e (.slwt g a b) a true (landWaitBody a b) :=
  scalarWord_runs hi 4 noCheck (slwtBody a b) rfl

theorem slwtReturn_acts (henv : s.env? e.sid = some e) (hr : mayResume e = true) (hw : e.st.wait = some (.slwt a b)) :
    ActsOnLand s e (.slwtReturn e.sid) a true (landWaitBody a b) := by
  show execSlwtReturn e.sid s = _
  simp only [execSlwtReturn, resumeWord, henv, hr, hw]
  rfl

variable {i : Instr}

theorem ActsOnLand.waits (h : ActsOnLand s e i a true (landWaitBody a b)) (hc : landCheck s e (e.st.rd a).toNat = none)
    (hb : badWord e.wg.badScratch (e.st.rd a).toNat 24 = false) :
    let w := landRead e.wg (e.st.rd a).toNat
    (bitOf w.flags 0 = true → exec i s = .next (faultScalar s e { code := .land, addr := (e.st.rd a).toNat, detail := 2 })) ∧
    (bitOf w.flags 0 = false → bitOf w.gen 0 ≠ (e.st.rd b).getLsbD 0 → exec i s = .next (s.after e (e.st.pc + 4) fun st => st)) ∧
    (bitOf w.flags 0 = false → bitOf w.gen 0 = (e.st.rd b).getLsbD 0 → exec i s = .next (s.waits e.sid (.slwt a b))) := by
  intro w
  have hx : exec i s = .next ((landWaitBody a b e s (e.st.rd a).toNat w).finish e 4) := h.runs hc hb
  rw [landWaitBody, Land.overrun] at hx
  refine ⟨fun ho => ?_, fun ho hg => ?_, fun ho hg => ?_⟩
  · rw [hx, if_pos ho]
    rfl
  · rw [hx, if_neg (by simp [ho]), if_pos hg]
    rfl
  · rw [hx, if_neg (by simp [ho]), if_neg (not_not.mpr hg)]
    rfl

variable (h : ActsOnLand s e i a true (expectBody b)) (hc : landCheck s e (e.st.rd a).toNat = none)
  (hb : badWord e.wg.badScratch (e.st.rd a).toNat 24 = false)
include h hc hb

theorem ActsOnLand.expect_raises {w : Land} (hx : (landRead e.wg (e.st.rd a).toNat).expect (e.st.rd b).toNat = (w, true)) :
    exec i s = .next (faultScalar s e { code := .land, addr := (e.st.rd a).toNat, detail := 1 }) := by
  rw [h.runs hc hb, expectBody, hx]
  rfl

theorem ActsOnLand.expect_becomes (henv : s.env? e.sid = some e) (hm : e.wg.scratch.wf = true) {w : Land} (hw : w.Fits)
    (hx : (landRead e.wg (e.st.rd a).toNat).expect (e.st.rd b).toNat = (w, false)) : LandBecomes s e (e.st.rd a).toNat i w := by
  have hr := h.runs hc hb
  simp only [expectBody, hx] at hr
  split at hr
  · rename_i hsame
    rw [hsame]
    exact landBecomes_same henv hr
  · exact landBecomes_bytes henv hm hw hr

end

/-- Settles O31: each word's checks and its effect are lemmas over the body that it shares with its return. -/
theorem landingWords : Obligations.LandingWords := by
  unfold Obligations.LandingWords
  intro s e g d a b hm off w n writes land checks waits
  have hfits := landRead_fits e.wg off
  refine ⟨fun henv hr hw => ?_, fun hi => ⟨?_, ?_, fun hc hb => ⟨?_, ?_, fun ho hn ha => ⟨?_, ?_, ?_⟩, ?_⟩⟩⟩
  · have h := slwtReturn_acts a b henv hr hw
    exact ⟨h.checks, h.waits a b⟩
  · have h := slwt_acts a b hi
    exact ⟨h.checks, h.waits a b⟩
  · simp only [List.mem_cons, List.not_mem_nil, or_false, forall_eq_or_imp, forall_eq]
    exact ⟨(slinit_acts a hi).checks, (slexp_acts a b hi).checks, (slgen_acts d a hi).checks⟩
  · exact landBecomes_init hi.env hm ((slinit_acts a hi).runs hc hb)
  · exact fun h => (slexp_acts a b hi).expect_raises a b hc hb (Land.expect_raises h)
  · exact fun h0 he => (slexp_acts a b hi).expect_becomes a b hc hb hi.env hm
      ⟨Nat.zero_lt_succ _, Nat.zero_lt_succ _, Nat.mod_lt _ (Nat.zero_lt_succ _), hfits.flags⟩ (Land.expect_ends ho hn ha h0 he)
  · exact fun h0 he => (slexp_acts a b hi).expect_becomes a b hc hb hi.env hm ⟨hn, hfits.arrived, hfits.gen, hfits.flags⟩
      (Land.expect_waits ho hn ha h0 he)
  · exact fun h0 => (slexp_acts a b hi).expect_becomes a b hc hb hi.env hm hfits (Land.expect_zero ho hn ha h0)
  · rw [(slgen_acts d a hi).runs hc hb]
    exact congrArg _ (finish_done ..)

end Sys2Proof.Machine
end

section
/-! Monitor and wait (03 R82; 07 R203) and timelines (04 R105; 07 R204), settled. -/

namespace Sys2Proof.Machine
open Sys2Proof

/-! ## Monitor and wait -/

section
variable {s : State} {e : Env} {d : SReg}

/-- What a wait that is over leaves: its code in the register, no pending event, the watch still armed. -/
def State.woken (s : State) (e : Env) (d : SReg) (r : W64) : State :=
  s.after e (e.st.pc + 4) fun st =>
    { st.wr d r with watch := (st.wr d r).watch.map fun w => { w with wrote := false, invalidated := false } }

theorem finish_wake (r : Nat) : (wake s e d r).finish e 4 = s.woken e d (BitVec.ofNat 64 r) := by
  simp only [wake, finish_done, State.woken, Strand.wr_watch]

theorem pendingReason_none (h : e.st.watch = none) : pendingReason e.st = some 3 := by rw [pendingReason, h]

theorem pendingReason_armed {w : Watch} (h : e.st.watch = some w) :
    pendingReason e.st = if w.wrote then some 0 else if w.invalidated then some 1 else none := by rw [pendingReason, h]

variable {g : Guard} (hi : Issues s e g) (a : SReg)
include hi

theorem exec_smon {pa : Nat} (h : Reaches57 s e (e.st.rd a).toNat 1 .read pa) :
    exec (.smon g a) s = .next (s.after e (e.st.pc + 4) fun st => { st with watch := some ⟨pa / 128, false, false⟩ }) := by
  obtain ⟨f, hf⟩ := h.maps
  show execSmon g a s = _
  rw [execSmon, scalarWord_runs hi _ _ _ rfl]
  simp only [scalarAccess_ok h.low h.aligned hf, finish_done, lineOf]

theorem exec_smdis : exec (.smdis g) s = .next (s.after e (e.st.pc + 4) fun st => { st with watch := none }) := by
  show execSmdis g s = _
  rw [execSmdis, scalarWord_runs hi _ _ _ rfl, finish_done]

/-- SMWAIT with a reason at hand answers it. -/
theorem exec_smwait_pending {r : Nat} (h : pendingReason e.st = some r) :
    exec (.smwait g d a) s = .next (s.woken e d (BitVec.ofNat 64 r)) := by
  show execSmwait g d a s = _
  rw [execSmwait, scalarWord_runs hi _ _ _ rfl]
  simp only [h, finish_wake]

/-- SMWAIT with none: the line may have left the watch (log 27), a limit of no cycles is over at once, else it waits. -/
theorem exec_smwait_quiet (h : pendingReason e.st = none) :
    exec (.smwait g d a) s = if !Config.watchKept s.ticks then .next (s.woken e d 1)
      else if e.st.rd a = 0 then .next (s.woken e d 2) else .next (s.waits e.sid (.smwait d (s.cycle + (e.st.rd a).toNat))) := by
  show execSmwait g d a s = _
  rw [execSmwait, scalarWord_runs hi _ _ _ rfl]
  simp only [h]
  split
  · exact congrArg _ (finish_wake 1)
  · split
    · exact congrArg _ (finish_wake 2)
    · rfl

end

/-! ## Ending a wait -/

section
variable {s : State} {e : Env} (henv : s.env? e.sid = some e) (hr : mayResume e = true)
include henv hr

/-- A waiting word that may go on looks again at its condition. -/
theorem resumeWord_runs {w : Wait} (hw : e.st.wait = some w) {f : Env → Wait → Option (Nat × (Env → State → Eff))} {len : Nat}
    {body : Env → State → Eff} (hf : f e w = some (len, body)) : resumeWord s e.sid f = (body e s).finish e len := by
  simp [resumeWord, henv, hr, hw, hf]

theorem resumeWord_idle {w : Wait} (hw : e.st.wait = some w) {f : Env → Wait → Option (Nat × (Env → State → Eff))}
    (hf : f e w = none) : resumeWord s e.sid f = s := by
  simp [resumeWord, henv, hr, hw, hf]

variable {d : SReg} {t : Nat} (hw : e.st.wait = some (.smwait d t))
include hw

theorem exec_smwaitWake : exec (.smwaitWake e.sid) s = .next (s.woken e d (BitVec.ofNat 64 ((pendingReason e.st).getD 1))) := by
  show execSmwaitWake e.sid s = _
  rw [execSmwaitWake, resumeWord_runs henv hr hw rfl, finish_wake]

theorem exec_smwaitTimeout (h : t ≤ s.cycle) :
    exec (.smwaitTimeout e.sid) s = .next (s.woken e d (BitVec.ofNat 64 ((pendingReason e.st).getD 2))) := by
  show execSmwaitTimeout e.sid s = _
  rw [execSmwaitTimeout, resumeWord_runs henv hr hw (if_pos h), finish_wake]

theorem exec_smwaitTimeout_early (h : s.cycle < t) : exec (.smwaitTimeout e.sid) s = .next s := by
  show execSmwaitTimeout e.sid s = _
  rw [execSmwaitTimeout, resumeWord_idle henv hr hw (if_neg (Nat.not_le.mpr h))]

end

/-! ## Timelines -/

section
variable {s : State} {e : Env} {h : Fin 16} {k : QueueKey} {b : SReg} (hk : handleQueue s e h.val = some k)
include hk

theorem needHandle_translated : needHandle h.val e s = none := by simp [needHandle, hk]

theorem stlwaitBody_reached (hb : (e.st.rd b).toNat ≤ reached s k) : stlwaitBody h b e s = .done s := by
  simp only [stlwaitBody, hk, if_pos hb]

theorem stlwaitBody_short (hb : reached s k < (e.st.rd b).toNat) : stlwaitBody h b e s = .wait s (.stlwait h b) := by
  simp only [stlwaitBody, hk, if_neg (Nat.not_le.mpr hb)]

theorem stlthrBody_few (hb : incompleteOf s k e.sid ≤ (e.st.rd b).toNat) : stlthrBody h b e s = .done s := by
  simp only [stlthrBody, hk, if_pos hb]

theorem stlthrBody_many (hb : (e.st.rd b).toNat < incompleteOf s k e.sid) : stlthrBody h b e s = .wait s (.stlthr h b) := by
  simp only [stlthrBody, hk, if_neg (Nat.not_le.mpr hb)]

variable {g : Guard}

theorem exec_stlwait (hi : Issues s e g) : exec (.stlwait g h b) s = .next ((stlwaitBody h b e s).finish e 4) :=
  scalarWord_runs hi 4 _ _ (needHandle_translated hk)

theorem exec_stlthr (hi : Issues s e g) : exec (.stlthr g h b) s = .next ((stlthrBody h b e s).finish e 4) :=
  scalarWord_runs hi 4 _ _ (needHandle_translated hk)

theorem exec_stlrd (hi : Issues s e g) (d : SReg) :
    exec (.stlrd g d h) s = .next (s.after e (e.st.pc + 4) fun st => st.wr d (BitVec.ofNat 64 (reached s k))) := by
  show execStlrd g d h s = _
  rw [execStlrd, scalarWord_runs hi _ _ _ (needHandle_translated hk)]
  simp only [hk, finish_done]

end

section
variable {s : State} {e : Env} {h : Fin 16} {b : SReg} (henv : s.env? e.sid = some e) (hr : mayResume e = true)
include henv hr

theorem exec_stlwaitReturn (hw : e.st.wait = some (.stlwait h b)) :
    exec (.stlwaitReturn e.sid) s = .next ((stlwaitBody h b e s).finish e 4) :=
  congrArg _ (resumeWord_runs henv hr hw rfl)

theorem exec_stlthrReturn (hw : e.st.wait = some (.stlthr h b)) :
    exec (.stlthrReturn e.sid) s = .next ((stlthrBody h b e s).finish e 4) :=
  congrArg _ (resumeWord_runs henv hr hw rfl)

end

/-- A word whose check fails raises its fault, whatever its guard (06 R158). -/
theorem scalarWord_refuses {s : State} {e : Env} (hcur : s.cur = some (.scalar e.sid)) (henv : s.env? e.sid = some e) (g : Guard)
    (len : Nat) {check : Env → State → Option Code} (body : Env → State → Eff) {c : Code} (hc : check e s = some c) :
    scalarWord g len check body s = .next (raiseScalar s e { code := c }) := by
  simp [scalarWord, hcur, henv, hc]

/-- Settles O32: an answer is `State.woken` with the code of the pending event, and a timeline word is its body, at its issue and at
its return. -/
theorem monitorAndTimelineWords : Obligations.MonitorAndTimelineWords := by
  unfold Obligations.MonitorAndTimelineWords
  refine ⟨?_, ?_, ?_⟩
  · intro s e g d a quiet woken
    refine ⟨fun hi => ⟨fun pa h => exec_smon hi a h, exec_smdis hi, fun h => ?_, fun w h => ⟨fun h0 => ?_, fun h0 h1 => ?_,
      fun h0 h1 => ?_⟩⟩, fun t w henv hr hw h => ⟨?_, fun ht => ?_, exec_smwaitTimeout_early henv hr hw⟩⟩
    · exact exec_smwait_pending hi a (pendingReason_none h)
    · exact exec_smwait_pending hi a (by rw [pendingReason_armed h, if_pos h0])
    · exact exec_smwait_pending hi a (by rw [pendingReason_armed h, h0, if_neg (by decide), if_pos h1])
    · exact exec_smwait_quiet hi a (by rw [pendingReason_armed h, h0, h1]; rfl)
    · rw [exec_smwaitWake henv hr hw, pendingReason_armed h]
      cases w.wrote <;> cases w.invalidated <;> rfl
    · rw [exec_smwaitTimeout henv hr hw ht, pendingReason_armed h]
      cases w.wrote <;> cases w.invalidated <;> rfl
  · intro s e g d b h k henv hk on
    refine ⟨fun hi => exec_stlrd hk hi d, fun hb => ⟨fun hi => ?_, fun hr hw => ?_⟩, fun hb => ⟨fun hi => ?_, fun hr hw => ?_⟩,
      fun hb => ⟨fun hi => ?_, fun hr hw => ?_⟩, fun hb => ⟨fun hi => ?_, fun hr hw => ?_⟩⟩
    · rw [exec_stlwait hk hi, stlwaitBody_reached hk hb]
      rfl
    · rw [exec_stlwaitReturn henv hr hw, stlwaitBody_reached hk hb]
      rfl
    · rw [exec_stlwait hk hi, stlwaitBody_short hk hb]
      rfl
    · rw [exec_stlwaitReturn henv hr hw, stlwaitBody_short hk hb]
      rfl
    · rw [exec_stlthr hk hi, stlthrBody_few hk hb]
      rfl
    · rw [exec_stlthrReturn henv hr hw, stlthrBody_few hk hb]
      rfl
    · rw [exec_stlthr hk hi, stlthrBody_many hk hb]
      rfl
    · rw [exec_stlthrReturn henv hr hw, stlthrBody_many hk hb]
      rfl
  · intro s e g d b h hcur henv hk
    have hn : needHandle h.val e s = some .illegalOperand := by simp [needHandle, hk]
    simp only [List.mem_cons, List.not_mem_nil, or_false, forall_eq_or_imp, forall_eq]
    refine ⟨scalarWord_refuses hcur henv g 4 _ hn, scalarWord_refuses hcur henv g 4 _ hn, ?_⟩
    show execStlrd g d h s = _
    rw [execStlrd, scalarWord_refuses hcur henv g 4 _ hn]

end Sys2Proof.Machine
end

section
/-! The canonical form of every memory (03 R71, R72; log 1): what a change of the state has to keep, and the operations on memory, on strands
and on messages that keep it. -/

namespace Sys2Proof.Machine
open Sys2Proof

/-- A workgroup's own memories are canonical. -/
abbrev Workgroup.Canon (g : Workgroup) : Prop := g.scratch.wf = true ∧ g.tiles.wf = true

/-- Every memory of the machine is canonical. -/
structure State.Canon (s : State) : Prop where
  mem : s.mem.wf = true
  wgs : ∀ p ∈ s.wgs, p.2.Canon

theorem State.canon_iff (s : State) : s.Canon ↔ s.memWf = true := by
  simp only [State.memWf, Bool.and_eq_true, List.all_eq_true]
  exact ⟨fun h => ⟨h.mem, h.wgs⟩, fun h => ⟨h.1, h.2⟩⟩

/-- The state in a result that has one: the first of a pair, what an `ok` or a `some` holds, the next state of an outcome. -/
abbrev SomeCanon (r : Option State) : Prop := ∀ t, r = some t → t.Canon
abbrev SomeFstCanon {α : Type} (r : Option (State × α)) : Prop := ∀ t x, r = some (t, x) → t.Canon
abbrev OkCanon {ε : Type} (r : Except ε State) : Prop := ∀ t, r = .ok t → t.Canon
abbrev OkFstCanon {ε α : Type} (r : Except ε (State × α)) : Prop := ∀ t x, r = .ok (t, x) → t.Canon
abbrev NextCanon (o : Host.Outcome State Fault Refusal) : Prop := ∀ t, o = .next t → t.Canon

theorem someCanon_none : SomeCanon none := fun _ h => nomatch h
theorem okCanon_error {ε : Type} {x : ε} : OkCanon (.error x) := fun _ h => nomatch h
theorem okFstCanon_error {ε α : Type} {x : ε} : OkFstCanon (.error x : Except ε (State × α)) := fun _ _ h => nomatch h
theorem nextCanon_fault {f : Fault} : NextCanon (.fault f) := fun _ h => nomatch h

section
variable {s t : State}

theorem State.Canon.some (h : s.Canon) : SomeCanon (.some s) := fun _ e => by cases e; exact h
theorem State.Canon.ok {ε : Type} (h : s.Canon) : OkCanon (.ok s : Except ε State) := fun _ e => by cases e; exact h
theorem State.Canon.okFst {ε α : Type} {x : α} (h : s.Canon) : OkFstCanon (.ok (s, x) : Except ε (State × α)) :=
  fun _ _ e => by cases e; exact h
theorem State.Canon.next (h : s.Canon) : NextCanon (.next s) := fun _ e => by cases e; exact h

/-- Nothing but the memories matters. -/
theorem State.Canon.upd (h : s.Canon) (hm : t.mem = s.mem) (hw : t.wgs = s.wgs) : t.Canon :=
  ⟨hm ▸ h.mem, hw ▸ h.wgs⟩

/-- The state of a result that is a pair. -/
theorem State.Canon.fst {α : Type} {p : State × α} {x : α} (h : p.1.Canon) (e : p = (t, x)) : t.Canon := by
  rw [e] at h
  exact h

/-- The state of a pair, said apart so that the kernel need not evaluate the pair's parts to see it. -/
theorem State.Canon.pair {α : Type} (h : s.Canon) (x : α) : (s, x).1.Canon := h

theorem State.Canon.ite {c : Prop} [Decidable c] (hs : s.Canon) (ht : t.Canon) : (if c then s else t).Canon := by
  split
  · exact hs
  · exact ht

theorem State.Canon.iteFst {α : Type} {c : Prop} [Decidable c] {p q : State × α} (hp : p.1.Canon) (hq : q.1.Canon) :
    (if c then p else q).1.Canon := by
  split
  · exact hp
  · exact hq

theorem OkCanon.ite {ε : Type} {c : Prop} [Decidable c] {x y : Except ε State} (hx : OkCanon x) (hy : OkCanon y) :
    OkCanon (if c then x else y) := by
  split
  · exact hx
  · exact hy

theorem State.Canon.foldl {β : Type} {f : State → β → State} {l : List β} (h : s.Canon) (hf : ∀ s x, s.Canon → (f s x).Canon) :
    (l.foldl f s).Canon := foldl_keeps State.Canon f hf l s h

/-- Global memory changed, the workgroups as they were. -/
theorem State.Canon.setMem (h : s.Canon) (hm : t.mem.wf = true) (hw : t.wgs = s.wgs) : t.Canon := ⟨hm, hw ▸ h.wgs⟩

/-- Global memory changed but for the home and the views. -/
theorem State.Canon.setCaches (h : s.Canon) (hh : t.mem.home = s.mem.home) (hv : t.mem.views = s.mem.views)
    (hw : t.wgs = s.wgs) : t.Canon := h.setMem (MemSys.wf_of_views h.mem hh hv) hw

theorem State.Canon.of_sameButMemory (h : s.Canon) (hs : SameButMemory s t) (hm : t.mem.wf = true) : t.Canon :=
  h.setMem hm (by rw [← hs.rest])

/-! ## Workgroups -/

theorem State.Canon.wg (h : s.Canon) {k : Nat} {g : Workgroup} (hg : s.wgs.get? k = Option.some g) : g.Canon :=
  h.wgs _ (Assoc.mem_of_get? hg)

theorem State.Canon.mapWgs (h : s.Canon) {F : Nat × Workgroup → Workgroup} (hF : ∀ p, p.2.Canon → (F p).Canon)
    (hw : t.wgs = s.wgs.map fun p => (p.1, F p)) (hm : t.mem = s.mem) : t.Canon := by
  refine ⟨hm ▸ h.mem, fun p hp => ?_⟩
  rw [hw] at hp
  obtain ⟨q, hq, rfl⟩ := List.mem_map.1 hp
  exact hF q (h.wgs q hq)

theorem State.Canon.modWg (h : s.Canon) {k : Nat} {f : Workgroup → Workgroup} (hf : ∀ g, g.Canon → (f g).Canon) : (s.modWg k f).Canon := by
  refine ⟨h.mem, fun p hp => ?_⟩
  have hall := Assoc.all_modify s.wgs k f (fun g => decide g.Canon) (fun g hg => by simpa using hf g (by simpa using hg))
    (List.all_eq_true.2 fun q hq => by simpa using h.wgs q hq)
  simpa using List.all_eq_true.1 hall p hp

theorem State.Canon.setWg (h : s.Canon) {k : Nat} {g : Workgroup} (hg : g.Canon) (hw : t.wgs = s.wgs.set k g) (hm : t.mem = s.mem) :
    t.Canon := by
  refine ⟨hm ▸ h.mem, fun p hp => ?_⟩
  have hall := Assoc.all_set s.wgs k g (fun g => decide g.Canon) (by simpa using hg) (List.all_eq_true.2 fun q hq => by simpa using h.wgs q hq)
  rw [hw] at hp
  simpa using List.all_eq_true.1 hall p hp

/-! ## Global memory -/

theorem onLine_canon (h : s.Canon) {line : Nat} {f : MemSys → MemSys} (hf : ∀ m : MemSys, m.wf = true → (f m).wf = true) :
    (s.onLine line f).Canon := h.of_sameButMemory (s.onLine_sameButMemory ..) (State.wf_onLine h.mem _ hf)

theorem performAt_canon (h : s.Canon) {d w pa bs} : (s.performAt d w pa bs).Canon :=
  h.of_sameButMemory (s.performAt_sameButMemory ..) (State.wf_performAt h.mem ..)

theorem homeLine_canon (h : s.Canon) {d line} : (s.homeLine d line).Canon :=
  h.of_sameButMemory (s.homeLine_sameButMemory ..) (State.wf_homeLine h.mem ..)

theorem readyAt_canon (h : s.Canon) {d w pa n} : (s.readyAt d w pa n).Canon :=
  h.of_sameButMemory (s.readyAt_sameButMemory ..) (State.wf_readyAt h.mem ..)

theorem readL2_canon (h : s.Canon) {d w pa n} : (s.readL2 d w pa n).1.Canon := readyAt_canon h

theorem readHome8_canon (h : s.Canon) {d pa} : (s.readHome8 d pa).1.Canon := homeLine_canon h

theorem l1Drop_canon (h : s.Canon) {core line} : ({ s with mem := s.mem.l1Drop core line } : State).Canon := h.setCaches rfl rfl rfl

theorem walkRead_canon (h : s.Canon) {d world level tag pa} : (walkRead s d world level tag pa).1.Canon := by
  unfold walkRead
  split
  · split
    · exact h
    · exact readHome8_canon h
  · exact readHome8_canon h

theorem walkKeep_canon (h : s.Canon) {d world level tag e} : (walkKeep s d world level tag e).Canon := h.upd rfl rfl

theorem walkGo_canon (h : s.Canon) {base d world va acc priv level table} : (walkGo base d world va acc priv level table s).1.Canon := by
  induction level generalizing table s with
  | zero =>
    unfold walkGo
    split
    · exact h
    · exact (walkRead_canon h).pair _
  | succ level ih =>
    simp only [walkGo]
    split
    · exact h
    · split
      · exact walkRead_canon h
      · exact ih (walkKeep_canon (walkRead_canon h))

theorem walk_canon (h : s.Canon) {d world va acc priv} : (walk s d world va acc priv).1.Canon := by
  unfold walk
  split
  · split
    · exact (walkGo_canon h).pair _
    · exact h
  · exact h

theorem translateNow_canon (h : s.Canon) {d world va acc priv} : (translateNow s d world va acc priv).1.Canon := by
  unfold translateNow
  split
  · exact h
  · split <;> exact (walk_canon h).fst ‹_›

theorem readNow_canon (h : s.Canon) {d world va n priv} : (readNow s d world va n priv).1.Canon := by
  unfold readNow
  refine foldl_keeps (fun a : State × Except Code (List Byte) => a.1.Canon) _ (fun a g ha => ?_) _ _ h
  split
  · exact ha
  · have ht := translateNow_canon ha (d := d) (world := world) (va := g.1) (acc := .read) (priv := priv)
    split
    · exact ht.fst ‹_›
    · split
      · exact ht.fst ‹_›
      · exact readL2_canon (ht.fst ‹_›)

theorem writeNow_canon (h : s.Canon) {d world va bs priv} : (writeNow s d world va bs priv).1.Canon := by
  unfold writeNow
  extract_lets checked
  have hc : checked.1.Canon := by
    refine foldl_keeps (fun a : State × Except Code (List (Nat × Nat × Nat)) => a.1.Canon) _ (fun a g ha => ?_) _ _ h
    split
    · exact ha
    · split <;> exact (translateNow_canon ha).fst ‹_›
  generalize checked = x at hc
  obtain ⟨u, r⟩ := x
  cases r with
  | error c => exact hc
  | ok l => exact State.Canon.foldl hc fun _ _ hs => performAt_canon hs

theorem readDesc_canon (h : s.Canon) {d world index} : (readDesc s d world index).1.Canon := by
  unfold readDesc
  split
  · exact h
  · split <;> exact (readNow_canon h).fst ‹_›

theorem ask_canon (h : s.Canon) {w} : (s.ask w).Canon := by
  unfold State.ask
  split
  · exact h
  · exact h.upd rfl rfl

theorem readDie_canon (h : s.Canon) {d w pa n} : (readDie s d w pa n).1.Canon := by
  unfold readDie
  split
  · exact h
  · exact readL2_canon h

/-! ## Updates of one record -/

theorem modStrand_canon (h : s.Canon) {sid f} : (s.modStrand sid f).Canon := h.upd rfl rfl
theorem modLaunch_canon (h : s.Canon) {l f} : (s.modLaunch l f).Canon := h.upd rfl rfl
theorem modInst_canon (h : s.Canon) {i f} : (s.modInst i f).Canon := h.upd rfl rfl
theorem modCtx_canon (h : s.Canon) {c f} : (s.modCtx c f).Canon := h.upd rfl rfl
theorem modWorld_canon (h : s.Canon) {w f} : (s.modWorld w f).Canon := h.upd rfl rfl
theorem tell_canon (h : s.Canon) {w e} : (s.tell w e).Canon := h.upd rfl rfl
theorem setCopyQ_canon (h : s.Canon) {c q v} : (s.setCopyQ c q v).Canon := h.upd rfl rfl
theorem setCollQ_canon (h : s.Canon) {d v} : (s.setCollQ d v).Canon := h.upd rfl rfl

/-! ## Strands, blocks and barriers -/

theorem noteExit_canon (h : s.Canon) {sid} : (noteExit s sid).Canon := by
  unfold noteExit
  split
  · exact State.Canon.ite (h.upd (by rfl) (by rfl)) h
  · exact h

theorem startBlockGo_canon (h : s.Canon) {sid n} : (startBlockGo sid n s).Canon := by
  induction n generalizing s with
  | zero => exact h
  | succ n ih =>
    unfold startBlockGo
    split
    · exact h
    · split
      · exact h
      · exact State.Canon.ite (ih (h.upd (by rfl) (by rfl))) (h.upd (by rfl) (by rfl))

theorem startBlock_canon (h : s.Canon) {sid} : (startBlock s sid).Canon := startBlockGo_canon h

theorem finishBlock_canon (h : s.Canon) {sid exited} : (finishBlock s sid exited).Canon := noteExit_canon (startBlock_canon (h.upd (by rfl) (by rfl)))

theorem leavePhase_canon (h : s.Canon) {k sid} : (leavePhase k s sid).Canon := by
  unfold leavePhase
  split
  · exact h
  · split
    · exact State.Canon.ite (h.upd (by rfl) (by rfl)) h
    · exact State.Canon.ite (State.Canon.ite (h.upd (by rfl) (by rfl)) (h.upd (by rfl) (by rfl))) h
    · exact h

theorem completePhase_canon (h : s.Canon) {k} : (completePhase s k).Canon := by
  unfold completePhase
  exact State.Canon.ite (State.Canon.foldl (h.upd (by rfl) (by rfl)) fun _ _ hs => leavePhase_canon hs) h

theorem completePhases_canon (h : s.Canon) {sid} : (completePhases s sid).Canon := h.foldl fun _ _ hs => completePhase_canon hs

theorem breakBars_canon (h : s.Canon) {sid} : (breakBars s sid).Canon := h.foldl fun _ _ hs => hs.upd rfl rfl

/-! ## Messages and the store buffer -/

theorem noteSent_canon (h : s.Canon) {port peer ix parts} : (noteSent s port peer ix parts).Canon :=
  State.Canon.ite (h.upd (by rfl) (by rfl)) (h.upd (by rfl) (by rfl))

theorem noteGot_canon (h : s.Canon) {port peer} : (noteGot s port peer).Canon := State.Canon.ite h (h.upd (by rfl) (by rfl))

theorem newMessage_canon (h : s.Canon) {world sender w op parts filling counter} :
    (newMessage s world sender w op parts filling counter).Canon := noteSent_canon (h.upd (by rfl) (by rfl))

theorem sendRuns_canon (h : s.Canon) {world sender op runs} : (sendRuns s world sender op runs).Canon := by
  unfold sendRuns
  split
  · split
    · exact h.upd rfl rfl
    · exact h
  · exact newMessage_canon h

theorem sendMessage_canon (h : s.Canon) {world sender pa op payload} : (sendMessage s world sender pa op payload).Canon := sendRuns_canon h

theorem settleColls_canon (h : s.Canon) {num} : (settleColls s num).Canon := h.upd rfl rfl

theorem finishOut_canon (h : s.Canon) {m st} : (finishOut s m st).Canon := by
  unfold finishOut
  split <;> exact h.upd rfl rfl

theorem settleOut_canon (h : s.Canon) {num} : (settleOut s num).Canon := by
  unfold settleOut
  split
  · exact State.Canon.ite (finishOut_canon h) h
  · exact h

theorem closeMessages_canon (h : s.Canon) {l} : (closeMessages s l).Canon := h.foldl fun _ _ hs => settleOut_canon (hs.upd (by rfl) (by rfl))

theorem covered_canon (h : s.Canon) {parts} : (s.covered parts).Canon := State.Canon.ite h (h.setCaches rfl rfl rfl)

theorem l1DropRun_canon (h : s.Canon) {core pa n} : (l1DropRun s core pa n).Canon := h.setCaches rfl rfl rfl

theorem performStore_canon (h : s.Canon) {sid core world e} : (performStore s sid core world e).Canon := by
  unfold performStore
  extract_lets s1 s2 s3
  have h1 : s1.Canon := h.foldl fun _ _ hs => State.Canon.ite hs (l1Drop_canon (performAt_canon hs))
  have h3 : s3.Canon := covered_canon (h1.foldl fun _ _ hs => sendRuns_canon hs)
  exact State.Canon.ite (h3.upd (by rfl) (by rfl)) h3

theorem drain_canon (h : s.Canon) {sid} : (drain s sid).Canon := by
  unfold drain
  split
  · exact h
  · exact State.Canon.foldl (h.upd (by rfl) (by rfl)) fun _ _ hs => performStore_canon hs

theorem enterStore_canon (h : s.Canon) {e x} : (enterStore s e x).Canon :=
  modStrand_canon (h.foldl fun _ _ hs => l1Drop_canon hs)

theorem dropStores_canon (h : s.Canon) {sid p} : (dropStores s sid p).Canon := h.upd rfl rfl

theorem release_canon (h : s.Canon) {sid sc} : (release s sid sc).1.Canon := by
  unfold release
  split
  · exact h
  · exact h
  all_goals exact drain_canon h

theorem dropWrite_canon (h : s.Canon) {d w} : (dropWrite s d w).Canon := h.setMem (MemSys.wf_prune (MemSys.wf_applyMsg h.mem ..)) rfl

theorem applyAll_canon (h : s.Canon) {e} : (applyAll s e).Canon := by
  unfold applyAll
  extract_lets u
  have hu : u.Canon := h.foldl fun _ _ hs => dropWrite_canon hs
  exact hu.setMem (MemSys.wf_applyUpTo hu.mem ..) rfl

theorem publish_canon (h : s.Canon) : (publish s).Canon := h.foldl fun _ _ hs => applyAll_canon hs

/-! ## Faults -/

theorem fileRec_canon (h : s.Canon) {world d r} : (fileRec s world d r).1.Canon := by
  unfold fileRec
  split
  · exact h
  · extract_lets r1 r2 s1 s2
    have h1 : s1.Canon := h.upd rfl rfl
    have h2 : s2.Canon := writeNow_canon h1
    clear_value s2
    split
    · exact State.Canon.pair (h2.upd (by rfl) (by rfl)) _
    · exact State.Canon.pair (h.upd (by rfl) (by rfl)) _

theorem endStrand_canon (h : s.Canon) {sid how} : (endStrand s sid how).Canon := by
  unfold endStrand
  split
  · exact h
  · extract_lets s0 s1 s2 s3
    have h1 : s1.Canon := State.Canon.ite (drain_canon (modStrand_canon (dropStores_canon h))) h
    have h3 : s3.Canon := State.Canon.ite (h1.upd (by rfl) (by rfl)) (h1.upd (by rfl) (by rfl))
    exact State.Canon.ite h (State.Canon.ite h3 (breakBars_canon (completePhases_canon h3)))

theorem modCopyCmd_canon (h : s.Canon) {c q num f} : (modCopyCmd s c q num f).Canon :=
  h.mapWgs (F := fun p => if p.2.core = c then _ else p.2) (fun p hp => by split <;> exact hp) rfl rfl

theorem modMatCmd_canon (h : s.Canon) {wg id f} : (modMatCmd s wg id f).Canon := h.modWg fun _ hg => hg

theorem modCollCmd_canon (h : s.Canon) {d num f} : (modCollCmd s d num f).Canon := h.upd rfl rfl

theorem stopAgent_canon (h : s.Canon) {r written} : (stopAgent s r written).Canon := by
  unfold stopAgent
  extract_lets stop cmd
  split
  · exact h.upd rfl rfl
  · exact h.upd rfl rfl
  · exact modCopyCmd_canon h
  · exact modMatCmd_canon h
  · exact modCollCmd_canon h
  all_goals exact h

theorem endAgent_canon (h : s.Canon) {a} : (endAgent s a).Canon := by
  unfold endAgent
  split
  · exact endStrand_canon h
  · exact endStrand_canon h
  · extract_lets s1 s2
    have h1 : s1.Canon := by
      unfold s1
      split
      · exact closeMessages_canon h
      · exact h
    exact setCopyQ_canon (modCopyCmd_canon h1)
  · extract_lets s1
    have h1 : s1.Canon := modMatCmd_canon h
    split
    · split
      · exact setCopyQ_canon (modCopyCmd_canon h1)
      · exact h1.modWg fun _ hg => hg
    · exact h1
  · exact setCollQ_canon (modCollCmd_canon h)
  all_goals exact h

theorem endPair_canon (h : s.Canon) {wg id second} : (endPair s wg id second).Canon := by
  unfold endPair
  split
  · exact h
  · extract_lets gone s1
    have h1 : s1.Canon := h.modWg fun _ hg => hg
    exact endStrand_canon (endStrand_canon h1)

theorem consequence_canon (h : s.Canon) {r} : (consequence s r).Canon := by
  unfold consequence
  split
  · exact stopAgent_canon h
  · split
    · exact endPair_canon h
    · exact endAgent_canon h

theorem tellMonitor_canon (h : s.Canon) {r} : (tellMonitor s r).Canon := State.Canon.ite (h.upd (by rfl) (by rfl)) h

theorem deliver_canon (h : s.Canon) {world d r} : (deliver s world d r).Canon := by
  unfold deliver
  split
  · exact stopAgent_canon ((fileRec_canon h).fst ‹_›)
  · exact consequence_canon (tellMonitor_canon ((fileRec_canon h).fst ‹_›))

theorem sweepBars_canon (h : s.Canon) {n} : (sweepBars n s).Canon := by
  induction n generalizing s with
  | zero => exact h
  | succ n ih =>
    unfold sweepBars
    split
    · exact h
    · split
      · exact h
      · exact ih (deliver_canon h)

theorem sweep_canon (h : s.Canon) : (sweep s).Canon := sweepBars_canon h

theorem raise_canon (h : s.Canon) {world d r} : (raise s world d r).Canon := sweep_canon (deliver_canon h)

theorem raiseScalar_canon (h : s.Canon) {e f} : (raiseScalar s e f).Canon := raise_canon h

theorem fileHeld_canon (h : s.Canon) {world} : (fileHeld s world).Canon := by
  unfold fileHeld
  split
  · exact h
  · extract_lets s1
    have h1 : s1.Canon := h.upd rfl rfl
    split
    · exact (fileRec_canon h1).fst ‹_›
    · have ht := (fileRec_canon h1).fst ‹_›
      exact State.Canon.ite (sweep_canon (consequence_canon (tellMonitor_canon ht))) (tellMonitor_canon ht)

theorem freeRec_canon (h : s.Canon) {world seq} : (freeRec s world seq).Canon := h.upd rfl rfl

theorem wakeAgent_canon (h : s.Canon) {a} : (wakeAgent s a).Canon := by
  unfold wakeAgent
  split
  · exact h.upd rfl rfl
  · exact h.upd rfl rfl
  · exact modCopyCmd_canon h
  · exact modMatCmd_canon h
  · exact modCollCmd_canon h
  all_goals exact h

theorem endRecords_canon (h : s.Canon) {world d p} : (endRecords s world d p).Canon := by
  unfold endRecords
  split
  · exact h
  · exact State.Canon.foldl (h.upd (by rfl) (by rfl)) fun _ _ hs => writeNow_canon (hs.upd (by rfl) (by rfl))

theorem stopUnder_canon (h : s.Canon) {i} : (stopUnder s i).Canon := by
  unfold stopUnder
  extract_lets insts wgs s1 hit s2
  have h1 : s1.Canon := h.mapWgs (F := fun p => if under s i (unitOf p.1) then _ else p.2) (fun p hp => by split <;> exact hp) rfl rfl
  refine sweep_canon (h1.foldl fun _ _ hs => ?_)
  split
  · exact endRecords_canon (endStrand_canon hs)
  · exact hs

theorem scratchWrite_canon (h : s.Canon) {wg off bs} : (scratchWrite s wg off bs).Canon := h.modWg fun _ hg => ⟨Mem.wf_write _ _ hg.1, hg.2⟩

theorem faultScalar_canon (h : s.Canon) {e f} : (faultScalar s e f).Canon :=
  State.Canon.ite (modStrand_canon (drain_canon h)) (raiseScalar_canon (drain_canon h))

end
end Sys2Proof.Machine
end

section
/-! Words keep the canonical form where their bodies do (06 R154, R158; 08 R214), and the fetch of a word keeps it (06 R157, R162). -/

namespace Sys2Proof.Machine
open Sys2Proof

/-- The state in what a scalar word's body ends in. -/
def Eff.Canon : Eff → Prop
  | .done s | .jump s _ | .fault s _ | .wait s _ => s.Canon

/-- The state in what a vector word's body ends in. -/
def VEff.Canon : VEff → Prop
  | .done s _ | .doneAs s _ | .fault s _ | .wait s => s.Canon

/-- The state in what a fetch ends in. -/
def Fetched.Canon : Fetched → Prop
  | .run s _ | .halt s => s.Canon

/-- A result of which either side may hold a state. -/
def BothCanon {ε α : Type} (P : ε → Prop) (Q : α → Prop) : Except ε α → Prop
  | .error x => P x
  | .ok a => Q a

section
variable {ε α : Type} {P : ε → Prop} {Q : α → Prop} {r : Except ε α}

theorem BothCanon.error (h : BothCanon P Q r) {x : ε} (e : r = .error x) : P x := by
  rw [e] at h
  exact h

theorem BothCanon.ok (h : BothCanon P Q r) {a : α} (e : r = .ok a) : Q a := by
  rw [e] at h
  exact h

end

section
variable {s : State}

theorem Eff.Canon.finish {x : Eff} (h : x.Canon) {e len} : (x.finish e len).Canon := by
  cases x with
  | done s => exact modStrand_canon h
  | jump s pc => exact modStrand_canon h
  | fault s f => exact faultScalar_canon h
  | wait s w => exact modStrand_canon h

theorem scalarWord_canon (h : s.Canon) {g len check body} (hb : ∀ e, Eff.Canon (body e s)) : NextCanon (scalarWord g len check body s) := by
  unfold scalarWord
  split
  · split
    · split
      · exact (raiseScalar_canon h).next
      · split
        · exact (hb _).finish.next
        · exact (Eff.Canon.finish (x := .done s) h).next
    · exact nextCanon_fault
  · exact nextCanon_fault

theorem setsReg_canon (h : s.Canon) {d f e} : (setsReg d f e s).Canon := modStrand_canon h

/-! ## Vector words -/

theorem modSplit_canon (h : s.Canon) {sid slot f} : (s.modSplit sid slot f).Canon := modStrand_canon h

theorem readyAgain_canon (h : s.Canon) {sid} : (readyAgain s sid).Canon := modStrand_canon h

variable {c : VCtx}

theorem putReg_canon (h : s.Canon) {i r} : (c.putReg s i r).Canon := State.Canon.ite h (modStrand_canon h)

theorem setV_canon (h : s.Canon) {t tag f} : (c.setV s t tag f).Canon := by
  unfold VCtx.setV
  extract_lets lo hi d s1 s2
  have h1 : s1.Canon := putReg_canon h
  exact (State.Canon.ite (putReg_canon h1) h1 : s2.Canon)

theorem lanewise_canon (h : s.Canon) {f} : (c.lanewise s f).Canon := setV_canon h

theorem setUniform_canon (h : s.Canon) {v} : (c.setUniform s v).Canon := putReg_canon h

theorem setSlotOrV_canon (h : s.Canon) {v} : (c.setSlotOrV s v).Canon := by
  unfold VCtx.setSlotOrV
  split
  · exact State.Canon.ite h (modStrand_canon h)
  · exact setUniform_canon h

theorem setMask_canon (h : s.Canon) {f ms} : (c.setMask s f ms).Canon := State.Canon.ite h (modStrand_canon h)

theorem advance_canon (h : s.Canon) {latch tag} : (c.advance s latch tag).Canon := modSplit_canon h

theorem dropChain_canon (h : s.Canon) {pos} : (c.dropChain s pos).Canon := modSplit_canon (modStrand_canon (dropStores_canon h))

theorem takeFault_canon (h : s.Canon) {f} : (c.takeFault s f).Canon :=
  raise_canon (State.Canon.ite (drain_canon (dropChain_canon h)) (dropChain_canon h))

theorem again_canon (h : s.Canon) : (c.again s).Canon := readyAgain_canon h

theorem faultVector_canon (h : s.Canon) {e f pc} : (faultVector s e f pc).Canon :=
  State.Canon.ite (raise_canon (drain_canon h)) (readyAgain_canon h)

theorem faults_canon (h : s.Canon) {f} : (c.faults s f).Canon := State.Canon.ite (takeFault_canon h) (again_canon h)

theorem VEff.Canon.finish {x : VEff} (h : x.Canon) : (x.finish c).Canon := by
  cases x with
  | done s latch => exact advance_canon h
  | doneAs s latch => exact advance_canon h
  | fault s f => exact faults_canon h
  | wait s => exact again_canon h

theorem vectorWordIf_canon (h : s.Canon) {op w check body} (hb : ∀ c, VEff.Canon (body c s)) : NextCanon (vectorWordIf op w check body s) := by
  cases hc : s.vctx? op w with
  | none =>
    simp only [vectorWordIf, hc]
    exact nextCanon_fault
  | some c =>
    obtain ⟨-, e⟩ | ⟨f, e, -⟩ | ⟨-, e⟩ | ⟨-, -, e⟩ | ⟨-, -, e⟩ := vectorWordIf_cases hc check body <;> rw [e]
    · exact (dropChain_canon h).next
    · exact (faults_canon h).next
    · exact (advance_canon h).next
    · exact (again_canon h).next
    · exact (hb c).finish.next

theorem vectorWord_canon (h : s.Canon) {op w body} (hb : ∀ c, VEff.Canon (body c s)) : NextCanon (vectorWord op w body s) :=
  vectorWordIf_canon h hb

/-! ## Fetching (06 R157, R158) -/

theorem fetchBytes_canon (h : s.Canon) {e faults va n} : (fetchBytes s e faults va n).1.Canon := by
  unfold fetchBytes
  refine foldl_keeps (fun a : State × Got => a.1.Canon) _ (fun a g ha => ?_) _ _ h
  split
  · split
    · exact ha
    · split
      · exact ha
      · exact ha
      · split
        · exact ha
        · exact readDie_canon ha
  · exact ha

theorem scalarBytes_canon (h : s.Canon) {e} : (scalarBytes s e).1.Canon := by
  unfold scalarBytes
  have h1 := fetchBytes_canon h (e := e) (faults := e.st.scalarWalkFaults) (va := e.st.pc) (n := 4)
  split
  · have ht := h1.fst ‹_›
    split
    · split
      · exact (fetchBytes_canon ht).fst ‹_›
      · exact fetchBytes_canon ht
    · exact ht
  · exact h1

theorem noteIssue_canon (h : s.Canon) {e vector slot} : (noteIssue s e vector slot).Canon := h.upd rfl rfl

theorem fetchScalar_canon (h : s.Canon) {sid} : (fetchScalar s sid).Canon := by
  unfold fetchScalar
  split
  · exact h
  · split
    · exact h
    · split
      · exact faultScalar_canon ((scalarBytes_canon h).fst ‹_›)
      · exact ask_canon (modStrand_canon ((scalarBytes_canon h).fst ‹_›))
      · have ht := (scalarBytes_canon h).fst ‹_›
        split
        · exact noteIssue_canon ht
        · exact faultScalar_canon ht

theorem cutChain_canon (h : s.Canon) {sid slot} : (cutChain s sid slot).Canon := modSplit_canon h

theorem fetchVector_canon (h : s.Canon) {sid slot} : (fetchVector s sid slot).Canon := by
  unfold fetchVector
  split
  · exact h
  · split
    · split
      · exact h
      · extract_lets va
        split
        · have ht := (fetchBytes_canon h).fst ‹_›
          exact faultVector_canon (State.Canon.ite (cutChain_canon ht) ht)
        · exact ask_canon (readyAgain_canon ((fetchBytes_canon h).fst ‹_›))
        · have ht := (fetchBytes_canon h).fst ‹_›
          extract_lets u
          have hu : u.Canon := readyAgain_canon ht
          split
          · exact noteIssue_canon hu
          · exact faults_canon hu
    · exact h

end
end Sys2Proof.Machine
end

section
/-! The scalar words keep the canonical form: control flow, memory, barriers, landing words, and waits (07 R180, R181,
R188 to R204, R210, R211). -/

namespace Sys2Proof.Machine
open Sys2Proof

section
variable {s : State} {e : Env}

/-! ## Control flow, the lane queue and traps -/

theorem execSnop_canon (h : s.Canon) {g} : NextCanon (execSnop g s) := scalarWord_canon h fun _ => h

theorem execSyield_canon (h : s.Canon) {g} : NextCanon (execSyield g s) := scalarWord_canon h fun _ => h

theorem execSexit_canon (h : s.Canon) {g} : NextCanon (execSexit g s) := scalarWord_canon h fun _ => noteExit_canon (modStrand_canon h)

theorem jumpTo_canon (h : s.Canon) {t link} : (jumpTo e s t link).Canon := by
  unfold jumpTo
  split
  · exact h
  · split
    · exact modStrand_canon h
    · exact h

theorem execSbr_canon (h : s.Canon) {g off} : NextCanon (execSbr g off s) := scalarWord_canon h fun _ => h

theorem execScall_canon (h : s.Canon) {g off} : NextCanon (execScall g off s) := scalarWord_canon h fun _ => modStrand_canon h

theorem execSjr_canon (h : s.Canon) {g a} : NextCanon (execSjr g a s) := scalarWord_canon h fun _ => jumpTo_canon h

theorem execSjalr_canon (h : s.Canon) {g d a} : NextCanon (execSjalr g d a s) := scalarWord_canon h fun _ => jumpTo_canon h

theorem execSret_canon (h : s.Canon) {g} : NextCanon (execSret g s) := scalarWord_canon h fun _ => jumpTo_canon h

theorem enqueueBlock_canon (h : s.Canon) {index first count} : (enqueueBlock s e index first count).Canon :=
  State.Canon.ite (startBlock_canon (modStrand_canon h)) (modStrand_canon h)

theorem slqBody_canon (h : s.Canon) {index first count} : (slqBody index first count e s).Canon := by
  unfold slqBody
  split
  · exact enqueueBlock_canon h
  · exact h

theorem execSlq_canon (h : s.Canon) {g index first count} : NextCanon (execSlq g index first count s) :=
  scalarWord_canon h fun _ => slqBody_canon h

theorem slwaitBody_canon (h : s.Canon) {k} : (slwaitBody k e s).Canon := by
  unfold slwaitBody
  split <;> exact h

theorem execSlwait_canon (h : s.Canon) {g k} : NextCanon (execSlwait g k s) := scalarWord_canon h fun _ => slwaitBody_canon h

theorem execSgetr_canon (h : s.Canon) {g d q} : NextCanon (execSgetr g d q s) := scalarWord_canon h fun _ => setsReg_canon h

theorem execSbrk_canon (h : s.Canon) {g} : NextCanon (execSbrk g s) := scalarWord_canon h fun _ => by
  extract_lets enabled
  split
  · exact modStrand_canon h
  · exact h

theorem execStrap_canon (h : s.Canon) {g code} : NextCanon (execStrap g code s) := scalarWord_canon h fun _ => h

theorem execSrds_canon (h : s.Canon) {g d i} : NextCanon (execSrds g d i s) := scalarWord_canon h fun _ => setsReg_canon h

/-! ## Memory -/

/-- An access that does not come about leaves its state in what it ends in. -/
theorem scalarAccess_canon (h : s.Canon) {va n k x} (hx : scalarAccess e s va n k = .error x) : x.Canon := by
  unfold scalarAccess at hx
  split at hx
  · cases hx; exact h
  · split at hx
    · cases hx; exact h
    · split at hx
      · cases hx; exact h
      · cases hx; exact ask_canon h
      · cases hx

theorem missLoad_canon (h : s.Canon) {pa n} : (missLoad s e pa n).1.Canon := by
  unfold missLoad
  extract_lets r
  have hr : r.1.Canon := readL2_canon h
  split
  · exact hr
  · split
    · exact State.Canon.pair (l1Drop_canon hr) _
    · exact State.Canon.pair (hr.setCaches rfl rfl rfl : State.Canon { r.1 with mem := r.1.mem.l1Fill e.core e.world (lineOf pa) }) _

theorem globalLoad_canon (h : s.Canon) {pa n fresh} : (globalLoad s e pa n fresh).1.Canon := by
  unfold globalLoad
  split
  · exact readDie_canon h
  · split
    · exact missLoad_canon h
    · split
      · split
        · exact h
        · exact missLoad_canon h
      · exact missLoad_canon h

theorem scalarLoad_canon (h : s.Canon) {d va n fresh ext} : (scalarLoad d va n fresh ext e s).Canon := by
  unfold scalarLoad
  split
  · exact scalarAccess_canon h ‹_›
  · split
    · exact h
    · split
      · exact modStrand_canon h
      · exact drain_canon h
      · split
        · exact (globalLoad_canon h).fst ‹_›
        · exact modStrand_canon ((globalLoad_canon h).fst ‹_›)

theorem scalarStore_canon (h : s.Canon) {va z scope v} : (scalarStore va z scope v e s).Canon := by
  unfold scalarStore
  split
  · exact scalarAccess_canon h ‹_›
  · extract_lets r full x
    have hr : r.1.Canon := release_canon h
    split
    · exact hr
    · exact enterStore_canon (s := { r.1 with nextId := r.1.nextId + 1 }) (hr.upd (by rfl) (by rfl))

theorem execSld_canon (h : s.Canon) {g d a fresh z off} : NextCanon (execSld g d a fresh z off s) := scalarWord_canon h fun _ => scalarLoad_canon h

theorem execSldx_canon (h : s.Canon) {g d a fresh z off} : NextCanon (execSldx g d a fresh z off s) := scalarWord_canon h fun _ => scalarLoad_canon h

theorem execSst_canon (h : s.Canon) {g d a z off} : NextCanon (execSst g d a z off s) := scalarWord_canon h fun _ => scalarStore_canon h

theorem execSlda_canon (h : s.Canon) {g d a sc z off} : NextCanon (execSlda g d a sc z off s) := scalarWord_canon h fun _ => scalarLoad_canon h

theorem execSstl_canon (h : s.Canon) {g d a sc z off} : NextCanon (execSstl g d a sc z off s) := scalarWord_canon h fun _ => scalarStore_canon h

theorem runPages_canon (h : s.Canon) {va n k x} (hx : runPages e s va n k = .error x) : x.Canon := by
  unfold runPages at hx
  refine foldl_keeps (fun r : Except Eff (List (Nat × Nat × Nat)) => ∀ x, r = .error x → x.Canon) _ (fun r g hr x hx => ?_) _ _
    (by intro x hx; cases hx) x hx
  split at hx
  · cases hx
    exact hr _ rfl
  · split at hx
    · cases hx
      exact scalarAccess_canon h ‹_›
    · cases hx

theorem strandBytes_canon (h : s.Canon) {va n} : BothCanon Eff.Canon (fun p => p.1.Canon) (strandBytes e s va n) := by
  unfold strandBytes
  split
  · exact runPages_canon h ‹_›
  · refine foldl_keeps (BothCanon Eff.Canon fun p : State × List Byte => p.1.Canon) _ (fun r g hr => ?_) _ (.ok (drain s e.sid, [])) (drain_canon h)
    split
    · exact hr
    · split
      · exact hr
      · exact readDie_canon (hr.ok rfl)

theorem strandWrite_canon (h : s.Canon) {va bs} : BothCanon Eff.Canon State.Canon (strandWrite e s va bs) := by
  unfold strandWrite
  split
  · exact runPages_canon h ‹_›
  · exact (drain_canon h).foldl fun _ _ hu => l1DropRun_canon (State.Canon.ite hu (performAt_canon hu))

theorem homeRmw_canon (h : s.Canon) {pa n f} : (homeRmw s e pa n f).1.Canon := by
  unfold homeRmw
  extract_lets u old v
  have hu : u.Canon := homeLine_canon h
  split
  · exact hu
  · exact State.Canon.pair (l1Drop_canon (performAt_canon hu)) _

theorem remoteAtom_canon (h : s.Canon) {pa n add operand} : (remoteAtom s e pa n add operand).1.Canon := by
  unfold remoteAtom
  extract_lets old
  split
  · exact State.Canon.pair (sendMessage_canon (modStrand_canon h)) _
  · exact h

theorem execSatom_canon (h : s.Canon) {g d a b op wide sc} : NextCanon (execSatom g d a b op wide sc s) := scalarWord_canon h fun e => by
  extract_lets n va r u operand
  have hr : r.1.Canon := release_canon h
  have hu : u.Canon := drain_canon hr
  split
  · exact scalarAccess_canon h ‹_›
  · split
    · exact hr
    · split
      · exact modStrand_canon (remoteAtom_canon hu)
      · split
        · exact (homeRmw_canon hu).fst ‹_›
        · exact modStrand_canon ((homeRmw_canon hu).fst ‹_›)

theorem execSfence_canon (h : s.Canon) {g sc} : NextCanon (execSfence g sc s) := scalarWord_canon h fun _ => by
  extract_lets r
  have hr : r.1.Canon := release_canon h
  split <;> exact hr

/-! ## Barriers, landing words and waits -/

theorem resumeWord_canon (h : s.Canon) {sid f} (hf : ∀ e w len body, f e w = some (len, body) → (body e s).Canon) :
    (resumeWord s sid f).Canon := by
  unfold resumeWord
  split
  · exact h
  · split
    · exact h
    · split
      · exact h
      · split
        · exact h
        · exact (hf _ _ _ _ ‹_›).finish

theorem execLaneQueueEnqueue_canon (h : s.Canon) {sid} : NextCanon (execLaneQueueEnqueue sid s) :=
  (resumeWord_canon h fun e w len body hf => by
    split at hf <;> cases hf
    exact slqBody_canon h).next

theorem execSlwaitReturn_canon (h : s.Canon) {sid} : NextCanon (execSlwaitReturn sid s) :=
  (resumeWord_canon h fun e w len body hf => by
    split at hf <;> cases hf
    exact slwaitBody_canon h).next

theorem arrive_canon (h : s.Canon) {k sync} : (arrive s e k sync).Canon := by
  unfold arrive
  extract_lets b u
  have hu : u.Canon := h.upd rfl rfl
  split
  · exact h
  · split
    · exact h
    · split <;> exact hu

theorem barBody_canon (h : s.Canon) {k sync} : (barBody k sync e s).Canon := by
  unfold barBody
  split
  · exact h
  · split
    · exact h
    · split
      · exact h
      · extract_lets r
        have hr : r.1.Canon := release_canon h
        split
        · exact arrive_canon hr
        · exact hr

theorem execSbar_canon (h : s.Canon) {g k} : NextCanon (execSbar g k s) := scalarWord_canon h fun _ => barBody_canon h

theorem execSbara_canon (h : s.Canon) {g k} : NextCanon (execSbara g k s) := scalarWord_canon h fun _ => barBody_canon h

theorem execBarrierPhaseComplete_canon (h : s.Canon) {k} : NextCanon (execBarrierPhaseComplete k s) := (completePhase_canon h).next

theorem landWord_canon (h : s.Canon) {a reads body} (hb : ∀ off w, Eff.Canon (body e s off w)) : (landWord a reads body e s).Canon := by
  unfold landWord
  extract_lets off
  split
  · exact h
  · split
    · exact h
    · exact hb ..

theorem execSlinit_canon (h : s.Canon) {g a} : NextCanon (execSlinit g a s) :=
  scalarWord_canon h fun _ => landWord_canon h fun _ _ => scratchWrite_canon (scratchWrite_canon h)

theorem execSlexp_canon (h : s.Canon) {g a b} : NextCanon (execSlexp g a b s) :=
  scalarWord_canon h fun _ => landWord_canon h fun _ _ => by
    split
    · exact h
    · exact State.Canon.ite h (scratchWrite_canon h)

theorem slwtBody_canon (h : s.Canon) {a b} : (slwtBody a b e s).Canon := landWord_canon h fun _ _ => by
  split
  · exact h
  · split <;> exact h

theorem execSlwt_canon (h : s.Canon) {g a b} : NextCanon (execSlwt g a b s) := scalarWord_canon h fun _ => slwtBody_canon h

theorem execSlgen_canon (h : s.Canon) {g d a} : NextCanon (execSlgen g d a s) :=
  scalarWord_canon h fun _ => landWord_canon h fun _ _ => modStrand_canon h

theorem execSlwtReturn_canon (h : s.Canon) {sid} : NextCanon (execSlwtReturn sid s) :=
  (resumeWord_canon h fun e w len body hf => by
    split at hf <;> cases hf
    exact slwtBody_canon h).next

theorem execSmon_canon (h : s.Canon) {g a} : NextCanon (execSmon g a s) := scalarWord_canon h fun _ => by
  split
  · exact scalarAccess_canon h ‹_›
  · exact modStrand_canon h

theorem wake_canon (h : s.Canon) {d r} : (wake s e d r).Canon := modStrand_canon h

theorem execSmwait_canon (h : s.Canon) {g d a} : NextCanon (execSmwait g d a s) := scalarWord_canon h fun _ => by
  split
  · exact wake_canon h
  · split
    · exact wake_canon h
    · split
      · exact wake_canon h
      · exact h

theorem execSmdis_canon (h : s.Canon) {g} : NextCanon (execSmdis g s) := scalarWord_canon h fun _ => modStrand_canon h

theorem execSmwaitWake_canon (h : s.Canon) {sid} : NextCanon (execSmwaitWake sid s) :=
  (resumeWord_canon h fun e w len body hf => by
    split at hf <;> cases hf
    exact wake_canon h).next

theorem execSmwaitTimeout_canon (h : s.Canon) {sid} : NextCanon (execSmwaitTimeout sid s) :=
  (resumeWord_canon h fun e w len body hf => by
    split at hf
    · split at hf <;> cases hf
      exact wake_canon h
    · cases hf).next

theorem stlwaitBody_canon (h : s.Canon) {k b} : (stlwaitBody k b e s).Canon := by
  unfold stlwaitBody
  split
  · exact h
  · split <;> exact h

theorem stlthrBody_canon (h : s.Canon) {k b} : (stlthrBody k b e s).Canon := by
  unfold stlthrBody
  split
  · exact h
  · split <;> exact h

theorem execStlwait_canon (h : s.Canon) {g k b} : NextCanon (execStlwait g k b s) := scalarWord_canon h fun _ => stlwaitBody_canon h

theorem execStlthr_canon (h : s.Canon) {g k b} : NextCanon (execStlthr g k b s) := scalarWord_canon h fun _ => stlthrBody_canon h

theorem execStlrd_canon (h : s.Canon) {g d k} : NextCanon (execStlrd g d k s) := scalarWord_canon h fun _ => by
  split
  · exact h
  · exact modStrand_canon h

theorem execStlwaitReturn_canon (h : s.Canon) {sid} : NextCanon (execStlwaitReturn sid s) :=
  (resumeWord_canon h fun e w len body hf => by
    split at hf <;> cases hf
    exact stlwaitBody_canon h).next

theorem execStlthrReturn_canon (h : s.Canon) {sid} : NextCanon (execStlthrReturn sid s) :=
  (resumeWord_canon h fun e w len body hf => by
    split at hf <;> cases hf
    exact stlthrBody_canon h).next

theorem execStrandPromotion_canon (h : s.Canon) {sid} : NextCanon (execStrandPromotion sid s) := by
  unfold execStrandPromotion
  refine State.Canon.next ?_
  split
  · exact modStrand_canon h
  · exact h

end
end Sys2Proof.Machine
end

section
/-! Scalar arithmetic, the copy engine and the matrix array keep the canonical form (07 R182 to R187; 09 R242 to R259). -/

namespace Sys2Proof.Machine
open Sys2Proof

section
variable {s : State} {e : Env}

/-! ## Arithmetic words (07 R182 to R187) -/

theorem aluWord_canon (h : s.Canon) {g d a b f} : NextCanon (aluWord g d a b f s) := scalarWord_canon h fun _ => setsReg_canon h

theorem unaryWord_canon (h : s.Canon) {g d a f} : NextCanon (unaryWord g d a f s) := scalarWord_canon h fun _ => setsReg_canon h

theorem literalWord_canon (h : s.Canon) {g d f} : NextCanon (literalWord g d f s) := scalarWord_canon h fun _ => setsReg_canon h

theorem predWord_canon (h : s.Canon) {g d f} : NextCanon (predWord g d f s) := scalarWord_canon h fun _ => modStrand_canon h

theorem execSsel_canon (h : s.Canon) {g d a b} : NextCanon (execSsel g d a b s) := scalarWord_canon h fun _ => setsReg_canon h

/-! ## The memory side of a copy -/

section
variable {core : CoreId} {k : CopyCmd}

theorem copyRead_canon (h : s.Canon) {va n} : (copyRead s core k va n).1.Canon := by
  unfold copyRead
  split
  · exact h
  · split
    · exact h
    · exact readDie_canon h

theorem scaleOf_canon (h : s.Canon) {f half} : (scaleOf s core k f half).1.Canon := by
  unfold scaleOf
  extract_lets x a
  split
  · exact (copyRead_canon h).fst ‹_›
  · have ht := (copyRead_canon h).fst ‹_›
    split <;> exact (copyRead_canon ht).fst ‹_›

theorem elemBits_canon (h : s.Canon) {half} : (elemBits s core k half).1.Canon := by
  unfold elemBits
  split
  · exact h
  · split <;> exact (copyRead_canon h).fst ‹_›

theorem loadElem_canon (h : s.Canon) {list x} : (loadElem s core k list x).1.Canon := by
  unfold loadElem
  extract_lets g half
  split
  · exact h
  · split
    · exact (elemBits_canon h).fst ‹_›
    · have ht := (elemBits_canon h).fst ‹_›
      split
      · exact ht
      · split
        · split <;> exact (scaleOf_canon ht).fst ‹_›
        · exact ht

theorem storeBits_canon (h : s.Canon) {f half v} : (storeBits s core k f half v).1.Canon := by
  unfold storeBits
  split
  · exact h
  · split
    · split <;> exact (scaleOf_canon h).fst ‹_›
    · exact h

theorem loadAll_canon (h : s.Canon) {list l} : (loadAll core k list l s).1.Canon := by
  induction l generalizing s with
  | nil => exact h
  | cons x t ih =>
    unfold loadAll
    split
    · exact (loadElem_canon h).fst ‹_›
    · have ht := ih ((loadElem_canon h).fst ‹_›)
      split <;> exact ht.fst ‹_›

/-! ## The near side -/

theorem setHalves_wf {m : Mem} (hm : m.wf = true) {half n v} : (setHalves m half n v).wf = true := by
  unfold setHalves
  split
  · exact Mem.wf_set _ _ hm
  · exact Mem.wf_writeNat _ _ _ hm

theorem loadRead_canon (h : s.Canon) {g} : (loadRead s core k g).1.Canon := by
  unfold loadRead
  split
  · exact h
  · exact loadAll_canon h

theorem loadWrite_canon (h : s.Canon) {g : Workgroup} (hg : g.Canon) {vs} : (loadWrite s k g vs).1.Canon := by
  unfold loadWrite
  split
  · exact h
  · extract_lets es place put m words u
    have hm : m.wf = true := foldl_keeps (fun m : Mem => m.wf = true) _ (fun _ _ hm => setHalves_wf hm) _ _ hg.1
    exact (h.modWg fun _ hx => ⟨hm, hx.2⟩ : u.Canon)

theorem bRowBytes_canon (h : s.Canon) {es} : (bRowBytes s core k es).1.Canon := by
  unfold bRowBytes
  split
  · exact (loadAll_canon h).fst ‹_›
  · rename_i u vs hu
    have ht : u.Canon := (loadAll_canon h).fst hu
    extract_lets p nq inside step
    have hs : ((List.range nq).foldl step (u, .ok [])).1.Canon := by
      refine foldl_keeps (fun a : State × Except CopyStop (List (Nat × W32)) => a.1.Canon) _ (fun a j ha => ?_) _ _ ht
      simp only [step]
      split
      · exact ha
      · split
        · exact ha
        · split
          · exact ha
          · split <;> exact (scaleOf_canon ha).fst ‹_›
    split <;> exact hs.fst ‹_›

theorem bRowRead_canon (h : s.Canon) : (bRowRead s core k).1.Canon := by
  unfold bRowRead
  extract_lets rows r
  have hr : r.1.Canon := by
    refine foldl_keeps (fun a : State × Except CopyStop (List Byte) => a.1.Canon) _ (fun a j ha => ?_) _ _ h
    split
    · exact ha
    · split <;> exact (bRowBytes_canon ha).fst ‹_›
  clear_value r
  split <;> exact hr

theorem chunkRead_canon (h : s.Canon) {g} : (chunkRead s core k g).1.Canon := by
  unfold chunkRead
  split
  · exact bRowRead_canon h
  · exact loadRead_canon h

theorem nextRead_canon (h : s.Canon) {g} : (nextRead s core k g).1.Canon := by
  unfold nextRead
  split
  · exact h
  · exact chunkRead_canon h

theorem loadChunk_canon (h : s.Canon) {g : Workgroup} (hg : g.Canon) : (loadChunk s core k g).1.Canon := by
  unfold loadChunk
  split
  · exact (nextRead_canon h).fst ‹_›
  · have ht := (nextRead_canon h).fst ‹_›
    split
    · exact ht
    · exact loadWrite_canon ht hg

theorem rowScaleChunk_canon (h : s.Canon) {g} : (rowScaleChunk s k g).1.Canon := by
  unfold rowScaleChunk
  extract_lets rows bad bs
  split <;> exact h

theorem storePlan_canon (h : s.Canon) {g l} : (storePlan core k g l s).1.Canon := by
  induction l generalizing s with
  | nil => exact h
  | cons x t ih =>
    unfold storePlan
    extract_lets ix half o
    split
    · exact ih h
    · split
      · exact h
      · split
        · exact h
        · split
          · exact (storeBits_canon h).fst ‹_›
          · have ht := ih ((storeBits_canon h).fst ‹_›)
            split <;> exact ht.fst ‹_›

theorem joinStore_canon {acc : State × List (Nat × List Byte)} (h : acc.1.Canon) {p} : (joinStore core k acc p).1.Canon := by
  unfold joinStore
  extract_lets half
  split
  · exact h
  · split
    · exact h
    · split
      · exact readDie_canon h
      · exact homeLine_canon h

theorem fillMessage_canon {acc : State × List Nat} (h : acc.1.Canon) {p} : (fillMessage k acc p).1.Canon := by
  unfold fillMessage
  split
  · exact h
  · extract_lets parts size u
    split
    · exact noteSent_canon (h.upd (by rfl) (by rfl))
    · exact newMessage_canon (modStrand_canon h)

theorem storeRuns_canon (h : s.Canon) {runs} : (storeRuns s core k runs).1.Canon := by
  unfold storeRuns
  extract_lets near u
  have hu : u.Canon := covered_canon (h.foldl fun _ _ hs => performAt_canon hs)
  exact foldl_keeps (fun a : State × List Nat => a.1.Canon) _ (fun _ _ ha => fillMessage_canon ha) _ _ hu

theorem nextStores_canon (h : s.Canon) {g} : (nextStores s core k g).1.Canon := by
  unfold nextStores
  split
  · exact h
  · exact storePlan_canon h

theorem storeChunk_canon (h : s.Canon) {g} : (storeChunk s core k g).1.Canon := by
  unfold storeChunk
  split
  · exact (nextStores_canon h).fst ‹_›
  · rename_i u l hu
    have ht : u.Canon := (nextStores_canon h).fst hu
    extract_lets r t
    have hr : r.1.Canon := foldl_keeps (fun a : State × List (Nat × List Byte) => a.1.Canon) _ (fun _ _ ha => joinStore_canon ha) _ _ ht
    exact (storeRuns_canon hr : t.1.Canon)

/-! ## A chunk -/

theorem chunkEffect_canon (h : s.Canon) {g : Workgroup} (hg : g.Canon) : (chunkEffect s core k g).1.Canon := by
  have hturn : (if k.rowScale then rowScaleChunk s k g else if k.store then storeChunk s core k g else loadChunk s core k g).1.Canon :=
    .iteFst (rowScaleChunk_canon h) (.iteFst (storeChunk_canon h) (loadChunk_canon h hg))
  unfold chunkEffect
  split
  · exact h
  · exact .iteFst h (.iteFst h (.iteFst h hturn))

theorem landArrival_canon (h : s.Canon) {wg off n} : (landArrival s wg off n).1.Canon := by
  unfold landArrival
  split
  · split
    · exact h
    · exact scratchWrite_canon h
  · exact h

theorem handOver_canon (h : s.Canon) {q w m} : (handOver s core q k w m).Canon := by
  unfold handOver
  extract_lets id c u
  have hu : u.Canon := State.Canon.modWg (s := { s with nextId := id + 1 }) (h.upd (by rfl) (by rfl)) fun _ hg => hg
  exact modCopyCmd_canon hu

theorem dropCopy_canon (h : s.Canon) {q num} : (dropCopy s core q num).Canon := setCopyQ_canon h

theorem runChunk_canon (h : s.Canon) {g : Workgroup} (hg : g.Canon) {q} : (runChunk s core q k g).Canon := by
  unfold runChunk
  split
  · exact ask_canon ((chunkEffect_canon h hg).fst ‹_›)
  · exact (chunkEffect_canon h hg).fst ‹_›
  · exact raise_canon ((chunkEffect_canon h hg).fst ‹_›)
  · have ht := (chunkEffect_canon h hg).fst ‹_›
    extract_lets fifo s1 s2 a s3
    have h1 : s1.Canon := modCopyCmd_canon ht
    have h2 : s2.Canon := State.Canon.ite (h1.modWg fun _ hx => hx) h1
    have ha : a.1.Canon := landArrival_canon h2
    have h3 : s3.Canon := modCopyCmd_canon ha
    split
    · exact ht
    · split
      · exact raise_canon ha
      · split
        · exact h3
        · split
          · exact handOver_canon h3
          · exact dropCopy_canon (closeMessages_canon h3)

theorem readEarly_canon (h : s.Canon) {g} : (readEarly s core k g).1.Canon := by
  unfold readEarly
  split
  · exact h
  · split
    · split <;> exact (storePlan_canon h).fst ‹_›
    · split <;> exact (chunkRead_canon h).fst ‹_›

theorem readAhead_canon (h : s.Canon) {q} : (readAhead s core q).Canon := by
  unfold readAhead
  split
  · exact h
  · extract_lets n
    split
    · exact h
    · split
      · exact h
      · split
        · exact h
        · extract_lets keep
          split
          · exact modCopyCmd_canon ((readEarly_canon h).fst ‹_›)
          · exact modCopyCmd_canon ((readEarly_canon h).fst ‹_›)
          · exact ask_canon ((readEarly_canon h).fst ‹_›)
          · exact h

theorem execCopyChunk_canon (h : s.Canon) {q} : NextCanon (execCopyChunk core q s) := by
  refine State.Canon.next ?_
  extract_lets x
  split
  · exact h
  · split
    · exact h
    · rename_i g hg
      exact State.Canon.ite h (readAhead_canon (runChunk_canon h (h.wg hg)))

end

/-! ## Issue -/

theorem acceptCopy_canon (h : s.Canon) {k} : (acceptCopy s e k).Canon := by
  unfold acceptCopy
  extract_lets s1 n q s2 s3
  have h2 : s2.Canon := setCopyQ_canon (drain_canon h)
  have h3 : s3.Canon := h2.modWg fun _ hg => hg
  exact readAhead_canon h3

theorem cpyBody_canon (h : s.Canon) {i a b c t fifo follow word} : (cpyBody i a b c t fifo follow word e s).Canon := by
  unfold cpyBody
  split
  · exact h
  · extract_lets q
    split
    · exact h
    · exact acceptCopy_canon h

theorem execCpy_canon (h : s.Canon) {g a b c t fifo} : NextCanon (execCpy g a b c t fifo s) := scalarWord_canon h fun _ => cpyBody_canon h

theorem execCpyThen_canon (h : s.Canon) {g a b c t fifo follow} : NextCanon (execCpyThen g a b c t fifo follow s) :=
  scalarWord_canon h fun _ => cpyBody_canon h

theorem execCpyset_canon (h : s.Canon) {g a} : NextCanon (execCpyset g a s) := scalarWord_canon h fun _ => modStrand_canon h

/-! ## The matrix array -/

theorem acceptMat_canon (h : s.Canon) {word k} : (acceptMat s e word k).Canon := by
  unfold acceptMat
  extract_lets id isPair c u
  have hu : u.Canon := State.Canon.modWg (s := { s with nextId := id + 1 }) (h.upd (by rfl) (by rfl)) fun _ hg => hg
  exact State.Canon.ite (modStrand_canon hu) hu

theorem matIssue_canon (h : s.Canon) {i word k} : (matIssue i word k e s).Canon := by
  unfold matIssue
  split
  · exact h
  · split
    · exact h
    · exact acceptMat_canon h

theorem mmaBody_canon (h : s.Canon) {i m} : (mmaBody i m e s).Canon := by
  unfold mmaBody
  split
  · exact h
  · exact matIssue_canon h

theorem execMma_canon (h : s.Canon) {g m} : NextCanon (execMma g m s) := scalarWord_canon h fun _ => mmaBody_canon h

theorem mmapBody_canon (h : s.Canon) {i m} : (mmapBody i m e s).Canon := by
  unfold mmapBody
  split
  · exact h
  · split
    · exact h
    · exact matIssue_canon h

theorem execMmap_canon (h : s.Canon) {g m} : NextCanon (execMmap g m s) := scalarWord_canon h fun _ => mmapBody_canon h

theorem execMzero_canon (h : s.Canon) {g t} : NextCanon (execMzero g t s) := scalarWord_canon h fun _ => matIssue_canon h

theorem execMguide_canon (h : s.Canon) {g d a b w} : NextCanon (execMguide g d a b w s) := scalarWord_canon h fun _ => matIssue_canon h

section
variable {wg : Nat} {g : Workgroup} {c : MatCmd}

theorem dropMat_canon (h : s.Canon) {id} : (dropMat s wg id).Canon := h.modWg fun _ hg => hg

theorem failPair_canon (h : s.Canon) {d} : (failPair s wg g c d).Canon := raise_canon (modMatCmd_canon h)

theorem setPair_canon (h : s.Canon) {id p} : (setPair s wg id p).Canon := modMatCmd_canon h

theorem decidePair_canon (h : s.Canon) {m} : (decidePair s wg g c m).Canon := by
  unfold decidePair
  split
  · split
    · split
      · exact h
      · split
        · exact setPair_canon (setPair_canon h)
        · exact failPair_canon h
    · exact h
  · exact State.Canon.ite (setPair_canon h) h

theorem execMmapDecision_canon (h : s.Canon) {core id} : NextCanon (execMmapDecision core id s) := by
  refine State.Canon.next ?_
  split
  · split
    · exact State.Canon.ite (decidePair_canon h) h
    · exact h
  · exact h

theorem matFault_canon (h : s.Canon) {f} : (matFault s wg g c f).Canon := by
  unfold matFault
  extract_lets s1 s2
  have h2 : s2.Canon := by
    unfold s2
    split
    · exact modMatCmd_canon (modMatCmd_canon h)
    · exact modMatCmd_canon h
  exact raise_canon h2

theorem execMatrixWordStart_canon (h : s.Canon) {core id} : NextCanon (execMatrixWordStart core id s) := by
  refine State.Canon.next ?_
  split
  · split
    · exact h
    · split
      · exact matFault_canon h
      · exact h.foldl fun _ _ hs => modMatCmd_canon hs
  · exact h

theorem popRow_canon (h : s.Canon) {a n bytes} : (popRow s wg g c a n bytes).Canon := by
  unfold popRow
  extract_lets code f row f' u
  have hu : u.Canon := h.modWg fun _ hg => hg
  split
  · exact matFault_canon h
  · split
    · exact h
    · split
      · exact matFault_canon h
      · exact modMatCmd_canon hu

theorem popNext_canon (h : s.Canon) {m} : (popNext s wg g c m).Canon := by
  unfold popNext
  extract_lets has
  exact State.Canon.ite (popRow_canon h) (State.Canon.ite (popRow_canon h) h)

theorem execMatrixRowPop_canon (h : s.Canon) {core id} : NextCanon (execMatrixRowPop core id s) := by
  refine State.Canon.next ?_
  split
  · split
    · exact State.Canon.ite (popNext_canon h) h
    · exact h
  · exact h

theorem putTiles_canon (h : s.Canon) {l} : (putTiles s wg l).Canon :=
  h.modWg fun _ hg => ⟨hg.1, foldl_keeps (fun m : Mem => m.wf = true) _ (fun _ _ hm => Mem.wf_writeNat _ _ _ hm) _ _ hg.2⟩

theorem finishMat_canon (h : s.Canon) : (finishMat s wg c).Canon := by
  unfold finishMat
  extract_lets u
  have hu : u.Canon := dropMat_canon h
  split
  · exact dropCopy_canon hu
  · exact hu

theorem completeMma_canon (h : s.Canon) {m} : (completeMma s wg g c m).Canon := by
  unfold completeMma
  extract_lets w
  split
  · split
    · split
      · exact finishMat_canon (finishMat_canon (putTiles_canon h))
      · exact h
    · exact h
  · exact finishMat_canon (putTiles_canon h)

theorem execMatrixWordComplete_canon (h : s.Canon) {core id} : NextCanon (execMatrixWordComplete core id s) := by
  refine State.Canon.next ?_
  split
  · split
    · exact h
    · split
      · exact State.Canon.ite (completeMma_canon h) h
      · exact State.Canon.ite (completeMma_canon h) h
      · exact finishMat_canon (putTiles_canon h)
      · exact finishMat_canon (putTiles_canon h)
  · exact h

theorem endWords_canon (h : s.Canon) {l} : (endWords s wg l).Canon := h.foldl fun _ _ hs => finishMat_canon hs

theorem cancelInst_canon (h : s.Canon) {i} : (cancelInst s i).Canon :=
  (stopUnder_canon h).foldl fun _ _ hs => State.Canon.ite (endWords_canon hs) hs

theorem execMatrixWordEnded_canon (h : s.Canon) {core id} : NextCanon (execMatrixWordEnded core id s) := by
  refine State.Canon.next ?_
  split
  · exact State.Canon.ite (endWords_canon h) h
  · exact h

end
end
end Sys2Proof.Machine
end

section
/-! Vector memory words keep the canonical form: loads and stores, the decoding load, the sampler, atomics and reductions
(08 R214, R229 to R234). -/

namespace Sys2Proof.Machine
open Sys2Proof

section
variable {s : State} {c : VCtx}

/-! ## Lanes of an access -/

theorem runLane_canon {α : Type} {f : Lane → State → State × Except LaneStop α} (hf : ∀ l u, u.Canon → (f l u).1.Canon) {r : LaneRun α}
    (hr : r.s.Canon) (l : Lane) : (runLane f r l).s.Canon := by
  unfold runLane
  split
  · exact (hf l r.s hr).fst ‹_›
  all_goals exact hr

/-- A word's lanes, each of which keeps the canonical form. -/
theorem eachLane_canon {α : Type} (h : s.Canon) {ls kind} {f : Lane → State → State × Except LaneStop α}
    (hf : ∀ l u, u.Canon → (f l u).1.Canon) : BothCanon VEff.Canon (fun p => p.1.Canon) (c.eachLane s ls kind f) := by
  unfold VCtx.eachLane
  extract_lets r
  have hr : r.s.Canon := foldl_keeps (fun r : LaneRun α => r.s.Canon) _ (fun _ l hr => runLane_canon hf hr l) _ _ h
  split
  · exact h.foldl fun _ _ hs => ask_canon hs
  · split
    · exact h
    · split
      · exact drain_canon h
      · exact hr

/-! ## Global memory -/

theorem fetchAt_canon (h : s.Canon) {va pa n fresh} : (c.fetchAt s va pa n fresh).1.Canon := by
  unfold VCtx.fetchAt
  split
  · exact h
  · exact h
  · split <;> exact (globalLoad_canon h).fst ‹_›

theorem readG_canon (h : s.Canon) {va n fresh} : (c.readG s va n fresh).1.Canon := by
  unfold VCtx.readG
  split
  · exact h
  · exact fetchAt_canon h

theorem post_canon (h : s.Canon) {regs checks} : (c.post s regs checks).Canon := by
  unfold VCtx.post
  extract_lets regs r u
  have hu : u.Canon := modStrand_canon (s := { s with nextId := s.nextId + 1 }) (h.upd (by rfl) (by rfl))
  exact State.Canon.ite h (modSplit_canon hu)

theorem deliverLoad_canon (h : s.Canon) {t vs checks} : (c.deliverLoad s t vs checks).Canon := post_canon h

theorem loadG_canon (h : s.Canon) {fresh} : (c.loadG s fresh).Canon := by
  have hl := eachLane_canon (c := c) h (ls := c.activeLanes) (kind := .read)
    (f := fun l u => c.readG u (c.ea s l) c.w.ty.bytes fresh) fun _ _ hu => readG_canon hu
  unfold VCtx.loadG
  split
  · exact hl.error ‹_›
  · exact deliverLoad_canon (hl.ok ‹_›)

theorem vrelease_canon (h : s.Canon) {sid sc} : (VCtx.vrelease s sid sc).1.Canon := by
  unfold VCtx.vrelease
  split
  · exact h
  · exact h
  · exact State.Canon.pair (release_canon h) _

theorem storeG_canon (h : s.Canon) {sc} : (c.storeG s sc).Canon := by
  unfold VCtx.storeG
  split
  · exact (eachLane_canon h fun _ _ hu => hu).error ‹_›
  · rename_i u ps hu
    have ht : u.Canon := (eachLane_canon h fun _ _ hu => hu).ok hu
    extract_lets r full ls z x v w chain w'
    have hr : r.1.Canon := vrelease_canon ht
    have hw : w'.Canon := modSplit_canon (enterStore_canon (s := { r.1 with nextId := r.1.nextId + 1 }) (hr.upd (by rfl) (by rfl)))
    split
    · exact hr
    · split
      · exact hr
      · exact hw

/-! ## Scratchpad -/

theorem loadS_canon (h : s.Canon) : (c.loadS s).Canon := by
  unfold VCtx.loadS
  split
  · exact (eachLane_canon h fun _ _ hu => hu).error ‹_›
  · exact deliverLoad_canon ((eachLane_canon h fun _ _ hu => hu).ok ‹_›)

theorem storeS_canon (h : s.Canon) : (c.storeS s).Canon := by
  unfold VCtx.storeS
  split
  · exact (eachLane_canon h fun _ _ hu => hu).error ‹_›
  · rename_i u ps hu
    have ht : u.Canon := (eachLane_canon h fun _ _ hu => hu).ok hu
    exact ht.foldl fun _ _ hs => scratchWrite_canon hs

theorem execVld_canon (h : s.Canon) {w} : NextCanon (execVld w s) := vectorWord_canon h fun _ => loadG_canon h
theorem execVst_canon (h : s.Canon) {w} : NextCanon (execVst w s) := vectorWord_canon h fun _ => storeG_canon h
theorem execVlds_canon (h : s.Canon) {w} : NextCanon (execVlds w s) := vectorWord_canon h fun _ => loadS_canon h
theorem execVsts_canon (h : s.Canon) {w} : NextCanon (execVsts w s) := vectorWord_canon h fun _ => storeS_canon h
theorem execVlda_canon (h : s.Canon) {w} : NextCanon (execVlda w s) := vectorWord_canon h fun _ => loadG_canon h
theorem execVstl_canon (h : s.Canon) {w} : NextCanon (execVstl w s) := vectorWord_canon h fun _ => storeG_canon h

/-! ## The decoding load and the sampler -/

theorem readScale_canon (h : s.Canon) {f elem fresh} : (c.readScale s f elem fresh).1.Canon := by
  unfold VCtx.readScale
  extract_lets a
  split
  · exact (readG_canon h).fst ‹_›
  · have ht := (readG_canon h).fst ‹_›
    split <;> exact (readG_canon ht).fst ‹_›

theorem decodeLane_canon (h : s.Canon) {va y fresh} : (c.decodeLane va y fresh s).1.Canon := by
  unfold VCtx.decodeLane
  split
  · exact h
  · split
    · exact h
    · extract_lets n toT e
      split
      · exact h
      · split
        · exact (fetchAt_canon h).fst ‹_›
        · have ht := (fetchAt_canon h).fst ‹_›
          split
          · exact ht
          · split
            · split <;> exact (readScale_canon ht).fst ‹_›
            · split <;> exact ht

theorem execVldf_canon (h : s.Canon) {w} : NextCanon (execVldf w s) := vectorWord_canon h fun c => by
  have hl := eachLane_canon (c := c) h (ls := c.activeLanes) (kind := .read)
    (f := fun l u => c.decodeLane (c.ea s l) (c.rdB s l) (c.w.mbit 10) u) fun _ _ hu => decodeLane_canon hu
  split
  · exact hl.error ‹_›
  · exact deliverLoad_canon (hl.ok ‹_›)

theorem texelAt_canon (h : s.Canon) {hdr i j fresh} : (c.texelAt hdr i j fresh s).1.Canon := by
  unfold VCtx.texelAt
  split
  · exact h
  · extract_lets va
    split
    · exact h
    · extract_lets n
      split
      · exact h
      · split
        · exact h
        · split
          · exact (fetchAt_canon h).fst ‹_›
          · have ht := (fetchAt_canon h).fst ‹_›
            split <;> exact ht

theorem texel_canon (h : s.Canon) {hdr x y fresh} : (c.texel hdr x y fresh s).1.Canon := by
  unfold VCtx.texel
  split
  · exact texelAt_canon h
  · exact h

theorem texels_canon (h : s.Canon) {hdr fresh l} : (c.texels hdr fresh l s).1.Canon := by
  induction l generalizing s with
  | nil => exact h
  | cons p t ih =>
    unfold VCtx.texels
    split
    · exact (texel_canon h).fst ‹_›
    · have ht := ih ((texel_canon h).fst ‹_›)
      split <;> exact ht.fst ‹_›

theorem sampleLane_canon (h : s.Canon) {va x y fresh} : (c.sampleLane va x y fresh s).1.Canon := by
  unfold VCtx.sampleLane
  split
  · exact (readG_canon h).fst ‹_›
  · have ht := (readG_canon h).fst ‹_›
    split
    · exact ht
    · split
      · exact ht
      · exact ht
      · extract_lets fx fy half x' y' i j frac
        split
        · split <;> exact (texel_canon ht).fst ‹_›
        · split <;> exact (texels_canon ht).fst ‹_›

theorem execVsample_canon (h : s.Canon) {w} : NextCanon (execVsample w s) := vectorWord_canon h fun c => by
  have hl := eachLane_canon (c := c) h (ls := c.activeLanes) (kind := .read)
    (f := fun l u => c.sampleLane (c.ea s l) (c.rdB s l) (c.rdC s l) (c.w.mbit 10) u) fun _ _ hu => sampleLane_canon hu
  split
  · exact hl.error ‹_›
  · exact post_canon (hl.ok ‹_›)

/-! ## Atomics and reductions -/

theorem placesRmw_canon (h : s.Canon) {n checks} : BothCanon VEff.Canon (fun p => p.1.Canon) (c.placesRmw s n checks) :=
  eachLane_canon h fun _ _ hu => hu

theorem atomLane_canon {s0 : State} {acc : State × List (Lane × Nat)} (h : acc.1.Canon) {p} : (c.atomLane s0 acc p).1.Canon := by
  unfold VCtx.atomLane
  extract_lets n op x cmp r r'
  have hr : r.1.Canon := remoteAtom_canon h
  have hr' : r'.1.Canon := homeRmw_canon h
  exact .iteFst h (.iteFst (hr.pair _) (hr'.pair _))

theorem settle_canon (h : s.Canon) {sid sc} : (VCtx.settle s sid sc).1.Canon :=
  State.Canon.pair (drain_canon (vrelease_canon h)) _

theorem execVatom_canon (h : s.Canon) {w} : NextCanon (execVatom w s) := vectorWord_canon h fun c => by
  split
  · exact (placesRmw_canon h).error ‹_›
  · rename_i u ps hu
    have ht : u.Canon := (placesRmw_canon h).ok hu
    extract_lets r a
    have hr : r.1.Canon := settle_canon ht
    have ha : a.1.Canon := foldl_keeps (fun a : State × List (Lane × Nat) => a.1.Canon) _ (fun _ _ ha => atomLane_canon ha) _ _ hr
    split
    · exact hr
    · exact deliverLoad_canon ha

theorem acceptRed_canon (h : s.Canon) {d w pa op t x} : (acceptRed s d w pa op t x).Canon := by
  unfold acceptRed
  extract_lets line other u o upd mine m m'
  have hu : u.Canon := by
    unfold u
    clear_value other
    split
    · exact onLine_canon h fun _ hm => MemSys.wf_combineCopy hm _ _
    · exact h
  have hm : m'.wf = true := by
    unfold m'
    split <;> exact MemSys.wf_of_views hu.mem rfl rfl
  exact hu.setMem (MemSys.wf_perform hm ..) rfl

theorem execVred_canon (h : s.Canon) {w} : NextCanon (execVred w s) := vectorWord_canon h fun c => by
  split
  · exact (placesRmw_canon h).error ‹_›
  · rename_i u ps hu
    have ht : u.Canon := (placesRmw_canon h).ok hu
    extract_lets r go
    have hr : r.1.Canon := settle_canon ht
    split
    · exact hr
    · exact hr.foldl fun _ _ hs =>
        State.Canon.ite hs (State.Canon.ite (remoteAtom_canon hs) (l1Drop_canon (acceptRed_canon hs)))

end
end Sys2Proof.Machine
end

section
/-! Accumulator words, launches, queues and jobs, and picots keep the canonical form (08 R235, R236; 07 R205 to
R207; 09 R267 to R269; 17 R320 to R322). -/

namespace Sys2Proof.Machine
open Sys2Proof

section
variable {s : State} {c : VCtx} {e : Env}

/-! ## Accumulator rows -/

theorem accRows_canon (h : s.Canon) {reads ls kind} : BothCanon VEff.Canon (fun p => p.1.Canon) (c.accRows s reads ls kind) :=
  eachLane_canon h fun _ _ hu => hu

theorem execVaccrd_canon (h : s.Canon) {w} : NextCanon (execVaccrd w s) := vectorWordIf_canon h fun _ => by
  split
  · exact (accRows_canon h).error ‹_›
  · exact deliverLoad_canon ((accRows_canon h).ok ‹_›)

theorem execVaccwr_canon (h : s.Canon) {w} : NextCanon (execVaccwr w s) := vectorWordIf_canon h fun _ => by
  split
  · exact (accRows_canon h).error ‹_›
  · exact putTiles_canon ((accRows_canon h).ok ‹_›)

theorem execVaccscl_canon (h : s.Canon) {w} : NextCanon (execVaccscl w s) := vectorWordIf_canon h fun _ => by
  split
  · exact (accRows_canon h).error ‹_›
  · exact putTiles_canon ((accRows_canon h).ok ‹_›)

/-! ## Launches, queues and jobs -/

theorem openJob_canon (h : s.Canon) {world} : (openJob s world).1.Canon := by
  unfold openJob
  split
  · exact h
  · exact h.upd rfl rfl

theorem addInst_canon (h : s.Canon) {i parent ctx frame} : (addInst s i parent ctx frame).Canon := h.upd rfl rfl

theorem acceptLaunch_canon (h : s.Canon) {world num q descAddr d depth parent issuer reserved} :
    (acceptLaunch s world num q descAddr d depth parent issuer reserved).1.Canon := by
  unfold acceptLaunch
  split
  exact ((openJob_canon h).fst ‹_›).upd (by rfl) (by rfl)

/-- The state after a submission that was accepted. -/
def Submitted.Canon : Submitted → Prop
  | .accepted s _ => s.Canon
  | _ => True

theorem submit_canon (h : s.Canon) {world ctx descAddr bs mayW parent issuer} :
    (submit s world ctx descAddr bs mayW parent issuer).Canon := by
  unfold submit
  split
  · trivial
  · split
    · trivial
    · split
      · trivial
      · extract_lets depth
        split
        · trivial
        · split
          · trivial
          · split
            · trivial
            · exact acceptLaunch_canon h

theorem submit_accepted_canon (h : s.Canon) {world ctx descAddr bs mayW parent issuer t n}
    (ht : submit s world ctx descAddr bs mayW parent issuer = .accepted t n) : t.Canon := by
  have hs := submit_canon h (world := world) (ctx := ctx) (descAddr := descAddr) (bs := bs) (mayW := mayW) (parent := parent) (issuer := issuer)
  rw [ht] at hs
  exact hs

theorem slaunchBody_canon (h : s.Canon) {d a nb} : (slaunchBody d a nb e s).Canon := by
  unfold slaunchBody
  extract_lets va r put
  have hr : r.1.Canon := release_canon h
  split
  · exact h
  · split
    · exact h
    · split
      · exact hr
      · split
        · exact (strandBytes_canon hr).error ‹_›
        · have ht := (strandBytes_canon hr).ok ‹_›
          split
          · exact modStrand_canon ht
          · exact modStrand_canon ht
          · split
            · exact modStrand_canon ht
            · exact ht
          · exact modStrand_canon (submit_accepted_canon ht ‹_›)

theorem execSlaunch_canon (h : s.Canon) {g d a nb} : NextCanon (execSlaunch g d a nb s) := scalarWord_canon h fun _ => slaunchBody_canon h

theorem execSlaunchReturn_canon (h : s.Canon) {sid} : NextCanon (execSlaunchReturn sid s) :=
  (resumeWord_canon h fun e w len body hf => by
    split at hf <;> cases hf
    exact slaunchBody_canon h).next

theorem execScnt_canon (h : s.Canon) {g d v l} : NextCanon (execScnt g d v l s) := scalarWord_canon h fun _ => setsReg_canon h

theorem cancelStatus_canon (h : s.Canon) {i} : (cancelStatus s i).1.Canon := by
  unfold cancelStatus
  split
  · exact h
  · split
    · exact h
    · exact h
    · exact cancelInst_canon h

theorem takeInput_canon {α : Type} (h : s.Canon) {f : Input → Option α} : SomeFstCanon (takeInput s f) := by
  intro t x ht
  unfold takeInput at ht
  split at ht
  · cases ht
  · split at ht
    · cases ht
    · split at ht
      · cases ht
      · obtain ⟨v, -, hv⟩ := Option.map_eq_some_iff.1 ht
        cases hv
        exact h.upd rfl rfl

theorem execLaunchSubmission_canon (h : s.Canon) : NextCanon (execLaunchSubmission s) := by
  unfold execLaunchSubmission
  refine State.Canon.next ?_
  split
  · exact h
  · have ht := takeInput_canon h _ _ ‹_›
    split
    · exact tell_canon ht
    · split
      · exact tell_canon ((readNow_canon ht).fst ‹_›)
      · have hu := (readNow_canon ht).fst ‹_›
        split
        · exact tell_canon (submit_accepted_canon hu ‹_›)
        · exact tell_canon hu

theorem execQueueCreate_canon (h : s.Canon) : NextCanon (execQueueCreate s) := by
  unfold execQueueCreate
  refine State.Canon.next ?_
  split
  · exact h
  · have ht := takeInput_canon h _ _ ‹_›
    exact State.Canon.ite (modWorld_canon ht) ht

theorem execQueueDestroy_canon (h : s.Canon) : NextCanon (execQueueDestroy s) := by
  unfold execQueueDestroy
  refine State.Canon.next ?_
  split
  · exact h
  · exact modWorld_canon (takeInput_canon h _ _ ‹_›)

theorem execJobClose_canon (h : s.Canon) : NextCanon (execJobClose s) := by
  unfold execJobClose
  refine State.Canon.next ?_
  split
  · exact h
  · have ht := takeInput_canon h _ _ ‹_›
    split
    · exact ht
    · exact modWorld_canon (modInst_canon ht)

/-! ## Picots -/

theorem execPicins_canon (h : s.Canon) {g d a b last} : NextCanon (execPicins g d a b last s) := scalarWord_canon h fun e => by
  extract_lets put va hd
  split
  · exact h
  · split
    · split
      · exact modStrand_canon h
      · exact modWorld_canon h
    · split
      · exact h
      · split
        · exact h
        · split
          · exact (strandBytes_canon h).error ‹_›
          · have ht := (strandBytes_canon h).ok ‹_›
            extract_lets ws k
            split
            · exact modStrand_canon ht
            · split
              · exact modStrand_canon ht
              · exact modWorld_canon ht

theorem execPicinsComplete_canon (h : s.Canon) {sid} : NextCanon (execPicinsComplete sid s) :=
  (resumeWord_canon h fun e w len body hf => by
    split at hf <;> cases hf
    exact modStrand_canon h).next

theorem picotPlaces_canon (h : s.Canon) : BothCanon VEff.Canon (fun p => p.1.Canon) (c.picotPlaces s) :=
  eachLane_canon h fun _ _ hu => hu

theorem picotDone_canon (h : s.Canon) {p} : (c.picotDone s p).Canon := by
  unfold VCtx.picotDone
  extract_lets val s1 s2
  have h1 : s1.Canon := State.Canon.ite h (modStrand_canon h)
  exact advance_canon (modStrand_canon h1)

theorem execVpicot_canon (h : s.Canon) {w} : NextCanon (execVpicot w s) := vectorWordIf_canon h fun c => by
  split
  · exact h
  · split
    · exact h
    · split
      · exact h
      · split
        · exact (picotPlaces_canon h).error ‹_›
        · have ht := (picotPlaces_canon h).ok ‹_›
          extract_lets q none' far todo p
          have hq : q.1.Canon := settle_canon ht
          split
          · exact hq
          · exact modStrand_canon hq

theorem invoke_canon (h : s.Canon) {r x} : (invoke s e r x).1.Canon :=
  (l1Drop_canon (performAt_canon (homeLine_canon h))).pair _

theorem picotEnds_canon (h : s.Canon) {p} : (picotEnds s e p).Canon := by
  unfold picotEnds
  split
  · exact picotDone_canon h
  · exact modStrand_canon h

theorem execPicotInvocation_canon (h : s.Canon) {sid} : NextCanon (execPicotInvocation sid s) := by
  unfold execPicotInvocation
  refine State.Canon.next ?_
  split
  · exact h
  · split
    · exact h
    · split
      · exact picotEnds_canon h
      · extract_lets r p'
        have hr : r.1.Canon := invoke_canon h
        split
        · exact picotEnds_canon hr
        · exact modStrand_canon hr

end
end Sys2Proof.Machine
end

section
/-! The graph's records, launches, deliveries and datagrams keep the canonical form (05 R116 to R129, R138 to R149). -/

namespace Sys2Proof.Machine
open Sys2Proof

section
variable {s : State} {ctx node world e f : Nat}

theorem graphStop_canon (h : s.Canon) {x} : (graphStop s ctx world x).Canon := State.Canon.ite h (raise_canon h)

theorem graphReport_canon (h : s.Canon) {f} : OkCanon (graphReport s ctx node world f) := by
  unfold graphReport
  split
  · exact okCanon_error
  · exact (raise_canon h).ok

theorem takeGiven_canon (h : s.Canon) {va} : (takeGiven s ctx node va).Canon := modCtx_canon h

theorem gread_canon (h : s.Canon) {va n} : OkFstCanon (gread s ctx node world va n) := by
  unfold gread
  split
  · exact okFstCanon_error
  · refine foldl_keeps (fun r : Except GStop (State × List Byte) => OkFstCanon r) _ (fun r g hr => ?_) _ _ h.okFst
    split
    · exact okFstCanon_error
    · have hu := hr _ _ rfl
      extract_lets zeros
      split
      · exact (takeGiven_canon hu).okFst
      · split
        · exact ((readNow_canon hu).fst ‹_›).okFst
        · exact okFstCanon_error
        · have hv := (readNow_canon hu).fst ‹_›
          split
          · exact (graphReport_canon hv _ ‹_›).okFst
          · exact okFstCanon_error

theorem gwrite_canon (h : s.Canon) {va bs} : OkCanon (gwrite s ctx node world va bs) := by
  unfold gwrite
  split
  · exact okCanon_error
  · refine foldl_keeps (fun r : Except GStop State => OkCanon r) _ (fun r g hr => ?_) _ _ h.ok
    split
    · exact okCanon_error
    · have hu := hr _ rfl
      split
      · exact (takeGiven_canon hu).ok
      · split
        · exact ((writeNow_canon hu).fst ‹_›).ok
        · exact okCanon_error
        · exact graphReport_canon ((writeNow_canon hu).fst ‹_›)

theorem dropLines_canon (h : s.Canon) {va n} : (dropLines s world va n).Canon := h.foldl fun s g hs => by
  split
  · exact State.Canon.setCaches ((translateNow_canon hs).fst ‹_›) (by rfl) (by rfl) (by rfl)
  · exact (translateNow_canon hs).fst ‹_›

theorem runGraph_canon (h : s.Canon) {x} (hx : OkCanon x) : (runGraph s ctx world x).Canon := by
  cases x with
  | ok t => exact hx _ rfl
  | error g => exact graphStop_canon h

theorem ensurePhase_canon (h : s.Canon) {c p} : (ensurePhase s ctx c p).1.Canon := by
  unfold ensurePhase
  split
  · exact h
  · split
    exact ((openJob_canon h).fst ‹_›).upd (by rfl) (by rfl)

theorem ensureRun_canon (h : s.Canon) {c} : (ensureRun s ctx c f).1.Canon := by
  unfold ensureRun
  split
  · exact h
  · split
    exact ((ensurePhase_canon h).fst ‹_›).upd (by rfl) (by rfl)

theorem refuseLaunch_canon (h : s.Canon) {n addr} : OkCanon (refuseLaunch s ctx n world addr) := by
  unfold refuseLaunch
  split
  · exact h.ok
  · split
    · exact (modCtx_canon h).ok
    · exact graphReport_canon h

theorem graphLaunch_canon (h : s.Canon) {n b} : OkCanon (graphLaunch s ctx n b) := by
  unfold graphLaunch
  split
  · exact h.ok
  · split
    · exact h.ok
    · extract_lets va
      split
      · exact (ensureRun_canon h).ok
      · split
        · exact refuseLaunch_canon h
        · split
          · exact okCanon_error
          · have ht := gread_canon h _ _ ‹_›
            split
            · exact refuseLaunch_canon ht
            · split
              · exact refuseLaunch_canon ht
              · split
                have hu := (ensureRun_canon ht).fst ‹_›
                exact State.Canon.ok (hu.upd (by rfl) (by rfl))

theorem launchRange_canon {n deadline} : ∀ {fuel lo hi} {s : State}, s.Canon → OkCanon (launchRange ctx n e f deadline fuel lo hi s)
  | 0, _, _, _, h => h.ok
  | fuel + 1, lo, hi, s, h => by
    unfold launchRange
    split
    · exact h.ok
    · split
      · exact h.ok
      · extract_lets k cnt b
        split
        · exact okCanon_error
        · exact launchRange_canon (modCtx_canon (graphLaunch_canon h _ ‹_›))

theorem launchReady_canon {n} : ∀ {fuel} {s : State}, s.Canon → OkCanon (launchReady ctx n fuel s)
  | 0, _, h => h.ok
  | fuel + 1, s, h => by
    unfold launchReady
    split
    · exact h.ok
    · split
      · exact h.ok
      · split
        · exact h.ok
        · split
          · exact h.ok
          · split
            · exact h.ok
            · split
              · exact okCanon_error
              · exact launchReady_canon (launchRange_canon h _ ‹_›)

theorem launchHeld_canon {n} : ∀ {fuel} {s : State}, s.Canon → OkCanon (launchHeld ctx n fuel s)
  | 0, _, h => h.ok
  | fuel + 1, s, h => by
    unfold launchHeld
    split
    · exact h.ok
    · split
      · exact h.ok
      · split
        · exact h.ok
        · extract_lets b
          split
          · exact okCanon_error
          · exact launchHeld_canon (modCtx_canon (graphLaunch_canon h _ ‹_›))

theorem launchNode_canon (h : s.Canon) {n} : OkCanon (launchNode s ctx n) := by
  unfold launchNode
  split
  · exact h.ok
  · extract_lets many
    split
    · exact okCanon_error
    · exact launchReady_canon (launchHeld_canon h _ ‹_›)

theorem placeRecord_canon (h : s.Canon) {slot depth payload} : OkCanon (placeRecord s ctx e f slot depth payload) := by
  unfold placeRecord
  split
  · exact h.ok
  · split
    · exact h.ok
    · extract_lets va hold
      split
      · exact (modCtx_canon h).ok
      · split
        · exact okCanon_error
        · have ht := gwrite_canon h _ ‹_›
          split
          · exact okCanon_error
          · exact (modCtx_canon (gwrite_canon ht _ ‹_›)).ok

theorem deliverSlot_canon (h : s.Canon) : OkFstCanon (deliverSlot s ctx e) := by
  unfold deliverSlot
  split
  · exact h.okFst
  · split
    · exact h.okFst
    · extract_lets x f k slot va late mark p a b q
      have hmark {t : State} {sub p} (ht : t.Canon) : (mark t sub p).Canon := modCtx_canon (dropLines_canon ht)
      clear_value mark
      split
      · exact h.okFst
      · split
        · extract_lets w
          split
          · exact okFstCanon_error
          · exact (hmark (gwrite_canon h _ ‹_›)).okFst
        · split
          · exact h.okFst
          · split
            · exact okFstCanon_error
            · exact (hmark (gwrite_canon h _ ‹_›)).okFst

theorem deliverEdge_canon : ∀ {fuel} {s : State}, s.Canon → OkCanon (deliverEdge ctx e fuel s)
  | 0, _, h => h.ok
  | fuel + 1, s, h => by
    unfold deliverEdge
    split
    · exact okCanon_error
    · exact deliverEdge_canon (deliverSlot_canon h _ _ ‹_›)
    · have ht := deliverSlot_canon h _ _ ‹_›
      split
      · exact ht.ok
      · split
        · exact ht.ok
        · extract_lets x
          split
          · exact ht.ok
          · exact deliverEdge_canon (modCtx_canon ht)

theorem markDeadlines_canon (h : s.Canon) : (markDeadlines s ctx e).Canon := by
  unfold markDeadlines
  split
  · exact h
  · split
    · exact h
    · exact State.Canon.ite h (modCtx_canon h)

theorem advanceEdge_canon (h : s.Canon) : OkCanon (advanceEdge s ctx e) := by
  unfold advanceEdge
  split
  · exact h.ok
  · split
    · exact h.ok
    · extract_lets s0
      have h0 : s0.Canon := markDeadlines_canon h
      split
      · exact okCanon_error
      · have ht := deliverEdge_canon h0 _ ‹_›
        extract_lets u
        have hu : u.Canon := State.Canon.ite ht (publish_canon ht)
        split
        · split
          · exact launchNode_canon hu
          · exact hu.ok
        · exact hu.ok

theorem advanceAll_canon (h : s.Canon) : (advanceAll s ctx).Canon := by
  unfold advanceAll
  split
  · exact h
  · refine h.foldl fun _ _ hs => ?_
    split
    · exact State.Canon.ite (runGraph_canon hs (advanceEdge_canon hs)) hs
    · exact hs

theorem closeFrame_canon (h : s.Canon) : OkCanon (closeFrame s ctx e f) := advanceEdge_canon (modCtx_canon h)

theorem closeDue_canon : ∀ {fuel} {s : State}, s.Canon → OkCanon (closeDue ctx e fuel s)
  | 0, _, h => h.ok
  | fuel + 1, s, h => by
    unfold closeDue
    extract_lets u
    have hu : u.Canon := modCtx_canon h
    clear_value u
    split
    · exact hu.ok
    · split
      · exact hu.ok
      · extract_lets f
        split
        · exact hu.ok
        · split
          · exact okCanon_error
          · exact closeDue_canon (closeFrame_canon hu _ ‹_›)

/-! ## Datagrams -/

theorem enqueueGram_canon (h : s.Canon) {c d g} : (enqueueGram s ctx c e d g).Canon := h.upd rfl rfl

theorem setCodec_canon (h : s.Canon) {k} : (setCodec s ctx e k).Canon := modCtx_canon h

theorem sendParity_canon (h : s.Canon) : (sendParity s ctx e).Canon := by
  unfold sendParity
  split
  · exact h
  · split
    · exact h
    · exact State.Canon.ite h (setCodec_canon (enqueueGram_canon h))

theorem sendOpen_canon (h : s.Canon) : (sendOpen s ctx e).Canon := by
  unfold sendOpen
  split
  · exact h
  · split
    · exact h
    · have hk {c d g k} : (setCodec (enqueueGram s ctx c e d g) ctx e k).Canon := setCodec_canon (enqueueGram_canon h)
      exact State.Canon.ite h (State.Canon.ite (sendParity_canon hk) hk)

theorem flushEdge_canon (h : s.Canon) : (flushEdge s ctx e).Canon := sendParity_canon (sendOpen_canon h)

theorem codecTake_canon (h : s.Canon) {slot d payload} : (codecTake s ctx e f slot d payload).Canon := by
  unfold codecTake
  extract_lets u rec' v
  have hu : u.Canon := by
    unfold u
    split
    · exact State.Canon.ite (flushEdge_canon h) h
    · exact h
  have hv : v.Canon := modCtx_canon hu
  clear_value v
  split
  · exact State.Canon.ite (sendOpen_canon hv) hv
  · exact hv

theorem emit_canon (h : s.Canon) {launch depth slot payload} : OkFstCanon (emit s ctx launch node depth e f slot payload) := by
  unfold emit
  split
  · exact okFstCanon_error
  · have ht := closeDue_canon h _ ‹_›
    split
    · exact ht.okFst
    · extract_lets st
      split
      · exact (State.Canon.ite ht (modLaunch_canon ht)).okFst
      · split
        · exact ht.okFst
        · split
          · split
            · exact okFstCanon_error
            · have hu := placeRecord_canon ht _ ‹_›
              extract_lets full
              clear_value full
              split
              · exact okFstCanon_error
              · exact (OkCanon.ite (closeFrame_canon hu) (advanceEdge_canon hu) _ ‹_›).okFst
          · exact (codecTake_canon ht).okFst

theorem emitSlot_canon (h : s.Canon) {launch} : (emitSlot s launch).Canon := modLaunch_canon h

end
end Sys2Proof.Machine
end

section
/-! Fragment words, the receiver's order, and moves of the cut keep the canonical form (05 R127, R135, R138 to R151;
08 R240, R241; 15 R300 to R304). -/

namespace Sys2Proof.Machine
open Sys2Proof

section
variable {s : State} {c : VCtx} {ctx e f : Nat} {g : Datagram}

/-! ## Fragments and emissions -/

theorem emitLane_canon (h : s.Canon) {l} : OkFstCanon (c.emitLane s l) := by
  unfold VCtx.emitLane
  extract_lets a payload
  split
  · exact (emitSlot_canon h).okFst
  · exact emit_canon h

theorem emitLanes_canon : ∀ {ls} {s : State}, s.Canon → OkFstCanon (c.emitLanes ls s)
  | [], _, h => h.okFst
  | l :: rest, s, h => by
    unfold VCtx.emitLanes
    split
    · exact okFstCanon_error
    · have ht := emitLane_canon h _ _ ‹_›
      split
      · exact okFstCanon_error
      · exact (emitLanes_canon ht _ _ ‹_›).okFst

theorem execVinterp_canon (h : s.Canon) {w} : NextCanon (execVinterp w s) := vectorWord_canon h fun _ => by
  split
  · exact (eachLane_canon h fun _ _ hu => hu).error ‹_›
  · exact lanewise_canon ((eachLane_canon h fun _ _ hu => hu).ok ‹_›)

theorem execVderiv_canon (h : s.Canon) {w} : NextCanon (execVderiv w s) := vectorWord_canon h fun _ => lanewise_canon h

theorem execVfragout_canon (h : s.Canon) {w} : NextCanon (execVfragout w s) := vectorWordIf_canon h fun _ => by
  split
  · exact h
  · split
    · exact (eachLane_canon h fun _ _ hu => hu).error ‹_›
    · exact modCtx_canon ((eachLane_canon h fun _ _ hu => hu).ok ‹_›)

theorem execVdiscard_canon (h : s.Canon) {w} : NextCanon (execVdiscard w s) := vectorWord_canon h fun _ => by
  split
  · exact h
  · exact modStrand_canon h

theorem execVrec_canon (h : s.Canon) {w} : NextCanon (execVrec w s) := vectorWord_canon h fun _ => by
  extract_lets off
  split
  · exact (eachLane_canon h fun _ _ hu => hu).error ‹_›
  · exact State.Canon.foldl ((eachLane_canon h fun _ _ hu => hu).ok ‹_›) fun _ _ hs => scratchWrite_canon hs

theorem depthTest_canon (h : s.Canon) {world x d} : OkFstCanon (depthTest s ctx world x d) := by
  unfold depthTest
  extract_lets va
  split
  · exact h.okFst
  · split
    · exact okFstCanon_error
    · have ht := gread_canon h _ _ ‹_›
      split
      · exact ht.okFst
      · split
        · split
          · exact okFstCanon_error
          · exact (gwrite_canon ht _ ‹_›).okFst
        · exact ht.okFst

theorem mergeFrag_canon (h : s.Canon) {k x} : OkCanon (mergeFrag s ctx k x) := by
  unfold mergeFrag
  split
  · exact h.ok
  · split
    · exact okCanon_error
    · have ht := gread_canon h _ _ ‹_›
      extract_lets t n va
      split
      · exact ht.ok
      · split
        · exact okCanon_error
        · exact (depthTest_canon ht _ _ ‹_›).ok
        · have hu := depthTest_canon ht _ _ ‹_›
          split
          · exact okCanon_error
          · exact gwrite_canon (gread_canon hu _ _ ‹_›)

/-! ## The receiver's order -/

theorem placeOne_canon {d} {acc : Except GStop State} (ha : OkCanon acc) {r} : OkCanon (placeOne ctx e f d acc r) := by
  unfold placeOne
  split
  · exact okCanon_error
  · have ht := ha _ rfl
    split
    · exact ht.ok
    · extract_lets slot
      split
      · exact (modCtx_canon ht).ok
      · exact placeRecord_canon ht

theorem placeGram_canon (h : s.Canon) {seq records d payload} : OkCanon (placeGram s ctx e f seq records d payload) := by
  unfold placeGram
  have hr : OkCanon ((recordsOf d records payload).foldl (placeOne ctx e f d) (.ok s)) :=
    foldl_keeps OkCanon _ (fun _ _ ha => placeOne_canon ha) _ _ h.ok
  split
  · exact okCanon_error
  · exact (modCtx_canon (hr _ ‹_›)).ok

theorem useParities_canon {d} : ∀ {fuel} {s : State}, s.Canon → OkCanon (useParities ctx e f d fuel s)
  | 0, _, h => h.ok
  | fuel + 1, s, h => by
    unfold useParities
    split
    · exact h.ok
    · extract_lets k
      split
      · exact h.ok
      · extract_lets u
        have hu : u.Canon := modCtx_canon h
        clear_value u
        split
        · extract_lets r
          split
          · exact okCanon_error
          · exact useParities_canon (placeGram_canon hu _ ‹_›)
        · exact useParities_canon hu

theorem notHere_canon (h : s.Canon) {c d} : (notHere s ctx c d g).Canon := State.Canon.ite (modCtx_canon h) h

theorem takeData_canon (h : s.Canon) {c} : OkCanon (takeData s ctx c g) := by
  unfold takeData
  split
  · exact h.ok
  · split
    · exact (notHere_canon h).ok
    · split
      · exact okCanon_error
      · have ht := closeDue_canon h _ ‹_›
        split
        · exact ht.ok
        · extract_lets n u
          have hu : u.Canon := modCtx_canon ht
          clear_value u
          split
          · exact (modCtx_canon hu).ok
          · exact (tell_canon (modCtx_canon hu)).ok
          · split
            · exact okCanon_error
            · have hv := placeGram_canon hu _ ‹_›
              split
              · exact okCanon_error
              · exact advanceEdge_canon (useParities_canon hv _ ‹_›)

theorem takeParity_canon (h : s.Canon) {c} : OkCanon (takeParity s ctx c g) := by
  unfold takeParity
  split
  · exact h.ok
  · split
    · exact (notHere_canon h).ok
    · split
      · exact okCanon_error
      · have ht := closeDue_canon h _ ‹_›
        split
        · exact ht.ok
        · split
          · exact ht.ok
          · exact ht.ok
          · extract_lets u
            have hu : u.Canon := modCtx_canon ht
            clear_value u
            split
            · exact okCanon_error
            · exact advanceEdge_canon (useParities_canon hu _ ‹_›)

/-! ## Moves of the cut -/

theorem modMove_canon (h : s.Canon) {m} : (s.modMove ctx m).Canon := modCtx_canon h

theorem sendGram_canon (h : s.Canon) {p peer} : (sendGram s p peer g).Canon := noteSent_canon (h.upd (by rfl) (by rfl))

theorem sendCtl_canon (h : s.Canon) {kind frame awaits sequence first payload} :
    (sendCtl s ctx kind frame awaits sequence first payload).Canon := by
  unfold sendCtl
  split
  · exact h
  · extract_lets g p peer u
    have hu : u.Canon := sendGram_canon h
    clear_value u
    exact State.Canon.ite (modMove_canon hu) hu

theorem stopCtl_canon (h : s.Canon) {p} : (stopCtl s ctx p).Canon := modMove_canon h

theorem freeLaunches_canon (h : s.Canon) : (freeLaunches s ctx).Canon := by
  unfold freeLaunches
  split
  · exact h
  · exact h.foldl fun _ _ hs => runGraph_canon hs (launchNode_canon hs)

theorem stageBytes_canon (h : s.Canon) {c n} : OkFstCanon (stageBytes s ctx c n) := by
  unfold stageBytes
  split
  · exact h.okFst
  · extract_lets hist
    split
    · exact h.okFst
    · split
      · exact okFstCanon_error
      · exact (gread_canon h _ _ ‹_›).okFst

theorem sendStage_canon (h : s.Canon) {c n} : OkCanon (sendStage s ctx c n) := by
  unfold sendStage
  split
  · exact okCanon_error
  · have ht := stageBytes_canon h _ _ ‹_›
    extract_lets total u v
    have hu : u.Canon := State.Canon.ite ht (modMove_canon (sendCtl_canon ht))
    have hv : v.Canon := hu.foldl fun _ _ hs => sendCtl_canon hs
    exact (modMove_canon hv).ok

theorem noteDone_canon (h : s.Canon) : (noteDone s ctx).Canon := by
  unfold noteDone
  split
  · exact h
  · exact State.Canon.ite h (modMove_canon h)

theorem sendStages_canon (h : s.Canon) : (sendStages s ctx).Canon := by
  unfold sendStages
  split
  · exact h
  · refine State.Canon.ite h (h.foldl fun _ _ hs => ?_)
    split
    · exact hs
    · exact State.Canon.ite hs (runGraph_canon hs (sendStage_canon hs))

theorem takeStage_canon (h : s.Canon) {c n} : OkCanon (takeStage s ctx c n) := by
  unfold takeStage
  split
  · split
    · exact okCanon_error
    · exact launchNode_canon (publish_canon (modMove_canon (modCtx_canon (OkCanon.ite h.ok (gwrite_canon h) _ ‹_›))))
  · exact h.ok

theorem takeStages_canon (h : s.Canon) : (takeStages s ctx).Canon := by
  unfold takeStages
  split
  · exact h
  · refine State.Canon.ite h (h.foldl fun _ _ hs => ?_)
    split
    · exact hs
    · exact State.Canon.ite hs (runGraph_canon hs (takeStage_canon hs))

theorem finishMove_canon (h : s.Canon) : (finishMove s ctx).Canon := by
  unfold finishMove
  split
  · exact h
  · exact State.Canon.ite h (freeLaunches_canon (tell_canon (modCtx_canon h)))

theorem takeHeld_canon (h : s.Canon) : (takeHeld s ctx).Canon := by
  unfold takeHeld
  split
  · exact h
  · refine State.Canon.ite h (h.foldl fun _ _ hs => ?_)
    split
    · exact hs
    · split
      · exact modMove_canon (OkCanon.ite (takeData_canon hs) (takeParity_canon hs) _ ‹_›)
      · exact graphStop_canon hs

theorem moveOn_canon (h : s.Canon) : (moveOn s ctx).Canon :=
  finishMove_canon (takeStages_canon (takeHeld_canon (sendStages_canon (noteDone_canon h))))

theorem startNode_canon (h : s.Canon) {n} : OkCanon (startNode s ctx f n) := by
  unfold startNode
  split
  · exact h.ok
  · split
    · exact h.ok
    · split
      · exact h.ok
      · split
        · split
          · exact okCanon_error
          · exact (modCtx_canon (gread_canon h _ _ ‹_›)).ok
        · exact h.ok
        · exact (State.Canon.ite (modCtx_canon h) h).ok

theorem stepPhase_canon (h : s.Canon) {c} : (stepPhase s ctx c).Canon := by
  unfold stepPhase
  refine modCtx_canon (modCtx_canon ?_)
  split
  · exact modInst_canon h
  · exact h

theorem rephase_canon (h : s.Canon) {c p} : (rephase s c p).Canon := h.foldl fun _ _ hs => State.Canon.ite hs (modInst_canon hs)

theorem startMoved_canon (h : s.Canon) {c cur} : OkCanon (startMoved s ctx c cur) := by
  unfold startMoved
  refine foldl_keeps OkCanon _ (fun r f hr => foldl_keeps OkCanon _ (fun r n hr => ?_) _ _ hr) _ _ h.ok
  split
  · exact okCanon_error
  · exact startNode_canon (hr _ rfl)

theorem lateCommit_canon (h : s.Canon) : (lateCommit s ctx).Canon := by
  unfold lateCommit
  split
  · exact h
  · split
    · exact h
    · split
      · exact h
      · extract_lets u
        have hu : u.Canon := stepPhase_canon h
        clear_value u
        split
        · exact hu
        · extract_lets r v
          have hv : v.Canon := rephase_canon (ensurePhase_canon hu)
          exact runGraph_canon hv (startMoved_canon hv)

theorem routeOut_canon (h : s.Canon) {d x frames} : (routeOut s ctx e d x frames).Canon :=
  State.Canon.foldl (modCtx_canon h) fun _ _ hs => hs.foldl fun _ _ hu => State.Canon.ite (codecTake_canon hu) hu

theorem routeIn_canon (h : s.Canon) {c d} : (routeIn s ctx e c d).Canon := by
  unfold routeIn
  extract_lets f stale ports full u
  have hu : u.Canon := h.upd rfl rfl
  exact runGraph_canon hu (advanceEdge_canon hu)

theorem reroute_canon (h : s.Canon) : (reroute s ctx e).Canon := by
  unfold reroute
  split
  · exact h
  · split
    · exact h
    · exact State.Canon.ite (routeOut_canon h) (State.Canon.ite (routeIn_canon h) h)

theorem enterCommitted_canon (h : s.Canon) : (enterCommitted s ctx).Canon := by
  unfold enterCommitted
  extract_lets s1 s2 s3
  have h2 : s2.Canon := modCtx_canon (sendStages_canon (noteDone_canon (modCtx_canon h)))
  clear_value s2
  have h3 : s3.Canon := by
    unfold s3
    split
    · refine State.Canon.foldl ?_ fun _ _ hs => reroute_canon hs
      split
      · exact modCtx_canon h2
      · exact h2
    · exact h2
  exact takeHeld_canon (freeLaunches_canon (lateCommit_canon h3))

theorem sendPropose_canon (h : s.Canon) : (sendPropose s ctx).Canon := by
  unfold sendPropose
  split
  · exact sendCtl_canon (stopCtl_canon h)
  · exact h

theorem startMove_canon (h : s.Canon) {k} : (startMove s ctx k f).Canon := sendPropose_canon (modMove_canon h)

theorem abortEvent_canon (h : s.Canon) {conflict} : (abortEvent s ctx conflict).Canon := by
  unfold abortEvent
  split
  · exact tell_canon h
  · exact h

theorem moveAtFrame_canon (h : s.Canon) : (moveAtFrame s ctx f).Canon := by
  unfold moveAtFrame
  split
  · exact h
  · split
    · exact State.Canon.ite h (State.Canon.ite (tell_canon (freeLaunches_canon (sendPropose_canon (modMove_canon h))))
        (abortEvent_canon (sendCtl_canon (modMove_canon (stopCtl_canon h)))))
    · exact State.Canon.ite (moveOn_canon h) (moveOn_canon (stepPhase_canon h))
    · exact h

theorem abandonMove_canon (h : s.Canon) : (abandonMove s ctx).Canon := by
  unfold abandonMove
  split
  · exact h
  · have ha {m kind frame awaits} : (sendCtl (s.modMove ctx m) ctx kind frame awaits).Canon := sendCtl_canon (modMove_canon h)
    split
    · exact ha
    · exact ha
    · exact ha
    · exact h

theorem answerAgain_canon (h : s.Canon) {c} : (answerAgain s ctx c g).Canon := State.Canon.ite h (sendCtl_canon h)

theorem noteAnswered_canon (h : s.Canon) : (noteAnswered s ctx g).Canon := modMove_canon h

theorem acceptPropose_canon (h : s.Canon) : (acceptPropose s ctx g).Canon :=
  freeLaunches_canon (sendCtl_canon (noteAnswered_canon (modMove_canon h)))

theorem onPropose_canon (h : s.Canon) {c} : (onPropose s ctx c g).Canon := by
  unfold onPropose
  refine State.Canon.ite h (State.Canon.ite (answerAgain_canon h) ?_)
  have ha : (acceptPropose (abortEvent (s.modMove ctx endMove) ctx true) ctx g).Canon :=
    acceptPropose_canon (abortEvent_canon (modMove_canon h))
  split
  · exact acceptPropose_canon h
  · exact State.Canon.ite (acceptPropose_canon h) h
  · exact ha
  · exact State.Canon.ite ha h
  · exact h
  · exact h

theorem onAck_canon (h : s.Canon) {c} : (onAck s ctx c g).Canon :=
  State.Canon.ite (enterCommitted_canon (sendCtl_canon (noteAnswered_canon (stopCtl_canon h)))) (State.Canon.ite (answerAgain_canon h) h)

theorem onCommit_canon (h : s.Canon) {c} : (onCommit s ctx c g).Canon :=
  State.Canon.ite h (State.Canon.ite (enterCommitted_canon (sendCtl_canon (noteAnswered_canon (stopCtl_canon h)))) (answerAgain_canon h))

theorem onCommitAck_canon (h : s.Canon) {c} : (onCommitAck s ctx c g).Canon := stopCtl_canon h

theorem onAbort_canon (h : s.Canon) {c} : (onAbort s ctx c g).Canon := by
  unfold onAbort
  refine State.Canon.ite h ?_
  have ha {frame} : (freeLaunches (abortEvent ((sendCtl (noteAnswered s ctx g) ctx 0x15 frame false).modMove ctx endMove) ctx false) ctx).Canon :=
    freeLaunches_canon (abortEvent_canon (modMove_canon (sendCtl_canon (noteAnswered_canon h))))
  split
  · exact ha
  · exact ha
  · exact ha
  · exact answerAgain_canon h
  · exact h
  · exact h

theorem onAbortAck_canon (h : s.Canon) {c} : (onAbortAck s ctx c g).Canon := State.Canon.ite (freeLaunches_canon (modMove_canon h)) h

theorem onHandover_canon (h : s.Canon) {c} : (onHandover s ctx c g).Canon := by
  unfold onHandover
  extract_lets num s1 s2 s3
  have h2 : s2.Canon := sendCtl_canon (noteAnswered_canon (modMove_canon h))
  have h3 : s3.Canon := State.Canon.ite (modCtx_canon h2) h2
  clear_value s3
  have ha : (answerAgain s ctx c g).Canon := answerAgain_canon h
  have hm : (moveOn s3 ctx).Canon := moveOn_canon h3
  refine State.Canon.ite h ?_
  split
  · exact State.Canon.ite ha hm
  · exact State.Canon.ite ha hm
  · exact ha

theorem onHandoverAck_canon (h : s.Canon) {c} : (onHandoverAck s ctx c g).Canon := State.Canon.ite h (moveOn_canon (stopCtl_canon h))

theorem execControlResend_canon (h : s.Canon) {k} : NextCanon (execControlResend ctx k s) := by
  unfold execControlResend
  refine State.Canon.next ?_
  split
  · exact h
  · split
    · exact h
    · exact State.Canon.ite h (modMove_canon (sendGram_canon h))

theorem execFailed_canon (h : s.Canon) {k} : NextCanon (execFailed ctx k s) := by
  unfold execFailed
  refine State.Canon.next ?_
  split
  · exact h
  · split
    · exact h
    · exact State.Canon.ite h (tell_canon (modCtx_canon h))

end
end Sys2Proof.Machine
end

section
/-! The graph's words and events, placement, and the ends of the levels of work keep the canonical form (09 R262 to R266; 05 R116 to
R131; 16 R309 to R311; 17 R321 to R327). -/

namespace Sys2Proof.Machine
open Sys2Proof

section
variable {s : State} {c : VCtx} {e : Env} {ctx f : Nat}

/-! ## The graph's words -/

theorem abandonUnder_canon (h : s.Canon) {i} : (abandonUnder s i).Canon := h.foldl fun _ _ hs => abandonMove_canon hs

theorem putStatus_canon (h : s.Canon) {d n} : (putStatus e d s n).Canon := modStrand_canon h

theorem execScancel_canon (h : s.Canon) {g d a l} : NextCanon (execScancel g d a l s) := scalarWord_canon h fun e => by
  extract_lets u k known put
  have hput {t : State} {n} (ht : t.Canon) : (put t n).Canon := modStrand_canon ht
  have hu : u.Canon := by
    unfold u
    split
    · exact abandonUnder_canon (cancelInst_canon h)
    · exact h
  clear_value u put
  split
  · exact sweep_canon (endStrand_canon hu)
  · split
    · exact h
    · split
      · exact hput h
      · split
        · exact hput h
        · extract_lets r
          have hr : r.1.Canon := cancelStatus_canon h
          exact hput (State.Canon.ite (abandonUnder_canon hr) hr)

theorem gemitBody_canon (h : s.Canon) {d a b r} : (gemitBody d a b r e s).Canon := by
  unfold gemitBody
  extract_lets q u va f x
  have hq : q.1.Canon := release_canon h
  split
  · exact hq
  · split
    · exact putStatus_canon (emitSlot_canon hq)
    · split
      · exact hq
      · split
        · exact hq
        · split
          · exact (strandBytes_canon hq).error ‹_›
          · have ht := (strandBytes_canon hq).ok ‹_›
            split
            · exact putStatus_canon (moveOn_canon (emit_canon ht _ _ ‹_›))
            · exact graphStop_canon ht

theorem execGemit_canon (h : s.Canon) {g d a b r} : NextCanon (execGemit g d a b r s) := scalarWord_canon h fun _ => gemitBody_canon h

theorem gcloseBody_canon (h : s.Canon) {d a b} : (gcloseBody d a b e s).Canon := by
  unfold gcloseBody
  extract_lets k f
  split
  · exact putStatus_canon h
  · split
    · exact graphStop_canon h
    · have ht := closeDue_canon h _ ‹_›
      split
      · exact putStatus_canon ht
      · extract_lets n
        split
        · exact putStatus_canon (moveOn_canon ht)
        · split
          · exact putStatus_canon ht
          · split
            · split
              · exact putStatus_canon (moveOn_canon (closeFrame_canon ht _ ‹_›))
              · exact graphStop_canon ht
            · exact putStatus_canon (moveOn_canon (State.Canon.ite (flushEdge_canon ht) ht))

theorem execGclose_canon (h : s.Canon) {g d a b} : NextCanon (execGclose g d a b s) := scalarWord_canon h fun _ => gcloseBody_canon h

theorem execVemit_canon (h : s.Canon) {w} : NextCanon (execVemit w s) := vectorWord_canon h fun c => by
  split
  · exact (eachLane_canon h fun _ _ hu => hu).error ‹_›
  · have ht := (eachLane_canon (c := c) h fun _ _ hu => hu).ok ‹_›
    split
    · exact graphStop_canon ht
    · exact putReg_canon (moveOn_canon (emitLanes_canon ht _ _ ‹_›))

theorem execGcut_canon (h : s.Canon) {g d a b} : NextCanon (execGcut g d a b s) := scalarWord_canon h fun e => by
  split
  · exact putStatus_canon h
  · split
    · exact putStatus_canon h
    · exact putStatus_canon (State.Canon.ite (startMove_canon h) h)

theorem execGstat_canon (h : s.Canon) {g d a i} : NextCanon (execGstat g d a i s) := scalarWord_canon h fun _ => setsReg_canon h

/-! ## Contexts and the graph's events -/

theorem launchAt_canon (h : s.Canon) {world va} : (launchAt s ctx world va).1.Canon := by
  unfold launchAt
  split <;> exact (readNow_canon h).fst ‹_›

theorem rasterAt_canon (h : s.Canon) {m n x} : (rasterAt s ctx m n x).1.Canon := by
  unfold rasterAt
  split
  · exact h
  · split
    · exact (readNow_canon h).fst ‹_›
    · have ht := (readNow_canon h).fst ‹_›
      split
      · exact ht
      · extract_lets merge queue wide
        split
        · exact ht
        · split
          · split <;> exact (launchAt_canon ht).fst ‹_›
          · exact (launchAt_canon ht).fst ‹_›

theorem nodeStateAt_canon (h : s.Canon) {m n x} : (nodeStateAt s ctx m n x).1.Canon := by
  unfold nodeStateAt
  split
  · split <;> exact (rasterAt_canon h).fst ‹_›
  · split
    · exact h
    · split <;> exact (readNow_canon h).fst ‹_›
  · split
    exact (launchAt_canon h).fst ‹_›

theorem execContextCreate_canon (h : s.Canon) : NextCanon (execContextCreate s) := by
  unfold execContextCreate
  refine State.Canon.next ?_
  split
  · exact h
  · have ht := takeInput_canon h _ _ ‹_›
    extract_lets alive s0 u r
    have hu : u.Canon := ht.upd rfl rfl
    have hr : r.1.Canon := by
      refine foldl_keeps (fun a : State × Bool => a.1.Canon) _ (fun a n ha => ?_) _ _ hu
      split
      · exact ha
      · split
        exact modCtx_canon ((nodeStateAt_canon ha).fst ‹_›)
    exact State.Canon.ite ht (State.Canon.ite (tell_canon ht) (State.Canon.ite hr (tell_canon ht)))

theorem execContextDestroy_canon (h : s.Canon) : NextCanon (execContextDestroy s) := by
  unfold execContextDestroy
  refine State.Canon.next ?_
  split
  · exact h
  · have ht := takeInput_canon h _ _ ‹_›
    exact State.Canon.ite ht (ht.upd (by rfl) (by rfl))

theorem execPtpSync_canon (h : s.Canon) {offset} : NextCanon (execPtpSync ctx offset s) := (modCtx_canon h).next

theorem settleRaster_canon (h : s.Canon) : (settleRaster s ctx).Canon := by
  unfold settleRaster
  split
  · exact h
  · exact State.Canon.ite h (publish_canon (modCtx_canon h))

theorem execFragmentMerge_canon (h : s.Canon) {node k} : NextCanon (execFragmentMerge ctx node k s) := by
  unfold execFragmentMerge
  refine State.Canon.next ?_
  split
  · exact h
  · split
    · exact h
    · split
      · exact h
      · split
        · exact graphStop_canon h
        · exact moveOn_canon (settleRaster_canon (modCtx_canon (mergeFrag_canon h _ ‹_›)))

theorem startNodes_canon (h : s.Canon) {k} : OkCanon (startNodes s ctx f k) := by
  unfold startNodes
  refine foldl_keeps OkCanon _ (fun r n hr => ?_) _ _ h.ok
  split
  · exact okCanon_error
  · exact startNode_canon (hr _ rfl)

theorem execFrameStart_canon (h : s.Canon) : NextCanon (execFrameStart ctx s) := by
  unfold execFrameStart
  refine State.Canon.next ?_
  split
  · exact h
  · extract_lets f
    split
    · exact h
    · split
      · exact graphStop_canon h
      · have ht := startNodes_canon h _ ‹_›
        extract_lets u v w
        have hv : v.Canon := moveAtFrame_canon (modCtx_canon ht)
        clear_value v
        have hw : w.Canon := by
          unfold w
          split
          · exact ensureRun_canon hv
          · exact hv
        exact moveOn_canon (settleRaster_canon (freeLaunches_canon hw))

theorem execNodeFrameDeadline_canon (h : s.Canon) {node frame} : NextCanon (execNodeFrameDeadline ctx node frame s) := by
  unfold execNodeFrameDeadline
  refine State.Canon.next ?_
  split
  · exact h
  · split
    · exact h
    · have hm {n} : (markDeadlines s ctx n).Canon := markDeadlines_canon h
      exact State.Canon.ite h (moveOn_canon (runGraph_canon hm (launchNode_canon hm)))

theorem execEdgeDeadline_canon (h : s.Canon) {edge} : NextCanon (execEdgeDeadline ctx edge s) := by
  unfold execEdgeDeadline
  extract_lets u
  have hu : u.Canon := modCtx_canon h
  clear_value u
  refine State.Canon.next ?_
  split
  · exact hu
  · split
    · exact hu
    · exact State.Canon.ite hu (moveOn_canon (runGraph_canon hu (closeFrame_canon hu)))

/-! ## Placement -/

theorem execWorldPartitionWrite_canon (h : s.Canon) {core idx val} : NextCanon (execWorldPartitionWrite core idx val s) :=
  (State.Canon.ite (h.upd (by rfl) (by rfl)) h).next

theorem releaseGranules_canon (h : s.Canon) {core wg} : (releaseGranules s core wg).Canon := h.upd rfl rfl

theorem takeGranules_canon (h : s.Canon) {core wg world l} : (takeGranules s core wg world l).Canon := h.upd rfl rfl

theorem execGranuleZeroingDone_canon (h : s.Canon) {core g} : NextCanon (execGranuleZeroingDone core g s) := by
  unfold execGranuleZeroingDone
  refine State.Canon.next ?_
  split
  · exact h.upd rfl rfl
  · exact h

/-- The batch and the attributes that a workgroup starts with are written into an empty scratchpad. -/
theorem firstScratch_wf (l : Launch) : (firstScratch l).wf = true := by
  unfold firstScratch
  extract_lets m room
  have hm : m.wf = true := by
    unfold m
    split
    · exact Mem.wf_write _ _ rfl
    · rfl
  split
  · exact hm
  · exact foldl_keeps (fun m : Mem => m.wf = true) _ (fun _ _ hu => Mem.wf_write _ _ hu) _ _ hm

theorem placeOn_canon (h : s.Canon) {id l index core} : (placeOn s id l index core).Canon := by
  unfold placeOn
  extract_lets wg gs g u v
  have hg : g.Canon := ⟨firstScratch_wf l, rfl⟩
  have h1 : State.Canon { s with nextId := wg + 1, wgs := s.wgs.set wg g } := h.setWg hg rfl rfl
  have hu : u.Canon := takeGranules_canon h1
  have hv : v.Canon := addInst_canon hu
  exact hv.foldl fun _ _ hs => hs.upd rfl rfl

theorem placeAll_canon {id l} : ∀ {index cores} {s : State}, s.Canon → SomeCanon (placeAll id l index cores s)
  | _, [], _, h => h.some
  | index, c :: rest, s, h => by
    unfold placeAll
    split
    · exact placeAll_canon (placeOn_canon h)
    · exact someCanon_none

theorem drrRound_canon (h : s.Canon) {core level} : (drrRound s core level).Canon := h.foldl fun _ _ hs => hs.upd rfl rfl

theorem execWorkgroupPlacement_canon (h : s.Canon) {launch cores} : NextCanon (execWorkgroupPlacement launch cores s) := by
  unfold execWorkgroupPlacement
  refine State.Canon.next ?_
  split
  · extract_lets level
    split
    · exact h
    · split
      · exact h
      · have ht := placeAll_canon h _ ‹_›
        exact State.Canon.ite (State.Canon.ite (drrRound_canon h) h) (ht.upd (by rfl) (by rfl))
  · exact h

/-! ## Levels and the watchdog -/

theorem vacate_canon (h : s.Canon) {wg} : (vacate s wg).Canon := by
  unfold vacate
  split
  · exact h
  · exact (releaseGranules_canon h).modWg fun _ _ => ⟨rfl, rfl⟩

theorem leaveQueue_canon (h : s.Canon) {id} : (leaveQueue s id).Canon := by
  unfold leaveQueue
  split
  · exact h
  · split
    · exact modWorld_canon h
    · exact h

theorem afterOver_canon (h : s.Canon) {i} : (afterOver s i).Canon := by
  unfold afterOver
  split
  · exact State.Canon.ite (moveOn_canon (settleRaster_canon (advanceAll_canon h))) h
  · exact h

theorem endInst_canon (h : s.Canon) {i} : (endInst s i).Canon := by
  unfold endInst
  extract_lets u
  have hu : u.Canon := publish_canon h
  clear_value u
  split
  · exact vacate_canon hu
  · exact leaveQueue_canon hu
  · exact hu

theorem execInstanceComplete_canon (h : s.Canon) {i} : NextCanon (execInstanceComplete i s) := by
  unfold execInstanceComplete
  refine State.Canon.next ?_
  split
  · exact h
  · split
    · exact h
    · extract_lets u v
      have hu : u.Canon := modInst_canon (endInst_canon h)
      clear_value u
      have hv : v.Canon := by
        unfold v
        split
        · exact modInst_canon hu
        · exact hu
      exact afterOver_canon hv

theorem dropCommands_canon (h : s.Canon) {wg} : (dropCommands s wg).Canon := by
  unfold dropCommands
  extract_lets mineAbandoned cq rest kq
  have h1 : State.Canon { s with copyQs := cq, collQs := kq } := h.upd rfl rfl
  exact h1.modWg fun _ hg => hg

theorem execInstanceSettle_canon (h : s.Canon) {i} : NextCanon (execInstanceSettle i s) := by
  unfold execInstanceSettle
  refine State.Canon.next ?_
  split
  · exact h
  · split
    · exact h
    · extract_lets u v w
      have hu : u.Canon := State.Canon.ite (dropCommands_canon h) h
      have hv : v.Canon := modInst_canon (endInst_canon hu)
      clear_value v
      have hw : w.Canon := by
        unfold w
        split
        · exact modInst_canon hv
        · exact hv
      exact afterOver_canon hw

theorem execWatchdog_canon (h : s.Canon) {launch} : NextCanon (execWatchdog launch s) := by
  unfold execWatchdog
  refine State.Canon.next ?_
  split
  · exact h
  · extract_lets due u
    have hu : u.Canon := raise_canon h
    exact State.Canon.ite h (cancelInst_canon hu)

end
end Sys2Proof.Machine
end

section
/-! The control words of the vector stream and the returns of memory keep the canonical form (08 R237 to R239; 01 R24 to R33). -/

namespace Sys2Proof.Machine
open Sys2Proof

/-- The state in what an access to the spill stack ends in. -/
def Spill.Canon {α : Type} : Spill α → Prop
  | .ok s _ | .miss s => s.Canon
  | .bad _ => True

section
variable {α : Type} {x : Spill α} {t : State}

theorem Spill.Canon.ok (h : x.Canon) {v : α} (hx : x = .ok t v) : t.Canon := by
  rw [hx] at h
  exact h

theorem Spill.Canon.miss (h : x.Canon) (hx : x = .miss t) : t.Canon := by
  rw [hx] at h
  exact h

end

section
variable {s : State} {c : VCtx} {e : Env}

/-! ## The spill stack -/

theorem spillPlace_canon (h : s.Canon) {kind} : (spillPlace s e kind).Canon := by
  unfold spillPlace
  extract_lets va
  split
  · trivial
  · split
    · exact h
    · exact ask_canon h
    · trivial

theorem spillRead_canon (h : s.Canon) {depth} : (spillRead s e depth).Canon := by
  unfold spillRead
  split
  · exact h
  · split
    · exact (spillPlace_canon h).miss ‹_›
    · trivial
    · exact readDie_canon ((spillPlace_canon h).ok ‹_›)

theorem spillWrite_canon (h : s.Canon) {entries} : (spillWrite s e entries).Canon := by
  unfold spillWrite
  split
  · exact h
  · split
    · exact (spillPlace_canon h).miss ‹_›
    · trivial
    · have ht := (spillPlace_canon h).ok ‹_›
      split
      · exact ht
      · exact l1DropRun_canon (performAt_canon ht)

theorem spillTake_canon (h : s.Canon) {push} : (spillTake s e push).Canon := by
  unfold spillTake
  split
  · exact (spillRead_canon h).miss ‹_›
  · trivial
  · have ht := (spillRead_canon h).ok ‹_›
    extract_lets es'
    split
    · exact (spillWrite_canon ht).miss ‹_›
    · trivial
    · exact modStrand_canon ((spillWrite_canon ht).ok ‹_›)
  · trivial

theorem spillPush_canon (h : s.Canon) {sp} : (spillPush s e sp).Canon := by
  unfold spillPush
  extract_lets n
  split
  · trivial
  · split
    · exact (spillPlace_canon h).miss ‹_›
    · trivial
    · have ht := (spillPlace_canon h).ok ‹_›
      exact modStrand_canon (State.Canon.ite ht (l1Drop_canon (performAt_canon ht)))

theorem grantPool_canon (h : s.Canon) {core q} : (grantPool s core q).Canon := by
  unfold grantPool
  extract_lets u
  have hu : u.Canon := h.foldl fun _ _ hs => modStrand_canon hs
  clear_value u
  refine State.Canon.ite h ?_
  split
  · exact hu
  · exact modStrand_canon hu
  · exact modStrand_canon hu

/-! ## Divergence -/

theorem passOn_canon (h : s.Canon) : (c.passOn s).Canon := modSplit_canon h

theorem controlWord_canon (h : s.Canon) {op w always body} (hb : ∀ c, (body c s).Canon) : NextCanon (controlWord op w always body s) := by
  unfold controlWord
  split
  · exact nextCanon_fault
  · split
    · exact (dropChain_canon h).next
    · split
      · exact (faults_canon h).next
      · split
        · exact (faults_canon h).next
        · split
          · exact (passOn_canon h).next
          · exact (hb _).next

theorem place2_canon (h : s.Canon) {one two r} : (c.place2 s one two r).Canon := modStrand_canon h

theorem divide_canon (h : s.Canon) {t} : (c.divide s t).Canon := by
  unfold VCtx.divide
  extract_lets id sp one two joined u
  have hu : u.Canon := h.upd rfl rfl
  split
  · exact place2_canon hu
  · split
    · exact again_canon h
    · split
      · exact place2_canon ((spillPush_canon hu).ok ‹_›)
      · exact h.upd rfl rfl
      · exact faults_canon h

theorem execVbr_canon (h : s.Canon) {w} : NextCanon (execVbr w s) := controlWord_canon h fun _ =>
  State.Canon.ite (passOn_canon h) (State.Canon.ite (modSplit_canon h) (divide_canon h))

theorem refill_canon (h : s.Canon) {slot} : (refill s e slot).Canon := by
  unfold refill
  split
  · exact modStrand_canon h
  · split
    · exact modStrand_canon h
    · split
      · exact (spillTake_canon h).miss ‹_›
      · trivial
      · exact modStrand_canon ((spillTake_canon h).ok ‹_›)

theorem park_canon (h : s.Canon) {sp} : (c.park s sp).Canon := by
  unfold VCtx.park
  extract_lets u
  have hu : u.Canon := modStrand_canon h
  clear_value u
  refine State.Canon.ite (again_canon h) ?_
  split
  · exact hu
  · split
    · exact grantPool_canon ((refill_canon hu).ok ‹_›)
    · exact h.upd rfl rfl
    · exact faults_canon h

theorem merge_canon (h : s.Canon) {x} : (c.merge s x).Canon := modStrand_canon h

theorem execVjoin_canon (h : s.Canon) {w} : NextCanon (execVjoin w s) := controlWord_canon h fun c => by
  refine State.Canon.ite (passOn_canon h) ?_
  split
  · exact merge_canon h
  · exact park_canon h

theorem completeBlock_canon (h : s.Canon) {sid} : (completeBlock s sid).Canon := by
  unfold completeBlock
  split
  · exact State.Canon.ite (finishBlock_canon h) h
  · exact h

theorem execVend_canon (h : s.Canon) {w} : NextCanon (execVend w s) := controlWord_canon h fun _ => completeBlock_canon (park_canon h)

theorem execVexit_canon (h : s.Canon) {w} : NextCanon (execVexit w s) := controlWord_canon h fun _ => modSplit_canon (passOn_canon h)

theorem rotate_canon (h : s.Canon) {slot} : (rotate s e slot).Canon := by
  unfold rotate
  split
  · refine State.Canon.ite h ?_
    split
    · exact modStrand_canon ((spillTake_canon h).ok ‹_›)
    · exact h.upd rfl rfl
    · exact faultVector_canon h
  · exact h

theorem execVyield_canon (h : s.Canon) {w} : NextCanon (execVyield w s) := controlWord_canon h fun c => by
  extract_lets u
  have hu : u.Canon := modSplit_canon (passOn_canon h)
  clear_value u
  split
  · exact rotate_canon hu
  · exact hu

theorem execSplitRotation_canon (h : s.Canon) {sid slot} : NextCanon (execSplitRotation sid slot s) := by
  unfold execSplitRotation
  refine State.Canon.next ?_
  split
  · extract_lets k
    split
    · exact State.Canon.ite (readyAgain_canon (rotate_canon h)) h
    · exact h
  · exact h

theorem execVtag_canon (h : s.Canon) {w} : NextCanon (execVtag w s) := by
  unfold execVtag
  have hv : NextCanon (vectorWord 0x85 w (fun c s => match c.w.a with
      | .reg i => c.setUniform s (BitVec.ofNat 32 (c.vreg i.val).tag.code)
      | _ => .fault s { code := .illegalInstr }) s) := vectorWord_canon h fun c => by
    split
    · exact setUniform_canon h
    · exact h
  split
  · exact (modSplit_canon (hv _ ‹_›)).next
  · exact hv

/-! ## Returns and stores -/

theorem execBlockComplete_canon (h : s.Canon) {sid} : NextCanon (execBlockComplete sid s) := by
  unfold execBlockComplete
  refine State.Canon.next ?_
  split
  · exact State.Canon.ite (completeBlock_canon h) h
  · exact h

theorem execMemoryReturn_canon (h : s.Canon) {sid k slotFree} : NextCanon (execMemoryReturn sid k slotFree s) := by
  unfold execMemoryReturn
  refine State.Canon.next ?_
  split
  · split
    · exact State.Canon.ite h (State.Canon.ite (modStrand_canon h) (State.Canon.ite (modStrand_canon h) h))
    · exact h
  · exact h

theorem execIntegrityCheckFail_canon (h : s.Canon) {sid k} : NextCanon (execIntegrityCheckFail sid k s) := by
  unfold execIntegrityCheckFail
  refine State.Canon.next ?_
  split
  · split
    · exact State.Canon.ite (raise_canon (dropStores_canon (drain_canon h))) h
    · exact h
  · exact h

theorem execStorePerformed_canon (h : s.Canon) {sid k} : NextCanon (execStorePerformed sid k s) := by
  unfold execStorePerformed
  refine State.Canon.next ?_
  split
  · split
    · exact State.Canon.ite (noteExit_canon (performStore_canon (modStrand_canon h))) h
    · exact h
  · exact h

theorem execWriteApply_canon (h : s.Canon) {die k} : NextCanon (execWriteApply die k s) := by
  unfold execWriteApply
  refine State.Canon.next ?_
  split
  · exact State.Canon.ite (State.Canon.ite (dropWrite_canon h) (h.setMem (MemSys.wf_prune (MemSys.wf_applyMsg h.mem ..)) rfl)) h
  · exact h

theorem execReductionCopyCombine_canon (h : s.Canon) {die line} : NextCanon (execReductionCopyCombine die line s) := by
  unfold execReductionCopyCombine
  refine State.Canon.next ?_
  split
  · exact onLine_canon h fun _ hm => MemSys.wf_combineCopy hm _ _
  · exact h

end
end Sys2Proof.Machine
end

section
/-! Preemption, drains and restores keep the canonical form (17 R328 to R337). -/

namespace Sys2Proof.Machine
open Sys2Proof

section
variable {s : State} {wg : Nat} {l : Launch} {core : CoreId} {p : Parked}

theorem stopIssue_canon (h : s.Canon) {ws} : (stopIssue s ws).Canon := h.foldl fun _ _ hs => hs.modWg fun _ hg => hg

theorem abandonChain_canon (h : s.Canon) {sid slot} : (abandonChain s sid slot).Canon := by
  unfold abandonChain
  split
  · exact h
  · split
    · exact h
    · split
      · exact h
      · exact State.Canon.ite h (modSplit_canon (dropStores_canon h))

theorem discardLoads_canon (h : s.Canon) {sid} : (discardLoads s sid).Canon := by
  unfold discardLoads
  split
  · exact h
  · extract_lets done
    split
    · exact modStrand_canon h
    · exact modStrand_canon (dropStores_canon h)

theorem settleStrand_canon (h : s.Canon) {sid} : (settleStrand s sid).Canon :=
  modStrand_canon (abandonChain_canon (abandonChain_canon (discardLoads_canon h)))

theorem saveOne_canon (h : s.Canon) {addr grouped} : (saveOne s wg addr grouped).1.Canon := by
  unfold saveOne
  split
  · exact h
  · split
    · exact h
    · extract_lets s1 copies bytes s2 s3 s4
      have h1 : s1.Canon := h.foldl fun _ _ hs => settleStrand_canon hs
      have h2 : s2.Canon := performAt_canon h1
      have h3 : s3.Canon := h2.foldl fun _ _ hs => setCopyQ_canon hs
      have h4 : s4.Canon := (releaseGranules_canon h3).modWg fun _ hg => hg
      exact (tell_canon h4).pair _

theorem saveAll_canon (h : s.Canon) {ws addr} : (saveAll s ws addr).1.Canon := by
  unfold saveAll
  extract_lets t r die
  have ht : t.Canon := h.foldl fun _ _ hs => completePhases_canon hs
  have hr : r.1.Canon := foldl_keeps (fun a : State × Nat => a.1.Canon) _ (fun _ _ ha => (saveOne_canon ha).pair _) _ (t, addr) ht
  exact .iteFst h (.iteFst hr h)

theorem execDrain_canon (h : s.Canon) {world cores timeout area} : NextCanon (execDrain world cores timeout area s) :=
  (State.Canon.ite h (h.upd (by rfl) (by rfl))).next

theorem saveVictims_canon : ∀ {fuel d} {s : State}, s.Canon → (saveVictims fuel d s).Canon
  | 0, _, _, h => h
  | fuel + 1, d, s, h => by
    unfold saveVictims
    split
    · exact h
    · extract_lets r d'
      have hr : r.1.Canon := saveAll_canon h
      exact saveVictims_canon (hr.upd (by rfl) (by rfl))

theorem execDrainTimeout_canon (h : s.Canon) {world} : NextCanon (execDrainTimeout world s) := by
  unfold execDrainTimeout
  refine State.Canon.next ?_
  split
  · exact h
  · exact saveVictims_canon (stopIssue_canon h)

theorem execDrainResumption_canon (h : s.Canon) {world} : NextCanon (execDrainResumption world s) :=
  (h.mapWgs (F := fun p => if wgWorld s p.2 = some world then { p.2 with stopping := false } else p.2)
    (fun p hp => by split <;> exact hp) (by rfl) (by rfl)).next

theorem execForcedSave_canon (h : s.Canon) {addr} : NextCanon (execForcedSave wg addr s) := by
  unfold execForcedSave
  refine State.Canon.next ?_
  split
  · exact h
  · extract_lets drained group u r
    have hu : u.Canon := stopIssue_canon h
    have hr : r.1.Canon := saveAll_canon hu
    exact State.Canon.ite h (State.Canon.ite hr hu)

/-! ## Restoring a cocoon -/

theorem strandsFrom_canon (h : s.Canon) {r saved} : (strandsFrom r wg l core saved s).Canon := by
  unfold strandsFrom
  extract_lets pa
  refine foldl_keeps (fun a : State × Nat × Nat => a.1.Canon) _ (fun a i ha => ?_) _ _ h
  extract_lets sid
  split
  · exact ha
  · exact ha.upd rfl rfl

/-- A workgroup's memories are written anew from its cocoon. -/
theorem wgFrom_canon (r : List Byte) (d : LaunchDesc) (n : Nat) (g : Workgroup) : (wgFrom r d n g).Canon :=
  ⟨Mem.wf_write _ _ rfl, Mem.wf_write _ _ rfl⟩

theorem barFrom_canon (h : s.Canon) {r b} : (barFrom r wg s b).Canon := State.Canon.ite h (h.upd (by rfl) (by rfl))

theorem arrivalsFrom_canon (h : s.Canon) {n key b} : (arrivalsFrom n wg key s b).Canon := State.Canon.ite h (h.upd (by rfl) (by rfl))

theorem barsFrom_canon (h : s.Canon) {r g} : (barsFrom r wg g l s).Canon :=
  State.Canon.foldl (State.Canon.foldl (h.foldl fun _ _ hs => barFrom_canon hs) fun _ _ hs => arrivalsFrom_canon hs)
    fun _ _ hs => arrivalsFrom_canon hs

theorem moveRecords_canon (h : s.Canon) {world old new copies} : (moveRecords s world old new copies).Canon := modWorld_canon h

theorem arriveAt_canon (h : s.Canon) {world} : (arriveAt s world core).Canon := (applyAll_canon h).setCaches rfl rfl rfl

theorem serialiseFull_canon (h : s.Canon) {sid} : (serialiseFull core s sid).Canon := by
  unfold serialiseFull
  split
  · exact State.Canon.ite (modStrand_canon h) h
  · exact h

theorem restoreOne_canon (h : s.Canon) : (restoreOne s wg p l core).Canon := by
  unfold restoreOne
  extract_lets old s1 r gs s2 s3 copies s4 s5
  have h1 : s1.Canon := arriveAt_canon (moveRecords_canon h)
  have h2 : s2.Canon := (takeGranules_canon h1).modWg fun g _ => wgFrom_canon r l.desc p.copies.length g
  have h3 : s3.Canon := (strandsFrom_canon h2).foldl fun _ _ hs => serialiseFull_canon hs
  have h4 : s4.Canon := h3.foldl fun _ _ hs => setCopyQ_canon hs
  clear_value s4
  have h5 : s5.Canon := by
    unfold s5
    split
    · exact barsFrom_canon h4
    · exact h4
  exact h5.modWg fun _ hg => hg

theorem restoreOn_canon {part} : ∀ {ws} {s : State}, s.Canon → SomeCanon (restoreOn l part ws s)
  | [], _, h => h.some
  | (w, g) :: rest, s, h => by
    unfold restoreOn
    split
    · exact restoreOn_canon h
    · exact someCanon_none
    · exact restoreOn_canon (restoreOne_canon h)

theorem restoreAll_canon {parts} : ∀ {fuel all} {s : State}, s.Canon → SomeCanon (restoreAll l parts fuel all s)
  | 0, all, s, h => by
    unfold restoreAll
    split
    · exact h.some
    · exact someCanon_none
  | fuel + 1, all, s, h => by
    unfold restoreAll
    extract_lets head
    split
    · exact h.some
    · split
      · exact someCanon_none
      · obtain ⟨part, -, hpart⟩ := List.exists_of_findSome?_eq_some ‹_›
        exact restoreAll_canon (restoreOn_canon h _ hpart)

theorem restoreAt_canon (h : s.Canon) {all} : SomeCanon (restoreAt s l p all core) := restoreAll_canon h

theorem tellCapacity_canon (h : s.Canon) {g all} : (tellCapacity s wg p g l all).Canon := by
  unfold tellCapacity
  split
  · exact h
  · exact (tell_canon (tell_canon h)).modWg fun _ hg => hg

theorem execCocoonRestore_canon (h : s.Canon) : NextCanon (execCocoonRestore wg core s) := by
  unfold execCocoonRestore
  refine State.Canon.next ?_
  split
  · exact h
  · split
    · split
      · exact h
      · extract_lets all
        split
        · exact tell_canon h
        · split
          · exact restoreAt_canon h _ ‹_›
          · exact tellCapacity_canon h
    · exact h

end
end Sys2Proof.Machine
end

section
/-! Collectives, datagrams, gates and the system's words keep the canonical form (09 R260, R261; 15 R299 to R301;
07 R208, R209, R212; 16 R313 to R318). -/

namespace Sys2Proof.Machine
open Sys2Proof

section
variable {s : State} {e : Env} {world ctx : Nat}

/-! ## Collectives -/

theorem acceptColl_canon (h : s.Canon) {cmd} : (acceptColl s e cmd).Canon := by
  unfold acceptColl
  extract_lets u q
  have hu : u.Canon := drain_canon h
  exact (setCollQ_canon hu).modWg fun _ hg => hg

theorem ccolBody_canon (h : s.Canon) {i a b c k op} : (ccolBody i a b c k op e s).Canon := by
  unfold ccolBody
  split
  · exact h
  · extract_lets q
    split
    · exact h
    · exact acceptColl_canon h

theorem execCcol_canon (h : s.Canon) {g a b c k op} : NextCanon (execCcol g a b c k op s) := scalarWord_canon h fun _ => ccolBody_canon h

theorem engineBody_canon (h : s.Canon) {i len body} (hb : engineBody i = some (len, body)) : (body e s).Canon := by
  cases i with
  | cpy | cpyThen => cases hb; exact cpyBody_canon h
  | mma => cases hb; exact mmaBody_canon h
  | mmap => cases hb; exact mmapBody_canon h
  | mzero | mguide => cases hb; exact matIssue_canon h
  | ccol => cases hb; exact ccolBody_canon h
  | _ => cases hb

theorem execEngineWordAccept_canon (h : s.Canon) {sid} : NextCanon (execEngineWordAccept sid s) :=
  (resumeWord_canon h fun e w len body hf => by
    split at hf
    · exact engineBody_canon h hf
    · cases hf).next

theorem collFault_canon (h : s.Canon) {die c f} : (collFault s die c f).Canon := raise_canon h

theorem collAsk_canon (h : s.Canon) {die c va kind} : (collAsk s die c va kind).Canon := ask_canon h

theorem execCollectiveExchange_canon (h : s.Canon) {die others} : NextCanon (execCollectiveExchange die others s) := by
  unfold execCollectiveExchange
  refine State.Canon.next ?_
  split
  · exact h
  · split
    · exact h
    · split
      · exact collFault_canon h
      · extract_lets n
        split
        · exact collAsk_canon h
        · exact collFault_canon h
        · split
          · exact collFault_canon h
          · exact modCollCmd_canon (foldl_keeps (fun a : State × List Byte => a.1.Canon) _ (fun _ _ ha => (readDie_canon ha).pair _) _ _ h)

theorem writeDest_canon (h : s.Canon) {die c bs l} : (writeDest s die c bs l).1.Canon := by
  unfold writeDest
  refine foldl_keeps (fun a : State × List Nat => a.1.Canon) _ (fun a g ha => ?_) _ _ h
  extract_lets part
  split
  · split
    · exact (sendMessage_canon ha).pair _
    · exact ha
  · exact (performAt_canon ha).pair _

theorem execCollectiveComplete_canon (h : s.Canon) {die sources} : NextCanon (execCollectiveComplete die sources s) := by
  unfold execCollectiveComplete
  refine State.Canon.next ?_
  split
  · exact h
  · extract_lets all right bs
    split
    · exact h
    · split
      · exact collAsk_canon h
      · exact collFault_canon h
      · exact settleColls_canon (modCollCmd_canon (writeDest_canon h))

/-! ## Datagrams -/

theorem takeGram_canon (h : s.Canon) : SomeFstCanon (takeGram s) := by
  intro t x ht
  unfold takeGram at ht
  split at ht
  · cases ht
  · have hu := takeInput_canon h _ _ ‹_›
    cases ht
    exact State.Canon.ite (noteGot_canon hu) hu

theorem headGram_canon (h : s.Canon) {kind} : SomeFstCanon (headGram s kind) := by
  intro t x ht
  unfold headGram at ht
  split at ht
  · cases ht
  · have hu := takeGram_canon h _ _ ‹_›
    split at ht
    · obtain ⟨c, -, hc⟩ := Option.map_eq_some_iff.1 ht
      cases hc
      exact hu
    · cases ht

theorem countMalformed_canon (h : s.Canon) {a cipherOk} : (countMalformed s a cipherOk).Canon := by
  unfold countMalformed
  extract_lets onPort
  have hp : (onPort s).Canon := h.upd rfl rfl
  split
  · exact hp
  · exact State.Canon.ite (modCtx_canon h) hp

theorem execMalformedDatagram_canon (h : s.Canon) : NextCanon (execMalformedDatagram s) := by
  unfold execMalformedDatagram
  refine State.Canon.next ?_
  split
  · exact h
  · exact State.Canon.ite h (countMalformed_canon (takeGram_canon h _ _ ‹_›))

theorem arrival_canon (h : s.Canon) {kind f} (hf : ∀ s ctx c g, s.Canon → OkCanon (f s ctx c g)) : (arrival s kind f).Canon := by
  unfold arrival
  split
  · exact h
  · have ht := headGram_canon h _ _ ‹_›
    split
    · exact moveOn_canon (hf _ _ _ _ ht _ ‹_›)
    · exact graphStop_canon h

theorem control_canon (h : s.Canon) {kind f} (hf : ∀ s ctx c g, s.Canon → (f s ctx c g).Canon) : (control s kind f).Canon :=
  arrival_canon h fun _ _ _ _ hs => (hf _ _ _ _ hs).ok

theorem execData_canon (h : s.Canon) : NextCanon (execData s) := (arrival_canon h fun _ _ _ _ hs => takeData_canon hs).next
theorem execParity_canon (h : s.Canon) : NextCanon (execParity s) := (arrival_canon h fun _ _ _ _ hs => takeParity_canon hs).next
theorem execCutPropose_canon (h : s.Canon) : NextCanon (execCutPropose s) := (control_canon h fun _ _ _ _ hs => onPropose_canon hs).next
theorem execCutAck_canon (h : s.Canon) : NextCanon (execCutAck s) := (control_canon h fun _ _ _ _ hs => onAck_canon hs).next
theorem execCutCommit_canon (h : s.Canon) : NextCanon (execCutCommit s) := (control_canon h fun _ _ _ _ hs => onCommit_canon hs).next
theorem execCommitAck_canon (h : s.Canon) : NextCanon (execCommitAck s) := (control_canon h fun _ _ _ _ hs => onCommitAck_canon hs).next
theorem execCutAbort_canon (h : s.Canon) : NextCanon (execCutAbort s) := (control_canon h fun _ _ _ _ hs => onAbort_canon hs).next
theorem execAbortAck_canon (h : s.Canon) : NextCanon (execAbortAck s) := (control_canon h fun _ _ _ _ hs => onAbortAck_canon hs).next
theorem execHandover_canon (h : s.Canon) : NextCanon (execHandover s) := (control_canon h fun _ _ _ _ hs => onHandover_canon hs).next
theorem execHandoverAck_canon (h : s.Canon) : NextCanon (execHandoverAck s) := (control_canon h fun _ _ _ _ hs => onHandoverAck_canon hs).next

theorem execDatagramSend_canon (h : s.Canon) {port} : NextCanon (execDatagramSend port s) := by
  unfold execDatagramSend
  refine State.Canon.next ?_
  split
  · exact h
  · exact modCtx_canon (sendGram_canon (h.upd (by rfl) (by rfl)))

theorem execDatagramExpired_canon (h : s.Canon) {port} : NextCanon (execDatagramExpired port s) := by
  unfold execDatagramExpired
  refine State.Canon.next ?_
  split
  · exact h
  · exact h.upd rfl rfl

/-! ## Gates -/

theorem postGate_canon (h : s.Canon) {server gate x len msg} : (postGate s e server gate x len msg).1.Canon := by
  unfold postGate
  extract_lets t q s1 s2 s3
  have h1 : s1.Canon := h.upd rfl rfl
  have h2 : s2.Canon := writeNow_canon h1
  have h3 : s3.Canon := modWorld_canon h2
  exact (modStrand_canon h3).pair _

theorem execSgate_canon (h : s.Canon) {g d a b len} : NextCanon (execSgate g d a b len s) := scalarWord_canon h fun e => by
  split
  · exact (strandBytes_canon h).error ‹_›
  · have ht := (strandBytes_canon h).ok ‹_›
    extract_lets r u put
    have hr : r.1.Canon := release_canon ht
    split
    · exact hr
    · split
      · exact modStrand_canon hr
      · split
        · exact modStrand_canon hr
        · split
          · exact modStrand_canon hr
          · exact modStrand_canon (postGate_canon hr)

theorem consume_canon (h : s.Canon) {t} : (consume s e t).Canon := h.upd rfl rfl

theorem sgatewBody_canon (h : s.Canon) {d a b} : (sgatewBody d a b e s).Canon := by
  unfold sgatewBody
  extract_lets t put
  split
  · exact modStrand_canon h
  · split
    · exact modStrand_canon (consume_canon h)
    · exact h
    · exact modStrand_canon (consume_canon h)
    · split
      · exact (strandWrite_canon h).error ‹_›
      · exact modStrand_canon (consume_canon ((strandWrite_canon h).ok ‹_›))

theorem execSgatew_canon (h : s.Canon) {g d a b} : NextCanon (execSgatew g d a b s) := scalarWord_canon h fun _ => sgatewBody_canon h

theorem execSgatewReturn_canon (h : s.Canon) {sid} : NextCanon (execSgatewReturn sid s) :=
  (resumeWord_canon h fun e w len body hf => by
    split at hf <;> cases hf
    exact sgatewBody_canon h).next

/-! ## The system's words -/

theorem systemWord_canon (h : s.Canon) {g a body} (hb : ∀ e v, Eff.Canon (body e s v)) : NextCanon (systemWord g a body s) :=
  scalarWord_canon h fun e => by
    split
    · exact hb _ _
    · exact h

theorem execSwrs_canon (h : s.Canon) {g a idx} : NextCanon (execSwrs g a idx s) := systemWord_canon h fun _ _ => h

theorem dropDescs_canon (h : s.Canon) {p} : (dropDescs s world p).Canon := h.upd rfl rfl

theorem drainWorld_canon (h : s.Canon) : (drainWorld s world).Canon := h.foldl fun _ _ hs => by
  split
  · exact State.Canon.ite (drain_canon hs) hs
  · exact hs

theorem execFdtb_canon (h : s.Canon) {g a} : NextCanon (execFdtb g a s) := systemWord_canon h fun e v => by
  extract_lets r u
  have hr : r.1.Canon := release_canon h
  have hu : u.Canon := modWorld_canon (drainWorld_canon hr)
  split
  · exact h
  · split
    · exact hr
    · exact hu

theorem execFdtsync_canon (h : s.Canon) {g a} : NextCanon (execFdtsync g a s) := systemWord_canon h fun e v => by
  extract_lets r
  have hr : r.1.Canon := release_canon h
  split
  · exact h
  · split
    · exact hr
    · exact drainWorld_canon hr

theorem fdtsyncBody_canon (h : s.Canon) {index before} : (fdtsyncBody index before e s).Canon := by
  unfold fdtsyncBody
  extract_lets u
  have hu : u.Canon := drainWorld_canon h
  split
  · exact hu
  · exact dropDescs_canon (publish_canon hu)

theorem execFdtsyncComplete_canon (h : s.Canon) {sid} : NextCanon (execFdtsyncComplete sid s) :=
  (resumeWord_canon h fun e w len body hf => by
    split at hf <;> cases hf
    exact fdtsyncBody_canon h).next

theorem registerGate_canon (h : s.Canon) {server bs} : (registerGate s server bs).Canon := by
  unfold registerGate
  extract_lets client handle gate
  split
  · exact tell_canon h
  · exact State.Canon.ite (tell_canon h) (State.Canon.ite (tell_canon h) (State.Canon.ite (tell_canon h)
      (tell_canon (tell_canon (modWorld_canon (modWorld_canon h))))))

theorem execGatereg_canon (h : s.Canon) {g a} : NextCanon (execGatereg g a s) := systemWord_canon h fun e v => by
  split
  · exact h
  · split
    · exact (strandBytes_canon h).error ‹_›
    · have ht := (strandBytes_canon h).ok ‹_›
      split
      · exact ht
      · exact registerGate_canon ht

theorem closeGate_canon (h : s.Canon) {server gate} : (closeGate s server gate).Canon := by
  unfold closeGate
  split
  · exact h
  · exact State.Canon.foldl (modWorld_canon (modWorld_canon h)) fun _ _ hs => hs.upd rfl rfl

theorem execGateclose_canon (h : s.Canon) {g a} : NextCanon (execGateclose g a s) := systemWord_canon h fun e v => by
  extract_lets n
  split
  · exact h
  · split
    · exact closeGate_canon h
    · split
      · exact closeGate_canon h
      · exact h

theorem replyTicket_canon (h : s.Canon) {server gate t k bs} : (replyTicket s server gate t k bs).Canon := by
  unfold replyTicket
  extract_lets u held
  have hu : u.Canon := modWorld_canon h
  exact State.Canon.ite (hu.upd (by rfl) (by rfl)) (hu.upd (by rfl) (by rfl))

theorem execGatereply_canon (h : s.Canon) {g a} : NextCanon (execGatereply g a s) := systemWord_canon h fun e v => by
  split
  · exact h
  · split
    · exact (strandBytes_canon h).error ‹_›
    · have ht := (strandBytes_canon h).ok ‹_›
      extract_lets r u t gate len pending
      have hr : r.1.Canon := release_canon ht
      split
      · exact hr
      · split
        · exact hr
        · split
          · exact hr
          · exact replyTicket_canon hr

theorem execDebugen_canon (h : s.Canon) {g a} : NextCanon (execDebugen g a s) := systemWord_canon h fun e v => by
  split
  · exact h
  · exact modWorld_canon h

end
end Sys2Proof.Machine
end

section
/-! Faults' resolution, links, worlds, power states and the chain of trust keep the canonical form (18 R338 to R348; 19 R353 to
R368). -/

namespace Sys2Proof.Machine
open Sys2Proof

section
variable {s : State} {world : Nat} {p : RmaPacket}

/-! ## Walks and the resolution of faults -/

theorem leaveFault_canon (h : s.Canon) {w c} : (leaveFault s w c).Canon := by
  unfold leaveFault
  extract_lets f
  split
  · exact modStrand_canon h
  · exact modStrand_canon h
  · exact modCopyCmd_canon h
  · exact modCollCmd_canon h

theorem keepTranslation_canon (h : s.Canon) {w pa log2 u x wr r index} : (keepTranslation s w pa log2 u x wr r index).Canon := by
  unfold keepTranslation
  extract_lets d e
  have hd : d.1.Canon := readDesc_canon h
  exact hd.upd rfl rfl

theorem execPageWalk_canon (h : s.Canon) {die} : NextCanon (execPageWalk die s) := by
  unfold execPageWalk
  extract_lets l
  refine State.Canon.next ?_
  split
  · exact h
  · extract_lets u
    have hu : u.Canon := h.upd rfl rfl
    split
    · exact keepTranslation_canon ((walk_canon hu).fst ‹_›)
    · exact leaveFault_canon ((walk_canon hu).fst ‹_›)

theorem dropRange_canon (h : s.Canon) {i} : (dropRange s i).Canon := h.upd rfl rfl

theorem forgetFaults_canon (h : s.Canon) {i} : (forgetFaults s i).Canon := h.upd rfl rfl

theorem wakeUnit_canon (h : s.Canon) {a} : (wakeUnit s a).Canon := by
  unfold wakeUnit
  split
  · exact moveOn_canon (freeLaunches_canon (advanceAll_canon h))
  · exact h

theorem replayRange_canon (h : s.Canon) {i} : (replayRange s i).Canon := by
  unfold replayRange
  split
  · exact h
  · exact State.Canon.foldl (modWorld_canon h) fun _ _ hs => wakeUnit_canon (wakeAgent_canon hs)

theorem finishInval_canon (h : s.Canon) : (finishInval s).Canon := by
  unfold finishInval
  split
  · exact h
  · extract_lets u
    have hu : u.Canon := replayRange_canon (forgetFaults_canon (dropRange_canon h))
    exact hu.upd rfl rfl

theorem execInvalComplete_canon (h : s.Canon) : NextCanon (execInvalComplete s) := (finishInval_canon h).next

theorem startInval_canon (h : s.Canon) {va log2} : (startInval s world va log2).Canon := by
  unfold startInval
  extract_lets u
  have hu : u.Canon := finishInval_canon h
  exact hu.upd rfl rfl

theorem execInval_canon (h : s.Canon) {va log2} : NextCanon (execInval world va log2 s) := (State.Canon.ite (startInval_canon h) h).next

theorem execInvalall_canon (h : s.Canon) : NextCanon (execInvalall world s) := (startInval_canon h).next

theorem unitReported_canon (h : s.Canon) {r} : (unitReported s r).Canon := by
  unfold unitReported
  split
  · exact wakeUnit_canon (State.Canon.ite h (modCtx_canon h))
  · exact h

theorem release1_canon (h : s.Canon) {seq} : (release1 s world seq).Canon := by
  unfold release1
  extract_lets u t
  have hu : u.Canon := freeRec_canon h
  have ht : t.Canon := sweep_canon (fileHeld_canon hu)
  clear_value t
  split
  · exact unitReported_canon ht
  · exact ht

theorem resolved_canon (h : s.Canon) {seq a} : (resolved s world seq a).Canon := wakeUnit_canon (release1_canon h)

theorem giveUp_canon (h : s.Canon) {r} : (giveUp s r).Canon := by
  unfold giveUp
  split
  · exact modCtx_canon h
  · exact h

theorem execResolveResume_canon (h : s.Canon) {seq} : NextCanon (execResolveResume world seq s) := by
  unfold execResolveResume
  extract_lets u
  have hu : u.Canon := finishInval_canon h
  clear_value u
  refine State.Canon.next ?_
  split
  · exact hu
  · exact State.Canon.ite hu (resolved_canon (State.Canon.ite (wakeAgent_canon hu) hu))

theorem execResolveEnd_canon (h : s.Canon) {seq} : NextCanon (execResolveEnd world seq s) := by
  unfold execResolveEnd
  extract_lets u
  have hu : u.Canon := finishInval_canon h
  clear_value u
  refine State.Canon.next ?_
  split
  · exact hu
  · exact State.Canon.ite hu (resolved_canon (State.Canon.ite (giveUp_canon (sweep_canon (endAgent_canon hu))) hu))

theorem execResolveNext_canon (h : s.Canon) {seq} : NextCanon (execResolveNext world seq s) := by
  unfold execResolveNext
  extract_lets u
  have hu : u.Canon := finishInval_canon h
  clear_value u
  refine State.Canon.next ?_
  split
  · exact hu
  · refine State.Canon.ite hu (release1_canon ?_)
    split
    · exact State.Canon.ite (modStrand_canon (wakeAgent_canon hu)) hu
    · exact hu

theorem execResolveAck_canon (h : s.Canon) {seq} : NextCanon (execResolveAck world seq s) := by
  unfold execResolveAck
  extract_lets u
  have hu : u.Canon := finishInval_canon h
  clear_value u
  refine State.Canon.next ?_
  split
  · exact hu
  · exact State.Canon.ite hu (release1_canon hu)

theorem execQrestart_canon (h : s.Canon) {q} : NextCanon (execQrestart world q s) := by
  unfold execQrestart
  extract_lets u
  have hu : u.Canon := finishInval_canon h
  clear_value u
  refine State.Canon.next ?_
  split
  · extract_lets x
    split
    · exact State.Canon.ite hu ((setCopyQ_canon hu).modWg fun _ hg => hg)
    · exact hu
  · split
    · exact State.Canon.ite (hu.modWg fun _ hg => hg) hu
    · exact hu
  · exact State.Canon.ite (setCollQ_canon hu) hu
  · exact hu
  · exact hu

theorem execWorldTranslationRecord_canon (h : s.Canon) {root queueBase depth} :
    NextCanon (execWorldTranslationRecord world root queueBase depth s) := (State.Canon.ite h (modWorld_canon h)).next

theorem execUnassignedMajor_canon (h : s.Canon) {w} : NextCanon (execUnassignedMajor w s) := by
  unfold execUnassignedMajor
  split
  · split
    · exact (faultScalar_canon h).next
    · exact nextCanon_fault
  · exact nextCanon_fault

theorem execUnassignedVectorOpcode_canon (h : s.Canon) {w} : NextCanon (execUnassignedVectorOpcode w s) := by
  unfold execUnassignedVectorOpcode
  split
  · split
    · split
      · exact (faults_canon h).next
      · exact nextCanon_fault
    · exact nextCanon_fault
  · exact nextCanon_fault

/-! ## Firewalls, windows and regions -/

theorem violate_canon (h : s.Canon) {port} : (violate s port).Canon := h.upd rfl rfl

theorem badCipher_canon (h : s.Canon) {port} : (badCipher s port).Canon := h.upd rfl rfl

theorem execFirewallWindowWrite_canon (h : s.Canon) : NextCanon (execFirewallWindowWrite s) := by
  unfold execFirewallWindowWrite
  refine State.Canon.next ?_
  split
  · exact h
  · exact (takeInput_canon h _ _ ‹_›).upd (by rfl) (by rfl)

theorem execInboundRequest_canon (h : s.Canon) : NextCanon (execInboundRequest s) := by
  unfold execInboundRequest
  refine State.Canon.next ?_
  split
  · exact h
  · have ht := takeInput_canon h _ _ ‹_›
    extract_lets n
    split
    · exact badCipher_canon ht
    · split
      · exact violate_canon ht
      · extract_lets q
        have hq : q.1.Canon := readL2_canon ht
        exact State.Canon.ite (violate_canon ht) (State.Canon.ite (performAt_canon ht) (hq.upd (by rfl) (by rfl)))

theorem writeWindow_canon (h : s.Canon) : (writeWindow s).Canon := by
  unfold writeWindow
  split
  · exact h
  · exact (takeInput_canon h _ _ ‹_›).upd (by rfl) (by rfl)

theorem execRegionEntryWrite_canon (h : s.Canon) : NextCanon (execRegionEntryWrite s) := by
  unfold execRegionEntryWrite
  refine State.Canon.next ?_
  split
  · exact writeWindow_canon h
  · have ht := takeInput_canon h _ _ ‹_›
    exact State.Canon.ite (ht.upd (by rfl) (by rfl)) ht

theorem settleKey_canon (h : s.Canon) {k} : (settleKey s k).Canon := by
  unfold settleKey
  split
  · exact State.Canon.ite (h.upd (by rfl) (by rfl)) h
  · exact h

theorem execKeyRevocation_canon (h : s.Canon) {handle} : NextCanon (execKeyRevocation handle s) := by
  unfold execKeyRevocation
  refine (settleKey_canon ?_).next
  split
  · exact State.Canon.ite (h.upd (by rfl) (by rfl)) h
  · exact h

/-! ## Messages of the fabric -/

theorem execRmaAcknowledgement_canon (h : s.Canon) : NextCanon (execRmaAcknowledgement s) := by
  unfold execRmaAcknowledgement
  refine State.Canon.next ?_
  split
  · exact h
  · have ht := takeInput_canon h _ _ ‹_›
    extract_lets u
    have hu : u.Canon := noteGot_canon ht
    clear_value u
    split
    · exact badCipher_canon ht
    · split
      · exact hu
      · split
        · exact tell_canon (finishOut_canon hu)
        · exact settleOut_canon (hu.upd (by rfl) (by rfl))

theorem execRmaResend_canon (h : s.Canon) {message} : NextCanon (execRmaResend message s) := by
  unfold execRmaResend
  refine State.Canon.next ?_
  split
  · exact h
  · exact State.Canon.ite h (State.Canon.ite (tell_canon (finishOut_canon h)) (noteSent_canon (h.upd (by rfl) (by rfl))))

theorem fire_canon (h : s.Canon) {t} : (fire s t).Canon := newMessage_canon h

theorem fireDue_canon (h : s.Canon) : (fireDue s).Canon := State.Canon.foldl (h.upd (by rfl) (by rfl)) fun _ _ hs => fire_canon hs

theorem execTriggeredRequestPost_canon (h : s.Canon) : NextCanon (execTriggeredRequestPost s) := by
  unfold execTriggeredRequestPost
  refine State.Canon.next ?_
  split
  · exact h
  · have ht := takeInput_canon h _ _ ‹_›
    exact State.Canon.ite ht (fireDue_canon (ht.upd (by rfl) (by rfl)))

theorem countArrival_canon (h : s.Canon) {c} : (countArrival s c).Canon := by
  unfold countArrival
  split
  · exact State.Canon.ite h (fireDue_canon (h.upd (by rfl) (by rfl)))
  · exact h

theorem answer_canon (h : s.Canon) {got refused data} : (answer s p got refused data).Canon := noteSent_canon (h.upd (by rfl) (by rfl))

theorem modIn_canon (h : s.Canon) {f} : (modIn s p f).Canon := h.upd rfl rfl

theorem noteFirst_canon (h : s.Canon) : (noteFirst s p).Canon := State.Canon.ite h (h.upd (by rfl) (by rfl))

theorem refusePacket_canon (h : s.Canon) : (refusePacket s p).Canon := by
  unfold refusePacket
  extract_lets u
  have hu : u.Canon := modIn_canon (answer_canon (noteFirst_canon h))
  clear_value u
  split
  · exact tell_canon hu
  · exact hu

theorem placesOf_canon (h : s.Canon) {r} : (placesOf s p r).1.Canon := by
  unfold placesOf
  extract_lets va
  refine foldl_keeps (fun a : State × Option (List (Nat × Nat × Nat)) => a.1.Canon) _ (fun a g ha => ?_) _ _ h
  split
  · exact ha
  · split
    · exact (translateNow_canon ha).fst ‹_›
    · have ht := (translateNow_canon ha).fst ‹_›
      exact .iteFst ht ht

theorem effectAt_canon (h : s.Canon) {w l} : (effectAt s w p l).1.Canon := by
  unfold effectAt
  extract_lets d
  split
  · exact (h.foldl fun _ _ hs => performAt_canon hs).pair _
  · exact (h.foldl fun _ _ hs => performAt_canon (homeLine_canon hs)).pair _
  · exact foldl_keeps (fun a : State × List Byte => a.1.Canon) _ (fun _ _ ha => (readL2_canon ha).pair _) _ _ h

theorem placePacket_canon (h : s.Canon) {r} : (placePacket s p r).1.Canon := by
  unfold placePacket
  split
  · exact (placesOf_canon h).fst ‹_›
  · have ht := (placesOf_canon h).fst ‹_›
    split
    · exact (violate_canon ht).pair _
    · exact (answer_canon (modIn_canon (effectAt_canon ht))).pair _

theorem holdPacket_canon (h : s.Canon) : (holdPacket s p).Canon := State.Canon.ite h (h.upd (by rfl) (by rfl))

theorem placeTurn_canon (h : s.Canon) {r before packets counter} : (placeTurn s p r before packets counter).1.Canon := by
  unfold placeTurn
  extract_lets q
  have hq : q.1.Canon := placePacket_canon h
  exact .iteFst (holdPacket_canon h) (.iteFst (countArrival_canon hq) hq)

theorem takePacket_canon (h : s.Canon) : (takePacket s p).1.Canon := by
  unfold takePacket
  split
  · exact .iteFst (answer_canon h) (.iteFst (answer_canon h) (.iteFst (refusePacket_canon h) (placeTurn_canon h)))
  · exact .iteFst (refusePacket_canon h) (placeTurn_canon (noteFirst_canon h))
  · exact refusePacket_canon h

theorem takePackets_canon : ∀ {fuel} {s : State} {p}, s.Canon → (takePackets fuel s p).Canon
  | 0, _, _, h => takePacket_canon h
  | fuel + 1, s, p, h => by
    unfold takePackets
    extract_lets q next src rma u
    have hq : q.1.Canon := takePacket_canon h
    have hu : u.Canon := hq.upd rfl rfl
    exact State.Canon.ite hq (hu.foldl fun _ _ hs => takePackets_canon hs)

theorem execRmaPacketArrival_canon (h : s.Canon) : NextCanon (execRmaPacketArrival s) := by
  unfold execRmaPacketArrival
  refine State.Canon.next ?_
  split
  · exact h
  · have ht := takeInput_canon h _ _ ‹_›
    exact State.Canon.ite (badCipher_canon ht) (settleKey_canon (takePackets_canon (noteGot_canon ht)))

theorem execFabricRekey_canon (h : s.Canon) {link} : NextCanon (execFabricRekey link s) := (State.Canon.ite h (h.upd (by rfl) (by rfl))).next

/-! ## Worlds -/

theorem closeGates_canon (h : s.Canon) : (closeGates s world).Canon := by
  unfold closeGates
  split
  · exact h
  · exact State.Canon.foldl (h.foldl fun _ _ hs => closeGate_canon hs) fun _ _ hs => closeGate_canon hs

/-- A scrub takes bytes out of the home memory and out of every view. -/
theorem scrubFrames_canon (h : s.Canon) {frames bad} : (scrubFrames s frames bad).Canon := by
  refine h.setMem ((MemSys.wf_iff _).2 ⟨Mem.wf_filter _ (MemSys.wf_home h.mem), fun d => ?_⟩) rfl
  have hv := Mem.wf_filter (fun c => !inFrames frames c.1) (MemSys.wf_view h.mem d)
  simpa [scrubFrames, vmap, MemSys.view] using hv

theorem dropTagged_canon (h : s.Canon) : (dropTagged s world).Canon := by
  unfold dropTagged
  extract_lets u
  have hu : u.Canon := h.foldl fun _ _ hs => onLine_canon hs fun _ hm => MemSys.wf_combineCopy hm _ _
  exact hu.setCaches rfl rfl rfl

theorem execWorldReleaseScrub_canon (h : s.Canon) {bad} : NextCanon (execWorldReleaseScrub world bad s) := by
  unfold execWorldReleaseScrub
  refine State.Canon.next ?_
  split
  · exact h
  · split
    · exact h
    · extract_lets s1 frames bad' old bytes s2 xlat s3
      have h1 : s1.Canon := publish_canon (dropTagged_canon (closeGates_canon h))
      have h2 : s2.Canon := scrubFrames_canon h1
      clear_value s2
      have h3 : s3.Canon := h2.upd rfl rfl
      exact modWorld_canon h3

theorem extendMr_canon (h : s.Canon) {i digest} : (extendMr s i digest).Canon := h.upd rfl rfl

theorem execWorldCreate_canon (h : s.Canon) : NextCanon (execWorldCreate s) := by
  unfold execWorldCreate
  refine State.Canon.next ?_
  split
  · exact h
  · have ht := takeInput_canon h _ _ ‹_›
    exact State.Canon.ite ht (ht.upd (by rfl) (by rfl))

/-! ## Power states -/

theorem modPower_canon (h : s.Canon) {f} : (s.modPower f).Canon := h.upd rfl rfl

theorem modTrust_canon (h : s.Canon) {f} : (s.modTrust f).Canon := h.upd rfl rfl

/-- The views of a die that sleeps are what the home memory holds. -/
theorem sleepCaches_canon (h : s.Canon) {p} : (sleepCaches s p).Canon := by
  unfold sleepCaches
  extract_lets cores l2
  have hcores {s : State} (h : s.Canon) : (cores s).Canon := h.setCaches rfl rfl rfl
  have hl2 {s : State} (h : s.Canon) : (l2 s).Canon := by
    unfold l2
    extract_lets u v
    have hu : u.Canon := h.foldl fun _ _ hs => onLine_canon hs fun _ hm => MemSys.wf_combineLine hm _ _
    have hv : v.Canon := publish_canon hu
    clear_value v
    have hh : v.mem.home.wf = true := MemSys.wf_home hv.mem
    exact hv.setMem ((MemSys.wf_iff _).2 ⟨hh, fun d => by simpa using hh⟩) rfl
  clear_value cores l2
  split
  · exact h
  · exact h
  · exact hcores h
  · exact hl2 (hcores h)
  · exact hl2 (hcores h)

theorem execPowerStateEntry_canon (h : s.Canon) : NextCanon (execPowerStateEntry s) := by
  unfold execPowerStateEntry
  extract_lets u p
  have hu : u.Canon := by
    unfold u
    split
    · exact modPower_canon (takeInput_canon h _ _ ‹_›)
    · exact h
  exact (State.Canon.ite h (State.Canon.ite hu (modPower_canon (sleepCaches_canon hu)))).next

theorem execPowerStateExit_canon (h : s.Canon) : NextCanon (execPowerStateExit s) := by
  unfold execPowerStateExit
  refine State.Canon.next ?_
  split
  · exact h
  · extract_lets u
    have hu : u.Canon := State.Canon.ite (h.upd (by rfl) (by rfl)) h
    exact State.Canon.ite hu (State.Canon.ite hu (State.Canon.ite (modPower_canon hu) h))

theorem execPowerExitComplete_canon (h : s.Canon) : NextCanon (execPowerExitComplete s) := by
  unfold execPowerExitComplete
  refine State.Canon.next ?_
  split
  · exact h
  · exact State.Canon.ite (modPower_canon h) h

theorem execHardPartitionChange_canon (h : s.Canon) : NextCanon (execHardPartitionChange s) := by
  unfold execHardPartitionChange
  refine State.Canon.next ?_
  split
  · extract_lets u hub
    have hu : u.Canon := h.upd rfl rfl
    exact State.Canon.ite hu (extendMr_canon (hu.upd (by rfl) (by rfl)))
  · exact h

theorem execSpareBringIn_canon (h : s.Canon) {unit} : NextCanon (execSpareBringIn unit s) := (State.Canon.ite h (h.upd (by rfl) (by rfl))).next

/-! ## The chain of trust -/

theorem runBundle_canon (h : s.Canon) {slot b} : (runBundle s slot b).Canon := by
  unfold runBundle
  extract_lets u
  have hu : u.Canon := extendMr_canon (extendMr_canon (extendMr_canon h))
  exact modTrust_canon hu

theorem bundleStage_canon (h : s.Canon) {key} : (bundleStage s key).Canon := by
  unfold bundleStage
  extract_lets try' a
  split
  · exact runBundle_canon h
  · exact runBundle_canon h
  · exact modTrust_canon h

theorem execBoot_canon (h : s.Canon) : NextCanon (execBoot s) := by
  unfold execBoot
  refine State.Canon.next ?_
  split
  · exact h
  · have ht := takeInput_canon h _ _ ‹_›
    extract_lets hub s1 ok s2 s3 s4
    have h1 : s1.Canon := extendMr_canon (ht.upd (by rfl) (by rfl))
    have h4 : s4.Canon := extendMr_canon (extendMr_canon (extendMr_canon h1))
    exact State.Canon.ite ht (State.Canon.ite (modTrust_canon h1) (bundleStage_canon h4))

theorem execGetMeasurements_canon (h : s.Canon) : NextCanon (execGetMeasurements s) := by
  unfold execGetMeasurements
  refine State.Canon.next ?_
  split
  · exact h
  · have ht := takeInput_canon h _ _ ‹_›
    exact State.Canon.ite ht (modTrust_canon ht)

/-- A restart leaves memory as reset does. -/
theorem restart_canon {active} : (restart s active).Canon :=
  ((State.canon_iff _).2 reset_memWf).setCaches rfl rfl rfl

theorem execBundleUpdate_canon (h : s.Canon) : NextCanon (execBundleUpdate s) := by
  unfold execBundleUpdate
  refine State.Canon.next ?_
  split
  · exact h
  · exact State.Canon.ite (takeInput_canon h _ _ ‹_›) restart_canon

theorem execBundleWatchdog_canon (h : s.Canon) : NextCanon (execBundleWatchdog s) := by
  unfold execBundleWatchdog
  refine State.Canon.next ?_
  split
  · exact h
  · exact State.Canon.ite restart_canon h

theorem execRemoteAttestation_canon (h : s.Canon) : NextCanon (execRemoteAttestation s) := by
  unfold execRemoteAttestation
  refine State.Canon.next ?_
  split
  · exact h
  · exact State.Canon.ite h (modTrust_canon h)

theorem execDebugLockOpen_canon (h : s.Canon) : NextCanon (execDebugLockOpen s) := by
  unfold execDebugLockOpen
  refine State.Canon.next ?_
  split
  · exact h
  · have ht := takeInput_canon h _ _ ‹_›
    exact State.Canon.ite ht (modTrust_canon (extendMr_canon ht))

theorem execCrashDump_canon (h : s.Canon) {buffer} : NextCanon (execCrashDump buffer s) := State.Canon.next (h.upd (by rfl) (by rfl))

end
end Sys2Proof.Machine
end

section
/-! Every step keeps every memory in its canonical form (03 R71, R72; log 1): one arm per instruction and event, then the fetch, the turn and
the step. -/

namespace Sys2Proof.Machine
open Sys2Proof

section
variable {s : State}

/-- A word that gives each lane a value of its own. -/
theorem lanewiseWord_canon (h : s.Canon) {op w} {f : VCtx → State → Lane → Nat} :
    NextCanon (vectorWord op w (fun c s => c.lanewise s (f c s)) s) := vectorWord_canon h fun _ => lanewise_canon h

theorem maskWord_canon (h : s.Canon) {op w f} : NextCanon (maskWord op w f s) := vectorWord_canon h fun _ => setMask_canon h

theorem voteWord_canon (h : s.Canon) {op w f} : NextCanon (voteWord op w f s) := vectorWord_canon h fun _ => setSlotOrV_canon h

theorem exec_canon (h : s.Canon) (i : Instr) : NextCanon (exec i s) := by
  unfold exec
  cases i with
  | snop => exact execSnop_canon h
  | sbrk => exact execSbrk_canon h
  | syield => exact execSyield_canon h
  | sexit => exact execSexit_canon h
  | sfence => exact execSfence_canon h
  | sadd | ssub | smul | smulh | smulhw | sdivw | sremw | sand | sor | sxor | sshl | sshr | ssra | smin | smax | sminw | smaxw =>
    exact aluWord_canon h
  | ssel => exact execSsel_canon h
  | sclz | spopc | saddi | sandi | sori | sxori | sshli | sshri | ssrai => exact unaryWord_canon h
  | sli | slih => exact literalWord_canon h
  | ssetp | spand | spor | spxor | spnot | spmov => exact predWord_canon h
  | sld => exact execSld_canon h
  | sldx => exact execSldx_canon h
  | sst => exact execSst_canon h
  | slda => exact execSlda_canon h
  | sstl => exact execSstl_canon h
  | satom => exact execSatom_canon h
  | sbr => exact execSbr_canon h
  | scall => exact execScall_canon h
  | sjr => exact execSjr_canon h
  | sjalr => exact execSjalr_canon h
  | sret => exact execSret_canon h
  | slq => exact execSlq_canon h
  | slwait => exact execSlwait_canon h
  | sgetr => exact execSgetr_canon h
  | sbar => exact execSbar_canon h
  | sbara => exact execSbara_canon h
  | slinit => exact execSlinit_canon h
  | slexp => exact execSlexp_canon h
  | slwt => exact execSlwt_canon h
  | slgen => exact execSlgen_canon h
  | smon => exact execSmon_canon h
  | smwait => exact execSmwait_canon h
  | smdis => exact execSmdis_canon h
  | stlwait => exact execStlwait_canon h
  | stlthr => exact execStlthr_canon h
  | stlrd => exact execStlrd_canon h
  | slaunch => exact execSlaunch_canon h
  | scancel => exact execScancel_canon h
  | scnt => exact execScnt_canon h
  | cpy => exact execCpy_canon h
  | cpyThen => exact execCpyThen_canon h
  | cpyset => exact execCpyset_canon h
  | mma => exact execMma_canon h
  | mmap => exact execMmap_canon h
  | mzero => exact execMzero_canon h
  | mguide => exact execMguide_canon h
  | ccol => exact execCcol_canon h
  | gemit => exact execGemit_canon h
  | gclose => exact execGclose_canon h
  | gcut => exact execGcut_canon h
  | gstat => exact execGstat_canon h
  | sgate => exact execSgate_canon h
  | sgatew => exact execSgatew_canon h
  | strap => exact execStrap_canon h
  | srds => exact execSrds_canon h
  | swrs => exact execSwrs_canon h
  | fdtb => exact execFdtb_canon h
  | fdtsync => exact execFdtsync_canon h
  | gatereg => exact execGatereg_canon h
  | gateclose => exact execGateclose_canon h
  | gatereply => exact execGatereply_canon h
  | debugen => exact execDebugen_canon h
  | picins => exact execPicins_canon h
  | vnop => exact vectorWord_canon h fun _ => h
  | vadd | vsub | vmul | vmulh | vmad | vmin | vmax | vabs | vand | vor | vxor | vnot | vshl | vshr | vsra | vclz | vpopc | vbfe | vmov | vfadd
    | vfsub | vfmul | vfma | vfmin | vfmax | vfrcp | vfrsq | vfsqrt | vfexp2 | vflog2 | vfsin | vfcos | vfdiv | vcvt | vunpk | vdq | vshfl | vscan
    | vqswap =>
    exact lanewiseWord_canon h
  | vbfi | vsel | vpack | vqnq4 => exact vectorWord_canon h fun _ => setV_canon h
  | vidx => exact vectorWord_canon h fun _ => putReg_canon h
  | vsetm => exact vectorWord_canon h fun _ => setMask_canon h
  | vmand | vmor | vmxor | vmnot => exact maskWord_canon h
  | vballot | vany | vall => exact voteWord_canon h
  | vbcast => exact vectorWord_canon h fun _ => setUniform_canon h
  | vredx => exact vectorWord_canon h fun _ => setSlotOrV_canon h
  | vld => exact execVld_canon h
  | vst => exact execVst_canon h
  | vlds => exact execVlds_canon h
  | vsts => exact execVsts_canon h
  | vldf => exact execVldf_canon h
  | vatom => exact execVatom_canon h
  | vred => exact execVred_canon h
  | vpicot => exact execVpicot_canon h
  | vlda => exact execVlda_canon h
  | vstl => exact execVstl_canon h
  | vsample => exact execVsample_canon h
  | vaccrd => exact execVaccrd_canon h
  | vaccwr => exact execVaccwr_canon h
  | vaccscl => exact execVaccscl_canon h
  | vbr => exact execVbr_canon h
  | vjoin => exact execVjoin_canon h
  | vend => exact execVend_canon h
  | vexit => exact execVexit_canon h
  | vyield => exact execVyield_canon h
  | vtag => exact execVtag_canon h
  | vinterp => exact execVinterp_canon h
  | vderiv => exact execVderiv_canon h
  | vfragout => exact execVfragout_canon h
  | vdiscard => exact execVdiscard_canon h
  | vrec => exact execVrec_canon h
  | vemit => exact execVemit_canon h
  | picotInvocation => exact execPicotInvocation_canon h
  | blockComplete => exact execBlockComplete_canon h
  | laneQueueEnqueue => exact execLaneQueueEnqueue_canon h
  | slwaitReturn => exact execSlwaitReturn_canon h
  | barrierPhaseComplete => exact execBarrierPhaseComplete_canon h
  | slwtReturn => exact execSlwtReturn_canon h
  | smwaitWake => exact execSmwaitWake_canon h
  | smwaitTimeout => exact execSmwaitTimeout_canon h
  | stlwaitReturn => exact execStlwaitReturn_canon h
  | stlthrReturn => exact execStlthrReturn_canon h
  | slaunchReturn => exact execSlaunchReturn_canon h
  | sgatewReturn => exact execSgatewReturn_canon h
  | strandPromotion => exact execStrandPromotion_canon h
  | splitRotation => exact execSplitRotation_canon h
  | memoryReturn => exact execMemoryReturn_canon h
  | storePerformed => exact execStorePerformed_canon h
  | integrityCheckFail => exact execIntegrityCheckFail_canon h
  | writeApply => exact execWriteApply_canon h
  | reductionCopyCombine => exact execReductionCopyCombine_canon h
  | engineWordAccept => exact execEngineWordAccept_canon h
  | copyChunk => exact execCopyChunk_canon h
  | mmapDecision => exact execMmapDecision_canon h
  | matrixWordStart => exact execMatrixWordStart_canon h
  | matrixRowPop => exact execMatrixRowPop_canon h
  | matrixWordComplete => exact execMatrixWordComplete_canon h
  | matrixWordEnded => exact execMatrixWordEnded_canon h
  | collectiveExchange => exact execCollectiveExchange_canon h
  | collectiveComplete => exact execCollectiveComplete_canon h
  | instanceComplete => exact execInstanceComplete_canon h
  | instanceSettle => exact execInstanceSettle_canon h
  | granuleZeroingDone => exact execGranuleZeroingDone_canon h
  | workgroupPlacement => exact execWorkgroupPlacement_canon h
  | watchdog => exact execWatchdog_canon h
  | drain => exact execDrain_canon h
  | drainTimeout => exact execDrainTimeout_canon h
  | forcedSave => exact execForcedSave_canon h
  | cocoonRestore => exact execCocoonRestore_canon h
  | pageWalk => exact execPageWalk_canon h
  | inval => exact execInval_canon h
  | invalall => exact execInvalall_canon h
  | qrestart => exact execQrestart_canon h
  | resolveResume => exact execResolveResume_canon h
  | resolveEnd => exact execResolveEnd_canon h
  | resolveNext => exact execResolveNext_canon h
  | resolveAck => exact execResolveAck_canon h
  | worldPartitionWrite => exact execWorldPartitionWrite_canon h
  | worldTranslationRecord => exact execWorldTranslationRecord_canon h
  | worldReleaseScrub => exact execWorldReleaseScrub_canon h
  | frameStart => exact execFrameStart_canon h
  | nodeFrameDeadline => exact execNodeFrameDeadline_canon h
  | edgeDeadline => exact execEdgeDeadline_canon h
  | datagramSend => exact execDatagramSend_canon h
  | datagramExpired => exact execDatagramExpired_canon h
  | controlResend => exact execControlResend_canon h
  | failed => exact execFailed_canon h
  | fragmentMerge => exact execFragmentMerge_canon h
  | rmaResend => exact execRmaResend_canon h
  | keyRevocation => exact execKeyRevocation_canon h
  | fabricRekey => exact execFabricRekey_canon h
  | crashDump => exact execCrashDump_canon h
  | spareBringIn => exact execSpareBringIn_canon h
  | unassignedMajor => exact execUnassignedMajor_canon h
  | unassignedVectorOpcode => exact execUnassignedVectorOpcode_canon h
  | drainResumption => exact execDrainResumption_canon h
  | ptpSync => exact execPtpSync_canon h
  | picinsComplete => exact execPicinsComplete_canon h
  | fdtsyncComplete => exact execFdtsyncComplete_canon h
  | invalComplete => exact execInvalComplete_canon h
  | data => exact execData_canon h
  | parity => exact execParity_canon h
  | malformedDatagram => exact execMalformedDatagram_canon h
  | cutPropose => exact execCutPropose_canon h
  | cutAck => exact execCutAck_canon h
  | cutCommit => exact execCutCommit_canon h
  | commitAck => exact execCommitAck_canon h
  | cutAbort => exact execCutAbort_canon h
  | abortAck => exact execAbortAck_canon h
  | handover => exact execHandover_canon h
  | handoverAck => exact execHandoverAck_canon h
  | rmaPacketArrival => exact execRmaPacketArrival_canon h
  | rmaAcknowledgement => exact execRmaAcknowledgement_canon h
  | triggeredRequestPost => exact execTriggeredRequestPost_canon h
  | regionEntryWrite => exact execRegionEntryWrite_canon h
  | firewallWindowWrite => exact execFirewallWindowWrite_canon h
  | inboundRequest => exact execInboundRequest_canon h
  | boot => exact execBoot_canon h
  | getMeasurements => exact execGetMeasurements_canon h
  | bundleUpdate => exact execBundleUpdate_canon h
  | bundleWatchdog => exact execBundleWatchdog_canon h
  | remoteAttestation => exact execRemoteAttestation_canon h
  | debugLockOpen => exact execDebugLockOpen_canon h
  | powerStateEntry => exact execPowerStateEntry_canon h
  | powerStateExit => exact execPowerStateExit_canon h
  | powerExitComplete => exact execPowerExitComplete_canon h
  | hardPartitionChange => exact execHardPartitionChange_canon h
  | launchSubmission => exact execLaunchSubmission_canon h
  | queueCreate => exact execQueueCreate_canon h
  | contextCreate => exact execContextCreate_canon h
  | jobClose => exact execJobClose_canon h
  | contextDestroy => exact execContextDestroy_canon h
  | queueDestroy => exact execQueueDestroy_canon h
  | worldCreate => exact execWorldCreate_canon h

theorem turn_canon (h : s.Canon) {x} : NextCanon (turn x s) := by
  intro v hv
  obtain ⟨i, u, hexec, hu⟩ | ⟨sid, -, hf⟩ | ⟨sid, slot, -, hf⟩ := turn_cases hv
  · refine exec_canon ?_ i v hexec
    obtain ⟨-, rfl⟩ | ⟨sid, q, -, hf, rfl⟩ | ⟨sid, slot, q, -, hf, rfl⟩ := hu
    · exact h
    · exact State.Canon.upd (hf ▸ fetchScalar_canon h : (Fetched.run q i).Canon) rfl rfl
    · exact State.Canon.upd (hf ▸ fetchVector_canon h : (Fetched.run q i).Canon) rfl rfl
  · exact (hf ▸ fetchScalar_canon h : (Fetched.halt v).Canon)
  · exact (hf ▸ fetchVector_canon h : (Fetched.halt v).Canon)

theorem tick_canon (h : s.Canon) : (tick s).Canon := h.upd (tick_mem s) (tick_wgs s)

theorem step_canon (h : s.Canon) : NextCanon (step s) := by
  intro t ht
  obtain ⟨x, rest, v, -, hv, rfl⟩ | ⟨x, v, -, -, hv, rfl⟩ | ⟨-, -, rfl⟩ := step_cases ht
  · have hs : State.Canon { s with agenda := rest, cur := none } := h.upd rfl rfl
    exact tick_canon (turn_canon hs v hv)
  · have hs : State.Canon { s with cur := none } := h.upd rfl rfl
    exact tick_canon (turn_canon hs v hv)
  · exact tick_canon h

end

/-- Settles O7: the canonical form is kept by each instruction and event, by what a fetch does, and by the passing of time. -/
theorem memoryCanonical : Obligations.MemoryCanonical :=
  ⟨reset_memWf, fun s t h hstep => (State.canon_iff t).1 (step_canon ((State.canon_iff s).2 h) t hstep)⟩

end Sys2Proof.Machine
end

section
/-! A buffered store leaves its buffer (04 R91, R95, R101, R114, R115; 07 R190), settled. -/

namespace Sys2Proof.Machine
open Sys2Proof

/-! ## A write within one line -/

theorem Mem.writeCells_cellsAt (m : Mem) (a : Nat) (bs : List Byte) : m.writeCells (cellsAt a bs) = m.write a bs := by
  induction bs generalizing m a with
  | nil => rfl
  | cons b t ih => exact ih (m.set a b) (a + 1)

theorem State.segs_oneLine {pa n : Nat} (hn : n ≠ 0) (h : pa / 128 = (pa + n - 1) / 128) : State.segs pa n = [(lineOf pa, pa, n)] := by
  have hk : min n (128 - pa % 128) = n := by omega
  simp [State.segs, State.segments, hn, hk]

@[simp] theorem State.noteWrite_mem (s : State) (line : Nat) : (s.noteWrite line).mem = s.mem := rfl

@[simp] theorem State.onLine_mem (s : State) (line : Nat) (f : MemSys → MemSys) : (s.onLine line f).mem = f s.mem := by
  unfold State.onLine
  extract_lets m
  split <;> rfl

/-- Copies of the line are combined first, then the bytes take their place in home order (04 R101). -/
theorem State.performAt_mem_oneLine (s : State) (d : Fin 4) (w : Nat) {pa : Nat} {bs : List Byte} (hb : bs ≠ [])
    (h : pa / 128 = (pa + bs.length - 1) / 128) : (s.performAt d w pa bs).mem =
      ((s.mem.combineLine s.parts (lineOf pa)).l2Own d w (lineOf pa)).perform d (lineOf pa) (cellsAt pa bs) false := by
  simp [State.performAt, State.segs_oneLine (mt List.length_eq_zero_iff.1 hb) h]

/-- What stands in global memory once bytes of one line are written there by die `d`: they are at the home and in the die's view,
the home's other bytes are those of `m`. -/
structure MemSys.WroteBytes (k m : MemSys) (d : Fin 4) (pa : Nat) (bs : List Byte) : Prop where
  home : k.home.read pa bs.length = bs
  view : (k.view d).read pa bs.length = bs
  others : ∀ i, i < pa ∨ pa + bs.length ≤ i → k.home.get i = m.home.get i

theorem MemSys.perform_wroteBytes {m : MemSys} (h : m.wf = true) (d : Fin 4) (line pa : Nat) (bs : List Byte) (red : Bool) :
    (m.perform d line (cellsAt pa bs) red).WroteBytes m d pa bs := by
  have hh : (m.perform d line (cellsAt pa bs) red).home = m.home.write pa bs := Mem.writeCells_cellsAt ..
  refine ⟨?_, ?_, fun i hi => ?_⟩
  · rw [hh, Mem.read_write (wf_home h)]
  · rw [perform_view, Mem.writeCells_cellsAt, Mem.read_write (wf_view h d)]
  · rw [hh, Mem.get_write_other (wf_home h) pa bs hi]

/-! ## What performing a store does to strands -/

/-- Every strand that was there is still there, with at most its watch changed (03 R82). -/
def KeepsStrands (s t : State) : Prop :=
  ∀ sid st, s.strands.get? sid = some st → ∃ w, t.strands.get? sid = some { st with watch := w }

namespace KeepsStrands

theorem of_eq {s t : State} (h : t.strands = s.strands) : KeepsStrands s t := fun _ st hs => ⟨st.watch, h ▸ hs⟩

theorem trans {s t u : State} (h : KeepsStrands s t) (k : KeepsStrands t u) : KeepsStrands s u := fun sid st hs => by
  obtain ⟨w, hw⟩ := h sid st hs
  obtain ⟨v, hv⟩ := k sid _ hw
  exact ⟨v, hv⟩

end KeepsStrands

/-- A watch sees a write of its own line. -/
def Watch.sees (line : Nat) (w : Watch) : Watch := if w.line = line then { w with wrote := true } else w

def Strand.sees (line : Nat) (st : Strand) : Strand := { st with watch := st.watch.map (Watch.sees line) }

theorem Strand.sees_same {line : Nat} {st : Strand} (h : st.watch.map (Watch.sees line) = st.watch) : st.sees line = st :=
  congrArg (fun w => { st with watch := w }) h

theorem State.noteWrite_strands (s : State) (line : Nat) : (s.noteWrite line).strands = s.strands.map fun p => (p.1, p.2.sees line) := by
  refine List.map_congr_left fun p _ => Prod.ext rfl ?_
  dsimp only
  split
  next w hw =>
    split
    next hl => simp [Strand.sees, Watch.sees, hw, hl]
    next hl => exact (Strand.sees_same (by simp [Watch.sees, hw, hl])).symm
  next hw => exact (Strand.sees_same (by simp [hw])).symm

theorem State.noteWrite_keepsStrands (s : State) (line : Nat) : KeepsStrands s (s.noteWrite line) := fun sid st hs => by
  rw [State.noteWrite_strands, Assoc.get?_map s.strands (fun _ st => st.sees line), hs]
  exact ⟨_, rfl⟩

theorem State.onLine_keepsStrands (s : State) (line : Nat) (f : MemSys → MemSys) : KeepsStrands s (s.onLine line f) := by
  unfold State.onLine
  extract_lets m
  split
  · exact (KeepsStrands.of_eq rfl).trans (State.noteWrite_keepsStrands _ line)
  · exact .of_eq rfl

theorem State.performAt_keepsStrands (s : State) (d : Fin 4) (w pa : Nat) (bs : List Byte) : KeepsStrands s (s.performAt d w pa bs) :=
  foldl_keeps (KeepsStrands s) _ (fun u g hu => (hu.trans (u.onLine_keepsStrands g.1 _)).trans
    ((KeepsStrands.of_eq rfl).trans (State.noteWrite_keepsStrands _ g.1))) _ s (.of_eq rfl)

/-! ## A store of one lane that goes to this device -/

theorem SBEntry.messages_near {x : SBEntry} (h : ∀ l ∈ x.lanes, isRemote l.pa = false) : x.messages = [] := by
  have hf : (x.lanes.filter fun l => isRemote l.pa) = [] := List.filter_eq_nil_iff.2 fun l hl => by simp [h l hl]
  simp [SBEntry.messages, hf]

@[simp] theorem State.covered_strands (s : State) (l : List (Nat × List Byte)) : (s.covered l).strands = s.strands := by
  unfold State.covered
  split <;> rfl

/-- Fresh check bits change no byte. -/
theorem State.covered_mem (s : State) (l : List (Nat × List Byte)) : ∃ b, (s.covered l).mem = { s.mem with bad := b } := by
  unfold State.covered
  split
  · exact ⟨s.mem.bad, rfl⟩
  · exact ⟨_, rfl⟩

section
variable {x : SBEntry} {l : SBLane} (hx : x.lanes = [l]) (hr : isRemote l.pa = false) (s : State) (sid : StrandId) (core : CoreId) (world : Nat)
include hx hr

/-- No message is sent: the write, the core's L1 line, the check bits, the acknowledgement. -/
theorem performStore_near : performStore s sid core world x =
    (({ s.performAt core.die world l.pa l.data with
        mem := (s.performAt core.die world l.pa l.data).mem.l1Drop core (lineOf l.pa) } : State).covered [(l.pa, l.data)]).modStrand sid
      fun st => { st with unackDev := st.unackDev - 1 } := by
  have hm : x.messages = [] := SBEntry.messages_near (by simpa [hx] using hr)
  simp [performStore, hx, hr, hm]

theorem performStore_near_strand {st : Strand} (h : s.strands.get? sid = some st) : ∃ w,
    (performStore s sid core world x).strands.get? sid = some { st with watch := w, unackDev := st.unackDev - 1 } := by
  obtain ⟨w, hw⟩ := s.performAt_keepsStrands core.die world l.pa l.data sid st h
  exact ⟨w, by simp [performStore_near hx hr, hw]⟩

theorem performStore_near_mem : ∃ b, (performStore s sid core world x).mem =
    { (s.performAt core.die world l.pa l.data).mem.l1Drop core (lineOf l.pa) with bad := b } := by
  rw [performStore_near hx hr]
  exact State.covered_mem ..

/-- No line of the core's L1 holds the store's line (04 R95). -/
theorem performStore_near_l1 : ∀ y ∈ (performStore s sid core world x).mem.l1, y.core = core → y.line ≠ lineOf l.pa := by
  obtain ⟨b, hm⟩ := performStore_near_mem hx hr s sid core world
  intro y hy hc
  simp only [hm, MemSys.l1Drop, List.mem_filter] at hy
  simpa [hc] using hy.2

theorem performStore_near_wroteBytes (hs : s.mem.wf = true) (hd : l.data ≠ []) (h1 : l.pa / 128 = (l.pa + l.data.length - 1) / 128) :
    (performStore s sid core world x).mem.WroteBytes (s.mem.combineLine s.parts (lineOf l.pa)) core.die l.pa l.data := by
  have hw := MemSys.wf_l2Own (MemSys.wf_combineLine hs s.parts (lineOf l.pa)) core.die world (lineOf l.pa)
  obtain ⟨home, view, others⟩ := MemSys.perform_wroteBytes hw core.die (lineOf l.pa) l.pa l.data false
  obtain ⟨b, hm⟩ := performStore_near_mem hx hr s sid core world
  rw [hm, State.performAt_mem_oneLine s core.die world hd h1]
  exact ⟨home, view, others⟩

end

/-! ## Counting a strand that has exited (07 R181) -/

@[simp] theorem noteExit_mem (s : State) (sid : StrandId) : (noteExit s sid).mem = s.mem := by
  unfold noteExit
  split
  · split <;> rfl
  · rfl

@[simp] theorem noteExit_wgs (s : State) (sid : StrandId) : (noteExit s sid).wgs = s.wgs := by
  unfold noteExit
  split
  · split <;> rfl
  · rfl

theorem noteExit_strand {s : State} {sid : StrandId} {st : Strand} (h : s.strands.get? sid = some st) :
    ∃ c, (noteExit s sid).strands.get? sid = some { st with counted := c } := by
  unfold noteExit
  simp only [h]
  split
  · exact ⟨true, by simp [countDone, h]⟩
  · exact ⟨st.counted, h⟩

/-! ## STORE_PERFORMED -/

/-- The machine once an entry has left a strand's buffer, before the entry is performed. -/
def State.unbuffered (s : State) (sid : StrandId) (k : Nat) : State :=
  s.modStrand sid fun st => { st with stores := st.stores.filter fun y => decide (y.id ≠ k) }

theorem State.unbuffered_strand {s : State} {sid : StrandId} {st : Strand} (h : s.strands.get? sid = some st) (k : Nat) :
    (s.unbuffered sid k).strands.get? sid = some { st with stores := st.stores.filter fun y => decide (y.id ≠ k) } := by
  simp [State.unbuffered, h]

section
variable {s : State} {e : Env} (henv : s.env? e.sid = some e) {k : Nat}
include henv

theorem exec_storePerformed_none (h : e.st.stores.find? (fun y => decide (y.id = k)) = none) :
    exec (.storePerformed e.sid k) s = .next s := by
  show execStorePerformed e.sid k s = _
  simp only [execStorePerformed, henv, h]

variable {x : SBEntry} (h : e.st.stores.find? (fun y => decide (y.id = k)) = some x)
include h

theorem exec_storePerformed_unready (hr : entryReady s e.st x = false) : exec (.storePerformed e.sid k) s = .next s := by
  show execStorePerformed e.sid k s = _
  simp only [execStorePerformed, henv, h, hr, Bool.and_false, Bool.false_eq_true, if_false]

theorem exec_storePerformed_ready (hp : e.wg.parked = none) (hr : entryReady s e.st x = true) :
    exec (.storePerformed e.sid k) s =
      .next (noteExit (performStore (s.unbuffered e.sid k) e.sid e.core e.world x) e.sid) := by
  show execStorePerformed e.sid k s = _
  simp only [State.unbuffered, execStorePerformed, henv, h, hp, hr, Option.isNone_none, Bool.and_self, if_true]

end

/-- Settles O29: an entry that is ready leaves the buffer and is performed as a write of one line; any other stays. -/
theorem bufferedStoresArePerformed : Obligations.BufferedStoresArePerformed := by
  unfold Obligations.BufferedStoresArePerformed
  refine ⟨?_, fun s e x henv hf hr => exec_storePerformed_unready henv hf hr, fun s e k henv hf => exec_storePerformed_none henv hf⟩
  intro s e x l henv hm hp hf hr hx hn h1 hd
  obtain ⟨-, hst, -⟩ := State.env?_strand henv
  obtain ⟨w, hst'⟩ := performStore_near_strand hx hn _ e.sid e.core e.world (State.unbuffered_strand hst x.id)
  obtain ⟨c, hst''⟩ := noteExit_strand hst'
  have hs : (s.unbuffered e.sid x.id).mem.wf = true := ((State.canon_iff s).2 hm).mem
  obtain ⟨home, view, others⟩ := performStore_near_wroteBytes hx hn _ e.sid e.core e.world hs hd h1
  refine ⟨_, _, exec_storePerformed_ready henv hf hp hr, hst'', ?_⟩
  rw [noteExit_mem, noteExit_wgs]
  exact ⟨⟨home, view⟩, others, rfl, rfl, rfl, performStore_near_l1 hx hn _ e.sid e.core e.world, (performStore_keepsWork ..).wgs⟩

end Sys2Proof.Machine
end

section
/-! What shows outside: the datagrams at the ports and the events. Accesses to memory, stores, messages, barriers and the end of a strand
leave both alone; taking a fault leaves the ports alone and adds events (04 R115; 19 R357; 18 R346 to R350). -/

namespace Sys2Proof.Machine

open Sys2Proof

/-- The ports and the events. -/
def State.outside (s : State) : Vector EthPort 4 × List (Nat × Event) := (s.ports, s.events)

theorem foldl_outside {β : Type} {f : State → β → State} (h : ∀ s x, (f s x).outside = s.outside) (l : List β) (s : State) :
    (l.foldl f s).outside = s.outside :=
  foldl_keeps (fun t : State => t.outside = s.outside) f (fun _ _ ht => (h _ _).trans ht) l s rfl

theorem SameButMemory.outside {s t : State} (h : SameButMemory s t) : t.outside = s.outside := by
  rw [State.outside, ← h.rest, State.outside]

@[simp] theorem State.modStrand_outside (s : State) (sid : StrandId) (f : Strand → Strand) : (s.modStrand sid f).outside = s.outside := rfl
@[simp] theorem State.setCopyQ_outside (s : State) (c : CoreId) (q : Fin 4) (v : CopyQueue) : (s.setCopyQ c q v).outside = s.outside := rfl
@[simp] theorem modCopyCmd_outside (s : State) (c : CoreId) (q : Fin 4) (n : Nat) (f : CopyCmd → CopyCmd) :
    (modCopyCmd s c q n f).outside = s.outside := rfl

/-! ## Memory -/

@[simp] theorem State.performAt_outside (s : State) (d : Fin 4) (w pa : Nat) (bs : List Byte) :
    (s.performAt d w pa bs).outside = s.outside := by
  unfold State.performAt
  exact foldl_outside (fun s _ => by exact (s.onLine_sameButMemory _ _).outside) _ _

theorem writeNow_outside (s : State) (d : Fin 4) (world va : Nat) (bs : List Byte) (priv : Bool) :
    (writeNow s d world va bs priv).1.outside = s.outside := by
  unfold writeNow
  extract_lets checked
  have hc : checked.1.outside = s.outside := by
    refine foldl_keeps (fun a : State × Except Code (List (Nat × Nat × Nat)) => a.1.outside = s.outside) _ (fun a g ha => ?_) _ _ rfl
    obtain ⟨u, r⟩ := a
    cases r with
    | error c => exact ha
    | ok l =>
      have ht := (translateNow_sameButMemory u d world g.1 .write priv).outside
      simp only
      split <;> simp_all
  rw [← hc]
  obtain ⟨u, r⟩ := checked
  cases r with
  | error c => rfl
  | ok l => exact foldl_outside (fun s g => s.performAt_outside ..) l u

theorem publish_outside (s : State) : (publish s).outside = s.outside :=
  foldl_outside (fun s e => by
    unfold applyAll
    exact foldl_outside (fun _ _ => by rfl) _ s) _ s

theorem dropLines_outside (s : State) (world va n : Nat) : (dropLines s world va n).outside = s.outside := by
  unfold dropLines
  refine foldl_outside (fun s g => ?_) _ _
  have h := (translateNow_sameButMemory s (s.worldDie world) world g.1 .read true).outside
  split
  all_goals
    rename_i hv
    rw [hv] at h
    exact h

/-! ## Messages and the store buffer -/

@[simp] theorem noteSent_outside (s : State) (port peer ix : Nat) (l : List (Nat × List Byte)) :
    (noteSent s port peer ix l).outside = s.outside := by
  unfold noteSent
  split <;> rfl

theorem sendRuns_outside (s : State) (world : Nat) (sender : Option StrandId) (op : RmaOp) (l : List (Nat × List Byte)) :
    (sendRuns s world sender op l).outside = s.outside := by
  unfold sendRuns
  split
  · split <;> rfl
  · unfold newMessage
    exact noteSent_outside ..

theorem performStore_outside (s : State) (sid : StrandId) (core : CoreId) (world : Nat) (e : SBEntry) :
    (performStore s sid core world e).outside = s.outside := by
  unfold performStore
  extract_lets s1 s2 s3
  have h1 : s1.outside = s.outside := foldl_outside (fun s l => by split; · rfl
                                                                   · exact s.performAt_outside ..) _ _
  have h2 : s2.outside = s1.outside := foldl_outside (fun s m => sendRuns_outside ..) _ _
  have h3 : s3.outside = s2.outside := by
    simp only [s3, State.covered]
    split <;> rfl
  split <;> simp [h3, h2, h1]

theorem drain_outside (s : State) (sid : StrandId) : (drain s sid).outside = s.outside := by
  unfold drain
  split
  · rfl
  · exact foldl_outside (fun s x => performStore_outside ..) _ _

theorem closeMessages_outside (s : State) (l : List Nat) : (closeMessages s l).outside = s.outside := by
  unfold closeMessages
  refine foldl_outside (fun s n => ?_) _ _
  unfold settleOut finishOut
  split
  · split
    · split <;> rfl
    · rfl
  · rfl

/-! ## The end of a strand and of an agent's work -/

theorem leavePhase_outside (k : BarKey) (s : State) (sid : StrandId) : (leavePhase k s sid).outside = s.outside := by
  unfold leavePhase
  split
  · rfl
  · split
    · split <;> rfl
    · split
      · extract_lets b t
        split <;> rfl
      · rfl
    · rfl

theorem completePhases_outside (s : State) (sid : StrandId) : (completePhases s sid).outside = s.outside := by
  refine foldl_outside (fun s k => ?_) _ s
  unfold completePhase
  split
  · exact foldl_outside (fun s sid => leavePhase_outside k s sid) _ _
  · rfl

theorem breakBars_outside (s : State) (sid : StrandId) : (breakBars s sid).outside = s.outside := by
  unfold breakBars
  exact foldl_outside (fun _ _ => by rfl) _ _

theorem endStrand_outside (s : State) (sid : StrandId) (how : End) : (endStrand s sid how).outside = s.outside := by
  unfold endStrand
  split
  · rfl
  split
  · rfl
  extract_lets s0 s1 s2 s3
  have h1 : s1.outside = s.outside := by
    simp only [s1, s0]
    split
    · exact drain_outside ..
    · rfl
  have h3 : s3.outside = s.outside := by
    simp only [s3, s2]
    split <;> exact h1
  split
  · exact h3
  · rw [breakBars_outside, completePhases_outside, h3]

theorem stopAgent_outside (s : State) (r : FaultRec) (written : Bool) : (stopAgent s r written).outside = s.outside := by
  unfold stopAgent
  extract_lets stop cmd
  split <;> rfl

theorem endAgent_outside (s : State) (a : Agent) : (endAgent s a).outside = s.outside := by
  unfold endAgent
  split
  · exact endStrand_outside ..
  · exact endStrand_outside ..
  · simp only [State.setCopyQ_outside, modCopyCmd_outside]
    split
    · exact closeMessages_outside ..
    · rfl
  · extract_lets t
    split
    · split <;> rfl
    · rfl
  all_goals rfl

theorem consequence_outside (s : State) (r : FaultRec) : (consequence s r).outside = s.outside := by
  unfold consequence
  split
  · exact stopAgent_outside ..
  split
  · unfold endPair
    split
    · rfl
    · rw [endStrand_outside, endStrand_outside]
      rfl
  · exact endAgent_outside ..

/-! ## Taking a fault -/

/-- The ports stay as they are, and events are only added. -/
structure OnlyTells (s t : State) : Prop where
  ports : t.ports = s.ports
  events : s.events <+: t.events

theorem OnlyTells.refl (s : State) : OnlyTells s s := ⟨rfl, List.prefix_rfl⟩

theorem OnlyTells.trans {s t u : State} (h : OnlyTells s t) (k : OnlyTells t u) : OnlyTells s u :=
  ⟨k.ports.trans h.ports, h.events.trans k.events⟩

theorem OnlyTells.of_outside {s t : State} (h : t.outside = s.outside) : OnlyTells s t :=
  have he : t.events = s.events := congrArg Prod.snd h
  ⟨congrArg Prod.fst h, he ▸ List.prefix_rfl⟩

theorem OnlyTells.tell (s : State) (world : Nat) (e : Event) : OnlyTells s (s.tell world e) := ⟨rfl, List.prefix_append ..⟩

theorem fileRec_onlyTells (s : State) (world : Nat) (d : Fin 4) (r : FaultRec) : OnlyTells s (fileRec s world d r).1 := by
  unfold fileRec
  split
  · exact .refl s
  · extract_lets r' r'' s1 s2
    have h1 : s1.outside = s.outside := rfl
    have h2 : s2.outside = s1.outside := writeNow_outside ..
    clear_value s2 s1
    split
    · exact (OnlyTells.of_outside (h2.trans h1)).trans (.tell s2 ..)
    · exact .of_outside rfl

theorem tellMonitor_onlyTells (s : State) (r : FaultRec) : OnlyTells s (tellMonitor s r) := by
  unfold tellMonitor
  split
  · exact .tell ..
  · exact .refl s

theorem deliver_onlyTells (s : State) (world : Nat) (d : Fin 4) (r : FaultRec) : OnlyTells s (deliver s world d r) := by
  have h := fileRec_onlyTells s world d r
  unfold deliver
  split
  · rename_i u hu
    rw [hu] at h
    exact h.trans (.of_outside (stopAgent_outside ..))
  · rename_i u n hu
    rw [hu] at h
    exact (h.trans (tellMonitor_onlyTells u _)).trans (.of_outside (consequence_outside ..))

theorem sweepBars_onlyTells (n : Nat) (s : State) : OnlyTells s (sweepBars n s) := by
  induction n generalizing s with
  | zero => exact .refl s
  | succ n ih =>
    unfold sweepBars
    split
    · exact .refl s
    split
    · exact .refl s
    · exact (deliver_onlyTells s ..).trans (ih _)

theorem raise_onlyTells (s : State) (world : Nat) (d : Fin 4) (r : FaultRec) : OnlyTells s (raise s world d r) :=
  (deliver_onlyTells s world d r).trans (sweepBars_onlyTells ..)

end Sys2Proof.Machine
end

section
/-! What the graph unit's work leaves alone. Launching and delivering change of a context its edges, nodes, runs, phases and raster queues
only; they send no datagram, and they add events only (05 R122 to R129, R142). -/

namespace Sys2Proof.Machine

open Sys2Proof

/-- A context but for its edges, nodes, runs, phases and raster queues. -/
def Context.spine (c : Context) : Context := { c with phases := [], runs := [], edges := [], nodes := [], raster := [] }

/-- Work of the graph unit for a context. -/
structure GraphWork (ctx : Nat) (s t : State) : Prop extends OnlyTells s t where
  spine : (t.ctx? ctx).map Context.spine = (s.ctx? ctx).map Context.spine

theorem State.modCtx_ctx? (s : State) (ctx : Nat) (f : Context → Context) : (s.modCtx ctx f).ctx? ctx = (s.ctx? ctx).map f :=
  Assoc.get?_modify_same ..

namespace GraphWork

variable {ctx : Nat} {s t u : State}

theorem refl (s : State) : GraphWork ctx s s := ⟨.refl s, rfl⟩

theorem trans (h : GraphWork ctx s t) (k : GraphWork ctx t u) : GraphWork ctx s u :=
  ⟨h.toOnlyTells.trans k.toOnlyTells, k.spine.trans h.spine⟩

theorem of_onlyTells (h : OnlyTells s t) (hc : t.contexts = s.contexts) : GraphWork ctx s t :=
  ⟨h, by rw [State.ctx?, hc, State.ctx?]⟩

theorem of_outside (h : t.outside = s.outside) (hc : t.contexts = s.contexts) : GraphWork ctx s t := of_onlyTells (.of_outside h) hc

theorem of_sameButMemory (h : SameButMemory s t) : GraphWork ctx s t := of_outside h.outside h.contexts

theorem modCtx (s : State) {f : Context → Context} (hf : ∀ c, (f c).spine = c.spine) : GraphWork ctx s (s.modCtx ctx f) :=
  ⟨.of_outside rfl, by simp [State.modCtx_ctx?, Function.comp_def, hf]⟩

theorem foldl {β : Type} {f : State → β → State} (h : ∀ s x, GraphWork ctx s (f s x)) (l : List β) (s : State) :
    GraphWork ctx s (l.foldl f s) :=
  foldl_keeps (GraphWork ctx s) f (fun _ x hs => hs.trans (h _ x)) l s (refl s)

end GraphWork

/-- A result that, where it succeeds, is work of the graph unit. -/
structure OkWork (ctx : Nat) (s : State) (r : Except GStop State) : Prop where
  work : ∀ t, r = .ok t → GraphWork ctx s t

namespace OkWork

variable {ctx : Nat} {s t : State} {r : Except GStop State}

theorem error (g : GStop) : OkWork ctx s (.error g) := ⟨fun _ h => nomatch h⟩

theorem ok (h : GraphWork ctx s t) : OkWork ctx s (.ok t) := ⟨fun _ e => by cases e; exact h⟩

theorem after (k : OkWork ctx t r) (h : GraphWork ctx s t) : OkWork ctx s r := ⟨fun u e => h.trans (k.work u e)⟩

end OkWork

/-- A fold over results that may fail is work where each of its steps is. -/
theorem foldl_ok_work {α β : Type} {ctx : Nat} {f : Except GStop α → β → Except GStop α} (st : α → State)
    (herr : ∀ x b, f (.error x) b = .error x) (hok : ∀ a b c, f (.ok a) b = .ok c → GraphWork ctx (st a) (st c))
    {l : List β} {a c : α} (h : l.foldl f (.ok a) = .ok c) : GraphWork ctx (st a) (st c) := by
  refine foldl_keeps (fun r : Except GStop α => ∀ c, r = .ok c → GraphWork ctx (st a) (st c)) f (fun r b hr c hc => ?_) l (.ok a)
    (fun c hc => by cases hc; exact .refl _) c h
  cases r with
  | error x => rw [herr] at hc; cases hc
  | ok a' => exact (hr a' rfl).trans (hok a' b c hc)

/-! ## Accesses of the graph unit -/

theorem graphStop_onlyTells (s : State) (ctx world : Nat) (x : GStop) : OnlyTells s (graphStop s ctx world x) := by
  unfold graphStop
  split
  · exact .refl s
  · exact raise_onlyTells ..

theorem graphStop_work {k : Nat} (s : State) (ctx world : Nat) (x : GStop) : GraphWork k s (graphStop s ctx world x) :=
  .of_onlyTells (graphStop_onlyTells ..) (graphStop_contexts ..)

theorem graphReport_work {k : Nat} (s : State) (ctx n world : Nat) (f : Flt) : OkWork k s (graphReport s ctx n world f) := by
  unfold graphReport
  split
  · exact .error _
  · exact .ok (.of_onlyTells (raise_onlyTells ..) (raise_contexts ..))

theorem runGraph_work {ctx : Nat} {s : State} {r : Except GStop State} (h : OkWork ctx s r) (world : Nat) :
    GraphWork ctx s (runGraph s ctx world r) := by
  unfold runGraph
  split
  · exact h.work _ rfl
  · exact graphStop_work ..

theorem gread_work {s t : State} {ctx n world va len : Nat} {bs : List Byte} (h : gread s ctx n world va len = .ok (t, bs)) :
    GraphWork ctx s t := by
  unfold gread at h
  split at h
  · cases h
  refine foldl_ok_work Prod.fst (fun _ _ => rfl) (fun a g c hc => ?_) h
  obtain ⟨u, b⟩ := a
  have hr : GraphWork ctx u (readNow u (u.worldDie world) world g.1 g.2 true).1 := .of_sameButMemory (readNow_sameButMemory ..)
  simp only at hc
  split at hc
  · cases hc
    exact .modCtx u fun _ => rfl
  split at hc
  · rename_i hv
    rw [hv] at hr
    cases hc
    exact hr
  · cases hc
  · rename_i hv
    rw [hv] at hr
    split at hc <;> cases hc
    exact hr.trans ((graphReport_work ..).work _ ‹_›)

theorem gwrite_work (s : State) (ctx n world va : Nat) (bs : List Byte) : OkWork ctx s (gwrite s ctx n world va bs) := by
  refine ⟨fun t h => ?_⟩
  unfold gwrite at h
  split at h
  · cases h
  refine foldl_ok_work id (fun _ _ => rfl) (fun u g c hc => ?_) h
  have hr : GraphWork ctx u (writeNow u (u.worldDie world) world g.1 ((bs.drop (g.1 - va)).take g.2) true).1 :=
    .of_outside (writeNow_outside ..) (writeNow_contexts ..)
  simp only at hc
  split at hc
  · cases hc
    exact .modCtx u fun _ => rfl
  split at hc
  · rename_i hv
    rw [hv] at hr
    cases hc
    exact hr
  · cases hc
  · rename_i hv
    rw [hv] at hr
    exact hr.trans ((graphReport_work ..).work _ hc)

/-! ## Launches -/

theorem openJob_outside (s : State) (world : Nat) : (openJob s world).1.outside = s.outside := by
  unfold openJob
  split <;> rfl

theorem ensurePhase_work (s : State) (ctx : Nat) (c : Context) (p : Nat) : GraphWork ctx s (ensurePhase s ctx c p).1 := by
  unfold ensurePhase
  split
  · exact .refl s
  · have h := GraphWork.of_outside (ctx := ctx) (openJob_outside s c.world) (openJob_contexts s c.world)
    exact (h.trans (.of_outside (by rfl) (by rfl))).trans (.modCtx _ fun _ => rfl)

theorem ensureRun_work (s : State) (ctx : Nat) (c : Context) (f : Nat) : GraphWork ctx s (ensureRun s ctx c f).1 := by
  unfold ensureRun
  split
  · exact .refl s
  · exact ((ensurePhase_work s ctx c (c.phaseOf f)).trans (.of_outside (by rfl) (by rfl))).trans (.modCtx _ fun _ => rfl)

theorem refuseLaunch_work (s : State) (ctx n world addr : Nat) : OkWork ctx s (refuseLaunch s ctx n world addr) := by
  unfold refuseLaunch
  split
  · exact .ok (.refl s)
  split
  · exact .ok (.modCtx s fun _ => rfl)
  · exact graphReport_work ..

theorem graphLaunch_work (s : State) (ctx n : Nat) (b : Batch) : OkWork ctx s (graphLaunch s ctx n b) := by
  unfold graphLaunch
  split
  · exact .ok (.refl s)
  rename_i c _
  split
  · exact .ok (.refl s)
  extract_lets va
  split
  · exact .ok (ensureRun_work ..)
  split
  · exact refuseLaunch_work ..
  split
  · exact .error _
  rename_i u bs hr
  refine .after ?_ (gread_work hr)
  split
  · exact refuseLaunch_work ..
  split
  · exact refuseLaunch_work ..
  have hrun := ensureRun_work u ctx c b.frame
  generalize ensureRun u ctx c b.frame = p at hrun ⊢
  obtain ⟨v, run⟩ := p
  refine .after (.ok ((GraphWork.of_outside (by rfl) (by rfl)).trans (.modCtx _ fun c => ?_))) hrun
  by_cases hb : b.count = 0 <;> simp only [hb, if_true, if_false] <;> rfl

theorem launchRange_work (ctx n e f : Nat) (late : Bool) (fuel lo hi : Nat) (s : State) :
    OkWork ctx s (launchRange ctx n e f late fuel lo hi s) := by
  induction fuel generalizing lo s with
  | zero => exact .ok (.refl s)
  | succ fuel ih =>
    unfold launchRange
    split
    · exact .ok (.refl s)
    split
    · exact .ok (.refl s)
    extract_lets k cnt b
    split
    · exact .error _
    · refine .after ?_ ((graphLaunch_work ..).work _ ‹_›)
      exact (ih ..).after (.modCtx _ fun _ => rfl)

theorem launchReady_work (ctx n fuel : Nat) (s : State) : OkWork ctx s (launchReady ctx n fuel s) := by
  induction fuel generalizing s with
  | zero => exact .ok (.refl s)
  | succ fuel ih =>
    unfold launchReady
    split
    · exact .ok (.refl s)
    split
    · exact .ok (.refl s)
    split
    · exact .ok (.refl s)
    split
    · exact .ok (.refl s)
    split
    · exact .ok (.refl s)
    split
    · exact .error _
    · exact (ih _).after ((launchRange_work ..).work _ ‹_›)

theorem launchHeld_work (ctx n fuel : Nat) (s : State) : OkWork ctx s (launchHeld ctx n fuel s) := by
  induction fuel generalizing s with
  | zero => exact .ok (.refl s)
  | succ fuel ih =>
    unfold launchHeld
    split
    · exact .ok (.refl s)
    split
    · exact .ok (.refl s)
    split
    · exact .ok (.refl s)
    extract_lets b
    split
    · exact .error _
    · refine .after ?_ ((graphLaunch_work ..).work _ ‹_›)
      exact (ih _).after (.modCtx _ fun _ => rfl)

theorem launchNode_work (s : State) (ctx n : Nat) : OkWork ctx s (launchNode s ctx n) := by
  unfold launchNode
  split
  · exact .ok (.refl s)
  extract_lets many
  split
  · exact .error _
  · exact (launchReady_work ..).after ((launchHeld_work ..).work _ ‹_›)

theorem freeLaunches_work (s : State) (ctx : Nat) : GraphWork ctx s (freeLaunches s ctx) := by
  unfold freeLaunches
  split
  · exact .refl s
  · exact .foldl (fun s n => runGraph_work (launchNode_work s ctx n) _) _ s

/-! ## Delivery -/

theorem placeRecord_work (s : State) (ctx e f slot depth : Nat) (p : List Byte) : OkWork ctx s (placeRecord s ctx e f slot depth p) := by
  unfold placeRecord
  split
  · exact .ok (.refl s)
  split
  · exact .ok (.refl s)
  extract_lets va hold
  have hh (r : Bool) (u : State) : OkWork ctx u (.ok (hold r u)) := .ok (.modCtx u fun _ => rfl)
  clear_value hold
  split
  · exact hh ..
  split
  · exact .error _
  rename_i h1
  split
  · exact .error _
  rename_i h2
  exact (hh ..).after (((gwrite_work ..).work _ h1).trans ((gwrite_work ..).work _ h2))

theorem deliverSlot_work {s t : State} {ctx e : Nat} {b : Bool} (h : deliverSlot s ctx e = .ok (t, b)) : GraphWork ctx s t := by
  unfold deliverSlot at h
  split at h
  · cases h; exact .refl _
  split at h
  · cases h; exact .refl _
  extract_lets x f k slot va late mark at h
  have hmark (u : State) (sub : Bool) (p : List Byte) : GraphWork ctx u (mark u sub p) :=
    (GraphWork.of_outside (dropLines_outside ..) (dropLines_contexts ..)).trans (.modCtx _ fun _ => rfl)
  clear_value mark
  split at h
  · cases h; exact .refl _
  split at h
  · extract_lets w at h
    clear_value w
    split at h <;> cases h
    exact ((gwrite_work ..).work _ ‹_›).trans (hmark ..)
  · split at h
    · cases h; exact .refl _
    split at h <;> cases h
    exact ((gwrite_work ..).work _ ‹_›).trans (hmark ..)

theorem deliverEdge_work (ctx e fuel : Nat) (s : State) : OkWork ctx s (deliverEdge ctx e fuel s) := by
  induction fuel generalizing s with
  | zero => exact .ok (.refl s)
  | succ fuel ih =>
    unfold deliverEdge
    split
    · exact .error _
    · exact (ih _).after (deliverSlot_work ‹_›)
    · refine .after ?_ (deliverSlot_work ‹_›)
      split
      · exact .ok (.refl _)
      split
      · exact .ok (.refl _)
      extract_lets x
      split
      · exact .ok (.refl _)
      · exact (ih _).after (.modCtx _ fun _ => rfl)

theorem markDeadlines_work (s : State) (ctx e : Nat) : GraphWork ctx s (markDeadlines s ctx e) := by
  unfold markDeadlines
  split
  · exact .refl s
  split
  · exact .refl s
  split
  · exact .refl s
  · exact .modCtx s fun _ => rfl

theorem publish_work (s : State) (ctx : Nat) : GraphWork ctx s (publish s) := .of_outside (publish_outside s) (publish_contexts s)

theorem advanceEdge_work (s : State) (ctx e : Nat) : OkWork ctx s (advanceEdge s ctx e) := by
  unfold advanceEdge
  split
  · exact .ok (.refl s)
  split
  · exact .ok (.refl s)
  extract_lets s0
  refine .after ?_ (markDeadlines_work s ctx e)
  split
  · exact .error _
  rename_i s1 hs
  refine .after ?_ ((deliverEdge_work ..).work _ hs)
  extract_lets s2
  have h2 : GraphWork ctx s1 s2 := by
    simp only [s2]
    split
    · exact .refl _
    · exact publish_work ..
  clear_value s2
  refine .after ?_ h2
  split
  · split
    · exact launchNode_work ..
    · exact .ok (.refl _)
  · exact .ok (.refl _)

theorem closeFrame_work (s : State) (ctx e f : Nat) : OkWork ctx s (closeFrame s ctx e f) :=
  (advanceEdge_work ..).after (.modCtx s fun _ => rfl)

theorem settleRaster_work (s : State) (ctx : Nat) : GraphWork ctx s (settleRaster s ctx) := by
  unfold settleRaster
  split
  · exact .refl s
  extract_lets live
  clear_value live
  split
  · exact .refl s
  · refine .trans (.modCtx s (f := fun c => { c with raster := c.raster.map fun p => (p.1, { p.2 with cmds := live p }) }) fun _ => rfl) ?_
    exact publish_work ..

theorem settleBase_spine (c : Context) (e : Nat) : (settleBase c e).spine = c.spine := by
  unfold settleBase
  split
  · rfl
  extract_lets x marks next
  clear_value next
  split
  · rfl
  · split <;> rfl

theorem closeDue_work (ctx e fuel : Nat) (s : State) : OkWork ctx s (closeDue ctx e fuel s) := by
  induction fuel generalizing s with
  | zero => exact .ok (.refl s)
  | succ fuel ih =>
    unfold closeDue
    extract_lets s1
    have h1 : GraphWork ctx s s1 := .modCtx s fun c => settleBase_spine c e
    clear_value s1
    refine .after ?_ h1
    split
    · exact .ok (.refl _)
    split
    · exact .ok (.refl _)
    extract_lets f
    split
    · exact .ok (.refl _)
    split
    · exact .error _
    · exact (ih _).after ((closeFrame_work ..).work _ ‹_›)

/-! ## The reorder buffer -/

theorem placeGram_work (s : State) (ctx e f seq records : Nat) (d : EdgeDesc) (p : List Byte) :
    OkWork ctx s (placeGram s ctx e f seq records d p) := by
  unfold placeGram
  split
  · exact .error _
  rename_i u hu
  have h : GraphWork ctx s u := by
    refine foldl_ok_work id (fun _ _ => rfl) (fun v r w hw => ?_) hu
    unfold placeOne at hw
    simp only at hw
    split at hw
    · cases hw; exact .refl _
    split at hw
    · cases hw; exact .modCtx v fun _ => rfl
    · exact (placeRecord_work ..).work _ hw
  exact .ok (h.trans (.modCtx u fun _ => rfl))

theorem useParities_work (ctx e f : Nat) (d : EdgeDesc) (fuel : Nat) (s : State) : OkWork ctx s (useParities ctx e f d fuel s) := by
  induction fuel generalizing s with
  | zero => exact .ok (.refl s)
  | succ fuel ih =>
    unfold useParities
    split
    · exact .ok (.refl s)
    extract_lets k
    split
    · exact .ok (.refl s)
    extract_lets s1
    have h1 : GraphWork ctx s s1 := .modCtx s fun _ => rfl
    clear_value s1
    refine .after ?_ h1
    split
    · extract_lets r
      split
      · exact .error _
      · exact (ih _).after ((placeGram_work ..).work _ ‹_›)
    · exact ih _

/-! ## The start of a frame -/

theorem startNode_work (s : State) (ctx f n : Nat) : OkWork ctx s (startNode s ctx f n) := by
  unfold startNode
  split
  · exact .ok (.refl s)
  split
  · exact .ok (.refl s)
  split
  · exact .ok (.refl s)
  split
  · split
    · exact .error _
    · exact .ok ((gread_work ‹_›).trans (.modCtx _ fun _ => rfl))
  · exact .ok (.refl s)
  · split
    · exact .ok (.modCtx s fun _ => rfl)
    · exact .ok (.refl s)

theorem startNodes_work (s : State) (ctx f : Nat) (c : Context) : OkWork ctx s (startNodes s ctx f c) :=
  ⟨fun _ h => foldl_ok_work id (fun _ _ => rfl) (fun v n w hw => (startNode_work v ctx f n).work w hw) h⟩

end Sys2Proof.Machine
end

section
/-! What the steps of a cut move leave alone. They only add datagrams and events, and of a context whose move goes on they change, beside what
the graph unit's work changes, what is under way of the move alone (05 R145 to R149; 15 R302 to R304). -/

namespace Sys2Proof.Machine

open Sys2Proof

/-- A move but for its timers, its hand-over and the arrivals that wait. -/
def Move.course (m : Move) : Move :=
  { m with ctls := [], written := [], tableSent := false, doneStages := [], sentStages := [], held := [] }

/-- A context but for what the graph unit's work changes and what is under way of its move. -/
def Context.course (c : Context) : Context := { c.spine with move := c.move.course }

/-- The course of a context but for its phase, which steps at the effective frame. -/
def Context.unphased (c : Context) : Context := { c.course with phase := 0, move := { c.move.course with phaseDone := false } }

/-- The course of a context but for the move and the cut, which change at the move's end. -/
def Context.unmoved (c : Context) : Context := { c.course with cut := 0, past := [], move := Move.fresh 0 }

/-- Datagrams and events are only added, and a part `P` of a context stays. -/
structure MoveWork {α : Type} (P : Context → α) (ctx : Nat) (s t : State) : Prop where
  events : s.events <+: t.events
  sent : ∀ p : Fin 4, s.ports[p].sent <+: t.ports[p].sent
  kept : (t.ctx? ctx).map P = (s.ctx? ctx).map P

namespace MoveWork

variable {α β : Type} {P : Context → α} {ctx : Nat} {s t u : State}

theorem refl (s : State) : MoveWork P ctx s s := ⟨List.prefix_rfl, fun _ => List.prefix_rfl, rfl⟩

theorem trans (h : MoveWork P ctx s t) (k : MoveWork P ctx t u) : MoveWork P ctx s u :=
  ⟨h.events.trans k.events, fun p => (h.sent p).trans (k.sent p), k.kept.trans h.kept⟩

theorem after (k : MoveWork P ctx t u) (h : MoveWork P ctx s t) : MoveWork P ctx s u := h.trans k

/-- A part of a part that stays stays. -/
theorem part {Q : Context → β} (h : MoveWork P ctx s t) (f : α → β) (hf : ∀ c, Q c = f (P c)) : MoveWork Q ctx s t := by
  refine ⟨h.events, h.sent, ?_⟩
  have hq : Q = f ∘ P := funext hf
  rw [hq, ← Option.map_map, h.kept, Option.map_map]

theorem modCtx (s : State) {f : Context → Context} (hf : ∀ c, P (f c) = P c) : MoveWork P ctx s (s.modCtx ctx f) :=
  ⟨List.prefix_rfl, fun _ => List.prefix_rfl, by simp [State.modCtx_ctx?, Function.comp_def, hf]⟩

theorem foldl {γ : Type} {f : State → γ → State} (h : ∀ s x, MoveWork P ctx s (f s x)) (l : List γ) (s : State) :
    MoveWork P ctx s (l.foldl f s) :=
  foldl_keeps (MoveWork P ctx s) f (fun _ x hs => hs.trans (h _ x)) l s (refl s)

theorem tell (s : State) (world : Nat) (e : Event) : MoveWork P ctx s (s.tell world e) :=
  ⟨List.prefix_append .., fun _ => List.prefix_rfl, rfl⟩

/-- The context is still there, with what stays of it. -/
theorem ctx? {c : Context} (h : MoveWork P ctx s t) (hc : s.ctx? ctx = some c) : ∃ c', t.ctx? ctx = some c' ∧ P c' = P c := by
  have hk := h.kept
  rw [hc] at hk
  exact Option.map_eq_some_iff.1 hk

end MoveWork

theorem GraphWork.move {α : Type} {P : Context → α} {ctx : Nat} {s t : State} (h : GraphWork ctx s t) (hP : ∀ c, P c.spine = P c) :
    MoveWork P ctx s t :=
  ⟨h.events, fun p => by rw [h.ports],
    (MoveWork.part (P := Context.spine) (ctx := ctx) (s := { s with ports := t.ports }) (t := t)
      ⟨h.events, fun _ => List.prefix_rfl, h.spine⟩ P fun c => (hP c).symm).kept⟩

theorem GraphWork.course {ctx : Nat} {s t : State} (h : GraphWork ctx s t) : MoveWork Context.course ctx s t := h.move fun _ => rfl

theorem GraphWork.ctx? {ctx : Nat} {s t : State} {c : Context} (h : GraphWork ctx s t) (hc : s.ctx? ctx = some c) :
    ∃ c', t.ctx? ctx = some c' ∧ c'.spine = c.spine :=
  (h.move (P := Context.spine) fun _ => rfl).ctx? hc

/-! ## Sending -/

theorem set_sent (v : Vector EthPort 4) (p q : Fin 4) {x : EthPort} (h : v[p].sent <+: x.sent) : v[q].sent <+: (v.set p x)[q].sent := by
  by_cases hq : p = q
  · subst hq
    simpa using h
  · have : p.val ≠ q.val := fun h => hq (Fin.ext h)
    simp [this]

theorem sendGram_outside (s : State) (p : Fin 4) (peer : Nat) (g : Datagram) :
    (sendGram s p peer g).outside = (s.ports.set p { s.ports[p] with sent := s.ports[p].sent ++ [(peer, g)] }, s.events) := by
  unfold sendGram
  exact noteSent_outside ..

theorem sendGram_ports (s : State) (p : Fin 4) (peer : Nat) (g : Datagram) :
    (sendGram s p peer g).ports = s.ports.set p { s.ports[p] with sent := s.ports[p].sent ++ [(peer, g)] } :=
  (congrArg Prod.fst (sendGram_outside s p peer g) :)

theorem sendGram_contexts (s : State) (p : Fin 4) (peer : Nat) (g : Datagram) : (sendGram s p peer g).contexts = s.contexts :=
  noteSent_contexts ..

theorem sendGram_work {α : Type} {P : Context → α} (s : State) (ctx : Nat) (p : Fin 4) (peer : Nat) (g : Datagram) :
    MoveWork P ctx s (sendGram s p peer g) := by
  have he : (sendGram s p peer g).events = s.events := (congrArg Prod.snd (sendGram_outside s p peer g) :)
  refine ⟨he ▸ List.prefix_rfl, fun q => ?_, by rw [State.ctx?, sendGram_contexts, State.ctx?]⟩
  rw [sendGram_ports]
  exact set_sent _ _ _ (List.prefix_append ..)

theorem sendCtl_work (s : State) (ctx kind frame : Nat) (awaits : Bool) (seq : Nat) (first : Option Nat) (p : List Byte) :
    MoveWork Context.course ctx s (sendCtl s ctx kind frame awaits seq first p) := by
  unfold sendCtl
  split
  · exact .refl s
  extract_lets g port peer s1
  have h1 : MoveWork Context.course ctx s s1 := sendGram_work s ctx port peer g
  split
  · exact h1.trans (.modCtx s1 fun _ => rfl)
  · exact h1

/-! ## The codec -/

theorem enqueueGram_work (s : State) (ctx : Nat) (c : Context) (e : Nat) (d : EdgeDesc) (g : Datagram) :
    MoveWork Context.course ctx s (enqueueGram s ctx c e d g) := by
  unfold enqueueGram
  exact ⟨List.prefix_rfl, fun q => set_sent _ _ _ List.prefix_rfl, rfl⟩

theorem setCodec_work (s : State) (ctx e : Nat) (k : Codec) : MoveWork Context.course ctx s (setCodec s ctx e k) := .modCtx s fun _ => rfl

theorem sendParity_work (s : State) (ctx e : Nat) : MoveWork Context.course ctx s (sendParity s ctx e) := by
  unfold sendParity
  split
  · exact .refl s
  split
  · exact .refl s
  extract_lets k
  split
  · exact .refl s
  · exact (enqueueGram_work ..).trans (setCodec_work ..)

theorem sendOpen_work (s : State) (ctx e : Nat) : MoveWork Context.course ctx s (sendOpen s ctx e) := by
  unfold sendOpen
  split
  · exact .refl s
  split
  · exact .refl s
  extract_lets k
  split
  · exact .refl s
  rename_i g k' s1 _
  have h1 : MoveWork Context.course ctx s s1 := (enqueueGram_work ..).trans (setCodec_work ..)
  split
  · exact h1.trans (sendParity_work ..)
  · exact h1

theorem codecTake_work (s : State) (ctx e f slot : Nat) (d : EdgeDesc) (p : List Byte) :
    MoveWork Context.course ctx s (codecTake s ctx e f slot d p) := by
  unfold codecTake
  extract_lets s1 r s2
  have h1 : MoveWork Context.course ctx s s1 := by
    simp only [s1]
    split
    · split
      · exact (sendOpen_work ..).trans (sendParity_work ..)
      · exact .refl s
    · exact .refl s
  have h2 : MoveWork Context.course ctx s1 s2 := .modCtx s1 fun _ => rfl
  clear_value s2 s1
  refine .after ?_ (h1.trans h2)
  split
  · split
    · exact sendOpen_work ..
    · exact .refl _
  · exact .refl _

/-! ## Arrivals of data -/

theorem notHere_work (s : State) (ctx : Nat) (c : Context) (d : EdgeDesc) (g : Datagram) :
    MoveWork Context.course ctx s (notHere s ctx c d g) := by
  unfold notHere
  split
  · exact .modCtx s fun _ => rfl
  · exact .refl s

theorem takeData_work {s t : State} {ctx : Nat} {c : Context} {g : Datagram} (h : takeData s ctx c g = .ok t) :
    MoveWork Context.course ctx s t := by
  unfold takeData at h
  split at h
  · cases h; exact .refl _
  split at h
  · cases h; exact notHere_work ..
  split at h
  · cases h
  rename_i s1 hd
  have h1 := ((closeDue_work ..).work _ hd).course
  split at h
  · cases h; exact h1
  extract_lets n s2 at h
  have h2 : GraphWork ctx s1 s2 := .modCtx s1 fun _ => rfl
  clear_value s2
  refine .after ?_ (h1.trans h2.course)
  split at h
  · cases h; exact .modCtx s2 fun _ => rfl
  · cases h; exact (MoveWork.tell ..).after (.modCtx s2 fun _ => rfl)
  · split at h
    · cases h
    rename_i hp
    split at h
    · cases h
    rename_i hu
    exact ((((placeGram_work ..).work _ hp).trans ((useParities_work ..).work _ hu)).trans ((advanceEdge_work ..).work _ h)).course

theorem takeParity_work {s t : State} {ctx : Nat} {c : Context} {g : Datagram} (h : takeParity s ctx c g = .ok t) :
    MoveWork Context.course ctx s t := by
  unfold takeParity at h
  split at h
  · cases h; exact .refl _
  split at h
  · cases h; exact notHere_work ..
  split at h
  · cases h
  rename_i s1 hd
  have h1 := ((closeDue_work ..).work _ hd).course
  split at h
  · cases h; exact h1
  split at h
  · cases h; exact h1
  · cases h; exact h1
  · extract_lets s2 at h
    have h2 : GraphWork ctx s1 s2 := .modCtx s1 fun _ => rfl
    clear_value s2
    split at h
    · cases h
    rename_i hu
    exact h1.trans ((h2.trans ((useParities_work ..).work _ hu)).trans ((advanceEdge_work ..).work _ h)).course

/-! ## Hand-over -/

theorem State.modMove_course (s : State) (ctx : Nat) {f : Move → Move} (hf : ∀ m, (f m).course = m.course) :
    MoveWork Context.course ctx s (s.modMove ctx f) :=
  .modCtx s fun c => by
    have h := hf c.move
    simp only [Context.course, Context.spine, h]

theorem stageBytes_work {s t : State} {ctx n : Nat} {c : Context} {bs : List Byte} (h : stageBytes s ctx c n = .ok (t, bs)) :
    GraphWork ctx s t := by
  unfold stageBytes at h
  split at h
  · cases h; exact .refl _
  extract_lets hist at h
  clear_value hist
  split at h
  · cases h; exact .refl _
  split at h <;> cases h
  exact gread_work ‹_›

theorem sendStage_work {s t : State} {ctx n : Nat} {c : Context} (h : sendStage s ctx c n = .ok t) :
    MoveWork Context.course ctx s t := by
  unfold sendStage at h
  split at h
  · cases h
  rename_i s1 bs hb
  have h1 := (stageBytes_work hb).course
  extract_lets total s2 s3 at h
  have h2 : MoveWork Context.course ctx s1 s2 := by
    simp only [s2]
    split
    · exact .refl _
    · exact (sendCtl_work ..).trans (State.modMove_course _ ctx fun _ => rfl)
  have h3 : MoveWork Context.course ctx s2 s3 := .foldl (fun s k => by exact sendCtl_work ..) _ _
  cases h
  exact ((h1.trans h2).trans h3).trans (State.modMove_course _ ctx fun _ => rfl)

theorem noteDone_work (s : State) (ctx : Nat) : MoveWork Context.course ctx s (noteDone s ctx) := by
  unfold noteDone
  split
  · exact .refl s
  split
  · exact .refl s
  · exact State.modMove_course s ctx fun _ => rfl

theorem runGraph_course {ctx : Nat} {s : State} {r : Except GStop State} (h : ∀ t, r = .ok t → MoveWork Context.course ctx s t)
    (world : Nat) : MoveWork Context.course ctx s (runGraph s ctx world r) := by
  unfold runGraph
  split
  · exact h _ rfl
  · exact (graphStop_work ..).course

theorem sendStages_work (s : State) (ctx : Nat) : MoveWork Context.course ctx s (sendStages s ctx) := by
  unfold sendStages
  split
  · exact .refl s
  split
  · exact .refl s
  refine .foldl (fun s n => ?_) _ _
  split
  · exact .refl s
  split
  · exact .refl s
  · exact runGraph_course (fun _ h => sendStage_work h) _

theorem takeHeld_work (s : State) (ctx : Nat) : MoveWork Context.course ctx s (takeHeld s ctx) := by
  unfold takeHeld
  split
  · exact .refl s
  split
  · exact .refl s
  refine .foldl (fun s g => ?_) _ _
  split
  · exact .refl s
  split
  · rename_i u hu
    refine MoveWork.trans ?_ (State.modMove_course u ctx fun _ => rfl)
    split at hu
    · exact takeData_work hu
    · exact takeParity_work hu
  · exact (graphStop_work ..).course

theorem takeHistories_spine (c : Context) (n : Nat) (bs : List Byte) : (takeHistories c n bs).spine = c.spine := by
  unfold takeHistories
  exact foldl_keeps (fun a : Context × List Byte => a.1.spine = c.spine) _ (fun a p ha => by exact ha) _ _ rfl

theorem takeStage_work {s t : State} {ctx n : Nat} {c : Context} (h : takeStage s ctx c n = .ok t) :
    MoveWork Context.course ctx s t := by
  unfold takeStage at h
  split at h
  · rename_i bs nd _ _
    split at h
    · cases h
    rename_i s1 hw
    have h1 : GraphWork ctx s s1 := by
      split at hw
      · cases hw; exact .refl _
      · exact (gwrite_work ..).work _ hw
    extract_lets s2 s3 at h
    have h2 : GraphWork ctx s1 s2 := .modCtx s1 fun c => takeHistories_spine ..
    have h3 : MoveWork Context.course ctx s2 s3 := State.modMove_course s2 ctx fun _ => rfl
    clear_value s3 s2
    exact ((h1.trans h2).course.trans h3).trans ((publish_work s3 ctx).trans ((launchNode_work ..).work _ h)).course
  · cases h; exact .refl _

theorem takeStages_work (s : State) (ctx : Nat) : MoveWork Context.course ctx s (takeStages s ctx) := by
  unfold takeStages
  split
  · exact .refl s
  split
  · exact .refl s
  refine .foldl (fun s n => ?_) _ _
  split
  · exact .refl s
  split
  · exact .refl s
  · exact runGraph_course (fun _ h => takeStage_work h) _

/-! ## The end of a move -/

theorem finishMove_work (s : State) (ctx : Nat) : MoveWork Context.unmoved ctx s (finishMove s ctx) := by
  unfold finishMove
  split
  · exact .refl s
  split
  · exact .refl s
  · refine .after ((freeLaunches_work _ ctx).move fun _ => rfl) ?_
    exact (MoveWork.tell ..).after (.modCtx s fun _ => rfl)

theorem MoveWork.unmoved {ctx : Nat} {s t : State} (h : MoveWork Context.course ctx s t) : MoveWork Context.unmoved ctx s t :=
  h.part (fun c => { c with cut := 0, past := [], move := Move.fresh 0 }) fun _ => rfl

theorem moveOn_work (s : State) (ctx : Nat) : MoveWork Context.unmoved ctx s (moveOn s ctx) :=
  ((((noteDone_work s ctx).trans (sendStages_work ..)).trans (takeHeld_work ..)).trans (takeStages_work ..)).unmoved.trans
    (finishMove_work ..)

/-! ## Entering COMMITTED -/

theorem foldl_settleBase_spine (l : List Nat) (c : Context) : (l.foldl settleBase c).spine = c.spine :=
  foldl_keeps (fun a : Context => a.spine = c.spine) _ (fun a e ha => (settleBase_spine a e).trans ha) l c rfl

/-- A context whose phase has stepped, and whose edges have settled (05 R149). -/
def Context.stepped (c : Context) : Context :=
  let c := { c with phase := c.phase + 1, move := { c.move with phaseDone := true } }
  (List.range c.img.edges.length).foldl settleBase c

theorem Context.stepped_spine (c : Context) :
    c.stepped.spine = { c.spine with phase := c.phase + 1, move := { c.move with phaseDone := true } } :=
  foldl_settleBase_spine ..

theorem stepPhase_ctx? (s : State) (ctx : Nat) (c : Context) : (stepPhase s ctx c).ctx? ctx = (s.ctx? ctx).map Context.stepped := by
  unfold stepPhase
  extract_lets s1
  have h1 : s1.ctx? ctx = s.ctx? ctx := by
    simp only [s1]
    split <;> rfl
  rw [State.modCtx_ctx?, State.modCtx_ctx?, h1, Option.map_map]
  rfl

theorem stepPhase_outside (s : State) (ctx : Nat) (c : Context) : (stepPhase s ctx c).outside = s.outside := by
  unfold stepPhase
  split <;> rfl

theorem stepPhase_work (s : State) (ctx : Nat) (c : Context) : MoveWork Context.unphased ctx s (stepPhase s ctx c) := by
  have ho := OnlyTells.of_outside (stepPhase_outside s ctx c)
  refine ⟨ho.events, fun p => by rw [ho.ports], ?_⟩
  have hs (c : Context) : c.stepped.unphased = c.unphased := by
    change c.stepped.spine.unphased = c.unphased
    rw [c.stepped_spine]
    rfl
  simp [stepPhase_ctx?, Function.comp_def, hs]

theorem rephase_outside (s : State) (c : Context) (p : Nat) : (rephase s c p).outside = s.outside := by
  unfold rephase
  exact foldl_outside (fun s r => by split <;> rfl) _ _

theorem rephase_contexts (s : State) (c : Context) (p : Nat) : (rephase s c p).contexts = s.contexts := by
  unfold rephase
  exact foldl_contexts (fun s r => by split <;> rfl) _ _

theorem startMoved_work (s : State) (ctx : Nat) (c : Context) (cur : Nat) : OkWork ctx s (startMoved s ctx c cur) := by
  refine ⟨fun t h => ?_⟩
  unfold startMoved at h
  refine foldl_ok_work id (fun x f => ?_) (fun a f b hb => ?_) h
  · exact foldl_keeps (fun r : Except GStop State => r = .error x) _ (fun a n ha => by rw [ha]) _ _ rfl
  · exact foldl_ok_work id (fun _ _ => rfl) (fun v n w hw => (startNode_work v ctx f n).work w hw) hb

theorem lateCommit_work (s : State) (ctx : Nat) : MoveWork Context.unphased ctx s (lateCommit s ctx) := by
  unfold lateCommit
  split
  · exact .refl s
  rename_i c _
  split
  · exact .refl s
  split
  · exact .refl s
  extract_lets s1
  have h1 : MoveWork Context.unphased ctx s s1 := stepPhase_work s ctx c
  clear_value s1
  split
  · exact h1
  rename_i c1 _
  extract_lets r s2
  have h2 : GraphWork ctx s1 s2 := (ensurePhase_work s1 ctx c1 c1.phase).trans (.of_outside (rephase_outside ..) (rephase_contexts ..))
  clear_value s2
  exact h1.trans ((h2.trans (runGraph_work (startMoved_work ..) _)).move fun _ => rfl)

theorem routeOut_work (s : State) (ctx e : Nat) (d : EdgeDesc) (x : EdgeState) (frames : List EdgeFrame) :
    MoveWork Context.course ctx s (routeOut s ctx e d x frames) := by
  unfold routeOut
  extract_lets s1
  have h1 : GraphWork ctx s s1 := .modCtx s fun _ => rfl
  clear_value s1
  refine h1.course.trans (.foldl (fun s k => .foldl (fun s i => ?_) _ _) _ _)
  split
  · exact codecTake_work ..
  · exact .refl s

theorem vmap_getElem {α β : Type} {n : Nat} (f : α → β) (v : Vector α n) (p : Fin n) : (vmap f v)[p] = f v[p] := by
  simp [vmap]

theorem routeIn_work (s : State) (ctx e : Nat) (c : Context) (d : EdgeDesc) : MoveWork Context.course ctx s (routeIn s ctx e c d) := by
  unfold routeIn
  extract_lets f stale ports full s1
  have h1 : MoveWork Context.course ctx s { s with ports := ports } :=
    ⟨List.prefix_rfl, fun p => by simp only [ports, vmap_getElem]; exact List.prefix_rfl, rfl⟩
  have h2 : GraphWork ctx { s with ports := ports } s1 := .modCtx _ fun c => settleBase_spine ..
  clear_value s1 ports
  exact (h1.trans h2.course).trans (runGraph_work (advanceEdge_work ..) _).course

theorem reroute_work (s : State) (ctx e : Nat) : MoveWork Context.course ctx s (reroute s ctx e) := by
  unfold reroute
  split
  · exact .refl s
  split
  · exact .refl s
  extract_lets f x nums
  split
  · exact routeOut_work ..
  split
  · exact routeIn_work ..
  · exact .refl s

theorem zeroCounts_spine (c : Context) : (zeroCounts c).spine = c.spine := by
  unfold zeroCounts
  refine foldl_keeps (fun a : Context => a.spine = c.spine) _ (fun a e ha => ?_) _ _ rfl
  split
  · split <;> exact ha
  · exact ha

theorem takeEntry_spine (old : Nat) (c : Context) (bs : List Byte) : (takeEntry old c bs).spine = c.spine := by
  unfold takeEntry
  extract_lets e
  split <;> rfl

theorem takeTable_spine (c : Context) (bs : List Byte) : (takeTable c bs).spine = c.spine := by
  unfold takeTable
  exact foldl_keeps (fun a : Context => a.spine = c.spine) _ (fun a i ha => (takeEntry_spine ..).trans ha) _ _ rfl

/-- A context whose move has just been committed. -/
def Context.commit (c : Context) : Context := dropGiven { c with move := { c.move with state := .committed, phaseDone := false } }

/-- What a chip does on entering COMMITTED keeps the committed move. -/
theorem enterCommitted_work (s : State) (ctx : Nat) :
    MoveWork Context.unphased ctx (s.modCtx ctx Context.commit) (enterCommitted s ctx) := by
  unfold enterCommitted
  extract_lets s1 s2 s3
  have h2 : MoveWork Context.course ctx s1 s2 :=
    ((noteDone_work s1 ctx).trans (sendStages_work ..)).trans (GraphWork.modCtx _ zeroCounts_spine).course
  have h3 : MoveWork Context.course ctx s2 s3 := by
    simp only [s3]
    split
    · refine .after (.foldl (fun s e => reroute_work ..) _ _) (GraphWork.course ?_)
      split
      · exact .modCtx s2 fun c => takeTable_spine ..
      · exact .refl _
    · exact .refl _
  clear_value s3 s2
  have h (s t : State) (h : MoveWork Context.course ctx s t) : MoveWork Context.unphased ctx s t :=
    h.part (fun c => { c with phase := 0, move := { c.move with phaseDone := false } }) fun _ => rfl
  exact (((h _ _ (h2.trans h3)).trans (lateCommit_work ..)).trans ((freeLaunches_work ..).move fun _ => rfl)).trans (h _ _ (takeHeld_work ..))

end Sys2Proof.Machine
end

section
/-! A move at the start of a frame and at the deadlines of frames (05 R121, R123, R128, R145). -/

namespace Sys2Proof.Machine

open Sys2Proof

theorem State.modMove_ctx? {s : State} {ctx : Nat} {c : Context} (hc : s.ctx? ctx = some c) (f : Move → Move) :
    (s.modMove ctx f).ctx? ctx = some { c with move := f c.move } := by
  rw [State.modMove, State.modCtx_ctx?, hc, Option.map_some]

/-! ## What a move can do now -/

section
variable {s : State} {ctx : Nat} {c : Context} (hc : s.ctx? ctx = some c)
include hc

theorem finishMove_of_not_committed (h : c.move.state ≠ .committed) : finishMove s ctx = s := by
  simp [finishMove, hc, moveDone, h]

theorem takeStages_of_not_committed (h : c.move.state ≠ .committed) : takeStages s ctx = s := by simp [takeStages, hc, h]

theorem takeHeld_of_not_committed (h : c.move.state ≠ .committed) : takeHeld s ctx = s := by simp [takeHeld, hc, h]

theorem sendStages_of_not_committed (h : c.move.state ≠ .committed) : sendStages s ctx = s := by simp [sendStages, hc, h]

theorem moveOn_idle (h : c.move.state = .idle) : moveOn s ctx = s := by
  have hn : c.move.state ≠ .committed := by simp [h]
  have hd : noteDone s ctx = s := by simp [noteDone, hc, h]
  rw [moveOn, hd, sendStages_of_not_committed hc hn, takeHeld_of_not_committed hc hn, takeStages_of_not_committed hc hn,
    finishMove_of_not_committed hc hn]

/-- A move that is not committed only notes which stages are complete. -/
theorem moveOn_of_not_committed (hi : c.move.state ≠ .idle) (hn : c.move.state ≠ .committed) :
    ∃ l, moveOn s ctx = s.modMove ctx fun m => { m with doneStages := l } := by
  obtain ⟨l, hl⟩ : ∃ l, noteDone s ctx = s.modMove ctx fun m => { m with doneStages := l } := ⟨_, by simp [noteDone, hc, hi]; rfl⟩
  have hd : (noteDone s ctx).ctx? ctx = some { c with move := { c.move with doneStages := l } } := by
    rw [hl, State.modMove_ctx? hc]
  refine ⟨l, ?_⟩
  rw [moveOn, sendStages_of_not_committed hd hn, takeHeld_of_not_committed hd hn, takeStages_of_not_committed hd hn,
    finishMove_of_not_committed hd hn, hl]

theorem moveOn_course (hn : c.move.state ≠ .committed) : MoveWork Context.course ctx s (moveOn s ctx) := by
  by_cases hi : c.move.state = .idle
  · rw [moveOn_idle hc hi]
    exact .refl s
  · obtain ⟨l, hl⟩ := moveOn_of_not_committed hc hi hn
    rw [hl]
    exact State.modMove_course s ctx fun _ => rfl

end

/-! ## A move at the start of a frame (05 R145) -/

theorem sendPropose_work (s : State) (ctx : Nat) : MoveWork Context.course ctx s (sendPropose s ctx) := by
  unfold sendPropose
  split
  · exact (sendCtl_work ..).after (State.modMove_course s ctx fun _ => rfl)
  · exact .refl s

/-- A context but for its move, its cut and its phase. -/
def Context.steady (c : Context) : Context := { c.unmoved with phase := 0 }

theorem MoveWork.steady {ctx : Nat} {s t : State} (h : MoveWork Context.unmoved ctx s t) : MoveWork Context.steady ctx s t :=
  h.part (fun c => { c with phase := 0 }) fun _ => rfl

theorem MoveWork.steady_of_unphased {ctx : Nat} {s t : State} (h : MoveWork Context.unphased ctx s t) : MoveWork Context.steady ctx s t :=
  h.part (fun c => { c with cut := 0, past := [], move := Move.fresh 0 }) fun _ => rfl

theorem State.modMove_steady (s : State) (ctx : Nat) (f : Move → Move) : MoveWork Context.steady ctx s (s.modMove ctx f) :=
  .modCtx s fun _ => rfl

theorem abortEvent_work {α : Type} {P : Context → α} (s : State) (ctx : Nat) (b : Bool) : MoveWork P ctx s (abortEvent s ctx b) := by
  unfold abortEvent
  split
  · exact .tell ..
  · exact .refl s

theorem moveAtFrame_work (s : State) (ctx f : Nat) : MoveWork Context.steady ctx s (moveAtFrame s ctx f) := by
  unfold moveAtFrame
  split
  · exact .refl s
  rename_i c _
  split
  · split
    · exact .refl s
    split
    · exact (((State.modMove_steady ..).trans (sendPropose_work ..).unmoved.steady).trans (freeLaunches_work ..).course.unmoved.steady).trans
        (.tell ..)
    · exact (((State.modMove_steady ..).trans (State.modMove_steady ..)).trans (sendCtl_work ..).unmoved.steady).trans (abortEvent_work ..)
  · split
    · exact (moveOn_work ..).steady
    · exact (stepPhase_work s ctx c).steady_of_unphased.trans (moveOn_work ..).steady
  · exact .refl s

/-- The graph unit's work that follows the start of a frame: the frame's run is made, and what can be launched is. -/
def frameWork (s : State) (ctx f : Nat) : State :=
  let s := match s.ctx? ctx with
    | some c => (ensureRun s ctx c f).1
    | none => s
  settleRaster (freeLaunches s ctx) ctx

theorem frameWork_work (s : State) (ctx f : Nat) : GraphWork ctx s (frameWork s ctx f) := by
  refine .trans ?_ ((freeLaunches_work ..).trans (settleRaster_work ..))
  split
  · exact ensureRun_work ..
  · exact .refl s

/-- What follows once the nodes have started a frame and it is the current one. -/
def enterFrame (s : State) (ctx f : Nat) : State := moveOn (frameWork (moveAtFrame s ctx f) ctx f) ctx

section
variable {s : State} {ctx f : Nat} {c : Context} (hc : s.ctx? ctx = some c)
include hc

theorem moveAtFrame_other (hp : c.move.state ≠ .proposed) (hn : c.move.state ≠ .committed) : moveAtFrame s ctx f = s := by
  unfold moveAtFrame
  rw [hc]
  split <;> simp_all

theorem enterFrame_steady : ∃ c', (enterFrame s ctx f).ctx? ctx = some c' ∧ c'.steady = c.steady :=
  (((moveAtFrame_work s ctx f).trans (frameWork_work ..).course.unmoved.steady).trans (moveOn_work ..).steady).ctx? hc

theorem enterFrame_idle (hs : c.move.state = .idle) : ∃ c', (enterFrame s ctx f).ctx? ctx = some c' ∧ c'.spine = c.spine := by
  obtain ⟨c', h', hk⟩ := (frameWork_work s ctx f).ctx? hc
  have hm : c'.move = c.move := (congrArg Context.move hk :)
  refine ⟨c', ?_, hk⟩
  rw [enterFrame, moveAtFrame_other hc (by simp [hs]) (by simp [hs]), moveOn_idle h' (by rw [hm, hs]), h']

theorem enterFrame_ahead (hs : c.move.state = .proposed) (hf : f + 1 < c.move.frame) :
    ∃ c' l, (enterFrame s ctx f).ctx? ctx = some c' ∧ c'.move = { c.move with doneStages := l } := by
  obtain ⟨c', h', hk⟩ := (frameWork_work s ctx f).ctx? hc
  have hm : c'.move = c.move := (congrArg Context.move hk :)
  obtain ⟨l, hl⟩ := moveOn_of_not_committed h' (by simp [hm, hs]) (by simp [hm, hs])
  refine ⟨{ c' with move := { c'.move with doneStages := l } }, l, ?_, by rw [hm]⟩
  have ha : moveAtFrame s ctx f = s := by simp [moveAtFrame, hc, hs, hf]
  rw [enterFrame, ha, hl, State.modMove_ctx? h']

omit hc in
/-- What follows in a frame that leaves the move open keeps the move's course and the events. -/
theorem enterFrame_open {q : State} {c1 : Context} (hq : moveAtFrame s ctx f = q) (h1 : q.ctx? ctx = some c1) (hn : c1.move.state ≠ .committed) :
    ∃ c', (enterFrame s ctx f).ctx? ctx = some c' ∧ c'.course = c1.course ∧ q.events <+: (enterFrame s ctx f).events := by
  have hw := frameWork_work q ctx f
  obtain ⟨c2, h2, hk⟩ := hw.ctx? h1
  have hm : c2.move = c1.move := (congrArg Context.move hk :)
  have hall := hw.course.trans (moveOn_course h2 (by rwa [hm]))
  obtain ⟨c', h', hk'⟩ := hall.ctx? h1
  rw [enterFrame, hq]
  exact ⟨c', h', hk', hall.events⟩

theorem enterFrame_defers (hs : c.move.state = .proposed) (hf : c.move.frame ≤ f + 1) (hd : c.move.deferrals < 3) :
    ∃ c', (enterFrame s ctx f).ctx? ctx = some c' ∧
      c'.course = { c with move := { c.move with deferrals := c.move.deferrals + 1, frame := c.move.frame + 1 } }.course ∧
      (c.world, .cutDefer ctx (c.move.frame + 1)) ∈ (enterFrame s ctx f).events := by
  let s1 := s.modMove ctx fun m => { m with deferrals := m.deferrals + 1, frame := m.frame + 1 }
  have h1 : s1.ctx? ctx = some { c with move := { c.move with deferrals := c.move.deferrals + 1, frame := c.move.frame + 1 } } :=
    State.modMove_ctx? hc _
  have hq : moveAtFrame s ctx f = (freeLaunches (sendPropose s1 ctx) ctx).tell c.world (.cutDefer ctx (c.move.frame + 1)) := by
    simp [moveAtFrame, hc, hs, hd, Nat.not_lt.2 hf, s1]
  obtain ⟨c2, h2, hk⟩ := ((sendPropose_work s1 ctx).trans (freeLaunches_work ..).course).ctx? h1
  have hst : c2.move.state = .proposed := (congrArg (fun c => c.move.state) hk :).trans hs
  obtain ⟨c', h', hk', he⟩ := enterFrame_open hq (c1 := c2) h2 (by simp [hst])
  exact ⟨c', h', hk'.trans hk, he.subset (List.mem_append_right _ (List.mem_singleton_self _))⟩

theorem enterFrame_aborts (hs : c.move.state = .proposed) (hf : c.move.frame ≤ f + 1) (hd : 3 ≤ c.move.deferrals) :
    ∃ c', (enterFrame s ctx f).ctx? ctx = some c' ∧ c'.course = { c with move := { c.move with state := .aborting } }.course ∧
      (c.world, .cutAbort ctx false) ∈ (enterFrame s ctx f).events := by
  let s1 := (stopCtl s ctx (isKind 0x10)).modMove ctx fun m => { m with state := .aborting }
  obtain ⟨c1, h1, hk1⟩ : ∃ c1, s1.ctx? ctx = some c1 ∧ c1.course = { c with move := { c.move with state := .aborting } }.course :=
    ⟨_, State.modMove_ctx? (State.modMove_ctx? hc _) _, rfl⟩
  let s2 := sendCtl s1 ctx 0x14 c.move.frame true
  obtain ⟨c2, h2, hk2⟩ := (sendCtl_work s1 ctx 0x14 c.move.frame true 0 none []).ctx? h1
  have hk := hk2.trans hk1
  have hw : c2.world = c.world := (congrArg Context.world hk :)
  have hst : c2.move.state = .aborting := (congrArg (fun c => c.move.state) hk :)
  have hq : moveAtFrame s ctx f = s2.tell c.world (.cutAbort ctx false) := by
    have ha : abortEvent s2 ctx false = s2.tell c.world (.cutAbort ctx false) := by
      rw [abortEvent, h2, ← hw]
    simp [moveAtFrame, hc, hs, Nat.not_lt.2 hd, Nat.not_lt.2 hf, ← ha, s1, s2]
  obtain ⟨c', h', hk', he⟩ := enterFrame_open hq (c1 := c2) h2 (by simp [hst])
  exact ⟨c', h', hk'.trans hk, he.subset (List.mem_append_right _ (List.mem_singleton_self _))⟩

theorem enterFrame_steps (hs : c.move.state = .committed) (hf : c.move.frame ≤ f) (hd : c.move.phaseDone = false) :
    ∃ c', (enterFrame s ctx f).ctx? ctx = some c' ∧ c'.phase = c.phase + 1 := by
  have h1 : (stepPhase s ctx c).ctx? ctx = some c.stepped := by rw [stepPhase_ctx?, hc, Option.map_some]
  have hq : moveAtFrame s ctx f = moveOn (stepPhase s ctx c) ctx := by simp [moveAtFrame, hc, hs, hd, Nat.not_lt.2 hf]
  obtain ⟨c', h', hk⟩ := (((moveOn_work (stepPhase s ctx c) ctx).trans (frameWork_work _ ctx f).course.unmoved).trans (moveOn_work ..)).ctx? h1
  rw [enterFrame, hq]
  refine ⟨c', h', ?_⟩
  calc c'.phase = c.stepped.phase := (congrArg Context.phase hk :)
    _ = c.phase + 1 := (congrArg Context.phase c.stepped_spine :)

end

/-! ## The start of a frame (05 R121) -/

section
variable {s : State} {ctx : Nat} {c : Context} (hc : s.ctx? ctx = some c)
include hc

theorem frameStart_waits (h : c.stopped = true ∨ (s.micros : Int) + c.offset < c.img.epoch + nextFrame c * c.img.period) :
    execFrameStart ctx s = .next s := by
  have h' : (c.stopped || decide (s.ctxNow c < c.frameStart (nextFrame c))) = true := by
    rw [Bool.or_eq_true, decide_eq_true_iff, State.ctxNow, Context.frameStart]
    push_cast
    exact h
  simp [execFrameStart, hc, h']

omit hc
variable (hs : c.stopped = false) (ht : (c.img.epoch : Int) + nextFrame c * c.img.period ≤ s.micros + c.offset)
include hs ht

theorem frameStart_due : (c.stopped || decide (s.ctxNow c < c.frameStart (nextFrame c))) = false := by
  rw [hs, Bool.false_or, decide_eq_false_iff_not, State.ctxNow, Context.frameStart]
  push_cast
  omega

include hc

theorem frameStart_stops {g : GStop} (h : startNodes s ctx (nextFrame c) c = .error g) :
    execFrameStart ctx s = .next (graphStop s ctx c.world g) := by
  simp only [execFrameStart, hc, frameStart_due hs ht, h, Bool.false_eq_true, if_false]

theorem frameStart_enters {s1 : State} (h : startNodes s ctx (nextFrame c) c = .ok s1) :
    execFrameStart ctx s = .next (enterFrame (s1.modCtx ctx fun x => { x with current := some (nextFrame c) }) ctx (nextFrame c)) := by
  unfold execFrameStart
  rw [hc]
  simp only [frameStart_due hs ht, Bool.false_eq_true, if_false]
  rw [h]
  rfl

end
end Sys2Proof.Machine
end

section
/-! Deadlines of frames, the launches of batches, and datagrams that leave or expire (05 R121 to R125, R128, R139). -/

namespace Sys2Proof.Machine

open Sys2Proof

theorem Context.edgeOf_modEdge_same (c : Context) (e : Nat) (f : EdgeState → EdgeState) : (c.modEdge e f).edgeOf e = f (c.edgeOf e) := by
  simp [Context.modEdge, Context.edgeOf]

/-! ## A node's deadline (05 R123) -/

section
variable {s : State} {ctx n : Nat} {c : Context} {x : NodeDesc} (hc : s.ctx? ctx = some c) (hx : c.node? n = some x)
include hc hx

theorem nodeFrameDeadline_waits {f : Nat}
    (h : ¬ ((c.img.epoch : Int) + f * c.img.period + x.deadline ≤ s.micros + c.offset ∧ ∃ k, c.current = some k ∧ f ≤ k) ∨ x.trigger = 0xFF) :
    execNodeFrameDeadline ctx n f s = .next s := by
  simp only [execNodeFrameDeadline, hc, hx]
  rw [if_pos]
  rw [Bool.or_eq_true, Bool.not_eq_true', Bool.and_eq_false_iff, decide_eq_false_iff_not, beq_iff_eq, Context.frameStart, State.ctxNow]
  push_cast
  refine h.imp_left fun hn => ?_
  rw [not_and_or] at hn
  refine hn.imp_right fun hk => ?_
  cases hcur : c.current with
  | none => rfl
  | some k => exact decide_eq_false fun hf => hk ⟨k, hcur, hf⟩

theorem nodeFrameDeadline_due {f : Nat} (hp : (c.img.epoch : Int) + f * c.img.period + x.deadline ≤ s.micros + c.offset)
    (hk : ∃ k, c.current = some k ∧ f ≤ k) (ht : x.trigger ≠ 0xFF) :
    let s1 := markDeadlines s ctx x.trigger
    execNodeFrameDeadline ctx n f s = .next (moveOn (runGraph s1 ctx c.world (launchNode s1 ctx n)) ctx) := by
  obtain ⟨k, hcur, hf⟩ := hk
  simp only [execNodeFrameDeadline, hc, hx, hcur]
  rw [if_neg]
  rw [Context.frameStart, State.ctxNow]
  push_cast
  simp [hp, hf, ht]

/-- Each frame of the trigger edge that is past the node's deadline keeps how far it is delivered. -/
theorem markDeadlines_frames {d : EdgeDesc} (hd : c.edge? x.trigger = some d) (hn : d.consumer = n) :
    ∃ c1, (markDeadlines s ctx x.trigger).ctx? ctx = some c1 ∧ { markDeadlines s ctx x.trigger with contexts := s.contexts } = s ∧
      ∀ (i : Nat) (k : EdgeFrame), (c.edgeOf x.trigger).frames[i]? = some k →
        let passed : Prop := (c.img.epoch : Int) + k.frame * c.img.period + x.deadline ≤ s.micros + c.offset
        (k.cutAt.isSome = true ∨ ¬ passed → (c1.edgeOf x.trigger).frames[i]? = some k) ∧
        (k.cutAt = none → passed → (c1.edgeOf x.trigger).frames[i]? = some { k with cutAt := some k.delivered }) := by
  subst hn
  have hb : ((c.edge? x.trigger).bind fun d => c.node? d.consumer) = some x := by rw [hd]; exact hx
  simp only [markDeadlines, hc, hb, ne_eq, not_true_eq_false, if_false, State.modCtx_ctx?, Option.map_some, Option.some.injEq, exists_eq_left',
    Context.edgeOf_modEdge_same]
  refine ⟨rfl, fun i k hk => ?_⟩
  have hp : (c.frameStart k.frame + x.deadline ≤ s.ctxNow c) ↔
      (c.img.epoch : Int) + k.frame * c.img.period + x.deadline ≤ s.micros + c.offset := by
    rw [Context.frameStart, State.ctxNow]
    push_cast
    rfl
  simp only [List.getElem?_map, hk, Option.map_some, hp]
  refine ⟨fun h => ?_, fun h hq => ?_⟩
  · rw [if_neg]
    rw [Bool.and_eq_true, decide_eq_true_iff]
    rintro ⟨hi, hq⟩
    obtain hs | hs := h
    · simp [Option.isNone_iff_eq_none.1 hi] at hs
    · exact hs hq
  · simp [h, hq]

end

/-! ## Batches (05 R123, R125) -/

/-- Where the batch that is next to be taken ends. -/
def batchEnd (d : EdgeDesc) (k : EdgeFrame) : Nat := min ((k.taken / d.batch + 1) * d.batch) d.slots

theorem nextBatch_none {d : EdgeDesc} {k : EdgeFrame} (hcut : ∀ e ∈ k.cutAt, e ≤ k.taken ∨ batchEnd d k ≤ e)
    (hd : k.delivered < batchEnd d k) : nextBatch d k = none := by
  have hw : ¬ batchEnd d k ≤ k.delivered := by omega
  unfold batchEnd at *
  cases h : k.cutAt with
  | none => simp [nextBatch, h, hw]
  | some e =>
    have he := hcut e (by simp [h])
    have hn : ¬ (k.taken < e ∧ e < min ((k.taken / d.batch + 1) * d.batch) d.slots) := by omega
    simp only [nextBatch, h, if_neg hn, if_neg hw]

theorem nextBatch_late {d : EdgeDesc} {k : EdgeFrame} {hi : Nat} (hcut : k.cutAt = some hi) (hlo : k.taken < hi) (hhi : hi < batchEnd d k) :
    nextBatch d k = some (hi, true) := by
  unfold batchEnd at hhi
  simp only [nextBatch, hcut, if_pos (And.intro hlo hhi)]

theorem nextBatch_whole {d : EdgeDesc} {k : EdgeFrame} (hcut : ∀ e ∈ k.cutAt, e ≤ k.taken ∨ batchEnd d k ≤ e)
    (hd : batchEnd d k ≤ k.delivered) : nextBatch d k = some (batchEnd d k, false) := by
  unfold batchEnd at *
  cases h : k.cutAt with
  | none => simp only [nextBatch, h, if_pos hd]
  | some e =>
    have he := hcut e (by simp [h])
    have hn : ¬ (k.taken < e ∧ e < min ((k.taken / d.batch + 1) * d.batch) d.slots) := by omega
    simp only [nextBatch, h, if_neg hn, if_pos hd]

section
variable {s : State} {ctx n : Nat} {c : Context} {x : NodeDesc} {d : EdgeDesc} {k : EdgeFrame} (hc : s.ctx? ctx = some c)
  (hx : c.node? n = some x) (hd : c.edge? x.trigger = some d) (hk : nextTaken d (c.edgeOf x.trigger) = some k)
include hc hx hd hk

theorem launchReady_barred (fuel : Nat) (hm : c.mayLaunch n k.frame = false) : launchReady ctx n (fuel + 1) s = .ok s := by
  simp [launchReady, hc, hx, hd, hk, hm]

variable (hm : c.mayLaunch n k.frame = true) (h2 : x.kind ≠ 2)
include hm h2

theorem launchReady_waits (fuel : Nat) (hb : nextBatch d k = none) : launchReady ctx n (fuel + 1) s = .ok s := by
  simp [launchReady, hc, hx, hd, hk, hm, h2, hb]

theorem launchReady_takes (fuel : Nat) {hi : Nat} {late : Bool} {s2 : State} (hb : nextBatch d k = some (hi, late))
    (hr : launchRange ctx n x.trigger k.frame late (hi - k.taken) k.taken hi s = .ok s2) :
    launchReady ctx n (fuel + 1) s = launchReady ctx n fuel s2 := by
  simp [launchReady, hc, hx, hd, hk, hm, h2, hb, hr]

end

/-! ## The launch of a batch (05 R124, R125, R133) -/

theorem ensureRun_launches (s : State) (ctx : Nat) (c : Context) (f : Nat) : (ensureRun s ctx c f).1.launches = s.launches := by
  have ho (w : Nat) : (openJob s w).1.launches = s.launches := by
    unfold openJob
    split <;> rfl
  have hp (p : Nat) : (ensurePhase s ctx c p).1.launches = s.launches := by
    unfold ensurePhase
    split
    · rfl
    · exact ho _
  unfold ensureRun
  split
  · rfl
  · exact hp _

section
variable {s : State} {ctx n : Nat} {b : Batch} {c : Context} {x : NodeDesc} (hc : s.ctx? ctx = some c) (hx : c.node? n = some x)
include hc hx

theorem graphLaunch_dead (h : runDead s ctx c b.frame = true) : ∃ t, graphLaunch s ctx n b = .ok t ∧ t.launches = s.launches :=
  ⟨(ensureRun s ctx c b.frame).1, by simp only [graphLaunch, hc, hx, h, if_true], ensureRun_launches ..⟩

theorem graphLaunch_compute {s1 : State} {bs : List Byte} {d : LaunchDesc} (h : runDead s ctx c b.frame = false) (hk : x.kind = 0)
    (hr : gread s ctx n c.world x.launch 256 = .ok (s1, bs)) (hd : graphDesc s1 ctx c.world x.launch bs = some d) :
    ∃ t l id, graphLaunch s ctx n b = .ok t ∧ t.launches.get? id = some l ∧ l.graphMade = true ∧ l.node = n ∧ l.frame = b.frame ∧
      l.ctx = ctx ∧ l.desc = d ∧ l.total = d.workgroups ∧ l.placed = 0 ∧ ∃ r, l.batch = some r ∧ r.frame = b.frame ∧ r.firstSlot = b.first ∧
        r.count = b.count ∧ r.edge = b.edge ∧ r.depth = b.depth ∧ r.deadline = b.deadline ∧ r.phase = c.phase := by
  have hv : descAddrOf c n x = x.launch := by simp [descAddrOf, hk]
  unfold graphLaunch
  simp only [hc, hx, h, hv, hk, hr, hd, Bool.false_eq_true, if_false, Nat.zero_ne_one, false_and]
  refine ⟨_, _, _, rfl, Assoc.get?_set_same .., rfl, rfl, rfl, rfl, rfl, rfl, rfl, _, rfl, rfl, rfl, rfl, rfl, rfl, rfl, rfl⟩

end

/-! ## An edge's deadline (05 R128) -/

theorem EdgeState.frameOf_frame (x : EdgeState) (f : Nat) : (x.frameOf f).frame = f := by
  unfold frameOf frame?
  cases h : x.frames.find? fun k => decide (k.frame = f) with
  | none => rfl
  | some k => simpa using List.find?_some h

theorem EdgeState.frameOf_putFrame_same (x : EdgeState) (k : EdgeFrame) : (x.putFrame k).frameOf k.frame = k := by
  have hn : (x.frames.filter fun y => y.frame ≠ k.frame).find? (fun y => decide (y.frame = k.frame)) = none := by
    simp [List.find?_eq_none]
  simp only [frameOf, frame?, putFrame, List.find?_append, hn]
  simp

theorem EdgeState.closedAt_putFrame (x : EdgeState) (f : Nat) :
    (x.putFrame { x.frameOf f with closed := true }).closedAt f = true := by
  have h := x.frameOf_putFrame_same { x.frameOf f with closed := true }
  rw [show ({ x.frameOf f with closed := true } : EdgeFrame).frame = f from x.frameOf_frame f] at h
  rw [closedAt, h, Bool.or_true]

section
variable {s : State} {ctx e : Nat} {c : Context} {d : EdgeDesc} (hc : s.ctx? ctx = some c) (hd : c.edge? e = some d) (hb : settleBase c e = c)
include hc hb

theorem settled_ctx? : (s.modCtx ctx fun c => settleBase c e).ctx? ctx = some c := by rw [State.modCtx_ctx?, hc, Option.map_some, hb]

include hd

theorem edgeDeadline_waits (h : ¬ (c.receives d (c.edgeOf e).oldest = true ∧
    (c.img.epoch : Int) + (c.edgeOf e).oldest * c.img.period + d.budget ≤ s.micros + c.offset)) :
    execEdgeDeadline ctx e s = .next (s.modCtx ctx fun c => settleBase c e) := by
  simp only [execEdgeDeadline, settled_ctx? hc hb, hd]
  rw [if_pos]
  rw [Bool.or_eq_true, Bool.not_eq_true', decide_eq_true_iff, Context.edgeDeadline, Context.frameStart, State.ctxNow]
  push_cast
  rw [not_and_or, Bool.not_eq_true, not_le] at h
  exact h

theorem edgeDeadline_closes (hr : c.receives d (c.edgeOf e).oldest = true)
    (ht : (c.img.epoch : Int) + (c.edgeOf e).oldest * c.img.period + d.budget ≤ s.micros + c.offset) :
    let s0 := (s.modCtx ctx fun c => settleBase c e).modCtx ctx fun c' =>
      c'.modEdge e fun x => x.putFrame { x.frameOf (c.edgeOf e).oldest with closed := true }
    execEdgeDeadline ctx e s = .next (moveOn (runGraph (s.modCtx ctx fun c => settleBase c e) ctx c.world (advanceEdge s0 ctx e)) ctx) ∧
      ∃ c', s0.ctx? ctx = some c' ∧ (c'.edgeOf e).closedAt (c.edgeOf e).oldest = true := by
  refine ⟨?_, _, by rw [State.modCtx_ctx?, settled_ctx? hc hb, Option.map_some], ?_⟩
  · simp only [execEdgeDeadline, settled_ctx? hc hb, hd, closeFrame]
    rw [if_neg]
    rw [Bool.or_eq_true, not_or, Bool.not_eq_true', decide_eq_true_iff, Context.edgeDeadline, Context.frameStart, State.ctxNow]
    push_cast
    refine ⟨by simp [hr], ?_⟩
    exact not_lt.2 ht
  · rw [Context.edgeOf_modEdge_same]
    exact EdgeState.closedAt_putFrame ..

end

/-! ## Pacing and expiry (05 R139) -/

theorem dropFirst_of_find? {α : Type} [DecidableEq α] {p : α → Bool} {l : List α} {x : α} (h : l.find? p = some x) :
    ∃ a b, l = a ++ x :: b ∧ dropFirst (fun y => decide (y = x)) l = a ++ b := by
  induction l with
  | nil => cases h
  | cons y l ih =>
    by_cases hy : y = x
    · exact ⟨[], l, by rw [hy, List.nil_append], by simp [dropFirst, hy]⟩
    · have hp : p y = false := by
        by_contra hp
        rw [List.find?_cons_of_pos (by simpa using hp)] at h
        exact hy (Option.some.inj h)
      rw [List.find?_cons_of_neg (by simp [hp])] at h
      obtain ⟨a, b, hl, hd⟩ := ih h
      exact ⟨y :: a, b, by rw [hl, List.cons_append], by simp [dropFirst, hy, hd]⟩

theorem sendGram_micros (s : State) (p : Fin 4) (peer : Nat) (g : Datagram) : (sendGram s p peer g).micros = s.micros := by
  have h : (sendGram s p peer g).cycle = s.cycle := by
    unfold sendGram noteSent
    split <;> rfl
  rw [State.micros, h, State.micros]

section
variable {s : State} {p : Fin 4} {o : OutDatagram} {c : Context} (hc : s.ctx? o.ctx = some c)
include hc

theorem datagramSend_first (ho : s.ports[p].queue.find? (maySend s) = some o) : ∃ t c', execDatagramSend p s = .next t ∧
    (∃ a b, s.ports[p].queue = a ++ o :: b ∧ t.ports[p].queue = a ++ b) ∧ t.ports[p].sent = s.ports[p].sent ++ [(o.peer, o.dg)] ∧
      t.ctx? o.ctx = some c' ∧ (c'.edgeOf o.edge).codec.nextSend = s.micros + ((32 + o.dg.length) * 8 + o.rate - 1) / o.rate := by
  obtain ⟨a, b, hl, hd⟩ := dropFirst_of_find? ho
  simp only [execDatagramSend, ho]
  refine ⟨_, _, rfl, ⟨a, b, hl, ?_⟩, ?_, by rw [State.modCtx_ctx?, State.ctx?, sendGram_contexts]; exact congrArg _ hc, ?_⟩
  · simpa [State.modCtx_ports, sendGram_ports] using hd
  · simp [State.modCtx_ports, sendGram_ports]
  · rw [Context.edgeOf_modEdge_same, sendGram_micros]
    rfl

theorem datagramExpired_first (ho : s.ports[p].queue.find? (expired s) = some o) : ∃ t c', execDatagramExpired p s = .next t ∧
    (∃ a b, s.ports[p].queue = a ++ o :: b ∧ t.ports[p].queue = a ++ b) ∧ t.ports[p].sent = s.ports[p].sent ∧
      t.ctx? o.ctx = some c' ∧ (c'.edgeOf o.edge).expired = (c.edgeOf o.edge).expired + 1 := by
  obtain ⟨a, b, hl, hd⟩ := dropFirst_of_find? ho
  simp only [execDatagramExpired, ho]
  refine ⟨_, _, rfl, ⟨a, b, hl, ?_⟩, ?_, by rw [State.modCtx_ctx?]; exact congrArg _ hc, ?_⟩
  · simpa [State.modCtx_ports] using hd
  · simp [State.modCtx_ports]
  · rw [Context.edgeOf_modEdge_same]

theorem maySend_before (h : maySend s o = true) : (s.micros : Int) + c.offset < o.expires := by
  simp only [maySend, hc, Bool.and_eq_true, decide_eq_true_iff] at h
  exact h.1.2

theorem expired_iff : expired s o = true ↔ (o.expires : Int) ≤ s.micros + c.offset := by
  rw [expired, hc]
  exact decide_eq_true_iff

end

theorem ports_empty {s : State} {p : Fin 4} (h : s.ports[p].queue = []) : execDatagramSend p s = .next s ∧ execDatagramExpired p s = .next s := by
  constructor
  · simp only [execDatagramSend, h, List.find?_nil]
  · simp only [execDatagramExpired, h, List.find?_nil]

/-! ## Clocks, hand-over and histories (05 R121, R147, R149) -/

theorem ptpSync_ctx? {s : State} {ctx : Nat} {offset : Int} {c : Context} (hc : s.ctx? ctx = some c) :
    ∃ t, execPtpSync ctx offset s = .next t ∧ { t with contexts := s.contexts } = s ∧
      t.ctx? ctx = some (if c.img.paired = true then { c with offset := offset } else c) :=
  ⟨_, rfl, rfl, by rw [State.modCtx_ctx?, hc, Option.map_some]⟩

theorem turnFrame_hist {c : Context} {e : Nat} {d : EdgeDesc} {x : EdgeState} {p : Nat × Assoc Nat (List Byte)} (hp : p ∈ x.hist)
    (h : x.base + 1 ≤ p.1 + 2 ∨ c.current.getD 0 ≤ p.1 + 2 ∨ (c.move.state ≠ .idle ∧ c.move.frame ≤ p.1 + 2)) :
    p ∈ (turnFrame c e d x).hist := by
  unfold turnFrame
  refine List.mem_filter.2 ⟨hp, ?_⟩
  rw [Bool.or_eq_true, Bool.or_eq_true, decide_eq_true_iff]
  refine .inl (.inl ?_)
  simp only [EdgeState.putFrame]
  rw [min_le_iff, min_le_iff]
  obtain h | h | ⟨hi, h⟩ := h
  · exact .inl (.inl h)
  · exact .inl (.inr h)
  · exact .inr (by rwa [if_neg hi])

theorem takeEntry_counts {old : Nat} {c : Context} {bs : List Byte} {d : EdgeDesc} (hd : c.edge? (fieldNat bs 0 4) = some d) :
    let e := fieldNat bs 0 4
    let x := c.edgeOf e
    let y := (takeEntry old c bs).edgeOf e
    (c.receives d old = true → y.late = x.late ∧ y.dup = x.dup) ∧
    (c.receives d old = false → y.late = x.late + BitVec.ofNat 32 (fieldNat bs 8 4) ∧ y.dup = x.dup + BitVec.ofNat 32 (fieldNat bs 12 4)) ∧
    (c.sends d old = false → y.codec.last = BitVec.ofNat 32 (fieldNat bs 4 4)) := by
  intro e x y
  have hy : y = if c.sends d old = true then
      (if c.receives d old = true then x
        else { x with late := x.late + BitVec.ofNat 32 (fieldNat bs 8 4), dup := x.dup + BitVec.ofNat 32 (fieldNat bs 12 4) })
    else
      let z := (if c.receives d old = true then x
        else { x with late := x.late + BitVec.ofNat 32 (fieldNat bs 8 4), dup := x.dup + BitVec.ofNat 32 (fieldNat bs 12 4) })
      { z with codec := { z.codec with last := BitVec.ofNat 32 (fieldNat bs 4 4) } } := by
    simp only [y, takeEntry, e, hd, Context.edgeOf_modEdge_same]
    rfl
  clear_value y
  subst hy
  cases c.sends d old <;> cases c.receives d old <;> simp

end Sys2Proof.Machine
end

section
/-! Arrivals: a datagram that is malformed counts, and one that passes is taken by its kind (05 R138 to R142; 15 R300). -/

namespace Sys2Proof.Machine

open Sys2Proof

theorem noteGot_contexts (s : State) (port peer : Nat) : (noteGot s port peer).contexts = s.contexts := by
  unfold noteGot
  split <;> rfl

theorem noteGot_outside (s : State) (port peer : Nat) : (noteGot s port peer).outside = s.outside := by
  unfold noteGot
  split <;> rfl

theorem noteGot_inbox (s : State) (port peer : Nat) : (noteGot s port peer).inbox = s.inbox := by
  unfold noteGot
  split <;> rfl

theorem gramCtx_congr {s t : State} (h : t.contexts = s.contexts) (a : Arrival) : gramCtx t a = gramCtx s a := by
  rw [gramCtx, gramCtx, State.ctx?, State.ctx?, h]

theorem gramOk_congr {s t : State} (h : t.contexts = s.contexts) (a : Arrival) (ok : Bool) : gramOk t a ok = gramOk s a ok := by
  rw [gramOk, gramOk, gramCtx_congr h]

theorem gramCtx_of_world {s : State} {a : Arrival} {c : Context} (hk : a.dg.context < 16384) (hc : s.ctx? a.dg.context = some c)
    (hw : c.world = a.world) : gramCtx s a = some c := by
  simp [gramCtx, Nat.not_le.2 hk, hc, Option.filter, hw]

/-- A datagram that passes is of its context. -/
theorem gramCtx_of_ok {s : State} {a : Arrival} {ok : Bool} {c : Context} (h : gramOk s a ok = true) (hc : s.ctx? a.dg.context = some c) :
    gramCtx s a = some c := by
  unfold gramOk at h
  cases hg : gramCtx s a with
  | none => simp [hg] at h
  | some c' =>
    unfold gramCtx at hg
    split at hg
    · cases hg
    · rw [← hc, (Option.filter_eq_some_iff.1 hg).1]

/-- The state once a datagram that passes the cipher check is off the inputs and counted in its flow (19 R353). -/
def arrived (s : State) (a : Arrival) (rest : List Input) : State := noteGot { s with inbox := rest } (a.port.val + 2) a.peer

theorem arrived_contexts (s : State) (a : Arrival) (rest : List Input) : (arrived s a rest).contexts = s.contexts := noteGot_contexts ..

theorem arrived_ports (s : State) (a : Arrival) (rest : List Input) : (arrived s a rest).ports = s.ports :=
  (congrArg Prod.fst (noteGot_outside { s with inbox := rest } (a.port.val + 2) a.peer) :)

theorem arrived_inbox (s : State) (a : Arrival) (rest : List Input) : (arrived s a rest).inbox = rest := noteGot_inbox ..

section
variable {s : State} {a : Arrival} {rest : List Input}

theorem takeGram_first {ok : Bool} (ht : Takes s (.datagram a ok) rest) :
    takeGram s = some (if ok then arrived s a rest else { s with inbox := rest }, a, ok) := by
  unfold takeGram
  rw [ht.takeInput]
  rfl

/-! ## Malformed datagrams (05 R139) -/

theorem malformed_passes {ok : Bool} (ht : Takes s (.datagram a ok) rest) (h : gramOk s a ok = true) : execMalformedDatagram s = .next s := by
  simp only [execMalformedDatagram, takeGram_first ht, h, if_true]

theorem malformed_counts {ok : Bool} (ht : Takes s (.datagram a ok) rest) (h : gramOk s a ok = false) :
    execMalformedDatagram s = .next (countMalformed (if ok then arrived s a rest else { s with inbox := rest }) a ok) := by
  simp only [execMalformedDatagram, takeGram_first ht, h, Bool.false_eq_true, if_false]

theorem malformed_onEdge {c : Context} (ht : Takes s (.datagram a true) rest) (h : gramOk s a true = false) (hk : a.dg.context < 16384)
    (hc : s.ctx? a.dg.context = some c) (hw : c.world = a.world) (hd : a.dg.kind = 1 ∨ a.dg.kind = 2)
    (he : (c.img.edges[a.dg.edge]?).isSome = true) :
    ∃ t c', execMalformedDatagram s = .next t ∧ t.ctx? a.dg.context = some c' ∧ t.ports = s.ports ∧ t.inbox = rest ∧
      (c'.edgeOf a.dg.edge).malformed = (c.edgeOf a.dg.edge).malformed + 1 := by
  have hc' : (arrived s a rest).ctx? a.dg.context = some c := by rw [State.ctx?, arrived_contexts]; exact hc
  have hg := gramCtx_of_world hk hc' hw
  have hb : (true && (a.dg.kind == 1 || a.dg.kind == 2) && (c.edge? a.dg.edge).isSome) = true := by
    rw [Context.edge?, he]
    simpa using hd
  simp only [malformed_counts ht h, if_true, countMalformed, hg, hb]
  refine ⟨_, _, rfl, by rw [State.modCtx_ctx?, hc', Option.map_some], arrived_ports s a rest, arrived_inbox s a rest, ?_⟩
  rw [Context.edgeOf_modEdge_same]

theorem malformed_onPort {ok : Bool} (ht : Takes s (.datagram a ok) rest) (h : gramOk s a ok = false)
    (hd : ok = false ∨ (a.dg.kind ≠ 1 ∧ a.dg.kind ≠ 2)) :
    ∃ t, execMalformedDatagram s = .next t ∧ t.contexts = s.contexts ∧ t.inbox = rest ∧
      t.ports[a.port].malformed = s.ports[a.port].malformed + 1 := by
  let u : State := if ok then arrived s a rest else { s with inbox := rest }
  have hu : u.contexts = s.contexts ∧ u.ports = s.ports ∧ u.inbox = rest := by
    simp only [u]
    split
    · exact ⟨arrived_contexts .., arrived_ports .., arrived_inbox ..⟩
    · exact ⟨rfl, rfl, rfl⟩
  obtain ⟨hctx, hports, hin⟩ := hu
  have hcount : countMalformed u a ok =
      { u with ports := u.ports.set a.port { u.ports[a.port] with malformed := u.ports[a.port].malformed + 1 } } := by
    unfold countMalformed
    split
    · rfl
    · rw [if_neg]
      simp only [Bool.and_eq_true, Bool.or_eq_true, beq_iff_eq, not_and_or, not_or]
      exact .inl (hd.imp_left fun hf => by simp [hf])
  refine ⟨_, malformed_counts ht h, ?_⟩
  rw [show (if ok = true then arrived s a rest else { s with inbox := rest }) = u from rfl, hcount]
  refine ⟨hctx, hin, ?_⟩
  simp [hports]

/-! ## Arrivals that pass -/

variable {c : Context}

theorem headGram_first (ht : Takes s (.datagram a true) rest) (h : gramOk s a true = true) (hc : s.ctx? a.dg.context = some c) :
    headGram s a.dg.kind = some (arrived s a rest, c, a) := by
  have hcon := arrived_contexts s a rest
  simp only [headGram, takeGram_first ht, if_true, gramOk_congr hcon, h, beq_self_eq_true, Bool.and_self, gramCtx_congr hcon,
    gramCtx_of_ok h hc, Option.map_some]

theorem arrival_ok (ht : Takes s (.datagram a true) rest) (h : gramOk s a true = true) (hc : s.ctx? a.dg.context = some c)
    {f : State → Nat → Context → Datagram → Except GStop State} {q : State} (hf : f (arrived s a rest) a.dg.context c a.dg = .ok q) {k : Nat}
    (hk : a.dg.kind = k) : arrival s k f = moveOn q a.dg.context := by
  subst hk
  simp only [arrival, headGram_first ht h hc, hf]

theorem data_exec (ht : Takes s (.datagram a true) rest) (h : gramOk s a true = true) (hc : s.ctx? a.dg.context = some c) {q : State}
    (hk : a.dg.kind = 1) (hq : takeData (arrived s a rest) a.dg.context c a.dg = .ok q) : exec .data s = .next (moveOn q a.dg.context) :=
  congrArg Host.Outcome.next (arrival_ok ht h hc hq hk)

theorem parity_exec (ht : Takes s (.datagram a true) rest) (h : gramOk s a true = true) (hc : s.ctx? a.dg.context = some c) {q : State}
    (hk : a.dg.kind = 2) (hq : takeParity (arrived s a rest) a.dg.context c a.dg = .ok q) : exec .parity s = .next (moveOn q a.dg.context) :=
  congrArg Host.Outcome.next (arrival_ok ht h hc hq hk)

end

/-! ## Data and parity (05 R142; 15 R300) -/

/-- The edge has seen the sequence number of a datagram. -/
def seenSeq (s : State) (ctx : Nat) (g : Datagram) : State :=
  s.modCtx ctx fun c => c.modEdge g.edge fun x => { x with highest := BitVec.ofNat 32 (max x.highest.toNat g.sequence) }

section
variable {s : State} {ctx : Nat} {c : Context} {d : EdgeDesc} {g : Datagram} (hd : c.edge? g.edge = some d)
include hd

theorem takeData_elsewhere (hr : c.receives d g.frame = false) : takeData s ctx c g = .ok (notHere s ctx c d g) := by
  simp [takeData, hd, hr]

theorem takeParity_elsewhere (hr : c.receives d g.frame = false) : takeParity s ctx c g = .ok (notHere s ctx c d g) := by
  simp [takeParity, hd, hr]

variable {s1 : State} {c1 : Context} (hr : c.receives d g.frame = true) (hs : closeDue ctx g.edge (dueFuel s ctx g.edge) s = .ok s1)
  (h1 : s1.ctx? ctx = some c1)
include hr hs h1

theorem takeData_late (hp : (c1.edgeOf g.edge).closedAt g.frame = true) : takeData s ctx c g =
    .ok ((seenSeq s1 ctx g).modCtx ctx fun c => c.modEdge g.edge fun x => { x with late := x.late + BitVec.ofNat 32 g.records }) := by
  have hp' : placeIn (c1.edgeOf g.edge) g.frame = .closed := by simp [placeIn, hp]
  simp [takeData, hd, hr, hs, h1, hp', seenSeq]

theorem takeData_early (hp : (c1.edgeOf g.edge).closedAt g.frame = false) (he : (c1.edgeOf g.edge).oldest + 4 ≤ g.frame) :
    takeData s ctx c g = .ok (((seenSeq s1 ctx g).modCtx ctx fun c => c.modEdge g.edge fun x =>
      { x with early := x.early + BitVec.ofNat 32 g.records }).tell c1.world (.early ctx g.edge)) := by
  have hp' : placeIn (c1.edgeOf g.edge) g.frame = .early := by simp [placeIn, hp, he]
  simp [takeData, hd, hr, hs, h1, hp', seenSeq]

theorem takeParity_notOpen (hp : (c1.edgeOf g.edge).closedAt g.frame = true ∨ (c1.edgeOf g.edge).oldest + 4 ≤ g.frame) :
    takeParity s ctx c g = .ok s1 := by
  have hp' : placeIn (c1.edgeOf g.edge) g.frame ≠ .open := by
    unfold placeIn
    split
    · simp
    · rw [if_pos (hp.resolve_left ‹_›)]
      simp
  simp only [takeParity, hd, hr, hs, h1, Bool.not_true, Bool.false_eq_true, if_false]
  split
  · rfl
  · rfl
  · exact absurd ‹_› hp'

variable (hp : (c1.edgeOf g.edge).closedAt g.frame = false) (he : g.frame < (c1.edgeOf g.edge).oldest + 4)
include hp he

omit hd hr hs h1 in
theorem placeIn_open : placeIn (c1.edgeOf g.edge) g.frame = .open := by simp [placeIn, hp, Nat.not_le.2 he]

theorem takeData_open {s2 s3 s4 : State} (h2 : placeGram (seenSeq s1 ctx g) ctx g.edge g.frame g.sequence g.records d g.payload = .ok s2)
    (h3 : useParities ctx g.edge g.frame d 64 s2 = .ok s3) (h4 : advanceEdge s3 ctx g.edge = .ok s4) : takeData s ctx c g = .ok s4 := by
  unfold seenSeq at h2
  simp [takeData, hd, hr, hs, h1, placeIn_open hp he, h2, h3, h4]

theorem takeParity_open {s3 s4 : State}
    (h3 : useParities ctx g.edge g.frame d 64 (s1.modCtx ctx fun c => c.modEdge g.edge fun x =>
      x.putFrame { x.frameOf g.frame with parities := (x.frameOf g.frame).parities ++ [(g.first, g.group, g.payload)] }) = .ok s3)
    (h4 : advanceEdge s3 ctx g.edge = .ok s4) : takeParity s ctx c g = .ok s4 := by
  simp [takeParity, hd, hr, hs, h1, placeIn_open hp he, h3, h4]

end

/-- What an arrival that is not placed counts on its edge, beside its sequence number. -/
theorem seenSeq_counts {s : State} {ctx : Nat} {g : Datagram} {c : Context} (hc : s.ctx? ctx = some c) (f : EdgeState → EdgeState) :
    ∃ c', ((seenSeq s ctx g).modCtx ctx fun c => c.modEdge g.edge f).ctx? ctx = some c' ∧
      c'.edgeOf g.edge = f { c.edgeOf g.edge with highest := BitVec.ofNat 32 (max (c.edgeOf g.edge).highest.toNat g.sequence) } := by
  refine ⟨_, by rw [State.modCtx_ctx?, seenSeq, State.modCtx_ctx?, hc, Option.map_some, Option.map_some], ?_⟩
  rw [Context.edgeOf_modEdge_same, Context.edgeOf_modEdge_same]

theorem notHere_coming {s : State} {ctx : Nat} {c : Context} {d : EdgeDesc} {g : Datagram} (hc : s.ctx? ctx = some c)
    (h : c.move.state = .acked ∧ ({ c with move := { c.move with state := .committed } } : Context).receives d g.frame = true) :
    (notHere s ctx c d g).ctx? ctx = some { c with move := { c.move with held := c.move.held ++ [g] } } ∧
      { notHere s ctx c d g with contexts := s.contexts } = s := by
  have hw : c.willReceive d g.frame = true := by simp [Context.willReceive, h]
  rw [notHere, if_pos hw]
  exact ⟨by rw [State.modCtx_ctx?, hc, Option.map_some], rfl⟩

theorem notHere_dropped {s : State} {ctx : Nat} {c : Context} {d : EdgeDesc} {g : Datagram}
    (h : ¬ (c.move.state = .acked ∧ ({ c with move := { c.move with state := .committed } } : Context).receives d g.frame = true)) :
    notHere s ctx c d g = s := by
  have hw : ¬ c.willReceive d g.frame = true := by simpa [Context.willReceive] using h
  rw [notHere, if_neg hw]

/-! ## One record of a datagram -/

section
variable {s : State} {ctx e f : Nat} {c : Context} {d : EdgeDesc} {r : List Byte} (hc : s.ctx? ctx = some c)
include hc

theorem placeOne_filled (h : (((c.edgeOf e).frameOf f).slots.get? (fieldNat r 8 2)).isSome = true) :
    ∃ t c', placeOne ctx e f d (.ok s) r = .ok t ∧ t.ctx? ctx = some c' ∧ t.mem = s.mem ∧
      c'.edgeOf e = { c.edgeOf e with dup := (c.edgeOf e).dup + 1 } := by
  simp only [placeOne, hc, h, if_true]
  refine ⟨_, _, rfl, by rw [State.modCtx_ctx?, hc, Option.map_some], rfl, ?_⟩
  rw [Context.edgeOf_modEdge_same]

theorem placeOne_free (h : ((c.edgeOf e).frameOf f).slots.get? (fieldNat r 8 2) = none) : placeOne ctx e f d (.ok s) r =
    placeRecord s ctx e f (fieldNat r 8 2) (fieldNat r 11 1) ((r.drop 16).take (32 * d.units - 16)) := by
  simp only [placeOne, hc, h, Option.isSome_none, Bool.false_eq_true, if_false, recSize]

end
end Sys2Proof.Machine
end

section
/-! The control datagrams of a cut move (05 R144, R145, R151; 15 R301, R302): what each leaves the move, and what it is answered with. -/

namespace Sys2Proof.Machine

open Sys2Proof

/-! ## What is sent -/

/-- A datagram leaves first, at the port of a context's control datagrams and to its peer; `v` are the ports before. -/
def Posts (c : Context) (v : Vector EthPort 4) (q : State) (x : Datagram) : Prop :=
  ∃ more, q.ports[ctlPort c].sent = v[ctlPort c].sent ++ (peerOf c c.cut, x) :: more

section
variable {s : State} {ctx : Nat} {c : Context} (hc : s.ctx? ctx = some c)
include hc

theorem sendCtl_posts (kind frame : Nat) (awaits : Bool) (seq : Nat) (first : Option Nat) (p : List Byte) :
    Posts c s.ports (sendCtl s ctx kind frame awaits seq first p) (ctlGram c kind frame (first.getD c.move.num.toNat) seq p) := by
  refine ⟨[], ?_⟩
  simp only [sendCtl, hc]
  split <;> simp [State.modMove, State.modCtx_ports, sendGram_ports]

theorem sendCtl_ctx?_silent (kind frame seq : Nat) (first : Option Nat) (p : List Byte) :
    (sendCtl s ctx kind frame false seq first p).ctx? ctx = some c := by
  simp only [sendCtl, hc, Bool.false_eq_true, if_false]
  rw [State.ctx?, sendGram_contexts]
  exact hc

end

theorem Posts.later {α : Type} {P : Context → α} {ctx : Nat} {c : Context} {v : Vector EthPort 4} {q t : State} {x : Datagram} (h : Posts c v q x)
    (hw : MoveWork P ctx q t) : Posts c v t x := by
  obtain ⟨more, hm⟩ := h
  obtain ⟨l, hl⟩ := hw.sent (ctlPort c)
  exact ⟨more ++ l, by rw [← hl, hm, List.append_assoc, List.cons_append]⟩

/-- A datagram is answered again where it was answered before, and with nothing else (05 R145; log 161). -/
theorem answerAgain_known {s : State} {ctx : Nat} {c : Context} {g : Datagram} (hc : s.ctx? ctx = some c) (h : g ∈ c.move.answered) :
    (answerAgain s ctx c g).ctx? ctx = some c ∧ Posts c s.ports (answerAgain s ctx c g) (ctlGram c (replyKind g.kind) g.frame
      (if g.kind = 0x20 then fieldNat g.payload 0 4 else g.first) (if g.kind = 0x20 then g.sequence else 0)) := by
  have ha : answerAgain s ctx c g = sendCtl s ctx (replyKind g.kind) g.frame false (if g.kind = 0x20 then g.sequence else 0)
      (some (if g.kind = 0x20 then fieldNat g.payload 0 4 else g.first)) := by
    simp [answerAgain, h, apply_ite some]
  rw [ha]
  exact ⟨sendCtl_ctx?_silent hc .., sendCtl_posts hc ..⟩

theorem answerAgain_unknown {s : State} {ctx : Nat} {c : Context} {g : Datagram} (h : g ∉ c.move.answered) : answerAgain s ctx c g = s := by
  simp [answerAgain, h]

/-! ## Proposals (05 R145, R151) -/

/-- A move with a datagram noted as answered. -/
def Move.noting (m : Move) (g : Datagram) : Move := { m with answered := if m.answered.contains g then m.answered else m.answered ++ [g] }

theorem Move.mem_noting (m : Move) (g : Datagram) : g ∈ (m.noting g).answered := by
  unfold noting
  by_cases h : g ∈ m.answered <;> simp [h]

/-- The move of a peer's proposal that is adopted. -/
def Move.adopting (m : Move) (g : Datagram) : Move :=
  let m' := if m.state = .acked ∧ m.num.toNat = g.first then m
    else { endMove m with num := BitVec.ofNat 32 g.first, top := BitVec.ofNat 32 (max m.top.toNat g.first) }
  { m' with state := .acked, config := fieldNat g.payload 0 1, frame := g.frame, initiator := false,
            ctls := m'.ctls.filter fun x => !isKind 0x11 x.dg }

theorem Move.adopting_num (m : Move) (g : Datagram) : (m.adopting g).num = BitVec.ofNat 32 g.first := by
  unfold adopting
  split
  · rename_i h
    rw [← h.2, BitVec.ofNat_toNat, BitVec.setWidth_eq]
  · rfl

theorem Move.adopting_top {m : Move} (g : Datagram) (ht : m.num.toNat ≤ m.top.toNat) :
    (m.adopting g).top = BitVec.ofNat 32 (max m.top.toNat g.first) := by
  unfold adopting
  split
  · rename_i h
    rw [max_eq_left (h.2 ▸ ht), BitVec.ofNat_toNat, BitVec.setWidth_eq]
  · rfl

/-- What the adoption of a proposal leaves: the peer's move, answered with CUT_ACK. -/
structure Adopts (ctx : Nat) (c : Context) (v : Vector EthPort 4) (g : Datagram) (q : State) (c' : Context) : Prop where
  here : q.ctx? ctx = some c'
  course : c'.course = { c with move := (c.move.adopting g).noting g }.course
  posts : Posts c v q (ctlGram c 0x11 g.frame (g.first % 2 ^ 32))

theorem acceptPropose_adopts {s : State} {ctx : Nat} {c : Context} (hc : s.ctx? ctx = some c) (g : Datagram) :
    ∃ c', Adopts ctx c s.ports g (acceptPropose s ctx g) c' ∧ s.events <+: (acceptPropose s ctx g).events := by
  let s1 := noteAnswered (s.modMove ctx fun m => m.adopting g) ctx g
  have h1 : s1.ctx? ctx = some { c with move := (c.move.adopting g).noting g } := State.modMove_ctx? (State.modMove_ctx? hc _) _
  have ha : acceptPropose s ctx g = freeLaunches (sendCtl s1 ctx 0x11 g.frame true) ctx := rfl
  have hl := (freeLaunches_work (sendCtl s1 ctx 0x11 g.frame true) ctx).course
  have hw := (sendCtl_work s1 ctx 0x11 g.frame true 0 none []).trans hl
  obtain ⟨c', h', hk⟩ := hw.ctx? h1
  have hp := (sendCtl_posts h1 0x11 g.frame true 0 none []).later hl
  rw [Option.getD_none, show ((c.move.adopting g).noting g).num = (c.move.adopting g).num from rfl, Move.adopting_num, BitVec.toNat_ofNat] at hp
  rw [ha]
  exact ⟨c', ⟨h', hk, hp⟩, hw.events⟩

/-- A proposal that ends this chip's own is adopted, and the conflict is told (05 R151). -/
theorem conflict_adopts {s : State} {ctx : Nat} {c : Context} (hc : s.ctx? ctx = some c) (g : Datagram) :
    let q := acceptPropose (abortEvent (s.modMove ctx endMove) ctx true) ctx g
    ∃ c', Adopts ctx { c with move := endMove c.move } s.ports g q c' ∧ (c.world, .cutAbort ctx true) ∈ q.events := by
  have h1 : (s.modMove ctx endMove).ctx? ctx = some { c with move := endMove c.move } := State.modMove_ctx? hc _
  have he : abortEvent (s.modMove ctx endMove) ctx true = (s.modMove ctx endMove).tell c.world (.cutAbort ctx true) := by
    rw [abortEvent, h1]
  rw [he]
  obtain ⟨c', ha, hev⟩ := acceptPropose_adopts (s := (s.modMove ctx endMove).tell c.world (.cutAbort ctx true)) h1 g
  exact ⟨c', ha, hev.subset (List.mem_append_right _ (List.mem_singleton_self _))⟩

section
variable {s : State} {ctx : Nat} {c : Context} {g : Datagram}

theorem onPropose_near (hs : c.move.state = .proposed) (hf : c.img.far = false) : onPropose s ctx c g = s := by
  simp [onPropose, hs, hf]

theorem not_near (hf : c.move.state ≠ .proposed ∨ c.img.far = true) : ¬ (c.move.state = .proposed ∧ (!c.img.far) = true) := by
  rintro ⟨hs, hn⟩
  obtain h | h := hf
  · exact h hs
  · simp [h] at hn

theorem onPropose_answered (ha : g ∈ c.move.answered) (hf : c.move.state ≠ .proposed ∨ c.img.far = true) :
    onPropose s ctx c g = answerAgain s ctx c g := by
  have hb : c.move.answered.contains g = true := by simpa using ha
  rw [onPropose, if_neg (not_near hf), if_pos hb]

/-- A proposal that is new where this chip has none, or an earlier one of the peer's, is adopted. -/
theorem onPropose_new (ha : g ∉ c.move.answered) (hs : c.move.state = .idle ∨ c.move.state = .acked ∧ c.move.frame ≤ g.frame) :
    onPropose s ctx c g = acceptPropose s ctx g := by
  obtain hs | ⟨hs, hf⟩ := hs
  · simp [onPropose, ha, hs]
  · simp [onPropose, ha, hs, hf]

/-- A proposal that meets this chip's own is adopted by the far chip. -/
theorem onPropose_conflict (ha : g ∉ c.move.answered) (hf : c.img.far = true)
    (hs : c.move.state = .proposed ∨ c.move.state = .aborting ∧ c.move.initiator = true) :
    onPropose s ctx c g = acceptPropose (abortEvent (s.modMove ctx endMove) ctx true) ctx g := by
  obtain hs | ⟨hs, hi⟩ := hs
  · simp [onPropose, ha, hs, hf]
  · simp [onPropose, ha, hs, hf, hi]

theorem onPropose_stays (ha : g ∉ c.move.answered) (hs : c.move.state = .acked ∧ g.frame < c.move.frame ∨
    c.move.state = .aborting ∧ (c.img.far = false ∨ c.move.initiator = false) ∨ c.move.state = .committed ∨ c.move.state = .failed) :
    onPropose s ctx c g = s := by
  obtain ⟨hs, hf⟩ | ⟨hs, hf⟩ | hs | hs := hs
  · simp [onPropose, ha, hs, Nat.not_le.2 hf]
  · obtain hf | hf := hf <;> simp [onPropose, ha, hs, hf]
  · simp [onPropose, ha, hs]
  · simp [onPropose, ha, hs]

/-! ## Commits (05 R145) -/

/-- On entering COMMITTED the move stands as the commit found it. -/
theorem enterCommitted_ctx? (hc : s.ctx? ctx = some c) :
    ∃ c', (enterCommitted s ctx).ctx? ctx = some c' ∧ c'.unphased = c.commit.unphased :=
  (enterCommitted_work s ctx).ctx? (by rw [State.modCtx_ctx?, hc, Option.map_some])

/-- A commit that is sent, or answered, by a datagram: it is posted and the move enters COMMITTED. -/
theorem commit_posts (hc : s.ctx? ctx = some c) (kind frame : Nat) (awaits : Bool) :
    let q := enterCommitted (sendCtl s ctx kind frame awaits) ctx
    ∃ c', q.ctx? ctx = some c' ∧ c'.unphased = c.commit.unphased ∧ Posts c s.ports q (ctlGram c kind frame c.move.num.toNat) := by
  obtain ⟨c1, h1, hk⟩ := (sendCtl_work s ctx kind frame awaits 0 none []).ctx? hc
  obtain ⟨c', h', hk'⟩ := enterCommitted_ctx? h1
  have hu : c1.commit.unphased = c.commit.unphased :=
    (congrArg (fun c => (Context.unphased { c with move := { c.move with state := .committed } })) hk :)
  have hp : Posts c s.ports ((sendCtl s ctx kind frame awaits).modCtx ctx Context.commit) (ctlGram c kind frame c.move.num.toNat) :=
    sendCtl_posts hc kind frame awaits 0 none []
  exact ⟨c', h', hk'.trans hu, hp.later (enterCommitted_work ..)⟩

/-- The move once a datagram has stopped the timers of a kind and is noted as answered. -/
theorem noteStopped_ctx? (hc : s.ctx? ctx = some c) (k : Nat) :
    (noteAnswered (stopCtl s ctx (isKind k)) ctx g).ctx? ctx =
      some { c with move := ({ c.move with ctls := c.move.ctls.filter fun x => !isKind k x.dg } : Move).noting g } :=
  State.modMove_ctx? (State.modMove_ctx? hc _) _

theorem onAck_commits (hc : s.ctx? ctx = some c) (hs : c.move.state = .proposed) (hn : c.move.num.toNat = g.first) (hf : c.move.frame = g.frame)
    (ht : ∀ k, c.current = some k → k + 1 < c.move.frame) :
    ∃ c', (onAck s ctx c g).ctx? ctx = some c' ∧ c'.move.state = .committed ∧ c'.move.frame = c.move.frame ∧ c'.cut = c.cut ∧
      g ∈ c'.move.answered ∧ Posts c s.ports (onAck s ctx c g) (ctlGram c 0x12 c.move.frame c.move.num.toNat) := by
  have ha : onAck s ctx c g = enterCommitted (sendCtl (noteAnswered (stopCtl s ctx (isKind 0x10)) ctx g) ctx 0x12 c.move.frame true) ctx := by
    rw [onAck]
    refine if_pos ⟨hs, hn, hf, ?_⟩
    cases hk : c.current with
    | none => rfl
    | some k => exact decide_eq_true (ht k hk)
  obtain ⟨c', h', hk, hp⟩ := commit_posts (noteStopped_ctx? (g := g) hc 0x10) 0x12 c.move.frame true
  have hm := (congrArg Context.move hk :)
  rw [ha]
  refine ⟨c', h', (congrArg Move.state hm :), (congrArg Move.frame hm :), (congrArg Context.cut hk :), ?_, hp⟩
  rw [show c'.move.answered = _ from (congrArg Move.answered hm :)]
  exact Move.mem_noting ..

theorem onAck_unnamed (hn : c.move.num.toNat ≠ g.first) : onAck s ctx c g = s := by simp [onAck, hn]

theorem onAck_again (hn : c.move.num.toNat = g.first)
    (h : c.move.state ≠ .proposed ∨ c.move.frame ≠ g.frame ∨ ¬ ∀ k, c.current = some k → k + 1 < c.move.frame) :
    onAck s ctx c g = answerAgain s ctx c g := by
  rw [onAck]
  rw [if_neg, if_pos hn]
  rintro ⟨hs, -, hf, he⟩
  obtain h | h | h := h
  · exact h hs
  · exact h hf
  · refine h fun k hk => ?_
    rw [hk] at he
    exact of_decide_eq_true he

theorem onCommit_unnamed (hn : c.move.num.toNat ≠ g.first) : onCommit s ctx c g = s := by simp [onCommit, hn]

theorem onCommit_commits (hc : s.ctx? ctx = some c) (hs : c.move.state = .acked) (hn : c.move.num.toNat = g.first) (hf : c.move.frame = g.frame) :
    ∃ c', (onCommit s ctx c g).ctx? ctx = some c' ∧ c'.move.state = .committed ∧ g ∈ c'.move.answered ∧
      Posts c s.ports (onCommit s ctx c g) (ctlGram c 0x13 g.frame c.move.num.toNat) := by
  have ha : onCommit s ctx c g = enterCommitted (sendCtl (noteAnswered (stopCtl s ctx (isKind 0x11)) ctx g) ctx 0x13 g.frame false) ctx := by
    simp [onCommit, hn, hs, hf]
  obtain ⟨c', h', hk, hp⟩ := commit_posts (noteStopped_ctx? (g := g) hc 0x11) 0x13 g.frame false
  have hm := (congrArg Context.move hk :)
  rw [ha]
  refine ⟨c', h', (congrArg Move.state hm :), ?_, hp⟩
  rw [show c'.move.answered = _ from (congrArg Move.answered hm :)]
  exact Move.mem_noting ..

theorem onCommit_again (hn : c.move.num.toNat = g.first) (h : c.move.state ≠ .acked ∨ c.move.frame ≠ g.frame) :
    onCommit s ctx c g = answerAgain s ctx c g := by
  rw [onCommit, if_neg (not_not.2 hn), if_neg]
  rintro ⟨hs, hf⟩
  exact h.elim (· hs) (· hf)

/-! ## Aborts (05 R145, R151) -/

theorem onAbort_unnamed (hn : c.move.num.toNat ≠ g.first) : onAbort s ctx c g = s := by simp [onAbort, hn]

theorem onAbort_stays (hn : c.move.num.toNat = g.first) (hs : c.move.state = .committed ∨ c.move.state = .failed) : onAbort s ctx c g = s := by
  obtain hs | hs := hs <;> simp [onAbort, hn, hs]

theorem onAbort_idle (hn : c.move.num.toNat = g.first) (hs : c.move.state = .idle) : onAbort s ctx c g = answerAgain s ctx c g := by
  simp [onAbort, hn, hs]

theorem onAbort_ends (hc : s.ctx? ctx = some c) (hn : c.move.num.toNat = g.first)
    (hs : c.move.state = .proposed ∨ c.move.state = .aborting ∨ c.move.state = .acked) :
    ∃ c', (onAbort s ctx c g).ctx? ctx = some c' ∧ c'.move.state = .idle ∧ c'.move.num = c.move.num ∧ c'.move.stored = [] ∧ c'.cut = c.cut ∧
      Posts c s.ports (onAbort s ctx c g) (ctlGram c 0x15 g.frame c.move.num.toNat) ∧
      (c.world, .cutAbort ctx false) ∈ (onAbort s ctx c g).events := by
  let s1 := noteAnswered s ctx g
  let s2 := (sendCtl s1 ctx 0x15 g.frame false).modMove ctx endMove
  have h1 : s1.ctx? ctx = some { c with move := c.move.noting g } := State.modMove_ctx? hc _
  have h2 : s2.ctx? ctx = some { c with move := endMove (c.move.noting g) } := State.modMove_ctx? (sendCtl_ctx?_silent h1 ..) _
  have ha : onAbort s ctx c g = freeLaunches (s2.tell c.world (.cutAbort ctx false)) ctx := by
    have he : abortEvent s2 ctx false = s2.tell c.world (.cutAbort ctx false) := by rw [abortEvent, h2]
    rw [← he]
    obtain hs | hs | hs := hs <;> simp [onAbort, hn, hs, s2, s1]
  have hw := (freeLaunches_work (s2.tell c.world (.cutAbort ctx false)) ctx)
  obtain ⟨c', h', hk⟩ := hw.ctx? (c := { c with move := endMove (c.move.noting g) }) h2
  have hm : c'.move = endMove (c.move.noting g) := (congrArg Context.move hk :)
  have hp : Posts c s.ports (s2.tell c.world (.cutAbort ctx false)) (ctlGram c 0x15 g.frame c.move.num.toNat) :=
    sendCtl_posts h1 0x15 g.frame false 0 none []
  rw [ha]
  exact ⟨c', h', (congrArg Move.state hm :), (congrArg Move.num hm :), (congrArg Move.stored hm :), (congrArg Context.cut hk :), hp.later hw.course,
    hw.events.subset (List.mem_append_right _ (List.mem_singleton_self _))⟩

theorem onAbortAck_ends (hc : s.ctx? ctx = some c) (hs : c.move.state = .aborting) (hn : c.move.num.toNat = g.first) :
    ∃ c', (onAbortAck s ctx c g).ctx? ctx = some c' ∧ c'.move.state = .idle ∧ c'.move.num = c.move.num ∧ c'.cut = c.cut ∧
      (onAbortAck s ctx c g).ports = s.ports := by
  have ha : onAbortAck s ctx c g = freeLaunches (s.modMove ctx endMove) ctx := by simp [onAbortAck, hs, hn]
  have hw := freeLaunches_work (s.modMove ctx endMove) ctx
  obtain ⟨c', h', hk⟩ := hw.ctx? (State.modMove_ctx? hc _)
  have hm : c'.move = endMove c.move := (congrArg Context.move hk :)
  rw [ha]
  exact ⟨c', h', (congrArg Move.state hm :), (congrArg Move.num hm :), (congrArg Context.cut hk :), hw.ports⟩

theorem onAbortAck_stays (h : c.move.state ≠ .aborting ∨ c.move.num.toNat ≠ g.first) : onAbortAck s ctx c g = s := by
  rw [onAbortAck, if_neg]
  rintro ⟨hs, hn⟩
  exact h.elim (· hs) (· hn)

/-! ## Hand-over (05 R145; 15 R302) -/

theorem onHandover_other (hn : c.move.num.toNat ≠ fieldNat g.payload 0 4) : onHandover s ctx c g = s := by simp [onHandover, hn]

theorem onHandover_stored (hn : c.move.num.toNat = fieldNat g.payload 0 4) (hs : c.move.state = .acked ∨ c.move.state = .committed)
    (hst : (c.move.stored.get? g.sequence).isSome = true) : onHandover s ctx c g = answerAgain s ctx c g := by
  obtain hs | hs := hs <;> simp [onHandover, hn, hs, hst]

theorem onHandover_closed (hn : c.move.num.toNat = fieldNat g.payload 0 4) (ha : c.move.state ≠ .acked) (hm : c.move.state ≠ .committed) :
    onHandover s ctx c g = answerAgain s ctx c g := by
  rw [onHandover, if_neg (not_not.2 hn)]
  split
  · exact absurd ‹_› ha
  · exact absurd ‹_› hm
  · rfl

/-- A HANDOVER that is new is stored and answered (05 R145). -/
theorem onHandover_stores (hc : s.ctx? ctx = some c) (hn : c.move.num.toNat = fieldNat g.payload 0 4) (hst : c.move.stored.get? g.sequence = none)
    (hs : c.move.state = .acked ∨ c.move.state = .committed) :
    ∃ c', (onHandover s ctx c g).ctx? ctx = some c' ∧ Posts c s.ports (onHandover s ctx c g) (ctlGram c 0x21 g.frame c.move.num.toNat g.sequence) ∧
      (c.move.state = .acked → c'.move.state = .acked ∧ c'.move.stored.get? g.sequence = some g.payload ∧ c'.move.total = some g.first) := by
  let m1 : Move := { c.move with stored := c.move.stored.set g.sequence g.payload, total := some g.first }
  let s1 := noteAnswered (s.modMove ctx fun m => { m with stored := m.stored.set g.sequence g.payload, total := some g.first }) ctx g
  let s2 := sendCtl s1 ctx 0x21 g.frame false g.sequence
  let s3 := if c.move.state = .committed ∧ g.sequence = 1 then s2.modCtx ctx fun c => takeTable c (g.payload.drop 8) else s2
  have h1 : s1.ctx? ctx = some { c with move := m1.noting g } := State.modMove_ctx? (State.modMove_ctx? hc _) _
  have h2 : s2.ctx? ctx = some { c with move := m1.noting g } := sendCtl_ctx?_silent h1 ..
  have ho : onHandover s ctx c g = moveOn s3 ctx := by
    obtain hs | hs := hs
    · simp [onHandover, hn, hs, hst, s3, s2, s1]
    · simp [onHandover, hn, hs, hst, s3, s2, s1]
  have h3 : GraphWork ctx s2 s3 := by
    simp only [s3]
    split
    · exact .modCtx s2 fun c => takeTable_spine ..
    · exact .refl _
  have hp : Posts c s.ports s2 (ctlGram c 0x21 g.frame c.move.num.toNat g.sequence) := sendCtl_posts h1 0x21 g.frame false g.sequence none []
  obtain ⟨c3, hc3, hk3⟩ := h3.ctx? h2
  have hm : c3.move = m1.noting g := (congrArg Context.move hk3 :)
  obtain ⟨c', h', -⟩ := (moveOn_work s3 ctx).ctx? hc3
  rw [ho]
  refine ⟨c', h', (hp.later h3.course).later (moveOn_work s3 ctx), fun ha => ?_⟩
  obtain ⟨c4, h4, hk4⟩ := (moveOn_course hc3 (by rw [hm]; simp [Move.noting, m1, ha])).ctx? hc3
  rw [h'] at h4
  cases h4
  have hm4 : c'.move.course = (m1.noting g).course := by rw [← hm]; exact (congrArg Context.move hk4 :)
  refine ⟨(congrArg Move.state hm4 :).trans ha, ?_, (congrArg Move.total hm4 :)⟩
  rw [show c'.move.stored = m1.stored from (congrArg Move.stored hm4 :)]
  exact Assoc.get?_set_same ..

theorem onHandoverAck_unnamed (hn : c.move.num.toNat ≠ g.first) : onHandoverAck s ctx c g = s := by simp [onHandoverAck, hn]

theorem onHandoverAck_named (hn : c.move.num.toNat = g.first) :
    onHandoverAck s ctx c g = moveOn (s.modCtx ctx fun c =>
      { c with move := { c.move with ctls := c.move.ctls.filter fun x => !(x.dg.kind == 0x20 && x.dg.sequence == g.sequence) } }) ctx := by
  rw [onHandoverAck, if_neg (not_not.2 hn)]
  rfl

end

/-! ## Timers and the stages that are sent (05 R145, R147; 15 R301, R304) -/

/-- What `sendStages` does for one stage of those that are complete. -/
def sendNext (ctx : Nat) (s : State) (n : Nat) : State :=
  match s.ctx? ctx with
  | none => s
  | some c =>
    if c.move.sentStages.contains n || !(c.move.tableSent || c.move.doneStages.head? == some n) then s
    else runGraph s ctx c.world (sendStage s ctx c n)

section
variable {s : State} {ctx : Nat} {c : Context} (hc : s.ctx? ctx = some c)
include hc

theorem abandonMove_aborts (hs : c.move.state = .proposed ∨ c.move.state = .acked ∨ c.move.state = .aborting) :
    ∃ c', (abandonMove s ctx).ctx? ctx = some c' ∧ c'.move.state = .aborting ∧ c'.move.num = c.move.num ∧ c'.cut = c.cut ∧
      Posts c s.ports (abandonMove s ctx) (ctlGram c 0x14 c.move.frame c.move.num.toNat) := by
  let s1 := s.modMove ctx fun m => { endMove m with state := .aborting, config := m.config, frame := m.frame, initiator := m.initiator }
  have h1 : s1.ctx? ctx = some { c with move := { endMove c.move with
      state := .aborting, config := c.move.config, frame := c.move.frame, initiator := c.move.initiator } } := State.modMove_ctx? hc _
  have ha : abandonMove s ctx = sendCtl s1 ctx 0x14 c.move.frame true := by
    obtain hs | hs | hs := hs <;> simp [abandonMove, hc, hs, s1]
  obtain ⟨c', h', hk⟩ := (sendCtl_work s1 ctx 0x14 c.move.frame true 0 none []).ctx? h1
  have hm := (congrArg Context.move hk :)
  rw [ha]
  exact ⟨c', h', (congrArg Move.state hm :), (congrArg Move.num hm :), (congrArg Context.cut hk :),
    sendCtl_posts h1 0x14 c.move.frame true 0 none []⟩

theorem sendStages_eq (hs : c.move.state = .committed) : sendStages s ctx = c.move.doneStages.foldl (sendNext ctx) s := by
  simp only [sendStages, hc, hs, ne_eq, not_true_eq_false, if_false]
  rfl

theorem sendNext_first {n : Nat} (hd : c.move.doneStages.head? = some n) (hn : n ∉ c.move.sentStages) :
    sendNext ctx s n = runGraph s ctx c.world (sendStage s ctx c n) := by
  simp [sendNext, hc, hd, hn]

theorem sendNext_waits {n : Nat} (ht : c.move.tableSent = false) (hd : c.move.doneStages.head? ≠ some n) : sendNext ctx s n = s := by
  simp [sendNext, hc, hd, ht]

theorem foldl_sendNext_waits (ht : c.move.tableSent = false) {l : List Nat} (hl : ∀ k ∈ l, c.move.doneStages.head? ≠ some k) :
    l.foldl (sendNext ctx) s = s := by
  induction l with
  | nil => rfl
  | cons k l ih =>
    rw [List.foldl_cons, sendNext_waits hc ht (hl k List.mem_cons_self)]
    exact ih fun j hj => hl j (List.mem_cons_of_mem _ hj)

theorem sendStages_single {n : Nat} {t : State} (hs : c.move.state = .committed) (hd : c.move.doneStages = [n])
    (hn : n ∉ c.move.sentStages) (h : sendStage s ctx c n = .ok t) : sendStages s ctx = t := by
  rw [sendStages_eq hc hs, hd, List.foldl_cons, sendNext_first hc (by rw [hd]; rfl) hn, h]
  rfl

/-- Where the first stage waits for a page no other goes before it (15 R304). -/
theorem sendStages_waits {n : Nat} {rest : List Nat} {g : GStop} (hs : c.move.state = .committed) (ht : c.move.tableSent = false)
    (hd : c.move.doneStages = n :: rest) (hr : n ∉ rest) (hn : n ∉ c.move.sentStages) (h : sendStage s ctx c n = .error g) :
    (sendStages s ctx).ports = s.ports := by
  have hg : (graphStop s ctx c.world g).ctx? ctx = some c := by rw [State.ctx?, graphStop_contexts]; exact hc
  have hrest : rest.foldl (sendNext ctx) (graphStop s ctx c.world g) = graphStop s ctx c.world g := by
    refine foldl_sendNext_waits hg ht fun k hk hh => hr ?_
    rw [hd, List.head?_cons, Option.some.injEq] at hh
    exact hh ▸ hk
  rw [sendStages_eq hc hs, hd, List.foldl_cons, sendNext_first hc (by rw [hd]; rfl) hn, h, runGraph, hrest]
  exact (graphStop_onlyTells ..).ports

theorem controlResend_none {k : Nat} (hk : c.move.ctls[k]? = none) :
    execControlResend ctx k s = .next s ∧ execFailed ctx k s = .next s := by
  simp [execControlResend, execFailed, hc, hk]

variable {k : Nat} {x : Ctl} (hk : c.move.ctls[k]? = some x)
include hk

theorem controlResend_waits (h : ¬ c.img.period ≤ 4 * (s.micros - x.sentAt) ∨ 16 ≤ x.resends) : execControlResend ctx k s = .next s := by
  have h' : (!ctlDue s c x) = true ∨ 16 ≤ x.resends := h.imp_left fun hd => by simpa [ctlDue] using hd
  simp only [execControlResend, hc, hk, if_pos h']

theorem failed_waits (h : ¬ c.img.period ≤ 4 * (s.micros - x.sentAt) ∨ x.resends < 16) : execFailed ctx k s = .next s := by
  have h' : (!ctlDue s c x) = true ∨ x.resends < 16 := h.imp_left fun hd => by simpa [ctlDue] using hd
  simp only [execFailed, hc, hk, if_pos h']

theorem controlResend_due (hd : c.img.period ≤ 4 * (s.micros - x.sentAt)) (hr : x.resends < 16) :
    ∃ t, execControlResend ctx k s = .next t ∧ t.ports[x.port].sent = s.ports[x.port].sent ++ [(x.peer, x.dg)] ∧
      t.ctx? ctx = some { c with move := { c.move with ctls := c.move.ctls.set k { x with sentAt := s.micros, resends := x.resends + 1 } } } := by
  have h' : ¬ ((!ctlDue s c x) = true ∨ 16 ≤ x.resends) := by simp [ctlDue, hd, hr]
  have hg : (sendGram s x.port x.peer x.dg).ctx? ctx = some c := by rw [State.ctx?, sendGram_contexts]; exact hc
  simp only [execControlResend, hc, hk, if_neg h']
  refine ⟨_, rfl, ?_, State.modMove_ctx? hg _⟩
  simp [State.modMove, State.modCtx_ports, sendGram_ports]

theorem failed_due (hd : c.img.period ≤ 4 * (s.micros - x.sentAt)) (hr : 16 ≤ x.resends) :
    ∃ t, execFailed ctx k s = .next t ∧ t.events = s.events ++ [(c.world, .moveFailed ctx)] ∧ t.ports = s.ports ∧
      t.ctx? ctx = some { c with stopped := true, move := { c.move with state := .failed, ctls := [] } } := by
  have h' : ¬ ((!ctlDue s c x) = true ∨ x.resends < 16) := by simp [ctlDue, hd, Nat.not_lt.2 hr]
  simp only [execFailed, hc, hk, if_neg h']
  refine ⟨_, rfl, rfl, rfl, ?_⟩
  exact (State.modCtx_ctx? ..).trans (by rw [hc, Option.map_some])

end
end Sys2Proof.Machine
end

section
/-! The steps of the control datagrams: each kind's effect for the move's state, from the state in which the datagram stands first. -/

namespace Sys2Proof.Machine

open Sys2Proof

/-- A step ends with a move going on from a state that satisfies `p` together with the context. -/
def Ends (s : State) (ctx : Nat) (i : Instr) (p : State → Context → Prop) : Prop :=
  ∃ q c', exec i s = .next (moveOn q ctx) ∧ q.ctx? ctx = some c' ∧ p q c'

/-- A step that only answers again, with `x`, a datagram `g` that was answered before. -/
def Again (s s0 : State) (ctx : Nat) (c : Context) (g : Datagram) (i : Instr) (x : Datagram) : Prop :=
  (g ∉ c.move.answered → exec i s = .next (moveOn s0 ctx)) ∧
    (g ∈ c.move.answered → Ends s ctx i fun q c' => c' = c ∧ Posts c s.ports q x)

/-- A control datagram of a paired context that passes stands first. -/
structure Controls (s : State) (a : Arrival) (rest : List Input) (c : Context) : Prop where
  takes : Takes s (.datagram a true) rest
  small : a.dg.context < 16384
  here : s.ctx? a.dg.context = some c
  world : c.world = a.world
  paired : c.img.paired = true
  form : controlOk c a.dg = true

namespace Controls

variable {s : State} {a : Arrival} {rest : List Input} {c : Context} (h : Controls s a rest c)
include h

theorem notData : a.dg.kind ≠ 1 ∧ a.dg.kind ≠ 2 := by
  have hf := h.form
  unfold controlOk at hf
  constructor <;> (intro hk; simp [hk] at hf)

theorem gramOk : Machine.gramOk s a true = true := by
  obtain ⟨h1, h2⟩ := h.notData
  rw [Machine.gramOk, gramCtx_of_world h.small h.here h.world, Bool.true_and]
  simp only
  split
  · exact absurd ‹_› h1
  · exact absurd ‹_› h2
  · exact absurd ‹_› h1
  · exact absurd ‹_› h2
  · rw [h.form, h.paired, Bool.and_self]

theorem arrived : (Machine.arrived s a rest).ctx? a.dg.context = some c := by
  rw [State.ctx?, arrived_contexts]
  exact h.here

/-- A control datagram is taken by what its kind asks for. -/
theorem control (f : State → Nat → Context → Datagram → State) {k : Nat} (hk : a.dg.kind = k) :
    Machine.control s k f = moveOn (f (Machine.arrived s a rest) a.dg.context c a.dg) a.dg.context :=
  arrival_ok h.takes h.gramOk h.here rfl hk

/-- A step that answers a datagram again. -/
theorem again {i : Instr} (he : exec i s = .next (moveOn (answerAgain (Machine.arrived s a rest) a.dg.context c a.dg) a.dg.context)) :
    Again s (Machine.arrived s a rest) a.dg.context c a.dg i (ctlGram c (replyKind a.dg.kind) a.dg.frame
      (if a.dg.kind = 0x20 then fieldNat a.dg.payload 0 4 else a.dg.first) (if a.dg.kind = 0x20 then a.dg.sequence else 0)) := by
  refine ⟨fun hn => ?_, fun hm => ?_⟩
  · rw [he, answerAgain_unknown hn]
  · obtain ⟨hc, hp⟩ := answerAgain_known h.arrived hm
    rw [arrived_ports] at hp
    exact ⟨_, c, he, hc, rfl, hp⟩

/-! ## CUT_PROPOSE -/

section
variable (hk : a.dg.kind = 0x10)
include hk

theorem propose_exec : exec .cutPropose s = .next (moveOn (onPropose (Machine.arrived s a rest) a.dg.context c a.dg) a.dg.context) :=
  congrArg Host.Outcome.next (h.control onPropose hk)

theorem propose_stays (hs : onPropose (Machine.arrived s a rest) a.dg.context c a.dg = Machine.arrived s a rest) :
    exec .cutPropose s = .next (moveOn (Machine.arrived s a rest) a.dg.context) := by rw [h.propose_exec hk, hs]

theorem propose_again (ha : a.dg ∈ c.move.answered) (hf : c.move.state ≠ .proposed ∨ c.img.far = true) :
    Again s (Machine.arrived s a rest) a.dg.context c a.dg .cutPropose (ctlGram c 0x11 a.dg.frame a.dg.first) := by
  have hr := h.again (by rw [h.propose_exec hk, onPropose_answered ha hf])
  simpa [hk, replyKind] using hr

/-- What the adoption of a proposal leaves, in the fields of the context and of its move. -/
theorem propose_adopts (ha : a.dg ∉ c.move.answered)
    (hs : (c.move.state = .idle ∨ c.move.state = .acked ∧ c.move.frame ≤ a.dg.frame) ∨
      (c.img.far = true ∧ (c.move.state = .proposed ∨ c.move.state = .aborting ∧ c.move.initiator = true))) :
    Ends s a.dg.context .cutPropose fun q c' => c'.move.state = .acked ∧ c'.move.frame = a.dg.frame ∧
      c'.move.config = fieldNat a.dg.payload 0 1 ∧ c'.move.num = BitVec.ofNat 32 a.dg.first ∧
      (c.move.num.toNat ≤ c.move.top.toNat → c'.move.top = BitVec.ofNat 32 (max c.move.top.toNat a.dg.first)) ∧
      c'.move.initiator = false ∧ a.dg ∈ c'.move.answered ∧ c'.cut = c.cut ∧
      Posts c s.ports q (ctlGram c 0x11 a.dg.frame (a.dg.first % 2 ^ 32)) ∧
      (c.move.state = .proposed ∨ c.move.state = .aborting → (c.world, .cutAbort a.dg.context true) ∈ q.events) := by
  have hports := arrived_ports s a rest
  have key : ∃ m c', m.num = c.move.num ∧ m.top = c.move.top ∧
      Adopts a.dg.context { c with move := m } s.ports a.dg (onPropose (Machine.arrived s a rest) a.dg.context c a.dg) c' ∧
      (c.move.state = .proposed ∨ c.move.state = .aborting →
        (c.world, .cutAbort a.dg.context true) ∈ (onPropose (Machine.arrived s a rest) a.dg.context c a.dg).events) := by
    obtain hs | ⟨hf, hs⟩ := hs
    · obtain ⟨c', had, -⟩ := acceptPropose_adopts h.arrived a.dg
      rw [← onPropose_new (c := c) ha hs, hports] at had
      exact ⟨c.move, c', rfl, rfl, had, fun hp => by obtain hs | ⟨hs, -⟩ := hs <;> simp [hs] at hp⟩
    · obtain ⟨c', had, hev⟩ := conflict_adopts h.arrived a.dg
      rw [← onPropose_conflict (c := c) ha hf hs] at had hev
      rw [hports] at had
      exact ⟨endMove c.move, c', rfl, rfl, had, fun _ => hev⟩
  obtain ⟨m, c', hnum, htop, had, hev⟩ := key
  have hm : c'.move.course = ((m.adopting a.dg).noting a.dg).course := (congrArg Context.move had.course :)
  refine ⟨_, c', h.propose_exec hk, had.here, (congrArg Move.state hm :), (congrArg Move.frame hm :), (congrArg Move.config hm :), ?_,
    fun ht => ?_, (congrArg Move.initiator hm :), ?_, (congrArg Context.cut had.course :), had.posts, hev⟩
  · exact (congrArg Move.num hm :).trans (m.adopting_num a.dg)
  · rw [← htop]
    exact (congrArg Move.top hm :).trans (m.adopting_top a.dg (by rwa [hnum, htop]))
  · rw [show c'.move.answered = _ from (congrArg Move.answered hm :)]
    exact Move.mem_noting ..

end

/-! ## CUT_ACK, CUT_COMMIT and COMMIT_ACK -/

theorem ack_exec (hk : a.dg.kind = 0x11) :
    exec .cutAck s = .next (moveOn (onAck (Machine.arrived s a rest) a.dg.context c a.dg) a.dg.context) :=
  congrArg Host.Outcome.next (h.control onAck hk)

theorem ack_commits (hk : a.dg.kind = 0x11) (hs : c.move.state = .proposed) (hn : c.move.num.toNat = a.dg.first)
    (hf : c.move.frame = a.dg.frame) (ht : ∀ k, c.current = some k → k + 1 < c.move.frame) :
    Ends s a.dg.context .cutAck fun q c' => c'.move.state = .committed ∧ c'.move.frame = c.move.frame ∧ c'.cut = c.cut ∧
      a.dg ∈ c'.move.answered ∧ Posts c s.ports q (ctlGram c 0x12 c.move.frame c.move.num.toNat) := by
  obtain ⟨c', hc', hs', hf', hcut, hans, hp⟩ := onAck_commits h.arrived hs hn hf ht
  rw [arrived_ports] at hp
  exact ⟨_, c', h.ack_exec hk, hc', hs', hf', hcut, hans, hp⟩

theorem ack_again (hk : a.dg.kind = 0x11) (hn : c.move.num.toNat = a.dg.first)
    (hs : c.move.state ≠ .proposed ∨ c.move.frame ≠ a.dg.frame ∨ ¬ ∀ k, c.current = some k → k + 1 < c.move.frame) :
    Again s (Machine.arrived s a rest) a.dg.context c a.dg .cutAck (ctlGram c 0x12 a.dg.frame a.dg.first) := by
  have hr := h.again (by rw [h.ack_exec hk, onAck_again hn hs])
  simpa [hk, replyKind] using hr

theorem commit_exec (hk : a.dg.kind = 0x12) :
    exec .cutCommit s = .next (moveOn (onCommit (Machine.arrived s a rest) a.dg.context c a.dg) a.dg.context) :=
  congrArg Host.Outcome.next (h.control onCommit hk)

theorem commit_commits (hk : a.dg.kind = 0x12) (hn : c.move.num.toNat = a.dg.first) (hs : c.move.state = .acked)
    (hf : c.move.frame = a.dg.frame) :
    Ends s a.dg.context .cutCommit fun q c' => c'.move.state = .committed ∧ a.dg ∈ c'.move.answered ∧
      Posts c s.ports q (ctlGram c 0x13 a.dg.frame c.move.num.toNat) := by
  obtain ⟨c', hc', hs', hans, hp⟩ := onCommit_commits h.arrived hs hn hf
  rw [arrived_ports] at hp
  exact ⟨_, c', h.commit_exec hk, hc', hs', hans, hp⟩

theorem commit_again (hk : a.dg.kind = 0x12) (hn : c.move.num.toNat = a.dg.first) (hs : c.move.state ≠ .acked ∨ c.move.frame ≠ a.dg.frame) :
    Again s (Machine.arrived s a rest) a.dg.context c a.dg .cutCommit (ctlGram c 0x13 a.dg.frame a.dg.first) := by
  have hr := h.again (by rw [h.commit_exec hk, onCommit_again hn hs])
  simpa [hk, replyKind] using hr

theorem commitAck_stops (hk : a.dg.kind = 0x13) :
    Ends s a.dg.context .commitAck fun q c' => q.ports = s.ports ∧ c' = { c with move := { c.move with
      ctls := c.move.ctls.filter fun x => !(x.dg.kind == 0x12 && x.dg.frame == a.dg.frame && x.dg.first == a.dg.first) } } :=
  ⟨_, _, congrArg Host.Outcome.next (h.control onCommitAck hk), State.modMove_ctx? h.arrived _, arrived_ports s a rest, rfl⟩

/-! ## CUT_ABORT and ABORT_ACK -/

theorem abort_exec (hk : a.dg.kind = 0x14) :
    exec .cutAbort s = .next (moveOn (onAbort (Machine.arrived s a rest) a.dg.context c a.dg) a.dg.context) :=
  congrArg Host.Outcome.next (h.control onAbort hk)

theorem abort_again (hk : a.dg.kind = 0x14) (hn : c.move.num.toNat = a.dg.first) (hs : c.move.state = .idle) :
    Again s (Machine.arrived s a rest) a.dg.context c a.dg .cutAbort (ctlGram c 0x15 a.dg.frame a.dg.first) := by
  have hr := h.again (by rw [h.abort_exec hk, onAbort_idle hn hs])
  simpa [hk, replyKind] using hr

theorem abort_ends (hk : a.dg.kind = 0x14) (hn : c.move.num.toNat = a.dg.first)
    (hs : c.move.state = .proposed ∨ c.move.state = .aborting ∨ c.move.state = .acked) :
    Ends s a.dg.context .cutAbort fun q c' => c'.move.state = .idle ∧ c'.move.num = c.move.num ∧ c'.move.stored = [] ∧ c'.cut = c.cut ∧
      Posts c s.ports q (ctlGram c 0x15 a.dg.frame c.move.num.toNat) ∧ (c.world, .cutAbort a.dg.context false) ∈ q.events := by
  obtain ⟨c', hc', hs', hnum, hst, hcut, hp, hev⟩ := onAbort_ends h.arrived hn hs
  rw [arrived_ports] at hp
  exact ⟨_, c', h.abort_exec hk, hc', hs', hnum, hst, hcut, hp, hev⟩

theorem abortAck_exec (hk : a.dg.kind = 0x15) :
    exec .abortAck s = .next (moveOn (onAbortAck (Machine.arrived s a rest) a.dg.context c a.dg) a.dg.context) :=
  congrArg Host.Outcome.next (h.control onAbortAck hk)

theorem abortAck_ends (hk : a.dg.kind = 0x15) (hs : c.move.state = .aborting) (hn : c.move.num.toNat = a.dg.first) :
    Ends s a.dg.context .abortAck fun q c' => c'.move.state = .idle ∧ c'.move.num = c.move.num ∧ c'.cut = c.cut ∧ q.ports = s.ports := by
  obtain ⟨c', hc', hs', hnum, hcut, hp⟩ := onAbortAck_ends h.arrived hs hn
  rw [arrived_ports] at hp
  exact ⟨_, c', h.abortAck_exec hk, hc', hs', hnum, hcut, hp⟩

/-! ## HANDOVER and HANDOVER_ACK -/

theorem handover_exec (hk : a.dg.kind = 0x20) :
    exec .handover s = .next (moveOn (onHandover (Machine.arrived s a rest) a.dg.context c a.dg) a.dg.context) :=
  congrArg Host.Outcome.next (h.control onHandover hk)

theorem handover_stores (hk : a.dg.kind = 0x20) (hn : c.move.num.toNat = fieldNat a.dg.payload 0 4)
    (hs : c.move.state = .acked ∨ c.move.state = .committed) (hst : c.move.stored.get? a.dg.sequence = none) :
    Ends s a.dg.context .handover fun q c' =>
      c'.move.state = .acked ∧ c.move.state = .acked ∧ c'.move.stored.get? a.dg.sequence = some a.dg.payload ∧
        c'.move.total = some a.dg.first ∧ Posts c s.ports q (ctlGram c 0x21 a.dg.frame c.move.num.toNat a.dg.sequence) ∨
      c.move.state = .committed ∧ Posts c s.ports q (ctlGram c 0x21 a.dg.frame c.move.num.toNat a.dg.sequence) := by
  obtain ⟨c', hc', hp, hstored⟩ := onHandover_stores h.arrived hn hst hs
  rw [arrived_ports] at hp
  refine ⟨_, c', h.handover_exec hk, hc', ?_⟩
  obtain hs | hs := hs
  · obtain ⟨h1, h2, h3⟩ := hstored hs
    exact .inl ⟨h1, hs, h2, h3, hp⟩
  · exact .inr ⟨hs, hp⟩

theorem handover_again (hk : a.dg.kind = 0x20)
    (he : onHandover (Machine.arrived s a rest) a.dg.context c a.dg = answerAgain (Machine.arrived s a rest) a.dg.context c a.dg) :
    Again s (Machine.arrived s a rest) a.dg.context c a.dg .handover
      (ctlGram c 0x21 a.dg.frame (fieldNat a.dg.payload 0 4) a.dg.sequence) := by
  have hr := h.again (by rw [h.handover_exec hk, he])
  simpa [hk, replyKind] using hr

theorem handoverAck_exec (hk : a.dg.kind = 0x21) :
    exec .handoverAck s = .next (moveOn (onHandoverAck (Machine.arrived s a rest) a.dg.context c a.dg) a.dg.context) :=
  congrArg Host.Outcome.next (h.control onHandoverAck hk)

end Controls

/-! ## The start of a frame (05 R121, R145) -/

theorem frameStart_next {s s1 : State} {ctx : Nat} {c : Context} (hc : s.ctx? ctx = some c) (hs : c.stopped = false)
    (ht : (c.img.epoch : Int) + nextFrame c * c.img.period ≤ s.micros + c.offset) (h : startNodes s ctx (nextFrame c) c = .ok s1) :
    let f := nextFrame c
    ∃ t c', exec (.frameStart ctx) s = .next t ∧ t.ctx? ctx = some c' ∧ c'.current = some f ∧
      (c.move.state = .idle → c'.move = c.move ∧ c'.cut = c.cut) ∧
      (c.move.state = .proposed → f + 1 < c.move.frame → c'.move = { c.move with doneStages := c'.move.doneStages }) ∧
      (c.move.state = .proposed → c.move.frame ≤ f + 1 → c.move.deferrals < 3 → c'.move.state = .proposed ∧ c'.move.frame = c.move.frame + 1 ∧
        c'.move.deferrals = c.move.deferrals + 1 ∧ (c.world, .cutDefer ctx (c.move.frame + 1)) ∈ t.events) ∧
      (c.move.state = .proposed → c.move.frame ≤ f + 1 → 3 ≤ c.move.deferrals → c'.move.state = .aborting ∧ c'.cut = c.cut ∧
        (c.world, .cutAbort ctx false) ∈ t.events) ∧
      (c.move.state = .committed → c.move.frame ≤ f → c.move.phaseDone = false → c'.phase = c.phase + 1) := by
  intro f
  let s2 := s1.modCtx ctx fun x => { x with current := some f }
  obtain ⟨c1, h1, hk1⟩ := ((startNodes_work s ctx f c).work s1 h).ctx? hc
  let c2 : Context := { c1 with current := some f }
  have h2 : s2.ctx? ctx = some c2 := by rw [State.modCtx_ctx?, h1, Option.map_some]
  have hm : c2.move = c.move := (congrArg Context.move hk1 :)
  have hcut : c2.cut = c.cut := (congrArg Context.cut hk1 :)
  have hw : c2.world = c.world := (congrArg Context.world hk1 :)
  have hph : c2.phase = c.phase := (congrArg Context.phase hk1 :)
  obtain ⟨c', h', hk'⟩ := enterFrame_steady (f := f) h2
  have same {c3 : Context} (h3 : (enterFrame s2 ctx f).ctx? ctx = some c3) : c3 = c' := Option.some.inj (h3.symm.trans h')
  refine ⟨_, c', frameStart_enters hc hs ht h, h', (congrArg Context.current hk' :), fun hst => ?_, fun hst hf => ?_, fun hst hf hd => ?_,
    fun hst hf hd => ?_, fun hst hf hd => ?_⟩
  · obtain ⟨c3, h3, hk⟩ := enterFrame_idle (f := f) h2 (by rw [hm, hst])
    cases same h3
    exact ⟨(congrArg Context.move hk :).trans hm, (congrArg Context.cut hk :).trans hcut⟩
  · obtain ⟨c3, l, h3, hk⟩ := enterFrame_ahead (f := f) h2 (by rw [hm, hst]) (by rwa [hm])
    cases same h3
    rw [hk, hm]
  · obtain ⟨c3, h3, hk, he⟩ := enterFrame_defers (f := f) h2 (by rw [hm, hst]) (by rwa [hm]) (by rwa [hm])
    cases same h3
    have hk' := (congrArg Context.move hk :)
    rw [hw, hm] at he
    exact ⟨(congrArg Move.state hk' :).trans (by rw [← hst, ← hm]; rfl), (congrArg Move.frame hk' :).trans (by rw [← hm]; rfl),
      (congrArg Move.deferrals hk' :).trans (by rw [← hm]; rfl), he⟩
  · obtain ⟨c3, h3, hk, he⟩ := enterFrame_aborts (f := f) h2 (by rw [hm, hst]) (by rwa [hm]) (by rwa [hm])
    cases same h3
    rw [hw] at he
    exact ⟨(congrArg (fun c => c.move.state) hk :), (congrArg Context.cut hk :).trans hcut, he⟩
  · obtain ⟨c3, h3, hk⟩ := enterFrame_steps (f := f) h2 (by rw [hm, hst]) (by rwa [hm]) (by rwa [hm])
    cases same h3
    rw [hk, hph]

end Sys2Proof.Machine
end

section
/-! The time of graphs and their datagrams, settled. -/

namespace Sys2Proof.Machine

open Sys2Proof

/-- Settles O58. The frame clauses follow a frame's start through the move's state (`enterFrame_idle` and the lemmas after it), those of
control datagrams go by kind (`Controls`), and in both what comes later keeps what was done, told and sent (`MoveWork`). -/
theorem graphTimeAndDatagrams : Obligations.GraphTimeAndDatagrams := by
  unfold Obligations.GraphTimeAndDatagrams
  intro holds
  refine ⟨?_, ?_, ?_, ?_, ?_, ?_, ?_, ?_, ?_, ?_, ?_, ?_⟩
  · -- The start of a frame.
    intro s ctx c hc f
    exact ⟨frameStart_waits hc, fun hs ht => ⟨fun g hg => frameStart_stops hc hs ht hg, fun s1 h1 => frameStart_next hc hs ht h1⟩⟩
  · -- A node's deadline.
    intro s ctx n f c x hc hx passed due
    refine ⟨nodeFrameDeadline_waits hc hx, fun ⟨hp, hk⟩ ht => ?_⟩
    have hd : exec (.nodeFrameDeadline ctx n f) s = _ := nodeFrameDeadline_due hc hx hp hk ht
    refine ⟨fun s2 h2 => by rw [hd, h2]; rfl, fun g hg => by rw [hd, hg]; rfl, fun d hd hn => ?_⟩
    obtain ⟨c1, h1, hrest, hf⟩ := markDeadlines_frames hc hx hd hn
    exact ⟨c1, h1, hrest, hf⟩
  · -- The batches of a trigger edge.
    intro s s2 ctx n fuel hi late c x d k hc hx hd hk h2 _ last
    refine ⟨launchReady_barred hc hx hd hk fuel, fun hm hcut hl => launchReady_waits hc hx hd hk hm h2 fuel (nextBatch_none hcut hl),
      fun hm hb hr => ?_⟩
    obtain ⟨rfl, hcut, hlo, hhi⟩ | ⟨rfl, rfl, hle, hcut⟩ := hb
    · exact launchReady_takes hc hx hd hk hm h2 fuel (nextBatch_late hcut hlo hhi) hr
    · exact launchReady_takes hc hx hd hk hm h2 fuel (nextBatch_whole hcut hle) hr
  · -- The launch of a batch.
    intro s ctx n b c x s1 bs d hc hx
    exact ⟨graphLaunch_dead hc hx, fun h hk hr hd => graphLaunch_compute hc hx h hk hr hd⟩
  · -- An edge's deadline.
    intro s ctx e c d hc hd hb f due
    refine ⟨fun h => ⟨_, edgeDeadline_waits hc hd hb h, settled_ctx? hc hb, rfl⟩, fun ⟨hr, ht⟩ => ?_⟩
    obtain ⟨he, hclosed⟩ := edgeDeadline_closes hc hd hb hr ht
    exact ⟨fun s1 h1 => he.trans (by rw [h1]; rfl), hclosed⟩
  · -- What leaves a port, and what expires there.
    intro s p o left
    exact ⟨fun ho c hc => datagramSend_first hc ho, fun ho c hc => datagramExpired_first hc ho,
      fun c hc => ⟨maySend_before hc, expired_iff hc⟩, ports_empty⟩
  · -- Malformed datagrams.
    intro s a ok rest hw0 hh hi
    have ht : Takes s (.datagram a ok) rest := ⟨hw0, hh, hi⟩
    refine ⟨malformed_passes ht, fun h => ⟨fun c hk hc hw hok hd he => ?_, malformed_onPort ht h⟩⟩
    subst hok
    exact malformed_onEdge ht h hk hc hw hd he
  · -- Data and parity.
    intro s a rest c d s1 c1 hw0 hh hi hok hc hd k e s0
    have ht : Takes s (.datagram a true) rest := ⟨hw0, hh, hi⟩
    have hc0 : (arrived s a rest).ctx? k = some c := by
      rw [State.ctx?, arrived_contexts]
      exact hc
    have data {q : State} := data_exec ht hok hc (q := q)
    have parity {q : State} := parity_exec ht hok hc (q := q)
    refine ⟨fun hr => ?_, fun hr hs h1 => ?_⟩
    · exact ⟨notHere s0 k c d a.dg, fun hk => data hk (takeData_elsewhere hd hr), fun hk => parity hk (takeParity_elsewhere hd hr),
        notHere_dropped, notHere_coming hc0⟩
    refine ⟨fun hk hp => ?_, fun hk hp he => ?_, fun hk hp => parity hk (takeParity_notOpen hd hr hs h1 hp), fun hp he => ⟨?_, ?_⟩⟩
    · obtain ⟨c', h', hy⟩ := seenSeq_counts (g := a.dg) h1 fun y => { y with late := y.late + BitVec.ofNat 32 a.dg.records }
      exact ⟨_, c', data hk (takeData_late hd hr hs h1 hp), h', (List.append_nil _).symm, hy⟩
    · obtain ⟨c', h', hy⟩ := seenSeq_counts (g := a.dg) h1 fun y => { y with early := y.early + BitVec.ofNat 32 a.dg.records }
      exact ⟨_, c', data hk (takeData_early hd hr hs h1 hp he), h', rfl, hy⟩
    · exact fun s2 s3 s4 hk h2 h3 h4 => data hk (takeData_open hd hr hs h1 hp he h2 h3 h4)
    · exact fun s3 s4 hk h3 h4 => parity hk (takeParity_open hd hr hs h1 hp he h3 h4)
  · -- One record of a datagram.
    intro s ctx e f c d r hc slot
    exact ⟨placeOne_filled hc, placeOne_free hc⟩
  · -- Control datagrams, by kind.
    intro s a rest ctx c hw0 hh hi hctx hsmall hc hw hp hform
    subst hctx
    have h : Controls s a rest c := ⟨⟨hw0, hh, hi⟩, hsmall, hc, hw, hp, hform⟩
    intro g m s0 gram ends posts stays again named adopts
    refine ⟨fun hk => ⟨?_, ?_, fun ha => ⟨?_, ?_, ?_, ?_, ?_, ?_, ?_⟩⟩, fun hk => ⟨?_, ?_, ?_⟩, fun hk => ⟨?_, ?_, ?_⟩, h.commitAck_stops,
      fun hk => ⟨?_, ?_, ?_, ?_⟩, fun hk => ⟨?_, ?_⟩, fun hk => ⟨?_, ?_, ?_, ?_⟩, fun hk => ⟨?_, ?_⟩⟩
    · exact fun hs hf => h.propose_stays hk (onPropose_near hs hf)
    · exact h.propose_again hk
    · exact fun hs => h.propose_adopts hk ha (.inl (.inl hs))
    · exact fun hs hf => h.propose_adopts hk ha (.inl (.inr ⟨hs, hf⟩))
    · exact fun hs hf => h.propose_stays hk (onPropose_stays ha (.inl ⟨hs, hf⟩))
    · exact fun hs hf => h.propose_adopts hk ha (.inr ⟨hf, .inl hs⟩)
    · exact fun hs hf hin => h.propose_adopts hk ha (.inr ⟨hf, .inr ⟨hs, hin⟩⟩)
    · exact fun hs hf => h.propose_stays hk (onPropose_stays ha (.inr (.inl ⟨hs, hf⟩)))
    · exact fun hs => h.propose_stays hk (onPropose_stays ha (.inr (.inr hs)))
    · exact fun hs hn hf ht => h.ack_commits hk hs hn hf ht
    · exact fun hn => (h.ack_exec hk).trans (by rw [onAck_unnamed hn]; rfl)
    · exact h.ack_again hk
    · exact fun hn => (h.commit_exec hk).trans (by rw [onCommit_unnamed hn]; rfl)
    · exact h.commit_commits hk
    · exact h.commit_again hk
    · exact fun hn => (h.abort_exec hk).trans (by rw [onAbort_unnamed hn]; rfl)
    · exact fun hn hs => (h.abort_exec hk).trans (by rw [onAbort_stays hn hs]; rfl)
    · exact h.abort_again hk
    · exact h.abort_ends hk
    · exact h.abortAck_ends hk
    · exact fun hs => (h.abortAck_exec hk).trans (by rw [onAbortAck_stays hs]; rfl)
    · exact fun hn => (h.handover_exec hk).trans (by rw [onHandover_other hn]; rfl)
    · exact h.handover_stores hk
    · exact fun hn hs hst => h.handover_again hk (onHandover_stored hn hs hst)
    · exact fun hn ha hm => h.handover_again hk (onHandover_closed hn ha hm)
    · exact fun hn => (h.handoverAck_exec hk).trans (by rw [onHandoverAck_unnamed hn]; rfl)
    · exact fun hn => (h.handoverAck_exec hk).trans (by rw [onHandoverAck_named hn]; rfl)
  · -- A move that goes on, is abandoned, or sends its stages; histories, the edge table and timers.
    intro s ctx k c hc
    refine ⟨moveOn_idle hc, moveOn_of_not_committed hc, fun _ hs => ?_, fun hs ht => ⟨fun hd => ?_, ?_, ?_⟩, ?_, ?_, controlResend_none hc,
      fun x hk => ⟨controlResend_waits hc hk, failed_waits hc hk, controlResend_due hc hk, failed_due hc hk⟩⟩
    · obtain ⟨c', h', hst, hnum, hcut, more, hp⟩ := abandonMove_aborts hc hs
      exact ⟨c', more, h', hst, hnum, hcut, hp⟩
    · rw [sendStages_eq hc hs, hd]
      rfl
    · exact fun n rest g hd hr hn hg => sendStages_waits hc hs ht hd hr hn hg
    · exact fun n t hd hn h => sendStages_single hc hs hd hn h
    · exact fun e d x p => turnFrame_hist
    · exact fun old bs d hd => takeEntry_counts hd
  · -- The frame clock.
    exact fun s ctx offset c hc => ptpSync_ctx? hc

end Sys2Proof.Machine
end

section
/-! What a scalar word decodes to stands for that word alone: its fields, put together again, are the word (06 R154 to R161, R169 to R172). -/

namespace Sys2Proof
open Machine

-- One after another: side by side these proofs wait for one another on a stack each, and the check has memory for few.
set_option Elab.async false

theorem need_ok {b : Bool} {e : DecodeErr} {i j : Instr} : need b e i = .ok j ↔ b = true ∧ i = j := by
  cases b <;> simp [need]

/-- An instruction that a scalar word stands for: it has the word's guard, no combination that the maps forbid but SGATE's length,
and the word, with the second one where its major takes two, is its encoding. -/
structure StandsFor (w w2 : Nat) (i : Instr) : Prop where
  scalar : i.vword = none
  notVector : i.isVector = false
  guard : i.guard? = some (guardOf w)
  fields : i.combinationOk = true ∨ ∃ g d a b n, i = .sgate g d a b n
  words : i.scalarWords = if twoWords w then [w, w2] else [w]

theorem encode_scalar {i : Instr} (hv : i.vword = none) (hn : i.isVector = false) : encode i = i.scalarWords := by
  unfold encode
  rw [hv]
  dsimp only
  split
  · cases hn
  · rfl

/-! ## Codes, single bits and neighbouring fields, read back -/

theorem Scope.code_of {n : Nat} {x : Scope} (h : scopeOf n = some x) : x.code = n := by
  unfold scopeOf at h; split at h <;> cases h <;> rfl
theorem Cond.code_of {n : Nat} {x : Cond} (h : condOf n = some x) : x.code = n := by
  unfold condOf at h; split at h <;> cases h <;> rfl
theorem CmpWidth.code_of {n : Nat} {x : CmpWidth} (h : widthOf n = some x) : x.code = n := by
  unfold widthOf at h; split at h <;> cases h <;> rfl
theorem Transform.code_of {n : Nat} {x : Transform} (h : transformOf n = some x) : x.code = n := by
  unfold transformOf at h; split at h <;> cases h <;> rfl
theorem PairType.code_of {n : Nat} {x : PairType} (h : pairTypeOf n = some x) : x.code = n := by
  unfold pairTypeOf at h; split at h <;> cases h <;> rfl
theorem Sparsity.code_of {n : Nat} {x : Sparsity} (h : sparsityOf n = some x) : x.code = n := by
  unfold sparsityOf at h; split at h <;> cases h <;> rfl
theorem Level.code_of {n : Nat} {x : Level} (h : levelOf n = some x) : x.code = n := by
  unfold levelOf at h; split at h <;> cases h <;> rfl
theorem CollOp.code_of {n : Nat} {x : CollOp} (h : collOpOf n = some x) : x.code = n := by
  unfold collOpOf at h; split at h <;> cases h <;> rfl
theorem StatItem.code_of {n : Nat} {x : StatItem} (h : statOf n = some x) : x.code = n := by
  unfold statOf at h; split at h <;> cases h <;> rfl
theorem Ty.code_of {n : Nat} {x : Ty} (h : tyOf n = some x) : x.code = n := by
  unfold tyOf at h; split at h <;> cases h <;> rfl

theorem sizeOf'_code {n : Nat} (h : n < 4) : (sizeOf' n).code = n := by interval_cases n <;> rfl
theorem atomOf_code {n : Nat} (h : n < 8) : (atomOf n).code = n := by interval_cases n <;> rfl
theorem countOf_code {n : Nat} (h : n < 4) : (countOf n).code = n := by interval_cases n <;> rfl
theorem collKindOf_code {n : Nat} (h : n < 4) : (collKindOf n).code = n := by interval_cases n <;> rfl

theorem fld_lt (w lo n : Nat) : fld w lo n < 2 ^ n := Nat.mod_lt _ (by positivity)
/-- Two fields side by side are one. -/
theorem fld_cat (w lo n m : Nat) : fld w (lo + n) m * 2 ^ n + fld w lo n = fld w lo (m + n) := by
  simp only [fld, Nat.pow_add, ← Nat.div_div_eq_div_mul, Nat.mul_comm (2 ^ m) (2 ^ n)]
  rw [Nat.mod_mul, Nat.mul_comm, Nat.add_comm]

/-- A field is its upper and its lower part. -/
theorem fld_split (w : Nat) {lo n m hi k : Nat} (hhi : lo + n = hi := by rfl) (hk : m + n = k := by rfl) :
    fld w lo k = fld w hi m * 2 ^ n + fld w lo n := by
  subst hhi hk
  exact (fld_cat w lo n m).symm

/-- The 22 bits below a word's major, in the SR shape. -/
theorem fld_sr (w : Nat) : fld w 0 22 = fld w 17 5 * 2 ^ 17 + fld w 12 5 * 2 ^ 12 + fld w 7 5 * 2 ^ 7 + fld w 0 7 := by
  have join (a b c d : Nat) : a * 2 ^ 17 + b * 2 ^ 12 + c * 2 ^ 7 + d = ((a * 2 ^ 5 + b) * 2 ^ 5 + c) * 2 ^ 7 + d := by omega
  rw [join, fld_cat w 12 5 5, fld_cat w 7 5 10, fld_cat w 0 7 15]

/-- The 22 bits below a word's major, in the SI shape. -/
theorem fld_si (w : Nat) : fld w 0 22 = fld w 17 5 * 2 ^ 17 + fld w 12 5 * 2 ^ 12 + fld w 0 12 := by
  have join (a b d : Nat) : a * 2 ^ 17 + b * 2 ^ 12 + d = (a * 2 ^ 5 + b) * 2 ^ 12 + d := by omega
  rw [join, fld_cat w 12 5 5, fld_cat w 0 12 10]

theorem reg_val (w lo : Nat) : (reg w lo).val = fld w lo 5 := rfl
theorem reg_eq_zero {w lo : Nat} : reg w lo = 0 ↔ fld w lo 5 = 0 := by rw [Fin.ext_iff, reg_val, Fin.val_zero]
theorem b2n_bit (w i : Nat) : b2n (bit w i) = fld w i 1 := by
  have h := fld_lt w i 1
  rw [bit_fld]
  obtain h | h : fld w i 1 = 0 ∨ fld w i 1 = 1 := by omega
  all_goals rw [h]; rfl
theorem bit_eq_false {w i : Nat} : bit w i = false ↔ fld w i 1 = 0 := by
  rw [← b2n_bit]; cases bit w i <;> decide
theorem bit_eq_true {w i : Nat} : bit w i = true ↔ fld w i 1 = 1 := by
  rw [← b2n_bit]; cases bit w i <;> decide

theorem ofNat_val {w : Nat} (n k : Nat) [NeZero n] (h : n = 2 ^ k := by rfl) : (Fin.ofNat n w).val = fld w 0 k := by
  rw [Fin.val_ofNat, fld, pow_zero, Nat.div_one, h]
theorem ofNat_toNat_fld (n w : Nat) : (BitVec.ofNat n w).toNat = fld w 0 n := by simp [fld]

/-! ## A word from its guard, its major and its fields -/

/-- The bits of a word's guard field. -/
theorem guardOf_bits {w : Nat} (h : w < 2 ^ 32) : (guardOf w).bits = w / 2 ^ 28 * 2 ^ 28 := by
  have h31 : w / 2 ^ 31 % 2 = w / 2 ^ 31 := by omega
  simp only [guardOf, Guard.bits, bit, h31, Fin.ofNat]
  split <;> simp_all <;> omega

section
variable {w w2 M : Nat} {i : Instr} (hw : w < 2 ^ 32) (hM : fld w 22 6 = M)
include hw hM

/-- A word is its guard, its major and the 22 bits below. -/
theorem bits_major {r : Nat} (hr : fld w 0 22 = r) : (guardOf w).bits + M * 2 ^ 22 + r = w := by
  rw [guardOf_bits hw]
  simp only [fld] at hM hr
  omega

theorem encSR_eq {x y z : Fin 32} {f : Nat} (hx : reg w 17 = x) (hy : reg w 12 = y) (hz : reg w 7 = z) (hf : fld w 0 7 = f) :
    encSR (guardOf w) M x y z f = w := by
  subst hx hy hz hf
  rw [encSR_sum]
  exact bits_major hw hM (fld_sr w)

theorem encSI_eq {x y : Fin 32} {f : Nat} (hx : reg w 17 = x) (hy : reg w 12 = y) (hf : fld w 0 12 = f) :
    encSI (guardOf w) M x y f = w := by
  subst hx hy hf
  rw [encSI_sum]
  exact bits_major hw hM (fld_si w)

omit hw in
theorem twoWords_one (hone : M ∉ [9, 0xA, 0x16, 0x20]) : twoWords w = false := by
  simp only [List.mem_cons, List.not_mem_nil, or_false, not_or] at hone
  obtain ⟨h1, h2, h3, h4⟩ := hone
  subst hM
  unfold twoWords
  split <;> simp_all

omit hw hM in
/-- An instruction of one word. -/
theorem standsFor_one (h2 : twoWords w = false) (h : i.scalarWords = [w]) (hc : i.combinationOk = true := by rfl)
    (hv : i.vword = none := by rfl) (hn : i.isVector = false := by rfl) (hg : i.guard? = some (guardOf w) := by rfl) :
    StandsFor w w2 i := ⟨hv, hn, hg, .inl hc, by rw [h, h2]; rfl⟩

/-- An instruction of one word with the SR shape. -/
theorem standsFor_sr {x y z : Fin 32} {f : Nat} (hone : M ∉ [9, 0xA, 0x16, 0x20]) (h : i.scalarWords = [encSR (guardOf w) M x y z f])
    (hf : fld w 0 7 = f) (hx : reg w 17 = x := by rfl) (hy : reg w 12 = y := by rfl) (hz : reg w 7 = z := by rfl)
    (hc : i.combinationOk = true := by rfl) (hv : i.vword = none := by rfl) (hn : i.isVector = false := by rfl)
    (hg : i.guard? = some (guardOf w) := by rfl) : StandsFor w w2 i :=
  standsFor_one (twoWords_one hM hone) (by rw [h, encSR_eq hw hM hx hy hz hf]) hc hv hn hg

/-- An instruction of one word with the SI shape. -/
theorem standsFor_si {x y : Fin 32} {f : Nat} (hone : M ∉ [9, 0xA, 0x16, 0x20]) (h : i.scalarWords = [encSI (guardOf w) M x y f])
    (hf : fld w 0 12 = f) (hx : reg w 17 = x := by rfl) (hy : reg w 12 = y := by rfl)
    (hc : i.combinationOk = true := by rfl) (hv : i.vword = none := by rfl) (hn : i.isVector = false := by rfl)
    (hg : i.guard? = some (guardOf w) := by rfl) : StandsFor w w2 i :=
  standsFor_one (twoWords_one hM hone) (by rw [h, encSI_eq hw hM hx hy hf]) hc hv hn hg

/-- An instruction of one word with fields of its own below the major. -/
theorem standsFor_word {r : Nat} (hone : M ∉ [9, 0xA, 0x16, 0x20]) (h : i.scalarWords = [(guardOf w).bits + M * 2 ^ 22 + r])
    (hr : fld w 0 22 = r)
    (hc : i.combinationOk = true := by rfl) (hv : i.vword = none := by rfl) (hn : i.isVector = false := by rfl)
    (hg : i.guard? = some (guardOf w) := by rfl) : StandsFor w w2 i :=
  standsFor_one (twoWords_one hM hone) (by rw [h, bits_major hw hM hr]) hc hv hn hg

end

/-! ## Major by major (06 R159) -/

section
variable {w w2 : Nat} {i : Instr} (hw : w < 2 ^ 32)
include hw

/-- Major 0x00 (07 R180). -/
theorem system_standsFor (hM : fld w 22 6 = 0x00) (h : decodeMajor (guardOf w) w w2 = some (.ok i)) : StandsFor w w2 i := by
  simp only [decodeMajor, hM, Option.some.injEq] at h
  split at h
  case h_6 => cases h
  case h_5 hf =>
    split at h
    · rename_i sc hsc
      simp only [need_ok, List.all_cons, List.all_nil, Bool.and_eq_true, beq_iff_eq] at h
      obtain ⟨⟨⟨hd, ha, -⟩, h10⟩, rfl⟩ := h
      rw [reg_eq_zero] at hd ha
      have hs : fld w 7 3 = sc.code := (Scope.code_of hsc).symm
      have h7 : fld w 7 5 = fld w 10 2 * 2 ^ 3 + fld w 7 3 := fld_split w
      refine standsFor_word hw hM (r := sc.code * 2 ^ 7 + 4) (by decide) ?_ ?_
      · simp [Instr.scalarWords, Nat.add_assoc]
      · simp only [fld_sr, hd, ha, h7, h10, hs, hf, Nat.zero_mul, Nat.zero_add]
    · cases h
  all_goals
    simp only [need_ok, List.all_cons, List.all_nil, Bool.and_eq_true, beq_iff_eq] at h
    obtain ⟨⟨hd, ha, hb, -⟩, rfl⟩ := h
    exact standsFor_sr hw hM (by decide) rfl ‹_› hd ha hb

/-- Major 0x01 (07 R182). -/
theorem alu_standsFor (hM : fld w 22 6 = 0x01) (h : decodeMajor (guardOf w) w w2 = some (.ok i)) : StandsFor w w2 i := by
  simp only [decodeMajor, hM, Option.some.injEq, alu] at h
  split at h
  case h_21 => cases h
  case h_19 | h_20 =>
    simp only [need_ok, beq_iff_eq] at h
    obtain ⟨hb, rfl⟩ := h
    exact standsFor_sr hw hM (by decide) rfl ‹_› rfl rfl hb
  all_goals
    cases h
    exact standsFor_sr hw hM (by decide) rfl ‹_›

/-- Majors 0x02 to 0x05 (07 R184). -/
theorem imm_standsFor (hM : fld w 22 6 ∈ [0x02, 0x03, 0x04, 0x05]) (h : decodeMajor (guardOf w) w w2 = some (.ok i)) :
    StandsFor w w2 i := by
  have hf : fld w 0 12 = (BitVec.ofNat 12 w).toNat := (ofNat_toNat_fld 12 w).symm
  simp only [List.mem_cons, List.not_mem_nil, or_false] at hM
  obtain hM | hM | hM | hM := hM
  all_goals
    simp only [decodeMajor, hM, Option.some.injEq, Except.ok.injEq] at h
    subst h
    exact standsFor_si hw hM (by decide) rfl hf

/-- Majors 0x06 to 0x08 (07 R184). -/
theorem shift_standsFor (hM : fld w 22 6 ∈ [0x06, 0x07, 0x08]) (h : decodeMajor (guardOf w) w w2 = some (.ok i)) :
    StandsFor w w2 i := by
  simp only [List.mem_cons, List.not_mem_nil, or_false] at hM
  obtain hM | hM | hM := hM
  all_goals
    simp only [decodeMajor, hM, Option.some.injEq, need_ok, beq_iff_eq] at h
    obtain ⟨h6, rfl⟩ := h
    have h0 : fld w 0 12 = fld w 6 6 * 2 ^ 6 + fld w 0 6 := fld_split w
    refine standsFor_si hw hM (by decide) rfl ?_
    rw [h0, h6, Nat.zero_mul, Nat.zero_add, ofNat_val 64 6]

/-- Majors 0x09 and 0x0A (07 R185). -/
theorem literal_standsFor (hw2 : w2 < 2 ^ 32) (hM : fld w 22 6 ∈ [0x09, 0x0A]) (h : decodeMajor (guardOf w) w w2 = some (.ok i)) :
    StandsFor w w2 i := by
  have hlit : (BitVec.ofNat 32 w2).toNat = w2 := by simp only [BitVec.toNat_ofNat]; omega
  simp only [List.mem_cons, List.not_mem_nil, or_false] at hM
  obtain hM | hM := hM
  all_goals
    simp only [decodeMajor, hM, Option.some.injEq, need_ok, beq_iff_eq] at h
    obtain ⟨h17, rfl⟩ := h
    have h0 : fld w 0 17 = fld w 12 5 * 2 ^ 12 + fld w 0 12 := fld_split w
    have he := encSI_eq (f := 0) hw hM rfl (reg_eq_zero.2 (by omega)) (by omega)
    have h2 : twoWords w = true := by simp only [twoWords, hM]
    exact ⟨rfl, rfl, rfl, .inl rfl, by simp only [Instr.scalarWords, he, h2, hlit, if_true]⟩

/-- Major 0x0B (07 R186). -/
theorem compare_standsFor (hM : fld w 22 6 = 0x0B) (h : decodeMajor (guardOf w) w w2 = some (.ok i)) : StandsFor w w2 i := by
  simp only [decodeMajor, hM, Option.some.injEq] at h
  split at h
  · rename_i c k hc hk
    split at h
    · rename_i h20
      simp only [need_ok] at h
      obtain ⟨hcomb, rfl⟩ := h
      have hc : fld w 2 5 = c.code := (Cond.code_of hc).symm
      have hk : fld w 0 2 = k.code := (CmpWidth.code_of hk).symm
      have h17 : fld w 17 5 = fld w 20 2 * 2 ^ 3 + fld w 17 3 := fld_split w
      have h0 : fld w 0 7 = fld w 2 5 * 2 ^ 2 + fld w 0 2 := fld_split w
      refine standsFor_word hw hM (r := fld w 17 3 * 2 ^ 17 + fld w 12 5 * 2 ^ 12 + fld w 7 5 * 2 ^ 7 + c.code * 2 ^ 2 + k.code)
        (by decide) ?_ ?_ hcomb
      · simp only [Instr.scalarWords, reg_val, Nat.add_assoc]; rfl
      · rw [fld_sr, h17, h20, h0, hc, hk]
        omega
    · cases h
  · cases h

/-- Major 0x0C (07 R187). -/
theorem predicate_standsFor (hM : fld w 22 6 = 0x0C) (h : decodeMajor (guardOf w) w w2 = some (.ok i)) : StandsFor w w2 i := by
  have key {f : Nat} (hf : fld w 0 7 = f) (h1 : fld w 20 2 = 0) (h2 : fld w 15 2 = 0) (h3 : fld w 10 2 = 0) :
      encPR (guardOf w) (Fin.ofNat 8 (w / 2 ^ 17)) (Fin.ofNat 8 (w / 2 ^ 12)) (Fin.ofNat 8 (w / 2 ^ 7)) f = w := by
    have h17 : fld w 17 5 = fld w 20 2 * 2 ^ 3 + fld w 17 3 := fld_split w
    have h12 : fld w 12 5 = fld w 15 2 * 2 ^ 3 + fld w 12 3 := fld_split w
    have h7 : fld w 7 5 = fld w 10 2 * 2 ^ 3 + fld w 7 3 := fld_split w
    refine Eq.trans ?_ (bits_major (r := fld w 17 3 * 2 ^ 17 + fld w 12 3 * 2 ^ 12 + fld w 7 3 * 2 ^ 7 + f) hw hM ?_)
    · simp only [encPR, Nat.add_assoc]; rfl
    · rw [fld_sr, h17, h1, h12, h2, h7, h3, hf]
      omega
  have h2 : twoWords w = false := twoWords_one hM (by decide)
  simp only [decodeMajor, hM, Option.some.injEq] at h
  split at h
  case h_6 => cases h
  case h_4 hf | h_5 hf =>
    simp only [need_ok, Bool.and_eq_true, beq_iff_eq] at h
    obtain ⟨⟨⟨⟨hx, hy⟩, hz⟩, hb⟩, rfl⟩ := h
    have he := key hf hx hy hz
    rw [hb] at he
    exact standsFor_one h2 (congrArg (fun x => [x]) he)
  all_goals
    simp only [need_ok, Bool.and_eq_true, beq_iff_eq] at h
    obtain ⟨⟨⟨hx, hy⟩, hz⟩, rfl⟩ := h
    exact standsFor_one h2 (congrArg (fun x => [x]) (key ‹_› hx hy hz))

/-- Majors 0x0D to 0x0F (06 R159; 07 R188). -/
theorem access_standsFor (hM : fld w 22 6 ∈ [0x0D, 0x0E, 0x0F]) (h : decodeMajor (guardOf w) w w2 = some (.ok i)) :
    StandsFor w w2 i := by
  have hz : (sizeOf' (fld w 9 2)).code = fld w 9 2 := sizeOf'_code (fld_lt w 9 2)
  have key {M : Nat} (hM : fld w 22 6 = M) :
      encSM (guardOf w) M (reg w 17) (reg w 12) (bit w 11) (sizeOf' (fld w 9 2)) (BitVec.ofNat 9 w) = w := by
    have h9 : fld w 0 12 = fld w 9 3 * 2 ^ 9 + fld w 0 9 := fld_split w
    have h11 : fld w 9 3 = fld w 11 1 * 2 ^ 2 + fld w 9 2 := fld_split w
    refine Eq.trans ?_ (bits_major (r := fld w 17 5 * 2 ^ 17 + fld w 12 5 * 2 ^ 12 + fld w 11 1 * 2 ^ 11 + fld w 9 2 * 2 ^ 9
      + fld w 0 9) hw hM ?_)
    · simp only [encSM, Nat.add_assoc, hz, b2n_bit, ofNat_toNat_fld, reg_val]
    · rw [fld_si, h9, h11]
      omega
  simp only [List.mem_cons, List.not_mem_nil, or_false] at hM
  obtain hM | hM | hM := hM
  · simp only [decodeMajor, hM, Option.some.injEq, Except.ok.injEq] at h
    subst h
    exact standsFor_one (twoWords_one hM (by decide)) (congrArg (fun x => [x]) (key hM))
  · simp only [decodeMajor, hM, Option.some.injEq, need_ok, bne_iff_ne] at h
    obtain ⟨h9, rfl⟩ := h
    refine standsFor_one (twoWords_one hM (by decide)) (congrArg (fun x => [x]) (key hM)) ?_
    have hne : sizeOf' (fld w 9 2) ≠ .b8 := fun hb => h9 (by rw [← hz, hb]; rfl)
    simpa only [Instr.combinationOk, decide_eq_true_eq] using hne
  · simp only [decodeMajor, hM, Option.some.injEq, need_ok, Bool.not_eq_true'] at h
    obtain ⟨h11, rfl⟩ := h
    have he := key hM
    rw [h11] at he
    exact standsFor_one (twoWords_one hM (by decide)) (congrArg (fun x => [x]) he)

/-- Majors 0x10 and 0x11 (06 R159; 07 R189). -/
theorem scoped_standsFor (hM : fld w 22 6 ∈ [0x10, 0x11]) (h : decodeMajor (guardOf w) w w2 = some (.ok i)) : StandsFor w w2 i := by
  have hz : (sizeOf' (fld w 7 2)).code = fld w 7 2 := sizeOf'_code (fld_lt w 7 2)
  have key {M : Nat} {sc : Scope} (hM : fld w 22 6 = M) (hs : sc.code = fld w 9 3) :
      encSMA (guardOf w) M (reg w 17) (reg w 12) sc (sizeOf' (fld w 7 2)) (BitVec.ofNat 7 w) = w := by
    have h7 : fld w 7 5 = fld w 9 3 * 2 ^ 2 + fld w 7 2 := fld_split w
    refine Eq.trans ?_ (bits_major (r := fld w 17 5 * 2 ^ 17 + fld w 12 5 * 2 ^ 12 + fld w 9 3 * 2 ^ 9 + fld w 7 2 * 2 ^ 7
      + fld w 0 7) hw hM ?_)
    · simp only [encSMA, Nat.add_assoc, hz, hs, ofNat_toNat_fld, reg_val]
    · rw [fld_sr, h7]
      omega
  simp only [List.mem_cons, List.not_mem_nil, or_false] at hM
  obtain hM | hM := hM
  all_goals
    simp only [decodeMajor, hM, Option.some.injEq] at h
    split at h
    · rename_i sc hsc
      cases h
      exact standsFor_one (twoWords_one hM (by decide)) (congrArg (fun x => [x]) (key hM (Scope.code_of hsc)))
    · cases h

/-- Major 0x12 (07 R191). -/
theorem atomic_standsFor (hM : fld w 22 6 = 0x12) (h : decodeMajor (guardOf w) w w2 = some (.ok i)) : StandsFor w w2 i := by
  simp only [decodeMajor, hM, Option.some.injEq] at h
  split at h
  · rename_i sc hsc
    cases h
    have hs := Scope.code_of hsc
    have ha : (atomOf (fld w 3 3)).code = fld w 3 3 := atomOf_code (fld_lt w 3 3)
    have h3 : fld w 0 7 = fld w 3 4 * 2 ^ 3 + fld w 0 3 := fld_split w
    have h6 : fld w 3 4 = fld w 6 1 * 2 ^ 3 + fld w 3 3 := fld_split w
    refine standsFor_sr hw hM (by decide) rfl ?_
    rw [hs, ha, b2n_bit, h3, h6]
    omega
  · cases h

/-- Majors 0x13 and 0x14 (07 R192). -/
theorem branch_standsFor (hM : fld w 22 6 ∈ [0x13, 0x14]) (h : decodeMajor (guardOf w) w w2 = some (.ok i)) : StandsFor w w2 i := by
  have hf : fld w 0 22 = (BitVec.ofNat 22 w).toNat := (ofNat_toNat_fld 22 w).symm
  simp only [List.mem_cons, List.not_mem_nil, or_false] at hM
  obtain hM | hM := hM
  all_goals
    simp only [decodeMajor, hM, Option.some.injEq, Except.ok.injEq] at h
    subst h
    exact standsFor_word hw hM (by decide) rfl hf

/-- Major 0x15 (07 R193). -/
theorem jump_standsFor (hM : fld w 22 6 = 0x15) (h : decodeMajor (guardOf w) w w2 = some (.ok i)) : StandsFor w w2 i := by
  simp only [decodeMajor, hM, Option.some.injEq] at h
  split at h
  case h_4 => cases h
  all_goals simp only [need_ok, List.all_cons, List.all_nil, Bool.and_eq_true, beq_iff_eq] at h
  · obtain ⟨⟨hd, hb, -⟩, rfl⟩ := h
    exact standsFor_sr hw hM (by decide) rfl ‹_› hd rfl hb
  · obtain ⟨⟨hb, -⟩, rfl⟩ := h
    exact standsFor_sr hw hM (by decide) rfl ‹_› rfl rfl hb
  · obtain ⟨⟨hd, ha, hb, -⟩, rfl⟩ := h
    exact standsFor_sr hw hM (by decide) rfl ‹_› hd ha hb

/-- Major 0x16 (06 R157, R159). -/
theorem laneQueue_standsFor (hw2 : w2 < 2 ^ 32) (hM : fld w 22 6 = 0x16) (h : decodeMajor (guardOf w) w w2 = some (.ok i)) :
    StandsFor w w2 i := by
  simp only [decodeMajor, hM, Option.some.injEq] at h
  split at h
  · rename_i h0
    split at h
    · simp only [need_ok] at h
      obtain ⟨hc, rfl⟩ := h
      have h2 : twoWords w = true := by simp only [twoWords, hM]
      have he : (guardOf w).bits + 0x16 * 2 ^ 22 + (BitVec.ofNat 22 w).toNat = w := bits_major hw hM (ofNat_toNat_fld 22 w).symm
      have h23 : fld w2 0 32 = fld w2 23 9 * 2 ^ 23 + fld w2 0 23 := fld_split w2
      have h27 : fld w2 23 9 = fld w2 27 5 * 2 ^ 4 + fld w2 23 4 := fld_split w2
      have he2 : fld w2 27 5 * 2 ^ 27 + fld w2 23 4 * 2 ^ 23 = w2 := by
        have hall := fld_all hw2
        omega
      exact ⟨rfl, rfl, rfl, .inl hc, by simp only [Instr.scalarWords, reg_val, he, he2, h2, if_true]⟩
    · cases h
  · cases h

/-- Major 0x17 (06 R159; 07 R196). -/
theorem laneWait_standsFor (hM : fld w 22 6 = 0x17) (h : decodeMajor (guardOf w) w w2 = some (.ok i)) : StandsFor w w2 i := by
  simp only [decodeMajor, hM, Option.some.injEq, need_ok, List.all_cons, List.all_nil, Bool.and_eq_true, beq_iff_eq] at h
  obtain ⟨⟨⟨hd, ha, -⟩, h3⟩, rfl⟩ := h
  have h0 : fld w 0 12 = fld w 3 9 * 2 ^ 3 + fld w 0 3 := fld_split w
  refine standsFor_si hw hM (by decide) rfl ?_ hd ha
  rw [h0, h3, Nat.zero_mul, Nat.zero_add, ofNat_val 8 3]

/-- Major 0x18 (06 R159; 07 R197). -/
theorem getReturn_standsFor (hM : fld w 22 6 = 0x18) (h : decodeMajor (guardOf w) w w2 = some (.ok i)) : StandsFor w w2 i := by
  simp only [decodeMajor, hM, Option.some.injEq, need_ok, List.all_cons, List.all_nil, Bool.and_eq_true, beq_iff_eq] at h
  obtain ⟨⟨⟨hf, hb, -⟩, h15⟩, rfl⟩ := h
  rw [reg_eq_zero] at hb
  have h12 : fld w 12 5 = fld w 15 2 * 2 ^ 3 + fld w 12 3 := fld_split w
  refine standsFor_word hw hM (r := fld w 17 5 * 2 ^ 17 + fld w 12 3 * 2 ^ 12) (by decide) ?_ ?_
  · simp only [Instr.scalarWords, reg_val, Nat.add_assoc]; rfl
  · rw [fld_sr, h12, h15, hb, hf]
    omega

/-- Major 0x19 (06 R159; 07 R199). -/
theorem barrier_standsFor (hM : fld w 22 6 = 0x19) (h : decodeMajor (guardOf w) w w2 = some (.ok i)) : StandsFor w w2 i := by
  simp only [decodeMajor, hM, Option.some.injEq, need_ok, List.all_cons, List.all_nil, Bool.and_eq_true, beq_iff_eq] at h
  obtain ⟨⟨hd, ha, hb, -⟩, rfl⟩ := h
  rw [reg_eq_zero] at hd ha hb
  have h0 : fld w 0 7 = fld w 6 1 * 2 ^ 6 + fld w 0 6 := fld_split w
  split
  case isTrue h6 =>
    rw [bit_eq_true] at h6
    refine standsFor_word hw hM (r := 2 ^ 6 + (Fin.ofNat 64 w).val) (by decide) (by simp only [Instr.scalarWords, Nat.add_assoc]) ?_
    rw [fld_sr, hd, ha, hb, h0, h6, ofNat_val 64 6]
    omega
  case isFalse h6 =>
    rw [Bool.not_eq_true, bit_eq_false] at h6
    refine standsFor_word hw hM (by decide) rfl ?_
    rw [fld_sr, hd, ha, hb, h0, h6, ofNat_val 64 6]
    omega

/-- Majors 0x1A and 0x1B (06 R159; 07 R201, R203). -/
theorem landing_standsFor (hM : fld w 22 6 ∈ [0x1A, 0x1B]) (h : decodeMajor (guardOf w) w w2 = some (.ok i)) : StandsFor w w2 i := by
  simp only [List.mem_cons, List.not_mem_nil, or_false] at hM
  obtain hM | hM := hM
  · simp only [decodeMajor, hM, Option.some.injEq] at h
    split at h
    case h_5 => cases h
    all_goals simp only [need_ok, List.all_cons, List.all_nil, Bool.and_eq_true, beq_iff_eq] at h
    · obtain ⟨⟨hd, hb, -⟩, rfl⟩ := h
      exact standsFor_sr hw hM (by decide) rfl ‹_› hd rfl hb
    · obtain ⟨⟨hd, -⟩, rfl⟩ := h
      exact standsFor_sr hw hM (by decide) rfl ‹_› hd
    · obtain ⟨⟨hd, -⟩, rfl⟩ := h
      exact standsFor_sr hw hM (by decide) rfl ‹_› hd
    · obtain ⟨⟨hb, -⟩, rfl⟩ := h
      exact standsFor_sr hw hM (by decide) rfl ‹_› rfl rfl hb
  · simp only [decodeMajor, hM, Option.some.injEq] at h
    split at h
    case h_4 => cases h
    all_goals simp only [need_ok, List.all_cons, List.all_nil, Bool.and_eq_true, beq_iff_eq] at h
    · obtain ⟨⟨hd, hb, -⟩, rfl⟩ := h
      exact standsFor_sr hw hM (by decide) rfl ‹_› hd rfl hb
    · obtain ⟨⟨hb, -⟩, rfl⟩ := h
      exact standsFor_sr hw hM (by decide) rfl ‹_› rfl rfl hb
    · obtain ⟨⟨hd, ha, hb, -⟩, rfl⟩ := h
      exact standsFor_sr hw hM (by decide) rfl ‹_› hd ha hb

/-- Major 0x1C (06 R159; 07 R204). -/
theorem timeline_standsFor (hM : fld w 22 6 = 0x1C) (h : decodeMajor (guardOf w) w w2 = some (.ok i)) : StandsFor w w2 i := by
  simp only [decodeMajor, hM, Option.some.injEq] at h
  split at h
  case h_4 => cases h
  all_goals
    rename_i hf
    simp only [need_ok, List.all_cons, List.all_nil, Bool.and_eq_true, beq_iff_eq, Bool.not_eq_true', bit_eq_false] at h
    obtain ⟨⟨h16, hx, -⟩, rfl⟩ := h
    rw [reg_eq_zero] at hx
    have h12 : fld w 12 5 = fld w 16 1 * 2 ^ 4 + fld w 12 4 := fld_split w
  · refine standsFor_word hw hM (r := fld w 12 4 * 2 ^ 12 + fld w 7 5 * 2 ^ 7) (by decide) ?_ ?_
    · simp only [Instr.scalarWords, reg_val, Nat.add_assoc]; rfl
    · rw [fld_sr, hx, h12, h16, hf]; omega
  · refine standsFor_word hw hM (r := fld w 12 4 * 2 ^ 12 + fld w 7 5 * 2 ^ 7 + 1) (by decide) ?_ ?_
    · simp only [Instr.scalarWords, reg_val, Nat.add_assoc]; rfl
    · rw [fld_sr, hx, h12, h16, hf]; omega
  · refine standsFor_word hw hM (r := fld w 17 5 * 2 ^ 17 + fld w 12 4 * 2 ^ 12 + 2) (by decide) ?_ ?_
    · simp only [Instr.scalarWords, reg_val, Nat.add_assoc]; rfl
    · rw [fld_sr, hx, h12, h16, hf]; omega

/-- Major 0x1D (06 R159; 07 R205). -/
theorem launch_standsFor (hM : fld w 22 6 = 0x1D) (h : decodeMajor (guardOf w) w w2 = some (.ok i)) : StandsFor w w2 i := by
  simp only [decodeMajor, hM, Option.some.injEq, need_ok, List.all_cons, List.all_nil, Bool.and_eq_true, beq_iff_eq] at h
  obtain ⟨⟨⟨hb, -⟩, h1⟩, rfl⟩ := h
  refine standsFor_sr hw hM (by decide) rfl ?_ rfl rfl hb
  have h0 : fld w 0 7 = fld w 1 6 * 2 ^ 1 + fld w 0 1 := fld_split w
  rw [b2n_bit, h0, h1, Nat.zero_mul, Nat.zero_add]

/-- Majors 0x1E and 0x1F (06 R159; 07 R206, R207). -/
theorem level_standsFor (hM : fld w 22 6 ∈ [0x1E, 0x1F]) (h : decodeMajor (guardOf w) w w2 = some (.ok i)) : StandsFor w w2 i := by
  simp only [List.mem_cons, List.not_mem_nil, or_false] at hM
  obtain hM | hM := hM
  all_goals
    simp only [decodeMajor, hM, Option.some.injEq] at h
    split at h
    case h_2 => cases h
    rename_i l hl
    have hl := Level.code_of hl
    split at h
    case isFalse => cases h
    rename_i h0
    simp only [need_ok] at h
    obtain ⟨hc, rfl⟩ := h
  · have h3 : fld w 0 12 = fld w 3 9 * 2 ^ 3 + fld w 0 3 := fld_split w
    refine standsFor_si hw hM (by decide) rfl ?_ rfl rfl ?_
    · rw [h3, h0, hl, Nat.zero_mul, Nat.zero_add]
    · simpa [Instr.combinationOk] using hc
  · simp only [List.all_cons, List.all_nil, Bool.and_eq_true, beq_iff_eq] at h0
    obtain ⟨h5, ha, hb, -⟩ := h0
    have hk : (countOf (fld w 3 2)).code = fld w 3 2 := countOf_code (fld_lt w 3 2)
    have h3 : fld w 0 7 = fld w 3 4 * 2 ^ 3 + fld w 0 3 := fld_split w
    have h34 : fld w 3 4 = fld w 5 2 * 2 ^ 2 + fld w 3 2 := fld_split w
    refine standsFor_sr hw hM (by decide) rfl ?_ rfl ha hb hc
    rw [hk, h3, h34, h5, hl, Nat.zero_mul, Nat.zero_add]

/-- Major 0x20 (06 R157, R159; 09 R246). -/
theorem copy_standsFor (hw2 : w2 < 2 ^ 32) (hM : fld w 22 6 = 0x20) (h : decodeMajor (guardOf w) w w2 = some (.ok i)) :
    StandsFor w w2 i := by
  simp only [decodeMajor, hM, Option.some.injEq] at h
  split at h
  case h_2 => cases h
  rename_i t ht
  have ht := Transform.code_of ht
  split at h
  case isTrue => cases h
  rename_i h0
  rw [Bool.not_eq_true, bit_eq_false] at h0
  have hf : fld w 0 7 = t.code * 2 ^ 3 + fld w 2 1 * 2 ^ 2 + fld w 1 1 * 2 := by
    have h3 : fld w 0 7 = fld w 3 4 * 2 ^ 3 + fld w 0 3 := fld_split w
    have h2 : fld w 0 3 = fld w 2 1 * 2 ^ 2 + fld w 0 2 := fld_split w
    have h1 : fld w 0 2 = fld w 1 1 * 2 ^ 1 + fld w 0 1 := fld_split w
    rw [h3, h2, h1, h0, ht]
    omega
  split at h
  case isTrue h1 =>
    simp only [need_ok, beq_iff_eq] at h
    obtain ⟨hc, rfl⟩ := h
    have h2 : twoWords w = true := by simp only [twoWords, hM, h1]
    have hlit : (BitVec.ofNat 32 w2).toNat = w2 := by simp only [BitVec.toNat_ofNat]; omega
    rw [bit_eq_true] at h1
    have he := encSR_eq (f := t.code * 2 ^ 3 + b2n (bit w 2) * 2 ^ 2 + 2) hw hM rfl rfl rfl (by
      rw [hf, h1, b2n_bit])
    refine ⟨rfl, rfl, rfl, .inl ?_, by simp only [Instr.scalarWords, he, h2, hlit, if_true]⟩
    simp only [Instr.combinationOk, hlit, decide_eq_true_eq]
    omega
  case isFalse h1 =>
    cases h
    rw [Bool.not_eq_true] at h1
    have h2 : twoWords w = false := by simp only [twoWords, hM, h1]
    rw [bit_eq_false] at h1
    refine standsFor_one h2 (congrArg (fun x => [x]) (encSR_eq hw hM rfl rfl rfl ?_))
    rw [hf, h1, b2n_bit, Nat.zero_mul, Nat.add_zero]

/-- Major 0x21 (06 R159; 09 R253). -/
theorem copySet_standsFor (hM : fld w 22 6 = 0x21) (h : decodeMajor (guardOf w) w w2 = some (.ok i)) : StandsFor w w2 i := by
  simp only [decodeMajor, hM, Option.some.injEq, need_ok, List.all_cons, List.all_nil, Bool.and_eq_true, beq_iff_eq] at h
  obtain ⟨⟨⟨hd, hb, -⟩, hf⟩, rfl⟩ := h
  exact standsFor_sr hw hM (by decide) rfl hf hd rfl hb

omit hw in
/-- The fields of a matrix word are its 20 bits below the tile's number and above the mode (06 R169). -/
theorem matFieldsOf_word_eq {m : MatFields} (h : matFieldsOf w = some m) : m.word (fld w 0 2) = fld w 0 22 := by
  unfold matFieldsOf at h
  split at h
  · rename_i p sp hp hsp
    cases h
    have hp := PairType.code_of hp
    have hsp := Sparsity.code_of hsp
    have hfa : (Fin.ofNat 4 (w / 2 ^ 15)).val = fld w 15 2 := rfl
    have hfb : (Fin.ofNat 2 (w / 2 ^ 14)).val = fld w 14 1 := rfl
    have hm : (Fin.ofNat 4 (w / 2 ^ 12)).val = fld w 12 2 := rfl
    have hn : (Fin.ofNat 4 (w / 2 ^ 10)).val = fld w 10 2 := rfl
    simp only [MatFields.word_cat, hp, hsp, b2n_bit, reg_val, hfa, hfb, hm, hn, fld_cat w 15 2 5, fld_cat w 14 1 7, fld_cat w 12 2 8,
      fld_cat w 10 2 10, fld_cat w 9 1 12, fld_cat w 5 4 13, fld_cat w 4 1 17, fld_cat w 2 2 18, fld_cat w 0 2 20]
  · cases h

/-- Majors 0x22 and 0x23 (06 R169). -/
theorem matrix_standsFor (hM : fld w 22 6 ∈ [0x22, 0x23]) (h : decodeMajor (guardOf w) w w2 = some (.ok i)) : StandsFor w w2 i := by
  simp only [List.mem_cons, List.not_mem_nil, or_false] at hM
  obtain hM | hM := hM
  all_goals
    simp only [decodeMajor, hM, Option.some.injEq] at h
    split at h
    case h_2 => cases h
    rename_i m hm
    simp only [need_ok, Bool.and_eq_true, beq_iff_eq] at h
    obtain ⟨⟨h0, hl⟩, rfl⟩ := h
    have hr := matFieldsOf_word_eq hm
    rw [h0] at hr
    exact standsFor_word hw hM (by decide) (by simp only [Instr.scalarWords]) hr.symm (by simpa only [Instr.combinationOk] using hl)

/-- Majors 0x24 and 0x25 (06 R159; 09 R258, R259). -/
theorem tile_standsFor (hM : fld w 22 6 ∈ [0x24, 0x25]) (h : decodeMajor (guardOf w) w w2 = some (.ok i)) : StandsFor w w2 i := by
  simp only [List.mem_cons, List.not_mem_nil, or_false] at hM
  obtain hM | hM := hM
  all_goals
    simp only [decodeMajor, hM, Option.some.injEq, need_ok, beq_iff_eq] at h
    obtain ⟨h0, rfl⟩ := h
  · have h17 : fld w 0 22 = fld w 17 5 * 2 ^ 17 + fld w 0 17 := fld_split w
    refine standsFor_word hw hM (r := fld w 17 5 * 2 ^ 17) (by decide) rfl ?_
    rw [h17, h0, Nat.add_zero]
  · have h2 : fld w 0 7 = fld w 2 5 * 2 ^ 2 + fld w 0 2 := fld_split w
    refine standsFor_sr hw hM (by decide) rfl ?_
    rw [h2, h0, Nat.add_zero, reg_val]

/-- Major 0x28 (06 R159; 09 R260). -/
theorem collective_standsFor (hM : fld w 22 6 = 0x28) (h : decodeMajor (guardOf w) w w2 = some (.ok i)) : StandsFor w w2 i := by
  simp only [decodeMajor, hM, Option.some.injEq] at h
  split at h
  case h_2 => cases h
  rename_i op hop
  have hop := CollOp.code_of hop
  split at h
  case isFalse => cases h
  rename_i h0
  simp only [need_ok] at h
  obtain ⟨hc, rfl⟩ := h
  have hk : (collKindOf (fld w 5 2)).code = fld w 5 2 := collKindOf_code (fld_lt w 5 2)
  have h2 : fld w 0 7 = fld w 2 5 * 2 ^ 2 + fld w 0 2 := fld_split w
  have h5 : fld w 2 5 = fld w 5 2 * 2 ^ 3 + fld w 2 3 := fld_split w
  refine standsFor_sr hw hM (by decide) rfl ?_ rfl rfl rfl hc
  rw [hk, h2, h0, h5, hop]
  omega

/-- Majors 0x29 to 0x2B and 0x2E (06 R159; 09 R262 to R264; 07 R209). -/
theorem emit_standsFor (hM : fld w 22 6 ∈ [0x29, 0x2A, 0x2B, 0x2E]) (h : decodeMajor (guardOf w) w w2 = some (.ok i)) :
    StandsFor w w2 i := by
  simp only [List.mem_cons, List.not_mem_nil, or_false] at hM
  obtain hM | hM | hM | hM := hM
  all_goals
    simp only [decodeMajor, hM, Option.some.injEq, need_ok, beq_iff_eq] at h
    obtain ⟨h0, rfl⟩ := h
  · have h2 : fld w 0 7 = fld w 2 5 * 2 ^ 2 + fld w 0 2 := fld_split w
    refine standsFor_sr hw hM (by decide) rfl ?_
    rw [h2, h0, Nat.add_zero, reg_val]
  all_goals exact standsFor_sr hw hM (by decide) rfl h0

/-- Major 0x2C (06 R159; 09 R265). -/
theorem status_standsFor (hM : fld w 22 6 = 0x2C) (h : decodeMajor (guardOf w) w w2 = some (.ok i)) : StandsFor w w2 i := by
  simp only [decodeMajor, hM, Option.some.injEq] at h
  split at h
  case h_2 => cases h
  rename_i ix hix
  have hix := StatItem.code_of hix
  simp only [need_ok, List.all_cons, List.all_nil, Bool.and_eq_true, beq_iff_eq] at h
  obtain ⟨⟨⟨hb, -⟩, hc⟩, rfl⟩ := h
  refine standsFor_sr hw hM (by decide) rfl hix.symm rfl rfl hb ?_
  simpa [Instr.combinationOk, hix] using hc

/-- Major 0x2D (07 R208): a length out of range is not a matter of decoding. -/
theorem gate_standsFor (hM : fld w 22 6 = 0x2D) (h : decodeMajor (guardOf w) w w2 = some (.ok i)) : StandsFor w w2 i := by
  simp only [decodeMajor, hM, Option.some.injEq, Except.ok.injEq] at h
  subst h
  have he := encSR_eq (w := w) hw hM rfl rfl rfl (ofNat_toNat_fld 7 w).symm
  have h2 : twoWords w = false := twoWords_one hM (by decide)
  exact ⟨rfl, rfl, rfl, .inr ⟨_, _, _, _, _, rfl⟩, by rw [h2]; exact congrArg (fun x => [x]) he⟩

/-- Majors 0x2F to 0x31 (06 R159; 07 R210 to R212). -/
theorem special_standsFor (hM : fld w 22 6 ∈ [0x2F, 0x30, 0x31]) (h : decodeMajor (guardOf w) w w2 = some (.ok i)) :
    StandsFor w w2 i := by
  have hf : fld w 0 12 = (BitVec.ofNat 12 w).toNat := (ofNat_toNat_fld 12 w).symm
  simp only [List.mem_cons, List.not_mem_nil, or_false] at hM
  obtain hM | hM | hM := hM
  · simp only [decodeMajor, hM, Option.some.injEq, need_ok, List.all_cons, List.all_nil, Bool.and_eq_true, beq_iff_eq] at h
    obtain ⟨⟨hd, ha, -⟩, rfl⟩ := h
    exact standsFor_si hw hM (by decide) rfl hf hd ha
  · simp only [decodeMajor, hM, Option.some.injEq, need_ok, List.all_cons, List.all_nil, Bool.and_eq_true, beq_iff_eq] at h
    obtain ⟨⟨⟨ha, -⟩, h7⟩, rfl⟩ := h
    have h0 : fld w 0 12 = fld w 7 5 * 2 ^ 7 + fld w 0 7 := fld_split w
    refine standsFor_si hw hM (by decide) rfl ?_ rfl ha
    rw [h0, h7, Nat.zero_mul, Nat.zero_add, ofNat_val 128 7]
  · simp only [decodeMajor, hM, Option.some.injEq] at h
    split at h
    case isFalse => cases h
    rename_i hd
    split at h
    case h_7 h0 h1 h2 h3 h4 h5 =>
      cases h
      refine standsFor_si hw hM (by decide) rfl hf hd rfl ?_
      simp only [Instr.combinationOk, decide_eq_true_eq, ← hf]
      simp only [imp_false] at h0 h1 h2 h3 h4 h5
      omega
    all_goals
      cases h
      exact standsFor_si hw hM (by decide) rfl ‹_› hd

/-- Major 0x33 (06 R159; 09 R267). -/
theorem install_standsFor (hM : fld w 22 6 = 0x33) (h : decodeMajor (guardOf w) w w2 = some (.ok i)) : StandsFor w w2 i := by
  simp only [decodeMajor, hM, Option.some.injEq, need_ok, beq_iff_eq] at h
  obtain ⟨h5, rfl⟩ := h
  have h0 : fld w 0 7 = fld w 5 2 * 2 ^ 5 + fld w 0 5 := fld_split w
  refine standsFor_sr hw hM (by decide) rfl ?_
  rw [h0, h5, Nat.zero_mul, Nat.zero_add, reg_val]

end

/-- The majors that the scalar map assigns (06 R159, R160). -/
theorem decodeMajor_assigned {g : Guard} {w w2 : Nat} :
    decodeMajor g w w2 = none ↔ fld w 22 6 ∈ [0x26, 0x27, 0x32] ∨ 0x34 ≤ fld w 22 6 := by
  have hlt := fld_lt w 22 6
  have hnone : (decodeMajor g w w2).isNone = decide (fld w 22 6 ∈ [0x26, 0x27, 0x32] ∨ 0x34 ≤ fld w 22 6) := by
    unfold decodeMajor
    generalize fld w 22 6 = M at hlt ⊢
    interval_cases M <;> rfl
  rw [← Option.isNone_iff_eq_none, hnone, decide_eq_true_iff]

/-- The assigned majors, those with words of one kind together. -/
def majorGroups : List (List Nat) :=
  [[0x00], [0x01], [0x02, 0x03, 0x04, 0x05], [0x06, 0x07, 0x08], [0x09, 0x0A], [0x0B], [0x0C], [0x0D, 0x0E, 0x0F], [0x10, 0x11], [0x12],
   [0x13, 0x14], [0x15], [0x16], [0x17], [0x18], [0x19], [0x1A, 0x1B], [0x1C], [0x1D], [0x1E, 0x1F], [0x20], [0x21], [0x22, 0x23],
   [0x24, 0x25], [0x28], [0x29, 0x2A, 0x2B, 0x2E], [0x2C], [0x2D], [0x2F, 0x30, 0x31], [0x33]]

theorem mem_majorGroups : ∀ M < 2 ^ 6, (M ∈ [0x26, 0x27, 0x32] ∨ 0x34 ≤ M) ∨ ∃ l ∈ majorGroups, M ∈ l := by
  decide

section
variable {w w2 : Nat} {i : Instr} (hw : w < 2 ^ 32) (hw2 : w2 < 2 ^ 32)
include hw hw2

/-- A word with an assigned major that decodes stands for what it decodes to. -/
theorem decodeMajor_standsFor (h : decodeMajor (guardOf w) w w2 = some (.ok i)) : StandsFor w w2 i := by
  have hsome : ¬ (fld w 22 6 ∈ [0x26, 0x27, 0x32] ∨ 0x34 ≤ fld w 22 6) := by
    rw [← decodeMajor_assigned (g := guardOf w) (w2 := w2), h]; exact Option.some_ne_none _
  obtain ⟨l, hl, hM⟩ := (mem_majorGroups _ (fld_lt w 22 6)).resolve_left hsome
  have hone {M : Nat} (h : fld w 22 6 ∈ [M]) : fld w 22 6 = M := List.mem_singleton.1 h
  simp only [majorGroups, List.mem_cons, List.not_mem_nil, or_false] at hl
  obtain rfl | rfl | rfl | rfl | rfl | rfl | rfl | rfl | rfl | rfl | rfl | rfl | rfl | rfl | rfl | rfl |
    rfl | rfl | rfl | rfl | rfl | rfl | rfl | rfl | rfl | rfl | rfl | rfl | rfl | rfl := hl
  · exact system_standsFor hw (hone hM) h
  · exact alu_standsFor hw (hone hM) h
  · exact imm_standsFor hw hM h
  · exact shift_standsFor hw hM h
  · exact literal_standsFor hw hw2 hM h
  · exact compare_standsFor hw (hone hM) h
  · exact predicate_standsFor hw (hone hM) h
  · exact access_standsFor hw hM h
  · exact scoped_standsFor hw hM h
  · exact atomic_standsFor hw (hone hM) h
  · exact branch_standsFor hw hM h
  · exact jump_standsFor hw (hone hM) h
  · exact laneQueue_standsFor hw hw2 (hone hM) h
  · exact laneWait_standsFor hw (hone hM) h
  · exact getReturn_standsFor hw (hone hM) h
  · exact barrier_standsFor hw (hone hM) h
  · exact landing_standsFor hw hM h
  · exact timeline_standsFor hw (hone hM) h
  · exact launch_standsFor hw (hone hM) h
  · exact level_standsFor hw hM h
  · exact copy_standsFor hw hw2 (hone hM) h
  · exact copySet_standsFor hw (hone hM) h
  · exact matrix_standsFor hw hM h
  · exact tile_standsFor hw hM h
  · exact collective_standsFor hw (hone hM) h
  · exact emit_standsFor hw hM h
  · exact status_standsFor hw (hone hM) h
  · exact gate_standsFor hw (hone hM) h
  · exact special_standsFor hw hM h
  · exact install_standsFor hw (hone hM) h

end

end Sys2Proof
end

section
/-! From words to bytes, for both streams: every word that decodes is the encoding of what it decodes to, settled. -/

namespace Sys2Proof
open Machine

theorem Machine.natLE_leNat (l : List Byte) : natLE l.length (leNat l) = l := by
  induction l with
  | nil => rfl
  | cons b t ih =>
    have hb := b.isLt
    have hd : (b.toNat + 256 * leNat t) / 256 = leNat t := by omega
    have hm : BitVec.ofNat 8 (b.toNat + 256 * leNat t) = b := by
      apply BitVec.eq_of_toNat_eq; simp only [BitVec.toNat_ofNat]; omega
    simp only [List.length_cons, leNat, natLE, hd, hm, ih]

theorem Machine.natLE_fieldNat {l : List Byte} {o n : Nat} (h : o + n ≤ l.length) : natLE n (fieldNat l o n) = (l.drop o).take n := by
  have := natLE_leNat ((l.drop o).take n)
  rwa [List.length_take_of_le (by simp; omega)] at this

/-- What a scalar word decodes to is well formed but for an SGATE's length, and its words are the word, with the second one where
the major takes two (06 R157, R158). -/
theorem decodeScalar_words {w w2 : Nat} {i : Instr} (hw : w < 2 ^ 32) (hw2 : w2 < 2 ^ 32) (h : decodeScalar w w2 = .ok i) :
    (i.wf = true ∨ ∃ g d a b n, i = .sgate g d a b n) ∧ i.isScalar = true ∧ encode i = if twoWords w then [w, w2] else [w] := by
  unfold decodeScalar at h
  split at h
  case h_1 hn =>
    cases h
    have hM := decodeMajor_assigned.1 hn
    have hlit : (BitVec.ofNat 32 w).toNat = w := by simp only [BitVec.toNat_ofNat]; omega
    have h2 : twoWords w = false := twoWords_one (M := fld w 22 6) rfl (by
      simp only [List.mem_cons, List.not_mem_nil, or_false] at hM ⊢; omega)
    refine ⟨.inl ?_, rfl, ?_⟩
    · simpa only [Instr.wf, Instr.vword, Instr.guard?, Instr.combinationOk, hlit, Bool.true_and, decide_eq_true_eq] using hM
    · simp only [encode, Instr.vword, Instr.scalarWords, hlit, h2, Bool.false_eq_true, if_false]
  case h_2 => cases h
  case h_3 hm =>
    split at h
    case isFalse => cases h
    cases h
    rename_i hl
    obtain ⟨hv, hn, hg, hf, hws⟩ := decodeMajor_standsFor hw hw2 hm
    refine ⟨hf.imp_left fun hc => by simp only [Instr.wf, hv, hg, hl, hc, Bool.and_self], ?_, by rw [← hws, encode_scalar hv hn]⟩
    rw [Instr.isScalar, hn, hws]
    split <;> rfl

theorem isVector_of_isScalar {i : Instr} (h : i.isScalar = true) : i.isVector = false := by
  simp only [Instr.isScalar, Bool.and_eq_true, Bool.not_eq_true'] at h
  exact h.1

/-- The bytes of a scalar instruction that decodes, and what follows them, are the bytes read. -/
theorem decodeScalarBytes_inv {bs rest : List Byte} {i : Instr} (h : decodeScalarBytes bs = .ok (i, rest)) :
    (i.wf = true ∨ ∃ g d a b n, i = .sgate g d a b n) ∧ i.isScalar = true ∧ encodeBytes i ++ rest = bs := by
  have hlt (o : Nat) : fieldNat bs o 4 < 2 ^ 32 := (fieldNat_lt bs o 4).trans_eq (by norm_num)
  unfold decodeScalarBytes at h
  split at h
  case isTrue => cases h
  rename_i h4
  have hb0 := natLE_fieldNat (l := bs) (o := 0) (n := 4) (by omega)
  dsimp only at h
  split at h
  case isTrue h2 =>
    split at h
    case isTrue => cases h
    rename_i h8
    split at h
    case h_2 => cases h
    cases h
    rename_i hd
    obtain ⟨hwf, hs, he⟩ := decodeScalar_words (hlt 0) (hlt 4) hd
    have hb4 := natLE_fieldNat (l := bs) (o := 4) (n := 4) (by omega)
    refine ⟨hwf, hs, ?_⟩
    rw [encodeBytes, he, isVector_of_isScalar hs]
    simp only [h2, if_true, Bool.false_eq_true, if_false, List.map_cons, List.map_nil, List.flatten_cons, List.flatten_nil,
      List.append_nil, hb0, hb4, List.drop_zero, List.append_assoc, ← List.drop_drop (i := 4) (j := 4), List.take_append_drop]
  case isFalse h2 =>
    split at h
    case h_2 => cases h
    cases h
    rename_i hd
    obtain ⟨hwf, hs, he⟩ := decodeScalar_words (hlt 0) (by norm_num) hd
    refine ⟨hwf, hs, ?_⟩
    rw [encodeBytes, he, isVector_of_isScalar hs]
    simp only [h2, Bool.false_eq_true, if_false, List.map_cons, List.map_nil, List.flatten_cons, List.flatten_nil,
      List.append_nil, hb0, List.drop_zero, List.take_append_drop]

/-! ## Vector words -/

theorem operandOf_code_of {x : Nat} {o : Operand} (hx : x < 2 ^ 9) (h : operandOf x = some o) : o.code = x := by
  unfold operandOf at h
  split at h
  case h_4 h0 h1 h2 =>
    split at h
    · cases h
      simp only [fld, imp_false, Operand.code] at *
      omega
    · cases h
  all_goals
    cases h
    simp only [fld, Operand.code, Fin.ofNat] at *
    omega

/-- A vector word's fields and its opcode are all of it (06 R162). -/
theorem encode_of_vFields {w : Nat} {v : VWord} (hw : w < 2 ^ 96) (h : vFields w = some v) : v.encode (fld w 88 8) = w := by
  unfold vFields at h
  split at h
  case h_2 => cases h
  rename_i t a b c ht ha hb hc
  cases h
  have ht := Ty.code_of ht
  have ha := operandOf_code_of (fld_lt w 61 9) ha
  have hb := operandOf_code_of (fld_lt w 52 9) hb
  have hc := operandOf_code_of (fld_lt w 43 9) hc
  have hgm : (Fin.ofNat 16 (w / 2 ^ 83)).val = fld w 83 4 := rfl
  have hdst : (Fin.ofNat 128 (w / 2 ^ 70)).val = fld w 70 7 := rfl
  have hmod : (BitVec.ofNat 11 (w / 2 ^ 32)).toNat = fld w 32 11 := by simp [fld]
  simp only [VWord.encode_cat, b2n_bit, hgm, hdst, ht, ha, hb, hc, hmod, ofNat_toNat_fld, fld_cat w 87 1 8, fld_cat w 83 4 9,
    fld_cat w 82 1 13, fld_cat w 81 1 14, fld_cat w 77 4 15, fld_cat w 70 7 19, fld_cat w 61 9 26, fld_cat w 52 9 35, fld_cat w 43 9 44,
    fld_cat w 32 11 53, fld_cat w 0 32 64]
  exact fld_all hw

/-- An opcode's constructor makes instructions with that opcode. -/
theorem vword_of_vCtor {op : Nat} {mk : VWord → Instr} (h : vCtor op = some mk) (v : VWord) :
    (mk v).vword = some (op, v) ∧ (mk v).isVector = true := by
  unfold vCtor at h
  split at h <;> cases h <;> exact ⟨rfl, rfl⟩

/-- What a vector word decodes to is well formed, and encodes to the word (06 R158, R162). -/
theorem decodeVector_words {w : Nat} {i : Instr} (hw : w < 2 ^ 96) (h : decodeVector w = .ok i) :
    i.wf = true ∧ i.isVector = true ∧ encode i = [w] := by
  unfold decodeVector at h
  dsimp only at h
  split at h
  case h_1 hn =>
    cases h
    have hlit : (BitVec.ofNat 96 w).toNat = w := by simp only [BitVec.toNat_ofNat]; omega
    refine ⟨?_, rfl, ?_⟩
    · simp only [Instr.wf, Instr.vword, Instr.guard?, Instr.combinationOk, hlit, hn]; rfl
    · simp only [encode, Instr.vword, hlit]
  case h_2 mk hmk =>
    split at h
    case h_1 => cases h
    rename_i v hv
    split at h
    case isFalse => cases h
    rename_i hok
    cases h
    obtain ⟨hvw, hvec⟩ := vword_of_vCtor hmk v
    refine ⟨by simp only [Instr.wf, hvw, hok], hvec, ?_⟩
    simp only [encode, hvw, encode_of_vFields hw hv]

theorem decodeVectorBytes_inv {bs rest : List Byte} {i : Instr} (h : decodeVectorBytes bs = .ok (i, rest)) :
    i.wf = true ∧ i.isVector = true ∧ encodeBytes i ++ rest = bs := by
  unfold decodeVectorBytes at h
  split at h
  case isTrue => cases h
  rename_i h12
  split at h
  case h_2 => cases h
  cases h
  rename_i hd
  obtain ⟨hwf, hv, he⟩ := decodeVector_words ((fieldNat_lt bs 0 12).trans_eq (by norm_num)) hd
  refine ⟨hwf, hv, ?_⟩
  rw [encodeBytes, he, hv]
  simp only [if_true, List.map_cons, List.map_nil, List.flatten_cons, List.flatten_nil, List.append_nil,
    natLE_fieldNat (l := bs) (o := 0) (n := 12) (by omega), List.drop_zero, List.take_append_drop]

/-- Settles O2: the fields of a word put together again are the word, major by major for the scalar words and field by field for
the vector words. -/
theorem decodeEncode : Obligations.DecodeEncode :=
  ⟨fun _ _ _ => decodeScalarBytes_inv, fun _ _ _ => decodeVectorBytes_inv⟩

end Sys2Proof
end

section
/-! The round trip from instructions to bytes and back, and the example words of the spec, settled. -/

namespace Sys2Proof
open Machine

/-- Settles O1: the round trip of each instruction, from the laws of the encoding. -/
theorem encodeDecode : Obligations.EncodeDecode := by
  intro i
  cases i with
  | snop => exact Laws.RoundTrip.snop _
  | sbrk => exact Laws.RoundTrip.sbrk _
  | syield => exact Laws.RoundTrip.syield _
  | sexit => exact Laws.RoundTrip.sexit _
  | sfence => exact Laws.RoundTrip.sfence _ _
  | sadd => exact Laws.RoundTrip.sadd _ _ _ _
  | ssub => exact Laws.RoundTrip.ssub _ _ _ _
  | smul => exact Laws.RoundTrip.smul _ _ _ _
  | smulh => exact Laws.RoundTrip.smulh _ _ _ _
  | smulhw => exact Laws.RoundTrip.smulhw _ _ _ _
  | sdivw => exact Laws.RoundTrip.sdivw _ _ _ _
  | sremw => exact Laws.RoundTrip.sremw _ _ _ _
  | sand => exact Laws.RoundTrip.sand _ _ _ _
  | sor => exact Laws.RoundTrip.sor _ _ _ _
  | sxor => exact Laws.RoundTrip.sxor _ _ _ _
  | sshl => exact Laws.RoundTrip.sshl _ _ _ _
  | sshr => exact Laws.RoundTrip.sshr _ _ _ _
  | ssra => exact Laws.RoundTrip.ssra _ _ _ _
  | smin => exact Laws.RoundTrip.smin _ _ _ _
  | smax => exact Laws.RoundTrip.smax _ _ _ _
  | sminw => exact Laws.RoundTrip.sminw _ _ _ _
  | smaxw => exact Laws.RoundTrip.smaxw _ _ _ _
  | ssel => exact Laws.RoundTrip.ssel _ _ _ _
  | sclz => exact Laws.RoundTrip.sclz _ _ _
  | spopc => exact Laws.RoundTrip.spopc _ _ _
  | saddi => exact Laws.RoundTrip.saddi _ _ _ _
  | sandi => exact Laws.RoundTrip.sandi _ _ _ _
  | sori => exact Laws.RoundTrip.sori _ _ _ _
  | sxori => exact Laws.RoundTrip.sxori _ _ _ _
  | sshli => exact Laws.RoundTrip.sshli _ _ _ _
  | sshri => exact Laws.RoundTrip.sshri _ _ _ _
  | ssrai => exact Laws.RoundTrip.ssrai _ _ _ _
  | sli => exact Laws.RoundTrip.sli _ _ _
  | slih => exact Laws.RoundTrip.slih _ _ _
  | ssetp => exact Laws.RoundTrip.ssetp _ _ _ _ _ _
  | spand => exact Laws.RoundTrip.spand _ _ _ _
  | spor => exact Laws.RoundTrip.spor _ _ _ _
  | spxor => exact Laws.RoundTrip.spxor _ _ _ _
  | spnot => exact Laws.RoundTrip.spnot _ _ _
  | spmov => exact Laws.RoundTrip.spmov _ _ _
  | sld => exact Laws.RoundTrip.sld _ _ _ _ _ _
  | sldx => exact Laws.RoundTrip.sldx _ _ _ _ _ _
  | sst => exact Laws.RoundTrip.sst _ _ _ _ _
  | slda => exact Laws.RoundTrip.slda _ _ _ _ _ _
  | sstl => exact Laws.RoundTrip.sstl _ _ _ _ _ _
  | satom => exact Laws.RoundTrip.satom _ _ _ _ _ _ _
  | sbr => exact Laws.RoundTrip.sbr _ _
  | scall => exact Laws.RoundTrip.scall _ _
  | sjr => exact Laws.RoundTrip.sjr _ _
  | sjalr => exact Laws.RoundTrip.sjalr _ _ _
  | sret => exact Laws.RoundTrip.sret _
  | slq => exact Laws.RoundTrip.slq _ _ _ _
  | slwait => exact Laws.RoundTrip.slwait _ _
  | sgetr => exact Laws.RoundTrip.sgetr _ _ _
  | sbar => exact Laws.RoundTrip.sbar _ _
  | sbara => exact Laws.RoundTrip.sbara _ _
  | slinit => exact Laws.RoundTrip.slinit _ _
  | slexp => exact Laws.RoundTrip.slexp _ _ _
  | slwt => exact Laws.RoundTrip.slwt _ _ _
  | slgen => exact Laws.RoundTrip.slgen _ _ _
  | smon => exact Laws.RoundTrip.smon _ _
  | smwait => exact Laws.RoundTrip.smwait _ _ _
  | smdis => exact Laws.RoundTrip.smdis _
  | stlwait => exact Laws.RoundTrip.stlwait _ _ _
  | stlthr => exact Laws.RoundTrip.stlthr _ _ _
  | stlrd => exact Laws.RoundTrip.stlrd _ _ _
  | slaunch => exact Laws.RoundTrip.slaunch _ _ _ _
  | scancel => exact Laws.RoundTrip.scancel _ _ _ _
  | scnt => exact Laws.RoundTrip.scnt _ _ _ _
  | cpy => exact Laws.RoundTrip.cpy _ _ _ _ _ _
  | cpyThen => exact Laws.RoundTrip.cpyThen _ _ _ _ _ _ _
  | cpyset => exact Laws.RoundTrip.cpyset _ _
  | mma => exact Laws.RoundTrip.mma _ _
  | mmap => exact Laws.RoundTrip.mmap _ _
  | mzero => exact Laws.RoundTrip.mzero _ _
  | mguide => exact Laws.RoundTrip.mguide _ _ _ _ _
  | ccol => exact Laws.RoundTrip.ccol _ _ _ _ _ _
  | gemit => exact Laws.RoundTrip.gemit _ _ _ _ _
  | gclose => exact Laws.RoundTrip.gclose _ _ _ _
  | gcut => exact Laws.RoundTrip.gcut _ _ _ _
  | gstat => exact Laws.RoundTrip.gstat _ _ _ _
  | sgate => exact Laws.RoundTrip.sgate _ _ _ _ _
  | sgatew => exact Laws.RoundTrip.sgatew _ _ _ _
  | strap => exact Laws.RoundTrip.strap _ _
  | srds => exact Laws.RoundTrip.srds _ _ _
  | swrs => exact Laws.RoundTrip.swrs _ _ _
  | fdtb => exact Laws.RoundTrip.fdtb _ _
  | fdtsync => exact Laws.RoundTrip.fdtsync _ _
  | gatereg => exact Laws.RoundTrip.gatereg _ _
  | gateclose => exact Laws.RoundTrip.gateclose _ _
  | gatereply => exact Laws.RoundTrip.gatereply _ _
  | debugen => exact Laws.RoundTrip.debugen _ _
  | picins => exact Laws.RoundTrip.picins _ _ _ _ _
  | vnop => exact Laws.RoundTrip.vnop _
  | vadd => exact Laws.RoundTrip.vadd _
  | vsub => exact Laws.RoundTrip.vsub _
  | vmul => exact Laws.RoundTrip.vmul _
  | vmulh => exact Laws.RoundTrip.vmulh _
  | vmad => exact Laws.RoundTrip.vmad _
  | vmin => exact Laws.RoundTrip.vmin _
  | vmax => exact Laws.RoundTrip.vmax _
  | vabs => exact Laws.RoundTrip.vabs _
  | vand => exact Laws.RoundTrip.vand _
  | vor => exact Laws.RoundTrip.vor _
  | vxor => exact Laws.RoundTrip.vxor _
  | vnot => exact Laws.RoundTrip.vnot _
  | vshl => exact Laws.RoundTrip.vshl _
  | vshr => exact Laws.RoundTrip.vshr _
  | vsra => exact Laws.RoundTrip.vsra _
  | vclz => exact Laws.RoundTrip.vclz _
  | vpopc => exact Laws.RoundTrip.vpopc _
  | vbfe => exact Laws.RoundTrip.vbfe _
  | vbfi => exact Laws.RoundTrip.vbfi _
  | vmov => exact Laws.RoundTrip.vmov _
  | vsel => exact Laws.RoundTrip.vsel _
  | vidx => exact Laws.RoundTrip.vidx _
  | vfadd => exact Laws.RoundTrip.vfadd _
  | vfsub => exact Laws.RoundTrip.vfsub _
  | vfmul => exact Laws.RoundTrip.vfmul _
  | vfma => exact Laws.RoundTrip.vfma _
  | vfmin => exact Laws.RoundTrip.vfmin _
  | vfmax => exact Laws.RoundTrip.vfmax _
  | vfrcp => exact Laws.RoundTrip.vfrcp _
  | vfrsq => exact Laws.RoundTrip.vfrsq _
  | vfsqrt => exact Laws.RoundTrip.vfsqrt _
  | vfexp2 => exact Laws.RoundTrip.vfexp2 _
  | vflog2 => exact Laws.RoundTrip.vflog2 _
  | vfsin => exact Laws.RoundTrip.vfsin _
  | vfcos => exact Laws.RoundTrip.vfcos _
  | vfdiv => exact Laws.RoundTrip.vfdiv _
  | vcvt => exact Laws.RoundTrip.vcvt _
  | vpack => exact Laws.RoundTrip.vpack _
  | vunpk => exact Laws.RoundTrip.vunpk _
  | vqnq4 => exact Laws.RoundTrip.vqnq4 _
  | vdq => exact Laws.RoundTrip.vdq _
  | vsetm => exact Laws.RoundTrip.vsetm _
  | vmand => exact Laws.RoundTrip.vmand _
  | vmor => exact Laws.RoundTrip.vmor _
  | vmxor => exact Laws.RoundTrip.vmxor _
  | vmnot => exact Laws.RoundTrip.vmnot _
  | vballot => exact Laws.RoundTrip.vballot _
  | vany => exact Laws.RoundTrip.vany _
  | vall => exact Laws.RoundTrip.vall _
  | vshfl => exact Laws.RoundTrip.vshfl _
  | vbcast => exact Laws.RoundTrip.vbcast _
  | vredx => exact Laws.RoundTrip.vredx _
  | vscan => exact Laws.RoundTrip.vscan _
  | vqswap => exact Laws.RoundTrip.vqswap _
  | vld => exact Laws.RoundTrip.vld _
  | vst => exact Laws.RoundTrip.vst _
  | vlds => exact Laws.RoundTrip.vlds _
  | vsts => exact Laws.RoundTrip.vsts _
  | vldf => exact Laws.RoundTrip.vldf _
  | vatom => exact Laws.RoundTrip.vatom _
  | vred => exact Laws.RoundTrip.vred _
  | vpicot => exact Laws.RoundTrip.vpicot _
  | vlda => exact Laws.RoundTrip.vlda _
  | vstl => exact Laws.RoundTrip.vstl _
  | vsample => exact Laws.RoundTrip.vsample _
  | vaccrd => exact Laws.RoundTrip.vaccrd _
  | vaccwr => exact Laws.RoundTrip.vaccwr _
  | vaccscl => exact Laws.RoundTrip.vaccscl _
  | vbr => exact Laws.RoundTrip.vbr _
  | vjoin => exact Laws.RoundTrip.vjoin _
  | vend => exact Laws.RoundTrip.vend _
  | vexit => exact Laws.RoundTrip.vexit _
  | vyield => exact Laws.RoundTrip.vyield _
  | vtag => exact Laws.RoundTrip.vtag _
  | vinterp => exact Laws.RoundTrip.vinterp _
  | vderiv => exact Laws.RoundTrip.vderiv _
  | vfragout => exact Laws.RoundTrip.vfragout _
  | vdiscard => exact Laws.RoundTrip.vdiscard _
  | vrec => exact Laws.RoundTrip.vrec _
  | vemit => exact Laws.RoundTrip.vemit _
  | picotInvocation => exact Laws.RoundTrip.picotInvocation _
  | blockComplete => exact Laws.RoundTrip.blockComplete _
  | laneQueueEnqueue => exact Laws.RoundTrip.laneQueueEnqueue _
  | slwaitReturn => exact Laws.RoundTrip.slwaitReturn _
  | barrierPhaseComplete => exact Laws.RoundTrip.barrierPhaseComplete _
  | slwtReturn => exact Laws.RoundTrip.slwtReturn _
  | smwaitWake => exact Laws.RoundTrip.smwaitWake _
  | smwaitTimeout => exact Laws.RoundTrip.smwaitTimeout _
  | stlwaitReturn => exact Laws.RoundTrip.stlwaitReturn _
  | stlthrReturn => exact Laws.RoundTrip.stlthrReturn _
  | slaunchReturn => exact Laws.RoundTrip.slaunchReturn _
  | sgatewReturn => exact Laws.RoundTrip.sgatewReturn _
  | strandPromotion => exact Laws.RoundTrip.strandPromotion _
  | splitRotation => exact Laws.RoundTrip.splitRotation _ _
  | memoryReturn => exact Laws.RoundTrip.memoryReturn _ _ _
  | storePerformed => exact Laws.RoundTrip.storePerformed _ _
  | integrityCheckFail => exact Laws.RoundTrip.integrityCheckFail _ _
  | writeApply => exact Laws.RoundTrip.writeApply _ _
  | reductionCopyCombine => exact Laws.RoundTrip.reductionCopyCombine _ _
  | engineWordAccept => exact Laws.RoundTrip.engineWordAccept _
  | copyChunk => exact Laws.RoundTrip.copyChunk _ _
  | mmapDecision => exact Laws.RoundTrip.mmapDecision _ _
  | matrixWordStart => exact Laws.RoundTrip.matrixWordStart _ _
  | matrixRowPop => exact Laws.RoundTrip.matrixRowPop _ _
  | matrixWordComplete => exact Laws.RoundTrip.matrixWordComplete _ _
  | matrixWordEnded => exact Laws.RoundTrip.matrixWordEnded _ _
  | collectiveExchange => exact Laws.RoundTrip.collectiveExchange _ _
  | collectiveComplete => exact Laws.RoundTrip.collectiveComplete _ _
  | instanceComplete => exact Laws.RoundTrip.instanceComplete _
  | instanceSettle => exact Laws.RoundTrip.instanceSettle _
  | granuleZeroingDone => exact Laws.RoundTrip.granuleZeroingDone _ _
  | workgroupPlacement => exact Laws.RoundTrip.workgroupPlacement _ _
  | watchdog => exact Laws.RoundTrip.watchdog _
  | drain => exact Laws.RoundTrip.drain _ _ _ _
  | drainTimeout => exact Laws.RoundTrip.drainTimeout _
  | forcedSave => exact Laws.RoundTrip.forcedSave _ _
  | cocoonRestore => exact Laws.RoundTrip.cocoonRestore _ _
  | pageWalk => exact Laws.RoundTrip.pageWalk _
  | inval => exact Laws.RoundTrip.inval _ _ _
  | invalall => exact Laws.RoundTrip.invalall _
  | qrestart => exact Laws.RoundTrip.qrestart _ _
  | resolveResume => exact Laws.RoundTrip.resolveResume _ _
  | resolveEnd => exact Laws.RoundTrip.resolveEnd _ _
  | resolveNext => exact Laws.RoundTrip.resolveNext _ _
  | resolveAck => exact Laws.RoundTrip.resolveAck _ _
  | worldPartitionWrite => exact Laws.RoundTrip.worldPartitionWrite _ _ _
  | worldTranslationRecord => exact Laws.RoundTrip.worldTranslationRecord _ _ _ _
  | worldReleaseScrub => exact Laws.RoundTrip.worldReleaseScrub _ _
  | frameStart => exact Laws.RoundTrip.frameStart _
  | nodeFrameDeadline => exact Laws.RoundTrip.nodeFrameDeadline _ _ _
  | edgeDeadline => exact Laws.RoundTrip.edgeDeadline _ _
  | datagramSend => exact Laws.RoundTrip.datagramSend _
  | datagramExpired => exact Laws.RoundTrip.datagramExpired _
  | controlResend => exact Laws.RoundTrip.controlResend _ _
  | failed => exact Laws.RoundTrip.failed _ _
  | fragmentMerge => exact Laws.RoundTrip.fragmentMerge _ _ _
  | rmaResend => exact Laws.RoundTrip.rmaResend _
  | keyRevocation => exact Laws.RoundTrip.keyRevocation _
  | fabricRekey => exact Laws.RoundTrip.fabricRekey _
  | crashDump => exact Laws.RoundTrip.crashDump _
  | spareBringIn => exact Laws.RoundTrip.spareBringIn _
  | unassignedMajor => exact Laws.RoundTrip.unassignedMajor _
  | unassignedVectorOpcode => exact Laws.RoundTrip.unassignedVectorOpcode _
  | drainResumption => exact Laws.RoundTrip.drainResumption _
  | ptpSync => exact Laws.RoundTrip.ptpSync _ _
  | picinsComplete => exact Laws.RoundTrip.picinsComplete _
  | fdtsyncComplete => exact Laws.RoundTrip.fdtsyncComplete _
  | invalComplete => exact Laws.RoundTrip.invalComplete
  | data => exact Laws.RoundTrip.data
  | parity => exact Laws.RoundTrip.parity
  | malformedDatagram => exact Laws.RoundTrip.malformedDatagram
  | cutPropose => exact Laws.RoundTrip.cutPropose
  | cutAck => exact Laws.RoundTrip.cutAck
  | cutCommit => exact Laws.RoundTrip.cutCommit
  | commitAck => exact Laws.RoundTrip.commitAck
  | cutAbort => exact Laws.RoundTrip.cutAbort
  | abortAck => exact Laws.RoundTrip.abortAck
  | handover => exact Laws.RoundTrip.handover
  | handoverAck => exact Laws.RoundTrip.handoverAck
  | rmaPacketArrival => exact Laws.RoundTrip.rmaPacketArrival
  | rmaAcknowledgement => exact Laws.RoundTrip.rmaAcknowledgement
  | triggeredRequestPost => exact Laws.RoundTrip.triggeredRequestPost
  | regionEntryWrite => exact Laws.RoundTrip.regionEntryWrite
  | firewallWindowWrite => exact Laws.RoundTrip.firewallWindowWrite
  | inboundRequest => exact Laws.RoundTrip.inboundRequest
  | boot => exact Laws.RoundTrip.boot
  | getMeasurements => exact Laws.RoundTrip.getMeasurements
  | bundleUpdate => exact Laws.RoundTrip.bundleUpdate
  | bundleWatchdog => exact Laws.RoundTrip.bundleWatchdog
  | remoteAttestation => exact Laws.RoundTrip.remoteAttestation
  | debugLockOpen => exact Laws.RoundTrip.debugLockOpen
  | powerStateEntry => exact Laws.RoundTrip.powerStateEntry
  | powerStateExit => exact Laws.RoundTrip.powerStateExit
  | powerExitComplete => exact Laws.RoundTrip.powerExitComplete
  | hardPartitionChange => exact Laws.RoundTrip.hardPartitionChange
  | launchSubmission => exact Laws.RoundTrip.launchSubmission
  | queueCreate => exact Laws.RoundTrip.queueCreate
  | contextCreate => exact Laws.RoundTrip.contextCreate
  | jobClose => exact Laws.RoundTrip.jobClose
  | contextDestroy => exact Laws.RoundTrip.contextDestroy
  | queueDestroy => exact Laws.RoundTrip.queueDestroy
  | worldCreate => exact Laws.RoundTrip.worldCreate

/-- Settles O3: the decoder evaluates to what the spec gives beside each word. -/
theorem decodeWords : Obligations.DecodeWords := by
  unfold Obligations.DecodeWords
  repeat' apply And.intro
  all_goals rfl

end Sys2Proof
end

section
/-! Every guarded word of the scalar stream is one scalar word (06 R154, R158; 07 R177): which checks it makes before its guard, and what a false
guard does, settled. -/

namespace Sys2Proof.Machine
open Sys2Proof

/-- A check before the guard raises nothing but what 06 R158 gives decode checks. -/
def DecodeCheck (check : Env → State → Option Code) : Prop :=
  ∀ e s c, check e s = some c → c = .illegalInstr ∨ c = .illegalOperand

theorem noCheck_decodeCheck : DecodeCheck noCheck := fun _ _ _ h => nomatch h

theorem needRole_decodeCheck (r : Role) : DecodeCheck (needRole r) := by
  intro e s c h
  simp only [needRole] at h
  split at h <;> cases h
  exact .inl rfl

/-- A check that a name belongs to the strand. -/
theorem named_decodeCheck {f : Env → State → Bool} : DecodeCheck fun e s => if f e s then none else some .illegalOperand := by
  intro e s c h
  dsimp only at h
  split at h <;> cases h
  exact .inr rfl

theorem illegalWhen_decodeCheck {p : Prop} [Decidable p] : DecodeCheck fun _ _ => if p then some .illegalInstr else none := by
  intro e s c h
  dsimp only at h
  split at h <;> cases h
  exact .inl rfl

theorem illegalUnless_decodeCheck {p : Prop} [Decidable p] : DecodeCheck fun _ _ => if p then none else some .illegalInstr := by
  intro e s c h
  dsimp only at h
  split at h <;> cases h
  exact .inl rfl

theorem matCheck_decodeCheck (tilesOk : Env → Bool) : DecodeCheck (matCheck tilesOk) := by
  intro e s c h
  unfold matCheck at h
  split at h
  · cases h; exact .inl rfl
  · split at h <;> cases h
    exact .inr rfl

/-- A guarded instruction is a scalar word of its length; one that decoding judges without its strand makes no check. -/
structure IsScalarWord (i : Instr) (g : Guard) (check : Env → State → Option Code) (body : Env → State → Eff) : Prop where
  exec : ∀ s, exec i s = scalarWord g (scalarBytesOf i) check body s
  plain : plainWord i = true → check = noCheck
  raises : DecodeCheck check

/-- An instruction that no word of a stream stands for. -/
def IsEvent (i : Instr) : Prop := i.isScalar = false ∧ i.isVector = false

/-- How an instruction is executed: as a guarded scalar word, as a vector word, as a control word, as one of three words of their own, or as an
event, which always answers. -/
inductive ExecKind (i : Instr) : Prop
  | scalar {g check body} (guard : i.guard? = some g) (stream : i.isScalar = true) (word : IsScalarWord i g check body)
  | badMajor {w} (eq : i = .unassignedMajor w)
  | vector {op w check body} (guard : i.guard? = none) (stream : i.isVector = true) (word : ∀ s, exec i s = vectorWordIf op w check body s)
  | control {op w always body} (guard : i.guard? = none) (stream : i.isVector = true) (word : ∀ s, exec i s = controlWord op w always body s)
  | vtag {w} (eq : i = .vtag w)
  | badOpcode {w} (eq : i = .unassignedVectorOpcode w)
  | event (guard : i.guard? = none) (event : IsEvent i) (answers : ∀ s, ∃ t, exec i s = .next t)

theorem execKind (i : Instr) : ExecKind i := by
  cases i with
  | slq | cpy | cpyThen | cpyset | ccol => exact .scalar rfl rfl ⟨fun _ => rfl, (nomatch ·), needRole_decodeCheck _⟩
  | sbar | sbara | stlwait | stlthr | stlrd | srds => exact .scalar rfl rfl ⟨fun _ => rfl, (nomatch ·), named_decodeCheck⟩
  | mma | mmap | mzero | mguide => exact .scalar rfl rfl ⟨fun _ => rfl, (nomatch ·), matCheck_decodeCheck _⟩
  | swrs => exact .scalar rfl rfl ⟨fun _ => rfl, (nomatch ·), noCheck_decodeCheck⟩
  | scancel => exact .scalar rfl rfl ⟨fun _ => rfl, (nomatch ·), illegalWhen_decodeCheck⟩
  | sgate => exact .scalar rfl rfl ⟨fun _ => rfl, (nomatch ·), illegalUnless_decodeCheck⟩
  | snop | sbrk | syield | sexit | sfence | sadd | ssub | smul | smulh | smulhw | sdivw | sremw | sand | sor | sxor | sshl | sshr | ssra | smin
    | smax | sminw | smaxw | ssel | sclz | spopc | saddi | sandi | sori | sxori | sshli | sshri | ssrai | sli | slih | ssetp | spand | spor | spxor
    | spnot | spmov | sld | sldx | sst | slda | sstl | satom | sbr | scall | sjr | sjalr | sret | slwait | sgetr | slinit | slexp | slwt | slgen
    | smon | smwait | smdis | slaunch | scnt | gemit | gclose | gcut | gstat | sgatew | strap | fdtb | fdtsync | gatereg | gateclose
    | gatereply | debugen | picins =>
    exact .scalar rfl rfl ⟨fun _ => rfl, fun _ => rfl, noCheck_decodeCheck⟩
  | unassignedMajor => exact .badMajor rfl
  | vnop | vadd | vsub | vmul | vmulh | vmad | vmin | vmax | vabs | vand | vor | vxor | vnot | vshl | vshr | vsra | vclz | vpopc | vbfe | vbfi
    | vmov | vsel | vidx | vfadd | vfsub | vfmul | vfma | vfmin | vfmax | vfrcp | vfrsq | vfsqrt | vfexp2 | vflog2 | vfsin | vfcos | vfdiv | vcvt
    | vpack | vunpk | vqnq4 | vdq | vsetm | vmand | vmor | vmxor | vmnot | vballot | vany | vall | vshfl | vbcast | vredx | vscan | vqswap | vld
    | vst | vlds | vsts | vldf | vatom | vred | vpicot | vlda | vstl | vsample | vaccrd | vaccwr | vaccscl | vinterp | vderiv | vfragout
    | vdiscard | vrec | vemit => exact .vector rfl rfl fun _ => rfl
  | vbr | vjoin | vend | vexit | vyield => exact .control rfl rfl fun _ => rfl
  | vtag => exact .vtag rfl
  | unassignedVectorOpcode => exact .badOpcode rfl
  | _ => exact .event rfl ⟨rfl, rfl⟩ fun _ => ⟨_, rfl⟩

theorem exec_isScalarWord {i : Instr} {g : Guard} (h : i.guard? = some g) : ∃ check body, IsScalarWord i g check body := by
  cases execKind i with
  | scalar guard _ word =>
    cases guard.symm.trans h
    exact ⟨_, _, word⟩
  | vector guard | control guard | event guard => cases guard.symm.trans h
  | badMajor eq | vtag eq | badOpcode eq => subst eq; cases h

/-- Settles O14: a guarded instruction is a scalar word, whose checks come first and whose false guard only moves on. -/
theorem scalarFalseGuardMovesOn : Obligations.ScalarFalseGuardMovesOn := by
  intro s e i g hg hcur henv hfalse
  obtain ⟨check, body, hexec, hplain, hraises⟩ := exec_isScalarWord hg
  rw [hexec s]
  obtain ⟨c, hc, hword⟩ | ⟨-, htrue, -⟩ | ⟨-, -, hword⟩ := scalarWord_cases hcur henv g (scalarBytesOf i) check body
  · refine ⟨.inr ⟨c, hraises e s c hc, hword⟩, fun hp => ?_⟩
    rw [hplain hp] at hc
    cases hc
  · rw [hfalse] at htrue
    cases htrue
  · exact ⟨.inl hword, fun _ => hword⟩

end Sys2Proof.Machine
end

section
/-! A stream's turn is the execution of its next word, and who may issue when a strand has been ready for 72 cycles (06 R157, R158; 01 R22, R23),
settled. -/

namespace Sys2Proof.Machine
open Sys2Proof

/-! ## Fetching -/

/-- The word at a ready strand's address is run (06 R157). -/
theorem fetchScalar_run {s s1 : State} {e : Env} {bs left : List Byte} {i : Instr} (henv : s.env? e.sid = some e)
    (hready : scalarReady s e = true) (hbytes : scalarBytes s e = (s1, .bytes bs)) (hdec : decodeScalarBytes bs = .ok (i, left)) :
    fetchScalar s e.sid = .run (noteIssue s1 e false) i := by
  simp only [fetchScalar, henv, hready, hbytes, hdec, Bool.not_true, Bool.false_eq_true, if_false]

theorem fetchVector_run {s s1 : State} {e : Env} {slot : Fin 2} {sp : Split} {blk : Block} {blks : List Block} {bs left : List Byte}
    {i : Instr} (henv : s.env? e.sid = some e) (hsp : e.st.slots[slot] = some sp) (hblk : e.st.laneQ = blk :: blks)
    (hready : vectorReady s e slot = true) (hturn : rotationDue e.st sp = false ∨ chainedNext s e sp = true)
    (hbytes : fetchBytes s e e.st.vectorWalkFaults (blk.entry + 12 * sp.pos) 12 = (s1, .bytes bs))
    (hdec : decodeVectorBytes bs = .ok (i, left)) :
    fetchVector s e.sid slot = .run (noteIssue (readyAgain s1 e.sid) e true slot) i := by
  have hgo : (!vectorReady s e slot || (rotationDue e.st sp && !chainedNext s e sp)) = false := by
    obtain h | h := hturn <;> simp [hready, h]
  simp only [fetchVector, henv, hsp, hblk, hgo, hbytes, hdec, Bool.false_eq_true, if_false]

/-! ## Who issues when a strand is due (01 R22, R23) -/

/-- Two candidates of one port. -/
theorem Cand.samePort_iff {c d : Cand} : c.samePort d = true ↔ d.core = c.core ∧ d.quadrant = c.quadrant ∧ d.vector = c.vector := by
  simp [Cand.samePort, and_assoc]

theorem Cand.samePort_symm {c d : Cand} (h : c.samePort d = true) : d.samePort c = true := by
  obtain ⟨h1, h2, h3⟩ := Cand.samePort_iff.1 h
  exact Cand.samePort_iff.2 ⟨h1.symm, h2.symm, h3.symm⟩

theorem Cand.samePort_trans {c d x : Cand} (h : c.samePort d = true) (k : d.samePort x = true) : c.samePort x = true := by
  obtain ⟨h1, h2, h3⟩ := Cand.samePort_iff.1 h
  obtain ⟨k1, k2, k3⟩ := Cand.samePort_iff.1 k
  exact Cand.samePort_iff.2 ⟨k1.trans h1, k2.trans h2, k3.trans h3⟩

/-- A candidate that has been ready for 64 cycles is promoted (01 R22). -/
theorem promoted_of_candidate {s : State} {c : Cand} (hc : c ∈ candidates s) (h : c.since + 64 ≤ s.cycle) : c.promoted = true := by
  have hvector {e : Env} {slot : Fin 2} (hv : c ∈ vectorCand s e slot) : c.promoted = true := by
    unfold vectorCand at hv
    split at hv
    · cases hv
    · dsimp only at hv
      split at hv
      · rw [List.mem_singleton] at hv
        subst hv
        simp [h]
      · cases hv
  simp only [candidates, List.mem_flatten, List.mem_map] at hc
  obtain ⟨_, ⟨p, -, rfl⟩, hc⟩ := hc
  unfold candsOf at hc
  split at hc
  · cases hc
  · simp only [List.mem_append] at hc
    obtain (hc | hc) | hc := hc
    · split at hc
      · rw [List.mem_singleton] at hc
        subst hc
        simp [h]
      · cases hc
    · exact hvector hc
    · exact hvector hc

/-- How early a candidate comes: by its readiness, and among equals by whether it has had its turn. -/
def Cand.order (c : Cand) : Nat := 2 * c.since + c.served.toNat

/-- Promoted candidates of a port are ordered, and the first of them may issue, unless a chain holds the port. -/
theorem mayIssue_of_first {all : List Cand} {x : Cand} (hp : x.promoted = true) (hx : ∀ d ∈ all, x.samePort d = true → d.chained = false)
    (hfirst : ∀ d ∈ all, x.samePort d = true → d.promoted = true → x.order ≤ d.order) : mayIssue all x = true := by
  have hchain : (all.filter x.samePort).filter Cand.chained = [] := by
    simp only [List.filter_eq_nil_iff, List.mem_filter, Bool.not_eq_true]
    exact fun d hd => hx d hd.1 hd.2
  have hord : ∀ d ∈ all, x.samePort d = true →
      (!d.promoted || decide (x.since < d.since) || (x.since == d.since && (!x.served || d.served))) = true := by
    intro d hd hport
    cases hdp : d.promoted with
    | false => rfl
    | true =>
      have hle := hfirst d hd hport hdp
      simp only [Cand.order] at hle
      obtain hlt | heq | hgt := Nat.lt_trichotomy x.since d.since
      · simp [hlt]
      · cases hxs : x.served <;> cases hds : d.served <;> simp_all
      · have := Bool.toNat_le x.served
        have := Bool.toNat_le d.served
        omega
  simp only [mayIssue, hchain, hp, List.length_nil, Bool.or_eq_true, Bool.and_eq_true, if_true, List.all_eq_true, List.mem_filter]
  exact .inr ⟨by decide, fun d hd => by simpa only [Bool.or_eq_true, Bool.and_eq_true] using hord d hd.1 hd.2⟩

/-- A port with a promoted candidate has one that may issue. -/
theorem exists_mayIssue {all : List Cand} {c : Cand} (hc : c ∈ all) (hp : c.promoted = true) :
    ∃ x ∈ all, mayIssue all x = true ∧ x.samePort c = true := by
  by_cases hchain : ∃ x ∈ all, c.samePort x = true ∧ x.chained = true
  · obtain ⟨x, hx, hport, hch⟩ := hchain
    exact ⟨x, hx, by simp [mayIssue, hch], Cand.samePort_symm hport⟩
  · obtain ⟨x, ⟨hx, hport, hxp⟩, hmin⟩ := (measure Cand.order).wf.has_min {x | x ∈ all ∧ c.samePort x = true ∧ x.promoted = true}
      ⟨c, hc, Cand.samePort_iff.2 ⟨rfl, rfl, rfl⟩, hp⟩
    refine ⟨x, hx, mayIssue_of_first hxp (fun d hd hd' => ?_) (fun d hd hd' hdp => ?_), Cand.samePort_symm hport⟩
    · cases h : d.chained with
      | false => rfl
      | true => exact absurd ⟨d, hd, Cand.samePort_trans hport hd', h⟩ hchain
    · exact Nat.le_of_not_lt (hmin d ⟨hd, Cand.samePort_trans hport hd', hdp⟩)

/-- The free choice takes one of the moves there are. -/
theorem choose_mem {s : State} (h : moves s ≠ []) : ∃ t ∈ moves s, choose s = some t := by
  unfold choose
  split
  · exact absurd ‹_› h
  · rename_i t ht
    exact ⟨t, by simp [ht], rfl⟩
  · have hlt := Nat.mod_lt (Config.pick s.ticks) (List.length_pos_iff.2 h)
    exact ⟨_, List.getElem_mem hlt, List.getElem?_eq_getElem hlt⟩

/-- A strand that has been ready for 72 cycles has its port issue before all else (01 R23). -/
theorem choose_of_overdue {s : State} (hw0 : s.power.state = .w0) (hh : holders s = []) {c : Cand} (hc : c ∈ candidates s)
    (hdue : c.since + 72 ≤ s.cycle) : ∃ d ∈ candidates s, choose s = some d.turn := by
  have hover : c ∈ (candidates s).filter (Cand.overdue s) := List.mem_filter.2 ⟨hc, by simpa [Cand.overdue] using hdue⟩
  have hmoves : moves s = ((candidates s).filter fun x => mayIssue (candidates s) x
      && ((candidates s).filter (Cand.overdue s)).any x.samePort).map Cand.turn := by
    simp only [moves, hw0, hh, ne_eq, not_true_eq_false, if_false, List.ne_nil_of_mem hover, not_false_eq_true, if_true]
  obtain ⟨x, hx, hmay, hport⟩ := exists_mayIssue hc (promoted_of_candidate hc (by omega))
  have hxm : x.turn ∈ moves s := by
    rw [hmoves]
    refine List.mem_map_of_mem (List.mem_filter.2 ⟨hx, ?_⟩)
    simp only [hmay, Bool.true_and, List.any_eq_true]
    exact ⟨c, hover, hport⟩
  obtain ⟨t, ht, hchoose⟩ := choose_mem (List.ne_nil_of_mem hxm)
  rw [hmoves, List.mem_map] at ht
  obtain ⟨d, hd, rfl⟩ := ht
  exact ⟨d, (List.mem_filter.1 hd).1, hchoose⟩

/-- Settles O5: the fetch of a ready stream's word, the turn, the choice of a port with an overdue strand, and the passing of time. -/
theorem stepRunsWords : Obligations.StepRunsWords := by
  refine ⟨?_, ?_, ?_, ?_, ?_, ?_⟩
  · intro s s1 e rest bs i left s0 hag henv hready hbytes hdec
    rw [step_agenda hag, turn, fetchScalar_run henv hready hbytes hdec]
  · intro s s1 e slot sp blk blks rest bs i left s0 hag henv hsp hblk hready hturn hbytes hdec
    rw [step_agenda hag, turn, fetchVector_run henv hsp hblk hready hturn hbytes hdec]
    rfl
  · exact fun s i rest hag => step_event hag
  · intro s t hag hchoose
    simp only [step, hag, hchoose]
  · intro s hw0 hh ⟨c, hc, hdue⟩
    exact choose_of_overdue hw0 hh hc hdue
  · exact fun s => ⟨passes (noteRaces { s with cur := none }), rfl⟩

end Sys2Proof.Machine
end

section
/-! Every step answers a next state (06 R158; 07 R177; 18 R346), settled: an event always does, a word does where its stream stands, and the fetch
of a word leaves the stream standing. -/

namespace Sys2Proof.Machine
open Sys2Proof

/-! ## Events -/

theorem exec_event_answers {i : Instr} (h : IsEvent i) (s : State) : ∃ t, exec i s = .next t := by
  obtain ⟨hs, hv⟩ := h
  cases execKind i with
  | event _ _ answers => exact answers s
  | scalar _ stream => rw [hs] at stream; cases stream
  | vector _ stream | control _ stream => rw [hv] at stream; cases stream
  | badMajor eq => subst eq; cases hs
  | vtag eq | badOpcode eq => subst eq; cases hv

/-! ## What the machine chooses by itself is an event or a stream's turn -/

/-- A list of events. -/
def Events (l : List Instr) : Prop := ∀ i ∈ l, IsEvent i

namespace Events

theorem nil : Events [] := fun _ h => nomatch h
theorem cons {i : Instr} {l : List Instr} (hi : IsEvent i) (h : Events l) : Events (i :: l) := List.forall_mem_cons.2 ⟨hi, h⟩
theorem append {l m : List Instr} (h : Events l) (k : Events m) : Events (l ++ m) := List.forall_mem_append.2 ⟨h, k⟩
theorem one {i : Instr} (hi : IsEvent i) : Events [i] := cons hi nil
theorem ite {p : Prop} [Decidable p] {l m : List Instr} (h : Events l) (k : Events m) : Events (if p then l else m) := by
  split
  · exact h
  · exact k
theorem map {α : Type} {f : α → Instr} {l : List α} (h : ∀ x, IsEvent (f x)) : Events (l.map f) := List.forall_mem_map.2 fun x _ => h x
theorem flatMap {α : Type} {f : α → List Instr} {l : List α} (h : ∀ x, Events (f x)) : Events (l.map f).flatten := by
  intro i hi
  simp only [List.mem_flatten, List.mem_map] at hi
  obtain ⟨_, ⟨x, -, rfl⟩, hi⟩ := hi
  exact h x i hi
theorem filterMap {α : Type} {f : α → Option Instr} {l : List α} (h : ∀ x i, f x = some i → IsEvent i) : Events (l.filterMap f) := by
  intro i hi
  obtain ⟨x, -, hx⟩ := List.mem_filterMap.1 hi
  exact h x i hx

end Events

theorem waitEvents_events (sid : StrandId) (w : Option Wait) : Events (waitEvents sid w) := by
  unfold waitEvents
  split
  case h_4 => exact .cons ⟨rfl, rfl⟩ (.one ⟨rfl, rfl⟩)
  case h_14 | h_15 => exact .nil
  all_goals exact .one ⟨rfl, rfl⟩

theorem strandEvents_events (sid : StrandId) (st : Strand) : Events (strandEvents sid st) :=
  .append (.append (.append (.cons ⟨rfl, rfl⟩ (.cons ⟨rfl, rfl⟩ (.one ⟨rfl, rfl⟩))) (waitEvents_events sid st.wait))
    (.flatMap fun _ => .cons ⟨rfl, rfl⟩ (.one ⟨rfl, rfl⟩))) (.map fun _ => ⟨rfl, rfl⟩)

theorem memoryEvents_events (s : State) : Events (memoryEvents s) :=
  .append (.append (.append (.flatMap fun _ => .map fun _ => ⟨rfl, rfl⟩) (.map fun _ => ⟨rfl, rfl⟩))
    (.ite .nil (.map fun _ => ⟨rfl, rfl⟩))) (.ite (.one ⟨rfl, rfl⟩) .nil)

theorem matrixEvents_events (c : CoreId) (id : Nat) : Events (matrixEvents c id) :=
  .cons ⟨rfl, rfl⟩ (.cons ⟨rfl, rfl⟩ (.cons ⟨rfl, rfl⟩ (.cons ⟨rfl, rfl⟩ (.one ⟨rfl, rfl⟩))))

theorem engineEvents_events (s : State) : Events (engineEvents s) :=
  .append (.map fun _ => ⟨rfl, rfl⟩) (.flatMap fun _ => .flatMap fun _ => matrixEvents_events _ _)

theorem zeroing_events (c : CoreId) (v : Vector Granule 48) : Events (zeroing c v) := by
  refine .filterMap fun g i h => ?_
  split at h <;> cases h
  exact ⟨rfl, rfl⟩

theorem workEvents_events (s : State) : Events (workEvents s) :=
  .append (.append (.append (.flatMap fun _ => .cons ⟨rfl, rfl⟩ (.one ⟨rfl, rfl⟩)) (.flatMap fun _ => zeroing_events _ _))
    (.map fun _ => ⟨rfl, rfl⟩)) (.map fun _ => ⟨rfl, rfl⟩)

theorem contextEvents_events (c : Nat) (x : Context) : Events (contextEvents c x) :=
  .cons ⟨rfl, rfl⟩ (.append (.append (.append (.map fun _ => ⟨rfl, rfl⟩) (.flatMap fun _ => .map fun _ => ⟨rfl, rfl⟩))
    (.flatMap fun _ => .cons ⟨rfl, rfl⟩ (.one ⟨rfl, rfl⟩))) (.map fun _ => ⟨rfl, rfl⟩))

theorem linkEvents_events (s : State) : Events (linkEvents s) :=
  .append (.append (.append (.append (.flatMap fun _ => .cons ⟨rfl, rfl⟩ (.one ⟨rfl, rfl⟩)) (.map fun _ => ⟨rfl, rfl⟩))
    (.map fun _ => ⟨rfl, rfl⟩)) (.ite (.one ⟨rfl, rfl⟩) .nil)) (.map fun _ => ⟨rfl, rfl⟩)

theorem inputEvents_events (l : List Input) : Events (inputEvents l) := by
  unfold inputEvents
  split
  · exact .nil
  · split
    case h_1 =>
      intro i hi
      simp only [List.mem_cons, List.not_mem_nil, or_false] at hi
      obtain rfl | rfl | rfl | rfl | rfl | rfl | rfl | rfl | rfl | rfl | rfl := hi <;> exact ⟨rfl, rfl⟩
    all_goals exact .one ⟨rfl, rfl⟩

theorem restores_events (s : State) : Events (restores s) := .flatMap fun _ => .map fun _ => ⟨rfl, rfl⟩

theorem saves_events (s : State) : Events (saves s) := .flatMap fun _ => .map fun _ => ⟨rfl, rfl⟩

theorem placements_events (s : State) : Events (placements s) := by
  refine .flatMap fun p => .ite (.filterMap fun r i h => ?_) .nil
  obtain ⟨cs, -, rfl⟩ := Option.map_eq_some_iff.1 h
  exact ⟨rfl, rfl⟩

theorem asleepEvents_events (s : State) : Events (asleepEvents s) :=
  .append (.ite (.one ⟨rfl, rfl⟩) (.one ⟨rfl, rfl⟩)) (.ite .nil (.cons ⟨rfl, rfl⟩ (.one ⟨rfl, rfl⟩)))

theorem deviceEvents_events (s : State) : Events (deviceEvents s) :=
  .append (.append (.append (.append (.append (.append (.append (.append (memoryEvents_events s) (engineEvents_events s))
    (workEvents_events s)) (.flatMap fun _ => contextEvents_events _ _)) (linkEvents_events s)) (inputEvents_events _))
    (placements_events s)) (saves_events s)) (restores_events s)

/-- A turn that is no word posing as an event. -/
def Turn.Proper (t : Turn) : Prop := ∀ i, t = .event i → IsEvent i

theorem Turn.proper_event {i : Instr} (h : IsEvent i) : (Turn.event i).Proper := by
  rintro _ ⟨rfl⟩
  exact h

theorem candidates_proper {s : State} {c : Cand} (h : c ∈ candidates s) : c.turn.Proper := by
  have hvector {e : Env} {slot : Fin 2} (hv : c ∈ vectorCand s e slot) : c.turn.Proper := by
    unfold vectorCand at hv
    split at hv
    · cases hv
    · dsimp only at hv
      split at hv
      · rw [List.mem_singleton] at hv
        subst hv
        dsimp only
        split
        · exact Turn.proper_event ⟨rfl, rfl⟩
        · exact fun _ hi => nomatch hi
      · cases hv
  simp only [candidates, List.mem_flatten, List.mem_map] at h
  obtain ⟨_, ⟨p, -, rfl⟩, hc⟩ := h
  unfold candsOf at hc
  split at hc
  · cases hc
  · simp only [List.mem_append] at hc
    obtain (hc | hc) | hc := hc
    · split at hc
      · rw [List.mem_singleton] at hc
        subst hc
        exact fun _ hi => nomatch hi
      · cases hc
    · exact hvector hc
    · exact hvector hc

theorem moves_proper {s : State} : ∀ t ∈ moves s, t.Proper := by
  have hevents {l : List Instr} (h : Events l) : ∀ t ∈ l.map Turn.event, t.Proper :=
    List.forall_mem_map.2 fun i hi => Turn.proper_event (h i hi)
  have hcands {p : Cand → Bool} : ∀ t ∈ ((candidates s).filter p).map Cand.turn, t.Proper :=
    List.forall_mem_map.2 fun c hc => candidates_proper (List.mem_filter.1 hc).1
  unfold moves
  dsimp only
  split
  · exact hevents (asleepEvents_events s)
  · split
    · exact List.forall_mem_map.2 fun sid _ => Turn.proper_event ⟨rfl, rfl⟩
    · split
      · exact hcands
      · refine List.forall_mem_append.2 ⟨List.forall_mem_append.2 ⟨hcands, ?_⟩, hevents (deviceEvents_events s)⟩
        intro t ht
        simp only [List.mem_flatten, List.mem_map] at ht
        obtain ⟨_, ⟨p, -, rfl⟩, ht⟩ := ht
        exact hevents (strandEvents_events _ _) t ht

theorem choose_proper {s : State} {t : Turn} (h : choose s = some t) : t.Proper := by
  refine moves_proper (s := s) t ?_
  unfold choose at h
  split at h
  · cases h
  · rename_i ht
    cases h
    simp [ht]
  · exact List.mem_of_getElem? h

/-! ## A fetch leaves the streams standing -/

/-- Nothing has changed but global memory, the translations and the strands' watches. -/
def OnlyWatches (s t : State) : Prop := SameButMemory s t ∧ KeepsStrands s t

namespace OnlyWatches

theorem refl (s : State) : OnlyWatches s s := ⟨.refl s, .of_eq rfl⟩

theorem trans {s t u : State} (h : OnlyWatches s t) (k : OnlyWatches t u) : OnlyWatches s u := ⟨h.1.trans k.1, h.2.trans k.2⟩

/-- A strand still stands in its workgroup and its launch. -/
theorem env {s t : State} {sid : StrandId} {e : Env} (h : OnlyWatches s t) (he : s.env? sid = some e) :
    ∃ w, t.env? sid = some { e with st := { e.st with watch := w } } := by
  obtain ⟨rfl, hst, hwg, hl⟩ := State.env?_strand he
  obtain ⟨w, hw⟩ := h.2 _ _ hst
  have hwgs : t.wgs = s.wgs := by rw [← h.1.rest]
  have hls : t.launches = s.launches := by rw [← h.1.rest]
  exact ⟨w, by simp only [State.env?, hw, hwgs, hwg, hls, hl]⟩

end OnlyWatches

theorem readDie_onlyWatches (s : State) (d : Fin 4) (w pa n : Nat) : OnlyWatches s (readDie s d w pa n).1 := by
  unfold readDie
  split
  · exact .refl s
  · exact foldl_keeps (OnlyWatches s) _ (fun t g h => h.trans ⟨t.onLine_sameButMemory g.1 _, t.onLine_keepsStrands g.1 _⟩) _ _ (.refl s)

theorem fetchBytes_onlyWatches (s : State) (e : Env) (faults : List WalkFault) (va n : Nat) :
    OnlyWatches s (fetchBytes s e faults va n).1 := by
  unfold fetchBytes
  refine foldl_keeps (fun a : State × Got => OnlyWatches s a.1) _ (fun a g ha => ?_) _ _ (.refl s)
  split
  · split
    · exact ha
    · split
      · exact ha
      · exact ha
      · split
        · exact ha
        · exact ha.trans (readDie_onlyWatches ..)
  · exact ha

theorem scalarBytes_onlyWatches (s : State) (e : Env) : OnlyWatches s (scalarBytes s e).1 := by
  have h1 := fetchBytes_onlyWatches s e e.st.scalarWalkFaults e.st.pc 4
  unfold scalarBytes
  split
  · rename_i t b heq
    rw [heq] at h1
    have h2 := h1.trans (fetchBytes_onlyWatches t e e.st.scalarWalkFaults (e.st.pc + 4) 4)
    split
    · split
      · rename_i heq2
        rw [heq2] at h2
        exact h2
      · exact h2
    · exact h1
  · exact h1

theorem env?_modStrand {s : State} {sid : StrandId} {e : Env} (f : Strand → Strand) (he : s.env? sid = some e) :
    (s.modStrand sid f).env? sid = some { e with st := f e.st } := by
  obtain ⟨rfl, hst, hwg, hl⟩ := State.env?_strand he
  simp only [State.env?, State.modStrand_strands, State.modStrand_wgs, State.modStrand_launches, Assoc.get?_modify_same, hst, Option.map_some,
    hwg, hl]

/-- The count of issues is no part of a strand's environment. -/
theorem env?_noteIssue (s : State) (e : Env) (vector : Bool) (slot : Fin 2) (sid : StrandId) :
    (noteIssue s e vector slot).env? sid = s.env? sid := rfl

/-! ## What a fetch hands to execution -/

/-- A scalar word that is run stands for an instruction of the scalar stream, of a strand that stands. -/
theorem fetchScalar_runs {s q : State} {sid : StrandId} {i : Instr} (h : fetchScalar s sid = .run q i) :
    i.isScalar = true ∧ ∃ e, q.env? sid = some e := by
  unfold fetchScalar at h
  split at h
  · cases h
  rename_i e he
  split at h
  · cases h
  split at h
  · cases h
  · cases h
  rename_i s1 bs hbytes
  split at h
  · rename_i p hdec
    cases h
    obtain ⟨-, hs, -⟩ := decodeScalarBytes_inv (rest := p.2) hdec
    have hsame := scalarBytes_onlyWatches s e
    rw [hbytes] at hsame
    obtain ⟨w, hw⟩ := hsame.env he
    exact ⟨hs, _, (env?_noteIssue ..).trans hw⟩
  · cases h

/-- A vector word that is run stands for an instruction of the vector stream, of a live split of a strand that stands. -/
theorem fetchVector_runs {s q : State} {sid : StrandId} {slot : Fin 2} {i : Instr} (h : fetchVector s sid slot = .run q i) :
    i.isVector = true ∧ ∃ e sp blk blks, q.env? sid = some e ∧ e.st.slots[slot] = some sp ∧ e.st.laneQ = blk :: blks := by
  unfold fetchVector at h
  split at h
  · cases h
  rename_i e he
  split at h
  · rename_i sp blk blks hsp hblk
    split at h
    · cases h
    dsimp only at h
    split at h
    · cases h
    · cases h
    rename_i s1 bs hbytes
    split at h
    · rename_i p hdec
      cases h
      obtain ⟨-, hv, -⟩ := decodeVectorBytes_inv (rest := p.2) hdec
      have hsame := fetchBytes_onlyWatches s e e.st.vectorWalkFaults (blk.entry + 12 * sp.pos) 12
      rw [hbytes] at hsame
      obtain ⟨w, hw⟩ := hsame.env he
      exact ⟨hv, _, sp, blk, blks, (env?_noteIssue ..).trans (env?_modStrand _ hw), hsp, hblk⟩
    · cases h
  · cases h

/-! ## Words -/

/-- A word of the scalar stream answers a next state where its strand stands (06 R158). -/
theorem exec_scalar_answers {s : State} {e : Env} {i : Instr} (h : i.isScalar = true) (hcur : s.cur = some (.scalar e.sid))
    (henv : s.env? e.sid = some e) : ∃ t, exec i s = .next t := by
  have hv := isVector_of_isScalar h
  cases execKind i with
  | @scalar g check body _ _ word =>
    rw [word.exec s]
    obtain ⟨c, -, hw⟩ | ⟨-, -, hw⟩ | ⟨-, -, hw⟩ := scalarWord_cases hcur henv g (scalarBytesOf i) check body <;> exact ⟨_, hw⟩
  | @badMajor w eq =>
    subst eq
    have hexec : exec (.unassignedMajor w) s = execUnassignedMajor w s := rfl
    rw [hexec]
    simp only [execUnassignedMajor, hcur, henv]
    exact ⟨_, rfl⟩
  | vector _ stream | control _ stream => rw [hv] at stream; cases stream
  | vtag eq | badOpcode eq => subst eq; cases hv
  | event _ event => rw [event.1] at h; cases h

section
variable {s : State} {op : Nat} {w : VWord} {c : VCtx} (hctx : s.vctx? op w = some c)
include hctx

theorem vectorWordIf_answers (check : VCtx → State → Bool) (body : VCtx → State → VEff) :
    ∃ t, vectorWordIf op w check body s = .next t := by
  obtain ⟨-, h⟩ | ⟨f, h, -⟩ | ⟨-, h⟩ | ⟨-, -, h⟩ | ⟨-, -, h⟩ := vectorWordIf_cases hctx check body <;> exact ⟨_, h⟩

theorem controlWord_answers (always : Bool) (body : VCtx → State → State) : ∃ t, controlWord op w always body s = .next t := by
  simp only [controlWord, hctx]
  split
  · exact ⟨_, rfl⟩
  split
  · exact ⟨_, rfl⟩
  split
  · exact ⟨_, rfl⟩
  split <;> exact ⟨_, rfl⟩

end

theorem execVtag_answers {s : State} {w : VWord} {c : VCtx} (hctx : s.vctx? 0x85 w = some c) : ∃ t, execVtag w s = .next t := by
  unfold execVtag
  split
  · exact ⟨_, rfl⟩
  · exact vectorWordIf_answers hctx _ _

/-- A word of the vector stream answers a next state where its split stands (06 R158, 08 R214). -/
theorem exec_vector_answers {s : State} {i : Instr} (h : i.isVector = true) {e : Env} {slot : Fin 2} {sp : Split} {blk : Block} {blks : List Block}
    (hcur : s.cur = some (.vector e.sid slot)) (henv : s.env? e.sid = some e) (hsp : e.st.slots[slot] = some sp)
    (hblk : e.st.laneQ = blk :: blks) : ∃ t, exec i s = .next t := by
  have hctx (op : Nat) (w : VWord) : s.vctx? op w = some ⟨e, slot, sp, blk, op, w⟩ := by
    simp only [State.vctx?, hcur, henv, hsp, hblk]
  cases execKind i with
  | @vector op w check body _ _ word =>
    rw [word]
    exact vectorWordIf_answers (hctx op w) check body
  | @control op w always body _ _ word =>
    rw [word]
    exact controlWord_answers (hctx op w) always body
  | @vtag w eq =>
    subst eq
    exact execVtag_answers (hctx _ w)
  | @badOpcode w eq =>
    subst eq
    have hexec : exec (.unassignedVectorOpcode w) s = execUnassignedVectorOpcode w s := rfl
    rw [hexec]
    simp only [execUnassignedVectorOpcode, hcur, henv, hsp, hblk]
    exact ⟨_, rfl⟩
  | scalar _ stream => rw [isVector_of_isScalar stream] at h; cases h
  | badMajor eq => subst eq; cases h
  | event _ event => rw [event.2] at h; cases h

/-! ## Turns and steps -/

/-- A turn answers, whichever it is, where it is no word posing as an event. -/
theorem turn_answers {x : Turn} (h : x.Proper) (s : State) : ∃ t, turn x s = .next t := by
  cases x with
  | event i => exact exec_event_answers (h i rfl) s
  | scalar sid =>
    simp only [turn]
    split
    · exact ⟨_, rfl⟩
    · rename_i q i hf
      obtain ⟨hi, e, he⟩ := fetchScalar_runs hf
      obtain ⟨rfl, -⟩ := State.env?_strand he
      exact exec_scalar_answers hi rfl he
  | vector sid slot =>
    simp only [turn]
    split
    · exact ⟨_, rfl⟩
    · rename_i q i hf
      obtain ⟨hi, e, sp, blk, blks, he, hsp, hblk⟩ := fetchVector_runs hf
      obtain ⟨rfl, -⟩ := State.env?_strand he
      exact exec_vector_answers hi rfl he hsp hblk

theorem afterwards_answers {o : Host.Outcome State Fault Refusal} (h : ∃ t, o = .next t) : ∃ t, afterwards o = .next t := by
  obtain ⟨t, rfl⟩ := h
  exact ⟨_, rfl⟩

/-- Settles O6: every turn answers, and the machine chooses no word as an event. -/
theorem stepAnswers : Obligations.StepAnswers := by
  intro s hagenda
  unfold step
  split
  · rename_i x rest hx
    refine afterwards_answers (turn_answers (fun i hi => ?_) _)
    subst hi
    exact hagenda i rest hx
  · split
    · exact afterwards_answers (turn_answers (choose_proper ‹_›) _)
    · exact afterwards_answers ⟨s, rfl⟩

end Sys2Proof.Machine
end

section
/-! The checks of a vector word in their order, what its operands read, and the tag of its result (06 R158, R163; 08 R214; 02 R48), settled. -/

namespace Sys2Proof.Machine
open Sys2Proof

/-- Whether the instructions of an opcode are vector words with no check of names of their own. -/
def IsVectorWord (x : Nat × (VWord → Instr)) : Prop :=
  ∃ body : VWord → VCtx → State → VEff, ∀ w s, exec (x.2 w) s = vectorWord x.1 w (body w) s

theorem vectorWords_isVectorWord : ∀ x ∈ vectorWords, IsVectorWord x := by
  simp only [vectorWords, List.forall_mem_cons, List.not_mem_nil, IsEmpty.forall_iff, implies_true, and_true]
  repeat' apply And.intro
  all_goals exact ⟨_, fun _ _ => rfl⟩

/-! ## What the word's checks answer -/

section
variable {s : State} {op : Nat} {w : VWord} {c : VCtx} {check : VCtx → State → Bool} {body : VCtx → State → VEff}

theorem vectorWordIf_restarts (h : s.vctx? op w = some c) (h1 : c.restarts = true) :
    vectorWordIf op w check body s = .next (c.dropChain s c.chain.first) := by
  simp only [vectorWordIf, h, h1, if_true]

theorem vectorWordIf_badChain (h : s.vctx? op w = some c) (h1 : c.restarts = false) (h2 : c.chainOk = false) :
    vectorWordIf op w check body s = .next (c.faults s { code := .illegalInstr }) := by
  simp only [vectorWordIf, h, h1, h2, Bool.false_eq_true, if_false, Bool.not_false, if_true]

theorem vectorWordIf_badNames (h : s.vctx? op w = some c) (h1 : c.restarts = false) (h2 : c.chainOk = true)
    (h3 : (c.namesOk && check c s) = false) : vectorWordIf op w check body s = .next (c.faults s { code := .illegalOperand }) := by
  simp only [vectorWordIf, h, h1, h2, h3, Bool.false_eq_true, if_false, Bool.not_true, Bool.not_false, if_true]

/-- The checks before the guard have passed. -/
structure NamesPass (s : State) (op : Nat) (w : VWord) (c : VCtx) (check : VCtx → State → Bool) : Prop where
  ctx : s.vctx? op w = some c
  whole : c.restarts = false
  chain : c.chainOk = true
  names : (c.namesOk && check c s) = true

theorem vectorWordIf_idle (h : NamesPass s op w c check) (h4 : c.activeMask = 0) :
    vectorWordIf op w check body s = .next (c.advance s (.u 0)) := by
  simp only [vectorWordIf, h.ctx, h.whole, h.chain, h.names, h4, Bool.false_eq_true, if_false, Bool.not_true, if_true]

theorem vectorWordIf_badTags (h : NamesPass s op w c check) (h4 : c.activeMask ≠ 0) (h5 : regTagsOk s c.e = false) :
    vectorWordIf op w check body s = .next (c.faults s { code := .world }) := by
  simp only [vectorWordIf, h.ctx, h.whole, h.chain, h.names, h4, h5, Bool.false_eq_true, if_false, Bool.not_true, Bool.not_false, if_true]

theorem vectorWordIf_waits (h : NamesPass s op w c check) (h4 : c.activeMask ≠ 0) (h5 : regTagsOk s c.e = true)
    (h6 : (c.outstanding || (c.lasting && !c.st.returns.isEmpty)) = true) :
    vectorWordIf op w check body s = .next (c.again s) := by
  simp only [vectorWordIf, h.ctx, h.whole, h.chain, h.names, h4, h5, h6, Bool.false_eq_true, if_false, Bool.not_true, if_true]

theorem vectorWordIf_readsBad (h : NamesPass s op w c check) (h4 : c.activeMask ≠ 0) (h5 : regTagsOk s c.e = true)
    (h6 : (c.outstanding || (c.lasting && !c.st.returns.isEmpty)) = false) (h7 : c.readsBad = true) :
    vectorWordIf op w check body s = .next (c.faults s (c.poisonOf c.regsRead)) := by
  simp only [vectorWordIf, h.ctx, h.whole, h.chain, h.names, h4, h5, h6, h7, Bool.false_eq_true, if_false, Bool.not_true, if_true]

/-- The word waits on returns (01 R38; 04 R113, R114). -/
theorem waits_iff : (c.outstanding || (c.lasting && !c.st.returns.isEmpty)) = true ↔
    c.outstanding = true ∨ (c.lasting = true ∧ c.st.returns ≠ []) := by
  simp only [Bool.or_eq_true, Bool.and_eq_true, Bool.not_eq_true', List.isEmpty_eq_false_iff]

/-- A fault is taken at once where no older load is out; else the word is executed again. -/
theorem faults_answers {i : Instr} {f : Flt} (h : exec i s = .next (c.faults s f)) :
    (c.olderLoads = [] → exec i s = .next (c.takeFault s f)) ∧
      (c.olderLoads ≠ [] → exec i s = .next (s.modStrand c.e.sid fun st => { st with vecSince := s.cycle, vecPromoted := false })) := by
  refine ⟨fun hl => ?_, fun hl => ?_⟩
  · rw [h, VCtx.faults, hl]; rfl
  · rw [h, VCtx.faults, List.isEmpty_eq_false_iff.mpr hl]; rfl

end

/-! ## The lanes of a mask -/

/-- The sum of the powers of two that a test selects has exactly the selected bits. -/
theorem foldl_pow_bits : ∀ {n : Nat} (f : Fin n → Bool), let m := (List.finRange n).foldl (fun m i => if f i then m + 2 ^ i.val else m) 0
    m < 2 ^ n ∧ ∀ i : Fin n, m.testBit i.val = f i
  | 0, _ => ⟨Nat.one_pos, fun i => i.elim0⟩
  | n + 1, f => by
    obtain ⟨hlt, hbit⟩ := foldl_pow_bits fun i : Fin n => f i.castSucc
    simp only [List.finRange_succ_last, List.foldl_append, List.foldl_map, List.foldl_cons, List.foldl_nil, Fin.val_castSucc, Fin.val_last]
    generalize (List.finRange n).foldl (fun m i => if f i.castSucc then m + 2 ^ i.val else m) 0 = m at hlt hbit ⊢
    have hor : m + 2 ^ n = 2 ^ n ||| m := by
      rw [Nat.add_comm, ← Nat.mul_one (2 ^ n), Nat.two_pow_add_eq_or_of_lt hlt]
    refine ⟨?_, fun i => ?_⟩
    · rw [Nat.pow_succ]; split <;> omega
    · induction i using Fin.lastCases with
      | last => cases f (Fin.last n) <;> simp [hor, Nat.testBit_lt_two_pow hlt, Nat.testBit_two_pow_self]
      | cast i => cases f (Fin.last n) <;> simp [hor, hbit, Nat.testBit_two_pow_of_ne (Nat.ne_of_gt i.isLt)]

theorem laneBit_maskOf (f : Lane → Bool) (l : Lane) : laneBit (maskOf f) l = f l := by
  rw [laneBit, maskOf, BitVec.getLsbD_ofNat, (foldl_pow_bits f).2 l, decide_eq_true l.isLt, Bool.true_and]

theorem laneBit_badLanes {c : VCtx} {regs : List Nat} {l : Lane} : laneBit (c.badLanes regs) l = true ↔
    c.lanesRead.getLsbD l.val = true ∧ ∃ p ∈ c.st.badRegs, p.1 ∈ regs ∧ p.2 = l.val := by
  simp only [VCtx.badLanes, laneBit_maskOf, Bool.and_eq_true, List.any_eq_true, List.contains_iff_mem, beq_iff_eq]

theorem readsBad_of_mem {c : VCtx} (h : ∃ p ∈ c.st.badRegs, p.1 ∈ c.regsRead ∧ c.lanesRead.getLsbD p.2 = true) : c.readsBad = true := by
  obtain ⟨p, hp, hr, hl⟩ := h
  have hlt : p.2 < 32 := BitVec.lt_of_getLsbD hl
  have hbit := (laneBit_badLanes (l := ⟨p.2, hlt⟩)).mpr ⟨hl, p, hp, hr, rfl⟩
  refine decide_eq_true fun h0 => ?_
  rw [h0] at hbit
  simp [laneBit] at hbit

/-! ## The split goes on -/

theorem vctx?_inv {s : State} {op : Nat} {w : VWord} {c : VCtx} (h : s.vctx? op w = some c) :
    s.env? c.e.sid = some c.e ∧ c.st.slots[c.slot] = some c.sp ∧ c.op = op ∧ c.w = w := by
  unfold State.vctx? at h
  split at h
  case h_1 sid slot _ =>
    cases he : s.env? sid with
    | none => simp [he] at h
    | some e =>
      simp only [he] at h
      split at h
      case h_1 sp blk _ hsp _ =>
        cases h
        rw [(State.env?_strand he).1]
        exact ⟨he, hsp, rfl, rfl⟩
      case h_2 => cases h
  case h_2 => cases h

theorem otherSlot_ne (i : Fin 2) : otherSlot i ≠ i := by
  revert i; decide

theorem modSplit_strand {s : State} {sid : StrandId} {st : Strand} (h : s.strands.get? sid = some st) (slot : Fin 2) (f : Split → Split) :
    (s.modSplit sid slot f).strands.get? sid = some { st with slots := st.slots.set slot (st.slots[slot].map f) } := by
  rw [State.modSplit, State.modStrand_strands, Assoc.get?_modify_same, h, Option.map_some]

/-- A split that goes on with one more latch, its strand otherwise unchanged. -/
theorem advance_answersV {s : State} {op : Nat} {w : VWord} {c : VCtx} {i : Instr} (h : s.vctx? op w = some c) (v : W32)
    (hex : exec i s = .next (c.advance s (.u v))) : AnswersV s i c (fun _ => v) fun st => { st with slots := c.st.slots } = c.st := by
  obtain ⟨henv, hsp, -, -⟩ := vctx?_inv h
  have hst : s.strands.get? c.e.sid = some c.st := (State.env?_strand henv).2.1
  refine ⟨_, _, hex, ⟨rfl, fun k hk => Assoc.get?_modify_other _ _ (Ne.symm hk)⟩, modSplit_strand hst _ _, ⟨?_, ?_⟩, rfl⟩
  · exact Vector.getElem_set_ne c.slot.isLt _ fun he => otherSlot_ne c.slot (Fin.ext he.symm)
  · rw [hsp]
    exact ⟨_, _, ⟨.u v, .u⟩, Vector.getElem_set_self c.slot.isLt, rfl, rfl, rfl, rfl, fun _ => rfl, rfl⟩

/-! ## Operands and tags -/

section
variable {s : State} {c : VCtx} {t : Ty} {l : Lane} {i : Fin 128}

theorem read_reg_narrow (h : t.wide = false) : c.read s t (.reg i) l = (c.st.vlane i.val l).toNat % 2 ^ t.bits := by
  rw [VCtx.read, h]; rfl

theorem read_reg_wide (h : t.wide = true) :
    c.read s t (.reg i) l = (c.st.vlane i.val l).toNat + 2 ^ 32 * (c.st.vlane (i.val + 1) l).toNat := by
  rw [VCtx.read, h]; rfl

theorem read_latch_narrow {r : Latch} (hr : c.chain.latches[i.val]? = some r) (h : t.wide = false) :
    c.read s t (.latch i) l = (r.reg.lane l).toNat % 2 ^ t.bits := by
  rw [VCtx.read, h, List.getD_eq_getElem?_getD, hr]; rfl

theorem read_param {j : Fin 8} (h : i.val = j.val) : c.read s t (.special i) l = (c.blk.ks[j]).toNat % 2 ^ t.bits := by
  simp [VCtx.read, VCtx.sysVal, h]

theorem read_special {v n : Nat} (h : 8 ≤ i.val) (hv : special s c.e i.val = some (v, n)) :
    c.read s t (.special i) l = v % 2 ^ 32 % 2 ^ t.bits := by
  simp only [VCtx.read, VCtx.sysVal, Nat.not_lt.mpr h, if_false, hv]

theorem read_imm_narrow (h : t ≠ .i64) : c.read s t .imm l = c.w.imm.toNat % 2 ^ t.bits := by
  cases t with
  | i64 => exact absurd rfl h
  | _ => rfl

theorem tagOf_reg_narrow (h : t.wide = false) : c.tagOf t (.reg i) = c.st.vtag i.val := by
  rw [VCtx.tagOf, h]; rfl

theorem tagOf_reg_wide (h : t.wide = true) :
    c.tagOf t (.reg i) = if c.st.vtag i.val = .u ∧ c.st.vtag (i.val + 1) = .u then .u else .g := by
  rw [VCtx.tagOf, h]; rfl

theorem tagOf_latch {r : Latch} (hr : c.chain.latches[i.val]? = some r) : c.tagOf t (.latch i) = r.tag := by
  rw [VCtx.tagOf, List.getD_eq_getElem?_getD, hr]; rfl

end

theorem all_uniform_iff {ts : List Tag} : ts.all (· == .u) = true ↔ ∀ x ∈ ts, x = .u := by
  simp only [List.all_eq_true, beq_iff_eq]

theorem laneOp_iff {op : Nat} :
    laneOp op = true ↔ op ∈ [0x60, 0x62, 0x64, 0x68, 0x6A, 0x65, 0x67, 0x70, 0x53, 0x50, 0x54, 0x91, 0x90, 0x95] :=
  List.contains_iff_mem

/-- The operations and sources whose result has a base and a stride (02 R48, second and third rows). -/
def AffineResult (op : Nat) (t : Ty) (ts : List Tag) : Prop :=
  (t = .i32 ∨ t = .w32) ∧ ((op = 0x01 ∨ op = 0x02) ∧ (∃ x y, ts = [x, y] ∧ x ≠ .g ∧ y ≠ .g) ∨
    op = 0x0D ∧ ts = [.a, .u] ∨ op = 0x03 ∧ (ts = [.a, .u] ∨ ts = [.u, .a]))

section
variable {op : Nat} {t : Ty} {ts : List Tag}

theorem resultTag_laneOp (h : laneOp op = true) : resultTag op t ts = .g := if_pos h

theorem resultTag_uniform (h : laneOp op = false) (hu : ∀ x ∈ ts, x = .u) : resultTag op t ts = .u := by
  simp only [resultTag, h, all_uniform_iff.mpr hu, Bool.false_eq_true, if_false, if_true]

theorem resultTag_affine (hu : ¬ ∀ x ∈ ts, x = .u) (ha : AffineResult op t ts) : resultTag op t ts = .a := by
  have hall : ts.all (· == .u) = false := Bool.eq_false_iff.mpr fun h => hu (all_uniform_iff.mp h)
  obtain ⟨hty, ⟨hop, x, y, rfl, hx, hy⟩ | ⟨rfl, rfl⟩ | ⟨rfl, rfl | rfl⟩⟩ := ha
  · rcases hop with rfl | rfl <;> simp [resultTag, laneOp, hall, hty, hx, hy]
  · simp [resultTag, laneOp, hty]
  · simp [resultTag, laneOp, hty]
  · simp [resultTag, laneOp, hty]

theorem resultTag_general (hu : ¬ ∀ x ∈ ts, x = .u) (ha : ¬ AffineResult op t ts) : resultTag op t ts = .g := by
  have hall : ts.all (· == .u) = false := Bool.eq_false_iff.mpr fun h => hu (all_uniform_iff.mp h)
  simp only [resultTag, hall, Bool.false_eq_true, if_false]
  split
  · rfl
  split
  · rename_i hty
    split
    case h_1 x y _ => exact if_neg fun h => ha ⟨hty, .inl ⟨.inl rfl, x, y, rfl, h⟩⟩
    case h_2 x y _ => exact if_neg fun h => ha ⟨hty, .inl ⟨.inr rfl, x, y, rfl, h⟩⟩
    case h_3 => exact absurd ⟨hty, .inr (.inl ⟨rfl, rfl⟩)⟩ ha
    case h_4 => exact absurd ⟨hty, .inr (.inr ⟨rfl, .inl rfl⟩)⟩ ha
    case h_5 => exact absurd ⟨hty, .inr (.inr ⟨rfl, .inr rfl⟩)⟩ ha
    case h_6 => rfl
  · rfl

end

/-! ## The obligation -/

/-- Settles O43: every word of the table is one vector word, whose checks stand in the order of its branches; operands and tags by their
classes. -/
theorem vectorWordChecks : Obligations.VectorWordChecks := by
  unfold Obligations.VectorWordChecks
  refine ⟨fun x hx s w c hc => ?_, fun s c t l i => ?_, fun op t ts => ?_⟩
  · obtain ⟨body, hbody⟩ := vectorWords_isVectorWord x hx
    have hex : ∀ r, vectorWord x.1 w (body w) s = r → exec (x.2 w) s = r := fun r h => (hbody w s).trans h
    have named (h1 : c.restarts = false) (h2 : c.chainOk = true) (h3 : c.namesOk = true) : NamesPass s x.1 w c fun _ _ => true :=
      ⟨hc, h1, h2, by rw [h3]; rfl⟩
    refine ⟨fun h1 => hex _ (vectorWordIf_restarts hc h1), fun h1 h2 => faults_answers (hex _ (vectorWordIf_badChain hc h1 h2)),
      fun h1 h2 h3 => faults_answers (hex _ (vectorWordIf_badNames hc h1 h2 (by rw [h3]; rfl))),
      fun h1 h2 h3 h4 => advance_answersV hc 0 (hex _ (vectorWordIf_idle (named h1 h2 h3) h4)),
      fun h1 h2 h3 h4 h5 => faults_answers (hex _ (vectorWordIf_badTags (named h1 h2 h3) h4 h5)),
      fun h1 h2 h3 h4 h5 => ⟨fun h6 => hex _ (vectorWordIf_waits (named h1 h2 h3) h4 h5 (waits_iff.mpr h6)), fun h6 h7 => ?_⟩⟩
    have hready := Bool.eq_false_iff.mpr fun h => h6 (waits_iff.mp h)
    exact ⟨_, faults_answers (hex _ (vectorWordIf_readsBad (named h1 h2 h3) h4 h5 hready (readsBad_of_mem h7))), fun l => laneBit_badLanes⟩
  · exact ⟨read_reg_narrow, read_reg_wide, fun _ hr h => read_latch_narrow hr h, fun _ => read_param, fun _ _ => read_special, rfl,
      read_imm_narrow, tagOf_reg_narrow, fun h h0 h1 => (tagOf_reg_wide h).trans (if_pos ⟨h0, h1⟩),
      fun h hn => (tagOf_reg_wide h).trans (if_neg hn), fun _ => tagOf_latch, rfl, rfl⟩
  · intro differs affine
    exact ⟨fun h => resultTag_laneOp (laneOp_iff.mpr h),
      fun h hu => resultTag_uniform (Bool.eq_false_iff.mpr fun hl => h (laneOp_iff.mp hl)) hu,
      resultTag_affine, fun _ hu ha => resultTag_general hu ha⟩

end Sys2Proof.Machine
end

section
/-! The functions of majors 0x01 to 0x0A (07 R182 to R185) as the operations on bit vectors that the rules name. -/

namespace Sys2Proof.Machine
open Sys2Proof

theorem low32_extract (x : W64) : x.extractLsb' 0 32 = low32 x := by
  apply BitVec.eq_of_toNat_eq; simp [low32]

/-- The upper half of a signed product is the product divided by 2^w, rounded down. -/
theorem extract_upper_mul {w : Nat} (x y : BitVec w) :
    ((x.signExtend (w + w)) * (y.signExtend (w + w))).extractLsb' w w = BitVec.ofInt w (x.toInt * y.toInt / 2 ^ w) := by
  have hs (z : BitVec w) : z.signExtend (w + w) = BitVec.ofInt (w + w) z.toInt := by
    rw [← BitVec.toInt_signExtend_of_le (Nat.le_add_left w w), BitVec.ofInt_toInt]
  rw [hs, hs, ← BitVec.ofInt_mul]
  generalize x.toInt * y.toInt = p
  obtain ⟨k, hp⟩ : ∃ k : Int, p = (BitVec.ofInt (w + w) p).toNat + 2 ^ w * (2 ^ w * k) := by
    refine ⟨p / 2 ^ (w + w), ?_⟩
    rw [BitVec.toNat_ofInt, Int.toNat_of_nonneg (Int.emod_nonneg _ (by positivity)), ← mul_assoc, ← pow_add]
    push_cast
    rw [Int.emod_add_mul_ediv]
  generalize BitVec.ofInt (w + w) p = P at hp
  have h0 : (2 : Int) ^ w ≠ 0 := by positivity
  apply BitVec.eq_of_toNat_eq
  rw [hp, Int.add_mul_ediv_left _ _ h0, BitVec.toNat_ofInt, BitVec.extractLsb'_toNat, Nat.shiftRight_eq_div_pow]
  push_cast
  rw [Int.add_mul_emod_self_left]
  norm_cast

theorem mulHigh_eq (x y : W64) : mulHigh x y = (x.signExtend 128 * y.signExtend 128).extractLsb' 64 64 :=
  (extract_upper_mul x y).symm

theorem mulHighW_eq (x y : W64) :
    mulHighW x y = (((low32 x).signExtend 64 * (low32 y).signExtend 64).extractLsb' 32 32).signExtend 64 := by
  rw [mulHighW, sext32, ← extract_upper_mul]

theorem shiftAmount_extract (y : W64) : (y.extractLsb' 0 6).toNat = shiftAmount y := by
  simp [shiftAmount]

theorem ofInt_tdiv (x y : W32) : BitVec.ofInt 32 (x.toInt.tdiv y.toInt) = x.sdiv y := by
  apply BitVec.eq_of_toInt_eq
  rw [BitVec.toInt_sdiv, BitVec.toInt_ofInt]

theorem ofInt_tmod (x y : W32) : BitVec.ofInt 32 (x.toInt.tmod y.toInt) = x - y * x.sdiv y := by
  have h : x.toInt.tmod y.toInt = x.toInt - y.toInt * x.toInt.tdiv y.toInt := by
    have := Int.mul_tdiv_add_tmod x.toInt y.toInt; omega
  rw [h, sub_eq_add_neg, BitVec.ofInt_add, BitVec.ofInt_neg, ← BitVec.sub_eq_add_neg, BitVec.ofInt_mul, ofInt_tdiv, BitVec.ofInt_toInt, BitVec.ofInt_toInt]

theorem divW_eq {x y : W64} (h : low32 y ≠ 0) : divW x y = ((low32 x).sdiv (low32 y)).signExtend 64 := by
  rw [divW, if_neg h, ofInt_tdiv, sext32]

theorem remW_eq {x y : W64} (h : low32 y ≠ 0) :
    remW x y = (low32 x - low32 y * (low32 x).sdiv (low32 y)).signExtend 64 := by
  rw [remW, if_neg h, ofInt_tmod, sext32]

theorem min_slt (x y : W64) : (if x.toInt ≤ y.toInt then x else y) = if x.slt y then x else y := by
  simp only [BitVec.slt_iff_toInt_lt]
  split <;> split
  · rfl
  · exact BitVec.eq_of_toInt_eq (by omega)
  · omega
  · rfl

theorem max_slt (x y : W64) : (if x.toInt ≤ y.toInt then y else x) = if x.slt y then y else x := by
  simp only [BitVec.slt_iff_toInt_lt]
  split <;> split
  · rfl
  · exact BitVec.eq_of_toInt_eq (by omega)
  · omega
  · rfl

theorem minU32_eq (x y : W64) : minU32 x y = (if low32 x < low32 y then low32 x else low32 y).signExtend 64 := by
  rw [minU32, sext32]
  congr 1
  simp only [BitVec.lt_def]
  split <;> split
  · rfl
  · exact BitVec.eq_of_toNat_eq (by omega)
  · omega
  · rfl

theorem maxU32_eq (x y : W64) : maxU32 x y = (if low32 x < low32 y then low32 y else low32 x).signExtend 64 := by
  rw [maxU32, sext32]
  congr 1
  simp only [BitVec.lt_def]
  split <;> split
  · rfl
  · exact BitVec.eq_of_toNat_eq (by omega)
  · omega
  · rfl

/-- The number of leading zeros is the place of the first one bit, counted from the top. -/
theorem clzNat_spec (x : W64) : clzNat 64 x.toNat ≤ 64 ∧ (∀ i, i < clzNat 64 x.toNat → x.getMsbD i = false) ∧
    (clzNat 64 x.toNat < 64 → x.getMsbD (clzNat 64 x.toNat) = true) := by
  have hlt := x.isLt
  rw [clzNat, Nat.mod_eq_of_lt hlt]
  split
  · rename_i h0
    have hx : x = 0 := BitVec.eq_of_toNat_eq h0
    exact ⟨le_refl _, fun i _ => by simp [hx], fun h => absurd h (lt_irrefl _)⟩
  · rename_i h0
    have hlog : x.toNat.log2 < 64 := (Nat.log2_lt h0).2 hlt
    refine ⟨by omega, fun i hi => ?_, fun _ => ?_⟩
    · rw [BitVec.getMsbD_eq_getLsbD, BitVec.getLsbD, Nat.testBit_lt_two_pow, Bool.and_false]
      exact (Nat.log2_lt h0).1 (by omega)
    · rw [BitVec.getMsbD_eq_getLsbD, BitVec.getLsbD, show 64 - 1 - (64 - 1 - x.toNat.log2) = x.toNat.log2 by omega,
        Nat.testBit_log2 h0]
      simp; omega

theorem popcNat_eq (x : W64) : popcNat 64 x.toNat = ((List.finRange 64).filter fun i => x.getLsbD i.val).length := by
  rw [popcNat, ← List.map_coe_finRange_eq_range, List.countP_map, ← List.countP_eq_length_filter]
  exact List.countP_congr fun i _ => by simp [bitOf_eq_testBit, BitVec.getLsbD]

theorem join64_toNat (x : W64) (lit : W32) : join64 (low32 x) lit = BitVec.ofNat 64 (lit.toNat * 2 ^ 32 + x.toNat % 2 ^ 32) := by
  apply BitVec.eq_of_toNat_eq
  have := lit.isLt
  have hlo : (low32 x).toNat = x.toNat % 2 ^ 32 := by simp [low32]
  rw [join64, BitVec.toNat_append, ← Nat.shiftLeft_add_eq_or_of_lt (low32 x).isLt, Nat.shiftLeft_eq, hlo, BitVec.toNat_ofNat]
  omega

end Sys2Proof.Machine
end

section
/-! The words of majors 0x01 to 0x0C: one equation per shape of word, and R182 to R187 from them. -/

namespace Sys2Proof.Machine
open Sys2Proof

section
variable {s : State} {e : Env} {g : Guard} (hi : Issues s e g)
include hi

theorem aluWord_next (d a b : SReg) (f : W64 → W64 → W64) {r : W64} (h : f (e.st.rd a) (e.st.rd b) = r) :
    aluWord g d a b f s = .next (s.after e (e.st.pc + 4) fun st => st.wr d r) :=
  h ▸ setsReg_next hi 4 noCheck rfl d _

theorem unaryWord_next (d a : SReg) (f : W64 → W64) {r : W64} (h : f (e.st.rd a) = r) :
    unaryWord g d a f s = .next (s.after e (e.st.pc + 4) fun st => st.wr d r) :=
  h ▸ setsReg_next hi 4 noCheck rfl d _

theorem literalWord_next (d : SReg) (f : W64 → W64) :
    literalWord g d f s = .next (s.after e (e.st.pc + 8) fun st => st.wr d (f (e.st.rd d))) :=
  setsReg_next hi 8 noCheck rfl d _

theorem predWord_next (d : PReg) (f : Strand → Bool) :
    predWord g d f s = .next (s.after e (e.st.pc + 4) fun st => st.wrP d (f e.st)) := by
  rw [predWord, scalarWord_runs hi 4 noCheck _ rfl, finish_done]

theorem execSsel_next (d a b : SReg) :
    execSsel g d a b s = .next (s.after e (e.st.pc + 4) fun st => st.wr d (if e.st.rd d ≠ 0 then e.st.rd a else e.st.rd b)) :=
  setsReg_next hi 4 noCheck rfl d _

end

theorem decodeScalar_error {w w2 : Nat} {x : DecodeErr} (h : decodeMajor (guardOf w) w w2 = some (.error x)) :
    decodeScalar w w2 = .error x := by
  rw [decodeScalar, h]

/-- A function code without a word, or an operand field that its word does not name. -/
theorem alu_refuses (g : Guard) (d a b : SReg) {f : Nat} (h : 20 ≤ f ∨ (18 ≤ f ∧ b ≠ 0)) : ∃ x, alu g f d a b = .error x := by
  obtain h | ⟨hf, hb⟩ := h
  · obtain ⟨n, rfl⟩ := Nat.exists_eq_add_of_le' h
    exact ⟨_, rfl⟩
  · obtain rfl | rfl | h : f = 18 ∨ f = 19 ∨ 20 ≤ f := by omega
    · exact ⟨.unusedField, by simp [alu, need, hb]⟩
    · exact ⟨.unusedField, by simp [alu, need, hb]⟩
    · obtain ⟨n, rfl⟩ := Nat.exists_eq_add_of_le' h
      exact ⟨_, rfl⟩

theorem decodeMajor_sr1 (g : Guard) (x y z : Fin 32) {f : Nat} (hf : f < 2 ^ 7) (w2 : Nat) :
    decodeMajor g (encSR g 1 x y z f) w2 = some (alu g f x y z) := by
  simp only [decodeMajor, sr_major g 1 x y z f (by decide) hf, sr_x _ _ _ _ _ _ hf, sr_y _ _ _ _ _ _ hf,
    sr_z _ _ _ _ _ _ hf, sr_fld g 1 x y z f 0 7 (by decide)]
  rw [fld, pow_zero, Nat.div_one, Nat.mod_eq_of_lt hf]

theorem guardOf_encSR (g : Guard) {M : Nat} (hM : M < 64) (x y z : Fin 32) {f : Nat} (hf : f < 2 ^ 7) :
    guardOf (encSR g M x y z f) = g := by
  rw [encSR_sum]; exact guardOf_word g M _ hM (sr_lt x y z f hf)

theorem guardOf_encSI (g : Guard) {M : Nat} (hM : M < 64) (x y : Fin 32) {f : Nat} (hf : f < 2 ^ 12) :
    guardOf (encSI g M x y f) = g := by
  rw [encSI_sum]; exact guardOf_word g M _ hM (si_lt x y f hf)

/-- A shift by an amount of more than six bits. -/
theorem decodeMajor_shift (g : Guard) (d a : Fin 32) {m imm : Nat} (hm : m ∈ [6, 7, 8]) (hi : imm < 2 ^ 12) (h : 64 ≤ imm)
    (w2 : Nat) : decodeMajor g (encSI g m d a imm) w2 = some (.error .unusedField) := by
  have hf : fld (encSI g m d a imm) 6 6 ≠ 0 := by
    rw [si_fld _ _ _ _ _ _ _ (by decide), fld]; omega
  simp only [List.mem_cons, List.not_mem_nil, or_false] at hm
  obtain rfl | rfl | rfl := hm <;> simp [decodeMajor, si_major _ _ _ _ _ _ hi, need, hf]

/-- Settles O8: every row of R182 is the one equation of a three-register word, with its function as the rule writes it. -/
theorem scalarArithmeticResults : Obligations.ScalarArithmeticResults := by
  unfold Obligations.ScalarArithmeticResults
  refine ⟨fun s e g d a b hi => ?_, fun g d a b f _ hf h => ?_, fun s e g a b hi => ?_⟩
  · have bin (f : W64 → W64 → W64) {r : W64} (h : f (e.st.rd a) (e.st.rd b) = r) := aluWord_next hi d a b f h
    have un (f : W64 → W64) {r : W64} (h : f (e.st.rd a) = r) := unaryWord_next hi d a f h
    simp only [low32_extract, BitVec.shiftLeft_eq', BitVec.ushiftRight_eq', BitVec.sshiftRight', shiftAmount_extract]
    obtain ⟨hle, hz, ho⟩ := clzNat_spec (e.st.rd a)
    exact ⟨bin (· + ·) rfl, bin (· - ·) rfl, bin (· * ·) rfl, bin mulHigh (mulHigh_eq _ _), bin mulHighW (mulHighW_eq _ _),
      fun h => ⟨bin divW (divW_eq h), bin remW (remW_eq h)⟩, bin (· &&& ·) rfl, bin (· ||| ·) rfl, bin (· ^^^ ·) rfl,
      bin (fun x y => x <<< shiftAmount y) rfl, bin (fun x y => x >>> shiftAmount y) rfl,
      bin (fun x y => x.sshiftRight (shiftAmount y)) rfl, bin (fun x y => if x.toInt ≤ y.toInt then x else y) (min_slt _ _),
      bin (fun x y => if x.toInt ≤ y.toInt then y else x) (max_slt _ _), bin minU32 (minU32_eq _ _),
      bin maxU32 (maxU32_eq _ _), execSsel_next hi d a b,
      ⟨_, hle, un (fun x => BitVec.ofNat 64 (clzNat 64 x.toNat)) rfl, hz, ho⟩,
      un (fun x => BitVec.ofNat 64 (popcNat 64 x.toNat)) (congrArg _ (popcNat_eq _))⟩
  · obtain ⟨x, hx⟩ := alu_refuses g d a b h
    exact ⟨x, decodeScalar_error (by rw [guardOf_encSR g (by decide) d a b hf, decodeMajor_sr1 g d a b hf, hx])⟩
  · refine ⟨_, execSsel_next hi 0 a b, fun st hst => ?_⟩
    rw [after_strand hi.env, Option.some.injEq] at hst
    simp [← hst]

end Sys2Proof.Machine
end

section
/-! The quotient and remainder of R183, the immediate words, the literals and the predicate words (07 R184, R185, R187). -/

namespace Sys2Proof.Machine
open Sys2Proof

theorem sext32_ofInt {q : Int} (hl : -2 ^ 31 ≤ q) (hu : q < 2 ^ 31) : sext32 (BitVec.ofInt 32 q) = BitVec.ofInt 64 q := by
  apply BitVec.eq_of_toInt_eq
  rw [sext32, BitVec.toInt_signExtend_of_le (by decide), BitVec.toInt_ofInt_eq_self (by decide) hl hu,
    BitVec.toInt_ofInt_eq_self (by decide) (by omega) (by omega)]

/-- The quotient of two signed words fits a signed word, but for the one overflow. -/
theorem tdiv_range {x y : Int} (hl : -2 ^ 31 ≤ x) (hu : x < 2 ^ 31) (h : ¬ (x = -2 ^ 31 ∧ y = -1)) :
    -2 ^ 31 ≤ x.tdiv y ∧ x.tdiv y < 2 ^ 31 := by
  by_cases h1 : y = -1
  · subst h1
    rw [Int.tdiv_neg, Int.tdiv_one]
    omega
  by_cases h2 : y = 1
  · subst h2; rw [Int.tdiv_one]; omega
  by_cases h3 : y = 0
  · subst h3; simp
  have hq : (x.tdiv y).natAbs ≤ 2 ^ 31 / 2 := by
    rw [Int.natAbs_tdiv]
    exact (Nat.div_le_div_right (by omega)).trans (Nat.div_le_div_left (by omega) (by decide))
  omega

theorem divW_zero {x y : W64} (h : low32 y = 0) : divW x y = -1 := by rw [divW, if_pos h]; rfl
theorem remW_zero {x y : W64} (h : low32 y = 0) : remW x y = sext32 (low32 x) := by rw [remW, if_pos h]

theorem divW_overflow {x y : W64} (hx : low32 x = 0x80000000#32) (hy : low32 y = -1) : divW x y = 0xFFFFFFFF80000000#64 := by
  rw [divW, hx, hy]; rfl
theorem remW_overflow {x y : W64} (hx : low32 x = 0x80000000#32) (hy : low32 y = -1) : remW x y = 0 := by
  rw [remW, hx, hy]; rfl

/-- Away from the corners the words hold the exact quotient, rounded toward zero, and its remainder. -/
theorem divW_remW_exact {x y : W64} (hy : low32 y ≠ 0) (h : ¬ (low32 x = 0x80000000#32 ∧ low32 y = -1)) :
    divW x y = BitVec.ofInt 64 ((low32 x).toInt.tdiv (low32 y).toInt) ∧
      remW x y = BitVec.ofInt 64 ((low32 x).toInt.tmod (low32 y).toInt) := by
  have hl := BitVec.le_toInt (low32 x)
  have hu := BitVec.toInt_lt (x := low32 x)
  have hl' := BitVec.le_toInt (low32 y)
  have hu' := BitVec.toInt_lt (x := low32 y)
  have hy0 : (low32 y).toInt ≠ 0 := fun h0 => hy (BitVec.eq_of_toInt_eq h0)
  have hc : ¬ ((low32 x).toInt = -2 ^ 31 ∧ (low32 y).toInt = -1) :=
    fun ⟨h1, h2⟩ => h ⟨BitVec.eq_of_toInt_eq h1, BitVec.eq_of_toInt_eq h2⟩
  obtain ⟨q1, q2⟩ := tdiv_range hl hu hc
  have hr : ((low32 x).toInt.tmod (low32 y).toInt).natAbs < 2 ^ 31 := by
    rw [Int.natAbs_tmod]
    have := Nat.mod_lt (low32 x).toInt.natAbs (Int.natAbs_pos.2 hy0)
    omega
  exact ⟨by rw [divW, if_neg hy, sext32_ofInt q1 q2], by rw [remW, if_neg hy, sext32_ofInt (by omega) (by omega)]⟩

theorem tmod_sign (x y : Int) : x.tmod y = 0 ∨ (x.tmod y).sign = x.sign := by
  by_cases h : x.tmod y = 0
  · exact .inl h
  · refine .inr ?_
    rcases lt_trichotomy x 0 with hx | rfl | hx
    · have := Int.tmod_nonneg (a := -x) y (by omega)
      rw [Int.neg_tmod] at this
      rw [Int.sign_eq_neg_one_of_neg hx, Int.sign_eq_neg_one_of_neg (by omega)]
    · exact absurd (Int.zero_tmod y) h
    · have := Int.tmod_nonneg (a := x) y (by omega)
      rw [Int.sign_eq_one_of_pos hx, Int.sign_eq_one_of_pos (by omega)]

/-- Settles O9: the corners by computing, the rest by the division with remainder that truncates toward zero. -/
theorem scalarDivisionCorners : Obligations.ScalarDivisionCorners := by
  unfold Obligations.ScalarDivisionCorners
  refine ⟨fun s e g d a b hi => ?_, by decide, by decide⟩
  have div {r : W64} (h : divW (e.st.rd a) (e.st.rd b) = r) := aluWord_next hi d a b divW h
  have rem {r : W64} (h : remW (e.st.rd a) (e.st.rd b) = r) := aluWord_next hi d a b remW h
  simp only [low32_extract]
  refine ⟨fun h => ⟨div (divW_zero h), rem (remW_zero h)⟩,
    fun ⟨hx, hy⟩ => ⟨div (divW_overflow hx hy), rem (remW_overflow hx hy)⟩, fun hy hc => ?_⟩
  obtain ⟨hd, hr⟩ := divW_remW_exact hy hc
  refine ⟨_, _, div hd, rem hr, (Int.mul_tdiv_add_tmod _ _).symm, ?_, tmod_sign _ _⟩
  rw [Int.natAbs_tmod]
  exact Nat.mod_lt _ (Int.natAbs_pos.2 fun h0 => hy (BitVec.eq_of_toInt_eq h0))

/-- Settles O10: each immediate word is a word of one source, whose function the rule gives. -/
theorem scalarImmediateResults : Obligations.ScalarImmediateResults := by
  unfold Obligations.ScalarImmediateResults
  refine ⟨fun s e g d a imm n hi => ?_, fun g d a m imm _ hm hlt h => ?_⟩
  · have un (f : W64 → W64) := unaryWord_next hi d a f rfl
    exact ⟨un (· + imm.signExtend 64), un (· &&& imm.signExtend 64), un (· ||| imm.signExtend 64),
      un (· ^^^ imm.signExtend 64), un (· <<< n.val), un (· >>> n.val), un (·.sshiftRight n.val)⟩
  · have hM : m < 64 := by
      simp only [List.mem_cons, List.not_mem_nil, or_false] at hm; omega
    exact decodeScalar_error (by rw [guardOf_encSI g hM d a hlt, decodeMajor_shift g d a hm hlt h])

/-- Settles O11: the two words of a literal, and the rule's examples decoded. -/
theorem scalarLiteralResults : Obligations.ScalarLiteralResults := by
  unfold Obligations.ScalarLiteralResults
  refine ⟨fun s e g d lit hi => ⟨literalWord_next hi d fun _ => sext32 lit, ?_⟩, rfl, rfl⟩
  rw [← join64_toNat]
  exact literalWord_next hi d fun x => join64 (low32 x) lit

/-- Settles O13: each predicate word by its one equation, and R41's fixed registers by the rules of reading after a write. -/
theorem predicateResults : Obligations.PredicateResults := by
  unfold Obligations.PredicateResults
  refine ⟨fun s e g d a b hi => ?_, fun st i j p q v b => ?_⟩
  · have word (f : Strand → Bool) := predWord_next hi d f
    exact ⟨word fun st => st.rdP a && st.rdP b, word fun st => st.rdP a || st.rdP b, word fun st => st.rdP a != st.rdP b,
      word fun st => !st.rdP a, word fun st => st.rdP a⟩
  · refine ⟨rfl, rfl, rfl, rfl, fun h => ?_, fun h => ?_, fun h => ?_, fun h => ?_⟩
    · rw [Strand.rd_wr, if_neg h, if_pos rfl]
    · rw [Strand.rd_wr, if_neg h, ite_self]
    · rw [Strand.rdP_wrP, if_neg h, if_pos rfl]
    · rw [Strand.rdP_wrP, if_neg h, ite_self]

end Sys2Proof.Machine
end

section
/-! What a register word leaves as it was, jumps, the end of a scalar stream, traps (07 R177, R180, R181, R192, R193, R210). -/

namespace Sys2Proof.Machine
open Sys2Proof

/-- How a register word is executed: it writes one scalar register, or one predicate. -/
inductive RegisterWord (i : Instr) : Prop
  | register {g len d f} (dest : destReg i = some d) (word : ∀ s, exec i s = scalarWord g len noCheck (setsReg d f) s)
  | predicate {g d f} (dest : destPred i = some d) (word : ∀ s, exec i s = predWord g d f s)

theorem registerWord_shape {i : Instr} (h : registerWord i = true) : RegisterWord i := by
  cases i with
  | sadd | ssub | smul | smulh | smulhw | sdivw | sremw | sand | sor | sxor | sshl | sshr | ssra | smin | smax | sminw | smaxw | ssel
    | sclz | spopc | saddi | sandi | sori | sxori | sshli | sshri | ssrai | sli | slih => exact .register rfl fun _ => rfl
  | ssetp _ _ a b c w => exact .predicate (f := fun st => scalarCond c w (st.rd a) (st.rd b)) rfl fun _ => rfl
  | spand _ _ a b => exact .predicate (f := fun st => st.rdP a && st.rdP b) rfl fun _ => rfl
  | spor _ _ a b => exact .predicate (f := fun st => st.rdP a || st.rdP b) rfl fun _ => rfl
  | spxor _ _ a b => exact .predicate (f := fun st => st.rdP a != st.rdP b) rfl fun _ => rfl
  | spnot _ _ a => exact .predicate (f := fun st => !st.rdP a) rfl fun _ => rfl
  | spmov _ _ a => exact .predicate (f := fun st => st.rdP a) rfl fun _ => rfl
  | _ => cases h

/-- The strand has its registers, its place and its readiness otherwise at most, and no register but those that `i` names. -/
structure OnlyRegisters (i : Instr) (st st' : Strand) : Prop where
  regs : ∀ j, destReg i ≠ some j → st'.rd j = st.rd j
  preds : ∀ j, destPred i ≠ some j → st'.rdP j = st.rdP j
  rest : { st with s := st'.s, p := st'.p, pc := st'.pc, wait := none, readySince := st'.readySince, promoted := false } = st'

theorem onlyRegisters_next (i : Instr) (st : Strand) (pc c : Nat) : OnlyRegisters i st (st.next pc c) :=
  ⟨fun _ _ => rfl, fun _ _ => rfl, rfl⟩

theorem onlyRegisters_wr {i : Instr} {d : SReg} (h : destReg i = some d) (st : Strand) (v : W64) (pc c : Nat) :
    OnlyRegisters i st ((st.wr d v).next pc c) := by
  refine ⟨fun j hj => ?_, fun j _ => ?_, ?_⟩
  · have : j ≠ d := fun hd => hj (hd ▸ h)
    rw [Strand.rd_next, Strand.rd_wr, if_neg this, ite_self]
  · simp [Strand.rdP]
  · unfold Strand.wr
    split <;> rfl

theorem onlyRegisters_wrP {i : Instr} {d : PReg} (h : destPred i = some d) (st : Strand) (b : Bool) (pc c : Nat) :
    OnlyRegisters i st ((st.wrP d b).next pc c) := by
  refine ⟨fun j _ => ?_, fun j hj => ?_, ?_⟩
  · simp [Strand.rd]
  · have : j ≠ d := fun hd => hj (hd ▸ h)
    rw [Strand.rdP_next, Strand.rdP_wrP, if_neg this, ite_self]
  · unfold Strand.wrP
    split <;> rfl

/-- A register word, whatever its guard, is a change of its own strand within its frame. -/
theorem registerWord_after {s : State} {e : Env} {i : Instr} (hcur : s.cur = some (.scalar e.sid)) (henv : s.env? e.sid = some e)
    (h : registerWord i = true) : ∃ pc f, exec i s = .next (s.after e pc f) ∧ OnlyRegisters i e.st ((f e.st).next pc s.cycle) := by
  cases registerWord_shape h with
  | @register g len d f dest word =>
    rw [word]
    obtain ⟨_, hc, _⟩ | ⟨-, -, hx⟩ | ⟨-, -, hx⟩ := scalarWord_cases hcur henv g len noCheck (setsReg d f)
    · cases hc
    · exact ⟨_, _, hx.trans (by rw [setsReg, finish_done]), onlyRegisters_wr dest _ _ _ _⟩
    · exact ⟨_, fun st => st, hx, onlyRegisters_next _ _ _ _⟩
  | @predicate g d f dest word =>
    rw [word, predWord]
    obtain ⟨_, hc, _⟩ | ⟨-, -, hx⟩ | ⟨-, -, hx⟩ := scalarWord_cases hcur henv g 4 noCheck
      (fun e s => .done (s.modStrand e.sid fun st => st.wrP d (f e.st)))
    · cases hc
    · exact ⟨_, _, hx.trans (by rw [finish_done]), onlyRegisters_wrP dest _ _ _ _⟩
    · exact ⟨_, fun st => st, hx, onlyRegisters_next _ _ _ _⟩

/-- Settles O15: a register word changes its own strand only, and in it only what the word's shape writes. -/
theorem scalarRegisterFrame : Obligations.ScalarRegisterFrame := by
  unfold Obligations.ScalarRegisterFrame
  intro s t e i hcur henv h ht
  obtain ⟨pc, f, hx, hregs, hpreds, hrest⟩ := registerWord_after hcur henv h
  obtain rfl : s.after e pc f = t := by simpa [hx] using ht
  exact ⟨after_onlyStrand s e pc f, after_sameBytes s e pc f, _, after_strand henv pc f, hregs, hpreds, hrest⟩

/-! ## Jumps -/

theorem branchTarget_eq (pc : Nat) (off : BitVec 22) :
    (BitVec.ofNat 64 pc + 4 * off.signExtend 64).toNat = branchTarget pc off := rfl

section
variable {s : State} {e : Env} {g : Guard} (hi : Issues s e g)

theorem done_stay (s : State) (e : Env) (len : Nat) : (Eff.done s).finish e len = s.after e (e.st.pc + len) fun st => st := rfl
theorem jump_stay (s : State) (e : Env) (len pc : Nat) : (Eff.jump s pc).finish e len = s.after e pc fun st => st := rfl

theorem jumpTo_word {t : W64} (h : t.toNat % 4 = 0) (len : Nat) :
    (jumpTo e s t none).finish e len = s.after e t.toNat (fun st => st) ∧
      ∀ d, (jumpTo e s t (some d)).finish e len = s.after e t.toNat fun st => st.wr d (BitVec.ofNat 64 (e.st.pc + 4)) := by
  refine ⟨?_, fun d => ?_⟩
  · simp [jumpTo, h, jump_stay]
  · simp [jumpTo, h, finish_jump]

/-- A target that is no word: ALIGN at the jump, whatever its link. -/
theorem jumpTo_misaligned {t : W64} (h : t.toNat % 4 ≠ 0) (link : Option SReg) (len : Nat) :
    (jumpTo e s t link).finish e len = faultScalar s e { code := .align, addr := t.toNat } := by
  simp only [jumpTo, ne_eq, h, not_false_eq_true, if_true]; rfl

/-- Settles O16: each word is a scalar word whose body ends in its jump. -/
theorem controlFlowTargets : Obligations.ControlFlowTargets := by
  unfold Obligations.ControlFlowTargets
  intro s e g d a off hi
  have word (body : Env → State → Eff) : scalarWord g 4 noCheck body s = .next ((body e s).finish e 4) :=
    scalarWord_runs hi 4 noCheck body rfl
  have reg (a : SReg) (link : Option SReg) := word fun e s => jumpTo e s (e.st.rd a) link
  refine ⟨word fun _ s => .done s, word fun _ s => .done s, word fun e s => .jump s (branchTarget e.st.pc off), ?_,
    fun h => ⟨(reg a none).trans ?_, (reg a (some d)).trans ?_⟩, fun h => (reg 31 none).trans ?_,
    fun h => ⟨(reg a none).trans ?_, (reg a (some d)).trans ?_⟩, fun h => (reg 31 none).trans ?_⟩
  · rw [branchTarget_eq, ← finish_jump s e 4]
    exact word fun e s => .jump (s.modStrand e.sid fun st => st.wr 31 (BitVec.ofNat 64 (e.st.pc + 4))) (branchTarget e.st.pc off)
  · rw [(jumpTo_word h 4).1]
  · rw [(jumpTo_word h 4).2]
  · rw [(jumpTo_word h 4).1]
  · rw [jumpTo_misaligned h]
  · rw [jumpTo_misaligned h]
  · rw [jumpTo_misaligned h]

end

end Sys2Proof.Machine
end

section
/-! The end of a scalar stream, the words that drive the vector stream, traps and special registers (07 R181, R195 to R197, R210, R211). -/

namespace Sys2Proof.Machine
open Sys2Proof

/-- The strand that a change of one strand leaves. -/
theorem State.modStrand_self {s : State} {sid : StrandId} {st : Strand} (h : s.strands.get? sid = some st) (f : Strand → Strand) :
    (s.modStrand sid f).strands.get? sid = some (f st) := by
  rw [State.modStrand_strands, Assoc.get?_modify_same, h]; rfl

/-! ## SEXIT -/

/-- What SEXIT makes of its strand at once. -/
def Strand.exit (st : Strand) : Strand := { st with ended := .exited, sexit := true, watch := none, tickets := [] }

/-- The machine after SEXIT: the strand has ended, it counts where nothing of it is left to be done, and the word is past. -/
def State.exited (s : State) (e : Env) : State :=
  (noteExit (s.modStrand e.sid Strand.exit) e.sid).modStrand e.sid fun st => st.next (e.st.pc + 4) s.cycle

theorem noteExit_cycle (s : State) (sid : StrandId) : (noteExit s sid).cycle = s.cycle := by
  unfold noteExit
  split
  · split <;> rfl
  · rfl

theorem exec_sexit {s : State} {e : Env} {g : Guard} (hi : Issues s e g) : exec (.sexit g) s = .next (s.exited e) := by
  show execSexit g s = _
  rw [execSexit, scalarWord_runs hi 4 noCheck _ rfl]
  simp only [Eff.finish, noteExit_cycle]
  rfl

theorem exited_strand {s : State} {e : Env} (h : s.env? e.sid = some e) :
    ∃ c, (s.exited e).strands.get? e.sid = some (({ e.st.exit with counted := c } : Strand).next (e.st.pc + 4) s.cycle) := by
  obtain ⟨c, hc⟩ := noteExit_strand (State.modStrand_self (State.env?_strand h).2.1 Strand.exit)
  exact ⟨c, State.modStrand_self hc _⟩

/-- A strand that has executed SEXIT with nothing of it left to be done counts in its workgroup at once. -/
theorem exited_counts {s : State} {e : Env} (h : s.env? e.sid = some e) (hq : e.st.laneQ = []) (hst : e.st.stores = [])
    (hc : e.st.counted = false) :
    (s.exited e).insts = s.insts.modify (unitOf e.sid.wg) fun x => { x with completed := x.completed + 1 } := by
  have h2 : e.st.exit.ended = .exited ∧ e.st.exit.laneQ = [] ∧ e.st.exit.stores = [] ∧ e.st.exit.counted = false :=
    ⟨rfl, hq, hst, hc⟩
  rw [State.exited, noteExit, State.modStrand_self (State.env?_strand h).2.1]
  simp only [h2, and_self, if_true]
  rfl

/-- Settles O17: the strand after SEXIT, and its workgroup's count. -/
theorem exitEndsScalarStream : Obligations.ExitEndsScalarStream := by
  unfold Obligations.ExitEndsScalarStream
  intro s e g hi _
  obtain ⟨c, hst⟩ := exited_strand hi.env
  refine ⟨_, _, exec_sexit hi, hst, rfl, rfl, fun b => ?_, rfl, rfl, rfl, rfl, rfl, rfl, rfl, fun e' he' => ?_, ?_,
    fun hq hs hc x hx => ?_⟩
  · rw [hasArrived, hst]; exact Bool.or_true _
  · have hend : e'.st.ended = .exited := by
      rw [Option.some.inj ((State.env?_strand he').2.1.symm.trans hst)]; rfl
    simp [scalarReady, hend]
  · simp [State.exited]
  · exact ⟨_, by rw [exited_counts hi.env hq hs hc, Assoc.get?_modify_same, hx]; rfl, rfl⟩

/-! ## The lane queue -/

/-- With a block queued and a lane left, the oldest block starts at word 0 over the lanes that are left. -/
theorem startBlock_starts {s : State} {sid : StrandId} {st : Strand} (h : s.strands.get? sid = some st) (hq : st.laneQ ≠ [])
    (hb : st.base ≠ 0) :
    startBlock s sid = s.modStrand sid fun st =>
      { st with started := true, slots := #v[some (Split.whole st.base s.ticks), none], waiting := [], joins := [],
                spilled := [], serialised := false, vecSince := s.cycle, vecPromoted := false } := by
  obtain ⟨b, l, hl⟩ := List.exists_cons_of_ne_nil hq
  simp only [startBlock, startBlockGo, h, hl, if_neg hb]

/-- Starting a block changes no scalar register, and memory and time stay. -/
theorem startBlockGo_keeps (sid : StrandId) (n : Nat) : ∀ {s : State} {st : Strand}, s.strands.get? sid = some st →
    (startBlockGo sid n s).mem = s.mem ∧ (startBlockGo sid n s).cycle = s.cycle ∧
      ∃ st', (startBlockGo sid n s).strands.get? sid = some st' ∧ st'.s = st.s := by
  induction n with
  | zero => exact fun h => ⟨rfl, rfl, _, h, rfl⟩
  | succ n ih =>
    intro s st h
    simp only [startBlockGo, h]
    split
    · exact ⟨rfl, rfl, _, h, rfl⟩
    · split
      · obtain ⟨hm, hc, st', hst, hs⟩ := ih (State.modStrand_self h _)
        exact ⟨hm, hc, st', hst, hs⟩
      · exact ⟨rfl, rfl, _, State.modStrand_self h _, rfl⟩

/-- The block that an SLQ names, with its snapshot (07 R195). -/
def Env.block (e : Env) (index : Nat) (f : SReg) (n : Nat) : Block := ⟨e.l.desc.vectorBase + 12 * index, snapshot e.st f n⟩

theorem block_ks (e : Env) (index : Nat) (f : SReg) (n : Nat) (j : Fin 8) :
    (e.block index f n).ks[j] = if j.val < n then low32 (e.st.rd (Fin.ofNat 32 (f.val + j.val))) else 0 := by
  simp [Env.block, snapshot]

/-- What stands in the strand once its block has joined the queue, before it moves on: the registers as they were, the block last
among others, and started at word 0 where it is the only one and a lane is left (01 R9). -/
structure Enqueued (e : Env) (blk : Block) (st : Strand) : Prop where
  regs : st.s = e.st.s
  joins : e.st.laneQ ≠ [] ∨ e.st.base ≠ 0 → st.laneQ = e.st.laneQ ++ [blk]
  starts : e.st.laneQ = [] → e.st.base ≠ 0 → st.started = true ∧
    ∃ sp, st.slots[0] = some sp ∧ sp.lanes = e.st.base ∧ sp.pos = 0 ∧ sp.chain = none

theorem enqueueBlock_keeps {s : State} {e : Env} (h : s.env? e.sid = some e) (index : Nat) (f : SReg) (n : Nat) :
    (enqueueBlock s e index f n).mem = s.mem ∧ (enqueueBlock s e index f n).cycle = s.cycle ∧
      ∃ st, (enqueueBlock s e index f n).strands.get? e.sid = some st ∧ Enqueued e (e.block index f n) st := by
  have hj := State.modStrand_self (State.env?_strand h).2.1 fun st => { st with laneQ := st.laneQ ++ [e.block index f n] }
  by_cases hq : e.st.laneQ = []
  · have hx : enqueueBlock s e index f n =
        startBlock (s.modStrand e.sid fun st => { st with laneQ := st.laneQ ++ [e.block index f n] }) e.sid := by
      simp [enqueueBlock, hq, Env.block]
    rw [hx]
    by_cases hb : e.st.base = 0
    · obtain ⟨hm, hc, st', hst, hs⟩ := startBlockGo_keeps e.sid 8 hj
      exact ⟨hm, hc, st', hst, hs, fun h => absurd h (by simp [hq, hb]), fun _ h => absurd hb h⟩
    · rw [startBlock_starts hj (by simp) hb]
      exact ⟨rfl, rfl, _, State.modStrand_self hj _, rfl, fun _ => rfl, fun _ _ => ⟨rfl, _, rfl, rfl, rfl, rfl⟩⟩
  · have hx : enqueueBlock s e index f n = s.modStrand e.sid fun st => { st with laneQ := st.laneQ ++ [e.block index f n] } := by
      simp [enqueueBlock, hq, Env.block]
    rw [hx]
    exact ⟨rfl, rfl, _, hj, rfl, fun _ => rfl, fun h => absurd h hq⟩

section
variable {s : State} {e : Env} (h : s.env? e.sid = some e) (index : Nat) (f : SReg) (n : Nat)
include h

theorem slqBody_room (hroom : e.st.laneQ.length < 8) : ((slqBody index f n e s).finish e 8).mem = s.mem ∧
    ∃ st, ((slqBody index f n e s).finish e 8).strands.get? e.sid = some (st.next (e.st.pc + 8) s.cycle) ∧
      Enqueued e (e.block index f n) st := by
  obtain ⟨hm, hc, st, hst, hq⟩ := enqueueBlock_keeps h index f n
  have hx : (slqBody index f n e s).finish e 8 =
      (enqueueBlock s e index f n).modStrand e.sid fun st => st.next (e.st.pc + 8) (enqueueBlock s e index f n).cycle := by
    rw [slqBody, if_pos (show e.st.laneQ.length < Config.laneQueueEntries from hroom)]; rfl
  rw [hx, hc]
  exact ⟨hm, st, State.modStrand_self hst _, hq⟩

omit h in
theorem slqBody_full (hfull : 8 ≤ e.st.laneQ.length) :
    (slqBody index f n e s).finish e 8 = s.waits e.sid (.slq index f n) := by
  rw [slqBody, if_neg (show ¬ e.st.laneQ.length < Config.laneQueueEntries from Nat.not_lt.2 hfull)]; rfl

end

/-- Settles O18: SLQ and SLWAIT are one body each, run at issue and again where the wait ends. -/
theorem laneQueueWords : Obligations.LaneQueueWords := by
  unfold Obligations.LaneQueueWords
  refine ⟨fun s e g index f c henv => ?_, fun s e g index f c hcur henv hrole => ?_, fun s e g d k q henv => ⟨fun hi => ?_, ?_, ?_⟩⟩
  · intro entered
    have room (hroom : e.st.laneQ.length < 8) : ((slqBody index.toNat f c.val e s).finish e 8).mem = s.mem ∧
        entered ((slqBody index.toNat f c.val e s).finish e 8) := by
      obtain ⟨hm, st, hst, hs, hjoin, hstart⟩ := slqBody_room henv index.toNat f c.val hroom
      exact ⟨hm, _, _, hst, rfl, hs, rfl, rfl, block_ks e _ f c.val, hjoin, hstart⟩
    have issue (hi : Issues s e g) (hrole : e.st.role = .vector) :
        exec (.slq g index f c) s = .next ((slqBody index.toNat f c.val e s).finish e 8) :=
      scalarWord_runs hi 8 (needRole .vector) _ (if_pos hrole)
    refine ⟨fun hi hrole hroom => ⟨_, issue hi hrole, room hroom⟩, fun hi hrole hfull => ?_, fun hr hw hroom => ⟨_, ?_, room hroom⟩⟩
    · rw [issue hi hrole, slqBody_full _ _ _ hfull]
    · exact congrArg _ (resumeWord_runs henv hr hw rfl)
  · exact scalarWord_refuses hcur henv g 8 (check := needRole .vector) _ (if_neg hrole)
  · have slwait : exec (.slwait g k) s = .next ((slwaitBody k.val e s).finish e 4) := scalarWord_runs hi 4 noCheck _ rfl
    refine ⟨setsReg_next hi 4 noCheck rfl d fun e _ => e.st.q[q], fun hk => ?_, fun hk => ?_⟩
    · rw [slwait, slwaitBody, if_pos hk, done_stay]
    · rw [slwait, slwaitBody, if_neg (Nat.not_le.2 hk), finish_wait]
  · intro hr hw hk
    exact congrArg _ ((resumeWord_runs henv hr hw rfl).trans (by rw [slwaitBody, if_pos hk, done_stay]))
  · intro hr hw hk
    exact congrArg _ ((resumeWord_runs henv hr hw rfl).trans (by rw [slwaitBody, if_neg (Nat.not_le.2 hk), finish_wait]))

/-! ## Traps -/

/-- What a halt for the debug module makes of a strand (19 R363). -/
def Strand.debugHalt (st : Strand) (pc : Nat) : Strand :=
  { st with scalarStop := some (.debugHalt pc), vectorStop := some (st.vectorStop.getD (.debugHalt pc)) }

theorem exec_sbrk {s : State} {e : Env} {g : Guard} {w : World} (hi : Issues s e g) (hw : s.worlds.get? e.world = some w) :
    exec (.sbrk g) s = .next (if (w.debugen && s.trust.debugOpen) = true then s.after e (e.st.pc + 4) fun st => st.debugHalt (e.st.pc + 4)
      else (trapBody 1 0 e s).finish e 4) := by
  show execSbrk g s = _
  rw [execSbrk, scalarWord_runs hi 4 noCheck _ rfl, hw]
  dsimp only
  split
  · rw [finish_done]; rfl
  · rfl

/-- Settles O19: both words are the fault of their kind and code, but for the debug module's halt. -/
theorem trapWordsTakeTraps : Obligations.TrapWordsTakeTraps := by
  unfold Obligations.TrapWordsTakeTraps
  intro s e g code w hi hw
  refine ⟨scalarWord_runs hi 4 noCheck (trapBody 0 code.toNat) rfl, fun h => ?_, fun h => ?_⟩
  · rw [exec_sbrk hi hw, if_neg (by simp [h])]; rfl
  · exact ⟨_, _, (exec_sbrk hi hw).trans (by rw [if_pos h]), after_onlyStrand s e _ _, after_strand hi.env _ _, rfl, rfl, rfl, rfl⟩

/-! ## Special registers -/

theorem ofNat_mod_setWidth (n v : Nat) : BitVec.ofNat 64 (v % 2 ^ n) = (BitVec.ofNat n v).setWidth 64 := by
  apply BitVec.eq_of_toNat_eq
  simp

section
variable {s : State} {e : Env} {g : Guard} {d : SReg} {i : Fin 128}

theorem exec_srds {v n : Nat} (hi : Issues s e g) (h : special s e i.val = some (v, n)) :
    exec (.srds g d i) s = .next (s.after e (e.st.pc + 4) fun st => st.wr d ((BitVec.ofNat n v).setWidth 64)) := by
  rw [← ofNat_mod_setWidth]
  show execSrds g d i s = _
  rw [execSrds, setsReg_next hi 4 _ (if_pos (by rw [h]; rfl)), h]

theorem special_reserved (s : State) (e : Env) {i : Nat} (h : i < 16 ∨ 32 ≤ i) : special s e i = none := by
  unfold special
  split
  case h_17 => rfl
  all_goals omega

theorem exec_srds_reserved (hcur : s.cur = some (.scalar e.sid)) (henv : s.env? e.sid = some e) (h : i.val < 16 ∨ 32 ≤ i.val) :
    exec (.srds g d i) s = .next (raiseScalar s e { code := .illegalOperand }) := by
  show execSrds g d i s = _
  exact scalarWord_refuses hcur henv g 4 _ (if_neg (by rw [special_reserved s e h]; decide))

end

theorem decodeMajor_srds (g : Guard) (d a : Fin 32) {imm : Nat} (hi : imm < 2 ^ 12) (h : a ≠ 0 ∨ 128 ≤ imm) (w2 : Nat) :
    decodeMajor g (encSI g 0x30 d a imm) w2 = some (.error .unusedField) := by
  have hf : ¬ (a = 0 ∧ fld (encSI g 0x30 d a imm) 7 5 = 0) := by
    rw [si_fld _ _ _ _ _ _ _ (by decide), fld]; omega
  simpa [decodeMajor, si_major _ _ _ _ _ _ hi, si_y _ _ _ _ _ hi, need] using hf

/-- Settles O33: a readable register is a row of R46's table, and every other index has none. -/
theorem specialRegisterReads : Obligations.SpecialRegisterReads := by
  unfold Obligations.SpecialRegisterReads
  refine ⟨fun s e g d hi => ?_, fun s e g d i hcur henv h => ?_, fun g d a imm _ hlt h => ?_⟩
  · have word {i : Fin 128} {v n : Nat} (h : special s e i.val = some (v, n)) := exec_srds (d := d) hi h
    refine ⟨word rfl, word rfl, word rfl, word rfl, word rfl,
      word rfl, word rfl, word rfl, word rfl, word rfl,
      word rfl, word rfl, fun c hc => word ?_, word rfl,
      fun h => word ?_, fun h => word ?_, word rfl⟩
    · simp [special, hc]
    · simp [special, Env.core, h]
    · simp [special, Env.core, h]
  · exact exec_srds_reserved hcur henv h
  · exact decodeScalar_error (by rw [guardOf_encSI g (by decide) d a hlt, decodeMajor_srds g d a hlt h])

end Sys2Proof.Machine
end

section
/-! Comparison (07 R186, 06 R161): integers by their bit vectors, numbers of FP32 by their place under their sign. -/

namespace Sys2Proof.Machine
open Sys2Proof

/-! ## Integers -/

theorem signedOf_toNat {n : Nat} (hn : 0 < n) (x : BitVec n) : signedOf n x.toNat = x.toInt := by
  have h2 : 2 ^ n = 2 * 2 ^ (n - 1) := by rw [← pow_succ', Nat.sub_add_cancel hn]
  rw [signedOf, Nat.mod_eq_of_lt x.isLt, BitVec.toInt_eq_toNat_cond]
  split <;> split
  · omega
  · rfl
  · rfl
  · omega

/-- The ten conditions on integers are the comparisons of bit vectors. -/
structure IntConds (holds : Cond → Bool) {n : Nat} (x y : BitVec n) : Prop where
  eq : holds .eq = (x == y)
  ne : holds .ne = (x != y)
  lt : holds .lt = x.slt y
  le : holds .le = x.sle y
  gt : holds .gt = y.slt x
  ge : holds .ge = y.sle x
  lo : holds .lo = x.ult y
  ls : holds .ls = x.ule y
  hi : holds .hi = y.ult x
  hs : holds .hs = y.ule x

theorem intCond_intConds {n : Nat} (hn : 0 < n) (x y : BitVec n) : IntConds (intCond · n x.toNat y.toNat) x y := by
  have hx := Nat.mod_eq_of_lt x.isLt
  have hy := Nat.mod_eq_of_lt y.isLt
  have he : decide (x.toNat = y.toNat) = (x == y) := by
    rw [Bool.eq_iff_iff, decide_eq_true_iff, beq_iff_eq, BitVec.toNat_inj]
  constructor <;> simp only [intCond, signedOf_toNat hn, hx, hy, BitVec.slt, BitVec.sle, BitVec.ult, BitVec.ule, he]
  rw [decide_not, he]; rfl

theorem intCond_mod (c : Cond) (n x y : Nat) : intCond c n (x % 2 ^ n) (y % 2 ^ n) = intCond c n x y := by
  have hs (v : Nat) : signedOf n (v % 2 ^ n) = signedOf n v := by rw [signedOf, signedOf, Nat.mod_mod]
  unfold intCond
  rw [hs, hs, Nat.mod_mod, Nat.mod_mod]

/-- In width i32 the low words are compared. -/
theorem scalarCond_i32 (c : Cond) (x y : W64) : scalarCond c .i32 x y = intCond c 32 (low32 x).toNat (low32 y).toNat := by
  rw [scalarCond, ← intCond_mod, low32, low32, BitVec.toNat_setWidth, BitVec.toNat_setWidth]

/-! ## Numbers of FP32 -/

/-- The magnitude bits of FP32's infinity; those above are a NaN's. -/
def infBits : Nat := 2 ^ 23 * 255

theorem decodeF_inf (neg : Bool) : decodeF .f32 (infBits + FFmt.f32.signBit neg) = .inf neg := by cases neg <;> rfl

theorem decodeF_nan (neg : Bool) {p : Nat} (h : infBits < p) (hp : p < 2 ^ 31) : decodeF .f32 (p + FFmt.f32.signBit neg) = .nan := by
  obtain ⟨-, he, hm⟩ := FFmt.f32.fields_mag neg hp
  have h255 : p / 2 ^ FFmt.f32.fbits = 2 ^ FFmt.f32.ebits - 1 := by simp only [FFmt.fbits, FFmt.ebits, infBits] at h ⊢; omega
  have hm0 : p % 2 ^ FFmt.f32.fbits ≠ 0 := by simp only [FFmt.fbits, infBits] at h ⊢; omega
  simp [decodeF, he, hm, h255, hm0]

theorem sgn_lt_fin {a b : Bool} {n m d e : Nat} (hd : 0 < d) (he : 0 < e) :
    sgn a n * e < sgn b m * d ↔ signFactor a * ((n : ℚ) / d) < signFactor b * ((m : ℚ) / e) := by
  have hd' : (0 : ℚ) < d := by exact_mod_cast hd
  have he' : (0 : ℚ) < e := by exact_mod_cast he
  rw [← mul_div_assoc, ← mul_div_assoc, div_lt_div_iff₀ hd' he', ← sgn_cast, ← sgn_cast]
  exact_mod_cast Iff.rfl

/-- A strictly increasing measure of magnitudes from zero orders signed magnitudes as they are ordered. -/
theorem signed_lt_iff {V : ℕ → ℚ} (hV : StrictMono V) (h0 : V 0 = 0) (a b : Bool) (p q : ℕ) :
    signFactor a * V p < signFactor b * V q ↔ sgn a p < sgn b q := by
  have hp : 0 ≤ V p := h0 ▸ hV.monotone (Nat.zero_le p)
  have hq : 0 ≤ V q := h0 ▸ hV.monotone (Nat.zero_le q)
  cases a <;> cases b <;> simp only [signFactor, sgn, one_mul, neg_mul, Bool.false_eq_true, if_true, if_false]
  · rw [hV.lt_iff_lt]; omega
  · exact ⟨fun h => by linarith, fun h => by omega⟩
  · have h1 : V p = 0 ↔ p = 0 := by rw [← h0]; exact hV.injective.eq_iff
    have h2 : V q = 0 ↔ q = 0 := by rw [← h0]; exact hV.injective.eq_iff
    refine ⟨fun h => ?_, fun h => ?_⟩
    · by_contra hc
      rw [h1.2 (by omega), h2.2 (by omega)] at h
      simp at h
    · obtain h | h : p ≠ 0 ∨ q ≠ 0 := by omega
      · have := lt_of_le_of_ne hp (Ne.symm (h1.not.2 h)); linarith
      · have := lt_of_le_of_ne hq (Ne.symm (h2.not.2 h)); linarith
  · rw [neg_lt_neg_iff, hV.lt_iff_lt]; omega

/-- What numbers of FP32, the infinities among them, have as their order: that of their magnitude bits under their sign. -/
theorem decodeF_lt {p q : Nat} (a b : Bool) (hp : p ≤ infBits) (hq : q ≤ infBits) :
    (decodeF .f32 (p + FFmt.f32.signBit a)).lt (decodeF .f32 (q + FFmt.f32.signBit b)) = decide (sgn a p < sgn b q) := by
  have hfin {p : Nat} (a : Bool) (h : p < infBits) := FFmt.f32.decodeF_mag a (p := p) (by simp only [infBits, FFmt.maxBits] at h ⊢; omega) (.inl (by decide))
  obtain hp | rfl := hp.lt_or_eq <;> obtain hq | rfl := hq.lt_or_eq
  · obtain ⟨n, d, hd, hx, hv⟩ := hfin a hp
    obtain ⟨m, e, he, hy, hw⟩ := hfin b hq
    rw [hx, hy, FVal.lt, decide_eq_decide, sgn_lt_fin hd he, hv, hw]
    exact signed_lt_iff FFmt.f32.magVal_strictMono FFmt.f32.magVal_zero a b p q
  · obtain ⟨n, d, -, hx, -⟩ := hfin a hp
    rw [hx, decodeF_inf, FVal.lt]
    cases a <;> cases b <;> simp [sgn] <;> omega
  · obtain ⟨m, e, -, hy, -⟩ := hfin b hq
    rw [decodeF_inf, hy, FVal.lt]
    cases a <;> cases b <;> simp [sgn] <;> omega
  · rw [decodeF_inf, decodeF_inf, FVal.lt]
    cases a <;> cases b <;> simp [sgn, infBits]

theorem decodeF_isNaN {p : Nat} (a : Bool) (hp : p ≤ infBits) : (decodeF .f32 (p + FFmt.f32.signBit a)).isNaN = false := by
  obtain hp | rfl := hp.lt_or_eq
  · obtain ⟨n, d, -, hx, -⟩ := FFmt.f32.decodeF_mag a (p := p) (by simp only [infBits, FFmt.maxBits] at hp ⊢; omega) (.inl (by decide))
    rw [hx]; rfl
  · rw [decodeF_inf]; rfl

/-- A word is its magnitude bits with its sign. -/
theorem toNat_eq_mag (v : BitVec 32) : v.toNat = v.toNat % 2 ^ 31 + FFmt.f32.signBit v.msb := by
  have := v.isLt
  have hw : FFmt.f32.width - 1 = 31 := rfl
  rw [BitVec.msb_eq_decide, FFmt.signBit, hw]
  split <;> simp at * <;> omega

/-- A number's place among the others: its magnitude bits under its sign. -/
def placeOf (v : BitVec 32) : Int := if v.msb then -((v.toNat % 2 ^ 31 : Nat) : Int) else (v.toNat : Int)

theorem placeOf_eq (v : BitVec 32) : placeOf v = sgn v.msb (v.toNat % 2 ^ 31) := by
  have := toNat_eq_mag v
  rw [placeOf, sgn]
  split
  · rfl
  · rename_i h
    rw [Bool.not_eq_true] at h
    rw [h] at this
    simp only [FFmt.signBit, Bool.false_eq_true, if_false, add_zero] at this
    rw [← this]

section
variable (x y : BitVec 32)

theorem decodeF_lt_place (hx : ¬ infBits < x.toNat % 2 ^ 31) (hy : ¬ infBits < y.toNat % 2 ^ 31) :
    (decodeF .f32 x.toNat).lt (decodeF .f32 y.toNat) = decide (placeOf x < placeOf y) := by
  rw [toNat_eq_mag x, toNat_eq_mag y, decodeF_lt _ _ (not_lt.1 hx) (not_lt.1 hy), placeOf_eq, placeOf_eq]

theorem decodeF_isNaN_word : (decodeF .f32 x.toNat).isNaN = decide (infBits < x.toNat % 2 ^ 31) := by
  rw [toNat_eq_mag x]
  by_cases h : infBits < x.toNat % 2 ^ 31
  · rw [decodeF_nan _ h (Nat.mod_lt _ (by decide)), ← toNat_eq_mag]; exact (decide_eq_true h).symm
  · rw [decodeF_isNaN _ (not_lt.1 h), ← toNat_eq_mag]; exact (decide_eq_false h).symm

end

/-- With a NaN only `fne` and `fun` hold. -/
theorem floatCond_nan {x y : FVal} (h : x.isNaN = true ∨ y.isNaN = true) (c : Cond) :
    floatCond c x y = decide (c = .fne ∨ c = .fun) := by
  have heq : x.eq y = false := by obtain h | h := h <;> simp [FVal.eq, h]
  have hlt : x.lt y = false ∧ y.lt x = false := by
    obtain h | h := h <;> cases x <;> cases y <;> simp [FVal.lt, FVal.isNaN] at h ⊢
  have hnan : (x.isNaN || y.isNaN) = true := by simpa using h
  cases c <;> simp [floatCond, heq, hlt, hnan]

/-- Two numbers compare as their places do. -/
theorem floatCond_places {x y : FVal} {px py : Int} (hx : x.isNaN = false) (hy : y.isNaN = false)
    (h : x.lt y = decide (px < py)) (h' : y.lt x = decide (py < px)) :
    floatCond .feq x y = decide (px = py) ∧ floatCond .fne x y = decide (px ≠ py) ∧ floatCond .flt x y = decide (px < py) ∧
      floatCond .fle x y = decide (px ≤ py) ∧ floatCond .fgt x y = decide (py < px) ∧ floatCond .fge x y = decide (py ≤ px) ∧
      floatCond .fun x y = false := by
  have heq : x.eq y = decide (px = py) := by
    rw [FVal.eq, hx, hy, h, h', Bool.eq_iff_iff]
    simp; omega
  have hle (a b : Int) : (decide (a < b) || decide (a = b)) = decide (a ≤ b) := by
    rw [Bool.eq_iff_iff]; simp; omega
  refine ⟨heq, by rw [floatCond, heq, decide_not], h, by rw [floatCond, h, heq, hle], h', ?_, by rw [floatCond, hx, hy]; rfl⟩
  rw [floatCond, h', heq, decide_eq_decide.2 (eq_comm (a := px)), hle]

/-- Settles O12: a comparison word writes its condition, whose three widths are the three sections above. -/
theorem scalarComparison : Obligations.ScalarComparison := by
  unfold Obligations.ScalarComparison
  refine ⟨fun s e g d a b hi => ?_, rfl⟩
  intro x y xw yw out ints
  have word (c : Cond) (w : CmpWidth) : exec (.ssetp g d a b c w) s = out (scalarCond c w x y) :=
    predWord_next hi d fun st => scalarCond c w (st.rd a) (st.rd b)
  have all {w : CmpWidth} {n : Nat} {x' y' : BitVec n} (h : IntConds (fun c => scalarCond c w x y) x' y') : ints w n x' y' := by
    obtain ⟨heq, hne, hlt, hle, hgt, hge, hlo, hls, hhi, hhs⟩ := h
    exact ⟨heq ▸ word _ w, hne ▸ word _ w, hlt ▸ word _ w, hle ▸ word _ w, hgt ▸ word _ w, hge ▸ word _ w, hlo ▸ word _ w,
      hls ▸ word _ w, hhi ▸ word _ w, hhs ▸ word _ w⟩
  have hxw : xw = low32 x := low32_extract x
  have hyw : yw = low32 y := low32_extract y
  refine ⟨all (intCond_intConds (by decide) x y), all ?_, fun h c _ => ?_, fun hx hy => ?_⟩
  · simp only [hxw, hyw, scalarCond_i32]
    exact intCond_intConds (by decide) (low32 x) (low32 y)
  · have hn : (decodeF .f32 (low32 x).toNat).isNaN = true ∨ (decodeF .f32 (low32 y).toNat).isNaN = true := by
      rw [← hxw, ← hyw]
      simp only [decodeF_isNaN_word, decide_eq_true_eq]
      exact h
    rw [word, scalarCond, floatCond_nan hn]
  · obtain ⟨heq, hne, hlt, hle, hgt, hge, hun⟩ := floatCond_places (decodeF_isNaN_word xw ▸ decide_eq_false hx)
      (decodeF_isNaN_word yw ▸ decide_eq_false hy) (decodeF_lt_place xw yw hx hy) (decodeF_lt_place yw xw hy hx)
    simp only [word, scalarCond, ← hxw, ← hyw]
    exact ⟨congrArg out heq, congrArg out hne, congrArg out hlt, congrArg out hle, congrArg out hgt, congrArg out hge, congrArg out hun⟩

end Sys2Proof.Machine
end

section
/-! What leaving the store buffer does to the machine (04 R88, R91, R112; 07 R190; 19 R357): global memory, the outgoing messages and the
hub's counts change, and of each strand its watch, its buffer and its counts of acknowledgements to come. -/

namespace Sys2Proof.Machine
open Sys2Proof

/-- A strand with at most its watch, its store buffer and its unacknowledged stores otherwise. -/
def Strand.Buffers (st st' : Strand) : Prop :=
  ∃ w l d y, st' = { st with watch := w, stores := l, unackDev := d, unackSys := y }

namespace Strand.Buffers

theorem refl (st : Strand) : st.Buffers st := ⟨_, _, _, _, rfl⟩

theorem trans {a b c : Strand} (h : a.Buffers b) (k : b.Buffers c) : a.Buffers c := by
  obtain ⟨w, l, d, y, rfl⟩ := h
  obtain ⟨w', l', d', y', rfl⟩ := k
  exact ⟨w', l', d', y', rfl⟩

end Strand.Buffers

/-- Only global memory, the outgoing messages, the hub and the strands have changed, the strands all there with at most their watches and
buffers otherwise. -/
structure OnlyStores (s t : State) : Prop where
  rest : { t with mem := s.mem, rma := s.rma, hub := s.hub, strands := s.strands } = s
  keys : t.strands.map Prod.fst = s.strands.map Prod.fst
  strands : ∀ sid st, s.strands.get? sid = some st → ∃ st', t.strands.get? sid = some st' ∧ st.Buffers st'

namespace OnlyStores

theorem refl (s : State) : OnlyStores s s := ⟨rfl, rfl, fun _ st h => ⟨st, h, .refl st⟩⟩

theorem trans {s t u : State} (h : OnlyStores s t) (k : OnlyStores t u) : OnlyStores s u := by
  refine ⟨?_, k.keys.trans h.keys, fun sid st hst => ?_⟩
  · have h' := h.rest
    rw [← k.rest] at h'
    exact h'
  · obtain ⟨st1, h1, hb1⟩ := h.strands sid st hst
    obtain ⟨st2, h2, hb2⟩ := k.strands sid st1 h1
    exact ⟨st2, h2, hb1.trans hb2⟩

theorem foldl {β : Type} {f : State → β → State} (h : ∀ s x, OnlyStores s (f s x)) (l : List β) (s : State) : OnlyStores s (l.foldl f s) :=
  foldl_keeps (OnlyStores s) f (fun _ x hs => hs.trans (h _ x)) l s (refl s)

/-- A change that leaves the strands alone. -/
theorem of_strands {s t : State} (h : { t with mem := s.mem, rma := s.rma, hub := s.hub } = s) : OnlyStores s t := by
  have hst : t.strands = s.strands := by rw [← h]
  refine ⟨?_, by rw [hst], fun sid st h => ⟨st, hst ▸ h, .refl st⟩⟩
  rw [← hst]
  exact h

theorem modStrand (s : State) (sid : StrandId) {f : Strand → Strand} (h : ∀ st, Strand.Buffers st (f st)) : OnlyStores s (s.modStrand sid f) := by
  refine ⟨rfl, Assoc.keys_modify .., fun k st hst => ?_⟩
  rw [State.modStrand_strands, Assoc.get?_modify, hst]
  split
  · exact ⟨_, rfl, h st⟩
  · exact ⟨_, rfl, .refl st⟩

variable {s t : State} (h : OnlyStores s t)
include h

theorem wgs : t.wgs = s.wgs := by rw [← h.rest]
theorem launches : t.launches = s.launches := by rw [← h.rest]
theorem insts : t.insts = s.insts := by rw [← h.rest]
theorem bars : t.bars = s.bars := by rw [← h.rest]
theorem contexts : t.contexts = s.contexts := by rw [← h.rest]
theorem worlds : t.worlds = s.worlds := by rw [← h.rest]
theorem tickets : t.tickets = s.tickets := by rw [← h.rest]
theorem xlat : t.xlat = s.xlat := by rw [← h.rest]
theorem power : t.power = s.power := by rw [← h.rest]
theorem nextId : t.nextId = s.nextId := by rw [← h.rest]
theorem cycle : t.cycle = s.cycle := by rw [← h.rest]
theorem ticks : t.ticks = s.ticks := by rw [← h.rest]

/-- A strand still stands in its workgroup and its launch. -/
theorem env {sid : StrandId} {e : Env} (he : s.env? sid = some e) : ∃ st, t.env? sid = some { e with st := st } ∧ e.st.Buffers st := by
  obtain ⟨rfl, hst, hwg, hl⟩ := State.env?_strand he
  obtain ⟨st, hst', hb⟩ := h.strands _ _ hst
  exact ⟨st, by simp only [State.env?, hst', h.wgs, hwg, h.launches, hl], hb⟩

theorem of_env {e : Env} (he : s.env? e.sid = some e) : ∃ st, t.strands.get? e.sid = some st ∧ e.st.Buffers st :=
  h.strands _ _ (State.env?_strand he).2.1

end OnlyStores

/-! ## Memory -/

theorem State.noteWrite_onlyStores (s : State) (line : Nat) : OnlyStores s (s.noteWrite line) := by
  refine ⟨rfl, ?_, fun sid st hst => ?_⟩
  · rw [State.noteWrite_strands, List.map_map]; rfl
  · obtain ⟨w, hw⟩ := s.noteWrite_keepsStrands line sid st hst
    exact ⟨_, hw, w, _, _, _, rfl⟩

theorem State.setMem_onlyStores (s : State) (m : MemSys) : OnlyStores s { s with mem := m } := .of_strands rfl

theorem State.onLine_onlyStores (s : State) (line : Nat) (f : MemSys → MemSys) : OnlyStores s (s.onLine line f) := by
  unfold State.onLine
  extract_lets m
  split
  · exact (s.setMem_onlyStores m).trans (State.noteWrite_onlyStores _ line)
  · exact s.setMem_onlyStores m

theorem State.homeLine_onlyStores (s : State) (d : Fin 4) (line : Nat) : OnlyStores s (s.homeLine d line) := s.onLine_onlyStores line _

theorem State.performAt_onlyStores (s : State) (d : Fin 4) (w pa : Nat) (bs : List Byte) : OnlyStores s (s.performAt d w pa bs) := by
  unfold State.performAt
  refine .foldl (fun u g => ?_) _ _
  exact (u.onLine_onlyStores g.1 _).trans ((State.setMem_onlyStores _ _).trans (State.noteWrite_onlyStores _ g.1))

theorem State.readyAt_onlyStores (s : State) (d : Fin 4) (w pa n : Nat) : OnlyStores s (s.readyAt d w pa n) := by
  unfold State.readyAt
  refine .foldl (fun u g => ?_) _ _
  exact u.onLine_onlyStores g.1 _

theorem State.covered_onlyStores (s : State) (l : List (Nat × List Byte)) : OnlyStores s (s.covered l) := by
  unfold State.covered
  split
  · exact .refl s
  · exact s.setMem_onlyStores _

theorem readDie_onlyStores (s : State) (d : Fin 4) (w pa n : Nat) : OnlyStores s (readDie s d w pa n).1 := by
  unfold readDie
  split
  · exact .refl s
  · exact s.readyAt_onlyStores d w pa n

theorem l1DropRun_onlyStores (s : State) (core : CoreId) (pa n : Nat) : OnlyStores s (l1DropRun s core pa n) := .of_strands rfl

/-! ## Messages and the buffer -/

theorem sendRuns_onlyStores (s : State) (world : Nat) (sender : Option StrandId) (op : RmaOp) (l : List (Nat × List Byte)) :
    OnlyStores s (sendRuns s world sender op l) := by
  unfold sendRuns
  split
  · split
    · exact .modStrand s _ fun st => ⟨_, _, _, _, rfl⟩
    · exact .refl s
  · unfold newMessage noteSent
    extract_lets
    split <;> exact .of_strands rfl

theorem performStore_onlyStores (s : State) (sid : StrandId) (core : CoreId) (world : Nat) (x : SBEntry) :
    OnlyStores s (performStore s sid core world x) := by
  unfold performStore
  extract_lets s1 s2 s3
  have h1 : OnlyStores s s1 := .foldl (fun s l => by
    split
    · exact .refl s
    · exact (s.performAt_onlyStores ..).trans (State.setMem_onlyStores _ _)) _ _
  have h2 : OnlyStores s1 s2 := .foldl (fun s m => sendRuns_onlyStores ..) _ _
  have h3 : OnlyStores s s3 := (h1.trans h2).trans (State.covered_onlyStores ..)
  split
  · exact h3.trans (.modStrand _ _ fun st => ⟨_, _, _, _, rfl⟩)
  · exact h3

theorem drain_onlyStores (s : State) (sid : StrandId) : OnlyStores s (drain s sid) := by
  unfold drain
  split
  · exact .refl s
  · exact (OnlyStores.modStrand s sid fun st => ⟨_, _, _, _, rfl⟩).trans (.foldl (fun s x => performStore_onlyStores ..) _ _)

theorem release_onlyStores (s : State) (sid : StrandId) (sc : Option Scope) : OnlyStores s (release s sid sc).1 := by
  unfold release
  split
  · exact .refl s
  · exact .refl s
  all_goals exact drain_onlyStores s sid

/-! ## A strand with nothing buffered -/

theorem modStrand_unchanged {s : State} {sid : StrandId} {st : Strand} (h : s.strands.get? sid = some st) {f : Strand → Strand} (hf : f st = st) :
    s.modStrand sid f = s := by
  have hl : s.strands.modify sid f = s.strands := by
    generalize s.strands = l at h
    induction l with
    | nil => rfl
    | cons p t ih =>
      simp only [Assoc.get?, Assoc.modify] at h ⊢
      split at h
      · rename_i hk
        cases h
        rw [if_pos hk, hf]
      · rename_i hk
        rw [if_neg hk, ih h]
  rw [State.modStrand, hl]

/-- Draining an empty buffer changes nothing. -/
theorem drain_empty {s : State} {e : Env} (h : s.env? e.sid = some e) (hs : e.st.stores = []) : drain s e.sid = s := by
  simp only [drain, h, hs, List.filter_nil, List.foldl_nil]
  exact modStrand_unchanged (State.env?_strand h).2.1 (congrArg (fun l => { e.st with stores := l }) hs.symm)

/-- With an empty buffer and nothing unacknowledged at its scope a release holds at once and changes nothing. -/
theorem release_empty {s : State} {e : Env} (h : s.env? e.sid = some e) (hs : e.st.stores = []) {sc : Scope}
    (hd : sc = .dev ∨ sc = .sys → e.st.unackDev = 0) (hy : sc = .sys → e.st.unackSys = 0) : release s e.sid (some sc) = (s, true) := by
  have hst := (State.env?_strand h).2.1
  cases sc with
  | st => rfl
  | wg | cl | die => simp [release, drain_empty h hs, scalarDrained, hst, hs]
  | dev => simp [release, drain_empty h hs, hst, hd (.inl rfl)]
  | sys => simp [release, drain_empty h hs, hst, hd (.inr rfl), hy rfl]

end Sys2Proof.Machine
end

section
/-! Scalar loads (07 R188 to R190, 06 R176, 04 R114): the buffer answers, or the die's L2 where no partial results wait. -/

namespace Sys2Proof.Machine
open Sys2Proof

/-! ## What a die catching up with the home leaves alone -/

/-- Home memory, the copies, the failed sectors and every L1 are as they were. -/
structure MemSys.SameHome (m k : MemSys) : Prop where
  home : k.home = m.home
  copies : k.copies = m.copies
  bad : k.bad = m.bad
  l1 : k.l1 = m.l1

namespace MemSys

theorem SameHome.refl (m : MemSys) : SameHome m m := ⟨rfl, rfl, rfl, rfl⟩

theorem SameHome.trans {m k j : MemSys} (h : SameHome m k) (h' : SameHome k j) : SameHome m j :=
  ⟨h'.home.trans h.home, h'.copies.trans h.copies, h'.bad.trans h.bad, h'.l1.trans h.l1⟩

theorem applyMsg_sameHome (m : MemSys) (e : Fin 4) (w : WriteMsg) : SameHome m (m.applyMsg e w) := ⟨rfl, rfl, rfl, rfl⟩

theorem applyPast_sameHome (m : MemSys) (e : Fin 4) (w : WriteMsg) : SameHome m (m.applyPast e w) :=
  foldl_keeps (SameHome m) _ (fun _ _ h => h.trans (applyMsg_sameHome ..)) _ m (.refl m)

theorem prune_sameHome (m : MemSys) : SameHome m m.prune := ⟨rfl, rfl, rfl, rfl⟩

theorem catchUp_sameHome (m : MemSys) (e : Fin 4) (line : Nat) : SameHome m (m.catchUp e line) :=
  (foldl_keeps (SameHome m) _ (fun _ _ h => h.trans (applyPast_sameHome ..)) _ m (.refl m)).trans (prune_sameHome _)

/-- No copy of the line waits to be combined. -/
def NoCopy (m : MemSys) (line : Nat) : Prop := ∀ c ∈ m.copies, c.line ≠ line

theorem combineLine_noCopy {m : MemSys} {line : Nat} (h : m.NoCopy line) (parts : List (List (Fin 4))) : m.combineLine parts line = m := by
  have hf : (m.copies.filter fun c => c.line = line) = [] := List.filter_eq_nil_iff.2 fun c hc => by simpa using h c hc
  rw [combineLine, hf, List.foldl_nil]

theorem atHome_sameHome {m : MemSys} {line : Nat} (h : m.NoCopy line) (parts : List (List (Fin 4))) (d : Fin 4) :
    SameHome m (m.atHome parts d line) := by
  rw [atHome, combineLine_noCopy h]
  exact (m.catchUp_sameHome d line).trans ⟨rfl, rfl, rfl, rfl⟩

theorem readyLine_sameHome {m : MemSys} {line : Nat} (h : m.NoCopy line) (parts : List (List (Fin 4))) (d : Fin 4) (w : Nat) :
    SameHome m (m.readyLine parts d w line) := by
  unfold readyLine
  extract_lets
  split
  · exact (atHome_sameHome h parts d).trans ⟨rfl, rfl, rfl, rfl⟩
  · split
    · exact m.catchUp_sameHome d line
    · exact .refl m

end MemSys

/-- Nothing but a die's own part of global memory has changed, the strands' watches included. -/
structure OnlyDie (s t : State) : Prop where
  rest : { t with mem := s.mem } = s
  mem : s.mem.SameHome t.mem

namespace OnlyDie

theorem refl (s : State) : OnlyDie s s := ⟨rfl, .refl _⟩

theorem trans {s t u : State} (h : OnlyDie s t) (k : OnlyDie t u) : OnlyDie s u := by
  have h' := h.rest
  rw [← k.rest] at h'
  exact ⟨h', h.mem.trans k.mem⟩

theorem strands {s t : State} (h : OnlyDie s t) : t.strands = s.strands := by rw [← h.rest]
theorem cycle {s t : State} (h : OnlyDie s t) : t.cycle = s.cycle := by rw [← h.rest]

theorem setMem {s t : State} (h : OnlyDie s t) (m : MemSys) : { t with mem := m } = { s with mem := m } :=
  congrArg (fun u : State => { u with mem := m }) h.rest

theorem poisoned {s t : State} (h : OnlyDie s t) (pa n : Nat) : t.mem.poisoned pa n = s.mem.poisoned pa n := by
  rw [MemSys.poisoned, h.mem.bad, MemSys.poisoned]

end OnlyDie

theorem State.readyAt_onlyDie {s : State} (h : s.mem.copies = []) (d : Fin 4) (w pa n : Nat) : OnlyDie s (s.readyAt d w pa n) := by
  unfold State.readyAt
  refine foldl_keeps (OnlyDie s) _ (fun t g ht => ?_) _ s (.refl s)
  have hc : t.mem.copies = [] := ht.mem.copies.trans h
  have hm := MemSys.readyLine_sameHome (m := t.mem) (line := g.1) (fun c hc' => by simp [hc] at hc') t.parts d w
  refine ht.trans ?_
  unfold State.onLine
  extract_lets m
  rw [if_neg (by rw [hm.copies, hc]; exact lt_irrefl _)]
  exact ⟨rfl, hm⟩

theorem State.readL2_onlyDie {s : State} (h : s.mem.copies = []) (d : Fin 4) (w pa n : Nat) : OnlyDie s (s.readL2 d w pa n).1 :=
  State.readyAt_onlyDie h d w pa n

/-! ## Aligned accesses lie in one line -/

theorem size_cases (z : Size) : z.bytes = 1 ∨ z.bytes = 2 ∨ z.bytes = 4 ∨ z.bytes = 8 := by cases z <;> simp [Size.bytes]

/-- Bytes of a line in which no sector's check fails. -/
theorem poisoned_of_line {m : MemSys} {pa n : Nat} (h : m.poisoned (128 * lineOf pa) 128 = false) (hn : pa + n ≤ 128 * lineOf pa + 128) :
    m.poisoned pa n = false := by
  unfold MemSys.poisoned at h ⊢
  rw [List.any_eq_false] at h ⊢
  intro k hk
  have hline := h k hk
  simp only [Bool.and_eq_true, decide_eq_true_eq] at hline ⊢
  unfold lineOf at hline hn
  omega

theorem aligned_in_line {pa : Nat} {z : Size} (h : pa % z.bytes = 0) : pa + z.bytes ≤ 128 * lineOf pa + 128 := by
  obtain hz | hz | hz | hz := size_cases z <;> rw [hz] at h ⊢ <;> unfold lineOf <;> omega

/-! ## Loads -/

theorem reaches_access {s : State} {e : Env} {va n : Nat} {k : AccessKind} {pa : Nat} (h : Reaches57 s e va n k pa) :
    scalarAccess e s va n k = .ok pa := by
  obtain ⟨f, hf⟩ := h.maps
  exact scalarAccess_ok h.low h.aligned hf

/-- Bytes of which no buffered store holds any wait for no check. -/
theorem unchecked_of_forward_none {st : Strand} {pa n : Nat} (h : forward st.stores pa n = .none) : unchecked st pa n = false := by
  have hnone : ((st.stores.map fun x => x.lanes).flatten.reverse).find?
      (fun l => decide (l.pa < pa + n) && decide (pa < l.pa + l.data.length)) = none := by
    unfold forward at h
    split at h
    · assumption
    · split at h <;> cases h
  rw [List.find?_eq_none] at hnone
  rw [unchecked, List.any_eq_false]
  intro x hx
  have hl : (x.lanes.any fun l => decide (l.pa < pa + n) && decide (pa < l.pa + l.data.length)) = false := by
    rw [List.any_eq_false]
    exact fun l hl => hnone l (List.mem_reverse.2 (List.mem_flatten.2 ⟨_, List.mem_map_of_mem hx, hl⟩))
  simp [hl]

/-- What a load from the die's L2 answers where the line passes its checks: the bytes as the world reads them, and the machine with
nothing but its die's part of memory and the core's L1 otherwise. -/
theorem missLoad_sound {s : State} {e : Env} {pa n : Nat} (hc : s.mem.copies = []) (hp : s.mem.poisoned (128 * lineOf pa) 128 = false)
    (hn : pa + n ≤ 128 * lineOf pa + 128) : ∃ m, missLoad s e pa n = ({ s with mem := m }, some (s.readL2 e.die e.world pa n).2) ∧
      m.home = s.mem.home := by
  have ho := State.readL2_onlyDie hc e.die e.world pa n
  have h1 := (ho.poisoned (128 * lineOf pa) 128).trans hp
  have h2 := (ho.poisoned pa n).trans (poisoned_of_line hp hn)
  refine ⟨(s.readL2 e.die e.world pa n).1.mem.l1Fill e.core e.world (lineOf pa), ?_, ho.mem.home⟩
  simp only [missLoad, h1, h2, Bool.false_eq_true, if_false]
  rw [ho.setMem]

theorem globalLoad_misses {s : State} {e : Env} {pa n : Nat} {fresh : Bool} (hr : isRemote pa = false)
    (hf : fresh = true ∨ s.mem.l1Find e.core e.world (lineOf pa) = none) : globalLoad s e pa n fresh = missLoad s e pa n := by
  cases fresh with
  | true => simp [globalLoad, hr]
  | false => simp [globalLoad, hr, hf.resolve_left (by decide)]

/-- A word that answers a load: its register written, the next word to come, and otherwise only memory's own state changed. -/
def LoadGoes (s : State) (e : Env) (d : SReg) (x : Eff) (r : W64) : Prop :=
  OnlyStrandMem s (x.finish e 4) e.sid ∧ (x.finish e 4).mem.home = s.mem.home ∧
    (x.finish e 4).strands.get? e.sid = some ((e.st.wr d r).next (e.st.pc + 4) s.cycle)

section
variable {s : State} {e : Env} {d : SReg} {va n pa : Nat} {fresh : Bool} {ext : Nat → W64} (henv : s.env? e.sid = some e)
  (ha : scalarAccess e s va n .read = .ok pa)

section
include ha

theorem scalarLoad_unchecked (hu : unchecked e.st pa n = true) : scalarLoad d va n fresh ext e s = .wait s .retry := by
  simp [scalarLoad, ha, hu]

theorem scalarLoad_part (hu : unchecked e.st pa n = false) (hf : forward e.st.stores pa n = .part) :
    scalarLoad d va n fresh ext e s = .wait (drain s e.sid) .retry := by
  simp [scalarLoad, ha, hu, hf]

end

include henv

theorem loadGoes_written {m : MemSys} (hm : m.home = s.mem.home) (r : W64) :
    LoadGoes s e d (.done (State.modStrand { s with mem := m } e.sid fun st => st.wr d r)) r := by
  refine ⟨⟨?_, ?_⟩, hm, ?_⟩
  · simp only [Eff.finish]; rfl
  · intro k hk
    simp only [Eff.finish, State.modStrand_strands]
    rw [Assoc.get?_modify_other _ _ (Ne.symm hk), Assoc.get?_modify_other _ _ (Ne.symm hk)]
  · exact State.modStrand_self (State.modStrand_self (State.env?_strand henv).2.1 _) _

include ha

theorem scalarLoad_hit {bs : List Byte} (hu : unchecked e.st pa n = false) (hf : forward e.st.stores pa n = .hit bs) :
    LoadGoes s e d (scalarLoad d va n fresh ext e s) (ext (leNat bs)) := by
  have hx : scalarLoad d va n fresh ext e s = .done (s.modStrand e.sid fun st => st.wr d (ext (leNat bs))) := by
    simp [scalarLoad, ha, hu, hf]
  rw [hx]
  exact loadGoes_written henv rfl _

theorem scalarLoad_none (hr : isRemote pa = false) (hc : s.mem.copies = []) (hp : s.mem.poisoned (128 * lineOf pa) 128 = false)
    (hn : pa + n ≤ 128 * lineOf pa + 128) (hf : forward e.st.stores pa n = .none)
    (hl : fresh = true ∨ s.mem.l1Find e.core e.world (lineOf pa) = none) :
    LoadGoes s e d (scalarLoad d va n fresh ext e s) (ext (leNat (s.readL2 e.die e.world pa n).2)) := by
  obtain ⟨m, hm, hh⟩ := missLoad_sound (e := e) hc hp hn
  have hx : scalarLoad d va n fresh ext e s =
      .done (State.modStrand { s with mem := m } e.sid fun st => st.wr d (ext (leNat (s.readL2 e.die e.world pa n).2))) := by
    simp [scalarLoad, ha, unchecked_of_forward_none hf, hf, globalLoad_misses hr hl, hm]
  rw [hx]
  exact loadGoes_written henv hh _

end

theorem sextN_eq (n v : Nat) (hn : 0 < n) (h8 : 8 * n ≤ 64) : sextN n v = (BitVec.ofNat (8 * n) v).signExtend 64 := by
  apply BitVec.eq_of_toInt_eq
  have hs : signedOf (8 * n) v = (BitVec.ofNat (8 * n) v).toInt := by
    rw [← signedOf_toNat (by omega), BitVec.toNat_ofNat, signedOf, signedOf, Nat.mod_mod]
  rw [sextN, hs, ← BitVec.toInt_signExtend_of_le h8, BitVec.ofInt_toInt]

theorem sextN_size (z : Size) (v : Nat) : sextN z.bytes v = (BitVec.ofNat (8 * z.bytes) v).signExtend 64 := by
  obtain h | h | h | h := size_cases z <;> exact sextN_eq _ _ (by omega) (by omega)

/-- Settles O24: the three loads are one, with their extensions, at the access that R176 makes. -/
theorem scalarLoadResults : Obligations.ScalarLoadResults := by
  unfold Obligations.ScalarLoadResults
  intro s e g d a z sc off off7 pa va va7 hi goes held
  have sld (fresh : Bool) : exec (.sld g d a fresh z off) s = .next ((scalarLoad d va z.bytes fresh zextN e s).finish e 4) :=
    scalarWord_runs hi 4 noCheck _ rfl
  have sldx (fresh : Bool) : exec (.sldx g d a fresh z off) s = .next ((scalarLoad d va z.bytes fresh (sextN z.bytes) e s).finish e 4) :=
    scalarWord_runs hi 4 noCheck _ rfl
  have slda : exec (.slda g d a sc z off7) s = .next ((scalarLoad d va7 z.bytes true zextN e s).finish e 4) :=
    scalarWord_runs hi 4 noCheck _ rfl
  have go {i : Instr} {x : Eff} {r : W64} (h : exec i s = .next (x.finish e 4)) (hx : LoadGoes s e d x r) : goes i r := ⟨_, h, hx⟩
  have hold {i : Instr} {x : Eff} (h : exec i s = .next (x.finish e 4)) (hx : x = .wait (drain s e.sid) .retry) : held i := by
    obtain ⟨st, hst, w, l, u, y, rfl⟩ := (drain_onlyStores s e.sid).of_env hi.env
    exact ⟨_, h.trans (by rw [hx, finish_wait]), hst, rfl, rfl⟩
  have wait {i : Instr} {x : Eff} (h : exec i s = .next (x.finish e 4)) (hx : x = .wait s .retry) :
      exec i s = .next (s.waits e.sid .retry) := h.trans (by rw [hx, finish_wait])
  refine ⟨fun fresh hr hc hp => ?_, fun hr hc hp => ?_⟩
  · have ha := reaches_access hr
    have hn := aligned_in_line hr.placed
    refine ⟨fun hf hl => ⟨go (sld fresh) ?_, go (sldx fresh) ?_⟩, fun bs hf hu => ⟨go (sld fresh) ?_, go (sldx fresh) ?_⟩,
      fun hu => ⟨wait (sld fresh) (scalarLoad_unchecked ha hu), wait (sldx fresh) (scalarLoad_unchecked ha hu)⟩,
      fun hf hu => ⟨hold (sld fresh) (scalarLoad_part ha hu hf), hold (sldx fresh) (scalarLoad_part ha hu hf)⟩⟩
    · exact scalarLoad_none hi.env ha hr.here hc hp hn hf hl
    · rw [← sextN_size]; exact scalarLoad_none hi.env ha hr.here hc hp hn hf hl
    · exact scalarLoad_hit hi.env ha hu hf
    · rw [← sextN_size]; exact scalarLoad_hit hi.env ha hu hf
  · have ha := reaches_access hr
    exact ⟨fun hf => go slda (scalarLoad_none hi.env ha hr.here hc hp (aligned_in_line hr.placed) hf (.inl rfl)),
      fun bs hf hu => go slda (scalarLoad_hit hi.env ha hu hf), fun hu => wait slda (scalarLoad_unchecked ha hu),
      fun hf hu => hold slda (scalarLoad_part ha hu hf)⟩

end Sys2Proof.Machine
end

section
/-! Scalar stores (07 R188 to R190, 04 R115): one new entry at the end of the strand's buffer, or a wait. -/

namespace Sys2Proof.Machine
open Sys2Proof

/-- The entry of a scalar store. -/
def storeEntry (n : Nat) (z : Size) (scope : Option Scope) (va pa : Nat) (v : W64) : SBEntry :=
  ⟨n, false, false, z, scope, [⟨0, va, pa, natLE z.bytes v.toNat⟩]⟩

/-- The machine once such an entry stands in the strand's buffer and the strand has moved on. -/
def State.entered (s : State) (e : Env) (z : Size) (scope : Option Scope) (va pa : Nat) (v : W64) : State :=
  (Eff.done (enterStore { s with nextId := s.nextId + 1 } e (storeEntry s.nextId z scope va pa v))).finish e 4

/-- One entry is counted as one store to be acknowledged on the device, and drops its line from the core's L1. -/
theorem entered_eq (s : State) (e : Env) (z : Size) (scope : Option Scope) {va pa : Nat} (v : W64) (h : isRemote pa = false) :
    s.entered e z scope va pa v =
      State.modStrand { s with nextId := s.nextId + 1, mem := s.mem.l1Drop e.core (lineOf pa) } e.sid fun st =>
        ({ st with stores := st.stores ++ [storeEntry s.nextId z scope va pa v], unackDev := st.unackDev + 1 } : Strand).next
          (e.st.pc + 4) s.cycle := by
  have hm : (storeEntry s.nextId z scope va pa v).messages = [] :=
    SBEntry.messages_near fun l hl => by rw [List.mem_singleton.1 hl]; exact h
  simp only [State.entered, Eff.finish, enterStore, hm, State.modStrand_modStrand]
  simp [storeEntry, h, State.modStrand]

section
variable {s : State} {e : Env} {va pa : Nat} {z : Size} {v : W64}

theorem scalarStore_enters (ha : scalarAccess e s va z.bytes .write = .ok pa) {scope : Option Scope} {st : Strand}
    (hst : (release s e.sid scope).1.strands.get? e.sid = some st) (hr : (release s e.sid scope).2 = true) (hl : st.stores.length < 16) :
    (scalarStore va z scope v e s).finish e 4 = (release s e.sid scope).1.entered e z scope va pa v := by
  have hf : decide (Config.storeBufferEntries ≤ st.stores.length) = false := decide_eq_false (Nat.not_le.2 hl)
  simp only [scalarStore, ha, hst, hr, hf, Bool.not_true, Bool.or_self, Bool.false_eq_true, if_false]
  rfl

theorem scalarStore_waits (ha : scalarAccess e s va z.bytes .write = .ok pa) {scope : Option Scope} {st : Strand}
    (hst : (release s e.sid scope).1.strands.get? e.sid = some st) (hw : (release s e.sid scope).2 = false ∨ 16 ≤ st.stores.length) :
    (scalarStore va z scope v e s).finish e 4 = (release s e.sid scope).1.waits e.sid .retry := by
  have hc : (!(release s e.sid scope).2 || decide (Config.storeBufferEntries ≤ st.stores.length)) = true := by
    obtain h | h := hw
    · rw [h]; rfl
    · rw [decide_eq_true (show Config.storeBufferEntries ≤ st.stores.length from h), Bool.or_true]
  simp only [scalarStore, ha, hst, hc, if_true]
  rfl

end

/-- Settles O25: both words are one store, from the state that the release of their scope leaves. -/
theorem scalarStoreResults : Obligations.ScalarStoreResults := by
  unfold Obligations.ScalarStoreResults
  intro s e g d a z sc off off7 pa va va7 hi enters
  have sst : exec (.sst g d a z off) s = .next ((scalarStore va z none (e.st.rd d) e s).finish e 4) := scalarWord_runs hi 4 noCheck _ rfl
  have sstl : exec (.sstl g d a sc z off7) s = .next ((scalarStore va7 z (some sc) (e.st.rd d) e s).finish e 4) :=
    scalarWord_runs hi 4 noCheck _ rfl
  have hst := (State.env?_strand hi.env).2.1
  have enter {i : Instr} {s1 : State} {st1 : Strand} {scope : Option Scope} {va : Nat} (hs1 : s1.strands.get? e.sid = some st1)
      (hr : isRemote pa = false) (h : exec i s = .next (s1.entered e z scope va pa (e.st.rd d))) : enters i s1 st1 scope va := by
    rw [entered_eq s1 e z scope _ hr] at h
    exact ⟨_, _, h, ⟨rfl, fun k hk => Assoc.get?_modify_other _ _ (Ne.symm hk)⟩, rfl, rfl, rfl, State.modStrand_self hs1 _, rfl, rfl, rfl,
      rfl, rfl, rfl, rfl, s1.nextId, rfl⟩
  refine ⟨fun hr => ⟨fun hl => ?_, fun hl => ?_⟩, fun hr st1 hst1 => ⟨fun hh hl => ?_, fun hw => ?_⟩⟩
  · exact enter hst hr.here (sst.trans (congrArg _ (scalarStore_enters (scope := none) (reaches_access hr) hst rfl hl)))
  · exact sst.trans (congrArg _ (scalarStore_waits (scope := none) (reaches_access hr) hst (.inr hl)))
  · exact enter hst1 hr.here (sstl.trans (congrArg _ (scalarStore_enters (reaches_access hr) hst1 hh hl)))
  · exact sstl.trans (congrArg _ (scalarStore_waits (reaches_access hr) hst1 hw))

end Sys2Proof.Machine
end

section
/-! The atomic (07 R191; 03 R83; 04 R87, R101): one read-modify-write of one word at the home of its line. -/

namespace Sys2Proof.Machine
open Sys2Proof

/-! ## The operations on words -/

/-- R191's operations on words of `N` bits: the old word, the operand, and what CAS compares with. -/
def atomBits {N : Nat} (op : AtomOp) (old x cmp : BitVec N) : BitVec N :=
  match op with
  | .add => old + x
  | .and => old &&& x
  | .or => old ||| x
  | .xor => old ^^^ x
  | .min => if x.slt old then x else old
  | .max => if old.slt x then x else old
  | .swap => x
  | .cas => if old = cmp then x else old

theorem atomNew_toNat {N : Nat} (hN : 0 < N) (op : AtomOp) (old x cmp : BitVec N) :
    atomNew op N old.toNat x.toNat cmp.toNat = (atomBits op old x cmp).toNat := by
  cases op with
  | add => exact (BitVec.toNat_add old x).symm
  | and => exact (BitVec.toNat_and old x).symm
  | or => exact (BitVec.toNat_or old x).symm
  | xor => exact (BitVec.toNat_xor old x).symm
  | min => simp only [atomNew, atomBits, signedOf_toNat hN, BitVec.slt_iff_toInt_lt, apply_ite BitVec.toNat]
  | max => simp only [atomNew, atomBits, signedOf_toNat hN, BitVec.slt_iff_toInt_lt, apply_ite BitVec.toNat]
  | swap => rfl
  | cas => simp only [atomNew, atomBits, BitVec.toNat_inj, apply_ite BitVec.toNat]

/-! ## No copy waits once a line has been made ready at its home -/

namespace MemSys

theorem combineCopy_copies (m : MemSys) (parts : List (List (Fin 4))) (c : RedCopy) :
    (m.combineCopy parts c).copies = m.copies.filter fun x => x ≠ c := rfl

/-- A copy that is combined, or was not there, does not come back. -/
theorem foldl_combineCopy_mem (parts : List (List (Fin 4))) {c : RedCopy} (l : List RedCopy) : ∀ m : MemSys,
    c ∈ (l.foldl (fun m c => m.combineCopy parts c) m).copies → c ∈ m.copies ∧ c ∉ l := by
  induction l with
  | nil => exact fun m h => ⟨h, List.not_mem_nil⟩
  | cons x l ih =>
    intro m h
    obtain ⟨hm, hl⟩ := ih _ h
    rw [combineCopy_copies, List.mem_filter, decide_eq_true_eq] at hm
    exact ⟨hm.1, by simp [hm.2, hl]⟩

theorem noCopy_combineLine (m : MemSys) (parts : List (List (Fin 4))) (line : Nat) : (m.combineLine parts line).NoCopy line := by
  intro c hc hline
  obtain ⟨hm, hl⟩ := foldl_combineCopy_mem parts _ m hc
  exact hl (List.mem_filter.2 ⟨hm, by simpa using hline⟩)

theorem noCopy_atHome (m : MemSys) (parts : List (List (Fin 4))) (d : Fin 4) (line : Nat) : (m.atHome parts d line).NoCopy line := by
  intro c hc
  rw [atHome, (catchUp_sameHome _ d line).copies] at hc
  exact noCopy_combineLine m parts line c hc

end MemSys

/-! ## The word at its home -/

/-- The machine once an atomic has replaced a word. -/
def State.replaced (s : State) (e : Env) (pa n v : Nat) : State :=
  { s.performAt e.die e.world pa (natLE n v) with
    mem := (s.performAt e.die e.world pa (natLE n v)).mem.l1Drop e.core (lineOf pa) }

section
variable {s : State} {e : Env} {pa n : Nat} {v : Nat}

theorem replaced_onlyStores (s : State) (e : Env) (pa n v : Nat) : OnlyStores s (s.replaced e pa n v) :=
  (s.performAt_onlyStores ..).trans (State.setMem_onlyStores _ _)

theorem replaced_l1 (s : State) (e : Env) (pa n v : Nat) : (s.replaced e pa n v).mem.l1Find e.core e.world (lineOf pa) = none := by
  rw [MemSys.l1Find, List.find?_eq_none]
  intro x hx
  have := (List.mem_filter.1 hx).2
  simp only [Bool.not_eq_true', Bool.and_eq_false_iff, decide_eq_false_iff_not] at this
  simp only [Bool.and_eq_true, decide_eq_true_eq]
  tauto

/-- An aligned word of at most a line's bytes lies in one line. -/
theorem aligned_oneLine (hn : n = 4 ∨ n = 8) (h : pa % n = 0) : pa / 128 = (pa + n - 1) / 128 := by
  obtain rfl | rfl := hn <;> omega

/-- Where no copy of the line waits, home memory is written in the word and nowhere else. -/
theorem replaced_home (hn : n = 4 ∨ n = 8) (ha : pa % n = 0) (hc : s.mem.NoCopy (lineOf pa)) :
    (s.replaced e pa n v).mem.home = s.mem.home.writeNat pa n v := by
  have hlen : (natLE n v).length = n := length_natLE n v
  have hne : natLE n v ≠ [] := fun h => by rw [h, List.length_nil] at hlen; omega
  have hm := s.performAt_mem_oneLine e.die e.world hne (by rw [hlen]; exact aligned_oneLine hn ha)
  have hh : (s.replaced e pa n v).mem.home = (s.performAt e.die e.world pa (natLE n v)).mem.home := rfl
  rw [hh, hm, MemSys.combineLine_noCopy hc]
  exact Mem.writeCells_cellsAt ..

end

/-- The state in which the word finds its line at the home. -/
def atomicHome (s : State) (e : Env) (sc : Scope) (pa : Nat) : State :=
  (drain (release s e.sid (some sc)).1 e.sid).homeLine e.die (lineOf pa)

theorem atomicHome_onlyStores (s : State) (e : Env) (sc : Scope) (pa : Nat) : OnlyStores s (atomicHome s e sc pa) :=
  ((release_onlyStores ..).trans (drain_onlyStores ..)).trans (State.homeLine_onlyStores ..)

theorem atomicHome_wf {s : State} (h : s.memWf = true) (e : Env) (sc : Scope) (pa : Nat) : (atomicHome s e sc pa).mem.wf = true :=
  (homeLine_canon (drain_canon (release_canon ((State.canon_iff s).2 h)))).mem

theorem atomicHome_noCopy (s : State) (e : Env) (sc : Scope) (pa : Nat) : (atomicHome s e sc pa).mem.NoCopy (lineOf pa) := by
  rw [atomicHome, State.homeLine, State.onLine_mem]
  exact MemSys.noCopy_atHome _ _ _ _

section
variable {s : State} {e : Env} {g : Guard} (hi : Issues s e g) {d a b : SReg} {op : AtomOp} {wide : Bool} {sc : Scope} {pa : Nat}
include hi

variable {n : Nat} (hn : n = if wide then 8 else 4) (hr : Reaches57 s e (e.st.rd a).toNat n .rmw pa)
  (hrel : (release s e.sid (some sc)).2 = true)
include hn hr hrel

theorem exec_satom_poisoned (hp : (atomicHome s e sc pa).mem.poisoned pa n = true) :
    exec (.satom g d a b op wide sc) s =
      .next (faultScalar (atomicHome s e sc pa) e { code := .poison, access := .rmw, addr := (e.st.rd a).toNat }) := by
  have hx (f : Nat → Nat) : homeRmw (drain (release s e.sid (some sc)).1 e.sid) e pa n f = (atomicHome s e sc pa, none) := if_pos hp
  show execSatom g d a b op wide sc s = _
  rw [execSatom, scalarWord_runs hi _ _ _ rfl]
  simp only [← hn, reaches_access hr, hrel, Bool.not_true, Bool.false_eq_true, if_false, hr.here, hx]
  rfl

theorem exec_satom_replaces (hp : (atomicHome s e sc pa).mem.poisoned pa n = false) {old new : Nat}
    (hold : (atomicHome s e sc pa).mem.home.readNat pa n = old)
    (hnew : atomNew op (8 * n) old ((e.st.rd b).toNat % 2 ^ (8 * n)) ((e.st.rd d).toNat % 2 ^ (8 * n)) = new) :
    exec (.satom g d a b op wide sc) s =
      .next (((atomicHome s e sc pa).replaced e pa n new).after e (e.st.pc + 4) fun st => st.wr d (sextN n old)) := by
  subst hold
  have hx (f : Nat → Nat) : homeRmw (drain (release s e.sid (some sc)).1 e.sid) e pa n f =
      ((atomicHome s e sc pa).replaced e pa n (f ((atomicHome s e sc pa).mem.home.readNat pa n)),
        some ((atomicHome s e sc pa).mem.home.readNat pa n)) := if_neg (by rw [← Bool.not_eq_true] at hp; exact hp)
  show execSatom g d a b op wide sc s = _
  rw [execSatom, scalarWord_runs hi _ _ _ rfl]
  simp only [← hn, reaches_access hr, hrel, Bool.not_true, Bool.false_eq_true, if_false, hr.here, hx, hnew]
  exact congrArg _ (finish_done ..)

end

/-- Settles O27: the word at its home is replaced by the operation's result, and the strand gets the old word. -/
theorem atomicResults : Obligations.AtomicResults := by
  unfold Obligations.AtomicResults
  intro s e g d a b op wide sc pa n va hi hwf hr hrel s1 old x cmp
  have hn : n = 4 ∨ n = 8 := by cases wide <;> simp [n]
  refine ⟨fun hp => ?_, fun hp => exec_satom_poisoned hi rfl hr hrel hp⟩
  have hw : s1.mem.home.wf = true := MemSys.wf_home (atomicHome_wf hwf e sc pa)
  have hold : s1.mem.home.readNat pa n = old.toNat := by
    rw [BitVec.toNat_ofNat, pow_mul]
    exact (Nat.mod_eq_of_lt (Mem.readNat_lt ..)).symm
  have hnew : atomNew op (8 * n) old.toNat ((e.st.rd b).toNat % 2 ^ (8 * n)) ((e.st.rd d).toNat % 2 ^ (8 * n)) =
      (atomBits op old x cmp).toNat := by
    rw [← atomNew_toNat (by omega), BitVec.toNat_setWidth, BitVec.toNat_setWidth]
  have hsext : sextN n old.toNat = old.signExtend 64 := by
    rw [sextN_eq _ _ (by omega) (by omega), BitVec.ofNat_toNat, BitVec.setWidth_eq]
  have hh := replaced_home (e := e) (v := (atomBits op old x cmp).toNat) hn hr.placed (atomicHome_noCopy s e sc pa)
  have ho := (atomicHome_onlyStores s e sc pa).trans
    (replaced_onlyStores (atomicHome s e sc pa) e pa n (atomBits op old x cmp).toNat)
  obtain ⟨st, hst, w, l, u, y, rfl⟩ := ho.of_env hi.env
  refine ⟨_, _, atomBits op old x cmp, exec_satom_replaces hi rfl hr hrel hp hold hnew, State.modStrand_self hst _, ?_, fun i hid => ?_,
    ?_, rfl, ?_, fun i hout => ?_, replaced_l1 .., ho.wgs, by rintro rfl; rfl, by rintro rfl; rfl, by rintro rfl; rfl,
    by rintro rfl; rfl, by rintro rfl; rfl, by rintro rfl; rfl, by rintro rfl; rfl, by rintro rfl; rfl⟩
  · rw [Strand.rd_next, Strand.rd_wr, hsext]
    split
    · rename_i h0; rw [h0]; rfl
    · rw [if_pos rfl]
  · rw [Strand.rd_next, Strand.rd_wr, if_neg hid, ite_self]; rfl
  · rw [Strand.next_p, Strand.wr_p]
  · show ((atomicHome s e sc pa).replaced e pa n _).mem.home.readNat pa n = _
    rw [hh]
    exact (Mem.readNat_writeNat hw ..).trans (Nat.mod_eq_of_lt ((atomBits op old x cmp).isLt.trans_eq (pow_mul 2 8 n)))
  · show ((atomicHome s e sc pa).replaced e pa n _).mem.home.get i = _
    rw [hh]
    exact Mem.get_write_other hw _ _ (by rw [length_natLE]; exact hout)

end Sys2Proof.Machine
end

section
/-! A fence at device scope waits for the stores that count on the device. A store of the scalar stream to a remote window does not
(19 R357), so it may still stand in the buffer when the fence has gone on: kept there by an older load of the strand (04 R114). -/

namespace Sys2Proof.Machine
open Sys2Proof

/-- The strand that fences. -/
def fenceSid : StrandId := ⟨1, 0⟩

/-- A load that has not passed its check, older than the store below. -/
def fenceLoad : Return :=
  { id := 0, regs := [], mask := 0, first := 0, checks := [], queued := false,
    before := ⟨[], [], Vector.replicate 16 0, Vector.replicate 2 none, [], [], false, 0, 0⟩ }

/-- A store of the scalar stream to a remote window: the address has bit 51 set. -/
def fenceStore : SBEntry :=
  { id := 1, restored := false, vector := false, size := .b1, scope := none, lanes := [⟨0, 0, 2 ^ 51, [0]⟩] }

/-- Nothing is unacknowledged on the device, one message outside. -/
def fenceStrand : Strand :=
  { Strand.start .vector 65536 8 0 with stores := [fenceStore], returns := [fenceLoad], unackSys := 1 }

def fenceLaunch : Launch :=
  { world := 1, ctx := 1, graphMade := false, node := 0, run := 1, frame := 0, descAddr := 0,
    desc := { scalarBase := 65536, vectorBase := 65536, privateBase := 131072, pword := 0x00081040, grid := (1, 1, 1), strands := 1,
              regs := 8, cluster := 1, priv := true, queue := 0, overlap := false, fifos := 1, copyQueue := 0, roles := [.vector],
              pairs := 0, watchdog := 0, entries := [0], barMasks := [1], stride := 512 },
    depth := 0, parent := none, queue := none, errors := 0, batch := none, frag := none, placed := 1, total := 1,
    firstPlaced := some 0, pausedAt := none, prevOfNode := none, dropped := false, issuer := none, reserved := false }

def fenceGroup : Workgroup :=
  { launch := 1, index := 0, core := ⟨0, 0⟩, released := false, stopping := false, parked := none, granules := [], scratch := [],
    tiles := [], badScratch := [], badTiles := [], fifos := [], matrix := .empty, lastCopy := [], lastColl := [] }

/-- One strand, whose scalar stream issues the fence. -/
def fenceState : State :=
  { State.reset with cur := some (.scalar fenceSid), strands := [(fenceSid, fenceStrand)], wgs := [(1, fenceGroup)], launches := [(1, fenceLaunch)] }

def fenceEnv : Env := ⟨fenceSid, fenceStrand, fenceGroup, fenceLaunch⟩

theorem fence_issues : Issues fenceState fenceEnv ⟨false, 0⟩ := ⟨rfl, rfl, rfl⟩

/-- The older load keeps the store in the buffer, and the store counts outside the device only. -/
theorem fence_release : release fenceState fenceSid (some .dev) = (fenceState, true) := by
  have hd : drain fenceState fenceSid = fenceState := rfl
  rw [release, hd]
  rfl

theorem fence_exec : exec (.sfence ⟨false, 0⟩ .dev) fenceState = .next (fenceState.after fenceEnv (fenceStrand.pc + 4) fun st => st) := by
  show execSfence ⟨false, 0⟩ .dev fenceState = _
  rw [execSfence, scalarWord_runs fence_issues 4 noCheck _ rfl]
  have hr : release fenceState fenceEnv.sid (some .dev) = (fenceState, true) := fence_release
  simp only [hr, if_true]
  rfl

/-- Refutes O28: at device scope the release holds with nothing unacknowledged on the device, while a store of the scalar stream to a
remote window, held back by an older load, is still in the buffer after the fence. -/
theorem not_fencesWaitForStores : ¬ Obligations.FencesWaitForStores := by
  unfold Obligations.FencesWaitForStores
  intro h
  obtain ⟨hrel, -, -⟩ := h fenceState fenceEnv ⟨false, 0⟩ .dev fence_issues
  obtain ⟨t, st, ht, hst, -, -, -, -, hstores, -, -⟩ := hrel (congrArg Prod.snd fence_release)
  rw [fence_exec, Host.Outcome.next.injEq] at ht
  subst ht
  rw [after_strand fence_issues.env, Option.some.injEq] at hst
  subst hst
  exact absurd (hstores (by decide) fenceStore (List.mem_singleton.2 rfl)).1 (by decide)

end Sys2Proof.Machine
end

section
/-! Barriers (07 R198, R199, R181; 04 R96): a member arrives in the open phase once its release holds, and the phase ends when every
member has arrived. -/

namespace Sys2Proof.Machine
open Sys2Proof

/-! ## The members of a barrier -/

/-- Who is a member is read from the workgroups, the launches and which strands there are. -/
theorem barMembers_congr {s t : State} (hw : t.wgs = s.wgs) (hl : t.launches = s.launches)
    (hk : t.strands.map Prod.fst = s.strands.map Prod.fst) (k : BarKey) : barMembers t k = barMembers s k := by
  cases k <;> simp only [barMembers, strandsOf, wgsOf, hw, hl, hk]

/-! ## Arriving -/

/-- The machine with a strand's arrival noted in the open phase. -/
def State.arrived (s : State) (k : BarKey) (sid : StrandId) : State :=
  { s with bars := s.bars.set k { s.bar k with arrived := (s.bar k).arrived ++ [sid] } }

theorem arrived_bar (s : State) (k : BarKey) (sid : StrandId) :
    (s.arrived k sid).bar k = { s.bar k with arrived := (s.bar k).arrived ++ [sid] } := by
  simp [State.arrived, State.bar]

theorem arrived_bar_other (s : State) {k k' : BarKey} (h : k' ≠ k) (sid : StrandId) : (s.arrived k sid).bar k' = s.bar k' := by
  simp [State.arrived, State.bar, Assoc.get?_set, Ne.symm h]

section
variable {s : State} {e : Env} {k : BarKey}

theorem arrive_new (hb : (s.bar k).broken = false) (ha : e.sid ∉ (s.bar k).arrived) (sync : Bool) :
    arrive s e k sync = if sync then .wait (s.arrived k e.sid) (.barrier k) else .done (s.arrived k e.sid) := by
  have hbk : ¬ (s.bar k).broken = true := by simp [hb]
  have hc : ¬ (s.bar k).arrived.contains e.sid = true := by simpa using ha
  rw [arrive, if_neg hbk, if_neg hc]
  rfl

theorem arrive_again (hb : (s.bar k).broken = false) (ha : e.sid ∈ (s.bar k).arrived) (sync : Bool) :
    arrive s e k sync = .wait s (.again k sync) := by
  simp only [arrive, hb, List.contains_eq_mem, decide_eq_true ha, Bool.false_eq_true, if_false, if_true]

theorem arrive_broken (hb : (s.bar k).broken = true) (sync : Bool) : arrive s e k sync = .fault s { code := .barrier } := by
  simp only [arrive, hb, if_true]

end

/-! ## The words -/

section
variable {s : State} {e : Env} {h : Nat} {k : BarKey} (hk : barKey s e h = some k)
include hk

theorem barBody_stranger (hm : e.sid ∉ barMembers s k) (sync : Bool) : barBody h sync e s = .fault s { code := .barrier } := by
  simp only [barBody, hk, List.contains_eq_mem, decide_eq_false hm, Bool.not_false, if_true]

theorem barBody_busy (hm : e.sid ∈ barMembers s k) (hq : e.st.laneQ ≠ []) : barBody h true e s = .wait s .retry := by
  simp [barBody, hk, hm, hq]

/-- A member whose release holds arrives; SBAR once the strand has no block. -/
theorem barBody_member (hm : e.sid ∈ barMembers s k) (hr : (release s e.sid (some (barScope k))).2 = true) {sync : Bool}
    (hq : sync = true → e.st.laneQ = []) : barBody h sync e s = arrive (release s e.sid (some (barScope k))).1 e k sync := by
  have hc : (sync && !e.st.laneQ.isEmpty) = false := by cases sync <;> simp_all
  simp only [barBody, hk, List.contains_eq_mem, decide_eq_true hm, hc, hr, Bool.not_true, Bool.false_eq_true, if_false, if_true]

end

section
variable {s : State} {e : Env} {g : Guard} {h : Fin 64}

theorem exec_sbar {k : BarKey} (hi : Issues s e g) (hk : barKey s e h.val = some k) :
    exec (.sbar g h) s = .next ((barBody h.val true e s).finish e 4) := scalarWord_runs hi 4 (needBar h.val) _ (by simp [needBar, hk])

theorem exec_sbara {k : BarKey} (hi : Issues s e g) (hk : barKey s e h.val = some k) :
    exec (.sbara g h) s = .next ((barBody h.val false e s).finish e 4) := scalarWord_runs hi 4 (needBar h.val) _ (by simp [needBar, hk])

theorem needBar_untranslated (hk : barKey s e h.val = none) : needBar h.val e s = some .illegalOperand := by
  simp [needBar, hk]

end

/-! ## The end of a phase -/

/-- What the end of a phase leaves as it was: memory, the workgroups and the phase itself, and every strand but one. -/
structure LeavesPhase (k : BarKey) (sid : StrandId) (s t : State) : Prop where
  mem : t.mem = s.mem
  wgs : t.wgs = s.wgs
  phase : (t.bar k).phase = (s.bar k).phase
  strand : t.strands.get? sid = s.strands.get? sid

namespace LeavesPhase

theorem refl (k : BarKey) (sid : StrandId) (s : State) : LeavesPhase k sid s s := ⟨rfl, rfl, rfl, rfl⟩

theorem trans {k : BarKey} {sid : StrandId} {s t u : State} (h : LeavesPhase k sid s t) (h' : LeavesPhase k sid t u) :
    LeavesPhase k sid s u := ⟨h'.mem.trans h.mem, h'.wgs.trans h.wgs, h'.phase.trans h.phase, h'.strand.trans h.strand⟩

theorem modStrand (k : BarKey) {sid x : StrandId} (hx : x ≠ sid) (s : State) (f : Strand → Strand) :
    LeavesPhase k sid s (s.modStrand x f) := ⟨rfl, rfl, rfl, Assoc.get?_modify_other _ _ hx⟩

end LeavesPhase

theorem leavePhase_other (k : BarKey) {sid x : StrandId} (hx : x ≠ sid) (s : State) : LeavesPhase k sid s (leavePhase k s x) := by
  unfold leavePhase
  split
  · exact .refl k sid s
  split
  · split
    · exact .modStrand k hx s _
    · exact .refl k sid s
  · split
    · have ha : LeavesPhase k sid s (s.arrived k x) := ⟨rfl, rfl, by rw [arrived_bar], rfl⟩
      dsimp only
      split
      · exact ha.trans (.modStrand k hx _ _)
      · exact ha.trans (.modStrand k hx _ _)
    · exact .refl k sid s
  · exact .refl k sid s

theorem leavePhase_waiter {s : State} {k : BarKey} {sid : StrandId} {st : Strand} (h : s.strands.get? sid = some st)
    (hw : st.wait = some (.barrier k)) : leavePhase k s sid = s.modStrand sid fun st => st.next (st.pc + 4) s.cycle := by
  simp only [leavePhase, h, hw, if_true]

/-- A member that waits for the phase goes on, whichever members leave before it and after it. -/
theorem foldl_leavePhase {k : BarKey} {sid : StrandId} {st : Strand} {l : List StrandId} (hn : l.Nodup) (hm : sid ∈ l) {s : State}
    (h : s.strands.get? sid = some st) (hw : st.wait = some (.barrier k)) :
    let t := l.foldl (leavePhase k) s
    t.mem = s.mem ∧ t.wgs = s.wgs ∧ (t.bar k).phase = (s.bar k).phase ∧ ∃ c, t.strands.get? sid = some (st.next (st.pc + 4) c) := by
  obtain ⟨l1, l2, rfl⟩ := List.append_of_mem hm
  have hcons := List.nodup_append.1 hn
  have h1 : sid ∉ l1 := fun hin => hcons.2.2 sid hin sid (List.mem_cons_self ..) rfl
  have h2 : sid ∉ l2 := (List.nodup_cons.1 hcons.2.1).1
  have keeps {l : List StrandId} (hl : sid ∉ l) (u : State) : LeavesPhase k sid u (l.foldl (leavePhase k) u) := by
    induction l generalizing u with
    | nil => exact .refl k sid u
    | cons x l ih =>
      simp only [List.mem_cons, not_or] at hl
      exact (leavePhase_other k (Ne.symm hl.1) u).trans (ih hl.2 _)
  have ha := keeps h1 s
  have hb := leavePhase_waiter (ha.strand.trans h) hw
  have hc := keeps h2 (leavePhase k (l1.foldl (leavePhase k) s) sid)
  rw [List.foldl_append, List.foldl_cons]
  refine ⟨?_, ?_, ?_, (l1.foldl (leavePhase k) s).cycle, ?_⟩
  · rw [hc.mem, hb]; exact ha.mem
  · rw [hc.wgs, hb]; exact ha.wgs
  · rw [hc.phase, hb]; exact ha.phase
  · rw [hc.strand, hb]; exact State.modStrand_self (ha.strand.trans h) _

/-- A phase that is done ends: the next one is open, and a member that waits for it goes on by one word. -/
theorem completePhase_done {s : State} {k : BarKey} {sid : StrandId} {st : Strand} (hd : phaseDone s k = true)
    (hn : (barMembers s k).Nodup) (hm : sid ∈ barMembers s k) (h : s.strands.get? sid = some st) (hw : st.wait = some (.barrier k)) :
    let t := completePhase s k
    t.mem = s.mem ∧ t.wgs = s.wgs ∧ (t.bar k).phase = (s.bar k).phase + 1 ∧ ∃ c, t.strands.get? sid = some (st.next (st.pc + 4) c) := by
  rw [completePhase, if_pos hd]
  obtain ⟨hmem, hwgs, hphase, hst⟩ := foldl_leavePhase hn hm
    (s := { s with bars := s.bars.set k { s.bar k with phase := (s.bar k).phase + 1, arrived := [] } }) h hw
  exact ⟨hmem, hwgs, hphase.trans (by simp [State.bar]), hst⟩

theorem hasArrived_iff {s : State} {b : Bar} {t : StrandId} :
    hasArrived s b t = true ↔ t ∈ b.arrived ∨ ∃ st, s.strands.get? t = some st ∧ st.sexit = true := by
  unfold hasArrived
  cases h : s.strands.get? t <;> simp

theorem isParked_iff {s : State} {t : StrandId} : isParked s t = true ↔ ∃ w p, s.wgs.get? t.wg = some w ∧ w.parked = some p := by
  unfold isParked
  cases h : s.wgs.get? t.wg <;> simp [Option.isSome_iff_exists]

theorem phaseDone_iff {s : State} {k : BarKey} : phaseDone s k = true ↔ (s.bar k).broken = false ∧ (s.bar k).arrived ≠ [] ∧
    ∀ t ∈ barMembers s k, hasArrived s (s.bar k) t = true ∧ isParked s t = false := by
  simp only [phaseDone, Bool.and_eq_true, Bool.not_eq_true', List.isEmpty_eq_false_iff, List.all_eq_true]
  tauto

/-! ## The last arrival -/

section
variable {s : State} {e : Env} {k : BarKey} (henv : s.env? e.sid = some e)

/-- The machine once SBAR has arrived: the strand waits for the phase. -/
def State.atBarrier (s : State) (e : Env) (k : BarKey) : State := (s.arrived k e.sid).waits e.sid (.barrier k)

theorem atBarrier_members (s : State) (e : Env) (k : BarKey) : barMembers (s.atBarrier e k) k = barMembers s k :=
  barMembers_congr (s := s) (t := s.atBarrier e k) rfl rfl (Assoc.keys_modify _ _ _) k

theorem atBarrier_bar (s : State) (e : Env) (k : BarKey) : (s.atBarrier e k).bar k = { s.bar k with arrived := (s.bar k).arrived ++ [e.sid] } :=
  arrived_bar s k e.sid

/-- With everyone else arrived the phase is done. -/
theorem atBarrier_done (hb : (s.bar k).broken = false)
    (hall : ∀ m ∈ barMembers s k, (m = e.sid ∨ m ∈ (s.bar k).arrived) ∧ isParked s m = false) : phaseDone (s.atBarrier e k) k = true := by
  rw [phaseDone_iff, atBarrier_members, atBarrier_bar]
  refine ⟨hb, by simp, fun m hm => ⟨hasArrived_iff.2 (.inl ?_), (hall m hm).2⟩⟩
  obtain rfl | h := (hall m hm).1 <;> simp [*]

end

theorem barScope_released {s : State} {e : Env} (h : s.env? e.sid = some e) (hs : e.st.stores = []) (hd : e.st.unackDev = 0) (k : BarKey) :
    release s e.sid (some (barScope k)) = (s, true) :=
  release_empty h hs (fun _ => hd) (by cases k <;> simp [barScope])

/-- Settles O30: arrival, second arrival, a broken barrier, a stranger, an untranslated handle, and the end of the phase. -/
theorem barrierWords : Obligations.BarrierWords := by
  unfold Obligations.BarrierWords
  refine ⟨fun s e g h k hi hk => ?_, fun s e g h hcur henv hk => ?_, fun s k sid st hd hn hm hst hw => ?_, fun s k => ?_, fun s k hd => ?_⟩
  · intro r b
    have sbar := exec_sbar hi hk
    have sbara := exec_sbara hi hk
    have ho := release_onlyStores s e.sid (some (barScope k))
    have hbar (k' : BarKey) : r.1.bar k' = s.bar k' := by rw [State.bar, ho.bars, State.bar]
    obtain ⟨st, hst, hbuf⟩ := ho.of_env hi.env
    refine ⟨fun hm hb hr ha => ⟨?_, fun hq => ?_, fun hq => ?_⟩, fun hm hb hr ha hq => ⟨?_, ?_⟩,
      fun hm hb hr => ⟨?_, fun hq => ?_⟩, fun hm hn hb ha hs hd => ⟨?_, fun hq hall => ?_⟩, fun hm => ⟨?_, ?_⟩⟩
    · rw [barBody_member hk hm hr (by simp), arrive_new (by rw [hbar]; exact hb) (by rw [hbar]; exact ha)] at sbara
      obtain ⟨w, l, u, y, rfl⟩ := hbuf
      exact ⟨_, _, sbara, (arrived_bar r.1 k e.sid).trans (by rw [hbar]), fun k' hk' => (arrived_bar_other r.1 hk' e.sid).trans (hbar k'),
        State.modStrand_self (s := r.1.arrived k e.sid) hst _, rfl, rfl, rfl, ho.wgs⟩
    · rw [barBody_member hk hm hr fun _ => hq, arrive_new (by rw [hbar]; exact hb) (by rw [hbar]; exact ha)] at sbar
      obtain ⟨w, l, u, y, rfl⟩ := hbuf
      exact ⟨_, _, sbar, (arrived_bar r.1 k e.sid).trans (by rw [hbar]), fun k' hk' => (arrived_bar_other r.1 hk' e.sid).trans (hbar k'),
        State.modStrand_self (s := r.1.arrived k e.sid) hst _, rfl, rfl, rfl, ho.wgs⟩
    · rw [sbar, barBody_busy hk hm hq, finish_wait]
    · rw [sbara, barBody_member hk hm hr (by simp), arrive_again (by rw [hbar]; exact hb) (by rw [hbar]; exact ha), finish_wait]
    · rw [sbar, barBody_member hk hm hr fun _ => hq, arrive_again (by rw [hbar]; exact hb) (by rw [hbar]; exact ha), finish_wait]
    · rw [sbara, barBody_member hk hm hr (by simp), arrive_broken (by rw [hbar]; exact hb)]; rfl
    · rw [sbar, barBody_member hk hm hr fun _ => hq, arrive_broken (by rw [hbar]; exact hb)]; rfl
    · have hrel := barScope_released hi.env hs hd k
      rw [barBody_member hk hm (by rw [hrel]) (by simp), hrel, arrive_new hb ha] at sbara
      exact ⟨_, _, sbara, State.modStrand_self (s := s.arrived k e.sid) (State.env?_strand hi.env).2.1 _, rfl, rfl,
        (congrArg (fun b : Bar => e.sid ∈ b.arrived) (arrived_bar s k e.sid)).mpr (by simp)⟩
    · have hrel := barScope_released hi.env hs hd k
      rw [barBody_member hk hm (by rw [hrel]) fun _ => hq, hrel, arrive_new hb ha] at sbar
      obtain ⟨-, -, hphase, c, hst'⟩ := completePhase_done (atBarrier_done hb hall) (by rw [atBarrier_members]; exact hn)
        (by rw [atBarrier_members]; exact hm)
        (State.modStrand_self (s := s.arrived k e.sid) (State.env?_strand hi.env).2.1 _) rfl
      exact ⟨_, _, _, sbar, rfl, hst', rfl, rfl, hphase.trans (by rw [atBarrier_bar])⟩
    · rw [sbara, barBody_stranger hk hm]; rfl
    · rw [sbar, barBody_stranger hk hm]; rfl
  · exact ⟨scalarWord_refuses hcur henv g 4 (check := needBar h.val) _ (needBar_untranslated hk),
      scalarWord_refuses hcur henv g 4 (check := needBar h.val) _ (needBar_untranslated hk)⟩
  · obtain ⟨hmem, hwgs, hphase, c, hst'⟩ := completePhase_done hd hn hm hst hw
    exact ⟨_, _, rfl, hphase, hst', rfl, rfl, rfl, hmem, hwgs⟩
  · rw [phaseDone_iff]
    simp only [hasArrived_iff, ← isParked_iff, Bool.not_eq_true]
  · show Host.Outcome.next (completePhase s k) = _
    rw [completePhase, if_neg (by simp [hd])]

end Sys2Proof.Machine
end

section
/-! The system registers of a world at W (07 R212; 16 R306, R313 to R318): descriptor tables, gates and their replies, the debug enable. -/

namespace Sys2Proof.Machine
open Sys2Proof

/-! ## Stores of a world -/

theorem drainWorld_onlyStores (s : State) (world : Nat) : OnlyStores s (drainWorld s world) := by
  unfold drainWorld
  refine .foldl (fun u k => ?_) _ _
  split
  · split
    · exact drain_onlyStores u k
    · exact .refl u
  · exact .refl u

/-- Where no strand has a store buffered, nothing is drained. -/
theorem drainWorld_empty {s : State} (h : ∀ p ∈ s.strands, p.2.stores = []) (world : Nat) : drainWorld s world = s := by
  refine foldl_keeps (fun u => u = s) _ (fun u k hu => ?_) _ s rfl
  subst hu
  split
  · rename_i e he
    split
    · obtain ⟨rfl, hst, -⟩ := State.env?_strand he
      exact drain_empty he (h _ (Assoc.mem_of_get? hst))
    · rfl
  · rfl

theorem storesHeld_empty {s : State} (h : ∀ p ∈ s.strands, p.2.stores = []) (world n : Nat) : storesHeld s world n = false := by
  rw [storesHeld, List.any_eq_false]
  intro p hp
  simp [h p hp]

/-- A release to every die changes global memory and the hub's counts. -/
theorem publish_rest (s : State) : { publish s with mem := s.mem, hub := s.hub } = s := by
  have drop (u : State) (e : Fin 4) (w : WriteMsg) : { dropWrite u e w with mem := u.mem, hub := u.hub } = u := rfl
  refine foldl_keeps (fun u : State => { u with mem := s.mem, hub := s.hub } = s) _ (fun u e hu => ?_) _ s rfl
  have hall : { applyAll u e with mem := u.mem, hub := u.hub } = u :=
    foldl_keeps (fun v : State => { v with mem := u.mem, hub := u.hub } = u) _ (fun v w hv => by
      rw [← drop v e w] at hv; exact hv) _ u rfl
  rw [← hall] at hu
  exact hu

section
variable (s : State)

theorem publish_strands : (publish s).strands = s.strands := by conv_rhs => rw [← publish_rest s]
theorem publish_worlds : (publish s).worlds = s.worlds := by conv_rhs => rw [← publish_rest s]
theorem publish_xlat : (publish s).xlat = s.xlat := by conv_rhs => rw [← publish_rest s]
theorem publish_cycle : (publish s).cycle = s.cycle := by conv_rhs => rw [← publish_rest s]

end

/-! ## Words of system registers -/

section
variable {s : State} {e : Env} {g : Guard} (hi : Issues s e g) (a : SReg) (body : Env → State → W64 → Eff)
include hi

theorem systemWord_user (hp : e.l.desc.priv = false) :
    systemWord g a body s = .next (faultScalar s e { code := .access }) := by
  rw [systemWord, scalarWord_runs hi 4 noCheck _ rfl]
  simp only [Env.priv, hp, Bool.false_eq_true, if_false]
  rfl

theorem systemWord_runs (hp : e.l.desc.priv = true) : systemWord g a body s = .next ((body e s (e.st.rd a)).finish e 4) := by
  rw [systemWord, scalarWord_runs hi 4 noCheck _ rfl]
  simp only [Env.priv, hp, if_true]

end

/-! ## FDTSYNC_COMPLETE -/

/-- The machine once a world's descriptors, those of one index or all of them, have left every TLB and the word is past. -/
def State.synced (s : State) (e : Env) (k : Nat) : State :=
  (dropDescs s e.world fun t => k == 256 || t.index == k).after e (e.st.pc + 4) fun st => st

theorem synced_strand {s : State} {e : Env} {st : Strand} (h : s.strands.get? e.sid = some st) (k : Nat) :
    (s.synced e k).strands.get? e.sid = some (st.next (e.st.pc + 4) s.cycle) :=
  State.modStrand_self (s := dropDescs s e.world fun t => k == 256 || t.index == k) h _

theorem synced_tlb (s : State) (e : Env) (k : Nat) (x : TlbEntry) :
    x ∈ (s.synced e k).xlat.tlb ↔ x ∈ s.xlat.tlb ∧ ¬ (x.world = e.world ∧ (k = 256 ∨ x.index = k)) := by
  have ht : (s.synced e k).xlat.tlb = s.xlat.tlb.filter fun t => !(t.world == e.world && (k == 256 || t.index == k)) := rfl
  rw [ht, List.mem_filter]
  simp only [Bool.not_eq_true', Bool.and_eq_false_iff, beq_eq_false_iff_ne, Bool.or_eq_false_iff]
  tauto

theorem fdtsyncBody_held {s : State} {e : Env} {k n : Nat} (h : storesHeld (drainWorld s e.world) e.world n = true) :
    (fdtsyncBody k n e s).finish e 4 = (drainWorld s e.world).waits e.sid (.fdtsync k n) := by
  simp only [fdtsyncBody, h, if_true]; rfl

theorem fdtsyncBody_clear {s : State} {e : Env} {k n : Nat} (h : storesHeld (drainWorld s e.world) e.world n = false) :
    (fdtsyncBody k n e s).finish e 4 = (publish (drainWorld s e.world)).synced e k := by
  simp only [fdtsyncBody, h, Bool.false_eq_true, if_false]; rfl

theorem exec_fdtsyncComplete {s : State} {e : Env} {k n : Nat} (henv : s.env? e.sid = some e) (hr : mayResume e = true)
    (hw : e.st.wait = some (.fdtsync k n)) : exec (.fdtsyncComplete e.sid) s = .next ((fdtsyncBody k n e s).finish e 4) :=
  congrArg _ (resumeWord_runs henv hr hw rfl)

/-! ## Gates -/

/-- What a world says of a gate it serves, and of a handle it holds. -/
def State.servedGate (s : State) (server gate : Nat) : Option Gate := (s.worlds.get? server).bind fun w => w.served.get? gate
def State.heldHandle (s : State) (world handle : Nat) : Option (Nat × Nat) := (s.worlds.get? world).bind fun w => w.handles.get? handle

/-- Closing the tickets that wait at a gate. -/
def closeTickets (s : State) (l : List Nat) : State :=
  l.foldl (fun (s : State) t => { s with tickets := s.tickets.modify t fun k => { k with state := .closed } }) s

theorem closeTickets_worlds (s : State) (l : List Nat) : (closeTickets s l).worlds = s.worlds :=
  foldl_keeps (fun t : State => t.worlds = s.worlds) (fun (s : State) t => { s with tickets := s.tickets.modify t fun k => { k with state := .closed } })
    (fun _ _ h => h) l s rfl

theorem closeTickets_closed (s : State) {l : List Nat} {t : Nat} (ht : t ∈ l) {k : Ticket} (hk : (closeTickets s l).tickets.get? t = some k) :
    k.state = .closed := by
  refine foldl_reaches (P := fun u : State => ∀ k, u.tickets.get? t = some k → k.state = .closed) (Q := fun _ => True) ht
    (fun _ _ _ => trivial) (fun u y hu k hk => ?_) (fun u _ k hk => ?_) (a := s) trivial k hk
  · rw [Assoc.get?_modify] at hk
    split at hk
    · obtain ⟨j, -, rfl⟩ := Option.map_eq_some_iff.1 hk
      rfl
    · exact hu k hk
  · rw [Assoc.get?_modify_same] at hk
    obtain ⟨j, -, rfl⟩ := Option.map_eq_some_iff.1 hk
    rfl

section
variable {s : State} {server gate : Nat} {x : Gate} (h : s.servedGate server gate = some x)
include h

theorem closeGate_eq : closeGate s server gate = closeTickets ((s.modWorld x.client fun w => { w with handles := w.handles.erase x.handle }).modWorld
    server fun w => { w with served := w.served.erase gate }) x.pending := by
  unfold closeGate
  rw [show (s.worlds.get? server).bind (fun w => w.served.get? gate) = some x from h]
  rfl

theorem closeGate_served : (closeGate s server gate).servedGate server gate = none := by
  rw [closeGate_eq h, State.servedGate, closeTickets_worlds, State.modWorld_worlds, Assoc.get?_modify_same]
  cases ((s.modWorld x.client fun w => { w with handles := w.handles.erase x.handle }).worlds.get? server) with
  | none => rfl
  | some w => simp [Assoc.get?_erase]

theorem closeGate_handle : (closeGate s server gate).heldHandle x.client x.handle = none := by
  rw [closeGate_eq h, State.heldHandle, closeTickets_worlds, State.modWorld_worlds, Assoc.get?_modify, State.modWorld_worlds,
    Assoc.get?_modify_same]
  cases s.worlds.get? x.client with
  | none => split <;> rfl
  | some w => split <;> simp [Assoc.get?_erase]

theorem closeGate_tickets {t : Nat} (ht : t ∈ x.pending) {k : Ticket} (hk : (closeGate s server gate).tickets.get? t = some k) :
    k.state = .closed := by
  rw [closeGate_eq h] at hk
  exact closeTickets_closed _ ht hk

end

section
variable {s : State} {server : Nat} {sw cw : World} {bs : List Byte} (hs : s.worlds.get? server = some sw)
  (hc : s.worlds.get? (fieldNat bs 12 2) = some cw) (ha : cw.alive = true) (hh : cw.handles.get? (fieldNat bs 14 1) = none)
  (hg : sw.served.get? (fieldNat bs 16 4) = none)

/-- The gate that a registration's record describes. -/
def gateOf (bs : List Byte) : Gate :=
  { client := fieldNat bs 12 2, handle := fieldNat bs 14 1, base := fieldNat bs 0 8, depth := fieldNat bs 8 4, posted := 0, pending := [] }

/-- The machine with a registered gate, before the two worlds are told. -/
def State.registered (s : State) (server : Nat) (bs : List Byte) : State :=
  (s.modWorld (fieldNat bs 12 2) fun w => { w with handles := w.handles.set (fieldNat bs 14 1) (server, fieldNat bs 16 4) }).modWorld server
    fun w => { w with served := w.served.set (fieldNat bs 16 4) (gateOf bs) }

include hs hc ha hh hg in
theorem registerGate_eq : registerGate s server bs = ((s.registered server bs).tell server (.gate (fieldNat bs 16 4) 0)).tell
    (fieldNat bs 12 2) (.gateOpened (fieldNat bs 14 1) server) := by
  have hf : ((s.worlds.get? server).bind fun w => w.served.get? (fieldNat bs 16 4)) = none := by rw [hs]; exact hg
  simp only [registerGate, hc, ha, hh, hf, Bool.not_true, Bool.false_eq_true, Option.isSome_none, if_false]
  rfl

include hc in
theorem registered_handle : (s.registered server bs).heldHandle (fieldNat bs 12 2) (fieldNat bs 14 1) = some (server, fieldNat bs 16 4) := by
  rw [State.heldHandle, State.registered, State.modWorld_worlds, Assoc.get?_modify, State.modWorld_worlds, Assoc.get?_modify_same, hc]
  split <;> simp

include hs in
theorem registered_served : (s.registered server bs).servedGate server (fieldNat bs 16 4) = some (gateOf bs) := by
  rw [State.servedGate, State.registered, State.modWorld_worlds, Assoc.get?_modify_same, State.modWorld_worlds, Assoc.get?_modify, hs]
  split <;> simp

end

section
variable {s : State} {k : Ticket} {st : Strand} (hst : s.strands.get? k.holder = some st) (server gate t : Nat) (bs : List Byte)

/-- The machine with a ticket no longer waiting at its gate. -/
def State.answered (s : State) (server gate t : Nat) : State :=
  s.modWorld server fun w => { w with served := w.served.modify gate fun g => { g with pending := g.pending.filter fun x => x ≠ t } }

theorem answered_pending (s : State) {x : Gate} (hx : (s.answered server gate t).servedGate server gate = some x) : t ∉ x.pending := by
  rw [State.servedGate, State.answered, State.modWorld_worlds, Assoc.get?_modify_same] at hx
  cases hw : s.worlds.get? server with
  | none => rw [hw] at hx; cases hx
  | some w =>
    rw [hw] at hx
    simp only [Option.map_some, Option.bind_some, Assoc.get?_modify_same] at hx
    obtain ⟨y, -, rfl⟩ := Option.map_eq_some_iff.1 hx
    simp

include hst

theorem replyTicket_eq : replyTicket s server gate t k bs = if t ∈ st.tickets
    then { s.answered server gate t with tickets := s.tickets.set t { k with state := .replied bs } }
    else { s.answered server gate t with tickets := s.tickets.erase t } := by
  have hst' : (s.answered server gate t).strands.get? k.holder = some st := hst
  show (if (match (s.answered server gate t).strands.get? k.holder with
      | some st => st.tickets.contains t
      | none => false) then _ else _) = _
  rw [hst']
  simp only [List.contains_eq_mem, decide_eq_true_eq]
  rfl

end

end Sys2Proof.Machine
end

section
/-! The system registers settled: at U, at W by register, and the end of FDTSYNC's wait (07 R212; 16 R313 to R318). -/

namespace Sys2Proof.Machine
open Sys2Proof

/-- What stands in a table once one entry has been changed. -/
theorem Assoc.mem_modify {κ α : Type} [DecidableEq κ] {l : Assoc κ α} {k : κ} {f : α → α} {p : κ × α} (h : p ∈ l.modify k f) :
    p ∈ l ∨ ∃ q ∈ l, p = (q.1, f q.2) := by
  induction l with
  | nil => cases h
  | cons q t ih =>
    simp only [Assoc.modify] at h
    split at h <;> obtain rfl | h := List.mem_cons.1 h
    · exact .inr ⟨q, List.mem_cons_self .., rfl⟩
    · exact .inl (List.mem_cons_of_mem _ h)
    · exact .inl (List.mem_cons_self ..)
    · obtain h | ⟨x, hx, rfl⟩ := ih h
      · exact .inl (List.mem_cons_of_mem _ h)
      · exact .inr ⟨x, List.mem_cons_of_mem _ hx, rfl⟩

section
variable {s : State} {e : Env} {g : Guard} (hi : Issues s e g) (hp : e.l.desc.priv = true) {a : SReg}
include hi hp

/-- A value that its register does not take. -/
theorem systemWord_refuses {body : Env → State → W64 → Eff} (h : body e s (e.st.rd a) = .fault s { code := .illegalOperand }) :
    systemWord g a body s = .next (faultScalar s e { code := .illegalOperand }) := by
  rw [systemWord_runs hi a body hp, h]; rfl

theorem exec_fdtb (h : (e.st.rd a).toNat % 8192 = 0) (hr : (release s e.sid (some .dev)).2 = true) :
    exec (.fdtb g a) s = .next (((drainWorld (release s e.sid (some .dev)).1 e.world).modWorld e.world fun w =>
      { w with fdtb := some (e.st.rd a).toNat }).waits e.sid (.fdtsync 256 (release s e.sid (some .dev)).1.nextId)) := by
  show execFdtb g a s = _
  rw [execFdtb, systemWord_runs hi a _ hp]
  simp only [h, hr, ne_eq, not_true_eq_false, Bool.not_true, Bool.false_eq_true, if_false]
  rw [State.modWorld_nextId, (drainWorld_onlyStores _ _).nextId]
  rfl

theorem exec_fdtsync (h : (e.st.rd a).toNat ≤ 256) (hr : (release s e.sid (some .dev)).2 = true) :
    exec (.fdtsync g a) s = .next ((drainWorld (release s e.sid (some .dev)).1 e.world).waits e.sid
      (.fdtsync (e.st.rd a).toNat (release s e.sid (some .dev)).1.nextId)) := by
  show execFdtsync g a s = _
  rw [execFdtsync, systemWord_runs hi a _ hp]
  simp only [not_lt.2 h, hr, Bool.not_true, Bool.false_eq_true, if_false]
  rfl

theorem exec_debugen (h : (e.st.rd a).toNat ≤ 1) : exec (.debugen g a) s =
    .next ((s.modWorld e.world fun w => { w with debugen := decide ((e.st.rd a).toNat = 1) }).after e (e.st.pc + 4) fun st => st) := by
  show execDebugen g a s = _
  rw [execDebugen, systemWord_runs hi a _ hp, if_neg (not_lt.2 h)]; rfl

theorem exec_gateclose_own (h : (e.st.rd a).toNat < 256) :
    exec (.gateclose g a) s = .next ((closeGate s e.world (e.st.rd a).toNat).after e (e.st.pc + 4) fun st => st) := by
  show execGateclose g a s = _
  rw [execGateclose, systemWord_runs hi a _ hp, if_neg (by omega), if_pos h, Nat.mod_eq_of_lt h]; rfl

/-- A close by its client's handle. -/
theorem exec_gateclose_handle (hl : 256 ≤ (e.st.rd a).toNat) (hu : (e.st.rd a).toNat < 512) {server gate : Nat}
    (hd : s.heldHandle e.world ((e.st.rd a).toNat - 256) = some (server, gate)) :
    exec (.gateclose g a) s = .next ((closeGate s server gate).after e (e.st.pc + 4) fun st => st) := by
  show execGateclose g a s = _
  rw [State.heldHandle] at hd
  rw [execGateclose, systemWord_runs hi a _ hp, if_neg (by omega), if_neg (by omega),
    show (e.st.rd a).toNat % 256 = (e.st.rd a).toNat - 256 by omega, hd]
  rfl

theorem exec_gateclose_free (hl : 256 ≤ (e.st.rd a).toNat) (hu : (e.st.rd a).toNat < 512)
    (hd : s.heldHandle e.world ((e.st.rd a).toNat - 256) = none) :
    exec (.gateclose g a) s = .next (s.after e (e.st.pc + 4) fun st => st) := by
  show execGateclose g a s = _
  rw [State.heldHandle] at hd
  rw [execGateclose, systemWord_runs hi a _ hp, if_neg (by omega), if_neg (by omega),
    show (e.st.rd a).toNat % 256 = (e.st.rd a).toNat - 256 by omega, hd]
  rfl

theorem exec_gatereg {s1 : State} {bs : List Byte} (h : (e.st.rd a).toNat % 64 = 0)
    (hb : strandBytes e s (e.st.rd a).toNat 64 = .ok (s1, bs)) : exec (.gatereg g a) s = .next (if gateRecordOk bs
      then (registerGate s1 e.world bs).after e (e.st.pc + 4) fun st => st else faultScalar s1 e { code := .illegalOperand }) := by
  show execGatereg g a s = _
  rw [execGatereg, systemWord_runs hi a _ hp]
  simp only [h, hb, ne_eq, not_true_eq_false, if_false]
  cases gateRecordOk bs <;> rfl

section
variable {s1 : State} {bs : List Byte} {k : Ticket} {x : Gate} (h : (e.st.rd a).toNat % 128 = 0)
  (hb : strandBytes e s (e.st.rd a).toNat 128 = .ok (s1, bs)) (hr : (release s1 e.sid (some .dev)).2 = true)
  (hk : (release s1 e.sid (some .dev)).1.tickets.get? (fieldNat bs 0 8) = some k)
  (hx : ((release s1 e.sid (some .dev)).1.worlds.get? e.world).bind (fun w => w.served.get? (fieldNat bs 8 4)) = some x)
include h hb hr hk hx

theorem exec_gatereply (ht : fieldNat bs 0 8 ∈ x.pending) (hl : fieldNat bs 12 1 ≤ 64) :
    exec (.gatereply g a) s = .next ((replyTicket (release s1 e.sid (some .dev)).1 e.world (fieldNat bs 8 4) (fieldNat bs 0 8) k
      ((bs.drop 64).take (fieldNat bs 12 1))).after e (e.st.pc + 4) fun st => st) := by
  show execGatereply g a s = _
  rw [execGatereply, systemWord_runs hi a _ hp]
  have hc : (!x.pending.contains (fieldNat bs 0 8) || decide (64 < fieldNat bs 12 1)) = false := by simp [ht, hl]
  simp only [h, hb, hr, hk, hx, hc, ne_eq, not_true_eq_false, Bool.not_true, Bool.false_eq_true, if_false]
  rfl

theorem exec_gatereply_stranger (ht : fieldNat bs 0 8 ∉ x.pending) :
    exec (.gatereply g a) s = .next (faultScalar (release s1 e.sid (some .dev)).1 e { code := .illegalOperand }) := by
  show execGatereply g a s = _
  rw [execGatereply, systemWord_runs hi a _ hp]
  have hc : (!x.pending.contains (fieldNat bs 0 8) || decide (64 < fieldNat bs 12 1)) = true := by simp [ht]
  simp only [h, hb, hr, hk, hx, hc, ne_eq, not_true_eq_false, Bool.not_true, Bool.false_eq_true, if_false, if_true]
  rfl

end

end

/-- FDTSYNC's wait ends where no store from before it is left: the world's strands have nothing buffered. -/
theorem fdtsync_completes {t : State} {e : Env} {k n : Nat} (henv : t.env? e.sid = some e) (hr : mayResume e = true)
    (hw : e.st.wait = some (.fdtsync k n)) (hh : storesHeld (drainWorld t e.world) e.world n = false) :
    ∃ t' st, exec (.fdtsyncComplete e.sid) t = .next t' ∧ t'.strands.get? e.sid = some st ∧ st.pc = e.st.pc + 4 ∧ st.wait = none ∧
      st.s = e.st.s ∧ t'.mem = (publish (drainWorld t e.world)).mem ∧ t'.worlds = t.worlds ∧
      ∀ x, x ∈ t'.xlat.tlb ↔ x ∈ t.xlat.tlb ∧ ¬ (x.world = e.world ∧ (k = 256 ∨ x.index = k)) := by
  have ho := drainWorld_onlyStores t e.world
  obtain ⟨st, hst, w, l, u, y, rfl⟩ := ho.of_env henv
  have hx := (exec_fdtsyncComplete henv hr hw).trans (congrArg _ (fdtsyncBody_clear hh))
  have hs := publish_strands (drainWorld t e.world)
  have hw := publish_worlds (drainWorld t e.world)
  have ht := publish_xlat (drainWorld t e.world)
  generalize publish (drainWorld t e.world) = v at *
  rw [← hs] at hst
  refine ⟨_, _, hx, synced_strand hst k, rfl, rfl, rfl, rfl, hw.trans ho.worlds, fun x => ?_⟩
  rw [synced_tlb, ht, ho.xlat]

/-- The strand that has begun to wait still may go on. -/
theorem mayResume_waits {e : Env} (h : mayResume e = true) (w : Wait) (c : Nat) :
    mayResume { e with st := { e.st with wait := some w, readySince := c, promoted := false } } = true := h

/-- With nothing buffered in the machine FDTB's and FDTSYNC's wait ends at once. -/
theorem waits_completes {s : State} {e : Env} {k n : Nat} (henv : s.env? e.sid = some e) (hr : mayResume e = true)
    (hs : ∀ p ∈ s.strands, p.2.stores = []) :
    ∃ t' st, exec (.fdtsyncComplete e.sid) (s.waits e.sid (.fdtsync k n)) = .next t' ∧ t'.strands.get? e.sid = some st ∧
      st.pc = e.st.pc + 4 ∧ st.wait = none ∧ st.s = e.st.s := by
  have hempty : ∀ p ∈ (s.waits e.sid (.fdtsync k n)).strands, p.2.stores = [] := by
    intro p hp
    obtain hp | ⟨q, hq, rfl⟩ := Assoc.mem_modify hp
    · exact hs p hp
    · exact hs q hq
  have hh : storesHeld (drainWorld (s.waits e.sid (.fdtsync k n)) e.world) e.world n = false := by
    rw [drainWorld_empty hempty]
    exact storesHeld_empty hempty _ _
  obtain ⟨t', st, hx, hst, hpc, hwait, hregs, -⟩ := fdtsync_completes (e := { e with st := _ })
    (env?_modStrand (fun st => { st with wait := some (.fdtsync k n), readySince := s.cycle, promoted := false }) henv)
    (mayResume_waits hr _ _) rfl hh
  exact ⟨t', st, hx, hst, hpc, hwait, hregs⟩

section
variable {s : State} {e : Env} {g : Guard} (hi : Issues s e g) (a : SReg)
include hi

/-- At U every form is refused. -/
theorem exec_systemRegister_user (hp : e.l.desc.priv = false) (idx : BitVec 12) :
    ∀ i ∈ [Instr.swrs g a idx, .fdtb g a, .fdtsync g a, .gatereg g a, .gateclose g a, .gatereply g a, .debugen g a],
      exec i s = .next (faultScalar s e { code := .access }) := by
  intro i hmem
  simp only [List.mem_cons, List.not_mem_nil, or_false] at hmem
  obtain rfl | rfl | rfl | rfl | rfl | rfl | rfl := hmem
  · show execSwrs g a idx s = _; exact systemWord_user hi a _ hp
  · show execFdtb g a s = _; exact systemWord_user hi a _ hp
  · show execFdtsync g a s = _; exact systemWord_user hi a _ hp
  · show execGatereg g a s = _; exact systemWord_user hi a _ hp
  · show execGateclose g a s = _; exact systemWord_user hi a _ hp
  · show execGatereply g a s = _; exact systemWord_user hi a _ hp
  · show execDebugen g a s = _; exact systemWord_user hi a _ hp

/-- The values that R313's registers do not take. -/
theorem exec_systemRegister_refuses (hp : e.l.desc.priv = true) (idx : BitVec 12) :
    let v := (e.st.rd a).toNat
    let bad (i : Instr) : Prop := exec i s = .next (faultScalar s e { code := .illegalOperand })
    bad (.swrs g a idx) ∧ (v % 8192 ≠ 0 → bad (.fdtb g a)) ∧ (256 < v → bad (.fdtsync g a)) ∧ (v % 64 ≠ 0 → bad (.gatereg g a)) ∧
    (512 ≤ v → bad (.gateclose g a)) ∧ (v % 128 ≠ 0 → bad (.gatereply g a)) ∧ (1 < v → bad (.debugen g a)) := by
  refine ⟨?_, fun h => ?_, fun h => ?_, fun h => ?_, fun h => ?_, fun h => ?_, fun h => ?_⟩
  · show execSwrs g a idx s = _; exact systemWord_refuses hi hp rfl
  · show execFdtb g a s = _; exact systemWord_refuses hi hp (if_pos h)
  · show execFdtsync g a s = _; exact systemWord_refuses hi hp (if_pos h)
  · show execGatereg g a s = _; exact systemWord_refuses hi hp (if_pos h)
  · show execGateclose g a s = _; exact systemWord_refuses hi hp (if_pos h)
  · show execGatereply g a s = _; exact systemWord_refuses hi hp (if_pos h)
  · show execDebugen g a s = _; exact systemWord_refuses hi hp (if_pos h)

end

/-- FDTB and FDTSYNC of a strand of a machine with nothing buffered: the wait that they begin ends at the first look. -/
theorem exec_descriptors_complete {s : State} {e : Env} {g : Guard} (hi : Issues s e g) (hp : e.l.desc.priv = true) {a : SReg}
    (hr : mayResume e = true) (hs : ∀ p ∈ s.strands, p.2.stores = []) (hd : e.st.unackDev = 0) {i : Instr}
    (h : (i = .fdtb g a ∧ (e.st.rd a).toNat % 8192 = 0) ∨ (i = .fdtsync g a ∧ (e.st.rd a).toNat ≤ 256)) :
    ∃ t t' st, exec i s = .next t ∧ exec (.fdtsyncComplete e.sid) t = .next t' ∧ t'.strands.get? e.sid = some st ∧
      st.pc = e.st.pc + 4 ∧ st.wait = none ∧ st.s = e.st.s := by
  have hrel : release s e.sid (some .dev) = (s, true) :=
    release_empty hi.env (hs _ (Assoc.mem_of_get? (State.env?_strand hi.env).2.1)) (fun _ => hd) (fun h => nomatch h)
  obtain ⟨rfl, hv⟩ | ⟨rfl, hv⟩ := h
  · have hx := exec_fdtb hi hp hv (by rw [hrel])
    rw [hrel, drainWorld_empty hs] at hx
    have henv : (s.modWorld e.world fun w => { w with fdtb := some (e.st.rd a).toNat }).env? e.sid = some e := hi.env
    obtain ⟨t', st, ht⟩ := waits_completes henv hr hs
    exact ⟨_, t', st, hx, ht⟩
  · have hx := exec_fdtsync hi hp hv (by rw [hrel])
    rw [hrel, drainWorld_empty hs] at hx
    obtain ⟨t', st, ht⟩ := waits_completes hi.env hr hs
    exact ⟨_, t', st, hx, ht⟩

/-- Settles O34: the words at U and at W, the end of FDTSYNC's wait, and what closing, registering and replying make of gates and tickets. -/
theorem systemRegisterWrites : Obligations.SystemRegisterWrites := by
  unfold Obligations.SystemRegisterWrites
  refine ⟨fun s e g a idx hi hp => exec_systemRegister_user hi a hp idx, fun s e g a idx hi hp => ?_,
    fun s e k n henv hr hw => ⟨fun hh => ?_, fun hh => ?_⟩,
    fun s server gate x hx => ⟨closeGate_served hx, closeGate_handle hx, fun t ht k => closeGate_tickets hx ht⟩,
    fun s server sw cw bs hs hc ha hh hg => ?_, fun s server gate t k st bs hst => ⟨fun ht => ?_, fun x hx => ?_⟩⟩
  · intro v bad r
    have ho := release_onlyStores s e.sid (some .dev)
    have how := ho.trans (drainWorld_onlyStores (release s e.sid (some .dev)).1 e.world)
    obtain ⟨st, hst, w, l, u, y, rfl⟩ := how.of_env hi.env
    obtain ⟨b1, b2, b3, b4, b5, b6, b7⟩ := exec_systemRegister_refuses hi a hp idx
    refine ⟨b1, b2, b3, b4, b5, b6, b7,
      fun h hr => ⟨_, _, exec_fdtb hi hp h hr, fun w hw => ?_, how.xlat ▸ rfl, State.modStrand_self hst _, rfl, rfl⟩,
      fun h hr => ⟨_, _, exec_fdtsync hi hp h hr, how.xlat ▸ rfl, State.modStrand_self hst _, rfl, rfl, how.worlds⟩,
      fun hr hs hd i h => exec_descriptors_complete hi hp hr hs hd h,
      fun h => ⟨_, exec_debugen hi hp h, ?_, fun w hw => ?_, fun k hk => ?_, rfl⟩,
      exec_gateclose_own hi hp, fun hl hu => ⟨fun server gate => exec_gateclose_handle hi hp hl hu, exec_gateclose_free hi hp hl hu⟩,
      fun s1 bs h hb => ⟨fun hok => ?_, fun hok => ?_⟩,
      fun s1 bs k x h hb hr hk hx => ⟨exec_gatereply hi hp h hb hr hk hx, exec_gatereply_stranger hi hp h hb hr hk hx⟩⟩
    · rw [State.waits, State.modStrand_worlds, State.modWorld_worlds, Assoc.get?_modify_same] at hw
      obtain ⟨w', -, rfl⟩ := Option.map_eq_some_iff.1 hw
      rfl
    · exact State.modStrand_self (s := s.modWorld e.world _) (State.env?_strand hi.env).2.1 _
    · exact (Assoc.get?_modify_same ..).trans (by rw [hw]; rfl)
    · exact Assoc.get?_modify_other _ _ (Ne.symm hk)
    · rw [exec_gatereg hi hp h hb, hok]; rfl
    · rw [exec_gatereg hi hp h hb, if_pos hok]
  · rw [exec_fdtsyncComplete henv hr hw, fdtsyncBody_held hh]
  · obtain ⟨t, st, hx, hst, hpc, hwait, hregs, hm, hworlds, ht⟩ := fdtsync_completes henv hr hw hh
    exact ⟨t, st, hx, hst, hpc, hwait, hregs, hm, hworlds, ht⟩
  · rw [registerGate_eq hs hc ha hh hg]
    exact ⟨registered_handle hc, ⟨gateOf bs, registered_served hs, rfl, rfl, rfl⟩, List.append_assoc ..⟩
  · rw [replyTicket_eq hst, if_pos ht]
    exact Assoc.get?_set_same ..
  · rw [replyTicket_eq hst] at hx
    refine answered_pending server gate t s (x := x) ?_
    split at hx <;> exact hx

end Sys2Proof.Machine
end

section
/-! What reading and writing bytes does to the machine: for a strand through its own translation (07 R205, R208, R209) only what its buffer
may change, and for the device's own accesses only global memory, the translations and the strands' watches. -/

namespace Sys2Proof.Machine
open Sys2Proof

/-! ## A strand's own bytes -/

theorem length_readDie (s : State) (d : Fin 4) (w pa n : Nat) : (readDie s d w pa n).2.length = n := by
  unfold readDie
  split
  · simp
  · exact Mem.length_read ..

theorem pageSegs_sum_le (f va n : Nat) : ((pageSegs f va n).map Prod.snd).sum ≤ n := by
  induction f generalizing va n with
  | zero => simp [pageSegs]
  | succ f ih =>
    unfold pageSegs
    split
    · simp
    · have := ih (va + min n (65536 - va % 65536)) (n - min n (65536 - va % 65536))
      simp only [List.map_cons, List.sum_cons]
      omega

/-- A fold that stops at the first error and starts at one ends at it. -/
theorem foldl_error {ε α β : Type} {f : Except ε α → β → Except ε α} (h : ∀ x b, f (.error x) b = .error x) (l : List β) (x : ε) :
    l.foldl f (.error x) = .error x := foldl_keeps (· = .error x) f (fun _ b ha => ha ▸ h x b) l _ rfl

/-- One page of a run that a strand translates. -/
def accessPage (e : Env) (s : State) (kind : AccessKind) (acc : Except Eff (List (Nat × Nat × Nat))) (g : Nat × Nat) :
    Except Eff (List (Nat × Nat × Nat)) :=
  match acc with
  | .error x => .error x
  | .ok l => match scalarAccess e s g.1 1 kind with
    | .error x => .error x
    | .ok pa => .ok (l ++ [(pa, g.1, g.2)])

theorem runPages_eq (e : Env) (s : State) (va n : Nat) (kind : AccessKind) :
    runPages e s va n kind = (pages va n).foldl (accessPage e s kind) (.ok []) := rfl

theorem foldl_accessPage {e : Env} {s : State} {kind : AccessKind} {ps : List (Nat × Nat)} {l0 l : List (Nat × Nat × Nat)}
    (h : ps.foldl (accessPage e s kind) (.ok l0) = .ok l) : l.map Prod.snd = l0.map Prod.snd ++ ps := by
  induction ps generalizing l0 with
  | nil => cases h; simp
  | cons p ps ih =>
    rw [List.foldl_cons, accessPage] at h
    split at h
    · rw [foldl_error fun _ _ => rfl] at h
      cases h
    · simpa using ih h

/-- The pages of a run, each with its translation. -/
theorem runPages_pages {e : Env} {s : State} {va n : Nat} {kind : AccessKind} {l : List (Nat × Nat × Nat)} (h : runPages e s va n kind = .ok l) :
    l.map Prod.snd = pages va n := foldl_accessPage (runPages_eq e s va n kind ▸ h)

/-- One page of a strand's read. -/
def readPage (e : Env) (acc : Except Eff (State × List Byte)) (g : Nat × Nat × Nat) : Except Eff (State × List Byte) :=
  match acc with
  | .error x => .error x
  | .ok (s, bs) =>
    if s.mem.poisoned g.1 g.2.2 then .error (.fault s { code := .poison, access := .read, addr := g.2.1 })
    else .ok ((readDie s e.die e.world g.1 g.2.2).1, bs ++ (readDie s e.die e.world g.1 g.2.2).2)

theorem foldl_readPage {e : Env} {s s1 : State} {b bs : List Byte} {l : List (Nat × Nat × Nat)} (h : l.foldl (readPage e) (.ok (s, b)) = .ok (s1, bs)) :
    OnlyStores s s1 ∧ bs.length = b.length + (l.map fun g => g.2.2).sum := by
  induction l generalizing s b with
  | nil => cases h; exact ⟨.refl _, by simp⟩
  | cons g l ih =>
    rw [List.foldl_cons, readPage] at h
    split at h
    · rw [foldl_error (fun _ _ => rfl)] at h
      cases h
    · obtain ⟨ho, hl⟩ := ih h
      refine ⟨(readDie_onlyStores ..).trans ho, ?_⟩
      rw [hl, List.length_append, length_readDie, List.map_cons, List.sum_cons, Nat.add_assoc]

theorem strandBytes_eq (e : Env) (s : State) (va n : Nat) : strandBytes e s va n = match runPages e s va n .read with
    | .error x => .error x
    | .ok l => l.foldl (readPage e) (.ok (drain s e.sid, [])) := rfl

/-- Bytes read: at most as many as were asked for, and the strand's stores performed. -/
theorem strandBytes_ok {e : Env} {s s1 : State} {va n : Nat} {bs : List Byte} (h : strandBytes e s va n = .ok (s1, bs)) :
    OnlyStores s s1 ∧ bs.length ≤ n := by
  rw [strandBytes_eq] at h
  split at h
  · cases h
  · rename_i l hl
    obtain ⟨ho, hn⟩ := foldl_readPage h
    refine ⟨(drain_onlyStores s e.sid).trans ho, ?_⟩
    have hs : (l.map fun g => g.2.2) = (pages va n).map Prod.snd := by rw [← runPages_pages hl, List.map_map]; rfl
    rw [hn, hs]
    simpa [pages] using pageSegs_sum_le _ va n

theorem strandWrite_onlyStores {e : Env} {s s1 : State} {va : Nat} {bs : List Byte} (h : strandWrite e s va bs = .ok s1) : OnlyStores s s1 := by
  unfold strandWrite at h
  split at h
  · cases h
  · cases h
    refine (drain_onlyStores s e.sid).trans (.foldl (fun u g => ?_) _ _)
    dsimp only
    split
    · exact l1DropRun_onlyStores ..
    · exact (u.performAt_onlyStores ..).trans (l1DropRun_onlyStores ..)

/-! ## The device's own accesses -/

namespace OnlyWatches

theorem fst {β : Type} {s t : State} {p : State × β} {b : β} (h : OnlyWatches s p.1) (hp : p = (t, b)) : OnlyWatches s t := by
  rw [hp] at h; exact h

/-- The state of a pair, said apart so that the kernel need not evaluate the pair's parts to see it. -/
theorem pair {β : Type} {s t : State} (h : OnlyWatches s t) (b : β) : OnlyWatches s (t, b).1 := h

variable {s t : State} (h : OnlyWatches s t)
include h

theorem worlds : t.worlds = s.worlds := by rw [← h.1.rest]
theorem tickets : t.tickets = s.tickets := by rw [← h.1.rest]
theorem nextId : t.nextId = s.nextId := by rw [← h.1.rest]

end OnlyWatches

theorem State.homeLine_onlyWatches (s : State) (d : Fin 4) (line : Nat) : OnlyWatches s (s.homeLine d line) :=
  ⟨s.homeLine_sameButMemory d line, s.onLine_keepsStrands line _⟩

theorem State.performAt_onlyWatches (s : State) (d : Fin 4) (w pa : Nat) (bs : List Byte) : OnlyWatches s (s.performAt d w pa bs) :=
  ⟨s.performAt_sameButMemory d w pa bs, s.performAt_keepsStrands d w pa bs⟩

theorem walkRead_onlyWatches (s : State) (d : Fin 4) (world level tag pa : Nat) : OnlyWatches s (walkRead s d world level tag pa).1 := by
  unfold walkRead
  split
  · split
    · exact .refl s
    · exact s.homeLine_onlyWatches d _
  · exact s.homeLine_onlyWatches d _

theorem walkGo_onlyWatches (base : Nat) (d : Fin 4) (world va : Nat) (acc : AccessKind) (priv : Bool) (level table : Nat) (s : State) :
    OnlyWatches s (walkGo base d world va acc priv level table s).1 := by
  induction level generalizing table s with
  | zero =>
    unfold walkGo
    split
    · exact .refl s
    · exact .pair (walkRead_onlyWatches s d ..) _
  | succ level ih =>
    have hr := walkRead_onlyWatches s d world (level + 1) (va / 2 ^ levelShift (level + 1))
      (table + 8 * bitsOf va (levelShift (level + 1)) 9)
    simp only [walkGo]
    split
    · exact .refl s
    · split
      · exact hr
      · exact (hr.trans ⟨walkKeep_sameButMemory .., .of_eq rfl⟩).trans (ih ..)

theorem translateNow_onlyWatches (s : State) (d : Fin 4) (world va : Nat) (acc : AccessKind) (priv : Bool) :
    OnlyWatches s (translateNow s d world va acc priv).1 := by
  have h : OnlyWatches s (walk s d world va acc priv).1 := by
    unfold walk
    split
    · split
      · exact .pair (walkGo_onlyWatches ..) _
      · exact .refl s
    · exact .refl s
  unfold translateNow
  split
  · exact .refl s
  · split <;> exact h.fst ‹_›

theorem writeNow_onlyWatches (s : State) (d : Fin 4) (world va : Nat) (bs : List Byte) (priv : Bool) :
    OnlyWatches s (writeNow s d world va bs priv).1 := by
  unfold writeNow
  extract_lets checked
  have hc : OnlyWatches s checked.1 := by
    refine foldl_keeps (fun a : State × Except Code (List (Nat × Nat × Nat)) => OnlyWatches s a.1) _ (fun a g ha => ?_) _ _ (.refl s)
    split
    · exact ha
    · split <;> exact (ha.trans (translateNow_onlyWatches ..)).fst ‹_›
  generalize checked = x at hc
  obtain ⟨u, r⟩ := x
  cases r with
  | error c => exact hc
  | ok l => exact foldl_keeps (OnlyWatches s) _ (fun t g ht => ht.trans (t.performAt_onlyWatches ..)) l u hc

/-! ## A line written outright -/

/-- The 128 bytes of an aligned line lie in one page. -/
theorem pages_line {va : Nat} (h : va % 128 = 0) : pages va 128 = [(va, 128)] := by
  have hk : min 128 (65536 - va % 65536) = 128 := by omega
  simp [pages, pageSegs, hk]

theorem writeNow_line {s t : State} {d : Fin 4} {world va pa : Nat} {bs : List Byte} (hn : bs.length = 128) (h : va % 128 = 0)
    (ht : translateNow s d world va .write true = (t, .ok pa)) : (writeNow s d world va bs true).1 = t.performAt d world pa bs := by
  have hb : bs.take 128 = bs := List.take_of_length_le hn.le
  simp [writeNow, hn, pages_line h, ht, hb]

/-- What a line holds that has been performed at its home. -/
theorem performAt_line {s : State} (hw : s.mem.wf = true) (d : Fin 4) (w : Nat) {pa : Nat} {bs : List Byte} (hn : bs.length = 128) (h : pa % 128 = 0) :
    (s.performAt d w pa bs).mem.home.read pa 128 = bs := by
  have hne : bs ≠ [] := fun hb => by rw [hb] at hn; cases hn
  rw [s.performAt_mem_oneLine d w hne (by rw [hn]; omega), ← hn]
  exact (MemSys.perform_wroteBytes (MemSys.wf_l2Own (MemSys.wf_combineLine hw _ _) _ _ _) d (lineOf pa) pa bs false).home

end Sys2Proof.Machine
end

section
/-! Gates from the client's side (07 R208, R209; 16 R316): posting an entry for a ticket, and waiting for the ticket's reply. -/

namespace Sys2Proof.Machine
open Sys2Proof

theorem low32_toNat (x : W64) : (low32 x).toNat = x.toNat % 2 ^ 32 := by simp [low32]

/-- A register that was written reads back as written. -/
theorem rd_written (st : Strand) {d : SReg} (h : d ≠ 0) (v : W64) (pc c : Nat) : ((st.wr d v).next pc c).rd d = v := by
  show (st.wr d v).rd d = v
  rw [Strand.rd_wr, if_neg h, if_pos rfl]

/-! ## Posting -/

/-- The entry is the fields of R316 and the message, padded with zeros. -/
theorem gateEntry_eq (t q world len : Nat) {msg : List Byte} (h : msg.length ≤ 64) : gateEntry t q world len msg =
    natLE 8 t ++ natLE 8 q ++ natLE 2 world ++ natLE 1 len ++ List.replicate 45 0 ++ msg ++ List.replicate (64 - msg.length) 0 := by
  have hz : natLE 45 0 = List.replicate 45 0 := by decide
  have hp : padTo 64 msg = msg ++ List.replicate (64 - msg.length) 0 := List.take_of_length_le (by simp; omega)
  rw [gateEntry, hz, hp, ← List.append_assoc]

theorem length_gateEntry (t q world len : Nat) (msg : List Byte) : (gateEntry t q world len msg).length = 128 := by
  simp only [gateEntry, padTo, List.length_append, length_natLE, List.length_take, List.length_replicate]
  omega

section
variable (s : State) (e : Env) (server gate : Nat) (x : Gate) (len : Nat) (msg : List Byte)

/-- The machine with a new ticket, before the entry is written. -/
def State.ticketed : State :=
  { s with nextId := s.nextId + 1,
           tickets := s.tickets.set s.nextId { server := server, gate := gate, holder := e.sid, state := .pending } }

/-- The machine with the entry written. -/
def State.queued : State :=
  (writeNow (s.ticketed e server gate) e.die server (x.base + 128 * (x.posted % x.depth)) (gateEntry s.nextId (x.posted + 1) e.world len msg) true).1

/-- The machine with a posting counted at its gate and its ticket with the strand. -/
def State.counted (u : State) (e : Env) (server gate t q : Nat) : State :=
  (u.modWorld server fun w => { w with served := w.served.modify gate fun g => { g with posted := q, pending := g.pending ++ [t] } }).modStrand
    e.sid fun st => { st with tickets := st.tickets ++ [t] }

theorem counted_strand {u : State} {e : Env} {st : Strand} (h : u.strands.get? e.sid = some st) (server gate t q : Nat) :
    (u.counted e server gate t q).strands.get? e.sid = some { st with tickets := st.tickets ++ [t] } :=
  State.modStrand_self (s := u.modWorld server _) h _

theorem counted_gate {u : State} {server gate : Nat} {x : Gate} (h : u.servedGate server gate = some x) (e : Env) (t q : Nat) :
    (u.counted e server gate t q).servedGate server gate = some { x with posted := q, pending := x.pending ++ [t] } := by
  obtain ⟨w, hw, hg⟩ := Option.bind_eq_some_iff.1 h
  rw [State.servedGate, State.counted, State.modStrand_worlds, State.modWorld_worlds, Assoc.get?_modify_same, hw]
  simp [hg]

theorem postGate_eq : postGate s e server gate x len msg =
    ((s.queued e server gate x len msg).counted e server gate s.nextId (x.posted + 1), s.nextId) := rfl

theorem queued_onlyWatches : OnlyWatches (s.ticketed e server gate) (s.queued e server gate x len msg) := writeNow_onlyWatches ..

theorem queued_ticket : (s.queued e server gate x len msg).tickets.get? s.nextId =
    some { server := server, gate := gate, holder := e.sid, state := .pending } := by
  rw [(queued_onlyWatches ..).tickets]
  exact Assoc.get?_set_same ..

theorem queued_gate : (s.queued e server gate x len msg).servedGate server gate = s.servedGate server gate := by
  rw [State.servedGate, (queued_onlyWatches ..).worlds]
  rfl

theorem queued_entry (hw : s.memWf = true) (hva : (x.base + 128 * (x.posted % x.depth)) % 128 = 0) {pa : Nat} (hpa : pa % 128 = 0)
    (ht : (translateNow (s.ticketed e server gate) e.die server (x.base + 128 * (x.posted % x.depth)) .write true).2 = .ok pa) :
    (s.queued e server gate x len msg).mem.home.read pa 128 = gateEntry s.nextId (x.posted + 1) e.world len msg := by
  have h0 : (s.ticketed e server gate).Canon := ((State.canon_iff s).2 hw).upd rfl rfl
  have hn := length_gateEntry s.nextId (x.posted + 1) e.world len msg
  rw [State.queued, writeNow_line hn hva (Prod.ext rfl ht)]
  exact performAt_line (translateNow_canon h0).mem _ _ hn hpa

end

section
variable {s : State} {e : Env} {g : Guard} (hi : Issues s e g) {d a b : SReg} {len : BitVec 7} (h1 : 1 ≤ len.toNat) (h2 : len.toNat ≤ 64)
  {s1 : State} {msg : List Byte} (hb : strandBytes e s (e.st.rd b).toNat len.toNat = .ok (s1, msg))
  {s2 : State} (hr : release s1 e.sid (some .dev) = (s2, true))

/-- The machine with the word's answer in its register. -/
def State.wordAnswer (s : State) (e : Env) (d : SReg) (v : Int) : State := s.after e (e.st.pc + 4) fun st => st.wr d (BitVec.ofInt 64 v)

include hi h1 h2 hb hr

/-- A word whose message has been read and whose release holds answers by the handle and by the gate. -/
theorem exec_sgate : exec (.sgate g d a b len) s = .next (match s2.heldHandle e.world ((e.st.rd a).toNat % 2 ^ 32) with
    | none => s2.wordAnswer e d (-1)
    | some (server, gate) => match s2.servedGate server gate with
      | none => s2.wordAnswer e d (-1)
      | some x => if 8 ≤ e.st.tickets.length ∨ x.depth ≤ x.pending.length then s2.wordAnswer e d (-2)
        else (postGate s2 e server gate x len.toNat msg).1.wordAnswer e d s2.nextId) := by
  show execSgate g d a b len s = _
  rw [execSgate, scalarWord_runs hi _ _ _ (if_pos ⟨h1, h2⟩)]
  simp only [hb, hr, Bool.not_true, Bool.false_eq_true, if_false, low32_toNat]
  rw [← State.heldHandle]
  cases s2.heldHandle e.world ((e.st.rd a).toNat % 2 ^ 32) with
  | none => exact congrArg _ (finish_done ..)
  | some p =>
    dsimp only
    rw [← State.servedGate]
    cases s2.servedGate p.1 p.2 with
    | none => exact congrArg _ (finish_done ..)
    | some x =>
      dsimp only
      split <;> exact congrArg _ (finish_done ..)

end

/-! ## Waiting for a reply -/

/-- The machine with a ticket consumed and the answer in the register. -/
def State.redeemed (s : State) (e : Env) (d : SReg) (t : Nat) (v : Int) : State := (consume s e t).wordAnswer e d v

theorem redeemed_strand {s : State} {e : Env} {st : Strand} (h : s.strands.get? e.sid = some st) (d : SReg) (t : Nat) (v : Int) :
    (s.redeemed e d t v).strands.get? e.sid = some (({ st with tickets := st.tickets.filter fun x => x ≠ t }.wr d (BitVec.ofInt 64 v)).next
      (e.st.pc + 4) s.cycle) :=
  State.modStrand_self (State.modStrand_self (s := { s with tickets := s.tickets.erase t }) h _) _

/-- What the word that consumes a ticket leaves. -/
theorem redeemed_ends {s : State} {e : Env} {st : Strand} (h : s.strands.get? e.sid = some st) (d : SReg) (t : Nat) (v : Int) :
    ∃ st', (s.redeemed e d t v).strands.get? e.sid = some st' ∧ (d ≠ 0 → st'.rd d = BitVec.ofInt 64 v) ∧ st'.pc = e.st.pc + 4 ∧
      st'.wait = none ∧ t ∉ st'.tickets ∧ (s.redeemed e d t v).tickets.get? t = none ∧ (s.redeemed e d t v).mem = s.mem :=
  ⟨_, redeemed_strand h d t v, fun hd => rd_written _ hd _ _ _, rfl, rfl, by simp [Strand.next],
    by simp [State.redeemed, State.wordAnswer, consume, State.after, Assoc.get?_erase], rfl⟩

section
variable {s : State} {e : Env} {d a b : SReg}

theorem sgatewBody_stranger (h : (e.st.rd a).toNat ∉ e.st.tickets) :
    (sgatewBody d a b e s).finish e 4 = s.wordAnswer e d (-1) := by
  have hc : (!e.st.tickets.contains (e.st.rd a).toNat) = true := by simpa using h
  simp only [sgatewBody, hc, if_true]
  exact finish_done ..

variable (h : (e.st.rd a).toNat ∈ e.st.tickets) {k : Ticket} (hk : s.tickets.get? (e.st.rd a).toNat = some k)
include h hk

theorem sgatewBody_pending (hs : k.state = .pending) : (sgatewBody d a b e s).finish e 4 = s.waits e.sid (.sgatew d a b) := by
  have hc : (!e.st.tickets.contains (e.st.rd a).toNat) = false := by simpa using h
  simp only [sgatewBody, hc, hk, hs, Option.map_some, Bool.false_eq_true, if_false]
  rfl

theorem sgatewBody_closed (hs : k.state = .closed) : (sgatewBody d a b e s).finish e 4 = s.redeemed e d (e.st.rd a).toNat (-3) := by
  have hc : (!e.st.tickets.contains (e.st.rd a).toNat) = false := by simpa using h
  simp only [sgatewBody, hc, hk, hs, Option.map_some, Bool.false_eq_true, if_false]
  exact finish_done ..

theorem sgatewBody_replied {bs : List Byte} {s1 : State} (hs : k.state = .replied bs) (hb : strandWrite e s (e.st.rd b).toNat bs = .ok s1) :
    (sgatewBody d a b e s).finish e 4 = s1.redeemed e d (e.st.rd a).toNat bs.length := by
  have hc : (!e.st.tickets.contains (e.st.rd a).toNat) = false := by simpa using h
  simp only [sgatewBody, hc, hk, hs, hb, Option.map_some, Bool.false_eq_true, if_false]
  exact finish_done ..

end

/-- The word is its body, at its issue and at its return. -/
theorem exec_sgatew {s : State} {e : Env} {g : Guard} {d a b : SReg} {i : Instr} (he : s.env? e.sid = some e)
    (hi : (i = .sgatew g d a b ∧ Issues s e g) ∨ (i = .sgatewReturn e.sid ∧ mayResume e = true ∧ e.st.wait = some (.sgatew d a b))) :
    exec i s = .next ((sgatewBody d a b e s).finish e 4) := by
  obtain ⟨rfl, hi⟩ | ⟨rfl, hr, hw⟩ := hi
  · exact scalarWord_runs hi 4 noCheck _ rfl
  · exact congrArg _ (resumeWord_runs he hr hw rfl)

/-- Settles O35: SGATE by the handle, the gate and the room in its queue, SGATEW by the ticket's state. -/
theorem gateWords : Obligations.GateWords := by
  unfold Obligations.GateWords
  refine ⟨fun s e g d a b len s1 msg hi h1 h2 hb hr => ?_, fun s e g d a b len hcur he hl => ?_, fun s e g d a b i he hi => ?_⟩
  · intro s2 hd answers
    have hx := exec_sgate hi (d := d) (a := a) h1 h2 hb (s2 := s2) (Prod.ext rfl hr)
    have hanswers (v : Int) (w : W64) (hv : BitVec.ofInt 64 v = w) (h : exec (.sgate g d a b len) s = .next (s2.wordAnswer e d v)) :
        answers w := hv ▸ h
    refine ⟨fun hn => hanswers (-1) _ (by decide) ?_, fun server gate hs => ⟨fun hn => hanswers (-1) _ (by decide) ?_, fun x hg => ⟨fun hfull =>
      hanswers (-2) _ (by decide) ?_, fun ht hp _ _ => ?_⟩⟩⟩
    · rw [hx, show s2.heldHandle _ _ = _ from hn]
    · rw [hx, show s2.heldHandle _ _ = _ from hs]; dsimp only; rw [show s2.servedGate _ _ = _ from hn]
    · rw [hx, show s2.heldHandle _ _ = _ from hs]; dsimp only; rw [show s2.servedGate _ _ = _ from hg]; exact congrArg _ (if_pos hfull)
    · rw [show s2.heldHandle _ _ = _ from hs] at hx
      dsimp only at hx
      rw [show s2.servedGate _ _ = _ from hg] at hx
      dsimp only at hx
      rw [if_neg (by omega)] at hx
      obtain ⟨ho, hm⟩ := strandBytes_ok hb
      obtain ⟨st, hst, w, l, u, y, rfl⟩ := (ho.trans (release_onlyStores s1 e.sid (some .dev))).of_env hi.env
      rw [postGate_eq] at hx
      have hq := queued_onlyWatches s2 e server gate x len.toNat msg
      have hk := queued_ticket s2 e server gate x len.toNat msg
      have hgate := (queued_gate s2 e server gate x len.toNat msg).trans hg
      have hentry := queued_entry s2 e server gate x len.toNat msg
      generalize s2.queued e server gate x len.toNat msg = q at hx hq hk hgate hentry
      obtain ⟨w', hst'⟩ := hq.2 _ _ hst
      refine ⟨_, _, _, hx, State.modStrand_self (counted_strand hst' ..) _, fun hd => ?_, ?_, rfl, congrArg (Option.map Ticket.state) hk, hq.nextId,
        counted_gate hgate e .., rfl, rfl, ?_⟩
      · rw [rd_written _ hd, BitVec.ofInt_natCast]
      · simp [Strand.next]
      · intro va s3 pa hw hva hpa _ htr
        rw [← gateEntry_eq _ _ _ _ (hm.trans h2)]
        exact hentry hw hva hpa htr
  · have hc : ¬ (1 ≤ len.toNat ∧ len.toNat ≤ 64) := fun h => hl.elim (fun h0 => absurd h.1 (by rw [h0]; decide)) (absurd h.2 ∘ not_le.2)
    show execSgate g d a b len s = _
    exact scalarWord_refuses hcur he g 4 _ (if_neg hc)
  · intro n ends
    rw [exec_sgatew he hi]
    have hst := (State.env?_strand he).2.1
    refine ⟨fun hn => ?_, fun hn k hk => ⟨fun hs => ?_, fun hs => ?_, fun bs s1 hs hb => ?_⟩⟩
    · rw [sgatewBody_stranger hn]; rfl
    · rw [sgatewBody_pending hn hk hs]
    · exact ⟨_, congrArg _ (sgatewBody_closed hn hk hs), redeemed_ends hst d n (-3)⟩
    · obtain ⟨st, hst', -⟩ := (strandWrite_onlyStores hb).of_env he
      exact ⟨_, congrArg _ (sgatewBody_replied hn hk hs hb), redeemed_ends hst' d n bs.length⟩

end Sys2Proof.Machine
end

section
/-! Launching from a strand and reading the counters of its levels (07 R205, R206; 01 R15 to R17, R20). -/

namespace Sys2Proof.Machine
open Sys2Proof

/-! ## SLAUNCH -/

/-- What an accepted submission by a strand of a launch has made. -/
theorem submit_accepted_child {s t : State} {world ctx addr n p : Nat} {bs : List Byte} {mayW : Bool} {pl : Launch} {issuer : Option StrandId}
    (h : submit s world ctx addr bs mayW (some (p, pl)) issuer = .accepted t n) :
    ∃ k l num, t.launches.get? k = some l ∧ l.parent = some p ∧ l.issuer = issuer ∧ l.queue = some (num, n) ∧ l.descAddr = addr ∧
      l.depth = pl.depth + 1 ∧ l.depth ≤ 8 ∧ some l.desc = parseLaunch bs := by
  unfold submit at h
  split at h
  · cases h
  rename_i d hd
  split at h
  · cases h
  split at h
  · cases h
  split at h
  · cases h
  extract_lets depth at h
  split at h
  · cases h
  rename_i hdepth
  split at h
  · cases h
  · cases h
    exact ⟨_, _, _, Assoc.get?_set_same .., rfl, rfl, rfl, rfl, rfl, not_lt.1 hdepth, hd.symm⟩

/-- What the word makes of its submission's outcome. -/
def launchEnd (s : State) (e : Env) (d a : SReg) (nb : Bool) : Submitted → State
  | .refused => s.wordAnswer e d (-2)
  | .deep => s.wordAnswer e d (-1)
  | .full => if nb then s.wordAnswer e d 0 else s.waits e.sid (.slaunch d a)
  | .accepted t n => t.wordAnswer e d n

/-- The submission that a strand makes of the 256 bytes it has read. -/
def childSubmit (s : State) (e : Env) (va : Nat) (bs : List Byte) : Submitted :=
  submit s e.world e.l.ctx va bs e.priv (some (e.wg.launch, e.l)) (some e.sid)

section
variable {s : State} {e : Env} {d a : SReg} {nb : Bool}

theorem slaunchBody_high (h : 2 ^ 57 ≤ (e.st.rd a).toNat) : (slaunchBody d a nb e s).finish e 4 =
    faultScalar s e { code := .access, access := .read, addr := (e.st.rd a).toNat } := by
  rw [slaunchBody, if_pos h]; rfl

theorem slaunchBody_misaligned (h : (e.st.rd a).toNat < 2 ^ 57) (ha : (e.st.rd a).toNat % 64 ≠ 0) : (slaunchBody d a nb e s).finish e 4 =
    faultScalar s e { code := .align, access := .read, addr := (e.st.rd a).toNat } := by
  rw [slaunchBody, if_neg (not_le.2 h), if_pos ha]; rfl

theorem slaunchBody_submits (h : (e.st.rd a).toNat < 2 ^ 57) (ha : (e.st.rd a).toNat % 64 = 0) {s0 s1 : State} {bs : List Byte}
    (hr : release s e.sid (some .dev) = (s0, true)) (hb : strandBytes e s0 (e.st.rd a).toNat 256 = .ok (s1, bs)) :
    (slaunchBody d a nb e s).finish e 4 = launchEnd s1 e d a nb (childSubmit s1 e (e.st.rd a).toNat bs) := by
  have h57 : ¬ 2 ^ 57 ≤ (e.st.rd a).toNat := not_le.2 h
  simp only [slaunchBody, h57, ha, hr, hb, ne_eq, not_true_eq_false, if_false, Bool.not_true, Bool.false_eq_true]
  rw [← childSubmit]
  cases childSubmit s1 e (e.st.rd a).toNat bs with
  | refused => exact finish_done ..
  | deep => exact finish_done ..
  | full => cases nb with
    | false => rfl
    | true => exact finish_done ..
  | accepted t n => exact finish_done ..

/-- A submission that does not wait answers. -/
theorem launchEnd_answers (s : State) (e : Env) (d a : SReg) (out : Submitted) : ∃ (t : State) (v : Int), launchEnd s e d a true out = t.wordAnswer e d v := by
  cases out with
  | accepted t n => exact ⟨t, n, rfl⟩
  | refused | deep | full => exact ⟨s, _, rfl⟩

theorem childSubmit_unparsed {va : Nat} {bs : List Byte} (h : parseLaunch bs = none) : childSubmit s e va bs = .refused := by
  rw [childSubmit, submit, h]

end

/-- The word is its body, at its issue and, where it may block, at its return. -/
theorem exec_slaunch {s : State} {e : Env} {g : Guard} {d a : SReg} {nb : Bool} {i : Instr} (he : s.env? e.sid = some e)
    (hi : (i = .slaunch g d a nb ∧ Issues s e g) ∨
      (i = .slaunchReturn e.sid ∧ nb = false ∧ mayResume e = true ∧ e.st.wait = some (.slaunch d a))) :
    exec i s = .next ((slaunchBody d a nb e s).finish e 4) := by
  obtain ⟨rfl, hi⟩ | ⟨rfl, rfl, hr, hw⟩ := hi
  · exact scalarWord_runs hi 4 noCheck _ rfl
  · exact congrArg _ (resumeWord_runs he hr hw rfl)

/-! ## SCNT -/

/-- A counter of the strand's own level, or its launch's errors; no such level reads as 0. -/
def countOf (s : State) (e : Env) (l : Level) (v : CountItem) : W64 :=
  match (climb s l 6 (unitOf e.sid.wg)).bind s.inst? with
  | some x => match v with
    | .completed => x.completed
    | .cancelled => x.cancelled
    | .state => BitVec.ofNat 64 x.state.num
    | .errors => zext32 e.l.errors
  | none => 0

theorem exec_scnt {s : State} {e : Env} {g : Guard} (hi : Issues s e g) (d : SReg) (l : Level) (v : CountItem) :
    exec (.scnt g d v l) s = .next (s.after e (e.st.pc + 4) fun st => st.wr d (countOf s e l v)) := by
  show execScnt g d v l s = _
  rw [execScnt, scalarWord_runs hi 4 noCheck _ rfl, setsReg, finish_done]
  rfl

end Sys2Proof.Machine
end

section
/-! What ending strands leaves standing (01 R18, R19; 18 R349): the launches, the states of the levels of work, every strand's scalar
registers, and a strand that has ended with nothing queued or buffered. -/

namespace Sys2Proof.Machine
open Sys2Proof

/-- A strand with the scalar registers it had, that has ended as before or, running until now, has ended as `how` with nothing left. -/
structure Strand.Winds (how : End) (st st' : Strand) : Prop where
  regs : st'.s = st.s
  ended : (st'.ended = st.ended ∧ (st.laneQ = [] → st'.laneQ = []) ∧ (st.stores = [] → st'.stores = [])) ∨
    ((st.ended ≠ .faulted ∧ st.ended ≠ .cancelled) ∧ st'.ended = how ∧ st'.laneQ = [] ∧ st'.stores = [])

namespace Strand.Winds

variable {how : End} {st st' st'' : Strand}

theorem of_same (hs : st'.s = st.s) (he : st'.ended = st.ended) (hq : st'.laneQ = st.laneQ) (hb : st'.stores = st.stores) : st.Winds how st' :=
  ⟨hs, .inl ⟨he, fun h => hq.trans h, fun h => hb.trans h⟩⟩

theorem refl (st : Strand) : st.Winds how st := of_same rfl rfl rfl rfl

theorem trans (h : st.Winds how st') (k : st'.Winds how st'') : st.Winds how st'' := by
  refine ⟨k.regs.trans h.regs, ?_⟩
  obtain ⟨he, hq, hb⟩ | ⟨hr, he, hq, hb⟩ := h.ended <;> obtain ⟨ke, kq, kb⟩ | ⟨kr, ke, kq, kb⟩ := k.ended
  · exact .inl ⟨ke.trans he, fun h => kq (hq h), fun h => kb (hb h)⟩
  · exact .inr ⟨he ▸ kr, ke, kq, kb⟩
  · exact .inr ⟨hr, ke.trans he, kq hq, kb hb⟩
  · exact .inr ⟨hr, ke, kq, kb⟩

end Strand.Winds

/-- The launches and the states of the levels of work are as they were; every strand is there and has at most ended. -/
structure Winds (how : End) (s t : State) : Prop where
  launches : t.launches = s.launches
  insts : ∀ i, (t.inst? i).map Inst.state = (s.inst? i).map Inst.state
  strands : ∀ sid st, s.strands.get? sid = some st → ∃ st', t.strands.get? sid = some st' ∧ st.Winds how st'

namespace Winds

variable {how : End} {s t u : State}

theorem of_eq (hs : t.strands = s.strands) (hl : t.launches = s.launches) (hi : t.insts = s.insts) : Winds how s t :=
  ⟨hl, fun i => by rw [State.inst?, State.inst?, hi], fun sid st h => ⟨st, hs ▸ h, .refl st⟩⟩

theorem refl (s : State) : Winds how s s := of_eq rfl rfl rfl

theorem trans (h : Winds how s t) (k : Winds how t u) : Winds how s u := by
  refine ⟨k.launches.trans h.launches, fun i => (k.insts i).trans (h.insts i), fun sid st hst => ?_⟩
  obtain ⟨st1, h1, w1⟩ := h.strands sid st hst
  obtain ⟨st2, h2, w2⟩ := k.strands sid st1 h1
  exact ⟨st2, h2, w1.trans w2⟩

/-- The last of two steps first, so that it names the state between them. -/
theorem after (k : Winds how t u) (h : Winds how s t) : Winds how s u := h.trans k

theorem foldl {β : Type} {f : State → β → State} (h : ∀ s x, Winds how s (f s x)) (l : List β) (s : State) : Winds how s (l.foldl f s) :=
  foldl_keeps (Winds how s) f (fun _ x hs => hs.trans (h _ x)) l s (refl s)

theorem modStrand (s : State) (sid : StrandId) {f : Strand → Strand} (h : ∀ st, s.strands.get? sid = some st → st.Winds how (f st)) :
    Winds how s (s.modStrand sid f) := by
  refine ⟨rfl, fun _ => rfl, fun k st hst => ?_⟩
  rw [State.modStrand_strands, Assoc.get?_modify, hst]
  split
  · rename_i hk
    exact ⟨_, rfl, h st (hk ▸ hst)⟩
  · exact ⟨st, rfl, .refl st⟩

theorem of_onlyWatches (h : OnlyWatches s t) : Winds how s t := by
  have hl : t.launches = s.launches := by rw [← h.1.rest]
  have hi : t.insts = s.insts := by rw [← h.1.rest]
  refine ⟨hl, fun i => by rw [State.inst?, State.inst?, hi], fun sid st hst => ?_⟩
  obtain ⟨w, hw⟩ := h.2 sid st hst
  exact ⟨_, hw, .of_same rfl rfl rfl rfl⟩

end Winds

variable {how : End}

/-! ## The store buffer -/

theorem State.covered_winds (s : State) (l : List (Nat × List Byte)) : Winds how s (s.covered l) := by
  unfold State.covered
  split
  · exact .refl s
  · exact .of_eq rfl rfl rfl

theorem sendRuns_winds (s : State) (world : Nat) (sender : Option StrandId) (op : RmaOp) (l : List (Nat × List Byte)) :
    Winds how s (sendRuns s world sender op l) := by
  unfold sendRuns
  split
  · split
    · exact .modStrand s _ fun st _ => .of_same rfl rfl rfl rfl
    · exact .refl s
  · unfold newMessage noteSent
    extract_lets
    split <;> exact .of_eq rfl rfl rfl

theorem performStore_winds (s : State) (sid : StrandId) (core : CoreId) (world : Nat) (x : SBEntry) :
    Winds how s (performStore s sid core world x) := by
  unfold performStore
  extract_lets s1 s2 s3
  have h1 : Winds how s s1 := .foldl (fun s l => by
    split
    · exact .refl s
    · exact (Winds.of_onlyWatches (s.performAt_onlyWatches ..)).trans (.of_eq rfl rfl rfl)) _ _
  have h2 : Winds how s1 s2 := .foldl (fun s m => sendRuns_winds ..) _ _
  have h3 : Winds how s s3 := (h1.trans h2).trans (State.covered_winds ..)
  split
  · exact h3.trans (.modStrand _ _ fun st _ => .of_same rfl rfl rfl rfl)
  · exact h3

/-- What leaves a strand's buffer leaves an empty one empty. -/
theorem drain_winds (s : State) (sid : StrandId) : Winds how s (drain s sid) := by
  unfold drain
  split
  · exact .refl s
  · rename_i e he
    refine (Winds.foldl (fun s x => performStore_winds ..) _ _).after (.modStrand s sid fun st hst => ?_)
    obtain ⟨-, hst', -⟩ := State.env?_strand he
    obtain rfl := Option.some.inj (hst.symm.trans hst')
    exact ⟨rfl, .inl ⟨rfl, id, fun h => by simp [h]⟩⟩

theorem dropStores_winds (s : State) (sid : StrandId) (p : SBEntry → Bool) : Winds how s (dropStores s sid p) :=
  .modStrand s sid fun st _ => ⟨rfl, .inl ⟨rfl, id, fun h => by simp [h]⟩⟩

/-! ## Barriers and the end of a strand -/

theorem leavePhase_winds (k : BarKey) (s : State) (sid : StrandId) : Winds how s (leavePhase k s sid) := by
  have hm (s : State) (f : Strand → Strand) (h : ∀ st, st.Winds how (f st)) : Winds how s (s.modStrand sid f) := .modStrand s sid fun st _ => h st
  unfold leavePhase
  split
  · exact .refl s
  · split
    · split
      · exact hm s _ fun st => .of_same rfl rfl rfl rfl
      · exact .refl s
    · split
      · extract_lets b t
        have ht : Winds how s t := .of_eq rfl rfl rfl
        split <;> exact ht.trans (hm t _ fun st => .of_same rfl rfl rfl rfl)
      · exact .refl s
    · exact .refl s

theorem completePhases_winds (s : State) (sid : StrandId) : Winds how s (completePhases s sid) := by
  refine .foldl (fun s k => ?_) _ s
  unfold completePhase
  split
  · exact (Winds.foldl (fun s sid => leavePhase_winds k s sid) _ _).after (.of_eq rfl rfl rfl)
  · exact .refl s

theorem breakBars_winds (s : State) (sid : StrandId) : Winds how s (breakBars s sid) := by
  unfold breakBars
  refine .foldl (fun _ _ => ?_) _ s
  exact .of_eq rfl rfl rfl

theorem countCancelled_winds (s : State) (i : InstId) : Winds how s (countCancelled s i) := by
  refine ⟨rfl, fun j => ?_, fun sid st h => ⟨st, h, .refl st⟩⟩
  show ((s.insts.modify i _).get? j).map _ = (s.insts.get? j).map _
  rw [Assoc.get?_modify]
  split
  · rw [Option.map_map]; rfl
  · rfl

/-- A strand that a fault or a cancel has not ended has ended at some moment of its end, with nothing queued or buffered. -/
theorem endStrand_running {s : State} {sid : StrandId} {st : Strand} (hst : s.strands.get? sid = some st)
    (hr : ¬ (st.ended = .faulted ∨ st.ended = .cancelled)) (how : End) : ∃ t st', Winds how s t ∧ t.strands.get? sid = some st' ∧
      (st'.ended = how ∧ st'.laneQ = [] ∧ st'.stores = [] ∧ st'.s = st.s) ∧ Winds how t (endStrand s sid how) := by
  generalize hend : endStrand s sid how = r
  unfold endStrand at hend
  rw [hst] at hend
  split at hend
  · cases ‹some st = none›
  rename_i heq
  cases heq
  rw [if_neg hr] at hend
  extract_lets s0 s1 s2 s3 at hend
  have h1 (h : End) : Winds h s s1 := by
    unfold s1 s0
    split
    · refine (drain_winds _ sid).after (Winds.after (.modStrand _ sid fun st _ => ?_) (dropStores_winds s sid _))
      exact .of_same rfl rfl rfl rfl
    · exact .refl s
  obtain ⟨st1, hst1, hw⟩ := (h1 .no).strands sid st hst
  have hrun : st1.ended ≠ .faulted ∧ st1.ended ≠ .cancelled := by
    obtain ⟨he, -, -⟩ | ⟨-, he, -, -⟩ := hw.ended
    · rw [he]
      exact not_or.1 hr
    · rw [he]
      exact ⟨nofun, nofun⟩
  have h2 : Winds how s1 s2 := by
    refine .modStrand s1 sid fun st' hst' => ⟨rfl, .inr ⟨?_, rfl, rfl, rfl⟩⟩
    obtain rfl := Option.some.inj (hst1.symm.trans hst')
    exact hrun
  have h3 : Winds how s2 s3 := by
    unfold s3
    split
    · exact .refl s2
    · exact countCancelled_winds ..
  refine ⟨s2, _, (h1 how).trans h2, State.modStrand_self hst1 _, ⟨rfl, rfl, rfl, hw.regs⟩, h3.trans ?_⟩
  clear_value s3
  subst hend
  split
  · exact .refl s3
  · exact (completePhases_winds ..).trans (breakBars_winds ..)

theorem endStrand_winds (s : State) (sid : StrandId) (how : End) : Winds how s (endStrand s sid how) := by
  cases hst : s.strands.get? sid with
  | none =>
    unfold endStrand
    rw [hst]
    exact .refl s
  | some st =>
    by_cases hr : st.ended = .faulted ∨ st.ended = .cancelled
    · unfold endStrand
      rw [hst]
      dsimp only
      rw [if_pos hr]
      exact .refl s
    · obtain ⟨t, -, h, -, -, k⟩ := endStrand_running hst hr how
      exact h.trans k

/-- A strand that has ended by a cancel, with nothing queued or buffered and its scalar registers as they were. -/
def Cancelled (sid : StrandId) (regs : Vector W64 32) (s : State) : Prop :=
  ∃ st, s.strands.get? sid = some st ∧ st.ended = .cancelled ∧ st.laneQ = [] ∧ st.stores = [] ∧ st.s = regs

theorem Cancelled.winds {sid : StrandId} {regs : Vector W64 32} {s t : State} (h : Cancelled sid regs s) (hw : Winds how s t) : Cancelled sid regs t := by
  obtain ⟨st, hst, he, hq, hb, hs⟩ := h
  obtain ⟨st', hst', hr, ⟨ke, kq, kb⟩ | ⟨⟨-, kr⟩, -⟩⟩ := hw.strands sid st hst
  · exact ⟨st', hst', ke.trans he, kq hq, kb hb, hr.trans hs⟩
  · exact absurd he kr

/-- A strand that runs, or has been ended by a cancel. -/
def Cancellable (sid : StrandId) (regs : Vector W64 32) (s : State) : Prop :=
  (∃ st, s.strands.get? sid = some st ∧ st.ended = .no ∧ st.s = regs) ∨ Cancelled sid regs s

theorem Cancellable.winds {sid : StrandId} {regs : Vector W64 32} {s t : State} (h : Cancellable sid regs s) (hw : Winds .cancelled s t) :
    Cancellable sid regs t := by
  obtain ⟨st, hst, he, hs⟩ | h := h
  · obtain ⟨st', hst', hr, ⟨ke, -, -⟩ | ⟨-, ke, kq, kb⟩⟩ := hw.strands sid st hst
    · exact .inl ⟨st', hst', ke.trans he, hr.trans hs⟩
    · exact .inr ⟨st', hst', ke, kq, kb, hr.trans hs⟩
  · exact .inr (h.winds hw)

/-- The end of a running strand by a cancel, which its barriers do not undo. -/
theorem endStrand_cancels {sid : StrandId} {regs : Vector W64 32} {s : State} (h : Cancellable sid regs s) :
    Cancelled sid regs (endStrand s sid .cancelled) := by
  obtain ⟨st, hst, he, hs⟩ | h := h
  · obtain ⟨t, st', -, hst', ⟨ke, kq, kb, kr⟩, k⟩ := endStrand_running hst (by simp [he]) .cancelled
    exact Cancelled.winds ⟨st', hst', ke, kq, kb, kr.trans hs⟩ k
  · exact h.winds (endStrand_winds s sid .cancelled)

end Sys2Proof.Machine
end

section
/-! What a cancel does to the levels of work and to the strands below them (01 R18, R19; 05 R151). -/

namespace Sys2Proof.Machine
open Sys2Proof

variable {how : End}

/-! ## Records and broken barriers -/

theorem writeNow_winds (s : State) (d : Fin 4) (world va : Nat) (bs : List Byte) (priv : Bool) : Winds how s (writeNow s d world va bs priv).1 :=
  .of_onlyWatches (writeNow_onlyWatches ..)

theorem fileRec_winds (s : State) (world : Nat) (d : Fin 4) (r : FaultRec) : Winds how s (fileRec s world d r).1 := by
  unfold fileRec
  split
  · exact .refl s
  · extract_lets r' r'' s1 s2
    have h1 : Winds how s s1 := .of_eq rfl rfl rfl
    have h2 : Winds how s s2 := h1.trans (writeNow_winds s1 ..)
    clear_value s2
    split
    · exact h2.trans (.of_eq rfl rfl rfl : Winds how s2 (s2.tell 0 _))
    · exact .of_eq rfl rfl rfl

/-- Filing the record of a strand's scalar stream that ends the strand. -/
theorem deliver_winds (s : State) (world : Nat) (d : Fin 4) {r : FaultRec} {sid : StrandId} (ha : r.agent = .scalar sid)
    (hw : r.waiting = false) : Winds .faulted s (deliver s world d r) := by
  have h := fileRec_winds (how := .faulted) s world d r
  unfold deliver
  split
  · rename_i t ht
    rw [ht] at h
    refine h.trans ?_
    simp only [stopAgent, ha]
    exact .modStrand t sid fun st _ => .of_same rfl rfl rfl rfl
  · rename_i t n ht
    rw [ht] at h
    have htell : Winds .faulted t (tellMonitor t { r with seq := n }) := by
      unfold tellMonitor
      split
      · exact .of_eq rfl rfl rfl
      · exact .refl t
    refine (h.trans htell).trans ?_
    rw [consequence_scalar (r := { r with seq := n }) _ ha hw]
    exact endStrand_winds ..

theorem sweepBars_winds (n : Nat) (s : State) : Winds .faulted s (sweepBars n s) := by
  induction n generalizing s with
  | zero => exact .refl s
  | succ n ih =>
    unfold sweepBars
    split
    · exact .refl s
    · split
      · exact .refl s
      · exact (deliver_winds s _ _ rfl rfl).trans (ih _)

theorem sweep_winds (s : State) : Winds .faulted s (sweep s) := sweepBars_winds ..

theorem endRecords_winds (s : State) (world : Nat) (d : Fin 4) (p : Agent → Bool) : Winds how s (endRecords s world d p) := by
  unfold endRecords
  split
  · exact .refl s
  · extract_lets t hit
    refine (Winds.of_eq rfl rfl rfl : Winds how s t).trans (.foldl (fun s r => ?_) hit t)
    exact (writeNow_winds ..).after (.of_eq rfl rfl rfl)

/-! ## A level of work is cancelled -/

/-- The end of one strand below a cancelled level, with its records. -/
def stopOne (s : State) (sid : StrandId) : State :=
  match s.env? sid with
  | some e => endRecords (endStrand s sid .cancelled) e.world e.die fun a => a == .scalar sid || a == .vector sid
  | none => s

theorem stopUnder_eq (s : State) (i : InstId) : stopUnder s i =
    sweep (((s.strands.map Prod.fst).filter fun sid => under (marked s i) i (unitOf sid.wg)).foldl stopOne (marked s i)) := rfl

theorem stopOne_winds (s : State) (sid : StrandId) : Winds .cancelled s (stopOne s sid) := by
  unfold stopOne
  split
  · exact (endStrand_winds ..).trans (endRecords_winds ..)
  · exact .refl s

theorem stopOne_keepsWork (s : State) (sid : StrandId) : KeepsWork s (stopOne s sid) := by
  unfold stopOne
  split
  · exact (endStrand_keepsWork ..).trans (endRecords_keepsWork ..)
  · exact .refl s

/-- A cancelled level has the state CANCELLED. -/
def InstCancelled (i : InstId) (s : State) : Prop := (s.inst? i).map Inst.state = some .cancelled

theorem InstCancelled.winds {i : InstId} {s t : State} (h : InstCancelled i s) (hw : Winds how s t) : InstCancelled i t := (hw.insts i).trans h

theorem InstCancelled.exists {i : InstId} {s : State} (h : InstCancelled i s) : ∃ y, s.inst? i = some y ∧ y.state = .cancelled :=
  Option.map_eq_some_iff.1 h

theorem marked_cancelled {s : State} {i : InstId} {x : Inst} (h : s.inst? i = some x) (hx : x.state = .running) : InstCancelled i (marked s i) := by
  have hm : (marked s i).inst? i = (s.insts.get? i).map (markInst s i i) := Assoc.get?_map s.insts (markInst s i) i
  have hu : under s i i = true := by simp [under, underGo]
  rw [InstCancelled, hm, show s.insts.get? i = some x from h]
  simp [markInst, hx, hu]

theorem stopUnder_cancelled {s : State} {i : InstId} {x : Inst} (h : s.inst? i = some x) (hx : x.state = .running) :
    InstCancelled i (stopUnder s i) := by
  rw [stopUnder_eq]
  exact ((marked_cancelled h hx).winds (.foldl (fun s sid => stopOne_winds s sid) _ _)).winds (sweep_winds _)

/-- A strand stands in a workgroup of a launch. -/
def Placed (sid : StrandId) (s : State) : Prop := ∃ g l, s.wgs.get? sid.wg = some g ∧ s.launches.get? g.launch = some l

theorem Placed.of_env {s : State} {e : Env} (h : s.env? e.sid = some e) {k : StrandId} (hk : k.wg = e.sid.wg) : Placed k s := by
  obtain ⟨-, -, hg, hl⟩ := State.env?_strand h
  exact ⟨e.wg, e.l, hk ▸ hg, hl⟩

theorem Placed.marked {sid : StrandId} {s : State} (h : Placed sid s) (i : InstId) : Placed sid (marked s i) := by
  obtain ⟨g, l, hg, hl⟩ := h
  have hm : (Machine.marked s i).wgs.get? sid.wg = (s.wgs.get? sid.wg).map (markWg s i sid.wg) := Assoc.get?_map s.wgs (markWg s i) sid.wg
  refine ⟨markWg s i sid.wg g, l, by rw [hm, hg]; rfl, ?_⟩
  unfold markWg
  split <;> exact hl

theorem Placed.keeps {sid : StrandId} {s t : State} (h : Placed sid s) (hk : KeepsWork s t) (hw : Winds how s t) : Placed sid t := by
  obtain ⟨g, l, hg, hl⟩ := h
  exact ⟨g, l, hk.wgs ▸ hg, hw.launches ▸ hl⟩

/-- A strand's own turn. -/
theorem stopOne_cancels {sid : StrandId} {regs : Vector W64 32} {s : State} (h : Cancellable sid regs s) (hp : Placed sid s) :
    Cancelled sid regs (stopOne s sid) := by
  obtain ⟨g, l, hg, hl⟩ := hp
  obtain ⟨st, hst⟩ : ∃ st, s.strands.get? sid = some st := by
    obtain ⟨st, hst, -⟩ | ⟨st, hst, -⟩ := h <;> exact ⟨st, hst⟩
  have he : s.env? sid = some ⟨sid, st, g, l⟩ := by simp only [State.env?, hst, hg, hl]
  rw [stopOne, he]
  exact (endStrand_cancels h).winds (endRecords_winds (how := .cancelled) ..)

/-- Every running strand below the level ends by the cancel. -/
theorem stopUnder_cancels {s : State} {i : InstId} {sid : StrandId} {st : Strand} (hst : s.strands.get? sid = some st) (he : st.ended = .no)
    (hu : under s i (unitOf sid.wg) = true) (hp : Placed sid s) : Cancelled sid st.s (stopUnder s i) := by
  rw [stopUnder_eq]
  refine Cancelled.winds ?_ (sweep_winds _)
  have hmem : sid ∈ (s.strands.map Prod.fst).filter fun sid => under (marked s i) i (unitOf sid.wg) := by
    refine List.mem_filter.2 ⟨List.mem_map_of_mem (f := Prod.fst) (Assoc.mem_of_get? hst), ?_⟩
    rw [under_congr (marked_parent s i) i, hu]
  refine foldl_reaches (P := Cancelled sid st.s) (Q := fun t => Cancellable sid st.s t ∧ Placed sid t) hmem (fun t k ht => ?_)
    (fun t k ht => ht.winds (stopOne_winds t k)) (fun t ht => stopOne_cancels ht.1 ht.2) ⟨.inl ⟨st, hst, he, rfl⟩, hp.marked i⟩
  exact ⟨ht.1.winds (stopOne_winds t k), ht.2.keeps (stopOne_keepsWork t k) (stopOne_winds t k)⟩

theorem finishMat_winds (s : State) (wg : Nat) (c : MatCmd) : Winds how s (finishMat s wg c) := by
  unfold finishMat
  cases c.copy <;> exact .of_eq rfl rfl rfl

/-- The matrix words that end touch no strand and no level. -/
theorem cancelInst_winds (s : State) (i : InstId) : Winds how (stopUnder s i) (cancelInst s i) := by
  refine .foldl (fun t p => ?_) _ _
  split
  · exact .foldl (fun t c => finishMat_winds t p.1 c) _ t
  · exact .refl t

theorem noteSent_winds (s : State) (port peer ix : Nat) (parts : List (Nat × List Byte)) : Winds how s (noteSent s port peer ix parts) := by
  unfold noteSent
  split <;> exact .of_eq rfl rfl rfl

theorem sendCtl_winds (s : State) (ctx kind frame : Nat) (awaits : Bool) (seq : Nat) (first : Option Nat) (p : List Byte) :
    Winds how s (sendCtl s ctx kind frame awaits seq first p) := by
  unfold sendCtl
  split
  · exact .refl s
  extract_lets g port peer s1
  have h1 : Winds how s s1 := (noteSent_winds ..).after (.of_eq rfl rfl rfl)
  split
  · exact h1.trans (.of_eq rfl rfl rfl)
  · exact h1

theorem abandonMove_winds (s : State) (ctx : Nat) : Winds how s (abandonMove s ctx) := by
  unfold abandonMove
  split
  · exact .refl s
  · split
    · exact (sendCtl_winds ..).after (.of_eq rfl rfl rfl)
    · exact (sendCtl_winds ..).after (.of_eq rfl rfl rfl)
    · exact (sendCtl_winds ..).after (.of_eq rfl rfl rfl)
    · exact .refl s

theorem abandonUnder_winds (s : State) (i : InstId) : Winds how s (abandonUnder s i) := .foldl (fun s ctx => abandonMove_winds s ctx) _ s

/-- A level that a climb reaches is one the start lies under. -/
theorem underGo_of_climb {s : State} {lv : Level} {n : Nat} {a i : InstId} (h : climb s lv n a = some i) : underGo s i n a = true := by
  induction n generalizing a with
  | zero => cases h
  | succ n ih =>
    rw [climb] at h
    rw [underGo]
    by_cases hi : a = i
    · rw [if_pos hi]
    rw [if_neg hi]
    by_cases hl : a.level = lv
    · rw [if_pos hl] at h
      exact absurd (Option.some.inj h) hi
    rw [if_neg hl] at h
    cases hp : (s.inst? a).bind Inst.parent with
    | none => simp [hp] at h
    | some p =>
      simp only [hp] at h ⊢
      exact ih h

theorem under_of_climb {s : State} {lv : Level} {a i : InstId} (h : climb s lv 6 a = some i) : under s i a = true := underGo_of_climb h

end Sys2Proof.Machine
end

section
/-! The words of launches, settled: SCANCEL by its operand and its privilege (07 R207; 16 R306). -/

namespace Sys2Proof.Machine
open Sys2Proof

/-- The machine with a level cancelled and the moves below it abandoned. -/
def State.levelCancelled (s : State) (i : InstId) : State := abandonUnder (cancelInst s i) i

theorem levelCancelled_winds (s : State) (i : InstId) {how : End} : Winds how (stopUnder s i) (s.levelCancelled i) :=
  (cancelInst_winds s i).trans (abandonUnder_winds ..)

theorem levelCancelled_cancelled {s : State} {i : InstId} {x : Inst} (h : s.inst? i = some x) (hx : x.state = .running) :
    InstCancelled i (s.levelCancelled i) := (stopUnder_cancelled h hx).winds (levelCancelled_winds (how := .cancelled) s i)

/-- A strand that was there is there still. -/
theorem levelCancelled_strand {s : State} {sid : StrandId} {st : Strand} (h : s.strands.get? sid = some st) (i : InstId) :
    ∃ st', (s.levelCancelled i).strands.get? sid = some st' := by
  have hm : Winds .cancelled (marked s i) _ := .foldl (fun s k => stopOne_winds s k)
    ((s.strands.map Prod.fst).filter fun k => under (marked s i) i (unitOf k.wg)) _
  obtain ⟨st1, h1, -⟩ := hm.strands sid st h
  obtain ⟨st2, h2, -⟩ := (sweep_winds _).strands sid st1 h1
  obtain ⟨st3, h3, -⟩ := (levelCancelled_winds s i (how := .cancelled)).strands sid st2 h2
  exact ⟨st3, h3⟩

/-! ## A cancel of the strand's own level -/

/-- The machine with the strand's own level cancelled, where it has one, before the strand itself ends. -/
def State.ownCancelled (s : State) (e : Env) (l : Level) : State :=
  match climb s l 6 (unitOf e.sid.wg) with
  | some i => s.levelCancelled i
  | none => s

section
variable {s : State} {e : Env} {g : Guard} (hi : Issues s e g) {l : Level}

include hi in
theorem exec_scancel_own (d : SReg) (l : Level) : exec (.scancel g d 0 l) s =
    .next ((sweep (endStrand (s.ownCancelled e l) e.sid .cancelled)).after e (e.st.pc + 4) fun st => st) := by
  show execScancel g d 0 l s = _
  rw [execScancel, scalarWord_runs hi _ _ _ (if_neg fun h => h.1 rfl), if_pos rfl]
  rfl

variable (s e l) in
/-- What the strand's own end, its barriers and its moving on change after the cancel. -/
theorem ownEnd_winds : Winds .cancelled (s.ownCancelled e l) (endStrand (s.ownCancelled e l) e.sid .cancelled) ∧
    Winds .faulted (endStrand (s.ownCancelled e l) e.sid .cancelled)
      ((sweep (endStrand (s.ownCancelled e l) e.sid .cancelled)).after e (e.st.pc + 4) fun st => st) :=
  ⟨endStrand_winds .., (sweep_winds _).trans (.modStrand _ _ fun _ _ => .of_same rfl rfl rfl rfl)⟩

/-- A strand of the unit that has not ended. -/
theorem ownCancelled_cancels (he : s.env? e.sid = some e) {i : InstId} (hc : climb s l 6 (unitOf e.sid.wg) = some i) {k : StrandId} {st : Strand}
    (hk : k.wg = e.sid.wg) (hst : s.strands.get? k = some st) (hr : st.ended = .no) : Cancelled k st.s (s.ownCancelled e l) := by
  rw [State.ownCancelled, hc]
  exact (stopUnder_cancels hst hr (hk ▸ under_of_climb hc) (.of_env he hk)).winds (levelCancelled_winds (how := .cancelled) s i)

/-- The issuer itself, whether its level is found or not. -/
theorem ownCancelled_issuer (he : s.env? e.sid = some e) (hr : e.st.ended = .no) : Cancellable e.sid e.st.s (s.ownCancelled e l) := by
  have hst := (State.env?_strand he).2.1
  cases hc : climb s l 6 (unitOf e.sid.wg) with
  | some i => exact .inr (ownCancelled_cancels he hc rfl hst hr)
  | none =>
    rw [State.ownCancelled, hc]
    exact .inl ⟨e.st, hst, hr, rfl⟩

end

/-! ## A cancel of a launch by its number -/

section
variable {s : State} {e : Env} {g : Guard} (hi : Issues s e g) (d : SReg) {a : SReg} (ha : a ≠ 0) {l : Level}
include hi ha

theorem exec_scancel_unit : exec (.scancel g d a .unit) s = .next (raiseScalar s e { code := .illegalInstr }) := by
  show execScancel g d a .unit s = _
  exact scalarWord_refuses hi.cur hi.env g 4 _ (if_pos ⟨ha, rfl⟩)

variable (hl : l ≠ .unit)
include hl

theorem exec_scancel_user (hp : e.l.desc.priv = false) : exec (.scancel g d a l) s = .next (faultScalar s e { code := .access }) := by
  show execScancel g d a l s = _
  rw [execScancel, scalarWord_runs hi _ _ _ (if_neg fun h => hl h.2), if_neg ha, Env.priv, hp]
  rfl

variable (hp : e.l.desc.priv = true)
include hp

theorem exec_scancel_unknown (hx : ∀ x, s.launches.get? (e.st.rd a).toNat = some x → x.world ≠ e.l.world) :
    exec (.scancel g d a l) s = .next (s.after e (e.st.pc + 4) fun st => st.wr d 3) := by
  show execScancel g d a l s = _
  rw [execScancel, scalarWord_runs hi _ _ _ (if_neg fun h => hl h.2), if_neg ha, Env.priv, hp]
  cases hk : s.launches.get? (e.st.rd a).toNat with
  | none =>
    simp only [hk, Bool.not_true, Bool.not_false, Bool.false_eq_true, if_false, if_true]
    exact congrArg _ (finish_done ..)
  | some x =>
    have hw : (x.world == e.world) = false := beq_eq_false_iff_ne.2 (hx x hk)
    simp only [hk, hw, Bool.not_true, Bool.not_false, Bool.false_eq_true, if_false, if_true]
    exact congrArg _ (finish_done ..)

/-- A level of a launch of the strand's world: the cancel's status, and its effect where the level runs. -/
theorem exec_scancel_known {x : Launch} (hx : s.launches.get? (e.st.rd a).toNat = some x) (hw : x.world = e.l.world) {i : InstId}
    (hc : climb s l 6 ⟨.launch, (e.st.rd a).toNat⟩ = some i) : exec (.scancel g d a l) s =
      .next ((if (cancelStatus s i).2 = 0 then abandonUnder (cancelStatus s i).1 i else (cancelStatus s i).1).after e (e.st.pc + 4)
        fun st => st.wr d (BitVec.ofNat 64 (cancelStatus s i).2)) := by
  show execScancel g d a l s = _
  rw [execScancel, scalarWord_runs hi _ _ _ (if_neg fun h => hl h.2), if_neg ha, Env.priv, hp]
  have hk : (x.world == e.world) = true := beq_iff_eq.2 hw
  simp only [hx, hc, hk, Bool.not_true, Bool.false_eq_true, if_false]
  exact congrArg _ (finish_done ..)

end

/-- Settles O36: SLAUNCH by the outcome of its submission, SCNT by what it reads, SCANCEL by its operand, its privilege and the state of the
level. -/
theorem launchWords : Obligations.LaunchWords := by
  unfold Obligations.LaunchWords
  refine ⟨fun s e g d a nb i he hi => ?_, fun s e g d l i x hi hc hx => ?_, fun s e g d l v hi => ⟨_, exec_scnt hi d l v⟩,
    fun s e g d a l hi ha => ⟨fun hl hp => exec_scancel_user hi d ha hl hp, fun hl => ?_, fun hl hp => ⟨exec_scancel_unknown hi d ha hl hp,
      fun x i y hx hw hc hy => ⟨fun hs => ?_, fun hs => ?_, fun hs => ?_⟩⟩⟩, fun s e g d l hi hr => ?_⟩
  · intro va r
    have hexec := exec_slaunch he hi
    refine ⟨fun h => hexec.trans (congrArg _ (slaunchBody_high h)), fun h ha => hexec.trans (congrArg _ (slaunchBody_misaligned h ha)),
      fun s1 bs h ha hr hb => ?_, fun h ha hst hd hx hnb => ?_⟩
    · intro out answers
      have hx : exec i s = .next (launchEnd s1 e d a nb out) := hexec.trans (congrArg _ (slaunchBody_submits h ha (Prod.ext rfl hr) hb))
      have hanswers {t : State} {v : Int} (ho : launchEnd s1 e d a nb out = t.wordAnswer e d v) : answers t v := hx.trans (congrArg _ ho)
      exact ⟨fun hp => childSubmit_unparsed hp, fun ho => hanswers (by rw [ho]; rfl), fun ho => hanswers (by rw [ho]; rfl),
        fun ho hnb => hanswers (by rw [ho, hnb]; rfl), fun ho hnb => hx.trans (congrArg _ (by rw [ho, hnb]; rfl)),
        fun t n ho => ⟨hanswers (by rw [ho]; rfl), submit_accepted_child ho⟩⟩
    · obtain ⟨⟨s1, bs⟩, hb⟩ := hx
      have hrel : release s e.sid (some .dev) = (s, true) := release_empty he hst (fun _ => hd) (fun h => nomatch h)
      obtain ⟨t, v, ht⟩ := launchEnd_answers s1 e d a (childSubmit s1 e va bs)
      rw [hnb] at hexec
      exact ⟨t, BitVec.ofInt 64 v, hexec.trans (congrArg _ ((slaunchBody_submits h ha hrel hb).trans ht))⟩
  · have hi? : (climb s l 6 (unitOf e.sid.wg)).bind s.inst? = some x := by rw [hc]; exact hx
    have hreads {v : CountItem} {r : W64} (hv : countOf s e l v = r) :
        exec (.scnt g d v l) s = .next (s.after e (e.st.pc + 4) fun st => st.wr d r) := hv ▸ exec_scnt hi d l v
    refine ⟨hreads ?_, hreads ?_, fun hs => hreads ?_, fun hs => hreads ?_, fun hs => hreads ?_, hreads ?_⟩ <;> rw [countOf, hi?]
    · exact congrArg (fun k : InstState => BitVec.ofNat 64 k.num) hs
    · exact congrArg (fun k : InstState => BitVec.ofNat 64 k.num) hs
    · exact congrArg (fun k : InstState => BitVec.ofNat 64 k.num) hs
    · rfl
  · rw [hl]
    exact exec_scancel_unit hi d ha
  · have hstat : cancelStatus s i = (s, 1) := by simp [cancelStatus, hy, hs]
    rw [exec_scancel_known hi d ha hl hp hx hw hc, hstat]
    rfl
  · have hstat : cancelStatus s i = (s, 2) := by simp [cancelStatus, hy, hs]
    rw [exec_scancel_known hi d ha hl hp hx hw hc, hstat]
    rfl
  · have hstat : cancelStatus s i = (cancelInst s i, 0) := by simp [cancelStatus, hy, hs]
    obtain ⟨z, hz, hzs⟩ := (levelCancelled_cancelled hy hs).exists
    obtain ⟨st, hst⟩ := levelCancelled_strand (State.env?_strand hi.env).2.1 i
    have hexec := exec_scancel_known hi d ha hl hp hx hw hc
    rw [hstat, if_pos rfl] at hexec
    exact ⟨_, z, _, hexec, hz, hzs, State.modStrand_self hst _, fun hd => rd_written _ hd _ _ _⟩
  · obtain ⟨h1, h2⟩ := ownEnd_winds s e l
    obtain ⟨st, hst, he, hq, hb, hs⟩ := (endStrand_cancels (ownCancelled_issuer (l := l) hi.env hr)).winds h2
    refine ⟨_, st, exec_scancel_own hi d l, hst, he, hq, hb, hs, fun i x hc hx => ⟨fun hrun => ?_, fun k st0 hk hst0 hno => ?_⟩⟩
    · have hcan : InstCancelled i (s.ownCancelled e l) := by
        rw [State.ownCancelled, hc]
        exact levelCancelled_cancelled hx hrun
      exact ((hcan.winds h1).winds h2).exists
    · obtain ⟨st1, hst1, hend, -⟩ := ((ownCancelled_cancels hi.env hc hk hst0 hno).winds h1).winds h2
      exact ⟨st1, hst1, hend⟩

end Sys2Proof.Machine
end
